-- ==== Sys2Proof/Word.lean ====
section
/-! DEFINITION. The words of the module: bytes, and the fixed-width words its registers, addresses and data are made of. -/

namespace Sys2Proof

/-- A byte of memory. -/
abbrev Byte := BitVec 8

/-- A counter register C0 to C15, a 32-bit data word (Table 4.1). -/
abbrev Word := BitVec 32

/-- A program address, as an address register A0 to A15 holds it (Table 4.1, R67). -/
abbrev Addr := BitVec 48

/-- A 64-bit word: the GSC, keys and 8-byte operands. -/
abbrev DWord := BitVec 64

/-- A Psigo instruction word (R73). -/
abbrev IWord := BitVec 128

end Sys2Proof
end

