-- ==== Sys2Proof/Syntax.lean ====
section
/-! DEFINITION. The commands the module takes, whole: one constructor of `Instr` per row of spec/opcode_table.json, with the
operands that say where it happens and what the surroundings bring (measured values, arriving packets, host data). -/

namespace Sys2Proof

/-- The step rings that pacing governs (Table 2.1). -/
inductive Ring where
  | dpa | vrw | sq | mover | scratch | se | link | mdie | xdie
  deriving DecidableEq, Repr

/-- What one ring did in a 1 µs pacing window (R39): the beats it began, and whether it had work throughout. -/
structure RingWindow where
  ring : Ring
  begun : Nat
  hadWork : Bool
  deriving DecidableEq, Repr

/-- A die-to-die beat as its receiver gets it (R32): its place in the sender's 32-beat replay buffer, the four wires of every payload channel
and of the 8 CRC channels, and whether every channel has returned to the spacer. -/
structure DieBeat where
  place : Nat
  payload : List Nat
  crc : List Nat
  spacer : Bool
  deriving DecidableEq, Repr

/-- What comes back with a mover beat (R118, R217, R225, R227): the wait charged to each cause of Table 10.2 in ns, the bytes a
T2 or T3 read brought, the T1 chunk found uncorrectable, M-dies that corrected an error, and a failed T2 or T3 access. -/
structure BeatReport where
  waits : List (Nat × Nat)
  arrived : List Byte
  uncorrectable : Option Nat
  corrected : List Nat
  failed : Bool
  deriving DecidableEq, Repr

/-- A DPA bank parity error (R180): the vector that found it, the column and the slice. -/
structure DpaParity where
  vector : Nat
  column : Nat
  slice : Nat
  deriving DecidableEq, Repr

/-- One operation of a ledger record (Table 12.18). -/
structure LedgerOp where
  op : Nat
  handle : Nat
  a : Nat
  b : Nat
  c : Nat
  deriving DecidableEq, Repr

/-- A ledger record as received (Table 12.17). -/
structure LedgerRecord where
  ledger : Nat
  record : Nat
  crc : Nat
  cause : Nat
  flags : Nat
  batch : Nat
  gsc : Nat
  tag : Nat
  ops : List LedgerOp
  deriving DecidableEq, Repr

/-- What the copies of parks and restores bring: the bytes read from T2 or T3, in order, which copies T2 or T3 fail, one entry a copy and
none for one that does not (R294), and the beats that waited, each with its tier and the ns charged to each cause (R227). -/
structure CopyData where
  arrived : List Byte
  failed : List Bool
  beats : List (Nat × List (Nat × Nat))
  deriving DecidableEq, Repr

/-- What the NAND and the sources of one NVS operation gave: bytes that a T3 source read brought, whether a source failed, data
units corrected, the user address of a unit that stayed uncorrectable, the bytes completed where it ended early (R235, R247), and the
beats of the NVS that waited (R227). -/
structure NvsReport where
  arrived : List Byte
  sourceFailed : Bool
  corrected : Nat
  uncorrectable : Option Nat
  done : Nat
  beats : List (Nat × List (Nat × Nat))
  deriving DecidableEq, Repr

/-- The header of a request as it reaches this target (Table 17.1), with the plane it came on. -/
structure RequestHead where
  src : Nat
  kind : Nat
  unit : Nat
  job : Nat
  key : Nat
  offset : Nat
  lines : Nat
  var : Nat
  seq : Nat
  tag : Nat
  deriving DecidableEq, Repr

/-- How a target command stands to its bank: the request is taken and applied at once, is taken and waits, or is one that waited and is
now applied (R414). -/
inductive TargetWait where
  | atOnce | waits | resumes
  deriving DecidableEq, Repr

/-- What the bank of a target found (R217): the T1 chunk found uncorrectable, and M-dies that corrected an error. -/
structure BankReport where
  uncorrectable : Option Nat
  corrected : List Nat
  deriving DecidableEq, Repr

/-- A response as it reaches the source (Table 17.3): the plane it came on, its type, reason, congestion mark, seq, tag and data. -/
structure ResponseHead where
  plane : Nat
  type : Nat
  reason : Nat
  mark : Bool
  seq : Nat
  tag : Nat
  deriving DecidableEq, Repr

/-- A row of a batch descriptor (Table 13.8), with the end of the append range it reserved. -/
structure BatchRow where
  handle : Nat
  kind : Nat
  n : Nat
  pos : Nat
  count : Nat
  patchSlot : Nat
  sampleFirst : Nat
  hist : Nat
  seed : Nat
  temp : Nat
  topP : Nat
  topK : Nat
  tokens : List Nat
  deriving DecidableEq, Repr

/-- A batch descriptor (Table 13.7). `slot` is the generation slot of the batch. -/
structure Batch where
  ledger : Nat
  number : Nat
  samples : Nat
  tokens : Nat
  gen : Nat
  slot : Nat
  gsc : Nat
  rows : List BatchRow
  deriving DecidableEq, Repr

/-- One member's partial for a sample row (R321): its slices, of which the packet carries the width count, the NaN flag, M_s and S_s, the
index and value of its largest v, and its top pairs. -/
structure Partial where
  spans : List (Nat × Nat)
  nan : Bool
  maxU : Nat
  sumS : Nat
  bestIx : Nat
  bestV : Nat
  top : List (Nat × Nat)
  deriving DecidableEq, Repr

/-- A result row (Table 13.10). `why` says why a row has no token: 1 a NaN in its logits, 2 incomplete logits; 0 otherwise. -/
structure ResultRow where
  handle : Nat
  emitted : Nat
  next : Nat
  tokens : List Nat
  why : Nat
  deriving DecidableEq, Repr

/-- What a packet that reaches an engine carries in its header: source endpoint, seq, tag, 0 where it is addressed to this endpoint, or one
more than the group, and the engine that sent it (Table 17.1). -/
structure PacketHead where
  source : Nat
  seq : Nat
  tag : Nat
  group : Nat
  unit : Nat
  deriving DecidableEq, Repr

/-- The fields of an XE row packet (Table 17.17): half 0 dispatch, 1 return. -/
structure ExchangeRow where
  context : Nat
  epoch : Nat
  half : Nat
  lexp : Nat
  phase : Nat
  slot : Nat
  src : Nat
  row : Nat
  choice : Nat
  deriving DecidableEq, Repr

/-- The fields of an XE end marker packet (Table 17.17). -/
structure ExchangeMark where
  context : Nat
  epoch : Nat
  half : Nat
  lexp : Nat
  phase : Nat
  src : Nat
  rows : Nat
  deriving DecidableEq, Repr

/-- Lines of an item that one packet carries, from line `first` on (R424). -/
structure ItemLines where
  first : Nat
  bytes : List Byte
  deriving DecidableEq, Repr

/-- Lines of a row that one packet carries (R424), and the beats of the XE for it that waited (R227). -/
structure RowLines where
  first : Nat
  bytes : List Byte
  beats : List (Nat × List (Nat × Nat))
  deriving DecidableEq, Repr

/-- An end marker packet, and the beats of the XE for it that waited (R227). -/
structure MarkArrival where
  mark : ExchangeMark
  beats : List (Nat × List (Nat × Nat))
  deriving DecidableEq, Repr

/-- The core whose exchange rows the XE has taken, and the beats of the XE for them that waited (R227). -/
structure RowsTaken where
  core : Nat
  beats : List (Nat × List (Nat × Nat))
  deriving DecidableEq, Repr

/-- Lines of a batch descriptor of `total` lines that one packet carries, from line `first` on (R313, R424). -/
structure BatchLines where
  ledger : Nat
  batch : Nat
  total : Nat
  first : Nat
  bytes : List Byte
  deriving DecidableEq, Repr

/-- Half 0 or 1 of a partial (Table 17.17): its 32 pairs, with the other fields of the partial. -/
structure PartialHalf where
  half : Nat
  part : Partial
  deriving DecidableEq, Repr

/-- What holds of each packet of an end report (Table 17.17): the numbers of proposals and of result rows of the whole, and which item it
begins with; with them comes whether the sender lacks the batch's generation, which no field carries (log 34). -/
structure ReportHead where
  missing : Bool
  counts : Nat × Nat
  first : Nat
  deriving DecidableEq, Repr

/-- The inputs P54A and P54B in mV. -/
structure InputVolts where
  main : Nat
  backup : Nat
  deriving DecidableEq, Repr

/-- What a power-on finds: the slot straps (R526), whether the loss of power tore the persistence copy in writing (R453), and the first journal
record whose code then fails (R241). -/
structure PowerOn where
  straps : Nat
  torn : Bool
  badRecord : Option Nat
  deriving DecidableEq, Repr

/-- A field repair entry (Table 20.9). -/
structure RepairEntry where
  slot : Nat
  kind : Nat
  source : Nat
  addr : Nat
  bit : Nat
  deriving DecidableEq, Repr

/-- The commands of the module: one constructor per row of the table of operations and events (spec/opcode_table.json). A Psigo
instruction names the core at whose program index it stands; the instruction word is read from that core's store. -/
inductive Instr where
  /-- REGISTER_WRITE (R13): A BAR0 write to a register field with no behaviour of its own stores or discards the value as its access code gives. -/
  | registerWrite (offset bytes value : Nat)
  /-- RATECTL_GUST_REQUEST (R42): A PWR_RATECTL write with mode 0 is tested and, if accepted, starts a change to Gust mode. -/
  | ratectlGustRequest (rate : Nat)
  /-- RATECTL_BREEZE_REQUEST (R42): A PWR_RATECTL write with mode 1 is tested against range and Breeze ceiling and, if accepted, starts a change to Breeze mode at the requested rate. -/
  | ratectlBreezeRequest (rate : Nat)
  /-- RATE_CHANGE_COMPLETE (R42): An accepted mode or rate change reaches its new pacing and PWR_RATESTAT.busy clears. -/
  | rateChangeComplete
  /-- PACING_WINDOW_END (R39): At the end of each 1 µs pacing window the module checks every ring for a Breeze slip, counts it and raises the rail. -/
  | pacingWindowEnd (rings : List RingWindow)
  /-- BREEZE_RAIL_ADJUST (R38): A junction change of 1 °C or a refit completion makes the Breeze governor choose a new core rail. -/
  | breezeRailAdjust
  /-- PACING_RAISE_STEP (R40): After a limit clears, the module raises the pacing rate by one step toward the declared rate and clears suspended when it is reached. -/
  | pacingRaiseStep
  /-- DIE_LINK_BEAT_ERROR (R32): A die-to-die beat with a bad symbol, CRC or spacer is withheld and replayed from the sender's buffer. -/
  | dieLinkBeatError (link dir : Nat) (beat : DieBeat)
  /-- UNIT_ENABLE (R53): A UNIT_CTRL write of enable is serialised and applied to the unit and every non-retired member. -/
  | unitEnable (slot : Nat) (enable : Bool)
  /-- UNIT_QUIESCE (R90): A UNIT_CTRL quiesce stops the unit's cores at their next pre-emption point in run state 4. -/
  | unitQuiesce (slot : Nat) (enable : Bool)
  /-- UNIT_RESET (R54): A UNIT_CTRL unit_reset clears the unit's engine queues, mover and sequencer state and returns run to 1, or is rejected. -/
  | unitReset (slot : Nat) (enable : Bool)
  /-- UNIT_CTRL_APPLIED (R53): A queued UNIT_CTRL write finishes taking effect on every unit it reaches and busy clears after the last. -/
  | unitCtrlApplied
  /-- UNIT_EVT_CLEAR (R55): Writing 1 to a UNIT_EVT bit clears it in the unit and in every member. -/
  | unitEvtClear (slot mask : Nat)
  /-- GROUP_DEFINE (R58): A write of GROUP_DEF count tests and applies the staged group definition and raises CAP_GEN. -/
  | groupDefine (group count : Nat)
  /-- NOP (R101): NOP performs only its wait and signal. -/
  | nop (core : Nat)
  /-- END (R74): END ends the core's part of the job once its issued operations complete. -/
  | endJob (core : Nat)
  /-- CORE_PART_END (R74): A core that issued END finishes its last operation; when all cores have ended the SE writes the job's completion record. -/
  | corePartEnd (core : Nat)
  /-- LOOP (R102): LOOP reads its count and opens a counted loop, or passes over its body when the count is 0. -/
  | loop (core : Nat)
  /-- SKIP (R104): SKIP passes over the next n instructions when its predicate test passes. -/
  | skip (core : Nat)
  /-- SEL_A (R101): SEL.A selects one of two address registers by a predicate. -/
  | selA (core : Nat)
  /-- SEL_C (R101): SEL.C selects one of two counter registers by a predicate. -/
  | selC (core : Nat)
  /-- MOVI_A (R101): MOVI.A loads a 48-bit immediate into an address register. -/
  | moviA (core : Nat)
  /-- MOVI_C (R101): MOVI.C loads a 32-bit immediate into a counter register. -/
  | moviC (core : Nat)
  /-- ADD (R101): ADD adds two counter registers modulo 2^32. -/
  | add (core : Nat)
  /-- SUB (R101): SUB subtracts two counter registers modulo 2^32. -/
  | sub (core : Nat)
  /-- ADDI (R101): ADDI adds an immediate to a counter register. -/
  | addi (core : Nat)
  /-- MULI (R101): MULI multiplies a counter register by an immediate, keeping the low 32 bits. -/
  | muli (core : Nat)
  /-- SHLI (R101): SHLI shifts a counter register left by an immediate. -/
  | shli (core : Nat)
  /-- SHRI (R101): SHRI shifts a counter register right logically by an immediate. -/
  | shri (core : Nat)
  /-- ANDI (R101): ANDI ands a counter register with an immediate. -/
  | andi (core : Nat)
  /-- MINU (R101): MINU writes the unsigned minimum of two counter registers. -/
  | minu (core : Nat)
  /-- MAXU (R101): MAXU writes the unsigned maximum of two counter registers. -/
  | maxu (core : Nat)
  /-- ADDA (R101): ADDA adds an extended counter register to an address register. -/
  | adda (core : Nat)
  /-- ADDAI (R101): ADDAI adds a sign-extended immediate to an address register. -/
  | addai (core : Nat)
  /-- MADA (R101): MADA adds a counter register times an immediate to an address register. -/
  | mada (core : Nat)
  /-- MOV_CA (R101): MOV.CA copies a zero-extended counter register into an address register. -/
  | movCa (core : Nat)
  /-- MOV_AC (R101): MOV.AC copies the low 32 bits of an address register into a counter register. -/
  | movAc (core : Nat)
  /-- CMP (R101): CMP writes a predicate from a comparison of two counter registers. -/
  | cmp (core : Nat)
  /-- CMPI (R101): CMPI writes a predicate from a comparison of a counter register with an immediate. -/
  | cmpi (core : Nat)
  /-- CMPA (R101): CMPA writes a predicate from a comparison of two address registers. -/
  | cmpa (core : Nat)
  /-- PAND (R101): PAND writes the AND of two predicates. -/
  | pand (core : Nat)
  /-- POR (R101): POR writes the OR of two predicates. -/
  | por (core : Nat)
  /-- PXOR (R101): PXOR writes the XOR of two predicates. -/
  | pxor (core : Nat)
  /-- PANDN (R101): PANDN writes a AND NOT b of two predicates. -/
  | pandn (core : Nat)
  /-- PNOT (R101): PNOT writes the inverse of a predicate. -/
  | pnot (core : Nat)
  /-- PSET (R101): PSET sets a predicate to an immediate bit. -/
  | pset (core : Nat)
  /-- RDS (R105): RDS reads JOB, RANK, NCORES or a half of the GSC, latching the GSC on the low half. -/
  | rds (core : Nat)
  /-- SETLDB (R101): SETLDB sets the loop-descriptor base from an address register. -/
  | setldb (core : Nat)
  /-- ALARM_SET (R106): ALARM mode 0 sets the GSC alarm target to an absolute value. -/
  | alarmSet (core : Nat)
  /-- ALARM_RELATIVE (R106): ALARM mode 1 sets the alarm target to the seen GSC plus a count. -/
  | alarmRelative (core : Nat)
  /-- ALARM_DISARM (R106): ALARM mode 2 disarms the GSC alarm. -/
  | alarmDisarm (core : Nat)
  /-- GSC_ALARM_FIRE (R80): The GSC seen by a core reaches its alarm target, which signals the bound event and disarms the alarm. -/
  | gscAlarmFire (core : Nat)
  /-- SIGC_RANK (R107): SIGC with sub 0 sends one core signal to the core of a given rank. -/
  | sigcRank (core : Nat)
  /-- SIGC_CLUSTER (R107): SIGC with sub 1 sends a core signal to every other core of the job in the cluster. -/
  | sigcCluster (core : Nat)
  /-- CORE_SIGNAL_ARRIVAL (R107): A core signal lands in the target's event counter or pending tally 8 to 40 SQ steps after issue. -/
  | coreSignalArrival (core job event : Nat)
  /-- BAR (R108): BAR records the core's arrival at the job barrier's current round. -/
  | bar (core : Nat)
  /-- BARRIER_COMPLETE (R108): 12 to 60 SE steps after the last arrival the module signals every barrier-bound event of the job. -/
  | barrierComplete (job : Nat)
  /-- TCLAIM (R109): TCLAIM starts an atomic fetch-add on the job's tile counter and holds the SQ. -/
  | tclaim (core : Nat)
  /-- TILE_CLAIM_APPLY (R144): At the claim port a step's host write and then its claims in ascending core number are applied. -/
  | tileClaimApply (tile : Nat) (cores : List Nat)
  /-- TCLAIM_RETURN (R109): The old value returns and TCLAIM writes its counter register and predicate, ending the hold. -/
  | tclaimReturn (core : Nat)
  /-- TILECNT_HOST_WRITE (R144): A host write to SEQ_TILECNT reaches the claim port and is applied before that step's claims. -/
  | tilecntHostWrite (tile value : Nat)
  /-- DPASS (R110): DPASS issues a weight-tile pass that fills through the hem and streams M activation vectors. -/
  | dpass (core : Nat)
  /-- DPASS_COMPLETE (R112): 20 DPA steps after its last vector a pass has every output in scratch and signals. -/
  | dpassComplete (core : Nat) (parity : Option DpaParity)
  /-- VMAC (R192): VMAC accumulates lane-major products against a broadcast vector into 512 FP32 results. -/
  | vmac (core : Nat)
  /-- VEW_FMA (R193): VEW FMA computes a times s plus c per element. -/
  | vewFma (core : Nat)
  /-- VEW_MUL (R193): VEW MUL computes a times s per element. -/
  | vewMul (core : Nat)
  /-- VEW_ADD (R193): VEW ADD computes a plus c per element. -/
  | vewAdd (core : Nat)
  /-- VEW_SUB (R193): VEW SUB computes a minus c per element. -/
  | vewSub (core : Nat)
  /-- VEW_MAX (R193): VEW MAX computes the maximum of a and c per element. -/
  | vewMax (core : Nat)
  /-- VEW_MIN (R193): VEW MIN computes the minimum of a and c per element. -/
  | vewMin (core : Nat)
  /-- VEW_MULV (R193): VEW MULV computes a times c per element. -/
  | vewMulv (core : Nat)
  /-- VEW_ADDS (R193): VEW ADDS computes a plus s per element. -/
  | vewAdds (core : Nat)
  /-- VRED_MAX (R194): VRED MAX writes the maximum of N elements. -/
  | vredMax (core : Nat)
  /-- VRED_SUM (R194): VRED SUM writes the sum of N elements. -/
  | vredSum (core : Nat)
  /-- VRED_SUMSQ (R194): VRED SUMSQ writes the sum of squares of N elements. -/
  | vredSumsq (core : Nat)
  /-- VEXP_EXP (R195): VEXP EXP writes exp(a minus s) per element. -/
  | vexpExp (core : Nat)
  /-- VEXP_RCP (R195): VEXP RCP writes the reciprocal per element. -/
  | vexpRcp (core : Nat)
  /-- VEXP_RSQRT (R195): VEXP RSQRT writes the reciprocal square root per element. -/
  | vexpRsqrt (core : Nat)
  /-- VCMP (R197): VCMP writes a byte mask of elements that compare true against s. -/
  | vcmp (core : Nat)
  /-- VSEL (R197): VSEL writes a or s per element by a byte mask. -/
  | vsel (core : Nat)
  /-- VTEST (R115): VTEST marks a predicate pending and writes whether any or all elements compare true. -/
  | vtest (core : Nat)
  /-- VCVT (R198): VCVT scales and converts elements between formats with one rounding. -/
  | vcvt (core : Nat)
  /-- VRW_OP_COMPLETE (R113): A VRW op completes its latency after its last step, writes its result and signals. -/
  | vrwOpComplete (core : Nat) (parity : Option Nat)
  /-- MOVL (R116): MOVL issues a copy of a byte range between stores on a mover. -/
  | movl (core : Nat)
  /-- MFILL (R116): MFILL issues a fill of a byte range with a repeated 32-bit pattern. -/
  | mfill (core : Nat)
  /-- MOVD (R128): MOVD checks its descriptor table and issues a multi-level walk, with an optional pointer list. -/
  | movd (core : Nat)
  /-- MOVER_BEAT_COMPLETE (R118): A mover beat of up to 256 bytes completes at its destination, and tiles and operations complete in order and signal. -/
  | moverBeatComplete (core mover : Nat) (beat : BeatReport)
  /-- MOVER_BEAT_TIMEOUT (R230): A beat whose wait reaches its tier's stall timeout fails the operation with exception 0x040A. -/
  | moverBeatTimeout (core mover : Nat) (waits : List (Nat × Nat)) (dies : List Nat)
  /-- RLD (R119): RLD issues a remote load of lines into core scratch. -/
  | rld (core : Nat)
  /-- RST (R119): RST issues a remote store of lines from core scratch. -/
  | rst (core : Nat)
  /-- RATOM_FETCH_ADD (R119): RATOM variant 0 issues a remote 8-byte fetch-add. -/
  | ratomFetchAdd (core : Nat)
  /-- RATOM_COMPARE_SWAP (R119): RATOM variant 1 issues a remote 8-byte compare-swap. -/
  | ratomCompareSwap (core : Nat)
  /-- RRED_ADD_INT32 (R407): RRED variant 0 issues a remote int32 add reduction. -/
  | rredAddInt32 (core : Nat)
  /-- RRED_ADD_FP32 (R407): RRED variant 1 issues a remote FP32 add reduction. -/
  | rredAddFp32 (core : Nat)
  /-- RRED_ADD_BF16 (R407): RRED variant 2 issues a remote BF16 add reduction. -/
  | rredAddBf16 (core : Nat)
  /-- RRED_MAX_FP32 (R407): RRED variant 3 issues a remote FP32 max reduction. -/
  | rredMaxFp32 (core : Nat)
  /-- RRED_MAX_BF16 (R407): RRED variant 4 issues a remote BF16 max reduction. -/
  | rredMaxBf16 (core : Nat)
  /-- RMCS (R408): RMCS issues a multicast store to a group. -/
  | rmcs (core : Nat)
  /-- BPUT (R119): BPUT issues a bulk put from core scratch. -/
  | bput (core : Nat)
  /-- BGET (R119): BGET issues a bulk get into core scratch. -/
  | bget (core : Nat)
  /-- MSEND (R410): MSEND takes a message credit and sends a message to a queue. -/
  | msend (core : Nat)
  /-- MRECV (R409): MRECV takes the oldest message of the core's queue into scratch and returns a credit. -/
  | mrecv (core : Nat)
  /-- FENCE (R416): FENCE holds later fabric operations until every earlier one of the core has completed. -/
  | fence (core : Nat)
  /-- XDISP (R341): XDISP hands token rows to the XE, which hashes them and dispatches them to their experts. -/
  | xdisp (core : Nat)
  /-- XRET (R343): XRET hands expert result rows to the XE for return to their origins and closes experts. -/
  | xret (core : Nat)
  /-- XE_ROWS_TAKEN (R341): The XE finishes reading an XDISP or XRET block's rows and signals the instruction. -/
  | xeRowsTaken (taken : RowsTaken)
  /-- SEITER_BATCH (R314): SEITER function 0 writes the next batch descriptor into scratch. -/
  | seiterBatch (core : Nat)
  /-- SEITER_RESULT (R314): SEITER function 1 writes the batch's result rows once every sample row has a result. -/
  | seiterResult (core : Nat)
  /-- SEPAGE (R279): SEPAGE writes KV page pointer lists for sequences. -/
  | sepage (core : Nat)
  /-- SEKV (R280): SEKV appends new KV rows to their sequences' pages. -/
  | sekv (core : Nat)
  /-- SELOGIT_TARGET (R317): SELOGIT function 0 submits target logits for sampling. -/
  | selogitTarget (core : Nat)
  /-- SELOGIT_DRAFT (R322): SELOGIT function 1 submits draft logits to sample a proposal. -/
  | selogitDraft (core : Nat)
  /-- SEDONE (R315): SEDONE records the core's part of the iteration and may trigger the end report. -/
  | sedone (core : Nat)
  /-- SE_OP_COMPLETE (R76): An SE instruction's work completes in the SE and the instruction signals. -/
  | seOpComplete (core : Nat) (copies : CopyData)
  /-- BAR4_WRITE (R218): A BAR4 write TLP writes T1 through the staging caches at the current aperture base. -/
  | bar4Write (offset : Nat) (data : List Byte) (report : BankReport)
  /-- BAR4_READ (R218): A BAR4 read TLP reads T1 through the staging caches at the current aperture base. -/
  | bar4Read (offset bytes : Nat) (report : BankReport)
  /-- MEM_LOCK_SET (R207): Writing 1 to MEM_LOCK.lock locks MEM_T1ZONE until a reset that clears T1. -/
  | memLockSet
  /-- MEM_FLUSH_START (R216): A write of MEM_FLUSH.start begins write-back of every dirty staging-cache line. -/
  | memFlushStart
  /-- MEM_FLUSH_COMPLETE (R216): Every write-back of a flush completes and MEM_FLUSH.busy clears. -/
  | memFlushComplete
  /-- STAGING_WRITEBACK (R214): A bank writes back a dirty line in the background when the stack interface has idle slots. -/
  | stagingWriteback (stack line : Nat)
  /-- T2MAP_ACTIVATE (R221): Writing state 1 to a borrower entry activates it after checks. -/
  | t2mapActivate (entry ep : Nat)
  /-- T2MAP_RELEASE (R222): Writing state 0 to a borrower entry releases it and sends a release to the lender. -/
  | t2mapRelease (entry : Nat)
  /-- LEND_ACTIVATE (R221): Writing lend activates a lender entry after checks. -/
  | lendActivate (entry : Nat)
  /-- LEND_RECALL (R222): Writing recall moves a lender entry to recalling and sends a recall to the borrower. -/
  | lendRecall (entry : Nat)
  /-- T2_RECALL_RECEIVE (R222): A borrower receives a T2 recall and sets its entry to recalling with recall_end. -/
  | t2RecallReceive (hd : PacketHead) (roff length recallEnd : Nat)
  /-- T2_RELEASE_RECEIVE (R222): A lender receives a T2 release and begins zeroing the range. -/
  | t2ReleaseReceive (hd : PacketHead) (key : Nat)
  /-- LEND_DEADLINE_EXPIRE (R222): A lender entry reaches recall_end or lease_end and enters zeroing. -/
  | lendDeadlineExpire (entry : Nat)
  /-- LEND_ZEROING_COMPLETE (R223): Zeroing of a lent range completes and the entry returns to free. -/
  | lendZeroingComplete (entry : Nat)
  /-- T2_BORROWER_EXPIRE (R222): A borrower entry reaches recall_end or lease_end unreleased and enters failed. -/
  | t2BorrowerExpire (entry : Nat)
  /-- NVS_RING_ENABLE (R245): Setting NVS_RINGCFG.en resets all four ring indices and enables the rings. -/
  | nvsRingEnable (value : Nat)
  /-- NVS_CMDTAIL_WRITE (R245): A write of NVS_CMDTAIL makes new commands available, or is discarded if out of range. -/
  | nvsCmdtailWrite (value : Nat)
  /-- NVS_CPLHEAD_WRITE (R245): A write of NVS_CPLHEAD frees completion entries, or is discarded if out of range. -/
  | nvsCplheadWrite (value : Nat)
  /-- WRITE (R248): WRITE programs a new shard from T1 or T3 and commits it on a digest match. -/
  | write (host : List Byte)
  /-- LOAD (R254): LOAD reads a shard into a loading generation slot, checking its digest. -/
  | load (host : List Byte)
  /-- VERIFY (R255): VERIFY checks a shard's digest in place at once. -/
  | verify (host : List Byte)
  /-- DELETE (R245): DELETE removes a shard and frees its groups. -/
  | delete (host : List Byte)
  /-- KEEP (R252): KEEP multicasts a shard to a group as its keeper. -/
  | keep (host : List Byte)
  /-- RECV (R253): RECV receives a shard from a keeper, programs it and optionally loads it into T1. -/
  | recv (host : List Byte)
  /-- PLOAD (R263): PLOAD chooses slots and installs up to 8 patches across the patch group. -/
  | pload (host : List Byte)
  /-- PEVICT (R264): PEVICT unmaps a resident patch and makes its slot retiring. -/
  | pevict (host : List Byte)
  /-- NVS_COMMAND_COMPLETE (R247): An NVS command finishes and writes its 16-byte completion record. -/
  | nvsCommandComplete (key : Nat) (report : NvsReport)
  /-- NAND_OPERATION_FAIL (R236): A program or erase fails and the block is retired and its data relocated. -/
  | nandOperationFail (block : Nat)
  /-- NVS_WEAR_LEVEL (R237): Once per minute per channel the NVS relocates data when erase counts diverge by more than 256. -/
  | nvsWearLevel (channel : Nat)
  /-- NVS_READ_DISTURB_RELOCATE (R238): A block's read count reaches 200,000 and the NVS relocates and erases it. -/
  | nvsReadDisturbRelocate (block : Nat)
  /-- NVS_SCRUB (R239): Scrub reads a mapped block and relocates it if its correction margin is low. -/
  | nvsScrub (block : Nat) (weak : Bool) (report : NvsReport)
  /-- NVS_DIGEST_CHECK (R255): A background digest check of a shard completes and marks it bad on failure. -/
  | nvsDigestCheck (shard : Nat) (report : NvsReport)
  /-- NVS_CHECKPOINT (R240): After 65,536 journal records the NVS writes a checkpoint of the map. -/
  | nvsCheckpoint
  /-- KEEPER_CHUNK_RECEIVE (R253): A receiver takes a keeper chunk packet, programs and digests it. -/
  | keeperChunkReceive (hd : PacketHead) (shard chunk : Nat) (lines : ItemLines)
  /-- KEEPER_MARKER_RECEIVE (R253): A receiver takes an end or abort marker and requests missing chunks or ends RECV. -/
  | keeperMarkerReceive (hd : PacketHead) (shard kind sent : Nat)
  /-- REPAIR_REQUEST_RECEIVE (R252): A keeper takes a repair request and re-sends the named chunks. -/
  | repairRequestReceive (hd : PacketHead) (shard : Nat) (chunks : List Nat)
  /-- KEEP_REPAIR_PERIOD_END (R252): 50 ms after its last repair request the keeper completes KEEP. -/
  | keepRepairPeriodEnd (key : Nat)
  /-- RECV_IDLE_TIMEOUT (R253): No chunk arrives for 100 ms and RECV completes with status 0x0B. -/
  | recvIdleTimeout (key : Nat)
  /-- GEN_SET_LOADING (R257): Writing state 1 to a generation slot in state 0 makes it loading. -/
  | genSetLoading (slot : Nat) (keep : Bool)
  /-- GEN_SET_READY (R257): Writing state 2 to a loading slot makes it ready after the load and manifest checks. -/
  | genSetReady (slot : Nat)
  /-- GEN_SET_EMPTY (R257): Writing state 0 to a loading slot or an unreferenced ready slot empties it. -/
  | genSetEmpty (slot : Nat) (keep : Bool)
  /-- GENACT_WRITE (R258): A write to NVS_GENACT makes a ready slot active and returns the old one to ready. -/
  | genactWrite (slot : Nat)
  /-- NVS_LOCK_SET (R517): Writing 1 to NVS_LOCK.lock locks NVS_PATCHCFG. -/
  | nvsLockSet
  /-- PATCH_INSTALL_RECEIVE (R263): A patch group member takes an install packet and loads its shard into the named slot. -/
  | patchInstallReceive (hd : PacketHead) (number : Nat) (entries : List (Nat × Nat × Nat)) (report : NvsReport)
  /-- MEMBER_REPLY_RECEIVE (R263): A former or PLOAD issuer takes a member reply of restore or install outcome. -/
  | memberReplyReceive (hd : PacketHead) (kind ledger handle record position : Nat)
  /-- PLOAD_REPLY_TIMEOUT (R263): A member's reply is missing after 2 s and the PLOAD completes with 0x0D. -/
  | ploadReplyTimeout
  /-- PLOAD_EVICT_TIMEOUT (R265): No slot becomes evictable within 100 ms and the PLOAD completes with 0x0C. -/
  | ploadEvictTimeout
  /-- FORK (R288): FORK gives a free handle the prefix entries of another sequence and raises their counts. -/
  | fork (queue : Nat) (host : List Byte)
  /-- PARK (R291): PARK copies a sequence's unshared sets to park slots and frees them. -/
  | park (queue : Nat) (host : List Byte) (copies : CopyData)
  /-- RESTORE (R293): RESTORE obtains sets and copies a parked sequence's slots back to T1. -/
  | restore (queue : Nat) (host : List Byte) (copies : CopyData)
  /-- DROP (R295): DROP sets a sequence's table entries from a position onward to dropped. -/
  | drop (queue : Nat) (host : List Byte)
  /-- RELEASE (R299): RELEASE frees every entry, slot and table block of a sequence and its record. -/
  | release (queue : Nat) (host : List Byte)
  /-- LEDGER_RECORD_RECEIVE (R282): A module applies a ledger record in record-number order after checking its CRC. -/
  | ledgerRecordReceive (hd : PacketHead) (record : LedgerRecord) (copies : CopyData)
  /-- LEDGER_GAP_TIMEOUT (R282): A module waits 2 ms for a missing record and raises the ledger-gap fault. -/
  | ledgerGapTimeout (ledger : Nat)
  /-- PARKED_TTL_VISIT (R292): The former visits parked sequences each ms and discards KV whose TTL has ended. -/
  | parkedTtlVisit (ledger : Nat)
  /-- RESTORE_REPLY_TIMEOUT (R294): A restore lacks a member reply after 2 s and counts as failed. -/
  | restoreReplyTimeout (handle : Nat)
  /-- SEQ_KVLOCK_SET (R300): Writing 1 to SEQ_KVLOCK.lock locks the KV configuration. -/
  | seqKvlockSet
  /-- QUEUE_ENABLE (R303): Setting SEQ_QCFG.en resets a queue's head and tail and enables it. -/
  | queueEnable (queue value : Nat)
  /-- QUEUE_DISABLE (R303): Clearing SEQ_QCFG.en stops a queue and drops untaken entries. -/
  | queueDisable (queue : Nat)
  /-- DOORBELL_TAIL (R304): A doorbell write to a command queue sets its tail, or is discarded. -/
  | doorbellTail (queue offset value : Nat)
  /-- DOORBELL_HEAD (R304): A doorbell write to a completion or stream queue sets its head, or is discarded. -/
  | doorbellHead (queue offset value : Nat)
  /-- LAUNCH (R71): LAUNCH checks a launch block and, if accepted, resets the tile counter and makes the job wait for cores. -/
  | launch (queue : Nat) (host : List Byte)
  /-- ADMIT (R308): ADMIT copies a parameter block, optionally forks, reserves a stream entry and admits a sequence. -/
  | admitSeq (queue : Nat) (host param : List Byte) (token : Nat)
  /-- CANCEL (R329): CANCEL ends a sequence at once, or holds the end until its batch ends. -/
  | cancel (queue : Nat) (host : List Byte)
  /-- SERVE_ENABLE (R310): Setting SEQ_SERVE.en lets the former form batches for the ledger. -/
  | serveEnable (ledger value : Nat)
  /-- BATCH_FORM (R310): The former forms a batch when serving is enabled, depth and gap allow and a row can be formed. -/
  | batchForm (ledger : Nat) (copies : CopyData)
  /-- BATCH_DESCRIPTOR_RECEIVE (R313): A module applies a batch descriptor in batch order and signals the SE iteration event. -/
  | batchDescriptorReceive (hd : PacketHead) (lines : BatchLines)
  /-- SAMPLER_PARTIAL_RECEIVE (R321): A sampler-group member takes a partial for a sample row. -/
  | samplerPartialReceive (hd : PacketHead) (ledger batch row : Nat) (half : PartialHalf)
  /-- SAMPLE_RESULT_WRITE (R321): 80 SE steps after the last partial the reporter writes the row's token. -/
  | sampleResultWrite (ledger batch row : Nat)
  /-- BATCH_END_REPORT_RECEIVE (R316): The former takes an end report and applies the batch end once it holds every module's. -/
  | batchEndReportReceive (hd : PacketHead) (ledger batch : Nat) (head : ReportHead) (proposals : List (Nat × Nat × Nat)) (results : List ResultRow) (copies : CopyData)
  /-- XE_CONTEXT_OPEN (R350): Writing XE_XCFG.en 1 opens a context and raises its epoch, or is refused. -/
  | xeContextOpen (context value : Nat)
  /-- XE_CONTEXT_CLOSE (R349): Writing XE_XCFG.en 0 closes a context. -/
  | xeContextClose (context : Nat)
  /-- XE_ROW_RECEIVE (R349): An XE takes a row packet of dispatch or return and lands it, or discards it as stale. -/
  | xeRowReceive (hd : PacketHead) (row : ExchangeRow) (lines : RowLines)
  /-- XE_END_MARKER_RECEIVE (R342): An XE takes an end marker and checks whether a half has completed. -/
  | xeEndMarkerReceive (hd : PacketHead) (arrival : MarkArrival)
  /-- XE_HALF_TIMEOUT (R348): A half that has not completed to_us after its first event faults the job. -/
  | xeHalfTimeout (context phase half : Nat)
  /-- JOB_SUSPEND (R368): SEQ_JOBCTL op 1 saves a resident job and makes it held. -/
  | jobSuspend (job : Nat)
  /-- JOB_RESUME (R368): SEQ_JOBCTL op 2 returns a held job to be placed. -/
  | jobResume (job : Nat)
  /-- JOB_ABORT (R368): SEQ_JOBCTL op 3 freezes, drains and discards a job, ending it faulted. -/
  | jobAbort (job : Nat)
  /-- QUANTUM_EXPIRE (R360): A resident job's quantum expires and the scheduler reconsiders placement. -/
  | quantumExpire (job : Nat)
  /-- SWITCH_DRAIN_COMPLETE (R91): Every issued operation of the outgoing cores finishes and the save begins. -/
  | switchDrainComplete (job cdie : Nat)
  /-- SWITCH_SAVE_COMPLETE (R362): The cloak save of a C-die completes and the incoming image is restored or zeroed. -/
  | switchSaveComplete (job cdie : Nat)
  /-- SWITCH_READY_COMPLETE (R364): Incoming scratch is ready; the instruction store is loaded, tallies applied and the core issues. -/
  | switchReadyComplete (job cdie : Nat)
  /-- JOB_ENTRY_UPDATE (R354): At least once per ms the module writes a resident job's table entry. -/
  | jobEntryUpdate (job : Nat)
  /-- PORT_TRAINING_COMPLETE (R373): Port training ends up at 8 or 4 lanes, or down. -/
  | portTrainingComplete (port lanes : Nat)
  /-- PORT_TRAINING_RETRY (R373): A down port retries training every 10 ms. -/
  | portTrainingRetry (port : Nat)
  /-- PORT_LOSS_OF_SIGNAL (R374): Loss of signal on a lane in use sends the port to training and re-sends its unacknowledged packets. -/
  | portLossOfSignal (port : Nat)
  /-- PORT_RETRAIN (R374): Writing FAB_PORTCTL.retrain sends an up port to training. -/
  | portRetrain (port : Nat)
  /-- PORT_FENCE (R375): Writing FAB_PORTCTL.fence 1 fences a port. -/
  | portFence (port : Nat)
  /-- PORT_UNFENCE (R375): Writing FAB_PORTCTL.fence 0 returns a port to training. -/
  | portUnfence (port : Nat)
  /-- FLIT_RECEIVE (R397): A receiver checks a data flit and accepts it in sequence, or discards it and asks for a replay. -/
  | flitReceive (port : Nat) (flit : List Byte)
  /-- LINK_CONTROL_RECEIVE (R398): A sender takes a link-control flit, applies its ack and credit returns and replays on nack. -/
  | linkControlReceive (port : Nat) (flit : List Byte)
  /-- LINK_REPLAY_TIMEOUT (R397): The oldest unacknowledged flit waits 2 µs and the sender replays from ack + 1. -/
  | linkReplayTimeout (port : Nat)
  /-- LINK_ACK_DUE (R397): 0.5 µs after an unacknowledged accept the receiver sends a link-control flit. -/
  | linkAckDue (port : Nat)
  /-- EPID_VALID_SET (R378): Writing FAB_EPID.valid 1 checks the identifiers and lets the module send and accept packets. -/
  | epidValidSet (ep : Nat)
  /-- EPID_VALID_CLEAR (R378): Writing FAB_EPID.valid 0 stops packets, or is discarded while a job is active. -/
  | epidValidClear
  /-- GROUP_ENTRY_WRITE (R381): A write to FAB_GRP is applied, or discarded while an operation to the group is outstanding. -/
  | groupEntryWrite (group value : Nat)
  /-- GM_SYNC_SEND (R423): Every 250 µs the grandmaster sends a Sync on each usable plane to each endpoint. -/
  | gmSyncSend
  /-- SYNC_RECEIVE (R423): A module takes a Sync and answers with a Delay request. -/
  | syncReceive (hd : PacketHead) (exchange plane gm t1 : Nat) (corr : Int)
  /-- DELAY_REQUEST_RECEIVE (R423): The grandmaster takes a Delay request and answers with a Delay response. -/
  | delayRequestReceive (hd : PacketHead) (exchange plane t3 : Nat) (corr : Int)
  /-- DELAY_RESPONSE_RECEIVE (R388): A module takes a Delay response and computes that plane's offset. -/
  | delayResponseReceive (hd : PacketHead) (exchange plane gm t4 : Nat) (corr : Int)
  /-- GSC_MEDIAN_UPDATE (R389): Every 250 µs the module takes the median offset and steps or slews the GSC and moves its lock state. -/
  | gscMedianUpdate
  /-- GSC_HOLDOVER_ENTRY (R391): A locked module with no median for 2 ms enters holdover. -/
  | gscHoldoverEntry
  /-- GSC_FREERUN_ENTRY (R391): After 1 s of holdover the module enters free-run. -/
  | gscFreerunEntry
  /-- GSC_LOW_READ (R387): A 4-byte read of the FAB_GSC low word latches the matching high word. -/
  | gscLowRead
  /-- GSC_HIGH_READ (R387): A 4-byte read of the FAB_GSC high word returns and releases the latch, or the live word. -/
  | gscHighRead
  /-- TARGET_LOAD (R406): A target checks a load request and answers with its lines. -/
  | targetLoad (hd : RequestHead) (wait : TargetWait) (report : BankReport)
  /-- TARGET_STORE (R406): A target checks a store request, writes the lines and answers done. -/
  | targetStore (hd : RequestHead) (data : List Byte) (wait : TargetWait) (report : BankReport)
  /-- TARGET_ATOMIC (R406): A target checks an atomic request, applies it and returns the old value. -/
  | targetAtomic (hd : RequestHead) (data : List Byte) (wait : TargetWait) (report : BankReport)
  /-- TARGET_REDUCE (R407): A target checks a reduce request and applies it element-wise to the line. -/
  | targetReduce (hd : RequestHead) (data : List Byte) (wait : TargetWait) (report : BankReport)
  /-- TARGET_MULTICAST_STORE (R408): A group member checks and applies its multicast copy and answers. -/
  | targetMulticastStore (hd : RequestHead) (group : Nat) (data : List Byte) (wait : TargetWait) (report : BankReport)
  /-- TARGET_MESSAGE (R409): A target checks a message, queues it in the oldest free slot and signals the queue's core. -/
  | targetMessage (hd : RequestHead) (data : List Byte) (wait : TargetWait) (report : BankReport)
  /-- TARGET_ACCEPT_DUE (R414): 2 µs after taking an unapplied request the target sends an accepted response. -/
  | targetAcceptDue (hd : RequestHead)
  /-- FABRIC_RESPONSE_RECEIVE (R413): A source tracker takes the first final response of a request and completes it, or re-sends on unreachable. -/
  | fabricResponseReceive (hd : ResponseHead) (data : List Byte)
  /-- REQUEST_ATTEMPT_TIMEOUT (R413): A request gets no response within attempt_us and is re-sent, or poisoned after tries. -/
  | requestAttemptTimeout (tag seq : Nat)
  /-- ACCEPT_WAIT_TIMEOUT (R413): An accepted request gets no completion within accept_us and completes poisoned. -/
  | acceptWaitTimeout (tag seq : Nat)
  /-- REGION_ENABLE (R404): Writing FAB_RGN.en 1 exposes a region, or is discarded after checks. -/
  | regionEnable (region value : Nat)
  /-- TEARDOWN_RECEIVE (R421): A teardown packet closes the job's regions and credits and aborts the job on this module. -/
  | teardownReceive (hd : PacketHead) (job reason number : Nat)
  /-- TEARDOWN_COMPLETE (R421): The module's part of a teardown finishes; FAB_TDSTAT reads done and teardown-done is sent. -/
  | teardownComplete (job : Nat)
  /-- FAB_BULK_RING_ENABLE (R245): Setting FAB_BQCFG.en resets and enables the bulk rings. -/
  | fabBulkRingEnable (value : Nat)
  /-- FAB_BQTAIL_WRITE (R245): A write of FAB_BQTAIL makes new bulk descriptors available, or is discarded. -/
  | fabBqtailWrite (value : Nat)
  /-- FAB_BCHEAD_WRITE (R245): A write of FAB_BCHEAD frees bulk completion entries, or is discarded. -/
  | fabBcheadWrite (value : Nat)
  /-- BULK_PUT (R419): A bulk descriptor op 1 puts up to 16 MiB of T1 to a remote region. -/
  | bulkPut (host : List Byte)
  /-- BULK_GET (R419): A bulk descriptor op 2 gets up to 16 MiB from a remote region into T1. -/
  | bulkGet (host : List Byte)
  /-- BULK_COMPLETE (R419): A bulk descriptor finishes and writes its completion. -/
  | bulkComplete (num : Nat)
  /-- PCIE_LINK_DOWN (R225): Loss of the PCI Express link clears MEM_T3BASE.en and fails T3 accesses. -/
  | pcieLinkDown
  /-- INPUT_SWITCH_OVER (R426): The active input falls below 48 V with the other at 50 V and the carrier switches inputs. -/
  | inputSwitchOver (main backup : Nat)
  /-- RETURN_TO_MAIN (R426): P54A stays at 50 V for 1 s while P54B is active and the carrier returns to P54A. -/
  | returnToMain (main backup : Nat)
  /-- INPUT_BUS_SAG (R428): The input bus falls below 46 V and write inhibit and supply hold assert. -/
  | inputBusSag (mv : Nat)
  /-- LASER_CHECK (R430): 500 µs after the sag the module re-reads the bus and switches off the lasers if still low. -/
  | laserCheck (mv : Nat)
  /-- INHIBIT_CLEAR (R428): After 10 ms at 47 V or above, write inhibit and supply hold clear. -/
  | inhibitClear (mv : Nat)
  /-- BROWN_OUT (R431): The bus falls below 40 V; brown-out reset asserts and rails are removed. -/
  | brownOut
  /-- LEASE_EXPIRE (R435): 2 s after receipt an unrenewed lease expires and the budget falls to at most 1,200 W. -/
  | leaseExpire
  /-- CAP_PACING_STEP (R433): Every 20 µs the module lowers or raises pacing to keep draw within the cap. -/
  | capPacingStep (main backup : Nat)
  /-- TAILWIND_ENABLE (R438): Writing PWR_TWCFG.en 1 clears grants and history and enables tailwind. -/
  | tailwindEnable (grp : Nat)
  /-- TAILWIND_REPORT_SEND (R439): After each 1 ms window every member multicasts its slack report. -/
  | tailwindReportSend (slack : Nat)
  /-- TAILWIND_REPORT_RECEIVE (R439): A member takes another member's tailwind report. -/
  | tailwindReportReceive (hd : PacketHead) (job slack eligible window : Nat)
  /-- TAILWIND_DECISION (R440): At each decision instant an eligible member computes and sends its grants. -/
  | tailwindDecision
  /-- TAILWIND_GRANT_RECEIVE (R441): A recipient adds a grant to R or discards it. -/
  | tailwindGrantReceive (hd : PacketHead) (job watts expiry : Nat)
  /-- TAILWIND_GRANT_EXPIRE (R441): A recipient removes an expired grant from R. -/
  | tailwindGrantExpire (expiry : Nat)
  /-- TAILWIND_GIVEN_RELEASE (R441): 10 µs after a grant's expiry the donor removes it from G. -/
  | tailwindGivenRelease (expiry : Nat)
  /-- DIODE_SAMPLE (R442): Every 50 µs Brilo samples all 72 diodes and updates T_hot. -/
  | diodeSample (temps : List Int)
  /-- THROTTLE_STEP (R443): Every 50 µs while throttling the module lowers or raises the DPA pacing by one step. -/
  | throttleStep
  /-- THERMAL_TRIP (R445): A diode reaches 115 °C; THERMTRIP_N asserts and the rails and lasers go off. -/
  | thermalTrip (diode : Nat)
  /-- FRAY_SAMPLE (R447): Every 10 s Brilo measures each fray monitor's drift. -/
  | fraySample (counts : List Nat)
  /-- REFIT_PERIOD (R449): Every period_h hours a refit starts. -/
  | refitPeriod
  /-- REFIT_REQUEST (R449): Writing PWR_REFITCTL.start requests a refit. -/
  | refitRequest
  /-- REFIT_COMPLETE (R450): A refit finishes and writes floor, ceiling, assist level and margin together. -/
  | refitComplete (counts : List Nat)
  /-- MANAGEMENT_CORE_START (R464): The boot ROM updates the selection record and runs a valid image, or enters recovery. -/
  | managementCoreStart
  /-- IMAGE_HEALTHY (R465): A trial image becomes healthy and is committed, then the rollback counter is raised. -/
  | imageHealthy
  /-- TRIAL_WATCHDOG_EXPIRE (R465): A trial image misses its 60 s deadline and the watchdog restarts the core. -/
  | trialWatchdogExpire
  /-- LOG_PAGE_TIMEOUT (R456): The oldest buffered record has waited 100 ms and the log page is programmed with padding. -/
  | logPageTimeout
  /-- LOG_FETCH (R458): A write of MGT_LOGSEL fetches a record into MGT_LOGDATA. -/
  | logFetch (seq : Nat)
  /-- MAILBOX_GO (R460): Writing MGT_MBCTL.go submits a mailbox message to Brilo. -/
  | mailboxGo (len : Nat)
  /-- MAILBOX_RESPONSE_READY (R460): Brilo writes the mailbox response, clears busy and sets done. -/
  | mailboxResponseReady (response : List Byte)
  /-- SET_ENDPOINT_ID (R459): MCTP Set Endpoint ID assigns Brilo's identifier on a binding. -/
  | setEndpointId (binding ep eid : Nat)
  /-- GET_TID (R461): PLDM GetTID returns the terminus identifier. -/
  | getTid (binding ep : Nat)
  /-- SET_TID (R461): PLDM SetTID sets the terminus identifier. -/
  | setTid (binding ep tid : Nat)
  /-- GET_PLDM_VERSION (R461): PLDM GetPLDMVersion returns a type's version. -/
  | getPldmVersion (binding ep type : Nat)
  /-- GET_PLDM_TYPES (R461): PLDM GetPLDMTypes returns the supported types. -/
  | getPldmTypes (binding ep : Nat)
  /-- GET_PLDM_COMMANDS (R461): PLDM GetPLDMCommands returns a type's supported commands. -/
  | getPldmCommands (binding ep type : Nat)
  /-- GET_SENSOR_READING (R454): PLDM GetSensorReading returns a numeric sensor's reading. -/
  | getSensorReading (binding ep sensor : Nat)
  /-- GET_STATE_SENSOR_READINGS (R454): PLDM GetStateSensorReadings returns state sensor readings. -/
  | getStateSensorReadings (binding ep sensor : Nat)
  /-- SET_NUMERIC_SENSOR_ENABLE (R461): PLDM SetNumericSensorEnable enables or disables a numeric sensor. -/
  | setNumericSensorEnable (binding ep sensor state : Nat)
  /-- GET_PDR_REPOSITORY_INFO (R461): PLDM GetPDRRepositoryInfo returns repository information. -/
  | getPdrRepositoryInfo (binding ep : Nat)
  /-- GET_PDR (R454): PLDM GetPDR returns a Platform Descriptor Record. -/
  | getPdr (binding ep handle : Nat)
  /-- SET_EVENT_RECEIVER (R461): PLDM SetEventReceiver names the receiver of event messages. -/
  | setEventReceiver (binding ep receiver : Nat) (enable : Bool)
  /-- GET_EVENT_RECEIVER (R461): PLDM GetEventReceiver returns the event receiver. -/
  | getEventReceiver (binding ep : Nat)
  /-- SET_STATE_EFFECTER_STATES (R461): PLDM SetStateEffecterStates on effecter 0x0200 requests a refit. -/
  | setStateEffecterStates (binding ep effecter value : Nat)
  /-- QUERY_DEVICE_IDENTIFIERS (R539): PLDM QueryDeviceIdentifiers returns serial number, ordering code and stepping. -/
  | queryDeviceIdentifiers (binding ep : Nat)
  /-- GET_FIRMWARE_PARAMETERS (R461): PLDM GetFirmwareParameters returns firmware parameters. -/
  | getFirmwareParameters (binding ep : Nat)
  /-- REQUEST_UPDATE (R466): PLDM RequestUpdate enters update mode or is refused. -/
  | requestUpdate (binding ep : Nat)
  /-- PASS_COMPONENT_TABLE (R466): PLDM PassComponentTable passes the Brilo image component. -/
  | passComponentTable (binding ep : Nat)
  /-- UPDATE_COMPONENT (R466): PLDM UpdateComponent starts writing the image into the slot that is not running. -/
  | updateComponent (binding ep length : Nat)
  /-- FIRMWARE_DATA_RECEIVE (R466): Data answering RequestFirmwareData is programmed into NOR, and the last part triggers verification. -/
  | firmwareDataReceive (binding ep : Nat) (data : List Byte)
  /-- ACTIVATE_FIRMWARE (R466): PLDM ActivateFirmware makes the new image preferred in trial and restarts the core. -/
  | activateFirmware (binding ep : Nat)
  /-- GET_STATUS (R461): PLDM GetStatus returns the update agent's status. -/
  | getStatus (binding ep : Nat)
  /-- CANCEL_UPDATE_COMPONENT (R466): PLDM CancelUpdateComponent cancels the component transfer. -/
  | cancelUpdateComponent (binding ep : Nat)
  /-- CANCEL_UPDATE (R466): PLDM CancelUpdate ends the update and leaves the slot invalid. -/
  | cancelUpdate (binding ep : Nat)
  /-- SET_LEASE (R434): The Hjeltar SetLease command applies or refuses a new power lease. -/
  | setLease (binding ep budget lease : Nat)
  /-- GET_LEASE (R461): The Hjeltar GetLease command returns PWR_LEASE and PWR_CAP. -/
  | getLease (binding ep : Nat)
  /-- GET_LOG_RECORDS (R458): The Hjeltar GetLogRecords command returns up to 16 log records. -/
  | getLogRecords (binding ep first count : Nat) (bad : List (Nat × List Byte))
  /-- GET_LOG_RANGE (R461): The Hjeltar GetLogRange command returns the log head, tail and lost count. -/
  | getLogRange (binding ep : Nat)
  /-- GET_VERSION (R462): SPDM GET_VERSION returns the supported version. -/
  | getVersion (binding ep : Nat)
  /-- GET_CAPABILITIES (R462): SPDM GET_CAPABILITIES returns responder capabilities. -/
  | getCapabilities (binding ep : Nat)
  /-- NEGOTIATE_ALGORITHMS (R462): SPDM NEGOTIATE_ALGORITHMS fixes the algorithms. -/
  | negotiateAlgorithms (binding ep : Nat)
  /-- GET_DIGESTS (R462): SPDM GET_DIGESTS returns the certificate chain digest. -/
  | getDigests (binding ep : Nat)
  /-- GET_CERTIFICATE (R462): SPDM GET_CERTIFICATE returns the certificate chain. -/
  | getCertificate (binding ep slot offset length : Nat)
  /-- CHALLENGE (R462): SPDM CHALLENGE signs a challenge with the identity key. -/
  | challenge (binding ep slot : Nat)
  /-- GET_MEASUREMENTS (R462): SPDM GET_MEASUREMENTS returns measurement blocks. -/
  | getMeasurements (binding ep index : Nat)
  /-- KEY_EXCHANGE (R462): SPDM KEY_EXCHANGE begins a session, or returns Busy past four. -/
  | keyExchange (binding ep : Nat)
  /-- FINISH (R462): SPDM FINISH completes a session and loads its keys. -/
  | finish (binding ep : Nat)
  /-- HEARTBEAT (R462): SPDM HEARTBEAT keeps a session alive. -/
  | heartbeat (binding ep : Nat)
  /-- SPDM_HEARTBEAT_TIMEOUT (R468): A session's heartbeat expires and its keys are cleared. -/
  | spdmHeartbeatTimeout (binding ep : Nat)
  /-- END_SESSION (R462): SPDM END_SESSION ends a session and clears its keys. -/
  | endSession (binding ep : Nat)
  /-- POWER_ON_RESET (R470): The standby rail reaches regulation, everything but fuses, NOR and NV is cleared, and the start begins at stage 1. -/
  | powerOnReset (inputs : InputVolts) (found : PowerOn)
  /-- MRESET_ASSERT (R525): MRESET_N held low for at least 10 µs asserts a module reset. -/
  | mresetAssert (us : Nat) (taken : Bool)
  /-- MODULE_RESET_RELEASE (R470): Release of a module reset starts the sequence from stage 2. -/
  | moduleResetRelease
  /-- TOP_MODULE_RESET (R470): Writing TOP_RSTCTL.module applies a module reset. -/
  | topModuleReset
  /-- PERST_ASSERT (R473): PERST_N low resets the PCI Express link and clears MEM_T3BASE.en. -/
  | perstAssert
  /-- STAGE_BRILO_COMPLETE (R474): Start stage 1 completes with a firmware image running. -/
  | stageBriloComplete
  /-- STAGE_PLAN_COMPLETE (R479): Start stage 2 completes, choosing a full or Apron start and updating the attempt counter. -/
  | stagePlanComplete (persistLost : Bool)
  /-- STAGE_RAILS_COMPLETE (R475): Start stage 3 completes with the rails up and PWRGD asserted. -/
  | stageRailsComplete
  /-- STAGE_CLOCKS_COMPLETE (R474): Start stage 4 completes with the PLLs locked. -/
  | stageClocksComplete
  /-- STAGE_LINKS_COMPLETE (R474): Start stage 5 completes with the die-to-die links trained. -/
  | stageLinksComplete
  /-- STAGE_REFIT_COMPLETE (R477): Start stage 6 completes the start-time refit and sets the rate mode. -/
  | stageRefitComplete (counts : List Nat)
  /-- STAGE_MEMORY_COMPLETE (R478): Start stage 7 completes with DRAM trained and T1, scratch and SRAM zeroed. -/
  | stageMemoryComplete
  /-- STAGE_CHECK_COMPLETE (R491): Start stage 8 completes the quick check of stale slices. -/
  | stageCheckComplete (found : List RepairEntry)
  /-- STAGE_REPAIR_COMPLETE (R489): Start stage 9 completes repair and retirement of units. -/
  | stageRepairComplete
  /-- STAGE_NVS_COMPLETE (R241): Start stage 10 completes key load and journal replay and sets NVS_STATUS.ready. -/
  | stageNvsComplete
  /-- STAGE_PUBLISH_COMPLETE (R476): Start stage 11 fills the UCBs, sets CAP_STATUS.ready and raises CAP_GEN. -/
  | stagePublishComplete
  /-- STAGE_READY_COMPLETE (R475): Start stage 12 clears the attempt counter and slice map and asserts READY. -/
  | stageReadyComplete
  /-- START_STAGE_TIMEOUT (R474): A stage passes its latest time and fails with cause 0x0201. -/
  | startStageTimeout (cause : Nat)
  /-- START_RETRY (R480): 1 s after a failed attempt the next attempt begins at stage 2. -/
  | startRetry
  /-- CLEAR_ATTEMPTS (R482): Writing TOP_STARTCTL.clear_attempts writes the attempt counter as 0. -/
  | clearAttempts
  /-- FORCE_APRON (R479): Writing TOP_STARTCTL.force_apron makes the next start an Apron start. -/
  | forceApron
  /-- SHUTDOWN_START (R483): Writing TOP_SHUTCTL.start begins an orderly shutdown with the close phase. -/
  | shutdownStart
  /-- SHUTDOWN_START_SKIP_TEST (R483): Writing start with skip_test begins a shutdown that skips the secrets and test phases. -/
  | shutdownStartSkipTest
  /-- SHUTDOWN_CLOSE_COMPLETE (R483): Shutdown phase 1 ends with jobs aborted and engines closed, and write-back begins. -/
  | shutdownCloseComplete
  /-- SHUTDOWN_WRITEBACK_COMPLETE (R483): Shutdown phase 2 ends with every staging cache written back. -/
  | shutdownWritebackComplete
  /-- SHUTDOWN_CHECKPOINT_COMPLETE (R483): Shutdown phase 3 ends with the NVS checkpoint written and the NVS stopped. -/
  | shutdownCheckpointComplete
  /-- SECRETS_CLEAR_COMPLETE (R485): Phase 4 clears and reads back every secret and enables scan only if all read zero. -/
  | secretsClearComplete (clean : Bool)
  /-- SLICE_TESTS_COMPLETE (R487): A test slice's tests finish within budget and its commit begins. -/
  | sliceTestsComplete (faults : List RepairEntry) (ms : Nat)
  /-- SLICE_BUDGET_EXPIRE (R487): A slice runs slice_ms and ends incomplete. -/
  | sliceBudgetExpire (faults : List RepairEntry)
  /-- TEST_BUDGET_EXPIRE (R487): total_s elapses in phase 5; the slice in progress ends incomplete and no further slice runs. -/
  | testBudgetExpire (faults : List RepairEntry) (ms : Nat)
  /-- SLICE_COMMIT_COMPLETE (R487): A slice's entries and result are committed to the persistence area. -/
  | sliceCommitComplete
  /-- SHUTDOWN_OFF_COMPLETE (R483): Phase 6 removes the compute rails and TOP_SHUTSTAT.state becomes done. -/
  | shutdownOffComplete
  /-- LULL_WINDOW_END (R497): At each lull window boundary every lull table entry is freed after its tally is sent. -/
  | lullWindowEnd
  /-- LULL_TALLY_SEND (R499): At its endpoint's moment after a window each module sends its tallies to the arbiter. -/
  | lullTallySend
  /-- LULL_REPORT_RECEIVE (R498): The arbiter takes a lull report, forwards the first per pair and multicasts a notice. -/
  | lullReportReceive (hd : PacketHead) (cause kind id severity events : Nat)
  /-- LULL_NOTICE_RECEIVE (R498): A module takes a lull notice and enters the pair in its lull table. -/
  | lullNoticeReceive (hd : PacketHead) (cause kind id : Nat)
  /-- LULL_TALLY_RECEIVE (R499): The arbiter takes a tally packet, or discards it as late. -/
  | lullTallyReceive (hd : PacketHead) (cause kind id window events : Nat)
  /-- ARBITER_TALLY_SEND (R499): 2 ms after a window ends the arbiter sends one tally per pair to the fabric manager. -/
  | arbiterTallySend
  /-- COUNTER_SAT_CLEAR (R502): Writing 1 to a counter's sat clears both sat and count, before any same-step increment. -/
  | counterSatClear (counter : Nat)
  /-- LOG_FETCH_COMPLETE (R458): The record requested by an MGT_LOGSEL write arrives from the NV store or buffer in MGT_LOGDATA and MGT_LOGSTAT.ready, missing or corrupt is set. -/
  | logFetchComplete (corrupt : Option (List Byte))
  /-- TARGET_STALL_TIMEOUT (R414): A fabric request whose bank wait at the target reaches MEM_STALLTO of T1 is answered poisoned with reason 11. -/
  | targetStallTimeout (hd : RequestHead)
  /-- CREDIT_RETURN_RECEIVE (R410): A message credit returned on channel 1 after an MRECV reaches the sender and adds 1 to its FAB_MCRED entry, sticking at 255. -/
  | creditReturnReceive (core ep key : Nat)
  /-- PERST_RELEASE (R476): PERST_N goes high, ending the PCI Express reset so that the link trains and configuration requests are answered with Request Retry Status until stage 1 completes. -/
  | perstRelease
  /-- PCIE_LINK_UP (R540): The PCI Express link finishes training and the PCIE capability reports the negotiated width and speed. -/
  | pcieLinkUp (width speed : Nat)
  /-- POWER_MANAGEMENT_STATE_WRITE (R510): A configuration write to the Power Management capability moves the function between D0 and D3hot, where it answers configuration requests only. -/
  | powerManagementStateWrite (hot : Bool)
  deriving DecidableEq, Repr

end Sys2Proof
end

