-- ==== Sys2Proof/Decode.lean ====
section
/-! DEFINITION. Commands spelled by table words. No row of spec/opcode_table.json gives bits: a command reaches the module as a bus
access, a packet, an event or a Psigo instruction, and the 128-bit instruction words of Psigo are read from a core's store
(Machine/Insn.lean). -/

namespace Sys2Proof

/-- The command that a word of the table's bits spells: none, since no row has bits. -/
def decodeTableWord (_nbits _w : Nat) : Option Instr := none

end Sys2Proof
end

