-- ==== Sys2Proof/Config.lean ====
section
/-! DEFINITION. What the spec leaves open, and what one module is built with: opaque constants that no proof can look into. Each
one has a row in notes/assumptions. -/

namespace Sys2Proof.Config

/-- A free value: the result the spec leaves open at the `n`-th such place of a run. -/
opaque freeValue : Nat → Nat

/-- Which row of Table 21.1 the log record of an unmasked event bit names as its cause: by the bit's BAR0 bit address. -/
opaque eventRecord : Nat → Nat

/-- Where in the window of R45 a read of the GSC at a nanosecond of Brilo's timer falls. -/
opaque gscPhase : Nat → Nat

/-- Whether a chunk that an engine reads while another writes it, with no event between them, gives its new bytes (R69, R175): by a count of
such reads and the chunk's number. -/
opaque raceNew : Nat → Nat → Bool

/-- The 16-bit CRC of a die-to-die beat, whose polynomial is not specified, for the symbols of its payload channels (R32). -/
opaque linkCrc : List Nat → Nat

/-- The token of a row whose slices overlap (R318): undefined, by ledger, batch, row, and draft step (0 for a target, 1 up for a draft). -/
opaque overlapToken : Nat → Nat → Nat → Nat → BitVec 32

/-- The variant bit of the ordering code: 0 HGN-9640-AS, 1 HGN-9640-AE (Table 22.5). -/
opaque variant : Nat

/-- The 64-bit serial number in the fuses (R539). -/
opaque serial : Nat

/-- The four SHA-384 key hashes in the fuses (R463). -/
opaque keyHash : Nat → List Byte

/-- The module key of the NVS, 64 bytes (R234). -/
opaque moduleKey : List Byte

/-- ECDSA P-384 verification of a signature with a public key over a message (R463): a function of its three byte strings. -/
opaque ecdsaVerify : List Byte → List Byte → List Byte → Bool

/-- The fused factory count n_0 of a fray monitor at a grid point of Table 2.3: monitor, rail row, temperature column (R447). -/
opaque frayFuse : Nat → Nat → Nat → Nat

/-- SHA-384 of the boot ROM, measurement block 1 (Table 19.8). -/
opaque romDigest : List Byte

/-- SHA-384 of the fuse configuration, measurement block 4 (Table 19.8). -/
opaque fuseDigest : List Byte

/-- The certificate chain of slot 0, in the persistence area (Table 19.11). -/
opaque certChain : List Byte

end Sys2Proof.Config
end

