-- ==== Sys2Proof/Machine/Bits.lean ====
section
/-! DEFINITION. Bit fields, two's complement and little-endian bytes (R11): the helpers every other file cuts words with. -/

namespace Sys2Proof

/-- Bits `hi` down to `lo` of a natural number. -/
def bits (n hi lo : Nat) : Nat := n / 2 ^ lo % 2 ^ (hi + 1 - lo)

/-- Bit `k` of a natural number. -/
def bit (n k : Nat) : Bool := n / 2 ^ k % 2 == 1

/-- A two's complement number of `w` bits, read as an integer. -/
def signed (w n : Nat) : Int := if n % 2 ^ w < 2 ^ (w - 1) then (n % 2 ^ w : Nat) else (n % 2 ^ w : Nat) - (2 ^ w : Nat)

/-- An integer stored in `w` bits of two's complement. -/
def unsigned (w : Nat) (z : Int) : Nat := (z % (2 ^ w : Nat)).toNat

/-- 1 for true, 0 for false: a flag as the field that holds it. -/
def ofFlag (b : Bool) : Nat := if b then 1 else 0

/-- The `n` bytes of a value, least significant first (R11: all multi-byte data is little-endian). -/
def toBytes : Nat → Nat → List Byte
  | 0, _ => []
  | n + 1, v => BitVec.ofNat 8 v :: toBytes n (v / 256)

/-- The value of a little-endian byte string (R11). -/
def ofBytes : List Byte → Nat
  | [] => 0
  | b :: r => b.toNat + 256 * ofBytes r

/-- Serial-number comparison of `w`-bit sequence numbers: `a` is later than `b` (Table 21.2). -/
def laterBy (w a b : Nat) : Bool :=
  let d := (a + 2 ^ w - b % 2 ^ w) % 2 ^ w
  d != 0 && d < 2 ^ (w - 1)

/-- Division rounding up; by zero it gives 0. -/
def ceilDiv (a b : Nat) : Nat := if b = 0 then 0 else if a % b = 0 then a / b else a / b + 1

/-- Division rounding to the nearest integer, ties to even (R154). -/
def divEven (n : Int) (d : Nat) : Int :=
  let q := n / (d : Int)
  let r := n % (d : Int)
  if 2 * r < (d : Int) then q else if (d : Int) < 2 * r then q + 1 else if q % 2 = 0 then q else q + 1

/-- Put an element before the first one of a list that it may precede. -/
def insertBy {α : Type} (le : α → α → Bool) (x : α) : List α → List α
  | [] => [x]
  | y :: r => if le x y then x :: y :: r else y :: insertBy le x r

/-- A list in the order of `le`; equals keep their order. -/
def sortBy {α : Type} (le : α → α → Bool) (l : List α) : List α := l.foldr (insertBy le) []

end Sys2Proof
end

