-- ==== Sys2Proof/Machine/RegMap.lean ====
section
/-! DEFINITION. The BAR0 register map (chapter 22): one `Field` for every field the register tables name, with the
offset, bit range, element stride and count, access code (Table 0.2) and power-on reset value its table gives.
The state keeps one value per field instance (`Field.key`); a register read is the concatenation of its fields. -/

namespace Sys2Proof.Machine

/-- The access codes of Table 0.2 (R13). `rst…` are the RSt fields of R14, which every reset but power-on leaves alone. -/
inductive Access where
  | rw | ro | w1c | wo | rwl | rstRw | rstW1c | rstRo
  deriving DecidableEq, Repr

/-- One field of the BAR0 map: byte offset of its register's element 0, lowest bit, width in bits, stride in bytes
from one element to the next, number of elements, access code and reset value (R516). -/
structure Field where
  offset : Nat
  low : Nat
  width : Nat
  stride : Nat
  count : Nat
  access : Access
  reset : Nat
  deriving DecidableEq, Repr

/-- The BAR0 bit address of instance `i` of a field: the key under which the state keeps its value. -/
def Field.key (f : Field) (i : Nat) : Nat := 8 * (f.offset + f.stride * i) + f.low

/-- A field's value space: `2 ^ width`. -/
def Field.size (f : Field) : Nat := 2 ^ f.width

/-- True of the fields every reset but power-on leaves unchanged (R14). -/
def Field.sticky (f : Field) : Bool :=
  match f.access with
  | .rstRw | .rstW1c | .rstRo => true
  | _ => false

/-- TOP_ID.variant [3:0], RO, Table 22.5. -/
def Reg.TOP_ID.variant : Field := ⟨0x0, 0, 4, 0, 1, .ro, 0x0⟩
/-- TOP_ID.stepping [15:8], RO, Table 22.5. -/
def Reg.TOP_ID.stepping : Field := ⟨0x0, 8, 8, 0, 1, .ro, 0xB0⟩
/-- TOP_ID.device [31:16], RO, Table 22.5. -/
def Reg.TOP_ID.device : Field := ⟨0x0, 16, 16, 0, 1, .ro, 0x9640⟩
/-- TOP_BLKSTAT.blocks [10:0], RO, Table 22.5. -/
def Reg.TOP_BLKSTAT.blocks : Field := ⟨0x4, 0, 11, 0, 1, .ro, 0x409⟩
/-- TOP_LOCKSTAT.mem [0], RO, Table 22.5. -/
def Reg.TOP_LOCKSTAT.mem : Field := ⟨0x8, 0, 1, 0, 1, .ro, 0x0⟩
/-- TOP_LOCKSTAT.nvs [1], RO, Table 22.5. -/
def Reg.TOP_LOCKSTAT.nvs : Field := ⟨0x8, 1, 1, 0, 1, .ro, 0x0⟩
/-- TOP_LOCKSTAT.kv [2], RO, Table 22.5. -/
def Reg.TOP_LOCKSTAT.kv : Field := ⟨0x8, 2, 1, 0, 1, .ro, 0x0⟩
/-- TOP_ACCERR.offset [25:0], RO, Table 22.5. -/
def Reg.TOP_ACCERR.offset : Field := ⟨0x10, 0, 26, 0, 1, .ro, 0x0⟩
/-- TOP_ACCERR.write [31], RO, Table 22.5. -/
def Reg.TOP_ACCERR.write : Field := ⟨0x10, 31, 1, 0, 1, .ro, 0x0⟩
/-- TOP_ACCERR.bytes [38:32], RO, Table 22.5. -/
def Reg.TOP_ACCERR.bytes : Field := ⟨0x10, 32, 7, 0, 1, .ro, 0x0⟩
/-- TOP_ACCERR.kind [57:56], RO, Table 22.5. -/
def Reg.TOP_ACCERR.kind : Field := ⟨0x10, 56, 2, 0, 1, .ro, 0x0⟩
/-- TOP_ACCERR.valid [63], W1C, Table 22.5. -/
def Reg.TOP_ACCERR.valid : Field := ⟨0x10, 63, 1, 0, 1, .w1c, 0x0⟩
/-- TOP_STARTSTAT.ready [0], RO, Table 20.10. -/
def Reg.TOP_STARTSTAT.ready : Field := ⟨0x100, 0, 1, 0, 1, .ro, 0x0⟩
/-- TOP_STARTSTAT.apron [1], RO, Table 20.10. -/
def Reg.TOP_STARTSTAT.apron : Field := ⟨0x100, 1, 1, 0, 1, .ro, 0x0⟩
/-- TOP_STARTSTAT.stale [2], RO, Table 20.10. -/
def Reg.TOP_STARTSTAT.stale : Field := ⟨0x100, 2, 1, 0, 1, .ro, 0x0⟩
/-- TOP_STARTSTAT.gust [3], RO, Table 20.10. -/
def Reg.TOP_STARTSTAT.gust : Field := ⟨0x100, 3, 1, 0, 1, .ro, 0x0⟩
/-- TOP_STARTSTAT.stage [35:32], RO, Table 20.10. -/
def Reg.TOP_STARTSTAT.stage : Field := ⟨0x100, 32, 4, 0, 1, .ro, 0x0⟩
/-- TOP_STARTSTAT.attempts [39:36], RO, Table 20.10. -/
def Reg.TOP_STARTSTAT.attempts : Field := ⟨0x100, 36, 4, 0, 1, .ro, 0x0⟩
/-- TOP_STARTSTAT.fail_stage [47:44], RO, Table 20.10. -/
def Reg.TOP_STARTSTAT.fail_stage : Field := ⟨0x100, 44, 4, 0, 1, .ro, 0x0⟩
/-- TOP_STARTSTAT.cause [63:48], RO, Table 20.10. -/
def Reg.TOP_STARTSTAT.cause : Field := ⟨0x100, 48, 16, 0, 1, .ro, 0x0⟩
/-- TOP_STARTCTL.clear_attempts [0], WO, Table 20.10. -/
def Reg.TOP_STARTCTL.clear_attempts : Field := ⟨0x108, 0, 1, 0, 1, .wo, 0x0⟩
/-- TOP_STARTCTL.force_apron [1], WO, Table 20.10. -/
def Reg.TOP_STARTCTL.force_apron : Field := ⟨0x108, 1, 1, 0, 1, .wo, 0x0⟩
/-- TOP_RSTCTL.module [0], WO, Table 20.10. -/
def Reg.TOP_RSTCTL.module : Field := ⟨0x110, 0, 1, 0, 1, .wo, 0x0⟩
/-- TOP_SHUTCTL.start [0], WO, Table 20.11. -/
def Reg.TOP_SHUTCTL.start : Field := ⟨0x118, 0, 1, 0, 1, .wo, 0x0⟩
/-- TOP_SHUTCTL.skip_test [1], WO, Table 20.11. -/
def Reg.TOP_SHUTCTL.skip_test : Field := ⟨0x118, 1, 1, 0, 1, .wo, 0x0⟩
/-- TOP_SHUTSTAT.slices [7:0], RO, Table 20.11. -/
def Reg.TOP_SHUTSTAT.slices : Field := ⟨0x11C, 0, 8, 0, 1, .ro, 0x22⟩
/-- TOP_SHUTSTAT.slices_done [15:8], RO, Table 20.11. -/
def Reg.TOP_SHUTSTAT.slices_done : Field := ⟨0x11C, 8, 8, 0, 1, .ro, 0x0⟩
/-- TOP_SHUTSTAT.result [23:16], RO, Table 20.11. -/
def Reg.TOP_SHUTSTAT.result : Field := ⟨0x11C, 16, 8, 0, 1, .ro, 0x0⟩
/-- TOP_SHUTSTAT.state [31:30], RO, Table 20.11. -/
def Reg.TOP_SHUTSTAT.state : Field := ⟨0x11C, 30, 2, 0, 1, .ro, 0x0⟩
/-- TOP_FAULT.cause [15:0], RSt, RO, Table 21.5. -/
def Reg.TOP_FAULT.cause : Field := ⟨0x140, 0, 16, 0, 1, .rstRo, 0x0⟩
/-- TOP_FAULT.slot [23:16], RSt, RO, Table 21.5. -/
def Reg.TOP_FAULT.slot : Field := ⟨0x140, 16, 8, 0, 1, .rstRo, 0x0⟩
/-- TOP_FAULT.class [25:24], RSt, RO, Table 21.5. -/
def Reg.TOP_FAULT.cls : Field := ⟨0x140, 24, 2, 0, 1, .rstRo, 0x0⟩
/-- TOP_FAULT.valid [31], RSt, W1C, Table 21.5. -/
def Reg.TOP_FAULT.valid : Field := ⟨0x140, 31, 1, 0, 1, .rstW1c, 0x0⟩
/-- TOP_FAULT.gsc_lo [63:32], RSt, RO, Table 21.5. -/
def Reg.TOP_FAULT.gsc_lo : Field := ⟨0x140, 32, 32, 0, 1, .rstRo, 0x0⟩
/-- TOP_EVT.sat [0], W1C, Table 21.5. -/
def Reg.TOP_EVT.sat : Field := ⟨0x148, 0, 1, 0, 1, .w1c, 0x0⟩
/-- TOP_EVT.fault [1], W1C, Table 21.5. -/
def Reg.TOP_EVT.fault : Field := ⟨0x148, 1, 1, 0, 1, .w1c, 0x0⟩
/-- TOP_EVTMASK.mask [31:0], RW, Table 21.5. -/
def Reg.TOP_EVTMASK.mask : Field := ⟨0x14C, 0, 32, 0, 1, .rw, 0x3⟩
/-- CAP_ROOT.root [31:0], RO, Table 3.13. -/
def Reg.CAP_ROOT.root : Field := ⟨0x10000, 0, 32, 0, 1, .ro, 0x2000000⟩
/-- CAP_GEN.gen [31:0], RO, Table 3.13. -/
def Reg.CAP_GEN.gen : Field := ⟨0x10004, 0, 32, 0, 1, .ro, 0x0⟩
/-- CAP_STATUS.ready [0], RO, Table 3.13. -/
def Reg.CAP_STATUS.ready : Field := ⟨0x10008, 0, 1, 0, 1, .ro, 0x0⟩
/-- PWR_SUPSTAT.active [0], RO, Table 18.2. -/
def Reg.PWR_SUPSTAT.active : Field := ⟨0x100000, 0, 1, 0, 1, .ro, 0x0⟩
/-- PWR_SUPSTAT.main_ok [1], RO, Table 18.2. -/
def Reg.PWR_SUPSTAT.main_ok : Field := ⟨0x100000, 1, 1, 0, 1, .ro, 0x0⟩
/-- PWR_SUPSTAT.backup_ok [2], RO, Table 18.2. -/
def Reg.PWR_SUPSTAT.backup_ok : Field := ⟨0x100000, 2, 1, 0, 1, .ro, 0x0⟩
/-- PWR_SUPSTAT.inhibit [3], RO, Table 18.2. -/
def Reg.PWR_SUPSTAT.inhibit : Field := ⟨0x100000, 3, 1, 0, 1, .ro, 0x0⟩
/-- PWR_SUPSTAT.hold [4], RO, Table 18.2. -/
def Reg.PWR_SUPSTAT.hold : Field := ⟨0x100000, 4, 1, 0, 1, .ro, 0x0⟩
/-- PWR_INMEAS[i].mv [15:0], RO, Table 18.2. -/
def Reg.PWR_INMEAS.mv : Field := ⟨0x100008, 0, 16, 8, 2, .ro, 0x0⟩
/-- PWR_INMEAS[i].power_w [47:32], RO, Table 18.2. -/
def Reg.PWR_INMEAS.power_w : Field := ⟨0x100008, 32, 16, 8, 2, .ro, 0x0⟩
/-- PWR_EVT.switchover [0], W1C, Table 18.3. -/
def Reg.PWR_EVT.switchover : Field := ⟨0x100040, 0, 1, 0, 1, .w1c, 0x0⟩
/-- PWR_EVT.inhibit [1], W1C, Table 18.3. -/
def Reg.PWR_EVT.inhibit : Field := ⟨0x100040, 1, 1, 0, 1, .w1c, 0x0⟩
/-- PWR_EVT.hold [2], W1C, Table 18.3. -/
def Reg.PWR_EVT.hold : Field := ⟨0x100040, 2, 1, 0, 1, .w1c, 0x0⟩
/-- PWR_EVT.lease_expired [3], W1C, Table 18.3. -/
def Reg.PWR_EVT.lease_expired : Field := ⟨0x100040, 3, 1, 0, 1, .w1c, 0x0⟩
/-- PWR_EVT.throttle [4], W1C, Table 18.3. -/
def Reg.PWR_EVT.throttle : Field := ⟨0x100040, 4, 1, 0, 1, .w1c, 0x0⟩
/-- PWR_EVT.thermal_hold [5], W1C, Table 18.3. -/
def Reg.PWR_EVT.thermal_hold : Field := ⟨0x100040, 5, 1, 0, 1, .w1c, 0x0⟩
/-- PWR_EVT.refit [6], W1C, Table 18.3. -/
def Reg.PWR_EVT.refit : Field := ⟨0x100040, 6, 1, 0, 1, .w1c, 0x0⟩
/-- PWR_EVT.margin_warn [7], W1C, Table 18.3. -/
def Reg.PWR_EVT.margin_warn : Field := ⟨0x100040, 7, 1, 0, 1, .w1c, 0x0⟩
/-- PWR_EVT.margin_end [8], W1C, Table 18.3. -/
def Reg.PWR_EVT.margin_end : Field := ⟨0x100040, 8, 1, 0, 1, .w1c, 0x0⟩
/-- PWR_EVT.fray_fault [9], W1C, Table 18.3. -/
def Reg.PWR_EVT.fray_fault : Field := ⟨0x100040, 9, 1, 0, 1, .w1c, 0x0⟩
/-- PWR_EVTMASK.mask [31:0], RW, Table 18.3. -/
def Reg.PWR_EVTMASK.mask : Field := ⟨0x100044, 0, 32, 0, 1, .rw, 0x3FF⟩
/-- PWR_SWCNT.count [47:0], RO, Table 18.4. -/
def Reg.PWR_SWCNT.count : Field := ⟨0x100080, 0, 48, 0, 1, .ro, 0x0⟩
/-- PWR_SWCNT.sat [48], W1C, Table 18.4. -/
def Reg.PWR_SWCNT.sat : Field := ⟨0x100080, 48, 1, 0, 1, .w1c, 0x0⟩
/-- PWR_INHCNT.count [47:0], RO, Table 18.4. -/
def Reg.PWR_INHCNT.count : Field := ⟨0x100088, 0, 48, 0, 1, .ro, 0x0⟩
/-- PWR_INHCNT.sat [48], W1C, Table 18.4. -/
def Reg.PWR_INHCNT.sat : Field := ⟨0x100088, 48, 1, 0, 1, .w1c, 0x0⟩
/-- PWR_THROTNS.count [47:0], RO, Table 18.4. -/
def Reg.PWR_THROTNS.count : Field := ⟨0x100090, 0, 48, 0, 1, .ro, 0x0⟩
/-- PWR_THROTNS.sat [48], W1C, Table 18.4. -/
def Reg.PWR_THROTNS.sat : Field := ⟨0x100090, 48, 1, 0, 1, .w1c, 0x0⟩
/-- PWR_TWDISCNT.count [47:0], RO, Table 18.4. -/
def Reg.PWR_TWDISCNT.count : Field := ⟨0x100098, 0, 48, 0, 1, .ro, 0x0⟩
/-- PWR_TWDISCNT.sat [48], W1C, Table 18.4. -/
def Reg.PWR_TWDISCNT.sat : Field := ⟨0x100098, 48, 1, 0, 1, .w1c, 0x0⟩
/-- PWR_RATECTL.mode [0], RW, Table 2.5. -/
def Reg.PWR_RATECTL.mode : Field := ⟨0x100100, 0, 1, 0, 1, .rw, 0x1⟩
/-- PWR_RATECTL.breeze_rate [14:8], RW, Table 2.5. -/
def Reg.PWR_RATECTL.breeze_rate : Field := ⟨0x100100, 8, 7, 0, 1, .rw, 0x64⟩
/-- PWR_RATESTAT.active_mode [0], RO, Table 2.6. -/
def Reg.PWR_RATESTAT.active_mode : Field := ⟨0x100104, 0, 1, 0, 1, .ro, 0x0⟩
/-- PWR_RATESTAT.ceiling [1], RO, Table 2.6. -/
def Reg.PWR_RATESTAT.ceiling : Field := ⟨0x100104, 1, 1, 0, 1, .ro, 0x0⟩
/-- PWR_RATESTAT.suspended [2], RO, Table 2.6. -/
def Reg.PWR_RATESTAT.suspended : Field := ⟨0x100104, 2, 1, 0, 1, .ro, 0x0⟩
/-- PWR_RATESTAT.capped [3], RO, Table 2.6. -/
def Reg.PWR_RATESTAT.capped : Field := ⟨0x100104, 3, 1, 0, 1, .ro, 0x0⟩
/-- PWR_RATESTAT.active_rate [14:8], RO, Table 2.6. -/
def Reg.PWR_RATESTAT.active_rate : Field := ⟨0x100104, 8, 7, 0, 1, .ro, 0x0⟩
/-- PWR_RATESTAT.busy [15], RO, Table 2.6. -/
def Reg.PWR_RATESTAT.busy : Field := ⟨0x100104, 15, 1, 0, 1, .ro, 0x0⟩
/-- PWR_RATESTAT.reject_cause [23:16], RO, Table 2.6. -/
def Reg.PWR_RATESTAT.reject_cause : Field := ⟨0x100104, 16, 8, 0, 1, .ro, 0x0⟩
/-- PWR_RATEEVT.slip [0], W1C, Table 2.7. -/
def Reg.PWR_RATEEVT.slip : Field := ⟨0x100108, 0, 1, 0, 1, .w1c, 0x0⟩
/-- PWR_RATEEVT.suspend [1], W1C, Table 2.7. -/
def Reg.PWR_RATEEVT.suspend : Field := ⟨0x100108, 1, 1, 0, 1, .w1c, 0x0⟩
/-- PWR_RATEEVT.reject [2], W1C, Table 2.7. -/
def Reg.PWR_RATEEVT.reject : Field := ⟨0x100108, 2, 1, 0, 1, .w1c, 0x0⟩
/-- PWR_RATEEVTMASK.mask [31:0], RW, Table 2.7. -/
def Reg.PWR_RATEEVTMASK.mask : Field := ⟨0x10010C, 0, 32, 0, 1, .rw, 0x7⟩
/-- PWR_SLIPCNT.count [47:0], RO, Table 2.8. -/
def Reg.PWR_SLIPCNT.count : Field := ⟨0x100110, 0, 48, 0, 1, .ro, 0x0⟩
/-- PWR_SLIPCNT.sat [48], W1C, Table 2.8. -/
def Reg.PWR_SLIPCNT.sat : Field := ⟨0x100110, 48, 1, 0, 1, .w1c, 0x0⟩
/-- PWR_LEASE.budget_w [15:0], RO, Table 18.5. -/
def Reg.PWR_LEASE.budget_w : Field := ⟨0x100200, 0, 16, 0, 1, .ro, 0x4B0⟩
/-- PWR_LEASE.remaining_ms [27:16], RO, Table 18.5. -/
def Reg.PWR_LEASE.remaining_ms : Field := ⟨0x100200, 16, 12, 0, 1, .ro, 0x0⟩
/-- PWR_LEASE.state [31:30], RO, Table 18.5. -/
def Reg.PWR_LEASE.state : Field := ⟨0x100200, 30, 2, 0, 1, .ro, 0x0⟩
/-- PWR_LEASE.seq [63:32], RO, Table 18.5. -/
def Reg.PWR_LEASE.seq : Field := ⟨0x100200, 32, 32, 0, 1, .ro, 0x0⟩
/-- PWR_CAP.cap_w [15:0], RO, Table 18.5. -/
def Reg.PWR_CAP.cap_w : Field := ⟨0x100208, 0, 16, 0, 1, .ro, 0x4B0⟩
/-- PWR_CAP.given_w [31:16], RO, Table 18.5. -/
def Reg.PWR_CAP.given_w : Field := ⟨0x100208, 16, 16, 0, 1, .ro, 0x0⟩
/-- PWR_CAP.received_w [47:32], RO, Table 18.5. -/
def Reg.PWR_CAP.received_w : Field := ⟨0x100208, 32, 16, 0, 1, .ro, 0x0⟩
/-- PWR_CAP.draw_w [63:48], RO, Table 18.5. -/
def Reg.PWR_CAP.draw_w : Field := ⟨0x100208, 48, 16, 0, 1, .ro, 0x0⟩
/-- PWR_TWCFG.grp [15:0], RW, Table 18.6. -/
def Reg.PWR_TWCFG.grp : Field := ⟨0x100300, 0, 16, 0, 1, .rw, 0x0⟩
/-- PWR_TWCFG.en [31], RW, Table 18.6. -/
def Reg.PWR_TWCFG.en : Field := ⟨0x100300, 31, 1, 0, 1, .rw, 0x0⟩
/-- PWR_TWCFG.slack_pct [15:8], RW, Table 18.6. -/
def Reg.PWR_TWCFG.slack_pct : Field := ⟨0x100304, 8, 8, 0, 1, .rw, 0xA⟩
/-- PWR_TWCFG.job [31:16], RW, Table 18.6. -/
def Reg.PWR_TWCFG.job : Field := ⟨0x100304, 16, 16, 0, 1, .rw, 0xFFFF⟩
/-- PWR_TWCFG.floor_w [15:0], RW, Table 18.6. -/
def Reg.PWR_TWCFG.floor_w : Field := ⟨0x100308, 0, 16, 0, 1, .rw, 0x258⟩
/-- PWR_TWSTAT.reports [7:0], RO, Table 18.6. -/
def Reg.PWR_TWSTAT.reports : Field := ⟨0x100310, 0, 8, 0, 1, .ro, 0x0⟩
/-- PWR_TWSTAT.slack [23:16], RO, Table 18.6. -/
def Reg.PWR_TWSTAT.slack : Field := ⟨0x100310, 16, 8, 0, 1, .ro, 0x0⟩
/-- PWR_TWSTAT.history [31], RO, Table 18.6. -/
def Reg.PWR_TWSTAT.history : Field := ⟨0x100310, 31, 1, 0, 1, .ro, 0x0⟩
/-- PWR_THERM.state [1:0], RO, Table 18.7. -/
def Reg.PWR_THERM.state : Field := ⟨0x100400, 0, 2, 0, 1, .ro, 0x0⟩
/-- PWR_THERM.diode [15:8], RO, Table 18.7. -/
def Reg.PWR_THERM.diode : Field := ⟨0x100400, 8, 8, 0, 1, .ro, 0x0⟩
/-- PWR_THERM.tj_max [23:16], RO, Table 18.7. -/
def Reg.PWR_THERM.tj_max : Field := ⟨0x100400, 16, 8, 0, 1, .ro, 0x0⟩
/-- PWR_THCFG.throttle_c [7:0], RW, Table 18.7. -/
def Reg.PWR_THCFG.throttle_c : Field := ⟨0x100404, 0, 8, 0, 1, .rw, 0x64⟩
/-- PWR_REFITCTL.start [0], WO, Table 18.8. -/
def Reg.PWR_REFITCTL.start : Field := ⟨0x100600, 0, 1, 0, 1, .wo, 0x0⟩
/-- PWR_REFITCTL.busy [31], RO, Table 18.8. -/
def Reg.PWR_REFITCTL.busy : Field := ⟨0x100600, 31, 1, 0, 1, .ro, 0x0⟩
/-- PWR_REFITCFG.period_h [15:0], RW, Table 18.8. -/
def Reg.PWR_REFITCFG.period_h : Field := ⟨0x100604, 0, 16, 0, 1, .rw, 0x18⟩
/-- PWR_REFITCFG.warn [22:16], RW, Table 18.8. -/
def Reg.PWR_REFITCFG.warn : Field := ⟨0x100604, 16, 7, 0, 1, .rw, 0x1E⟩
/-- PWR_REFITCFG.target_rate [30:24], RW, Table 18.8. -/
def Reg.PWR_REFITCFG.target_rate : Field := ⟨0x100604, 24, 7, 0, 1, .rw, 0x64⟩
/-- PWR_REFIT.d [15:0], RO, Table 18.8. -/
def Reg.PWR_REFIT.d : Field := ⟨0x100608, 0, 16, 0, 1, .ro, 0x0⟩
/-- PWR_REFIT.floor_mv [31:20], RO, Table 18.8. -/
def Reg.PWR_REFIT.floor_mv : Field := ⟨0x100608, 20, 12, 0, 1, .ro, 0x0⟩
/-- PWR_REFIT.ceiling [38:32], RO, Table 18.8. -/
def Reg.PWR_REFIT.ceiling : Field := ⟨0x100608, 32, 7, 0, 1, .ro, 0x0⟩
/-- PWR_REFIT.at_start [39], RO, Table 18.8. -/
def Reg.PWR_REFIT.at_start : Field := ⟨0x100608, 39, 1, 0, 1, .ro, 0x0⟩
/-- PWR_REFIT.assist [41:40], RO, Table 18.8. -/
def Reg.PWR_REFIT.assist : Field := ⟨0x100608, 40, 2, 0, 1, .ro, 0x0⟩
/-- PWR_REFIT.margin [63:48], RO, Table 18.8. -/
def Reg.PWR_REFIT.margin : Field := ⟨0x100608, 48, 16, 0, 1, .ro, 0x0⟩
/-- PWR_REFITGSC.gsc [63:0], RO, Table 18.8. -/
def Reg.PWR_REFITGSC.gsc : Field := ⟨0x100610, 0, 64, 0, 1, .ro, 0x0⟩
/-- PWR_FRAY[i].drift [15:0], RO, Table 18.8. -/
def Reg.PWR_FRAY.drift : Field := ⟨0x100700, 0, 16, 4, 48, .ro, 0x0⟩
/-- PWR_FRAY[i].valid [31], RO, Table 18.8. -/
def Reg.PWR_FRAY.valid : Field := ⟨0x100700, 31, 1, 4, 48, .ro, 0x0⟩
/-- PWR_DIODE[i].temp [15:0], RO, Table 18.7. -/
def Reg.PWR_DIODE.temp : Field := ⟨0x100800, 0, 16, 4, 72, .ro, 0x0⟩
/-- MGT_STATUS.image [0], RO, Table 19.12. -/
def Reg.MGT_STATUS.image : Field := ⟨0x200000, 0, 1, 0, 1, .ro, 0x0⟩
/-- MGT_STATUS.healthy [1], RO, Table 19.12. -/
def Reg.MGT_STATUS.healthy : Field := ⟨0x200000, 1, 1, 0, 1, .ro, 0x0⟩
/-- MGT_STATUS.trial [2], RO, Table 19.12. -/
def Reg.MGT_STATUS.trial : Field := ⟨0x200000, 2, 1, 0, 1, .ro, 0x0⟩
/-- MGT_STATUS.recovery [3], RO, Table 19.12. -/
def Reg.MGT_STATUS.recovery : Field := ⟨0x200000, 3, 1, 0, 1, .ro, 0x0⟩
/-- MGT_STATUS.svn [15:8], RO, Table 19.12. -/
def Reg.MGT_STATUS.svn : Field := ⟨0x200000, 8, 8, 0, 1, .ro, 0x0⟩
/-- MGT_STATUS.counter [23:16], RO, Table 19.12. -/
def Reg.MGT_STATUS.counter : Field := ⟨0x200000, 16, 8, 0, 1, .ro, 0x0⟩
/-- MGT_FWVER.version [31:0], RO, Table 19.12. -/
def Reg.MGT_FWVER.version : Field := ⟨0x200004, 0, 32, 0, 1, .ro, 0x0⟩
/-- MGT_LOGHEAD.seq [31:0], RO, Table 19.12. -/
def Reg.MGT_LOGHEAD.seq : Field := ⟨0x200010, 0, 32, 0, 1, .ro, 0x0⟩
/-- MGT_LOGTAIL.seq [31:0], RO, Table 19.12. -/
def Reg.MGT_LOGTAIL.seq : Field := ⟨0x200014, 0, 32, 0, 1, .ro, 0x0⟩
/-- MGT_LOGSEL.seq [31:0], RW, Table 19.12. -/
def Reg.MGT_LOGSEL.seq : Field := ⟨0x200018, 0, 32, 0, 1, .rw, 0x0⟩
/-- MGT_LOGSTAT.ready [0], RO, Table 19.12. -/
def Reg.MGT_LOGSTAT.ready : Field := ⟨0x20001C, 0, 1, 0, 1, .ro, 0x0⟩
/-- MGT_LOGSTAT.missing [1], RO, Table 19.12. -/
def Reg.MGT_LOGSTAT.missing : Field := ⟨0x20001C, 1, 1, 0, 1, .ro, 0x0⟩
/-- MGT_LOGSTAT.corrupt [2], RO, Table 19.12. -/
def Reg.MGT_LOGSTAT.corrupt : Field := ⟨0x20001C, 2, 1, 0, 1, .ro, 0x0⟩
/-- MGT_LOGLOST.count [47:0], RO, Table 19.13. -/
def Reg.MGT_LOGLOST.count : Field := ⟨0x200020, 0, 48, 0, 1, .ro, 0x0⟩
/-- MGT_LOGLOST.sat [48], W1C, Table 19.13. -/
def Reg.MGT_LOGLOST.sat : Field := ⟨0x200020, 48, 1, 0, 1, .w1c, 0x0⟩
/-- MGT_MBCTL.req_len [12:0], RW, Table 19.14. -/
def Reg.MGT_MBCTL.req_len : Field := ⟨0x200100, 0, 13, 0, 1, .rw, 0x0⟩
/-- MGT_MBCTL.go [29], WO, Table 19.14. -/
def Reg.MGT_MBCTL.go : Field := ⟨0x200100, 29, 1, 0, 1, .wo, 0x0⟩
/-- MGT_MBCTL.done [30], W1C, Table 19.14. -/
def Reg.MGT_MBCTL.done : Field := ⟨0x200100, 30, 1, 0, 1, .w1c, 0x0⟩
/-- MGT_MBCTL.busy [31], RO, Table 19.14. -/
def Reg.MGT_MBCTL.busy : Field := ⟨0x200100, 31, 1, 0, 1, .ro, 0x0⟩
/-- MGT_MBRLEN.rsp_len [12:0], RO, Table 19.14. -/
def Reg.MGT_MBRLEN.rsp_len : Field := ⟨0x200108, 0, 13, 0, 1, .ro, 0x0⟩
/-- SEQ_EXCINFO[i].index [11:0], RO, Table 4.8. -/
def Reg.SEQ_EXCINFO.index : Field := ⟨0x408000, 0, 12, 8, 256, .ro, 0x0⟩
/-- SEQ_EXCINFO[i].engine [29:27], RO, Table 4.8. -/
def Reg.SEQ_EXCINFO.engine : Field := ⟨0x408000, 27, 3, 8, 256, .ro, 0x0⟩
/-- SEQ_EXCINFO[i].async [30], RO, Table 4.8. -/
def Reg.SEQ_EXCINFO.async : Field := ⟨0x408000, 30, 1, 8, 256, .ro, 0x0⟩
/-- SEQ_EXCINFO[i].valid [31], W1C, Table 4.8. -/
def Reg.SEQ_EXCINFO.valid : Field := ⟨0x408000, 31, 1, 8, 256, .w1c, 0x0⟩
/-- SEQ_EXCINFO[i].cause [47:32], RO, Table 4.8. -/
def Reg.SEQ_EXCINFO.cause : Field := ⟨0x408000, 32, 16, 8, 256, .ro, 0x0⟩
/-- SEQ_EXCINFO[i].job [63:48], RO, Table 4.8. -/
def Reg.SEQ_EXCINFO.job : Field := ⟨0x408000, 48, 16, 8, 256, .ro, 0x0⟩
/-- SEQ_TILECNT[i].value [31:0], RW, Table 6.7. -/
def Reg.SEQ_TILECNT.value : Field := ⟨0x410000, 0, 32, 4, 4096, .rw, 0x0⟩
/-- SEQ_NUMFLAG[i].sat_dpa [0], W1C, Table 7.6. -/
def Reg.SEQ_NUMFLAG.sat_dpa : Field := ⟨0x420000, 0, 1, 32, 256, .w1c, 0x0⟩
/-- SEQ_NUMFLAG[i].sat_vrw [1], W1C, Table 7.6. -/
def Reg.SEQ_NUMFLAG.sat_vrw : Field := ⟨0x420000, 1, 1, 32, 256, .w1c, 0x0⟩
/-- SEQ_NUMFLAG[i].ufl_dpa [2], W1C, Table 7.6. -/
def Reg.SEQ_NUMFLAG.ufl_dpa : Field := ⟨0x420000, 2, 1, 32, 256, .w1c, 0x0⟩
/-- SEQ_NUMFLAG[i].ufl_vrw [3], W1C, Table 7.6. -/
def Reg.SEQ_NUMFLAG.ufl_vrw : Field := ⟨0x420000, 3, 1, 32, 256, .w1c, 0x0⟩
/-- SEQ_NUMFLAG[i].inv_dpa [4], W1C, Table 7.6. -/
def Reg.SEQ_NUMFLAG.inv_dpa : Field := ⟨0x420000, 4, 1, 32, 256, .w1c, 0x0⟩
/-- SEQ_NUMFLAG[i].inv_vrw [5], W1C, Table 7.6. -/
def Reg.SEQ_NUMFLAG.inv_vrw : Field := ⟨0x420000, 5, 1, 32, 256, .w1c, 0x0⟩
/-- SEQ_NUMFLAG[i].first_index [43:32], RO, Table 7.6. -/
def Reg.SEQ_NUMFLAG.first_index : Field := ⟨0x420000, 32, 12, 32, 256, .ro, 0x0⟩
/-- SEQ_NUMFLAG[i].first_engine [45:44], RO, Table 7.6. -/
def Reg.SEQ_NUMFLAG.first_engine : Field := ⟨0x420000, 44, 2, 32, 256, .ro, 0x0⟩
/-- SEQ_NUMFLAG[i].job [63:48], RO, Table 7.6. -/
def Reg.SEQ_NUMFLAG.job : Field := ⟨0x420000, 48, 16, 32, 256, .ro, 0x0⟩
/-- SEQ_SATCNT[i].count [47:0], RO, Table 7.7. -/
def Reg.SEQ_SATCNT.count : Field := ⟨0x420008, 0, 48, 32, 256, .ro, 0x0⟩
/-- SEQ_SATCNT[i].sat [48], W1C, Table 7.7. -/
def Reg.SEQ_SATCNT.sat : Field := ⟨0x420008, 48, 1, 32, 256, .w1c, 0x0⟩
/-- SEQ_UFLCNT[i].count [47:0], RO, Table 7.7. -/
def Reg.SEQ_UFLCNT.count : Field := ⟨0x420010, 0, 48, 32, 256, .ro, 0x0⟩
/-- SEQ_UFLCNT[i].sat [48], W1C, Table 7.7. -/
def Reg.SEQ_UFLCNT.sat : Field := ⟨0x420010, 48, 1, 32, 256, .w1c, 0x0⟩
/-- SEQ_INVCNT[i].count [47:0], RO, Table 7.7. -/
def Reg.SEQ_INVCNT.count : Field := ⟨0x420018, 0, 48, 32, 256, .ro, 0x0⟩
/-- SEQ_INVCNT[i].sat [48], W1C, Table 7.7. -/
def Reg.SEQ_INVCNT.sat : Field := ⟨0x420018, 48, 1, 32, 256, .w1c, 0x0⟩
/-- SEQ_DPAREP[i].c0_unit [6:0], RO, Table 8.7. -/
def Reg.SEQ_DPAREP.c0_unit : Field := ⟨0x430000, 0, 7, 8, 256, .ro, 0x0⟩
/-- SEQ_DPAREP[i].c0_en [7], RO, Table 8.7. -/
def Reg.SEQ_DPAREP.c0_en : Field := ⟨0x430000, 7, 1, 8, 256, .ro, 0x0⟩
/-- SEQ_DPAREP[i].c1_unit [14:8], RO, Table 8.7. -/
def Reg.SEQ_DPAREP.c1_unit : Field := ⟨0x430000, 8, 7, 8, 256, .ro, 0x0⟩
/-- SEQ_DPAREP[i].c1_en [15], RO, Table 8.7. -/
def Reg.SEQ_DPAREP.c1_en : Field := ⟨0x430000, 15, 1, 8, 256, .ro, 0x0⟩
/-- SEQ_DPAREP[i].c2_unit [22:16], RO, Table 8.7. -/
def Reg.SEQ_DPAREP.c2_unit : Field := ⟨0x430000, 16, 7, 8, 256, .ro, 0x0⟩
/-- SEQ_DPAREP[i].c2_en [23], RO, Table 8.7. -/
def Reg.SEQ_DPAREP.c2_en : Field := ⟨0x430000, 23, 1, 8, 256, .ro, 0x0⟩
/-- SEQ_DPAREP[i].c3_unit [30:24], RO, Table 8.7. -/
def Reg.SEQ_DPAREP.c3_unit : Field := ⟨0x430000, 24, 7, 8, 256, .ro, 0x0⟩
/-- SEQ_DPAREP[i].c3_en [31], RO, Table 8.7. -/
def Reg.SEQ_DPAREP.c3_en : Field := ⟨0x430000, 31, 1, 8, 256, .ro, 0x0⟩
/-- SEQ_DPAREP[i].row_slice [34:32], RO, Table 8.7. -/
def Reg.SEQ_DPAREP.row_slice : Field := ⟨0x430000, 32, 3, 8, 256, .ro, 0x0⟩
/-- SEQ_DPAREP[i].row_en [35], RO, Table 8.7. -/
def Reg.SEQ_DPAREP.row_en : Field := ⟨0x430000, 35, 1, 8, 256, .ro, 0x0⟩
/-- SEQ_VRWREP[i].lane [8:0], RO, Table 9.4. -/
def Reg.SEQ_VRWREP.lane : Field := ⟨0x431000, 0, 9, 4, 2048, .ro, 0x0⟩
/-- SEQ_VRWREP[i].en [15], RO, Table 9.4. -/
def Reg.SEQ_VRWREP.en : Field := ⟨0x431000, 15, 1, 4, 2048, .ro, 0x0⟩
/-- SEQ_KVPOOL.base [47:16], RWL, Table 12.12. -/
def Reg.SEQ_KVPOOL.base : Field := ⟨0x460000, 16, 32, 0, 1, .rwl, 0x0⟩
/-- SEQ_KVCFG.defer_max [23:16], RWL, Table 12.12. -/
def Reg.SEQ_KVCFG.defer_max : Field := ⟨0x460008, 16, 8, 0, 1, .rwl, 0x40⟩
/-- SEQ_KVCFG.layers [28:24], RWL, Table 12.12. -/
def Reg.SEQ_KVCFG.layers : Field := ⟨0x460008, 24, 5, 0, 1, .rwl, 0x1⟩
/-- SEQ_KVCFG.sets [55:32], RWL, Table 12.12. -/
def Reg.SEQ_KVCFG.sets : Field := ⟨0x460008, 32, 24, 0, 1, .rwl, 0x0⟩
/-- SEQ_KVRSV.reserve [23:0], RWL, Table 12.12. -/
def Reg.SEQ_KVRSV.reserve : Field := ⟨0x460010, 0, 24, 0, 1, .rwl, 0x0⟩
/-- SEQ_KVTAB.base [47:12], RWL, Table 12.12. -/
def Reg.SEQ_KVTAB.base : Field := ⟨0x460018, 12, 36, 0, 1, .rwl, 0x0⟩
/-- SEQ_KVREC.base [47:12], RWL, Table 12.12. -/
def Reg.SEQ_KVREC.base : Field := ⟨0x460020, 12, 36, 0, 1, .rwl, 0x0⟩
/-- SEQ_KVLDG.base [47:12], RWL, Table 12.12. -/
def Reg.SEQ_KVLDG.base : Field := ⟨0x460028, 12, 36, 0, 1, .rwl, 0x0⟩
/-- SEQ_KVPARK.base [47:16], RWL, Table 12.12. -/
def Reg.SEQ_KVPARK.base : Field := ⟨0x460030, 16, 32, 0, 1, .rwl, 0x0⟩
/-- SEQ_KVLOCK.lock [0], RW, Table 12.12. -/
def Reg.SEQ_KVLOCK.lock : Field := ⟨0x460038, 0, 1, 0, 1, .rw, 0x0⟩
/-- SEQ_KVEVT.defer [0], W1C, Table 12.15. -/
def Reg.SEQ_KVEVT.defer : Field := ⟨0x460040, 0, 1, 0, 1, .w1c, 0x0⟩
/-- SEQ_KVEVT.exhausted [1], W1C, Table 12.15. -/
def Reg.SEQ_KVEVT.exhausted : Field := ⟨0x460040, 1, 1, 0, 1, .w1c, 0x0⟩
/-- SEQ_KVEVT.expire [2], W1C, Table 12.15. -/
def Reg.SEQ_KVEVT.expire : Field := ⟨0x460040, 2, 1, 0, 1, .w1c, 0x0⟩
/-- SEQ_KVEVT.park_fail [3], W1C, Table 12.15. -/
def Reg.SEQ_KVEVT.park_fail : Field := ⟨0x460040, 3, 1, 0, 1, .w1c, 0x0⟩
/-- SEQ_KVEVT.drop [4], W1C, Table 12.15. -/
def Reg.SEQ_KVEVT.drop : Field := ⟨0x460040, 4, 1, 0, 1, .w1c, 0x0⟩
/-- SEQ_KVEVT.reject [5], W1C, Table 12.15. -/
def Reg.SEQ_KVEVT.reject : Field := ⟨0x460040, 5, 1, 0, 1, .w1c, 0x0⟩
/-- SEQ_KVEVTMASK.mask [31:0], RW, Table 12.15. -/
def Reg.SEQ_KVEVTMASK.mask : Field := ⟨0x460044, 0, 32, 0, 1, .rw, 0x3F⟩
/-- SEQ_KVDEFERCNT.count [47:0], RO, Table 12.16. -/
def Reg.SEQ_KVDEFERCNT.count : Field := ⟨0x460080, 0, 48, 0, 1, .ro, 0x0⟩
/-- SEQ_KVDEFERCNT.sat [48], W1C, Table 12.16. -/
def Reg.SEQ_KVDEFERCNT.sat : Field := ⟨0x460080, 48, 1, 0, 1, .w1c, 0x0⟩
/-- SEQ_KVEXHCNT.count [47:0], RO, Table 12.16. -/
def Reg.SEQ_KVEXHCNT.count : Field := ⟨0x460088, 0, 48, 0, 1, .ro, 0x0⟩
/-- SEQ_KVEXHCNT.sat [48], W1C, Table 12.16. -/
def Reg.SEQ_KVEXHCNT.sat : Field := ⟨0x460088, 48, 1, 0, 1, .w1c, 0x0⟩
/-- SEQ_KVDROPCNT.count [47:0], RO, Table 12.16. -/
def Reg.SEQ_KVDROPCNT.count : Field := ⟨0x460090, 0, 48, 0, 1, .ro, 0x0⟩
/-- SEQ_KVDROPCNT.sat [48], W1C, Table 12.16. -/
def Reg.SEQ_KVDROPCNT.sat : Field := ⟨0x460090, 48, 1, 0, 1, .w1c, 0x0⟩
/-- SEQ_KVCOWCNT.count [47:0], RO, Table 12.16. -/
def Reg.SEQ_KVCOWCNT.count : Field := ⟨0x460098, 0, 48, 0, 1, .ro, 0x0⟩
/-- SEQ_KVCOWCNT.sat [48], W1C, Table 12.16. -/
def Reg.SEQ_KVCOWCNT.sat : Field := ⟨0x460098, 48, 1, 0, 1, .w1c, 0x0⟩
/-- SEQ_KVPARKCNT.count [47:0], RO, Table 12.16. -/
def Reg.SEQ_KVPARKCNT.count : Field := ⟨0x4600A0, 0, 48, 0, 1, .ro, 0x0⟩
/-- SEQ_KVPARKCNT.sat [48], W1C, Table 12.16. -/
def Reg.SEQ_KVPARKCNT.sat : Field := ⟨0x4600A0, 48, 1, 0, 1, .w1c, 0x0⟩
/-- SEQ_KVEXPCNT.count [47:0], RO, Table 12.16. -/
def Reg.SEQ_KVEXPCNT.count : Field := ⟨0x4600A8, 0, 48, 0, 1, .ro, 0x0⟩
/-- SEQ_KVEXPCNT.sat [48], W1C, Table 12.16. -/
def Reg.SEQ_KVEXPCNT.sat : Field := ⟨0x4600A8, 48, 1, 0, 1, .w1c, 0x0⟩
/-- SEQ_KVLEDGER[i].set_first [23:0], RWL, Table 12.13. -/
def Reg.SEQ_KVLEDGER.set_first : Field := ⟨0x460100, 0, 24, 32, 16, .rwl, 0x0⟩
/-- SEQ_KVLEDGER[i].set_count [23:0], RWL, Table 12.13. -/
def Reg.SEQ_KVLEDGER.set_count : Field := ⟨0x460104, 0, 24, 32, 16, .rwl, 0x0⟩
/-- SEQ_KVLEDGER[i].park_first [23:0], RWL, Table 12.13. -/
def Reg.SEQ_KVLEDGER.park_first : Field := ⟨0x460108, 0, 24, 32, 16, .rwl, 0x0⟩
/-- SEQ_KVLEDGER[i].park_count [23:0], RWL, Table 12.13. -/
def Reg.SEQ_KVLEDGER.park_count : Field := ⟨0x46010C, 0, 24, 32, 16, .rwl, 0x0⟩
/-- SEQ_KVLEDGER[i].tab_first [23:0], RWL, Table 12.13. -/
def Reg.SEQ_KVLEDGER.tab_first : Field := ⟨0x460110, 0, 24, 32, 16, .rwl, 0x0⟩
/-- SEQ_KVLEDGER[i].tab_count [23:0], RWL, Table 12.13. -/
def Reg.SEQ_KVLEDGER.tab_count : Field := ⟨0x460114, 0, 24, 32, 16, .rwl, 0x0⟩
/-- SEQ_KVLEDGER[i].former [16:0], RWL, Table 12.13. -/
def Reg.SEQ_KVLEDGER.former : Field := ⟨0x460118, 0, 17, 32, 16, .rwl, 0x0⟩
/-- SEQ_KVLEDGER[i].en [31], RWL, Table 12.13. -/
def Reg.SEQ_KVLEDGER.en : Field := ⟨0x460118, 31, 1, 32, 16, .rwl, 0x0⟩
/-- SEQ_KVLEDGER[i].grp [15:0], RWL, Table 12.13. -/
def Reg.SEQ_KVLEDGER.grp : Field := ⟨0x46011C, 0, 16, 32, 16, .rwl, 0x0⟩
/-- SEQ_KVSTAT[i].free_sets [23:0], RO, Table 12.14. -/
def Reg.SEQ_KVSTAT.free_sets : Field := ⟨0x460400, 0, 24, 16, 16, .ro, 0x0⟩
/-- SEQ_KVSTAT[i].free_park [23:0], RO, Table 12.14. -/
def Reg.SEQ_KVSTAT.free_park : Field := ⟨0x460404, 0, 24, 16, 16, .ro, 0x0⟩
/-- SEQ_KVSTAT[i].free_tab [23:0], RO, Table 12.14. -/
def Reg.SEQ_KVSTAT.free_tab : Field := ⟨0x460408, 0, 24, 16, 16, .ro, 0x0⟩
/-- SEQ_KVSTAT[i].record [31:0], RO, Table 12.14. -/
def Reg.SEQ_KVSTAT.record : Field := ⟨0x46040C, 0, 32, 16, 16, .ro, 0x0⟩
/-- SEQ_SSBASE.base [47:12], RWL, Table 13.16. -/
def Reg.SEQ_SSBASE.base : Field := ⟨0x470000, 12, 36, 0, 1, .rwl, 0x0⟩
/-- SEQ_SRVEVT.bad_db [0], W1C, Table 13.17. -/
def Reg.SEQ_SRVEVT.bad_db : Field := ⟨0x470040, 0, 1, 0, 1, .w1c, 0x0⟩
/-- SEQ_SRVEVT.cmd_fail [1], W1C, Table 13.17. -/
def Reg.SEQ_SRVEVT.cmd_fail : Field := ⟨0x470040, 1, 1, 0, 1, .w1c, 0x0⟩
/-- SEQ_SRVEVT.strm_wait [2], W1C, Table 13.17. -/
def Reg.SEQ_SRVEVT.strm_wait : Field := ⟨0x470040, 2, 1, 0, 1, .w1c, 0x0⟩
/-- SEQ_SRVEVT.nan_end [3], W1C, Table 13.17. -/
def Reg.SEQ_SRVEVT.nan_end : Field := ⟨0x470040, 3, 1, 0, 1, .w1c, 0x0⟩
/-- SEQ_SRVEVT.lost [4], W1C, Table 13.17. -/
def Reg.SEQ_SRVEVT.lost : Field := ⟨0x470040, 4, 1, 0, 1, .w1c, 0x0⟩
/-- SEQ_SRVEVT.dup_prop [5], W1C, Table 13.17. -/
def Reg.SEQ_SRVEVT.dup_prop : Field := ⟨0x470040, 5, 1, 0, 1, .w1c, 0x0⟩
/-- SEQ_SRVEVTMASK.mask [31:0], RW, Table 13.17. -/
def Reg.SEQ_SRVEVTMASK.mask : Field := ⟨0x470044, 0, 32, 0, 1, .rw, 0x3F⟩
/-- SEQ_STRMWAITCNT.count [47:0], RO, Table 13.18. -/
def Reg.SEQ_STRMWAITCNT.count : Field := ⟨0x470080, 0, 48, 0, 1, .ro, 0x0⟩
/-- SEQ_STRMWAITCNT.sat [48], W1C, Table 13.18. -/
def Reg.SEQ_STRMWAITCNT.sat : Field := ⟨0x470080, 48, 1, 0, 1, .w1c, 0x0⟩
/-- SEQ_DUPPROPCNT.count [47:0], RO, Table 13.18. -/
def Reg.SEQ_DUPPROPCNT.count : Field := ⟨0x470088, 0, 48, 0, 1, .ro, 0x0⟩
/-- SEQ_DUPPROPCNT.sat [48], W1C, Table 13.18. -/
def Reg.SEQ_DUPPROPCNT.sat : Field := ⟨0x470088, 48, 1, 0, 1, .w1c, 0x0⟩
/-- SEQ_LOSTCNT.count [47:0], RO, Table 13.18. -/
def Reg.SEQ_LOSTCNT.count : Field := ⟨0x470090, 0, 48, 0, 1, .ro, 0x0⟩
/-- SEQ_LOSTCNT.sat [48], W1C, Table 13.18. -/
def Reg.SEQ_LOSTCNT.sat : Field := ⟨0x470090, 48, 1, 0, 1, .w1c, 0x0⟩
/-- SEQ_TOKCNT.count [63:0], RO, Table 13.19. -/
def Reg.SEQ_TOKCNT.count : Field := ⟨0x4700A0, 0, 64, 0, 1, .ro, 0x0⟩
/-- SEQ_PROPCNT.count [63:0], RO, Table 13.19. -/
def Reg.SEQ_PROPCNT.count : Field := ⟨0x4700A8, 0, 64, 0, 1, .ro, 0x0⟩
/-- SEQ_ACCCNT.count [63:0], RO, Table 13.19. -/
def Reg.SEQ_ACCCNT.count : Field := ⟨0x4700B0, 0, 64, 0, 1, .ro, 0x0⟩
/-- SEQ_SERVE[i].job [15:0], RW, Table 13.16. -/
def Reg.SEQ_SERVE.job : Field := ⟨0x470100, 0, 16, 64, 16, .rw, 0xFFFF⟩
/-- SEQ_SERVE[i].en [31], RW, Table 13.16. -/
def Reg.SEQ_SERVE.en : Field := ⟨0x470100, 31, 1, 64, 16, .rw, 0x0⟩
/-- SEQ_SERVE[i].max_rows [15:0], RW, Table 13.16. -/
def Reg.SEQ_SERVE.max_rows : Field := ⟨0x470104, 0, 16, 64, 16, .rw, 0x100⟩
/-- SEQ_SERVE[i].max_tokens [31:16], RW, Table 13.16. -/
def Reg.SEQ_SERVE.max_tokens : Field := ⟨0x470104, 16, 16, 64, 16, .rw, 0x1000⟩
/-- SEQ_SERVE[i].chunk [15:0], RW, Table 13.16. -/
def Reg.SEQ_SERVE.chunk : Field := ⟨0x470108, 0, 16, 64, 16, .rw, 0x400⟩
/-- SEQ_SERVE[i].depth [23:16], RW, Table 13.16. -/
def Reg.SEQ_SERVE.depth : Field := ⟨0x470108, 16, 8, 64, 16, .rw, 0x4⟩
/-- SEQ_SERVE[i].min_gap_ns [31:0], RW, Table 13.16. -/
def Reg.SEQ_SERVE.min_gap_ns : Field := ⟨0x47010C, 0, 32, 64, 16, .rw, 0x0⟩
/-- SEQ_SERVE[i].vocab [31:0], RW, Table 13.16. -/
def Reg.SEQ_SERVE.vocab : Field := ⟨0x470110, 0, 32, 64, 16, .rw, 0x40000⟩
/-- SEQ_SERVE[i].sgrp [15:0], RW, Table 13.16. -/
def Reg.SEQ_SERVE.sgrp : Field := ⟨0x470114, 0, 16, 64, 16, .rw, 0x0⟩
/-- SEQ_SERVE[i].rep_ep [16:0], RW, Table 13.16. -/
def Reg.SEQ_SERVE.rep_ep : Field := ⟨0x470118, 0, 17, 64, 16, .rw, 0x0⟩
/-- SEQ_SERVE[i].acct_base [47:12], RW, Table 13.16. -/
def Reg.SEQ_SERVE.acct_base : Field := ⟨0x470120, 12, 36, 64, 16, .rw, 0x0⟩
/-- SEQ_SERVE[i].inflight [7:0], RO, Table 13.16. -/
def Reg.SEQ_SERVE.inflight : Field := ⟨0x470128, 0, 8, 64, 16, .ro, 0x0⟩
/-- SEQ_SERVE[i].next_batch [31:0], RO, Table 13.16. -/
def Reg.SEQ_SERVE.next_batch : Field := ⟨0x47012C, 0, 32, 64, 16, .ro, 0x0⟩
/-- SEQ_JOBTAB.en [0], RWL, Table 15.6. -/
def Reg.SEQ_JOBTAB.en : Field := ⟨0x480000, 0, 1, 0, 1, .rwl, 0x0⟩
/-- SEQ_JOBTAB.base [47:12], RWL, Table 15.6. -/
def Reg.SEQ_JOBTAB.base : Field := ⟨0x480000, 12, 36, 0, 1, .rwl, 0x0⟩
/-- SEQ_SCHEDCFG.quantum_ms [15:0], RW, Table 15.6. -/
def Reg.SEQ_SCHEDCFG.quantum_ms : Field := ⟨0x480008, 0, 16, 0, 1, .rw, 0x14⟩
/-- SEQ_JOBCTL.job [15:0], WO, Table 15.6. -/
def Reg.SEQ_JOBCTL.job : Field := ⟨0x480010, 0, 16, 0, 1, .wo, 0x0⟩
/-- SEQ_JOBCTL.op [17:16], WO, Table 15.6. -/
def Reg.SEQ_JOBCTL.op : Field := ⟨0x480010, 16, 2, 0, 1, .wo, 0x0⟩
/-- SEQ_JOBCTLSTAT.result [7:0], RO, Table 15.6. -/
def Reg.SEQ_JOBCTLSTAT.result : Field := ⟨0x480014, 0, 8, 0, 1, .ro, 0x0⟩
/-- SEQ_JOBCTLSTAT.busy [31], RO, Table 15.6. -/
def Reg.SEQ_JOBCTLSTAT.busy : Field := ⟨0x480014, 31, 1, 0, 1, .ro, 0x0⟩
/-- SEQ_SCHEDEVT.preempt [0], W1C, Table 15.8. -/
def Reg.SEQ_SCHEDEVT.preempt : Field := ⟨0x480040, 0, 1, 0, 1, .w1c, 0x0⟩
/-- SEQ_SCHEDEVT.slot_wait [1], W1C, Table 15.8. -/
def Reg.SEQ_SCHEDEVT.slot_wait : Field := ⟨0x480040, 1, 1, 0, 1, .w1c, 0x0⟩
/-- SEQ_SCHEDEVT.ctl_reject [2], W1C, Table 15.8. -/
def Reg.SEQ_SCHEDEVT.ctl_reject : Field := ⟨0x480040, 2, 1, 0, 1, .w1c, 0x0⟩
/-- SEQ_SCHEDEVTMASK.mask [31:0], RW, Table 15.8. -/
def Reg.SEQ_SCHEDEVTMASK.mask : Field := ⟨0x480044, 0, 32, 0, 1, .rw, 0x7⟩
/-- SEQ_PREEMPTCNT.count [47:0], RO, Table 15.9. -/
def Reg.SEQ_PREEMPTCNT.count : Field := ⟨0x480080, 0, 48, 0, 1, .ro, 0x0⟩
/-- SEQ_PREEMPTCNT.sat [48], W1C, Table 15.9. -/
def Reg.SEQ_PREEMPTCNT.sat : Field := ⟨0x480080, 48, 1, 0, 1, .w1c, 0x0⟩
/-- SEQ_SLOTWAITCNT.count [47:0], RO, Table 15.9. -/
def Reg.SEQ_SLOTWAITCNT.count : Field := ⟨0x480088, 0, 48, 0, 1, .ro, 0x0⟩
/-- SEQ_SLOTWAITCNT.sat [48], W1C, Table 15.9. -/
def Reg.SEQ_SLOTWAITCNT.sat : Field := ⟨0x480088, 48, 1, 0, 1, .w1c, 0x0⟩
/-- SEQ_CLOAKMAP[i].slot0_job [31:16], RO, Table 15.7. -/
def Reg.SEQ_CLOAKMAP.slot0_job : Field := ⟨0x481000, 16, 16, 8, 256, .ro, 0xFFFF⟩
/-- SEQ_CLOAKMAP[i].slot1_job [47:32], RO, Table 15.7. -/
def Reg.SEQ_CLOAKMAP.slot1_job : Field := ⟨0x481000, 32, 16, 8, 256, .ro, 0xFFFF⟩
/-- SEQ_QCFG[i].base [47:12], RW, Table 13.15. -/
def Reg.SEQ_QCFG.base : Field := ⟨0x500000, 12, 36, 32, 65536, .rw, 0x0⟩
/-- SEQ_QCFG[i].log2n [4:0], RW, Table 13.15. -/
def Reg.SEQ_QCFG.log2n : Field := ⟨0x500008, 0, 5, 32, 65536, .rw, 0x4⟩
/-- SEQ_QCFG[i].slice [21:20], RW, Table 13.15. -/
def Reg.SEQ_QCFG.slice : Field := ⟨0x500008, 20, 2, 32, 65536, .rw, 0x0⟩
/-- SEQ_QCFG[i].kind [25:24], RW, Table 13.15. -/
def Reg.SEQ_QCFG.kind : Field := ⟨0x500008, 24, 2, 32, 65536, .rw, 0x0⟩
/-- SEQ_QCFG[i].en [31], RW, Table 13.15. -/
def Reg.SEQ_QCFG.en : Field := ⟨0x500008, 31, 1, 32, 65536, .rw, 0x0⟩
/-- SEQ_QCFG[i].cplq [15:0], RW, Table 13.15. -/
def Reg.SEQ_QCFG.cplq : Field := ⟨0x50000C, 0, 16, 32, 65536, .rw, 0x0⟩
/-- SEQ_QCFG[i].tail [16:0], RO, Table 13.15. -/
def Reg.SEQ_QCFG.tail : Field := ⟨0x500010, 0, 17, 32, 65536, .ro, 0x0⟩
/-- SEQ_QCFG[i].head [16:0], RO, Table 13.15. -/
def Reg.SEQ_QCFG.head : Field := ⟨0x500014, 0, 17, 32, 65536, .ro, 0x0⟩
/-- FAB_EPID.ep [16:0], RW, Table 16.5. -/
def Reg.FAB_EPID.ep : Field := ⟨0x800000, 0, 17, 0, 1, .rw, 0x0⟩
/-- FAB_EPID.valid [31], RW, Table 16.5. -/
def Reg.FAB_EPID.valid : Field := ⟨0x800000, 31, 1, 0, 1, .rw, 0x0⟩
/-- FAB_DOMAIN.first [16:0], RW, Table 16.5. -/
def Reg.FAB_DOMAIN.first : Field := ⟨0x800008, 0, 17, 0, 1, .rw, 0x0⟩
/-- FAB_DOMAIN.count [45:32], RW, Table 16.5. -/
def Reg.FAB_DOMAIN.count : Field := ⟨0x800008, 32, 14, 0, 1, .rw, 0x1⟩
/-- FAB_REGION.first [16:0], RW, Table 16.5. -/
def Reg.FAB_REGION.first : Field := ⟨0x800010, 0, 17, 0, 1, .rw, 0x0⟩
/-- FAB_REGION.count [45:32], RW, Table 16.5. -/
def Reg.FAB_REGION.count : Field := ⟨0x800010, 32, 14, 0, 1, .rw, 0x1⟩
/-- FAB_GWEP.ep [16:0], RW, Table 16.5. -/
def Reg.FAB_GWEP.ep : Field := ⟨0x800018, 0, 17, 0, 1, .rw, 0x0⟩
/-- FAB_GWEP.valid [31], RW, Table 16.5. -/
def Reg.FAB_GWEP.valid : Field := ⟨0x800018, 31, 1, 0, 1, .rw, 0x0⟩
/-- FAB_PORTSTAT[i].state [2:0], RO, Table 16.6. -/
def Reg.FAB_PORTSTAT.state : Field := ⟨0x800100, 0, 3, 4, 16, .ro, 0x0⟩
/-- FAB_PORTSTAT[i].half [3], RO, Table 16.6. -/
def Reg.FAB_PORTSTAT.half : Field := ⟨0x800100, 3, 1, 4, 16, .ro, 0x0⟩
/-- FAB_PORTSTAT[i].lanes_ok [15:8], RO, Table 16.6. -/
def Reg.FAB_PORTSTAT.lanes_ok : Field := ⟨0x800100, 8, 8, 4, 16, .ro, 0x0⟩
/-- FAB_PORTCTL[i].fence [0], RW, Table 16.6. -/
def Reg.FAB_PORTCTL.fence : Field := ⟨0x800180, 0, 1, 4, 16, .rw, 0x0⟩
/-- FAB_PORTCTL[i].retrain [1], WO, Table 16.6. -/
def Reg.FAB_PORTCTL.retrain : Field := ⟨0x800180, 1, 1, 4, 16, .wo, 0x0⟩
/-- FAB_ARCFG.min_planes [4:0], RW, Table 16.7. -/
def Reg.FAB_ARCFG.min_planes : Field := ⟨0x800200, 0, 5, 0, 1, .rw, 0xC⟩
/-- FAB_ARCFG.warm [15:8], RW, Table 16.7. -/
def Reg.FAB_ARCFG.warm : Field := ⟨0x800200, 8, 8, 0, 1, .rw, 0x40⟩
/-- FAB_AREST[i].c_local [7:0], RO, Table 16.7. -/
def Reg.FAB_AREST.c_local : Field := ⟨0x800240, 0, 8, 4, 16, .ro, 0x0⟩
/-- FAB_AREST[i].n_local [15:8], RO, Table 16.7. -/
def Reg.FAB_AREST.n_local : Field := ⟨0x800240, 8, 8, 4, 16, .ro, 0x0⟩
/-- FAB_AREST[i].c_remote [23:16], RO, Table 16.7. -/
def Reg.FAB_AREST.c_remote : Field := ⟨0x800240, 16, 8, 4, 16, .ro, 0x0⟩
/-- FAB_AREST[i].n_remote [31:24], RO, Table 16.7. -/
def Reg.FAB_AREST.n_remote : Field := ⟨0x800240, 24, 8, 4, 16, .ro, 0x0⟩
/-- FAB_GSC.value [63:0], RO, Table 16.8. -/
def Reg.FAB_GSC.value : Field := ⟨0x800300, 0, 64, 0, 1, .ro, 0x0⟩
/-- FAB_GSCCFG.gm [0], RW, Table 16.8. -/
def Reg.FAB_GSCCFG.gm : Field := ⟨0x800308, 0, 1, 0, 1, .rw, 0x0⟩
/-- FAB_GSCSTAT.state [1:0], RO, Table 16.8. -/
def Reg.FAB_GSCSTAT.state : Field := ⟨0x800310, 0, 2, 0, 1, .ro, 0x0⟩
/-- FAB_GSCSTAT.planes [31:16], RO, Table 16.8. -/
def Reg.FAB_GSCSTAT.planes : Field := ⟨0x800310, 16, 16, 0, 1, .ro, 0x0⟩
/-- FAB_GSCSTAT.offset [63:32], RO, Table 16.8. -/
def Reg.FAB_GSCSTAT.offset : Field := ⟨0x800310, 32, 32, 0, 1, .ro, 0x0⟩
/-- FAB_GSCGM.ep [16:0], RO, Table 16.8. -/
def Reg.FAB_GSCGM.ep : Field := ⟨0x800318, 0, 17, 0, 1, .ro, 0x0⟩
/-- FAB_EVT.port_change [0], W1C, Table 16.9. -/
def Reg.FAB_EVT.port_change : Field := ⟨0x800400, 0, 1, 0, 1, .w1c, 0x0⟩
/-- FAB_EVT.degraded [1], W1C, Table 16.9. -/
def Reg.FAB_EVT.degraded : Field := ⟨0x800400, 1, 1, 0, 1, .w1c, 0x0⟩
/-- FAB_EVT.isolated [2], W1C, Table 16.9. -/
def Reg.FAB_EVT.isolated : Field := ⟨0x800400, 2, 1, 0, 1, .w1c, 0x0⟩
/-- FAB_EVT.reject [3], W1C, Table 16.9. -/
def Reg.FAB_EVT.reject : Field := ⟨0x800400, 3, 1, 0, 1, .w1c, 0x0⟩
/-- FAB_EVT.gsc_unlock [4], W1C, Table 16.9. -/
def Reg.FAB_EVT.gsc_unlock : Field := ⟨0x800400, 4, 1, 0, 1, .w1c, 0x0⟩
/-- FAB_EVT.gm_conflict [5], W1C, Table 16.9. -/
def Reg.FAB_EVT.gm_conflict : Field := ⟨0x800400, 5, 1, 0, 1, .w1c, 0x0⟩
/-- FAB_EVTMASK.mask [31:0], RW, Table 16.9. -/
def Reg.FAB_EVTMASK.mask : Field := ⟨0x800404, 0, 32, 0, 1, .rw, 0x3F⟩
/-- FAB_REPLAYCNT[i].count [47:0], RO, Table 16.10. -/
def Reg.FAB_REPLAYCNT.count : Field := ⟨0x801000, 0, 48, 8, 16, .ro, 0x0⟩
/-- FAB_REPLAYCNT[i].sat [48], W1C, Table 16.10. -/
def Reg.FAB_REPLAYCNT.sat : Field := ⟨0x801000, 48, 1, 8, 16, .w1c, 0x0⟩
/-- FAB_RETRAINCNT[i].count [47:0], RO, Table 16.10. -/
def Reg.FAB_RETRAINCNT.count : Field := ⟨0x801080, 0, 48, 8, 16, .ro, 0x0⟩
/-- FAB_RETRAINCNT[i].sat [48], W1C, Table 16.10. -/
def Reg.FAB_RETRAINCNT.sat : Field := ⟨0x801080, 48, 1, 8, 16, .w1c, 0x0⟩
/-- FAB_REROUTECNT.count [47:0], RO, Table 16.10. -/
def Reg.FAB_REROUTECNT.count : Field := ⟨0x801100, 0, 48, 0, 1, .ro, 0x0⟩
/-- FAB_REROUTECNT.sat [48], W1C, Table 16.10. -/
def Reg.FAB_REROUTECNT.sat : Field := ⟨0x801100, 48, 1, 0, 1, .w1c, 0x0⟩
/-- FAB_RTOCFG.attempt_us [15:0], RW, Table 17.10. -/
def Reg.FAB_RTOCFG.attempt_us : Field := ⟨0x802000, 0, 16, 0, 1, .rw, 0x14⟩
/-- FAB_RTOCFG.tries [31:24], RW, Table 17.10. -/
def Reg.FAB_RTOCFG.tries : Field := ⟨0x802000, 24, 8, 0, 1, .rw, 0x4⟩
/-- FAB_ACCTO.accept_us [31:0], RW, Table 17.10. -/
def Reg.FAB_ACCTO.accept_us : Field := ⟨0x802004, 0, 32, 0, 1, .rw, 0x834⟩
/-- FAB_GWTO.gw_us [31:0], RW, Table 17.10. -/
def Reg.FAB_GWTO.gw_us : Field := ⟨0x802008, 0, 32, 0, 1, .rw, 0x1F4⟩
/-- FAB_OPEVT.refused_out [0], W1C, Table 17.14. -/
def Reg.FAB_OPEVT.refused_out : Field := ⟨0x802040, 0, 1, 0, 1, .w1c, 0x0⟩
/-- FAB_OPEVT.refused_in [1], W1C, Table 17.14. -/
def Reg.FAB_OPEVT.refused_in : Field := ⟨0x802040, 1, 1, 0, 1, .w1c, 0x0⟩
/-- FAB_OPEVT.dead [2], W1C, Table 17.14. -/
def Reg.FAB_OPEVT.dead : Field := ⟨0x802040, 2, 1, 0, 1, .w1c, 0x0⟩
/-- FAB_OPEVT.poison_in [3], W1C, Table 17.14. -/
def Reg.FAB_OPEVT.poison_in : Field := ⟨0x802040, 3, 1, 0, 1, .w1c, 0x0⟩
/-- FAB_OPEVT.teardown [4], W1C, Table 17.14. -/
def Reg.FAB_OPEVT.teardown : Field := ⟨0x802040, 4, 1, 0, 1, .w1c, 0x0⟩
/-- FAB_OPEVT.bulk_fail [5], W1C, Table 17.14. -/
def Reg.FAB_OPEVT.bulk_fail : Field := ⟨0x802040, 5, 1, 0, 1, .w1c, 0x0⟩
/-- FAB_OPEVT.red_sat [6], W1C, Table 17.14. -/
def Reg.FAB_OPEVT.red_sat : Field := ⟨0x802040, 6, 1, 0, 1, .w1c, 0x0⟩
/-- FAB_OPEVT.rgn_reject [7], W1C, Table 17.14. -/
def Reg.FAB_OPEVT.rgn_reject : Field := ⟨0x802040, 7, 1, 0, 1, .w1c, 0x0⟩
/-- FAB_OPEVTMASK.mask [31:0], RW, Table 17.14. -/
def Reg.FAB_OPEVTMASK.mask : Field := ⟨0x802044, 0, 32, 0, 1, .rw, 0xFF⟩
/-- FAB_REFOUTCNT.count [47:0], RO, Table 17.15. -/
def Reg.FAB_REFOUTCNT.count : Field := ⟨0x802080, 0, 48, 0, 1, .ro, 0x0⟩
/-- FAB_REFOUTCNT.sat [48], W1C, Table 17.15. -/
def Reg.FAB_REFOUTCNT.sat : Field := ⟨0x802080, 48, 1, 0, 1, .w1c, 0x0⟩
/-- FAB_REFINCNT.count [47:0], RO, Table 17.15. -/
def Reg.FAB_REFINCNT.count : Field := ⟨0x802088, 0, 48, 0, 1, .ro, 0x0⟩
/-- FAB_REFINCNT.sat [48], W1C, Table 17.15. -/
def Reg.FAB_REFINCNT.sat : Field := ⟨0x802088, 48, 1, 0, 1, .w1c, 0x0⟩
/-- FAB_DEADCNT.count [47:0], RO, Table 17.15. -/
def Reg.FAB_DEADCNT.count : Field := ⟨0x802090, 0, 48, 0, 1, .ro, 0x0⟩
/-- FAB_DEADCNT.sat [48], W1C, Table 17.15. -/
def Reg.FAB_DEADCNT.sat : Field := ⟨0x802090, 48, 1, 0, 1, .w1c, 0x0⟩
/-- FAB_DUPCNT.count [47:0], RO, Table 17.15. -/
def Reg.FAB_DUPCNT.count : Field := ⟨0x802098, 0, 48, 0, 1, .ro, 0x0⟩
/-- FAB_DUPCNT.sat [48], W1C, Table 17.15. -/
def Reg.FAB_DUPCNT.sat : Field := ⟨0x802098, 48, 1, 0, 1, .w1c, 0x0⟩
/-- FAB_RETRYCNT.count [47:0], RO, Table 17.15. -/
def Reg.FAB_RETRYCNT.count : Field := ⟨0x8020A0, 0, 48, 0, 1, .ro, 0x0⟩
/-- FAB_RETRYCNT.sat [48], W1C, Table 17.15. -/
def Reg.FAB_RETRYCNT.sat : Field := ⟨0x8020A0, 48, 1, 0, 1, .w1c, 0x0⟩
/-- FAB_REDSATCNT.count [47:0], RO, Table 17.15. -/
def Reg.FAB_REDSATCNT.count : Field := ⟨0x8020A8, 0, 48, 0, 1, .ro, 0x0⟩
/-- FAB_REDSATCNT.sat [48], W1C, Table 17.15. -/
def Reg.FAB_REDSATCNT.sat : Field := ⟨0x8020A8, 48, 1, 0, 1, .w1c, 0x0⟩
/-- FAB_BQCFG.log2n [3:0], RW, Table 17.13. -/
def Reg.FAB_BQCFG.log2n : Field := ⟨0x802100, 0, 4, 0, 1, .rw, 0x6⟩
/-- FAB_BQCFG.en [31], RW, Table 17.13. -/
def Reg.FAB_BQCFG.en : Field := ⟨0x802100, 31, 1, 0, 1, .rw, 0x0⟩
/-- FAB_BQBASE.base [47:0], RW, Table 17.13. -/
def Reg.FAB_BQBASE.base : Field := ⟨0x802108, 0, 48, 0, 1, .rw, 0x0⟩
/-- FAB_BCBASE.base [47:0], RW, Table 17.13. -/
def Reg.FAB_BCBASE.base : Field := ⟨0x802110, 0, 48, 0, 1, .rw, 0x0⟩
/-- FAB_BQTAIL.index [11:0], RW, Table 17.13. -/
def Reg.FAB_BQTAIL.index : Field := ⟨0x802118, 0, 12, 0, 1, .rw, 0x0⟩
/-- FAB_BQTAIL.phase [12], RW, Table 17.13. -/
def Reg.FAB_BQTAIL.phase : Field := ⟨0x802118, 12, 1, 0, 1, .rw, 0x0⟩
/-- FAB_BQHEAD.index [11:0], RO, Table 17.13. -/
def Reg.FAB_BQHEAD.index : Field := ⟨0x80211C, 0, 12, 0, 1, .ro, 0x0⟩
/-- FAB_BQHEAD.phase [12], RO, Table 17.13. -/
def Reg.FAB_BQHEAD.phase : Field := ⟨0x80211C, 12, 1, 0, 1, .ro, 0x0⟩
/-- FAB_BCTAIL.index [11:0], RO, Table 17.13. -/
def Reg.FAB_BCTAIL.index : Field := ⟨0x802120, 0, 12, 0, 1, .ro, 0x0⟩
/-- FAB_BCTAIL.phase [12], RO, Table 17.13. -/
def Reg.FAB_BCTAIL.phase : Field := ⟨0x802120, 12, 1, 0, 1, .ro, 0x0⟩
/-- FAB_BCHEAD.index [11:0], RW, Table 17.13. -/
def Reg.FAB_BCHEAD.index : Field := ⟨0x802124, 0, 12, 0, 1, .rw, 0x0⟩
/-- FAB_BCHEAD.phase [12], RW, Table 17.13. -/
def Reg.FAB_BCHEAD.phase : Field := ⟨0x802124, 12, 1, 0, 1, .rw, 0x0⟩
/-- FAB_TDSTAT.job [15:0], RO, Table 17.10. -/
def Reg.FAB_TDSTAT.job : Field := ⟨0x802200, 0, 16, 0, 1, .ro, 0xFFFF⟩
/-- FAB_TDSTAT.reason [23:16], RO, Table 17.10. -/
def Reg.FAB_TDSTAT.reason : Field := ⟨0x802200, 16, 8, 0, 1, .ro, 0x0⟩
/-- FAB_TDSTAT.state [31:30], RO, Table 17.10. -/
def Reg.FAB_TDSTAT.state : Field := ⟨0x802200, 30, 2, 0, 1, .ro, 0x0⟩
/-- FAB_LULLCFG.arb_ep [16:0], RW, Table 21.6. -/
def Reg.FAB_LULLCFG.arb_ep : Field := ⟨0x802300, 0, 17, 0, 1, .rw, 0x0⟩
/-- FAB_LULLCFG.arb_valid [31], RW, Table 21.6. -/
def Reg.FAB_LULLCFG.arb_valid : Field := ⟨0x802300, 31, 1, 0, 1, .rw, 0x0⟩
/-- FAB_LULLCFG.fm_ep [48:32], RW, Table 21.6. -/
def Reg.FAB_LULLCFG.fm_ep : Field := ⟨0x802300, 32, 17, 0, 1, .rw, 0x0⟩
/-- FAB_LULLCFG.fm_valid [63], RW, Table 21.6. -/
def Reg.FAB_LULLCFG.fm_valid : Field := ⟨0x802300, 63, 1, 0, 1, .rw, 0x0⟩
/-- FAB_LULLWIN.window_ms [15:0], RW, Table 21.7. -/
def Reg.FAB_LULLWIN.window_ms : Field := ⟨0x802308, 0, 16, 0, 1, .rw, 0xA⟩
/-- FAB_LULLWIN.grp [31:16], RW, Table 21.7. -/
def Reg.FAB_LULLWIN.grp : Field := ⟨0x802308, 16, 16, 0, 1, .rw, 0x0⟩
/-- FAB_LULLSUPCNT.count [47:0], RO, Table 21.8. -/
def Reg.FAB_LULLSUPCNT.count : Field := ⟨0x802380, 0, 48, 0, 1, .ro, 0x0⟩
/-- FAB_LULLSUPCNT.sat [48], W1C, Table 21.8. -/
def Reg.FAB_LULLSUPCNT.sat : Field := ⟨0x802380, 48, 1, 0, 1, .w1c, 0x0⟩
/-- FAB_LULLOVFCNT.count [47:0], RO, Table 21.8. -/
def Reg.FAB_LULLOVFCNT.count : Field := ⟨0x802388, 0, 48, 0, 1, .ro, 0x0⟩
/-- FAB_LULLOVFCNT.sat [48], W1C, Table 21.8. -/
def Reg.FAB_LULLOVFCNT.sat : Field := ⟨0x802388, 48, 1, 0, 1, .w1c, 0x0⟩
/-- FAB_LULLLATECNT.count [47:0], RO, Table 21.8. -/
def Reg.FAB_LULLLATECNT.count : Field := ⟨0x802390, 0, 48, 0, 1, .ro, 0x0⟩
/-- FAB_LULLLATECNT.sat [48], W1C, Table 21.8. -/
def Reg.FAB_LULLLATECNT.sat : Field := ⟨0x802390, 48, 1, 0, 1, .w1c, 0x0⟩
/-- FAB_RGN[i].base [47:12], RW, Table 17.11. -/
def Reg.FAB_RGN.base : Field := ⟨0x804000, 12, 36, 32, 256, .rw, 0x0⟩
/-- FAB_RGN[i].length [63:0], RW, Table 17.11. -/
def Reg.FAB_RGN.length : Field := ⟨0x804008, 0, 64, 32, 256, .rw, 0x0⟩
/-- FAB_RGN[i].key [31:0], RW, Table 17.11. -/
def Reg.FAB_RGN.key : Field := ⟨0x804010, 0, 32, 32, 256, .rw, 0x0⟩
/-- FAB_RGN[i].job [15:0], RW, Table 17.11. -/
def Reg.FAB_RGN.job : Field := ⟨0x804014, 0, 16, 32, 256, .rw, 0xFFFF⟩
/-- FAB_RGN[i].kind [17:16], RW, Table 17.11. -/
def Reg.FAB_RGN.kind : Field := ⟨0x804014, 16, 2, 32, 256, .rw, 0x0⟩
/-- FAB_RGN[i].rights [27:24], RW, Table 17.11. -/
def Reg.FAB_RGN.rights : Field := ⟨0x804014, 24, 4, 32, 256, .rw, 0x0⟩
/-- FAB_RGN[i].en [31], RW, Table 17.11. -/
def Reg.FAB_RGN.en : Field := ⟨0x804014, 31, 1, 32, 256, .rw, 0x0⟩
/-- FAB_RGN[i].src_first [16:0], RW, Table 17.11. -/
def Reg.FAB_RGN.src_first : Field := ⟨0x804018, 0, 17, 32, 256, .rw, 0x0⟩
/-- FAB_RGN[i].src_count [30:17], RW, Table 17.11. -/
def Reg.FAB_RGN.src_count : Field := ⟨0x804018, 17, 14, 32, 256, .rw, 0x0⟩
/-- FAB_RGN[i].core [7:0], RW, Table 17.11. -/
def Reg.FAB_RGN.core : Field := ⟨0x80401C, 0, 8, 32, 256, .rw, 0x0⟩
/-- FAB_RGN[i].depth [15:8], RW, Table 17.11. -/
def Reg.FAB_RGN.depth : Field := ⟨0x80401C, 8, 8, 32, 256, .rw, 0x0⟩
/-- FAB_MCRED[i].key [31:0], RW, Table 17.12. -/
def Reg.FAB_MCRED.key : Field := ⟨0x810000, 0, 32, 16, 2048, .rw, 0x0⟩
/-- FAB_MCRED[i].ep [16:0], RW, Table 17.12. -/
def Reg.FAB_MCRED.ep : Field := ⟨0x810004, 0, 17, 16, 2048, .rw, 0x0⟩
/-- FAB_MCRED[i].credits [31:24], RW, Table 17.12. -/
def Reg.FAB_MCRED.credits : Field := ⟨0x810004, 24, 8, 16, 2048, .rw, 0x0⟩
/-- FAB_MCRED[i].job [15:0], RW, Table 17.12. -/
def Reg.FAB_MCRED.job : Field := ⟨0x810008, 0, 16, 16, 2048, .rw, 0xFFFF⟩
/-- FAB_GRP[i].count [39:32], RW, Table 16.11. -/
def Reg.FAB_GRP.count : Field := ⟨0x880000, 32, 8, 8, 65536, .rw, 0x1⟩
/-- FAB_GRP[i].member [62], RW, Table 16.11. -/
def Reg.FAB_GRP.member : Field := ⟨0x880000, 62, 1, 8, 65536, .rw, 0x0⟩
/-- FAB_GRP[i].valid [63], RW, Table 16.11. -/
def Reg.FAB_GRP.valid : Field := ⟨0x880000, 63, 1, 8, 65536, .rw, 0x0⟩
/-- XE_XCFG[i].job [15:0], RW, Table 14.4. -/
def Reg.XE_XCFG.job : Field := ⟨0xC00000, 0, 16, 64, 16, .rw, 0xFFFF⟩
/-- XE_XCFG[i].en [31], RW, Table 14.4. -/
def Reg.XE_XCFG.en : Field := ⟨0xC00000, 31, 1, 64, 16, .rw, 0x0⟩
/-- XE_XCFG[i].epoch [7:0], RO, Table 14.4. -/
def Reg.XE_XCFG.epoch : Field := ⟨0xC00004, 0, 8, 64, 16, .ro, 0x0⟩
/-- XE_XCFG[i].grp [31:16], RW, Table 14.4. -/
def Reg.XE_XCFG.grp : Field := ⟨0xC00004, 16, 16, 64, 16, .rw, 0x0⟩
/-- XE_XCFG[i].nsrc [8:0], RW, Table 14.4. -/
def Reg.XE_XCFG.nsrc : Field := ⟨0xC00008, 0, 9, 64, 16, .rw, 0x1⟩
/-- XE_XCFG[i].experts [24:16], RW, Table 14.4. -/
def Reg.XE_XCFG.experts : Field := ⟨0xC00008, 16, 9, 64, 16, .rw, 0x2⟩
/-- XE_XCFG[i].cap_src [8:0], RW, Table 14.4. -/
def Reg.XE_XCFG.cap_src : Field := ⟨0xC0000C, 0, 9, 64, 16, .rw, 0x8⟩
/-- XE_XCFG[i].k [18:16], RW, Table 14.4. -/
def Reg.XE_XCFG.k : Field := ⟨0xC0000C, 16, 3, 64, 16, .rw, 0x2⟩
/-- XE_XCFG[i].send_row [15:0], RW, Table 14.4. -/
def Reg.XE_XCFG.send_row : Field := ⟨0xC00010, 0, 16, 64, 16, .rw, 0x1⟩
/-- XE_XCFG[i].ret_row [31:16], RW, Table 14.4. -/
def Reg.XE_XCFG.ret_row : Field := ⟨0xC00010, 16, 16, 64, 16, .rw, 0x1⟩
/-- XE_XCFG[i].nbuf [1:0], RW, Table 14.4. -/
def Reg.XE_XCFG.nbuf : Field := ⟨0xC00014, 0, 2, 64, 16, .rw, 0x1⟩
/-- XE_XCFG[i].seed [63:0], RW, Table 14.4. -/
def Reg.XE_XCFG.seed : Field := ⟨0xC00018, 0, 64, 64, 16, .rw, 0x0⟩
/-- XE_XCFG[i].to_us [31:0], RW, Table 14.4. -/
def Reg.XE_XCFG.to_us : Field := ⟨0xC00020, 0, 32, 64, 16, .rw, 0x7D0⟩
/-- XE_XCFG[i].done_phase [31:0], RO, Table 14.4. -/
def Reg.XE_XCFG.done_phase : Field := ⟨0xC00024, 0, 32, 64, 16, .ro, 0xFFFFFFFF⟩
/-- XE_ROUTE[i].ep [16:0], RW, Table 14.5. -/
def Reg.XE_ROUTE.ep : Field := ⟨0xC10000, 0, 17, 4, 4096, .rw, 0x0⟩
/-- XE_ROUTE[i].lexp [20:17], RW, Table 14.5. -/
def Reg.XE_ROUTE.lexp : Field := ⟨0xC10000, 17, 4, 4, 4096, .rw, 0x0⟩
/-- XE_LEXP[i].base [47:16], RW, Table 14.5. -/
def Reg.XE_LEXP.base : Field := ⟨0xC20000, 16, 32, 16, 256, .rw, 0x0⟩
/-- XE_LEXP[i].en [0], RW, Table 14.5. -/
def Reg.XE_LEXP.en : Field := ⟨0xC20008, 0, 1, 16, 256, .rw, 0x0⟩
/-- XE_EVT.refused [0], W1C, Table 14.6. -/
def Reg.XE_EVT.refused : Field := ⟨0xC30000, 0, 1, 0, 1, .w1c, 0x0⟩
/-- XE_EVT.overflow [1], W1C, Table 14.6. -/
def Reg.XE_EVT.overflow : Field := ⟨0xC30000, 1, 1, 0, 1, .w1c, 0x0⟩
/-- XE_EVT.unret [2], W1C, Table 14.6. -/
def Reg.XE_EVT.unret : Field := ⟨0xC30000, 2, 1, 0, 1, .w1c, 0x0⟩
/-- XE_EVT.stale [3], W1C, Table 14.6. -/
def Reg.XE_EVT.stale : Field := ⟨0xC30000, 3, 1, 0, 1, .w1c, 0x0⟩
/-- XE_EVTMASK.mask [31:0], RW, Table 14.6. -/
def Reg.XE_EVTMASK.mask : Field := ⟨0xC30004, 0, 32, 0, 1, .rw, 0xF⟩
/-- XE_OVFCNT.count [47:0], RO, Table 14.7. -/
def Reg.XE_OVFCNT.count : Field := ⟨0xC30080, 0, 48, 0, 1, .ro, 0x0⟩
/-- XE_OVFCNT.sat [48], W1C, Table 14.7. -/
def Reg.XE_OVFCNT.sat : Field := ⟨0xC30080, 48, 1, 0, 1, .w1c, 0x0⟩
/-- XE_UNRETCNT.count [47:0], RO, Table 14.7. -/
def Reg.XE_UNRETCNT.count : Field := ⟨0xC30088, 0, 48, 0, 1, .ro, 0x0⟩
/-- XE_UNRETCNT.sat [48], W1C, Table 14.7. -/
def Reg.XE_UNRETCNT.sat : Field := ⟨0xC30088, 48, 1, 0, 1, .w1c, 0x0⟩
/-- XE_STALECNT.count [47:0], RO, Table 14.7. -/
def Reg.XE_STALECNT.count : Field := ⟨0xC30090, 0, 48, 0, 1, .ro, 0x0⟩
/-- XE_STALECNT.sat [48], W1C, Table 14.7. -/
def Reg.XE_STALECNT.sat : Field := ⟨0xC30090, 48, 1, 0, 1, .w1c, 0x0⟩
/-- XE_EMPTYCNT.count [47:0], RO, Table 14.7. -/
def Reg.XE_EMPTYCNT.count : Field := ⟨0xC30098, 0, 48, 0, 1, .ro, 0x0⟩
/-- XE_EMPTYCNT.sat [48], W1C, Table 14.7. -/
def Reg.XE_EMPTYCNT.sat : Field := ⟨0xC30098, 48, 1, 0, 1, .w1c, 0x0⟩
/-- MEM_T1ZONE.local [7:0], RWL, Table 10.3. -/
def Reg.MEM_T1ZONE.local_ : Field := ⟨0x1000000, 0, 8, 0, 1, .rwl, 0x0⟩
/-- MEM_LOCK.lock [0], RW, Table 10.3. -/
def Reg.MEM_LOCK.lock : Field := ⟨0x1000004, 0, 1, 0, 1, .rw, 0x0⟩
/-- MEM_SCCFG.dirty_hi [3:0], RW, Table 10.3. -/
def Reg.MEM_SCCFG.dirty_hi : Field := ⟨0x1000008, 0, 4, 0, 1, .rw, 0xC⟩
/-- MEM_FLUSH.start [0], WO, Table 10.3. -/
def Reg.MEM_FLUSH.start : Field := ⟨0x100000C, 0, 1, 0, 1, .wo, 0x0⟩
/-- MEM_FLUSH.busy [31], RO, Table 10.3. -/
def Reg.MEM_FLUSH.busy : Field := ⟨0x100000C, 31, 1, 0, 1, .ro, 0x0⟩
/-- MEM_BAR4BASE.base [39:21], RW, Table 10.4. -/
def Reg.MEM_BAR4BASE.base : Field := ⟨0x1000010, 21, 19, 0, 1, .rw, 0x0⟩
/-- MEM_T3BASE.en [0], RW, Table 10.4. -/
def Reg.MEM_T3BASE.en : Field := ⟨0x1000018, 0, 1, 0, 1, .rw, 0x0⟩
/-- MEM_T3BASE.base [63:12], RW, Table 10.4. -/
def Reg.MEM_T3BASE.base : Field := ⟨0x1000018, 12, 52, 0, 1, .rw, 0x0⟩
/-- MEM_NOALLOC[i].gib [31:0], RW, Table 10.3. -/
def Reg.MEM_NOALLOC.gib : Field := ⟨0x1000040, 0, 32, 4, 18, .rw, 0x0⟩
/-- MEM_STALLTO[i].timeout_us [31:0], RW, Table 10.5. -/
def Reg.MEM_STALLTO.timeout_us : Field := ⟨0x1000200, 0, 32, 4, 3, .rw, 0x7D0⟩
/-- MEM_LATE[i].late_ns [31:0], RO, Table 10.5. -/
def Reg.MEM_LATE.late_ns : Field := ⟨0x1000210, 0, 32, 4, 3, .ro, 0xFA0⟩
/-- MEM_EVT.late [0], W1C, Table 10.7. -/
def Reg.MEM_EVT.late : Field := ⟨0x1000400, 0, 1, 0, 1, .w1c, 0x0⟩
/-- MEM_EVT.timeout [1], W1C, Table 10.7. -/
def Reg.MEM_EVT.timeout : Field := ⟨0x1000400, 1, 1, 0, 1, .w1c, 0x0⟩
/-- MEM_EVT.uc [2], W1C, Table 10.7. -/
def Reg.MEM_EVT.uc : Field := ⟨0x1000400, 2, 1, 0, 1, .w1c, 0x0⟩
/-- MEM_EVT.t2_recall [3], W1C, Table 10.7. -/
def Reg.MEM_EVT.t2_recall : Field := ⟨0x1000400, 3, 1, 0, 1, .w1c, 0x0⟩
/-- MEM_EVT.t2_fail [4], W1C, Table 10.7. -/
def Reg.MEM_EVT.t2_fail : Field := ⟨0x1000400, 4, 1, 0, 1, .w1c, 0x0⟩
/-- MEM_EVT.t3_fail [5], W1C, Table 10.7. -/
def Reg.MEM_EVT.t3_fail : Field := ⟨0x1000400, 5, 1, 0, 1, .w1c, 0x0⟩
/-- MEM_EVT.reject [6], W1C, Table 10.7. -/
def Reg.MEM_EVT.reject : Field := ⟨0x1000400, 6, 1, 0, 1, .w1c, 0x0⟩
/-- MEM_EVTMASK.mask [31:0], RW, Table 10.7. -/
def Reg.MEM_EVTMASK.mask : Field := ⟨0x1000404, 0, 32, 0, 1, .rw, 0x7F⟩
/-- MEM_UCADDR.addr [35:0], RO, Table 10.7. -/
def Reg.MEM_UCADDR.addr : Field := ⟨0x1000408, 0, 36, 0, 1, .ro, 0x0⟩
/-- MEM_UCADDR.stack [51:48], RO, Table 10.7. -/
def Reg.MEM_UCADDR.stack : Field := ⟨0x1000408, 48, 4, 0, 1, .ro, 0x0⟩
/-- MEM_STALLNS[i].count [47:0], RO, Table 10.6. -/
def Reg.MEM_STALLNS.count : Field := ⟨0x1001000, 0, 48, 8, 9, .ro, 0x0⟩
/-- MEM_STALLNS[i].sat [48], W1C, Table 10.6. -/
def Reg.MEM_STALLNS.sat : Field := ⟨0x1001000, 48, 1, 8, 9, .w1c, 0x0⟩
/-- MEM_LATECNT[i].count [47:0], RO, Table 10.6. -/
def Reg.MEM_LATECNT.count : Field := ⟨0x1001080, 0, 48, 8, 3, .ro, 0x0⟩
/-- MEM_LATECNT[i].sat [48], W1C, Table 10.6. -/
def Reg.MEM_LATECNT.sat : Field := ⟨0x1001080, 48, 1, 8, 3, .w1c, 0x0⟩
/-- MEM_TOCNT[i].count [47:0], RO, Table 10.6. -/
def Reg.MEM_TOCNT.count : Field := ⟨0x10010A0, 0, 48, 8, 3, .ro, 0x0⟩
/-- MEM_TOCNT[i].sat [48], W1C, Table 10.6. -/
def Reg.MEM_TOCNT.sat : Field := ⟨0x10010A0, 48, 1, 8, 3, .w1c, 0x0⟩
/-- MEM_T2MAP[i].base [47:16], RW, Table 10.8. -/
def Reg.MEM_T2MAP.base : Field := ⟨0x1002000, 16, 32, 64, 16, .rw, 0x0⟩
/-- MEM_T2MAP[i].length [63:0], RW, Table 10.8. -/
def Reg.MEM_T2MAP.length : Field := ⟨0x1002008, 0, 64, 64, 16, .rw, 0x0⟩
/-- MEM_T2MAP[i].roff [63:0], RW, Table 10.8. -/
def Reg.MEM_T2MAP.roff : Field := ⟨0x1002010, 0, 64, 64, 16, .rw, 0x0⟩
/-- MEM_T2MAP[i].lease_end [63:0], RW, Table 10.8. -/
def Reg.MEM_T2MAP.lease_end : Field := ⟨0x1002018, 0, 64, 64, 16, .rw, 0x0⟩
/-- MEM_T2MAP[i].key [31:0], RW, Table 10.8. -/
def Reg.MEM_T2MAP.key : Field := ⟨0x1002020, 0, 32, 64, 16, .rw, 0x0⟩
/-- MEM_T2MAP[i].ep [16:0], RW, Table 10.8. -/
def Reg.MEM_T2MAP.ep : Field := ⟨0x1002024, 0, 17, 64, 16, .rw, 0x0⟩
/-- MEM_T2MAP[i].state [31:30], RW, Table 10.8. -/
def Reg.MEM_T2MAP.state : Field := ⟨0x1002024, 30, 2, 64, 16, .rw, 0x0⟩
/-- MEM_T2MAP[i].recall_end [63:0], RO, Table 10.8. -/
def Reg.MEM_T2MAP.recall_end : Field := ⟨0x1002028, 0, 64, 64, 16, .ro, 0x0⟩
/-- MEM_LEND[i].base [47:16], RW, Table 10.9. -/
def Reg.MEM_LEND.base : Field := ⟨0x1003000, 16, 32, 64, 16, .rw, 0x0⟩
/-- MEM_LEND[i].length [63:0], RW, Table 10.9. -/
def Reg.MEM_LEND.length : Field := ⟨0x1003008, 0, 64, 64, 16, .rw, 0x0⟩
/-- MEM_LEND[i].lease_end [63:0], RW, Table 10.9. -/
def Reg.MEM_LEND.lease_end : Field := ⟨0x1003010, 0, 64, 64, 16, .rw, 0x0⟩
/-- MEM_LEND[i].key [31:0], RW, Table 10.9. -/
def Reg.MEM_LEND.key : Field := ⟨0x1003018, 0, 32, 64, 16, .rw, 0x0⟩
/-- MEM_LEND[i].ep [16:0], RW, Table 10.9. -/
def Reg.MEM_LEND.ep : Field := ⟨0x100301C, 0, 17, 64, 16, .rw, 0x0⟩
/-- MEM_LEND[i].state [31:30], RO, Table 10.9. -/
def Reg.MEM_LEND.state : Field := ⟨0x100301C, 30, 2, 64, 16, .ro, 0x0⟩
/-- MEM_LEND[i].grace_ms [15:0], RW, Table 10.9. -/
def Reg.MEM_LEND.grace_ms : Field := ⟨0x1003020, 0, 16, 64, 16, .rw, 0x64⟩
/-- MEM_LEND[i].recall [0], WO, Table 10.9. -/
def Reg.MEM_LEND.recall : Field := ⟨0x1003024, 0, 1, 64, 16, .wo, 0x0⟩
/-- MEM_LEND[i].lend [1], WO, Table 10.9. -/
def Reg.MEM_LEND.lend : Field := ⟨0x1003024, 1, 1, 64, 16, .wo, 0x0⟩
/-- NVS_STATUS.ready [0], RO, Table 11.6. -/
def Reg.NVS_STATUS.ready : Field := ⟨0x1400000, 0, 1, 0, 1, .ro, 0x0⟩
/-- NVS_STATUS.ro [1], RO, Table 11.6. -/
def Reg.NVS_STATUS.ro : Field := ⟨0x1400000, 1, 1, 0, 1, .ro, 0x0⟩
/-- NVS_STATUS.apron [2], RO, Table 11.6. -/
def Reg.NVS_STATUS.apron : Field := ⟨0x1400000, 2, 1, 0, 1, .ro, 0x0⟩
/-- NVS_STATUS.inhibit [3], RO, Table 11.6. -/
def Reg.NVS_STATUS.inhibit : Field := ⟨0x1400000, 3, 1, 0, 1, .ro, 0x0⟩
/-- NVS_STATUS.worn [4], RO, Table 11.6. -/
def Reg.NVS_STATUS.worn : Field := ⟨0x1400000, 4, 1, 0, 1, .ro, 0x0⟩
/-- NVS_LOCK.lock [0], RW, Table 11.6. -/
def Reg.NVS_LOCK.lock : Field := ⟨0x1400004, 0, 1, 0, 1, .rw, 0x0⟩
/-- NVS_RINGCFG.log2n [3:0], RW, Table 11.6. -/
def Reg.NVS_RINGCFG.log2n : Field := ⟨0x1400008, 0, 4, 0, 1, .rw, 0x8⟩
/-- NVS_RINGCFG.en [31], RW, Table 11.6. -/
def Reg.NVS_RINGCFG.en : Field := ⟨0x1400008, 31, 1, 0, 1, .rw, 0x0⟩
/-- NVS_CMDBASE.base [47:0], RW, Table 11.6. -/
def Reg.NVS_CMDBASE.base : Field := ⟨0x1400010, 0, 48, 0, 1, .rw, 0x0⟩
/-- NVS_CPLBASE.base [47:0], RW, Table 11.6. -/
def Reg.NVS_CPLBASE.base : Field := ⟨0x1400018, 0, 48, 0, 1, .rw, 0x0⟩
/-- NVS_CMDTAIL.index [11:0], RW, Table 11.6. -/
def Reg.NVS_CMDTAIL.index : Field := ⟨0x1400020, 0, 12, 0, 1, .rw, 0x0⟩
/-- NVS_CMDTAIL.phase [12], RW, Table 11.6. -/
def Reg.NVS_CMDTAIL.phase : Field := ⟨0x1400020, 12, 1, 0, 1, .rw, 0x0⟩
/-- NVS_CMDHEAD.index [11:0], RO, Table 11.6. -/
def Reg.NVS_CMDHEAD.index : Field := ⟨0x1400024, 0, 12, 0, 1, .ro, 0x0⟩
/-- NVS_CMDHEAD.phase [12], RO, Table 11.6. -/
def Reg.NVS_CMDHEAD.phase : Field := ⟨0x1400024, 12, 1, 0, 1, .ro, 0x0⟩
/-- NVS_CPLTAIL.index [11:0], RO, Table 11.6. -/
def Reg.NVS_CPLTAIL.index : Field := ⟨0x1400028, 0, 12, 0, 1, .ro, 0x0⟩
/-- NVS_CPLTAIL.phase [12], RO, Table 11.6. -/
def Reg.NVS_CPLTAIL.phase : Field := ⟨0x1400028, 12, 1, 0, 1, .ro, 0x0⟩
/-- NVS_CPLHEAD.index [11:0], RW, Table 11.6. -/
def Reg.NVS_CPLHEAD.index : Field := ⟨0x140002C, 0, 12, 0, 1, .rw, 0x0⟩
/-- NVS_CPLHEAD.phase [12], RW, Table 11.6. -/
def Reg.NVS_CPLHEAD.phase : Field := ⟨0x140002C, 12, 1, 0, 1, .rw, 0x0⟩
/-- NVS_DIGCFG.period_h [15:0], RW, Table 11.9. -/
def Reg.NVS_DIGCFG.period_h : Field := ⟨0x1400040, 0, 16, 0, 1, .rw, 0x18⟩
/-- NVS_DIGCFG.share [23:16], RW, Table 11.9. -/
def Reg.NVS_DIGCFG.share : Field := ⟨0x1400040, 16, 8, 0, 1, .rw, 0xA⟩
/-- NVS_SCRUBCFG.period_d [7:0], RW, Table 11.9. -/
def Reg.NVS_SCRUBCFG.period_d : Field := ⟨0x1400044, 0, 8, 0, 1, .rw, 0x7⟩
/-- NVS_EVT.cmd_fail [0], W1C, Table 11.9. -/
def Reg.NVS_EVT.cmd_fail : Field := ⟨0x1400048, 0, 1, 0, 1, .w1c, 0x0⟩
/-- NVS_EVT.digest [1], W1C, Table 11.9. -/
def Reg.NVS_EVT.digest : Field := ⟨0x1400048, 1, 1, 0, 1, .w1c, 0x0⟩
/-- NVS_EVT.uc [2], W1C, Table 11.9. -/
def Reg.NVS_EVT.uc : Field := ⟨0x1400048, 2, 1, 0, 1, .w1c, 0x0⟩
/-- NVS_EVT.inhibit [3], W1C, Table 11.9. -/
def Reg.NVS_EVT.inhibit : Field := ⟨0x1400048, 3, 1, 0, 1, .w1c, 0x0⟩
/-- NVS_EVT.wear_warn [4], W1C, Table 11.9. -/
def Reg.NVS_EVT.wear_warn : Field := ⟨0x1400048, 4, 1, 0, 1, .w1c, 0x0⟩
/-- NVS_EVT.worn [5], W1C, Table 11.9. -/
def Reg.NVS_EVT.worn : Field := ⟨0x1400048, 5, 1, 0, 1, .w1c, 0x0⟩
/-- NVS_EVT.reject [6], W1C, Table 11.9. -/
def Reg.NVS_EVT.reject : Field := ⟨0x1400048, 6, 1, 0, 1, .w1c, 0x0⟩
/-- NVS_EVTMASK.mask [31:0], RW, Table 11.9. -/
def Reg.NVS_EVTMASK.mask : Field := ⟨0x140004C, 0, 32, 0, 1, .rw, 0x7F⟩
/-- NVS_WEAR.avg_erase [15:0], RO, Table 11.9. -/
def Reg.NVS_WEAR.avg_erase : Field := ⟨0x1400050, 0, 16, 0, 1, .ro, 0x0⟩
/-- NVS_WEAR.max_erase [31:16], RO, Table 11.9. -/
def Reg.NVS_WEAR.max_erase : Field := ⟨0x1400050, 16, 16, 0, 1, .ro, 0x0⟩
/-- NVS_WEAR.spare [47:32], RO, Table 11.9. -/
def Reg.NVS_WEAR.spare : Field := ⟨0x1400050, 32, 16, 0, 1, .ro, 0x0⟩
/-- NVS_ECCCNT.count [47:0], RO, Table 11.10. -/
def Reg.NVS_ECCCNT.count : Field := ⟨0x1400080, 0, 48, 0, 1, .ro, 0x0⟩
/-- NVS_ECCCNT.sat [48], W1C, Table 11.10. -/
def Reg.NVS_ECCCNT.sat : Field := ⟨0x1400080, 48, 1, 0, 1, .w1c, 0x0⟩
/-- NVS_UCCNT.count [47:0], RO, Table 11.10. -/
def Reg.NVS_UCCNT.count : Field := ⟨0x1400088, 0, 48, 0, 1, .ro, 0x0⟩
/-- NVS_UCCNT.sat [48], W1C, Table 11.10. -/
def Reg.NVS_UCCNT.sat : Field := ⟨0x1400088, 48, 1, 0, 1, .w1c, 0x0⟩
/-- NVS_RELOCCNT.count [47:0], RO, Table 11.10. -/
def Reg.NVS_RELOCCNT.count : Field := ⟨0x1400090, 0, 48, 0, 1, .ro, 0x0⟩
/-- NVS_RELOCCNT.sat [48], W1C, Table 11.10. -/
def Reg.NVS_RELOCCNT.sat : Field := ⟨0x1400090, 48, 1, 0, 1, .w1c, 0x0⟩
/-- NVS_DIGFAILCNT.count [47:0], RO, Table 11.10. -/
def Reg.NVS_DIGFAILCNT.count : Field := ⟨0x1400098, 0, 48, 0, 1, .ro, 0x0⟩
/-- NVS_DIGFAILCNT.sat [48], W1C, Table 11.10. -/
def Reg.NVS_DIGFAILCNT.sat : Field := ⟨0x1400098, 48, 1, 0, 1, .w1c, 0x0⟩
/-- NVS_RETIRECNT.count [47:0], RO, Table 11.10. -/
def Reg.NVS_RETIRECNT.count : Field := ⟨0x14000A0, 0, 48, 0, 1, .ro, 0x0⟩
/-- NVS_RETIRECNT.sat [48], W1C, Table 11.10. -/
def Reg.NVS_RETIRECNT.sat : Field := ⟨0x14000A0, 48, 1, 0, 1, .w1c, 0x0⟩
/-- NVS_GEN[i].base [47:0], RW, Table 11.7. -/
def Reg.NVS_GEN.base : Field := ⟨0x1400100, 0, 48, 32, 2, .rw, 0x0⟩
/-- NVS_GEN[i].length [63:0], RW, Table 11.7. -/
def Reg.NVS_GEN.length : Field := ⟨0x1400108, 0, 64, 32, 2, .rw, 0x0⟩
/-- NVS_GEN[i].gen [31:0], RW, Table 11.7. -/
def Reg.NVS_GEN.gen : Field := ⟨0x1400110, 0, 32, 32, 2, .rw, 0x0⟩
/-- NVS_GEN[i].state [1:0], RW, Table 11.7. -/
def Reg.NVS_GEN.state : Field := ⟨0x1400114, 0, 2, 32, 2, .rw, 0x0⟩
/-- NVS_GEN[i].kv_keep [2], RW, Table 11.7. -/
def Reg.NVS_GEN.kv_keep : Field := ⟨0x1400114, 2, 1, 32, 2, .rw, 0x0⟩
/-- NVS_GEN[i].load_fail [3], RO, Table 11.7. -/
def Reg.NVS_GEN.load_fail : Field := ⟨0x1400114, 3, 1, 32, 2, .ro, 0x0⟩
/-- NVS_GEN[i].refs [31:0], RO, Table 11.7. -/
def Reg.NVS_GEN.refs : Field := ⟨0x1400118, 0, 32, 32, 2, .ro, 0x0⟩
/-- NVS_GENACT.active [0], RW, Table 11.7. -/
def Reg.NVS_GENACT.active : Field := ⟨0x1400140, 0, 1, 0, 1, .rw, 0x0⟩
/-- NVS_PATCHCFG.base [47:0], RWL, Table 11.8. -/
def Reg.NVS_PATCHCFG.base : Field := ⟨0x1400200, 0, 48, 0, 1, .rwl, 0x0⟩
/-- NVS_PATCHCFG.slots [8:0], RWL, Table 11.8. -/
def Reg.NVS_PATCHCFG.slots : Field := ⟨0x1400208, 0, 9, 0, 1, .rwl, 0x0⟩
/-- NVS_PATCHCFG.slot_mib [27:16], RWL, Table 11.8. -/
def Reg.NVS_PATCHCFG.slot_mib : Field := ⟨0x1400208, 16, 12, 0, 1, .rwl, 0x0⟩
/-- NVS_PATCHCFG.auto [31], RWL, Table 11.8. -/
def Reg.NVS_PATCHCFG.auto : Field := ⟨0x1400208, 31, 1, 0, 1, .rwl, 0x0⟩
/-- NVS_PATCHCFG.grp [15:0], RWL, Table 11.8. -/
def Reg.NVS_PATCHCFG.grp : Field := ⟨0x140020C, 0, 16, 0, 1, .rwl, 0x0⟩
/-- NVS_PATCHMAP[i].slot [7:0], RO, Table 11.8. -/
def Reg.NVS_PATCHMAP.slot : Field := ⟨0x1401000, 0, 8, 4, 256, .ro, 0x0⟩
/-- NVS_PATCHMAP[i].version [15:8], RO, Table 11.8. -/
def Reg.NVS_PATCHMAP.version : Field := ⟨0x1401000, 8, 8, 4, 256, .ro, 0x0⟩
/-- NVS_PATCHMAP[i].resident [31], RO, Table 11.8. -/
def Reg.NVS_PATCHMAP.resident : Field := ⟨0x1401000, 31, 1, 4, 256, .ro, 0x0⟩
/-- NVS_PATCHSLOT[i].use [31:0], RO, Table 11.8. -/
def Reg.NVS_PATCHSLOT.use : Field := ⟨0x1402000, 0, 32, 16, 256, .ro, 0x0⟩
/-- NVS_PATCHSLOT[i].stamp [31:0], RO, Table 11.8. -/
def Reg.NVS_PATCHSLOT.stamp : Field := ⟨0x1402004, 0, 32, 16, 256, .ro, 0x0⟩
/-- NVS_PATCHSLOT[i].refs [31:0], RO, Table 11.8. -/
def Reg.NVS_PATCHSLOT.refs : Field := ⟨0x1402008, 0, 32, 16, 256, .ro, 0x0⟩
/-- NVS_PATCHSLOT[i].state [1:0], RO, Table 11.8. -/
def Reg.NVS_PATCHSLOT.state : Field := ⟨0x140200C, 0, 2, 16, 256, .ro, 0x0⟩
/-- NVS_PATCHSLOT[i].patch [15:8], RO, Table 11.8. -/
def Reg.NVS_PATCHSLOT.patch : Field := ⟨0x140200C, 8, 8, 16, 256, .ro, 0x0⟩
/-- UNIT_STATE[i].health [3:0], RO, Table 3.4. -/
def Reg.UNIT_STATE.health : Field := ⟨0x2000010, 0, 4, 256, 512, .ro, 0x0⟩
/-- UNIT_STATE[i].run [7:4], RO, Table 3.4. -/
def Reg.UNIT_STATE.run : Field := ⟨0x2000010, 4, 4, 256, 512, .ro, 0x5⟩
/-- UNIT_STATE[i].stale [8], RO, Table 3.4. -/
def Reg.UNIT_STATE.stale : Field := ⟨0x2000010, 8, 1, 256, 512, .ro, 0x0⟩
/-- UNIT_CTRL[i].enable [0], RW, Table 3.5. -/
def Reg.UNIT_CTRL.enable : Field := ⟨0x2000014, 0, 1, 256, 512, .rw, 0x0⟩
/-- UNIT_CTRL[i].quiesce [1], WO, Table 3.5. -/
def Reg.UNIT_CTRL.quiesce : Field := ⟨0x2000014, 1, 1, 256, 512, .wo, 0x0⟩
/-- UNIT_CTRL[i].unit_reset [2], WO, Table 3.5. -/
def Reg.UNIT_CTRL.unit_reset : Field := ⟨0x2000014, 2, 1, 256, 512, .wo, 0x0⟩
/-- UNIT_CTRL[i].busy [31], RO, Table 3.5. -/
def Reg.UNIT_CTRL.busy : Field := ⟨0x2000014, 31, 1, 256, 512, .ro, 0x0⟩
/-- UNIT_EVT[i].reject [0], W1C, Table 3.7. -/
def Reg.UNIT_EVT.reject : Field := ⟨0x2000018, 0, 1, 256, 512, .w1c, 0x0⟩
/-- UNIT_EVT[i].run_change [1], W1C, Table 3.7. -/
def Reg.UNIT_EVT.run_change : Field := ⟨0x2000018, 1, 1, 256, 512, .w1c, 0x0⟩
/-- UNIT_EVT[i].fault [2], W1C, Table 3.7. -/
def Reg.UNIT_EVT.fault : Field := ⟨0x2000018, 2, 1, 256, 512, .w1c, 0x0⟩
/-- UNIT_EVT[i].sat [3], W1C, Table 3.7. -/
def Reg.UNIT_EVT.sat : Field := ⟨0x2000018, 3, 1, 256, 512, .w1c, 0x0⟩
/-- UNIT_EVTMASK[i].reject [0], RW, Table 3.7. -/
def Reg.UNIT_EVTMASK.reject : Field := ⟨0x200001C, 0, 1, 256, 512, .rw, 0x1⟩
/-- UNIT_EVTMASK[i].run_change [1], RW, Table 3.7. -/
def Reg.UNIT_EVTMASK.run_change : Field := ⟨0x200001C, 1, 1, 256, 512, .rw, 0x1⟩
/-- UNIT_EVTMASK[i].fault [2], RW, Table 3.7. -/
def Reg.UNIT_EVTMASK.fault : Field := ⟨0x200001C, 2, 1, 256, 512, .rw, 0x1⟩
/-- UNIT_EVTMASK[i].sat [3], RW, Table 3.7. -/
def Reg.UNIT_EVTMASK.sat : Field := ⟨0x200001C, 3, 1, 256, 512, .rw, 0x1⟩
/-- UNIT_JOB[i].job [15:0], RO, Table 3.8. -/
def Reg.UNIT_JOB.job : Field := ⟨0x2000020, 0, 16, 256, 512, .ro, 0xFFFF⟩
/-- UNIT_BUSY[i].busy_us [63:0], RO, Table 3.8. -/
def Reg.UNIT_BUSY.busy_us : Field := ⟨0x2000028, 0, 64, 256, 512, .ro, 0x0⟩
/-- UNIT_ERRCNT[i].count [47:0], RO, Table 3.8. -/
def Reg.UNIT_ERRCNT.count : Field := ⟨0x2000030, 0, 48, 256, 512, .ro, 0x0⟩
/-- UNIT_ERRCNT[i].sat [48], W1C, Table 3.8. -/
def Reg.UNIT_ERRCNT.sat : Field := ⟨0x2000030, 48, 1, 256, 512, .w1c, 0x0⟩
/-- UNIT_FAULT[i].cause [15:0], RSt, Table 3.8. -/
def Reg.UNIT_FAULT.cause : Field := ⟨0x2000038, 0, 16, 256, 512, .rstRw, 0x0⟩
/-- TST_CFG.slice_ms [15:0], RW, Table 20.12. -/
def Reg.TST_CFG.slice_ms : Field := ⟨0x3000000, 0, 16, 0, 1, .rw, 0xFA⟩
/-- TST_CFG.total_s [31:16], RW, Table 20.12. -/
def Reg.TST_CFG.total_s : Field := ⟨0x3000000, 16, 16, 0, 1, .rw, 0x28⟩
/-- TST_FRSTAT.entries [12:0], RO, Table 20.12. -/
def Reg.TST_FRSTAT.entries : Field := ⟨0x3000004, 0, 13, 0, 1, .ro, 0x0⟩
/-- TST_FRSTAT.full [13], RO, Table 20.12. -/
def Reg.TST_FRSTAT.full : Field := ⟨0x3000004, 13, 1, 0, 1, .ro, 0x0⟩
/-- TST_SLICE[i].ms [15:0], RO, Table 20.12. -/
def Reg.TST_SLICE.ms : Field := ⟨0x3000100, 0, 16, 4, 34, .ro, 0x0⟩
/-- TST_SLICE[i].faults [27:16], RO, Table 20.12. -/
def Reg.TST_SLICE.faults : Field := ⟨0x3000100, 16, 12, 4, 34, .ro, 0x0⟩
/-- TST_SLICE[i].result [31:30], RO, Table 20.12. -/
def Reg.TST_SLICE.result : Field := ⟨0x3000100, 30, 2, 4, 34, .ro, 0x3⟩

/-- The fields of the TOP block. -/
def fieldsTop : List Field :=
  [Reg.TOP_ID.variant, Reg.TOP_ID.stepping, Reg.TOP_ID.device, Reg.TOP_BLKSTAT.blocks, Reg.TOP_LOCKSTAT.mem, Reg.TOP_LOCKSTAT.nvs, Reg.TOP_LOCKSTAT.kv, Reg.TOP_ACCERR.offset, Reg.TOP_ACCERR.write, Reg.TOP_ACCERR.bytes, Reg.TOP_ACCERR.kind, Reg.TOP_ACCERR.valid, Reg.TOP_STARTSTAT.ready, Reg.TOP_STARTSTAT.apron, Reg.TOP_STARTSTAT.stale, Reg.TOP_STARTSTAT.gust, Reg.TOP_STARTSTAT.stage, Reg.TOP_STARTSTAT.attempts, Reg.TOP_STARTSTAT.fail_stage, Reg.TOP_STARTSTAT.cause, Reg.TOP_STARTCTL.clear_attempts, Reg.TOP_STARTCTL.force_apron, Reg.TOP_RSTCTL.module, Reg.TOP_SHUTCTL.start, Reg.TOP_SHUTCTL.skip_test, Reg.TOP_SHUTSTAT.slices, Reg.TOP_SHUTSTAT.slices_done, Reg.TOP_SHUTSTAT.result, Reg.TOP_SHUTSTAT.state, Reg.TOP_FAULT.cause, Reg.TOP_FAULT.slot, Reg.TOP_FAULT.cls, Reg.TOP_FAULT.valid, Reg.TOP_FAULT.gsc_lo, Reg.TOP_EVT.sat, Reg.TOP_EVT.fault, Reg.TOP_EVTMASK.mask]

/-- The fields of the CAP block. -/
def fieldsCap : List Field :=
  [Reg.CAP_ROOT.root, Reg.CAP_GEN.gen, Reg.CAP_STATUS.ready]

/-- The fields of the PWR block, part 0. -/
def fieldsPwr0 : List Field :=
  [Reg.PWR_SUPSTAT.active, Reg.PWR_SUPSTAT.main_ok, Reg.PWR_SUPSTAT.backup_ok, Reg.PWR_SUPSTAT.inhibit, Reg.PWR_SUPSTAT.hold, Reg.PWR_INMEAS.mv, Reg.PWR_INMEAS.power_w, Reg.PWR_EVT.switchover, Reg.PWR_EVT.inhibit, Reg.PWR_EVT.hold, Reg.PWR_EVT.lease_expired, Reg.PWR_EVT.throttle, Reg.PWR_EVT.thermal_hold, Reg.PWR_EVT.refit, Reg.PWR_EVT.margin_warn, Reg.PWR_EVT.margin_end, Reg.PWR_EVT.fray_fault, Reg.PWR_EVTMASK.mask, Reg.PWR_SWCNT.count, Reg.PWR_SWCNT.sat, Reg.PWR_INHCNT.count, Reg.PWR_INHCNT.sat, Reg.PWR_THROTNS.count, Reg.PWR_THROTNS.sat, Reg.PWR_TWDISCNT.count, Reg.PWR_TWDISCNT.sat, Reg.PWR_RATECTL.mode, Reg.PWR_RATECTL.breeze_rate, Reg.PWR_RATESTAT.active_mode, Reg.PWR_RATESTAT.ceiling, Reg.PWR_RATESTAT.suspended, Reg.PWR_RATESTAT.capped, Reg.PWR_RATESTAT.active_rate, Reg.PWR_RATESTAT.busy, Reg.PWR_RATESTAT.reject_cause, Reg.PWR_RATEEVT.slip, Reg.PWR_RATEEVT.suspend, Reg.PWR_RATEEVT.reject, Reg.PWR_RATEEVTMASK.mask, Reg.PWR_SLIPCNT.count]

/-- The fields of the PWR block, part 1. -/
def fieldsPwr1 : List Field :=
  [Reg.PWR_SLIPCNT.sat, Reg.PWR_LEASE.budget_w, Reg.PWR_LEASE.remaining_ms, Reg.PWR_LEASE.state, Reg.PWR_LEASE.seq, Reg.PWR_CAP.cap_w, Reg.PWR_CAP.given_w, Reg.PWR_CAP.received_w, Reg.PWR_CAP.draw_w, Reg.PWR_TWCFG.grp, Reg.PWR_TWCFG.en, Reg.PWR_TWCFG.slack_pct, Reg.PWR_TWCFG.job, Reg.PWR_TWCFG.floor_w, Reg.PWR_TWSTAT.reports, Reg.PWR_TWSTAT.slack, Reg.PWR_TWSTAT.history, Reg.PWR_THERM.state, Reg.PWR_THERM.diode, Reg.PWR_THERM.tj_max, Reg.PWR_THCFG.throttle_c, Reg.PWR_REFITCTL.start, Reg.PWR_REFITCTL.busy, Reg.PWR_REFITCFG.period_h, Reg.PWR_REFITCFG.warn, Reg.PWR_REFITCFG.target_rate, Reg.PWR_REFIT.d, Reg.PWR_REFIT.floor_mv, Reg.PWR_REFIT.ceiling, Reg.PWR_REFIT.at_start, Reg.PWR_REFIT.assist, Reg.PWR_REFIT.margin, Reg.PWR_REFITGSC.gsc, Reg.PWR_FRAY.drift, Reg.PWR_FRAY.valid, Reg.PWR_DIODE.temp]

/-- The fields of the PWR block. -/
def fieldsPwr : List Field := fieldsPwr0 ++ fieldsPwr1

/-- The fields of the MGT block. -/
def fieldsMgt : List Field :=
  [Reg.MGT_STATUS.image, Reg.MGT_STATUS.healthy, Reg.MGT_STATUS.trial, Reg.MGT_STATUS.recovery, Reg.MGT_STATUS.svn, Reg.MGT_STATUS.counter, Reg.MGT_FWVER.version, Reg.MGT_LOGHEAD.seq, Reg.MGT_LOGTAIL.seq, Reg.MGT_LOGSEL.seq, Reg.MGT_LOGSTAT.ready, Reg.MGT_LOGSTAT.missing, Reg.MGT_LOGSTAT.corrupt, Reg.MGT_LOGLOST.count, Reg.MGT_LOGLOST.sat, Reg.MGT_MBCTL.req_len, Reg.MGT_MBCTL.go, Reg.MGT_MBCTL.done, Reg.MGT_MBCTL.busy, Reg.MGT_MBRLEN.rsp_len]

/-- The fields of the SEQ block, part 0. -/
def fieldsSeq0 : List Field :=
  [Reg.SEQ_EXCINFO.index, Reg.SEQ_EXCINFO.engine, Reg.SEQ_EXCINFO.async, Reg.SEQ_EXCINFO.valid, Reg.SEQ_EXCINFO.cause, Reg.SEQ_EXCINFO.job, Reg.SEQ_TILECNT.value, Reg.SEQ_NUMFLAG.sat_dpa, Reg.SEQ_NUMFLAG.sat_vrw, Reg.SEQ_NUMFLAG.ufl_dpa, Reg.SEQ_NUMFLAG.ufl_vrw, Reg.SEQ_NUMFLAG.inv_dpa, Reg.SEQ_NUMFLAG.inv_vrw, Reg.SEQ_NUMFLAG.first_index, Reg.SEQ_NUMFLAG.first_engine, Reg.SEQ_NUMFLAG.job, Reg.SEQ_SATCNT.count, Reg.SEQ_SATCNT.sat, Reg.SEQ_UFLCNT.count, Reg.SEQ_UFLCNT.sat, Reg.SEQ_INVCNT.count, Reg.SEQ_INVCNT.sat, Reg.SEQ_DPAREP.c0_unit, Reg.SEQ_DPAREP.c0_en, Reg.SEQ_DPAREP.c1_unit, Reg.SEQ_DPAREP.c1_en, Reg.SEQ_DPAREP.c2_unit, Reg.SEQ_DPAREP.c2_en, Reg.SEQ_DPAREP.c3_unit, Reg.SEQ_DPAREP.c3_en, Reg.SEQ_DPAREP.row_slice, Reg.SEQ_DPAREP.row_en, Reg.SEQ_VRWREP.lane, Reg.SEQ_VRWREP.en, Reg.SEQ_KVPOOL.base, Reg.SEQ_KVCFG.defer_max, Reg.SEQ_KVCFG.layers, Reg.SEQ_KVCFG.sets, Reg.SEQ_KVRSV.reserve, Reg.SEQ_KVTAB.base]

/-- The fields of the SEQ block, part 1. -/
def fieldsSeq1 : List Field :=
  [Reg.SEQ_KVREC.base, Reg.SEQ_KVLDG.base, Reg.SEQ_KVPARK.base, Reg.SEQ_KVLOCK.lock, Reg.SEQ_KVEVT.defer, Reg.SEQ_KVEVT.exhausted, Reg.SEQ_KVEVT.expire, Reg.SEQ_KVEVT.park_fail, Reg.SEQ_KVEVT.drop, Reg.SEQ_KVEVT.reject, Reg.SEQ_KVEVTMASK.mask, Reg.SEQ_KVDEFERCNT.count, Reg.SEQ_KVDEFERCNT.sat, Reg.SEQ_KVEXHCNT.count, Reg.SEQ_KVEXHCNT.sat, Reg.SEQ_KVDROPCNT.count, Reg.SEQ_KVDROPCNT.sat, Reg.SEQ_KVCOWCNT.count, Reg.SEQ_KVCOWCNT.sat, Reg.SEQ_KVPARKCNT.count, Reg.SEQ_KVPARKCNT.sat, Reg.SEQ_KVEXPCNT.count, Reg.SEQ_KVEXPCNT.sat, Reg.SEQ_KVLEDGER.set_first, Reg.SEQ_KVLEDGER.set_count, Reg.SEQ_KVLEDGER.park_first, Reg.SEQ_KVLEDGER.park_count, Reg.SEQ_KVLEDGER.tab_first, Reg.SEQ_KVLEDGER.tab_count, Reg.SEQ_KVLEDGER.former, Reg.SEQ_KVLEDGER.en, Reg.SEQ_KVLEDGER.grp, Reg.SEQ_KVSTAT.free_sets, Reg.SEQ_KVSTAT.free_park, Reg.SEQ_KVSTAT.free_tab, Reg.SEQ_KVSTAT.record, Reg.SEQ_SSBASE.base, Reg.SEQ_SRVEVT.bad_db, Reg.SEQ_SRVEVT.cmd_fail, Reg.SEQ_SRVEVT.strm_wait]

/-- The fields of the SEQ block, part 2. -/
def fieldsSeq2 : List Field :=
  [Reg.SEQ_SRVEVT.nan_end, Reg.SEQ_SRVEVT.lost, Reg.SEQ_SRVEVT.dup_prop, Reg.SEQ_SRVEVTMASK.mask, Reg.SEQ_STRMWAITCNT.count, Reg.SEQ_STRMWAITCNT.sat, Reg.SEQ_DUPPROPCNT.count, Reg.SEQ_DUPPROPCNT.sat, Reg.SEQ_LOSTCNT.count, Reg.SEQ_LOSTCNT.sat, Reg.SEQ_TOKCNT.count, Reg.SEQ_PROPCNT.count, Reg.SEQ_ACCCNT.count, Reg.SEQ_SERVE.job, Reg.SEQ_SERVE.en, Reg.SEQ_SERVE.max_rows, Reg.SEQ_SERVE.max_tokens, Reg.SEQ_SERVE.chunk, Reg.SEQ_SERVE.depth, Reg.SEQ_SERVE.min_gap_ns, Reg.SEQ_SERVE.vocab, Reg.SEQ_SERVE.sgrp, Reg.SEQ_SERVE.rep_ep, Reg.SEQ_SERVE.acct_base, Reg.SEQ_SERVE.inflight, Reg.SEQ_SERVE.next_batch, Reg.SEQ_JOBTAB.en, Reg.SEQ_JOBTAB.base, Reg.SEQ_SCHEDCFG.quantum_ms, Reg.SEQ_JOBCTL.job, Reg.SEQ_JOBCTL.op, Reg.SEQ_JOBCTLSTAT.result, Reg.SEQ_JOBCTLSTAT.busy, Reg.SEQ_SCHEDEVT.preempt, Reg.SEQ_SCHEDEVT.slot_wait, Reg.SEQ_SCHEDEVT.ctl_reject, Reg.SEQ_SCHEDEVTMASK.mask, Reg.SEQ_PREEMPTCNT.count, Reg.SEQ_PREEMPTCNT.sat, Reg.SEQ_SLOTWAITCNT.count]

/-- The fields of the SEQ block, part 3. -/
def fieldsSeq3 : List Field :=
  [Reg.SEQ_SLOTWAITCNT.sat, Reg.SEQ_CLOAKMAP.slot0_job, Reg.SEQ_CLOAKMAP.slot1_job, Reg.SEQ_QCFG.base, Reg.SEQ_QCFG.log2n, Reg.SEQ_QCFG.slice, Reg.SEQ_QCFG.kind, Reg.SEQ_QCFG.en, Reg.SEQ_QCFG.cplq, Reg.SEQ_QCFG.tail, Reg.SEQ_QCFG.head]

/-- The fields of the SEQ block. -/
def fieldsSeq : List Field := fieldsSeq0 ++ fieldsSeq1 ++ fieldsSeq2 ++ fieldsSeq3

/-- The fields of the FAB block, part 0. -/
def fieldsFab0 : List Field :=
  [Reg.FAB_EPID.ep, Reg.FAB_EPID.valid, Reg.FAB_DOMAIN.first, Reg.FAB_DOMAIN.count, Reg.FAB_REGION.first, Reg.FAB_REGION.count, Reg.FAB_GWEP.ep, Reg.FAB_GWEP.valid, Reg.FAB_PORTSTAT.state, Reg.FAB_PORTSTAT.half, Reg.FAB_PORTSTAT.lanes_ok, Reg.FAB_PORTCTL.fence, Reg.FAB_PORTCTL.retrain, Reg.FAB_ARCFG.min_planes, Reg.FAB_ARCFG.warm, Reg.FAB_AREST.c_local, Reg.FAB_AREST.n_local, Reg.FAB_AREST.c_remote, Reg.FAB_AREST.n_remote, Reg.FAB_GSC.value, Reg.FAB_GSCCFG.gm, Reg.FAB_GSCSTAT.state, Reg.FAB_GSCSTAT.planes, Reg.FAB_GSCSTAT.offset, Reg.FAB_GSCGM.ep, Reg.FAB_EVT.port_change, Reg.FAB_EVT.degraded, Reg.FAB_EVT.isolated, Reg.FAB_EVT.reject, Reg.FAB_EVT.gsc_unlock, Reg.FAB_EVT.gm_conflict, Reg.FAB_EVTMASK.mask, Reg.FAB_REPLAYCNT.count, Reg.FAB_REPLAYCNT.sat, Reg.FAB_RETRAINCNT.count, Reg.FAB_RETRAINCNT.sat, Reg.FAB_REROUTECNT.count, Reg.FAB_REROUTECNT.sat, Reg.FAB_RTOCFG.attempt_us, Reg.FAB_RTOCFG.tries]

/-- The fields of the FAB block, part 1. -/
def fieldsFab1 : List Field :=
  [Reg.FAB_ACCTO.accept_us, Reg.FAB_GWTO.gw_us, Reg.FAB_OPEVT.refused_out, Reg.FAB_OPEVT.refused_in, Reg.FAB_OPEVT.dead, Reg.FAB_OPEVT.poison_in, Reg.FAB_OPEVT.teardown, Reg.FAB_OPEVT.bulk_fail, Reg.FAB_OPEVT.red_sat, Reg.FAB_OPEVT.rgn_reject, Reg.FAB_OPEVTMASK.mask, Reg.FAB_REFOUTCNT.count, Reg.FAB_REFOUTCNT.sat, Reg.FAB_REFINCNT.count, Reg.FAB_REFINCNT.sat, Reg.FAB_DEADCNT.count, Reg.FAB_DEADCNT.sat, Reg.FAB_DUPCNT.count, Reg.FAB_DUPCNT.sat, Reg.FAB_RETRYCNT.count, Reg.FAB_RETRYCNT.sat, Reg.FAB_REDSATCNT.count, Reg.FAB_REDSATCNT.sat, Reg.FAB_BQCFG.log2n, Reg.FAB_BQCFG.en, Reg.FAB_BQBASE.base, Reg.FAB_BCBASE.base, Reg.FAB_BQTAIL.index, Reg.FAB_BQTAIL.phase, Reg.FAB_BQHEAD.index, Reg.FAB_BQHEAD.phase, Reg.FAB_BCTAIL.index, Reg.FAB_BCTAIL.phase, Reg.FAB_BCHEAD.index, Reg.FAB_BCHEAD.phase, Reg.FAB_TDSTAT.job, Reg.FAB_TDSTAT.reason, Reg.FAB_TDSTAT.state, Reg.FAB_LULLCFG.arb_ep, Reg.FAB_LULLCFG.arb_valid]

/-- The fields of the FAB block, part 2. -/
def fieldsFab2 : List Field :=
  [Reg.FAB_LULLCFG.fm_ep, Reg.FAB_LULLCFG.fm_valid, Reg.FAB_LULLWIN.window_ms, Reg.FAB_LULLWIN.grp, Reg.FAB_LULLSUPCNT.count, Reg.FAB_LULLSUPCNT.sat, Reg.FAB_LULLOVFCNT.count, Reg.FAB_LULLOVFCNT.sat, Reg.FAB_LULLLATECNT.count, Reg.FAB_LULLLATECNT.sat, Reg.FAB_RGN.base, Reg.FAB_RGN.length, Reg.FAB_RGN.key, Reg.FAB_RGN.job, Reg.FAB_RGN.kind, Reg.FAB_RGN.rights, Reg.FAB_RGN.en, Reg.FAB_RGN.src_first, Reg.FAB_RGN.src_count, Reg.FAB_RGN.core, Reg.FAB_RGN.depth, Reg.FAB_MCRED.key, Reg.FAB_MCRED.ep, Reg.FAB_MCRED.credits, Reg.FAB_MCRED.job, Reg.FAB_GRP.count, Reg.FAB_GRP.member, Reg.FAB_GRP.valid]

/-- The fields of the FAB block. -/
def fieldsFab : List Field := fieldsFab0 ++ fieldsFab1 ++ fieldsFab2

/-- The fields of the XE block. -/
def fieldsXe : List Field :=
  [Reg.XE_XCFG.job, Reg.XE_XCFG.en, Reg.XE_XCFG.epoch, Reg.XE_XCFG.grp, Reg.XE_XCFG.nsrc, Reg.XE_XCFG.experts, Reg.XE_XCFG.cap_src, Reg.XE_XCFG.k, Reg.XE_XCFG.send_row, Reg.XE_XCFG.ret_row, Reg.XE_XCFG.nbuf, Reg.XE_XCFG.seed, Reg.XE_XCFG.to_us, Reg.XE_XCFG.done_phase, Reg.XE_ROUTE.ep, Reg.XE_ROUTE.lexp, Reg.XE_LEXP.base, Reg.XE_LEXP.en, Reg.XE_EVT.refused, Reg.XE_EVT.overflow, Reg.XE_EVT.unret, Reg.XE_EVT.stale, Reg.XE_EVTMASK.mask, Reg.XE_OVFCNT.count, Reg.XE_OVFCNT.sat, Reg.XE_UNRETCNT.count, Reg.XE_UNRETCNT.sat, Reg.XE_STALECNT.count, Reg.XE_STALECNT.sat, Reg.XE_EMPTYCNT.count, Reg.XE_EMPTYCNT.sat]

/-- The fields of the MEM block, part 0. -/
def fieldsMem0 : List Field :=
  [Reg.MEM_T1ZONE.local_, Reg.MEM_LOCK.lock, Reg.MEM_SCCFG.dirty_hi, Reg.MEM_FLUSH.start, Reg.MEM_FLUSH.busy, Reg.MEM_BAR4BASE.base, Reg.MEM_T3BASE.en, Reg.MEM_T3BASE.base, Reg.MEM_NOALLOC.gib, Reg.MEM_STALLTO.timeout_us, Reg.MEM_LATE.late_ns, Reg.MEM_EVT.late, Reg.MEM_EVT.timeout, Reg.MEM_EVT.uc, Reg.MEM_EVT.t2_recall, Reg.MEM_EVT.t2_fail, Reg.MEM_EVT.t3_fail, Reg.MEM_EVT.reject, Reg.MEM_EVTMASK.mask, Reg.MEM_UCADDR.addr, Reg.MEM_UCADDR.stack, Reg.MEM_STALLNS.count, Reg.MEM_STALLNS.sat, Reg.MEM_LATECNT.count, Reg.MEM_LATECNT.sat, Reg.MEM_TOCNT.count, Reg.MEM_TOCNT.sat, Reg.MEM_T2MAP.base, Reg.MEM_T2MAP.length, Reg.MEM_T2MAP.roff, Reg.MEM_T2MAP.lease_end, Reg.MEM_T2MAP.key, Reg.MEM_T2MAP.ep, Reg.MEM_T2MAP.state, Reg.MEM_T2MAP.recall_end, Reg.MEM_LEND.base, Reg.MEM_LEND.length, Reg.MEM_LEND.lease_end, Reg.MEM_LEND.key, Reg.MEM_LEND.ep]

/-- The fields of the MEM block, part 1. -/
def fieldsMem1 : List Field :=
  [Reg.MEM_LEND.state, Reg.MEM_LEND.grace_ms, Reg.MEM_LEND.recall, Reg.MEM_LEND.lend]

/-- The fields of the MEM block. -/
def fieldsMem : List Field := fieldsMem0 ++ fieldsMem1

/-- The fields of the NVS block, part 0. -/
def fieldsNvs0 : List Field :=
  [Reg.NVS_STATUS.ready, Reg.NVS_STATUS.ro, Reg.NVS_STATUS.apron, Reg.NVS_STATUS.inhibit, Reg.NVS_STATUS.worn, Reg.NVS_LOCK.lock, Reg.NVS_RINGCFG.log2n, Reg.NVS_RINGCFG.en, Reg.NVS_CMDBASE.base, Reg.NVS_CPLBASE.base, Reg.NVS_CMDTAIL.index, Reg.NVS_CMDTAIL.phase, Reg.NVS_CMDHEAD.index, Reg.NVS_CMDHEAD.phase, Reg.NVS_CPLTAIL.index, Reg.NVS_CPLTAIL.phase, Reg.NVS_CPLHEAD.index, Reg.NVS_CPLHEAD.phase, Reg.NVS_DIGCFG.period_h, Reg.NVS_DIGCFG.share, Reg.NVS_SCRUBCFG.period_d, Reg.NVS_EVT.cmd_fail, Reg.NVS_EVT.digest, Reg.NVS_EVT.uc, Reg.NVS_EVT.inhibit, Reg.NVS_EVT.wear_warn, Reg.NVS_EVT.worn, Reg.NVS_EVT.reject, Reg.NVS_EVTMASK.mask, Reg.NVS_WEAR.avg_erase, Reg.NVS_WEAR.max_erase, Reg.NVS_WEAR.spare, Reg.NVS_ECCCNT.count, Reg.NVS_ECCCNT.sat, Reg.NVS_UCCNT.count, Reg.NVS_UCCNT.sat, Reg.NVS_RELOCCNT.count, Reg.NVS_RELOCCNT.sat, Reg.NVS_DIGFAILCNT.count, Reg.NVS_DIGFAILCNT.sat]

/-- The fields of the NVS block, part 1. -/
def fieldsNvs1 : List Field :=
  [Reg.NVS_RETIRECNT.count, Reg.NVS_RETIRECNT.sat, Reg.NVS_GEN.base, Reg.NVS_GEN.length, Reg.NVS_GEN.gen, Reg.NVS_GEN.state, Reg.NVS_GEN.kv_keep, Reg.NVS_GEN.load_fail, Reg.NVS_GEN.refs, Reg.NVS_GENACT.active, Reg.NVS_PATCHCFG.base, Reg.NVS_PATCHCFG.slots, Reg.NVS_PATCHCFG.slot_mib, Reg.NVS_PATCHCFG.auto, Reg.NVS_PATCHCFG.grp, Reg.NVS_PATCHMAP.slot, Reg.NVS_PATCHMAP.version, Reg.NVS_PATCHMAP.resident, Reg.NVS_PATCHSLOT.use, Reg.NVS_PATCHSLOT.stamp, Reg.NVS_PATCHSLOT.refs, Reg.NVS_PATCHSLOT.state, Reg.NVS_PATCHSLOT.patch]

/-- The fields of the NVS block. -/
def fieldsNvs : List Field := fieldsNvs0 ++ fieldsNvs1

/-- The fields of the UNIT block. -/
def fieldsUnit : List Field :=
  [Reg.UNIT_STATE.health, Reg.UNIT_STATE.run, Reg.UNIT_STATE.stale, Reg.UNIT_CTRL.enable, Reg.UNIT_CTRL.quiesce, Reg.UNIT_CTRL.unit_reset, Reg.UNIT_CTRL.busy, Reg.UNIT_EVT.reject, Reg.UNIT_EVT.run_change, Reg.UNIT_EVT.fault, Reg.UNIT_EVT.sat, Reg.UNIT_EVTMASK.reject, Reg.UNIT_EVTMASK.run_change, Reg.UNIT_EVTMASK.fault, Reg.UNIT_EVTMASK.sat, Reg.UNIT_JOB.job, Reg.UNIT_BUSY.busy_us, Reg.UNIT_ERRCNT.count, Reg.UNIT_ERRCNT.sat, Reg.UNIT_FAULT.cause]

/-- The fields of the TST block. -/
def fieldsTst : List Field :=
  [Reg.TST_CFG.slice_ms, Reg.TST_CFG.total_s, Reg.TST_FRSTAT.entries, Reg.TST_FRSTAT.full, Reg.TST_SLICE.ms, Reg.TST_SLICE.faults, Reg.TST_SLICE.result]

/-- Every field of the BAR0 map. -/
def allFields : List Field :=
  fieldsTop ++ fieldsCap ++ fieldsPwr ++ fieldsMgt ++ fieldsSeq ++ fieldsFab ++ fieldsXe ++ fieldsMem ++ fieldsNvs ++ fieldsUnit ++ fieldsTst

end Sys2Proof.Machine
end

