-- ==== Sys2Proof/Machine/State.lean ====
section
/-! DEFINITION. The state of the module as plain data: every register, memory, queue, table and pin the spec gives it, the
queue of commands that wait, and `State.reset`. Numbered arrays are sparse tables; BAR0 fields are kept one value per field
instance, under `Field.key`. -/

namespace Sys2Proof.Machine

/-- Why a command stops with a fault. No happening of the spec stops the module: a fault inside the module is recorded and
goes on (chapter 21). This one constructor is never raised by a meaning. -/
inductive Fault where
  /-- Raised by nobody: kept so that the type is inhabited. Safe. -/
  | unreachable
  deriving DecidableEq, Repr

/-- Why a command has no meaning. -/
inductive Refusal where
  /-- Raised by a dispatch arm whose command has no meaning yet. Safe: the machine stops where the hardware goes on. -/
  | notModelled (mnemonic : String)
  deriving DecidableEq, Repr

/-! ### Records, reports and outputs (chapters 19 and 21) -/

/-- What a report is about: a UCB slot, an endpoint, a shard, or the module itself (R497). -/
inductive Suspect where
  | unit (slot : Nat)
  | endpoint (ep : Nat)
  | shard (id : Nat)
  | module
  deriving DecidableEq, Repr

/-- One lull table entry: the pair and its tally in the current window (R497). -/
structure LullEntry where
  suspect : Suspect
  cause : Nat
  tally : Nat
  deriving DecidableEq, Repr

/-- The arbiter's entry for a pair: the modules that observed it and the total events of the window (R498, R499). -/
structure ArbiterEntry where
  suspect : Suspect
  cause : Nat
  observers : List Nat
  events : Nat
  deriving DecidableEq, Repr

/-- A log record (Table 19.4). The crc is a function of the rest and is not kept. -/
structure LogRecord where
  seq : Nat
  kind : Nat
  severity : Nat
  cause : Nat
  gsc : Nat
  uptimeUs : Nat
  slot : Nat
  payload : List Nat
  deriving DecidableEq, Repr

/-- Brilo's event log (R455 to R457): committed pages of records, oldest first, the buffer of one page, the next seq, and the
records a restart of the management core keeps from it. -/
structure EventLog where
  pages : List (List LogRecord)
  buffer : List LogRecord
  oldestUs : Nat
  next : Nat
  queued : List LogRecord
  overflow : Nat
  deriving DecidableEq, Repr

/-! ### Rates and units (chapters 02 and 03) -/

/-- A UNIT_CTRL write in the serial queue (R53): its slot and the three bits it carried. -/
structure UnitWrite where
  slot : Nat
  enable : Bool
  quiesce : Bool
  reset : Bool
  deriving DecidableEq, Repr

/-- A software group (R58, R541): the slots in force, and the slot words written since, by index. -/
structure GroupDef where
  slots : List Nat
  staged : List (Nat × Nat)
  deriving DecidableEq, Repr

/-! ### Packets (chapter 17) -/

/-- A packet of the module (Tables 17.1, 17.3, 17.16 and 17.17): destination endpoint or group, type, variant or reason, lines, key, offset, job,
source kind and unit (in a response, the requester's), seq, tracker tag, final endpoint behind a gateway, whether it was re-sent, whether it
carries the minimal-path bit, its payload, and its age: its place in the order in which the FU accepted packets, 0 until then (R401). -/
structure Packet where
  dst : Nat
  group : Bool
  ptype : Nat
  var : Nat
  lines : Nat
  key : Nat
  offset : Nat
  job : Nat
  kind : Nat
  unit : Nat
  seq : Nat
  tag : Nat
  gateway : Option Nat
  resent : Bool
  minimal : Bool
  bytes : List Byte
  age : Nat := 0
  deriving DecidableEq, Repr

/-! ### Memory (chapters 04 and 10) -/

/-- The byte stores of the module. Core scratch is keyed by core × 2^22 + offset, cluster SRAM by cluster × 2^23 + offset,
T1 by T1 offset as every reader sees it (R210), and `t3` by host address: what the module has written to host memory through the T3 window
(R224). A byte not listed reads 0. -/
structure Memory where
  scratch : List Host.Cell
  sram : List Host.Cell
  t1 : List Host.Cell
  t3 : List Host.Cell
  deriving DecidableEq, Repr

/-- One way of a staging-cache set: its line number, and whether it is dirty (R212). -/
structure CacheWay where
  way : Nat
  line : Nat
  dirty : Bool
  deriving DecidableEq, Repr

/-- One set of a staging cache: valid ways, most recently used first, and the 15 pseudo-LRU bits (R211 to R213). -/
structure CacheSet where
  ways : List CacheWay
  plru : Nat
  deriving DecidableEq, Repr

/-- A set whose ways are all invalid and whose tree bits are zero, as at every start (R213). -/
def CacheSet.empty : CacheSet := ⟨[], 0⟩

/-! ### Cores (chapters 04 to 09) -/

/-- A loop stack entry (Table 4.1). -/
structure LoopEntry where
  start : Nat
  stop : Nat
  remaining : Nat
  deriving DecidableEq, Repr

/-- Sequencer state, Table 4.1 (R63). Registers, predicates, events and bindings are tables; P0 is not stored and reads 1. -/
structure Sequencer where
  pc : Nat
  loops : List LoopEntry
  areg : List (Nat × Addr)
  creg : List (Nat × Word)
  pred : List (Nat × Bool)
  event : List (Nat × Nat)
  binding : List (Nat × Nat)
  ldb : Addr
  alarm : Nat
  job : Nat
  rank : Nat
  ncores : Nat
  deriving DecidableEq, Repr

/-- The alarm target that means disarmed: all ones (Table 4.1). -/
def alarmOff : Nat := 2 ^ 64 - 1

/-- A bank of an array (R166): 64-bit words, each with its parity bit (R180). The codes stand column by column, slice by slice, two words a
cell; the scales four words a column. A word that no fill has written yet is not listed. -/
structure DpaBank where
  codes : List (Nat × Bool)
  scales : List (Nat × Bool)
  deriving DecidableEq, Repr

/-- A DPA operation in the queue, with the values it took at issue (R83, R110): `tile` is what its fill has read, empty before the fill, and
`acts` the activations as they stood at issue. -/
structure DpaOp where
  index : Nat
  width : Nat
  bf16 : Bool
  aw : Nat
  ax : Nat
  ay : Nat
  m : Nat
  acc : Bool
  signal : Option Nat
  tile : List Byte
  acts : List Byte
  deriving DecidableEq, Repr

/-- A VRW operation in the queue, with the values it took at issue (R83, Table 5.8). -/
structure VrwOp where
  index : Nat
  op : Nat
  func : Nat
  fmt : Nat
  d : Nat
  a : Nat
  c : Nat
  b : Nat
  n : Nat
  cond : Nat
  bimm : Bool
  imm : Nat
  pdst : Nat
  mode : Bool
  src : Nat
  dst : Nat
  signal : Option Nat
  deriving DecidableEq, Repr

/-- One level of a descriptor table (Table 6.2). -/
structure Level where
  count : Nat
  dim : Nat
  src : Int
  dst : Int
  plist : Int
  deriving DecidableEq, Repr

/-- A descriptor table as the SQ read it (R127, Table 6.1). -/
structure Descriptor where
  run : Nat
  nlev : Nat
  tileLevel : Nat
  elide : Bool
  plistDst : Bool
  nullZero : Bool
  plistLen : Nat
  plistSpan : Nat
  levels : List Level
  deriving DecidableEq, Repr

/-- What a mover operation does (R116). -/
inductive MoverKind where
  | movl
  | mfill (pattern : Nat)
  | movd (table : Descriptor) (list : Option (List Nat)) (tileEvent : Option Nat)
  deriving DecidableEq, Repr

/-- A beat sent to T2 or waiting for host data on its way there (R204): its number in the operation, whether its remote stores are out, the
requests that still lack a completion, and the data its remote loads brought, by chunk of the beat. -/
structure FarBeat where
  beat : Nat
  writing : Bool
  left : Nat
  data : List (Nat × List Byte)
  deriving DecidableEq, Repr

/-- A mover operation in its queue, with its progress (R91, R137): beats completed and beats sent (R204), tiles signalled, beats on T2, and
whether every write to T3 has been made and the read-back of R225 is out; `num` tells operations apart. -/
structure MoverOp where
  index : Nat
  kind : MoverKind
  dst : Nat
  src : Nat
  len : Nat
  beats : Nat
  tiles : Nat
  signal : Option Nat
  num : Nat := 0
  sent : Nat := 0
  far : List FarBeat := []
  readback : Bool := false
  deriving DecidableEq, Repr

/-- An outstanding fabric operation of a core (R119): its number in issue order, instruction index, how many of its packets
still lack a completion, whether one failed, whether it is a FENCE, its signal, and the packets a FENCE still holds with the scratch
address of each one's data. -/
structure FabOp where
  num : Nat
  index : Nat
  left : Nat
  failed : Bool
  fence : Bool
  signal : Option Nat
  held : List (Packet × Nat)
  deriving DecidableEq, Repr

/-- An XE or SE instruction in its engine (R121): opcode, function, block address and count taken at issue. -/
structure EngineOp where
  index : Nat
  op : Nat
  func : Nat
  blk : Nat
  n : Nat
  signal : Option Nat
  deriving DecidableEq, Repr

/-- A TCLAIM in hold (R109): operands taken when the hold began, and the old value once the claim port has applied it. -/
structure Claim where
  limit : Nat
  inc : Nat
  d : Nat
  p : Nat
  old : Option Nat
  deriving DecidableEq, Repr

/-- One core: its sequencer, engines and what its SQ is doing. `frozen` is set at a pre-emption point, `halted` after an
exception or a hardware fault, `ended` once END has issued and `partDone` once its part is over, `quiesced` while a UNIT_CTRL quiesce holds it; `tally` holds the
signals of R92; `dpaBad` and `vrwBad` keep an engine from writing results after a parity error (R180, R202); `live` and `shadow` are the
banks of the array, and `accs` its pass accumulators by physical column (R166). -/
structure Core where
  sq : Sequencer
  prog : List (Nat × IWord)
  progLen : Nat
  gscLatch : Nat
  dpa : List DpaOp
  live : DpaBank
  shadow : DpaBank
  accs : List (Nat × Nat)
  vrw : List VrwOp
  mover0 : List MoverOp
  mover1 : List MoverOp
  fab : List FabOp
  engine : List EngineOp
  claim : Option Claim
  predPending : List Nat
  frozen : Bool
  halted : Bool
  ended : Bool
  partDone : Bool
  quiesced : Bool
  tally : List (Nat × Nat)
  dpaBad : Bool
  vrwBad : Bool
  fracDpa : Nat
  fracVrw : Nat
  fracMover : Nat
  deriving DecidableEq, Repr

/-- A sequencer holding no job. -/
def Sequencer.reset : Sequencer :=
  ⟨0, [], [], [], [], [], [], 0, alarmOff, 0xFFFF, 0, 0⟩

/-- A core with nothing in it. -/
def Core.reset : Core :=
  { sq := Sequencer.reset, prog := [], progLen := 0, gscLatch := 0, dpa := [], live := ⟨[], []⟩, shadow := ⟨[], []⟩, accs := [], vrw := [], mover0 := [], mover1 := [],
    fab := [], engine := [], claim := none, predPending := [], frozen := false, halted := false, ended := false, partDone := false,
    quiesced := false, tally := [], dpaBad := false, vrwBad := false, fracDpa := 0, fracVrw := 0, fracMover := 0 }

/-- A core signal on its way (R107): target core, job and event. -/
structure CoreSignal where
  core : Nat
  job : Nat
  event : Nat
  deriving DecidableEq, Repr

/-! ### Jobs and the cloak (chapter 15) -/

/-- A window of a launch block (Table 4.4). -/
structure Window where
  base : Nat
  pages : Nat
  rights : Nat
  deriving DecidableEq, Repr

/-- A command an SE slice has taken (R305): its tag and opcode, the completion entry reserved, and how often the completion
queue had been disabled when it was reserved. -/
structure Taken where
  tag : Nat
  op : Nat
  cplq : Nat
  cplPos : Nat
  disables : Nat
  deriving DecidableEq, Repr

/-- The state field of a job table entry (Table 15.1); a job that is not active is not listed. -/
inductive JobState where
  | waiting
  | resident
  | suspended
  | held
  deriving DecidableEq, Repr

/-- An active job: its launch block, the cores it counted, its table entry, charges, barrier rounds and fault (R70 to R74,
R352 to R360). `head` holds the first four bytes of its table entry as read; `vNum ÷ vDen` is the launch value of its virtual charge and `steps` what has been charged since; `since` is the
moment the residency or cloak time was last added up; `tallies` holds signals for cores that have not taken up the job yet;
`fault` holds the detail of the completion record once the job is faulted. -/
structure Job where
  id : Nat
  state : JobState
  cores : List Nat
  length : Nat
  entry : Nat
  program : Nat
  init : Nat
  ldb : Nat
  bind : Nat
  tile : Nat
  clusterSram : Bool
  windows : List Window
  taken : Taken
  head : Nat
  prio : Nat
  weight : Nat
  kind : Nat
  vNum : Nat
  vDen : Nat
  steps : Nat
  dpaKs : Nat
  vrwKs : Nat
  moverKs : Nat
  coreNs : Nat
  cloakNs : Nat
  preempts : Nat
  slot : Nat
  since : Nat
  placedAt : Nat
  quantumOver : Bool
  arrived : List Nat
  barrier : Nat
  tallies : List (Nat × Nat)
  fault : Option Nat
  deriving DecidableEq, Repr

/-- The save image of one core in one cloak slot (Tables 15.2 and 15.3); its scratch lies in the cloak area of T1. -/
structure CloakImage where
  job : Nat
  core : Core
  quiesced : Bool
  deriving DecidableEq, Repr

/-- The job whose SRAM of a cluster one cloak slot holds (Table 15.2); the bytes lie in the cloak area of T1. -/
structure CloakSram where
  job : Nat
  deriving DecidableEq, Repr

/-- The phases of a switch on one C-die: the outgoing cores drain, their state is saved, the incoming scratch is made ready, and
the die is done. -/
inductive SwitchPhase where
  | drain
  | save
  | ready
  | done
  deriving DecidableEq, Repr

/-- A switch in progress: the job being placed (none for a suspend), the jobs that give way with their slots, whether they become
held, the phase each C-die has reached (R365), and the SEQ_JOBCTL action it answers. -/
structure Switch where
  incoming : Option Nat
  outgoing : List (Nat × Nat)
  held : Bool
  phase : List (Nat × SwitchPhase)
  deriving DecidableEq, Repr

/-- A scheduling event that waits for a switch to complete (R358). -/
inductive SchedEvent where
  | plain
  | control (op : Nat) (job : Nat)
  deriving DecidableEq, Repr

/-! ### KV and serving (chapters 12 and 13) -/

/-- A KV command held at the ledger until its sequence is unpinned (R285). -/
structure HeldCmd where
  handle : Nat
  op : Nat
  arg : Nat
  taken : Option Taken
  deriving DecidableEq, Repr

/-- A restore in progress (R293): the records that copied its slots, their table positions, the replies that have come, each a member's
endpoint and a position, and who asked. -/
structure Restoring where
  ledger : Nat
  handle : Nat
  records : List Nat
  positions : List Nat
  replied : List (Nat × Nat)
  taken : Option Taken
  deriving DecidableEq, Repr

/-- What the former keeps of an admitted sequence beside its KV record (R308, Table 13.6). `recent` holds the tokens streamed
last, newest first; `admission` is the ADMIT command of a hold sequence until it completes; `cancel` a CANCEL that waits for the
batch end. -/
structure SeqState where
  ledger : Nat
  stream : Nat
  patch : Option Nat
  specEn : Bool
  hold : Bool
  prompt : Nat
  maxLen : Nat
  maxTime : Nat
  temp : Nat
  topP : Nat
  topK : Nat
  draftMax : Nat
  seed : Nat
  stopTok : List Nat
  stopSeq : List (List Nat)
  pending : Nat
  recent : List Nat
  proposals : List (Nat × Nat)
  admission : Option Taken
  cancel : Option Taken
  ended : Bool
  streamed : Nat
  prefill : Nat
  proposed : Nat
  accepted : Nat
  batches : Nat
  deferrals : Nat
  admitGsc : Nat
  firstGsc : Nat
  deriving DecidableEq, Repr

/-- A batch in flight at the former: its descriptor, the members that have reported, the results the reporter gave, and whether a
member lacked the generation (R316). -/
structure Flight where
  batch : Batch
  reported : List Nat
  results : List ResultRow
  missing : Bool
  deriving DecidableEq, Repr

/-- The sampling of one row: its function (0 target, 1 draft) and step, the slices read here, the partials held, and the token
once found: `some none` is a row without a token. -/
structure RowSample where
  batch : Nat
  func : Nat
  row : Nat
  step : Nat
  slices : List (Nat × List Nat)
  partials : List (Nat × Partial)
  token : Option (Option Nat)
  deriving DecidableEq, Repr

/-- An end report of which some items are here (R424): its batch and sender, and the proposals and result rows held, each with its place. -/
structure ReportPart where
  batch : Nat
  source : Nat
  proposals : List (Nat × Nat × Nat × Nat)
  results : List (Nat × ResultRow)
  deriving DecidableEq, Repr

/-- Serving of one ledger on this module (R313 to R315): descriptors applied and not yet done, in batch order, with the numbers of those
whose generation is missing here; the cores that have issued SEDONE, once for each batch they are through with from the first one on; its
samples; at the former the batches in flight; descriptors that arrived ahead of their turn or of their ledger records; the GSC of the last
formation; the sequences pinned by an applied record, each with its batch (R284); partials that came before their descriptor, each with
batch, row and sender; and the partials of which one half is here, each with batch, row, sender and half, and the end reports of which some items
are (R424). -/
structure Serving where
  applied : List Batch
  missing : List Nat
  done : List Nat
  samples : List RowSample
  flights : List Flight
  early : List Batch
  lastFormed : Option Nat
  formed : List (Nat × Nat)
  earlyParts : List (Nat × Nat × Nat × Partial)
  halves : List (Nat × Nat × Nat × Nat × Partial)
  reports : List ReportPart
  deriving DecidableEq, Repr

/-- A ledger that serves nothing. -/
def Serving.empty : Serving := ⟨[], [], [], [], [], [], none, [], [], [], []⟩

/-! ### Expert exchange (chapter 14) -/

/-- A source of a phase on this module (R335): its index, the row indices of its block, its return area, the (row, choice, expert)
triples that were sent, the (row, choice) pairs whose return slots are written, and the end markers that returned, by expert, with the
rows each counts. -/
structure XeSource where
  index : Nat
  rows : List Nat
  ret : Nat
  sent : List (Nat × Nat × Nat)
  written : List (Nat × Nat)
  markers : List (Nat × Nat)
  deriving DecidableEq, Repr

/-- A slot of a local expert that received a row: where it came from. -/
structure XeSlot where
  lexp : Nat
  slot : Nat
  src : Nat
  endpoint : Nat
  row : Nat
  choice : Nat
  returned : Bool
  deriving DecidableEq, Repr

/-- A dispatch end marker held by a host: local expert, source index, rows it counts, and the source's endpoint. -/
structure XeMarker where
  lexp : Nat
  src : Nat
  rows : Nat
  endpoint : Nat
  deriving DecidableEq, Repr

/-- A dispatch end marker that waits until every row of its source to that host has been put (R341). -/
structure XeEnd where
  endpoint : Nat
  mark : ExchangeMark
  deriving DecidableEq, Repr

/-- One open phase of a context on this module (R334). `closed` holds the local experts closed, each with the core and the index of the
XRET that closed it; `clash` is set where two endpoints used one source index: the phase then cannot complete (R335). -/
structure XePhase where
  phase : Nat
  sources : List XeSource
  slots : List XeSlot
  markers : List XeMarker
  closed : List (Nat × Nat × Nat)
  ends : List XeEnd
  clash : Bool
  dispatched : Bool
  returned : Bool
  dispatchEvent : Option Nat
  returnEvent : Option Nat
  deriving DecidableEq, Repr

/-- A context: its open phases, the halves signalled so far (2 per phase), and when it last closed. -/
structure XeContext where
  phases : List XePhase
  signalled : Nat
  closedAt : Option Nat
  deriving DecidableEq, Repr

/-- A context that has never been opened. -/
def XeContext.empty : XeContext := ⟨[], 0, none⟩

/-! ### The weight store (chapter 11) -/

/-- A directory entry (R243): what the WRITE or RECV gave, its first group, the time of its last digest check, and the bad flag. -/
structure Shard where
  id : Nat
  kind : Nat
  length : Nat
  gen : Nat
  patch : Nat
  version : Nat
  digest : List Byte
  group : Nat
  checked : Nat
  bad : Bool
  deriving DecidableEq, Repr

/-- An NVS command in progress (R246): `key` counts the commands taken, its fields (Table 11.2), whether it has started, and its result once
decided (status and detail). `index` is none for a load that the NVS issued itself (R262). WRITE and RECV keep the first group of the run
they program; RECV keeps the chunks received and the repair rounds; PLOAD keeps its number, the slots it chose and the members that
replied. -/
structure NvCmd where
  key : Nat
  index : Option Nat
  op : Nat
  count : Nat
  kind : Nat
  shard : Nat
  length : Nat
  addr : Nat
  gen : Nat
  group : Nat
  patch : Nat
  version : Nat
  digest : List Byte
  pairs : List (Nat × Nat)
  started : Bool
  result : Option (Nat × Nat)
  run : Option Nat
  chunks : List Nat
  rounds : Nat
  number : Nat
  slots : List Nat
  replied : List Nat
  deriving DecidableEq, Repr

/-- A record of the translation-layer journal, 64 bytes on the NAND (R240): what it changes. A block is retired with the spare block that
takes its place where it held a system region. -/
inductive NvRecord where
  | allocate (logical block : Nat)
  | relocate (logical block : Nat)
  | commit (shard : Shard)
  | delete (id : Nat)
  | retire (block : Nat) (by' : Option Nat)
  | close
  deriving DecidableEq, Repr

/-- What a checkpoint holds (R240): the directory, the entry of each logical block that names a physical one, the retired blocks, and the
spare blocks that stand in for retired blocks of the system regions. A logical block is group × 8 + channel, a physical block channel ×
32768 + number. -/
structure NvImage where
  dir : List Shard
  map : List (Nat × Nat)
  retired : List (Nat × Bool)
  stands : List (Nat × Nat)
  deriving DecidableEq, Repr

/-- The NV store and its controller. On the NAND: the data units as programmed, by physical block × 4096 + unit, an empty one where the data
is lost (R234, R235); the last complete checkpoint, the journal records after it, and the journal segments opened; erase counts and page
reads of the physical blocks. In the controller: the translation state that checkpoint and journal lead to; old blocks to be erased, each
with the commands that may still read it (R240); commands in progress and how many have been taken; loads completed into generation slots
since each entered state 1 (slot, shard and T1 offset); the last install stamp and PLOAD number; Brilo's time of the last wear levelling of
each channel plus one; a count of digest checks, whose values the directory keeps as times (R243); and measurement block 5 as of the last
change (R270). -/
structure Nvs where
  units : List (Nat × List Byte)
  image : NvImage
  records : List NvRecord
  segments : Nat
  erases : List (Nat × Nat)
  reads : List (Nat × Nat)
  cur : NvImage
  old : List (Nat × List Nat)
  cmds : List NvCmd
  taken : Nat
  loaded : List (Nat × Nat × Nat)
  stamp : Nat
  number : Nat
  levelled : List (Nat × Nat)
  checks : Nat
  block5 : List Byte
  deriving DecidableEq, Repr

/-- A checkpoint of an empty store. -/
def NvImage.empty : NvImage := ⟨[], [], [], []⟩

/-- An empty store. -/
def Nvs.reset : Nvs := ⟨[], NvImage.empty, [], 0, [], [], NvImage.empty, [], [], 0, [], 0, 0, [], 0, List.replicate 32 0⟩

/-! ### The fabric (chapters 16 and 17) -/

/-- What the module sends outward, in order: flits with their port and lane, message credits to a sender's core, writes to host addresses
outside the T3 window, messages of Brilo by binding, completions of host reads, poisoned or not, replays of a die-to-die beat, and reads of
host memory. -/
inductive Output where
  | flit (port lane : Nat) (bytes : List Byte)
  | credit (dst core key : Nat)
  | host (addr : Nat) (bytes : List Byte)
  | message (binding dst : Nat) (body : List Nat)
  | readData (bytes : List Byte) (poisoned : Bool)
  | dieReplay (link dir place : Nat)
  | hostRead (addr bytes : Nat)
  deriving DecidableEq, Repr

/-- A data flit in the replay buffer of a port (R397): its link sequence number, the packets it carries bytes of, and its 136 bytes. -/
structure TxFlit where
  seq : Nat
  packets : List Packet
  bytes : List Byte
  deriving DecidableEq, Repr

/-- The link of one port (R395 to R398): next sequence number to send, flits not acknowledged, credits of each channel in flits, the
credit counts last applied, packets that wait for credit; next sequence number to receive, discarding until the replay arrives, data
flits accepted since the last link-control flit, freed counts; consecutive failed replays (R374); the lane the next flit is dealt to; the
bytes of a packet that has begun to arrive; the packets that the last data flit completed (R395); and the channel 0 flits accepted whose credit
is withheld (R417). -/
structure Link where
  txNext : Nat
  unacked : List TxFlit
  credits : List Nat
  applied : List Nat
  waiting : List Packet
  rxNext : Nat
  rxStall : Bool
  sinceAck : Nat
  freed : List Nat
  fails : Nat
  lane : Nat
  rxPart : List Byte
  rxPackets : List (List Byte)
  withheld : Nat
  deriving DecidableEq, Repr

/-- The link of a port as it enters an up state (R398, Table 17.5). -/
def Link.up : Link := ⟨0, [], [256, 256, 64, 128, 32], [0, 0, 0, 0, 0], [], 0, false, 0, [0, 0, 0, 0, 0], 0, 0, [], [], 0⟩

/-- Who waits for a request: a fabric operation of a core by its number, a bulk descriptor by its number, an exchange instruction of a core
by its index, a beat of a mover operation with the chunk of it that the request begins at, a park or restore copy with the program address
it reads or writes, or another engine. -/
inductive Owner where
  | core (c num : Nat)
  | bulk (num : Nat)
  | exchange (c index context phase : Nat) (src : Option Nat)
  | mover (c m num beat chunk : Nat)
  | copy (a : Nat)
  | engine
  deriving DecidableEq, Repr

/-- A request in the source's response tracker (R413): its packet and plane, whether an accepted response has come, attempts made,
planes that answered unreachable, how many members of a group have answered, whether one of them failed, the place its data goes, and
whether the 8-byte result of an atomic is expected. -/
structure Request where
  packet : Packet
  plane : Nat
  accepted : Bool
  attempts : Nat
  unreachable : List Nat
  answered : Nat
  failed : Bool
  owner : Owner
  dest : Nat
  atomic : Bool
  deriving DecidableEq, Repr

/-- A message in a queue (R409): the T1 offset of its slot, sender endpoint and core, lines, and the GSC at arrival. -/
structure Message where
  place : Nat
  ep : Nat
  core : Nat
  lines : Nat
  gsc : Nat
  key : Nat
  deriving DecidableEq, Repr

/-- A message queue region: its slots are used in turn, and `next` is the one that has been free longest; its messages, oldest first
(R409). -/
structure MsgQueue where
  next : Nat
  msgs : List Message
  deriving DecidableEq, Repr

/-- A queue with every slot free. -/
def MsgQueue.empty : MsgQueue := ⟨0, []⟩

/-- A lull packet sent to the arbiter in this window (R500): its seq, its age, its payload fields, and the planes that answered unreachable. -/
structure LullSent where
  seq : Nat
  age : Nat
  body : List Byte
  unreachable : List Nat
  deriving DecidableEq, Repr

/-- A teardown under way (R421). -/
structure Teardown where
  job : Nat
  source : Nat
  number : Nat
  reason : Nat
  deriving DecidableEq, Repr

/-- What this target remembers of a source (R415): the sequence numbers taken in its window and the newest of them, and the old values
of its last 64 atomics. -/
structure Seen where
  newest : Option Nat
  seqs : List Nat
  atomics : List (Nat × Nat)
  deriving DecidableEq, Repr

/-- Nothing taken yet. -/
def Seen.empty : Seen := ⟨none, [], []⟩

/-- What a key opens: a FAB_RGN entry or a lent range. `base` is a T1 offset; `srcCount` 0 allows any source; the depth and the core are
those of a message queue (R404, R405). -/
structure Region where
  index : Nat
  base : Nat
  length : Nat
  job : Nat
  rights : Nat
  queue : Bool
  srcFirst : Nat
  srcCount : Nat
  lent : Bool
  depth : Nat
  core : Nat
  deriving DecidableEq, Repr

/-- A request in the target's ingress (R414, R417): its type, the region that its key opened when it was taken, its payload, whether accepted
has been sent, and whether it has been answered; its entry is freed in age order. -/
structure Ingress where
  ptype : Nat
  head : RequestHead
  region : Region
  data : List Byte
  accepted : Bool
  answered : Bool
  deriving DecidableEq, Repr

/-- An item that arrives in several packets (R424): its sender, packet type and name, and the 64-byte lines it holds so far. -/
structure ItemPart where
  source : Nat
  ptype : Nat
  name : List Nat
  lines : List (Nat × List Byte)
  deriving DecidableEq, Repr

/-- A bulk descriptor in progress (R419): its number and fields, packets left, bytes completed and the worst status so far. -/
structure Bulk where
  num : Nat
  op : Nat
  ep : Nat
  loc : Nat
  offset : Nat
  length : Nat
  key : Nat
  job : Nat
  tag : Nat
  left : Nat
  done : Nat
  status : Nat
  deriving DecidableEq, Repr

/-- The timing exchanges of the GSC (R388 to R392): the open exchange of each plane (number, grandmaster, t1, t2, t3 and the Sync's
correction), the latest offset of each plane with the time it came, medians within ±20 ns in a row, the time of the last median and of
the entry to holdover, the grandmasters that have answered with the time of the last answer, the number of the next exchange a grandmaster sends, the correction
still to be slewed, and the learned rate in ns per 250 µs. -/
structure GscSync where
  exchanges : List (Nat × List Int)
  offsets : List (Nat × Int × Nat)
  streak : Nat
  lastMedian : Option Nat
  holdoverAt : Nat
  masters : List (Nat × Nat)
  number : Nat
  slew : Int
  rate : Int
  deriving DecidableEq, Repr

/-- No exchange yet. -/
def GscSync.reset : GscSync := ⟨[], [], 0, none, 0, [], 0, 0, 0⟩

/-! ### Brilo (chapter 19) -/

/-- A firmware image in the NOR (R463, Table 19.9): fields of its header, and whether its magic, length, reserved fields, key hash,
signature and digest hold; a slot that is erased or being written does not. -/
structure Image where
  version : Nat
  svn : Nat
  key : Nat
  digest : List Byte
  sound : Bool
  deriving DecidableEq, Repr

/-- A slot without an image. -/
def Image.none : Image := ⟨0, 0, 0, [], false⟩

/-- A TEST entry (R490, Table 3.12). -/
structure TestEntry where
  result : Nat
  quick : Bool
  addr : Nat
  bit : Nat
  deriving DecidableEq, Repr

/-- A REPAIR entry (Table 3.12). -/
structure UnitRepair where
  rows : Nat
  lanes : Nat
  cols : Nat
  spareRow : Bool
  entries : Nat
  deriving DecidableEq, Repr

/-- No repair. -/
def UnitRepair.none : UnitRepair := ⟨0, 0, 0, false, 0⟩

/-- What the persistence area and the rest of the NOR keep (R453, R464, R479, R487, R488): images A and B, the preferred image with its
trial state and count; the start-attempt counter, the force-Apron mark, cause and stage of the last failed attempt and whether it is
newer than the last completed start; the slice map, the results of the last test of each slice (result, faults, ms), the slices tested
since the factory, the slices checked only quickly, the repair entries, the first entry of each slot's last test, the slots in which that
test found a fault, the retire map; the health, TEST and REPAIR entries of the last completed start (R62); and TST_CFG (total and slice
budget). -/
structure Persist where
  imageA : Image
  imageB : Image
  preferred : Nat
  trial : Bool
  trials : Nat
  attempts : Nat
  forceApron : Bool
  failCause : Nat
  failStage : Nat
  failed : Bool
  sliceMap : List Nat
  results : List (Nat × Nat × Nat × Nat)
  tested : List Nat
  quick : List Nat
  entries : List RepairEntry
  firsts : List RepairEntry
  found : List Nat
  lastHealth : List (Nat × Nat)
  lastTests : List (Nat × TestEntry)
  lastRepairs : List (Nat × UnitRepair)
  retireMap : List Nat
  totalS : Nat
  sliceMs : Nat
  deriving DecidableEq, Repr

/-- As the model takes it to leave the factory: image A sound and committed, every slice tested without a fault. -/
def Persist.factory : Persist :=
  { imageA := ⟨0, 0, 0, [], true⟩, imageB := Image.none, preferred := 0, trial := false, trials := 0, attempts := 0, forceApron := false,
    failCause := 0, failStage := 0, failed := false, sliceMap := List.range 34, results := [], tested := [], quick := [], entries := [],
    firsts := [], found := [], lastHealth := [], lastTests := [], lastRepairs := [], retireMap := [], totalS := 40, sliceMs := 250 }

/-- The two persistence copies in the NOR (R453): the later sequence number, the copy that carries it, the other one where it is valid, and
whether a write waits out write inhibit. The images lie outside the copies: those of `current` and `other` follow every image write. -/
structure PersistCopies where
  seq : Nat
  current : Persist
  other : Option Persist
  due : Bool
  deriving DecidableEq, Repr

/-- The copies as the model takes them to leave the factory. -/
def PersistCopies.factory : PersistCopies := ⟨0, Persist.factory, some Persist.factory, false⟩

/-- A write goes to the older copy, which then carries the next sequence number (R453). -/
def PersistCopies.write (c : PersistCopies) (p : Persist) : PersistCopies := ⟨(c.seq + 1) % 2 ^ 32, p, some c.current, false⟩

/-- What the copies hold after a loss of standby power (R453): a write it interrupted leaves the other copy in force, one that waited is
lost. -/
def PersistCopies.afterLoss (c : PersistCopies) (torn : Bool) : PersistCopies :=
  match torn, c.other with
  | true, some p => ⟨(c.seq + 2 ^ 32 - 1) % 2 ^ 32, p, none, false⟩
  | _, _ => { c with due := false }

/-- An SPDM session (R462): its binding, its requester, and whether FINISH has loaded its keys. -/
structure Session where
  binding : Nat
  requester : Nat
  keys : Bool
  deriving DecidableEq, Repr

/-- A firmware update (R466): the update agent, whether the component table has passed, the slot being written once UpdateComponent has
come, its length, the bytes received, and whether they have verified. -/
structure Update where
  binding : Nat
  agent : Nat
  passed : Bool
  slot : Option Nat
  length : Nat
  data : List Byte
  verified : Bool
  deriving DecidableEq, Repr

/-- The firmware state of the management core (chapter 19): MCTP endpoint identifiers by binding, TID, sensors switched off with the
state given, bindings answered on and whether sensors were swept and the lease applied since the core's start, sessions, requesters whose
SPDM connection is negotiated, whether the identity key and a started SPDM responder are there, an update, a restart that waits for a
start or shutdown to end, and the restarts done. -/
structure Brilo where
  eids : List (Nat × Nat)
  tid : Nat
  sensorsOff : List (Nat × Nat)
  sessions : List Session
  negotiated : List (Nat × Nat × Nat)
  identity : Bool
  busy : Bool
  update : Option Update
  restartDue : Bool
  deriving DecidableEq, Repr

/-- Brilo before its first message. -/
def Brilo.reset : Brilo := ⟨[], 0, [], [], [], false, false, none, false⟩

/-! ### Start, shutdown and self-test (chapter 20) -/

/-- An orderly shutdown in progress (R483 to R487): its phase, whether the test is skipped, the slice whose turn it is, whether its tests
have ended and with what result, faults found and ms, and whether no further slice runs. -/
structure Shutdown where
  phase : Nat
  skip : Bool
  slice : Nat
  ended : Option (Nat × List RepairEntry × Nat)
  stopped : Bool
  deriving DecidableEq, Repr

/-! ### Tailwind (chapter 18) -/

/-- A tailwind grant, held or given: its watts and its expiry. -/
structure Grant where
  watts : Nat
  expiry : Nat
  deriving DecidableEq, Repr

/-- A report of the last tailwind window: endpoint, slack and eligibility (R439). -/
structure TwReport where
  ep : Nat
  slack : Nat
  eligible : Bool
  deriving DecidableEq, Repr

/-! ### The whole state -/

/-- The state of the module, and the queue of the commands that wait. -/
structure State where
  /-- The commands that wait, first in, first out. -/
  pending : List Instr
  /-- The BAR0 fields: the value of each field instance under its `Field.key`, where it differs from the reset value. -/
  regs : List (Nat × Nat)
  /-- The byte stores. -/
  mem : Memory
  /-- What the DRAM stacks hold, by T1 offset: `mem.t1` but for the dirty lines of the staging caches (R210, R215). -/
  stack : List Host.Cell
  /-- The poisoned 64-byte chunks of T1, by chunk number (R217). -/
  poison : List (Nat × Bool)
  /-- The staging-cache sets, by M-die × 2^14 + bank × 2^11 + set (R211). -/
  cache : List (Nat × CacheSet)
  /-- The lines whose write-back a flush has begun: set key and line (R216). -/
  flushing : List (Nat × Nat)
  /-- The learned beat wait of each tier in ns (R228), where it differs from its start value. -/
  avg : List (Nat × Nat)
  /-- Core rail in mV (R31). -/
  coreMv : Nat
  /-- Uncore rail in mV (R28). -/
  uncoreMv : Nat
  /-- Natural rate of the DPA ring at the present rail, junction and age in 0.01 Gstep/s (R33 to R35). -/
  naturalRate : Nat
  /-- Rate of the uncore rings against their ratio to the DPA ring, in 0.1 % from 980 to 1,020 (R28). -/
  uncoreRatio : Nat
  /-- The raise of the core rail in mV that the last pacing window's slip asked for (R39). -/
  slipMv : Nat
  /-- An accepted change of mode and rate still in progress (R42). -/
  rateChange : Option (Nat × Nat)
  /-- The Breeze rate in force but for limits, in 0.01 Gstep/s: the declared rate, or the ceiling that caps it (R41). -/
  declRate : Nat
  /-- The pacing of the DPA ring in 0.01 Gstep/s: the Gust ceiling or `declRate`, lowered by a limit (R35, R36, R40). -/
  paceRate : Nat
  /-- The beat withheld, whose replay is awaited, by link × 2 + direction: one more than its place in the sender's 32-beat buffer (R32). -/
  linkHeld : List (Nat × Nat)
  /-- Consecutive failed replays of that beat, by link × 2 + direction (R32). -/
  linkFails : List (Nat × Nat)
  /-- Link errors counted, by link × 2 + direction (R32). -/
  linkErrors : List (Nat × Nat)
  /-- Links declared failed, by link × 2 + direction (R32). -/
  linkDown : List (Nat × Bool)
  /-- UNIT_CTRL writes still taking effect, oldest first (R53). -/
  ctrlQueue : List UnitWrite
  /-- The software groups (R58). -/
  groups : List (Nat × GroupDef)
  /-- The cores, by core number. -/
  cores : List (Nat × Core)
  /-- Core signals in flight (R107). -/
  signals : List CoreSignal
  /-- Accepted doorbells of command queues not yet exhausted: queue and new tail position, in order of arrival (R305). -/
  doorbells : List (Nat × Nat)
  /-- How often each queue has been disabled: a completion entry reserved before is dropped (R305). -/
  queueDisables : List (Nat × Nat)
  /-- Entries of each stream queue reserved and not yet written (R308, R327). -/
  streamHeld : List (Nat × Nat)
  /-- The admitted sequences of this former, by handle (R308). -/
  seqs : List (Nat × SeqState)
  /-- Handles whose sequence has ended since their last admission (R329). -/
  ended : List (Nat × Bool)
  /-- KV commands held until their sequence is unpinned, in order of arrival (R285). -/
  heldCmds : List HeldCmd
  /-- Restores that wait for member replies (R293). -/
  restoring : List Restoring
  /-- Serving of each ledger on this module. -/
  serving : List (Nat × Serving)
  /-- Ledger records that wait for a missing one: ledger and arrival time of the first (R282). -/
  lastRecordAt : List (Nat × Nat)
  /-- Ledger records received ahead of their number, oldest first (R282). -/
  earlyRecords : List (LedgerRecord × CopyData)
  /-- Park slots in use (R281). -/
  parkUsed : List (Nat × Bool)
  /-- Table blocks in use (R281). -/
  tabUsed : List (Nat × Bool)
  /-- The exchange contexts. -/
  xe : List (Nat × XeContext)
  /-- The active jobs, in the order of their launches. -/
  jobs : List Job
  /-- Cloak images of cores, by core × 2 + slot (R361). -/
  images : List (Nat × CloakImage)
  /-- Cloak images of cluster SRAM, by cluster × 2 + slot (R361). -/
  sramImages : List (Nat × CloakSram)
  /-- A state of class M (R493): no core issues; only a module or power-on reset ends it. -/
  stopped : Bool
  /-- The job control action in progress: its op and its job (Table 15.5). -/
  control : Option (Nat × Nat)
  /-- Nanoseconds each slot has spent in run state 2 (Table 3.8), up to its last change of run state. -/
  busyNs : List (Nat × Nat)
  /-- One more than the moment at which a slot entered run state 2. -/
  ranSince : List (Nat × Nat)
  /-- PWRGD is asserted (R475). -/
  pwrgd : Bool
  /-- FAULT_N is asserted (R475, R496). -/
  faultPin : Bool
  /-- THERMTRIP_N is asserted (R445). -/
  thermtrip : Bool
  /-- The switches in progress (R365). -/
  switches : List Switch
  /-- Scheduling events held until the switch completes (R358). -/
  schedWait : List SchedEvent
  /-- The lull table of the current window (R497). -/
  lull : List LullEntry
  /-- A full lull table has been reported in this window (R497). -/
  lullFull : Bool
  /-- The arbiter's table of the current window (R498). -/
  arbiter : List ArbiterEntry
  /-- Tallies of ended windows that are still to be sent, with their window (R499). -/
  lullEnded : List (Nat × LullEntry)
  /-- The arbiter's table of the window that ended last, until its tallies are sent (R499). -/
  arbiterEnded : List ArbiterEntry
  /-- The window whose tallies the arbiter still takes (R499). -/
  arbiterWindow : Option Nat
  /-- The event log (R455). -/
  log : EventLog
  /-- Brilo's timer in ns since standby power came up (R28, R497). -/
  uptime : Nat
  /-- The PCI Express link is up (R540). -/
  pcieUp : Bool
  /-- Negotiated PCI Express width in lanes; 0 while down (Table 3.14). -/
  pcieWidth : Nat
  /-- PCI Express link speed code; 0 while down (Table 3.14). -/
  pcieSpeed : Nat
  /-- The function is in D3hot and answers configuration requests only (R510). -/
  d3hot : Bool
  /-- PERST_N is asserted (R473). -/
  perst : Bool
  /-- The management core is running and answers; its restart clears it (R467). -/
  briloUp : Bool
  /-- Binding and endpoint that SetEventReceiver has named (R461). -/
  receiver : Option (Nat × Nat)
  /-- The links of the ports (R395 to R398). -/
  links : List (Nat × Link)
  /-- The source's response tracker, oldest first (R413). -/
  tracker : List Request
  /-- Requests that wait until their endpoint has fewer than 1,024 outstanding, with their owner and the place of their data, oldest first
  (R403). -/
  heldRequests : List (Packet × Owner × Nat)
  /-- The age that the next packet the FU accepts takes (R401). -/
  nextAge : Nat
  /-- The next tracker slot number. -/
  nextTag : Nat
  /-- Next seq toward each endpoint, and toward each group at 2^17 + group (R415). -/
  seqOut : List (Nat × Nat)
  /-- What this target remembers of each source endpoint (R415). -/
  seen : List (Nat × Seen)
  /-- Items of which some lines have arrived (R424). -/
  parts : List ItemPart
  /-- Requests taken and not yet applied (R414). -/
  ingress : List Ingress
  /-- The messages of each message queue region, oldest first (R409). -/
  queuesIn : List (Nat × MsgQueue)
  /-- Jobs torn down on this module since their last launch (R421). -/
  torn : List (Nat × Bool)
  /-- The teardowns under way (R421). -/
  tearing : List Teardown
  /-- One more than the moment of the last response from each destination (R413). -/
  heard : List (Nat × Nat)
  /-- The lull packets sent to the arbiter in this window (R500). -/
  lullSent : List LullSent
  /-- The latched high word of FAB_GSC (R387). -/
  gscLatch : Option Nat
  /-- Bulk descriptors in progress, oldest first (R419). -/
  bulks : List Bulk
  /-- The number of the next bulk descriptor taken. -/
  bulkNext : Nat
  /-- The number of the next fabric or mover operation issued. -/
  fabNext : Nat
  /-- The timing exchanges (R388 to R392). -/
  gscSync : GscSync
  /-- The NV store and its controller (chapter 11). -/
  nvs : Nvs
  /-- The length in ms of the lull window in force: a change of FAB_LULLWIN.window_ms waits for the boundary (R509). -/
  lullMs : Nat
  /-- The lasers are on (R430, R445). -/
  lasers : Bool
  /-- A thermal trip is latched (R445, R471). -/
  trip : Bool
  /-- When the lease in force was received (R434). -/
  leaseAt : Nat
  /-- The tailwind grants this module holds (R441). -/
  grantsHeld : List Grant
  /-- The tailwind grants this module has given (R441). -/
  grantsGiven : List Grant
  /-- The window the tailwind reports held belong to; none with no history (R438, R440). -/
  twWindow : Option Nat
  /-- The tailwind reports of that window (R439). -/
  twReports : List TwReport
  /-- GSC of the emergency record of a write inhibit that has not cleared: a brown-out to record at the next start (R457, R493). -/
  emergency : Option Nat
  /-- The persistence area as Brilo works with it, and the images in the NOR. -/
  persist : Persist
  /-- The two persistence copies in the NOR. -/
  copies : PersistCopies
  /-- The firmware state of the management core. -/
  brilo : Brilo
  /-- The fused rollback counter (R463). -/
  counter : Nat
  /-- Firmware key hashes whose revoke bit is fused (R463). -/
  revoked : List Nat
  /-- MGT_MBREQ, by byte (Table 19.14). -/
  mbReq : List Host.Cell
  /-- MGT_MBRSP, by byte. -/
  mbRsp : List Host.Cell
  /-- MGT_LOGDATA, the record fetched (Table 19.13). -/
  logData : List Byte
  /-- The module AES key is in the NVS key registers (R468). -/
  nvsKey : Bool
  /-- The PLLs are locked: the GSC runs (R474). -/
  clocks : Bool
  /-- The attempt counter the start attempt in progress found (R480). -/
  attemptFound : Option Nat
  /-- The start attempt has failed: another follows (true), or the module stays at the stage (false) (R480, R482). -/
  attemptEnded : Option Bool
  /-- READY is asserted (R475). -/
  readyPin : Bool
  /-- Stage 2 waits until every diode reads below 90 °C (R471). -/
  waitCool : Bool
  /-- The faults of the factory test, in the fuses (R182, R200, R489). -/
  fused : List RepairEntry
  /-- MRESET_N is held low (R470). -/
  mreset : Bool
  /-- The slot strap 2 × SLOT1 + SLOT0, as sampled when the standby rail last came up (R526, Table 23.4). -/
  strap : Nat
  /-- The orderly shutdown in progress or done (R483). -/
  shutdown : Option Shutdown
  /-- The scan paths are enabled (R485). -/
  scan : Bool
  /-- The TEST entries as published (R490). -/
  tests : List (Nat × TestEntry)
  /-- The REPAIR entries as published (R489). -/
  repairs : List (Nat × UnitRepair)
  /-- What the module has sent, oldest first. -/
  out : List Output
  /-- The model's own counter of free values taken: no register of the spec. -/
  freeCount : Nat
  deriving DecidableEq, Repr

/-- The module right after power-on reset: every BAR0 field at the value its table gives, memory with nothing listed, the
rails off, no start sequence begun. Values the spec states no reset for are named in notes/assumptions. -/
def State.reset : State :=
  { pending := [],
    regs := [],
    mem := ⟨[], [], [], []⟩,
    stack := [],
    poison := [],
    cache := [],
    flushing := [],
    avg := [],
    coreMv := 0,
    uncoreMv := 0,
    naturalRate := 0,
    uncoreRatio := 1000,
    slipMv := 0,
    rateChange := none,
    declRate := 0,
    paceRate := 0,
    linkHeld := [],
    linkFails := [],
    linkErrors := [],
    linkDown := [],
    ctrlQueue := [],
    groups := [],
    cores := [],
    signals := [],
    doorbells := [],
    queueDisables := [],
    streamHeld := [],
    seqs := [],
    ended := [],
    heldCmds := [],
    restoring := [],
    serving := [],
    lastRecordAt := [],
    earlyRecords := [],
    parkUsed := [],
    tabUsed := [],
    xe := [],
    jobs := [],
    images := [],
    sramImages := [],
    stopped := false,
    control := none,
    busyNs := [],
    ranSince := [],
    pwrgd := false,
    faultPin := false,
    thermtrip := false,
    switches := [],
    schedWait := [],
    lull := [],
    lullFull := false,
    arbiter := [],
    lullEnded := [],
    arbiterEnded := [],
    arbiterWindow := none,
    log := ⟨[], [], 0, 0, [], 0⟩,
    uptime := 0,
    pcieUp := false,
    pcieWidth := 0,
    pcieSpeed := 0,
    d3hot := false,
    perst := false,
    briloUp := false,
    receiver := none,
    links := [],
    tracker := [],
    heldRequests := [],
    nextAge := 1,
    nextTag := 0,
    seqOut := [],
    seen := [],
    parts := [],
    ingress := [],
    queuesIn := [],
    torn := [],
    tearing := [],
    heard := [],
    lullSent := [],
    gscLatch := none,
    bulks := [],
    bulkNext := 0,
    fabNext := 0,
    gscSync := GscSync.reset,
    nvs := Nvs.reset,
    lullMs := 10,
    lasers := false,
    trip := false,
    leaseAt := 0,
    grantsHeld := [],
    grantsGiven := [],
    twWindow := none,
    twReports := [],
    emergency := none,
    persist := Persist.factory, copies := PersistCopies.factory,
    brilo := Brilo.reset,
    counter := 0,
    revoked := [],
    mbReq := [],
    mbRsp := [],
    logData := [],
    nvsKey := false,
    clocks := false,
    attemptFound := none,
    attemptEnded := none,
    readyPin := false,
    waitCool := false,
    fused := [],
    mreset := false,
    strap := 3,
    shutdown := none,
    scan := false,
    tests := [],
    repairs := [],
    out := [],
    freeCount := 0 }

end Sys2Proof.Machine
end

