-- ==== Sys2Proof/Machine/Table.lean ====
section
/-! DEFINITION. Sparse tables: lists of (key, value) pairs with strictly rising keys and no entry equal to what an unlisted
key reads as. Registers, memories and every numbered array of the module are kept in this one form. -/

namespace Sys2Proof.Table

variable {α : Type}

/-- The value under a key; `d` where the key is not listed. -/
def get (d : α) : List (Nat × α) → Nat → α
  | [], _ => d
  | (k, v) :: r, i => if k = i then v else get d r i

/-- Enter a value under a key, keeping the keys rising. -/
def put : List (Nat × α) → Nat → α → List (Nat × α)
  | [], i, v => [(i, v)]
  | (k, w) :: r, i, v =>
    if i < k then (i, v) :: (k, w) :: r
    else if i = k then (i, v) :: r
    else (k, w) :: put r i v

/-- Remove a key. -/
def del : List (Nat × α) → Nat → List (Nat × α)
  | [], _ => []
  | (k, w) :: r, i => if i = k then del r i else (k, w) :: del r i

/-- Write a value under a key: writing the default removes the entry, so equal tables are equal lists. -/
def set [DecidableEq α] (d : α) (t : List (Nat × α)) (i : Nat) (v : α) : List (Nat × α) :=
  if v = d then del t i else put t i v

/-- Every key of the table is above `b`, the keys rise strictly, and no entry holds the default. -/
def wfFrom [DecidableEq α] (d : α) : Nat → List (Nat × α) → Bool
  | _, [] => true
  | b, (k, v) :: r => decide (b ≤ k) && decide (v ≠ d) && wfFrom d (k + 1) r

/-- The canonical form. -/
def wf [DecidableEq α] (d : α) (t : List (Nat × α)) : Bool := wfFrom d 0 t

/-- Change the value under a key. -/
def modify [DecidableEq α] (d : α) (t : List (Nat × α)) (i : Nat) (f : α → α) : List (Nat × α) :=
  set d t i (f (get d t i))

end Sys2Proof.Table
end

