-- ==== Sys2Proof/Machine/Regs.lean ====
section
/-! DEFINITION. BAR0 fields, counters and free values: the lowest operations on the state (chapters 21 and 22). -/

namespace Sys2Proof.Machine

/-! ### Register fields -/

/-- The value of a field instance; an instance that does not exist reads 0. -/
def State.fld (s : State) (f : Field) (i : Nat := 0) : Nat := if i < f.count then Table.get f.reset s.regs (f.key i) else 0

/-- Store a value in a field instance, cut to the field's width; an instance that does not exist takes nothing. -/
def State.setFld (s : State) (f : Field) (v : Nat) (i : Nat := 0) : State :=
  { s with regs := if i < f.count then Table.set f.reset s.regs (f.key i) (v % f.size) else s.regs }

/-- A one-bit field as a Bool. -/
def State.flag (s : State) (f : Field) (i : Nat := 0) : Bool := s.fld f i != 0

/-- Store a Bool in a one-bit field. -/
def State.setFlag (s : State) (f : Field) (b : Bool) (i : Nat := 0) : State := s.setFld f (ofFlag b) i

/-- Clear a whole register: every field of `fs` at instance `i` goes to 0. -/
def State.clearFlds (s : State) (fs : List Field) (i : Nat := 0) : State :=
  fs.foldl (fun s f => s.setFld f 0 i) s

/-- A key is that of some instance of a field. -/
def Field.holds (f : Field) (k : Nat) : Bool :=
  decide (f.key 0 ≤ k) &&
    (if f.stride = 0 then k == f.key 0
     else (k - f.key 0) % (8 * f.stride) == 0 && decide ((k - f.key 0) / (8 * f.stride) < f.count))

/-- Put fields back to their reset values, every instance. -/
def State.resetFlds (s : State) (fs : List Field) : State :=
  { s with regs := s.regs.filter fun e => !fs.any fun f => f.holds e.1 }

/-- The global step counter (R387). -/
def State.gsc (s : State) : Nat := s.fld Reg.FAB_GSC.value

/-- Take one free value: an uninterpreted constant at the model's counter, which moves on. -/
def State.free (s : State) : Nat × State := (Config.freeValue s.freeCount, { s with freeCount := s.freeCount + 1 })

/-! ### Ring rates and the GSC as handshake logic sees it (R28, R45) -/

/-- The rate of the DPA ring with work, in 0.01 Gstep/s: the paced rate in Breeze mode, the lesser of the natural rate and the pacing in Gust
mode (R35, R36). -/
def State.dpaRate (s : State) : Nat := if s.flag Reg.PWR_RATESTAT.active_mode then s.paceRate else min s.naturalRate s.paceRate

/-- The rate of an X-die ring in 10^−5 Gstep/s: that of the DPA ring within the 2 % of R28. -/
def State.xdieRate (s : State) : Nat := s.dpaRate * s.uncoreRatio

/-- How much older than the GSC a read is, at least and at most, in ns, for a ring at a rate in 10^−5 Gstep/s (R45): 1 ns + 2 steps, and
2 ns + 3 steps. -/
def gscAge (rate : Nat) : Nat × Nat := (1 + (200000 + rate - 1) / max 1 rate, 2 + 300000 / max 1 rate)

/-- The GSC as a reader on a ring at a rate sees it now; where in the window of R45 is free. -/
def State.gscSeen (s : State) (rate : Nat) : Nat :=
  s.gsc - ((gscAge rate).1 + Config.gscPhase s.uptime % ((gscAge rate).2 + 1 - (gscAge rate).1))

/-- The GSC as the FU, XE and NVS logic of the X-dies sees it. -/
def State.gscXdie (s : State) : Nat := s.gscSeen s.xdieRate

/-- The GSC as the SE slices, with the scheduler, see it: their rings run at the rate of the DPA ring (Table 2.1). -/
def State.gscSe (s : State) : Nat := s.gscSeen (1000 * s.dpaRate)

/-- A counter goes up by `n` and sticks at 2^48 − 1 with sat set (R502); the answer says whether it has just reached its end. -/
def State.bump (s : State) (f : Field) (n : Nat) (i : Nat := 0) : State × Bool :=
  let sat : Field := { f with low := 48, width := 1, access := .w1c, reset := 0 }
  let v := s.fld f i + n
  if n = 0 || s.flag sat i then (s, false)
  else if v < 2 ^ 48 - 1 then (s.setFld f v i, false)
  else ((s.setFld f (2 ^ 48 - 1) i).setFld sat 1 i, true)

end Sys2Proof.Machine
end

