-- ==== Sys2Proof/Machine/Wire.lean ====
section
/-! DEFINITION. Packets and flits as bytes on a lane (R395, R396, R399, R400, R422, R424). -/

namespace Sys2Proof.Machine

/-! ### Payload lines (R422) -/

/-- One payload line from its fields, each an offset, a width in bytes and a value: every byte left out is zero (R422). -/
def lineOf (fields : List (Nat × Nat × Nat)) : List Byte :=
  fields.foldl (fun l f => l.take f.1 ++ toBytes f.2.1 f.2.2 ++ l.drop (f.1 + f.2.1)) (List.replicate 64 0)

/-- Bytes filled up with zeros to whole 64-byte lines. -/
def padLines (bs : List Byte) : List Byte := bs ++ List.replicate (64 * ceilDiv bs.length 64 - bs.length) 0

/-! ### Packets (Tables 17.1 and 17.3) -/

/-- The virtual channel of a packet type (Table 17.2). -/
def channelOf (ptype : Nat) : Nat :=
  if 0x80 ≤ ptype then 1 else if 0x20 ≤ ptype then 4 else if 0x10 ≤ ptype then 3 else if ptype = 8 then 2 else 0

/-- The src field of a request: endpoint, source kind, and core or engine. -/
def sourceField (ep kind unit : Nat) : Nat := ep % 2 ^ 17 + kind % 4 * 2 ^ 17 + unit % 256 * 2 ^ 24

/-- Payload bytes of a packet: none for a load; 16 for an atomic, whose length the spec does not state (DESIGN CHOICE, log entry 115); else its
lines. -/
def Packet.payload (p : Packet) : Nat := if p.ptype = 1 then 0 else if p.ptype = 3 then 16 else 64 * p.lines

/-- Bytes of a packet: 32 with a request header, 16 more with the gateway extension, or 16 with a response header, and its payload (R395). -/
def Packet.size (p : Packet) : Nat :=
  if 0x80 ≤ p.ptype then 16 + 64 * p.lines else 32 + (if p.gateway.isSome then 16 else 0) + p.payload

/-- The header of a packet that the module at `me` sends: Table 17.1, or Table 17.3 for a response, whose dst is the requester's src. -/
def Packet.header (p : Packet) (me : Nat) : List Byte :=
  if 0x80 ≤ p.ptype then
    toBytes 1 p.ptype ++ toBytes 1 0 ++ toBytes 1 p.var ++ toBytes 1 p.lines ++ toBytes 4 (sourceField p.dst p.kind p.unit) ++
      toBytes 4 p.seq ++ toBytes 2 p.tag ++ toBytes 2 0
  else
    let flags := channelOf p.ptype + 8 * ofFlag p.minimal + 32 * ofFlag p.gateway.isSome + 64 * ofFlag p.resent
    toBytes 1 p.ptype ++ toBytes 1 flags ++ toBytes 1 p.lines ++ toBytes 1 p.var ++ toBytes 4 p.dst ++
      toBytes 4 (sourceField me p.kind p.unit) ++ toBytes 4 p.key ++ toBytes 6 p.offset ++ toBytes 2 p.job ++ toBytes 4 p.seq ++
      toBytes 2 p.tag ++ toBytes 2 0 ++
      (match p.gateway with
       | some e => toBytes 4 (e % 2 ^ 17) ++ List.replicate 12 0
       | none => [])

/-- The bytes of a packet. The congestion mark, flag 4, is a plane switch's to set (R383). -/
def Packet.wire (p : Packet) (me : Nat) : List Byte :=
  let h := p.header me
  h ++ (p.bytes ++ List.replicate (p.size - h.length) 0).take (p.size - h.length)

/-- Flits a packet takes by itself (R399, R400). -/
def Packet.flits (p : Packet) : Nat := ceilDiv p.size 128

/-- A packet of the timing exchanges (Table 17.16): it needs no valid endpoint identifier (R377) and stays on its plane (R423). -/
def Packet.timing (p : Packet) : Bool := decide (0x27 ≤ p.ptype) && decide (p.ptype ≤ 0x29)

/-- Length of the packet that begins with these bytes, by its header (R395); none while too few of them are there. -/
def packetLength (bs : List Byte) : Option Nat :=
  match bs with
  | t :: f :: n :: m :: _ =>
    let lines := if 0x80 ≤ t.toNat then m.toNat else n.toNat
    let ext := if bit f.toNat 5 then 16 else 0
    some (if 0x80 ≤ t.toNat then 16 + 64 * lines
      else 32 + ext + (if t.toNat = 1 then 0 else if t.toNat = 3 then 16 else 64 * lines))
  | _ => none

/-- Cut whole packets off a channel's bytes: the packets, and what is left of the last. -/
def cutWire : Nat → List Byte → List (List Byte) × List Byte
  | 0, bs => ([], bs)
  | n + 1, bs =>
    match packetLength bs with
    | none => ([], bs)
    | some l =>
      if bs.length < l then ([], bs)
      else
        let rest := cutWire n (bs.drop l)
        (bs.take l :: rest.1, rest.2)

/-! ### Flits (R395, R396) -/

/-- One bit of the reflected CRC-32C. -/
def crc32Bit (c : BitVec 32) : BitVec 32 := if c &&& 1 = 1 then (c >>> 1) ^^^ 0x82F63B78 else c >>> 1

/-- One byte of the reflected CRC-32C. -/
def crc32Byte (c : BitVec 32) (b : Byte) : BitVec 32 :=
  crc32Bit (crc32Bit (crc32Bit (crc32Bit (crc32Bit (crc32Bit (crc32Bit (crc32Bit (c ^^^ b.setWidth 32))))))))

/-- CRC-32C: generator 0x1EDC_6F41, reflected, initial value and final XOR 0xFFFF_FFFF (R396). -/
def crc32c (bs : List Byte) : BitVec 32 := bs.foldl crc32Byte 0xFFFFFFFF ^^^ 0xFFFFFFFF

/-- A flit: link header, 128 bytes of content, and the CRC over both (R395, R396). -/
def makeFlit (header : Nat) (content : List Byte) : List Byte :=
  let bs := toBytes 4 header ++ (content ++ List.replicate 128 0).take 128
  bs ++ toBytes 4 (crc32c bs).toNat

/-- A data flit (Table 16.13): its pad counts the 16-byte units at its end that carry no packet. -/
def dataFlit (seq vc : Nat) (sop : Bool) (content : List Byte) : List Byte :=
  makeFlit (seq * 2 ^ 20 + vc * 2 ^ 17 + ofFlag sop * 2 ^ 16 + (128 - content.length) / 16 * 2 ^ 12) content

/-- A link-control flit (R398): the last flit accepted, whether a replay is asked for, and the flits freed of each channel. -/
def controlFlit (ack : Nat) (nack : Bool) (freed : List Nat) : List Byte :=
  makeFlit (2 ^ 30 + ack * 2 ^ 20 + ofFlag nack * 2 ^ 16) ((List.range 5).flatMap fun v => toBytes 2 (freed.getD v 0))

/-- The link header of a flit: the first four bytes (R395). -/
def flitHeader (f : List Byte) : Nat := ofBytes (f.take 4)
/-- Header field kind (Table 16.13). -/
def flitKind (f : List Byte) : Nat := bits (flitHeader f) 31 30
/-- Header field seq: link sequence number or ack. -/
def flitSeq (f : List Byte) : Nat := bits (flitHeader f) 29 20
/-- Header field vc. -/
def flitChannel (f : List Byte) : Nat := bits (flitHeader f) 19 17
/-- Header field sop, which is nack in a link-control flit. -/
def flitNack (f : List Byte) : Bool := bit (flitHeader f) 16
/-- The content of a data flit without its pad. -/
def flitContent (f : List Byte) : List Byte := ((f.drop 4).take 128).take (128 - 16 * (bits (flitHeader f) 15 12 % 8))

/-- A receiver discards a flit of the wrong length, of a failed CRC, of a reserved kind or channel, or with a reserved bit set (R396). -/
def flitBad (f : List Byte) : Bool :=
  f.length != 136 || ofBytes (f.drop 132) != (crc32c (f.take 132)).toNat || flitKind f == 3 ||
    (flitKind f == 0 && decide (4 < flitChannel f)) || bits (flitHeader f) 11 0 != 0

/-- Packets that go out in one run of data flits of their channel: the place of each packet's first byte, and of the byte after its last. -/
def wirePlaces : Nat → List Packet → List (Packet × Nat × Nat)
  | _, [] => []
  | o, p :: r => (p, o, o + p.size) :: wirePlaces (o + p.size) r

/-- The data flits of a run of packets, numbered from `seq` on: each begins with a packet or goes on with the one before (R395). -/
def runFlits (me seq vc : Nat) (ps : List Packet) : List TxFlit :=
  let places := wirePlaces 0 ps
  let stream := ps.flatMap fun p => p.wire me
  (List.range (ceilDiv (ps.map Packet.size).sum 128)).map fun k =>
    let n := (seq + k) % 1024
    ⟨n, (places.filter fun x => decide (x.2.1 < 128 * k + 128) && decide (128 * k < x.2.2)).map (·.1),
      dataFlit n vc (places.any fun x => x.2.1 == 128 * k) ((stream.drop (128 * k)).take 128)⟩

end Sys2Proof.Machine
end

