-- ==== Sys2Proof/Machine/Send.lean ====
section
/-! DEFINITION. Sending packets: reach, plane choice, sequence numbers and the links' credits and replay buffers (R379 to R384, R397 to
R401, R411, R415). -/

namespace Sys2Proof.Machine

/-- Send something that is no packet outward. -/
def State.emit (s : State) (o : Output) : State := { s with out := s.out ++ [o] }

/-! ### Links -/

/-- The link of a port. -/
def State.link (s : State) (p : Nat) : Link := Table.get Link.up s.links p
/-- Store the link of a port. -/
def State.setLink (s : State) (p : Nat) (l : Link) : State := { s with links := Table.set Link.up s.links p l }

/-- A port is in an up state: its plane is usable (R376). -/
def State.planeUp (s : State) (p : Nat) : Bool := s.fld Reg.FAB_PORTSTAT.state p == 2 || s.fld Reg.FAB_PORTSTAT.state p == 3

/-- The usable planes. -/
def State.planes (s : State) : List Nat := (List.range 16).filter s.planeUp

/-- The packet a port sends next: control, then responses, then by age, among those whose channel has the credit (Table 17.5). Without a
valid endpoint identifier only the timing exchanges go out (R377). -/
def Link.pick (l : Link) (valid : Bool) : Option Packet :=
  let ok (p : Packet) : Bool :=
    (valid || p.timing) && decide (p.flits ≤ l.credits.getD (channelOf p.ptype) 0) && decide (l.unacked.length + p.flits ≤ 512)
  match l.waiting.find? fun p => channelOf p.ptype == 4 && ok p with
  | some p => some p
  | none => match l.waiting.find? fun p => channelOf p.ptype == 1 && ok p with
    | some p => some p
    | none => l.waiting.find? ok

/-- Take credits of a channel. -/
def spend (c n : Nat) (l : List Nat) : List Nat := l.set c (l.getD c 0 - n)

/-- The packets that go out behind others of their channel, while the flit those end in has room and the credit lasts (R395, R400): `size` bytes
are taken so far. -/
def Link.fill (l : Link) (valid : Bool) (vc : Nat) : Nat → List Packet → List Packet
  | _, [] => []
  | size, p :: r =>
    if channelOf p.ptype ≠ vc then l.fill valid vc size r
    else if size % 128 = 0 ∨ !(valid || p.timing) ∨ l.credits.getD vc 0 < ceilDiv (size + p.size) 128 ∨
        512 < l.unacked.length + ceilDiv (size + p.size) 128 then []
    else p :: l.fill valid vc (size + p.size) r

/-- The packets a port sends next, in one run of flits: none where it can send nothing. -/
def Link.run (l : Link) (valid : Bool) : List Packet :=
  match l.pick valid with
  | none => []
  | some p => p :: l.fill valid (channelOf p.ptype) p.size (l.waiting.erase p)

/-- Hold the flits of a run of packets for replay, and spend their credit (R397). -/
def Link.transmit (l : Link) (ps : List Packet) (fs : List TxFlit) : Link :=
  { l with
    txNext := (l.txNext + fs.length) % 1024
    unacked := l.unacked ++ fs
    credits := spend (channelOf ((ps.head?).map (·.ptype) |>.getD 0)) fs.length l.credits
    waiting := ps.foldl (fun w p => w.erase p) l.waiting }

/-- Deal a flit to the next of the port's lanes in use (R395): 8, or the half that trained. -/
def State.sendFlit (s : State) (port : Nat) (bytes : List Byte) : State :=
  let l := s.link port
  let lanes := if s.fld Reg.FAB_PORTSTAT.state port = 3 then 8 else 4
  let first := if lanes = 4 then 4 * s.fld Reg.FAB_PORTSTAT.half port else 0
  (s.setLink port { l with lane := (l.lane + 1) % lanes }).emit (.flit port (first + l.lane % lanes) bytes)

/-- Send a link-control flit: the last flit accepted, and the flits freed of each channel. -/
def State.sendLinkControl (s : State) (port : Nat) (nack : Bool) : State :=
  let l := s.link port
  (s.setLink port { l with sinceAck := 0 }).sendFlit port (controlFlit ((l.rxNext + 1023) % 1024) nack l.freed)

/-- Flits of a channel are freed (R398). -/
def Link.free (l : Link) (vc n : Nat) : Link := { l with freed := l.freed.set vc ((l.freed.getD vc 0 + n) % 65536) }

/-- Send what an up port may send. -/
def State.pump (s : State) (port : Nat) : Nat → State
  | 0 => s
  | n + 1 =>
    if !s.planeUp port then s
    else match (s.link port).run (s.flag Reg.FAB_EPID.valid) with
      | [] => s
      | p :: r =>
        let fs := runFlits (s.fld Reg.FAB_EPID.ep) (s.link port).txNext (channelOf p.ptype) (p :: r)
        let s := s.setLink port ((s.link port).transmit (p :: r) fs)
        (fs.foldl (fun s f => s.sendFlit port f.bytes) s).pump port n

/-- The FU accepts a packet: it takes its age, unless it has one already (R401). -/
def State.stamp (s : State) (p : Packet) : Packet × State :=
  if p.age = 0 then ({ p with age := s.nextAge }, { s with nextAge := s.nextAge + 1 }) else (p, s)

/-- A packet takes its place by age (R401). -/
def byAge (p : Packet) : List Packet → List Packet
  | [] => [p]
  | q :: r => if p.age < q.age then p :: q :: r else q :: byAge p r

/-- Put a packet in the egress queue of a port, which stands in age order. -/
def State.enqueue (s : State) (port : Nat) (p : Packet) : State :=
  let got := s.stamp p
  let p := got.1
  let s := got.2
  let l := s.link port
  (s.setLink port { l with waiting := byAge p l.waiting }).pump port (l.waiting.length + 1)

/-! ### Plane choice (R382, R383, R411) -/

/-- An endpoint lies in a range of identifiers. -/
def State.inRange (s : State) (first count : Field) (ep : Nat) : Bool :=
  decide (s.fld first ≤ ep) && decide (ep < s.fld first + s.fld count)

/-- An endpoint of the module's single-stage domain. -/
def State.inDomain (s : State) (ep : Nat) : Bool := s.inRange Reg.FAB_DOMAIN.first Reg.FAB_DOMAIN.count ep
/-- An endpoint of the module's two-stage region. -/
def State.inRegion (s : State) (ep : Nat) : Bool := s.inRange Reg.FAB_REGION.first Reg.FAB_REGION.count ep

/-- The congestion estimate and its sample count that concern a packet. -/
def State.estimate (s : State) (p : Packet) (plane : Nat) : Nat × Nat :=
  if p.group || s.inDomain p.dst then (s.fld Reg.FAB_AREST.c_local plane, s.fld Reg.FAB_AREST.n_local plane)
  else (s.fld Reg.FAB_AREST.c_remote plane, s.fld Reg.FAB_AREST.n_remote plane)

/-- Bytes that wait in a port's egress queue (R382). -/
def State.egressBytes (s : State) (port : Nat) : Nat := ((s.link port).waiting.map Packet.size).sum

/-- The plane of least cost; a tie goes to the lowest (plane − h) mod 16 (R382). -/
def State.choosePlane (s : State) (p : Packet) (avoid : List Nat) : Option Nat :=
  let issuer := if p.kind = 0 ∨ p.kind = 1 then p.unit else 256
  let h := (p.dst + issuer) % 16
  let key (k : Nat) : Nat := (ceilDiv (s.egressBytes k) 1024 + (s.estimate p k).1) * 16 + (k + 16 - h) % 16
  (s.planes.filter fun k => !avoid.contains k).foldl (fun (b : Option Nat) k =>
    match b with
    | some j => if key k < key j then some k else some j
    | none => some k) none

/-- Two requests overlap in lines, or are messages to one queue (R411). An atomic, which counts no line (Table 17.1), lies in one. -/
def Packet.overlaps (a b : Packet) : Bool :=
  if a.ptype = 8 ∧ b.ptype = 8 then a.key == b.key
  else decide (1 ≤ a.ptype) && decide (a.ptype ≤ 5) && decide (1 ≤ b.ptype) && decide (b.ptype ≤ 5) && a.key == b.key &&
    decide (a.offset / 64 < b.offset / 64 + max 1 b.lines) && decide (b.offset / 64 < a.offset / 64 + max 1 a.lines)

/-- The plane a request is bound to by an earlier one of its source that has not completed (R411); a lost plane binds no longer (R384). -/
def State.boundPlane (s : State) (p : Packet) : Option Nat :=
  (s.tracker.find? fun r =>
    r.packet.kind == p.kind && r.packet.unit == p.unit && r.packet.dst == p.dst && r.packet.group == p.group &&
      s.planeUp r.plane && r.packet.overlaps p).map (·.plane)

/-- Put a packet on its plane: the answer is the plane, 16 where none is usable. -/
def State.route (s : State) (p : Packet) (bound : Option Nat) (avoid : List Nat) : Nat × State :=
  match bound with
  | some k => (k, s.enqueue k { p with minimal := decide ((s.estimate p k).2 < s.fld Reg.FAB_ARCFG.warm) })
  | none =>
    match s.choosePlane p avoid with
    | some k => (k, s.enqueue k { p with minimal := decide ((s.estimate p k).2 < s.fld Reg.FAB_ARCFG.warm) })
    | none => (16, s)

/-! ### Requests, engine packets, control packets -/

/-- The key under which the next seq of a destination is kept. -/
def seqKey (dst : Nat) (group : Bool) : Nat := if group then 2 ^ 17 + dst else dst

/-- Number a packet toward its destination (R415). -/
def State.number (s : State) (p : Packet) : Packet × State :=
  let k := seqKey p.dst p.group
  let n := Table.get 0 s.seqOut k
  ({ p with seq := n }, { s with seqOut := Table.set 0 s.seqOut k ((n + 1) % 2 ^ 32) })

/-- A destination may be reached by engine packets: inside the domain, or a defined group (R379, R380). -/
def State.engineReach (s : State) (dst : Nat) (group : Bool) : Bool :=
  s.flag Reg.FAB_EPID.valid && (if group then s.flag Reg.FAB_GRP.valid dst else s.inDomain dst)

/-- This module alone makes up the group: no plane carries a packet to it (R380). -/
def State.soleMember (s : State) (g : Nat) : Bool := s.flag Reg.FAB_GRP.member g && decide (s.fld Reg.FAB_GRP.count g ≤ 1)

/-- Number a request, put it on its plane and keep it in the tracker (R402, R415). -/
def State.launchRequest (s : State) (p : Packet) (owner : Owner) (dest : Nat) : State :=
  let got := s.number { p with tag := s.nextTag % 65536 }
  let p := got.1
  let s := got.2
  let got := if p.group && s.soleMember p.dst then (16, s) else s.route p (s.boundPlane p) []
  let plane := got.1
  let s := got.2
  let own := ofFlag (p.group && s.flag Reg.FAB_GRP.member p.dst)
  { s with
    nextTag := s.nextTag + 1
    tracker := s.tracker ++ [(⟨p, plane, false, 1, [], own, false, owner, dest, p.ptype == 3⟩ : Request)] }

/-- Requests outstanding toward an endpoint. -/
def State.outstanding (s : State) (dst : Nat) : Nat := (s.tracker.filter fun r => !r.packet.group && r.packet.dst == dst).length

/-- Send a request; while 1,024 are outstanding toward its endpoint it is held (R403). -/
def State.sendRequest (s : State) (p : Packet) (owner : Owner) (dest : Nat) : State :=
  let got := s.stamp p
  let p := got.1
  let s := got.2
  if !p.group && decide (1024 ≤ s.outstanding p.dst) then { s with heldRequests := s.heldRequests ++ [(p, owner, dest)] }
  else s.launchRequest p owner dest

/-- A request toward an endpoint has completed: the oldest one held for it goes (R403). -/
def State.sendHeld (s : State) (dst : Nat) : State :=
  match s.heldRequests.find? fun h => h.1.dst == dst with
  | some h => { s with heldRequests := s.heldRequests.erase h }.launchRequest h.1 h.2.1 h.2.2
  | none => s

/-- An engine or control packet: key 0, offset 0, and its payload of whole lines (R422). -/
def Packet.engine (dst : Nat) (group : Bool) (ptype unit job : Nat) (payload : List Byte) : Packet :=
  { dst := dst, group := group, ptype := ptype, var := 0, lines := ceilDiv payload.length 64, key := 0, offset := 0, job := job, kind := 2,
    unit := unit, seq := 0, tag := 0, gateway := none, resent := false, minimal := false, bytes := payload }

/-- The payloads of an item that takes several packets (R399, R424): at most 7 lines of it each, behind a first line that names the first line
carried. An item without lines takes one packet. -/
def itemPayloads (first : Nat → List Byte) (item : List Byte) : List (List Byte) :=
  (List.range (max 1 (ceilDiv item.length 448))).map fun k => first (7 * k) ++ padLines ((item.drop (448 * k)).take 448)

/-- Send a control packet to an endpoint or a defined group: it takes a seq and no tracker slot (R380, R422). FU 0 is its source
(DESIGN CHOICE, log entry 115). -/
def State.sendControl (s : State) (dst : Nat) (group : Bool) (ptype : Nat) (line : List Byte) (job : Nat := 0xFFFF)
    (plane : Option Nat := none) : State :=
  if (!s.flag Reg.FAB_EPID.valid && ptype < 0x27) || (group && !s.flag Reg.FAB_GRP.valid dst) then s
  else
    let got := s.number (Packet.engine dst group ptype 8 job line)
    let p := got.1
    let s := got.2
    if group && s.soleMember dst then s else (s.route p plane []).2

/-- Answer a request (R400): its source, type, reason, and data for an endpoint. -/
def State.sendResponse (s : State) (dst kind unit type reason seq tag : Nat) (data : List Byte) : State :=
  let p := { Packet.engine dst false type unit 0 (padLines data) with kind := kind, var := reason, seq := seq, tag := tag }
  (s.route p none []).2

end Sys2Proof.Machine
end

