-- ==== Sys2Proof/Machine/Ops.lean ====
section
/-! DEFINITION. The named operations every command is built from: counters, events, log records, reports, faults (chapters 19, 21 and
22). -/

namespace Sys2Proof.Machine

/-! ### Slots of the UNIT block (Table 3.1) -/

/-- Slot of C-die `d`. -/
def slotCdie (d : Nat) : Nat := 1 + d
/-- Slot of cluster `k`. -/
def slotCluster (k : Nat) : Nat := 5 + k
/-- Slot of M-die `m`. -/
def slotMdie (m : Nat) : Nat := 21 + m
/-- Slot of X-die A. -/
def slotXdieA : Nat := 33
/-- Slot of X-die B. -/
def slotXdieB : Nat := 34
/-- Slot of the sequence-engine group. -/
def slotSe : Nat := 35
/-- Slot of SE slice `d`. -/
def slotSlice (d : Nat) : Nat := 36 + d
/-- Slot of core `c`. -/
def slotCore (c : Nat) : Nat := 64 + c
/-- Slot of software group `g`. -/
def slotGroup (g : Nat) : Nat := 448 + g

/-! ### Causes (Table 21.1) -/

/-- The classes of R493. -/
inductive FaultClass where
  | warning | job | allJobs | module
  deriving DecidableEq, Repr

/-- The class Table 21.1 gives a cause. -/
def causeClass (cause : Nat) : FaultClass :=
  if cause = 0x0101 || cause = 0x0702 || cause = 0x0704 || cause = 0x0802 then .module
  else if cause = 0x0502 then .allJobs
  else if cause = 0x0102 || cause = 0x0103 || (0x0401 ≤ cause && cause ≤ 0x040B) || (0x0601 ≤ cause && cause ≤ 0x0603) then .job
  else .warning

/-- The severity Table 21.1 gives a cause. -/
def causeSeverity (cause : Nat) : Nat :=
  if cause = 0x0902 then 0
  else if cause = 0x0101 || cause = 0x0502 || cause = 0x0606 || cause = 0x0701 || cause = 0x0702 || cause = 0x0704 ||
    cause = 0x0802 then 3
  else if cause = 0x0210 || cause = 0x0305 || (0x0503 ≤ cause && cause ≤ 0x0506) || cause = 0x0705 || cause = 0x0706 ||
    cause = 0x0708 || cause = 0x0709 || cause = 0x0901 then 1
  else 2

/-- Every cause code the module records (R492, Tables 4.7, 20.5 and 21.1). -/
def causeCodes : List Nat :=
  [0x0101, 0x0102, 0x0103, 0x0201, 0x0202, 0x0203, 0x0204, 0x0205, 0x0206, 0x0207, 0x0208, 0x0209, 0x020A, 0x0210, 0x0220, 0x0301, 0x0302,
    0x0303, 0x0304, 0x0305] ++ (List.range 11).map (0x0401 + ·) ++ (List.range 6).map (0x0501 + ·) ++ (List.range 6).map (0x0601 + ·) ++
    (List.range 9).map (0x0701 + ·) ++ [0x0801, 0x0802, 0x0901, 0x0902]

/-- The cause of the record of an event bit: a code of Table 21.1, which one the spec does not say. -/
def eventCause (k : Nat) : Nat := causeCodes.getD (Config.eventRecord k % causeCodes.length) 0x0902

/-! ### The event log (R455 to R457, R461) -/

/-- Pages of the event log: 12 blocks of 341. -/
def logPages : Nat := 12 * 341

/-- Show the log's bounds in MGT_LOGHEAD and MGT_LOGTAIL. -/
def State.showLog (s : State) : State :=
  let head := match s.log.pages.flatten ++ s.log.buffer with
    | r :: _ => r.seq
    | [] => s.log.next
  (s.setFld Reg.MGT_LOGHEAD.seq head).setFld Reg.MGT_LOGTAIL.seq s.log.next

/-- Program the buffered page (R456), first erasing the oldest block when no page is free (R455); the answer counts the records
lost with the block. -/
def commitPage (l : EventLog) : EventLog × Nat :=
  if l.buffer.isEmpty then (l, 0)
  else if l.pages.length < logPages then ({ l with pages := l.pages ++ [l.buffer], buffer := [] }, 0)
  else ({ l with pages := l.pages.drop 341 ++ [l.buffer], buffer := [] }, ((l.pages.take 341).map List.length).sum)

/-- Add one record to a log whose Brilo runs, or to the supervisor's queue of at most 1,024 happenings (R467). -/
def takeRecord (l : EventLog) (up : Bool) (r : LogRecord) : EventLog :=
  if up then
    { l with buffer := l.buffer ++ [{ r with seq := l.next }], next := (l.next + 1) % 2 ^ 32,
             oldestUs := if l.buffer.isEmpty then r.uptimeUs else l.oldestUs }
  else if l.queued.length < 1024 then { l with queued := l.queued ++ [r] }
  else { l with overflow := l.overflow + 1 }

/-- A record reaches the log. A full page is programmed unless write inhibit holds it (R453); severity 1 and above also goes to
the event receiver as a PlatformEventMessage (R461). -/
def State.addRecord (s : State) (r : LogRecord) : State :=
  let l := takeRecord s.log s.briloUp r
  let got := if l.buffer.length < 256 || s.flag Reg.PWR_SUPSTAT.inhibit then (l, 0) else commitPage l
  let l := got.1
  let lost := got.2
  let s := ({ s with log := l }.bump Reg.MGT_LOGLOST.count lost).1
  let s := s.showLog
  match s.receiver with
  | some (b, ep) =>
    if 1 ≤ r.severity && s.briloUp then s.emit (.message b ep [1, 2, 0x0A, r.kind, r.severity, r.cause, r.slot]) else s
  | none => s

/-- A happening becomes a record of the present moment (R456). -/
def State.logRecord (s : State) (kind severity cause slot : Nat) (payload : List Nat) : State :=
  s.addRecord ⟨0, kind, severity, cause, if s.clocks then s.gsc else 0, s.uptime / 1000, slot, payload⟩

/-! ### The lull window (R497 to R500) -/

/-- A suspect as a lull packet codes it (Table 17.16). -/
def suspectWords : Suspect → Nat × Nat
  | .module => (0, 0)
  | .unit n => (1, n)
  | .endpoint n => (2, n)
  | .shard n => (3, n)

/-- The UCB slot a suspect stands for in a log record; 0 for the module. -/
def suspectSlot : Suspect → Nat
  | .unit n => n
  | _ => 0

/-- The GSC is running: the main clocks are on (R497). -/
def State.gscRuns (s : State) : Bool := s.clocks

/-- Length of a lull window in ns (R497). -/
def State.lullSpan (s : State) : Nat := s.lullMs * 1000000

/-- The number of the current lull window; Brilo's timer takes the place of a GSC that does not run. -/
def State.lullWindow (s : State) : Nat := (if s.gscRuns then s.gsc else s.uptime) / s.lullSpan

/-- The first payload line of a lull report, notice or tally (Table 17.16). -/
def State.lullBody (s : State) (p : Suspect) (cause severity window observers events : Nat) : List Byte :=
  lineOf [(0, 2, cause), (2, 1, (suspectWords p).1), (3, 1, severity), (4, 4, (suspectWords p).2), (8, 8, window), (0x10, 4, observers),
    (0x18, 8, events), (0x20, 8, s.gsc)]

/-- Send to the fabric manager, where one is named (R500). -/
def State.toManager (s : State) (ptype : Nat) (body : List Byte) : State :=
  if s.flag Reg.FAB_LULLCFG.fm_valid then s.sendControl (s.fld Reg.FAB_LULLCFG.fm_ep) false ptype body else s

/-- A module counts as an observer of a pair once (R499). -/
def addObserver (who : List Nat) (src : Nat) : List Nat := if who.contains src then who else who ++ [src]

/-- A notice enters the pair in the lull table as already reported (R498). -/
def State.noticed (s : State) (p : Suspect) (cause : Nat) : State :=
  if (s.lull.any fun e => e.suspect == p && e.cause == cause) || decide (256 ≤ s.lull.length) then s
  else { s with lull := s.lull ++ [(⟨p, cause, 0⟩ : LullEntry)] }

/-- The arbiter takes one report (R498): the first of a pair in a window goes on to the fabric manager, and a notice to the group. -/
def State.arbiterTake (s : State) (src : Nat) (p : Suspect) (cause severity events : Nat) : State :=
  if s.arbiter.any fun e => e.suspect == p && e.cause == cause then
    { s with arbiter := s.arbiter.map fun e =>
        if e.suspect == p && e.cause == cause then { e with observers := addObserver e.observers src, events := e.events + events } else e }
  else
    let s := { s with arbiter := s.arbiter ++ [(⟨p, cause, [src], events⟩ : ArbiterEntry)] }.noticed p cause
    let s := s.toManager 0x22 (s.lullBody p cause severity s.lullWindow 1 events)
    s.sendControl (s.fld Reg.FAB_LULLWIN.grp) true 0x23 (s.lullBody p cause severity s.lullWindow 1 events)

/-- Send the lull packet of a report (R498, R500): to the arbiter, or to the fabric manager where no arbiter is named; a module
with fm_valid 0 sends none. The arbiter takes its own report directly. -/
def State.lullPacket (s : State) (p : Suspect) (cause severity events : Nat) : State :=
  if !s.flag Reg.FAB_LULLCFG.fm_valid then s
  else if !s.flag Reg.FAB_LULLCFG.arb_valid then s.toManager 0x22 (s.lullBody p cause severity s.lullWindow 1 events)
  else if s.fld Reg.FAB_LULLCFG.arb_ep = s.fld Reg.FAB_EPID.ep then s.arbiterTake (s.fld Reg.FAB_EPID.ep) p cause severity events
  else
    let arb := s.fld Reg.FAB_LULLCFG.arb_ep
    let body := s.lullBody p cause severity s.lullWindow 1 events
    { s with lullSent := s.lullSent ++ [(⟨Table.get 0 s.seqOut (seqKey arb false), s.nextAge, body, []⟩ : LullSent)] }.sendControl arb false 0x22 body

/-- Make a report (R497, R498): the log record, and the lull packet where the suspect is an endpoint or the fault of class A or M. -/
def State.makeReport (s : State) (p : Suspect) (kind cause severity : Nat) (payload : List Nat) : State :=
  let s := s.logRecord kind severity cause (suspectSlot p) payload
  let isEp := match p with
    | .endpoint _ => true
    | _ => false
  let big := kind == 1 && (causeClass cause == .allJobs || causeClass cause == .module)
  if isEp || big then s.lullPacket p cause severity 1 else s

/-- A report passes the lull table (R497): made, tallied or lost; `bump` counts in the lull counters. -/
def State.reportWith (bump : State → Field → State) (s : State) (p : Suspect) (kind cause severity : Nat)
    (payload : List Nat) : State :=
  if s.lull.any fun e => e.suspect == p && e.cause == cause then
    bump { s with lull := s.lull.map fun e =>
      if e.suspect == p && e.cause == cause then { e with tally := e.tally + 1 } else e } Reg.FAB_LULLSUPCNT.count
  else if s.lull.length < 256 then
    { s with lull := s.lull ++ [(⟨p, cause, 0⟩ : LullEntry)] }.makeReport p kind cause severity payload
  else
    let s := bump s Reg.FAB_LULLOVFCNT.count
    if s.lullFull then s else { s with lullFull := true }.makeReport .module 1 0x0901 1 []

/-- A counter goes up, and its saturation raises TOP_EVT.sat and a report of cause 0x0902 (R502), through `report`. -/
def State.countWith (report : State → Suspect → Nat → Nat → Nat → List Nat → State) (s : State) (f : Field) (n : Nat)
    (i : Nat := 0) : State :=
  let got := s.bump f n i
  let s := got.1
  let full := got.2
  if full then report (s.setFld Reg.TOP_EVT.sat 1) .module 1 0x0902 0 [f.offset + f.stride * i] else s

/-- A report whose lull counters saturate silently: the innermost layer. Each lull counter saturates at most once. -/
def State.report0 : State → Suspect → Nat → Nat → Nat → List Nat → State :=
  State.reportWith fun s f => (s.bump f 1).1
/-- A report whose lull counters report their saturation through `report0`. -/
def State.report1 : State → Suspect → Nat → Nat → Nat → List Nat → State :=
  State.reportWith fun s f => s.countWith State.report0 f 1
/-- A report (R497). Arguments: suspect, kind, cause, severity, payload. -/
def State.report : State → Suspect → Nat → Nat → Nat → List Nat → State :=
  State.reportWith fun s f => s.countWith State.report1 f 1
/-- A 48-bit counter goes up by `n` (R502). -/
def State.count (s : State) (f : Field) (n : Nat) (i : Nat := 0) : State := s.countWith State.report f n i

/-! ### Events and faults (R494, R495) -/

/-- Set an event bit of a block's EVT register; an unmasked bit also makes a record of kind 0 (R456). -/
def State.raise (s : State) (evt mask : Field) : State :=
  let s := s.setFld evt 1
  if bit (s.fld mask) evt.low then s
  else s.report .module 0 (eventCause (evt.key 0)) (causeSeverity (eventCause (evt.key 0))) []

/-- Set a UNIT_EVT bit of a slot; an unmasked bit also makes a record of kind 0 (Table 3.7). -/
def State.raiseUnit (s : State) (evt mask : Field) (slot : Nat) : State :=
  let s := s.setFld evt 1 slot
  if s.flag mask slot then s
  else s.report (.unit slot) 0 (eventCause (evt.key slot)) (causeSeverity (eventCause (evt.key slot))) []

/-- Latch a fault of class A or M in TOP_FAULT while it holds none (R494). -/
def State.latchTop (s : State) (cause slot : Nat) : State :=
  let code := match causeClass cause with
    | .allJobs => 2
    | .module => 3
    | _ => 0
  if code = 0 || s.flag Reg.TOP_FAULT.valid then s
  else
    let s := s.setFld Reg.TOP_FAULT.cause cause
    let s := s.setFld Reg.TOP_FAULT.slot slot
    let s := s.setFld Reg.TOP_FAULT.cls code
    let s := s.setFld Reg.TOP_FAULT.gsc_lo s.gsc
    let s := s.setFld Reg.TOP_FAULT.valid 1
    s.setFld Reg.TOP_EVT.fault 1

/-- Record a fault (R494): UNIT_FAULT.cause and UNIT_EVT.fault of the unit it names, one report of kind 1, and TOP_FAULT. What a
class does to jobs is `applyClass`. -/
def State.recordFault (s : State) (cause : Nat) (p : Suspect) (payload : List Nat) : State :=
  let mark (s : State) (slot : Nat) : State :=
    (s.setFld Reg.UNIT_FAULT.cause cause slot).setFld Reg.UNIT_EVT.fault 1 slot
  let s := match p with
    | .unit n => mark s n
    | .module => mark s 0
    | _ => s
  let s := s.report p 1 cause (causeSeverity cause) payload
  s.latchTop cause (suspectSlot p)

/-! ### Modes of the module -/

/-- In Apron mode (R482). -/
def State.apron (s : State) : Bool := s.flag Reg.TOP_STARTSTAT.apron

/-- An orderly shutdown has begun: the SE, XE, FU and NVS take no new work (R483, Table 20.6). -/
def State.closing (s : State) : Bool := s.fld Reg.TOP_SHUTSTAT.state != 0

/-- The table of Table 22.5: block k of Table 22.3 is accessible. -/
def State.blockOpen (s : State) (k : Nat) : Bool := bit (s.fld Reg.TOP_BLKSTAT.blocks) k

/-- The block of Table 22.3 that a BAR0 offset lies in. -/
def blockOf (offset : Nat) : Nat :=
  if offset < 0x1_0000 then 0 else if offset < 0x10_0000 then 1 else if offset < 0x20_0000 then 2
  else if offset < 0x40_0000 then 3 else if offset < 0x80_0000 then 4 else if offset < 0xC0_0000 then 5
  else if offset < 0x100_0000 then 6 else if offset < 0x140_0000 then 7 else if offset < 0x200_0000 then 8
  else if offset < 0x300_0000 then 9 else 10

/-- Latch the first disallowed BAR0 access (R515): kind 1 block not accessible, 2 size or alignment, 3 refused by a lock. -/
def State.latchAccess (s : State) (kind offset bytes : Nat) (write : Bool := true) : State :=
  if s.flag Reg.TOP_ACCERR.valid then s
  else
    let s := s.setFld Reg.TOP_ACCERR.kind kind
    let s := s.setFld Reg.TOP_ACCERR.bytes bytes
    let s := s.setFlag Reg.TOP_ACCERR.write write
    let s := s.setFld Reg.TOP_ACCERR.offset offset
    s.setFld Reg.TOP_ACCERR.valid 1

/-- The host reaches the BARs: link up, function in D0, PERST_N high (R473, R510). -/
def State.hostReach (s : State) : Bool := s.pcieUp && !s.d3hot && !s.perst

/-- A BAR0 write of the host that has its own effect `k`: it reaches an accessible block, or is latched with kind 1 (R476,
R515). A write that cannot reach the module changes nothing. -/
def State.hostWrite (s : State) (offset bytes : Nat) (k : State → State) : State :=
  if !s.hostReach then s
  else if s.blockOpen (blockOf offset) then k s
  else s.latchAccess 1 offset bytes

/-- A BAR0 read of the host that has an effect of its own: an inaccessible block reads zero and is latched (R476, R515). -/
def State.hostRead (s : State) (offset bytes : Nat) (k : State → State) : State :=
  if !s.hostReach then s
  else if s.blockOpen (blockOf offset) then k s
  else (s.latchAccess 1 offset bytes false).emit (.readData (List.replicate bytes 0) false)

/-! ### The exchange contexts (R334, R341) -/

/-- A context. -/
def State.ctx (s : State) (x : Nat) : XeContext := Table.get XeContext.empty s.xe x
/-- Store a context. -/
def State.setCtx (s : State) (x : Nat) (v : XeContext) : State := { s with xe := Table.set XeContext.empty s.xe x v }

/-- A phase in which nothing has happened yet. -/
def XePhase.fresh (p : Nat) : XePhase := ⟨p, [], [], [], [], [], false, false, false, none, none⟩

/-- What is held of a phase. -/
def XeContext.at (v : XeContext) (p : Nat) : XePhase := (v.phases.find? fun y => y.phase == p).getD (XePhase.fresh p)

/-- Store a phase. -/
def State.setPhaseOf (s : State) (x : Nat) (y : XePhase) : State :=
  let v := s.ctx x
  s.setCtx x { v with phases := (v.phases.filter fun z => z.phase != y.phase) ++ [y] }

/-- An end marker of the exchange goes out to another endpoint, for the instruction `index` of core `c`. -/
def State.putMark (s : State) (c index ep : Nat) (m : ExchangeMark) : State :=
  let line := lineOf [(0, 1, m.context), (1, 1, m.epoch), (2, 1, m.half), (3, 1, m.lexp), (4, 4, m.phase), (8, 2, m.src), (0xC, 4, m.rows)]
  s.sendRequest (Packet.engine ep false 0x11 (c / 128) (s.fld Reg.XE_XCFG.job m.context) line)
    (.exchange c index m.context m.phase (if m.half = 0 then some m.src else none)) 0

/-- Rows of a source to an endpoint that no response has answered yet. -/
def State.putsOpen (s : State) (o : Owner) (ep : Nat) : Bool :=
  (s.tracker.any fun r => r.owner == o && r.packet.dst == ep && r.packet.ptype == 0x10) ||
    s.heldRequests.any fun h => h.2.1 == o && h.1.dst == ep && h.1.ptype == 0x10

/-- The end markers that wait for the rows of their source to be put at their host go once all are (R341); where one of the rows failed,
they never go, and the phase cannot complete (R347). -/
def State.releaseEnds (s : State) (c index x p src ep : Nat) (failed : Bool) : State :=
  let y := (s.ctx x).at p
  let mine (e : XeEnd) : Bool := e.endpoint == ep && e.mark.src == src
  if !y.ends.any mine then s
  else if failed then s.setPhaseOf x { y with ends := y.ends.filter fun e => !mine e }
  else if s.putsOpen (.exchange c index x p (some src)) ep then s
  else
    let s := s.setPhaseOf x { y with ends := y.ends.filter fun e => !mine e }
    (y.ends.filter mine).foldl (fun s e => s.putMark c index ep e.mark) s

/-! ### Engine packets (R379, R422) -/

/-- An engine's operation is refused where its destination is out of reach: nothing is sent (R379). -/
def State.refusedOut (s : State) : State :=
  if s.flag Reg.FAB_EPID.valid then s.raise Reg.FAB_OPEVT.refused_out Reg.FAB_OPEVTMASK.mask else s

/-- Send an engine packet of engine `unit` to an endpoint. -/
def State.sendEngine (s : State) (unit dst ptype : Nat) (payload : List Byte) (job : Nat := 0xFFFF) : State :=
  if s.engineReach dst false then s.sendRequest (Packet.engine dst false ptype unit job payload) .engine 0 else s.refusedOut

/-- Send an engine packet to the other members of a group (R380). -/
def State.sendGroup (s : State) (unit grp ptype : Nat) (payload : List Byte) (job : Nat := 0xFFFF) : State :=
  if s.soleMember grp then s
  else if s.engineReach grp true then s.sendRequest (Packet.engine grp true ptype unit job payload) .engine 0
  else s.refusedOut

end Sys2Proof.Machine
end

