-- ==== Sys2Proof/Machine/Mem.lean ====
section
/-! DEFINITION. The tiers (chapters 04 and 10): byte stores in canonical form, the program address space, the layout of T1 over
the stacks, and the staging caches. -/

namespace Sys2Proof.Machine

/-! ### Byte stores -/

/-- Read `n` bytes of a store; a byte that nothing has written reads 0. -/
def readBytes (t : List Host.Cell) (a : Nat) : Nat → List Byte
  | 0 => []
  | n + 1 => Table.get 0 t a :: readBytes t (a + 1) n

/-- Write bytes to a store, lowest address first. -/
def writeBytes (t : List Host.Cell) (a : Nat) : List Byte → List Host.Cell
  | [] => t
  | b :: r => writeBytes (Table.set 0 t a b) (a + 1) r

/-- The canonical form of the four stores: addresses strictly rising, no entry equal to what an unlisted address reads as. -/
def Memory.wf (m : Memory) : Bool :=
  Table.wf (0 : Byte) m.scratch && Table.wf (0 : Byte) m.sram && Table.wf (0 : Byte) m.t1 && Table.wf (0 : Byte) m.t3

/-- Core scratch: 4 MiB. -/
def scratchSize : Nat := 0x400000
/-- Cluster SRAM: 8 MiB. -/
def sramSize : Nat := 0x800000
/-- T1: 576 GiB. -/
def t1Size : Nat := 576 * 2 ^ 30
/-- One GiB. -/
def gib : Nat := 2 ^ 30

/-- The stores of the program address space (Table 4.2). -/
inductive Store where
  | scratch | sram | t1 | t2 | t3
  deriving DecidableEq, Repr

/-- First program address and size of each store (Table 4.2). -/
def Store.base : Store → Nat
  | .scratch => 0
  | .sram => 0x100_0000
  | .t1 => 0x100_0000_0000
  | .t2 => 0x4000_0000_0000
  | .t3 => 0x8000_0000_0000

/-- Bytes of each store (Table 4.2). -/
def Store.size : Store → Nat
  | .scratch => scratchSize
  | .sram => sramSize
  | .t1 => t1Size
  | .t2 => 0x4000_0000_0000
  | .t3 => 0x8000_0000_0000

/-- The store an address lies in, with its offset there; none in a reserved range. -/
def locate (a : Nat) : Option (Store × Nat) :=
  if a < scratchSize then some (.scratch, a)
  else if 0x100_0000 ≤ a ∧ a < 0x180_0000 then some (.sram, a - 0x100_0000)
  else if 0x100_0000_0000 ≤ a ∧ a < 0x190_0000_0000 then some (.t1, a - 0x100_0000_0000)
  else if 0x4000_0000_0000 ≤ a ∧ a < 0x8000_0000_0000 then some (.t2, a - 0x4000_0000_0000)
  else if 0x8000_0000_0000 ≤ a ∧ a < 0x1_0000_0000_0000 then some (.t3, a - 0x8000_0000_0000)
  else none

/-- The store that holds the whole range of `n` bytes at `a`. -/
def locateRange (a n : Nat) : Option (Store × Nat) :=
  match locate a with
  | some (st, o) => if o + n ≤ st.size then some (st, o) else none
  | none => none

/-- Read core scratch. -/
def State.scratchGet (s : State) (core off n : Nat) : List Byte := readBytes s.mem.scratch (core * scratchSize + off) n

/-- Write core scratch. -/
def State.scratchPut (s : State) (core off : Nat) (bs : List Byte) : State :=
  { s with mem := { s.mem with scratch := writeBytes s.mem.scratch (core * scratchSize + off) bs } }

/-- Read cluster SRAM. -/
def State.sramGet (s : State) (cluster off n : Nat) : List Byte := readBytes s.mem.sram (cluster * sramSize + off) n

/-- Write cluster SRAM. -/
def State.sramPut (s : State) (cluster off : Nat) (bs : List Byte) : State :=
  { s with mem := { s.mem with sram := writeBytes s.mem.sram (cluster * sramSize + off) bs } }

/-- Put a store's bytes in `[a, a + n)` to zero: the entries go. -/
def zeroRange (t : List Host.Cell) (a n : Nat) : List Host.Cell := t.filter fun e => !(decide (a ≤ e.1) && decide (e.1 < a + n))

/-- Host address of a T3 offset (R224). -/
def State.hostAt (s : State) (off : Nat) : Nat := (s.fld Reg.MEM_T3BASE.base * 4096 + off) % 2 ^ 64

/-- Write the module's bytes to host memory through the T3 window (R224). -/
def State.t3Put (s : State) (off : Nat) (bs : List Byte) : State :=
  { s with mem := { s.mem with t3 := writeBytes s.mem.t3 (s.hostAt off) bs } }

/-! ### T1 over the stacks (R205, R206) -/

/-- GiB of the global zone. -/
def State.globalGib (s : State) : Nat := 576 - 4 * s.fld Reg.MEM_T1ZONE.local_

/-- Stack and stack address of a T1 offset (R205, R206). -/
def State.stackOf (s : State) (off : Nat) : Nat × Nat :=
  let g := s.globalGib * gib
  let l := s.fld Reg.MEM_T1ZONE.local_ * gib
  if off < g then
    let q := off / 4096
    (q % 12, q / 12 * 4096 + off % 4096)
  else
    let d := (off - g) / l
    let o := (off - g) % l
    let q := o / 4096
    (3 * d + q % 3, g / 12 + q / 3 * 4096 + off % 4096)

/-- T1 offset of a stack address: the inverse of `stackOf`. -/
def State.offsetOf (s : State) (stack a : Nat) : Nat :=
  let g := s.globalGib * gib
  let l := s.fld Reg.MEM_T1ZONE.local_ * gib
  if a < g / 12 then (a / 4096 * 12 + stack) * 4096 + a % 4096
  else
    let b := a - g / 12
    g + stack / 3 * l + (b / 4096 * 3 + stack % 3) * 4096 + b % 4096

/-- The cells of `[a, a + n)` of one store in place of those of another. -/
def takeRange (t src : List Host.Cell) (a n : Nat) : List Host.Cell :=
  t.filter (fun e => decide (e.1 < a)) ++ src.filter (fun e => decide (a ≤ e.1) && decide (e.1 < a + n)) ++
    t.filter fun e => decide (a + n ≤ e.1)

/-- A write-back takes a line's data to its stack (R214, R215). -/
def State.storeLine (s : State) (stack line : Nat) : State :=
  { s with stack := takeRange s.stack s.mem.t1 (s.offsetOf stack (256 * line)) 256 }

/-- The cloak area: the last 2.5 GiB of the global zone (R208). -/
def State.inCloak (s : State) (off n : Nat) : Bool :=
  let g := s.globalGib * gib
  decide (off < g) && decide (g - 5 * gib / 2 < off + n)

/-- A lender entry covers some byte of the T1 range: lent, recalling, or not yet zeroed (R219, R223). -/
def State.isLent (s : State) (off n : Nat) : Bool :=
  (List.range 16).any fun i =>
    let st := s.fld Reg.MEM_LEND.state i
    let b := s.fld Reg.MEM_LEND.base i * 65536 - Store.t1.base
    st != 0 && decide (off < b + s.fld Reg.MEM_LEND.length i) && decide (b < off + n)

/-- Some byte of the T1 range is in a poisoned chunk (R217). -/
def State.isPoisoned (s : State) (off n : Nat) : Bool :=
  (List.range ((off + n + 63) / 64 - off / 64)).any fun k => Table.get false s.poison (off / 64 + k)

/-! ### The staging cache (R211 to R216) -/

/-- Dirty lines a set keeps: MEM_SCCFG.dirty_hi, with 0 treated as 1 (Table 10.3). -/
def State.dirtyHi (s : State) : Nat := max 1 (s.fld Reg.MEM_SCCFG.dirty_hi)

/-- The way a 15-bit tree pseudo-LRU picks: from the root, a 0 goes to the lower half (R213). -/
def plruVictim (t : Nat) : Nat :=
  let go (n : Nat) : Nat := 2 * n + (if bit t n then 2 else 1)
  go (go (go (go 0))) - 15

/-- An access to a way turns every bit on its path away from it (R213). -/
def plruTouch (t way : Nat) : Nat :=
  let put (t n : Nat) (up : Bool) : Nat := t - (ofFlag (bit t n)) * 2 ^ n + (ofFlag up) * 2 ^ n
  let b3 := bit way 3
  let b2 := bit way 2
  let b1 := bit way 1
  let b0 := bit way 0
  let n1 := if b3 then 2 else 1
  let n2 := 2 * n1 + (if b2 then 2 else 1)
  let n3 := 2 * n2 + (if b1 then 2 else 1)
  put (put (put (put t 0 (!b3)) n1 (!b2)) n2 (!b1)) n3 (!b0)

/-- The lowest-numbered way of 16 that no valid line uses. -/
def freeWay (ways : List CacheWay) : Option Nat := (List.range 16).find? fun w => !ways.any fun x => x.way == w

/-- Write back the least recently used dirty line of a set that holds more than `hi` dirty lines (R214): the ways after it, and the line. A
set that a lowered dirty_hi leaves above it does so at its next access, one line each time (DESIGN CHOICE, log entry 108). -/
def trimDirty (hi : Nat) (ways : List CacheWay) : List CacheWay × List Nat :=
  if (ways.filter (·.dirty)).length ≤ hi then (ways, [])
  else match (ways.reverse.find? (·.dirty)) with
    | some w => (ways.map fun x => if x.way == w.way then { x with dirty := false } else x, [w.line])
    | none => (ways, [])

/-- One access to a line of a set: a hit refreshes it, a miss allocates unless `alloc` is false, and a write leaves it dirty
(R212, R213). The answer names the lines written back: a dirty victim, and what `trimDirty` picks. -/
def accessSet (c : CacheSet) (line : Nat) (write alloc : Bool) (hi : Nat) : CacheSet × List Nat :=
  match c.ways.find? fun w => w.line == line with
  | some w =>
    let got := trimDirty hi ({ w with dirty := w.dirty || write } :: c.ways.filter fun x => x.way != w.way)
    (⟨got.1, plruTouch c.plru w.way⟩, got.2)
  | none =>
    if !alloc then (c, [])
    else
      let v := (freeWay c.ways).getD (plruVictim c.plru)
      let victim := (c.ways.filter fun x => x.way == v && x.dirty).map (·.line)
      let got := trimDirty hi (⟨v, line, write⟩ :: c.ways.filter fun x => x.way != v)
      (⟨got.1, plruTouch c.plru v⟩, victim ++ got.2)

/-- The set key of a stack's line: M-die × 2^14 + bank × 2^11 + set (R211). -/
def setKey (stack line : Nat) : Nat := stack * 2 ^ 14 + line % 8 * 2 ^ 11 + line / 8 % 2048

/-- One access of T1 reaches the staging cache of every 256-byte line it touches (R210 to R212). -/
def State.touchLines (s : State) (off n : Nat) (write : Bool) : State :=
  (List.range ((off + n + 255) / 256 - off / 256)).foldl (fun s k =>
    let o := (off / 256 + k) * 256
    let place := s.stackOf o
    let line := place.2 / 256
    let key := setKey place.1 line
    let alloc := write || !bit (s.fld Reg.MEM_NOALLOC.gib (o / gib / 32)) (o / gib % 32)
    let got := accessSet (Table.get CacheSet.empty s.cache key) line write alloc s.dirtyHi
    let s := got.2.foldl (fun s l => s.storeLine place.1 l) s
    { s with cache := Table.set CacheSet.empty s.cache key got.1 }) s

/-- Some 256-byte line of a T1 range is in no staging cache: an access of it misses (R204). -/
def State.misses (s : State) (off n : Nat) : Bool :=
  (List.range ((off + n + 255) / 256 - off / 256)).any fun k =>
    let place := s.stackOf ((off / 256 + k) * 256)
    let line := place.2 / 256
    !(Table.get CacheSet.empty s.cache (setKey place.1 line)).ways.any fun w => w.line == line

/-- The bytes of T1 as every reader sees them: a dirty line is their home (R210). -/
def State.t1Get (s : State) (off n : Nat) : List Byte := readBytes s.mem.t1 off n

/-- A little-endian number in T1. -/
def State.t1Num (s : State) (off n : Nat) : Nat := ofBytes (s.t1Get off n)

/-- A read of T1 through the staging caches. -/
def State.t1Read (s : State) (off n : Nat) : List Byte × State := (s.t1Get off n, s.touchLines off n false)

/-- Chunks of T1 wholly covered by a write lose their poison (R217). -/
def clearPoison (p : List (Nat × Bool)) (off n : Nat) : List (Nat × Bool) :=
  p.filter fun e => !(decide (off ≤ e.1 * 64) && decide (e.1 * 64 + 64 ≤ off + n))

/-- A write of T1 through the staging caches. -/
def State.t1Put (s : State) (off : Nat) (bs : List Byte) : State :=
  let s := s.touchLines off bs.length true
  { s with mem := { s.mem with t1 := writeBytes s.mem.t1 off bs }, poison := clearPoison s.poison off bs.length }

/-- Zeros over a range of T1, written through the staging caches (R210). -/
def State.t1Zero (s : State) (off n : Nat) : State :=
  let s := s.touchLines off n true
  { s with mem := { s.mem with t1 := zeroRange s.mem.t1 off n }, poison := clearPoison s.poison off n }

/-- A read of a range at a program address reaches the staging caches where it lies in T1 (R210). -/
def State.touchT1 (s : State) (a n : Nat) : State :=
  match locate a with
  | some (.t1, o) => s.touchLines o n false
  | _ => s

/-- Read at a program address an engine of a cluster may name; `arrived` are the bytes a T2 or T3 read brought. -/
def State.progGet (s : State) (core a n : Nat) (arrived : List Byte) : List Byte :=
  match locate a with
  | some (.scratch, o) => s.scratchGet core o n
  | some (.sram, o) => s.sramGet (core / 16) o n
  | some (.t1, o) => s.t1Get o n
  | _ => (arrived ++ List.replicate n 0).take n

/-- Write at a program address: T0 and T1 in place, T3 to host memory. A T2 write leaves as a remote store. -/
def State.progPut (s : State) (core a : Nat) (bs : List Byte) : State :=
  match locate a with
  | some (.scratch, o) => s.scratchPut core o bs
  | some (.sram, o) => s.sramPut (core / 16) o bs
  | some (.t1, o) => s.t1Put o bs
  | some (.t3, o) => s.t3Put o bs
  | _ => s

/-! ### Where rings and areas lie -/

/-- A ring entry or area named by a T1 or T3 program address cannot be reached: it meets the cloak area (R208), T3 is not enabled (R224), or
the address is of neither tier. -/
def State.areaClosed (s : State) (a n : Nat) : Bool :=
  match locate a with
  | some (.t1, o) => s.inCloak o n
  | some (.t3, _) => !s.flag Reg.MEM_T3BASE.en
  | _ => true

/-- Read a ring entry or area named by a T1 or T3 program address; T3 bytes are the host's, and come with the command. What cannot be
reached reads as zeros. -/
def State.areaGet (s : State) (a n : Nat) (host : List Byte) : List Byte :=
  if s.areaClosed a n then List.replicate n 0
  else match locate a with
    | some (.t1, o) => s.t1Get o n
    | _ => (host ++ List.replicate n 0).take n

/-- Write a ring entry or area named by a T1 or T3 program address; a write of what cannot be reached is discarded. -/
def State.areaPut (s : State) (a : Nat) (bs : List Byte) : State :=
  if s.areaClosed a bs.length then s
  else match locate a with
    | some (.t1, o) => s.t1Put o bs
    | some (.t3, o) => s.t3Put o bs
    | _ => s

/-! ### Late beats and learned waits (R227 to R229) -/

/-- Learned wait of a tier with no history, and its floor, in ns (R228). -/
def avgStart (tier : Nat) : Nat := if tier = 1 then 250 else if tier = 2 then 2000 else 4000

/-- Floor of a tier's late threshold in ns (R228). -/
def lateFloor (tier : Nat) : Nat := if tier = 1 then 4000 else if tier = 2 then 32000 else 64000

/-- MEM_LATE of a tier: 16 × avg, raised to the floor and lowered to half the stall timeout (R228). -/
def State.lateNs (s : State) (tier : Nat) : Nat :=
  min (max (16 * Table.get (avgStart tier) s.avg tier) (lateFloor tier)) (s.fld Reg.MEM_STALLTO.timeout_us (tier - 1) * 1000 / 2)

/-- What is charged to one cause of Table 10.2. -/
def causeWait (waits : List (Nat × Nat)) (cause : Nat) : Nat := ((waits.filter fun w => w.1 == cause).map (·.2)).sum

/-- A beat's whole wait, over every cause it is charged to (R228). -/
def wholeWait (waits : List (Nat × Nat)) : Nat := ((List.range 9).map (causeWait waits)).sum

/-- The cause with the largest share of the wait (R229); the lowest-coded one of equals. -/
def topCause (waits : List (Nat × Nat)) : Nat :=
  (List.range 9).foldl (fun best c => if causeWait waits best < causeWait waits c then c else best) 0

/-- Charge a beat's waits to MEM_STALLNS, one cause each (R227). -/
def State.chargeWaits (s : State) (waits : List (Nat × Nat)) : State :=
  waits.foldl (fun s w => if w.1 ≤ 8 then s.count Reg.MEM_STALLNS.count w.2 w.1 else s) s

/-- A beat of a tier whose whole wait passes the late threshold is counted and reported, whether it then completes or not (R229). -/
def State.countLate (s : State) (waits : List (Nat × Nat)) (tier : Nat) : State :=
  if tier = 0 ∨ wholeWait waits ≤ s.lateNs tier then s
  else
    ((s.count Reg.MEM_LATECNT.count 1 (tier - 1)).raise Reg.MEM_EVT.late Reg.MEM_EVTMASK.mask).report
      .module 1 0x0305 1 [tier, topCause waits]

/-- A completed beat of a tier that waited: a late one is counted and reported, and the learned wait moves (R228, R229). -/
def State.learnWait (s : State) (waits : List (Nat × Nat)) (tier : Nat) : State :=
  let w := wholeWait waits
  if w = 0 ∨ tier = 0 then s
  else
    let s := s.countLate waits tier
    let old := Table.get (avgStart tier) s.avg tier
    { s with avg := Table.set (avgStart tier) s.avg tier ((old : Int) + divEven ((w : Int) - (old : Int)) 1024).toNat }

/-- Beats of the XE, an SE slice or the NVS that waited, each with its tier, are charged as those of a mover are (R227, R228). -/
def State.chargeBeats (s : State) (beats : List (Nat × List (Nat × Nat))) : State :=
  beats.foldl (fun s b => if b.1 ≤ 3 then (s.chargeWaits b.2).learnWait b.2 b.1 else s) s

/-! ### Errors and failures of a tier (R217, R222, R225, R226) -/

/-- Software groups that hold a slot at any depth, as far as `n` levels. -/
def State.groupsHolding (s : State) : Nat → Nat → List Nat
  | 0, _ => []
  | n + 1, slot =>
    let gs := (s.groups.filter fun g => g.2.slots.contains slot).map (·.1)
    gs ++ gs.flatMap fun g => s.groupsHolding n (slotGroup g)

/-- A corrected or uncorrectable error of a unit is counted in its UNIT_ERRCNT and in that of every unit it is a member of (Table 3.8). -/
def State.countError (s : State) (slot : Nat) : State :=
  (slot :: 0 :: ((s.groupsHolding 64 slot).eraseDups.map slotGroup)).foldl (fun s u =>
    let was := s.flag Reg.UNIT_ERRCNT.sat u
    let s := s.count Reg.UNIT_ERRCNT.count 1 u
    if !was && s.flag Reg.UNIT_ERRCNT.sat u then s.raiseUnit Reg.UNIT_EVT.sat Reg.UNIT_EVTMASK.sat u else s) s

/-- Errors that M-dies have corrected. -/
def State.countCorrected (s : State) (mdies : List Nat) : State :=
  mdies.foldl (fun s m => if m < 12 then s.countError (slotMdie m) else s) s

/-- The 64-byte chunk of a T1 offset is poisoned, located at a stack and stack address, counted and recorded (R217). -/
def State.poisonAt (s : State) (off stack a : Nat) : State :=
  let s := { s with poison := Table.set false s.poison (off / 64) true }
  let s := (s.setFld Reg.MEM_UCADDR.stack stack).setFld Reg.MEM_UCADDR.addr a
  let s := (s.raise Reg.MEM_EVT.uc Reg.MEM_EVTMASK.mask).countError (slotMdie stack)
  s.recordFault 0x0301 (.unit (slotMdie stack)) [stack, a]

/-- An uncorrectable error at a T1 offset (R217). -/
def State.uncorrectable (s : State) (off : Nat) : State :=
  if t1Size ≤ off then s else s.poisonAt off (s.stackOf (off / 64 * 64)).1 (s.stackOf (off / 64 * 64)).2

/-- The borrower entry that holds a T2 program address range and may be used (R219, R222). -/
def State.t2Entry (s : State) (a n : Nat) : Option Nat :=
  (List.range 16).find? fun i =>
    let st := s.fld Reg.MEM_T2MAP.state i
    let b := s.fld Reg.MEM_T2MAP.base i * 65536
    (st == 1 || st == 2) && decide (b ≤ a) && decide (a + n ≤ b + s.fld Reg.MEM_T2MAP.length i)

/-- An access to a borrowed range may be sent now (R219, R220, R222, R379): its entry is in use, its lender in the single-stage domain, and
the guard before the end of the lease has not begun. -/
def State.t2Open (s : State) (a n : Nat) : Bool :=
  match s.t2Entry a n with
  | some i =>
    s.flag Reg.FAB_EPID.valid && s.inDomain (s.fld Reg.MEM_T2MAP.ep i) && decide (s.gscXdie + 10000 < s.fld Reg.MEM_T2MAP.lease_end i)
  | none => false

/-- The request for a range of T2, in the lender's region (R219, Table 17.1), as SE slice 0 issues it. -/
def State.borrowPacket (s : State) (ptype a lines : Nat) (bytes : List Byte) : Packet :=
  let i := (s.t2Entry a (64 * lines)).getD 0
  { dst := s.fld Reg.MEM_T2MAP.ep i, group := false, ptype := ptype, var := 0, lines := lines, key := s.fld Reg.MEM_T2MAP.key i,
    offset := s.fld Reg.MEM_T2MAP.roff i + (a - s.fld Reg.MEM_T2MAP.base i * 65536), job := 0xFFFF, kind := 2, unit := 2,
    seq := 0, tag := 0, gateway := none, resent := false, minimal := false, bytes := bytes }

/-- A borrower entry fails (R222, R226). -/
def State.failT2 (s : State) (i : Nat) : State :=
  ((s.setFld Reg.MEM_T2MAP.state 3 i).raise Reg.MEM_EVT.t2_fail Reg.MEM_EVTMASK.mask).recordFault 0x0303 .module [i]

/-- T3 fails (R225): the module makes no access to it until the host sets en again. -/
def State.failT3 (s : State) : State :=
  if !s.flag Reg.MEM_T3BASE.en then s
  else ((s.setFld Reg.MEM_T3BASE.en 0).raise Reg.MEM_EVT.t3_fail Reg.MEM_EVTMASK.mask).recordFault 0x0304 (.unit slotXdieA) []

end Sys2Proof.Machine
end

