-- ==== Sys2Proof/Machine/Cores.lean ====
section
/-! DEFINITION. Cores as the engines see them (chapter 04): run states, sequencer items, tallies and draining. -/

namespace Sys2Proof.Machine

/-- The core of a number. -/
def State.core (s : State) (c : Nat) : Core := Table.get Core.reset s.cores c

/-- Store a core. -/
def State.setCore (s : State) (c : Nat) (k : Core) : State := { s with cores := Table.set Core.reset s.cores c k }

/-- Change a core. -/
def State.modCore (s : State) (c : Nat) (f : Core → Core) : State := s.setCore c (f (s.core c))

/-- Run states of UNIT_STATE.run (Table 3.4). -/
def Run.off : Nat := 0
/-- 1 idle. -/
def Run.idle : Nat := 1
/-- 2 running. -/
def Run.running : Nat := 2
/-- 3 quiescing. -/
def Run.quiescing : Nat := 3
/-- 4 quiesced. -/
def Run.quiesced : Nat := 4
/-- 5 in reset. -/
def Run.reset : Nat := 5
/-- 6 held off in Apron mode. -/
def Run.apron : Nat := 6

/-- The run state of a slot without members. -/
def State.run (s : State) (slot : Nat) : Nat := s.fld Reg.UNIT_STATE.run slot

/-- The time a slot has spent in run state 2 in ns (Table 3.8). -/
def State.busyNow (s : State) (slot : Nat) : Nat :=
  let since := Table.get 0 s.ranSince slot
  Table.get 0 s.busyNs slot + (if since = 0 then 0 else s.uptime + 1 - since)

/-- Change a slot's run state; a change sets UNIT_EVT.run_change (Table 3.7), and time in run state 2 is added up (Table 3.8). -/
def State.setRun (s : State) (slot r : Nat) : State :=
  if s.run slot = r then s
  else
    let t := s.busyNow slot
    let s := { s with
      busyNs := Table.set 0 s.busyNs slot t
      ranSince := Table.set 0 s.ranSince slot (if r = Run.running then s.uptime + 1 else 0) }
    ((s.setFld Reg.UNIT_BUSY.busy_us (t / 1000) slot).setFld Reg.UNIT_STATE.run r slot).raiseUnit
      Reg.UNIT_EVT.run_change Reg.UNIT_EVTMASK.run_change slot

/-- The unit is retired (R52). -/
def State.retired (s : State) (slot : Nat) : Bool := s.fld Reg.UNIT_STATE.health slot == 3

/-! ### Sequencer items (Table 4.1) -/

/-- Address register. -/
def Sequencer.a (q : Sequencer) (r : Nat) : Addr := Table.get 0 q.areg r
/-- Counter register. -/
def Sequencer.c (q : Sequencer) (r : Nat) : Word := Table.get 0 q.creg r
/-- Predicate; P0 reads 1 (R65). -/
def Sequencer.p (q : Sequencer) (r : Nat) : Bool := if r = 0 then true else Table.get false q.pred r
/-- Event counter. -/
def Sequencer.e (q : Sequencer) (r : Nat) : Nat := Table.get 0 q.event r
/-- Source code of an event; E0 to E23 are local (Table 4.6). -/
def Sequencer.bind (q : Sequencer) (r : Nat) : Nat := Table.get 0 q.binding r

/-- Write an address register. -/
def Sequencer.setA (q : Sequencer) (r : Nat) (v : Addr) : Sequencer := { q with areg := Table.set 0 q.areg r v }
/-- Write a counter register. -/
def Sequencer.setC (q : Sequencer) (r : Nat) (v : Word) : Sequencer := { q with creg := Table.set 0 q.creg r v }
/-- Write a predicate; a write to P0 is discarded (R65). -/
def Sequencer.setP (q : Sequencer) (r : Nat) (v : Bool) : Sequencer :=
  if r = 0 then q else { q with pred := Table.set false q.pred r v }
/-- Store an event count. -/
def Sequencer.setE (q : Sequencer) (r : Nat) (v : Nat) : Sequencer := { q with event := Table.set 0 q.event r v }

/-- The job with an identifier, if active. -/
def State.job? (s : State) (j : Nat) : Option Job := s.jobs.find? fun x => x.id == j

/-- Change an active job. -/
def State.modJob (s : State) (j : Nat) (f : Job → Job) : State :=
  { s with jobs := s.jobs.map fun x => if x.id == j then f x else x }

/-- A signal lands in a core's pending tally, which sticks past 4,095 (R92); 4,096 marks an overflow. -/
def Core.addTally (k : Core) (e : Nat) : Core :=
  { k with tally := Table.set 0 k.tally e (min 4096 (Table.get 0 k.tally e + 1)) }

/-- Every event of a sequencer bound to a source code. -/
def Sequencer.boundTo (q : Sequencer) (code : Nat) : List Nat := (q.binding.filter fun x => x.2 == code).map (·.1)

/-- The sequencer of a job on a core, wherever it is held. -/
def State.jobSeq (s : State) (j c : Nat) : Option Sequencer :=
  let k := s.core c
  if k.sq.job = j then some k.sq
  else match s.images.find? fun x => (x.1 / 2 == c) && x.2.job == j with
    | some (_, im) => some im.core.sq
    | none => none

/-! ### Draining (R91) -/

/-- No beat of a mover is in progress: what was sent has completed. -/
def quietMover (q : List MoverOp) : Bool := q.all fun o => decide (o.sent ≤ o.beats) && !o.readback

/-- Everything a frozen core must finish has finished: the movers only end the beats in progress. -/
def Core.drained (k : Core) : Bool :=
  k.dpa.isEmpty && k.vrw.isEmpty && k.fab.isEmpty && k.engine.isEmpty && k.claim.isNone && quietMover k.mover0 && quietMover k.mover1

/-- Every operation the core issued has completed. -/
def Core.empty (k : Core) : Bool := k.drained && k.mover0.isEmpty && k.mover1.isEmpty

/-- The core has come to rest: a halted core finishes its movers too (R87), a frozen one only drains. -/
def Core.atRest (k : Core) : Bool := if k.halted && !k.frozen then k.empty else k.drained

end Sys2Proof.Machine
end

