-- ==== Sys2Proof/Machine/Queues.lean ====
section
/-! DEFINITION. Rings, doorbells, and commands taken and completed (R245, R302 to R306). -/

namespace Sys2Proof.Machine

/-! ### Rings (R245): positions count modulo 2n, as index + n × phase -/

/-- Position of a ring index whose phase bit stands above `ib` index bits. -/
def ringPos (ib n v : Nat) : Nat := v % 2 ^ ib + n * (v / 2 ^ ib % 2)

/-- The index and phase of a position. -/
def ringIndex (ib n p : Nat) : Nat := p % n + 2 ^ ib * (p / n % 2)

/-- Forward distance between two positions. -/
def ringDist (n a b : Nat) : Nat := (b + 2 * n - a) % (2 * n)

/-- The phase that the producer of a ring writes into an entry: 1 on the first pass, inverted on each later one. -/
def entryPhase (n p : Nat) : Nat := 1 - p / n % 2

/-- A ring index that names an entry and a phase: the index is below n and nothing stands above the phase bit. -/
def ringLegal (ib n v : Nat) : Bool := decide (v % 2 ^ ib < n) && decide (v < 2 ^ (ib + 1))

/-! ### The hardware queues (R302 to R304) -/

/-- Entries of a queue's ring. -/
def State.qN (s : State) (q : Nat) : Nat := 2 ^ s.fld Reg.SEQ_QCFG.log2n q
/-- Ring address of a queue. -/
def State.qBase (s : State) (q : Nat) : Nat := s.fld Reg.SEQ_QCFG.base q * 4096
/-- The queue is enabled. -/
def State.qEn (s : State) (q : Nat) : Bool := s.flag Reg.SEQ_QCFG.en q
/-- Position of the consumer. -/
def State.qHead (s : State) (q : Nat) : Nat := ringPos 16 (s.qN q) (s.fld Reg.SEQ_QCFG.head q)
/-- Position of the producer. -/
def State.qTail (s : State) (q : Nat) : Nat := ringPos 16 (s.qN q) (s.fld Reg.SEQ_QCFG.tail q)
/-- Move the consumer. -/
def State.setHead (s : State) (q p : Nat) : State := s.setFld Reg.SEQ_QCFG.head (ringIndex 16 (s.qN q) (p % (2 * s.qN q))) q
/-- Move the producer. -/
def State.setTail (s : State) (q p : Nat) : State := s.setFld Reg.SEQ_QCFG.tail (ringIndex 16 (s.qN q) (p % (2 * s.qN q))) q
/-- Entries between consumer and producer. -/
def State.qUsed (s : State) (q : Nat) : Nat := ringDist (s.qN q) (s.qHead q) (s.qTail q)
/-- An enabled queue of a kind. -/
def State.qIs (s : State) (q kind : Nat) : Bool := s.qEn q && s.fld Reg.SEQ_QCFG.kind q == kind

/-- Set an event bit of SEQ_SRVEVT (Table 13.17). -/
def State.srvEvt (s : State) (f : Field) : State := s.raise f Reg.SEQ_SRVEVTMASK.mask

/-- The host reaches BAR2: the link, and the block that holds the queues' registers. -/
def State.doorbell (s : State) (k : State → State) : State :=
  if s.hostReach && s.blockOpen (blockOf 0x500000) then k s else s

/-- DOORBELL_TAIL (R304): a doorbell write to a command queue, at `offset` in the queue's 64 bytes. -/
def execDoorbellTail (queue offset value : Nat) (s : State) : Host.Outcome State Fault Refusal :=
  .next (if !s.qIs queue 1 && s.qEn queue then s
  else s.doorbell fun s =>
    let n := s.qN queue
    let h := s.qHead queue
    let t := ringPos 16 n value
    if offset ≠ 0 ∨ !s.qEn queue ∨ !ringLegal 16 n value ∨ ringDist n h t < s.qUsed queue ∨ n < ringDist n h t then
      s.srvEvt Reg.SEQ_SRVEVT.bad_db
    else if ringDist n h t = s.qUsed queue then s
    else { s.setTail queue t with doorbells := s.doorbells ++ [(queue, t)] })

/-- DOORBELL_HEAD (R304): a doorbell write to a completion or stream queue. -/
def execDoorbellHead (queue offset value : Nat) (s : State) : Host.Outcome State Fault Refusal :=
  .next (if s.qIs queue 1 then s
  else s.doorbell fun s =>
    let n := s.qN queue
    let h := ringPos 16 n value
    if offset ≠ 0 ∨ !s.qEn queue ∨ !ringLegal 16 n value ∨ s.qUsed queue < ringDist n (s.qHead queue) h then
      s.srvEvt Reg.SEQ_SRVEVT.bad_db
    else s.setHead queue h)

/-- QUEUE_ENABLE (R303, R518): en goes from 0 to 1 with the fields of the same word; log2n outside 4 to 16 discards the write whole. -/
def execQueueEnable (queue value : Nat) (s : State) : Host.Outcome State Fault Refusal :=
  .next (s.hostWrite (0x500008 + 32 * queue) 4 fun s =>
    if s.qEn queue ∨ bits value 4 0 < 4 ∨ 16 < bits value 4 0 then s
    else if !s.flag Reg.SEQ_KVLOCK.lock then s.latchAccess 3 (0x500008 + 32 * queue) 4
    else
      let s := s.setFld Reg.SEQ_QCFG.kind (bits value 25 24) queue
      let s := s.setFld Reg.SEQ_QCFG.slice (bits value 21 20) queue
      let s := s.setFld Reg.SEQ_QCFG.log2n (bits value 4 0) queue
      let s := s.setFld Reg.SEQ_QCFG.head 0 queue
      let s := s.setFld Reg.SEQ_QCFG.tail 0 queue
      s.setFld Reg.SEQ_QCFG.en 1 queue)

/-- QUEUE_DISABLE (R303): the queue stops at once; entries not taken are dropped, and so are completion entries reserved in it. -/
def execQueueDisable (queue : Nat) (s : State) : Host.Outcome State Fault Refusal :=
  .next (s.hostWrite (0x500008 + 32 * queue) 4 fun s =>
    if !s.qEn queue then s
    else { s.setFld Reg.SEQ_QCFG.en 0 queue with
      doorbells := s.doorbells.filter fun d => d.1 != queue,
      queueDisables := Table.modify 0 s.queueDisables queue (· + 1) })

/-! ### Taking a command (R305) -/

/-- The completion queue of a command queue has an entry free. -/
def State.canReserve (s : State) (q : Nat) : Bool :=
  let c := s.fld Reg.SEQ_QCFG.cplq q
  s.qIs c 2 && decide (s.qUsed c < s.qN c)

/-- The queue a slice takes its next command from: the oldest doorbell whose completion queue has room. -/
def State.nextQueue (s : State) (slice : Nat) : Option Nat :=
  (s.doorbells.find? fun d => s.fld Reg.SEQ_QCFG.slice d.1 == slice && s.qIs d.1 1 && s.canReserve d.1).map (·.1)

/-- A command entry (Table 13.2). -/
structure Command where
  op : Nat
  seq : Nat
  tag : Nat
  addr : Nat
  ledger : Nat
  src : Nat
  len : Nat
  hist : Nat
  raw : List Byte
  deriving DecidableEq, Repr

/-- A number at an offset of a byte string. -/
def numAt (bs : List Byte) (off n : Nat) : Nat := ofBytes ((bs.drop off).take n)

/-- The fields of a command entry. -/
def Command.ofBytes (bs : List Byte) : Command :=
  { op := numAt bs 0 1, seq := numAt bs 2 2, tag := numAt bs 4 4, addr := numAt bs 8 8, ledger := numAt bs 0x10 1,
    src := numAt bs 0x12 2, len := numAt bs 0x14 4, hist := numAt bs 0x18 8, raw := bs }

/-- The offset of the first byte that is not zero among the offsets listed. -/
def firstNonzero (bs : List Byte) (offs : List Nat) : Option Nat := offs.find? fun o => numAt bs o 1 != 0

/-- Offsets `a` up to `b`, without `b`. -/
def span (a b : Nat) : List Nat := (List.range (b - a)).map (· + a)

/-- The SE ring makes steps (R429, R444, R493). -/
def State.seRuns (s : State) : Bool := !s.stopped && !s.flag Reg.PWR_SUPSTAT.hold && s.fld Reg.PWR_THERM.state != 2

/-- The entry at the head of a command queue: `host` holds the ring's bytes where it lies in T3. -/
def State.headEntry (s : State) (q : Nat) (host : List Byte) : Command :=
  Command.ofBytes (s.areaGet (s.qBase q + 64 * (s.qHead q % s.qN q)) 64 host)

/-- Take the command at the head of a queue: its completion entry is reserved first. -/
def State.take (s : State) (q : Nat) (cmd : Command) : Taken × State :=
  let c := s.fld Reg.SEQ_QCFG.cplq q
  let t : Taken := ⟨cmd.tag, cmd.op, c, s.qTail c, Table.get 0 s.queueDisables c⟩
  let h := (s.qHead q + 1) % (2 * s.qN q)
  let s := ((s.touchT1 (s.qBase q + 64 * (s.qHead q % s.qN q)) 64).setTail c (s.qTail c + 1)).setHead q h
  (t, { s with doorbells := s.doorbells.filter fun d => !(d.1 == q && d.2 == h) })

/-- A row takes the next command of a slice from queue `q` when its opcode is one of the row's, and the ring can be read (R208, R224). -/
def State.takeCmd (s : State) (q : Nat) (host : List Byte) (mine : Nat → Bool) (k : State → Taken → Command → State) : State :=
  if !s.seRuns || s.closing || s.nextQueue (s.fld Reg.SEQ_QCFG.slice q) != some q ||
      s.areaClosed (s.qBase q + 64 * (s.qHead q % s.qN q)) 64 then s
  else
    let cmd := s.headEntry q host
    if !mine cmd.op then s
    else
      let got := s.take q cmd
      let t := got.1
      let s := got.2
      k s t cmd

/-- The completion record of a command (Table 13.4), in the entry reserved for it unless its queue has been disabled since; a
non-zero status sets SEQ_SRVEVT.cmd_fail. -/
def State.complete (s : State) (t : Taken) (status detail : Nat) : State :=
  let s := if status = 0 then s else s.srvEvt Reg.SEQ_SRVEVT.cmd_fail
  if Table.get 0 s.queueDisables t.cplq != t.disables then s
  else
    let n := s.qN t.cplq
    s.areaPut (s.qBase t.cplq + 16 * (t.cplPos % n))
      (toBytes 4 t.tag ++ toBytes 1 t.op ++ toBytes 1 status ++ toBytes 1 (entryPhase n t.cplPos) ++ toBytes 1 0 ++ toBytes 8 detail)

/-- The completion of a KV command: a non-zero status also sets SEQ_KVEVT.reject (R299). -/
def State.completeKv (s : State) (t : Option Taken) (status detail : Nat) : State :=
  match t with
  | none => s
  | some t =>
    let s := if status = 0 then s else s.raise Reg.SEQ_KVEVT.reject Reg.SEQ_KVEVTMASK.mask
    s.complete t status detail

/-! ### Stream queues (R308, R327) -/

/-- Entries of a stream queue neither used nor reserved. -/
def State.streamFree (s : State) (q : Nat) : Nat :=
  if s.qIs q 3 then s.qN q - s.qUsed q - Table.get 0 s.streamHeld q else 0

/-- Reserve entries of a stream queue. -/
def State.reserveStream (s : State) (q n : Nat) : State :=
  { s with streamHeld := Table.modify 0 s.streamHeld q (· + n) }

/-- Give reserved entries back. -/
def State.releaseStream (s : State) (q n : Nat) : State :=
  { s with streamHeld := Table.modify 0 s.streamHeld q (· - n) }

/-- Write one token record (Table 13.11) to the next entry of a stream queue, using a reserved entry. -/
def State.streamRecord (s : State) (q handle flags status token pos : Nat) : State :=
  let s := s.releaseStream q 1
  if !s.qIs q 3 then s
  else
    let n := s.qN q
    let p := s.qTail q
    let s := s.areaPut (s.qBase q + 16 * (p % n))
      (toBytes 2 handle ++ toBytes 1 (flags + entryPhase n p) ++ toBytes 1 status ++ toBytes 4 token ++ toBytes 4 pos ++
        toBytes 4 (bits s.gscSe 41 10))
    s.setTail q (p + 1)

end Sys2Proof.Machine
end

