-- ==== Sys2Proof/Machine/Kv.lean ====
section
/-! DEFINITION. KV pages, ledgers and the decisions of a former (chapter 12). -/

namespace Sys2Proof.Machine

/-! ### Where things lie -/

/-- T1 offset of a program address in T1. -/
def t1Off (a : Nat) : Nat := a - Store.t1.base

/-- Pages per set Λ. -/
def State.kvLayers (s : State) : Nat := s.fld Reg.SEQ_KVCFG.layers
/-- Program address of the page of layer-slice `l` in a set (R272). -/
def State.kvPage (s : State) (set l : Nat) : Nat := s.fld Reg.SEQ_KVPOOL.base * 65536 + 65536 * (s.kvLayers * set + l)
/-- Bytes of a set. -/
def State.setBytes (s : State) : Nat := 65536 * s.kvLayers
/-- Program address of a sequence's KV record (R277). -/
def State.kvRec (s : State) (h : Nat) : Nat := s.fld Reg.SEQ_KVREC.base * 4096 + 128 * h
/-- Program address of a set's reference count (R287). -/
def State.kvCountAt (s : State) (set : Nat) : Nat := s.fld Reg.SEQ_KVLDG.base * 4096 + 4 * set
/-- Program address of a park slot (R291). -/
def State.parkAt (s : State) (slot : Nat) : Nat := s.fld Reg.SEQ_KVPARK.base * 65536 + s.setBytes * slot

/-- A number in T1 at a program address. -/
def State.numT1 (s : State) (a n : Nat) : Nat := s.t1Num (t1Off a) n
/-- A field of a KV record (Table 12.5). -/
def State.kvField (s : State) (h off n : Nat) : Nat := s.numT1 (s.kvRec h + off) n
/-- Record state: 0 free, 1 resident, 2 parked, 3 restoring. -/
def State.kvState (s : State) (h : Nat) : Nat := s.kvField h 0 1
/-- Record flags. -/
def State.kvFlags (s : State) (h : Nat) : Nat := s.kvField h 1 1
/-- Ledger of a record. -/
def State.kvLedger (s : State) (h : Nat) : Nat := s.kvField h 2 1
/-- Positions in the sequence. -/
def State.kvLength (s : State) (h : Nat) : Nat := s.kvField h 4 4
/-- Positions whose KV is present. -/
def State.kvValid (s : State) (h : Nat) : Nat := s.kvField h 8 4
/-- The sequence is pinned by a batch in flight (R285). -/
def State.kvPinned (s : State) (h : Nat) : Bool := bit (s.kvFlags h) 3
/-- Table-block index of block `k`; 0xFFFF_FFFF for none. -/
def State.kvTblk (s : State) (h k : Nat) : Nat := s.kvField h (0x40 + 4 * k) 4
/-- No table block. -/
def noBlock : Nat := 0xFFFFFFFF
/-- Program address of entry `i` in a table block (R278). -/
def State.entryAt (s : State) (blk i : Nat) : Nat := s.fld Reg.SEQ_KVTAB.base * 4096 + 4096 * blk + 4 * (i % 1024)
/-- Table entry `i` of a sequence; 0, that is loc 0, where it has no table block. -/
def State.kvEntry (s : State) (h i : Nat) : Nat :=
  let blk := s.kvTblk h (i / 1024)
  if s.kvState h = 0 ∨ blk = noBlock ∨ 16384 ≤ i then 0 else s.numT1 (s.entryAt blk i) 4
/-- The loc of an entry (Table 12.6). -/
def entLoc (e : Nat) : Nat := bits e 31 30
/-- The index of an entry. -/
def entIx (e : Nat) : Nat := bits e 23 0
/-- An entry. -/
def mkEnt (loc ix : Nat) : Nat := loc * 2 ^ 30 + ix
/-- Reference count of a set. -/
def State.kvCount (s : State) (set : Nat) : Nat := s.numT1 (s.kvCountAt set) 4

/-- Positions of a sequence's table that its table blocks hold, rising. -/
def State.kvPositions (s : State) (h : Nat) : List Nat :=
  (List.range 16).flatMap fun k => if s.kvTblk h k = noBlock then [] else span (1024 * k) (1024 * k + 1024)

/-- Positions whose entry has a given loc, rising. -/
def State.kvWith (s : State) (h loc : Nat) : List Nat := (s.kvPositions h).filter fun i => entLoc (s.kvEntry h i) == loc

/-- This module's endpoint. -/
def State.ep (s : State) : Nat := s.fld Reg.FAB_EPID.ep

/-- Ledger `i` is enabled here. -/
def State.ledgerOn (s : State) (i : Nat) : Bool := decide (i < 16) && s.flag Reg.SEQ_KVLEDGER.en i

/-- This module is the former of ledger `i`. -/
def State.isFormer (s : State) (i : Nat) : Bool := s.ledgerOn i && s.fld Reg.SEQ_KVLEDGER.former i == s.ep

/-- Sets of a ledger. -/
def State.ledgerSets (s : State) (i : Nat) : List Nat :=
  (List.range (s.fld Reg.SEQ_KVLEDGER.set_count i)).map (· + s.fld Reg.SEQ_KVLEDGER.set_first i)
/-- Free sets of a ledger, lowest first. -/
def State.freeSets (s : State) (i : Nat) : List Nat := (s.ledgerSets i).filter fun k => s.kvCount k == 0
/-- Free park slots of a ledger, lowest first. -/
def State.freePark (s : State) (i : Nat) : List Nat :=
  ((List.range (s.fld Reg.SEQ_KVLEDGER.park_count i)).map (· + s.fld Reg.SEQ_KVLEDGER.park_first i)).filter fun k =>
    !Table.get false s.parkUsed k
/-- Free table blocks of a ledger, lowest first. -/
def State.freeTab (s : State) (i : Nat) : List Nat :=
  ((List.range (s.fld Reg.SEQ_KVLEDGER.tab_count i)).map (· + s.fld Reg.SEQ_KVLEDGER.tab_first i)).filter fun k =>
    !Table.get false s.tabUsed k

/-- Show what is free in a ledger (Table 12.14). -/
def State.showLedger (s : State) (i : Nat) : State :=
  ((s.setFld Reg.SEQ_KVSTAT.free_sets (s.freeSets i).length i).setFld Reg.SEQ_KVSTAT.free_park (s.freePark i).length i).setFld
    Reg.SEQ_KVSTAT.free_tab (s.freeTab i).length i

/-! ### Ledger operations (Table 12.18) -/

/-- The token slot that a byte of a page belongs to (Table 12.1). -/
def pageSlot (off : Nat) : Nat :=
  let o := off % 16384
  if o < 8192 then o % 512 / 8 else 8 * ((o - 8192) / 1024) + o % 8

/-- Zeros over the bytes of `[a, a + n)` whose place in the range `which` accepts. -/
def zeroCells (t : List Host.Cell) (a n : Nat) (which : Nat → Bool) : List Host.Cell :=
  t.filter fun e => !(decide (a ≤ e.1) && decide (e.1 < a + n) && which (e.1 - a))

/-- Copy the bytes of `[a, a + n)` that `keep` accepts to the range at `b`, and zeros over the rest of it. -/
def copyRange (t : List Host.Cell) (a n b : Nat) (keep : Nat → Bool) : List Host.Cell :=
  (t.filter fun e => decide (a ≤ e.1) && decide (e.1 < a + n) && keep (e.1 - a)).foldl
    (fun t e => Table.set 0 t (b + (e.1 - a)) e.2) (zeroRange t b n)

/-- Write a number at a program address in T1, through the staging caches. -/
def State.putT1 (s : State) (a n v : Nat) : State := s.t1Put (t1Off a) (toBytes n v)

/-- Put a set to zero on this module. -/
def State.zeroSet (s : State) (k : Nat) : State := s.t1Zero (t1Off (s.kvPage k 0)) s.setBytes

/-- Zeros over the bytes of a range of T1 that `which` accepts, written through the staging caches. -/
def State.t1Drop (s : State) (a n : Nat) (which : Nat → Bool) : State :=
  let s := s.touchLines a n true
  { s with mem := { s.mem with t1 := zeroCells s.mem.t1 a n which } }

/-- Copy the bytes of one range of T1 that `keep` accepts to another, and zeros over the rest of it, through the staging caches. -/
def State.t1Copy (s : State) (a b n : Nat) (keep : Nat → Bool) : State :=
  let s := (s.touchLines a n false).touchLines b n true
  { s with mem := { s.mem with t1 := copyRange s.mem.t1 a n b keep }, poison := clearPoison s.poison b n }

/-- Zero the token slots of a set that `which` accepts. -/
def State.zeroSlots (s : State) (k : Nat) (which : Nat → Bool) : State :=
  s.t1Drop (t1Off (s.kvPage k 0)) s.setBytes fun off => which (pageSlot (off % 65536))

/-- A park slot cannot be reached now: T3 is not enabled (R224), a borrowed range is failed, free or too close to its end (R220, R222), or
the address is of neither tier. -/
def State.parkClosed (s : State) (a : Nat) : Bool :=
  match locate a with
  | some (.t3, _) => !s.flag Reg.MEM_T3BASE.en
  | some (.t2, _) => (List.range s.kvLayers).any fun k => !s.t2Open (a + 65536 * k) 65536
  | _ => true

/-- The next copy of a record fails beyond this module: its slot cannot be reached, or T2 or T3 fails it (R294). -/
def State.slotFails (s : State) (slot : Nat) (cd : CopyData) : Bool := cd.failed.headD false || s.parkClosed (s.parkAt slot)

/-- A park copy (op 0x07) or a restore copy (op 0x08) fails: its slot does, or the set it reads is poisoned (R217, R294). -/
def State.copyFails (s : State) (o : LedgerOp) (cd : CopyData) : Bool :=
  if o.op = 7 then s.slotFails o.b cd || s.isPoisoned (t1Off (s.kvPage o.a 0)) s.setBytes
  else o.op == 8 && s.slotFails o.a cd

/-- What is left for the copies after one. -/
def copiesAfter (cd : CopyData) (n : Nat) : CopyData := ⟨cd.arrived.drop n, cd.failed.drop 1, []⟩

/-- Send the requests for a range of T2 that a copy reads or writes, 4 KiB at a time, in packets of 8 lines at most (R219, R399). -/
def State.copyRequests (s : State) (ptype a n : Nat) (bs : List Byte) : State :=
  (List.range (n / 512)).foldl (fun s k =>
    s.sendRequest (s.borrowPacket ptype (a + 512 * k) 8 ((bs.drop (512 * k)).take 512)) (.copy (a + 512 * k)) 0) s

/-- Write a set's bytes to a park slot: in host memory, or as remote stores to T2. -/
def State.parkPut (s : State) (a : Nat) (bs : List Byte) : State :=
  match locate a with
  | some (.t3, o) => s.t3Put o bs
  | some (.t2, _) => s.copyRequests 2 a bs.length bs
  | _ => s

/-- Ask for a park slot's bytes: reads of host memory, or remote loads from T2. -/
def State.parkAsk (s : State) (a n : Nat) : State :=
  match locate a with
  | some (.t3, o) => (List.range (n / 4096)).foldl (fun s k => s.emit (.hostRead (s.hostAt (o + 4096 * k)) 4096)) s
  | some (.t2, _) => s.copyRequests 1 a n []
  | _ => s

/-- A copy has failed at a park slot: host memory is unusable from then on (R225), and so is a borrowed range that was being written
(R226). -/
def State.closePark (s : State) (a : Nat) (write : Bool) : State :=
  match locate a with
  | some (.t3, _) => s.failT3
  | some (.t2, _) =>
    if write then (match s.t2Entry a 64 with
      | some i => s.failT2 i
      | none => s) else s
  | _ => s

/-- PARK_COPY on this module (R291, R294): a failed copy leaves zeros where its slot can still be written. -/
def State.parkCopy (s : State) (set slot : Nat) (cd : CopyData) : State × CopyData :=
  let n := s.setBytes
  let o := t1Off (s.kvPage set 0)
  let a := s.parkAt slot
  let s := s.chargeBeats cd.beats
  let s := if s.slotFails slot cd then s.closePark a true
    else
      let bs := if s.isPoisoned o n then List.replicate n 0 else s.t1Get o n
      (s.touchLines o n false).parkPut a bs
  (s, copiesAfter cd 0)

/-- RESTORE_COPY on this module (R293, R294): a failed copy leaves zeros in the set. -/
def State.restoreCopy (s : State) (slot set : Nat) (cd : CopyData) : State × CopyData :=
  let n := s.setBytes
  let o := t1Off (s.kvPage set 0)
  let a := s.parkAt slot
  let s := s.chargeBeats cd.beats
  if s.slotFails slot cd then ((s.closePark a false).t1Zero o n, copiesAfter cd n)
  else ((s.parkAsk a n).t1Put o ((cd.arrived ++ List.replicate n 0).take n), copiesAfter cd n)

/-- Record that a table block is used or free. -/
def State.useTab (s : State) (k : Nat) (u : Bool) : State := { s with tabUsed := Table.set false s.tabUsed k u }
/-- Record that a park slot is used or free. -/
def State.usePark (s : State) (k : Nat) (u : Bool) : State := { s with parkUsed := Table.set false s.parkUsed k u }

/-- SET_ENTRY on this module: park slots follow the entries that name them. A sequence without the table block has nowhere to write. -/
def State.setEntry (s : State) (h i e : Nat) : State :=
  if s.kvTblk h (i / 1024) = noBlock then s
  else
  let old := s.kvEntry h i
  let s := if entLoc old = 2 then s.usePark (entIx old) false else s
  let s := if entLoc e = 2 then s.usePark (entIx e) true else s
  s.putT1 (s.entryAt (s.kvTblk h (i / 1024)) i) 4 e

/-- SET_TBLK on this module. -/
def State.setTblk (s : State) (h k b : Nat) : State :=
  let old := s.kvTblk h k
  let s := if b = noBlock then (if s.kvState h = 0 ∨ old = noBlock then s else s.useTab old false) else s.useTab b true
  s.putT1 (s.kvRec h + 0x40 + 4 * k) 4 b

/-- Copy the first `n` token slots of set `a` to set `b`, and zeros into its other slots. -/
def State.copySet (s : State) (a b n : Nat) : State :=
  s.t1Copy (t1Off (s.kvPage a 0)) (t1Off (s.kvPage b 0)) s.setBytes fun off => decide (pageSlot (off % 65536) < n)

/-- Apply one operation of a record; `cd` brings what its copies read. -/
def State.applyOp (s : State) (o : LedgerOp) (cd : CopyData) : State × CopyData :=
  match o.op with
  | 0x01 => (s.zeroSet o.a, cd)
  | 0x02 => (s.copySet o.a o.b o.c, cd)
  | 0x03 => (s.zeroSlots o.a fun t => decide (o.b ≤ t) && decide (t < o.b + o.c), cd)
  | 0x04 => (s.setEntry o.handle o.a o.b, cd)
  | 0x05 => (s.setTblk o.handle o.a o.b, cd)
  | 0x06 => (s.putT1 (s.kvCountAt o.a) 4 o.b, cd)
  | 0x07 => s.parkCopy o.a o.b cd
  | 0x08 => s.restoreCopy o.a o.b cd
  | 0x09 => (s.putT1 (s.kvRec o.handle + o.a % 256) (o.a / 256 % 256) (o.b + 2 ^ 32 * o.c), cd)
  | 0x0A => (s.t1Zero (t1Off (s.kvRec o.handle)) 128, cd)
  | _ => (s, cd)

/-- An operation is assigned and its operands are in range (R301). -/
def State.opLegal (s : State) (lg : Nat) (o : LedgerOp) : Bool :=
  let isSet (k : Nat) : Bool := decide (s.fld Reg.SEQ_KVLEDGER.set_first lg ≤ k) &&
    decide (k < s.fld Reg.SEQ_KVLEDGER.set_first lg + s.fld Reg.SEQ_KVLEDGER.set_count lg)
  let isPark (k : Nat) : Bool := decide (s.fld Reg.SEQ_KVLEDGER.park_first lg ≤ k) &&
    decide (k < s.fld Reg.SEQ_KVLEDGER.park_first lg + s.fld Reg.SEQ_KVLEDGER.park_count lg)
  let isTab (k : Nat) : Bool := decide (s.fld Reg.SEQ_KVLEDGER.tab_first lg ≤ k) &&
    decide (k < s.fld Reg.SEQ_KVLEDGER.tab_first lg + s.fld Reg.SEQ_KVLEDGER.tab_count lg)
  let isHandle := decide (o.handle < 65536)
  match o.op with
  | 0x01 => isSet o.a
  | 0x02 => isSet o.a && isSet o.b && decide (o.c ≤ 64)
  | 0x03 => isSet o.a && decide (o.b + o.c ≤ 64)
  | 0x04 => isHandle && decide (o.a < 16384) && bits o.b 29 24 == 0 &&
      (if entLoc o.b = 1 then isSet (entIx o.b) else if entLoc o.b = 2 then isPark (entIx o.b) else entIx o.b == 0)
  | 0x05 => isHandle && decide (o.a < 16) && (o.b == noBlock || isTab o.b)
  | 0x06 => isSet o.a && decide (o.b < 2 ^ 24)
  | 0x07 => isSet o.a && isPark o.b
  | 0x08 => isPark o.a && isSet o.b
  | 0x09 => isHandle && [1, 2, 4, 8].contains (o.a / 256) && decide (o.a % 256 + o.a / 256 ≤ 128)
  | 0x0A => isHandle
  | _ => false

/-! ### CRC of the configuration (R301) -/

/-- One bit of the CRC with polynomial 0x1021. -/
def crcBit (c : Nat) : Nat := if bit c 15 then (c * 2 % 65536) ^^^ 0x1021 else c * 2 % 65536
/-- CRC-16 over bytes, from a start value, without reflection and without a final XOR. -/
def crc16 (bs : List Byte) (c : Nat := 0xFFFF) : Nat :=
  bs.foldl (fun c b => crcBit (crcBit (crcBit (crcBit (crcBit (crcBit (crcBit (crcBit (c ^^^ (b.toNat * 256))))))))) ) c

/-- The CRC that records of ledger `i` carry. -/
def State.ledgerCrc (s : State) (i : Nat) : Nat :=
  let f (r : Field) := toBytes 4 (s.fld r i)
  crc16 (toBytes 4 (s.fld Reg.SEQ_KVCFG.sets) ++ toBytes 4 s.kvLayers ++ f Reg.SEQ_KVLEDGER.set_first ++ f Reg.SEQ_KVLEDGER.set_count ++
    f Reg.SEQ_KVLEDGER.park_first ++ f Reg.SEQ_KVLEDGER.park_count ++ f Reg.SEQ_KVLEDGER.tab_first ++ f Reg.SEQ_KVLEDGER.tab_count ++
    toBytes 4 (s.fld Reg.SEQ_KVLEDGER.former i + 2 ^ 31 * s.fld Reg.SEQ_KVLEDGER.en i) ++ f Reg.SEQ_KVLEDGER.grp)

/-! ### Decisions of the former -/

/-- A decision under way: the state with its operations applied, the operations in order, and the table positions whose copy failed here. -/
structure Decision where
  s : State
  ops : List LedgerOp
  cd : CopyData
  bad : List Nat
  deriving DecidableEq, Repr

/-- Nothing arrives and nothing fails. -/
def noCopies : CopyData := ⟨[], [], []⟩

/-- Begin a decision. -/
def State.decision (s : State) (cd : CopyData := noCopies) : Decision := ⟨s, [], cd, []⟩

/-- One more operation, applied here at once. -/
def Decision.op (d : Decision) (op handle a b c : Nat) : Decision :=
  let o : LedgerOp := ⟨op, handle, a, b, c⟩
  let got := d.s.applyOp o d.cd
  { d with s := got.1, ops := d.ops ++ [o], cd := got.2 }

/-- A copy for table position `i`: where it fails here, the position is kept (R294). -/
def Decision.copy (d : Decision) (op a b i : Nat) : Decision :=
  let fails := d.s.copyFails ⟨op, 0, a, b, 0⟩ d.cd
  let d := d.op op 0 a b 0
  if fails then { d with bad := d.bad ++ [i] } else d

/-- Write a record field. -/
def Decision.field (d : Decision) (h off n v : Nat) : Decision := d.op 0x09 h (off + 256 * n) (v % 2 ^ 32) (v / 2 ^ 32)

/-- Write the record's flags. -/
def Decision.flags (d : Decision) (h v : Nat) : Decision := d.field h 1 1 v

/-- Show the number of entries with loc 1 or 2 in the record. -/
def Decision.showSets (d : Decision) (h : Nat) : Decision :=
  d.field h 0x28 4 ((d.s.kvWith h 1).length + (d.s.kvWith h 2).length)

/-- Write a table entry, allocating the lowest free table block where the sequence has none there. -/
def Decision.entry (d : Decision) (lg h i e : Nat) : Decision :=
  let d := if d.s.kvTblk h (i / 1024) = noBlock then
      match d.s.freeTab lg with
      | b :: _ => d.op 0x05 h (i / 1024) b 0
      | [] => d
    else d
  d.op 0x04 h i e 0

/-- Free the table blocks in which every entry has returned to loc 0 (R278). -/
def Decision.freeBlocks (d : Decision) (h : Nat) : Decision :=
  (List.range 16).foldl (fun d k =>
    if d.s.kvTblk h k != noBlock && (span (1024 * k) (1024 * k + 1024)).all (fun i => d.s.kvEntry h i == 0) then
      d.op 0x05 h k noBlock 0 else d) d

/-- Lower a set's count by 1. -/
def Decision.unref (d : Decision) (set : Nat) : Decision := d.op 0x06 0 set (d.s.kvCount set - 1) 0

/-- Let go of what an entry names, and write `e` in its place. -/
def Decision.replace (d : Decision) (lg h i e : Nat) : Decision :=
  let old := d.s.kvEntry h i
  let d := if entLoc old = 1 then d.unref (entIx old) else d
  d.entry lg h i e

/-- Drop one entry (R295): loc 3, its set or slot let go, valid lowered; counted. -/
def Decision.drop (d : Decision) (lg h i : Nat) : Decision :=
  let d := d.replace lg h i (mkEnt 3 0)
  let d := if 64 * i < d.s.kvValid h then d.field h 8 4 (64 * i) else d
  { d with s := d.s.count Reg.SEQ_KVDROPCNT.count 1 }

/-- Drop every entry from a table position on. -/
def Decision.dropFrom (d : Decision) (lg h i : Nat) : Decision :=
  (((d.s.kvPositions h).filter fun k =>
      decide (i ≤ k) && (entLoc (d.s.kvEntry h k) == 1 || entLoc (d.s.kvEntry h k) == 2)).foldl
    (fun d k => d.drop lg h k) d).showSets h

/-- Is `a` before `b` in the order of victims: lowest priority, then smallest last_use, then lowest handle (R295). -/
def State.victimBefore (s : State) (a b : Nat) : Bool :=
  let key (h : Nat) : Nat := (bits (s.kvFlags h) 2 1 * 2 ^ 64 + s.kvField h 0x10 8) * 65536 + h
  decide (key a ≤ key b)

/-- The victims of a ledger, in order. -/
def State.victims (s : State) (lg h : Nat) : List Nat :=
  sortBy s.victimBefore ((List.range 65536).filter fun v =>
    s.kvState v == 1 && s.kvLedger v == lg && v != h && !s.kvPinned v && bit (s.kvFlags v) 0 && decide (0 < s.kvValid v))

/-- Drop entries of victims, last entry first, until `n` sets have come free. -/
def Decision.dropVictims (d : Decision) (lg h n free : Nat) : Decision :=
  (d.s.victims lg h).foldl (fun d v =>
    ((d.s.kvWith v 1).reverse.foldl (fun d i =>
      if free + n ≤ (d.s.freeSets lg).length then d
      else
        let d := d.drop lg v i
        { d with s := d.s.raise Reg.SEQ_KVEVT.drop Reg.SEQ_KVEVTMASK.mask }) d).showSets v) d

/-- Make `n` sets and `m` table blocks available for sequence `h` (R297), or answer none and take nothing: free sets above the
reserve, the reserve itself where `grow` is set, and then victims. -/
def Decision.obtain (d : Decision) (lg h n m : Nat) (grow : Bool) : Option Decision :=
  let free := (d.s.freeSets lg).length
  let avail := if grow then free else free - d.s.fld Reg.SEQ_KVRSV.reserve
  if (d.s.freeTab lg).length < m then none
  else if n ≤ avail then some d
  else
    let d' := d.dropVictims lg h (n - avail) free
    if n - avail ≤ (d'.s.freeSets lg).length - free then some d' else none

/-- The lowest free set. -/
def Decision.freeSet (d : Decision) (lg : Nat) : Nat := ((d.s.freeSets lg).head?).getD 0

/-- An operation of a ledger record, 16 bytes (R301). -/
def opBytes (o : LedgerOp) : List Byte :=
  toBytes 1 o.op ++ toBytes 1 0 ++ toBytes 2 o.handle ++ toBytes 4 o.a ++ toBytes 4 o.b ++ toBytes 4 o.c

/-- A ledger record as it travels: the line of Table 12.17, and lines of four operations (R301). -/
def recordBytes (r : LedgerRecord) : List Byte :=
  lineOf [(0, 4, r.record), (4, 2, r.crc), (6, 1, r.ledger), (7, 1, r.ops.length), (8, 1, r.cause), (9, 1, r.flags), (0xC, 4, r.batch),
    (0x10, 8, r.gsc), (0x18, 4, r.tag)] ++ padLines (r.ops.flatMap opBytes)

/-- The engine identifier of the SE slice that serves a ledger (R307, Table 17.1). -/
def sliceUnit (lg : Nat) : Nat := 2 + lg % 4

/-- Send the records of a decision, 28 operations to a record, to the ledger's group; `fuel` bounds their number. -/
def State.sendRecords (s : State) (lg cause batch tag : Nat) : Nat → List LedgerOp → State
  | 0, _ => s
  | _, [] => s
  | fuel + 1, ops =>
    let n := s.fld Reg.SEQ_KVSTAT.record lg
    let r : LedgerRecord := ⟨lg, n, s.ledgerCrc lg, cause, ofFlag (decide (ops.length ≤ 28)), batch, s.gscSe, tag, ops.take 28⟩
    let s := s.setFld Reg.SEQ_KVSTAT.record (n + 1) lg
    (s.sendGroup (sliceUnit lg) (s.fld Reg.SEQ_KVLEDGER.grp lg) 0x12 (recordBytes r) (s.fld Reg.SEQ_SERVE.job lg)).sendRecords lg cause batch tag fuel (ops.drop 28)

/-- End a decision: its records go to every module of the group, this one having applied them (R282). -/
def Decision.commit (d : Decision) (lg cause : Nat) (batch : Nat := 0xFFFFFFFF) (tag : Nat := 0) : State :=
  (d.s.sendRecords lg cause batch tag d.ops.length d.ops).showLedger lg

/-! ### The KV commands (R288 to R295, R299) -/

/-- Make a free record one of a resident sequence. -/
def Decision.newRecord (d : Decision) (h flags lg length valid gen hist : Nat) : Decision :=
  let d := d.field h 0 8 (1 + flags * 2 ^ 8 + lg * 2 ^ 16 + length * 2 ^ 32)
  let d := d.field h 8 8 (valid + gen * 2 ^ 32)
  let d := d.field h 0x20 8 hist
  (List.range 8).foldl (fun d k => d.field h (0x40 + 8 * k) 8 (2 ^ 64 - 1)) d

/-- Give a new sequence the first entries of another, raising each set's count (R288). -/
def Decision.share (d : Decision) (lg h src n : Nat) : Decision :=
  ((List.range n).foldl (fun d i =>
    let e := d.s.kvEntry src i
    let d := if entLoc e = 1 then d.op 0x06 0 (entIx e) (d.s.kvCount (entIx e) + 1) 0 else d
    d.entry lg h i e) d).showSets h

/-- Table blocks that `n` entries from the start need. -/
def blocksFor (n : Nat) : Nat := ceilDiv n 1024

/-- FORK, its operands tested (R288): none where the table blocks cannot be found. -/
def State.fork (s : State) (lg h src len flags hist tag : Nat) : Option State :=
  let n := ceilDiv len 64
  match s.decision.obtain lg h 0 (blocksFor n) false with
  | none => none
  | some d =>
    some (((d.newRecord h flags lg len len (s.kvField src 0xC 4) hist).share lg h src n).commit lg 2 0xFFFFFFFF tag)

/-- RELEASE (Table 12.10): every entry to loc 0, counts lowered, slots and table blocks freed, the record free. -/
def Decision.release (d : Decision) (lg h : Nat) : Decision :=
  let d := ((d.s.kvPositions h).filter fun i => d.s.kvEntry h i != 0).foldl (fun d i => d.replace lg h i 0) d
  (d.freeBlocks h).op 0x0A h 0 0 0

/-- A failed copy of a sequence at table position `i` (R294): its entries from there on are dropped, a restore completes with
status 0x05, and the sequence is resident. -/
def State.dropFailed (s : State) (lg h i : Nat) : State :=
  if s.kvState h = 0 then s
  else
    let d := s.decision.dropFrom lg h i
    let d := if 64 * i < d.s.kvValid h then d.field h 8 4 (64 * i) else d
    let d := (d.field h 0 1 1).field h 0x18 8 0
    let s := (d.commit lg 4).raise Reg.SEQ_KVEVT.park_fail Reg.SEQ_KVEVTMASK.mask
    let done := s.restoring.filter fun r => r.handle == h
    let s := { s with restoring := s.restoring.filter fun r => r.handle != h }
    done.foldl (fun s r => let got := s.free; let v := got.1; let s := got.2; s.completeKv r.taken 5 v) s

/-- A failed copy is reported to the former: while the sequence is pinned its entries stay, and the failure is held (R285, R294). -/
def State.copyFailed (s : State) (lg h i : Nat) : State :=
  if s.kvPinned h then { s with heldCmds := s.heldCmds ++ [⟨h, 0x100, i, none⟩] } else s.dropFailed lg h i

/-- PARK of an unpinned resident sequence (R291): none where the park slots do not suffice. The answer also says whether every copy could be
made here. -/
def State.park (s : State) (lg h ttl tag : Nat) (cd : CopyData) : Option (Bool × State) :=
  let mine := (s.kvWith h 1).filter fun i => s.kvCount (entIx (s.kvEntry h i)) == 1
  if (s.freePark lg).length < mine.length then none
  else
    let d := mine.foldl (fun (d : Decision) i =>
      let set := entIx (d.s.kvEntry h i)
      let slot := ((d.s.freePark lg).head?).getD 0
      let d := d.copy 0x07 set slot i
      ((d.entry lg h i (mkEnt 2 slot)).op 0x06 0 set 0 0)) (s.decision cd)
    let d := (d.field h 0 1 2).field h 0x18 8 (s.gscSe + ttl * 1000000)
    let s := (d.commit lg 2 0xFFFFFFFF tag).count Reg.SEQ_KVPARKCNT.count mine.length
    some (d.bad.isEmpty, d.bad.foldl (fun s i => s.copyFailed lg h i) s)

/-- Command tag of a restore; zero for one that a formation began. -/
def Restoring.tag (r : Restoring) : Nat := (r.taken.map (·.tag)).getD 0

/-- A member has applied the restore copy of a table position (R293): when every member has applied every copy, the sequence is resident. -/
def State.restoreReply (s : State) (lg h ep i : Nat) : State :=
  match s.restoring.find? fun r => r.handle == h with
  | none => s
  | some r =>
    let replied := if r.positions.contains i && !r.replied.contains (ep, i) then r.replied ++ [(ep, i)] else r.replied
    if replied.length < s.fld Reg.FAB_GRP.count (s.fld Reg.SEQ_KVLEDGER.grp lg) * r.positions.length then
      { s with restoring := s.restoring.map fun x => if x.handle == h then { x with replied := replied } else x }
    else
      let s := { s with restoring := s.restoring.filter fun x => x.handle != h }
      let s := (s.decision.field h 0 1 1).commit lg 2 0xFFFFFFFF r.tag
      let got := s.free
      let v := got.1
      let s := got.2
      s.completeKv r.taken 0 v

/-- Begin the restore of a parked sequence (R293): none where its sets cannot be obtained. The answer also holds what later copies bring. -/
def State.restore (s : State) (lg h tag : Nat) (cd : CopyData) (taken : Option Taken) : Option (CopyData × State) :=
  let slots := s.kvWith h 2
  match (s.decision cd).obtain lg h slots.length 0 false with
  | none => none
  | some d =>
    let d := slots.foldl (fun (d : Decision) i =>
      let slot := entIx (d.s.kvEntry h i)
      let set := d.freeSet lg
      let d := d.copy 0x08 slot set i
      (d.entry lg h i (mkEnt 1 set)).op 0x06 0 set 1 0) d
    let d := (d.field h 0 1 3).field h 0x18 8 0
    let n := d.s.fld Reg.SEQ_KVSTAT.record lg
    let s := d.commit lg 2 0xFFFFFFFF tag
    let sent := (List.range (s.fld Reg.SEQ_KVSTAT.record lg - n)).map (· + n)
    let s := { s with restoring := s.restoring ++ [(⟨lg, h, sent, slots, [], taken⟩ : Restoring)] }
    let s := if slots.isEmpty then s.restoreReply lg h s.ep 0
      else (slots.filter fun i => !d.bad.contains i).foldl (fun s i => s.restoreReply lg h s.ep i) s
    some (d.cd, d.bad.foldl (fun s i => s.copyFailed lg h i) s)

/-- Discard the KV of a parked sequence whose time to live has ended (R292). -/
def State.expirePark (s : State) (lg h : Nat) : State :=
  let gone := s.kvWith h 2
  let d := gone.foldl (fun (d : Decision) i => d.entry lg h i (mkEnt 3 0)) s.decision
  let d := match gone with
    | i :: _ => d.field h 8 4 (min (d.s.kvValid h) (64 * i))
    | [] => d
  let d := (((d.showSets h).field h 0 1 1).field h 0x18 8 0)
  ((d.commit lg 3).count Reg.SEQ_KVEXPCNT.count 1).raise Reg.SEQ_KVEVT.expire Reg.SEQ_KVEVTMASK.mask

end Sys2Proof.Machine
end

