-- ==== Sys2Proof/Machine/Aes.lean ====
section
/-! DEFINITION. AES-256-XTS, which the NVS applies to every 4 KiB data unit it programs (R234). The cipher is that of FIPS 197 and the
mode that of IEEE 1619, by their names (PRESUMED, log 122): the spec names them and does not repeat them. Bytes are numbers below 256. -/

namespace Sys2Proof.Machine

/-! ### Bytes as field elements -/

/-- Twice a byte in the field of AES. -/
def fieldTwice (a : Nat) : Nat := if a < 128 then 2 * a else (2 * a) ^^^ 0x11B

/-- A product in the field, by Horner's rule over the bits of the second factor. -/
def fieldMul (a b : Nat) : Nat := (List.range 8).foldr (fun i acc => fieldTwice acc ^^^ (if b.testBit i then a else 0)) 0

/-- The inverse of a byte, its 254th power; 0 for 0. -/
def fieldInv (a : Nat) : Nat := (List.range 253).foldl (fun x _ => fieldMul x a) a

/-- A byte turned left. -/
def turnByte (x k : Nat) : Nat := (x * 2 ^ k ||| x / 2 ^ (8 - k)) % 256

/-- The substitution of a byte: inverse, then the affine map. -/
def cipherSub (a : Nat) : Nat :=
  let i := fieldInv a
  i ^^^ turnByte i 1 ^^^ turnByte i 2 ^^^ turnByte i 3 ^^^ turnByte i 4 ^^^ 0x63

/-- The byte that a substitution gives back. -/
def cipherUnsub (y : Nat) : Nat := ((List.range 256).find? fun x => cipherSub x == y).getD 0

/-! ### Blocks: 16 bytes, column by column -/

/-- Two byte strings added. -/
def addBytes (a b : List Nat) : List Nat := List.zipWith (· ^^^ ·) a b

/-- Row `r` of every column is taken `by' r` columns further on. -/
def turnRows (by' : Nat → Nat) (b : List Nat) : List Nat := (List.range 16).map fun i => b.getD (4 * ((i / 4 + by' (i % 4)) % 4) + i % 4) 0

/-- Every column is multiplied by the circulant of four coefficients. -/
def mixColumns (coef : List Nat) (b : List Nat) : List Nat :=
  (List.range 16).map fun i =>
    (List.range 4).foldl (fun x k => x ^^^ fieldMul (coef.getD ((k + 4 - i % 4) % 4) 0) (b.getD (4 * (i / 4) + k) 0)) 0

/-- The 60 words of the key schedule. -/
def keyWords (key : List Nat) : List (List Nat) :=
  (List.range 52).foldl (fun ws k =>
    let last := ws.getD (k + 7) []
    let t := if k % 8 = 0 then addBytes ((last.drop 1 ++ last.take 1).map cipherSub) [(List.range (k / 8)).foldl (fun x _ => fieldTwice x) 1, 0, 0, 0]
      else if k % 8 = 4 then last.map cipherSub else last
    ws ++ [addBytes (ws.getD k []) t]) ((List.range 8).map fun i => (key.drop (4 * i)).take 4)

/-- The key of round `r`. -/
def roundKey (ws : List (List Nat)) (r : Nat) : List Nat := (List.range 4).flatMap fun i => ws.getD (4 * r + i) []

/-- One block enciphered: 14 rounds, the last without mixing. -/
def encipher (ws : List (List Nat)) (b : List Nat) : List Nat :=
  (List.range 14).foldl (fun x k =>
    let x := turnRows id (x.map cipherSub)
    addBytes (if k = 13 then x else mixColumns [2, 3, 1, 1] x) (roundKey ws (k + 1))) (addBytes b (roundKey ws 0))

/-- One block deciphered. -/
def decipher (ws : List (List Nat)) (b : List Nat) : List Nat :=
  (List.range 14).foldl (fun x k =>
    let x := addBytes ((turnRows (4 - ·) x).map cipherUnsub) (roundKey ws (13 - k))
    if k = 13 then x else mixColumns [14, 11, 13, 9] x) (addBytes b (roundKey ws 14))

/-! ### Data units (R234) -/

/-- The next block's tweak: multiplied by α. -/
def nextTweak (t : Nat) : Nat := (2 * t % 2 ^ 128) ^^^ (if 2 ^ 127 ≤ t then 0x87 else 0)

/-- The blocks of a data unit, each whitened by its tweak before and after `f`. -/
def xtsBlocks (f : List Nat → List Nat) : Nat → Nat → List Nat → List Nat
  | 0, _, _ => []
  | n + 1, t, bs =>
    let w := (toBytes 16 t).map (·.toNat)
    addBytes (f (addBytes (bs.take 16) w)) w ++ xtsBlocks f n (nextTweak t) (bs.drop 16)

/-- A data unit through the mode with the 64-byte module key: its first half for the data, its second for the tweak. -/
def xtsUnit (f : List (List Nat) → List Nat → List Nat) (key : List Byte) (tweak : Nat) (unit : List Byte) : List Byte :=
  let half (i : Nat) : List (List Nat) := keyWords (((key.drop (32 * i)).take 32).map (·.toNat))
  let t := ofBytes ((encipher (half 1) ((toBytes 16 tweak).map (·.toNat))).map (BitVec.ofNat 8))
  (xtsBlocks (f (half 0)) (unit.length / 16) t (unit.map (·.toNat))).map (BitVec.ofNat 8)

/-- Plaintext to what the NAND holds. -/
def xtsEncrypt : List Byte → Nat → List Byte → List Byte := xtsUnit encipher
/-- What the NAND holds to plaintext. -/
def xtsDecrypt : List Byte → Nat → List Byte → List Byte := xtsUnit decipher

end Sys2Proof.Machine
end

