-- ==== Sys2Proof/Machine/Receive.lean ====
section
/-! DEFINITION. Taking packets at this module: duplicates, and the answers of engines (R377, R415, R422). -/

namespace Sys2Proof.Machine

/-- Take a sequence number: none where it is a duplicate or lies below the window of 1,024 (R415). -/
def Seen.take (v : Seen) (seq : Nat) : Option Seen :=
  match v.newest with
  | none => some { v with newest := some seq, seqs := [seq] }
  | some n =>
    if laterBy 32 seq n then
      some { v with newest := some seq, seqs := seq :: v.seqs.filter fun x => decide ((seq + 2 ^ 32 - x) % 2 ^ 32 < 1024) }
    else if (n + 2 ^ 32 - seq) % 2 ^ 32 < 1024 ∧ !v.seqs.contains seq then some { v with seqs := seq :: v.seqs }
    else none

/-- What is remembered of a source. The copies of a multicast are numbered apart from packets to this endpoint. -/
def seenKey (hd : PacketHead) : Nat := hd.source + 2 ^ 17 * hd.group

/-- Answer a packet, unless it is this module's own copy. -/
def State.answer (s : State) (hd : PacketHead) (type reason : Nat) : State :=
  if hd.source = s.fld Reg.FAB_EPID.ep then s else s.sendResponse hd.source 2 hd.unit type reason hd.seq hd.tag []

/-- An engine packet arrives (R422): a duplicate is answered done and not applied again; the engine answers refused with reason 8 when
it is not enabled, which takes no seq (log entry 58), and done once it has taken the packet. While FAB_EPID.valid is 0 the module accepts none. -/
def State.engineTake (s : State) (hd : PacketHead) (enabled : State → Bool) (k : State → State) : State :=
  if !s.flag Reg.FAB_EPID.valid then s
  else match (Table.get Seen.empty s.seen (seenKey hd)).take hd.seq with
    | none => (s.count Reg.FAB_DUPCNT.count 1).answer hd 0x80 0
    | some v =>
      if enabled s && !s.closing then (k { s with seen := Table.set Seen.empty s.seen (seenKey hd) v }).answer hd 0x80 0
      else s.answer hd 0x83 8

/-- The lines of an item that the bytes of a packet carry, from its first one on. -/
def carriedLines (first : Nat) (bytes : List Byte) : List (Nat × List Byte) :=
  (List.range (ceilDiv bytes.length 64)).map fun k => (first + k, ((bytes.drop (64 * k)).take 64 ++ List.replicate 64 0).take 64)

/-- A packet brings lines of an item of `total` lines (R424): the item's bytes once every line is held. -/
def State.gather (s : State) (source ptype : Nat) (name : List Nat) (total first : Nat) (bytes : List Byte) : Option (List Byte) × State :=
  let mine (x : ItemPart) : Bool := x.source == source && x.ptype == ptype && x.name == name
  let old := ((s.parts.find? mine).map (·.lines)).getD []
  let lines := old ++ (carriedLines first bytes).filter fun x => !old.any fun y => y.1 == x.1
  let rest := s.parts.filter fun x => !mine x
  let got := (List.range total).map fun k => (lines.find? fun x => x.1 == k).map (·.2)
  if got.all Option.isSome then (some (got.flatMap fun x => x.getD []), { s with parts := rest })
  else (none, { s with parts := rest ++ [(⟨source, ptype, name, lines⟩ : ItemPart)] })

/-- A control packet arrives (R422): a duplicate is discarded without acting on it. -/
def State.controlTake (s : State) (hd : PacketHead) (k : State → State) : State :=
  if !s.flag Reg.FAB_EPID.valid then s
  else match (Table.get Seen.empty s.seen (seenKey hd)).take hd.seq with
    | none => s
    | some v => k { s with seen := Table.set Seen.empty s.seen (seenKey hd) v }

end Sys2Proof.Machine
end

