-- ==== Sys2Proof/Machine/Sha.lean ====
section
/-! DEFINITION. The digests of shards (R244) and of firmware images (R463): SHA-256 and SHA-384, two members of one family that differ in
the word width, the number of steps and the turns they mix with. The spec names the two and does not repeat FIPS 180-4 (PRESUMED,
log 124). The constants are computed: leading fraction bits of roots of the first primes. -/

namespace Sys2Proof.Machine

/-! ### Constants from roots of primes -/

/-- The greatest `r + x` with `x` below 2^b whose `k`-th power is at most `n`, found bit by bit. -/
def rootBits (k n : Nat) : Nat → Nat → Nat
  | 0, r => r
  | b + 1, r => rootBits k n b (if (r + 2 ^ b) ^ k ≤ n then r + 2 ^ b else r)

/-- The first `w` bits of the fraction of the `k`-th root of a number below 512. -/
def rootFraction (k w p : Nat) : Nat := rootBits k (p * 2 ^ (k * w)) (w + 5) 0 % 2 ^ w

/-- The primes below 410, of which there are 80. -/
def smallPrimes : List Nat := (List.range 410).filter fun p => decide (1 < p) && (List.range 21).all fun d => decide (d < 2) || p == d || p % d != 0

/-! ### One family -/

/-- A member of the family: word bits, steps, the turns that mix A and E of a step, the turns and the shift that mix words of the
schedule, the primes whose square roots start it, and the bytes of its digest. -/
structure ShaKind where
  width : Nat
  steps : Nat
  mixA : List Nat
  mixE : List Nat
  old : List Nat × Nat
  recent : List Nat × Nat
  seeds : List Nat
  bytes : Nat

/-- SHA-256. -/
def shaShort : ShaKind := ⟨32, 64, [2, 13, 22], [6, 11, 25], ([7, 18], 3), ([17, 19], 10), smallPrimes.take 8, 32⟩
/-- SHA-384. -/
def shaLong : ShaKind := ⟨64, 80, [28, 34, 39], [14, 18, 41], ([1, 8], 7), ([19, 61], 6), (smallPrimes.drop 8).take 8, 48⟩

/-- The sum, bit by bit, of a word turned right by each of some amounts. -/
def ShaKind.turns (k : ShaKind) (ns : List Nat) (x : Nat) : Nat :=
  ns.foldl (fun t n => t ^^^ (x * (2 ^ k.width + 1) / 2 ^ n % 2 ^ k.width)) 0

/-- A mix of the schedule: turns, and one shift. -/
def ShaKind.spread (k : ShaKind) (m : List Nat × Nat) (x : Nat) : Nat := k.turns m.1 x ^^^ x / 2 ^ m.2

/-- The words of a block, the 16 it holds and those the schedule adds. -/
def ShaKind.words (k : ShaKind) (block : List Nat) : List Nat :=
  (List.range (k.steps - 16)).foldl (fun ws t =>
    ws ++ [(ws.getD t 0 + k.spread k.old (ws.getD (t + 1) 0) + ws.getD (t + 9) 0 + k.spread k.recent (ws.getD (t + 14) 0)) % 2 ^ k.width]) block

/-- One step. The last four pairs (A, E) are kept, newest first: the step takes its constant with its word, and adds one pair. -/
def ShaKind.step (k : ShaKind) (past : List (Nat × Nat)) (x : Nat) : List (Nat × Nat) :=
  match past with
  | [p, q, r, o] =>
    let choose := r.2 ^^^ (p.2 &&& (q.2 ^^^ r.2))
    let most := (p.1 &&& q.1) ||| (r.1 &&& (p.1 ||| q.1))
    let t := o.2 + k.turns k.mixE p.2 + choose + x
    [((t + k.turns k.mixA p.1 + most) % 2 ^ k.width, (o.1 + t) % 2 ^ k.width), p, q, r]
  | _ => past

/-- One block: its steps, added to the pairs it began with. -/
def ShaKind.block (k : ShaKind) (past : List (Nat × Nat)) (words : List Nat) : List (Nat × Nat) :=
  let xs := List.zipWith (fun p w => rootFraction 3 k.width p + w) smallPrimes (k.words words)
  List.zipWith (fun a b => ((a.1 + b.1) % 2 ^ k.width, (a.2 + b.2) % 2 ^ k.width)) past (xs.foldl k.step past)

/-- The words of a byte string, the most significant byte of each first; `n` of them. -/
def bigWords (size : Nat) : Nat → List Byte → List Nat
  | 0, _ => []
  | n + 1, bs => ofBytes (bs.take size).reverse :: bigWords size n (bs.drop size)

/-- The message with its end mark, zeros up to a whole block, and its length in bits in the last two words. -/
def ShaKind.padded (k : ShaKind) (m : List Byte) : List Byte :=
  let size := 2 * k.width
  let fill := (size - (m.length + 1 + k.width / 4) % size) % size
  m ++ [0x80#8] ++ List.replicate fill 0 ++ (toBytes (k.width / 4) (8 * m.length)).reverse

/-- The digest of a byte string. -/
def ShaKind.digest (k : ShaKind) (m : List Byte) : List Byte :=
  let p := k.padded m
  let seeds := k.seeds.map (rootFraction 2 k.width)
  let ws := bigWords (k.width / 8) (p.length / (k.width / 8)) p
  let last := (List.range (ws.length / 16)).foldl (fun h i => k.block h ((ws.drop (16 * i)).take 16)) (List.zip (seeds.take 4) (seeds.drop 4))
  ((last.map (·.1) ++ last.map (·.2)).flatMap fun w => (toBytes (k.width / 8) w).reverse).take k.bytes

/-- SHA-256 of a byte string, 32 bytes. -/
def sha256 (m : List Byte) : List Byte := shaShort.digest m
/-- SHA-384 of a byte string, 48 bytes. -/
def sha384 (m : List Byte) : List Byte := shaLong.digest m

end Sys2Proof.Machine
end

