-- ==== Sys2Proof/Machine/Nvs.lean ====
section
/-! DEFINITION. The weight store (chapter 11): translation layer, shards, commands, keepers, weight generations and patches. -/

namespace Sys2Proof.Machine

/-- Change the store. -/
def State.modNvs (s : State) (f : Nvs → Nvs) : State := { s with nvs := f s.nvs }

/-- Set an event bit of NVS_EVT. -/
def State.nvEvt (s : State) (f : Field) : State := s.raise f Reg.NVS_EVTMASK.mask

/-- Write inhibit is in force (R249). -/
def State.inhibited (s : State) : Bool := s.flag Reg.PWR_SUPSTAT.inhibit

/-! ### Regions, blocks and units (R232 to R234) -/

/-- Blocks of one channel. -/
def nvBlocks : Nat := 32768

/-- The blocks of a channel that hold the journal, the checkpoint and the event log (Table 11.1): where they lie is the model's
choice, the first 8, the next 8, and then two of channels 0 to 3 and one of the others. -/
def nvSystem (p : Nat) : Bool := decide (p % nvBlocks < 16 + (if p / nvBlocks < 4 then 2 else 1))

/-- Pages of a block written with one bit per cell: 16 MiB ÷ 3, in whole pages of 16 KiB (R232). -/
def nvThinPages : Nat := 2 ^ 24 / 3 / 2 ^ 14

/-- Where record `n` of the journal stands: its block of the region, the page, and the byte offset in the page, at 256 records of 64 bytes a
page; the region is used round and round. -/
def journalPlace (n : Nat) : Nat × Nat × Nat := (n / (256 * nvThinPages) % 64, n / 256 % nvThinPages, 64 * (n % 256))

/-- The regions of the store that carry data of their own. -/
inductive NvRegion where
  | user
  | journal
  | checkpoint
  | log
  deriving DecidableEq, Repr

/-- The tweak of the data unit at a byte address of a region (R234). -/
def nvTweak (r : NvRegion) (a : Nat) : Nat :=
  match r with
  | .user => a / 4096
  | _ => 2 ^ 40 + a / 4096

/-- The logical block of a user address: group and channel (R233). -/
def nvLogical (u : Nat) : Nat := u / 2 ^ 27 * 8 + u / 2 ^ 16 % 8

/-- Its offset in that block (R233). -/
def nvOffset (u : Nat) : Nat := u / 2 ^ 19 % 256 * 65536 + u % 65536

/-- The entry of a logical block in the translation map: the physical block it names, none while the block is not allocated (R233). -/
def NvImage.entry (i : NvImage) (l : Nat) : Option Nat := if l < 196608 then (i.map.find? fun e => e.1 == l).map (·.2) else none

/-- The data unit of the NAND that a user address lies in: physical block × 4096 + unit. -/
def Nvs.place (v : Nvs) (u : Nat) : Option Nat := (v.cur.entry (nvLogical u)).map fun p => p * 4096 + nvOffset u / 4096

/-- What the NAND holds of the data unit of a user address; empty where it was never programmed or is lost. -/
def Nvs.cipher (v : Nvs) (u : Nat) : List Byte := ((v.place u).map fun a => Table.get [] v.units a).getD []

/-- The plaintext of the data unit of a user address (R234). -/
def Nvs.plain (v : Nvs) (u : Nat) : List Byte := xtsDecrypt Config.moduleKey (nvTweak .user u) (v.cipher u)

/-- Program the data unit of a user address (R234). -/
def Nvs.program (v : Nvs) (u : Nat) (bs : List Byte) : Nvs :=
  match v.place u with
  | some a => { v with units := Table.set [] v.units a (xtsEncrypt Config.moduleKey (nvTweak .user u) bs) }
  | none => v

/-- Program bytes from a user address up, unit by unit; `n` is how many units they are. -/
def Nvs.programAll (v : Nvs) (u : Nat) : Nat → List Byte → Nvs
  | 0, _ => v
  | n + 1, bs => Nvs.programAll (v.program u (bs.take 4096)) (u + 4096) n (bs.drop 4096)

/-- The data of a unit is lost (R235). -/
def Nvs.lose (v : Nvs) (u : Nat) : Nvs :=
  match v.place u with
  | some a => { v with units := Table.del v.units a }
  | none => v

/-! ### Free blocks and wear (R236, R242) -/

/-- Erases of a block. -/
def Nvs.erasesOf (v : Nvs) (p : Nat) : Nat := Table.get 0 v.erases p

/-- A block that serves a system region, from the start or in place of a retired one. -/
def Nvs.system (v : Nvs) (p : Nat) : Bool := nvSystem p || v.cur.stands.any fun e => e.2 == p

/-- The block has been retired. -/
def Nvs.isRetired (v : Nvs) (p : Nat) : Bool := Table.get false v.cur.retired p

/-- A block that holds no data and may be taken: one that waits for its erase may not (R240, R241). -/
def Nvs.isFree (v : Nvs) (p : Nat) : Bool :=
  !v.system p && !v.isRetired p && !(v.cur.map.any fun e => e.2 == p) && !v.old.any fun e => e.1 == p

/-- The blocks of a channel. -/
def nvChannel (c : Nat) : List Nat := (List.range nvBlocks).map (· + c * nvBlocks)

/-- The first block of a list with the least value of a measure. -/
def leastBy (f : Nat → Nat) : List Nat → Option Nat
  | [] => none
  | p :: r => match leastBy f r with
    | some q => if f p ≤ f q then some p else some q
    | none => some p

/-- The free block of a channel with the lowest erase count, and of equal counts the lowest number (R236). -/
def Nvs.freeBlock (v : Nvs) (c : Nat) : Option Nat := leastBy v.erasesOf ((nvChannel c).filter v.isFree)

/-- Spare blocks still usable (R242). -/
def Nvs.spare (v : Nvs) : Nat := 65396 - v.cur.retired.length

/-- Erase a block: its count rises, its page reads start again, and it holds nothing. -/
def Nvs.erase (v : Nvs) (p : Nat) : Nvs :=
  { v with erases := Table.modify 0 v.erases p (· + 1), reads := Table.set 0 v.reads p 0,
           units := v.units.filter fun e => e.1 / 4096 != p }

/-- Show wear in NVS_WEAR (Table 11.9), and act on too few spare blocks (R242): the warning comes as the count falls below its bound, and at
a start that finds it below. -/
def State.showWear (s : State) : State :=
  let spare := s.nvs.spare
  let counts := s.nvs.erases.map (·.2)
  let had := decide (1024 ≤ s.fld Reg.NVS_WEAR.spare) || !s.flag Reg.NVS_STATUS.ready
  let s := s.setFld Reg.NVS_WEAR.spare spare
  let s := s.setFld Reg.NVS_WEAR.max_erase (counts.foldl max 0)
  let s := s.setFld Reg.NVS_WEAR.avg_erase (counts.sum / 262144)
  let s := if spare < 1024 && had then s.nvEvt Reg.NVS_EVT.wear_warn else s
  if spare < 64 && !s.flag Reg.NVS_STATUS.worn then
    let s := (s.setFld Reg.NVS_STATUS.worn 1).setFld Reg.NVS_STATUS.ro 1
    (s.nvEvt Reg.NVS_EVT.worn).recordFault 0x0606 (.unit slotXdieA) []
  else s

/-! ### The journal and the checkpoint (R240, R241) -/

/-- The logical blocks of a run of groups. -/
def logicals (g n : Nat) : List Nat := (List.range (8 * n)).map (· + 8 * g)

/-- First user address of a shard: a whole group (R243). -/
def Shard.base (h : Shard) : Nat := h.group * 2 ^ 27

/-- Groups a shard of a length occupies. -/
def groupsOf (length : Nat) : Nat := ceilDiv length (2 ^ 27)

/-- The shard's run holds a logical block. -/
def Shard.covers (h : Shard) (l : Nat) : Bool := decide (8 * h.group ≤ l) && decide (l < 8 * (h.group + groupsOf h.length))

/-- The change of the translation state that a record makes. -/
def NvImage.apply (i : NvImage) : NvRecord → NvImage
  | .allocate l p => { i with map := Table.put i.map l p }
  | .relocate l p => { i with map := Table.put i.map l p }
  | .commit h => { i with dir := i.dir ++ [h] }
  | .delete id => { i with dir := i.dir.filter fun h => h.id != id,
                           map := i.map.filter fun e => !(i.dir.any fun h => h.id == id && h.covers e.1) }
  | .retire p q => { i with retired := Table.put i.retired p true, stands := (q.map fun q => Table.put i.stands p q).getD i.stands }
  | .close => i

/-- A change takes effect as its record is programmed (R240). -/
def Nvs.journal (v : Nvs) (r : NvRecord) : Nvs := { v with cur := v.cur.apply r, records := v.records ++ [r] }

/-- A checkpoint of the translation state (R240). -/
def Nvs.checkpoint (v : Nvs) : Nvs := { v with image := v.cur, records := [] }

/-- Blocks no entry names any more wait for their erase: until every command that may read them has completed (R240), or at least until the
NVS may erase again (R241, R249). -/
def Nvs.discard (v : Nvs) (ps : List Nat) : Nvs :=
  let readers := (v.cmds.filter fun c => c.started && c.result.isNone && (c.op == 2 || c.op == 3 || c.op == 5 || c.op == 7)).map (·.key)
  { v with old := v.old ++ ps.map fun p => (p, readers) }

/-- Erase the old blocks that nothing reads any more. -/
def State.eraseOld (s : State) : State :=
  if s.inhibited || !s.flag Reg.NVS_STATUS.ready || s.apron then s
  else
    let waits (e : Nat × List Nat) : Bool := s.nvs.cmds.any fun c => e.2.contains c.key
    let gone := (s.nvs.old.filter fun e => !waits e).map (·.1)
    if gone.isEmpty then s
    else (s.modNvs fun v => gone.foldl Nvs.erase { v with old := v.old.filter waits }).showWear

/-- The state that a start finds on the NAND (R241): the last checkpoint and the journal after it, of which no record fails its code
(`execPowerOnReset`). Blocks of a shard without a commit record go back, and what held data that no entry names is erased before it is used.
Times of checks and bad flags stay with their entries (log 122). -/
def Nvs.replay (v : Nvs) : Nvs :=
  let i := v.records.foldl NvImage.apply v.image
  let dir := i.dir.map fun h => ((v.cur.dir.find? fun x => x.id == h.id).map fun x => { h with checked := x.checked, bad := x.bad }).getD h
  let map := i.map.filter fun e => dir.any fun h => h.covers e.1
  let named (p : Nat) : Bool := map.any fun e => e.2 == p
  let stray := ((v.cur.map ++ i.map).map (·.2) ++ v.old.map (·.1)).filter fun p => !named p && !Table.get false i.retired p
  { v with cur := { i with dir := dir, map := map }, old := stray.eraseDups.map fun p => (p, []) }

/-- What a reset leaves of the store: the NAND keeps its contents, commands in progress are lost, patch slots and their stamps start anew
(R266), and the translation state is read back at stage 10. -/
def Nvs.recover (v : Nvs) : Nvs := { v with cmds := [], loaded := [], stamp := 0, number := 0, block5 := List.replicate 32 0 }

/-- Relocate the data of block `p` to block `q` (R240): the copy, the record, and the old block's erase once its reads have completed; a
retired block is not erased. -/
def State.relocate (s : State) (p q : Nat) (retire : Bool) : State :=
  let s := s.modNvs fun v =>
    let copied := (v.units.filter fun e => e.1 / 4096 == p).foldl (fun t e => Table.put t (q * 4096 + e.1 % 4096) e.2) v.units
    let v := (v.cur.map.filter fun e => e.2 == p).foldl (fun v e => v.journal (.relocate e.1 q)) { v with units := copied }
    if retire then v else v.discard [p]
  (s.count Reg.NVS_RELOCCNT.count 1).eraseOld.showWear

/-- Relocate a mapped block into the free block that R236 picks. -/
def State.relocateLow (s : State) (p : Nat) : State :=
  match s.nvs.freeBlock (p / nvBlocks) with
  | some q => if s.nvs.cur.map.any fun e => e.2 == p then s.relocate p q false else s
  | none => s

/-- The NVS may program and erase: no inhibit, started, and not read-only. -/
def State.nvWrites (s : State) : Bool :=
  !s.inhibited && s.flag Reg.NVS_STATUS.ready && !s.flag Reg.NVS_STATUS.ro && !s.stopped

/-- NAND_OPERATION_FAIL (R236): the block is retired and its valid data goes to a free block, which stands in for it where it belongs to a
system region. Under write inhibit the NVS issues no operation but the journal close and Brilo's record (R249), so only a system block can
fail, and its record waits for nothing else. -/
def execNandOperationFail (block : Nat) (s : State) : Host.Outcome State Fault Refusal :=
  .next (if 8 * nvBlocks ≤ block ∨ s.nvs.isRetired block ∨ (s.inhibited ∧ !s.nvs.system block) then s
  else
    let q := s.nvs.freeBlock (block / nvBlocks)
    let mapped := s.nvs.cur.map.any fun e => e.2 == block
    let s := s.modNvs fun v => v.journal (.retire block (if v.system block then q else none))
    let s := s.count Reg.NVS_RETIRECNT.count 1
    let s := match q with
      | some q => if mapped then s.relocate block q true else s
      | none => s
    s.showWear)

/-- NVS_WEAR_LEVEL (R237): data of the least erased block goes to a free block with the highest count, at most once a minute. -/
def execNvsWearLevel (channel : Nat) (s : State) : Host.Outcome State Fault Refusal :=
  .next (
    let v := s.nvs
    let usable := (nvChannel channel).filter fun p => !v.system p && !v.isRetired p
    let top := (usable.map v.erasesOf).foldl max 0
    let low := leastBy v.erasesOf usable
    let due := match Table.get 0 v.levelled channel with
      | 0 => true
      | t => decide (t - 1 + 60000000000 ≤ s.uptime)
    if 8 ≤ channel || !s.nvWrites || !due then s
    else
      match low with
      | none => s
      | some p =>
        if top ≤ v.erasesOf p + 256 then s
        else
          let free := (usable.filter v.isFree).filter fun q => v.erasesOf q == (((usable.filter v.isFree).map v.erasesOf).foldl max 0)
          match free with
          | q :: _ =>
            let s := s.modNvs fun v => { v with levelled := Table.set 0 v.levelled channel (s.uptime + 1) }
            if v.cur.map.any fun e => e.2 == p then s.relocate p q false else s
          | [] => s)

/-- NVS_READ_DISTURB_RELOCATE (R238): a block with 200,000 page reads is relocated and erased. -/
def execNvsReadDisturbRelocate (block : Nat) (s : State) : Host.Outcome State Fault Refusal :=
  .next (if s.nvWrites && decide (200000 ≤ Table.get 0 s.nvs.reads block) then s.relocateLow block else s)

/-! ### Reads of the store (R235, R238) -/

/-- Page reads that reading `n` bytes from a user address makes, chunk of 64 KiB by chunk, of the blocks they lie in: 4 pages each. -/
def State.readPages (s : State) (u n : Nat) : State :=
  s.modNvs fun v => (List.range (ceilDiv n 65536)).foldl (fun v k =>
    match v.cur.entry (nvLogical (u + 65536 * k)) with
    | some p => { v with reads := Table.modify 0 v.reads p (· + 4) }
    | none => v) v

/-- The first data unit of a range, from a unit's start, that cannot be read: its user address. -/
def Nvs.firstLost (v : Nvs) (u n : Nat) : Option Nat :=
  ((List.range (ceilDiv n 4096)).map fun k => u + 4096 * k).find? fun x => (v.cipher x).isEmpty

/-- The plaintext of `n` bytes from a unit's start. -/
def Nvs.bytes (v : Nvs) (u n : Nat) : List Byte := ((List.range (ceilDiv n 4096)).flatMap fun k => v.plain (u + 4096 * k)).take n

/-- A unit that stayed uncorrectable is counted, raised and reported (R235). -/
def State.nvLost (s : State) : State := ((s.count Reg.NVS_UCCNT.count 1).nvEvt Reg.NVS_EVT.uc).recordFault 0x0604 (.unit slotXdieA) []

/-- What the NAND gave in an operation: corrected units are counted, the data of a unit that stays uncorrectable is lost, and the waits of
the NVS's beats are charged. -/
def State.nvRead (s : State) (r : NvsReport) : State :=
  let s := (s.count Reg.NVS_ECCCNT.count r.corrected).chargeBeats r.beats
  match r.uncorrectable with
  | none => s
  | some u => s.modNvs fun v => v.lose u

/-- A read of a range: its pages are counted, and it fails at the first unit that cannot be read. -/
def State.nvFetch (s : State) (u n : Nat) : Option Nat × State :=
  let s := s.readPages u n
  match s.nvs.firstLost u n with
  | none => (none, s)
  | some x => (some x, s.nvLost)

/-- NVS_SCRUB (R239): every page of a mapped block is read; a weak one is relocated. -/
def execNvsScrub (block : Nat) (weak : Bool) (report : NvsReport) (s : State) : Host.Outcome State Fault Refusal :=
  .next (if !s.flag Reg.NVS_STATUS.ready || !s.nvs.cur.map.any fun e => e.2 == block then s
  else
    let s := (s.nvRead report).modNvs fun v => { v with reads := Table.modify 0 v.reads block (· + 1024) }
    let s := if report.uncorrectable.isSome then s.nvLost else s
    if weak && s.nvWrites then s.relocateLow block else s)

/-- NVS_CHECKPOINT (R240): after 65,536 records the map is written as a checkpoint. -/
def execNvsCheckpoint (s : State) : Host.Outcome State Fault Refusal :=
  .next (if s.inhibited || s.nvs.records.length < 65536 then s else s.modNvs Nvs.checkpoint)

/-! ### Shards (R243, R244, R248) -/

/-- The prefix of a shard's digest (R244). -/
def digestPrefix (id kind patch version length : Nat) : List Byte :=
  let isPatch := kind == 2
  toBytes 4 id ++ toBytes 1 kind ++ toBytes 1 (if isPatch then patch else 0) ++ toBytes 1 (if isPatch then version else 0) ++
    toBytes 1 0 ++ toBytes 8 length

/-- The plaintext of a shard. -/
def State.shardBytes (s : State) (h : Shard) : List Byte := s.nvs.bytes h.base h.length

/-- The shard's bytes still match its directory digest. -/
def State.digestOk (s : State) (h : Shard) : Bool :=
  sha256 (digestPrefix h.id h.kind h.patch h.version h.length ++ s.shardBytes h) == h.digest

/-- The directory entry of an identifier. -/
def State.shard? (s : State) (id : Nat) : Option Shard := s.nvs.cur.dir.find? fun h => h.id == id

/-- The manifest of a generation. -/
def State.manifest? (s : State) (gen : Nat) : Option Shard := s.nvs.cur.dir.find? fun h => h.kind == 3 && h.gen == gen

/-- The commands that are writing a shard, with the run each has taken. -/
def Nvs.writing (v : Nvs) : List (NvCmd × Nat) := v.cmds.filterMap fun c => c.run.map fun g => (c, g)

/-- The lowest run of `n` groups that no shard holds and no command is writing. -/
def Nvs.freeRun (v : Nvs) (n : Nat) : Option Nat :=
  let runs := v.cur.dir.map (fun h => (h.group, groupsOf h.length)) ++ v.writing.map fun x => (x.2, groupsOf x.1.length)
  (List.range (24576 + 1 - n)).find? fun g => runs.all fun r => decide (r.1 + r.2 ≤ g) || decide (g + n ≤ r.1)

/-- Allocate blocks to the logical blocks of a run of groups (R236): none where a channel has no free block. -/
def Nvs.allocate (v : Nvs) : List Nat → Option Nvs
  | [] => some v
  | l :: r => match v.freeBlock (l % 8) with
    | some p => Nvs.allocate (v.journal (.allocate l p)) r
    | none => none

/-- The physical blocks of a run of groups. -/
def Nvs.runBlocks (v : Nvs) (g n : Nat) : List Nat := (logicals g n).filterMap v.cur.entry

/-- The run of a shard that never appears goes back to the free pool (R248): its entries name nothing, and its blocks are to be erased. -/
def State.returnRun (s : State) (g n : Nat) : State :=
  (s.modNvs fun v =>
    { v with cur := { v.cur with map := v.cur.map.filter fun e => !(logicals g n).contains e.1 } }.discard (v.runBlocks g n)).eraseOld

/-- Mark a shard bad and report it (R256). -/
def State.markBad (s : State) (id : Nat) : State :=
  let s := s.modNvs fun v => { v with cur := { v.cur with dir := v.cur.dir.map fun h => if h.id = id then { h with bad := true } else h } }
  ((s.count Reg.NVS_DIGFAILCNT.count 1).nvEvt Reg.NVS_EVT.digest).recordFault 0x0605 (.shard id) []

/-- A check of a shard in place (R255, R256): where it failed to read, whether it passed, and the state after it. A shard with a lost unit
fails (R235). -/
def State.checkShard (s : State) (h : Shard) (r : NvsReport) : Option Nat × Bool × State :=
  let got := (s.nvRead r).nvFetch h.base h.length
  let s := got.2.modNvs fun v =>
    { v with checks := v.checks + 1, cur := { v.cur with dir := v.cur.dir.map fun x => if x.id = h.id then { x with checked := v.checks + 1 } else x } }
  if got.1.isNone && s.digestOk h then (none, true, s) else (got.1, false, s.markBad h.id)

/-- A command that names a shard is in progress. -/
def State.shardBusy (s : State) (id : Nat) : Bool := s.nvs.cmds.any fun c => c.shard == id && c.op != 7 && c.op != 8

/-- NVS_DIGEST_CHECK (R255): a background check waits while a command that names the shard is in progress; of the others the oldest check
goes first. -/
def execNvsDigestCheck (shard : Nat) (report : NvsReport) (s : State) : Host.Outcome State Fault Refusal :=
  .next (match s.shard? shard with
    | none => s
    | some h =>
      if !s.flag Reg.NVS_STATUS.ready || s.shardBusy shard || s.nvs.cur.dir.any (fun x => decide (x.checked < h.checked) && !s.shardBusy x.id) then s
      else (s.checkShard h report).2.2)

/-- The directory entry a WRITE or RECV makes of its command, in a run. -/
def NvCmd.entry (c : NvCmd) (g : Nat) : Shard := ⟨c.shard, c.kind, c.length, c.gen, c.patch, c.version, c.digest, g, 0, false⟩

/-- Commit a shard whose every chunk is programmed in run `g` (R248), or give the run back: a source that failed, a second manifest of a
generation (R268), a digest that does not match. The answer is the status. -/
def State.commitShard (s : State) (c : NvCmd) (g : Nat) (failed : Bool) : Nat × State :=
  let n := groupsOf c.length
  if failed then (0x0A, s.returnRun g n)
  else if c.kind == 3 && (s.manifest? c.gen).isSome then (3, s.returnRun g n)
  else if (s.nvs.firstLost (g * 2 ^ 27) c.length).isNone && s.digestOk (c.entry g) then
    (0, s.modNvs fun v => { v with checks := v.checks + 1 }.journal (.commit { c.entry g with checked := v.checks + 1 }))
  else (5, s.returnRun g n)

/-! ### Generation slots (R257 to R261) -/

/-- State of a generation slot: 0 empty, 1 loading, 2 ready, 3 active. -/
def State.genState (s : State) (i : Nat) : Nat := s.fld Reg.NVS_GEN.state i

/-- The slot in state 1 that holds a whole T1 range. -/
def State.genTarget (s : State) (a n : Nat) : Option Nat :=
  (List.range 2).find? fun i => s.genState i == 1 && decide (s.fld Reg.NVS_GEN.base i ≤ a) &&
    decide (a + n ≤ s.fld Reg.NVS_GEN.base i + s.fld Reg.NVS_GEN.length i)

/-- A legal target of a LOAD or RECV (R254). -/
def State.targetOk (s : State) (a n gen : Nat) : Bool :=
  match s.genTarget a n with
  | some i => s.fld Reg.NVS_GEN.gen i == gen
  | none => false

/-- The slot in state 1 that an address lies in. -/
def State.genHolding (s : State) (a : Nat) : Option Nat :=
  (List.range 2).find? fun i => s.genState i == 1 && decide (s.fld Reg.NVS_GEN.base i ≤ a) &&
    decide (a < s.fld Reg.NVS_GEN.base i + s.fld Reg.NVS_GEN.length i)

/-- A LOAD, or a RECV with addr not 0, into a generation slot. -/
def NvCmd.loads (c : NvCmd) : Bool := c.op == 2 || (c.op == 6 && c.addr != 0)

/-- A load into a generation slot has ended: one done is kept for R269, one that failed, however early, sets load_fail (R254, Table 11.7). -/
def State.noteLoad (s : State) (c : NvCmd) (ok : Bool) : State :=
  if !c.loads then s
  else match s.genHolding c.addr with
    | none => s
    | some i => if ok then s.modNvs fun v => { v with loaded := v.loaded ++ [(i, c.shard, c.addr)] } else s.setFld Reg.NVS_GEN.load_fail 1 i

/-- A LOAD or RECV into a slot is in progress. -/
def State.loadsInto (s : State) (i : Nat) : Bool :=
  s.nvs.cmds.any fun c => c.loads && c.result.isNone &&
    decide (s.fld Reg.NVS_GEN.base i ≤ c.addr) && decide (c.addr < s.fld Reg.NVS_GEN.base i + s.fld Reg.NVS_GEN.length i)

/-- The manifest check of R269 for a slot. -/
def State.manifestOk (s : State) (i : Nat) : Bool :=
  match s.manifest? (s.fld Reg.NVS_GEN.gen i) with
  | none => true
  | some m =>
    let bs := s.shardBytes m
    let count := numAt bs 4 4
    let zero (off n : Nat) : Bool := (bs.drop off).take n |>.all (· == 0)
    let entry (e : Nat) : Bool :=
      let o := 0x40 + 64 * e
      let id := numAt bs o 4
      let off := numAt bs (o + 0x10) 8
      decide (numAt bs (o + 4) 1 ≤ 1) && zero (o + 5) 3 && off % 64 == 0 &&
        (decide (e = 0) || decide (numAt bs (o - 64 + 0x10) 8 < off)) && zero (o + 0x38) 8 &&
        s.nvs.loaded.contains (i, id, s.fld Reg.NVS_GEN.base i + off) &&
        (match s.shard? id with
          | some h => h.digest == (bs.drop (o + 0x18)).take 32 && h.length == numAt bs (o + 8) 8 && h.kind == numAt bs (o + 4) 1
          | none => false)
    (s.nvs.firstLost m.base m.length).isNone && numAt bs 0 4 == 0x4D4E4631 && decide (1 ≤ count) && decide (count ≤ 16383) && numAt bs 8 4 == m.gen && zero 0xC 4 &&
      zero 0x18 40 && decide (numAt bs 0x10 8 ≤ s.fld Reg.NVS_GEN.length i) && decide (0x40 + 64 * count ≤ m.length) &&
      (List.range count).all entry && zero (0x40 + 64 * count) (m.length - (0x40 + 64 * count))

/-- Reject a generation write (R257). -/
def State.rejectGen (s : State) : State := s.nvEvt Reg.NVS_EVT.reject

/-- GEN_SET_LOADING (R257): state 0 to 1. -/
def execGenSetLoading (slot : Nat) (keep : Bool) (s : State) : Host.Outcome State Fault Refusal :=
  .next (s.hostWrite (0x1400114 + 32 * slot) 4 fun s =>
    if 2 ≤ slot then s
    else if s.genState slot = 0 then
      let s := (s.setFld Reg.NVS_GEN.state 1 slot).setFlag Reg.NVS_GEN.kv_keep keep slot
      (s.setFld Reg.NVS_GEN.load_fail 0 slot).modNvs fun v => { v with loaded := v.loaded.filter fun x => x.1 != slot }
    else if s.genState slot = 1 then s.setFlag Reg.NVS_GEN.kv_keep keep slot
    else s.rejectGen)

/-- GEN_SET_READY (R257, R269): state 1 to 2. The NVS reads the manifest from the store (R238, R268). -/
def execGenSetReady (slot : Nat) (s : State) : Host.Outcome State Fault Refusal :=
  .next (s.hostWrite (0x1400114 + 32 * slot) 4 fun s =>
    if 2 ≤ slot ∨ s.genState slot = 2 then s
    else if s.genState slot ≠ 1 ∨ s.loadsInto slot ∨ s.flag Reg.NVS_GEN.load_fail slot then s.rejectGen
    else
      let ok := s.manifestOk slot
      let s := match s.manifest? (s.fld Reg.NVS_GEN.gen slot) with
        | some m => (s.nvFetch m.base m.length).2
        | none => s
      if ok then s.setFld Reg.NVS_GEN.state 2 slot else (s.setFld Reg.NVS_GEN.load_fail 1 slot).rejectGen)

/-- GEN_SET_EMPTY (R257): state 0, from state 1, or from state 2 without references. -/
def execGenSetEmpty (slot : Nat) (keep : Bool) (s : State) : Host.Outcome State Fault Refusal :=
  .next (s.hostWrite (0x1400114 + 32 * slot) 4 fun s =>
    if 2 ≤ slot then s
    else if s.genState slot = 0 then s.setFlag Reg.NVS_GEN.kv_keep keep slot
    else if s.genState slot = 1 then (s.setFld Reg.NVS_GEN.state 0 slot).setFlag Reg.NVS_GEN.kv_keep keep slot
    else if s.genState slot = 2 ∧ s.fld Reg.NVS_GEN.refs slot = 0 then s.setFld Reg.NVS_GEN.state 0 slot
    else s.rejectGen)

/-- Measurement block 5 (R270): the directory digest of the active generation's manifest, or 32 zero bytes, and the digests of the resident
patch shards in slot order. It is taken in the steps in which NVS_GENACT or NVS_PATCHMAP changes, and stays as it is between them: a patch
whose shard has been deleted since counts with the digest it had. -/
def State.measure5 (s : State) (patches : List Byte) : State :=
  let head := match s.manifest? (s.fld Reg.NVS_GEN.gen (s.fld Reg.NVS_GENACT.active)) with
    | some m => if s.genState (s.fld Reg.NVS_GENACT.active) = 3 then m.digest else List.replicate 32 0
    | none => List.replicate 32 0
  s.modNvs fun v => { v with block5 := head ++ patches }

/-- GENACT_WRITE (R258, R270). -/
def execGenactWrite (slot : Nat) (s : State) : Host.Outcome State Fault Refusal :=
  .next (s.hostWrite 0x1400140 4 fun s =>
    let old := s.fld Reg.NVS_GENACT.active
    if 2 ≤ slot then s
    else if s.genState slot = 2 then
      let s := if s.genState old = 3 then s.setFld Reg.NVS_GEN.state 2 old else s
      ((s.setFld Reg.NVS_GEN.state 3 slot).setFld Reg.NVS_GENACT.active slot).measure5 (s.nvs.block5.drop 32)
    else if s.genState slot = 3 then s
    else s.rejectGen)

/-- NVS_LOCK_SET (R517, R518): needs MEM_LOCK. -/
def execNvsLockSet (s : State) : Host.Outcome State Fault Refusal :=
  .next (s.hostWrite 0x1400004 4 fun s =>
    if s.flag Reg.MEM_LOCK.lock then (s.setFld Reg.NVS_LOCK.lock 1).setFld Reg.TOP_LOCKSTAT.nvs 1 else s.latchAccess 3 0x1400004 4)

/-! ### Patch slots (R262 to R266) -/

/-- State of a patch slot: 0 free, 1 loading, 2 resident, 3 retiring. -/
def State.patchState (s : State) (i : Nat) : Nat := s.fld Reg.NVS_PATCHSLOT.state i

/-- T1 offset of a patch slot. -/
def State.patchAt (s : State) (i : Nat) : Nat :=
  s.fld Reg.NVS_PATCHCFG.base - Store.t1.base + i * s.fld Reg.NVS_PATCHCFG.slot_mib * 2 ^ 20

/-- A slot becomes free. -/
def State.freeSlot (s : State) (i : Nat) : State := (s.setFld Reg.NVS_PATCHSLOT.state 0 i).setFld Reg.NVS_PATCHSLOT.patch 0 i

/-- A retiring slot without references becomes free (R264). -/
def State.settleSlot (s : State) (i : Nat) : State :=
  if s.patchState i = 3 ∧ s.fld Reg.NVS_PATCHSLOT.refs i = 0 then s.freeSlot i else s

/-- Make the resident slot of a patch retiring. -/
def State.retireSlot (s : State) (i : Nat) : State := (s.setFld Reg.NVS_PATCHSLOT.state 3 i).settleSlot i

/-- Unmap a patch. -/
def State.unmapPatch (s : State) (p : Nat) : State :=
  ((s.setFld Reg.NVS_PATCHMAP.resident 0 p).setFld Reg.NVS_PATCHMAP.version 0 p).setFld Reg.NVS_PATCHMAP.slot 0 p

/-- The slots of the patch area. -/
def State.patchSlots (s : State) : List Nat := List.range (s.fld Reg.NVS_PATCHCFG.slots)

/-- A slot comes before another as a victim (R265): use count, then stamp by serial arithmetic, then number. -/
def State.evictBefore (s : State) (a b : Nat) : Bool :=
  let use (i : Nat) : Nat := s.fld Reg.NVS_PATCHSLOT.use i
  let st (i : Nat) : Nat := s.fld Reg.NVS_PATCHSLOT.stamp i
  decide (use a < use b) || (use a == use b && (laterBy 32 (st b) (st a) || (st a == st b && decide (a ≤ b))))

/-- The slot for one more patch beside those already chosen: the lowest free one, else one to evict. -/
def State.pickSlot (s : State) (chosen : List Nat) : Option Nat :=
  match s.patchSlots.find? fun i => s.patchState i == 0 && !chosen.contains i with
  | some i => some i
  | none =>
    (sortBy s.evictBefore (s.patchSlots.filter fun i =>
      s.patchState i == 2 && s.fld Reg.NVS_PATCHSLOT.refs i == 0 && !chosen.contains i)).head?

/-- Slots for `n` patches, or none. -/
def State.pickSlots (s : State) : Nat → List Nat → Option (List Nat)
  | 0, chosen => some chosen
  | n + 1, chosen => match s.pickSlot chosen with
    | some i => s.pickSlots n (chosen ++ [i])
    | none => none

/-- The patch shard of an identifier and version. -/
def State.patchShard (s : State) (p v : Nat) : Option Shard :=
  s.nvs.cur.dir.find? fun h => h.kind == 2 && h.patch == p && h.version == v

/-- The resident patches' digests, as the slots hold them: those measured before stand, in slot order, but for slots `gone`, and slot `new`
takes its own (R270). -/
def State.patchDigests (s : State) (t : State) : List Byte :=
  let res (u : State) : List Nat := (List.range 256).filter fun i => u.patchState i == 2
  let had (i : Nat) : List Byte := ((t.nvs.block5.drop 32).drop (32 * ((res t).takeWhile (· != i)).length)).take 32
  (res s).flatMap fun i =>
    let p := s.fld Reg.NVS_PATCHSLOT.patch i
    if (res t).contains i && t.fld Reg.NVS_PATCHSLOT.stamp i == s.fld Reg.NVS_PATCHSLOT.stamp i && t.fld Reg.NVS_PATCHSLOT.patch i == p then had i
    else ((s.patchShard p (s.fld Reg.NVS_PATCHMAP.version p)).map (·.digest)).getD []

/-- NVS_PATCHMAP has changed since state `t`: block 5 follows (R270). -/
def State.remeasure (s t : State) : State := s.measure5 (s.patchDigests t)

/-- Load a patch shard into its slot, checking its digest; the answer says whether it went well. -/
def State.loadPatch (s : State) (p v slot : Nat) : Bool × State :=
  match s.patchShard p v with
  | none => (false, s)
  | some h =>
    let got := s.nvFetch h.base h.length
    let s := got.2
    if h.bad || s.fld Reg.NVS_PATCHCFG.slot_mib * 2 ^ 20 < h.length || got.1.isSome then (false, s)
    else (s.digestOk h, s.t1Put (s.patchAt slot) (s.shardBytes h))

/-- One batch more uses a slot: refs and use count rise (R262), every count being halved before one would reach 2^31 (R266). -/
def State.usePatch (s : State) (i : Nat) : State :=
  let s := if s.fld Reg.NVS_PATCHSLOT.use i + 1 < 2 ^ 31 then s
    else (List.range 256).foldl (fun s j => s.setFld Reg.NVS_PATCHSLOT.use (s.fld Reg.NVS_PATCHSLOT.use j / 2) j) s
  (s.setFld Reg.NVS_PATCHSLOT.use (s.fld Reg.NVS_PATCHSLOT.use i + 1) i).setFld Reg.NVS_PATCHSLOT.refs
    (s.fld Reg.NVS_PATCHSLOT.refs i + 1) i

/-! ### Commands (R245 to R247) -/

/-- Entries of each NVS ring. -/
def State.nvN (s : State) : Nat := 2 ^ s.fld Reg.NVS_RINGCFG.log2n
/-- Position of a ring index. -/
def State.nvPos (s : State) (index phase : Field) : Nat := s.fld index + s.nvN * s.fld phase
/-- Move a ring index to a position. -/
def State.setNvPos (s : State) (index phase : Field) (p : Nat) : State :=
  (s.setFld index (p % s.nvN)).setFld phase (p / s.nvN % 2)
/-- Consumer of the command ring. -/
def State.nvHead (s : State) : Nat := s.nvPos Reg.NVS_CMDHEAD.index Reg.NVS_CMDHEAD.phase
/-- Producer of the command ring. -/
def State.nvTail (s : State) : Nat := s.nvPos Reg.NVS_CMDTAIL.index Reg.NVS_CMDTAIL.phase
/-- Consumer of the completion ring. -/
def State.nvCplHead (s : State) : Nat := s.nvPos Reg.NVS_CPLHEAD.index Reg.NVS_CPLHEAD.phase
/-- Producer of the completion ring. -/
def State.nvCplTail (s : State) : Nat := s.nvPos Reg.NVS_CPLTAIL.index Reg.NVS_CPLTAIL.phase

/-- NVS_RING_ENABLE (R245, R518): en goes from 0 to 1, and all four indices to index 0, phase 0. -/
def execNvsRingEnable (value : Nat) (s : State) : Host.Outcome State Fault Refusal :=
  .next (s.hostWrite 0x1400008 4 fun s =>
    if s.flag Reg.NVS_RINGCFG.en ∨ bits value 3 0 < 4 ∨ 12 < bits value 3 0 then s
    else if !s.flag Reg.NVS_LOCK.lock && !s.apron then s.latchAccess 3 0x1400008 4
    else
      let s := s.setFld Reg.NVS_RINGCFG.log2n (bits value 3 0)
      let s := s.clearFlds [Reg.NVS_CMDHEAD.index, Reg.NVS_CMDHEAD.phase, Reg.NVS_CMDTAIL.index, Reg.NVS_CMDTAIL.phase,
        Reg.NVS_CPLHEAD.index, Reg.NVS_CPLHEAD.phase, Reg.NVS_CPLTAIL.index, Reg.NVS_CPLTAIL.phase]
      s.setFld Reg.NVS_RINGCFG.en 1)

/-- NVS_CMDTAIL_WRITE (R245). -/
def execNvsCmdtailWrite (value : Nat) (s : State) : Host.Outcome State Fault Refusal :=
  .next (s.hostWrite 0x1400020 4 fun s =>
    let n := s.nvN
    let t := ringPos 12 n value
    if !ringLegal 12 n value ∨ ringDist n s.nvHead t < ringDist n s.nvHead s.nvTail ∨ n < ringDist n s.nvHead t then s
    else s.setNvPos Reg.NVS_CMDTAIL.index Reg.NVS_CMDTAIL.phase t)

/-- NVS_CPLHEAD_WRITE (R245). -/
def execNvsCplheadWrite (value : Nat) (s : State) : Host.Outcome State Fault Refusal :=
  .next (s.hostWrite 0x140002C 4 fun s =>
    let n := s.nvN
    let h := ringPos 12 n value
    if !ringLegal 12 n value ∨ ringDist n s.nvCplHead s.nvCplTail < ringDist n s.nvCplHead h then s
    else s.setNvPos Reg.NVS_CPLHEAD.index Reg.NVS_CPLHEAD.phase h)

/-- The fields of a command entry (Table 11.2). -/
def NvCmd.ofBytes (key : Nat) (index : Option Nat) (bs : List Byte) : NvCmd :=
  let op := numAt bs 0 1
  let count := numAt bs 1 1
  { key := key, index := index, op := op, count := count, kind := numAt bs 2 1, shard := numAt bs 4 4, length := numAt bs 8 8,
    addr := numAt bs 0x10 8, gen := numAt bs 0x18 4, group := numAt bs 0x1C 2, patch := numAt bs 0x1E 1,
    version := numAt bs 0x1F 1, digest := (bs.drop 0x20).take 32,
    pairs := (List.range (min count 8)).map fun i => (numAt bs (0x20 + 2 * i) 1, numAt bs (0x21 + 2 * i) 1),
    started := false, result := none, run := none, chunks := [], rounds := 0, number := 0, slots := [], replied := [] }

/-- A command entry is illegal: a reserved opcode or field, or a length, address or count out of range (Table 11.2). -/
def State.nvIllegal (s : State) (c : NvCmd) (bs : List Byte) : Bool :=
  let sized := c.op == 1 || c.op == 6
  c.op == 0 || decide (8 < c.op) || numAt bs 3 1 != 0 ||
    (if c.op = 7 then decide (c.count < 1) || decide (8 < c.count) || (c.digest.drop (2 * c.count)).any (· != 0) ||
        s.fld Reg.NVS_PATCHCFG.slots == 0 else c.count != 0) ||
    (if sized then decide (3 < c.kind) || decide (c.length < 65536) || decide (2 ^ 32 < c.length) || c.length % 65536 != 0
      else c.kind != 0) ||
    (c.group != 0 && c.op != 5 && c.op != 6) ||
    (c.op == 1 && (match locateRange c.addr c.length with
      | some (.t1, _) => false
      | some (.t3, _) => false
      | _ => true)) ||
    (c.op == 6 && c.kind == 3 && c.addr != 0)

/-- The status that turns a command away as it is taken, if any. -/
def State.nvRefusal (s : State) (c : NvCmd) (bs : List Byte) : Option Nat :=
  if (s.apron && c.op != 3) || (s.flag Reg.NVS_STATUS.worn && (c.op == 1 || c.op == 4 || c.op == 6)) then some 8
  else if s.inhibited && (c.op == 1 || c.op == 4 || c.op == 6 || c.op == 7) then some 7
  else if s.nvIllegal c bs then some 1
  else none

/-- Change a command in progress. -/
def State.modCmd (s : State) (key : Nat) (f : NvCmd → NvCmd) : State :=
  s.modNvs fun v => { v with cmds := v.cmds.map fun c => if c.key == key then f c else c }

/-- Decide a command's result: a load into a generation slot is noted with it, and it writes no more. -/
def State.nvDecide (s : State) (c : NvCmd) (status detail : Nat) : State :=
  (s.noteLoad c (status == 0)).modCmd c.key fun c => { c with result := some (status, detail), run := none }

/-- May the command start (R246): none before it names the same shard, and PLOAD and PEVICT go one at a time. -/
def nvMayStart (before : List NvCmd) (c : NvCmd) : Bool :=
  if c.op = 7 ∨ c.op = 8 then before.all fun b => b.op != 7 && b.op != 8
  else before.all fun b => b.op == 7 || b.op == 8 || b.shard != c.shard

/-- The first command that may start and has not. -/
def nvNext : List NvCmd → List NvCmd → Option NvCmd
  | _, [] => none
  | before, c :: r =>
    if !c.started && nvMayStart before c then some c else nvNext (before ++ [c]) r

/-- Give the patches of a PLOAD their slots and send the install (R263). -/
def State.placePload (s : State) (c : NvCmd) : State :=
  match s.pickSlots c.pairs.length [] with
  | none => s
  | some slots =>
    let t := s
    let s := slots.foldl (fun s i =>
      let s := if s.patchState i = 2 then s.unmapPatch (s.fld Reg.NVS_PATCHSLOT.patch i) else s
      s.setFld Reg.NVS_PATCHSLOT.state 1 i) s
    let s := s.remeasure t
    let s := (List.zip c.pairs slots).foldl (fun s x => s.setFld Reg.NVS_PATCHSLOT.patch x.1.1 x.2) s
    let n := (s.nvs.number + 1) % 2 ^ 32
    let s := s.modNvs fun v => { v with number := n }
    let s := s.modCmd c.key fun c => { c with slots := slots, number := n }
    s.sendGroup 6 (s.fld Reg.NVS_PATCHCFG.grp) 0x1C (lineOf ([(0, 4, n), (4, 1, c.pairs.length)] ++
      (List.zip (List.range 8) (List.zip c.pairs slots)).flatMap fun x =>
        [(8 + 4 * x.1, 1, x.2.1.1), (9 + 4 * x.1, 1, x.2.1.2), (10 + 4 * x.1, 1, x.2.2)]))

/-- A PLOAD that still waits for slots tries again (R265). -/
def State.retryPload (s : State) : State :=
  match s.nvs.cmds.find? fun c => c.op == 7 && c.started && c.result.isNone && c.slots.isEmpty with
  | some c => s.placePload c
  | none => s

/-- A WRITE or RECV takes a run of groups and blocks for it (R236, R243): the directory's limit counts the shards being written. -/
def State.takeRun (s : State) (c : NvCmd) : State :=
  let n := groupsOf c.length
  if 16384 ≤ s.nvs.cur.dir.length + s.nvs.writing.length then s.nvDecide c 4 0
  else match s.nvs.freeRun n with
    | none => s.nvDecide c 4 0
    | some g => match s.nvs.allocate (logicals g n) with
      | none => s.nvDecide c 4 0
      | some v => (s.modNvs fun _ => v).modCmd c.key fun c => { c with run := some g }

/-- What a command does as it starts: the checks that need the directory, and the first effects. -/
def State.nvBegin (s : State) (c : NvCmd) : State :=
  let s := s.modCmd c.key fun c => { c with started := true }
  let no (st : Nat) : State := s.nvDecide c st 0
  if c.result.isSome then s
  else match c.op with
  | 1 | 6 =>
    if (s.shard? c.shard).isSome || (c.kind == 3 && (s.manifest? c.gen).isSome) then no 3
    else if c.loads && !s.targetOk c.addr c.length c.gen then no 6
    else s.takeRun c
  | 2 =>
    match s.shard? c.shard with
    | none => no 2
    | some h =>
      if h.kind = 3 then no 1
      else if !s.targetOk c.addr h.length h.gen then no 6
      else if h.bad then no 5
      else s
  | 5 =>
    match s.shard? c.shard with
    | none => no 2
    | some h => if h.bad then no 5 else s
  | 7 =>
    if c.pairs.any fun x => (s.patchShard x.1 x.2).isNone then no 2 else s.placePload c
  | 8 =>
    if s.flag Reg.NVS_PATCHMAP.resident c.patch then
      let slot := s.fld Reg.NVS_PATCHMAP.slot c.patch
      ((((s.unmapPatch c.patch).retireSlot slot).remeasure s).nvDecide c 0 0)
    else no 2
  | _ => if (s.shard? c.shard).isNone then no 2 else s

/-- Start every command that may start; at most 17 are in progress. -/
def State.nvStart : Nat → State → State
  | 0, s => s
  | n + 1, s => match nvNext [] s.nvs.cmds with
    | some c => State.nvStart n (s.nvBegin c)
    | none => s

/-- Loads that the NVS issued itself leave no record: once decided they go. -/
def State.nvSettle (s : State) : State :=
  (s.modNvs fun v => { v with cmds := v.cmds.filter fun c => c.index.isSome || c.result.isNone }).nvStart 17

/-- The host's bytes of the entry at the head of the command ring, or those in T1. -/
def State.nvEntry (s : State) (host : List Byte) : List Byte :=
  if s.apron then (host ++ List.replicate 64 0).take 64
  else s.areaGet (s.fld Reg.NVS_CMDBASE.base + 64 * (s.nvHead % s.nvN)) 64 host

/-- A ring cannot be reached: it lies in T3 while that is not enabled, or where no ring may (R208, R224). In Apron mode both lie in the host's
memory. -/
def State.nvClosed (s : State) : Bool :=
  !s.apron && (s.areaClosed (s.fld Reg.NVS_CMDBASE.base + 64 * (s.nvHead % s.nvN)) 64 ||
    s.areaClosed (s.fld Reg.NVS_CPLBASE.base + 16 * (s.nvCplTail % s.nvN)) 16)

/-- Take the next command of the ring when its opcode is one of the row's (R246). -/
def State.nvTake (s : State) (host : List Byte) (mine : Nat → Bool) : State :=
  let bs := s.nvEntry host
  if !s.flag Reg.NVS_RINGCFG.en || !s.flag Reg.NVS_STATUS.ready || s.nvHead == s.nvTail ||
      decide (16 ≤ (s.nvs.cmds.filter (·.index.isSome)).length) || s.closing || s.nvClosed || !mine (numAt bs 0 1) then s
  else
    let c := NvCmd.ofBytes s.nvs.taken (some (s.nvHead % s.nvN)) bs
    let no := s.nvRefusal c bs
    let at' := s.nvHead
    let s := if s.apron then s else s.touchT1 (s.fld Reg.NVS_CMDBASE.base + 64 * (at' % s.nvN)) 64
    let s := s.setNvPos Reg.NVS_CMDHEAD.index Reg.NVS_CMDHEAD.phase ((at' + 1) % (2 * s.nvN))
    let s := s.modNvs fun v => { v with cmds := v.cmds ++ [c], taken := v.taken + 1 }
    ((no.map fun st => s.nvDecide c st 0).getD s).nvStart 17

/-- WRITE (R248). A reserved opcode is taken by this row too, and is illegal. -/
def execWrite (host : List Byte) (s : State) : Host.Outcome State Fault Refusal :=
  .next (s.nvTake host fun op => op == 1 || op == 0 || decide (8 < op))
/-- LOAD (R254). -/
def execLoad (host : List Byte) (s : State) : Host.Outcome State Fault Refusal := .next (s.nvTake host (· == 2))
/-- VERIFY (R255). -/
def execVerify (host : List Byte) (s : State) : Host.Outcome State Fault Refusal := .next (s.nvTake host (· == 3))
/-- DELETE (Table 11.3). -/
def execDelete (host : List Byte) (s : State) : Host.Outcome State Fault Refusal := .next (s.nvTake host (· == 4))
/-- KEEP (R252). -/
def execKeep (host : List Byte) (s : State) : Host.Outcome State Fault Refusal := .next (s.nvTake host (· == 5))
/-- RECV (R253). -/
def execRecv (host : List Byte) (s : State) : Host.Outcome State Fault Refusal := .next (s.nvTake host (· == 6))
/-- PLOAD (R263). -/
def execPload (host : List Byte) (s : State) : Host.Outcome State Fault Refusal := .next (s.nvTake host (· == 7))
/-- PEVICT (R264). -/
def execPevict (host : List Byte) (s : State) : Host.Outcome State Fault Refusal := .next (s.nvTake host (· == 8))

/-- The NVS issues a PLOAD of the highest version of an absent patch (R262), unless one is under way. -/
def State.autoLoad (s : State) (p : Nat) : State :=
  let versions := (s.nvs.cur.dir.filter fun h => h.kind == 2 && h.patch == p).map (·.version)
  if !s.flag Reg.NVS_PATCHCFG.auto || versions.isEmpty || s.inhibited || s.apron || !s.flag Reg.NVS_STATUS.ready ||
      s.nvs.cmds.any fun c => c.op == 7 && c.pairs.any (fun x => x.1 == p) then s
  else
    let c := { NvCmd.ofBytes s.nvs.taken none [] with op := 7, count := 1, pairs := [(p, versions.foldl max 0)] }
    (s.modNvs fun v => { v with cmds := v.cmds ++ [c], taken := v.taken + 1 }).nvStart 17

/-! ### Completion -/

/-- Chunks of a shard: 64 KiB each (R252). -/
def shardChunks (length : Nat) : Nat := length / 65536

/-- The payloads of one chunk of a shard that KEEP streams (R252, R399). -/
def State.chunkItems (s : State) (c : NvCmd) (h : Shard) (k : Nat) : List (List Byte) :=
  itemPayloads (fun l => lineOf [(0, 4, c.shard), (4, 4, k), (8, 4, l)]) (s.nvs.bytes (h.base + 65536 * k) 65536)

/-- Send a chunk of a shard to the group of a KEEP. -/
def State.sendChunk (s : State) (c : NvCmd) (h : Shard) (k : Nat) : State :=
  (s.chunkItems c h k).foldl (fun s p => s.sendGroup 6 c.group 0x17 p) s

/-- Send chunks of a shard to the group of a KEEP. -/
def State.sendChunks (s : State) (c : NvCmd) (h : Shard) (chunks : List Nat) : State :=
  chunks.foldl (fun s k => s.sendChunk c h k) s

/-- The payload of a keeper marker: kind 0 end, 1 abort, and the chunks sent (Table 17.17). -/
def markerLine (shard kind sent : Nat) : List Byte := lineOf [(0, 4, shard), (4, 1, kind), (8, 4, sent)]

/-- KEEP reads and streams its shard (R252): every chunk before one that cannot be read goes out, and then an abort marker. -/
def State.keepStream (s : State) (c : NvCmd) (h : Shard) : State :=
  let got := s.nvFetch h.base h.length
  let s := got.2
  let marker (s : State) (kind sent : Nat) : State := s.sendGroup 6 c.group 0x18 (markerLine c.shard kind sent)
  match got.1 with
  | some u =>
    let n := (u - h.base) / 65536
    (marker (s.sendChunks c h (List.range n)) 1 n).nvDecide c 9 u
  | none =>
    let s := s.sendChunks c h (List.range (shardChunks h.length))
    if s.digestOk h then (marker s 0 (shardChunks h.length)).modCmd c.key fun c => { c with rounds := 1 }
    else (marker s 1 (shardChunks h.length)).nvDecide c 5 h.length

/-- The chunks of a RECV that have not arrived. -/
def NvCmd.missing (c : NvCmd) : List Nat := (List.range (shardChunks c.length)).filter fun k => !c.chunks.contains k

/-- A PLOAD has failed: every slot it named is free again, and the map stays (R263). -/
def State.failPload (s : State) (c : NvCmd) (status : Nat) : State :=
  (c.slots.foldl (fun s i => s.freeSlot i) s).nvDecide c status 0

/-- Slots become resident with one install stamp, and the map switches, in one step (R263, R264). -/
def State.install (s : State) (pairs : List ((Nat × Nat) × Nat)) : State :=
  let stamp := (s.nvs.stamp + 1) % 2 ^ 32
  let t := s
  let s := s.modNvs fun v => { v with stamp := stamp }
  (pairs.foldl (fun s x =>
    let p := x.1.1
    let v := x.1.2
    let s := if s.flag Reg.NVS_PATCHMAP.resident p then s.retireSlot (s.fld Reg.NVS_PATCHMAP.slot p) else s
    let s := ((s.setFld Reg.NVS_PATCHSLOT.state 2 x.2).setFld Reg.NVS_PATCHSLOT.stamp stamp x.2).setFld Reg.NVS_PATCHSLOT.use 0 x.2
    ((s.setFld Reg.NVS_PATCHMAP.slot x.2 p).setFld Reg.NVS_PATCHMAP.version v p).setFld Reg.NVS_PATCHMAP.resident 1 p) s).remeasure t

/-- Every member has replied done (R263). -/
def State.finishPload (s : State) (c : NvCmd) : State := (s.install (List.zip c.pairs c.slots)).nvDecide c 0 0

/-- A member's install outcome reaches the PLOAD (R263). -/
def State.ploadReply (s : State) (number ep : Nat) (ok : Bool) : State :=
  match s.nvs.cmds.find? fun c => c.op == 7 && c.started && c.result.isNone && !c.slots.isEmpty && c.number == number with
  | none => s
  | some c =>
    if !ok then (s.failPload c 0x0D).nvSettle
    else
      let replied := if c.replied.contains ep then c.replied else c.replied ++ [ep]
      let s := s.modCmd c.key fun c => { c with replied := replied }
      if replied.length < s.fld Reg.FAB_GRP.count (s.fld Reg.NVS_PATCHCFG.grp) then s
      else (s.finishPload { c with replied := replied }).nvSettle

/-- The patches of an install are loaded into their slots, one after the other; the answer says whether all went well. -/
def State.loadPatches (s : State) (xs : List ((Nat × Nat) × Nat)) : Bool × State :=
  xs.foldl (fun (x : Bool × State) y =>
    let got := x.2.loadPatch y.1.1 y.1.2 y.2
    (x.1 && got.1, got.2)) (true, s)

/-- This module's own part of a PLOAD. -/
def State.ploadOwn (s : State) (c : NvCmd) : State :=
  let got := s.loadPatches (List.zip c.pairs c.slots)
  got.2.ploadReply c.number (s.fld Reg.FAB_EPID.ep) got.1

/-- WRITE programs its shard from T1 or T3 and commits it (R248). -/
def State.writeShard (s : State) (c : NvCmd) (g : Nat) (r : NvsReport) : State :=
  let bytes := match locate c.addr with
    | some (.t1, o) => s.t1Get o c.length
    | _ => (r.arrived ++ List.replicate c.length 0).take c.length
  let failed := r.sourceFailed || (match locate c.addr with
    | some (.t1, o) => s.isPoisoned o c.length
    | _ => !s.flag Reg.MEM_T3BASE.en)
  let s := (s.touchT1 c.addr c.length).modNvs fun v => v.programAll (g * 2 ^ 27) (c.length / 4096) bytes
  let got := s.commitShard c g failed
  got.2.nvDecide c got.1 (if failed then r.done else if got.1 = 3 then 0 else c.length)

/-- LOAD writes its shard to T1 through the staging caches, as far as it can be read, and compares the digest (R254). -/
def State.loadShard (s : State) (c : NvCmd) (h : Shard) : State :=
  let got := s.nvFetch h.base h.length
  let s := got.2
  match got.1 with
  | some u => (s.t1Put (c.addr - Store.t1.base) (s.nvs.bytes h.base (u - h.base))).nvDecide c 9 u
  | none => (s.t1Put (c.addr - Store.t1.base) (s.shardBytes h)).nvDecide c (if s.digestOk h then 0 else 5) h.length

/-- DELETE removes a shard and frees its groups; its blocks are erased once nothing reads them (R240, Table 11.3). -/
def State.deleteShard (s : State) (h : Shard) : State :=
  (s.modNvs fun v => (v.journal (.delete h.id)).discard (v.runBlocks h.group (groupsOf h.length))).eraseOld.showWear

/-- The work of a command that has started: what is left when its NAND operations have ended. -/
def State.nvWork (s : State) (c : NvCmd) (r : NvsReport) : State :=
  let s := s.nvRead r
  match c.op, s.shard? c.shard with
  | 1, _ => (c.run.map fun g => s.writeShard c g r).getD s
  | 2, some h => s.loadShard c h
  | 3, some h =>
    let got := s.checkShard h { r with corrected := 0, uncorrectable := none, beats := [] }
    match got.1 with
    | some u => got.2.2.nvDecide c 9 u
    | none => got.2.2.nvDecide c (if got.2.1 then 0 else 5) h.length
  | 4, some h => (s.deleteShard h).nvDecide c 0 0
  | 5, some h => if c.rounds = 0 then s.keepStream c h else s
  | 6, _ => match c.run with
    | some g =>
      if c.missing.isEmpty && c.rounds != 0 then
        let got := s.commitShard c g r.sourceFailed
        got.2.nvDecide c got.1 (if got.1 = 3 then 0 else c.length)
      else s
    | none => s
  | 7, _ => if c.slots.isEmpty || c.replied.contains (s.fld Reg.FAB_EPID.ep) then s else s.ploadOwn c
  | _, _ => s

/-- Write the completion record of a command and let go of it (R247). -/
def State.nvRecord (s : State) (c : NvCmd) (status detail : Nat) : State :=
  let s := if status = 0 then s else s.nvEvt Reg.NVS_EVT.cmd_fail
  let s := (s.modNvs fun v => { v with cmds := v.cmds.filter fun x => x.key != c.key }).eraseOld
  let s := if !s.flag Reg.NVS_RINGCFG.en then s
    else
      let n := s.nvN
      let p := s.nvCplTail
      let bs := toBytes 2 (c.index.getD 0) ++ toBytes 1 status ++ toBytes 1 (entryPhase n p) ++ toBytes 4 c.shard ++ toBytes 8 detail
      let a := s.fld Reg.NVS_CPLBASE.base + 16 * (p % n)
      let s := if s.apron then s.emit (.host a bs) else s.areaPut a bs
      s.setNvPos Reg.NVS_CPLTAIL.index Reg.NVS_CPLTAIL.phase ((p + 1) % (2 * n))
  s.nvStart 17

/-- The completion ring can be reached and has an entry free. -/
def State.nvRoom (s : State) : Bool :=
  !s.flag Reg.NVS_RINGCFG.en || !s.nvClosed && decide (ringDist s.nvN s.nvCplHead s.nvCplTail < s.nvN)

/-- NVS_COMMAND_COMPLETE (R247): what the command still does, and its record once its result stands. `key` tells which command it is, by the
count of those taken before it: two in progress may have the same ring index. -/
def execNvsCommandComplete (key : Nat) (report : NvsReport) (s : State) : Host.Outcome State Fault Refusal :=
  .next (
    let find (s : State) : Option NvCmd := s.nvs.cmds.find? fun c => c.key == key
    match find s with
    | none => s
    | some c =>
      if !c.started then s
      else
        let s := if c.result.isNone then s.nvWork c report else s
        match find s with
        | some c =>
          match c.result with
          | some (st, d) => if c.index.isNone then s.nvSettle else if s.nvRoom then s.nvRecord c st d else s
          | none => s
        | none => s)

/-! ### Keepers (R252, R253) -/

/-- The RECV in progress of a shard. -/
def State.receiving (s : State) (shard : Nat) : Option NvCmd :=
  s.nvs.cmds.find? fun c => c.op == 6 && c.shard == shard && c.started && c.result.isNone

/-- A chunk of a shard that is being received is whole: it is programmed and digested, and written to T1 where the command names a target. -/
def State.takeChunk (s : State) (c : NvCmd) (chunk : Nat) (bs : List Byte) : State :=
  let s := s.modCmd c.key fun c => { c with chunks := c.chunks ++ [chunk] }
  let s := (c.run.map fun g => s.modNvs fun v => v.programAll (g * 2 ^ 27 + 65536 * chunk) 16 bs).getD s
  if c.addr = 0 then s else s.t1Put (c.addr - Store.t1.base + 65536 * chunk) bs

/-- KEEPER_CHUNK_RECEIVE (R253, R424): a packet brings lines of a chunk, and with the last of its 1,024 the chunk is taken. -/
def execKeeperChunkReceive (hd : PacketHead) (shard chunk : Nat) (lines : ItemLines) (s : State) : Host.Outcome State Fault Refusal :=
  .next (s.engineTake hd (fun s => (s.receiving shard).isSome) fun s => match s.receiving shard with
    | none => s
    | some c =>
      if shardChunks c.length ≤ chunk ∨ c.chunks.contains chunk then s
      else
        let got := s.gather hd.source 0x17 [shard, chunk] 1024 lines.first lines.bytes
        match got.1 with
        | some bs => got.2.takeChunk c chunk bs
        | none => got.2)

/-- Repair requests for missing chunks, 12 to a packet (Table 17.17). -/
def State.sendRepairs (s : State) (keeper shard : Nat) : Nat → List Nat → State
  | 0, _ => s
  | n + 1, ks =>
    if ks.isEmpty then s
    else (s.sendEngine 6 keeper 0x19 (lineOf ([(0, 4, shard), (4, 2, min 12 ks.length)] ++
      (List.zip (List.range 12) ks).map fun x => (8 + 4 * x.1, 4, x.2)))).sendRepairs keeper shard n (ks.drop 12)

/-- A RECV ends with missing chunks (R253): its run goes back, and its blocks with it (R248). -/
def State.failRecv (s : State) (c : NvCmd) (status : Nat) : State :=
  ((c.run.map fun g => s.returnRun g (groupsOf c.length)).getD s).nvDecide c status (65536 * c.chunks.length)

/-- KEEPER_MARKER_RECEIVE (R253): an abort marker ends the RECV with 0x0B; an end marker asks for what is missing, up to 3 times. -/
def execKeeperMarkerReceive (hd : PacketHead) (shard kind sent : Nat) (s : State) : Host.Outcome State Fault Refusal :=
  .next (s.engineTake hd (fun s => (s.receiving shard).isSome) fun s => match s.receiving shard with
    | none => s
    | some c =>
      if kind ≠ 0 ∨ sent < shardChunks c.length then s.failRecv c 0x0B
      else if c.missing.isEmpty then s.modCmd c.key fun c => { c with rounds := c.rounds + 1 }
      else if 3 ≤ c.rounds then s.failRecv c 0x0B
      else (s.modCmd c.key fun c => { c with rounds := c.rounds + 1 }).sendRepairs hd.source shard c.missing.length c.missing)

/-- REPAIR_REQUEST_RECEIVE (R252): the keeper sends the chunks again, and an end marker. -/
def execRepairRequestReceive (hd : PacketHead) (shard : Nat) (chunks : List Nat) (s : State) : Host.Outcome State Fault Refusal :=
  let keep (s : State) : Option NvCmd :=
    s.nvs.cmds.find? fun c => c.op == 5 && c.shard == shard && c.rounds != 0 && c.result.isNone
  .next (s.engineTake hd (fun s => (keep s).isSome) fun s => match keep s, s.shard? shard with
    | some c, some h =>
      let n := shardChunks h.length
      let ks := chunks.filter fun k => decide (k < n)
      let s := ks.foldl (fun s k => (s.nvFetch (h.base + 65536 * k) 65536).2) s
      let s := s.sendChunks c h (ks.filter fun k => (s.nvs.firstLost (h.base + 65536 * k) 65536).isNone)
      s.sendEngine 6 hd.source 0x18 (markerLine shard 0 n)
    | _, _ => s)

/-- KEEP_REPAIR_PERIOD_END (R252): 50 ms after the last repair request the KEEP is done. -/
def execKeepRepairPeriodEnd (key : Nat) (s : State) : Host.Outcome State Fault Refusal :=
  .next (match s.nvs.cmds.find? fun c => c.key == key && c.op == 5 && c.rounds != 0 && c.result.isNone with
    | some c => s.nvDecide c 0 (((s.shard? c.shard).map (·.length)).getD 0)
    | none => s)

/-- RECV_IDLE_TIMEOUT (R253): no chunk for 100 ms. -/
def execRecvIdleTimeout (key : Nat) (s : State) : Host.Outcome State Fault Refusal :=
  .next (match s.nvs.cmds.find? fun c => c.key == key && c.op == 6 && c.started && c.result.isNone with
    | some c => s.failRecv c 0x0B
    | none => s)

/-! ### Patch installs -/

/-- PATCH_INSTALL_RECEIVE (R263): the slots named are loading while a member loads its own shards into them. If all went well they are
resident with their patches, and the map is switched; if not, they are free. It replies. No packet tells a member how the others fared
(DESIGN CHOICE, log 123). -/
def execPatchInstallReceive (hd : PacketHead) (number : Nat) (entries : List (Nat × Nat × Nat)) (report : NvsReport) (s : State) :
    Host.Outcome State Fault Refusal :=
  .next (s.engineTake hd (fun s => hd.source != s.fld Reg.FAB_EPID.ep && !s.apron && s.flag Reg.NVS_STATUS.ready) fun s =>
    let xs := (entries.filter fun e => decide (e.2.2 < s.fld Reg.NVS_PATCHCFG.slots)).map fun e => ((e.1, e.2.1), e.2.2)
    let t := s
    let s := xs.foldl (fun s x =>
      let s := if s.patchState x.2 = 2 then s.unmapPatch (s.fld Reg.NVS_PATCHSLOT.patch x.2) else s
      (s.setFld Reg.NVS_PATCHSLOT.state 1 x.2).setFld Reg.NVS_PATCHSLOT.patch x.1.1 x.2) (s.nvRead report)
    let got := (s.remeasure t).loadPatches xs
    let ok := got.1 && xs.length == entries.length
    let s := if ok then got.2.install xs else xs.foldl (fun s x => s.freeSlot x.2) got.2
    s.sendEngine 6 hd.source 0x14 (lineOf [(0, 1, if ok then 3 else 4), (4, 4, number)]))

/-- PLOAD_REPLY_TIMEOUT (R263): a reply is missing after 2 s. -/
def execPloadReplyTimeout (s : State) : Host.Outcome State Fault Refusal :=
  .next (match s.nvs.cmds.find? fun c => c.op == 7 && c.started && c.result.isNone && !c.slots.isEmpty with
    | some c => (s.failPload c 0x0D).nvSettle
    | none => s)

/-- PLOAD_EVICT_TIMEOUT (R265): no slot could be evicted for 100 ms. -/
def execPloadEvictTimeout (s : State) : Host.Outcome State Fault Refusal :=
  .next (match s.nvs.cmds.find? fun c => c.op == 7 && c.started && c.result.isNone && c.slots.isEmpty with
    | some c => (s.nvDecide c 0x0C 0).nvSettle
    | none => s)

/-! ### Write inhibit (R249, R250) -/

/-- A command that programs, in progress as inhibit asserts (R249): an interrupted shard never appears (R248). How far a WRITE had come is not
in the model: a free value. -/
def State.nvStop (s : State) (c : NvCmd) : State :=
  if c.result.isSome || !(c.op == 1 || c.op == 4 || c.op == 6 || c.op == 7) then s
  else
    let s := if c.op = 7 then c.slots.foldl (fun s i => s.freeSlot i) s else s
    if c.op = 6 then s.failRecv c 7
    else if c.op = 1 then
      let got := s.free
      ((c.run.map fun g => got.2.returnRun g (groupsOf c.length)).getD got.2).nvDecide c 7 got.1
    else s.nvDecide c 7 0

/-- Write inhibit asserts: commands that program end with 0x07, and the journal is closed with one record (R249, R250). Blocks whose program
was interrupted wait for their erase. -/
def State.nvInhibit (s : State) : State :=
  let s := (s.setFld Reg.NVS_STATUS.inhibit 1).nvEvt Reg.NVS_EVT.inhibit
  ((s.nvs.cmds.foldl State.nvStop s).modNvs fun v => v.journal .close).nvSettle

/-- Write inhibit clears: a new journal segment opens. -/
def State.nvUninhibit (s : State) : State :=
  ((s.setFld Reg.NVS_STATUS.inhibit 0).modNvs fun v => { v with segments := v.segments + 1 }).eraseOld

end Sys2Proof.Machine
end

