-- ==== Sys2Proof/Machine/Num.lean ====
section
/-! DEFINITION. Number formats and rounding (chapter 07): exact dyadic values, the one rounding of R154 to R156, the
encodings of R147 and R148, and the correctly rounded functions of R195 and R320. -/

namespace Sys2Proof.Machine

/-- A value of floating arithmetic: a NaN, a signed infinity, or the exact number (−1)^neg × m × 2^e (R147). -/
inductive Fp where
  | nan
  | inf (neg : Bool)
  | fin (neg : Bool) (m : Nat) (e : Int)
  deriving DecidableEq, Repr

/-- A floating format: significand bits, exponent of its subnormal spacing, largest finite magnitude `maxM × 2^maxE`,
exponent field width, and whether it encodes infinities (Table 7.1). -/
structure FpFormat where
  prec : Nat
  qmin : Int
  maxM : Nat
  maxE : Int
  expBits : Nat
  hasInf : Bool
  deriving DecidableEq, Repr

/-- FP32, IEEE 754 binary32 (Table 7.1). -/
def fp32 : FpFormat := ⟨24, -149, 16777215, 104, 8, true⟩
/-- BF16 (Table 7.1). -/
def bf16 : FpFormat := ⟨8, -133, 255, 120, 8, true⟩
/-- FP8: four exponent bits with bias 7, no infinity, NaN at 0x7F and 0xFF (R148). -/
def fp8 : FpFormat := ⟨4, -9, 14, 5, 4, false⟩

/-- What one conversion counts: saturations, underflows, invalids (R158). -/
structure NumEvents where
  sat : Nat
  ufl : Nat
  inv : Nat
  deriving DecidableEq, Repr

/-- Nothing counted. -/
def NumEvents.none : NumEvents := ⟨0, 0, 0⟩
/-- The events of two conversions together. -/
def NumEvents.add (x y : NumEvents) : NumEvents := ⟨x.sat + y.sat, x.ufl + y.ufl, x.inv + y.inv⟩

/-- The events of a list of conversions. -/
def NumEvents.total : List NumEvents → NumEvents
  | [] => .none
  | e :: r => e.add (NumEvents.total r)

/-- `2 ^ k` for a non-negative integer `k`, 1 otherwise. -/
def pow2 (k : Int) : Nat := 2 ^ k.toNat

/-- `m₁ × 2^e₁ ≤ m₂ × 2^e₂`. -/
def magLe (m₁ : Nat) (e₁ : Int) (m₂ : Nat) (e₂ : Int) : Bool :=
  decide (m₁ * pow2 (e₁ - e₂) ≤ m₂ * pow2 (e₂ - e₁))

/-- Round the magnitude `n × 2^e` to `prec` significant bits, no finer than `2^qmin`, to nearest with ties to even (R154).
`sticky` says that the true magnitude lies strictly between `n × 2^e` and `(n + 1) × 2^e`. -/
def roundMag (prec : Nat) (qmin : Int) (n : Nat) (e : Int) (sticky : Bool) : Nat × Int :=
  let q := max (e + (Nat.log2 n + 1 : Nat) - (prec : Nat)) qmin
  if q ≤ e then (n * pow2 (e - q), q)
  else
    let sh := pow2 (q - e)
    let fl := n / sh
    let rem := 2 * (n % sh)
    let up := decide (rem > sh) || (rem == sh && (sticky || fl % 2 == 1))
    (if up then fl + 1 else fl, q)

/-- The largest finite value of a format (R155). -/
def FpFormat.largest (f : FpFormat) (neg : Bool) : Fp := .fin neg f.maxM f.maxE

/-- Round a value to FP32 within an engine: beyond the finite range it becomes the largest finite value and counts a
saturation (R155); infinities and NaNs propagate. -/
def roundInternal (f : FpFormat) (x : Fp) (sticky : Bool := false) : Fp × NumEvents :=
  match x with
  | .nan => (.nan, .none)
  | .inf n => (.inf n, .none)
  | .fin neg m e =>
    if m = 0 && !sticky then (.fin neg 0 f.qmin, .none)
    else
      let got := roundMag f.prec f.qmin m e sticky
      let r := got.1
      let q := got.2
      if magLe r q f.maxM f.maxE then (.fin neg r q, .none) else (f.largest neg, ⟨1, 0, 0⟩)

/-- A narrowing write to FP8 or BF16: one rounding, then Table 7.5 (R156). -/
def narrow (f : FpFormat) (x : Fp) (sticky : Bool := false) : Fp × NumEvents :=
  match x with
  | .nan => (.nan, ⟨0, 0, 1⟩)
  | .inf n => if f.hasInf then (.inf n, .none) else (f.largest n, ⟨1, 0, 0⟩)
  | .fin neg m e =>
    if m = 0 && !sticky then (.fin neg 0 f.qmin, .none)
    else
      let got := roundMag f.prec f.qmin m e sticky
      let r := got.1
      let q := got.2
      if r = 0 then (.fin neg 0 f.qmin, ⟨0, 1, 0⟩)
      else if magLe r q f.maxM f.maxE then (.fin neg r q, .none) else (f.largest neg, ⟨1, 0, 0⟩)

/-- A narrowing write to int8 (Table 7.5): the stored byte. -/
def narrowInt8 (x : Fp) : Nat × NumEvents :=
  match x with
  | .nan => (0, ⟨0, 0, 1⟩)
  | .inf true => (0x80, ⟨1, 0, 0⟩)
  | .inf false => (0x7F, ⟨1, 0, 0⟩)
  | .fin neg m e =>
    if m = 0 then (0, .none)
    else
      let got := roundMag (Nat.log2 m + 1 + e.toNat) 0 m e false
      let r := got.1
      let q := got.2
      let v := r * pow2 q
      if v = 0 then (0, ⟨0, 1, 0⟩)
      else if neg then (if v ≤ 128 then (256 - v, .none) else (0x80, ⟨1, 0, 0⟩))
      else if v ≤ 127 then (v, .none) else (0x7F, ⟨1, 0, 0⟩)

/-- The code of a value already rounded to a format; a NaN takes the canonical code (R155, Table 7.1). -/
def encodeFp (f : FpFormat) (x : Fp) : Nat :=
  let top := 2 ^ f.expBits - 1
  let signBit (n : Bool) := if n then 2 ^ (f.expBits + f.prec - 1) else 0
  match x with
  | .nan => if f.hasInf then top * 2 ^ (f.prec - 1) + 2 ^ (f.prec - 2) else 0x7F
  | .inf n => signBit n + top * 2 ^ (f.prec - 1)
  | .fin neg m e =>
    let got := if m = 0 then (0, f.qmin) else roundMag f.prec f.qmin m e false
    let r := got.1
    let q := got.2
    let got := if r = 2 ^ f.prec then (r / 2, q + 1) else (r, q)
    let r := got.1
    let q := got.2
    signBit neg + (if r < 2 ^ (f.prec - 1) then r else (q - f.qmin + 1).toNat * 2 ^ (f.prec - 1) + (r - 2 ^ (f.prec - 1)))

/-- The value of a code of a format (R147, R148). -/
def decodeFp (f : FpFormat) (n : Nat) : Fp :=
  let man := n % 2 ^ (f.prec - 1)
  let ex := n / 2 ^ (f.prec - 1) % 2 ^ f.expBits
  let neg := bit n (f.expBits + f.prec - 1)
  let top := 2 ^ f.expBits - 1
  if f.hasInf && ex == top then (if man = 0 then .inf neg else .nan)
  else if !f.hasInf && ex == top && man == 2 ^ (f.prec - 1) - 1 then .nan
  else if ex = 0 then .fin neg man f.qmin
  else .fin neg (man + 2 ^ (f.prec - 1)) (f.qmin + (ex : Int) - 1)

/-- The exact value of an int8 code. -/
def decodeInt8 (n : Nat) : Fp :=
  let z := signed 8 n
  .fin (decide (z < 0)) z.natAbs 0

/-- Exact negation. -/
def Fp.neg : Fp → Fp
  | .nan => .nan
  | .inf n => .inf (!n)
  | .fin n m e => .fin (!n) m e

/-- True of a negative zero. -/
def Fp.isNegZero : Fp → Bool
  | .fin true 0 _ => true
  | _ => false

/-- Exact sum. Infinities of opposite sign give a NaN (R196); a sum that is exactly zero is −0 only when both terms are −0. -/
def Fp.add (x y : Fp) : Fp :=
  match x, y with
  | .nan, _ => .nan
  | _, .nan => .nan
  | .inf a, .inf b => if a = b then .inf a else .nan
  | .inf a, _ => .inf a
  | _, .inf b => .inf b
  | .fin n₁ m₁ e₁, .fin n₂ m₂ e₂ =>
    let e := min e₁ e₂
    let z₁ : Int := (m₁ * pow2 (e₁ - e) : Nat)
    let z₂ : Int := (m₂ * pow2 (e₂ - e) : Nat)
    let z := (if n₁ then -z₁ else z₁) + (if n₂ then -z₂ else z₂)
    if z = 0 then .fin (n₁ && n₂ && m₁ == 0 && m₂ == 0) 0 e else .fin (decide (z < 0)) z.natAbs e

/-- Exact product. Zero times an infinity is a NaN (R196). -/
def Fp.mul (x y : Fp) : Fp :=
  match x, y with
  | .nan, _ => .nan
  | _, .nan => .nan
  | .inf a, .inf b => .inf (a != b)
  | .inf a, .fin n m _ => if m = 0 then .nan else .inf (a != n)
  | .fin n m _, .inf b => if m = 0 then .nan else .inf (n != b)
  | .fin n₁ m₁ e₁, .fin n₂ m₂ e₂ => .fin (n₁ != n₂) (m₁ * m₂) (e₁ + e₂)

/-- A number line position: negative numbers below zero; −0 and +0 are equal here. `none` for a NaN. -/
def Fp.lt (x y : Fp) : Bool :=
  match x, y with
  | .nan, _ => false
  | _, .nan => false
  | .inf a, .inf b => a && !b
  | .inf a, .fin .. => a
  | .fin .., .inf b => !b
  | .fin n₁ m₁ e₁, .fin n₂ m₂ e₂ =>
    let e := min e₁ e₂
    let z₁ : Int := (m₁ * pow2 (e₁ - e) : Nat)
    let z₂ : Int := (m₂ * pow2 (e₂ - e) : Nat)
    decide ((if n₁ then -z₁ else z₁) < (if n₂ then -z₂ else z₂))

/-- True of a NaN. -/
def Fp.isNan : Fp → Bool
  | .nan => true
  | _ => false

/-- Equality of numbers: −0 equals +0, a NaN equals nothing (R197). -/
def Fp.eq (x y : Fp) : Bool := !x.isNan && !y.isNan && !Fp.lt x y && !Fp.lt y x

/-- MAX of R193: a NaN when either input is one; −0 is less than +0. -/
def Fp.max (x y : Fp) : Fp :=
  if x.isNan || y.isNan then .nan
  else if Fp.lt x y then y
  else if Fp.lt y x then x
  else if x.isNegZero then y else x

/-- MIN of R193. -/
def Fp.min (x y : Fp) : Fp :=
  if x.isNan || y.isNan then .nan
  else if Fp.lt x y then x
  else if Fp.lt y x then y
  else if y.isNegZero then y else x

/-- The sum of a list of exact values, left to right, exact. The empty sum is +0. -/
def Fp.sum : List Fp → Fp
  | [] => .fin false 0 0
  | [x] => x
  | x :: r => Fp.add x (Fp.sum r)

/-! ### Correctly rounded functions -/

/-- Bits of working precision of the correctly rounded functions. -/
def workBits : Nat := 320

/-- `1 ÷ (m × 2^e)` as a magnitude with its sticky bit; `m > 0`. -/
def recipMag (m : Nat) (e : Int) : Nat × Int × Bool :=
  let k := workBits + Nat.log2 m
  (2 ^ k / m, -e - (k : Nat), 2 ^ k % m != 0)

/-- Integer square root by `k` bits, highest first: the largest `r` built from those bits with `r * r ≤ n`. -/
def sqrtBits (n : Nat) : Nat → Nat → Nat
  | 0, r => r
  | k + 1, r => if (r + 2 ^ k) * (r + 2 ^ k) ≤ n then sqrtBits n k (r + 2 ^ k) else sqrtBits n k r

/-- Integer square root. -/
def natSqrt (n : Nat) : Nat := sqrtBits n (Nat.log2 n / 2 + 1) 0

/-- `1 ÷ √(m × 2^e)` as a magnitude with its sticky bit; `m > 0`. -/
def rsqrtMag (m : Nat) (e : Int) : Nat × Int × Bool :=
  let got := if e % 2 = 0 then (m, e) else (2 * m, e - 1)
  let m' := got.1
  let e' := got.2
  let k := workBits + Nat.log2 m'
  let y := 2 ^ (2 * k) / m'
  let r := natSqrt y
  (r, -(e' / 2) - (k : Nat), r * r * m' != 2 ^ (2 * k))

/-- Partial sums of the exponential series: `Σ x^i / i!` in fixed point with `p` fraction bits, from term `i` on. -/
def expSeries (p : Nat) (x : Int) : Nat → Nat → Int → Int → Int
  | 0, _, _, acc => acc
  | k + 1, i, term, acc =>
    let t := term * x / (2 ^ p : Nat) / (i : Nat)
    expSeries p x k (i + 1) t (acc + t)

/-- Square a fixed-point number `k` times. -/
def squareTimes (p : Nat) : Nat → Int → Int
  | 0, y => y
  | k + 1, y => squareTimes p k (y * y / (2 ^ p : Nat))

/-- `exp` of `(−1)^neg × m × 2^e` for magnitudes below 512, in fixed point with `2 * workBits` fraction bits: the series at
`x ÷ 2^10`, squared ten times. -/
def expFix (neg : Bool) (m : Nat) (e : Int) : Nat :=
  let p := 2 * workBits
  let s := e + (p : Nat) - 10
  let x : Int := (if s ≥ 0 then m * pow2 s else m / pow2 (-s) : Nat)
  let x := if neg then -x else x
  (squareTimes p 10 (expSeries p x 100 1 (2 ^ p : Nat) (2 ^ p : Nat))).toNat

/-- The exact-input exponential, ready for one rounding: a magnitude and its sticky bit. Beyond magnitude 512 every result
saturates or underflows in every format. -/
def expValue (x : Fp) : Fp × Bool :=
  match x with
  | .nan => (.nan, false)
  | .inf true => (.fin false 0 0, false)
  | .inf false => (.inf false, false)
  | .fin neg m e =>
    if m = 0 then (.fin false 1 0, false)
    else if magLe 512 0 m e then (if neg then (.fin false 1 (-4000), true) else (.fin false 1 4000, false))
    else (.fin false (expFix neg m e) (-(2 * workBits : Nat)), true)

/-- Partial sums of `2 × Σ z^(2i+1) / (2i+1)`, the series of `ln((1+z)/(1−z))`, in fixed point. -/
def atanhSeries (p : Nat) (z2 : Int) : Nat → Nat → Int → Int → Int
  | 0, _, _, acc => 2 * acc
  | k + 1, i, term, acc =>
    let t := term * z2 / (2 ^ p : Nat)
    atanhSeries p z2 k (i + 2) t (acc + t / (i : Nat))

/-- `ln(n ÷ d)` for `n ÷ d` between 1/2 and 2, in fixed point with `p` fraction bits. -/
def lnRatio (p : Nat) (n d : Nat) : Int :=
  let z : Int := (((n : Int) - (d : Int)) * (2 ^ p : Nat)) / ((n + d : Nat) : Int)
  atanhSeries p (z * z / (2 ^ p : Nat)) 220 3 z z

/-- `ln(m × 2^e)` for `m > 0`, in fixed point with `p` fraction bits. -/
def lnFix (p : Nat) (m : Nat) (e : Int) : Int :=
  let k := Nat.log2 m
  lnRatio p m (2 ^ k) + (e + (k : Nat)) * lnRatio p 2 1

/-! ### Elements of vectors -/

/-- Events of one element written: each kind counts at most once (R158). -/
def NumEvents.once (e : NumEvents) : NumEvents := ⟨min 1 e.sat, min 1 e.ufl, min 1 e.inv⟩

/-- Round a value to the format of a write: FP32 within R155, narrower formats by Table 7.5. -/
def roundTo (f : FpFormat) (x : Fp) (sticky : Bool := false) : Fp × NumEvents :=
  if f = fp32 then roundInternal fp32 x sticky else narrow f x sticky

/-- Bytes of an element of a format. -/
def FpFormat.bytes (f : FpFormat) : Nat := (f.expBits + f.prec) / 8

/-- The elements of a packed vector. -/
def fpElems (f : FpFormat) : Nat → List Byte → List Fp
  | 0, _ => []
  | n + 1, bs => decodeFp f (ofBytes (bs.take f.bytes)) :: fpElems f n (bs.drop f.bytes)

/-- Combine neighbours 2i and 2i + 1 with one FP32 rounding each. -/
def treeLevel (op : Fp → Fp → Fp) : List (Fp × NumEvents) → List (Fp × NumEvents)
  | x :: y :: r =>
    let got := roundInternal fp32 (op x.1 y.1)
    let v := got.1
    let e := got.2
    (v, (x.2.add y.2).add e) :: treeLevel op r
  | l => l

/-- A balanced binary tree of `n` levels. -/
def tree (op : Fp → Fp → Fp) : Nat → List (Fp × NumEvents) → Fp × NumEvents
  | 0, l => l.headD (.fin false 0 0, .none)
  | n + 1, l => tree op n (treeLevel op l)

end Sys2Proof.Machine
end

