-- ==== Sys2Proof/Machine/Sample.lean ====
section
/-! DEFINITION. Sampling (R317 to R321): noise, partials of a row, and the choice of a token. Values are FP32 codes. -/

namespace Sys2Proof.Machine

/-- Round an exact value, with its sticky bit, to an FP32 code. -/
def f32 (x : Fp) (sticky : Bool := false) : Nat := encodeFp fp32 (roundInternal fp32 x sticky).1

/-- The value of an FP32 code. -/
def v32 (n : Nat) : Fp := decodeFp fp32 n

/-- `a + b`, rounded. -/
def add32 (a b : Nat) : Nat := f32 (Fp.add (v32 a) (v32 b))
/-- `a − b`, rounded. -/
def sub32 (a b : Nat) : Nat := f32 (Fp.add (v32 a) (v32 b).neg)
/-- `a × b`, rounded. -/
def mul32 (a b : Nat) : Nat := f32 (Fp.mul (v32 a) (v32 b))
/-- `exp a`, rounded. -/
def exp32 (a : Nat) : Nat :=
  let got := expValue (v32 a)
  let v := got.1
  let sticky := got.2
  f32 v sticky

/-- `a ÷ b` for a finite positive divisor, rounded. -/
def div32 (a b : Nat) : Nat :=
  match v32 a, v32 b with
  | .fin neg m e, .fin _ n g =>
    if n = 0 then f32 .nan
    else
      let q := m * 2 ^ 64 / n
      f32 (.fin neg q (e - g - 64)) (m * 2 ^ 64 % n != 0)
  | x, _ => f32 x

/-- The splitmix64 finaliser (R320). -/
def splitmix (x : Nat) : Nat :=
  let x := x ^^^ (x / 2 ^ 30)
  let x := x * 0xBF58476D1CE4E5B9 % 2 ^ 64
  let x := x ^^^ (x / 2 ^ 27)
  let x := x * 0x94D049BB133111EB % 2 ^ 64
  x ^^^ (x / 2 ^ 31)

/-- A positive fixed-point number with `p` fraction bits, correctly rounded to FP32 with its sign. -/
def fix32 (neg : Bool) (p n : Nat) : Nat := f32 (.fin neg n (-(p : Int))) true

/-- The natural logarithm of `m × 2^e` as an FP32 number. -/
def ln32 (m : Nat) (e : Int) : Nat :=
  let y := lnFix (2 * workBits) m e
  fix32 (decide (y < 0)) (2 * workBits) y.natAbs

/-- Minus the logarithm of a positive number; 0 gives +∞. -/
def minusLn (x : Fp) : Nat :=
  match x with
  | .fin _ m e => if m = 0 then f32 (.inf false) else f32 (v32 (ln32 m e)).neg
  | y => f32 y

/-- The noise of index `i` at position `p` (R320): −ln(−ln U), each logarithm correctly rounded to FP32. -/
def noise (seed p i : Nat) : Nat :=
  let x := splitmix (seed ^^^ (p * 0x9E3779B97F4A7C15 % 2 ^ 64) ^^^ (i * 0xC2B2AE3D27D4EB4F % 2 ^ 64))
  minusLn (v32 (ln32 (2 * bits x 63 40 + 1) (-25))).neg

/-- `a` lies before `b` in the order of logits: larger first, the lower index of equals. -/
def logitBefore (a b : Nat × Nat) : Bool :=
  Fp.lt (v32 b.2) (v32 a.2) || (!Fp.lt (v32 a.2) (v32 b.2) && decide (a.1 ≤ b.1))

/-- The sampler settings of a row. -/
structure Sampler where
  temp : Nat
  topP : Nat
  topK : Nat
  seed : Nat
  pos : Nat
  deriving DecidableEq, Repr

/-- T = 0. -/
def Sampler.greedy (q : Sampler) : Bool := Fp.eq (v32 q.temp) (.fin false 0 0)

/-- u of a logit (R319). -/
def Sampler.u (q : Sampler) (z : Nat) : Nat := if q.greedy then z else div32 z q.temp

/-- v of a logit: u plus the noise of its index. -/
def Sampler.v (q : Sampler) (i z : Nat) : Nat := if q.greedy then z else add32 (q.u z) (noise q.seed q.pos i)

/-- The first `n` pairs in the order of logits. -/
def bestPairs (n : Nat) (l : List (Nat × Nat)) : List (Nat × Nat) := (sortBy logitBefore l).take n

/-- The larger of two (index, value) pairs, the lower index of equals. -/
def bestPair (a b : Nat × Nat) : Nat × Nat := if logitBefore a b then a else b

/-- Numbers in ascending index: the logits of a member's slices of one row. -/
def sliceLogits (slices : List (Nat × List Nat)) : List (Nat × Nat) :=
  (sortBy (fun a b => decide (a.1 ≤ b.1)) slices).flatMap fun x => (List.range x.2.length).zip x.2 |>.map fun y => (x.1 + y.1, y.2)

/-- The lowest vocabulary index of a partial. -/
def firstIndex (p : Partial) : Nat := ((p.spans.map (·.1)).min?).getD 0

/-- The width count of a partial: the widths of its slices. -/
def widthCount (p : Partial) : Nat := (p.spans.map (·.2)).sum

/-- Two slices of a row overlap (R318). -/
def slicesOverlap (parts : List Partial) : Bool :=
  let spans := sortBy (fun (a b : Nat × Nat) => decide (a.1 ≤ b.1)) ((parts.flatMap (·.spans)).filter fun x => x.2 != 0)
  (List.zip spans (spans.drop 1)).any fun x => decide (x.2.1 < x.1.1 + x.1.2)

/-- A member's partial of a row (R321). -/
def Sampler.partialOf (q : Sampler) (slices : List (Nat × List Nat)) : Partial :=
  let zs := sliceLogits slices
  let nan := zs.any fun x => (v32 x.2).isNan
  let us := zs.map fun x => q.u x.2
  let m := us.foldl (fun a b => if Fp.lt (v32 a) (v32 b) then b else a) (us.headD 0)
  let sum := us.foldl (fun a u => add32 a (exp32 (sub32 u m))) 0
  let vs := zs.map fun x => (x.1, q.v x.1 x.2)
  let best := vs.foldl bestPair (vs.headD (0, 0))
  { spans := slices.map fun x => (x.1, x.2.length), nan := nan, maxU := m, sumS := sum, bestIx := best.1, bestV := best.2,
    top := bestPairs 64 zs }

/-- The prefix of a sorted list whose probabilities reach top_p (R319), or all of it. -/
def nucleus (q : Sampler) (m s : Nat) : Nat → List (Nat × Nat) → List (Nat × Nat)
  | _, [] => []
  | acc, x :: r =>
    let acc := add32 acc (div32 (exp32 (sub32 (q.u x.2) m)) s)
    if Fp.lt (v32 acc) (v32 q.topP) then x :: nucleus q m s acc r else [x]

/-- The token of a complete row from its members' partials (R319, R321): none where a logit is a NaN. -/
def Sampler.token (q : Sampler) (parts : List Partial) : Option Nat :=
  let parts := sortBy (fun a b => decide (firstIndex a ≤ firstIndex b)) parts
  if parts.any (·.nan) then none
  else
    let top := bestPairs 64 (parts.flatMap (·.top))
    if q.greedy then (top.head?).map (·.1)
    else
      let m := (parts.map (·.maxU)).foldl (fun a b => if Fp.lt (v32 a) (v32 b) then b else a) (((parts.map (·.maxU)).headD 0))
      let s := parts.foldl (fun a p => add32 a (mul32 p.sumS (exp32 (sub32 p.maxU m)))) 0
      let whole := Fp.eq (v32 q.topP) (.fin false 1 0)
      if q.topK = 0 ∧ whole then
        (parts.map fun p => (p.bestIx, p.bestV)).foldl (fun (b : Option (Nat × Nat)) x => some (match b with
          | some y => bestPair y x
          | none => x)) none |>.map (·.1)
      else
        let cand := if q.topK = 0 then top else top.take q.topK
        let cand := if whole then cand else nucleus q m s 0 cand
        (cand.map fun x => (x.1, q.v x.1 x.2)).foldl (fun (b : Option (Nat × Nat)) x => some (match b with
          | some y => bestPair y x
          | none => x)) none |>.map (·.1)

end Sys2Proof.Machine
end

