-- ==== Sys2Proof/Machine/Serve.lean ====
section
/-! DEFINITION. Serving at the former (chapter 13): admission, formation, the batch end, the cuff, streams and the end of a sequence. -/

namespace Sys2Proof.Machine

/-- Serving of a ledger on this module. -/
def State.srv (s : State) (i : Nat) : Serving := Table.get Serving.empty s.serving i
/-- Store the serving of a ledger. -/
def State.setSrv (s : State) (i : Nat) (v : Serving) : State := { s with serving := Table.set Serving.empty s.serving i v }
/-- Change the serving of a ledger. -/
def State.modSrv (s : State) (i : Nat) (f : Serving → Serving) : State := s.setSrv i (f (s.srv i))

/-- The admitted sequence of a handle. -/
def State.seq? (s : State) (h : Nat) : Option SeqState := (s.seqs.find? fun x => x.1 == h).map (·.2)
/-- Store an admitted sequence. -/
def State.setSeq (s : State) (h : Nat) (q : SeqState) : State := { s with seqs := Table.put s.seqs h q }
/-- Change an admitted sequence. -/
def State.modSeq (s : State) (h : Nat) (f : SeqState → SeqState) : State :=
  match s.seq? h with
  | some q => s.setSeq h (f q)
  | none => s

/-- A 64-bit count that wraps goes up. -/
def State.wrapCount (s : State) (f : Field) (n : Nat) (i : Nat := 0) : State := s.setFld f (s.fld f i + n) i

/-! ### The end of a sequence (R326 to R329) -/

/-- The accounting record of a sequence (Table 13.13). -/
def State.account (s : State) (h : Nat) (q : SeqState) (status : Nat) : State :=
  s.areaPut (s.fld Reg.SEQ_SERVE.acct_base q.ledger * 4096 + 128 * h)
    ([q.streamed, q.prefill, q.proposed, q.accepted, q.batches, q.deferrals, q.admitGsc, q.firstGsc, s.gscSe].flatMap (toBytes 8) ++
      toBytes 1 status ++ List.replicate 55 0)

/-- Write one streamed token: to the history first, then its record (R327). The accounting record comes before a final record (R328);
`accepted` are the proposals accepted with the tokens up to this one. -/
def State.streamToken (s : State) (h : Nat) (q : SeqState) (token pos flags status accepted : Nat) : State :=
  let s := s.areaPut (s.kvField h 0x20 8 + 4 * pos) (toBytes 4 token)
  let q' := { q with streamed := q.streamed + 1, firstGsc := if q.firstGsc = 0 then s.gscSe else q.firstGsc,
                     recent := (token :: q.recent).take 16 }
  let s := if status = 0 then s else s.account h { q' with accepted := q'.accepted + accepted } status
  let s := s.streamRecord q.stream h flags status token pos
  (s.wrapCount Reg.SEQ_TOKCNT.count 1).modSeq h fun _ => q'

/-- Complete the commands of a sequence that end with it: a CANCEL that waited, and the ADMIT of a hold sequence. -/
def State.settleSeq (s : State) (h : Nat) (q : SeqState) (cancelStatus : Nat) : State :=
  let s := match q.cancel with
    | some t => s.complete t cancelStatus h
    | none => s
  match q.admission with
  | some t => s.complete t 8 h
  | none => s

/-- A sequence ends (R328): the accounting record and then a final record, unless a token of its last batch was final and has brought both,
and RELEASE. A hold sequence has neither record. -/
def State.endSeq (s : State) (h status cause batch : Nat) (finalDone : Bool) (tag : Nat := 0) : State :=
  match s.seq? h with
  | none => s
  | some q =>
    let s :=
      if q.hold || finalDone then s.releaseStream q.stream 1
      else
        let q := if q.firstGsc = 0 then { q with firstGsc := s.gscSe } else q
        (s.account h q status).streamRecord q.stream h 2 status 0xFFFFFFFF (s.kvLength h)
    let s := (s.decision.release q.ledger h).commit q.ledger cause batch tag
    let s := { s with seqs := Table.del s.seqs h, ended := Table.put s.ended h true }
    let s := if status = 8 then s.srvEvt Reg.SEQ_SRVEVT.nan_end else s
    s.settleSeq h q (if status = 5 then 0 else 8)

/-! ### Formation (R284, R310 to R312, R323) -/

/-- The key of the order in which the former considers a sequence: priority, then last_use, then handle (R311). -/
def State.formBefore (s : State) (a b : Nat) : Bool :=
  let key (h : Nat) : Nat := ((3 - bits (s.kvFlags h) 2 1) * 2 ^ 64 + s.kvField h 0x10 8) * 65536 + h
  decide (key a ≤ key b)

/-- The sequences of a ledger in the two passes of R311. -/
def State.candidates (s : State) (lg : Nat) : List Nat :=
  let mine := (s.seqs.filter fun x => x.2.ledger == lg && s.kvState x.1 != 0).map (·.1)
  let full (h : Nat) : Bool := s.kvValid h == s.kvLength h
  let hold (h : Nat) : Bool := ((s.seq? h).map (·.hold)).getD false
  sortBy s.formBefore (mine.filter fun h => full h && !hold h) ++ sortBy s.formBefore (mine.filter fun h => !full h)

/-- Proposals held for indices 0, 1, 2 and on without a gap. -/
def proposalRun (ps : List (Nat × Nat)) : Nat → Nat → List Nat
  | 0, _ => []
  | n + 1, k => match ps.find? fun x => x.1 == k with
    | some x => x.2 :: proposalRun ps n (k + 1)
    | none => []

/-- The proposals a row uses (R323). -/
def State.useProposals (s : State) (h : Nat) (q : SeqState) : List Nat :=
  if q.specEn then (proposalRun q.proposals 8 0).take (min q.draftMax (q.maxLen - s.kvLength h - 2)) else []

/-- What formation has gathered so far: the rows, their tokens and samples, the patch slots in use, and what restores copy. -/
structure Forming where
  s : State
  rows : List BatchRow
  tokens : Nat
  samples : Nat
  slots : List Nat
  cd : CopyData
  deriving DecidableEq, Repr

/-- Give the entries of an append range their sets (R284, R289): a shared first entry is copied, an absent one gets a zeroed set. -/
def Decision.appendRange (d : Decision) (lg h valid last : Nat) : Decision :=
  let lo := valid / 64
  (span lo (last / 64 + 1)).foldl (fun (d : Decision) i =>
    let e := d.s.kvEntry h i
    if entLoc e = 1 then
      if i = lo ∧ 1 < d.s.kvCount (entIx e) then
        let k := d.freeSet lg
        let d := d.op 0x02 0 (entIx e) k (valid - 64 * i)
        let d := ((d.entry lg h i (mkEnt 1 k)).op 0x06 0 k 1 0).unref (entIx e)
        { d with s := d.s.count Reg.SEQ_KVCOWCNT.count 1 }
      else d
    else
      let k := d.freeSet lg
      ((d.op 0x01 0 k 0 0).entry lg h i (mkEnt 1 k)).op 0x06 0 k 1 0) d

/-- New sets and table blocks that an append range needs (R284). -/
def State.appendNeed (s : State) (h valid last : Nat) : Nat × Nat :=
  let range := span (valid / 64) (last / 64 + 1)
  let e := s.kvEntry h (valid / 64)
  let cow := if entLoc e = 1 ∧ 1 < s.kvCount (entIx e) then 1 else 0
  ((range.filter fun i => entLoc (s.kvEntry h i) != 1).length + cow,
    ((List.range 16).filter fun k => s.kvTblk h k == noBlock && range.any fun i => i / 1024 == k).length)

/-- A sequence is deferred (R298); one deferred defer_max times in a row ends with status 0x06. -/
def State.deferSeq (s : State) (lg h batch : Nat) : State :=
  let n := s.kvField h 3 1 + 1
  let s := (s.decision.field h 3 1 n).commit lg 0 batch
  let s := (s.count Reg.SEQ_KVDEFERCNT.count 1).raise Reg.SEQ_KVEVT.defer Reg.SEQ_KVEVTMASK.mask
  let s := s.modSeq h fun q => { q with deferrals := q.deferrals + 1 }
  if n < s.fld Reg.SEQ_KVCFG.defer_max then s
  else
    ((s.endSeq h 6 0 batch false).count Reg.SEQ_KVEXHCNT.count 1).raise Reg.SEQ_KVEVT.exhausted Reg.SEQ_KVEVTMASK.mask

/-- Take a sequence into the batch: its sets are obtained, its records written, and it is pinned (R284). -/
def Forming.take (f : Forming) (lg h batch : Nat) (row : BatchRow) (last : Nat) : Forming :=
  let s := f.s
  let valid := s.kvValid h
  let got := s.appendNeed h valid last
  let n := got.1
  let m := got.2
  match s.decision.obtain lg h n m (decide (0 < valid)) with
  | none => { f with s := s.deferSeq lg h batch }
  | some d =>
    let d := (d.appendRange lg h valid last).showSets h
    let s := (((d.field h 0x10 8 s.gscSe).field h 3 1 0).flags h (s.kvFlags h + 8)).commit lg 0 batch
    let fresh := row.patchSlot != 0xFF && !f.slots.contains row.patchSlot
    let s := if fresh then s.usePatch row.patchSlot else s
    let s := s.modSeq h fun q => { q with
      batches := q.batches + 1, proposals := [], proposed := q.proposed + (row.n - 1)
      prefill := q.prefill + (if row.kind = 2 then row.count else 0) }
    let s := if row.kind = 2 then s else (s.reserveStream ((s.seq? h).map (·.stream) |>.getD 0) row.n).wrapCount Reg.SEQ_PROPCNT.count (row.n - 1)
    { f with s := s, rows := f.rows ++ [row], tokens := f.tokens + row.count, samples := f.samples + row.n,
             slots := if fresh then f.slots ++ [row.patchSlot] else f.slots }

/-- The row of a sequence, without its tokens. -/
def State.baseRow (s : State) (h slot : Nat) (q : SeqState) : BatchRow :=
  ⟨h, 0, 0, 0, 0, slot, 0, s.kvField h 0x20 8, q.seed, q.temp, q.topP, q.topK, []⟩

/-- A decode or verification row for a sequence whose KV is complete (R311, R312). -/
def Forming.decodeRow (f : Forming) (lg batch h slot : Nat) (q : SeqState) : Forming :=
  let ps := f.s.useProposals h q
  let a := 1 + ps.length
  let len := f.s.kvLength h
  if q.hold then f
  else if f.s.streamFree q.stream < a then
    { f with s := ((f.s.count Reg.SEQ_STRMWAITCNT.count 1).srvEvt Reg.SEQ_SRVEVT.strm_wait).modSeq h fun q =>
        { q with deferrals := q.deferrals + 1 } }
  else if f.s.fld Reg.SEQ_SERVE.max_tokens lg - f.tokens < a then f
  else
    f.take lg h batch { f.s.baseRow h slot q with kind := if ps.isEmpty then 0 else 1, n := a, pos := len, count := a,
                                                      sampleFirst := f.samples, tokens := q.pending :: ps } (len + a - 1)

/-- A prefill row (R312): up to `chunk` tokens, cut at a 64-token boundary where the batch has no more room. -/
def Forming.prefillRow (f : Forming) (lg batch h slot : Nat) (q : SeqState) : Forming :=
  let valid := f.s.kvValid h
  let room := f.s.fld Reg.SEQ_SERVE.max_tokens lg - f.tokens
  let e := min (f.s.kvLength h) (64 * (valid / 64) + f.s.fld Reg.SEQ_SERVE.chunk lg)
  let e := if e - valid ≤ room then e else 64 * ((valid + room) / 64)
  if e ≤ valid then f
  else f.take lg h batch { f.s.baseRow h slot q with kind := 2, pos := valid, count := e - valid, sampleFirst := f.samples } (e - 1)

/-- The slot of a sequence's patch; 0xFF without one, none where it is not resident (R312). -/
def State.patchOf (s : State) (q : SeqState) : Option Nat :=
  match q.patch with
  | none => some 0xFF
  | some p => if s.flag Reg.NVS_PATCHMAP.resident p then some (s.fld Reg.NVS_PATCHMAP.slot p) else none

/-- KV written under another generation is dropped, unless the install keeps it (R284). -/
def State.freshKv (s : State) (lg h batch gen : Nat) (keep : Bool) : State :=
  if s.kvField h 0xC 4 != gen && !keep then ((s.decision.dropFrom lg h 0).field h 0xC 4 gen).commit lg 0 batch else s

/-- A parked sequence is restored. -/
def Forming.restore (f : Forming) (lg h : Nat) : Forming :=
  match f.s.restore lg h 0 f.cd none with
  | some (cd, s) => { f with s := s, cd := cd }
  | none => f

/-- Consider one sequence (R284, R311, R312). -/
def Forming.consider (f : Forming) (lg batch gen : Nat) (keep : Bool) (h : Nat) : Forming :=
  match f.s.seq? h with
  | none => f
  | some q =>
    if f.s.fld Reg.SEQ_SERVE.max_rows lg ≤ f.rows.length ∨ f.s.kvPinned h ∨ f.s.kvState h = 3 then f
    else if q.maxTime ≠ 0 ∧ q.admitGsc + q.maxTime < f.s.gscSe ∧ !q.hold then { f with s := f.s.endSeq h 4 0 batch false }
    else if f.s.kvState h = 2 then f.restore lg h
    else match f.s.patchOf q with
      | none => { f with s := f.s.autoLoad (q.patch.getD 0) }
      | some slot =>
        let f := { f with s := f.s.freshKv lg h batch gen keep }
        if f.s.kvValid h = f.s.kvLength h then f.decodeRow lg batch h slot q else f.prefillRow lg batch h slot q

/-- The former forms a batch (R310 to R312): the new state, and the batch where a row could be formed. -/
def State.formBatch (s : State) (lg : Nat) (cd : CopyData) : State × Option Batch :=
  let number := s.fld Reg.SEQ_SERVE.next_batch lg
  let slot := s.fld Reg.NVS_GENACT.active
  let gen := s.fld Reg.NVS_GEN.gen slot
  let f0 : Forming := ⟨s, [], 0, 0, [], cd⟩
  let f := (s.candidates lg).foldl (fun f h => f.consider lg number gen (s.flag Reg.NVS_GEN.kv_keep slot) h) f0
  if f.rows.isEmpty then (f.s, none)
  else
    let b : Batch := ⟨lg, number, f.samples, f.tokens, gen, slot, f.s.gscSe, f.rows⟩
    let s := f.s.wrapCount Reg.NVS_GEN.refs 1 slot
    let s := s.setFld Reg.SEQ_SERVE.inflight (s.fld Reg.SEQ_SERVE.inflight lg + 1) lg
    let s := s.modSrv lg fun v => { v with flights := v.flights ++ [(⟨b, [], [], false⟩ : Flight)], lastFormed := some s.gscSe }
    (s, some b)

/-! ### The batch end (R286, R316, R324 to R326) -/

/-- Tokens that end a sequence (R326), as seen after the token has joined `recent`, newest first: the status, or 0. -/
def SeqState.cuff (q : SeqState) (token pos : Nat) (recent : List Nat) : Nat :=
  let stopped (j : List Nat) : Bool :=
    !j.isEmpty && decide (q.prompt + j.length ≤ pos + 1) && (recent.take j.length).reverse == j
  if q.stopTok.contains token then 1
  else if q.stopSeq.any stopped then 2
  else if pos + 1 = q.maxLen then 3
  else 0

/-- Stream the tokens of a row in position order until one is final (R326, R327): `late` says that the deadline has passed. The answer is
the state, the tokens streamed, and the final status or 0. -/
def State.streamRow (s : State) (h : Nat) (accepted : Nat) (late : Bool) : Nat → Nat → List Nat → State × Nat × Nat
  | _, k, [] => (s, k, 0)
  | pos, k, t :: r =>
    match s.seq? h with
    | none => (s, k, 0)
    | some q =>
      let st := q.cuff t pos (t :: q.recent)
      let st := if st = 0 && r.isEmpty && late then 4 else st
      let drafted := if k < accepted then 4 else 0
      let s := s.streamToken h q t pos (drafted + if st = 0 then 0 else 2) st (min accepted (k + 1))
      if st = 0 then s.streamRow h accepted late (pos + 1) (k + 1) r else (s, k + 1, st)

/-- Let go of what no accepted position holds, zero what was rejected, and clear the pin (R286, R325). -/
def State.closeRange (s : State) (lg h batch first count newValid newLen : Nat) : State :=
  let last := first + count
  let d := (span (ceilDiv newValid 64) (ceilDiv last 64)).foldl (fun (d : Decision) i =>
    if first / 64 ≤ i then d.replace lg h i 0 else d) s.decision
  let d := (d.field h 8 4 newValid).field h 4 4 newLen
  let d := (span (newValid / 64) (ceilDiv last 64)).foldl (fun (d : Decision) i =>
    let e := d.s.kvEntry h i
    let lo := max newValid (64 * i)
    let hi := min last (64 * i + 64)
    if entLoc e = 1 ∧ lo < hi then d.op 0x03 0 (entIx e) (lo - 64 * i) (hi - lo) else d) d
  let d := ((d.freeBlocks h).showSets h).flags h (s.kvFlags h - 8 * (bits (s.kvFlags h) 3 3) - 16 * bits (s.kvFlags h) 4 4)
  d.commit lg 1 batch

/-- Complete a KV command with a status; its detail is free. -/
def State.finishKv (s : State) (t : Option Taken) (st : Nat) : State := s.free.2.completeKv t st s.free.1

/-- A PARK that is due. -/
def State.runPark (s : State) (lg : Nat) (c : HeldCmd) (cd : CopyData) : State :=
  if s.kvState c.handle ≠ 1 then s.finishKv c.taken 1
  else match s.park lg c.handle c.arg ((c.taken.map (·.tag)).getD 0) cd with
    | some (whole, s) => s.finishKv c.taken (if whole then 0 else 5)
    | none => s.finishKv c.taken 4

/-- The state from which a RELEASE that is due lets the sequence go: a serving sequence has left the former. -/
def State.leaveSeq (s : State) (h : Nat) : State :=
  match s.seq? h with
  | some q => ({ (s.releaseStream q.stream 1) with seqs := Table.del s.seqs h, ended := Table.put s.ended h true }).settleSeq h q 0
  | none => s

/-- Execute what was held, or a KV command, on an unpinned sequence (Table 12.10): op 0x100 is a failed copy (R294). A second CANCEL that waited finds the sequence ended (R329, R330). -/
def State.runHeld (s : State) (lg : Nat) (c : HeldCmd) (cd : CopyData) : State :=
  let tag := (c.taken.map (·.tag)).getD 0
  if c.op = 3 then (match c.taken with
    | some t => s.complete t 8 c.handle
    | none => s)
  else if c.op = 0x100 then s.dropFailed lg c.handle c.arg
  else if s.kvState c.handle = 0 then s.finishKv c.taken 2
  else match c.op with
    | 0x41 => s.runPark lg c cd
    | 0x43 => ((s.decision.dropFrom lg c.handle (c.arg / 64)).commit lg 2 0xFFFFFFFF tag).finishKv c.taken 0
    | 0x44 => ((((s.leaveSeq c.handle).decision).release lg c.handle).commit lg 2 0xFFFFFFFF tag).finishKv c.taken 0
    | _ => s.finishKv c.taken 1

/-- What was held for a sequence runs in arrival order once it is unpinned (R285). -/
def State.runHeldOf (s : State) (lg h : Nat) (cd : CopyData) : State :=
  let mine := s.heldCmds.filter fun c => c.handle == h
  let s := { s with heldCmds := s.heldCmds.filter fun c => c.handle != h }
  mine.foldl (fun s c => s.runHeld lg c cd) s

/-- Give back stream entries that a row reserved and will not use. -/
def State.spareRow (s : State) (h n : Nat) : State := s.releaseStream (((s.seq? h).map (·.stream)).getD 0) n

/-- A row ends its sequence with a status. -/
def State.stopRow (s : State) (lg batch : Nat) (cd : CopyData) (row : BatchRow) (status : Nat) (finalDone : Bool) (valid len : Nat) : State :=
  ((s.closeRange lg row.handle batch row.pos row.count valid len).endSeq row.handle status 1 batch finalDone).runHeldOf lg row.handle cd

/-- A prefill row at the batch end; with the last one of a hold sequence its ADMIT completes. -/
def State.prefillRow (s : State) (lg batch : Nat) (cd : CopyData) (row : BatchRow) (q : SeqState) : State :=
  let h := row.handle
  let v := row.pos + row.count
  let len := s.kvLength h
  let s := s.closeRange lg h batch row.pos row.count v len
  let s := match q.admission with
    | some t => if v = len then (s.modSeq h fun q => { q with admission := none }).complete t 0 h else s
    | none => s
  s.runHeldOf lg h cd

/-- The emitted tokens of a row are streamed, the draft accounts settled, and the sequence goes on or ends. -/
def State.emitRow (s : State) (lg batch : Nat) (cd : CopyData) (row : BatchRow) (q : SeqState) (r : ResultRow) : State :=
  let h := row.handle
  let len := s.kvLength h
  let late := decide (q.maxTime ≠ 0) && decide (q.admitGsc + q.maxTime < s.gscSe)
  let got := s.streamRow h (r.emitted - 1) late (len + 1) 0 (r.tokens.take r.emitted)
  let k := got.2.1
  let st := got.2.2
  let acc := min (r.emitted - 1) k
  let s := (got.1.spareRow h (row.n - k)).wrapCount Reg.SEQ_ACCCNT.count acc
  let s := s.modSeq h fun q => { q with accepted := q.accepted + acc, pending := (r.tokens.take r.emitted).getLastD 0 }
  if st = 0 then (s.closeRange lg h batch row.pos row.count (len + r.emitted) (len + r.emitted)).runHeldOf lg h cd
  else s.stopRow lg batch cd row st true (len + k) (len + k)

/-- The batch end of one row: verification, cuff, streams, rollback, unpinning. -/
def State.endRow (s : State) (lg : Nat) (f : Flight) (cd : CopyData) (row : BatchRow) : State :=
  let h := row.handle
  let batch := f.batch.number
  let valid := s.kvValid h
  let len := s.kvLength h
  match s.seq? h with
  | none => s
  | some q =>
    if f.missing then (s.spareRow h row.n).stopRow lg batch cd row 7 false valid len
    else if q.cancel.isSome then (s.spareRow h row.n).stopRow lg batch cd row 5 false valid len
    else if row.kind = 2 then s.prefillRow lg batch cd row q
    else
      match f.results.find? fun r => r.handle == h with
      | none => (s.spareRow h row.n).stopRow lg batch cd row 0x0A false valid len
      | some r =>
        if r.emitted = 0 then (s.spareRow h row.n).stopRow lg batch cd row (if r.why = 1 then 8 else 0x0A) false valid len
        else s.emitRow lg batch cd row q r

/-- A batch leaves the former: references fall (R316). -/
def State.dropFlight (s : State) (lg : Nat) (f : Flight) : State :=
  let s := s.modSrv lg fun v => { v with flights := v.flights.filter fun x => x.batch.number != f.batch.number }
  let s := s.setFld Reg.SEQ_SERVE.inflight (s.fld Reg.SEQ_SERVE.inflight lg - 1) lg
  let s := s.setFld Reg.NVS_GEN.refs (s.fld Reg.NVS_GEN.refs f.batch.slot - 1) f.batch.slot
  let slots := (f.batch.rows.map (·.patchSlot)).eraseDups.filter (· != 0xFF)
  (slots.foldl (fun s i => (s.setFld Reg.NVS_PATCHSLOT.refs (s.fld Reg.NVS_PATCHSLOT.refs i - 1) i).settleSlot i) s).retryPload

/-- Apply the end of a batch whose every member has reported (R316). -/
def State.endBatch (s : State) (lg : Nat) (f : Flight) (cd : CopyData) : State :=
  (f.batch.rows.foldl (fun s row => s.endRow lg f cd row) s).dropFlight lg f

/-- A proposal reaches the former (R322): the first of a handle and index is kept. -/
def State.propose (s : State) (p : Nat × Nat × Nat) : State :=
  match s.seq? p.1 with
  | none => s
  | some q =>
    if q.proposals.any fun x => x.1 == p.2.1 then
      (s.count Reg.SEQ_DUPPROPCNT.count 1).srvEvt Reg.SEQ_SRVEVT.dup_prop
    else s.setSeq p.1 { q with proposals := q.proposals ++ [p.2] }

/-- An end report reaches the former (R316): its proposals are kept, and with the last report the batch ends. -/
def State.takeReport (s : State) (lg batch ep : Nat) (missing : Bool) (proposals : List (Nat × Nat × Nat))
    (results : List ResultRow) (cd : CopyData) : State :=
  match (s.srv lg).flights.find? fun f => f.batch.number == batch with
  | none => s
  | some f =>
    if f.reported.contains ep then s
    else
      let s := proposals.foldl State.propose s
      let f := { f with reported := f.reported ++ [ep], missing := f.missing || missing,
                        results := if ep = s.fld Reg.SEQ_SERVE.rep_ep lg then results else f.results }
      let s := s.modSrv lg fun v => { v with flights := v.flights.map fun x => if x.batch.number == batch then f else x }
      if f.reported.length < s.fld Reg.FAB_GRP.count (s.fld Reg.SEQ_KVLEDGER.grp lg) then s
      else s.endBatch lg f cd

/-- Serving of a job's ledgers stops (R331): SEQ_SERVE.en clears, applied descriptors go, and at the former every pinned sequence ends
with status 0x09. -/
def State.stopServing (s : State) (lg : Nat) : State :=
  let flights := (s.srv lg).flights
  let s := s.setFld Reg.SEQ_SERVE.en 0 lg
  let s := s.modSrv lg fun v =>
    { v with applied := [], missing := [], done := [], samples := [], early := [], earlyParts := [], halves := [], reports := [] }
  let s := { s with parts := s.parts.filter fun x => !(x.ptype == 0x13 && x.name.head? == some lg) }
  let lose (s : State) (f : Flight) (row : BatchRow) : State :=
    let s := s.releaseStream (((s.seq? row.handle).map (·.stream)).getD 0) row.n
    let s := s.closeRange lg row.handle f.batch.number row.pos row.count (s.kvValid row.handle) (s.kvLength row.handle)
    (s.endSeq row.handle 9 1 f.batch.number false).runHeldOf lg row.handle noCopies
  let s := flights.foldl (fun s f => (f.batch.rows.foldl (fun s row => lose s f row) s).dropFlight lg f) s
  if flights.isEmpty then s else (s.count Reg.SEQ_LOSTCNT.count flights.length).srvEvt Reg.SEQ_SRVEVT.lost

/-- A ledger is being served here: enabled, or with batches that have not ended, though the host has cleared en (R331). -/
def State.serves (s : State) (lg : Nat) : Bool :=
  s.flag Reg.SEQ_SERVE.en lg || !(s.srv lg).flights.isEmpty || !(s.srv lg).applied.isEmpty

/-- The ledgers a job serves. -/
def State.ledgersOf (s : State) (j : Nat) : List Nat := (List.range 16).filter fun i => s.fld Reg.SEQ_SERVE.job i == j

end Sys2Proof.Machine
end

