-- ==== Sys2Proof/Machine/Sched.lean ====
section
/-! DEFINITION. The scheduler (chapter 15): the job table, charges, placing, the end and the fault of a job, exceptions and signals, and
how a core takes up a job. -/

namespace Sys2Proof.Machine

/-! ### The job table (R352 to R355) -/

/-- The state code of a job table entry (Table 15.1). -/
def JobState.code : JobState → Nat
  | .waiting => 1
  | .resident => 2
  | .suspended => 3
  | .held => 4

/-- Add up residency and cloak time to the present moment (Table 15.1). -/
def Job.accrue (j : Job) (now : Nat) : Job :=
  let t := now - j.since
  match j.state with
  | .resident => { j with coreNs := j.coreNs + t * j.cores.length, since := now }
  | .suspended | .held => { j with cloakNs := j.cloakNs + t, since := now }
  | .waiting => { j with since := now }

/-- The 64 bytes of a job's entry. -/
def Job.bytes (j : Job) (state gsc : Nat) : List Byte :=
  toBytes 4 j.head ++ toBytes 1 state ++ toBytes 1 (if j.slot < 2 then j.slot else 0xFF) ++ toBytes 2 0 ++
    [j.dpaKs, j.vrwKs, j.moverKs, j.coreNs / 1000, j.preempts, j.cloakNs / 1000, gsc].flatMap (toBytes 8)

/-- The address of a job's table entry. -/
def State.jobEntry (s : State) (j : Nat) : Nat := s.fld Reg.SEQ_JOBTAB.base * 4096 + 64 * j

/-- Write a job's entry (R354). -/
def State.putEntry (s : State) (j : Job) (state : Nat) : State :=
  if s.flag Reg.SEQ_JOBTAB.en then s.areaPut (s.jobEntry j.id) (j.bytes state s.gscSe) else s

/-- Change an active job, adding up its time first, and write its entry. -/
def State.updateJob (s : State) (j : Nat) (f : Job → Job) : State :=
  let s := s.modJob j fun x => f (x.accrue s.uptime)
  match s.job? j with
  | some x => s.putEntry x x.state.code
  | none => s

/-! ### Virtual charge (R360) -/

/-- A job's virtual charge as a fraction: numerator and denominator. -/
def Job.charge (j : Job) : Nat × Nat := (j.vNum * j.weight + j.steps * j.vDen, j.vDen * j.weight)

/-- A fraction is less than another. -/
def fracLt (a b : Nat × Nat) : Bool := decide (a.1 * b.2 < b.1 * a.2)

/-- The launch value of a new job's charge: the least among the active jobs of its priority. -/
def State.leastCharge (s : State) (prio : Nat) : Nat × Nat :=
  match (s.jobs.filter fun j => j.prio == prio).map Job.charge with
  | [] => (0, 1)
  | x :: r => r.foldl (fun best y => if fracLt y best then y else best) x

/-- The order in which the scheduler considers jobs (R359). -/
def Job.before (a b : Job) : Bool :=
  if a.prio ≠ b.prio then decide (b.prio < a.prio)
  else if fracLt a.charge b.charge then true
  else if fracLt b.charge a.charge then false
  else decide (a.id ≤ b.id)

/-! ### Placing (R359, R361) -/

/-- The clusters of a list of cores. -/
def clustersOf (cores : List Nat) : List Nat := (cores.map (· / 16)).eraseDups

/-- A job is the incoming or an outgoing one of some switch. -/
def State.inSwitch (s : State) (j : Nat) : Bool :=
  s.switches.any fun w => w.incoming == some j || w.outgoing.any fun x => x.1 == j

/-- A core belongs to a job being placed. -/
def State.claimed (s : State) (c : Nat) : Bool :=
  s.switches.any fun w => match w.incoming.bind s.job? with
    | some j => j.cores.contains c
    | none => false

/-- The lowest slot free on every core and cluster of a job (R361). -/
def State.cloakSlot (s : State) (j : Job) : Option Nat :=
  [0, 1].find? fun i =>
    (j.cores.all fun c => !s.images.any fun x => x.1 == 2 * c + i) &&
      (!j.clusterSram || (clustersOf j.cores).all fun k => !s.sramImages.any fun x => x.1 == 2 * k + i)

/-- Job `j` may displace the resident job `v` (R359). -/
def State.mayDisplace (s : State) (j v : Job) : Bool :=
  v.state == .resident && v.fault.isNone && !s.inSwitch v.id &&
    (decide (v.prio < j.prio) || (v.prio == j.prio && v.quantumOver && fracLt j.charge v.charge))

/-- The C-dies of a list of cores. -/
def diesOf (cores : List Nat) : List Nat := [0, 1, 2, 3].filter fun d => cores.any fun c => c / 64 == d

/-- Freeze a core at its next pre-emption point (R90): it issues nothing more, and is quiescing while it runs. -/
def State.freeze (s : State) (c : Nat) : State :=
  let s := s.modCore c fun k => { k with frozen := true }
  if s.run (slotCore c) = Run.running then s.setRun (slotCore c) Run.quiescing else s

/-- A core that has come to rest enters run state 4 (R90). -/
def State.rest (s : State) (c : Nat) : State :=
  if s.run (slotCore c) = Run.quiescing && (s.core c).atRest then s.setRun (slotCore c) Run.quiesced else s

/-- Freeze the cores of a job that hold its state. -/
def State.freezeJob (s : State) (j : Job) : State :=
  j.cores.foldl (fun s c => if (s.core c).sq.job == j.id then (s.freeze c).rest c else s) s

/-- Begin a switch (R365): the outgoing jobs freeze. -/
def State.beginSwitch (s : State) (incoming : Option Job) (outgoing : List (Job × Nat)) (held : Bool) : State :=
  let s := outgoing.foldl (fun s x => s.freezeJob x.1) s
  let dies := diesOf (outgoing.flatMap (·.1.cores) ++ (incoming.map (·.cores)).getD [])
  { s with switches := s.switches ++
      [(⟨incoming.map (·.id), outgoing.map fun x => (x.1.id, x.2), held, dies.map fun d => (d, .drain)⟩ : Switch)] }

/-- Consider one job (R359): it is placed, counted as waiting for a slot, or passed over. -/
def State.consider (s : State) (j : Job) : State :=
  let holders := (j.cores.filterMap fun c => s.job? (s.core c).sq.job).eraseDups
  let open' := j.cores.all fun c => s.flag Reg.UNIT_CTRL.enable (slotCore c) && !s.claimed c
  if !open' || !holders.all (s.mayDisplace j) then s
  else
    let slots := holders.map s.cloakSlot
    if slots.any (·.isNone) then
      (s.count Reg.SEQ_SLOTWAITCNT.count 1).raise Reg.SEQ_SCHEDEVT.slot_wait Reg.SEQ_SCHEDEVTMASK.mask
    else s.beginSwitch (some j) (holders.zip (slots.map (·.getD 0))) false

/-- After an event the scheduler considers every waiting and suspended job (R359). -/
def State.pass (s : State) : State :=
  let js := s.jobs.filter fun j => (j.state == .waiting || j.state == .suspended) && j.fault.isNone
  (sortBy Job.before js).foldl State.consider s

/-! ### The end of a job (R74, R89, R331, R349) -/

/-- A context closes, unless it has never opened since (R349). -/
def State.closeContext (s : State) (x : Nat) : State :=
  if !s.flag Reg.XE_XCFG.en x then s
  else { s.setFld Reg.XE_XCFG.en 0 x with xe := Table.set XeContext.empty s.xe x { XeContext.empty with closedAt := some s.uptime } }

/-- What a job serves stops when it ends, faults or is torn down (R331, R349). -/
def State.stopJob (s : State) (j : Nat) : State :=
  let s := (s.ledgersOf j).foldl (fun s i => if s.serves i then s.stopServing i else s) s
  (List.range 16).foldl (fun s x => if s.fld Reg.XE_XCFG.job x == j then s.closeContext x else s) s

/-- The result of the job control action in progress (R368, R369). -/
def State.finishControl (s : State) (result : Nat) : State :=
  let s := { (s.setFld Reg.SEQ_JOBCTLSTAT.result result).setFld Reg.SEQ_JOBCTLSTAT.busy 0 with control := none }
  if result = 0 then s else s.raise Reg.SEQ_SCHEDEVT.ctl_reject Reg.SEQ_SCHEDEVTMASK.mask

/-- A core is empty again, and idle or still quiesced. -/
def State.clearCore (s : State) (c run : Nat) : State :=
  let s := (s.setCore c Core.reset).setFld Reg.UNIT_JOB.job 0xFFFF (slotCore c)
  let r := s.run (slotCore c)
  if r = Run.off ∨ r = Run.reset ∨ r = Run.apron then s else s.setRun (slotCore c) run

/-- A core that holds no job and is given to none is idle again. -/
def State.idleCore (s : State) (c : Nat) : State :=
  if (s.core c).sq.job = 0xFFFF ∧ !s.claimed c ∧ s.run (slotCore c) = Run.quiesced then s.setRun (slotCore c) Run.idle else s

/-- The register that shows which job a core's slot holds (Table 15.7). -/
def slotField (i : Nat) : Field := if i = 0 then Reg.SEQ_CLOAKMAP.slot0_job else Reg.SEQ_CLOAKMAP.slot1_job

/-- Drop every cloak image of a job. -/
def State.dropImages (s : State) (j : Nat) : State :=
  let mine := s.images.filter fun x => x.2.job == j
  let s := mine.foldl (fun s x => s.setFld (slotField (x.1 % 2)) 0xFFFF (x.1 / 2)) s
  { s with images := s.images.filter fun x => x.2.job != j, sramImages := s.sramImages.filter fun x => x.2.job != j }

/-- A job leaves a switch: with the incoming job gone, a C-die that was being made ready for it is done. -/
def Switch.without (w : Switch) (j : Nat) : Switch :=
  { w with
    incoming := if w.incoming = some j then none else w.incoming
    outgoing := w.outgoing.filter fun x => x.1 != j
    phase := if w.incoming = some j then w.phase.map fun x => if x.2 = .ready then (x.1, .done) else x else w.phase }

/-- A job leaves every switch; a switch that moves no job any more is over. -/
def State.leaveSwitches (s : State) (j : Nat) : State :=
  { s with switches := (s.switches.map fun w => w.without j).filter fun w => w.incoming.isSome || !w.outgoing.isEmpty }

/-- A job ends (R74, R89): its completion record, its last table entry, its cores, images and signals go. Its cores are idle again; those of a
faulted job stay in run state 4. The scheduling event is queued. -/
def State.endJob (s : State) (j status detail : Nat) : State :=
  match s.job? j with
  | none => s
  | some x =>
    let s := s.stopJob j
    let s := s.putEntry { x.accrue s.uptime with slot := 0xFF } 0
    let s := s.complete x.taken status detail
    let s := x.cores.foldl (fun s c =>
      if (s.core c).sq.job = j then s.clearCore c (if x.fault.isSome then Run.quiesced else Run.idle) else s) s
    let s := (s.dropImages j).leaveSwitches j
    let s := if x.fault.isSome then s else x.cores.foldl State.idleCore s
    let s := { s with jobs := s.jobs.filter (fun y => y.id != j), signals := s.signals.filter (fun y => y.job != j),
                      schedWait := s.schedWait ++ [(SchedEvent.plain)] }
    match s.control with
    | some (op, i) => if i = j then s.finishControl (if op = 3 then 0 else 1) else s
    | none => s

/-- Mark a job faulted (R89): every core of it goes to its next pre-emption point; the first fault's detail is kept. -/
def State.markFault (s : State) (j detail : Nat) (all : Bool) : State :=
  match s.job? j with
  | none => s
  | some x =>
    let s := if x.fault.isSome then s else (s.stopJob j).modJob j fun y => { y with fault := some detail }
    x.cores.foldl (fun s c =>
      if (s.core c).sq.job == j && (all || !(s.core c).halted) then (s.freeze c).rest c else s) s

/-- Every core that holds the state of a job is at rest. -/
def State.jobAtRest (s : State) (j : Job) : Bool := j.cores.all fun c => (s.core c).sq.job != j.id || (s.core c).atRest

/-- A faulted job of a switch is saved whole before it ends (R93). -/
def State.awaitsSave (s : State) (j : Nat) : Bool := s.switches.any fun w => w.outgoing.any fun x => x.1 == j

/-- A job control action takes effect (Table 15.5, R369). -/
def State.applyControl (s : State) (op j : Nat) : State :=
  match s.job? j with
  | none => s.finishControl 1
  | some x =>
    let s := { s with control := some (op, j) }
    if op = 3 then s.markFault j 0x100 true
    else if x.fault.isSome then s.finishControl 2
    else match op, x.state with
      | 1, .waiting | 1, .suspended => (s.updateJob j fun y => { y with state := .held }).finishControl 0
      | 1, .resident =>
        match s.cloakSlot x with
        | none => s.finishControl 3
        | some i => s.beginSwitch none [(x, i)] true
      | 2, .held => (s.updateJob j fun y => { y with state := if y.slot < 2 then .suspended else .waiting }).finishControl 0
      | _, _ => s.finishControl 2

/-- A switch whose C-dies are all done is over (R365): the incoming job is resident (R356), a suspend has its result, and a scheduling event
follows. -/
def State.endSwitch (s : State) (w : Switch) : State :=
  let s := { s with switches := s.switches.erase w }
  let s := match w.incoming with
    | some j => s.updateJob j fun x => { x with state := .resident, slot := 0xFF, placedAt := s.uptime, quantumOver := false }
    | none => s
  let s := match s.control, w.held with
    | some (1, _), true => s.finishControl 0
    | _, _ => s
  { s with schedWait := s.schedWait ++ [(SchedEvent.plain)] }

/-- The scheduler takes one event (R358, R359): after it the waiting and suspended jobs are considered, once the switch it started, if any,
is over. -/
def State.takeEvent (s : State) (e : SchedEvent) : State :=
  match e with
  | .plain => s.pass
  | .control op j =>
    let s := s.applyControl op j
    if s.switches.isEmpty then s.pass else s

/-- Act until nothing is left to decide (R358): faulted jobs whose cores are at rest end, switches whose C-dies are done are over, and, while
no switch is in progress, the scheduler takes the events that wait. -/
def State.settleN : Nat → State → State
  | 0, s => s
  | n + 1, s =>
    match s.jobs.find? fun j => j.fault.isSome && s.jobAtRest j && !s.awaitsSave j.id with
    | some j => settleN n (s.endJob j.id 0x0A (j.fault.getD 0))
    | none =>
      match s.switches.find? fun w => w.phase.all fun x => x.2 == .done with
      | some w => settleN n (s.endSwitch w)
      | none =>
        match s.switches.isEmpty, s.schedWait with
        | true, e :: r => settleN n ({ s with schedWait := r }.takeEvent e)
        | _, _ => s

/-- `settleN` with enough rounds: each one ends a job or a switch, or takes an event. -/
def State.settle (s : State) : State := s.settleN (2 * s.jobs.length + 2 * s.switches.length + s.schedWait.length + 1)

/-- A scheduling event reaches the scheduler (R358). -/
def State.schedule (s : State) (e : SchedEvent) : State := { s with schedWait := s.schedWait ++ [e] }.settle

/-- Fault a job (R89): a scheduling event (R358). -/
def State.faultJob (s : State) (j detail : Nat) : State :=
  if (s.job? j).any fun x => x.fault.isNone then (s.markFault j detail false).schedule .plain else (s.markFault j detail false).settle

/-- A core may have come to rest: its run state follows, and a faulted job whose cores all rest ends. -/
def State.restCore (s : State) (c : Nat) : State := (s.rest c).settle

/-! ### Exceptions and faults (R86 to R89, R493) -/

/-- A core stops after an exception or a hardware fault: it issues nothing further. -/
def State.halt (s : State) (c : Nat) : State :=
  let s := s.modCore c fun k => { k with halted := true }
  (if s.run (slotCore c) = Run.running then s.setRun (slotCore c) Run.quiescing else s).rest c

/-- Fill SEQ_EXCINFO (Table 4.8). -/
def State.setExcinfo (s : State) (c cause engine index job : Nat) (async : Bool) : State :=
  let s := s.setFld Reg.SEQ_EXCINFO.job job c
  let s := s.setFld Reg.SEQ_EXCINFO.cause cause c
  let s := s.setFlag Reg.SEQ_EXCINFO.async async c
  let s := s.setFld Reg.SEQ_EXCINFO.engine engine c
  let s := s.setFld Reg.SEQ_EXCINFO.index index c
  s.setFld Reg.SEQ_EXCINFO.valid 1 c

/-- An exception of a core (R89): the first is recorded, stops the core and faults its job; a later one leaves only a log record. -/
def State.exception (s : State) (c cause engine index : Nat) (async : Bool) : State :=
  let j := (s.core c).sq.job
  if s.flag Reg.SEQ_EXCINFO.valid c then s.logRecord 1 (causeSeverity cause) cause (slotCore c) [engine, index]
  else
    let s := s.setExcinfo c cause engine index j async
    let s := s.recordFault cause (.unit (slotCore c)) [engine, index, j]
    (s.halt c).faultJob j c

/-- A hardware fault of a core (R180, R202): like an exception, but SEQ_EXCINFO does not change. -/
def State.hardwareFault (s : State) (c cause : Nat) (payload : List Nat) : State :=
  let j := (s.core c).sq.job
  let s := s.recordFault cause (.unit (slotCore c)) payload
  (s.halt c).faultJob j c

/-- A fault that stops no core of its own (R493): classes A and M fault every active job, with a detail that names no core, and stop
serving and exchange; class M also stops the module for good. -/
def State.moduleFault (s : State) (cause : Nat) (p : Suspect) (payload : List Nat) : State :=
  let s := s.recordFault cause p payload
  let cls := causeClass cause
  let s := if cls = .module then
      { s.setFld Reg.TOP_BLKSTAT.blocks 0x70B with stopped := true, faultPin := true, readyPin := false }
    else s
  if cls = .allJobs ∨ cls = .module then
    let s := (List.range 16).foldl (fun s i => if s.serves i then s.stopServing i else s) s
    let s := (List.range 16).foldl State.closeContext s
    let marked := s.jobs.foldl (fun s j => s.markFault j.id 0x100 false) s
    { marked with schedWait := marked.schedWait ++ (s.jobs.filter fun (j : Job) => j.fault.isNone).map fun _ => SchedEvent.plain }.settle
  else s

/-! ### Signals (R76, R77, R92) -/

/-- A signal lands in an event counter; at 4,095 it sticks and the core raises 0x0406 (R77). -/
def State.landSignal (s : State) (c e engine index : Nat) : State :=
  let k := s.core c
  if k.sq.e e < 4095 then s.setCore c { k with sq := k.sq.setE e (k.sq.e e + 1) }
  else s.exception c 0x0406 engine index true

/-- A signal of the core's own instruction. On a frozen core a bound event takes it in the tally. -/
def State.signalOwn (s : State) (c engine index : Nat) (e : Option Nat) : State :=
  match e with
  | none => s
  | some e =>
    if (s.core c).frozen && (s.core c).sq.bind e != 0 then s.modCore c fun k => k.addTally e
    else s.landSignal c e engine index

/-- A signal from outside the core to the state of a job on that core: its counter, its tally when frozen, the tally of its cloak image,
or the tally kept for a core that has not taken up the job yet (R92, R363). -/
def State.signalExt (s : State) (j c e : Nat) : State :=
  let k := s.core c
  if k.sq.job = j ∧ j ≠ 0xFFFF then
    if k.frozen then s.setCore c (k.addTally e) else s.landSignal c e 0 k.sq.pc
  else match s.images.find? fun x => x.1 / 2 == c && x.2.job == j with
    | some (i, im) => { s with images := Table.put s.images i { im with core := im.core.addTally e } }
    | none => s.modJob j fun x =>
        if x.cores.contains c then { x with tallies := Table.set 0 x.tallies (32 * c + e) (min 4096 (Table.get 0 x.tallies (32 * c + e) + 1)) }
        else x

/-- The events of a job's core that are bound to a source code, wherever its state is. -/
def State.boundEvents (s : State) (j c code : Nat) : List Nat :=
  match s.jobSeq j c with
  | some q => q.boundTo code
  | none => match s.job? j with
    | some x => if x.cores.contains c then (span 24 32).filter fun e => bits x.bind (4 * (e - 24) + 3) (4 * (e - 24)) == code else []
    | none => []

/-- Signal every event of a job's core that is bound to a source code (Table 4.6). -/
def State.signalCode (s : State) (j c code : Nat) : State :=
  (s.boundEvents j c code).foldl (fun s e => s.signalExt j c e) s

/-- Signal a source code on every core of a job. -/
def State.signalJob (s : State) (j code : Nat) : State :=
  match s.job? j with
  | none => s
  | some job => job.cores.foldl (fun s c => s.signalCode j c code) s

/-- Apply a core's tally at resume (R92): a sum above 4,095 sticks and raises 0x0406. -/
def State.applyTally (s : State) (c : Nat) : State :=
  let k := s.core c
  let s := s.setCore c { k with tally := [], sq := k.tally.foldl (fun q x => q.setE x.1 (min 4095 (q.e x.1 + x.2))) k.sq }
  if k.tally.any fun x => decide (4095 < k.sq.e x.1 + x.2) then s.exception c 0x0406 0 k.sq.pc true else s

end Sys2Proof.Machine
end

