-- ==== Sys2Proof/Machine/KvCmds.lean ====
section
/-! DEFINITION. The KV commands of the host, the ledger records of other formers and the timers of chapter 12. -/

namespace Sys2Proof.Machine

/-! ### Commands (R299, R307) -/

/-- Complete a KV command; what its detail holds is not stated, and is free. -/
def State.endKv (s : State) (t : Taken) (status : Nat) : State :=
  let got := s.free
  let v := got.1
  let s := got.2
  s.completeKv (some t) status v

/-- The slice that serves a ledger here took the command (R307). -/
def State.servedBy (s : State) (queue lg : Nat) : Bool := s.isFormer lg && s.fld Reg.SEQ_QCFG.slice queue == lg % 4

/-- What every KV command on an existing sequence meets first: a reserved byte, no such sequence, the wrong slice. -/
def State.onSequence (s : State) (queue : Nat) (t : Taken) (cmd : Command) (legal : Bool) (k : State → Nat → State) : State :=
  let lg := s.kvLedger cmd.seq
  if !legal || (firstNonzero cmd.raw ([1, 0xB, 0x11] ++ span 0x20 0x40)).isSome then s.endKv t 1
  else if s.kvState cmd.seq = 0 then s.endKv t 2
  else if !s.servedBy queue lg then s.endKv t 7
  else k s lg

/-- A command on a sequence runs at once, or is held while the sequence is pinned (R285). -/
def State.runOrHold (s : State) (lg : Nat) (c : HeldCmd) (cd : CopyData) : State :=
  if s.kvPinned c.handle then
    let s := if c.op = 0x44 then
        (s.decision.flags c.handle (s.kvFlags c.handle + 16 * (1 - bits (s.kvFlags c.handle) 4 4))).commit lg 2 0xFFFFFFFF
          ((c.taken.map (·.tag)).getD 0)
      else s
    { s with heldCmds := s.heldCmds ++ [c] }
  else s.runHeld lg c cd

/-- FORK (R288). -/
def execFork (queue : Nat) (host : List Byte) (s : State) : Host.Outcome State Fault Refusal :=
  .next (s.takeCmd queue host (· == 0x40) fun s t cmd =>
    let src := numAt cmd.raw 8 2
    let flags := numAt cmd.raw 0xA 1
    let lg := s.kvLedger src
    let histOk := match locateRange cmd.hist (4 * cmd.len) with
      | some (.t1, _) | some (.t3, _) => true
      | _ => false
    if (firstNonzero cmd.raw ([1, 0xB, 0x11] ++ span 0x20 0x40)).isSome || decide (8 ≤ flags) || !histOk then s.endKv t 1
    else if s.kvState src ≠ 1 then s.endKv t 2
    else if !s.servedBy queue lg then s.endKv t 7
    else if s.kvState cmd.seq ≠ 0 then s.endKv t 2
    else if cmd.len < 1 ∨ s.kvValid src < cmd.len then s.endKv t 1
    else match s.fork lg cmd.seq src cmd.len flags cmd.hist cmd.tag with
      | some s => s.endKv t 0
      | none => s.endKv t 3)

/-- PARK (R291). -/
def execPark (queue : Nat) (host : List Byte) (copies : CopyData) (s : State) : Host.Outcome State Fault Refusal :=
  .next (s.takeCmd queue host (· == 0x41) fun s t cmd =>
    s.onSequence queue t cmd (decide (1 ≤ cmd.len) && decide (cmd.len ≤ 86400000)) fun s lg =>
      s.runOrHold lg ⟨cmd.seq, 0x41, cmd.len, some t⟩ copies)

/-- RESTORE (R293). -/
def execRestore (queue : Nat) (host : List Byte) (copies : CopyData) (s : State) : Host.Outcome State Fault Refusal :=
  .next (s.takeCmd queue host (· == 0x42) fun s t cmd =>
    s.onSequence queue t cmd true fun s lg =>
      if s.kvState cmd.seq ≠ 2 then s.endKv t 6
      else match s.restore lg cmd.seq cmd.tag copies (some t) with
        | some (_, s) => s
        | none => s.endKv t 3)

/-- DROP (R295). -/
def execDrop (queue : Nat) (host : List Byte) (s : State) : Host.Outcome State Fault Refusal :=
  .next (s.takeCmd queue host (· == 0x43) fun s t cmd =>
    s.onSequence queue t cmd true fun s lg => s.runOrHold lg ⟨cmd.seq, 0x43, cmd.len, some t⟩ noCopies)

/-- A sequence that is being restored is gone: its restore ends as one of no such sequence. -/
def State.forgetRestore (s : State) (h : Nat) : State :=
  let gone := s.restoring.filter fun r => r.handle == h
  let s := { s with restoring := s.restoring.filter fun r => r.handle != h }
  gone.foldl (fun s r => match r.taken with
    | some t => s.endKv t 2
    | none => s) s

/-- RELEASE (Table 12.10). A served sequence that has not ended is not released (R309). -/
def execRelease (queue : Nat) (host : List Byte) (s : State) : Host.Outcome State Fault Refusal :=
  .next (s.takeCmd queue host (· == 0x44) fun s t cmd =>
    s.onSequence queue t cmd true fun s lg =>
      if (match s.seq? cmd.seq with
        | some q => !q.hold
        | none => false) then s.endKv t 1
      else
        let s := s.runOrHold lg ⟨cmd.seq, 0x44, 0, some t⟩ noCopies
        if s.kvState cmd.seq = 0 then s.forgetRestore cmd.seq else s)

/-! ### Ledger records (R282, R301) -/

/-- Ledger mismatch or gap (R282): the job that serves the ledger is faulted. -/
def State.ledgerFault (s : State) (lg cause : Nat) : State :=
  (s.recordFault cause (.unit (slotSlice (lg % 4))) [lg]).faultJob (s.fld Reg.SEQ_SERVE.job lg) 0x100

/-- A member tells the former what became of a copy (Table 17.17): kind 1 restore applied, 2 copy failed. -/
def State.memberReply (s : State) (lg kind handle record position : Nat) : State :=
  s.sendEngine (sliceUnit lg) (s.fld Reg.SEQ_KVLEDGER.former lg) 0x14
    (lineOf [(0, 1, kind), (1, 1, lg), (2, 2, handle), (4, 4, record), (8, 4, position)]) (s.fld Reg.SEQ_SERVE.job lg)

/-- The table position that the operation after a restore copy names. -/
def copyPosition (ops : List LedgerOp) (o : LedgerOp) : Nat × Nat :=
  match (ops.dropWhile (· != o)).find? fun x => x.op == 4 with
  | some x => (x.handle, x.a)
  | none => (o.handle, 0)

/-- One operation of a former's record here, with the replies it owes (R293, R294). -/
def State.memberOp (s : State) (r : LedgerRecord) (o : LedgerOp) (cd : CopyData) : State × CopyData :=
  let fails := s.copyFails o cd
  let got := s.applyOp o cd
  let s := got.1
  let cd := got.2
  let got := copyPosition r.ops o
  let h := got.1
  let i := got.2
  if fails then (s.memberReply r.ledger 2 h r.record i, cd)
  else if o.op = 8 then (s.memberReply r.ledger 1 h r.record i, cd)
  else (s, cd)

/-- A remote store of a park copy has failed after it left (R226, R294): the borrowed range closes, and the table position whose slot the
address lies in is reported to the former. -/
def State.parkStoreFailed (s : State) (a : Nat) : State :=
  let slot := (a - s.parkAt 0) / s.setBytes
  let s := s.closePark a true
  let owner := (List.range 65536).findSome? fun h =>
    if s.kvState h = 0 then none else ((s.kvWith h 2).find? fun i => entIx (s.kvEntry h i) == slot).map fun i => (h, i)
  match owner with
  | none => s
  | some (h, i) =>
    let lg := s.kvLedger h
    if s.isFormer lg then s.copyFailed lg h i else s.memberReply lg 2 h (s.fld Reg.SEQ_KVSTAT.record lg - 1) i

/-- Note which sequences a record has pinned for its batch, and which are pinned no longer (R284). -/
def State.notePins (s : State) (r : LedgerRecord) : State :=
  (r.ops.map (·.handle)).eraseDups.foldl (fun s h =>
    if s.kvPinned h then
      (if r.cause = 0 then s.modSrv r.ledger fun v => { v with formed := Table.put v.formed h r.batch } else s)
    else s.modSrv r.ledger fun v => { v with formed := Table.del v.formed h }) s

/-- Apply a record whose turn it is (R282). -/
def State.applyRecord (s : State) (r : LedgerRecord) (cd : CopyData) : State :=
  let got := r.ops.foldl (fun (x : State × CopyData) o => x.1.memberOp r o x.2) (s, cd)
  ((got.1.notePins r).setFld Reg.SEQ_KVSTAT.record (r.record + 1) r.ledger).showLedger r.ledger

/-- A record that this module must refuse (R282, R301). -/
def State.refuses (s : State) (r : LedgerRecord) : Bool :=
  r.crc != s.ledgerCrc r.ledger || decide (4 < r.cause) || !r.ops.all (s.opLegal r.ledger)

/-- Apply what has become due of the records that came early. -/
def State.applyEarly (s : State) (lg : Nat) : Nat → State
  | 0 => s
  | n + 1 =>
    match s.earlyRecords.find? fun x => x.1.ledger == lg && x.1.record == s.fld Reg.SEQ_KVSTAT.record lg with
    | none => s
    | some x =>
      let s := { s with earlyRecords := s.earlyRecords.erase x }
      (s.applyRecord x.1 x.2).applyEarly lg n

/-- A record reaches this module (R282). The former has applied its own already. -/
def State.takeRecord (s : State) (r : LedgerRecord) (cd : CopyData) : State :=
  let lg := r.ledger
  if s.isFormer lg then s
  else if s.refuses r then s.ledgerFault lg 0x0601
  else if r.record = s.fld Reg.SEQ_KVSTAT.record lg then
    let s := (s.applyRecord r cd).applyEarly lg s.earlyRecords.length
    if s.earlyRecords.any fun x => x.1.ledger == lg then { s with lastRecordAt := Table.put s.lastRecordAt lg s.uptime }
    else { s with lastRecordAt := Table.del s.lastRecordAt lg }
  else if laterBy 32 r.record (s.fld Reg.SEQ_KVSTAT.record lg) then
    let s := { s with earlyRecords := s.earlyRecords ++ [(r, cd)] }
    if s.lastRecordAt.any fun x => x.1 == lg then s else { s with lastRecordAt := Table.put s.lastRecordAt lg s.uptime }
  else s

/-- LEDGER_GAP_TIMEOUT (R282): 2 ms have passed without the missing record. -/
def execLedgerGapTimeout (ledger : Nat) (s : State) : Host.Outcome State Fault Refusal :=
  .next (if s.lastRecordAt.any fun x => x.1 == ledger then
      { s with lastRecordAt := Table.del s.lastRecordAt ledger }.ledgerFault ledger 0x0602
    else s)

/-! ### Timers of the former -/

/-- PARKED_TTL_VISIT (R292): every parked sequence of the ledger is visited. -/
def execParkedTtlVisit (ledger : Nat) (s : State) : Host.Outcome State Fault Refusal :=
  .next (if !s.isFormer ledger then s
    else ((List.range 65536).filter fun h => s.kvState h == 2 && s.kvLedger h == ledger).foldl
      (fun s h => if s.kvField h 0x18 8 ≤ s.gscSe then s.expirePark ledger h else s) s)

/-- RESTORE_REPLY_TIMEOUT (R294): a restore lacks a reply after 2 s. -/
def execRestoreReplyTimeout (handle : Nat) (s : State) : Host.Outcome State Fault Refusal :=
  .next (match s.restoring.find? fun r => r.handle == handle with
    | some r => s.copyFailed r.ledger handle (r.positions.headD 0)
    | none => s)

/-- MEMBER_REPLY_RECEIVE (Table 17.17): of a restore or a copy at the former, or of an install at the module that issued the PLOAD. -/
def execMemberReplyReceive (hd : PacketHead) (kind ledger handle record position : Nat) (s : State) : Host.Outcome State Fault Refusal :=
  .next (s.engineTake hd (fun s => if kind ≤ 2 then s.isFormer ledger else s.flag Reg.NVS_STATUS.ready) fun s =>
    match kind with
    | 1 =>
      if s.restoring.any fun r => r.handle == handle && r.records.contains record && r.positions.contains position then
        s.restoreReply ledger handle hd.source position
      else s
    | 2 => s.copyFailed ledger handle position
    | 3 => s.ploadReply record hd.source true
    | 4 => s.ploadReply record hd.source false
    | _ => s)

/-- SEQ_KVLOCK_SET (R300, R518): MEM_LOCK must be set before. -/
def execSeqKvlockSet (s : State) : Host.Outcome State Fault Refusal :=
  .next (s.hostWrite 0x460038 4 fun s =>
    if s.flag Reg.MEM_LOCK.lock then
      (List.range 16).foldl State.showLedger ((s.setFld Reg.SEQ_KVLOCK.lock 1).setFld Reg.TOP_LOCKSTAT.kv 1)
    else s.latchAccess 3 0x460038 4)

end Sys2Proof.Machine
end

