-- ==== Sys2Proof/Machine/Flags.lean ====
section
/-! DEFINITION. The numeric flags and counters of each core (R158 to R161). -/

namespace Sys2Proof.Machine

/-- The six flags of SEQ_NUMFLAG (Table 7.6). -/
def numFlags : List Field :=
  [Reg.SEQ_NUMFLAG.sat_dpa, Reg.SEQ_NUMFLAG.sat_vrw, Reg.SEQ_NUMFLAG.ufl_dpa, Reg.SEQ_NUMFLAG.ufl_vrw,
   Reg.SEQ_NUMFLAG.inv_dpa, Reg.SEQ_NUMFLAG.inv_vrw]

/-- Some numeric flag of a core is set: its bit of SEQ_NUMSUM (R161). -/
def State.numFlagged (s : State) (c : Nat) : Bool := numFlags.any fun f => s.flag f c

/-- Set a numeric flag where its events are not zero. -/
def State.setIf (s : State) (f : Field) (n c : Nat) : State := if n = 0 then s else s.setFld f 1 c

/-- Latch the op that sets the first flag (R159): engine 1 DPA, 2 VRW. -/
def State.latchNumeric (s : State) (c engine index : Nat) : State :=
  if s.numFlagged c then s
  else
    let s := s.setFld Reg.SEQ_NUMFLAG.job (s.core c).sq.job c
    let s := s.setFld Reg.SEQ_NUMFLAG.first_engine engine c
    s.setFld Reg.SEQ_NUMFLAG.first_index index c

/-- Count the numeric events of one op at its completion (R158). -/
def State.countNumeric (s : State) (c engine index : Nat) (ev : NumEvents) : State :=
  if ev = .none then s
  else
    let s := s.latchNumeric c engine index
    let pick (dpa vrw : Field) : Field := if engine = 1 then dpa else vrw
    let s := s.setIf (pick Reg.SEQ_NUMFLAG.sat_dpa Reg.SEQ_NUMFLAG.sat_vrw) ev.sat c
    let s := s.setIf (pick Reg.SEQ_NUMFLAG.ufl_dpa Reg.SEQ_NUMFLAG.ufl_vrw) ev.ufl c
    let s := s.setIf (pick Reg.SEQ_NUMFLAG.inv_dpa Reg.SEQ_NUMFLAG.inv_vrw) ev.inv c
    let s := s.count Reg.SEQ_SATCNT.count ev.sat c
    let s := s.count Reg.SEQ_UFLCNT.count ev.ufl c
    s.count Reg.SEQ_INVCNT.count ev.inv c

/-- When all six flags are 0 again, the latched fields read 0 (R159). -/
def State.releaseNumeric (s : State) (c : Nat) : State :=
  if s.numFlagged c then s
  else s.clearFlds [Reg.SEQ_NUMFLAG.job, Reg.SEQ_NUMFLAG.first_engine, Reg.SEQ_NUMFLAG.first_index] c

end Sys2Proof.Machine
end

