-- ==== Sys2Proof/Machine/Insn.lean ====
section
/-! DEFINITION. The instruction word (Tables 5.1 and 5.2) and the issue of one instruction (R75, R77, R82, R84, R86, R94, R98,
R103, R542). -/

namespace Sys2Proof.Machine

/-- The SQ of a core may issue: running, not frozen, halted, ended, no TCLAIM in hold, and its ring receives
credit. -/
def State.canIssue (s : State) (c : Nat) : Bool :=
  let k := s.core c
  s.run (slotCore c) == Run.running && !k.frozen && !k.halted && !k.ended && k.claim.isNone &&
    !s.stopped && !s.flag Reg.PWR_SUPSTAT.hold && s.fld Reg.PWR_THERM.state != 2 && s.paceRate != 0

/-! ### Header fields (Table 5.1) -/

/-- Major opcode. -/
def Psi.op (w : Nat) : Nat := bits w 127 120
/-- Inverts the predicate test. -/
def Psi.pinv (w : Nat) : Bool := bit w 119
/-- Gate predicate. -/
def Psi.pidx (w : Nat) : Nat := bits w 118 116
/-- Event waited on. -/
def Psi.wev (w : Nat) : Nat := bits w 115 111
/-- Wait count. -/
def Psi.wcnt (w : Nat) : Nat := bits w 110 107
/-- Gives a signal. -/
def Psi.sen (w : Nat) : Bool := bit w 106
/-- Event signalled. -/
def Psi.sev (w : Nat) : Nat := bits w 105 101
/-- Class-specific modifier. -/
def Psi.sub (w : Nat) : Nat := bits w 100 96
/-- Bits [95:92]. -/
def Psi.d (w : Nat) : Nat := bits w 95 92
/-- Bits [91:88]. -/
def Psi.a (w : Nat) : Nat := bits w 91 88
/-- Bits [87:84]. -/
def Psi.b (w : Nat) : Nat := bits w 87 84
/-- Bits [83:80]. -/
def Psi.f80 (w : Nat) : Nat := bits w 83 80
/-- Bits [79:76]. -/
def Psi.f76 (w : Nat) : Nat := bits w 79 76
/-- Bits [82:80]: the predicate field of SQ-local and synchronisation instructions. -/
def Psi.p (w : Nat) : Nat := bits w 82 80
/-- Bits [31:0]. -/
def Psi.imm (w : Nat) : Nat := bits w 31 0
/-- The event an instruction signals, if any. -/
def Psi.signal (w : Nat) : Option Nat := if Psi.sen w then some (Psi.sev w) else none

/-- Bits `hi` down to `lo` as a mask. -/
def maskOf (hi lo : Nat) : Nat := (2 ^ (hi + 1 - lo) - 1) * 2 ^ lo
/-- Masks of the body fields d, a, b, [83:80], p and the 32-bit immediate. -/
def mD : Nat := maskOf 95 92
/-- Bits [91:88]. -/
def mA : Nat := maskOf 91 88
/-- Bits [87:84]. -/
def mB : Nat := maskOf 87 84
/-- Bits [83:80]. -/
def mF80 : Nat := maskOf 83 80
/-- Bits [82:80]. -/
def mP : Nat := maskOf 82 80
/-- Bits [31:0]. -/
def mImm : Nat := maskOf 31 0

/-- Opcodes that Table 5.2 assigns. -/
def Psi.assigned (op : Nat) : Bool :=
  decide (op ≤ 0x1A) || op == 0x20 || (decide (0x30 ≤ op) && decide (op ≤ 0x37)) || (decide (0x50 ≤ op) && decide (op ≤ 0x52)) ||
    (decide (0x60 ≤ op) && decide (op ≤ 0x62)) || (decide (0x70 ≤ op) && decide (op ≤ 0x79)) || op == 0x80 || op == 0x81 ||
    (decide (0x90 ≤ op) && decide (op ≤ 0x94))

/-- Engine of an instruction's class as SEQ_EXCINFO.engine codes it (Table 4.8). Which engine a synchronous exception records is not
specified: the model takes that of the instruction's class, and 0 for an opcode that Table 5.2 reserves (DESIGN CHOICE, log entry 106). -/
def Psi.engine (w : Nat) : Nat :=
  let op := Psi.op w
  if op = 0x20 then 1
  else if 0x30 ≤ op ∧ op ≤ 0x37 then 2
  else if 0x50 ≤ op ∧ op ≤ 0x52 then 3 + ofFlag (bit w 96)
  else if 0x70 ≤ op ∧ op ≤ 0x79 then 5
  else if op = 0x80 ∨ op = 0x81 ∨ (0x90 ≤ op ∧ op ≤ 0x94) then 6
  else 0

/-- The instruction at PC; none at or beyond the program's length (R74). -/
def Core.fetch (k : Core) : Option Nat :=
  if k.sq.pc < k.progLen then some (Table.get (0 : IWord) k.prog k.sq.pc).toNat else none

/-! ### Owed signals (R94) -/

/-- 1 where a signal field names the event. -/
def owes (e : Nat) (o : Option Nat) : Nat := if o = some e then 1 else 0

/-- Tiles of a MOVD: the product of the counts of the used levels at or above tile_level (R138). -/
def Descriptor.tiles (t : Descriptor) : Nat :=
  (((t.levels.take t.nlev).drop t.tileLevel).map (·.count)).foldl (· * ·) 1

/-- Signals a mover operation still owes to an event: its own, and one per tile not yet signalled. -/
def MoverOp.owed (o : MoverOp) (e : Nat) : Nat :=
  owes e o.signal + (match o.kind with
    | .movd t _ (some te) => if te = e then t.tiles - o.tiles else 0
    | _ => 0)

/-- Signals that issued, incomplete instructions of the core still owe to an event. -/
def Core.owed (k : Core) (e : Nat) : Nat :=
  (k.dpa.map fun o => owes e o.signal).sum + (k.vrw.map fun o => owes e o.signal).sum +
  (k.mover0.map fun o => o.owed e).sum + (k.mover1.map fun o => o.owed e).sum +
  (k.fab.map fun o => owes e o.signal).sum + (k.engine.map fun o => owes e o.signal).sum

/-! ### Program order (R103) -/

/-- The loop test after the instruction at `at'` has issued: innermost entry first; the answer is the index to go back to, if any. -/
def testLoops (at' : Nat) : List LoopEntry → List LoopEntry × Option Nat
  | [] => ([], none)
  | l :: r =>
    if l.stop = at' then
      if 1 < l.remaining then ({ l with remaining := l.remaining - 1 } :: r, some l.start) else testLoops at' r
    else (l :: r, none)

/-- Move on after the instruction at `at'`: a loop whose end it is goes back or is popped; otherwise execution continues at `onward`. -/
def Sequencer.advance (q : Sequencer) (at' onward : Nat) : Sequencer :=
  let got := testLoops at' q.loops
  let loops := got.1
  let back := got.2
  { q with loops := loops, pc := back.getD onward }

/-! ### One instruction at its issue step -/

/-- What an instruction checks and does in the step in which it issues. -/
structure Plan where
  /-- Body bits the instruction may set (R98). -/
  mask : Nat
  /-- The sub field and every code field hold assigned values (R98). -/
  codes : Bool := true
  /-- Predicates it names beside its gate (R99). -/
  names : List Nat := []
  /-- Its synchronous conditions with their causes, in the order of R542. -/
  checks : List (Bool × Nat) := []
  /-- Its conditions are tested whether or not the predicate test passes (R104). -/
  always : Bool := false
  /-- Its engine's queue is full, or 64 fabric operations are outstanding (R82). -/
  full : Bool := false
  /-- Its own signal is given in the issue step (R76). -/
  atIssue : Bool := true
  /-- The claim it begins to hold for; it then issues when the old value has returned (R109). -/
  hold : Option Claim := none
  /-- Its effect. -/
  effect : State → State := id
  /-- Program order after it. -/
  order : Sequencer → Sequencer

/-- Program order of every instruction but LOOP, SKIP and TCLAIM. -/
def inOrder (q : Sequencer) : Sequencer := q.advance q.pc (q.pc + 1)

/-- The predicate test (Table 5.1). -/
def Sequencer.passes (q : Sequencer) (w : Nat) : Bool := q.p (Psi.pidx w) != Psi.pinv w

/-- The word breaks its encoding (R98). -/
def Plan.illegal (p : Plan) (w : Nat) : Bool :=
  !p.codes || (w % 2 ^ 96 &&& p.mask) != w % 2 ^ 96 || (!Psi.sen w && Psi.sev w != 0)

/-- The first synchronous cause the instruction meets (R542). -/
def Plan.cause (p : Plan) (w : Nat) (pass : Bool) : Option Nat :=
  if p.illegal w then some 0x0401
  else if pass || p.always then (p.checks.find? fun x => x.1).map (·.2)
  else none

/-- Change a core's sequencer. -/
def State.modSq (s : State) (c : Nat) (f : Sequencer → Sequencer) : State := s.modCore c fun k => { k with sq := f k.sq }

/-- The instruction issues: its wait falls, its effect and its program order follow, and its signal where it comes at issue. -/
def State.issueNow (s : State) (c w : Nat) (p : Plan) (pass : Bool) : State :=
  let at' := (s.core c).sq.pc
  let s := s.modSq c fun q => q.setE (Psi.wev w) (q.e (Psi.wev w) - Psi.wcnt w)
  let s := if pass then p.effect s else s
  let s := s.modSq c (if pass then p.order else inOrder)
  if p.atIssue || !pass then s.signalOwn c (Psi.engine w) at' (Psi.signal w) else s

/-- The wait of the instruction at PC is unsatisfied: it stays, or, where the wait can never be satisfied, raises 0x0405 (R94). -/
def State.heldByWait (s : State) (c w : Nat) : State :=
  let k := s.core c
  let e := Psi.wev w
  if k.sq.bind e = 0 ∧ k.sq.e e + k.owed e < Psi.wcnt w then s.exception c 0x0405 (Psi.engine w) k.sq.pc false else s

/-- The core's SQ works on the instruction at PC, if it is one of this row's: blocked, raised or issued. -/
def State.issue (s : State) (c : Nat) (mine : Nat → Bool) (plan : State → Nat → Plan) : State :=
  if !s.canIssue c then s
  else
    let k := s.core c
    match k.fetch with
    | none => s
    | some w =>
      if !mine w then s
      else if k.sq.e (Psi.wev w) < Psi.wcnt w then s.heldByWait c w
      else
        let p := plan s w
        let pass := k.sq.passes w
        if (Psi.pidx w :: p.names).any fun x => k.predPending.contains x then s
        else if pass && p.full then s
        else match p.cause w pass with
          | some cause => s.exception c cause (Psi.engine w) k.sq.pc false
          | none =>
            if pass && p.hold.isSome then s.modCore c fun k => { k with claim := p.hold }
            else s.issueNow c w p pass

/-- An index outside the program has been reached (R74). -/
def State.outOfProgram (s : State) (c : Nat) : State :=
  if s.canIssue c && (s.core c).fetch.isNone then s.exception c 0x0408 0 (s.core c).sq.pc false else s

/-- How far the GSC lags as a core sees it: 1 ns + 2 steps to 2 ns + 3 steps of its SQ ring (R45), in either mode. -/
def State.seenLag (s : State) : Nat × Nat := gscAge (1000 * s.dpaRate)

/-- Read the GSC at a core: where in the window of R45 the value falls is free. -/
def State.seenGsc (s : State) : Nat × State :=
  let got := s.seenLag
  let lo := got.1
  let hi := got.2
  let got := s.free
  let n := got.1
  let s := got.2
  (s.gsc - (lo + n % (hi + 1 - lo)), s)

end Sys2Proof.Machine
end

