-- ==== Sys2Proof/Machine/Operands.lean ====
section
/-! DEFINITION. The operand forms of Psigo instructions: registers, core scratch ranges, and the windows of a job (R67, R68,
R88). -/

namespace Sys2Proof.Machine

/-- The address a register of a core holds. -/
def State.addr (s : State) (c r : Nat) : Nat := ((s.core c).sq.a r).toNat

/-- The count a register of a core holds. -/
def State.cnt (s : State) (c r : Nat) : Nat := ((s.core c).sq.c r).toNat

/-- A range that must lie in core scratch starts outside it: 0x0403 (R88). -/
def outsideScratch (a : Nat) : Bool := decide (scratchSize ≤ a)

/-- A range that must lie in core scratch starts there and runs past its end: 0x0409 (R88). -/
def pastScratch (a n : Nat) : Bool := decide (a < scratchSize) && decide (scratchSize < a + n)

/-- Two byte ranges share a byte. -/
def overlap (a n b m : Nat) : Bool := decide (a < b + m) && decide (b < a + n)

/-- The window of a job holds the whole range with the right asked for: bit 0 read, bit 1 write (Table 4.4). -/
def Window.allows (w : Window) (a n : Nat) (write : Bool) : Bool :=
  decide (w.base ≤ a) && decide (a + n ≤ w.base + 4096 * w.pages) && bit w.rights (if write then 1 else 0)

/-- A job may reach a range: one store holds it whole, and beyond core scratch the job's windows or its cluster SRAM flag allow
it (R67, R68). -/
def Job.mayReach (j : Job) (a n : Nat) (write : Bool) : Bool :=
  match locateRange a n with
  | some (.scratch, _) => true
  | some (.sram, _) => j.clusterSram
  | some _ => j.windows.any fun w => w.allows a n write
  | none => false

/-- A core's job may reach a range. -/
def State.mayReach (s : State) (c a n : Nat) (write : Bool) : Bool :=
  match s.job? (s.core c).sq.job with
  | some j => j.mayReach a n write
  | none => false

end Sys2Proof.Machine
end

