-- ==== Sys2Proof/Machine/SqLocal.lean ====
section
/-! DEFINITION. The SQ-local instructions (Table 5.4): each acts on sequencer state only and is complete in its issue step. -/

namespace Sys2Proof.Machine

/-- The word has major opcode `op`. -/
def isOp (op : Nat) (w : Nat) : Bool := Psi.op w == op

/-- The word has major opcode `op` and sub value `sub`. -/
def isSub (op sub : Nat) (w : Nat) : Bool := Psi.op w == op && Psi.sub w == sub

/-- The word has major opcode `op` and a sub value that no other row of that opcode takes. -/
def isRest (op : Nat) (others : List Nat) (w : Nat) : Bool := Psi.op w == op && !others.contains (Psi.sub w)

/-- An instruction that only changes its sequencer: its body bits, its assigned sub value and its change. -/
def Plan.simple (c mask sub w : Nat) (f : Sequencer → Sequencer) (names : List Nat := []) : Plan :=
  { mask := mask, codes := Psi.sub w == sub, names := names, effect := fun s => s.modSq c f, order := inOrder }

/-- One step of the SQ that belongs to a simple instruction. -/
def State.runSimple (s : State) (c : Nat) (mine : Nat → Bool) (mask sub : Nat) (f : Nat → Sequencer → Sequencer)
    (names : Nat → List Nat := fun _ => []) : Host.Outcome State Fault Refusal :=
  .next (s.issue c mine fun _ w => Plan.simple c mask sub w (f w) (names w))

/-- The condition codes of CMP and CMPI on 32-bit words (Table 5.4). -/
def condWord (cond : Nat) (x y : Word) : Bool :=
  match cond with
  | 0 => x == y
  | 1 => x != y
  | 2 => x.ult y
  | 3 => !x.ult y
  | 4 => x.slt y
  | _ => !x.slt y

/-- The condition codes of CMPA on addresses. -/
def condAddr (cond : Nat) (x y : Addr) : Bool :=
  match cond with
  | 0 => x == y
  | 1 => x != y
  | 2 => x.ult y
  | _ => !x.ult y

/-- The 32-bit immediate as a word. -/
def Psi.immWord (w : Nat) : Word := BitVec.ofNat 32 (Psi.imm w)

/-- END: the core has issued its last instruction (R74). -/
def execEndJob (core : Nat) (s : State) : Host.Outcome State Fault Refusal :=
  .next (s.issue core (isOp 0x01) fun _ w =>
    { mask := 0, codes := Psi.sub w == 0 && !Psi.sen w, order := inOrder,
      effect := fun s => s.modCore core fun k => { k with ended := true } })

/-- NOP: nothing beyond its wait and signal. A word whose op Table 5.2 does not assign is met here too, and raises 0x0401 (R98);
so is an index outside the program, which raises 0x0408 (R74). -/
def execNop (core : Nat) (s : State) : Host.Outcome State Fault Refusal :=
  .next ((s.outOfProgram core).issue core (fun w => Psi.op w == 0 || !Psi.assigned (Psi.op w)) fun _ w =>
    { mask := 0, codes := Psi.op w == 0 && Psi.sub w == 0, order := inOrder })

/-! ### Loops and skips (R102 to R104) -/

/-- Body length of LOOP. -/
def Psi.len (w : Nat) : Nat := bits w 75 64

/-- The count LOOP reads when it issues. -/
def Sequencer.loopCount (q : Sequencer) (w : Nat) : Nat :=
  if bit w 96 then Psi.imm w else (q.c (Psi.a w)).toNat

/-- Program order of LOOP: a zero count passes over the body and tests the loops that end with it; otherwise an entry opens. -/
def Sequencer.openLoop (q : Sequencer) (w : Nat) : Sequencer :=
  let stop := q.pc + Psi.len w
  let n := q.loopCount w
  if n = 0 then q.advance stop (stop + 1)
  else { q with loops := ⟨q.pc + 1, stop, n⟩ :: q.loops, pc := q.pc + 1 }

/-- LOOP (R102). -/
def execLoop (core : Nat) (s : State) : Host.Outcome State Fault Refusal :=
  .next (s.issue core (isOp 0x02) fun s w =>
    let k := s.core core
    let stop := k.sq.pc + Psi.len w
    let beyond := match k.sq.loops with
      | l :: _ => decide (l.stop < stop)
      | [] => false
    { mask := mA ||| maskOf 75 64 ||| mImm, codes := decide (Psi.sub w ≤ 1),
      checks := [(Psi.len w == 0 || decide (k.progLen ≤ stop) || beyond, 0x0402),
        (decide (1 ≤ k.sq.loopCount w) && decide (4 ≤ k.sq.loops.length), 0x0407)],
      order := fun q => q.openLoop w })

/-- SKIP (R104): its tests are made whether or not its predicate test passes. -/
def execSkip (core : Nat) (s : State) : Host.Outcome State Fault Refusal :=
  .next (s.issue core (isOp 0x03) fun s w =>
    let k := s.core core
    let n := bits w 67 64
    let crosses := k.sq.loops.any fun l => decide (k.sq.pc + 1 ≤ l.stop) && decide (l.stop ≤ k.sq.pc + n)
    { mask := maskOf 67 64, codes := Psi.sub w == 0, always := true,
      checks := [(n == 0 || crosses, 0x0402), (decide (k.progLen ≤ k.sq.pc + n + 1), 0x0408)],
      order := fun q => q.advance q.pc (q.pc + n + 1) })

/-! ### Registers -/

/-- SEL.A: a bounded select between two address registers. -/
def execSelA (core : Nat) (s : State) : Host.Outcome State Fault Refusal :=
  s.runSimple core (isOp 0x04) (mD ||| mA ||| mB ||| mP) 0 (fun w q => q.setA (Psi.d w) (if q.p (Psi.p w) then q.a (Psi.a w) else q.a (Psi.b w)))
    (fun w => [Psi.p w])

/-- SEL.C: a bounded select between two counter registers. -/
def execSelC (core : Nat) (s : State) : Host.Outcome State Fault Refusal :=
  s.runSimple core (isOp 0x05) (mD ||| mA ||| mB ||| mP) 0 (fun w q => q.setC (Psi.d w) (if q.p (Psi.p w) then q.c (Psi.a w) else q.c (Psi.b w)))
    (fun w => [Psi.p w])

/-- MOVI.A: a 48-bit immediate. -/
def execMoviA (core : Nat) (s : State) : Host.Outcome State Fault Refusal :=
  s.runSimple core (isOp 0x06) (mD ||| maskOf 47 0) 0 (fun w q => q.setA (Psi.d w) (BitVec.ofNat 48 (bits w 47 0)))

/-- MOVI.C: a 32-bit immediate. -/
def execMoviC (core : Nat) (s : State) : Host.Outcome State Fault Refusal :=
  s.runSimple core (isOp 0x07) (mD ||| mImm) 0 (fun w q => q.setC (Psi.d w) (Psi.immWord w))

/-- ADD, modulo 2^32 (R64). -/
def execAdd (core : Nat) (s : State) : Host.Outcome State Fault Refusal :=
  s.runSimple core (isOp 0x08) (mD ||| mA ||| mB) 0 (fun w q => q.setC (Psi.d w) (q.c (Psi.a w) + q.c (Psi.b w)))

/-- SUB, modulo 2^32 (R64). -/
def execSub (core : Nat) (s : State) : Host.Outcome State Fault Refusal :=
  s.runSimple core (isOp 0x09) (mD ||| mA ||| mB) 0 (fun w q => q.setC (Psi.d w) (q.c (Psi.a w) - q.c (Psi.b w)))

/-- ADDI, modulo 2^32 (R64). -/
def execAddi (core : Nat) (s : State) : Host.Outcome State Fault Refusal :=
  s.runSimple core (isOp 0x0A) (mD ||| mA ||| mImm) 0 (fun w q => q.setC (Psi.d w) (q.c (Psi.a w) + Psi.immWord w))

/-- MULI: the low 32 bits of the product. -/
def execMuli (core : Nat) (s : State) : Host.Outcome State Fault Refusal :=
  s.runSimple core (isOp 0x0B) (mD ||| mA ||| mImm) 0 (fun w q => q.setC (Psi.d w) (q.c (Psi.a w) * Psi.immWord w))

/-- SHLI: a left shift by imm[4:0]. -/
def execShli (core : Nat) (s : State) : Host.Outcome State Fault Refusal :=
  s.runSimple core (isOp 0x0C) (mD ||| mA ||| maskOf 4 0) 0 (fun w q => q.setC (Psi.d w) (q.c (Psi.a w) <<< bits w 4 0))

/-- SHRI: a logical right shift by imm[4:0]. -/
def execShri (core : Nat) (s : State) : Host.Outcome State Fault Refusal :=
  s.runSimple core (isOp 0x0D) (mD ||| mA ||| maskOf 4 0) 0 (fun w q => q.setC (Psi.d w) (q.c (Psi.a w) >>> bits w 4 0))

/-- ANDI. -/
def execAndi (core : Nat) (s : State) : Host.Outcome State Fault Refusal :=
  s.runSimple core (isOp 0x0E) (mD ||| mA ||| mImm) 0 (fun w q => q.setC (Psi.d w) (q.c (Psi.a w) &&& Psi.immWord w))

/-- MINU: the unsigned minimum. -/
def execMinu (core : Nat) (s : State) : Host.Outcome State Fault Refusal :=
  s.runSimple core (isRest 0x0F [1]) (mD ||| mA ||| mB) 0 (fun w q => q.setC (Psi.d w) (if (q.c (Psi.a w)).ult (q.c (Psi.b w)) then q.c (Psi.a w) else q.c (Psi.b w)))

/-- MAXU: the unsigned maximum. -/
def execMaxu (core : Nat) (s : State) : Host.Outcome State Fault Refusal :=
  s.runSimple core (isSub 0x0F 1) (mD ||| mA ||| mB) 1 (fun w q => q.setC (Psi.d w) (if (q.c (Psi.a w)).ult (q.c (Psi.b w)) then q.c (Psi.b w) else q.c (Psi.a w)))

/-- ADDA: a counter register, zero or sign extended, added modulo 2^48 (R64). -/
def execAdda (core : Nat) (s : State) : Host.Outcome State Fault Refusal :=
  .next (s.issue core (isOp 0x10) fun _ w =>
    { mask := mD ||| mA ||| mB, codes := decide (Psi.sub w ≤ 1), order := inOrder,
      effect := fun s => s.modSq core fun q =>
        q.setA (Psi.d w) (q.a (Psi.a w) + (if bit w 96 then (q.c (Psi.b w)).signExtend 48 else (q.c (Psi.b w)).setWidth 48)) })

/-- ADDAI: a sign-extended immediate. -/
def execAddai (core : Nat) (s : State) : Host.Outcome State Fault Refusal :=
  s.runSimple core (isOp 0x11) (mD ||| mA ||| mImm) 0 (fun w q => q.setA (Psi.d w) (q.a (Psi.a w) + (Psi.immWord w).signExtend 48))

/-- MADA: A[a] + C[b] × imm, both zero extended, modulo 2^48. -/
def execMada (core : Nat) (s : State) : Host.Outcome State Fault Refusal :=
  s.runSimple core (isOp 0x12) (mD ||| mA ||| mB ||| mImm) 0 (fun w q => q.setA (Psi.d w) (q.a (Psi.a w) + (q.c (Psi.b w)).setWidth 48 * (Psi.immWord w).setWidth 48))

/-- MOV.CA: a zero-extended counter register. -/
def execMovCa (core : Nat) (s : State) : Host.Outcome State Fault Refusal :=
  s.runSimple core (isRest 0x13 [1]) (mD ||| mB) 0 (fun w q => q.setA (Psi.d w) ((q.c (Psi.b w)).setWidth 48))

/-- MOV.AC: the low 32 bits of an address register. -/
def execMovAc (core : Nat) (s : State) : Host.Outcome State Fault Refusal :=
  s.runSimple core (isSub 0x13 1) (mD ||| mA) 1 (fun w q => q.setC (Psi.d w) ((q.a (Psi.a w)).setWidth 32))

/-! ### Predicates -/

/-- One step of the SQ that belongs to a compare: `known` codes are assigned, and an assigned code the compare does not accept is
an illegal operand (R98). -/
def State.runCompare (s : State) (c op mask accepts : Nat) (f : Nat → Sequencer → Bool) : Host.Outcome State Fault Refusal :=
  .next (s.issue c (isOp op) fun _ w =>
    { mask := mask, codes := decide (Psi.sub w ≤ 5), names := [Psi.p w], checks := [(decide (accepts < Psi.sub w), 0x0402)],
      effect := fun s => s.modSq c fun q => q.setP (Psi.p w) (f w q), order := inOrder })

/-- CMP: P[p] ← C[a] cond C[b]. -/
def execCmp (core : Nat) (s : State) : Host.Outcome State Fault Refusal :=
  s.runCompare core 0x14 (mA ||| mB ||| mP) 5 fun w q => condWord (Psi.sub w) (q.c (Psi.a w)) (q.c (Psi.b w))

/-- CMPI: P[p] ← C[a] cond imm. -/
def execCmpi (core : Nat) (s : State) : Host.Outcome State Fault Refusal :=
  s.runCompare core 0x15 (mA ||| mP ||| mImm) 5 fun w q => condWord (Psi.sub w) (q.c (Psi.a w)) (Psi.immWord w)

/-- CMPA: P[p] ← A[a] cond A[b]; only codes 0 to 3. -/
def execCmpa (core : Nat) (s : State) : Host.Outcome State Fault Refusal :=
  s.runCompare core 0x16 (mA ||| mB ||| mP) 3 fun w q => condAddr (Psi.sub w) (q.a (Psi.a w)) (q.a (Psi.b w))

/-- Body bits of PLOG: three predicate fields and imm (Table 5.3). -/
def mPlog : Nat := maskOf 94 92 ||| maskOf 90 88 ||| maskOf 86 84 ||| mImm

/-- One step of the SQ that belongs to a PLOG function. -/
def State.runPlog (s : State) (c : Nat) (mine : Nat → Bool) (func : Nat) (f : Nat → Bool → Bool → Bool) :
    Host.Outcome State Fault Refusal :=
  s.runSimple c mine mPlog func
    (fun w q => q.setP (Psi.d w % 8) (f w (q.p (Psi.a w % 8)) (q.p (Psi.b w % 8))))
    (fun w => [Psi.d w % 8, Psi.a w % 8, Psi.b w % 8])

/-- PAND: P[d] ← AND. -/
def execPand (core : Nat) (s : State) : Host.Outcome State Fault Refusal :=
  s.runPlog core (isRest 0x17 [1, 2, 3, 4, 5]) 0 fun _ x y => x && y

/-- POR: P[d] ← OR. -/
def execPor (core : Nat) (s : State) : Host.Outcome State Fault Refusal :=
  s.runPlog core (isSub 0x17 1) 1 fun _ x y => x || y

/-- PXOR: P[d] ← XOR. -/
def execPxor (core : Nat) (s : State) : Host.Outcome State Fault Refusal :=
  s.runPlog core (isSub 0x17 2) 2 fun _ x y => x != y

/-- PANDN: P[d] ← AND NOT b. -/
def execPandn (core : Nat) (s : State) : Host.Outcome State Fault Refusal :=
  s.runPlog core (isSub 0x17 3) 3 fun _ x y => x && !y

/-- PNOT: P[d] ← NOT a. -/
def execPnot (core : Nat) (s : State) : Host.Outcome State Fault Refusal :=
  s.runPlog core (isSub 0x17 4) 4 fun _ x _ => !x

/-- PSET: P[d] ← imm[0]. -/
def execPset (core : Nat) (s : State) : Host.Outcome State Fault Refusal :=
  s.runPlog core (isSub 0x17 5) 5 fun w _ _ => bit w 0

/-! ### Special values -/

/-- RDS code 3: the low half of the GSC seen, with the whole value latched (R105). -/
def State.rdsGsc (s : State) (c d : Nat) : State :=
  let got := s.seenGsc
  let v := got.1
  let s := got.2
  s.modCore c fun k => { k with gscLatch := v, sq := k.sq.setC d (BitVec.ofNat 32 v) }

/-- RDS (R105). -/
def execRds (core : Nat) (s : State) : Host.Outcome State Fault Refusal :=
  .next (s.issue core (isOp 0x18) fun _ w =>
    { mask := mD, codes := decide (Psi.sub w ≤ 4), order := inOrder,
      effect := fun s =>
        match Psi.sub w with
        | 0 => s.modSq core fun q => q.setC (Psi.d w) (BitVec.ofNat 32 q.job)
        | 1 => s.modSq core fun q => q.setC (Psi.d w) (BitVec.ofNat 32 q.rank)
        | 2 => s.modSq core fun q => q.setC (Psi.d w) (BitVec.ofNat 32 q.ncores)
        | 3 => s.rdsGsc core (Psi.d w)
        | _ => s.modCore core fun k => { k with sq := k.sq.setC (Psi.d w) (BitVec.ofNat 32 (k.gscLatch / 2 ^ 32)) } })

/-- SETLDB: the loop-descriptor base must be a core scratch address on a 256-byte boundary. -/
def execSetldb (core : Nat) (s : State) : Host.Outcome State Fault Refusal :=
  .next (s.issue core (isOp 0x19) fun s w =>
    let v := ((s.core core).sq.a (Psi.a w)).toNat
    { mask := mA, codes := Psi.sub w == 0, order := inOrder,
      checks := [(v % 256 != 0, 0x0404), (decide (scratchSize ≤ v), 0x0403)],
      effect := fun s => s.modSq core fun q => { q with ldb := q.a (Psi.a w) } })

/-! ### The GSC alarm (R80, R106) -/

/-- The alarm of a core signals its events bound to code 6 and disarms (R80). -/
def State.fireAlarm (s : State) (c : Nat) : State :=
  let j := (s.core c).sq.job
  (s.modSq c fun q => { q with alarm := alarmOff }).signalCode j c 6

/-- Set the alarm target; a target that the GSC seen has reached signals at once. -/
def State.armAlarm (s : State) (c target seen : Nat) : State :=
  let s := s.modSq c fun q => { q with alarm := target }
  if target ≤ seen ∧ target ≠ alarmOff then s.fireAlarm c else s

/-- The three ALARM rows share their checks: no event of the job bound to source code 6 is an illegal operand (R106). -/
def State.runAlarm (s : State) (c : Nat) (mine : Nat → Bool) (mode : Nat) (f : Nat → State → State) :
    Host.Outcome State Fault Refusal :=
  .next (s.issue c mine fun s w =>
    { mask := mA ||| mB, codes := Psi.sub w == mode, checks := [(((s.core c).sq.boundTo 6).isEmpty, 0x0402)],
      effect := f w, order := inOrder })

/-- ALARM mode 0: the target is C[b]:C[a]. -/
def execAlarmSet (core : Nat) (s : State) : Host.Outcome State Fault Refusal :=
  s.runAlarm core (isRest 0x1A [1, 2]) 0 fun w s =>
    let q := (s.core core).sq
    let got := s.seenGsc
    let v := got.1
    let s := got.2
    s.armAlarm core ((q.c (Psi.b w)).toNat * 2 ^ 32 + (q.c (Psi.a w)).toNat) v

/-- ALARM mode 1: the target is the GSC seen plus C[a]. -/
def execAlarmRelative (core : Nat) (s : State) : Host.Outcome State Fault Refusal :=
  s.runAlarm core (isSub 0x1A 1) 1 fun w s =>
    let q := (s.core core).sq
    let got := s.seenGsc
    let v := got.1
    let s := got.2
    s.armAlarm core ((v + (q.c (Psi.a w)).toNat) % 2 ^ 64) v

/-- ALARM mode 2: disarmed. -/
def execAlarmDisarm (core : Nat) (s : State) : Host.Outcome State Fault Refusal :=
  s.runAlarm core (isSub 0x1A 2) 2 fun _ s => s.modSq core fun q => { q with alarm := alarmOff }

/-- GSC_ALARM_FIRE (R80): the GSC that the core sees has reached its target. It can have done so only once the GSC is past the
target by the least lag, and only while the SQ ring makes steps. -/
def execGscAlarmFire (core : Nat) (s : State) : Host.Outcome State Fault Refusal :=
  .next (
    let t := (s.core core).sq.alarm
    if t = alarmOff ∨ s.gsc < t + s.seenLag.1 ∨ s.flag Reg.PWR_SUPSTAT.hold ∨ s.fld Reg.PWR_THERM.state = 2 ∨ s.paceRate = 0 then s
    else s.fireAlarm core)

end Sys2Proof.Machine
end

