-- ==== Sys2Proof/Machine/Dpa.lean ====
section
/-! DEFINITION. The dot-product array: DPASS and its completion (chapters 05, 07 and 08). -/

namespace Sys2Proof.Machine

/-- Weights per unit K of a DPASS width code: 0 W2, 1 ternary, 2 W1, 3 W4 (Table 5.7). -/
def dpaK (width : Nat) : Nat := if width = 2 then 1024 else if width = 3 then 256 else 512

/-- Tile bytes: codes plus one scale per 32 weights (Table 5.7). -/
def dpaTile (width : Nat) : Nat := 16384 + 128 * (dpaK width / 32)

/-- Hem steps H (Table 5.7). -/
def dpaHem (width : Nat) : Nat := ceilDiv (dpaTile width) 512

/-- Value of a weight code, and whether it is an invalid ternary code (Table 7.3). -/
def weightOf (width code : Nat) : Int × Bool :=
  match width with
  | 0 => (2 * (code : Int) - 3, false)
  | 1 => if code = 1 then (1, false) else if code = 3 then (-1, false) else (0, code == 2)
  | 2 => (if code = 1 then 1 else -1, false)
  | _ => (signed 4 code, false)

/-- Bits of a weight code. -/
def codeBits (width : Nat) : Nat := if width = 2 then 1 else if width = 3 then 4 else 2

/-- The codes of a row of bytes, in the bit order of Table 7.4. -/
def rowCodes (width : Nat) (row : List Byte) : List Nat :=
  row.flatMap fun b => (List.range (8 / codeBits width)).map fun i => bits b.toNat (codeBits width * i + codeBits width - 1) (codeBits width * i)

/-- Cut a list into pieces of `n`, `k` of them. -/
def pieces {α : Type} (n : Nat) : Nat → List α → List (List α)
  | 0, _ => []
  | k + 1, l => l.take n :: pieces n k (l.drop n)

/-- The block product P_b of R151: exact, and zero where the scale is invalid (R153): then +0 whatever the scale's sign bit, while an S_b of
0 with a negative scale gives −0 (DESIGN CHOICE, log 119). -/
def blockProduct (weights acts : List Int) (scale : Fp) : Fp :=
  if scale.isNan then .fin false 0 0
  else
    let sum := (List.zipWith (· * ·) weights acts).sum
    Fp.mul (.fin (decide (sum < 0)) sum.natAbs 0) scale

/-- Tree levels of a width (R151). -/
def dpaLevels (width : Nat) : Nat := if width = 2 then 5 else if width = 3 then 3 else 4

/-- The pass sum t of one unit and one vector (R151). -/
def passSum (width : Nat) (weights : List (List Int)) (acts : List (List Int)) (scales : List Fp) : Fp :=
  (tree Fp.add (dpaLevels width)
    ((List.zip (List.zip weights acts) scales).map fun x => (blockProduct x.1.1 x.1.2 x.2, NumEvents.none))).1

/-- The output of one element: accumulated in FP32, or written in FP32 or BF16 (R151). -/
def dpaOut (o : DpaOp) (old t : Fp) : Nat × NumEvents :=
  if o.bf16 then
    let got := narrow bf16 t
    let v := got.1
    let e := got.2
    (encodeFp bf16 v, e)
  else if o.acc then
    let got := roundInternal fp32 (Fp.add old t)
    let v := got.1
    let e := got.2
    (encodeFp fp32 v, e)
  else (encodeFp fp32 t, .none)

/-- One unit of a loaded tile: its weights by block, and its scales. -/
structure DpaUnit where
  weights : List (List Int)
  scales : List Fp
  invalid : Nat
  deriving DecidableEq, Repr

/-! ### Banks, steering and the hem (R166, R172, R173, R180, R183) -/

/-- The parity of a word: whether its ones are odd in number. -/
def parityOf (w : Nat) : Bool := ((List.range 64).filter w.testBit).length % 2 == 1

/-- A word as a fill writes it, with its parity (R180). -/
def parityWord (bs : List Byte) : Nat × Bool := (ofBytes bs, parityOf (ofBytes bs))

/-- The enable and the unit of a spare column in SEQ_DPAREP. -/
def spareOf (k : Nat) : Field × Field :=
  match k with
  | 0 => (Reg.SEQ_DPAREP.c0_en, Reg.SEQ_DPAREP.c0_unit)
  | 1 => (Reg.SEQ_DPAREP.c1_en, Reg.SEQ_DPAREP.c1_unit)
  | 2 => (Reg.SEQ_DPAREP.c2_en, Reg.SEQ_DPAREP.c2_unit)
  | _ => (Reg.SEQ_DPAREP.c3_en, Reg.SEQ_DPAREP.c3_unit)

/-- The physical column that serves a logical unit of a core's array (R183). -/
def State.columnFor (s : State) (c unit : Nat) : Nat :=
  match (List.range 4).find? fun k => s.flag (spareOf k).1 c && s.fld (spareOf k).2 c == unit with
  | some k => 128 + k
  | none => unit

/-- The physical slice that serves a logical slice (R183). -/
def State.sliceFor (s : State) (c slice : Nat) : Nat :=
  if s.flag Reg.SEQ_DPAREP.row_en c && s.fld Reg.SEQ_DPAREP.row_slice c == slice then 8 else slice

/-- The logical unit a physical column serves, if any. -/
def State.unitAt (s : State) (c col : Nat) : Option Nat := (List.range 128).find? fun n => s.columnFor c n == col
/-- The logical slice a physical slice serves, if any. -/
def State.sliceAt (s : State) (c sl : Nat) : Option Nat := (List.range 8).find? fun i => s.sliceFor c i == sl

/-- A fill (R173, R183): every serving cell and scale bank takes its bytes of the tile; a column or slice set aside keeps what it holds. -/
def State.fillBank (s : State) (c width : Nat) (tile : List Byte) (old : DpaBank) : DpaBank :=
  let blocks := dpaK width / 32
  let piece (a : Nat) : Nat × Bool := parityWord ((tile.drop a).take 8)
  { codes := (List.range 2376).map fun i =>
      match s.unitAt c (i / 18), s.sliceAt c (i / 2 % 9) with
      | some n, some l => piece (128 * n + 16 * l + 8 * (i % 2))
      | _, _ => old.codes.getD i (0, false)
    scales := (List.range 528).map fun i =>
      match s.unitAt c (i / 4) with
      | some n => if 8 * (i % 4) < blocks then piece (16384 + n * blocks + 8 * (i % 4)) else old.scales.getD i (0, false)
      | none => old.scales.getD i (0, false) }

/-- The 128 code bytes that stages 2 and on take for a logical unit. -/
def State.bankCodes (s : State) (c : Nat) (b : DpaBank) (n : Nat) : List Byte :=
  (List.range 16).flatMap fun h => toBytes 8 (b.codes.getD (18 * s.columnFor c n + 2 * s.sliceFor c (h / 2) + h % 2) (0, false)).1

/-- The scale bytes of a logical unit. -/
def State.bankScales (s : State) (c width : Nat) (b : DpaBank) (n : Nat) : List Byte :=
  ((List.range 4).flatMap fun h => toBytes 8 (b.scales.getD (4 * s.columnFor c n + h) (0, false)).1).take (dpaK width / 32)

/-- Unit `n` of the live bank (Table 7.4), with the invalid codes and scales it holds (R153). -/
def State.dpaUnit (s : State) (c width : Nat) (b : DpaBank) (n : Nat) : DpaUnit :=
  let codes := (rowCodes width (s.bankCodes c b n)).map (weightOf width)
  let scales := (s.bankScales c width b n).map fun b => decodeFp fp8 b.toNat
  { weights := pieces 32 (dpaK width / 32) (codes.map (·.1)), scales := scales,
    invalid := (codes.filter (·.2)).length + (scales.filter (·.isNan)).length }

/-- An upset of a bit in a cell, or with slice 9 in the scale bank, of a physical column. -/
def DpaBank.upset (b : DpaBank) (col sl : Nat) : DpaBank :=
  let flip (w : Nat × Bool) : Nat × Bool := (w.1 ^^^ 1, w.2)
  if sl < 9 then { b with codes := b.codes.mapIdx fun i w => if i = 18 * col + 2 * sl then flip w else w }
  else { b with scales := b.scales.mapIdx fun i w => if i = 4 * col then flip w else w }

/-- The first place, unit by unit, where a read of the live bank meets a word whose parity does not hold (R180): its column, and its slice
or 9 for the scale bank. -/
def State.bankError (s : State) (c width : Nat) (b : DpaBank) : Option (Nat × Nat) :=
  let bad (w : Nat × Bool) : Bool := parityOf w.1 != w.2
  let places : List (Nat × Nat × Bool) := (List.range 128).flatMap fun n =>
    let col := s.columnFor c n
    ((List.range 16).map fun h => (col, s.sliceFor c (h / 2), bad (b.codes.getD (18 * col + 2 * s.sliceFor c (h / 2) + h % 2) (0, false)))) ++
      (List.range (ceilDiv (dpaK width / 32) 8)).map fun h => (col, 9, bad (b.scales.getD (4 * col + h) (0, false)))
  (places.find? (·.2.2)).map fun x => (x.1, x.2.1)

/-- What an engine reads of bytes that another engine has written since: each 64-byte chunk is all old or all new (R69). -/
def State.racedBytes (s : State) (old now : List Byte) : List Byte :=
  if old = now then now
  else (List.range (ceilDiv now.length 64)).flatMap fun i =>
    (((if Config.raceNew s.freeCount i then now else old).drop (64 * i)).take 64)

/-- The fill of a pass into the shadow banks: the bytes of its tile as they stand now (R173). -/
def State.fillShadow (s : State) (c : Nat) (o : DpaOp) : State :=
  let tile := s.scratchGet c o.aw (dpaTile o.width)
  s.modCore c fun k => { k with shadow := s.fillBank c o.width tile k.shadow, dpa := k.dpa.map fun y => if y = o then { y with tile := tile } else y }

/-- The hem: live and shadow banks change places (R172). -/
def Core.hem (k : Core) : Core := { k with live := k.shadow, shadow := k.live }

/-- A pass joins the queue: into an idle array it is filled and becomes live, behind a streaming pass it is filled, behind two it waits. -/
def State.pushDpa (s : State) (c : Nat) (o : DpaOp) : State :=
  let n := (s.core c).dpa.length
  let s := s.modCore c fun k => { k with dpa := k.dpa ++ [o] }
  if n = 0 then (s.fillShadow c o).modCore c Core.hem else if n = 1 then s.fillShadow c o else s

/-- The oldest pass has left the array: the next one's banks become live, and the pass after it is filled. -/
def State.popDpa (s : State) (c : Nat) : State :=
  match (s.core c).dpa with
  | [] => s
  | [_] => s.modCore c fun k => { k with dpa := [] }
  | _ :: a :: rest =>
    let s := s.modCore c fun k => { k.hem with dpa := a :: rest }
    match rest with
    | [] => s
    | b :: _ => s.fillShadow c b

/-! ### Results (R151) -/

/-- Bytes of one output element. -/
def DpaOp.outBytes (o : DpaOp) : Nat := if o.bf16 then 2 else 4

/-- The pass sums of vector `m`: what the accumulator of each unit's column holds (R169). -/
def DpaOp.sums (o : DpaOp) (units : List DpaUnit) (acts : List Byte) (m : Nat) : List Fp :=
  let k := dpaK o.width
  let xs := pieces 32 (k / 32) (((acts.drop (k * m)).take k).map fun b => signed 8 b.toNat)
  units.map fun u => passSum o.width u.weights xs u.scales

/-- Output vector `m` of a pass: its bytes and its events. -/
def State.dpaVector (s : State) (c : Nat) (o : DpaOp) (units : List DpaUnit) (acts : List Byte) (m : Nat) : List Byte × NumEvents :=
  let outs := (List.zip (List.range 128) (o.sums units acts m)).map fun x =>
    dpaOut o (decodeFp fp32 (ofBytes (s.scratchGet c (o.ay + 512 * m + 4 * x.1) 4))) x.2
  (outs.flatMap fun x => toBytes o.outBytes x.1, NumEvents.total (outs.map (·.2)))

/-- The units of a bank. -/
def State.dpaUnits (s : State) (c width : Nat) (b : DpaBank) : List DpaUnit := (List.range 128).map fun n => s.dpaUnit c width b n

/-- The first `n` vectors of a pass: what it writes and what it counts (R151, R153). -/
def State.dpaResult (s : State) (c : Nat) (o : DpaOp) (b : DpaBank) (acts : List Byte) (n : Nat) : List Byte × NumEvents :=
  let units := s.dpaUnits c o.width b
  let vecs := (List.range n).map fun m => s.dpaVector c o units acts m
  (vecs.flatMap (·.1), (NumEvents.total (vecs.map (·.2))).add ⟨0, 0, (units.map (·.invalid)).sum⟩)

/-- The banks the oldest pass multiplies with. Where the tile's bytes in scratch have changed since its fill, against R175, the fill may
have met either. -/
def State.liveBank (s : State) (c : Nat) (o : DpaOp) : DpaBank :=
  let now := s.scratchGet c o.aw (dpaTile o.width)
  if o.tile = now then (s.core c).live else s.fillBank c o.width (s.racedBytes o.tile now) (s.core c).live

/-- The activations of the oldest pass, each vector as it enters the array; a chunk changed since the issue gives either content (R175). -/
def State.liveActs (s : State) (c : Nat) (o : DpaOp) : List Byte := s.racedBytes o.acts (s.scratchGet c o.ax (dpaK o.width * o.m))

/-- The first `n` vectors of a pass leave the array: their results reach scratch, their events are counted, and the accumulators hold the
sums of the last one. The invalid codes and scales of the tile count whole, however many vectors came out (DESIGN CHOICE, log 118). -/
def State.dpaWrite (s : State) (c : Nat) (o : DpaOp) (b : DpaBank) (n : Nat) : State :=
  let acts := s.liveActs c o
  let got := s.dpaResult c o b acts n
  let sums := if n = 0 then [] else o.sums (s.dpaUnits c o.width b) acts (n - 1)
  let accs := (List.zip (List.range 128) sums).map fun x => (s.columnFor c x.1, encodeFp fp32 x.2)
  { ((s.scratchPut c o.ay got.1).countNumeric c 1 o.index got.2).modCore c fun k =>
      { k with live := b, accs := accs.foldl (fun t x => Table.put t x.1 x.2) k.accs } with freeCount := s.freeCount + 1 }

/-- DPASS (R110, R111). -/
def execDpass (core : Nat) (s : State) : Host.Outcome State Fault Refusal :=
  .next (s.issue core (isOp 0x20) fun s w =>
    let width := bits w 97 96
    let out := bits w 99 98
    let aw := s.addr core (Psi.d w)
    let ax := s.addr core (Psi.a w)
    let ay := s.addr core (Psi.b w)
    let m := s.cnt core (Psi.f80 w)
    let k := s.core core
    let nw := dpaTile width
    let nx := dpaK width * m
    let ny := (if out = 1 then 256 else 512) * m
    { mask := mD ||| mA ||| mB ||| mF80 ||| maskOf 79 76, codes := decide (Psi.sub w < 16) && decide (out ≤ 1),
      names := if bit w 79 then [bits w 78 76] else [],
      full := decide (4 ≤ k.dpa.length), atIssue := false, order := inOrder,
      checks := [(aw % 64 != 0 || ax % 64 != 0 || ay % 64 != 0, 0x0404),
        (decide (m < 1) || decide (16320 < m) || (out == 1 && bit w 79), 0x0402),
        (outsideScratch aw || outsideScratch ax || outsideScratch ay, 0x0403),
        (pastScratch aw nw || pastScratch ax nx || pastScratch ay ny, 0x0409),
        (overlap ay ny aw nw || overlap ay ny ax nx, 0x0402)],
      effect := fun s => s.pushDpa core
        { index := k.sq.pc, width := width, bf16 := out == 1, aw := aw, ax := ax, ay := ay, m := m,
          acc := bit w 79 && (s.core core).sq.p (bits w 78 76), signal := Psi.signal w, tile := [],
          acts := s.scratchGet core ax (dpaK width * m) } })

/-- The C-die rings make steps: no supply hold, no thermal hold, and the module has not stopped (R429, R444, R493). -/
def State.ringsRun (s : State) : Bool :=
  !s.stopped && !s.flag Reg.PWR_SUPSTAT.hold && s.fld Reg.PWR_THERM.state != 2

/-- Charge DPA steps to the job on a core: whole units of 1,024 go to its entry (R355). -/
def State.chargeDpa (s : State) (c n : Nat) : State :=
  let t := (s.core c).fracDpa + n
  (s.modCore c fun k => { k with fracDpa := t % 1024 }).modJob (s.core c).sq.job fun j =>
    { j with dpaKs := j.dpaKs + t / 1024, steps := j.steps + n }

/-- Once every operation of a core has drained, its engines return to normal after a parity error (R180, R202). -/
def Core.settleParity (k : Core) : Core :=
  if k.empty then { k with dpaBad := false, vrwBad := false } else k

/-- DPASS_COMPLETE (R112, R158): every output of the oldest pass is in scratch, its events are counted, and it signals. After a bank
parity error (`parity`: a bit of the live banks is upset as that vector enters) the vectors from the one that found it on are not written,
and the core faults (R180). A stopped pass, and each later pass of the faulted job, gives no signal (DESIGN CHOICE, log 118). -/
def execDpassComplete (core : Nat) (parity : Option DpaParity) (s : State) : Host.Outcome State Fault Refusal :=
  .next (match (s.core core).dpa with
    | [] => s
    | o :: _ =>
      if !s.ringsRun then s
      else
        let s := s.chargeDpa core (o.m + dpaHem o.width)
        let s :=
          if (s.core core).dpaBad then s
          else
            let good := s.liveBank core o
            let bank := (parity.map fun p => good.upset p.column p.slice).getD good
            match s.bankError core o.width bank with
            | none => (s.dpaWrite core o bank o.m).signalOwn core 1 o.index o.signal
            | some e =>
              let n := (parity.map fun p => min p.vector o.m).getD 0
              ((s.dpaWrite core o good n).modCore core fun k => { k with dpaBad := true, live := bank }).hardwareFault core 0x0102 [e.1, e.2]
        ((s.popDpa core).modCore core Core.settleParity).restCore core)

end Sys2Proof.Machine
end

