-- ==== Sys2Proof/Machine/Mover.lean ====
section
/-! DEFINITION. The movers: MOVL, MFILL and MOVD, the walk of a descriptor table, and the beats (chapters 05, 06 and 10). -/

namespace Sys2Proof.Machine

/-! ### Descriptor tables (R124 to R126) -/

/-- Level `n` of a table, from its 256 bytes (Table 6.2). -/
def levelAt (bs : List Byte) (n : Nat) : Level :=
  let o := 0x40 + 32 * n
  { count := numAt bs o 4, dim := numAt bs (o + 4) 1, src := signed 64 (numAt bs (o + 8) 8), dst := signed 64 (numAt bs (o + 16) 8),
    plist := signed 32 (numAt bs (o + 24) 4) }

/-- A table from its 256 bytes (Table 6.1). -/
def Descriptor.ofBytes (bs : List Byte) : Descriptor :=
  let flags := numAt bs 6 1
  { run := numAt bs 0 4, nlev := numAt bs 4 1, tileLevel := numAt bs 5 1, elide := bit flags 0, plistDst := bit flags 1,
    nullZero := bit flags 2, plistLen := numAt bs 8 4, plistSpan := numAt bs 0x10 8, levels := (List.range 6).map (levelAt bs) }

/-- A reserved field of the header or of a used level is not zero, or a level at or above nlev is not all zero (Table 6.4): its plist_stride
too, plist or not, though R125 lets a plist_stride hold any value where plist is 0 (DESIGN CHOICE, log 120). -/
def tableReserved (bs : List Byte) : Bool :=
  let nlev := numAt bs 4 1
  numAt bs 6 1 ≥ 8 || numAt bs 7 1 != 0 || numAt bs 0xC 4 != 0 || numAt bs 0x18 40 != 0 ||
    (List.range 6).any fun n =>
      let o := 0x40 + 32 * n
      if n < nlev then numAt bs (o + 5) 3 != 0 || numAt bs (o + 0x1C) 4 != 0 else numAt bs o 32 != 0

/-- The levels in use. -/
def Descriptor.used (t : Descriptor) : List Level := t.levels.take t.nlev

/-- Hull of Σ i × stride over the walk: its least and greatest value (R132). -/
def hull (levels : List Level) (stride : Level → Int) : Int × Int :=
  levels.foldl (fun h l =>
    let x := ((l.count : Int) - 1) * stride l
    (h.1 + min 0 x, h.2 + max 0 x)) (0, 0)

/-- A range of program addresses, which may leave the address space on either side. -/
structure Box where
  lo : Int
  hi : Int
  deriving DecidableEq, Repr

/-- The box of a side of a walk (R132). -/
def Descriptor.box (t : Descriptor) (base : Nat) (stride : Level → Int) (listed : Bool) : Box :=
  let h := hull t.used stride
  let hi := (base : Int) + h.2 + (t.run : Int)
  ⟨(base : Int) + h.1, if listed then hi + (t.plistSpan : Int) - 64 else hi⟩

/-- Two boxes of one store overlap. -/
def Box.meets (x y : Box) : Bool :=
  0 ≤ x.lo && 0 ≤ y.lo && x.lo < y.hi && y.lo < x.hi &&
    (match locate x.lo.toNat, locate y.lo.toNat with
     | some (a, _), some (b, _) => a == b
     | _, _ => false)

/-- A job of a core may not reach a box with a right (R67, R68, R88), or the box meets the cloak area or a lent range (R208, R219). -/
def State.barred (s : State) (c : Nat) (x : Box) (write : Bool) : Bool :=
  if x.lo < 0 then true
  else
    let a := x.lo.toNat
    let n := (x.hi - x.lo).toNat
    !s.mayReach c a n write ||
      (match locate a with
       | some (.t1, o) => s.inCloak o n || s.isLent o n
       | _ => false)

/-! ### The walk (R128 to R130, R139) -/

/-- Index vectors in walk order: the first level changes fastest. -/
def indices : List Nat → List (List Nat)
  | [] => [[]]
  | c :: r => (indices r).flatMap fun t => (List.range c).map fun i => i :: t

/-- Σ i × stride of one index vector. -/
def dot (ix : List Nat) (strides : List Int) : Int := (List.zipWith (fun (i : Nat) (x : Int) => (i : Int) * x) ix strides).foldl (· + ·) 0

/-- An entry the mover treats as null (R130). -/
def nullEntry (span e : Nat) : Bool := decide (2 ^ 48 ≤ e) || e % 64 != 0 || decide (span ≤ e)

/-- A level is elided (R139). With no pointer list the mover ignores plist_stride (R125). -/
def Descriptor.elided (t : Descriptor) (list : Bool) (l : Level) : Bool :=
  t.elide && l.src == 0 && l.dst == 0 && (!list || l.plist == 0)

/-- What a run does: skipped, or bytes from a source (none for fill bytes) to a destination. -/
abbrev Run := Option (Option Nat × Nat)

/-- One run of a walk. -/
def Descriptor.runAt (t : Descriptor) (list : Option (List Nat)) (dst src : Nat) (ix : List Nat) : Run :=
  let skip := (List.zip ix t.used).any fun x => x.1 != 0 && t.elided list.isSome x.2
  let a := (src : Int) + dot ix (t.used.map (·.src))
  let d := (dst : Int) + dot ix (t.used.map (·.dst))
  if skip then none
  else match list with
    | none => some (some a.toNat, d.toNat)
    | some es =>
      let e := es.getD (dot ix (t.used.map (·.plist))).toNat (2 ^ 63)
      if nullEntry t.plistSpan e then (if !t.plistDst && t.nullZero then some (none, d.toNat) else none)
      else if t.plistDst then some (some a.toNat, d.toNat + e)
      else some (some (a.toNat + e), d.toNat)

/-- The runs of an operation in order: MOVL and MFILL have one. -/
def MoverOp.runs (o : MoverOp) : List Run :=
  match o.kind with
  | .movl => [some (some o.src, o.dst)]
  | .mfill _ => [some (none, o.dst)]
  | .movd t list _ => (indices (t.used.map (·.count))).map (t.runAt list o.dst o.src)

/-- Bytes of a run. -/
def MoverOp.runBytes (o : MoverOp) : Nat :=
  match o.kind with
  | .movd t _ _ => t.run
  | _ => o.len

/-- Bytes of the whole operation (R134). -/
def MoverOp.bytes (o : MoverOp) : Nat := (o.runs.filter Option.isSome).length * o.runBytes

/-- The 64-byte chunks of beat `b`, at most four: source and destination (R134). -/
def MoverOp.beatAt (o : MoverOp) (b : Nat) : List (Option Nat × Nat) :=
  let live := o.runs.filterMap id
  let per := o.runBytes / 64
  (span (4 * b) (min (4 * b + 4) (live.length * per))).filterMap fun j =>
    (live[j / per]?).map fun r => (r.1.map (· + 64 * (j % per)), r.2 + 64 * (j % per))

/-- The chunks of the oldest beat that has not completed. -/
def MoverOp.beat (o : MoverOp) : List (Option Nat × Nat) := o.beatAt o.beats

/-- The 64 fill bytes: the pattern of MFILL, zeros in a MOVD. -/
def MoverOp.fill (o : MoverOp) : List Byte :=
  match o.kind with
  | .mfill p => (List.replicate 16 (toBytes 4 p)).flatten
  | _ => List.replicate 64 0

/-- Leading runs that are complete once `done` bytes have moved. -/
def runsDone (run : Nat) : Nat → List Run → Nat
  | _, [] => 0
  | done, none :: r => 1 + runsDone run done r
  | done, some _ :: r => if run ≤ done then 1 + runsDone run (done - run) r else 0

/-- Runs of one tile (R138). -/
def Descriptor.tileRuns (t : Descriptor) : Nat := ((t.used.take t.tileLevel).map (·.count)).foldl (· * ·) 1

/-- Tiles complete after `n` beats. -/
def MoverOp.tilesAfter (o : MoverOp) (n : Nat) : Nat :=
  match o.kind with
  | .movd t _ (some _) => runsDone o.runBytes (256 * n) o.runs / t.tileRuns
  | _ => 0

/-! ### Issue (R116, R117, R133) -/

/-- Which mover a word names. -/
def Psi.mover (w : Nat) : Nat := bits w 96 96

/-- The queue of a mover. -/
def Core.moverQueue (k : Core) (m : Nat) : List MoverOp := if m = 0 then k.mover0 else k.mover1
/-- Store the queue of a mover. -/
def Core.setMover (k : Core) (m : Nat) (l : List MoverOp) : Core := if m = 0 then { k with mover0 := l } else { k with mover1 := l }

/-! ### Tiers of a beat -/

/-- The tier of a program address: 0 for core scratch and cluster SRAM. -/
def tierOf (a : Nat) : Nat :=
  match locate a with
  | some (.t1, _) => 1
  | some (.t2, _) => 2
  | some (.t3, _) => 3
  | _ => 0

/-- The tier that a beat reads, and the one it writes. -/
def srcTier (beat : List (Option Nat × Nat)) : Nat := beat.foldl (fun t x => max t ((x.1.map tierOf).getD 0)) 0
/-- The tier that a beat writes. -/
def dstTier (beat : List (Option Nat × Nat)) : Nat := beat.foldl (fun t x => max t (tierOf x.2)) 0

/-- The tier of a beat: the farthest that its chunks touch (DEDUCED, log entry 9). -/
def beatTier (beat : List (Option Nat × Nat)) : Nat := max (srcTier beat) (dstTier beat)

/-- Most beats a mover keeps outstanding: 16 to T0 and T1, 256 to T2 and T3 (R204). -/
def MoverOp.limit (o : MoverOp) : Nat := if 2 ≤ beatTier (o.beatAt 0) then 256 else 16

/-- A T1 chunk of a beat misses its staging cache. -/
def State.beatMisses (s : State) (beat : List (Option Nat × Nat)) : Bool :=
  let hit (a : Nat) : Bool := match locate a with
    | some (.t1, o) => !s.misses o 64
    | _ => true
  beat.any fun x => !hit x.2 || !(x.1.map hit).getD true

/-- A beat can wait on a cause of Table 10.2 (R204, R225): 0 where it touches cluster SRAM, 1 and 4 where it touches T1, 2 and 3 where it
misses there, 5 and 6 on T2, 7 on T3, and 8 for a read of T3, or the read-back. -/
def State.canWait (s : State) (beat : List (Option Nat × Nat)) (readback : Bool) (cause : Nat) : Bool :=
  let on (t : Nat) : Bool := beat.any fun x => tierOf x.2 == t || (x.1.map tierOf).getD 0 == t
  if cause = 0 then on 0
  else if cause = 1 ∨ cause = 4 then on 1
  else if cause = 2 ∨ cause = 3 then on 1 && s.beatMisses beat
  else if cause = 5 ∨ cause = 6 then on 2
  else if cause = 7 then on 3
  else cause == 8 && (srcTier beat == 3 || readback)

/-- The waits of a beat, as far as it can have them. -/
def State.waitsOf (s : State) (beat : List (Option Nat × Nat)) (readback : Bool) (waits : List (Nat × Nat)) : List (Nat × Nat) :=
  waits.filter fun w => s.canWait beat readback w.1

/-- The wait of a beat reaches the stall timeout of its tier; T0 has none (R230). -/
def State.timedOut (s : State) (waits : List (Nat × Nat)) (tier : Nat) : Bool :=
  tier != 0 && decide (1000 * s.fld Reg.MEM_STALLTO.timeout_us (tier - 1) ≤ wholeWait waits)

/-! ### Accesses that cannot be made -/

/-- The module cannot make an access of one chunk now: a read of a poisoned T1 chunk (R217), T3 while en is 0 (R224), or, for a beat not yet
sent, T2 where it may not be sent. -/
def State.cannot (s : State) (a : Nat) (write sent : Bool) : Bool :=
  match locate a with
  | some (.t1, o) => !write && s.isPoisoned o 64
  | some (.t2, _) => !sent && !s.t2Open a 64
  | some (.t3, _) => !s.flag Reg.MEM_T3BASE.en
  | _ => false

/-- Some access of a beat cannot be made. -/
def State.beatFails (s : State) (beat : List (Option Nat × Nat)) (sent : Bool) : Bool :=
  beat.any fun x => s.cannot x.2 true sent || (x.1.map fun a => s.cannot a false sent).getD false

/-- A chunk of a beat lies in a lent range or in the cloak area (R208, R219). -/
def State.beatBarred (s : State) (beat : List (Option Nat × Nat)) : Bool :=
  let shut (a : Nat) : Bool := match locate a with
    | some (.t1, o) => s.isLent o 64 || s.inCloak o 64
    | _ => false
  beat.any fun x => shut x.2 || (x.1.map shut).getD false

/-! ### Sending beats (R204, R219) -/

/-- Change the operation at the head of a mover's queue. -/
def State.modHead (s : State) (c m : Nat) (f : MoverOp → MoverOp) : State :=
  s.modCore c fun k => k.setMover m (match k.moverQueue m with
    | o :: r => f o :: r
    | [] => [])

/-- The operation at the head of a mover's queue. -/
def State.moverHead (s : State) (c m : Nat) : Option MoverOp := ((s.core c).moverQueue m).head?

/-- Numbered chunks put together where their addresses follow on and `same` holds: first chunk, address, and how many (R219). -/
def joinChunks (same : Nat → Nat → Bool) : List (Nat × Nat) → List (Nat × Nat × Nat)
  | [] => []
  | (i, a) :: r =>
    match joinChunks same r with
    | (j, b, n) :: t => if j = i + 1 ∧ b = a + 64 ∧ same a b then (i, a, n + 1) :: t else (i, a, 1) :: (j, b, n) :: t
    | [] => [(i, a, 1)]

/-- The request for a range of T2: a remote load or store by a mover of the job (R219, Table 17.1). -/
def State.farPacket (s : State) (core ptype a lines : Nat) (bytes : List Byte) : Packet :=
  { s.borrowPacket ptype a lines bytes with job := (s.core core).sq.job, kind := 1, unit := core }

/-- The T2 ranges of one side of a beat, one request each. -/
def State.farRuns (s : State) (xs : List (Nat × Nat)) : List (Nat × Nat × Nat) :=
  joinChunks (fun a b => s.t2Entry a 64 == s.t2Entry b 64) xs

/-- The numbered chunks that a beat reads. -/
def sources (beat : List (Option Nat × Nat)) : List (Nat × Nat) :=
  (beat.mapIdx fun k x => (k, x.1)).filterMap fun x => x.2.map fun a => (x.1, a)

/-- The numbered chunks that a beat writes. -/
def targets (beat : List (Option Nat × Nat)) : List (Nat × Nat) := beat.mapIdx fun k x => (k, x.2)

/-- The data of chunk `k`. -/
def chunkData (data : List (Nat × List Byte)) (k : Nat) : List Byte := ((data.find? fun x => x.1 == k).map (·.2)).getD (List.replicate 64 0)

/-- Send the remote loads of a beat. -/
def State.sendLoads (s : State) (c m num b : Nat) (beat : List (Option Nat × Nat)) : State :=
  let runs := s.farRuns (sources beat)
  let s := s.modHead c m fun o => { o with far := o.far ++ [(⟨b, false, runs.length, []⟩ : FarBeat)] }
  runs.foldl (fun s x => s.sendRequest (s.farPacket c 1 x.2.1 x.2.2 []) (.mover c m num b x.1) 0) s

/-- Send the remote stores of a beat with its data. -/
def State.sendStores (s : State) (c m num b : Nat) (beat : List (Option Nat × Nat)) (data : List (Nat × List Byte)) : State :=
  let runs := s.farRuns (targets beat)
  let s := s.modHead c m fun o =>
    { o with far := (o.far.filter fun x => x.beat != b) ++ [(⟨b, true, runs.length, []⟩ : FarBeat)] }
  runs.foldl (fun s x =>
    s.sendRequest (s.farPacket c 2 x.2.1 x.2.2 ((List.range x.2.2).flatMap fun i => chunkData data (x.1 + i)))
      (.mover c m num b x.1) 0) s

/-- One chunk of a beat is read within the module, or from host memory. -/
def State.readChunk (s : State) (core : Nat) (o : MoverOp) (src : Option Nat) (arrived : List Byte) : List Byte × State :=
  match src with
  | none => (o.fill, s)
  | some a =>
    match locate a with
    | some (.t1, off) => s.t1Read off 64
    | _ => (s.progGet core a 64 arrived, s)

/-- The data of every chunk of a beat, in order; `arrived` holds what host memory brought, `far` what T2 brought. -/
def State.readBeat (s : State) (core : Nat) (o : MoverOp) (far : List (Nat × List Byte)) :
    List (Nat × Option Nat × Nat) → List Byte → List (Nat × List Byte) × State
  | [], _ => ([], s)
  | (k, a, _) :: r, arrived =>
    let t := (a.map tierOf).getD 0
    let got := if t = 2 then (chunkData far k, s) else s.readChunk core o a arrived
    let rest := got.2.readBeat core o far r (if t = 3 then arrived.drop 64 else arrived)
    ((k, got.1) :: rest.1, rest.2)

/-- The reads of host memory that a beat makes, at most 4 KiB each (R224). -/
def State.askHost (s : State) (xs : List (Nat × Nat)) : State :=
  (joinChunks (fun _ _ => true) xs).foldl (fun s x => match locate x.2.1 with
    | some (.t3, o) => s.emit (.hostRead (s.hostAt o) (64 * x.2.2))
    | _ => s) s

/-- Send the next beat of the operation at a mover's head, where one is left, the limit of R204 allows it, and it can be made. -/
def State.sendBeat (s : State) (c m : Nat) : Option State :=
  match s.moverHead c m with
  | none => none
  | some o =>
    let beat := o.beatAt o.sent
    if beat.isEmpty || decide (o.limit ≤ o.sent - o.beats) || s.beatFails beat false || s.beatBarred beat then none
    else
      let s := s.modHead c m fun o => { o with sent := o.sent + 1 }
      some (
        if srcTier beat = 2 then s.sendLoads c m o.num o.sent beat
        else if srcTier beat = 3 then s.askHost (sources beat)
        else if dstTier beat = 2 then
          let got := s.readBeat c o [] (beat.mapIdx fun k x => (k, x)) []
          got.2.sendStores c m o.num o.sent beat got.1
        else s)

/-- Send what a mover may send: nothing for a core at a pre-emption point (R91), or while its ring makes no step. -/
def State.sendBeats (s : State) (c m : Nat) : Nat → State
  | 0 => s
  | n + 1 =>
    if !s.ringsRun || (s.core c).frozen then s
    else match s.sendBeat c m with
      | some s => s.sendBeats c m n
      | none => s

/-- The tiles complete so far signal once each, in order (R138). -/
def State.signalTiles (s : State) (c m : Nat) : State :=
  match s.moverHead c m with
  | none => s
  | some o =>
    match o.kind with
    | .movd _ _ (some te) =>
      let n := o.tilesAfter o.beats
      let s := s.modHead c m fun o => { o with tiles := max o.tiles n }
      (List.range (n - o.tiles)).foldl (fun s _ => s.signalOwn c (3 + m) o.index (some te)) s
    | _ => s

/-- A mover takes up the operation at its head: leading tiles that write no byte are complete (R138), and beats go out. -/
def State.runMover (s : State) (c m : Nat) : State := (s.signalTiles c m).sendBeats c m 256

/-- Put an operation in a mover's queue; it begins where no other is before it. -/
def State.pushMover (s : State) (c m : Nat) (o : MoverOp) : State :=
  let first := ((s.core c).moverQueue m).isEmpty
  let s := { s with fabNext := s.fabNext + 1 }.modCore c fun k => k.setMover m (k.moverQueue m ++ [{ o with num := s.fabNext }])
  if first then s.runMover c m else s

/-- Both movers of a core go on where a pre-emption point or a quiesce had stopped them (R91, R364). -/
def State.runMovers (s : State) (c : Nat) : State := (s.runMover c 0).runMover c 1

/-- What MOVL and MFILL share: lengths, alignment and the box of each side. -/
def State.linearPlan (s : State) (core w : Nat) (fill : Bool) : Plan :=
  let d := s.addr core (Psi.d w)
  let a := s.addr core (Psi.a w)
  let n := s.cnt core (Psi.b w)
  let db : Box := ⟨d, d + n⟩
  let sb : Box := ⟨a, a + n⟩
  let kind := if fill then MoverKind.mfill (Psi.imm w) else MoverKind.movl
  { mask := mD ||| mB ||| (if fill then mImm else mA), codes := decide (Psi.sub w < 2), atIssue := false, order := inOrder,
    full := decide (4 ≤ ((s.core core).moverQueue (Psi.mover w)).length),
    checks := [(d % 64 != 0 || n % 64 != 0 || (!fill && a % 64 != 0), 0x0404), (n == 0, 0x0402),
      (s.barred core db true || (!fill && s.barred core sb false), 0x0403), (!fill && overlap d n a n, 0x0402)],
    effect := fun s => s.pushMover core (Psi.mover w)
      ⟨(s.core core).sq.pc, kind, d, if fill then 0 else a, n, 0, 0, Psi.signal w, 0, 0, [], false⟩ }

/-- MOVL (R116). -/
def execMovl (core : Nat) (s : State) : Host.Outcome State Fault Refusal :=
  .next (s.issue core (isOp 0x50) fun s w => s.linearPlan core w false)

/-- MFILL (R116). -/
def execMfill (core : Nat) (s : State) : Host.Outcome State Fault Refusal :=
  .next (s.issue core (isOp 0x52) fun s w => s.linearPlan core w true)

/-- Table 6.4: misalignment. -/
def Descriptor.misaligned (t : Descriptor) : Bool := t.run % 64 != 0 || t.used.any fun l => l.src % 64 != 0 || l.dst % 64 != 0

/-- Table 6.4: the conditions with cause 0x0402 other than an overlap. -/
def Descriptor.illegal (t : Descriptor) (bs : List Byte) (list : Bool) : Bool :=
  tableReserved bs || (t.used.any fun l => decide (6 < l.dim)) || t.nlev == 0 || decide (6 < t.nlev) || decide (t.nlev < t.tileLevel) ||
    decide (t.run < 64) || decide (4194304 < t.run) || (t.used.any fun l => l.count == 0 || decide (65536 < l.count)) ||
    decide (16777216 < (t.used.map (·.count)).foldl (· * ·) 1) ||
    (list && (t.plistLen == 0 || decide (4096 < t.plistLen) || decide (t.plistSpan < 64) || decide (2 ^ 47 < t.plistSpan) ||
      t.plistSpan % 64 != 0 || decide ((hull t.used (·.plist)).1 < 0) || decide ((t.plistLen : Int) ≤ (hull t.used (·.plist)).2)))

/-- MOVD (R116, R127, R131 to R133): the table and the list are read as it issues. A table past the end of core scratch is an illegal
operand, and nothing of it is read. -/
def execMovd (core : Nat) (s : State) : Host.Outcome State Fault Refusal :=
  .next (s.issue core (isOp 0x51) fun s w =>
    let d := s.addr core (Psi.d w)
    let a := s.addr core (Psi.a w)
    let p := s.addr core (Psi.f80 w)
    let list := bit w 71
    let at' := (s.core core).sq.ldb.toNat + 256 * bits w 79 72
    let fits := decide (at' + 256 ≤ scratchSize)
    let bs := if fits then s.scratchGet core at' 256 else List.replicate 256 0
    let t := Descriptor.ofBytes bs
    let es := (List.range t.plistLen).map fun i => ofBytes (s.scratchGet core (p + 8 * i) 8)
    let tsig := bit w 97
    let db := t.box d (·.dst) (list && t.plistDst)
    let sb := t.box a (·.src) (list && !t.plistDst)
    { mask := mD ||| mA ||| mF80 ||| maskOf 79 66, codes := decide (Psi.sub w < 4), atIssue := false, order := inOrder,
      full := decide (4 ≤ ((s.core core).moverQueue (Psi.mover w)).length),
      checks := [(d % 64 != 0 || a % 64 != 0 || (list && p % 64 != 0) || t.misaligned, 0x0404),
        (!fits || t.illegal bs list, 0x0402),
        (s.barred core db true || s.barred core sb false || (list && outsideScratch p), 0x0403),
        (list && pastScratch p (8 * t.plistLen), 0x0409), (db.meets sb, 0x0402)],
      effect := fun s => s.pushMover core (Psi.mover w)
        ⟨(s.core core).sq.pc, .movd t (if list then some es else none) (if tsig then some (bits w 70 66) else none), d, a, 0, 0, 0,
          Psi.signal w, 0, 0, [], false⟩ })

/-! ### Beats that complete -/

/-- Charge one mover step to the job on a core (R355). -/
def State.chargeMover (s : State) (c : Nat) : State :=
  let t := (s.core c).fracMover + 1
  (s.modCore c fun k => { k with fracMover := t % 1024 }).modJob (s.core c).sq.job fun j => { j with moverKs := j.moverKs + t / 1024 }

/-- The operation at the head of a mover's queue is gone, and the next one begins. -/
def State.popMover (s : State) (c m : Nat) : State := (s.modCore c fun k => k.setMover m ((k.moverQueue m).drop 1)).runMover c m

/-- The operation at the head of a mover's queue fails (R118, R226): the borrower entry of a failed T2 write closes, a failed T3 access
disables T3, the operation is gone without a signal, and the core raises 0x040A. `t2` and `t3` are the chunks of T2 whose write failed and
whether host memory failed. -/
def State.failMover (s : State) (core m : Nat) (o : MoverOp) (t2 : List Nat) (t3 : Bool) : State :=
  let s := t2.foldl (fun s a => match s.t2Entry a 64 with
    | some i => s.failT2 i
    | none => s) s
  let s := if t3 then s.failT3 else s
  (s.modCore core fun k => k.setMover m ((k.moverQueue m).drop 1)).exception core 0x040A (3 + m) o.index true |>.runMover core m

/-- The T2 chunks that a beat writes. -/
def t2Writes (beat : List (Option Nat × Nat)) : List Nat := (beat.map (·.2)).filter fun a => tierOf a == 2

/-- The last T3 line that an operation writes. -/
def MoverOp.lastLine (o : MoverOp) : Nat := (((o.beatAt (o.beats - 1)).getLast?).map (·.2)).getD 0

/-- After a beat: tiles signal; once every byte has moved, an operation into T3 reads its last line back (R225), and any other leaves the
queue and signals (R118). -/
def State.afterBeat (s : State) (core m : Nat) (o : MoverOp) : State :=
  let s := s.signalTiles core m
  if 256 * o.beats < o.bytes then s.sendBeats core m 256
  else if o.bytes ≠ 0 ∧ tierOf o.lastLine = 3 then
    (s.modHead core m fun o => { o with readback := true }).askHost [(0, o.lastLine)]
  else (s.modCore core fun k => k.setMover m ((k.moverQueue m).drop 1)).signalOwn core (3 + m) o.index o.signal |>.runMover core m

/-- A beat is complete at its destination. -/
def State.endBeat (s : State) (core m : Nat) : State :=
  let s := (s.modHead core m fun o => { o with beats := o.beats + 1, far := o.far.filter fun x => x.beat != o.beats }).chargeMover core
  match s.moverHead core m with
  | some o => s.afterBeat core m o
  | none => s

/-- A chunk reaches its destination within the module, or host memory. -/
def State.writeBeat (s : State) (core : Nat) (beat : List (Option Nat × Nat)) (data : List (Nat × List Byte)) : State :=
  (targets beat).foldl (fun s x => s.progPut core x.2 (chunkData data x.1)) s

/-- The stage of a beat that touches T2. -/
def MoverOp.farNow (o : MoverOp) : Option FarBeat := o.far.find? fun x => x.beat == o.beats

/-- The oldest beat sent has its outcome within the module (R217, R219, R224): it fails, goes on to T2, or completes. -/
def State.takeBeat (s : State) (core m : Nat) (o : MoverOp) (arrived : List Byte) (failed : Bool) : State :=
  let beat := o.beat
  let writing := (o.farNow.map (·.writing)).getD false
  if s.beatBarred beat then
    (s.modCore core fun k => k.setMover m ((k.moverQueue m).drop 1)).exception core 0x0403 (3 + m) o.index true |>.runMover core m
  else if failed || s.beatFails beat true then
    (s.chargeMover core).failMover core m o (if failed then t2Writes beat else []) (srcTier beat == 3 || dstTier beat == 3)
  else if writing then s.endBeat core m
  else
    let got := s.readBeat core o ((o.farNow.map (·.data)).getD []) (beat.mapIdx fun k x => (k, x)) arrived
    if dstTier beat = 2 then
      if s.beatFails beat false then (s.chargeMover core).failMover core m o [] false
      else got.2.sendStores core m o.num o.beats beat got.1
    else (got.2.writeBeat core beat got.1).endBeat core m

/-- MOVER_BEAT_COMPLETE (R118, R217, R225, R227 to R230): the oldest beat sent completes or fails, or the read-back of an operation into T3
does. A beat on T2 waits until its lender has answered. One that could not be sent fails when it is the oldest. -/
def execMoverBeatComplete (core mover : Nat) (beat : BeatReport) (s : State) : Host.Outcome State Fault Refusal :=
  .next (
    if decide (2 ≤ mover) || !s.ringsRun then s
    else
      let s := s.sendBeats core mover 256
      match s.moverHead core mover with
      | none => s
      | some o =>
        let chunks := if o.readback then [(none, o.lastLine)] else o.beat
        let waits := s.waitsOf chunks o.readback beat.waits
        let tier := beatTier chunks
        let asked := (o.farNow.map fun x => decide (0 < x.left)).getD false
        if chunks.isEmpty then (if (s.core core).frozen then s else (s.afterBeat core mover o).restCore core)
        else if !o.readback && decide (o.sent ≤ o.beats) then
          if (s.core core).frozen then s
          else if s.beatBarred chunks then s.takeBeat core mover o [] false |>.restCore core
          else if s.beatFails chunks false then
            ((s.chargeMover core).failMover core mover o
              (t2Writes (chunks.filter fun x => s.cannot x.2 true false)) (s.beatFails (chunks.filter fun x => tierOf x.2 == 3 ||
                (x.1.map tierOf).getD 0 == 3) false)).restCore core
          else s
        else if asked || s.timedOut waits tier then s
        else
          let s := (s.chargeWaits waits).countCorrected beat.corrected
          let s := match beat.uncorrectable with
            | some off => s.uncorrectable off
            | none => s
          let bad := beat.failed || s.beatFails chunks true
          let s := if bad then s.countLate waits tier else s.learnWait waits tier
          (if o.readback then
            if bad then s.failMover core mover o [] true
            else (s.modCore core fun k => k.setMover mover ((k.moverQueue mover).drop 1)).signalOwn core (3 + mover) o.index o.signal
              |>.runMover core mover
          else s.takeBeat core mover o beat.arrived beat.failed).restCore core)

/-- MOVER_BEAT_TIMEOUT (R230, R231): the oldest beat sent has waited for the stall timeout of its tier, in fixed time, whatever the core does;
a T1 timeout is a fault of the M-die of each stack whose access was outstanding. -/
def execMoverBeatTimeout (core mover : Nat) (waits : List (Nat × Nat)) (mdies : List Nat) (s : State) : Host.Outcome State Fault Refusal :=
  .next (match if decide (2 ≤ mover) then none else s.moverHead core mover with
    | none => s
    | some o =>
      let chunks := if o.readback then [(none, o.lastLine)] else o.beat
      let waits := s.waitsOf chunks o.readback waits
      let tier := beatTier chunks
      if (decide (o.sent ≤ o.beats) && !o.readback) || !s.timedOut waits tier then s
      else
        let s := (s.chargeWaits waits).countLate waits tier
        let s := (s.count Reg.MEM_TOCNT.count 1 (tier - 1)).raise Reg.MEM_EVT.timeout Reg.MEM_EVTMASK.mask
        let s := if tier = 1 then (mdies.filter (· < 12)).foldl (fun s k => s.recordFault 0x0302 (.unit (slotMdie k)) [k]) s else s
        (s.failMover core mover o (t2Writes chunks) (srcTier chunks == 3 || dstTier chunks == 3)).restCore core)

/-! ### What T2 answers -/

/-- The operation at a mover's head is the one a request belongs to. -/
def State.moverOf (s : State) (c m num : Nat) : Option MoverOp := (s.moverHead c m).filter fun o => o.num == num

/-- The data of a remote load are kept with its beat. -/
def State.farData (s : State) (c m num b k : Nat) (data : List Byte) : State :=
  match s.moverOf c m num with
  | none => s
  | some _ =>
    let parts := (List.range (data.length / 64)).map fun i => (k + i, (data.drop (64 * i)).take 64)
    s.modHead c m fun o => { o with far := o.far.map fun x => if x.beat = b then { x with data := x.data ++ parts } else x }

/-- A request of a beat on T2 has its outcome: the last one lets the beat go on, to its stores where it moves from T2 to T2; a failure fails
the operation (R226). -/
def State.farEnd (s : State) (c m num b : Nat) (ok : Bool) : State :=
  match s.moverOf c m num with
  | none => s
  | some o =>
    match o.far.find? fun x => x.beat == b with
    | none => s
    | some x =>
      let beat := o.beatAt b
      if !ok then ((s.chargeMover c).failMover c m o (if x.writing then t2Writes beat else []) false).restCore c
      else
        let s := s.modHead c m fun o => { o with far := o.far.map fun y => if y.beat = b then { y with left := y.left - 1 } else y }
        if x.left ≤ 1 ∧ !x.writing ∧ dstTier beat = 2 ∧ !s.beatFails beat false then s.sendStores c m num b beat x.data else s

end Sys2Proof.Machine
end

