-- ==== Sys2Proof/Machine/Target.lean ====
section
/-! DEFINITION. This module as a target: regions and keys, the checks of a request, what it does here, and its answer (chapter 17). -/

namespace Sys2Proof.Machine

/-! ### Regions (R404, R405) -/

/-- A lender entry is a region while it is lent or recalling (R404). -/
def State.lendOpen (s : State) (i : Nat) : Bool := s.fld Reg.MEM_LEND.state i == 1 || s.fld Reg.MEM_LEND.state i == 2

/-- The region of an enabled FAB_RGN entry. -/
def State.rgn (s : State) (i : Nat) : Region :=
  { index := i, base := t1Off (s.fld Reg.FAB_RGN.base i * 4096), length := s.fld Reg.FAB_RGN.length i, job := s.fld Reg.FAB_RGN.job i,
    rights := s.fld Reg.FAB_RGN.rights i, queue := s.fld Reg.FAB_RGN.kind i == 1, srcFirst := s.fld Reg.FAB_RGN.src_first i,
    srcCount := s.fld Reg.FAB_RGN.src_count i, lent := false, depth := s.fld Reg.FAB_RGN.depth i, core := s.fld Reg.FAB_RGN.core i }

/-- The region of a lender entry: read and write for its borrower alone. -/
def State.lendRegion (s : State) (i : Nat) : Region :=
  { index := i, base := t1Off (s.fld Reg.MEM_LEND.base i * 65536), length := s.fld Reg.MEM_LEND.length i, job := 0xFFFF, rights := 3, queue := false,
    srcFirst := s.fld Reg.MEM_LEND.ep i, srcCount := 1, lent := true, depth := 0, core := 0 }

/-- The region a key opens. A lender entry governs over an enabled region of the same key (R404), and one whose lease has ended opens
nothing (R219). -/
def State.region? (s : State) (key : Nat) : Option Region :=
  match (List.range 16).find? fun i => s.lendOpen i && s.fld Reg.MEM_LEND.key i == key with
  | some i => if s.fld Reg.MEM_LEND.lease_end i ≤ s.gscXdie then none else some (s.lendRegion i)
  | none => ((List.range 256).find? fun i => s.flag Reg.FAB_RGN.en i && s.fld Reg.FAB_RGN.key i == key && key != 0).map s.rgn

/-- The right a request type needs (Table 17.11). -/
def rightOf (ptype : Nat) : Nat := if ptype = 1 then 0 else if ptype = 3 then 2 else if ptype = 4 then 3 else 1

/-- The reach of a source allows a request type (Table 16.3, R418). -/
def State.sourceReach (s : State) (src ptype : Nat) : Bool :=
  if s.inDomain src then true
  else if s.inRegion src then ptype == 8
  else s.flag Reg.FAB_GWEP.valid && (ptype == 1 || ptype == 2 || ptype == 8)

/-- Bytes of the region a request touches. -/
def requestBytes (ptype lines : Nat) : Nat := if ptype = 3 then 8 else 64 * lines

/-- The messages of a queue. -/
def State.queue (s : State) (i : Nat) : MsgQueue := Table.get MsgQueue.empty s.queuesIn i

/-- The queue has no free slot left, counting the messages still in the ingress (R405). -/
def State.queueFull (s : State) (r : Region) : Bool :=
  decide (r.depth ≤ (s.queue r.index).msgs.length +
    (s.ingress.filter fun x => x.ptype == 8 && x.region.index == r.index && !x.answered).length)

/-- The slots of a message queue do not lie in T1. The spec names no check for it: the model refuses the message as outside its region
(DESIGN CHOICE, log entry 58). -/
def State.slotsOutside (s : State) (r : Region) : Bool :=
  match locateRange (s.fld Reg.FAB_RGN.base r.index * 4096) (256 * r.depth) with
  | some (.t1, _) => false
  | _ => true

/-- The tests of R405 in order: the reason of the first that fails, or the region. -/
def State.checkRequest (s : State) (ptype : Nat) (hd : RequestHead) : Except Nat Region :=
  if Table.get false s.torn hd.job then .error 8
  else match s.region? hd.key with
    | none => .error 1
    | some r =>
      let n := requestBytes ptype hd.lines
      let msg := ptype == 8
      if r.job ≠ 0xFFFF ∧ r.job ≠ hd.job then .error 5
      else if r.srcCount ≠ 0 ∧ (hd.src < r.srcFirst ∨ r.srcFirst + r.srcCount ≤ hd.src) then .error 4
      else if !r.lent && s.isLent (r.base + hd.offset) n then .error 4
      else if r.queue != msg || (!msg && !bit r.rights (rightOf ptype)) then .error 3
      else if !s.sourceReach hd.src ptype then .error 6
      else if hd.offset % (if ptype = 3 then 8 else 64) ≠ 0 then .error 9
      else if (!msg && decide (r.length < hd.offset + n)) || (msg && (decide (hd.lines < 1) || decide (4 < hd.lines) || s.slotsOutside r)) then .error 2
      else if msg && s.queueFull r then .error 7
      else .ok r

/-! ### Reductions (R407) -/

/-- One element of a reduction: its new code, and whether it saturated. -/
def reduceElement (var old new : Nat) : Nat × Bool :=
  let fp (f : FpFormat) (r : Fp × NumEvents) : Nat × Bool := (encodeFp f r.1, r.2.sat != 0)
  match var with
  | 0 => ((old + new) % 2 ^ 32, false)
  | 1 => fp fp32 (roundInternal fp32 (Fp.add (decodeFp fp32 old) (decodeFp fp32 new)))
  | 2 => fp bf16 (narrow bf16 (Fp.add (decodeFp bf16 old) (decodeFp bf16 new)))
  | 3 => (encodeFp fp32 (Fp.max (decodeFp fp32 old) (decodeFp fp32 new)), false)
  | _ => (encodeFp bf16 (Fp.max (decodeFp bf16 old) (decodeFp bf16 new)), false)

/-- Bytes of an element of a reduction. -/
def reduceSize (var : Nat) : Nat := if var = 2 ∨ 4 ≤ var then 2 else 4

/-- A reduction over `n` elements: the new bytes and how many elements saturated. -/
def reduceBytes (var : Nat) : Nat → List Byte → List Byte → List Byte × Nat
  | 0, _, _ => ([], 0)
  | n + 1, old, new =>
    let k := reduceSize var
    let got := reduceElement var (ofBytes (old.take k)) (ofBytes (new.take k))
    let v := got.1
    let sat := got.2
    let got := reduceBytes var n (old.drop k) (new.drop k)
    let bs := got.1
    let m := got.2
    (toBytes k v ++ bs, m + ofFlag sat)

/-! ### What a request does (Table 17.6) -/

/-- An answer: response type, reason and data. -/
structure Answer where
  type : Nat
  reason : Nat
  data : List Byte
  deriving DecidableEq, Repr

/-- Done. -/
def Answer.ok : Answer := ⟨0x80, 0, []⟩

/-- The 8-byte result of an atomic on the old value (Table 17.6): fetch-add, or compare-swap. -/
def atomicResult (var old : Nat) (data : List Byte) : Nat :=
  let x := ofBytes (data.take 8)
  if var = 0 then (old + x) % 2 ^ 64 else if old = x then ofBytes ((data.drop 8).take 8) else old

/-- Answer poisoned (R406, R414). -/
def State.poisoned (s : State) (reason : Nat) : Answer × State :=
  (⟨0x84, reason, []⟩, s.raise Reg.FAB_OPEVT.poison_in Reg.FAB_OPEVTMASK.mask)

/-- A message enters its queue, and the next slot is the one after it. -/
def State.enterMessage (s : State) (r : Region) (q : MsgQueue) (m : Message) : State :=
  { s with queuesIn := Table.set MsgQueue.empty s.queuesIn r.index ⟨(q.next + 1) % max 1 r.depth, q.msgs ++ [m]⟩ }

/-- The T1 offset of the next slot of a queue. -/
def State.nextPlace (s : State) (r : Region) : Nat := r.base + 256 * (s.queue r.index).next

/-- Store the data of a message in the next slot of its queue. -/
def State.storeMessage (s : State) (r : Region) (data : List Byte) : State := s.t1Put (s.nextPlace r) data

/-- Signal the receiving core of a region: an entry that allows any job signals the job of its core. -/
def State.signalRegion (s : State) (r : Region) : State :=
  s.signalCode (if r.job = 0xFFFF then (s.core r.core).sq.job else r.job) r.core 3

/-- Queue a message in the slot free longest, and signal its core (R409). -/
def State.queueMessage (s : State) (r : Region) (hd : RequestHead) (data : List Byte) : State :=
  ((s.storeMessage r (data.take (64 * hd.lines))).enterMessage r (s.queue r.index)
    ⟨s.nextPlace r, hd.src, hd.unit, hd.lines, s.gscXdie, hd.key⟩).signalRegion r

/-- Apply a request that has passed its checks to its region. -/
def State.applyRequest (s : State) (ptype : Nat) (hd : RequestHead) (r : Region) (data : List Byte) : Answer × State :=
  let at' := r.base + hd.offset
  let n := requestBytes ptype hd.lines
  let payload := (data ++ List.replicate n 0).take n
  if ptype = 8 then (.ok, s.queueMessage r hd payload)
  else if ptype = 2 ∨ ptype = 5 then (.ok, s.t1Put at' payload)
  else if s.isPoisoned at' n then s.poisoned 10
  else
    let got := s.t1Read at' n
    let old := got.1
    let s := got.2
    match ptype with
    | 1 => (⟨0x81, 0, old⟩, s)
    | 3 => (⟨0x81, 0, old⟩, s.t1Put at' (toBytes 8 (atomicResult hd.var (ofBytes old) data)))
    | _ =>
      let got := reduceBytes hd.var (n / reduceSize hd.var) old payload
      let bs := got.1
      let sat := got.2
      let s := s.t1Put at' bs
      (.ok, if sat = 0 then s else (s.count Reg.FAB_REDSATCNT.count sat).raise Reg.FAB_OPEVT.red_sat Reg.FAB_OPEVTMASK.mask)

/-! ### Taking a request (R405, R415) -/

/-- Refuse a request at its target (R405). -/
def State.refuseIn (s : State) (hd : RequestHead) (reason : Nat) : Answer × State :=
  let s := (s.count Reg.FAB_REFINCNT.count 1).raise Reg.FAB_OPEVT.refused_in Reg.FAB_OPEVTMASK.mask
  (⟨0x83, reason, []⟩, s.recordFault 0x0504 (.endpoint hd.src) [hd.key, reason])

/-- What a request remembers under: its source, apart for the copies of each group. -/
def requestKey (hd : RequestHead) (group : Nat) : Nat := seenKey ⟨hd.src, hd.seq, hd.tag, group, hd.unit⟩

/-- What this target remembers of a request's source. -/
def State.seenOf (s : State) (key : Nat) : Seen := Table.get Seen.empty s.seen key

/-- Record the old value of an atomic of a source in the domain (R415). -/
def State.noteAtomic (s : State) (key : Nat) (hd : RequestHead) (a : Answer) : State :=
  if a.type = 0x81 ∧ s.inDomain hd.src then
    let v := s.seenOf key
    { s with seen := Table.set Seen.empty s.seen key { v with atomics := ((hd.seq, ofBytes a.data) :: v.atomics).take 64 } }
  else s

/-- What the bank found is counted and recorded (R217). -/
def State.bankFound (s : State) (r : BankReport) : State :=
  match r.uncorrectable with
  | some off => (s.countCorrected r.corrected).uncorrectable off
  | none => s.countCorrected r.corrected

/-- A taken request reaches its bank. -/
def State.reachBank (s : State) (ptype group : Nat) (hd : RequestHead) (r : Region) (data : List Byte) (report : BankReport) : Answer × State :=
  let got := (s.bankFound report).applyRequest ptype hd r data
  let a := got.1
  let s := got.2
  (a, if ptype = 3 then s.noteAtomic (requestKey hd group) hd a else s)

/-- The answer to a duplicate (R415): the recorded old value of an atomic, which is free once 64 later ones have passed; a fresh read for a
load; done for everything else. A duplicate of a request that still waits is answered with it. -/
def State.answerDuplicate (s : State) (ptype group : Nat) (hd : RequestHead) : Option Answer × State :=
  let s := s.count Reg.FAB_DUPCNT.count 1
  if s.ingress.any fun x => x.head.src == hd.src && x.head.seq == hd.seq && x.ptype == ptype && !x.answered then (none, s)
  else if ptype = 1 then
    match s.checkRequest 1 hd with
    | .error r => let got := s.refuseIn hd r; let a := got.1; let s := got.2; (some a, s)
    | .ok r => let got := s.applyRequest 1 hd r []; let a := got.1; let s := got.2; (some a, s)
  else if ptype = 3 then
    match (s.seenOf (requestKey hd group)).atomics.find? fun x => x.1 == hd.seq with
    | some x => (some ⟨0x81, 0, toBytes 8 x.2⟩, s)
    | none => let got := s.free; let v := got.1; let s := got.2; (some ⟨0x81, 0, toBytes 8 v⟩, s)
  else (some .ok, s)

/-- Two requests meet at a bank (R412, R417): they touch one line, or are messages to one queue. -/
def Ingress.meets (ptype : Nat) (hd : RequestHead) (r : Region) (x : Ingress) : Bool :=
  if ptype = 8 ∧ x.ptype = 8 then x.region.index == r.index
  else ptype != 8 && x.ptype != 8 &&
    decide ((r.base + hd.offset) / 64 < (x.region.base + x.head.offset) / 64 + max 1 x.head.lines) &&
    decide ((x.region.base + x.head.offset) / 64 < (r.base + hd.offset) / 64 + max 1 hd.lines)

/-- An older request that still waits meets this one: requests to one line are applied in their order of arrival (R417). -/
def State.mustWait (older : List Ingress) (ptype : Nat) (hd : RequestHead) (r : Region) : Bool :=
  older.any fun x => !x.answered && x.meets ptype hd r

/-- A request arrives: the answer to give now, if any. -/
def State.takeRequest (s : State) (ptype group : Nat) (hd : RequestHead) (data : List Byte) (wait : Bool) (report : BankReport) :
    Option Answer × State :=
  let key := requestKey hd group
  match (s.seenOf key).take hd.seq with
  | none => s.answerDuplicate ptype group hd
  | some v =>
    match s.checkRequest ptype hd with
    | .error r => let got := s.refuseIn hd r; let a := got.1; let s := got.2; (some a, s)
    | .ok r =>
      let waits := wait || State.mustWait s.ingress ptype hd r
      let s := { s with seen := Table.set Seen.empty s.seen key v }
      if waits then (none, { s with ingress := s.ingress ++ [(⟨ptype, hd, r, data, false, false⟩ : Ingress)] })
      else let got := s.reachBank ptype group hd r data report; let a := got.1; let s := got.2; (some a, s)

/-- Send an answer. -/
def State.reply (s : State) (hd : RequestHead) (a : Answer) : State := s.sendResponse hd.src hd.kind hd.unit a.type a.reason hd.seq hd.tag a.data

/-- The waiting request of a header, behind the requests that came before it. -/
def waitingIn (ptype : Nat) (hd : RequestHead) : List Ingress → List Ingress → Option (List Ingress × Ingress)
  | _, [] => none
  | older, x :: r => if x.head == hd && x.ptype == ptype && !x.answered then some (older, x) else waitingIn ptype hd (older ++ [x]) r

/-- The waiting request of a header, unless an older one at its bank goes first. -/
def State.waiting? (s : State) (ptype : Nat) (hd : RequestHead) : Option Ingress :=
  match waitingIn ptype hd [] s.ingress with
  | some (older, x) => if State.mustWait older ptype hd x.region then none else some x
  | none => none

/-- Channel 0 credits that were withheld go back (R417). -/
def State.returnCredits (s : State) : State :=
  if 2048 ≤ s.ingress.length then s
  else (List.range 16).foldl (fun s port =>
    let l := s.link port
    if l.withheld = 0 ∨ !s.planeUp port then s
    else (s.setLink port { (l.free 0 l.withheld) with withheld := 0 }).sendLinkControl port false) s

/-- A waiting request has its answer: its entry is freed once every older one's is (R417). -/
def State.settleIngress (s : State) (x : Ingress) : State :=
  { s with ingress := (s.ingress.map fun y => if y == x then { y with answered := true } else y).dropWhile (·.answered) }.returnCredits

/-- A command at this target: a request arrives, or one that waited is applied (R406, R414). A request that finds the ingress buffer full waits
at its port (R417). While FAB_EPID.valid is 0 the request is counted as refused, and nothing is sent (R377, R405); a module that shuts down
takes none (R483). -/
def State.target (s : State) (ptype group : Nat) (hd : RequestHead) (data : List Byte) (wait : TargetWait) (report : BankReport) : State :=
  match wait with
  | .resumes =>
    match s.waiting? ptype hd with
    | none => s
    | some x =>
      let got := (s.settleIngress x).reachBank ptype group hd x.region x.data report
      got.2.reply hd got.1
  | w =>
    if s.closing || decide (2048 ≤ s.ingress.length) then s
    else if !s.flag Reg.FAB_EPID.valid then (s.refuseIn hd 8).2
    else
      let got := s.takeRequest ptype group hd data (w == .waits) report
      match got.1 with
      | some a => got.2.reply hd a
      | none => got.2

/-- TARGET_LOAD (R406). -/
def execTargetLoad (hd : RequestHead) (wait : TargetWait) (report : BankReport) (s : State) : Host.Outcome State Fault Refusal :=
  .next (s.target 1 0 hd [] wait report)

/-- TARGET_STORE (R406). -/
def execTargetStore (hd : RequestHead) (data : List Byte) (wait : TargetWait) (report : BankReport) (s : State) :
    Host.Outcome State Fault Refusal :=
  .next (s.target 2 0 hd data wait report)

/-- TARGET_ATOMIC (R406). -/
def execTargetAtomic (hd : RequestHead) (data : List Byte) (wait : TargetWait) (report : BankReport) (s : State) :
    Host.Outcome State Fault Refusal :=
  .next (s.target 3 0 hd data wait report)

/-- TARGET_REDUCE (R407). -/
def execTargetReduce (hd : RequestHead) (data : List Byte) (wait : TargetWait) (report : BankReport) (s : State) :
    Host.Outcome State Fault Refusal :=
  .next (s.target 4 0 hd data wait report)

/-- TARGET_MULTICAST_STORE (R408): only a member of the group takes the copy. -/
def execTargetMulticastStore (hd : RequestHead) (group : Nat) (data : List Byte) (wait : TargetWait) (report : BankReport) (s : State) :
    Host.Outcome State Fault Refusal :=
  .next (if s.flag Reg.FAB_GRP.valid group && s.flag Reg.FAB_GRP.member group then s.target 5 (group + 1) hd data wait report else s)

/-- TARGET_MESSAGE (R409). -/
def execTargetMessage (hd : RequestHead) (data : List Byte) (wait : TargetWait) (report : BankReport) (s : State) :
    Host.Outcome State Fault Refusal :=
  .next (s.target 8 0 hd data wait report)

/-- TARGET_ACCEPT_DUE (R414): a request taken and not applied is answered accepted, once. -/
def execTargetAcceptDue (hd : RequestHead) (s : State) : Host.Outcome State Fault Refusal :=
  .next (match s.ingress.find? fun x => x.head == hd && !x.accepted && !x.answered with
    | none => s
    | some x =>
      { s with ingress := s.ingress.map fun y => if y == x then { y with accepted := true } else y }.reply hd ⟨0x82, 0, []⟩)

/-- TARGET_STALL_TIMEOUT (R414): the bank wait has reached MEM_STALLTO of T1; the request is answered poisoned. -/
def execTargetStallTimeout (hd : RequestHead) (s : State) : Host.Outcome State Fault Refusal :=
  .next (match s.ingress.find? fun x => x.head == hd && !x.answered with
    | none => s
    | some x =>
      let got := (s.settleIngress x).poisoned 11
      let a := got.1
      let s := got.2
      s.reply hd a)

/-! ### Opening regions (R404) -/

/-- A T1 program address range, given by address and length, leaves T1 or meets the cloak area. -/
def State.badRegion (s : State) (base n : Nat) : Bool :=
  match locateRange base n with
  | some (.t1, o) => s.inCloak o n
  | _ => true

/-- A write of en = 1 is discarded (R404); no region may overlap the cloak area, that of a message queue's slots neither (R208). `value` is the
word at +0x14. -/
def State.regionRejected (s : State) (i value : Nat) : Bool :=
  let key := s.fld Reg.FAB_RGN.key i
  let queue := bits value 17 16 == 1
  let job := bits value 15 0
  let open' (k : Nat) : Bool := k != i && s.flag Reg.FAB_RGN.en k
  key == 0 || ((List.range 256).any fun k => open' k && s.fld Reg.FAB_RGN.key k == key) ||
    ((List.range 16).any fun k => s.lendOpen k && s.fld Reg.MEM_LEND.key k == key) ||
    (!queue && (s.fld Reg.FAB_RGN.length i == 0 || s.badRegion (s.fld Reg.FAB_RGN.base i * 4096) (s.fld Reg.FAB_RGN.length i))) ||
    (queue && (s.fld Reg.FAB_RGN.depth i == 0 ||
      s.inCloak (t1Off (s.fld Reg.FAB_RGN.base i * 4096)) (256 * s.fld Reg.FAB_RGN.depth i) ||
      (List.range 256).any fun k => open' k && s.fld Reg.FAB_RGN.kind k == 1 && s.fld Reg.FAB_RGN.job k == job &&
        s.fld Reg.FAB_RGN.core k == s.fld Reg.FAB_RGN.core i))

/-- REGION_ENABLE (R404): the word at +0x14 is written with en = 1. A message queue opens with every slot free. -/
def execRegionEnable (region value : Nat) (s : State) : Host.Outcome State Fault Refusal :=
  .next (s.hostWrite (0x804014 + 32 * region) 4 fun s =>
    if 256 ≤ region ∨ s.flag Reg.FAB_RGN.en region then s
    else if s.regionRejected region value then s.raise Reg.FAB_OPEVT.rgn_reject Reg.FAB_OPEVTMASK.mask
    else
      let s := s.setFld Reg.FAB_RGN.job (bits value 15 0) region
      let s := s.setFld Reg.FAB_RGN.kind (bits value 17 16) region
      let s := s.setFld Reg.FAB_RGN.rights (bits value 27 24) region
      { s.setFld Reg.FAB_RGN.en 1 region with queuesIn := Table.set MsgQueue.empty s.queuesIn region MsgQueue.empty })

/-! ### Teardown (R421) -/

/-- Show a teardown in FAB_TDSTAT. -/
def State.showTeardown (s : State) (state job reason : Nat) : State :=
  ((s.setFld Reg.FAB_TDSTAT.state state).setFld Reg.FAB_TDSTAT.job job).setFld Reg.FAB_TDSTAT.reason reason

/-- A region of a job is disabled, and its message queue emptied. -/
def State.closeRegion (s : State) (job i : Nat) : State :=
  if s.fld Reg.FAB_RGN.job i = job then
    { s.setFld Reg.FAB_RGN.en 0 i with queuesIn := Table.set MsgQueue.empty s.queuesIn i MsgQueue.empty }
  else s

/-- A message credit entry of a job becomes free. -/
def State.closeCredit (s : State) (job i : Nat) : State :=
  if s.fld Reg.FAB_MCRED.job i = job then
    (((s.setFld Reg.FAB_MCRED.credits 0 i).setFld Reg.FAB_MCRED.key 0 i).setFld Reg.FAB_MCRED.ep 0 i).setFld Reg.FAB_MCRED.job 0xFFFF i
  else s

/-- Close what a job holds open here: its regions, credits and queued messages. -/
def State.closeJobFabric (s : State) (job : Nat) : State :=
  (List.range 2048).foldl (fun s i => s.closeCredit job i) ((List.range 256).foldl (fun s i => s.closeRegion job i) s)

/-- The payload of a teardown done packet (Table 17.16). -/
def teardownLine (job reason result number gsc : Nat) : List Byte :=
  lineOf [(0, 2, job), (2, 1, reason), (3, 1, result), (4, 4, number), (8, 8, gsc)]

/-- TEARDOWN_RECEIVE (R421): the job's regions and credits close, later requests of it are refused, and it is aborted if it is active and
not faulted. One that is not active is done at once, and what still serves it stops (R331, R349). -/
def execTeardownReceive (hd : PacketHead) (job reason number : Nat) (s : State) : Host.Outcome State Fault Refusal :=
  .next (s.controlTake hd fun s =>
    let s := (s.raise Reg.FAB_OPEVT.teardown Reg.FAB_OPEVTMASK.mask).recordFault 0x0505 .module [job, reason, number]
    let s := { s.closeJobFabric job with torn := Table.set false s.torn job true }
    match s.job? job with
    | none => ((s.stopJob job).showTeardown 2 job reason).sendControl hd.source false 0x21 (teardownLine job reason 1 number s.gscXdie) job
    | some x =>
      let s := { s.showTeardown 1 job reason with tearing := s.tearing ++ [(⟨job, hd.source, number, reason⟩ : Teardown)] }
      if x.fault.isSome then s else (s.markFault job 0x100 true).settle)

/-- TEARDOWN_COMPLETE (R421, Table 17.8): the job is no longer active here; FAB_TDSTAT reads done and the fabric manager is told. -/
def execTeardownComplete (job : Nat) (s : State) : Host.Outcome State Fault Refusal :=
  .next (match s.tearing.find? fun t => t.job == job with
    | none => s
    | some t =>
      if (s.job? job).isSome then s
      else { s with tearing := s.tearing.erase t }.showTeardown 2 job t.reason
        |>.sendControl t.source false 0x21 (teardownLine job t.reason 0 t.number s.gscXdie) job)

end Sys2Proof.Machine
end

