-- ==== Sys2Proof/Machine/Fab.lean ====
section
/-! DEFINITION. This module as a source: the fabric instructions, the response tracker, message credits and the bulk rings (chapters 05, 16
and 17). -/

namespace Sys2Proof.Machine

/-! ### Reach (R379, R418) -/

/-- The class of a destination allows a request type (Table 16.3). -/
def State.reaches (s : State) (dst : Nat) (group : Bool) (ptype : Nat) : Bool :=
  s.flag Reg.FAB_EPID.valid &&
    (if group then s.flag Reg.FAB_GRP.valid dst
     else if s.inDomain dst then true
     else if s.inRegion dst then ptype == 8
     else s.flag Reg.FAB_GWEP.valid && (ptype == 1 || ptype == 2 || ptype == 8))

/-- A packet toward an endpoint outside the region goes to the gateway, with its final endpoint in the extension (R418). -/
def State.throughGateway (s : State) (p : Packet) : Packet :=
  if p.group || s.inDomain p.dst || s.inRegion p.dst then p else { p with dst := s.fld Reg.FAB_GWEP.ep, gateway := some p.dst }

/-- The packets of a transfer of `n` lines, 8 lines each (R399), with the place of each one's data; `data` holds the bytes sent. -/
def cutPackets (base : Packet) (n place : Nat) (data : List Byte) : List (Packet × Nat) :=
  (List.range (ceilDiv n 8)).map fun k =>
    ({ base with lines := min 8 (n - 8 * k), offset := base.offset + 512 * k, bytes := (data.drop (512 * k)).take 512 }, place + 512 * k)

/-! ### The tracker (R402, R408, R413) -/

/-- Change the tracker's entry of a request. -/
def State.modRequest (s : State) (tag seq : Nat) (f : Request → Request) : State :=
  { s with tracker := s.tracker.map fun r => if r.packet.tag == tag && r.packet.seq == seq then f r else r }

/-- The tracker's entry of a tag and seq. -/
def State.request? (s : State) (tag seq : Nat) : Option Request := s.tracker.find? fun r => r.packet.tag == tag && r.packet.seq == seq

/-- Every answer a request needs has come (R408). -/
def State.allAnswered (s : State) (r : Request) : Bool :=
  if r.packet.group then decide (s.fld Reg.FAB_GRP.count r.packet.dst ≤ r.answered) else decide (1 ≤ r.answered)

/-- The fabric operation of a core by its number. -/
def Core.fabOp? (k : Core) (num : Nat) : Option FabOp := k.fab.find? fun o => o.num == num

/-- The member's own copy of a multicast is delivered here (R380, R408): the answer says whether it was applied. -/
def State.ownCopy (s : State) (p : Packet) : Bool × State :=
  let hd : RequestHead := ⟨s.fld Reg.FAB_EPID.ep, p.kind, p.unit, p.job, p.key, p.offset, p.lines, p.var, p.seq, p.tag⟩
  let got := s.takeRequest p.ptype (p.dst + 1) hd p.bytes false ⟨none, []⟩
  let ok := match got.1 with
    | some a => a.type == 0x80
    | none => true
  (ok, got.2)

/-- A packet of a fabric operation has its outcome; with the last one the operation completes: its signal, or 0x040B (R87, R420). -/
def State.endPacket (s : State) (c num : Nat) (ok : Bool) : State :=
  match (s.core c).fabOp? num with
  | none => s
  | some o =>
    let o' := { o with left := o.left - 1, failed := o.failed || !ok }
    if 0 < o'.left then s.modCore c fun k => { k with fab := k.fab.map fun x => if x.num == num then o' else x }
    else
      let s := s.modCore c fun k => { k with fab := k.fab.filter fun x => x.num != num }
      if o'.failed then s.exception c 0x040B 5 o.index true else s.signalOwn c 5 o.index o.signal

/-- Send one packet of a fabric operation; a group that this module alone makes up is answered at once. -/
def State.sendFab (s : State) (c num : Nat) (x : Packet × Nat) : State :=
  let s := s.sendRequest x.1 (.core c num) x.2
  match if x.1.group then s.tracker.getLast? else none with
  | none => s
  | some r =>
    if s.flag Reg.FAB_GRP.member r.packet.dst then
      let got := s.ownCopy r.packet
      let ok := got.1
      let s := got.2
      let s := s.modRequest r.packet.tag r.packet.seq fun y => { y with failed := !ok }
      if s.allAnswered r then
        { s with tracker := s.tracker.filter fun y => !(y.packet.tag == r.packet.tag && y.packet.seq == r.packet.seq) }.endPacket c num ok
      else s
    else s

/-- Requests of a core's fabric instructions that hold tracker slots (R402). -/
def State.slotsOf (s : State) (c : Nat) : Nat :=
  let mine (o : Owner) : Bool := match o with
    | .core d _ => d == c
    | _ => false
  (s.tracker.filter fun r => mine r.owner).length + (s.heldRequests.filter fun h => mine h.2.1).length

/-- Let go of what no FENCE holds back (R119, R416): a FENCE with nothing before it completes, and the operations up to the next one send
their packets, as the core's 64 tracker slots have room (R402). -/
def State.settleFab (s : State) (c : Nat) : Nat → State
  | 0 => s
  | n + 1 =>
    match (s.core c).fab with
    | [] => s
    | o :: rest =>
      if o.fence then
        ((s.modCore c fun k => { k with fab := rest }).signalOwn c 5 o.index o.signal).settleFab c n
      else
        match ((o :: rest).takeWhile fun x => !x.fence).find? fun x => !x.held.isEmpty with
        | none => s
        | some x =>
          let room := 64 - s.slotsOf c
          if room = 0 then s
          else
            let s := s.modCore c fun k => { k with fab := k.fab.map fun y => if y.num == x.num then { y with held := x.held.drop room } else y }
            ((x.held.take room).foldl (fun s p => s.sendFab c x.num p) s).settleFab c n

/-- `settleFab` with enough rounds: each one ends a fence or sends packets. -/
def State.settleCoreFab (s : State) (c : Nat) : State :=
  s.settleFab c (((s.core c).fab.map fun o => o.held.length).sum + 2 * (s.core c).fab.length + 2)

/-- A request's data lands at its source: core scratch for an instruction, T1 for a bulk get. -/
def State.landData (s : State) (r : Request) (data : List Byte) : State :=
  match r.owner with
  | .core c num =>
    match (s.core c).fabOp? num with
    | none => s
    | some _ =>
      if r.atomic then s.scratchPut c r.dest (data.take 8)
      else if r.packet.ptype = 1 then s.scratchPut c r.dest (data.take (64 * r.packet.lines))
      else s
  | .bulk _ => if r.packet.ptype = 1 then s.t1Put r.dest (data.take (64 * r.packet.lines)) else s
  | .mover c m num b k => if r.packet.ptype = 1 then s.farData c m num b k (data.take (64 * r.packet.lines)) else s
  | _ => s

/-- One packet of a bulk descriptor has its outcome: 0, or the status that becomes the descriptor's if it is the first (R419). -/
def State.endBulkPacket (s : State) (num bytes status : Nat) : State :=
  { s with bulks := s.bulks.map fun b =>
      if b.num == num then
        { b with left := b.left - 1, done := if status = 0 then b.done + bytes else b.done, status := if b.status = 0 then status else b.status }
      else b }

/-- A request is complete: status 0 done, 2 refused, 3 poisoned. -/
def State.finishRequest (s : State) (r : Request) (status : Nat) : State :=
  let s := { s with tracker := s.tracker.filter fun y => !(y.packet.tag == r.packet.tag && y.packet.seq == r.packet.seq) }
  let s := if r.packet.group then s else s.sendHeld r.packet.dst
  match r.owner with
  | .core c num => ((s.endPacket c num (status == 0)).settleCoreFab c).restCore c
  | .bulk num => s.endBulkPacket num (64 * r.packet.lines) status
  | .mover c m num b _ => s.farEnd c m num b (status == 0)
  | .copy a => if status ≠ 0 ∧ r.packet.ptype = 2 then s.parkStoreFailed a else s
  | .exchange c index x p src =>
    let s := (src.map fun i => s.releaseEnds c index x p i r.packet.dst (status != 0)).getD s
    if status ≠ 0 ∧ (s.core c).sq.job = r.packet.job then (s.exception c 0x040B 6 index true).restCore c else s
  | .engine => s

/-- A request completes poisoned at its source: a dead-target event (R413, R420). -/
def State.deadRequest (s : State) (r : Request) : State :=
  let s := (s.count Reg.FAB_DEADCNT.count 1).raise Reg.FAB_OPEVT.dead Reg.FAB_OPEVTMASK.mask
  let s := s.recordFault 0x0501 (if r.packet.group then .module else .endpoint r.packet.dst) [r.packet.dst, r.packet.seq]
  s.finishRequest r 3

/-- Send a request again, marked as re-sent, on the plane chosen now; the answer is none where no plane is left. -/
def State.resend (s : State) (r : Request) (avoid : List Nat) (count : Nat) : Option State :=
  let got := s.route { r.packet with resent := true } none avoid
  let plane := got.1
  let s := got.2
  if plane = 16 then none
  else some (s.modRequest r.packet.tag r.packet.seq fun y =>
    { y with plane := plane, packet := { y.packet with resent := true }, attempts := y.attempts + count })

/-- The congestion estimate of a plane and class takes one mark (R383). -/
def State.takeMark (s : State) (p : Packet) (plane : Nat) (mark : Bool) : State :=
  let near := p.group || s.inDomain p.dst
  let got := if near then (Reg.FAB_AREST.c_local, Reg.FAB_AREST.n_local) else (Reg.FAB_AREST.c_remote, Reg.FAB_AREST.n_remote)
  let fc := got.1
  let fn := got.2
  let c : Int := s.fld fc plane
  let c' := c + Int.tdiv ((if mark then 255 else 0) - c) 16
  (s.setFld fc c'.toNat plane).setFld fn (min 255 (s.fld fn plane + 1)) plane

/-- A lull packet to the arbiter met a plane that cannot reach it: it goes out on another plane, or to the fabric manager when every usable
plane has answered so (R500). -/
def State.lullUnreachable (s : State) (hd : ResponseHead) : State :=
  match s.lullSent.find? fun x => x.seq == hd.seq with
  | none => s
  | some x =>
    let x' := { x with unreachable := hd.plane :: x.unreachable }
    if s.planes.all fun p => x'.unreachable.contains p then
      { s with lullSent := s.lullSent.erase x }.toManager 0x22 x.body
    else
      let s := { s with lullSent := s.lullSent.map fun y => if y == x then x' else y }
      (s.route { Packet.engine (s.fld Reg.FAB_LULLCFG.arb_ep) false 0x22 8 0xFFFF x.body with seq := x.seq, age := x.age, resent := true } none
        x'.unreachable).2

/-- FABRIC_RESPONSE_RECEIVE (R383, R408, R413): the tracker takes the first final response of a request, and later ones are discarded. -/
def execFabricResponseReceive (hd : ResponseHead) (data : List Byte) (s : State) : Host.Outcome State Fault Refusal :=
  .next (
    if !s.flag Reg.FAB_EPID.valid then s
    else match s.request? hd.tag hd.seq with
      | none => if hd.type = 0x85 then s.lullUnreachable hd else s
      | some r =>
        let s := s.takeMark r.packet hd.plane hd.mark
        let s := if hd.type = 0x85 then s
          else { s with heard := Table.set 0 s.heard (seqKey r.packet.dst r.packet.group) (s.uptime + 1) }
        match hd.type with
        | 0x82 => s.modRequest hd.tag hd.seq fun y => { y with accepted := true }
        | 0x85 =>
          let un := hd.plane :: r.unreachable
          let s := s.modRequest hd.tag hd.seq fun y => { y with unreachable := un }
          (s.resend r un 0).getD (s.deadRequest r)
        | t =>
          let bad := t == 0x83 || t == 0x84
          let s := if t = 0x83 then (s.count Reg.FAB_REFOUTCNT.count 1).raise Reg.FAB_OPEVT.refused_out Reg.FAB_OPEVTMASK.mask else s
          let s := if t = 0x81 then s.landData r data else s
          let r' := { r with answered := r.answered + 1, failed := r.failed || bad }
          let s := s.modRequest hd.tag hd.seq fun _ => r'
          if s.allAnswered r' then s.finishRequest r' (if !r'.failed then 0 else if t = 0x83 then 2 else 3) else s)

/-- A response of any kind came from a request's destination within the last attempt timer (R413). -/
def State.heardLately (s : State) (r : Request) : Bool :=
  let h := Table.get 0 s.heard (seqKey r.packet.dst r.packet.group)
  let us := if r.packet.gateway.isSome then s.fld Reg.FAB_GWTO.gw_us else s.fld Reg.FAB_RTOCFG.attempt_us
  h != 0 && decide (s.uptime + 1 - h < 1000 * us)

/-- REQUEST_ATTEMPT_TIMEOUT (R413): with no response to the request the tracker sends it again, or poisons it after the last attempt; a
destination that answered anything lately only restarts the timer. -/
def execRequestAttemptTimeout (tag seq : Nat) (s : State) : Host.Outcome State Fault Refusal :=
  .next (match s.request? tag seq with
    | none => s
    | some r =>
      if r.accepted || s.heardLately r then s
      else if s.fld Reg.FAB_RTOCFG.tries ≤ r.attempts then s.deadRequest r
      else ((s.resend r [] 1).map fun s => s.count Reg.FAB_RETRYCNT.count 1).getD
        (s.modRequest tag seq fun y => { y with attempts := y.attempts + 1 }))

/-- ACCEPT_WAIT_TIMEOUT (R413): no completion came after the accepted response. -/
def execAcceptWaitTimeout (tag seq : Nat) (s : State) : Host.Outcome State Fault Refusal :=
  .next (match s.request? tag seq with
    | none => s
    | some r => if r.accepted then s.deadRequest r else s)

/-! ### Fabric instructions (R119, R120) -/

/-- Field var, bits [99:96]. -/
def Psi.var (w : Nat) : Nat := bits w 99 96

/-- What differs between the fabric instructions that send packets (Tables 5.12 and 17.2). -/
structure FabForm where
  ptype : Nat
  var : Nat := 0
  /-- Largest n; 0 where the instruction has no line count. -/
  most : Nat := 0
  /-- Local bytes where n does not give them. -/
  fixed : Nat := 0
  group : Bool := false
  deriving DecidableEq, Repr

/-- The entry of FAB_MCRED that a message uses (R410). -/
def State.creditEntry (s : State) (core job ep key : Nat) : Option Nat :=
  ((List.range 8).map (· + 8 * core)).find? fun i =>
    s.fld Reg.FAB_MCRED.job i == job && s.fld Reg.FAB_MCRED.ep i == ep && s.fld Reg.FAB_MCRED.key i == key && job != 0xFFFF

/-- Put a fabric operation into the FU: refused where its reach does not allow it (R379), else kept with its packets until no fence holds
them. -/
def State.startFab (s : State) (core : Nat) (signal : Option Nat) (dst : Nat) (group : Bool) (ptype : Nat) (pkts : List (Packet × Nat)) :
    State :=
  let index := (s.core core).sq.pc
  if !s.reaches dst group ptype then s.exception core 0x040B 5 index true
  else
    let got := pkts.foldl (fun (a : List (Packet × Nat) × State) x =>
      let g := a.2.stamp (a.2.throughGateway x.1)
      (a.1 ++ [(g.1, x.2)], g.2)) ([], s)
    let pkts := got.1
    let s := got.2
    let s := s.modCore core fun k =>
      { k with fab := k.fab ++ [(⟨s.fabNext, index, pkts.length, false, false, signal, pkts⟩ : FabOp)] }
    { s with fabNext := s.fabNext + 1 }.settleCoreFab core

/-- The packet a fabric instruction at a core builds from its registers, without payload. -/
def State.fabBase (s : State) (core w : Nat) (f : FabForm) : Packet :=
  { dst := s.cnt core (Psi.b w), group := f.group, ptype := f.ptype, var := f.var, lines := if f.ptype = 3 then 0 else s.cnt core (Psi.f76 w),
    key := s.cnt core (Psi.f80 w), offset := if f.ptype = 8 then 0 else s.addr core (Psi.a w), job := (s.core core).sq.job, kind := 0,
    unit := core, seq := 0, tag := 0, gateway := none, resent := false, minimal := false, bytes := [] }

/-- The packets of a fabric instruction with the scratch address of each one's data: one for an atomic or a message, else cut by lines. -/
def FabForm.packets (f : FabForm) (base : Packet) (n l : Nat) (data : List Byte) : List (Packet × Nat) :=
  if f.ptype = 3 then [({ base with bytes := data.take (8 + 8 * f.var) }, l + 8 + 8 * f.var)]
  else if f.ptype = 8 then [({ base with bytes := data }, l)]
  else cutPackets base n l (if f.ptype = 1 then [] else data)

/-- A message spends one credit (R410). -/
def State.spendCredit (s : State) (entry : Option Nat) : State :=
  match entry with
  | some i => s.setFld Reg.FAB_MCRED.credits (s.fld Reg.FAB_MCRED.credits i - 1) i
  | none => s

/-- What a fabric instruction at a core checks and does. -/
def State.fabPlan (s : State) (core vars : Nat) (f : FabForm) (w : Nat) : Plan :=
  let l := s.addr core (Psi.d w)
  let n := s.cnt core (Psi.f76 w)
  let epReg := s.cnt core (Psi.b w)
  let bytes := if f.fixed = 0 then 64 * n else f.fixed
  let entry := if f.ptype = 8 then s.creditEntry core (s.core core).sq.job epReg (s.cnt core (Psi.f80 w)) else none
  let poor := match entry with
    | some i => s.fld Reg.FAB_MCRED.credits i == 0
    | none => f.ptype == 8
  { mask := maskOf 95 76, codes := decide (Psi.sub w < 16) && decide (Psi.var w < vars), atIssue := false, order := inOrder,
    full := decide (64 ≤ (s.core core).fab.length),
    checks := [(l % 64 != 0 || (f.ptype == 3 && s.addr core (Psi.a w) % 8 != 0), 0x0404),
      ((f.most != 0 && (decide (n < 1) || decide (f.most < n))) || decide ((if f.group then 2 ^ 16 else 2 ^ 17) ≤ epReg) || poor, 0x0402),
      (outsideScratch l, 0x0403), (pastScratch l bytes, 0x0409)],
    effect := fun t =>
      (t.spendCredit entry).startFab core (Psi.signal w) epReg f.group f.ptype
        (f.packets (s.fabBase core w f) n l (t.scratchGet core l bytes)) }

/-- One step of the SQ that belongs to a fabric instruction that sends packets. -/
def State.issueFab (s : State) (core : Nat) (mine : Nat → Bool) (vars : Nat) (f : FabForm) : Host.Outcome State Fault Refusal :=
  .next (s.issue core mine fun s w => s.fabPlan core vars f w)

/-- RLD: a remote load of lines into core scratch. -/
def execRld (core : Nat) (s : State) : Host.Outcome State Fault Refusal :=
  s.issueFab core (isOp 0x70) 1 { ptype := 1, most := 4096 }
/-- RST: a remote store of lines from core scratch. -/
def execRst (core : Nat) (s : State) : Host.Outcome State Fault Refusal :=
  s.issueFab core (isOp 0x71) 1 { ptype := 2, most := 4096 }
/-- RATOM var 0: fetch-add; the addend at A[l], the old value returns at A[l] + 8. -/
def execRatomFetchAdd (core : Nat) (s : State) : Host.Outcome State Fault Refusal :=
  s.issueFab core (fun w => Psi.op w == 0x72 && Psi.var w != 1) 2 { ptype := 3, var := 0, fixed := 16 }
/-- RATOM var 1: compare-swap; compare and swap values at A[l], the old value returns at A[l] + 16. -/
def execRatomCompareSwap (core : Nat) (s : State) : Host.Outcome State Fault Refusal :=
  s.issueFab core (fun w => Psi.op w == 0x72 && Psi.var w == 1) 2 { ptype := 3, var := 1, fixed := 24 }
/-- RRED var 0: int32 add. -/
def execRredAddInt32 (core : Nat) (s : State) : Host.Outcome State Fault Refusal :=
  s.issueFab core (fun w => Psi.op w == 0x73 && (Psi.var w == 0 || decide (5 ≤ Psi.var w))) 5 { ptype := 4, var := 0, most := 4096 }
/-- RRED var 1: FP32 add. -/
def execRredAddFp32 (core : Nat) (s : State) : Host.Outcome State Fault Refusal :=
  s.issueFab core (fun w => Psi.op w == 0x73 && Psi.var w == 1) 5 { ptype := 4, var := 1, most := 4096 }
/-- RRED var 2: BF16 add. -/
def execRredAddBf16 (core : Nat) (s : State) : Host.Outcome State Fault Refusal :=
  s.issueFab core (fun w => Psi.op w == 0x73 && Psi.var w == 2) 5 { ptype := 4, var := 2, most := 4096 }
/-- RRED var 3: FP32 max. -/
def execRredMaxFp32 (core : Nat) (s : State) : Host.Outcome State Fault Refusal :=
  s.issueFab core (fun w => Psi.op w == 0x73 && Psi.var w == 3) 5 { ptype := 4, var := 3, most := 4096 }
/-- RRED var 4: BF16 max. -/
def execRredMaxBf16 (core : Nat) (s : State) : Host.Outcome State Fault Refusal :=
  s.issueFab core (fun w => Psi.op w == 0x73 && Psi.var w == 4) 5 { ptype := 4, var := 4, most := 4096 }
/-- RMCS: a multicast store to a group. -/
def execRmcs (core : Nat) (s : State) : Host.Outcome State Fault Refusal :=
  s.issueFab core (isOp 0x74) 1 { ptype := 5, most := 4096, group := true }
/-- BPUT: a bulk put from core scratch. -/
def execBput (core : Nat) (s : State) : Host.Outcome State Fault Refusal :=
  s.issueFab core (isOp 0x75) 1 { ptype := 2, most := 65536 }
/-- BGET: a bulk get into core scratch. -/
def execBget (core : Nat) (s : State) : Host.Outcome State Fault Refusal :=
  s.issueFab core (isOp 0x76) 1 { ptype := 1, most := 65536 }
/-- MSEND: one credit is taken at issue (R410). -/
def execMsend (core : Nat) (s : State) : Host.Outcome State Fault Refusal :=
  s.issueFab core (isOp 0x77) 1 { ptype := 8, most := 4 }

/-- The message queue of a job on a core (R409). -/
def State.jobQueue (s : State) (core job : Nat) : Option Nat :=
  (List.range 256).find? fun i =>
    s.fld Reg.FAB_RGN.kind i == 1 && s.fld Reg.FAB_RGN.job i == job && s.fld Reg.FAB_RGN.core i == core && !(s.queue i).msgs.isEmpty

/-- The 320 bytes MRECV writes (R409). -/
def State.messageBytes (s : State) (m : Message) : List Byte :=
  s.t1Get m.place (64 * m.lines) ++ List.replicate (256 - 64 * m.lines) 0 ++
    toBytes 4 m.ep ++ toBytes 1 m.core ++ toBytes 1 m.lines ++ toBytes 2 0 ++ toBytes 8 m.gsc ++ List.replicate 48 0

/-- MRECV (R409): the oldest message of the job's queue on this core; its slot is freed, and one credit returns to the sender's core. -/
def execMrecv (core : Nat) (s : State) : Host.Outcome State Fault Refusal :=
  .next (s.issue core (isOp 0x78) fun s w =>
    let l := s.addr core (Psi.d w)
    let queue := s.jobQueue core (s.core core).sq.job
    { mask := maskOf 95 76, codes := Psi.sub w == 0, order := inOrder, full := decide (64 ≤ (s.core core).fab.length),
      checks := [(l % 64 != 0, 0x0404), (queue.isNone, 0x0402), (outsideScratch l, 0x0403), (pastScratch l 320, 0x0409)],
      effect := fun s =>
        match queue with
        | none => s
        | some i =>
          match (s.queue i).msgs with
          | [] => s
          | m :: rest =>
            let s := (s.touchLines m.place (64 * m.lines) false).scratchPut core l (s.messageBytes m)
            let s := { s with queuesIn := Table.set MsgQueue.empty s.queuesIn i { s.queue i with msgs := rest } }
            if s.flag Reg.FAB_EPID.valid then s.emit (.credit m.ep m.core m.key) else s })

/-- FENCE (R119, R416): it completes once every earlier fabric operation of the core has. -/
def execFence (core : Nat) (s : State) : Host.Outcome State Fault Refusal :=
  .next (s.issue core (isOp 0x79) fun s w =>
    { mask := maskOf 95 76, codes := Psi.sub w == 0, atIssue := false, order := inOrder, full := decide (64 ≤ (s.core core).fab.length),
      effect := fun s =>
        let s := s.modCore core fun k =>
          { k with fab := k.fab ++ [(⟨s.fabNext, k.sq.pc, 0, false, true, Psi.signal w, []⟩ : FabOp)] }
        { s with fabNext := s.fabNext + 1 }.settleCoreFab core })

/-- CREDIT_RETURN_RECEIVE (R410): a returned credit adds 1 to the sender's entry, sticking at 255; without a valid endpoint
identifier none is accepted (R377). -/
def execCreditReturnReceive (core ep key : Nat) (s : State) : Host.Outcome State Fault Refusal :=
  .next (match ((List.range 8).map (· + 8 * core)).find? fun i =>
      s.flag Reg.FAB_EPID.valid && s.fld Reg.FAB_MCRED.job i != 0xFFFF && s.fld Reg.FAB_MCRED.ep i == ep && s.fld Reg.FAB_MCRED.key i == key with
    | some i => s.setFld Reg.FAB_MCRED.credits (min 255 (s.fld Reg.FAB_MCRED.credits i + 1)) i
    | none => s)

/-! ### The bulk rings (R245, R419) -/

/-- Entries of each bulk ring. -/
def State.bqN (s : State) : Nat := 2 ^ s.fld Reg.FAB_BQCFG.log2n
/-- Position of a ring index. -/
def State.bqPos (s : State) (index phase : Field) : Nat := s.fld index + s.bqN * s.fld phase
/-- Move a ring index. -/
def State.setBqPos (s : State) (index phase : Field) (p : Nat) : State := (s.setFld index (p % s.bqN)).setFld phase (p / s.bqN % 2)
/-- Consumer of the descriptor ring. -/
def State.bqHead (s : State) : Nat := s.bqPos Reg.FAB_BQHEAD.index Reg.FAB_BQHEAD.phase
/-- Producer of the descriptor ring. -/
def State.bqTail (s : State) : Nat := s.bqPos Reg.FAB_BQTAIL.index Reg.FAB_BQTAIL.phase
/-- Consumer of the completion ring. -/
def State.bcHead (s : State) : Nat := s.bqPos Reg.FAB_BCHEAD.index Reg.FAB_BCHEAD.phase
/-- Producer of the completion ring. -/
def State.bcTail (s : State) : Nat := s.bqPos Reg.FAB_BCTAIL.index Reg.FAB_BCTAIL.phase

/-- FAB_BULK_RING_ENABLE (R245, R518): en goes from 0 to 1, and all four indices to index 0, phase 0. -/
def execFabBulkRingEnable (value : Nat) (s : State) : Host.Outcome State Fault Refusal :=
  .next (s.hostWrite 0x802100 4 fun s =>
    if s.flag Reg.FAB_BQCFG.en ∨ bits value 3 0 < 4 ∨ 12 < bits value 3 0 then s
    else if !s.flag Reg.MEM_LOCK.lock then s.latchAccess 3 0x802100 4
    else
      let s := s.setFld Reg.FAB_BQCFG.log2n (bits value 3 0)
      let s := s.clearFlds [Reg.FAB_BQHEAD.index, Reg.FAB_BQHEAD.phase, Reg.FAB_BQTAIL.index, Reg.FAB_BQTAIL.phase, Reg.FAB_BCHEAD.index,
        Reg.FAB_BCHEAD.phase, Reg.FAB_BCTAIL.index, Reg.FAB_BCTAIL.phase]
      s.setFld Reg.FAB_BQCFG.en 1)

/-- FAB_BQTAIL_WRITE (R245). -/
def execFabBqtailWrite (value : Nat) (s : State) : Host.Outcome State Fault Refusal :=
  .next (s.hostWrite 0x802118 4 fun s =>
    let n := s.bqN
    let t := ringPos 12 n value
    if !ringLegal 12 n value ∨ ringDist n s.bqHead t < ringDist n s.bqHead s.bqTail ∨ n < ringDist n s.bqHead t then s
    else s.setBqPos Reg.FAB_BQTAIL.index Reg.FAB_BQTAIL.phase t)

/-- FAB_BCHEAD_WRITE (R245). -/
def execFabBcheadWrite (value : Nat) (s : State) : Host.Outcome State Fault Refusal :=
  .next (s.hostWrite 0x802124 4 fun s =>
    let n := s.bqN
    let h := ringPos 12 n value
    if !ringLegal 12 n value ∨ ringDist n s.bcHead s.bcTail < ringDist n s.bcHead h then s
    else s.setBqPos Reg.FAB_BCHEAD.index Reg.FAB_BCHEAD.phase h)

/-- The descriptor breaks Table 17.7. -/
def State.bulkIllegal (s : State) (bs : List Byte) : Bool :=
  let loc := numAt bs 8 8
  let len := numAt bs 0x18 4
  (numAt bs 0 1 != 1 && numAt bs 0 1 != 2) || numAt bs 1 3 != 0 || decide (2 ^ 17 ≤ numAt bs 4 4) || loc % 64 != 0 || numAt bs 0x10 8 % 64 != 0 ||
    len % 64 != 0 || decide (len < 64) || decide (16777216 < len) || numAt bs 0x22 2 != 0 || numAt bs 0x28 24 != 0 ||
    (match locateRange loc len with
     | some (.t1, o) => s.inCloak o len || s.isLent o len
     | _ => true)

/-- The packets of a descriptor go out; one whose local bytes are poisoned is not sent and counts as a local failure (R217, R419). -/
def State.sendBulk (s : State) (b : Bulk) : State :=
  let off := t1Off b.loc
  let base : Packet :=
    { dst := b.ep, group := false, ptype := if b.op = 1 then 2 else 1, var := 0, lines := 0, key := b.key, offset := b.offset, job := b.job,
      kind := 2, unit := 7, seq := 0, tag := 0, gateway := none, resent := false, minimal := false, bytes := [] }
  let data := if b.op = 1 then s.t1Get off b.length else []
  (cutPackets base (b.length / 64) off data).foldl (fun s x =>
    if b.op == 1 && s.isPoisoned x.2 (64 * x.1.lines) then s.endBulkPacket b.num 0 4
    else
      let s := if b.op = 1 then s.touchLines x.2 (64 * x.1.lines) false else s
      s.sendRequest (s.throughGateway x.1) (.bulk b.num) x.2) s

/-- The FU takes the next descriptor when it has a place and its op is this row's. -/
def State.takeBulk (s : State) (host : List Byte) (mine : Nat → Bool) : State :=
  if !s.flag Reg.FAB_BQCFG.en || s.closing || s.bqHead == s.bqTail || decide (16 ≤ s.bulks.length) ||
      s.areaClosed (s.fld Reg.FAB_BQBASE.base + 64 * (s.bqHead % s.bqN)) 64 then s
  else
    let bs := s.areaGet (s.fld Reg.FAB_BQBASE.base + 64 * (s.bqHead % s.bqN)) 64 host
    if !mine (numAt bs 0 1) then s
    else
      let s := s.touchT1 (s.fld Reg.FAB_BQBASE.base + 64 * (s.bqHead % s.bqN)) 64
      let bad := s.bulkIllegal bs
      let ok := !bad && s.reaches (numAt bs 4 4) false (if numAt bs 0 1 = 1 then 2 else 1)
      let b : Bulk :=
        { num := s.bulkNext, op := numAt bs 0 1, ep := numAt bs 4 4, loc := numAt bs 8 8, offset := numAt bs 0x10 8, length := numAt bs 0x18 4,
          key := numAt bs 0x1C 4, job := numAt bs 0x20 2, tag := numAt bs 0x24 4,
          left := if ok then ceilDiv (numAt bs 0x18 4) 512 else 0, done := 0, status := if bad then 1 else if ok then 0 else 2 }
      let s := s.setBqPos Reg.FAB_BQHEAD.index Reg.FAB_BQHEAD.phase ((s.bqHead + 1) % (2 * s.bqN))
      let s := { s with bulks := s.bulks ++ [b], bulkNext := s.bulkNext + 1 }
      if ok then s.sendBulk b else s

/-- BULK_PUT (R419). An op that Table 17.7 does not give is taken here, and completes as illegal. -/
def execBulkPut (host : List Byte) (s : State) : Host.Outcome State Fault Refusal := .next (s.takeBulk host (· != 2))

/-- BULK_GET (R419). -/
def execBulkGet (host : List Byte) (s : State) : Host.Outcome State Fault Refusal := .next (s.takeBulk host (· == 2))

/-- BULK_COMPLETE (R245, R419): every packet has its outcome and the completion ring has an entry free. -/
def execBulkComplete (num : Nat) (s : State) : Host.Outcome State Fault Refusal :=
  .next (match s.bulks.find? fun b => b.num == num with
    | none => s
    | some b =>
      let n := s.bqN
      if b.left ≠ 0 then s
      else if !s.flag Reg.FAB_BQCFG.en then { s with bulks := s.bulks.erase b }
      else if n ≤ ringDist n s.bcHead s.bcTail then s
      else
        let p := s.bcTail
        let bs := toBytes 4 b.tag ++ toBytes 1 b.status ++ toBytes 1 (entryPhase n p) ++ toBytes 2 0 ++ toBytes 8 b.done
        let s := { s with bulks := s.bulks.erase b }.areaPut (s.fld Reg.FAB_BCBASE.base + 16 * (p % n)) bs
        let s := s.setBqPos Reg.FAB_BCTAIL.index Reg.FAB_BCTAIL.phase ((p + 1) % (2 * n))
        if b.status = 0 then s else s.raise Reg.FAB_OPEVT.bulk_fail Reg.FAB_OPEVTMASK.mask)

end Sys2Proof.Machine
end

