-- ==== Sys2Proof/Machine/Port.lean ====
section
/-! DEFINITION. Ports, planes, the link layer, endpoint identifiers and groups (chapter 16). -/

namespace Sys2Proof.Machine

/-! ### Sending and replaying (R374, R397, R398) -/

/-- The packets whose flits a link still holds, oldest first. -/
def Link.held (l : Link) : List Packet := (l.unacked.flatMap (·.packets)).eraseDups

/-! ### Leaving an up state (R376, R384) -/

/-- Send a packet again on a plane that is still usable, with the planes already chosen for each destination: its requests move there. -/
def State.reroute (s : State) (x : List (Nat × Nat)) (p : Packet) : List (Nat × Nat) × State :=
  let k := seqKey p.dst p.group
  let bound := (x.find? fun y => y.1 == k).map (·.2)
  let got := s.route p bound []
  let plane := got.1
  let s := got.2
  if plane = 16 then (x, s)
  else
    ((k, plane) :: x,
      { s with tracker := s.tracker.map fun r =>
          if r.packet.tag == p.tag && r.packet.seq == p.seq && r.packet.dst == p.dst then { r with plane := plane } else r })

/-- Every request bound to a lost plane is bound to the plane the re-send of its destination chose (R416). -/
def State.rebind (s : State) (port : Nat) (x : List (Nat × Nat)) : State :=
  { s with tracker := s.tracker.map fun r =>
      match if r.plane = port then x.find? fun y => y.1 == seqKey r.packet.dst r.packet.group else none with
      | some y => { r with plane := y.2 }
      | none => r }

/-- Every packet the link has not acknowledged, and every one still in its egress queue, is sent again on other planes; timing packets are
not (R384, R416, R423). With no usable plane left none is. -/
def State.rerouteLink (s : State) (port : Nat) : State :=
  let l := s.link port
  let sent := l.held.filter fun p => !p.timing
  let s := s.setLink port Link.up
  let s := if s.planes.isEmpty then s else s.count Reg.FAB_REROUTECNT.count sent.length
  let again := (sent.map fun p => { p with resent := true }) ++ l.waiting.filter fun p => !p.timing
  let got := again.foldl (fun (x : List (Nat × Nat) × State) p => x.2.reroute x.1 p) ([], s)
  got.2.rebind port got.1

/-- What the loss of usable planes raises (R376): `before` of them were usable. -/
def State.planesFell (s : State) (before : Nat) : State :=
  let now := s.planes.length
  let least := s.fld Reg.FAB_ARCFG.min_planes
  let s := if now < least ∧ least ≤ before then
      (s.raise Reg.FAB_EVT.degraded Reg.FAB_EVTMASK.mask).recordFault 0x0503 .module []
    else s
  if now = 0 ∧ 0 < before then (s.raise Reg.FAB_EVT.isolated Reg.FAB_EVTMASK.mask).moduleFault 0x0502 .module [] else s

/-- A port changes state (R373 to R375): entries to training are counted, and a port that leaves an up state hands its packets over. -/
def State.setPort (s : State) (port st : Nat) : State :=
  if s.fld Reg.FAB_PORTSTAT.state port = st then s
  else
    let up := s.planeUp port
    let before := s.planes.length
    let s := (s.setFld Reg.FAB_PORTSTAT.state st port).raise Reg.FAB_EVT.port_change Reg.FAB_EVTMASK.mask
    let s := if st = 1 then s.count Reg.FAB_RETRAINCNT.count 1 port else s
    if up && !s.planeUp port then (s.rerouteLink port).planesFell before else s

/-- The estimates of a plane start again (R383). -/
def State.coolPlane (s : State) (p : Nat) : State :=
  s.clearFlds [Reg.FAB_AREST.c_local, Reg.FAB_AREST.n_local, Reg.FAB_AREST.c_remote, Reg.FAB_AREST.n_remote] p

/-- A port enters an up state: the link and the plane's estimates start from nothing (R383, R398). -/
def State.portUp (s : State) (port st : Nat) : State :=
  let s := (s.setPort port st).coolPlane port
  let l := s.link port
  (s.setLink port { Link.up with waiting := l.waiting }).pump port (l.waiting.length + 1)

/-- The state and half that training ends in, by the lanes that passed (R373). -/
def trainedState (lanes : Nat) : Nat × Nat :=
  if lanes % 256 = 255 then (3, 0) else if lanes % 16 = 15 then (2, 0) else if lanes / 16 % 16 = 15 then (2, 1) else (0, 0)

/-- PORT_TRAINING_COMPLETE (R373): a training port comes up at 8 or 4 lanes, or returns to down; without light no lane passes (R430). -/
def execPortTrainingComplete (port lanes : Nat) (s : State) : Host.Outcome State Fault Refusal :=
  .next (
    if 16 ≤ port ∨ s.fld Reg.FAB_PORTSTAT.state port ≠ 1 then s
    else
      let got := trainedState (if s.lasers then lanes else 0)
      let st := got.1
      let half := got.2
      let s := (s.setFld Reg.FAB_PORTSTAT.lanes_ok lanes port).setFld Reg.FAB_PORTSTAT.half half port
      if st = 0 then s.setPort port 0 else s.portUp port st)

/-- PORT_TRAINING_RETRY (R373): a port that is down trains again. -/
def execPortTrainingRetry (port : Nat) (s : State) : Host.Outcome State Fault Refusal :=
  .next (if 16 ≤ port ∨ s.fld Reg.FAB_PORTSTAT.state port ≠ 0 then s else s.setPort port 1)

/-- PORT_LOSS_OF_SIGNAL (R374): a lane in use is lost, and an up port goes to training. -/
def execPortLossOfSignal (port : Nat) (s : State) : Host.Outcome State Fault Refusal :=
  .next (if s.planeUp port then s.setPort port 1 else s)

/-- PORT_RETRAIN (R374): an up port goes to training. -/
def execPortRetrain (port : Nat) (s : State) : Host.Outcome State Fault Refusal :=
  .next (if 16 ≤ port then s else s.hostWrite (0x800180 + 4 * port) 4 fun s => if s.planeUp port then s.setPort port 1 else s)

/-- PORT_FENCE (R375): the port is fenced. -/
def execPortFence (port : Nat) (s : State) : Host.Outcome State Fault Refusal :=
  .next (if 16 ≤ port then s
    else s.hostWrite (0x800180 + 4 * port) 4 fun s => (s.setFld Reg.FAB_PORTCTL.fence 1 port).setPort port 4)

/-- PORT_UNFENCE (R375): a fenced port returns to training. -/
def execPortUnfence (port : Nat) (s : State) : Host.Outcome State Fault Refusal :=
  .next (if 16 ≤ port then s
    else s.hostWrite (0x800180 + 4 * port) 4 fun s =>
      let s := s.setFld Reg.FAB_PORTCTL.fence 0 port
      if s.fld Reg.FAB_PORTSTAT.state port = 4 then s.setPort port 1 else s)

/-! ### Receiving (R396 to R398) -/

/-- A receiver discards a flit: it asks once for a replay, and drops data flits until the replay arrives (R397). -/
def State.discardFlit (s : State) (port : Nat) : State :=
  let l := s.link port
  if l.rxStall then s else (s.setLink port { l with rxStall := true }).sendLinkControl port true

/-- The packets that a data flit completes, and what it leaves of the next (R395): one that begins a packet lets go of any part before it, and
one that does not goes on with it. -/
def Link.assemble (l : Link) (flit : List Byte) : List (List Byte) × List Byte :=
  let bs := (if flitNack flit then [] else l.rxPart) ++ flitContent flit
  cutWire (bs.length / 16 + 1) bs

/-- A packet of an engine or control type that Tables 17.16 and 17.17 reserve (R422). -/
def reservedPacket (bs : List Byte) : Bool :=
  let t := ofBytes (bs.take 1)
  (decide (0x1D ≤ t) && decide (t ≤ 0x1F)) || (decide (0x2A ≤ t) && decide (t ≤ 0x2F))

/-- The receiver accepts the next data flit, assembles its packets and frees its buffer (R395, R397, R398). While the target's ingress buffer
is full the credit of a channel 0 flit is withheld (R417). Packets of reserved types are discarded and counted (R422). -/
def State.acceptFlit (s : State) (port : Nat) (flit : List Byte) : State :=
  let vc := flitChannel flit
  let l := s.link port
  let got := l.assemble flit
  let l := { l with rxPackets := got.1.filter fun p => !reservedPacket p, rxPart := got.2 }
  let l := { l with rxNext := (l.rxNext + 1) % 1024, rxStall := false, sinceAck := l.sinceAck + 1 }
  let l := if vc = 0 ∧ 2048 ≤ s.ingress.length then { l with withheld := l.withheld + 1 } else l.free vc 1
  let s := s.setLink port l
  let bad := (got.1.filter reservedPacket).length
  let s := if bad = 0 then s else s.count Reg.FAB_REFINCNT.count bad
  if 64 ≤ l.sinceAck then s.sendLinkControl port false else s

/-- Send again every data flit that is not acknowledged; eight replays of the oldest flit that have failed send the port to training (R374,
R397). -/
def State.replay (s : State) (port : Nat) : State :=
  let l := s.link port
  if l.unacked.isEmpty then s
  else if 8 ≤ l.fails then s.setPort port 1
  else
    let s := (s.setLink port { l with fails := l.fails + 1 }).count Reg.FAB_REPLAYCNT.count 1 port
    l.unacked.foldl (fun s f => s.sendFlit port f.bytes) s

/-- The sender takes an acknowledgement and its credit returns (R397, R398). -/
def Link.acked (l : Link) (ack : Nat) (freed : List Nat) : Link :=
  let rest := l.unacked.filter fun t => laterBy 10 t.seq ack
  { l with
    unacked := rest
    fails := if rest.length < l.unacked.length then 0 else l.fails
    credits := (List.range 5).map fun v => l.credits.getD v 0 + (freed.getD v 0 + 65536 - l.applied.getD v 0) % 65536
    applied := freed }

/-- FLIT_RECEIVE (R396, R397): a data or idle flit, or one that cannot be read, reaches an up port. The packets a data flit completes
stand in the link, and take effect through their own rows. -/
def execFlitReceive (port : Nat) (flit : List Byte) (s : State) : Host.Outcome State Fault Refusal :=
  .next (
    if !s.planeUp port || flitKind flit == 1 then s
    else if flitBad flit then s.discardFlit port
    else if flitKind flit = 2 then s
    else if flitSeq flit = (s.link port).rxNext then s.acceptFlit port flit
    else s.discardFlit port)

/-- LINK_CONTROL_RECEIVE (R397, R398): the sender applies the ack and the credits, replays where it is asked to, and sends what now may go. -/
def execLinkControlReceive (port : Nat) (flit : List Byte) (s : State) : Host.Outcome State Fault Refusal :=
  .next (
    if !s.planeUp port || flitKind flit != 1 then s
    else if flitBad flit then s.discardFlit port
    else
      let l := (s.link port).acked (flitSeq flit) ((List.range 5).map fun v => ofBytes ((flit.drop (4 + 2 * v)).take 2))
      let s := s.setLink port l
      let s := if flitNack flit then s.replay port else s
      s.pump port ((s.link port).waiting.length + 1))

/-- LINK_REPLAY_TIMEOUT (R397): the oldest flit has waited with no advance of ack. -/
def execLinkReplayTimeout (port : Nat) (s : State) : Host.Outcome State Fault Refusal :=
  .next (if s.planeUp port then s.replay port else s)

/-- LINK_ACK_DUE (R397): an accepted flit that no link-control flit has acknowledged is acknowledged. -/
def execLinkAckDue (port : Nat) (s : State) : Host.Outcome State Fault Refusal :=
  .next (if s.planeUp port && decide (0 < (s.link port).sinceAck) then s.sendLinkControl port false else s)

/-! ### Endpoint identifiers and groups (R377 to R381) -/

/-- A discarded write to FAB_EPID or FAB_GRP. -/
def State.rejectFab (s : State) : State := s.raise Reg.FAB_EVT.reject Reg.FAB_EVTMASK.mask

/-- The last identifier of a range, plus one. -/
def State.rangeEnd (s : State) (first count : Field) : Nat := s.fld first + s.fld count

/-- The identifiers do not fit together (R378). -/
def State.badEndpoint (s : State) (ep : Nat) : Bool :=
  let dom := s.rangeEnd Reg.FAB_DOMAIN.first Reg.FAB_DOMAIN.count
  let reg := s.rangeEnd Reg.FAB_REGION.first Reg.FAB_REGION.count
  !s.inDomain ep || decide (s.fld Reg.FAB_DOMAIN.first < s.fld Reg.FAB_REGION.first) || decide (reg < dom) ||
    decide (2 ^ 17 < dom) || decide (2 ^ 17 < reg) || (s.flag Reg.FAB_GWEP.valid && s.inRegion (s.fld Reg.FAB_GWEP.ep))

/-- EPID_VALID_SET (R377, R378, R383): the write names the endpoint and sets valid, or is discarded. -/
def execEpidValidSet (ep : Nat) (s : State) : Host.Outcome State Fault Refusal :=
  .next (s.hostWrite 0x800000 4 fun s =>
    if s.badEndpoint (ep % 2 ^ 17) then s.rejectFab
    else if s.flag Reg.FAB_EPID.valid then s
    else
      let s := (s.setFld Reg.FAB_EPID.ep ep).setFld Reg.FAB_EPID.valid 1
      let s := (List.range 16).foldl State.coolPlane s
      (List.range 16).foldl (fun s p => s.pump p ((s.link p).waiting.length + 1)) s)

/-- EPID_VALID_CLEAR (R378): discarded while a job is active. -/
def execEpidValidClear (s : State) : Host.Outcome State Fault Refusal :=
  .next (s.hostWrite 0x800000 4 fun s => if s.jobs.isEmpty then s.setFld Reg.FAB_EPID.valid 0 else s.rejectFab)

/-- An operation addressed to a group is outstanding: sent, or accepted and held behind a fence. -/
def State.groupBusy (s : State) (g : Nat) : Bool :=
  (s.tracker.any fun r => r.packet.group && r.packet.dst == g) ||
    (List.range 256).any fun c => (s.core c).fab.any fun o => o.held.any fun x => x.1.group && x.1.dst == g

/-- GROUP_ENTRY_WRITE (R381): an 8-byte write of FAB_GRP. -/
def execGroupEntryWrite (group value : Nat) (s : State) : Host.Outcome State Fault Refusal :=
  .next (if 65536 ≤ group then s
    else s.hostWrite (0x880000 + 8 * group) 8 fun s =>
      if s.groupBusy group then s.rejectFab
      else
        ((s.setFld Reg.FAB_GRP.valid (bits value 63 63) group).setFld Reg.FAB_GRP.member (bits value 62 62) group).setFld
          Reg.FAB_GRP.count (bits value 39 32) group)

end Sys2Proof.Machine
end

