-- ==== Sys2Proof/Machine/Rate.lean ====
section
/-! DEFINITION. Steps and rates (chapter 02): the two rate modes, the rail governors, slips and the die-to-die links. Rates are in
0.01 Gstep/s, rails in mV, drift in 0.1 %. -/

namespace Sys2Proof.Machine

/-- The rails of Table 2.3 in mV. -/
def railGrid : List Nat := [600, 650, 700, 720, 750, 800, 850]

/-- The junction temperatures of Table 2.3 in °C. -/
def tempGrid : List Nat := [25, 45, 70, 85, 100]

/-- Table 2.3: minimum DPA ring rate of fresh silicon in 0.01 Gstep/s, one row per rail. -/
def rateGrid : List (List Nat) :=
  [[88, 86, 84, 82, 81], [105, 103, 100, 98, 96], [120, 118, 114, 112, 110], [126, 124, 120, 118, 116],
   [132, 129, 125, 123, 121], [141, 138, 134, 131, 129], [145, 145, 141, 138, 136]]

/-- Index of the grid interval that holds a value. -/
def gridIndex (g : List Nat) (x : Nat) : Nat := ((g.drop 1).dropLast.filter fun y => decide (y ≤ x)).length

/-- A table over the grid of Table 2.3 between its points: linear in voltage, then in temperature (R33), as a fraction. Below 25 °C and
above 100 °C the end columns hold. -/
def gridAt (at' : Nat → Nat → Nat) (mv temp : Nat) : Nat × Nat :=
  let t := max 25 (min 100 temp)
  let i := gridIndex railGrid mv
  let j := gridIndex tempGrid t
  let v0 := railGrid.getD i 0
  let v1 := railGrid.getD (i + 1) 0
  let t0 := tempGrid.getD j 0
  let t1 := tempGrid.getD (j + 1) 0
  let col (b : Nat) : Nat := at' i b * (v1 - mv) + at' (i + 1) b * (mv - v0)
  (col j * (t1 - t) + col (j + 1) * (t - t0), (v1 - v0) * (t1 - t0))

/-- The minimum DPA ring rate of fresh silicon at a rail and a junction (R33). -/
def minRate (mv temp : Nat) : Nat × Nat := gridAt (fun a b => (rateGrid.getD a []).getD b 0) mv temp

/-- `1.03 × r ≤ (Table 2.3 value) × (1 − d)` at a rail and junction (R37, R38). -/
def railHolds (r mv temp : Nat) (d : Int) : Bool :=
  let got := minRate mv temp
  let n := got.1
  let den := got.2
  decide ((103 * r * 1000 * den : Int) ≤ 100 * (n : Int) * (1000 - d))

/-- The drift d_r of the last refit (Table 18.8), two's complement in 16 bits. -/
def State.drift (s : State) : Int := signed 16 (s.fld Reg.PWR_REFIT.d)

/-- The Breeze ceiling for a drift (R37): the highest rate, at most 110, that holds at 0.80 V and 100 °C. -/
def breezeCeiling (d : Int) : Nat := min 110 ((12900 * (1000 - d)) / 103000).toNat

/-- The rails the Breeze governor may choose: 5 mV steps from the floor to 800 mV. -/
def breezeRails (floor : Nat) : List Nat := (List.range ((800 - floor) / 5 + 1)).map fun k => floor + 5 * k

/-- The voltage floor of the last refit, on the governor's 5 mV grid, at least 600 mV (R38, R450). -/
def State.floorMv (s : State) : Nat := min 800 (max 600 (s.fld Reg.PWR_REFIT.floor_mv))

/-- The rail of the Breeze governor (R38): the lowest that holds the rate, else 800 mV. -/
def State.breezeRail (s : State) (r : Nat) : Nat :=
  ((breezeRails s.floorMv).find? fun mv => railHolds r mv (s.fld Reg.PWR_THERM.tj_max) s.drift).getD 800

/-- Breeze mode is active. -/
def State.breeze (s : State) : Bool := s.flag Reg.PWR_RATESTAT.active_mode

/-- The rate the pacing returns to when no limit holds it: the Gust ceiling, or the declared or capped Breeze rate (R35, R36). -/
def State.targetRate (s : State) : Nat := if s.breeze then s.declRate else 145

/-- The C-die rings receive no credit: supply hold or thermal hold (R429, R444). -/
def State.held (s : State) : Bool := s.flag Reg.PWR_SUPSTAT.hold || s.fld Reg.PWR_THERM.state == 2

/-- The Gust ceiling of 1.45 Gstep/s limits the DPA ring (R35, Table 2.6): its natural rate reaches the ceiling, and no limit holds the
pacing lower. -/
def State.atCeiling (s : State) : Bool :=
  !s.breeze && s.pwrgd && !s.apron && !s.held && decide (145 ≤ s.paceRate) && decide (145 ≤ s.naturalRate)

/-- Show the pacing in PWR_RATESTAT, and raise PWR_RATEEVT.suspend when a limit sets suspended (R40, R429). Thermal hold withholds every
credit as supply hold does (R444). -/
def State.showRate (s : State) : State :=
  let susp := (s.breeze && decide (s.paceRate < s.declRate)) || s.held
  let was := s.flag Reg.PWR_RATESTAT.suspended
  let s := s.setFld Reg.PWR_RATESTAT.active_rate (if !s.breeze || s.held then 0 else s.paceRate)
  let s := (s.setFlag Reg.PWR_RATESTAT.suspended susp).setFlag Reg.PWR_RATESTAT.ceiling s.atCeiling
  if susp && !was then s.raise Reg.PWR_RATEEVT.suspend Reg.PWR_RATEEVTMASK.mask else s

/-- Whether the Breeze ceiling holds the module below what PWR_RATECTL declares (Table 2.6, R41, R43). -/
def State.showCapped (s : State) : State :=
  let want := s.flag Reg.PWR_RATECTL.mode
  s.setFlag Reg.PWR_RATESTAT.capped (want && (!s.breeze || decide (s.declRate < s.fld Reg.PWR_RATECTL.breeze_rate)))

/-- Put the pacing at a new target; a limit in force keeps it down (R40). -/
def State.retarget (s : State) (limited : Bool) : State :=
  { s with paceRate := if limited then min s.paceRate s.targetRate else s.targetRate }

/-- The least natural rate at a rail and junction (R33, R34), in 0.01 Gstep/s rounded up; above 100 °C the table gives none. -/
def State.leastRate (s : State) (mv : Nat) : Nat :=
  let got := minRate mv (s.fld Reg.PWR_THERM.tj_max)
  if 100 < s.fld Reg.PWR_THERM.tj_max then 0 else ceilDiv (got.1 * (1000 - s.drift).toNat) (1000 * got.2)

/-- Brilo sets the rails: the core rail asked for, and the uncore rail with it, so that the uncore rings stay within 2 % of their ratio (R28);
in Breeze mode the pacing holds them at exactly that ratio. What rail that takes and the natural rate, from its least value up, are not
specified (R35): free values. -/
def State.setRails (s : State) (mv : Nat) : State :=
  let u := Config.freeValue s.freeCount
  let n := Config.freeValue (s.freeCount + 1)
  let r := Config.freeValue (s.freeCount + 2)
  { s with coreMv := mv, uncoreMv := u, naturalRate := s.leastRate mv + n, uncoreRatio := if s.breeze then 1000 else 980 + r % 41,
           freeCount := s.freeCount + 3 }

/-- The Gust governor's rail, from the floor to 850 mV: within the module's limits the spec does not fix it (R35). It governs nothing while
the core rail is off (R475, R481). -/
def State.gustGovern (s : State) : State :=
  if s.breeze || !s.pwrgd || s.apron then s
  else
    let got := s.free
    let v := got.1
    let s := got.2
    (s.setRails (s.floorMv + v % (851 - s.floorMv))).showRate

/-- Watts of a list of grants. -/
def wattsOf (gs : List Grant) : Nat := (gs.map (·.watts)).sum

/-- The effective cap, whenever the lease budget or a grant changes (R437); the Gust governor follows it. -/
def State.recap (s : State) : State :=
  let l := s.fld Reg.PWR_LEASE.budget_w
  let g := wattsOf s.grantsGiven
  let r := wattsOf s.grantsHeld
  let s := (s.setFld Reg.PWR_CAP.given_w g).setFld Reg.PWR_CAP.received_w r
  (s.setFld Reg.PWR_CAP.cap_w (min 2200 (l + r - g))).gustGovern

/-- Enter Gust mode: pacing at the ceiling of 1.45 Gstep/s, and the rail is the Gust governor's (R35). -/
def State.enterGust (s : State) : State :=
  let limited := decide (s.paceRate < s.targetRate)
  let s := s.setFld Reg.PWR_RATESTAT.active_mode 0
  ({ s with declRate := 0, slipMv := 0 }.retarget limited).gustGovern

/-- Enter Breeze mode at a rate: first the rail for it, then the pacing (R36, R38). A Breeze module keeps no tailwind grant (R441). -/
def State.enterBreeze (s : State) (r : Nat) : State :=
  let limited := decide (s.paceRate < s.targetRate)
  let s := s.setFld Reg.PWR_RATESTAT.active_mode 1
  let s := { s with declRate := r, slipMv := 0, grantsHeld := [] }.retarget limited
  (s.setRails (s.breezeRail r)).recap

/-- Enter the mode and rate asked for, as far as the Breeze ceiling allows: at the ceiling, or in Gust mode below 0.50 Gstep/s (R41, R43). -/
def State.enterMode (s : State) (mode rate : Nat) : State :=
  let top := breezeCeiling s.drift
  if mode = 0 ∨ top < 50 then s.enterGust else s.enterBreeze (min rate top)

/-- Reject a PWR_RATECTL write with a cause (R42). -/
def State.rejectRate (s : State) (cause : Nat) : State :=
  (s.setFld Reg.PWR_RATESTAT.reject_cause cause).raise Reg.PWR_RATEEVT.reject Reg.PWR_RATEEVTMASK.mask

/-- A PWR_RATECTL write: the tests of R42 in order, then the change, which is at once complete where it changes nothing. -/
def State.requestRate (s : State) (mode rate : Nat) : State :=
  if s.flag Reg.PWR_RATESTAT.busy then s.rejectRate 3
  else if rate < 50 ∨ 110 < rate then s.rejectRate 1
  else if mode = 1 ∧ breezeCeiling s.drift < rate then s.rejectRate 2
  else
    let s := (s.setFld Reg.PWR_RATECTL.mode mode).setFld Reg.PWR_RATECTL.breeze_rate rate
    if (mode = 0 ∧ !s.breeze) ∨ (mode = 1 ∧ s.breeze ∧ s.declRate = rate) then s.showCapped
    else ({ s with rateChange := some (mode, rate) }).setFld Reg.PWR_RATESTAT.busy 1

/-- RATECTL_GUST_REQUEST (R42). -/
def execRatectlGustRequest (rate : Nat) (s : State) : Host.Outcome State Fault Refusal :=
  .next (s.hostWrite 0x100100 4 fun s => s.requestRate 0 rate)

/-- RATECTL_BREEZE_REQUEST (R42). -/
def execRatectlBreezeRequest (rate : Nat) (s : State) : Host.Outcome State Fault Refusal :=
  .next (s.hostWrite 0x100100 4 fun s => s.requestRate 1 rate)

/-- RATE_CHANGE_COMPLETE (R42, Table 2.9): the change in progress takes force and busy clears. -/
def execRateChangeComplete (s : State) : Host.Outcome State Fault Refusal :=
  .next (match s.rateChange with
    | none => s
    | some (mode, rate) =>
      let s := s.enterMode mode rate
      ({ s with rateChange := none }.setFld Reg.PWR_RATESTAT.busy 0).showCapped.showRate)

/-- A ring's ratio to the DPA ring as a fraction (Table 2.1). -/
def ringRatio : Ring → Nat × Nat
  | .scratch => (2, 1)
  | .link => (4, 3)
  | _ => (1, 1)

/-- A ring with work began fewer than r × 1 µs − 4 beats at its ratio: r in 0.01 Gstep/s is 10 r beats of the DPA ring (R39). -/
def slipped (rate : Nat) (w : RingWindow) : Bool :=
  let got := ringRatio w.ring
  let n := got.1
  let d := got.2
  w.hadWork && decide (w.begun * d + 4 * d < 10 * rate * n)

/-- The core rail without the raise of the last window's slip. -/
def State.baseMv (s : State) : Nat := s.coreMv - s.slipMv

/-- Put a slip's raise on the core rail for one window, up to 800 mV (R39). -/
def State.raiseRail (s : State) (mv : Nat) : State :=
  let up := min mv (800 - s.baseMv)
  (s.setRails (s.baseMv + up)) |> fun t => { t with slipMv := up }

/-- PACING_WINDOW_END (R39): a window in which any ring slipped is one slip: it is counted and raises the core rail by 10 mV for the next
window; the raise of the window before ends. While a limit holds the module below its declared rate, `r` is the pacing in force, and while
hold withholds every credit no window slips (DEDUCED, log entry 103). -/
def execPacingWindowEnd (rings : List RingWindow) (s : State) : Host.Outcome State Fault Refusal :=
  .next (
    if !s.breeze || s.held || !s.pwrgd then s
    else if rings.any (slipped s.paceRate) then
      ((s.count Reg.PWR_SLIPCNT.count 1).raise Reg.PWR_RATEEVT.slip Reg.PWR_RATEEVTMASK.mask).raiseRail 10
    else if s.slipMv = 0 then s
    else s.raiseRail 0)

/-- The Breeze governor chooses the rail again (R38); a slip's raise stays on top of it to the end of its window. -/
def State.breezeGovern (s : State) : State :=
  if s.breeze && s.pwrgd && !s.apron then { s with coreMv := s.breezeRail s.declRate, slipMv := 0 }.raiseRail s.slipMv else s

/-- BREEZE_RAIL_ADJUST (R38). -/
def execBreezeRailAdjust (s : State) : Host.Outcome State Fault Refusal := .next s.breezeGovern

/-- A limit is in force: throttling or hold, or a draw within 5 % of the cap or above it (R433, R443). -/
def State.limited (s : State) : Bool :=
  s.fld Reg.PWR_THERM.state != 0 || decide (95 * s.fld Reg.PWR_CAP.cap_w < 100 * s.fld Reg.PWR_CAP.draw_w)

/-- One pacing step up, toward the rate the mode allows (R40). -/
def State.paceUp (s : State) : State := { s with paceRate := min s.targetRate (s.paceRate + 1) }.showRate

/-- One pacing step down, to a least rate (R40, R433, R443). -/
def State.paceDown (s : State) (least : Nat) : State :=
  { s with paceRate := if s.paceRate ≤ least then s.paceRate else s.paceRate - 1 }.showRate

/-- PACING_RAISE_STEP (R40): no limit holds, so the pacing rises by one step. -/
def execPacingRaiseStep (s : State) : Host.Outcome State Fault Refusal :=
  .next (if s.limited || s.targetRate ≤ s.paceRate then s else s.paceUp)

/-- The unit a failed die-to-die link is raised against: the C-die at its end, or X-die A for the X-die link. Links are numbered
0 to 11 C-die to M-die, 12 to 17 the C-die mesh, 18 to 21 X-die to C-die 0 to 3, 22 X-die A to X-die B (Table 1.2); `dir` picks
the end of a mesh link that receives. -/
def linkSlot (link dir : Nat) : Nat :=
  let mesh : List (Nat × Nat) := [(0, 1), (0, 2), (0, 3), (1, 2), (1, 3), (2, 3)]
  if link < 12 then slotCdie (link / 3)
  else if link < 18 then
    let got := mesh.getD (link - 12) (0, 1)
    let a := got.1
    let b := got.2
    slotCdie (if dir = 0 then b else a)
  else if link < 22 then slotCdie (link - 18)
  else slotXdieA

end Sys2Proof.Machine
end

