-- ==== Sys2Proof/Machine/Power.lean ====
section
/-! DEFINITION. Power, thermal control and ageing (chapter 18): the inputs, write inhibit and supply hold, the lease and the cap, tailwind,
the diodes, the fray monitors and the refit. -/

namespace Sys2Proof.Machine

/-! ### Inputs (R425 to R427) -/

/-- The voltages of the two inputs in mV, as the carrier measures them. -/
def State.meterInputs (s : State) (main backup : Nat) : State :=
  let s := (s.setFld Reg.PWR_INMEAS.mv main 0).setFld Reg.PWR_INMEAS.mv backup 1
  (s.setFlag Reg.PWR_SUPSTAT.main_ok (decide (50000 ≤ main))).setFlag Reg.PWR_SUPSTAT.backup_ok (decide (50000 ≤ backup))

/-- The carrier changes to an input: counted, and recorded (R426). -/
def State.switchInput (s : State) (input : Nat) : State :=
  let s := (s.setFld Reg.PWR_SUPSTAT.active input).count Reg.PWR_SWCNT.count 1
  (s.raise Reg.PWR_EVT.switchover Reg.PWR_EVTMASK.mask).recordFault 0x0709 .module [input]

/-- INPUT_SWITCH_OVER (R426): the active input is below 48 V and the other at or above 50 V. -/
def execInputSwitchOver (main backup : Nat) (s : State) : Host.Outcome State Fault Refusal :=
  .next (
    let s := s.meterInputs main backup
    let a := s.fld Reg.PWR_SUPSTAT.active
    let got := if a = 0 then (main, backup) else (backup, main)
    let act := got.1
    let other := got.2
    if act < 48000 ∧ 50000 ≤ other then s.switchInput (1 - a) else s)

/-- RETURN_TO_MAIN (R426): P54A has been at or above 50 V for 1 s while P54B was active. -/
def execReturnToMain (main backup : Nat) (s : State) : Host.Outcome State Fault Refusal :=
  .next (
    let s := s.meterInputs main backup
    if s.fld Reg.PWR_SUPSTAT.active = 1 ∧ 50000 ≤ main then s.switchInput 0 else s)

/-! ### Sag, write inhibit and brown-out (R428 to R432) -/

/-- PWR_SUPSTAT as one word, in the emergency record's payload. -/
def State.supstat (s : State) : Nat :=
  s.fld Reg.PWR_SUPSTAT.active + 2 * s.fld Reg.PWR_SUPSTAT.main_ok + 4 * s.fld Reg.PWR_SUPSTAT.backup_ok +
    8 * s.fld Reg.PWR_SUPSTAT.inhibit + 16 * s.fld Reg.PWR_SUPSTAT.hold

/-- Brilo drops its buffer and commits one emergency record alone in a page (R457): the dropped records keep their sequence numbers and
count as lost. A restarting core commits nothing (R467). -/
def State.emergencyRecord (s : State) (mv : Nat) : State :=
  if !s.briloUp then s
  else
    let dropped := s.log.buffer.length
    let last := (s.log.next + 2 ^ 32 - dropped - 1) % 2 ^ 32
    let now := if s.clocks then s.gsc else 0
    let r : LogRecord := ⟨s.log.next, 4, 0, 0, now, s.uptime / 1000, 0, [last, dropped, mv, s.fld Reg.PWR_CAP.draw_w, s.supstat]⟩
    let got := commitPage { s.log with buffer := [r], next := (s.log.next + 1) % 2 ^ 32 }
    let l := got.1
    let lost := got.2
    let s := { s with log := l, emergency := some now }
    (s.count Reg.MGT_LOGLOST.count (dropped + lost)).showLog

/-- Pages of the buffer that are full are programmed (R456). -/
def State.commitFull (s : State) : Nat → State
  | 0 => s
  | n + 1 =>
    if s.log.buffer.length < 256 then s
    else
      let rest := s.log.buffer.drop 256
      let got := commitPage { s.log with buffer := s.log.buffer.take 256 }
      let l := got.1
      let lost := got.2
      (({ s with log := { l with buffer := rest } }.count Reg.MGT_LOGLOST.count lost).showLog).commitFull n

/-- INPUT_BUS_SAG (R428, R429, R457): the bus is below 46 V, so write inhibit and supply hold assert, the NV store stops programming, and the
emergency record goes out. -/
def execInputBusSag (mv : Nat) (s : State) : Host.Outcome State Fault Refusal :=
  .next (
    if s.inhibited then s
    else
      let s := s.setFld Reg.PWR_INMEAS.mv mv (s.fld Reg.PWR_SUPSTAT.active)
      let s := (s.setFld Reg.PWR_SUPSTAT.inhibit 1).setFld Reg.PWR_SUPSTAT.hold 1
      let s := (s.emergencyRecord mv).nvInhibit
      let s := s.count Reg.PWR_INHCNT.count 1
      let s := (s.raise Reg.PWR_EVT.inhibit Reg.PWR_EVTMASK.mask).raise Reg.PWR_EVT.hold Reg.PWR_EVTMASK.mask
      (s.recordFault 0x0703 .module [mv]).showRate)

/-- Every laser goes off, and with it every port that is up or training goes down (R430). -/
def State.lasersOff (s : State) : State :=
  (List.range 16).foldl (fun s p => if s.fld Reg.FAB_PORTSTAT.state p = 4 then s else s.setPort p 0) { s with lasers := false }

/-- LASER_CHECK (R430): 500 µs after the sag the bus is read again. -/
def execLaserCheck (mv : Nat) (s : State) : Host.Outcome State Fault Refusal :=
  .next (
    if !s.inhibited then s
    else
      let s := s.setFld Reg.PWR_INMEAS.mv mv (s.fld Reg.PWR_SUPSTAT.active)
      if mv < 46000 then s.lasersOff else s)

/-- Change the persistence area (R453): the copies in the NOR are written alternately; under write inhibit the write waits. -/
def State.modPersist (s : State) (f : Persist → Persist) : State :=
  let p := f s.persist
  { s with persist := p, copies := if s.inhibited then { s.copies with due := true } else s.copies.write p }

/-- A write of the persistence area that waited takes place (R453). -/
def State.writeDue (s : State) : State := if s.copies.due then s.modPersist id else s

/-- INHIBIT_CLEAR (R428, R429, R457): the bus has been at or above 47 V for 10 ms. The rings resume, the NV store opens a journal segment, a
NOR write that is due takes place, and Brilo goes on at its next seq. -/
def execInhibitClear (mv : Nat) (s : State) : Host.Outcome State Fault Refusal :=
  .next (
    if !s.inhibited || decide (mv < 47000) then s
    else
      let s := s.setFld Reg.PWR_INMEAS.mv mv (s.fld Reg.PWR_SUPSTAT.active)
      let s := (s.setFld Reg.PWR_SUPSTAT.inhibit 0).setFld Reg.PWR_SUPSTAT.hold 0
      let s := { s with emergency := none, lasers := s.pwrgd && !s.trip && !s.apron }.nvUninhibit.writeDue
      (s.commitFull (s.log.buffer.length / 256)).showRate)

/-- The units without power once the core rails and the uncore rails of the M-dies and X-die B are down (Table 20.6); a unit with members
follows them (R51). -/
def poweredUnits : List Nat := span 21 33 ++ [slotXdieB] ++ span 36 40 ++ span 64 320

/-- The compute rails go down: PWRGD is released, the rings stop, and every unit on those rails is off (R50, R475, R484). -/
def State.computeOff (s : State) : State :=
  poweredUnits.foldl (fun s u => s.setRun u Run.off)
    ({ s with coreMv := 0, naturalRate := 0, slipMv := 0, pwrgd := false }.setFld Reg.PWR_RATESTAT.ceiling 0)

/-- The core and uncore rails go down, and the main clocks stop (R475). -/
def State.railsOff (s : State) : State := { s with uncoreMv := 0, clocks := false }.computeOff

/-- BROWN_OUT (R431): the bus falls below 40 V. Every rail is lost; what is volatile is gone at the power-on reset that follows. -/
def execBrownOut (s : State) : Host.Outcome State Fault Refusal :=
  .next (
    if !s.inhibited then s
    else
      let s := (s.lasersOff.railsOff).setFld Reg.TOP_STARTSTAT.stage 0
      { s with stopped := true, readyPin := false, briloUp := false, pcieUp := false, pcieWidth := 0, pcieSpeed := 0 })

/-! ### Lease and cap (R433 to R437) -/

/-- Brilo takes a lease (R434): applied (0), budget out of range (1), or not later than the lease in force (2). -/
def State.takeLease (s : State) (budget number : Nat) : Nat × State :=
  if budget < 400 ∨ 2200 < budget then (1, s)
  else if s.fld Reg.PWR_LEASE.state = 1 ∧ !laterBy 32 (number % 2 ^ 32) (s.fld Reg.PWR_LEASE.seq) then (2, s)
  else
    let s := (s.setFld Reg.PWR_LEASE.budget_w budget).setFld Reg.PWR_LEASE.seq number
    let s := s.setFld Reg.PWR_LEASE.state 1
    (0, { s with leaseAt := s.uptime }.recap)

/-- Time to expiry of the lease in force in ms (Table 18.5). -/
def State.leaseLeft (s : State) : Nat :=
  if s.fld Reg.PWR_LEASE.state = 1 then (s.leaseAt + 2000000000 - s.uptime) / 1000000 else 0

/-- LEASE_EXPIRE (R435): the timer of the lease in force fires. -/
def execLeaseExpire (s : State) : Host.Outcome State Fault Refusal :=
  .next (
    if s.fld Reg.PWR_LEASE.state ≠ 1 then s
    else
      let s := s.setFld Reg.PWR_LEASE.budget_w (min 1200 (s.fld Reg.PWR_LEASE.budget_w))
      let s := (s.setFld Reg.PWR_LEASE.state 2).recap
      (s.raise Reg.PWR_EVT.lease_expired Reg.PWR_EVTMASK.mask).recordFault 0x0705 .module [s.fld Reg.PWR_LEASE.seq])

/-- CAP_PACING_STEP (R433): every 20 µs the draw, the sum of the two meters' 1 ms averages, is held against the cap. The pacing falls by one
step above the cap, and rises by one once the draw is 5 % below it and no temperature limit holds it. -/
def execCapPacingStep (main backup : Nat) (s : State) : Host.Outcome State Fault Refusal :=
  .next (
    let s := (s.setFld Reg.PWR_INMEAS.power_w main 0).setFld Reg.PWR_INMEAS.power_w backup 1
    let s := s.setFld Reg.PWR_CAP.draw_w (main + backup)
    if s.fld Reg.PWR_CAP.cap_w < main + backup then (s.paceDown 0).gustGovern
    else if s.limited || decide (s.targetRate ≤ s.paceRate) then s
    else s.paceUp)

/-! ### Tailwind (R438 to R441) -/

/-- A write that sets PWR_TWCFG.en (R438): every grant and the reports go. -/
def State.enableTailwind (s : State) (grp : Nat) : State :=
  let s := if s.flag Reg.PWR_TWCFG.en then s else s.setFld Reg.PWR_TWCFG.grp grp
  { s with grantsHeld := [], grantsGiven := [], twWindow := none, twReports := [] }.recap.setFld Reg.PWR_TWCFG.en 1

/-- TAILWIND_ENABLE (R438). -/
def execTailwindEnable (grp : Nat) (s : State) : Host.Outcome State Fault Refusal :=
  .next (s.hostWrite 0x100300 4 fun s => s.enableTailwind grp)

/-- The module takes part in tailwind: enabled, a member of the group, and its management core runs (R438, R467). -/
def State.tailwind (s : State) : Bool :=
  s.flag Reg.PWR_TWCFG.en && s.flag Reg.FAB_GRP.member (s.fld Reg.PWR_TWCFG.grp) && s.briloUp

/-- The tailwind window that ended last (R439). -/
def State.endedWindow (s : State) : Nat := s.gsc / 1000000 - 1

/-- Keep a report: a later window replaces the reports held, an earlier one is not kept, and each endpoint counts once. -/
def State.keepReport (s : State) (window : Nat) (r : TwReport) : State :=
  let fresh := match s.twWindow with
    | none => true
    | some w => decide (w < window)
  let s := if fresh then { s with twWindow := some window, twReports := [r] }
    else if s.twWindow = some window ∧ !s.twReports.any (fun x => x.ep == r.ep) then { s with twReports := s.twReports ++ [r] }
    else s
  s.setFld Reg.PWR_TWSTAT.reports (s.twReports.length)

/-- The job of tailwind holds cores of this module (R439). -/
def State.twHolds (s : State) : Bool :=
  match s.job? (s.fld Reg.PWR_TWCFG.job) with
  | some j => j.state == .resident && !j.cores.isEmpty
  | none => false

/-- TAILWIND_REPORT_SEND (R439): a member multicasts its slack in the window that has ended, and keeps its own report. -/
def execTailwindReportSend (slack : Nat) (s : State) : Host.Outcome State Fault Refusal :=
  .next (
    if !s.tailwind then s
    else
      let w := s.endedWindow
      let sl := if s.twHolds then min 100 slack else 100
      let s := s.setFld Reg.PWR_TWSTAT.slack sl
      let s := s.keepReport w ⟨s.fld Reg.FAB_EPID.ep, sl, !s.breeze⟩
      s.sendControl (s.fld Reg.PWR_TWCFG.grp) true 0x24
        (lineOf [(0, 2, s.fld Reg.PWR_TWCFG.job), (2, 1, sl), (3, 1, ofFlag !s.breeze), (8, 8, w)]))

/-- TAILWIND_REPORT_RECEIVE (R439): a member keeps a partner's report. -/
def execTailwindReportReceive (hd : PacketHead) (job slack eligible window : Nat) (s : State) : Host.Outcome State Fault Refusal :=
  .next (s.controlTake hd fun s =>
    if s.tailwind && job == s.fld Reg.PWR_TWCFG.job && hd.source != s.fld Reg.FAB_EPID.ep then
      s.keepReport window ⟨hd.source, slack, eligible != 0⟩
    else s)

/-- What a member may donate (R440). -/
def State.donation (s : State) (slack : Nat) : Nat :=
  10 * ((s.fld Reg.PWR_LEASE.budget_w - s.fld Reg.PWR_TWCFG.floor_w) * slack / 2000)

/-- The eligible member with the least slack below a donor's own; a tie goes to the lowest endpoint (R440). -/
def neediest (rs : List TwReport) (own : Nat) : Option TwReport :=
  (rs.filter fun r => r.eligible && decide (r.slack < own)).foldl (fun (b : Option TwReport) r =>
    match b with
    | none => some r
    | some x => if r.slack < x.slack ∨ (r.slack = x.slack ∧ r.ep < x.ep) then some r else some x) none

/-- Give watts until an expiry (R441): added to G before the grant is sent. -/
def State.giveGrant (s : State) (dst : Nat) (group : Bool) (members watts expiry : Nat) : State :=
  if watts = 0 ∨ members = 0 then s
  else
    let s := { s with grantsGiven := s.grantsGiven ++ List.replicate members (⟨watts, expiry⟩ : Grant) }.recap
    s.sendControl dst group 0x25 (lineOf [(0, 2, s.fld Reg.PWR_TWCFG.job), (4, 4, watts), (8, 8, expiry)])

/-- TAILWIND_DECISION (R440): 20 µs after a window ends. The grants of a member without history go to its group in one multicast. -/
def execTailwindDecision (s : State) : Host.Outcome State Fault Refusal :=
  .next (
    if !s.tailwind then s
    else
      let w := s.endedWindow
      let grp := s.fld Reg.PWR_TWCFG.grp
      let members := s.fld Reg.FAB_GRP.count grp
      let rs := if s.twWindow = some w then s.twReports else []
      let full := decide (members ≤ rs.length)
      let s := (s.setFlag Reg.PWR_TWSTAT.history full).setFld Reg.PWR_TWSTAT.reports rs.length
      let expiry := (w + 2) * 1000000 + 20000
      match rs.find? fun r => r.ep == s.fld Reg.FAB_EPID.ep with
      | none => s
      | some own =>
        let g := s.donation own.slack
        if !own.eligible || s.breeze || decide (own.slack < s.fld Reg.PWR_TWCFG.slack_pct) || decide (members ≤ 1) then s
        else if full then
          match neediest rs own.slack with
          | some r => s.giveGrant r.ep false 1 g expiry
          | none => s
        else s.giveGrant grp true (members - 1) (g / (members - 1)) expiry)

/-- TAILWIND_GRANT_RECEIVE (R441): accepted by a Gust member of the job before the expiry, else discarded and counted. -/
def execTailwindGrantReceive (hd : PacketHead) (job watts expiry : Nat) (s : State) : Host.Outcome State Fault Refusal :=
  .next (s.controlTake hd fun s =>
    if hd.source = s.fld Reg.FAB_EPID.ep then s
    else if job == s.fld Reg.PWR_TWCFG.job && s.flag Reg.PWR_TWCFG.en && !s.breeze && decide (s.gsc < expiry) then
      { s with grantsHeld := s.grantsHeld ++ [(⟨watts, expiry⟩ : Grant)] }.recap
    else s.count Reg.PWR_TWDISCNT.count 1)

/-- TAILWIND_GRANT_EXPIRE (R441): the grants held that expire at an instant go. -/
def execTailwindGrantExpire (expiry : Nat) (s : State) : Host.Outcome State Fault Refusal :=
  .next { s with grantsHeld := s.grantsHeld.filter fun g => g.expiry != expiry }.recap

/-- TAILWIND_GIVEN_RELEASE (R441): 10 µs after an expiry its grants no longer count as given. -/
def execTailwindGivenRelease (expiry : Nat) (s : State) : Host.Outcome State Fault Refusal :=
  .next { s with grantsGiven := s.grantsGiven.filter fun g => g.expiry != expiry }.recap

/-! ### Temperature (R442 to R445) -/

/-- The hottest diode, the lowest of equals, with its temperature in 1/16 °C. -/
def hottest (temps : List Int) : Nat × Int :=
  (temps.zipIdx.foldl (fun (b : Option (Nat × Int)) x =>
    match b with
    | none => some (x.2, x.1)
    | some (i, t) => if t < x.1 then some (x.2, x.1) else some (i, t)) none).getD (0, 0)

/-- Change PWR_THERM.state, raising what entering the state raises (R443, R444). A Breeze module that begins to throttle lowers its pacing at
once (R40, Table 2.9), and by further steps after. -/
def State.setThermal (s : State) (st : Nat) : State :=
  let was := s.fld Reg.PWR_THERM.state
  let s := s.setFld Reg.PWR_THERM.state st
  let s := if was = 0 ∧ st ≠ 0 then s.raise Reg.PWR_EVT.throttle Reg.PWR_EVTMASK.mask else s
  let s := if was = 0 ∧ st = 1 ∧ s.breeze then s.paceDown 50 else s
  let s := if was ≠ 2 ∧ st = 2 then
      (s.raise Reg.PWR_EVT.thermal_hold Reg.PWR_EVTMASK.mask).recordFault 0x0701 .module [s.fld Reg.PWR_THERM.tj_max]
    else s
  if was = st then s else s.showRate

/-- The thermal state for a hottest junction in 1/16 °C (R443, R444). -/
def thermalNext (st : Nat) (t : Int) (throttle : Nat) : Nat :=
  if 105 * 16 ≤ t then 2
  else if st = 2 ∧ 100 * 16 ≤ t then 2
  else if (throttle : Int) * 16 ≤ t then 1
  else if st ≠ 0 ∧ ((throttle : Int) - 2) * 16 ≤ t then 1
  else 0

/-- DIODE_SAMPLE (R442 to R444): Brilo reads the 72 diodes, in 1/16 °C. -/
def execDiodeSample (temps : List Int) (s : State) : Host.Outcome State Fault Refusal :=
  .next (
    let ts := temps.take 72
    let s := ts.zipIdx.foldl (fun s x => s.setFld Reg.PWR_DIODE.temp (unsigned 16 x.1) x.2) s
    let got := hottest ts
    let d := got.1
    let t := got.2
    let s := (s.setFld Reg.PWR_THERM.tj_max (t / 16).toNat).setFld Reg.PWR_THERM.diode d
    (s.setThermal (thermalNext (s.fld Reg.PWR_THERM.state) t (s.fld Reg.PWR_THCFG.throttle_c))).gustGovern)

/-- THROTTLE_STEP (R443): after 50 µs of throttling the pacing falls by one step at or above the throttle point, to 0.50 Gstep/s. -/
def execThrottleStep (s : State) : Host.Outcome State Fault Refusal :=
  .next (
    if s.fld Reg.PWR_THERM.state ≠ 1 then s
    else
      let s := s.count Reg.PWR_THROTNS.count 50000
      if s.fld Reg.PWR_THCFG.throttle_c ≤ s.fld Reg.PWR_THERM.tj_max then s.paceDown 50 else s)

/-- THERMAL_TRIP (R445): a diode reaches 115 °C. The trip is latched, the rails and the lasers go off, and Brilo records it. -/
def execThermalTrip (diode : Nat) (s : State) : Host.Outcome State Fault Refusal :=
  .next (
    if s.trip then s
    else
      let s := { s with trip := true, thermtrip := true }.moduleFault 0x0702 .module [diode, s.fld Reg.PWR_THERM.tj_max]
      s.lasersOff.railsOff)

/-! ### Fray monitors and refit (R447 to R451) -/

/-- The die a fray monitor lies on: C-dies 0 to 3, M-dies 4 to 15, X-die A 16, X-die B 17 (R447). -/
def frayDie (m : Nat) : Nat := if m < 32 then m / 8 else if m < 44 then 4 + (m - 32) else if m < 46 then 16 else 17

/-- The UCB slot of that die. -/
def fraySlot (m : Nat) : Nat :=
  if m < 32 then slotCdie (m / 8) else if m < 44 then slotMdie (m - 32) else if m < 46 then slotXdieA else slotXdieB

/-- The factory count n_0 of a monitor at the present rail and hottest junction (R447), as a fraction: the fuses hold it at the grid points
of Table 2.3, whose rail is the core rail, and it is taken between them as R33 does. -/
def State.frayBase (s : State) (m : Nat) : Nat × Nat := gridAt (Config.frayFuse m) (max 600 (min 850 s.coreMv)) (s.fld Reg.PWR_THERM.tj_max)

/-- A drift n_0 ÷ n − 1 from −1.0 % to +25.0 % (R448). -/
def frayValid (n0 : Nat × Nat) (n : Nat) : Bool :=
  n != 0 && decide (990 * (n * n0.2) ≤ 1000 * n0.1) && decide (1000 * n0.1 ≤ 1250 * (n * n0.2))

/-- Write one count to PWR_FRAY, in 0.1 %, rounded to the nearest (R154, R447); an invalid monitor is marked and reported (R448). The drift
of a count of 0 is not stated. -/
def State.readFray (s : State) (m n : Nat) : State :=
  let n0 := s.frayBase m
  let got := if n = 0 then s.free else (unsigned 16 (divEven (1000 * n0.1) (n * n0.2) - 1000), s)
  let v := got.1
  let s := got.2
  let s := s.setFld Reg.PWR_FRAY.drift v m
  if frayValid n0 n then s.setFld Reg.PWR_FRAY.valid 1 m
  else
    let s := (s.setFld Reg.PWR_FRAY.valid 0 m).raise Reg.PWR_EVT.fray_fault Reg.PWR_EVTMASK.mask
    s.recordFault 0x0708 (.unit (fraySlot m)) [m]

/-- The counts of the 48 monitors; a monitor that gave none counted no beat. -/
def frayCounts (counts : List Nat) : List Nat := (List.range 48).map fun m => counts.getD m 0

/-- The measured drift of 48 counts in 0.1 %, rounded up (R448): the largest valid one, plus 1.0 % where a die has no valid monitor; none
where no monitor is valid. -/
def State.measuredDrift (s : State) (counts : List Nat) : Option Int :=
  let ok := (frayCounts counts).zipIdx.filter fun x => frayValid (s.frayBase x.2) x.1
  match ok.map fun x => ((ceilDiv (1000 * (s.frayBase x.2).1) (x.1 * (s.frayBase x.2).2) : Nat) : Int) - 1000 with
  | [] => none
  | d :: ds =>
    let top := ds.foldl max d
    if (List.range 18).all fun k => ok.any fun x => frayDie x.2 == k then some top else some (top + 10)

/-- Measure every monitor (R447). -/
def State.measureFray (s : State) (counts : List Nat) : State := (frayCounts counts).zipIdx.foldl (fun s x => s.readFray x.2 x.1) s

/-- A refit starts, or is merged into the one that runs (R449). -/
def State.startRefit (s : State) : State := s.setFld Reg.PWR_REFITCTL.busy 1

/-- FRAY_SAMPLE (R447 to R449): every 10 s Brilo reads the monitors; a drift 0.5 % above the last refit's starts a refit. -/
def execFraySample (counts : List Nat) (s : State) : Host.Outcome State Fault Refusal :=
  .next (
    if !s.briloUp || !s.pwrgd then s
    else
      let got := s.measuredDrift counts
      let s := s.measureFray counts
      match got with
      | some d => if s.drift + 5 ≤ d then s.startRefit else s
      | none => s)

/-- REFIT_PERIOD (R449): the refit period has passed. -/
def execRefitPeriod (s : State) : Host.Outcome State Fault Refusal :=
  .next (if s.briloUp && s.pwrgd then s.startRefit else s)

/-- REFIT_REQUEST (R449): a write of 1 to PWR_REFITCTL.start. -/
def execRefitRequest (s : State) : Host.Outcome State Fault Refusal := .next (s.hostWrite 0x100600 4 State.startRefit)

/-- The voltage floor in mV for a drift (R450). -/
def refitFloor (d : Int) : Nat := min 700 (600 + 5 * ceilDiv d.toNat 5)

/-- The SRAM assist level for a drift (R450). -/
def refitAssist (d : Int) : Nat := if d < 20 then 0 else if d < 40 then 1 else if d < 60 then 2 else 3

/-- The remaining margin in 0.1 %, rounded down (R451). -/
def refitMargin (d : Int) (target : Nat) : Int := (129 * (1000 - d) - 1030 * (target : Int)) / 129

/-- The reports of the margin (R451). -/
def State.showMargin (s : State) (m : Int) : State :=
  let s := if m < s.fld Reg.PWR_REFITCFG.warn then
      (s.raise Reg.PWR_EVT.margin_warn Reg.PWR_EVTMASK.mask).recordFault 0x0706 .module [unsigned 16 m]
    else s
  if m ≤ 0 then (s.raise Reg.PWR_EVT.margin_end Reg.PWR_EVTMASK.mask).recordFault 0x0707 .module [unsigned 16 m] else s

/-- A refit writes its results together (R449 to R451). -/
def State.writeRefit (s : State) (d : Int) (atStart : Bool) : State :=
  let m := refitMargin d (s.fld Reg.PWR_REFITCFG.target_rate)
  let s := s.setFld Reg.PWR_REFIT.d (unsigned 16 d)
  let s := s.setFld Reg.PWR_REFIT.floor_mv (refitFloor d)
  let s := s.setFld Reg.PWR_REFIT.ceiling (breezeCeiling d)
  let s := s.setFlag Reg.PWR_REFIT.at_start atStart
  let s := s.setFld Reg.PWR_REFIT.assist (refitAssist d)
  let s := s.setFld Reg.PWR_REFIT.margin (unsigned 16 m)
  let s := s.setFld Reg.PWR_REFITGSC.gsc s.gsc
  let s := s.setFld Reg.PWR_REFITCTL.busy 0
  let s := s.raise Reg.PWR_EVT.refit Reg.PWR_EVTMASK.mask
  let s := s.logRecord 2 0 0 0 [unsigned 16 d, refitFloor d, breezeCeiling d, refitAssist d, unsigned 16 m]
  s.showMargin m

/-- The governors act on a refit (R38, R41): a Breeze module above the new ceiling runs at it, or in Gust mode below 0.50 Gstep/s. -/
def State.obeyRefit (s : State) : State :=
  if !s.breeze then s.gustGovern
  else
    let top := breezeCeiling s.drift
    if top < s.declRate then ((s.enterMode 1 top).showCapped).showRate
    else s.breezeGovern

/-- REFIT_COMPLETE (R448 to R451): a refit other than the start's ends. Without a valid monitor it keeps the last d_r. -/
def execRefitComplete (counts : List Nat) (s : State) : Host.Outcome State Fault Refusal :=
  .next (
    if !s.flag Reg.PWR_REFITCTL.busy || !s.briloUp then s
    else
      let got := s.measuredDrift counts
      let s := s.measureFray counts
      let d := match got with
        | some d => max d s.drift
        | none => s.drift
      (s.writeRefit d false).obeyRefit)

end Sys2Proof.Machine
end

