-- ==== Sys2Proof/Machine/Brilo.lean ====
section
/-! DEFINITION. Brilo (chapter 19): the start and restart of the management core, firmware images, the event log's reads, the mailbox, and
the MCTP, PLDM and SPDM messages it answers. A message goes out as its numbers in order: the message type, for PLDM its type, command and
completion code, for SPDM its code, then its fields. -/

namespace Sys2Proof.Machine

/-! ### Restart and start of the management core (R463 to R468) -/

/-- Change the firmware state of Brilo. -/
def State.modBrilo (s : State) (f : Brilo → Brilo) : State := { s with brilo := f s.brilo }

/-- The start sequence is in progress (R474, R482). -/
def State.starting (s : State) : Bool :=
  s.fld Reg.TOP_STARTSTAT.stage != 0 && !s.flag Reg.TOP_STARTSTAT.ready && !s.stopped && s.shutdown.isNone &&
    !(s.apron && s.flag Reg.CAP_STATUS.ready)

/-- A shutdown is in progress and not done (R483). -/
def State.shuttingDown (s : State) : Bool :=
  match s.shutdown with
  | some d => decide (d.phase < 7)
  | none => false

/-- The management core restarts (R467, Table 19.11): its data memory starts afresh, identity key, sessions and the identifiers its bindings
were given among it, and it answers nothing until it has started. -/
def State.coreRestart (s : State) : State :=
  { s with briloUp := false }.modBrilo fun b =>
    { b with eids := [], sessions := [], negotiated := [], identity := false, update := none, restartDue := false }

/-- A restart that had to wait for a start or a shutdown takes place (R466). -/
def State.dueRestart (s : State) : State := if s.brilo.restartDue then s.coreRestart else s

/-- Image slot A (0) or B (1). -/
def Persist.image (p : Persist) (i : Nat) : Image := if i = 0 then p.imageA else p.imageB

/-- Put an image in a slot. -/
def Persist.setImage (p : Persist) (i : Nat) (im : Image) : Persist :=
  if i = 0 then { p with imageA := im } else { p with imageB := im }

/-- Write or erase an image slot in the NOR, which the persistence copies do not hold (Table 19.2). -/
def State.setImage (s : State) (i : Nat) (im : Image) : State :=
  { s with
    persist := s.persist.setImage i im
    copies := { s.copies with current := s.copies.current.setImage i im, other := s.copies.other.map fun p => p.setImage i im } }

/-- An image is valid at the present counter and revoke bits (R463). -/
def State.imageValid (s : State) (im : Image) : Bool := im.sound && !s.revoked.contains im.key && decide (s.counter ≤ im.svn)

/-- The boot ROM's update of the selection record (R464, steps 1 and 2). -/
def Persist.boot (p : Persist) : Persist :=
  if p.trial then
    if p.trials = 3 then { p with preferred := 1 - p.preferred, trial := false, trials := 0 } else { p with trials := p.trials + 1 }
  else p

/-- Happenings the supervisor kept during a restart reach the log, then one record for those it could not keep (R467). -/
def State.drainQueue (s : State) : State :=
  let q := s.log.queued
  let n := s.log.overflow
  let s := { s with log := { s.log with queued := [], overflow := 0 } }.showLog
  let s := q.foldl State.addRecord s
  if n = 0 then s else (s.logRecord 6 0 0 0 [n]).count Reg.MGT_LOGLOST.count n

/-- The core runs an image (R464): what MGT_STATUS and MGT_FWVER show, and the identity key in data memory (Table 19.11). -/
def State.runImage (s : State) (i : Nat) : State :=
  let im := s.persist.image i
  let s := s.setFld Reg.MGT_STATUS.image i
  let s := s.setFld Reg.MGT_STATUS.healthy 0
  let s := s.setFlag Reg.MGT_STATUS.trial (s.persist.trial && i == s.persist.preferred)
  let s := s.setFld Reg.MGT_STATUS.recovery 0
  let s := s.setFld Reg.MGT_STATUS.svn im.svn
  let s := s.setFld Reg.MGT_STATUS.counter s.counter
  let s := s.setFld Reg.MGT_FWVER.version im.version
  ({ s with briloUp := true }.modBrilo fun b => { b with identity := true }).drainQueue

/-- Neither image is valid (R464): recovery, a state of class M, and a failed stage 1 where a start is in progress (R482). -/
def State.enterRecovery (s : State) (cause : Nat) : State :=
  let inStart := s.starting
  let s := ((s.setFld Reg.MGT_STATUS.recovery 1).setFld Reg.MGT_STATUS.trial 0).setFld Reg.MGT_STATUS.healthy 0
  let s := s.setFld Reg.MGT_STATUS.counter s.counter
  let s := ({ s with briloUp := true }.modBrilo fun b => { b with identity := false }).drainQueue
  let s := s.moduleFault 0x0802 (.unit slotXdieA) []
  if inStart then
    let s := (s.setFld Reg.TOP_STARTSTAT.cause cause).setFld Reg.TOP_STARTSTAT.fail_stage 1
    (s.modPersist fun p => { p with failCause := cause, failStage := 1, failed := true }).recordFault cause .module [1]
  else s

/-- MANAGEMENT_CORE_START (R464): the boot ROM updates the selection record and runs a valid image, or enters recovery. A NOR write that is
due waits out write inhibit (R453). -/
def execManagementCoreStart (s : State) : Host.Outcome State Fault Refusal :=
  .next (
    if s.briloUp || s.fld Reg.TOP_STARTSTAT.stage == 0 || (s.persist.trial && s.inhibited) then s
    else
      let s := s.modPersist Persist.boot
      let i := s.persist.preferred
      if s.imageValid (s.persist.image i) then s.runImage i
      else if s.imageValid (s.persist.image (1 - i)) then
        ((s.runImage (1 - i)).logRecord 3 2 0 slotXdieA [i]).recordFault 0x0801 (.unit slotXdieA) [i]
      else s.enterRecovery 0x0202)

/-- IMAGE_HEALTHY (R465): the running image has swept its sensors, applied the lease state and answered on every binding that has an
identifier, which it took by answering Set Endpoint ID. One in trial is committed, and then the rollback counter rises to its svn. -/
def execImageHealthy (s : State) : Host.Outcome State Fault Refusal :=
  .next (
    if !s.briloUp || s.flag Reg.MGT_STATUS.healthy || s.flag Reg.MGT_STATUS.recovery || s.inhibited then s
    else
      let s := s.setFld Reg.MGT_STATUS.healthy 1
      if !s.flag Reg.MGT_STATUS.trial then s
      else
        let s := s.modPersist fun p => { p with trial := false, trials := 0 }
        let s := { s with counter := max s.counter (min 64 (s.fld Reg.MGT_STATUS.svn)) }
        (s.setFld Reg.MGT_STATUS.trial 0).setFld Reg.MGT_STATUS.counter s.counter)

/-- TRIAL_WATCHDOG_EXPIRE (R465): a trial image has missed its deadline. -/
def execTrialWatchdogExpire (s : State) : Host.Outcome State Fault Refusal :=
  .next (if s.briloUp && s.flag Reg.MGT_STATUS.trial && !s.flag Reg.MGT_STATUS.healthy then s.coreRestart else s)

/-! ### The event log (R455 to R458) -/

/-- LOG_PAGE_TIMEOUT (R456): the oldest buffered record has waited 100 ms. -/
def execLogPageTimeout (s : State) : Host.Outcome State Fault Refusal :=
  .next (
    if !s.briloUp || s.inhibited || s.log.buffer.isEmpty then s
    else
      let got := commitPage s.log
      let l := got.1
      let lost := got.2
      ({ s with log := l }.count Reg.MGT_LOGLOST.count lost).showLog)

/-- One bit of the reflected CRC-32 of IEEE 802.3. -/
def crcIeeeBit (c : BitVec 32) : BitVec 32 := if c &&& 1 = 1 then (c >>> 1) ^^^ 0xEDB88320 else c >>> 1

/-- CRC-32 of IEEE 802.3. -/
def crcIeee (bs : List Byte) : BitVec 32 :=
  bs.foldl (fun c b =>
    crcIeeeBit (crcIeeeBit (crcIeeeBit (crcIeeeBit (crcIeeeBit (crcIeeeBit (crcIeeeBit (crcIeeeBit (c ^^^ b.setWidth 32)))))))))
    0xFFFFFFFF ^^^ 0xFFFFFFFF

/-- The 64 bytes of a record (Table 19.4); each number of the payload takes 4 bytes. -/
def LogRecord.bytes (r : LogRecord) : List Byte :=
  let b := toBytes 4 r.seq ++ toBytes 1 r.kind ++ toBytes 1 r.severity ++ toBytes 2 r.cause ++ toBytes 8 r.gsc ++ toBytes 8 r.uptimeUs ++
    toBytes 2 r.slot ++ toBytes 2 0 ++ (r.payload.flatMap (toBytes 4) ++ List.replicate 32 0).take 32
  b ++ toBytes 4 (crcIeee b).toNat

/-- The record of a sequence number, in the NV store or the buffer (R458). -/
def State.record? (s : State) (seq : Nat) : Option LogRecord :=
  (s.log.pages.flatten ++ s.log.buffer).find? fun r => r.seq == seq % 2 ^ 32

/-- LOG_FETCH (R458): a write of MGT_LOGSEL. -/
def execLogFetch (seq : Nat) (s : State) : Host.Outcome State Fault Refusal :=
  .next (s.hostWrite 0x200018 4 fun s =>
    let s := s.setFld Reg.MGT_LOGSEL.seq seq
    s.clearFlds [Reg.MGT_LOGSTAT.ready, Reg.MGT_LOGSTAT.missing, Reg.MGT_LOGSTAT.corrupt])

/-- LOG_FETCH_COMPLETE (R458): the record arrives, is missing, or, with the bytes its page gave instead, fails its crc. -/
def execLogFetchComplete (corrupt : Option (List Byte)) (s : State) : Host.Outcome State Fault Refusal :=
  .next (
    if !s.briloUp || s.flag Reg.MGT_LOGSTAT.ready then s
    else
      let s' := s.setFld Reg.MGT_LOGSTAT.ready 1
      match s.record? (s.fld Reg.MGT_LOGSEL.seq), corrupt with
      | none, _ => s'.setFld Reg.MGT_LOGSTAT.missing 1
      | some _, some bs => { s' with logData := (bs ++ List.replicate 64 0).take 64 }.setFld Reg.MGT_LOGSTAT.corrupt 1
      | some r, none => { s' with logData := r.bytes })

/-! ### The mailbox (R460) -/

/-- MAILBOX_GO (R460): a write of MGT_MBCTL with go, discarded while busy. -/
def execMailboxGo (len : Nat) (s : State) : Host.Outcome State Fault Refusal :=
  .next (s.hostWrite 0x200100 4 fun s =>
    if s.flag Reg.MGT_MBCTL.busy then s else (s.setFld Reg.MGT_MBCTL.req_len len).setFld Reg.MGT_MBCTL.busy 1)

/-- MAILBOX_RESPONSE_READY (R460): Brilo writes the response and its length, clears busy and sets done. -/
def execMailboxResponseReady (response : List Byte) (s : State) : Host.Outcome State Fault Refusal :=
  .next (
    if !s.briloUp || !s.flag Reg.MGT_MBCTL.busy then s
    else
      let s := { s with mbRsp := writeBytes s.mbRsp 0 (response.take 4096) }
      ((s.setFld Reg.MGT_MBRLEN.rsp_len (min 4096 response.length)).setFld Reg.MGT_MBCTL.busy 0).setFld Reg.MGT_MBCTL.done 1)

/-! ### Answering (R459, R461, R464, R467) -/

/-- The I3C static address, for SETDASA: 0x30 plus the slot strap (R526, Table 19.5). -/
def State.i3cAddress (s : State) : Nat := 0x30 + s.strap

/-- The bindings of Table 19.5: I3C 0, PCI Express 1, RMII 2, mailbox 3. A message on the mailbox is one that has been submitted. -/
def State.bindingOpen (s : State) (binding : Nat) : Bool :=
  binding == 0 || binding == 2 || (binding == 1 && s.pcieUp && !s.perst) || (binding == 3 && s.flag Reg.MGT_MBCTL.busy)

/-- Brilo answers on a binding; in recovery only MCTP control and firmware update, on I3C and the mailbox (R464). -/
def State.answers (s : State) (binding : Nat) (inRecovery : Bool) : Bool :=
  s.briloUp && s.bindingOpen binding && (!s.flag Reg.MGT_STATUS.recovery || (inRecovery && (binding == 0 || binding == 3)))

/-- Take a message of a binding and answer it: `k` gives the answer and what the message does. -/
def State.message (s : State) (binding ep : Nat) (inRecovery : Bool) (k : State → List Nat × State) : State :=
  if !s.answers binding inRecovery then s
  else
    let got := k s
    let body := got.1
    let s := got.2
    s.emit (.message binding ep body)

/-- A PLDM response: message type 1, PLDM type, command, completion code and data. -/
def pldm (type cmd cc : Nat) (data : List Nat := []) : List Nat := [1, type, cmd, cc] ++ data

/-- A PLDM command outside firmware update. -/
def State.pldmCmd (s : State) (binding ep type cmd : Nat) (k : State → Nat × List Nat × State) : State :=
  s.message binding ep false fun s =>
    let got := k s
    let cc := got.1
    let data := got.2.1
    let s := got.2.2
    (pldm type cmd cc data, s)

/-- A PLDM firmware update command (DSP0267). -/
def State.updateCmd (s : State) (binding ep cmd : Nat) (k : State → Nat × List Nat × State) : State :=
  s.message binding ep true fun s =>
    let got := k s
    let cc := got.1
    let data := got.2.1
    let s := got.2.2
    (pldm 5 cmd cc data, s)

/-- The bytes of a value, as numbers. -/
def leBytes (n v : Nat) : List Nat := (toBytes n v).map (·.toNat)

/-- SET_ENDPOINT_ID (R459): the bus owner names Brilo on a binding. -/
def execSetEndpointId (binding ep eid : Nat) (s : State) : Host.Outcome State Fault Refusal :=
  .next (s.message binding ep true fun s =>
    ([0, 1, 0, eid], s.modBrilo fun b => { b with eids := Table.put b.eids binding eid }))

/-! ### PLDM base (R461) -/

/-- GET_TID. -/
def execGetTid (binding ep : Nat) (s : State) : Host.Outcome State Fault Refusal :=
  .next (s.pldmCmd binding ep 0 0x02 fun s => (0, [s.brilo.tid], s))

/-- SET_TID: 0x00 and 0xFF are no identifiers of a terminus. -/
def execSetTid (binding ep tid : Nat) (s : State) : Host.Outcome State Fault Refusal :=
  .next (s.pldmCmd binding ep 0 0x01 fun s =>
    if tid = 0 ∨ 255 ≤ tid then (2, [], s) else (0, [], s.modBrilo fun b => { b with tid := tid }))

/-- The PLDM types answered (Table 19.6). -/
def pldmTypes : List Nat := [0, 2, 5, 63]

/-- The commands answered of a type (Tables 19.6 and 19.7). -/
def pldmCommands (type : Nat) : List Nat :=
  if type = 0 then [1, 2, 3, 4, 5]
  else if type = 2 then [0x04, 0x05, 0x10, 0x11, 0x21, 0x39, 0x50, 0x51]
  else if type = 5 then [0x01, 0x02, 0x10, 0x13, 0x14, 0x1A, 0x1B, 0x1C, 0x1D]
  else if type = 63 then [1, 2, 3, 4]
  else []

/-- GET_PLDM_VERSION: the version number of a type answered is not stated. -/
def execGetPldmVersion (binding ep type : Nat) (s : State) : Host.Outcome State Fault Refusal :=
  .next (s.pldmCmd binding ep 0 0x03 fun s =>
    if pldmTypes.contains type then
      let got := s.free
      let v := got.1
      let s := got.2
      (0, [v], s)
    else (0x83, [], s))

/-- GET_PLDM_TYPES. -/
def execGetPldmTypes (binding ep : Nat) (s : State) : Host.Outcome State Fault Refusal :=
  .next (s.pldmCmd binding ep 0 0x04 fun s => (0, pldmTypes, s))

/-- GET_PLDM_COMMANDS. -/
def execGetPldmCommands (binding ep type : Nat) (s : State) : Host.Outcome State Fault Refusal :=
  .next (s.pldmCmd binding ep 0 0x05 fun s =>
    if pldmTypes.contains type then (0, pldmCommands type, s) else (0x83, [], s))

/-! ### PLDM platform: sensors (R454, R461) -/

/-- The identifiers of the numeric sensors (Table 19.3). -/
def numericSensors : List Nat :=
  (List.range 72).map (· + 1) ++ [0x50, 0x60, 0x61, 0x62, 0x63, 0x64, 0x65, 0x66] ++ (List.range 48).map (· + 0x70) ++
    [0xA0, 0xA1, 0xB0, 0xB1, 0xB2]

/-- The identifiers of the state sensors (Table 19.3). -/
def stateSensors : List Nat := [0x100, 0x101, 0x102, 0x103]

/-- The source of a sensor is powered: the fray monitors need the module's rails (R454). -/
def State.sensorPowered (s : State) (id : Nat) : Bool := !(decide (0x70 ≤ id) && decide (id ≤ 0x9F)) || s.pwrgd

/-- The register a numeric sensor reads (Table 19.3); the standby rail's voltage is not stated. -/
def State.sensorValue (s : State) (id : Nat) : Nat × State :=
  if 1 ≤ id ∧ id ≤ 0x48 then (s.fld Reg.PWR_DIODE.temp (id - 1), s)
  else if id = 0x50 then (s.fld Reg.PWR_THERM.tj_max, s)
  else if id = 0x60 ∨ id = 0x61 then (s.fld Reg.PWR_INMEAS.mv (id - 0x60), s)
  else if id = 0x62 ∨ id = 0x63 then (s.fld Reg.PWR_INMEAS.power_w (id - 0x62), s)
  else if id = 0x64 then (s.fld Reg.PWR_CAP.draw_w, s)
  else if id = 0x65 then (s.fld Reg.PWR_CAP.cap_w, s)
  else if id = 0x66 then (s.fld Reg.PWR_LEASE.budget_w, s)
  else if 0x70 ≤ id ∧ id ≤ 0x9F then (s.fld Reg.PWR_FRAY.drift (id - 0x70), s)
  else if id = 0xA0 then (s.fld Reg.PWR_REFIT.d, s)
  else if id = 0xA1 then (s.fld Reg.PWR_REFIT.margin, s)
  else if id = 0xB0 then (s.coreMv, s)
  else if id = 0xB1 then (s.uncoreMv, s)
  else s.free

/-- The state a state sensor shows (Table 19.3). -/
def State.sensorState (s : State) (id : Nat) : Nat :=
  if id = 0x100 then (if s.trip then 3 else s.fld Reg.PWR_THERM.state)
  else if id = 0x101 then s.fld Reg.PWR_LEASE.state
  else if id = 0x102 then
    (if s.flag Reg.PWR_EVT.margin_end then 2 else if s.flag Reg.PWR_EVT.margin_warn then 1 else 0)
  else if s.flag Reg.MGT_STATUS.recovery then 2 else s.fld Reg.MGT_STATUS.trial

/-- GET_SENSOR_READING (R454): operational state 0 enabled with the reading, the state a SetNumericSensorEnable gave, or 2 unavailable. -/
def execGetSensorReading (binding ep sensor : Nat) (s : State) : Host.Outcome State Fault Refusal :=
  .next (s.pldmCmd binding ep 2 0x11 fun s =>
    if !numericSensors.contains sensor then (0x80, [], s)
    else
      let st := Table.get 0 s.brilo.sensorsOff sensor
      if st ≠ 0 then (0, [st], s)
      else if !s.sensorPowered sensor then (0, [2], s)
      else
        let got := s.sensorValue sensor
        let v := got.1
        let s := got.2
        (0, [0, v], s))

/-- GET_STATE_SENSOR_READINGS (R454). -/
def execGetStateSensorReadings (binding ep sensor : Nat) (s : State) : Host.Outcome State Fault Refusal :=
  .next (s.pldmCmd binding ep 2 0x21 fun s =>
    if stateSensors.contains sensor then (0, [1, 0, s.sensorState sensor], s) else (0x80, [], s))

/-- SET_NUMERIC_SENSOR_ENABLE: operational state 0 enabled, 1 disabled, 2 unavailable. -/
def execSetNumericSensorEnable (binding ep sensor state : Nat) (s : State) : Host.Outcome State Fault Refusal :=
  .next (s.pldmCmd binding ep 2 0x10 fun s =>
    if !numericSensors.contains sensor then (0x80, [], s)
    else if 2 < state then (0x81, [], s)
    else (0, [], s.modBrilo fun b => { b with sensorsOff := Table.set 0 b.sensorsOff sensor state }))

/-- Every sensor, in the order of Table 19.3: record handle k + 1 is the descriptor of the k-th. -/
def sensors : List Nat := numericSensors ++ stateSensors

/-- GET_PDR_REPOSITORY_INFO. -/
def execGetPdrRepositoryInfo (binding ep : Nat) (s : State) : Host.Outcome State Fault Refusal :=
  .next (s.pldmCmd binding ep 2 0x50 fun s => (0, [sensors.length], s))

/-- GET_PDR (R454): handle 0 asks for the first; the answer names the next handle, the sensor, and whether it is a state sensor. -/
def execGetPdr (binding ep handle : Nat) (s : State) : Host.Outcome State Fault Refusal :=
  .next (s.pldmCmd binding ep 2 0x51 fun s =>
    let h := max 1 handle
    match sensors[h - 1]? with
    | some id => (0, [if h < sensors.length then h + 1 else 0, id, ofFlag (stateSensors.contains id)], s)
    | none => (0x82, [], s))

/-- SET_EVENT_RECEIVER (R461). -/
def execSetEventReceiver (binding ep receiver : Nat) (enable : Bool) (s : State) : Host.Outcome State Fault Refusal :=
  .next (s.pldmCmd binding ep 2 0x04 fun s => (0, [], { s with receiver := if enable then some (binding, receiver) else none }))

/-- GET_EVENT_RECEIVER. -/
def execGetEventReceiver (binding ep : Nat) (s : State) : Host.Outcome State Fault Refusal :=
  .next (s.pldmCmd binding ep 2 0x05 fun s =>
    (0, match s.receiver with
      | some (b, e) => [b, e]
      | none => [], s))

/-- SET_STATE_EFFECTER_STATES (R461): effecter 0x0200 requests a refit, as PWR_REFITCTL.start. -/
def execSetStateEffecterStates (binding ep effecter value : Nat) (s : State) : Host.Outcome State Fault Refusal :=
  .next (s.pldmCmd binding ep 2 0x39 fun s =>
    if effecter ≠ 0x200 then (0x80, [], s) else (0, [], if value = 1 ∧ s.pwrgd then s.startRefit else s))

/-! ### PLDM firmware update (R463, R466) -/

/-- QUERY_DEVICE_IDENTIFIERS (R539): vendor, serial number, ordering code and stepping. -/
def execQueryDeviceIdentifiers (binding ep : Nat) (s : State) : Host.Outcome State Fault Refusal :=
  .next (s.updateCmd binding ep 0x01 fun s => (0, [0x1F3C, Config.serial % 2 ^ 64, Config.variant % 2, 0xB0], s))

/-- The version in a slot that is not running and holds a verified image; 0 for none. -/
def State.pendingVersion (s : State) : Nat :=
  match s.brilo.update with
  | some u => if u.verified then (s.persist.image (u.slot.getD 0)).version else 0
  | none => 0

/-- GET_FIRMWARE_PARAMETERS: the running version and the one waiting. -/
def execGetFirmwareParameters (binding ep : Nat) (s : State) : Host.Outcome State Fault Refusal :=
  .next (s.updateCmd binding ep 0x02 fun s => (0, [1, s.fld Reg.MGT_FWVER.version, s.pendingVersion], s))

/-- REQUEST_UPDATE (R466): refused while another agent holds update mode (0x81), or the running image is in trial or runs as the other
image's fall-back outside recovery (0x8A). -/
def execRequestUpdate (binding ep : Nat) (s : State) : Host.Outcome State Fault Refusal :=
  .next (s.updateCmd binding ep 0x10 fun s =>
    if s.brilo.update.any fun u => u.binding != binding || u.agent != ep then (0x81, [], s)
    else if s.flag Reg.MGT_STATUS.trial || (!s.flag Reg.MGT_STATUS.recovery && s.fld Reg.MGT_STATUS.image != s.persist.preferred) then
      (0x8A, [], s)
    else (0, [], s.modBrilo fun b => { b with update := some ⟨binding, ep, false, none, 0, [], false⟩ }))

/-- A command of the update agent: others are not in update mode (0x80). -/
def State.agentCmd (s : State) (binding ep cmd : Nat) (k : State → Update → Nat × List Nat × State) : State :=
  s.updateCmd binding ep cmd fun s =>
    match s.brilo.update with
    | some u => if u.binding = binding ∧ u.agent = ep then k s u else (0x80, [], s)
    | none => (0x80, [], s)

/-- Store the update in progress. -/
def State.setUpdate (s : State) (u : Option Update) : State := s.modBrilo fun b => { b with update := u }

/-- PASS_COMPONENT_TABLE (R466): the one component is the Brilo image. -/
def execPassComponentTable (binding ep : Nat) (s : State) : Host.Outcome State Fault Refusal :=
  .next (s.agentCmd binding ep 0x13 fun s u => (0, [0], s.setUpdate (some { u with passed := true })))

/-- The slot an update writes: the one that is not running; in recovery, where none runs, the one not preferred (R466). -/
def State.updateSlot (s : State) : Nat :=
  if s.flag Reg.MGT_STATUS.recovery then 1 - s.persist.preferred else 1 - s.fld Reg.MGT_STATUS.image

/-- Brilo asks the update agent for the next part, at most 1,024 bytes. -/
def State.askData (s : State) (u : Update) : State :=
  s.emit (.message u.binding u.agent [1, 5, 0x15, u.data.length, min 1024 (u.length - u.data.length)])

/-- UPDATE_COMPONENT (R466): the slot is erased and the transfer begins. The NOR is not written under write inhibit (R453). -/
def execUpdateComponent (binding ep length : Nat) (s : State) : Host.Outcome State Fault Refusal :=
  .next (
    if s.inhibited then s
    else s.agentCmd binding ep 0x14 fun s u =>
      if !u.passed then (0x84, [], s)
      else if length = 0 ∨ 1835008 < length then (0, [1], s)
      else
        let i := s.updateSlot
        let u := { u with slot := some i, length := length, data := [], verified := false }
        (0, [0], ((s.setImage i Image.none).setUpdate (some u)).askData u))

/-- An image as received (Table 19.9): its fields, and `sound` as R463 gives but for the revoke bit and the counter. -/
def parseImage (bs : List Byte) : Image :=
  let num (o n : Nat) : Nat := ofBytes ((bs.drop o).take n)
  let zero (o n : Nat) : Bool := ((bs.drop o).take n).all (· == 0)
  let code := bs.drop 512
  let key := num 9 1
  let pub := (bs.drop 0x40).take 96
  let digest := (bs.drop 0x10).take 48
  let sound := decide (512 < bs.length) && num 0 4 == 0x48474E31 && decide (num 8 1 ≤ 64) && decide (key ≤ 3) && zero 0xA 2 &&
    num 0xC 4 == code.length && decide (code.length ≤ 1834496) && zero 0xA0 96 && zero 0x160 160 &&
    Config.keyHash key == sha384 pub && Config.ecdsaVerify pub (bs.take 0x100) ((bs.drop 0x100).take 96) && sha384 code == digest
  ⟨num 4 4, num 8 1, key, digest, sound⟩

/-- The transfer ends (R466): the image is verified, and the results are sent. A failed one leaves the slot invalid. -/
def State.verifyUpdate (s : State) (u : Update) : State :=
  let im := parseImage u.data
  let ok := s.imageValid im
  let s := s.setImage (u.slot.getD 0) (if ok then im else Image.none)
  let s := s.setUpdate (some { u with data := [], verified := ok })
  let send (s : State) (cmd result : Nat) : State := s.emit (.message u.binding u.agent [1, 5, cmd, result])
  let s := send (send s 0x16 0) 0x17 (if ok then 0 else 1)
  if ok then send s 0x18 0 else s

/-- FIRMWARE_DATA_RECEIVE (R466): a part of the image arrives and is programmed. -/
def execFirmwareDataReceive (binding ep : Nat) (data : List Byte) (s : State) : Host.Outcome State Fault Refusal :=
  .next (
    if !s.answers binding true || s.inhibited then s
    else match s.brilo.update with
      | some u =>
        if u.binding ≠ binding ∨ u.agent ≠ ep ∨ u.slot.isNone ∨ u.verified ∨ u.length ≤ u.data.length then s
        else
          let u := { u with data := (u.data ++ data).take u.length }
          if u.data.length = u.length then s.verifyUpdate u else (s.setUpdate (some u)).askData u
      | none => s)

/-- ACTIVATE_FIRMWARE (R466): the new image becomes preferred and in trial, and the core restarts, once a start or shutdown in progress is
over. -/
def execActivateFirmware (binding ep : Nat) (s : State) : Host.Outcome State Fault Refusal :=
  .next (
    if s.inhibited then s
    else
      let ready := s.brilo.update.any fun u => u.binding == binding && u.agent == ep && u.verified
      let t := s.agentCmd binding ep 0x1A fun s u =>
        if !u.verified then (0x84, [], s)
        else (0, [], s.modPersist fun p => { p with preferred := u.slot.getD 0, trial := true, trials := 0 })
      if !s.answers binding true || !ready then t
      else if s.starting || s.shuttingDown then t.modBrilo fun b => { b with restartDue := true, update := none }
      else t.coreRestart)

/-- The state of an update: 0 idle, 1 learn components, 2 ready to transfer, 3 download. -/
def updateState (u : Option Update) : Nat :=
  match u with
  | none => 0
  | some u => if !u.passed then 1 else if u.slot.isNone || u.verified || u.length == 0 then 2 else 3

/-- GET_STATUS. -/
def execGetStatus (binding ep : Nat) (s : State) : Host.Outcome State Fault Refusal :=
  .next (s.updateCmd binding ep 0x1B fun s => (0, [updateState s.brilo.update], s))

/-- The slot of an update is left invalid (R466). -/
def State.dropSlot (s : State) (u : Update) : State :=
  match u.slot with
  | some i => s.setImage i Image.none
  | none => s

/-- CANCEL_UPDATE_COMPONENT (R466). -/
def execCancelUpdateComponent (binding ep : Nat) (s : State) : Host.Outcome State Fault Refusal :=
  .next (s.agentCmd binding ep 0x1C fun s u =>
    (0, [], (s.dropSlot u).setUpdate (some { u with slot := none, length := 0, data := [], verified := false })))

/-- CANCEL_UPDATE (R466). -/
def execCancelUpdate (binding ep : Nat) (s : State) : Host.Outcome State Fault Refusal :=
  .next (s.agentCmd binding ep 0x1D fun s u => (0, [], (s.dropSlot u).setUpdate none))

/-! ### Hjeltar PLDM (Table 19.7) -/

/-- SET_LEASE (R434, R461): on I3C and RMII only; elsewhere ERROR_UNSUPPORTED_PLDM_CMD. -/
def execSetLease (binding ep budget lease : Nat) (s : State) : Host.Outcome State Fault Refusal :=
  .next (s.pldmCmd binding ep 63 0x01 fun s =>
    if binding = 0 ∨ binding = 2 then
      let got := s.takeLease budget lease
      let r := got.1
      let s := got.2
      (0, [r], s)
    else (5, [], s))

/-- PWR_LEASE as one word (Table 18.5). -/
def State.leaseWord (s : State) : Nat :=
  s.fld Reg.PWR_LEASE.budget_w + 2 ^ 16 * (s.leaseLeft % 2 ^ 12) + 2 ^ 30 * s.fld Reg.PWR_LEASE.state + 2 ^ 32 * s.fld Reg.PWR_LEASE.seq

/-- PWR_CAP as one word (Table 18.5). -/
def State.capWord (s : State) : Nat :=
  s.fld Reg.PWR_CAP.cap_w + 2 ^ 16 * s.fld Reg.PWR_CAP.given_w + 2 ^ 32 * s.fld Reg.PWR_CAP.received_w + 2 ^ 48 * s.fld Reg.PWR_CAP.draw_w

/-- GET_LEASE (Table 19.7). -/
def execGetLease (binding ep : Nat) (s : State) : Host.Outcome State Fault Refusal :=
  .next (s.pldmCmd binding ep 63 0x02 fun s => (0, leBytes 8 s.leaseWord ++ leBytes 8 s.capWord, s))

/-- A record as GetLogRecords answers it: its status, then 64 bytes, of zeros where it is missing; `bad` gives the bytes of records whose
page fails their crc (R458). -/
def State.logAnswer (s : State) (bad : List (Nat × List Byte)) (seq : Nat) : List Nat :=
  match s.record? seq, bad.find? fun x => x.1 == seq with
  | none, _ => 1 :: List.replicate 64 0
  | some _, some (_, bs) => 2 :: ((bs ++ List.replicate 64 (0 : Byte)).take 64).map fun b : Byte => b.toNat
  | some r, none => 0 :: r.bytes.map (·.toNat)

/-- GET_LOG_RECORDS (R458, Table 19.7). -/
def execGetLogRecords (binding ep first count : Nat) (bad : List (Nat × List Byte)) (s : State) : Host.Outcome State Fault Refusal :=
  .next (s.pldmCmd binding ep 63 0x03 fun s =>
    if count = 0 ∨ 16 < count then (2, [], s)
    else (0, count :: ((List.range count).flatMap fun k => s.logAnswer bad ((first + k) % 2 ^ 32)), s))

/-- GET_LOG_RANGE (Table 19.7). -/
def execGetLogRange (binding ep : Nat) (s : State) : Host.Outcome State Fault Refusal :=
  .next (s.pldmCmd binding ep 63 0x04 fun s =>
    (0, [s.fld Reg.MGT_LOGHEAD.seq, s.fld Reg.MGT_LOGTAIL.seq, s.fld Reg.MGT_LOGLOST.count], s))

/-! ### SPDM (R462, R468, R485) -/

/-- An SPDM error response with its code: 1 invalid request, 3 busy, 4 unexpected request. -/
def spdmError (code : Nat) : List Nat := [5, 0x7F, code]

/-- An SPDM request: Busy from phase 4 of a shutdown to the next start (R485). -/
def State.spdm (s : State) (binding ep : Nat) (k : State → List Nat × State) : State :=
  s.message binding ep false fun s => if s.brilo.busy then (spdmError 3, s) else k s

/-- How far a requester has come: 1 GET_VERSION, 2 GET_CAPABILITIES, 3 NEGOTIATE_ALGORITHMS. -/
def State.spdmPhase (s : State) (binding ep : Nat) : Nat :=
  match s.brilo.negotiated.find? fun x => x.1 == binding && x.2.1 == ep with
  | some x => x.2.2
  | none => 0

/-- Note how far a requester has come. -/
def State.setSpdmPhase (s : State) (binding ep n : Nat) : State :=
  s.modBrilo fun b =>
    { b with negotiated := (b.negotiated.filter fun x => !(x.1 == binding && x.2.1 == ep)) ++ [(binding, ep, n)] }

/-- A request that needs the connection negotiated. -/
def State.spdmAfter (s : State) (binding ep n : Nat) (k : State → List Nat × State) : State :=
  s.spdm binding ep fun s => if s.spdmPhase binding ep < n then (spdmError 4, s) else k s

/-- GET_VERSION (R462): version 1.2; the connection starts again. -/
def execGetVersion (binding ep : Nat) (s : State) : Host.Outcome State Fault Refusal :=
  .next (s.spdm binding ep fun s => ([5, 0x04, 0x12], s.setSpdmPhase binding ep 1))

/-- GET_CAPABILITIES (R462). -/
def execGetCapabilities (binding ep : Nat) (s : State) : Host.Outcome State Fault Refusal :=
  .next (s.spdmAfter binding ep 1 fun s => ([5, 0x61], s.setSpdmPhase binding ep (max 2 (s.spdmPhase binding ep))))

/-- NEGOTIATE_ALGORITHMS (R462): ECDSA P-384, SHA-384, secp384r1 and AES-256-GCM. -/
def execNegotiateAlgorithms (binding ep : Nat) (s : State) : Host.Outcome State Fault Refusal :=
  .next (s.spdmAfter binding ep 2 fun s => ([5, 0x63], s.setSpdmPhase binding ep 3))

/-- GET_DIGESTS (R462): the digest of the chain in slot 0. -/
def execGetDigests (binding ep : Nat) (s : State) : Host.Outcome State Fault Refusal :=
  .next (s.spdmAfter binding ep 3 fun s => ([5, 0x01, 1] ++ (sha384 Config.certChain).map (·.toNat), s))

/-- GET_CERTIFICATE (R462): a part of the chain in slot 0. -/
def execGetCertificate (binding ep slot offset length : Nat) (s : State) : Host.Outcome State Fault Refusal :=
  .next (s.spdmAfter binding ep 3 fun s =>
    if slot ≠ 0 then (spdmError 1, s)
    else ([5, 0x02, 0] ++ ((Config.certChain.drop offset).take length).map fun b : Byte => b.toNat, s))

/-- CHALLENGE (R462): signed with the identity key; the signature is a free value. -/
def execChallenge (binding ep slot : Nat) (s : State) : Host.Outcome State Fault Refusal :=
  .next (s.spdmAfter binding ep 3 fun s =>
    if slot ≠ 0 then (spdmError 1, s)
    else
      let got := s.free
      let sig := got.1
      let s := got.2
      ([5, 0x03, 0, sig], s))

/-- A measurement block (Table 19.8). -/
def State.measurement (s : State) (i : Nat) : List Byte :=
  if i = 1 then Config.romDigest
  else if i = 2 then (s.persist.image (s.fld Reg.MGT_STATUS.image)).digest
  else if i = 3 then toBytes 4 (s.fld Reg.MGT_FWVER.version) ++ toBytes 1 (s.fld Reg.MGT_STATUS.svn) ++ toBytes 1 s.counter
  else if i = 4 then Config.fuseDigest
  else s.nvs.block5

/-- GET_MEASUREMENTS (R462): 0 asks for the number of blocks, 255 for all of them. -/
def execGetMeasurements (binding ep index : Nat) (s : State) : Host.Outcome State Fault Refusal :=
  .next (s.spdmAfter binding ep 3 fun s =>
    let block (i : Nat) : List Nat := i :: (s.measurement i).map (·.toNat)
    if index = 0 then ([5, 0x60, 5], s)
    else if index = 255 then ([5, 0x60] ++ (span 1 6).flatMap block, s)
    else if 5 < index then (spdmError 1, s)
    else ([5, 0x60] ++ block index, s))

/-- The session of a requester. -/
def State.session? (s : State) (binding ep : Nat) : Option Session :=
  s.brilo.sessions.find? fun x => x.binding == binding && x.requester == ep

/-- KEY_EXCHANGE (R462): at most four sessions, and one for each requester; beyond that Busy. The key share and signature are free. -/
def execKeyExchange (binding ep : Nat) (s : State) : Host.Outcome State Fault Refusal :=
  .next (s.spdmAfter binding ep 3 fun s =>
    if 4 ≤ s.brilo.sessions.length ∨ (s.session? binding ep).isSome then (spdmError 3, s)
    else
      let got := s.free
      let v := got.1
      let s := got.2
      ([5, 0x64, v], s.modBrilo fun b => { b with sessions := b.sessions ++ [(⟨binding, ep, false⟩ : Session)] }))

/-- A secured message (type 6), on the PCI Express and mailbox paths only (R459). -/
def State.secured (s : State) (binding ep : Nat) (k : State → Session → List Nat × State) : State :=
  if binding ≠ 1 ∧ binding ≠ 3 then s
  else s.spdm binding ep fun s =>
    match s.session? binding ep with
    | some x => k s x
    | none => (spdmError 4, s)

/-- A requester's session ends and its keys are cleared (Table 19.11). -/
def State.dropSession (s : State) (binding ep : Nat) : State :=
  s.modBrilo fun b => { b with sessions := b.sessions.filter fun x => !(x.binding == binding && x.requester == ep) }

/-- FINISH (R462, Table 19.11): the session's keys are loaded. -/
def execFinish (binding ep : Nat) (s : State) : Host.Outcome State Fault Refusal :=
  .next (s.secured binding ep fun s x =>
    if x.keys then (spdmError 4, s)
    else ([5, 0x65], s.modBrilo fun b =>
      { b with sessions := b.sessions.map fun y => if y.binding = binding ∧ y.requester = ep then { y with keys := true } else y }))

/-- HEARTBEAT (R462). -/
def execHeartbeat (binding ep : Nat) (s : State) : Host.Outcome State Fault Refusal :=
  .next (s.secured binding ep fun s x => if x.keys then ([5, 0x68], s) else (spdmError 4, s))

/-- SPDM_HEARTBEAT_TIMEOUT (R468). -/
def execSpdmHeartbeatTimeout (binding ep : Nat) (s : State) : Host.Outcome State Fault Refusal := .next (s.dropSession binding ep)

/-- END_SESSION (R462). -/
def execEndSession (binding ep : Nat) (s : State) : Host.Outcome State Fault Refusal :=
  .next (s.secured binding ep fun s x => if x.keys then ([5, 0x6C], s.dropSession binding ep) else (spdmError 4, s))

end Sys2Proof.Machine
end

