-- ==== Sys2Proof/Machine/Serving.lean ====
section
/-! DEFINITION. Serving at work (chapter 13): admission and cancel, batches on every module, the SE instructions, sampling and the end
reports. -/

namespace Sys2Proof.Machine

/-! ### ADMIT and CANCEL (R307 to R309, R329) -/

/-- The address names a range of T1 or T3. -/
def inT1T3 (a n : Nat) : Bool :=
  match locateRange a n with
  | some (.t1, _) | some (.t3, _) => true
  | _ => false

/-- The offset of the first illegal field of an ADMIT entry. -/
def admitIllegal (cmd : Command) : Option Nat :=
  match firstNonzero cmd.raw [1] with
  | some o => some o
  | none =>
    if cmd.addr % 64 ≠ 0 ∨ !inT1T3 cmd.addr 512 then some 8
    else if 16 ≤ cmd.ledger then some 0x10
    else if (firstNonzero cmd.raw [0x11]).isSome then some 0x11
    else (firstNonzero cmd.raw (span 0x20 0x40)).map fun _ => 0x20

/-- An FP32 code is finite. -/
def finite32 (n : Nat) : Bool := bits n 30 23 != 255

/-- The offset of the first illegal field of a parameter block (Table 13.6). -/
def State.paramIllegal (s : State) (p : List Byte) (lg queue : Nat) : Option Nat :=
  let n (o k : Nat) : Nat := numAt p o k
  let vocab := s.fld Reg.SEQ_SERVE.vocab lg
  let zero : Fp := .fin false 0 0
  let bad (o : Nat) (b : Bool) : Option Nat := if b then some o else none
  let nz (a b : Nat) : Option Nat := (firstNonzero p (span a b)).map fun _ => a
  let stream := n 0 2
  [bad 0 (!s.qIs stream 3 || s.fld Reg.SEQ_QCFG.slice stream != s.fld Reg.SEQ_QCFG.slice queue),
   bad 3 (decide (64 ≤ n 3 1)), bad 4 (n 4 4 == 0),
   bad 8 (!inT1T3 (n 8 8) (4 * n 0x10 4)), bad 0x10 (decide (n 0x10 4 ≤ n 4 4) || decide (1048576 < n 0x10 4)), nz 0x14 0x18,
   bad 0x20 (!finite32 (n 0x20 4) || Fp.lt (v32 (n 0x20 4)) zero),
   bad 0x24 (!finite32 (n 0x24 4) || !Fp.lt zero (v32 (n 0x24 4)) || Fp.lt (.fin false 1 0) (v32 (n 0x24 4))),
   bad 0x28 (decide (64 < n 0x28 2)), bad 0x2A (decide (8 < n 0x2A 1)), bad 0x2B (decide (4 < n 0x2B 1)),
   bad 0x2C (decide (8 < n 0x2C 1)), nz 0x2D 0x30, nz 0x38 0x40,
   ((List.range (n 0x2A 1)).find? fun k => decide (vocab ≤ n (0x40 + 4 * k) 4)).map fun k => 0x40 + 4 * k,
   ((List.range (n 0x2B 1)).find? fun k => n (0x60 + k) 1 == 0 || decide (16 < n (0x60 + k) 1)).map fun k => 0x60 + k,
   nz 0x64 0x80,
   ((List.range (n 0x2B 1)).flatMap fun j => (List.range (n (0x60 + j) 1)).map fun k => 0x80 + 64 * j + 4 * k).find? fun o =>
     decide (vocab ≤ n o 4),
   nz 0x180 0x200].findSome? id

/-- The sequence state a parameter block describes (R308). -/
def State.newSeq (s : State) (p : List Byte) (lg pending : Nat) (t : Taken) : SeqState :=
  let n (o k : Nat) : Nat := numAt p o k
  let flags := n 3 1
  { ledger := lg, stream := n 0 2, patch := if bit flags 5 then some (n 2 1) else none, specEn := bit flags 3, hold := bit flags 4,
    prompt := n 4 4, maxLen := n 0x10 4, maxTime := n 0x18 8, temp := n 0x20 4, topP := n 0x24 4, topK := n 0x28 2,
    draftMax := n 0x2C 1, seed := n 0x30 8, stopTok := (List.range (n 0x2A 1)).map fun k => n (0x40 + 4 * k) 4,
    stopSeq := (List.range (n 0x2B 1)).map fun j => (List.range (n (0x60 + j) 1)).map fun k => n (0x80 + 64 * j + 4 * k) 4,
    pending := if bit flags 4 then 0 else pending, recent := [], proposals := [], admission := if bit flags 4 then some t else none,
    cancel := none, ended := false, streamed := 0, prefill := 0, proposed := 0, accepted := 0, batches := 0, deferrals := 0,
    admitGsc := s.gscSe, firstGsc := 0 }

/-- The pending token at admission: hist[P − 1], read from T1, or brought with the command from T3. -/
def State.firstToken (s : State) (p : List Byte) (token : Nat) : Nat :=
  let a := numAt p 8 8 + 4 * (numAt p 4 4 - 1)
  match locate a with
  | some (.t1, o) => s.t1Num o 4
  | _ => token % 2 ^ 32

/-- Admit a sequence whose tests have passed, but for the resources (R308, R309). -/
def State.admitCmd (s : State) (cmd : Command) (p : List Byte) (token : Nat) (t : Taken) : State :=
  let h := cmd.seq
  let lg := cmd.ledger
  let hold := bit (numAt p 3 1) 4
  let len := if hold then numAt p 4 4 else numAt p 4 4 - 1
  let n := if cmd.src = 0xFFFF then 0 else cmd.len
  match s.decision.obtain lg h 0 (blocksFor (ceilDiv n 64)) false with
  | none => s.complete t 3 h
  | some d =>
    let gen := s.fld Reg.NVS_GEN.gen (s.fld Reg.NVS_GENACT.active)
    let d := d.newRecord h (numAt p 3 1 % 8) lg len n gen (numAt p 8 8)
    let d := if n = 0 then d else d.share lg h cmd.src (ceilDiv n 64)
    let s := (d.commit lg 2 0xFFFFFFFF t.tag).reserveStream (numAt p 0 2) 1
    let q := s.newSeq p lg (s.firstToken p token) t
    let s := if hold then s else s.touchT1 (numAt p 8 8 + 4 * (numAt p 4 4 - 1)) 4
    let full := decide (n = len)
    let s := { s with seqs := Table.put s.seqs h (if hold && full then { q with admission := none } else q), ended := Table.del s.ended h }
    if hold && !full then s else s.complete t 0 h

/-- ADMIT (R308). -/
def execAdmitSeq (queue : Nat) (host param : List Byte) (token : Nat) (s : State) : Host.Outcome State Fault Refusal :=
  .next (s.takeCmd queue host (· == 2) fun s t cmd =>
    match admitIllegal cmd with
    | some o => s.complete t 1 o
    | none =>
      let lg := cmd.ledger
      let p := s.areaGet cmd.addr 512 param
      let s := s.touchT1 cmd.addr 512
      if !s.servedBy queue lg then s.complete t 7 lg
      else match s.paramIllegal p lg queue with
        | some o => s.complete t 1 o
        | none =>
          let hold := bit (numAt p 3 1) 4
          let most := if hold then numAt p 4 4 else numAt p 4 4 - 1
          if s.kvState cmd.seq ≠ 0 then s.complete t 2 cmd.seq
          else if cmd.src ≠ 0xFFFF ∧ (s.kvState cmd.src ≠ 1 ∨ s.kvLedger cmd.src ≠ lg) then s.complete t 1 0x12
          else if cmd.src ≠ 0xFFFF ∧ (cmd.len < 1 ∨ min (s.kvValid cmd.src) most < cmd.len) then s.complete t 1 0x14
          else if s.streamFree (numAt p 0 2) = 0 then s.complete t 0x0B (numAt p 0 2)
          else s.admitCmd cmd p token t)

/-- CANCEL (R329). -/
def execCancel (queue : Nat) (host : List Byte) (s : State) : Host.Outcome State Fault Refusal :=
  .next (s.takeCmd queue host (· == 3) fun s t cmd =>
    let h := cmd.seq
    match firstNonzero cmd.raw ([1, 0x11] ++ span 0x20 0x40) with
    | some o => s.complete t 1 (min o 0x20)
    | none => match s.seq? h with
      | none =>
        if s.kvState h ≠ 0 ∧ !s.servedBy queue (s.kvLedger h) then s.complete t 7 (s.kvLedger h)
        else if s.ended.any fun x => x.1 == h then s.complete t 8 h
        else s.complete t 2 h
      | some q =>
        let lg := q.ledger
        if !s.servedBy queue lg then s.complete t 7 lg
        else if s.kvPinned h && q.cancel.isSome then { s with heldCmds := s.heldCmds ++ [⟨h, 3, 0, some t⟩] }
        else if s.kvPinned h then
          let d := s.decision.flags h (s.kvFlags h + 16 * (1 - bits (s.kvFlags h) 4 4))
          (d.commit lg 2 0xFFFFFFFF t.tag).setSeq h { q with cancel := some t }
        else
          let s := s.setSeq h { q with cancel := some t }
          (s.endSeq h 5 2 0xFFFFFFFF false t.tag).forgetRestore h)

/-! ### Batches on every module (R310, R313, R315) -/

/-- SERVE_ENABLE (R310, R332): the fields beside en take effect only while en is 0. -/
def execServeEnable (ledger value : Nat) (s : State) : Host.Outcome State Fault Refusal :=
  .next (s.hostWrite (0x470100 + 64 * ledger) 4 fun s =>
    if 16 ≤ ledger ∨ s.flag Reg.SEQ_SERVE.en ledger ∨ !bit value 31 then s
    else (s.setFld Reg.SEQ_SERVE.job (bits value 15 0) ledger).setFld Reg.SEQ_SERVE.en 1 ledger)

/-- The bytes of a batch descriptor with at most `n` rows, with the bases that the reader's module fills in (Tables 13.7 and 13.8). -/
def batchBytes (b : Batch) (missing : Bool) (genBase patchBase n : Nat) : List Byte :=
  toBytes 4 b.number ++ toBytes 2 b.rows.length ++ toBytes 2 b.samples ++ toBytes 4 b.tokens ++ toBytes 1 b.ledger ++
    toBytes 1 (ofFlag missing) ++ toBytes 2 0 ++ toBytes 8 genBase ++ toBytes 4 b.gen ++
    toBytes 4 0 ++ toBytes 8 patchBase ++ toBytes 8 b.gsc ++ List.replicate 16 0 ++
    (b.rows.take n).flatMap fun r =>
      toBytes 2 r.handle ++ toBytes 1 r.kind ++ toBytes 1 r.n ++ toBytes 4 r.pos ++ toBytes 4 r.count ++ toBytes 1 r.patchSlot ++
        toBytes 1 0 ++ toBytes 2 r.sampleFirst ++ toBytes 8 r.hist ++ toBytes 8 r.seed ++ toBytes 4 r.temp ++ toBytes 4 r.topP ++
        toBytes 2 r.topK ++ List.replicate 6 0 ++ ((List.range 9).flatMap fun k => toBytes 4 (r.tokens.getD k 0)) ++ List.replicate 44 0

/-- Send a batch descriptor to the ledger's group (Table 17.17): its bases travel as zero. -/
def State.sendBatch (s : State) (b : Batch) : State :=
  let item := batchBytes b false 0 0 b.rows.length
  (itemPayloads (fun k => lineOf [(0, 1, b.ledger), (4, 4, b.number), (8, 4, k), (0xC, 4, ceilDiv item.length 64)]) item).foldl
    (fun s p => s.sendGroup (sliceUnit b.ledger) (s.fld Reg.SEQ_KVLEDGER.grp b.ledger) 0x13 p (s.fld Reg.SEQ_SERVE.job b.ledger)) s

/-- The slot of a generation on this module, while it is in state 2 or 3 (R259, R260). -/
def State.genSlot (s : State) (gen : Nat) : Option Nat :=
  [0, 1].find? fun i => s.fld Reg.NVS_GEN.gen i == gen && decide (2 ≤ s.fld Reg.NVS_GEN.state i)

/-- Signal the job of a ledger that its next iteration is ready (R315). -/
def State.signalIteration (s : State) (lg : Nat) : State := s.signalJob (s.fld Reg.SEQ_SERVE.job lg) 1

/-- The sample of a batch, function, row and step; empty where nothing has been read. -/
def State.sample (s : State) (lg batch func row step : Nat) : RowSample :=
  ((s.srv lg).samples.find? fun x => x.batch == batch && x.func == func && x.row == row && x.step == step).getD
    ⟨batch, func, row, step, [], [], none⟩

/-- Store a sample. -/
def State.setSample (s : State) (lg : Nat) (x : RowSample) : State :=
  s.modSrv lg fun v => { v with samples :=
    (v.samples.filter fun y => !(y.batch == x.batch && y.func == x.func && y.row == x.row && y.step == x.step)) ++ [x] }

/-- A member's partial reaches a row (R321): it takes the place of that member's earlier one. -/
def State.takePartial (s : State) (lg batch row ep : Nat) (p : Partial) : State :=
  let x := s.sample lg batch 0 row 0
  s.setSample lg { x with partials := (x.partials.filter fun y => y.1 != ep) ++ [(ep, p)] }

/-- Apply a batch descriptor whose turn it is (R313). -/
def State.applyBatch (s : State) (b : Batch) : State :=
  let lg := b.ledger
  let first := (s.srv lg).applied.isEmpty
  let slot := s.genSlot b.gen
  let s := s.setFld Reg.SEQ_SERVE.next_batch (b.number + 1) lg
  let s := s.modSrv lg fun v => { v with
    applied := v.applied ++ [{ b with slot := slot.getD b.slot }]
    missing := if slot.isNone then v.missing ++ [b.number] else v.missing }
  let parts := (s.srv lg).earlyParts.filter fun x => x.1 == b.number
  let s := s.modSrv lg fun v => { v with earlyParts := v.earlyParts.filter fun x => x.1 != b.number }
  let s := parts.foldl (fun s x => s.takePartial lg b.number x.2.1 x.2.2.1 x.2.2.2) s
  if first then s.signalIteration lg else s

/-- Every record of a batch's formation has been applied here: its sequences are pinned for it (R284). The former applies its own first. -/
def State.recordsApplied (s : State) (b : Batch) : Bool :=
  s.isFormer b.ledger || b.rows.all fun r => (s.srv b.ledger).formed.any fun x => x == (r.handle, b.number)

/-- Apply what has become due of the descriptors that came early: their turn, and their records applied. -/
def State.applyEarlyBatches (s : State) (lg : Nat) : Nat → State
  | 0 => s
  | n + 1 =>
    match (s.srv lg).early.find? fun b => b.number == s.fld Reg.SEQ_SERVE.next_batch lg && s.recordsApplied b with
    | none => s
    | some b => ((s.modSrv lg fun v => { v with early := v.early.erase b }).applyBatch b).applyEarlyBatches lg n

/-- BATCH_FORM (R310): the former forms a batch, sends its descriptor to the group and applies it here. -/
def execBatchForm (ledger : Nat) (copies : CopyData) (s : State) : Host.Outcome State Fault Refusal :=
  .next (
    let gap := match (s.srv ledger).lastFormed with
      | some g => decide (g + s.fld Reg.SEQ_SERVE.min_gap_ns ledger ≤ s.gscSe)
      | none => true
    if !s.seRuns || !s.isFormer ledger || !s.flag Reg.SEQ_SERVE.en ledger || !gap ||
        decide (s.fld Reg.SEQ_SERVE.depth ledger ≤ s.fld Reg.SEQ_SERVE.inflight ledger) then s
    else
      let got := s.formBatch ledger copies
      let s := got.1
      match got.2 with
      | none => s
      | some b => (s.sendBatch b).applyBatch b)

/-- The row of a batch descriptor in its 128 bytes (Table 13.8). -/
def BatchRow.ofBytes (bs : List Byte) : BatchRow :=
  { handle := numAt bs 0 2, kind := numAt bs 2 1, n := numAt bs 3 1, pos := numAt bs 4 4, count := numAt bs 8 4, patchSlot := numAt bs 0xC 1,
    sampleFirst := numAt bs 0xE 2, hist := numAt bs 0x10 8, seed := numAt bs 0x18 8, temp := numAt bs 0x20 4, topP := numAt bs 0x24 4,
    topK := numAt bs 0x28 2, tokens := (List.range (min 9 (numAt bs 3 1))).map fun k => numAt bs (0x30 + 4 * k) 4 }

/-- A batch descriptor from its bytes (Tables 13.7 and 13.8). The generation's slot is each module's own. -/
def Batch.ofBytes (bs : List Byte) : Batch :=
  { ledger := numAt bs 0xC 1, number := numAt bs 0 4, samples := numAt bs 6 2, tokens := numAt bs 8 4, gen := numAt bs 0x18 4, slot := 0,
    gsc := numAt bs 0x28 8, rows := (List.range (numAt bs 4 2)).map fun r => BatchRow.ofBytes ((bs.drop (64 + 128 * r)).take 128) }

/-- A whole batch descriptor arrives: it applies in its turn, once the records of its formation have been applied (R284, R313). -/
def State.descriptorArrives (s : State) (lg : Nat) (batch : Batch) : State :=
  let next := s.fld Reg.SEQ_SERVE.next_batch lg
  if batch.number = next ∨ laterBy 32 batch.number next then
    let s := s.modSrv lg fun v => { v with early := v.early ++ [batch] }
    s.applyEarlyBatches lg (s.srv lg).early.length
  else s

/-- BATCH_DESCRIPTOR_RECEIVE (R313, R424): a packet brings lines of a descriptor; descriptors apply in batch order. -/
def execBatchDescriptorReceive (hd : PacketHead) (lines : BatchLines) (s : State) : Host.Outcome State Fault Refusal :=
  let ledger := lines.ledger
  let batch := lines.batch
  .next (s.engineTake hd (fun s => s.ledgerOn ledger && (s.flag Reg.SEQ_SERVE.en ledger || (s.job? (s.fld Reg.SEQ_SERVE.job ledger)).isSome))
    fun s =>
      if s.isFormer ledger then s
      else
        let got := s.gather hd.source 0x13 [ledger, batch] lines.total lines.first lines.bytes
        match got.1 with
        | some bs => got.2.descriptorArrives ledger { Batch.ofBytes bs with ledger := ledger, number := batch }
        | none => got.2)

/-- LEDGER_RECORD_RECEIVE (R282): descriptors that waited for their records apply after them (R284, R313). -/
def execLedgerRecordReceive (hd : PacketHead) (record : LedgerRecord) (copies : CopyData) (s : State) : Host.Outcome State Fault Refusal :=
  .next (s.engineTake hd (fun s => s.ledgerOn record.ledger) fun s =>
    let s := s.takeRecord record copies
    s.applyEarlyBatches record.ledger (s.srv record.ledger).early.length)

/-- The ledger that the job of a core serves (R307). -/
def State.ledgerOf (s : State) (c : Nat) : Option Nat :=
  let j := (s.core c).sq.job
  if j = 0xFFFF then none else (s.ledgersOf j).head?

/-- The batch that follows the core's last SEDONE (R314). -/
def State.coreBatch (s : State) (c lg : Nat) : Option Batch := (s.srv lg).applied[(s.srv lg).done.count c]?

/-! ### Samples and results (R317 to R324) -/

/-- The batch row whose sample rows hold an index. -/
def sampledRow (b : Batch) (r : Nat) : Option BatchRow :=
  b.rows.find? fun x => decide (x.sampleFirst ≤ r) && decide (r < x.sampleFirst + x.n)

/-- Rows that have sample rows, in batch order: the result rows. -/
def resultRowsOf (b : Batch) : List BatchRow := b.rows.filter fun x => x.kind != 2

/-- The sampler settings of a row at a position. -/
def samplerOf (r : BatchRow) (pos : Nat) : Sampler := ⟨r.temp, r.topP, r.topK, r.seed, pos⟩

/-- The widths of a row's partials sum to the vocabulary (R318). -/
def State.sampleFull (s : State) (lg : Nat) (x : RowSample) : Bool :=
  ((x.partials.map fun y => widthCount y.2).sum) == s.fld Reg.SEQ_SERVE.vocab lg

/-- The settings under which a target sample row is sampled (R319, R323). -/
def batchSettings (b : Batch) (r : Nat) : Sampler :=
  match sampledRow b r with
  | some x => samplerOf x (x.pos + (r - x.sampleFirst) + 1)
  | none => ⟨0, 0, 0, 0, 0⟩

/-- The token of a complete row (R319); where slices overlap it is undefined, and free (R318). -/
def chosenToken (lg : Nat) (x : RowSample) (q : Sampler) : Option Nat :=
  let parts := x.partials.map (·.2)
  if slicesOverlap parts then some (Config.overlapToken lg x.batch x.row (if x.func = 0 then 0 else 1 + x.step)).toNat else q.token parts

/-- The token of a target sample row: none until its result is there, `some none` where a logit is a NaN. -/
def State.rowToken (s : State) (lg : Nat) (b : Batch) (r : Nat) : Option (Option Nat) :=
  let x := s.sample lg b.number 0 r 0
  match x.token with
  | some t => some t
  | none => if s.sampleFull lg x then some (chosenToken lg x (batchSettings b r)) else none

/-- The longest run of proposals that equal the tokens sampled for them (R324). -/
def acceptRun : List Nat → List Nat → Nat
  | q :: qs, t :: ts => if q = t then acceptRun qs ts + 1 else 0
  | _, _ => 0

/-- The result row of a decode or verify row (Table 13.10, R324). -/
def State.resultRow (s : State) (lg : Nat) (b : Batch) (x : BatchRow) : ResultRow :=
  let toks := (List.range x.n).map fun k => s.rowToken lg b (x.sampleFirst + k)
  if toks.any (· == some none) then ⟨x.handle, 0, 0, [], 1⟩
  else if toks.any (·.isNone) then ⟨x.handle, 0, 0, [], 2⟩
  else
    let ts := toks.map fun t => (t.getD none).getD 0
    let j := acceptRun (x.tokens.drop 1) ts
    ⟨x.handle, j + 1, x.pos + j + 1, ts.take (j + 1), 0⟩

/-- Every sample row of a batch has its result here (R314). -/
def State.resultsReady (s : State) (lg : Nat) (b : Batch) : Bool :=
  (List.range b.samples).all fun r => ((s.sample lg b.number 0 r 0).token).isSome

/-- The proposals sampled on this module for a batch (R322): handle, index and token. -/
def State.proposalsOf (s : State) (lg : Nat) (b : Batch) : List (Nat × Nat × Nat) :=
  ((s.srv lg).samples.filter fun x => x.batch == b.number && x.func == 1 && s.sampleFull lg x).filterMap fun x =>
    match (resultRowsOf b)[x.row]? with
    | none => none
    | some row =>
      let res := s.resultRow lg b row
      (chosenToken lg x (samplerOf row (res.next + 1 + x.step))).map fun t => (row.handle, x.step, t)

/-- This module is of the sampler group of a ledger. -/
def State.inSampler (s : State) (lg : Nat) : Bool := s.flag Reg.FAB_GRP.member (s.fld Reg.SEQ_SERVE.sgrp lg)

/-- The payload of a sampler partial packet of a target row, part 0 or 1 (Table 17.17). -/
def partialPayload (lg batch row part : Nat) (p : Partial) : List Byte :=
  lineOf [(0, 1, lg), (3, 1, part), (4, 4, batch), (8, 2, row), (0xA, 1, ofFlag p.nan), (0xC, 4, widthCount p), (0x10, 4, p.maxU),
    (0x14, 4, p.sumS), (0x18, 4, p.bestIx), (0x1C, 4, p.bestV)] ++
    padLines (((p.top.drop (32 * part)).take 32).flatMap fun x => toBytes 4 x.1 ++ toBytes 4 x.2)

/-- A whole partial arrives: it is kept until its batch's descriptor is applied (R321). -/
def State.partialArrives (s : State) (ledger batch row ep : Nat) (part : Partial) : State :=
  if (s.srv ledger).applied.any fun b => b.number == batch then s.takePartial ledger batch row ep part
  else if laterBy 32 (batch + 1) (s.fld Reg.SEQ_SERVE.next_batch ledger) then
    s.modSrv ledger fun v => { v with earlyParts := v.earlyParts ++ [(batch, row, ep, part)] }
  else s

/-- SAMPLER_PARTIAL_RECEIVE (R321, R424): half 0 or 1 of a partial, 32 pairs each; with the second one the partial is whole. -/
def execSamplerPartialReceive (hd : PacketHead) (ledger batch row : Nat) (half : PartialHalf) (s : State) : Host.Outcome State Fault Refusal :=
  let part := half.part
  .next (s.engineTake hd (fun s => s.ledgerOn ledger && s.inSampler ledger) fun s =>
    let mine (x : Nat × Nat × Nat × Nat × Partial) : Bool := x.1 == batch && x.2.1 == row && x.2.2.1 == hd.source
    match (s.srv ledger).halves.find? mine with
    | none => s.modSrv ledger fun v => { v with halves := v.halves ++ [(batch, row, hd.source, half.half, part)] }
    | some x =>
      if x.2.2.2.1 = half.half then s
      else
        let other := x.2.2.2.2
        let whole := if half.half = 0 then { part with top := part.top ++ other.top } else { other with top := other.top ++ part.top }
        (s.modSrv ledger fun v => { v with halves := v.halves.filter fun y => !mine y }).partialArrives ledger batch row hd.source whole)

/-- SAMPLE_RESULT_WRITE (R321): the result of a complete row is written, 80 SE steps after its last partial. -/
def execSampleResultWrite (ledger batch row : Nat) (s : State) : Host.Outcome State Fault Refusal :=
  .next (match (s.srv ledger).applied.find? fun b => b.number == batch with
    | none => s
    | some b =>
      let x := s.sample ledger batch 0 row 0
      if !s.seRuns || x.token.isSome || !s.sampleFull ledger x then s
      else s.setSample ledger { x with token := some (chosenToken ledger x (batchSettings b row)) })

/-! ### The SE instructions (R121, R279, R280, R314, R315, R317) -/

/-- Body bits of XE and SE instructions: blk and n. -/
def mBlock : Nat := maskOf 95 88

/-- The issue of an XE or SE instruction that passes a block of `size` bytes; `bad` are its 0x0402 conditions, looked at only where the
block's first 64 bytes can be read. -/
def State.issueBlock (s : State) (core op func : Nat) (mine : Nat → Bool) (size : Nat → Nat) (bad : State → Nat → Nat → Bool)
    (ranges : State → Nat → Nat → List (Nat × Nat) := fun _ _ _ => []) : Host.Outcome State Fault Refusal :=
  .next (s.issue core mine fun s w =>
    let blk := s.addr core (Psi.d w)
    let n := s.cnt core (Psi.a w)
    let readable := decide (blk + 64 ≤ scratchSize)
    let rs := (blk, size n) :: (if readable then ranges s blk n else [])
    { mask := mBlock, codes := Psi.sub w == func, order := inOrder, atIssue := false,
      checks := [(blk % 256 != 0, 0x0404), (bad s (if readable then blk else scratchSize) n, 0x0402),
        (rs.any fun r => outsideScratch r.1, 0x0403), (rs.any fun r => pastScratch r.1 r.2, 0x0409)],
      effect := fun s => s.modCore core fun k =>
        { k with engine := k.engine ++ [(⟨k.sq.pc, op, func, blk, n, Psi.signal w⟩ : EngineOp)] } })

/-- A count outside 1 to `most`. -/
def countOut (n most : Nat) : Bool := decide (n < 1) || decide (most < n)

/-- SEITER with function 0: the descriptor of the job's next batch (R314). -/
def execSeiterBatch (core : Nat) (s : State) : Host.Outcome State Fault Refusal :=
  s.issueBlock core 0x90 0 (isRest 0x90 [1]) (fun n => 64 + 128 * n) fun _ _ n => countOut n 1024

/-- SEITER with function 1: the batch's result rows; an illegal operand outside the sampler group (R314). -/
def execSeiterResult (core : Nat) (s : State) : Host.Outcome State Fault Refusal :=
  s.issueBlock core 0x90 1 (isSub 0x90 1) (fun n => 48 * n) fun s _ n => countOut n 1024 || !((s.ledgerOf core).map s.inSampler).getD false

/-- SEPAGE (R279). -/
def execSepage (core : Nat) (s : State) : Host.Outcome State Fault Refusal :=
  s.issueBlock core 0x91 0 (isOp 0x91) (fun n => 16 * n) fun _ _ n => countOut n 256

/-- SEKV (R280). -/
def execSekv (core : Nat) (s : State) : Host.Outcome State Fault Refusal :=
  s.issueBlock core 0x92 0 (isOp 0x92) (fun n => 16 * n) fun _ _ n => countOut n 256

/-- A field of a block in scratch. -/
def State.blockNum (s : State) (core blk off n : Nat) : Nat := ofBytes (s.scratchGet core (blk + off) n)

/-- What rules a SELOGIT block out (R317): a header field out of range, a row outside the batch, a slice outside the vocabulary, or a
module outside the sampler group. -/
def State.badLogits (s : State) (core func blk n : Nat) : Bool :=
  if countOut n 1024 then true
  else if blk = scratchSize then false
  else match s.ledgerOf core with
    | none => true
    | some lg =>
      let f (off k : Nat) : Nat := s.blockNum core blk off k
      let rows := match (s.srv lg).applied.find? fun b => b.number == f 0 4 with
        | some b => if func = 0 then b.samples else (resultRowsOf b).length
        | none => 0
      !s.inSampler lg || (if func = 0 then f 4 1 != 0 else decide (8 ≤ f 4 1)) || f 5 3 != 0 || f 0xC 4 % 512 != 0 ||
        decide (f 0xC 4 < 512) || decide (262144 < f 0xC 4) || decide (s.fld Reg.SEQ_SERVE.vocab lg < f 8 4 + f 0xC 4) ||
        f 0x10 4 % 64 != 0 || decide (rows < f 0x14 2 + n) || (s.scratchGet core (blk + 0x16) 42).any (· != 0)

/-- The ranges SELOGIT reads beside its block: the logits. -/
def State.logitRanges (s : State) (core blk n : Nat) : List (Nat × Nat) :=
  [(s.blockNum core blk 0x10 4, 4 * s.blockNum core blk 0xC 4 * n)]

/-- SELOGIT with function 0: target logits (R317). -/
def execSelogitTarget (core : Nat) (s : State) : Host.Outcome State Fault Refusal :=
  s.issueBlock core 0x93 0 (isRest 0x93 [1]) (fun _ => 64) (fun s b n => s.badLogits core 0 b n) (fun s b n => s.logitRanges core b n)

/-- SELOGIT with function 1: draft logits (R317, R322). -/
def execSelogitDraft (core : Nat) (s : State) : Host.Outcome State Fault Refusal :=
  s.issueBlock core 0x93 1 (isSub 0x93 1) (fun _ => 64) (fun s b n => s.badLogits core 1 b n) (fun s b n => s.logitRanges core b n)

/-- SEDONE (R121, R315): its block has no bytes and its count no meaning, but the block's address is tested as that of every SE
instruction. -/
def execSedone (core : Nat) (s : State) : Host.Outcome State Fault Refusal :=
  s.issueBlock core 0x94 0 (isOp 0x94) (fun _ => 0) fun _ _ _ => false

/-! ### The work of the SE for an instruction -/

/-- The bytes of a batch descriptor on this module, with at most `n` rows (R313). -/
def State.descriptorBytes (s : State) (b : Batch) (missing : Bool) (n : Nat) : List Byte :=
  batchBytes b missing (if missing then 0 else s.fld Reg.NVS_GEN.base b.slot) (s.fld Reg.NVS_PATCHCFG.base) n

/-- The bytes of a result row (Table 13.10). -/
def resultBytes (r : ResultRow) : List Byte :=
  toBytes 2 r.handle ++ toBytes 1 r.emitted ++ toBytes 1 0 ++ toBytes 4 r.next ++
    ((List.range 9).flatMap fun k => toBytes 4 (r.tokens.getD k 0)) ++ toBytes 4 0

/-- A batch row of the ledgers a core's job serves, among the batches applied here. -/
def State.rowFor (s : State) (core h : Nat) : Option BatchRow :=
  match s.ledgerOf core with
  | some lg => ((s.srv lg).applied.flatMap (·.rows)).find? fun r => r.handle == h
  | none => none

/-- One request of SEPAGE (R279): none where it is not allowed. -/
def State.pageRequest (s : State) (core blk : Nat) : Option State :=
  let f (off k : Nat) : Nat := s.blockNum core blk off k
  let h := f 0 4
  let dst := f 4 4
  let first := f 8 4
  let count := f 0xC 2
  let layer := f 0xE 1
  if (s.rowFor core h).isNone || !s.kvPinned h || countOut count 4096 || decide (s.kvLayers ≤ layer) || dst % 64 != 0 ||
      decide (scratchSize < dst + 8 * count) || f 0xF 1 != 0 then none
  else
    let entry (i : Nat) : Nat :=
      let e := if i < 16384 then s.kvEntry h i else 0
      if entLoc e = 1 then 65536 * (s.kvLayers * entIx e + layer) else 2 ^ 63
    let lines := (((List.range count).filter fun k => decide (first + k < 16384) && s.kvTblk h ((first + k) / 1024) != noBlock).map fun k =>
      s.entryAt (s.kvTblk h ((first + k) / 1024)) (first + k) / 256).eraseDups
    let s' := lines.foldl (fun (s : State) l => s.touchT1 (256 * l) 256) s
    some (s'.scratchPut core dst ((List.range count).flatMap fun k => toBytes 8 (entry (first + k))))

/-- One row of SEKV (R280): none where it is not legal. -/
def State.appendRow (s : State) (core blk : Nat) : Option State :=
  let f (off k : Nat) : Nat := s.blockNum core blk off k
  let h := f 0 4
  let pos := f 4 4
  let src := f 8 4
  let layer := f 0xC 1
  match s.rowFor core h with
  | none => none
  | some r =>
    let e := s.kvEntry h (pos / 64)
    if pos < r.pos ∨ r.pos + r.count ≤ pos ∨ src % 64 ≠ 0 ∨ scratchSize < src + 1024 ∨ s.kvLayers ≤ layer ∨ f 0xD 3 ≠ 0 ∨ entLoc e ≠ 1 then none
    else
      let page := t1Off (s.kvPage (entIx e) layer)
      let t := pos % 64
      let s := (List.range 64).foldl (fun s k =>
        let hd := k / 16
        let g := k % 16
        s.t1Put (page + 16384 * hd + 512 * g + 8 * t) (s.scratchGet core (src + 128 * hd + 8 * g) 8)) s
      some ((List.range 512).foldl (fun s k =>
        let hd := k / 128
        let d := k % 128
        s.t1Put (page + 16384 * hd + 8192 + 1024 * (t / 8) + 8 * d + t % 8) (s.scratchGet core (src + 512 + k) 1)) s)

/-- Do `n` entries of 16 bytes in order until one fails. -/
def State.doEntries (s : State) (f : State → Nat → Option State) (blk : Nat) : Nat → State × Bool
  | 0 => (s, true)
  | n + 1 => match f s blk with
    | some s => s.doEntries f (blk + 16) n
    | none => (s, false)

/-- One slice row of SELOGIT (R317, R321): the member's partial is formed again over all its slices, and a target's goes to the group. -/
def State.takeSlice (s : State) (lg core func : Nat) (b : Batch) (step first width logits row k : Nat) : State :=
  let zs := (List.range width).map fun i => s.blockNum core (logits + 4 * (width * k + i)) 0 4
  let x := s.sample lg b.number func row step
  let x := { x with slices := x.slices ++ [(first, zs)] }
  let set := if func = 0 then batchSettings b row else match (resultRowsOf b)[row]? with
    | some r => samplerOf r ((s.resultRow lg b r).next + 1 + step)
    | none => ⟨0, 0, 0, 0, 0⟩
  let p := set.partialOf x.slices
  let s := s.setSample lg { x with partials := (x.partials.filter fun y => y.1 != s.ep) ++ [(s.ep, p)] }
  if func = 0 then
    let g := s.fld Reg.SEQ_SERVE.sgrp lg
    let job := s.fld Reg.SEQ_SERVE.job lg
    (s.sendGroup (sliceUnit lg) g 0x16 (partialPayload lg b.number row 0 p) job).sendGroup (sliceUnit lg) g 0x16
      (partialPayload lg b.number row 1 p) job
  else s

/-- The SE has read a slice (R317). -/
def State.takeLogits (s : State) (core : Nat) (o : EngineOp) : State :=
  match s.ledgerOf core with
  | none => s
  | some lg =>
    let f (off k : Nat) : Nat := s.blockNum core o.blk off k
    match (s.srv lg).applied.find? fun b => b.number == f 0 4 with
    | none => s
    | some b => (List.range o.n).foldl (fun s k =>
        s.takeSlice lg core o.func b (f 4 1) (f 8 4) (f 0xC 4) (f 0x10 4) (f 0x14 2 + k) k) s

/-- Items put into packets of at most 7 lines, as many whole ones as fit (Table 17.17): the index of each packet's first item, and its bytes. -/
def packItems : Nat → Nat → List (List Byte) → List (Nat × List Byte)
  | 0, _, _ => []
  | _, i, [] => [(i, [])]
  | fuel + 1, i, x :: r =>
    let fit := (x :: r).foldl (fun (a : Nat × Nat × Bool) y =>
      if a.2.2 && decide (a.2.1 + y.length ≤ 448) then (a.1 + 1, a.2.1 + y.length, true) else (a.1, a.2.1, false)) (0, 0, true)
    let n := max 1 fit.1
    (i, ((x :: r).take n).flatten) :: (if (x :: r).length ≤ n then [] else packItems fuel (i + n) ((x :: r).drop n))

/-- Send an end report to the former (Table 17.17): the proposals, then the reporter's result rows. -/
def State.sendReport (s : State) (lg batch : Nat) (props : List (Nat × Nat × Nat)) (res : List ResultRow) : State :=
  let items := (props.map fun x => toBytes 2 x.1 ++ toBytes 1 x.2.1 ++ toBytes 1 0 ++ toBytes 4 x.2.2) ++ res.map resultBytes
  (packItems (items.length + 1) 0 items).foldl (fun s x =>
    s.sendEngine (sliceUnit lg) (s.fld Reg.SEQ_KVLEDGER.former lg) 0x15
      (lineOf [(0, 1, lg), (2, 2, props.length), (4, 4, batch), (8, 2, res.length), (0xA, 2, x.1)] ++ padLines x.2)
      (s.fld Reg.SEQ_SERVE.job lg)) s

/-- Send or apply the end report of a batch this module is through with (R315). -/
def State.endReport (s : State) (lg : Nat) (b : Batch) (cd : CopyData) : State :=
  let missing := (s.srv lg).missing.contains b.number
  let props := s.proposalsOf lg b
  let res := if s.ep = s.fld Reg.SEQ_SERVE.rep_ep lg then (resultRowsOf b).map (s.resultRow lg b) else []
  let s := s.modSrv lg fun v => { v with applied := v.applied.drop 1, missing := v.missing.filter (· != b.number),
                                         samples := v.samples.filter fun x => x.batch != b.number,
                                         halves := v.halves.filter fun x => x.1 != b.number }
  let s := if s.isFormer lg then s.takeReport lg b.number s.ep missing props res cd
    else s.sendReport lg b.number props res
  if (s.srv lg).applied.isEmpty then s else s.signalIteration lg

/-- A core's part of the iteration is recorded; with the last core of the job the batch's end report goes (R315). -/
def State.recordDone (s : State) (core lg : Nat) (cd : CopyData) : State :=
  let s := s.modSrv lg fun v => { v with done := v.done ++ [core] }
  let cores := ((s.job? (s.core core).sq.job).map (·.cores)).getD []
  match (s.srv lg).applied with
  | b :: _ =>
    if cores.all (s.srv lg).done.contains then
      (s.modSrv lg fun v => { v with done := cores.foldl (fun d c => d.erase c) v.done }).endReport lg b cd
    else s
  | [] => s

/-- The SE's work for the oldest SE instruction of a core: none where it must wait; otherwise the state, and whether it failed. -/
def State.seWork (s : State) (core : Nat) (o : EngineOp) (cd : CopyData) : Option (State × Bool) :=
  let batch := (s.ledgerOf core).bind fun lg => (s.coreBatch core lg).map fun b => (lg, b)
  match o.op, batch with
  | 0x90, some (lg, b) =>
    if o.func = 0 then some (s.scratchPut core o.blk (s.descriptorBytes b ((s.srv lg).missing.contains b.number) o.n), true)
    else if s.resultsReady lg b then
      some (s.scratchPut core o.blk (((resultRowsOf b).take o.n).flatMap fun r => resultBytes (s.resultRow lg b r)), true)
    else none
  | 0x91, _ => some (s.doEntries (fun s a => s.pageRequest core a) o.blk o.n)
  | 0x92, _ => some (s.doEntries (fun s a => s.appendRow core a) o.blk o.n)
  | 0x93, _ => some (s.takeLogits core o, true)
  | 0x94, some (lg, _) => some (s.recordDone core lg cd, true)
  | _, _ => none

/-- Remove an engine instruction of a core that has completed: it signals, or raises the exception of a failure (R121). -/
def State.endEngineOp (s : State) (core : Nat) (o : EngineOp) (ok : Bool) (cause : Nat) : State :=
  let s := s.modCore core fun k => { k with engine := k.engine.erase o }
  (if ok then s.signalOwn core 6 o.index o.signal else s.exception core cause 6 o.index true).restCore core

/-- SE_OP_COMPLETE (R76, R121): the oldest SE instruction of a core completes, unless what it waits for is not there. -/
def execSeOpComplete (core : Nat) (copies : CopyData) (s : State) : Host.Outcome State Fault Refusal :=
  .next (match (s.core core).engine.find? fun o => decide (0x90 ≤ o.op) with
    | none => s
    | some o =>
      if !s.seRuns then s
      else match (s.chargeBeats copies.beats).seWork core o { copies with beats := [] } with
        | none => s
        | some (s, ok) => s.endEngineOp core o ok 0x040A)

/-- Put an item at its place among those held; one that is there stays. -/
def holdItem {α : Type} (l : List (Nat × α)) (x : Nat × α) : List (Nat × α) := if l.any fun y => y.1 == x.1 then l else l ++ [x]

/-- The items held, in order of their places. -/
def itemsHeld {α : Type} (l : List (Nat × α)) (from' n : Nat) : List α :=
  (List.range n).filterMap fun k => (l.find? fun x => x.1 == from' + k).map (·.2)

/-- A packet brings items of an end report, from item `first` on (Table 17.17): the proposals, and behind them the result rows. -/
def ReportPart.take (p : ReportPart) (first np : Nat) (proposals : List (Nat × Nat × Nat)) (results : List ResultRow) : ReportPart :=
  { p with
    proposals := (proposals.zipIdx.map fun x => (first + x.2, x.1)).foldl holdItem p.proposals
    results := (results.zipIdx.map fun x => (max first np + x.2, x.1)).foldl holdItem p.results }

/-- BATCH_END_REPORT_RECEIVE (R316, R424): a packet of an end report; with the last item the report is taken. -/
def execBatchEndReportReceive (hd : PacketHead) (ledger batch : Nat) (head : ReportHead)
    (proposals : List (Nat × Nat × Nat)) (results : List ResultRow) (copies : CopyData) (s : State) : Host.Outcome State Fault Refusal :=
  let counts := head.counts
  .next (s.engineTake hd (fun s => s.isFormer ledger) fun s =>
    let mine (p : ReportPart) : Bool := p.batch == batch && p.source == hd.source
    let p := (((s.srv ledger).reports.find? mine).getD ⟨batch, hd.source, [], []⟩).take head.first counts.1 proposals results
    let ps := itemsHeld p.proposals 0 counts.1
    let rs := itemsHeld p.results counts.1 counts.2
    let s := s.modSrv ledger fun v => { v with reports := v.reports.filter fun p => !mine p }
    if ps.length < counts.1 ∨ rs.length < counts.2 then s.modSrv ledger fun v => { v with reports := v.reports ++ [p] }
    else s.takeReport ledger batch hd.source head.missing ps rs copies)

end Sys2Proof.Machine
end

