-- ==== Sys2Proof/Machine/Exchange.lean ====
section
/-! DEFINITION. The expert exchange engine (chapter 14): contexts and phases, the hash and the quota, dispatch, return, and the ends. -/

namespace Sys2Proof.Machine

/-! ### Contexts and phases (R333, R334, R350) -/

/-- The phase lies in the window of open phases (R334). -/
def State.phaseOpen (s : State) (x p : Nat) : Bool :=
  decide ((p + 2 ^ 32 - (s.fld Reg.XE_XCFG.done_phase x + 1) % 2 ^ 32) % 2 ^ 32 < s.fld Reg.XE_XCFG.nbuf x)

/-- An event of the exchange (Table 14.6). -/
def State.xeEvt (s : State) (f : Field) : State := s.raise f Reg.XE_EVTMASK.mask

/-- XE_CONTEXT_CLOSE (R349). -/
def execXeContextClose (context : Nat) (s : State) : Host.Outcome State Fault Refusal :=
  .next (s.hostWrite (0xC00000 + 64 * context) 4 fun s => if context < 16 then s.closeContext context else s)

/-! ### The hash and the quota (R336, R337) -/

/-- The expert of rank `r` among those not taken. -/
def nthUnused (experts : Nat) (taken : List Nat) (r : Nat) : Nat := ((List.range experts).filter fun e => !taken.contains e).getD r 0

/-- The remaining choices of a row, from the hash value of the next one. -/
def chooseFrom (experts : Nat) : Nat → Nat → List Nat → List Nat
  | 0, _, taken => taken
  | n + 1, x, taken =>
    chooseFrom experts n (splitmix x) (taken ++ [nthUnused experts taken (bits x 63 32 % (experts - taken.length))])

/-- The experts of a token in a layer, choice 0 first (R336). -/
def routeToken (seed token layer experts k : Nat) : List Nat :=
  chooseFrom experts k
    (splitmix (seed ^^^ (token * 0x9E3779B97F4A7C15 % 2 ^ 64) ^^^ (layer * 0xC2B2AE3D27D4EB4F % 2 ^ 64))) []

/-- A row choice of a block: entry number, choice, expert, and how many earlier choices of the block chose that expert. -/
structure Pick where
  entry : Nat
  choice : Nat
  expert : Nat
  earlier : Nat
  deriving DecidableEq, Repr

/-- The choices of a block in order (R337). -/
def picks (rows : List (List Nat)) : List Pick :=
  let flat := (List.zip (List.range rows.length) rows).flatMap fun x =>
    (List.zip (List.range x.2.length) x.2).map fun y => (x.1, y.1, y.2)
  (flat.foldl (fun (acc : List Pick × List Nat) z =>
    (acc.1 ++ [(⟨z.1, z.2.1, z.2.2, acc.2.count z.2.2⟩ : Pick)], z.2.2 :: acc.2)) ([], [])).1

/-! ### Receive areas (R339, R340) -/

/-- Slots of a local expert. -/
def State.xeSlots (s : State) (x : Nat) : Nat := s.fld Reg.XE_XCFG.nsrc x * s.fld Reg.XE_XCFG.cap_src x
/-- Bytes of a dispatch row. -/
def State.sendRow (s : State) (x : Nat) : Nat := 64 * s.fld Reg.XE_XCFG.send_row x
/-- Bytes of a return row. -/
def State.retRow (s : State) (x : Nat) : Nat := 64 * s.fld Reg.XE_XCFG.ret_row x
/-- Offset of slot 0 in a buffer (Table 14.1). -/
def State.firstSlot (s : State) (x : Nat) : Nat := 4096 * ceilDiv (2048 + 8 * s.xeSlots x) 4096
/-- Distance of two buffers. -/
def State.xeStride (s : State) (x : Nat) : Nat := 65536 * ceilDiv (s.firstSlot x + s.xeSlots x * s.sendRow x) 65536
/-- Program address of the buffer of a local expert in a phase. -/
def State.xeBuffer (s : State) (x l p : Nat) : Nat :=
  s.fld Reg.XE_LEXP.base (16 * x + l) * 65536 + p % s.fld Reg.XE_XCFG.nbuf x * s.xeStride x
/-- This module hosts a local expert. -/
def State.hosts (s : State) (x l : Nat) : Bool := decide (l < 16) && s.flag Reg.XE_LEXP.en (16 * x + l)
/-- The local experts of a context on this module. -/
def State.localExperts (s : State) (x : Nat) : List Nat := (List.range 16).filter (s.hosts x)

/-- The head of a presence list: the row count as an FP32 number, and zeros. -/
def presenceHead (n : Nat) : List Byte := toBytes 4 (f32 (.fin false n 0)) ++ List.replicate 2044 0

/-- Write the presence vector and the pointer list of a local expert (R340). -/
def State.writePresence (s : State) (x p l : Nat) (got : List Nat) : State :=
  let a := s.xeBuffer x l p
  let list := (List.range (s.xeSlots x)).flatMap fun i =>
    toBytes 8 (if got.contains i then s.firstSlot x + i * s.sendRow x else 2 ^ 63)
  let s := s.areaPut a (presenceHead got.length ++ list)
  if got.isEmpty then s.count Reg.XE_EMPTYCNT.count 1 else s

/-! ### Halves (R342, R345, R346) -/

/-- The dispatch half of a phase is complete here (R342): at once where the module holds no local expert. -/
def State.dispatchDone (s : State) (x : Nat) (y : XePhase) : Bool :=
  !y.clash && (s.localExperts x).all fun l =>
    (List.range (s.fld Reg.XE_XCFG.nsrc x)).all fun i =>
      match y.markers.find? fun m => m.lexp == l && m.src == i with
      | some m => (y.slots.filter fun z => z.lexp == l && z.src == i).length == m.rows
      | none => false

/-- The return half of a phase is complete here (R345). On a module without a local expert it waits for the XDISP of its source: no arrival
could tell it that the phase has none (DEDUCED, log 117). -/
def State.returnDone (s : State) (x : Nat) (y : XePhase) : Bool :=
  y.dispatched && !(y.sources.isEmpty && (s.localExperts x).isEmpty) && y.sources.all fun z => (List.range (s.fld Reg.XE_XCFG.experts x)).all fun e =>
    match z.markers.find? fun m => m.1 == e with
    | some m => (z.sent.filter fun t => t.2.2 == e && z.written.contains (t.1, t.2.1)).length == m.2
    | none => false

/-- Address of a return slot (R343). -/
def State.returnSlot (s : State) (x : Nat) (z : XeSource) (row choice : Nat) : Nat :=
  z.ret + (s.fld Reg.XE_XCFG.k x * row + choice) * s.retRow x

/-- Fill the return slots of a source that received no row (R345). -/
def State.fillReturns (s : State) (x : Nat) (z : XeSource) : State :=
  (z.rows.flatMap fun r => (List.range (s.fld Reg.XE_XCFG.k x)).map fun j => (r, j)).foldl (fun s rj =>
    if z.written.contains rj then s
    else
      let s := s.areaPut (s.returnSlot x z rj.1 rj.2) (List.replicate (s.retRow x) 0)
      if z.sent.any fun t => (t.1, t.2.1) == rj then (s.count Reg.XE_UNRETCNT.count 1).xeEvt Reg.XE_EVT.unret else s) s

/-- Complete the halves of a phase that can be completed. -/
def State.completeHalves (s : State) (x p : Nat) : State :=
  let y := (s.ctx x).at p
  let s := if !y.dispatched && s.dispatchDone x y then
      let s := (s.localExperts x).foldl (fun s l =>
        s.writePresence x p l ((y.slots.filter fun z => z.lexp == l).map (·.slot))) s
      s.setPhaseOf x { y with dispatched := true }
    else s
  let y := (s.ctx x).at p
  if !y.returned && s.returnDone x y then
    (y.sources.foldl (fun s z => s.fillReturns x z) s).setPhaseOf x { y with returned := true }
  else s

/-- Signal the halves whose turn has come (R346); `n` bounds their number. -/
def State.signalHalves (s : State) (x : Nat) : Nat → State
  | 0 => s
  | n + 1 =>
    if !s.flag Reg.XE_XCFG.en x then s
    else
      let p := (s.fld Reg.XE_XCFG.done_phase x + 1) % 2 ^ 32
      let s := s.completeHalves x p
      let v := s.ctx x
      let y := v.at p
      if v.signalled % 2 = 0 then
        if !y.dispatched then s
        else
          let s := (s.setCtx x { v with signalled := v.signalled + 1 }).setPhaseOf x { y with returnEvent := some s.uptime }
          (s.signalJob (s.fld Reg.XE_XCFG.job x) 2).signalHalves x n
      else if !y.returned then s
      else
        let s := s.setCtx x { v with signalled := v.signalled + 1, phases := v.phases.filter fun z => z.phase != p }
        let s := s.setFld Reg.XE_XCFG.done_phase p x
        (s.signalJob (s.fld Reg.XE_XCFG.job x) 2).signalHalves x n

/-- Something of a phase has changed. -/
def State.advanceXe (s : State) (x p : Nat) : State := (s.completeHalves x p).signalHalves x 8

/-- XE_CONTEXT_OPEN (R334, R342, R350): the job field is taken with en, as the context is closed; a module without a local expert completes
the first dispatch half at once. -/
def execXeContextOpen (context value : Nat) (s : State) : Host.Outcome State Fault Refusal :=
  .next (s.hostWrite (0xC00000 + 64 * context) 4 fun s =>
    if 16 ≤ context ∨ s.flag Reg.XE_XCFG.en context ∨ !bit value 31 then s
    else
      let soon := match (s.ctx context).closedAt with
        | some t => decide (s.uptime < t + 1000 * s.fld Reg.XE_XCFG.to_us context)
        | none => false
      if decide (65536 < s.fld Reg.XE_XCFG.nsrc context * s.fld Reg.XE_XCFG.cap_src context) || soon then s.xeEvt Reg.XE_EVT.refused
      else
        let s := s.setFld Reg.XE_XCFG.job (bits value 15 0) context
        let s := s.setFld Reg.XE_XCFG.epoch (s.fld Reg.XE_XCFG.epoch context + 1) context
        let s := (s.setFld Reg.XE_XCFG.done_phase 0xFFFFFFFF context).setFld Reg.XE_XCFG.en 1 context
        (s.setCtx context XeContext.empty).advanceXe context 0)

/-- An arrival is of a closed context, another epoch, or a stale phase (R349). -/
def State.staleArrival (s : State) (x epoch p : Nat) : Bool :=
  decide (16 ≤ x) || !s.flag Reg.XE_XCFG.en x || s.fld Reg.XE_XCFG.epoch x != epoch || !s.phaseOpen x p

/-- Discard a stale arrival. -/
def State.countStale (s : State) : State := (s.count Reg.XE_STALECNT.count 1).xeEvt Reg.XE_EVT.stale

/-- Begin the dispatch half of a phase at its first event (R348). -/
def XePhase.begun (y : XePhase) (now : Nat) : XePhase := { y with dispatchEvent := some (y.dispatchEvent.getD now) }

/-- Two endpoints used one source index (R335). -/
def XePhase.clashes (y : XePhase) (src ep : Nat) : Bool :=
  y.slots.any (fun z => z.src == src && z.endpoint != ep) || y.markers.any (fun m => m.src == src && m.endpoint != ep)

/-- A row arrives at this module: into its slot, or at its origin's return area (R339, R343). -/
def State.rowArrives (s : State) (ep : Nat) (r : ExchangeRow) (data : List Byte) : State :=
  let x := r.context
  if s.staleArrival x r.epoch r.phase then s.countStale
  else
    let y := (s.ctx x).at r.phase
    if r.half = 0 then
      let y := y.begun s.uptime
      if y.clashes r.src ep then s.setPhaseOf x { y with clash := true }
      else if y.slots.any fun z => z.lexp == r.lexp && z.slot == r.slot then s
      else
        let s := s.areaPut (s.xeBuffer x r.lexp r.phase + s.firstSlot x + r.slot * s.sendRow x) (data.take (s.sendRow x))
        let z : XeSlot := ⟨r.lexp, r.slot, r.src, ep, r.row, r.choice, false⟩
        (s.setPhaseOf x { y with slots := y.slots ++ [z] }).advanceXe x r.phase
    else match y.sources.find? fun z => z.index == r.src with
      | none => s
      | some z =>
        if z.written.contains (r.row, r.choice) then s
        else
          let s := s.areaPut (s.returnSlot x z r.row r.choice) (data.take (s.retRow x))
          let z' := { z with written := z.written ++ [(r.row, r.choice)] }
          (s.setPhaseOf x { y with sources := y.sources.map fun w => if w.index == r.src then z' else w }).advanceXe x r.phase

/-- The expert that a host's local expert is. -/
def State.expertAt (s : State) (x ep lexp : Nat) : Option Nat :=
  (List.range (s.fld Reg.XE_XCFG.experts x)).find? fun e =>
    s.fld Reg.XE_ROUTE.ep (256 * x + e) == ep && s.fld Reg.XE_ROUTE.lexp (256 * x + e) == lexp

/-- An end marker of a return arrives at this module (R343, R345). -/
def State.returnMark (s : State) (ep : Nat) (m : ExchangeMark) : State :=
  let x := m.context
  let y := (s.ctx x).at m.phase
  if s.staleArrival x m.epoch m.phase then s.countStale
  else match s.expertAt x ep m.lexp with
    | none => s
    | some e =>
      let y := { y with sources := y.sources.map fun z =>
        if z.index == m.src then { z with markers := z.markers ++ [(e, m.rows)] } else z }
      (s.setPhaseOf x y).advanceXe x m.phase

/-- A put to an endpoint out of reach is refused and sends nothing: the instruction raises 0x040B (R347, R379). -/
def State.putRefused (s : State) (c index : Nat) : State := (s.refusedOut).exception c 0x040B 6 index true

/-- Send the return end marker of a closed local expert to one source, or take it here. A closed context sends nothing (R349). -/
def State.sendClose (s : State) (c index ep : Nat) (m : ExchangeMark) : State :=
  if !s.flag Reg.XE_XCFG.en m.context then s
  else if ep = s.ep then s.returnMark ep m
  else if !s.engineReach ep false then s.putRefused c index
  else s.putMark c index ep m

/-- The endpoint of a source index, once an end marker of it has come. -/
def XePhase.origin (y : XePhase) (i : Nat) : Option Nat := (y.markers.find? fun m => m.src == i).map (·.endpoint)

/-- The return end marker of a local expert for a source index, with the rows returned to that source (R343). -/
def State.closeMark (s : State) (x p l i : Nat) : ExchangeMark :=
  ⟨x, s.fld Reg.XE_XCFG.epoch x, 1, l, p, i,
    ((((s.ctx x).at p).slots.filter fun z => z.lexp == l && z.src == i && z.returned).length)⟩

/-- An end marker of a dispatch arrives at this module (R341). The first of its source index tells the endpoint: experts closed before
send it their return end markers now (R343). -/
def State.dispatchMark (s : State) (ep : Nat) (m : ExchangeMark) : State :=
  let x := m.context
  if s.staleArrival x m.epoch m.phase then s.countStale
  else
    let y := ((s.ctx x).at m.phase).begun s.uptime
    if y.clashes m.src ep then s.setPhaseOf x { y with clash := true }
    else
      let late := if (y.origin m.src).isSome then [] else y.closed
      let s := s.setPhaseOf x { y with markers := y.markers ++ [(⟨m.lexp, m.src, m.rows, ep⟩ : XeMarker)] }
      let s := late.foldl (fun s z => s.sendClose z.2.1 z.2.2 ep (s.closeMark x m.phase z.1 m.src)) s
      s.advanceXe x m.phase

/-- An end marker arrives at this module. -/
def State.markArrives (s : State) (ep : Nat) (m : ExchangeMark) : State :=
  if m.half = 0 then s.dispatchMark ep m else s.returnMark ep m

/-- A packet of a row arrives (R424): the row takes effect with the packet that brings the last of its lines; a stale one is not kept. -/
def State.rowPacket (s : State) (ep : Nat) (r : ExchangeRow) (first : Nat) (data : List Byte) : State :=
  if s.staleArrival r.context r.epoch r.phase then s.countStale
  else
    let total := s.fld (if r.half = 0 then Reg.XE_XCFG.send_row else Reg.XE_XCFG.ret_row) r.context
    let got := s.gather ep 0x10 [r.context, r.epoch, r.half, r.lexp, r.phase, r.slot, r.src, r.row, r.choice] total first data
    match got.1 with
    | some bs => got.2.rowArrives ep r bs
    | none => got.2

/-- XE_ROW_RECEIVE (R339, R343, R349, R424): the lines of a row that one packet carries, with the beats of the XE that
waited (R227). -/
def execXeRowReceive (hd : PacketHead) (row : ExchangeRow) (lines : RowLines) (s : State) : Host.Outcome State Fault Refusal :=
  .next (s.engineTake hd (fun s => s.staleArrival row.context row.epoch row.phase || row.half == 1 || s.hosts row.context row.lexp)
    fun s => (s.rowPacket hd.source row lines.first lines.bytes).chargeBeats lines.beats)

/-- XE_END_MARKER_RECEIVE (R342, R345, R349). -/
def execXeEndMarkerReceive (hd : PacketHead) (arrival : MarkArrival) (s : State) : Host.Outcome State Fault Refusal :=
  let mark := arrival.mark
  .next (s.engineTake hd (fun s => s.staleArrival mark.context mark.epoch mark.phase || mark.half == 1 || s.hosts mark.context mark.lexp)
    fun s => (s.markArrives hd.source mark).chargeBeats arrival.beats)

/-! ### Sending (R341, R343) -/

/-- Send a row to an endpoint, or take it here. `who` is the core and index of the instruction. A closed context sends nothing (R349). -/
def State.sendRowTo (s : State) (who : Nat × Nat) (ep : Nat) (r : ExchangeRow) (data : List Byte) : State :=
  if !s.flag Reg.XE_XCFG.en r.context then s
  else if ep = s.ep then s.rowArrives ep r data
  else if !s.engineReach ep false then s.putRefused who.1 who.2
  else
    let first (k : Nat) : List Byte := lineOf [(0, 1, r.context), (1, 1, r.epoch), (2, 1, r.half), (3, 1, r.lexp), (4, 4, r.phase),
      (8, 2, r.slot), (0xA, 2, r.src), (0xC, 4, r.row), (0x10, 1, r.choice), (0x14, 4, k)]
    let owner := Owner.exchange who.1 who.2 r.context r.phase (if r.half = 0 then some r.src else none)
    (itemPayloads first data).foldl (fun s p =>
      s.sendRequest (Packet.engine ep false 0x10 (who.1 / 128) (s.fld Reg.XE_XCFG.job r.context) p) owner 0) s

/-- Send the end marker of a dispatch to a host, or take it here; it waits for the rows of its source to be put there (R341). -/
def State.sendMarkTo (s : State) (who : Nat × Nat) (ep : Nat) (m : ExchangeMark) : State :=
  let y := (s.ctx m.context).at m.phase
  if !s.flag Reg.XE_XCFG.en m.context then s
  else if ep = s.ep then s.dispatchMark ep m
  else if !s.engineReach ep false then s.putRefused who.1 who.2
  else if s.putsOpen (.exchange who.1 who.2 m.context m.phase (some m.src)) ep then
    s.setPhaseOf m.context { y with ends := y.ends ++ [(⟨ep, m⟩ : XeEnd)] }
  else s.putMark who.1 who.2 ep m

/-- A block of `n` entries of `size` bytes lies in core scratch, header and all. -/
def blockReadable (blk n size : Nat) : Bool := decide (n ≤ 4096) && decide (blk + 64 + size * n ≤ scratchSize)

/-- Every byte of a span of a block is zero. -/
def State.blockZero (s : State) (core blk lo hi : Nat) : Bool := (span lo hi).all fun i => s.blockNum core blk i 1 == 0

/-- A program address lies in T1. -/
def inT1 (p : Nat) : Bool :=
  match locate p with
  | some (.t1, _) => true
  | _ => false

/-- What rules an XDISP block out at issue (Table 14.2, R121): a count, a reserved field, a return area misaligned or outside T1, a row index
out of range, or a misaligned row. -/
def State.badDispatch (s : State) (core blk n : Nat) : Bool :=
  decide (4096 < n) || blockReadable blk n 16 &&
    (!(s.blockZero core blk 1 2 && s.blockZero core blk 0xA 0x10 && s.blockZero core blk 0x18 0x40) ||
      s.blockNum core blk 0x10 8 % 64 != 0 || !inT1 (s.blockNum core blk 0x10 8) ||
      (List.range n).any fun i =>
        let e := blk + 64 + 16 * i
        decide (65536 ≤ s.blockNum core e 0 4) || s.blockNum core e 8 4 % 64 != 0 || s.blockNum core e 0xC 4 != 0)

/-- What rules an XRET block out at issue (Table 14.3, R121): a count, a reserved field, or a misaligned row. -/
def State.badReturn (s : State) (core blk n : Nat) : Bool :=
  decide (4096 < n) || blockReadable blk n 8 &&
    (!(s.blockZero core blk 1 2 && s.blockZero core blk 8 0x40) ||
      (List.range n).any fun i =>
        let e := blk + 64 + 8 * i
        s.blockNum core e 1 1 != 0 || s.blockNum core e 4 4 % 64 != 0)

/-- Row ranges of an XDISP block, as far as its context tells their size. -/
def State.dispatchRows (s : State) (core blk n : Nat) : List (Nat × Nat) :=
  let x := s.blockNum core blk 0 1
  if !blockReadable blk n 16 then []
  else (List.range n).map fun i => (s.blockNum core (blk + 64 + 16 * i) 8 4, if x < 16 then s.sendRow x else 0)

/-- Row ranges of an XRET block. -/
def State.returnRows (s : State) (core blk n : Nat) : List (Nat × Nat) :=
  let x := s.blockNum core blk 0 1
  if !blockReadable blk n 8 then []
  else (List.range n).map fun i => (s.blockNum core (blk + 64 + 8 * i) 4 4, if x < 16 then s.retRow x else 0)

/-- XDISP (R341). -/
def execXdisp (core : Nat) (s : State) : Host.Outcome State Fault Refusal :=
  s.issueBlock core 0x80 0 (isOp 0x80) (fun n => 64 + 16 * n) (fun s blk n => s.badDispatch core blk n) (fun s blk n => s.dispatchRows core blk n)

/-- XRET (R343). -/
def execXret (core : Nat) (s : State) : Host.Outcome State Fault Refusal :=
  s.issueBlock core 0x81 0 (isOp 0x81) (fun n => 64 + 8 * n) (fun s blk n => s.badReturn core blk n) (fun s blk n => s.returnRows core blk n)

/-- The context of a block is not one that the core may use in that phase (R347). -/
def State.xeRefuses (s : State) (core x p : Nat) : Bool :=
  decide (16 ≤ x) || !s.flag Reg.XE_XCFG.en x || s.fld Reg.XE_XCFG.job x != (s.core core).sq.job || !s.phaseOpen x p

/-- The choices of every entry of a dispatch, in order. -/
def State.xdPicks (s : State) (core blk n x : Nat) : List Pick :=
  picks ((List.range n).map fun i =>
    routeToken (s.fld Reg.XE_XCFG.seed x) (s.blockNum core (blk + 64 + 16 * i) 4 4) (s.blockNum core blk 8 2) (s.fld Reg.XE_XCFG.experts x)
      (s.fld Reg.XE_XCFG.k x))

/-- A choice beyond the source's capacity is counted and reported, and its row is not sent. -/
def State.overflowRow (s : State) : State := (s.count Reg.XE_OVFCNT.count 1).xeEvt Reg.XE_EVT.overflow

/-- Send the row of one choice to its expert; `v` is the state the block was read in. -/
def State.sendPick (s v : State) (core blk index x p src : Nat) (k : Pick) : State :=
  let a := blk + 64 + 16 * k.entry
  s.sendRowTo (core, index) (s.fld Reg.XE_ROUTE.ep (256 * x + k.expert))
    ⟨x, v.fld Reg.XE_XCFG.epoch x, 0, s.fld Reg.XE_ROUTE.lexp (256 * x + k.expert), p, src * v.fld Reg.XE_XCFG.cap_src x + k.earlier, src,
      v.blockNum core a 0 4, k.choice⟩ (v.scratchGet core (v.blockNum core a 8 4) (v.sendRow x))

/-- Send the end marker of one expert, with the rows it counts. -/
def State.sendEnd (s v : State) (core index x p src : Nat) (sent : List Pick) (e : Nat) : State :=
  s.sendMarkTo (core, index) (s.fld Reg.XE_ROUTE.ep (256 * x + e))
    ⟨x, v.fld Reg.XE_XCFG.epoch x, 0, s.fld Reg.XE_ROUTE.lexp (256 * x + e), p, src, (sent.filter fun k => k.expert == e).length⟩

/-- The work of an XDISP (R341): none where it is refused. -/
def State.dispatch (s : State) (core : Nat) (o : EngineOp) : Option State :=
  let x := s.blockNum core o.blk 0 1
  let src := s.blockNum core o.blk 2 2
  let p := s.blockNum core o.blk 4 4
  let y := (s.ctx x).at p
  if s.xeRefuses core x p || decide (s.fld Reg.XE_XCFG.nsrc x ≤ src) || y.sources.any (fun z => z.index == src) then none
  else
    let all := s.xdPicks core o.blk o.n x
    let cap := s.fld Reg.XE_XCFG.cap_src x
    let sent := all.filter fun k => decide (k.earlier < cap)
    let z : XeSource := ⟨src, (List.range o.n).map fun i => s.blockNum core (o.blk + 64 + 16 * i) 0 4, s.blockNum core o.blk 0x10 8,
      sent.map fun k => (s.blockNum core (o.blk + 64 + 16 * k.entry) 0 4, k.choice, k.expert), [], []⟩
    let t := (all.filter fun k => decide (cap ≤ k.earlier)).foldl (fun t _ => t.overflowRow) s
    let t := t.setPhaseOf x { y.begun t.uptime with sources := y.sources ++ [z] }
    let t := sent.foldl (fun t k => t.sendPick s core o.blk o.index x p src k) t
    let t := (List.range (s.fld Reg.XE_XCFG.experts x)).foldl (fun t e => t.sendEnd s core o.index x p src sent e) t
    some (t.advanceXe x p)

/-- Return one slot to its origin (R343). -/
def State.returnSlotRow (s : State) (core index x p lexp slot src : Nat) : State :=
  let y := (s.ctx x).at p
  match y.slots.find? fun z => z.lexp == lexp && z.slot == slot && !z.returned with
  | none => s
  | some z =>
    let data := s.scratchGet core src (s.retRow x)
    let s := s.setPhaseOf x { y with slots := y.slots.map fun w => if w == z then { z with returned := true } else w }
    s.sendRowTo (core, index) z.endpoint ⟨x, s.fld Reg.XE_XCFG.epoch x, 1, lexp, p, slot, z.src, z.row, z.choice⟩ data

/-- Close local experts in a phase: every source index whose endpoint is known gets the end marker of each (R343, R344). -/
def State.closeExperts (s : State) (core index x p : Nat) (closes : List Nat) : State :=
  let y := (s.ctx x).at p
  let marks := closes.flatMap fun l => (List.range (s.fld Reg.XE_XCFG.nsrc x)).filterMap fun i =>
    (y.origin i).map fun ep => (ep, s.closeMark x p l i)
  let s := s.setPhaseOf x { y with closed := y.closed ++ closes.map fun l => (l, core, index) }
  marks.foldl (fun s m => s.sendClose core index m.1 m.2) s

/-- The work of an XRET (R343): none where it is refused. -/
def State.giveBack (s : State) (core : Nat) (o : EngineOp) : Option State :=
  let f (off k : Nat) : Nat := s.blockNum core o.blk off k
  let x := f 0 1
  let p := f 4 4
  let y := (s.ctx x).at p
  let closes := (s.localExperts x).filter fun l => bit (f 2 2) l
  if s.xeRefuses core x p || closes.any (fun l => y.closed.any fun z => z.1 == l) then none
  else
    let s := (List.range o.n).foldl (fun s i =>
      let g (off k : Nat) : Nat := s.blockNum core (o.blk + 64 + 8 * i) off k
      s.returnSlotRow core o.index x p (g 0 1) (g 2 2) (g 4 4)) s
    some ((s.closeExperts core o.index x p closes).advanceXe x p)

/-- XE_ROWS_TAKEN (R341, R343, R347): the XE has read every row of the oldest exchange instruction of a core, which signals; a refused one
sends nothing and raises 0x040B. -/
def execXeRowsTaken (taken : RowsTaken) (s : State) : Host.Outcome State Fault Refusal :=
  let core := taken.core
  .next (match (s.core core).engine.find? fun o => decide (o.op < 0x90) with
    | none => s
    | some o =>
      if !s.seRuns then s
      else
        let s := s.chargeBeats taken.beats
        match if o.op = 0x80 then s.dispatch core o else s.giveBack core o with
        | some s => s.endEngineOp core o true 0x040B
        | none => (s.xeEvt Reg.XE_EVT.refused).endEngineOp core o false 0x040B)

/-- XE_HALF_TIMEOUT (R348): a half has not completed within to_us of its first event. -/
def execXeHalfTimeout (context phase half : Nat) (s : State) : Host.Outcome State Fault Refusal :=
  .next (
    if 16 ≤ context || !s.flag Reg.XE_XCFG.en context then s
    else match (s.ctx context).phases.find? fun y => y.phase == phase with
      | none => s
      | some y =>
        let late := if half = 0 then !y.dispatched && y.dispatchEvent.isSome else !y.returned && y.returnEvent.isSome
        if !late then s
        else
          let j := s.fld Reg.XE_XCFG.job context
          ((s.recordFault 0x0603 (.unit slotXdieA) [context, phase, half]).closeContext context).faultJob j 0x100)

end Sys2Proof.Machine
end

