-- ==== Sys2Proof/Machine/Jobs.lean ====
section
/-! DEFINITION. Launches, switches and job control: the commands of chapter 15, with LAUNCH (R70 to R74). -/

namespace Sys2Proof.Machine

/-! ### A core takes up a job (R73, R361 to R364) -/

/-- The program of a job as a core copies it into its store (R73). -/
def State.program (s : State) (j : Job) : List (Nat × IWord) :=
  (List.range j.length).foldl (fun t i =>
    Table.set (0 : IWord) t i (BitVec.ofNat 128 (s.numT1 (j.program + 16 * i) 16))) []

/-- The sequencer of a core at launch (Table 4.1, Table 4.5). -/
def State.launchSeq (s : State) (j : Job) (c : Nat) : Sequencer :=
  let at' (off n : Nat) : Nat := if j.init = 0 then 0 else s.numT1 (j.init + off) n
  { pc := j.entry, loops := [],
    areg := (List.range 16).foldl (fun t i => Table.set (0 : Addr) t i (BitVec.ofNat 48 (at' (8 * i) 8))) [],
    creg := (List.range 16).foldl (fun t i => Table.set (0 : Word) t i (BitVec.ofNat 32 (at' (0x80 + 4 * i) 4))) [],
    pred := (span 1 8).foldl (fun t i => Table.set false t i (bit (at' 0xC0 1) i)) [],
    event := (List.range 24).foldl (fun t i => Table.set 0 t i (at' (0xC4 + 2 * i) 2)) [],
    binding := (span 24 32).foldl (fun t i => Table.set 0 t i (bits j.bind (4 * (i - 24) + 3) (4 * (i - 24)))) [],
    ldb := BitVec.ofNat 48 j.ldb, alarm := alarmOff, job := j.id, rank := j.cores.idxOf c, ncores := j.cores.length }

/-- The save image a job has on a core. -/
def State.imageOf (s : State) (j c : Nat) : Option (Nat × CloakImage) := s.images.find? fun x => x.1 / 2 == c && x.2.job == j

/-- Tallies kept for one core of a job, by event. -/
def Job.talliesOf (j : Job) (c : Nat) : List (Nat × Nat) :=
  (j.tallies.filter fun x => x.1 / 32 == c).map fun x => (x.1 % 32, x.2)

/-- What a core holds when it takes up a job: its image, or the state of a launch; the program is loaded again, and the RDS latch is
not part of an image (R363). -/
def State.coreFor (s : State) (j : Job) (c : Nat) : Core :=
  let q := (s.core c).quiesced
  let k := match s.imageOf j.id c with
    | some (_, im) => { im.core with quiesced := im.quiesced || q, gscLatch := 0, dpaBad := false, vrwBad := false }
    | none => { Core.reset with sq := s.launchSeq j c, quiesced := q, tally := j.talliesOf c }
  { k with prog := s.program j, progLen := j.length, frozen := k.quiesced }

/-- The image a job has on a core leaves the cloak; a core without one begins with no exception latched. -/
def State.takeImage (s : State) (j c : Nat) : State :=
  match s.imageOf j c with
  | some (i, _) => { s.setFld (slotField (i % 2)) 0xFFFF c with images := Table.del s.images i }
  | none => s.setFld Reg.SEQ_EXCINFO.valid 0 c

/-- Phase 5 of a switch on one core: it begins at its PC, or enters run state 4 where it is quiesced (R364). -/
def State.startCore (s : State) (j : Job) (c : Nat) : State :=
  let k := s.coreFor j c
  let s := s.touchT1 j.program (16 * j.length)
  let s := if j.init = 0 ∨ (s.imageOf j.id c).isSome then s else s.touchT1 j.init 256
  let s := ((s.takeImage j.id c).setCore c k).setFld Reg.UNIT_JOB.job j.id (slotCore c)
  let s := s.modJob j.id fun x => { x with tallies := x.tallies.filter fun y => y.1 / 32 != c }
  if k.quiesced then s.setRun (slotCore c) Run.quiesced else ((s.setRun (slotCore c) Run.running).runMovers c).applyTally c

/-! ### The phases of a switch (R362, R365) -/

/-- The switch that moves a job. -/
def State.switchOf (s : State) (j : Nat) : Option Switch :=
  s.switches.find? fun w => w.incoming == some j || w.outgoing.any fun x => x.1 == j

/-- The phase of a switch on a C-die. -/
def Switch.at (w : Switch) (d : Nat) : SwitchPhase := ((w.phase.find? fun x => x.1 == d).map (·.2)).getD .done

/-- Move a switch on a C-die to a phase. -/
def State.setPhase (s : State) (w : Switch) (d : Nat) (p : SwitchPhase) : State :=
  { s with switches := s.switches.map fun v =>
      if v == w then { v with phase := v.phase.map fun x => if x.1 = d then (d, p) else x } else v }

/-! ### The cloak area (R361, Tables 15.2 and 15.3) -/

/-- T1 offset of a cloak slot: the area is the last 2.5 GiB of the global zone, 1.25 GiB for each slot (R208, R361). -/
def State.slotBase (s : State) (slot : Nat) : Nat := s.globalGib * gib - 5 * gib / 2 + 0x5000_0000 * slot

/-- Place of a core's record in a slot. -/
def cloakRecord (c : Nat) : Nat := 0x1_0000 + 0x6_0000 * c
/-- Place of a cluster's SRAM in a slot. -/
def cloakSramAt (k : Nat) : Nat := 0x800_0000 + 0x80_0000 * k
/-- Place of a core's scratch in a slot. -/
def cloakScratch (c : Nat) : Nat := 0x1000_0000 + 0x40_0000 * c

/-- The cells of one range, moved to another. -/
def shiftCells (from' to' : Nat) (t : List Host.Cell) : List Host.Cell := t.map fun e => (e.1 - from' + to', e.2)

/-- The cloak engine writes a range of the cloak area: the cells given, and zeros between them. -/
def State.cloakPut (s : State) (off n : Nat) (cells : List Host.Cell) : State :=
  { s with mem := { s.mem with
      t1 := s.mem.t1.filter (fun e => decide (e.1 < off)) ++ cells ++ s.mem.t1.filter fun e => decide (off + n ≤ e.1) } }

/-- The cloak engine reads a range of the cloak area. -/
def State.cloakGet (s : State) (off n : Nat) : List Host.Cell :=
  s.mem.t1.filter fun e => decide (off ≤ e.1) && decide (e.1 < off + n)

/-- Bytes 0x0000 to 0x015F of a core record (Table 15.3). The places of the charge fractions and inside the mover areas are not specified: the
image holds those items themselves (log entry 107). -/
def Core.record (k : Core) (run : Nat) : List Byte :=
  let q := k.sq
  (List.range 16).flatMap (fun i => toBytes 8 (q.a i).toNat) ++ (List.range 16).flatMap (fun i => toBytes 4 (q.c i).toNat) ++
    toBytes 1 (((span 1 8).map fun i => if q.p i then 2 ^ i else 0).sum) ++ toBytes 1 q.loops.length ++ toBytes 2 q.pc ++
    (List.range 32).flatMap (fun i => toBytes 2 (q.e i)) ++
    toBytes 4 (((List.range 8).map fun i => q.bind (24 + i) * 16 ^ i).sum) ++ toBytes 8 q.ldb.toNat ++ toBytes 8 q.alarm ++
    toBytes 2 q.job ++ toBytes 2 q.rank ++ toBytes 2 q.ncores ++ toBytes 1 run ++ toBytes 1 0 ++
    (List.range 4).flatMap fun i => match (q.loops.reverse[i]? : Option LoopEntry) with
      | some l => toBytes 2 l.start ++ toBytes 2 l.stop ++ toBytes 4 0 ++ toBytes 4 l.remaining ++ toBytes 4 0
      | none => toBytes 16 0

/-- Cores of a job on a C-die. -/
def Job.onDie (j : Job) (d : Nat) : List Nat := j.cores.filter fun c => c / 64 == d

/-- Save one core into its slot (R362, R363): its scratch, the part of its record that Table 15.3 lays out, and its header entry go to the
cloak area. -/
def State.saveCore (s : State) (j slot c : Nat) : State :=
  let k := s.core c
  let im : CloakImage := ⟨j, { k with prog := [], progLen := 0, frozen := false }, k.quiesced⟩
  let base := s.slotBase slot
  let s := s.cloakPut (base + cloakScratch c) scratchSize
    (shiftCells (c * scratchSize) (base + cloakScratch c) (s.mem.scratch.filter fun e => e.1 / scratchSize == c))
  let s := s.cloakPut (base + cloakRecord c) 0x2000 (writeBytes [] (base + cloakRecord c) (k.record (s.run (slotCore c))))
  let s := s.cloakPut (base + 4 * c) 4 (writeBytes [] (base + 4 * c) (toBytes 2 j ++ toBytes 1 1 ++ toBytes 1 (ofFlag k.quiesced)))
  let s := { s with images := Table.put s.images (2 * c + slot) im }
  ((s.setFld (slotField slot) j c).setCore c Core.reset).setFld Reg.UNIT_JOB.job 0xFFFF (slotCore c)

/-- Save the SRAM of a cluster (R362), with its header entry. -/
def State.saveSram (s : State) (j slot k : Nat) : State :=
  let base := s.slotBase slot
  let s := s.cloakPut (base + cloakSramAt k) sramSize
    (shiftCells (k * sramSize) (base + cloakSramAt k) (s.mem.sram.filter fun e => e.1 / sramSize == k))
  let s := s.cloakPut (base + 0x400 + 4 * k) 4 (writeBytes [] (base + 0x400 + 4 * k) (toBytes 2 j ++ toBytes 2 1))
  { s with sramImages := Table.put s.sramImages (2 * k + slot) ⟨j⟩ }

/-- Put the cells of one unit of a store in place of what is there. -/
def swapUnit (t : List Host.Cell) (size unit : Nat) (new : List Host.Cell) : List Host.Cell :=
  t.filter (fun e => decide (e.1 < unit * size)) ++ new.filter (fun e => e.1 / size == unit) ++
    t.filter fun e => decide ((unit + 1) * size ≤ e.1)

/-- Make the scratch of a core ready for a job: its image's, or zeros (R357). -/
def State.readyCore (s : State) (j c : Nat) : State :=
  let new := match s.imageOf j c with
    | some (i, _) =>
      let at' := s.slotBase (i % 2) + cloakScratch c
      shiftCells at' (c * scratchSize) (s.cloakGet at' scratchSize)
    | none => []
  { s with mem := { s.mem with scratch := swapUnit s.mem.scratch scratchSize c new } }

/-- Make a cluster's SRAM ready for a job: its image's, or zeros (R357). -/
def State.readySram (s : State) (j k : Nat) : State :=
  let im := s.sramImages.find? fun x => x.1 / 2 == k && x.2.job == j
  let new := match im with
    | some (i, _) =>
      let at' := s.slotBase (i % 2) + cloakSramAt k
      shiftCells at' (k * sramSize) (s.cloakGet at' sramSize)
    | none => []
  let s := { s with mem := { s.mem with sram := swapUnit s.mem.sram sramSize k new } }
  match im with
  | some (i, _) => { s with sramImages := Table.del s.sramImages i }
  | none => s

/-- Save an outgoing job on a C-die. -/
def State.saveJob (s : State) (d : Nat) (x : Nat × Nat) : State :=
  match s.job? x.1 with
  | none => s
  | some j =>
    let cs := j.onDie d
    let s := if j.clusterSram then (clustersOf cs).foldl (fun s k => s.saveSram j.id x.2 k) s else s
    cs.foldl (fun s c => s.saveCore j.id x.2 c) s

/-- Every core of a job is in its slot. -/
def State.saved (s : State) (j : Job) : Bool := j.cores.all fun c => (s.imageOf j.id c).isSome

/-- An outgoing job that is saved whole is suspended, or held (R354, R367, Table 15.5); one that faulted in the drain ends, its image written
for diagnosis and its slot free again (R93, R369). -/
def State.suspendSaved (s : State) (held : Bool) (x : Nat × Nat) : State :=
  match s.job? x.1 with
  | none => s
  | some j =>
    if j.state != .resident || !s.saved j then s
    else if j.fault.isSome then s.endJob j.id 0x0A (j.fault.getD 0)
    else
      let s := s.updateJob j.id fun y => { y with
        state := if held then .held else .suspended, slot := x.2, preempts := y.preempts + 1, quantumOver := false }
      (s.count Reg.SEQ_PREEMPTCNT.count 1).raise Reg.SEQ_SCHEDEVT.preempt Reg.SEQ_SCHEDEVTMASK.mask

/-- SWITCH_DRAIN_COMPLETE (R91): every outgoing core of the C-die has drained. -/
def execSwitchDrainComplete (job cdie : Nat) (s : State) : Host.Outcome State Fault Refusal :=
  .next (match s.switchOf job with
    | none => s
    | some w =>
      let rests := w.outgoing.all fun x => match s.job? x.1 with
        | some j => (j.onDie cdie).all fun c => (s.core c).sq.job != j.id || (s.core c).atRest
        | none => true
      if w.at cdie = .drain ∧ rests then s.setPhase w cdie .save else s)

/-- SWITCH_SAVE_COMPLETE (R357, R362, R367): the outgoing state of the C-die is in the cloak, and the incoming scratch is restored or zeroed. -/
def execSwitchSaveComplete (job cdie : Nat) (s : State) : Host.Outcome State Fault Refusal :=
  .next (match s.switchOf job with
    | none => s
    | some w =>
      if w.at cdie ≠ .save then s
      else
        let outJobs := w.outgoing.filterMap fun x => s.job? x.1
        let outCores := (outJobs.filter fun j => j.fault.isNone).flatMap fun j => j.onDie cdie
        let inJob := w.incoming.bind s.job?
        let cs := (inJob.map fun j => j.onDie cdie).getD []
        let s := s.setPhase w cdie (if cs.isEmpty then .done else .ready)
        let s := w.outgoing.foldl (fun s x => s.saveJob cdie x) s
        let s := w.outgoing.foldl (fun s x => s.suspendSaved w.held x) s
        let s := outCores.foldl State.idleCore s
        let s : State := match inJob with
          | none => s
          | some j =>
            let s := if j.clusterSram then (clustersOf cs).foldl (fun (s : State) k => s.readySram j.id k) s else s
            cs.foldl (fun (s : State) c => s.readyCore j.id c) s
        s.settle)

/-- SWITCH_READY_COMPLETE (R73, R92, R364): the incoming cores of the C-die begin; a job that has faulted meanwhile starts none. -/
def execSwitchReadyComplete (job cdie : Nat) (s : State) : Host.Outcome State Fault Refusal :=
  .next (match s.switchOf job with
    | none => s
    | some w =>
      match w.incoming.bind s.job? with
      | none => s
      | some j =>
        if w.at cdie ≠ .ready then s
        else
          let s := s.setPhase w cdie .done
          ((j.onDie cdie).foldl (fun s c => if (s.job? j.id).any fun x => x.fault.isNone then s.startCore j c else s) s).settle)

/-! ### The end of a part (R74) -/

/-- A core of a job has ended its part. -/
def State.partOver (s : State) (j c : Nat) : Bool :=
  if (s.core c).sq.job = j then (s.core c).partDone
  else match s.imageOf j c with
    | some (_, im) => im.core.partDone
    | none => false

/-- CORE_PART_END (R74): every operation of a core that issued END has completed; the last core ends the job. -/
def execCorePartEnd (core : Nat) (s : State) : Host.Outcome State Fault Refusal :=
  .next (
    let k := s.core core
    if !k.ended || k.partDone || !k.empty then s
    else
      let j := k.sq.job
      let s := s.setCore core { k with partDone := true }
      match s.job? j with
      | none => s
      | some x => if x.fault.isNone && x.cores.all (s.partOver j) then (s.endJob j 0 j).settle else s)

/-! ### LAUNCH (R70 to R72) -/

/-- The cores a software group reaches at any depth, or none where it reaches a member of another kind (R71). -/
def State.groupCores (s : State) : Nat → Nat → Option (List Nat)
  | 0, _ => some []
  | n + 1, g =>
    let slots := ((s.groups.find? fun x => x.1 == g).map (·.2.slots)).getD []
    slots.foldl (fun (acc : Option (List Nat)) m =>
      match acc with
      | none => none
      | some l =>
        if 64 ≤ m ∧ m < 320 then some (l ++ [m - 64])
        else if 448 ≤ m ∧ m < 512 then (s.groupCores n (m - 448)).map (l ++ ·)
        else none) (some [])

/-- A unit is usable (R61). -/
def State.usable (s : State) (slot : Nat) : Bool :=
  decide (s.fld Reg.UNIT_STATE.health slot ≤ 1) && s.run slot != Run.off && s.run slot != Run.apron

/-- The job's cores, in ascending number (R72); none where the group is not allowed. -/
def State.launchCores (s : State) (group : Nat) : Option (List Nat) :=
  if group < 448 ∨ 512 ≤ group then none
  else match s.groupCores 64 (group - 448) with
    | none => none
    | some l =>
      let cs := (List.range 256).filter fun c => l.contains c && s.usable (slotCore c)
      if cs.isEmpty then none else some cs

/-- The windows of a launch block (Table 4.4). -/
def State.launchWindows (s : State) (b : Nat) : List Window :=
  (List.range 12).map fun i => ⟨s.numT1 (b + 0x40 + 16 * i) 8, s.numT1 (b + 0x48 + 16 * i) 4, s.numT1 (b + 0x4C + 16 * i) 1⟩

/-- A range lies in T1 and in a window with read rights. -/
def readable (ws : List Window) (a n : Nat) : Bool :=
  (match locateRange a n with
    | some (.t1, _) => true
    | _ => false) && ws.any fun w => w.allows a n false

/-- The first case of R71 that a launch block meets, 1 to 8. -/
def State.launchCase (s : State) (b : Nat) : Option Nat :=
  let n (off k : Nat) : Nat := s.numT1 (b + off) k
  let ws := s.launchWindows b
  let init := n 0x10 8
  let hasInit := init != 0
  let i (off k : Nat) : Nat := s.numT1 (init + off) k
  let initOk := hasInit && init % 256 == 0 && readable ws init 256
  let cores := s.launchCores (n 2 2)
  let cases : List (Bool × Nat) := [
    ((span 0x24 0x40).any (fun o => n o 1 != 0) || decide (4096 ≤ n 0x20 2) || decide (2 ≤ n 0x22 2) ||
      (List.range 12).any (fun k => n (0x46 + 16 * k) 2 != 0 || decide (4 ≤ n (0x4C + 16 * k) 1) || n (0x4D + 16 * k) 3 != 0) ||
      (initOk && ((List.range 16).any (fun k => i (8 * k + 6) 2 != 0) || i 0xC1 3 != 0 || i 0xF4 12 != 0)), 1),
    (n 0 2 == 0xFFFF || (s.job? (n 0 2)).isSome, 2),
    (cores.isNone, 3),
    (decide (n 4 2 < 1) || decide (4096 < n 4 2) || decide (n 4 2 ≤ n 6 2), 4),
    (n 8 8 % 64 != 0 || init % 256 != 0 || n 0x18 4 % 256 != 0 || ws.any (fun w => w.base % 4096 != 0), 5),
    (!readable ws (n 8 8) (16 * n 4 2) || (hasInit && !readable ws init 256), 6),
    ((List.range 8).any (fun k => decide (7 ≤ bits (n 0x1C 4) (4 * k + 3) (4 * k))) ||
      (initOk && (List.range 24).any fun k => decide (4095 < i (0xC4 + 2 * k) 2)), 7),
    (bit (n 0x22 2) 0 && (match cores with
      | some cs => (clustersOf cs).any fun k => (List.range 16).any fun j => s.usable (slotCore (16 * k + j)) && !cs.contains (16 * k + j)
      | none => false), 8)]
  (cases.find? fun x => x.1).map (·.2)

/-- What the job table says of a job at its launch (R353): the four bytes read, priority, weight and kind. -/
def State.readEntry (s : State) (j : Nat) : Nat × Nat × Nat × Nat :=
  if !s.flag Reg.SEQ_JOBTAB.en then (0, 0, 1, 0)
  else
    let v := s.numT1 (s.jobEntry j) 4
    let prio := bits v 15 8
    let weight := bits v 23 16
    if bit v 0 ∧ prio ≤ 3 ∧ 1 ≤ weight ∧ bits v 31 24 ≤ 2 then (v, prio, weight, bits v 31 24) else (v, 0, 1, 0)

/-- The job a launch block describes. -/
def State.newJob (s : State) (b : Nat) (t : Taken) : Job :=
  let n (off k : Nat) : Nat := s.numT1 (b + off) k
  let got := s.readEntry (n 0 2)
  let head := got.1
  let prio := got.2.1
  let weight := got.2.2.1
  let kind := got.2.2.2
  let old (off : Nat) : Nat := if s.flag Reg.SEQ_JOBTAB.en then s.numT1 (s.jobEntry (n 0 2) + off) 8 else 0
  let got := s.leastCharge prio
  let vn := got.1
  let vd := got.2
  { id := n 0 2, state := .waiting, cores := (s.launchCores (n 2 2)).getD [], length := n 4 2, entry := n 6 2, program := n 8 8,
    init := n 0x10 8, ldb := n 0x18 4, bind := n 0x1C 4, tile := n 0x20 2, clusterSram := bit (n 0x22 2) 0,
    windows := (s.launchWindows b).filter (fun w => w.pages != 0), taken := t, head := head, prio := prio, weight := weight, kind := kind,
    vNum := vn, vDen := vd, steps := 0, dpaKs := old 8, vrwKs := old 0x10, moverKs := old 0x18, coreNs := 1000 * old 0x20,
    cloakNs := 1000 * old 0x30, preempts := old 0x28, slot := 0xFF, since := s.uptime, placedAt := s.uptime, quantumOver := false,
    arrived := [], barrier := 0, tallies := [], fault := none }

/-- Opcodes that Table 13.3 assigns. -/
def assignedCmd (op : Nat) : Bool := decide (1 ≤ op ∧ op ≤ 3) || decide (0x40 ≤ op ∧ op ≤ 0x44)

/-- The first illegal byte of a LAUNCH entry. -/
def launchIllegal (cmd : Command) : Option Nat :=
  if cmd.op ≠ 1 then some 0
  else match firstNonzero cmd.raw [1] with
    | some o => some o
    | none =>
      if cmd.seq ≠ 0 then some 2
      else if cmd.addr % 256 ≠ 0 ∨ !(match locateRange cmd.addr 256 with
        | some (.t1, _) => true
        | _ => false) then some 8
      else firstNonzero cmd.raw (0x11 :: span 0x20 0x40)

/-- A slice reads a launch block, and the initial state it names where that can be read. -/
def State.readLaunch (s : State) (b : Nat) : State :=
  let init := s.numT1 (b + 0x10) 8
  let s := s.touchT1 b 256
  if init ≠ 0 ∧ init % 256 = 0 ∧ readable (s.launchWindows b) init 256 then s.touchT1 init 256 else s

/-- LAUNCH (R71, R72, R305, R306): the slice checks the launch block; an accepted job waits for its cores, its tile counter cleared. An
opcode that Table 13.3 does not assign also comes here, and completes as illegal. -/
def execLaunch (queue : Nat) (host : List Byte) (s : State) : Host.Outcome State Fault Refusal :=
  .next (s.takeCmd queue host (fun op => op == 1 || !assignedCmd op) fun s t cmd =>
    match launchIllegal cmd with
    | some o => s.complete t 1 o
    | none =>
      let s := s.readLaunch cmd.addr
      match s.launchCase cmd.addr with
      | some k => s.complete t 9 k
      | none =>
        let j := s.newJob cmd.addr t
        let s := s.setFld Reg.SEQ_TILECNT.value 0 j.tile
        let s := { s with jobs := s.jobs ++ [j], torn := Table.del s.torn j.id }
        (s.putEntry j 1).schedule .plain)

/-! ### Job control (R368, R369) and the quantum (R360) -/

/-- A write of SEQ_JOBCTL (R368); op 0 names no action (Table 15.6), but is discarded with result 4 like any write made while busy is 1. -/
def State.jobControl (s : State) (op job : Nat) : State :=
  s.hostWrite 0x480010 4 fun s =>
    if s.flag Reg.SEQ_JOBCTLSTAT.busy then
      (s.setFld Reg.SEQ_JOBCTLSTAT.result 4).raise Reg.SEQ_SCHEDEVT.ctl_reject Reg.SEQ_SCHEDEVTMASK.mask
    else if op = 0 then s
    else (s.setFld Reg.SEQ_JOBCTLSTAT.busy 1).schedule (.control op job)

/-- JOB_SUSPEND: op 1. -/
def execJobSuspend (job : Nat) (s : State) : Host.Outcome State Fault Refusal := .next (s.jobControl 1 job)
/-- JOB_RESUME: op 2. -/
def execJobResume (job : Nat) (s : State) : Host.Outcome State Fault Refusal := .next (s.jobControl 2 job)
/-- JOB_ABORT: op 3. -/
def execJobAbort (job : Nat) (s : State) : Host.Outcome State Fault Refusal := .next (s.jobControl 3 job)

/-- QUANTUM_EXPIRE (R358, R360): a scheduling event. A new quantum begins at once when no job of equal priority waits for the cores. -/
def execQuantumExpire (job : Nat) (s : State) : Host.Outcome State Fault Refusal :=
  .next (match s.job? job with
    | none => s
    | some j =>
      if j.state != .resident || s.inSwitch job || j.fault.isSome then s
      else
        let waits := s.jobs.any fun v => (v.state == .waiting || v.state == .suspended) && v.fault.isNone && v.prio == j.prio &&
          v.cores.any j.cores.contains
        (s.modJob job fun j => if waits then { j with quantumOver := true } else { j with placedAt := s.uptime }).schedule .plain)

/-- JOB_ENTRY_UPDATE (R354): the entry of a resident job. -/
def execJobEntryUpdate (job : Nat) (s : State) : Host.Outcome State Fault Refusal :=
  .next (match s.job? job with
    | some j => if j.state = .resident then s.updateJob job id else s
    | none => s)

end Sys2Proof.Machine
end

