-- ==== Sys2Proof/Machine/Gsc.lean ====
section
/-! DEFINITION. The global step counter: the timing exchanges, the lock states and the reads that latch it (R387 to R392, R423). -/

namespace Sys2Proof.Machine

/-- Change the record of the timing exchanges. -/
def State.modSync (s : State) (f : GscSync → GscSync) : State := { s with gscSync := f s.gscSync }

/-- This module is grandmaster. -/
def State.isMaster (s : State) : Bool := s.flag Reg.FAB_GSCCFG.gm

/-- GM_SYNC_SEND (R423): the grandmaster sends one Sync on each usable plane to each other endpoint of its domain. -/
def execGmSyncSend (s : State) : Host.Outcome State Fault Refusal :=
  .next (
    if !s.isMaster then s
    else
      let n := s.gscSync.number
      let me := s.fld Reg.FAB_EPID.ep
      let dsts := ((List.range (s.fld Reg.FAB_DOMAIN.count)).map (· + s.fld Reg.FAB_DOMAIN.first)).filter fun d => d != me
      let s := s.modSync fun g => { g with number := (n + 1) % 65536 }
      s.planes.foldl (fun s p =>
        dsts.foldl (fun s d => s.sendControl d false 0x27 (lineOf [(0, 2, n), (2, 1, p), (4, 4, me), (8, 8, s.gsc)]) 0xFFFF (some p)) s) s)

/-- A timing packet arrives: a duplicate is discarded (R422). It needs no valid endpoint identifier (R377). -/
def State.timingTake (s : State) (hd : PacketHead) (k : State → State) : State :=
  match (Table.get Seen.empty s.seen (seenKey hd)).take hd.seq with
  | none => s
  | some v => k { s with seen := Table.set Seen.empty s.seen (seenKey hd) v }

/-- More than one grandmaster answers (R392). -/
def State.gmConflict (s : State) : State := s.raise Reg.FAB_EVT.gm_conflict Reg.FAB_EVTMASK.mask

/-- A grandmaster has been heard: a module follows the lowest endpoint of those heard within the last millisecond (R392). -/
def State.hearMaster (s : State) (gm : Nat) : State :=
  let ms := (gm, s.uptime) :: (s.gscSync.masters.filter fun x => x.1 != gm && decide (s.uptime ≤ x.2 + 1000000))
  let s := s.modSync fun g => { g with masters := ms }
  let low := (ms.map (·.1)).foldl min gm
  let s := s.setFld Reg.FAB_GSCGM.ep low
  if 1 < ms.length then s.gmConflict else s

/-- SYNC_RECEIVE (R388, R423): the module notes the Sync and answers on its plane. A grandmaster that hears another keeps serving (R392). -/
def execSyncReceive (hd : PacketHead) (exchange plane gm t1 : Nat) (corr : Int) (s : State) : Host.Outcome State Fault Refusal :=
  .next (s.timingTake hd fun s =>
    if s.isMaster then (if gm = s.fld Reg.FAB_EPID.ep then s else s.gmConflict)
    else
      let s := s.hearMaster gm
      let s := if s.fld Reg.FAB_GSCGM.ep = gm then
          s.modSync fun g => { g with exchanges := Table.put g.exchanges plane [exchange, gm, t1, s.gsc, s.gsc, corr] }
        else s
      s.sendControl hd.source false 0x28 (lineOf [(0, 2, exchange), (2, 1, plane), (8, 8, s.gsc)]) 0xFFFF (some plane))

/-- DELAY_REQUEST_RECEIVE (R423): the grandmaster answers with the time of arrival and the correction as received. -/
def execDelayRequestReceive (hd : PacketHead) (exchange plane _t3 : Nat) (corr : Int) (s : State) : Host.Outcome State Fault Refusal :=
  .next (s.timingTake hd fun s =>
    if s.isMaster then
      s.sendControl hd.source false 0x29 (lineOf [(0, 2, exchange), (2, 1, plane), (4, 4, s.fld Reg.FAB_EPID.ep), (8, 8, s.gsc),
        (0x10, 8, unsigned 64 corr)]) 0xFFFF (some plane)
    else s)

/-- The offset of an exchange (R388), rounded in ns (R154); corrections are in units of 2^−16 ns. -/
def exchangeOffset (t1 t2 t3 t4 cs cr : Int) : Int := divEven (65536 * ((t2 - t1) - (t4 - t3)) - cs + cr) 131072

/-- DELAY_RESPONSE_RECEIVE (R388): the plane gives an offset if the exchange number is that of its Sync. -/
def execDelayResponseReceive (hd : PacketHead) (exchange plane gm t4 : Nat) (corr : Int) (s : State) : Host.Outcome State Fault Refusal :=
  .next (s.timingTake hd fun s =>
    if s.isMaster then (if gm = s.fld Reg.FAB_EPID.ep then s else s.gmConflict)
    else
      let s := s.hearMaster gm
      match Table.get [] s.gscSync.exchanges plane with
      | [n, m, t1, t2, t3, cs] =>
        if n = exchange ∧ m = gm ∧ s.fld Reg.FAB_GSCGM.ep = gm then
          s.modSync fun g => { g with
            exchanges := Table.del g.exchanges plane
            offsets := Table.put g.offsets plane (exchangeOffset t1 t2 t3 t4 cs corr, s.uptime) }
        else s
      | _ => s)

/-! ### The median and the lock (R388, R389, R391) -/

/-- Offsets of the planes that gave one within the last ms. -/
def State.freshOffsets (s : State) : List (Nat × Int) :=
  (s.gscSync.offsets.filter fun x => decide (s.uptime ≤ x.2.2 + 1000000)).map fun x => (x.1, x.2.1)

/-- The median, with the mean of the middle two of an even number rounded toward zero; none of an empty list. -/
def medianOf (xs : List Int) : Option Int :=
  let ys := sortBy (fun a b => decide (a ≤ b)) xs
  let n := ys.length
  if n = 0 then none
  else if n % 2 = 1 then some (ys.getD (n / 2) 0)
  else some (Int.tdiv (ys.getD (n / 2 - 1) 0 + ys.getD (n / 2) 0) 2)

/-- The GSC leaves the locked state (R389, R391, Table 21.1). -/
def State.unlock (s : State) (st : Nat) : State :=
  ((s.setFld Reg.FAB_GSCSTAT.state st).raise Reg.FAB_EVT.gsc_unlock Reg.FAB_EVTMASK.mask).recordFault 0x0506 .module []

/-- Step the GSC back by an offset. -/
def State.stepGsc (s : State) (m : Int) : State := s.setFld Reg.FAB_GSC.value (unsigned 64 ((s.gsc : Int) - m))

/-- Slew by a median (R389): the correction still to be made, and the rate it teaches, in ns per 250 µs and at most 100 ppm. -/
def slewBy (g : GscSync) (m : Int) (streak : Nat) : GscSync :=
  { g with slew := -m, rate := max (-25) (min 25 (-m)), streak := streak }

/-- What a median does (R389): an acquiring module steps or slews, and locks after 16 within ±20 ns; a locked one slews, and returns to
acquiring beyond ±1,000 ns. -/
def State.takeMedian (s : State) (m : Int) : State :=
  let st := s.fld Reg.FAB_GSCSTAT.state
  let streak := if m.natAbs ≤ 20 then s.gscSync.streak + 1 else 0
  if st = 2 then
    let s := s.modSync fun g => slewBy g m streak
    if 1000 < m.natAbs then s.unlock 1 else s
  else
    let s := s.setFld Reg.FAB_GSCSTAT.state 1
    let s := if decide (1000 < m.natAbs) && s.jobs.isEmpty then (s.stepGsc m).modSync fun g => { g with slew := 0, streak := 0 }
      else s.modSync fun g => slewBy g m streak
    if 16 ≤ s.gscSync.streak then s.setFld Reg.FAB_GSCSTAT.state 2 else s

/-- GSC_MEDIAN_UPDATE (R388, R389): the median of the fresh offsets, where there is one. A grandmaster counts freely (R392). -/
def execGscMedianUpdate (s : State) : Host.Outcome State Fault Refusal :=
  .next (
    if s.isMaster then s
    else
      let os := s.freshOffsets
      let s := s.setFld Reg.FAB_GSCSTAT.planes ((os.map fun x => 2 ^ x.1).sum)
      match medianOf (os.map (·.2)) with
      | none => s
      | some m =>
        let s := s.setFld Reg.FAB_GSCSTAT.offset (unsigned 32 m)
        (s.modSync fun g => { g with lastMedian := some s.uptime }).takeMedian m)

/-- GSC_HOLDOVER_ENTRY (R391): a locked module has had no median for 2 ms. -/
def execGscHoldoverEntry (s : State) : Host.Outcome State Fault Refusal :=
  .next (if s.fld Reg.FAB_GSCSTAT.state = 2 then (s.modSync fun g => { g with holdoverAt := s.uptime, streak := 0 }).unlock 3 else s)

/-- GSC_FREERUN_ENTRY (R391): holdover has lasted 1 s. -/
def execGscFreerunEntry (s : State) : Host.Outcome State Fault Refusal :=
  .next (if s.fld Reg.FAB_GSCSTAT.state = 3 then s.setFld Reg.FAB_GSCSTAT.state 0 else s)

/-! ### Reads of FAB_GSC (R387) -/

/-- GSC_LOW_READ: a 4-byte read of the low word latches the high word that belongs with it. -/
def execGscLowRead (s : State) : Host.Outcome State Fault Refusal :=
  .next (s.hostRead 0x800300 4 fun s =>
    { s with gscLatch := some (s.gsc / 2 ^ 32) }.emit (.readData (toBytes 4 s.gsc) false))

/-- GSC_HIGH_READ: the latched word, which is released, or the live one. -/
def execGscHighRead (s : State) : Host.Outcome State Fault Refusal :=
  .next (s.hostRead 0x800304 4 fun s =>
    { s with gscLatch := none }.emit (.readData (toBytes 4 (s.gscLatch.getD (s.gsc / 2 ^ 32))) false))

/-! ### Time -/

/-- What the slew adds in a nanosecond to the GSC's advance of 1 (R387, R389, R391): one ns in each 10 µs, that is 100 ppm, until the median is
corrected; in holdover the learned rate goes on, and a grandmaster or a module in free-run corrects nothing (DESIGN CHOICE, log entry 65). -/
def State.slewStep (s : State) : Int × State :=
  let st := s.fld Reg.FAB_GSCSTAT.state
  if s.isMaster ∨ st = 0 then (0, s)
  else
    let s := if st = 3 ∧ s.uptime % 250000 = 0 then s.modSync fun g => { g with slew := g.rate } else s
    let d := if s.uptime % 10000 = 0 then max (-1) (min 1 s.gscSync.slew) else 0
    (d, if d = 0 then s else s.modSync fun g => { g with slew := g.slew - d })

/-- One nanosecond in which no command acts: Brilo's timer counts, and the GSC where the main clocks run (R387, R497). Without standby power
nothing counts. -/
def State.tick (s : State) : State :=
  if s.fld Reg.TOP_STARTSTAT.stage = 0 then s
  else
    let s := { s with uptime := s.uptime + 1 }
    if s.clocks then
      let got := s.slewStep
      got.2.setFld Reg.FAB_GSC.value (unsigned 64 ((s.gsc : Int) + 1 + got.1))
    else s

end Sys2Proof.Machine
end

