-- ==== Sys2Proof/Machine/MemCmds.lean ====
section
/-! DEFINITION. The commands of the memory tiers: BAR4, the lock, the flush, borrowed and lent ranges (chapter 10). -/

namespace Sys2Proof.Machine

/-! ### BAR4 (R208, R218, R219, R518) -/

/-- T1 offset of a BAR4 byte (R218). -/
def State.bar4Off (s : State) (b : Nat) : Nat := s.fld Reg.MEM_BAR4BASE.base * 2 ^ 21 + b

/-- BAR4 does not reach a range: the M-dies are not there (Table 20.4), or it is in the cloak area or lent (R208, R219). -/
def State.bar4Closed (s : State) (off n : Nat) : Bool := !s.blockOpen 7 || s.inCloak off n || s.isLent off n

/-- BAR4_WRITE (R218): discarded while MEM_LOCK.lock is 0, which is latched, and where BAR4 does not reach. TOP_ACCERR.offset is a BAR0 offset,
which this write has not: free. -/
def execBar4Write (offset : Nat) (data : List Byte) (report : BankReport) (s : State) : Host.Outcome State Fault Refusal :=
  .next (
    if !s.hostReach || data.isEmpty then s
    else if !s.flag Reg.MEM_LOCK.lock then let got := s.free; let v := got.1; let s := got.2; s.latchAccess 3 v data.length
    else if s.bar4Closed (s.bar4Off offset) data.length then s
    else (s.bankFound report).t1Put (s.bar4Off offset) data)

/-- A T1 byte whose contents the shutdown test has destroyed (R486), or whose M-die has lost its rail (Table 20.6). -/
def State.scanned (s : State) (off : Nat) : Bool :=
  s.shutdown.any fun d => d.phase == 7 || (decide (5 ≤ d.phase) && decide (16 + (s.stackOf off).1 ≤ d.slice))

/-- What a BAR4 read finds in bytes read at a T1 offset: a byte the shutdown test has destroyed has no value the spec gives, and is free. -/
def State.afterScan (s : State) (off : Nat) (bs : List Byte) : List Byte × State :=
  if !(List.range bs.length).any fun i => s.scanned (off + i) then (bs, s)
  else (bs.zipIdx.map fun x => if s.scanned (off + x.2) then BitVec.ofNat 8 (Config.freeValue (s.freeCount + x.2)) else x.1,
    { s with freeCount := s.freeCount + bs.length })

/-- BAR4_READ (R217, R218): zeros where BAR4 does not reach, poisoned where the data is. -/
def execBar4Read (offset bytes : Nat) (report : BankReport) (s : State) : Host.Outcome State Fault Refusal :=
  .next (
    if !s.hostReach then s
    else if s.bar4Closed (s.bar4Off offset) bytes then s.emit (.readData (List.replicate bytes 0) false)
    else
      let s := s.bankFound report
      let got := s.t1Read (s.bar4Off offset) bytes
      let data := got.1
      let s := got.2
      if s.isPoisoned (s.bar4Off offset) bytes then s.emit (.readData [] true)
      else
        let got := s.afterScan (s.bar4Off offset) data
        let data := got.1
        let s := got.2
        s.emit (.readData data false))

/-! ### The lock and the staging caches (R207, R214, R216) -/

/-- MEM_LOCK_SET (R207). -/
def execMemLockSet (s : State) : Host.Outcome State Fault Refusal :=
  .next (s.hostWrite 0x1000004 4 fun s => (s.setFld Reg.MEM_LOCK.lock 1).setFld Reg.TOP_LOCKSTAT.mem 1)

/-- The dirty lines of every staging cache. -/
def State.dirtyLines (s : State) : List (Nat × Nat) :=
  s.cache.flatMap fun e => (e.2.ways.filter (·.dirty)).map fun w => (e.1, w.line)

/-- A dirty line is written back: its data go to the stack, and it is clean and valid (R214, R215). -/
def State.writeBack (s : State) (x : Nat × Nat) : State :=
  let dirty := (Table.get CacheSet.empty s.cache x.1).ways.any fun w => w.line == x.2 && w.dirty
  let s := if dirty then s.storeLine (x.1 / 2 ^ 14) x.2 else s
  { s with cache := Table.modify CacheSet.empty s.cache x.1 fun c =>
      { c with ways := c.ways.map fun w => if w.line == x.2 then { w with dirty := false } else w } }

/-- The write-back of every line dirty now begins and takes its data: a write that reaches such a line later leaves it dirty again (R215). -/
def State.beginFlush (s : State) : State := s.dirtyLines.foldl State.writeBack { s with flushing := s.dirtyLines }

/-- MEM_FLUSH_START (R216): every line dirty now is written back; discarded while a flush is in progress. -/
def execMemFlushStart (s : State) : Host.Outcome State Fault Refusal :=
  .next (s.hostWrite 0x100000C 4 fun s =>
    if s.flag Reg.MEM_FLUSH.busy then s else s.beginFlush.setFld Reg.MEM_FLUSH.busy 1)

/-- MEM_FLUSH_COMPLETE (R216): every write-back of the flush is complete. Lines dirtied since it began stay dirty. -/
def execMemFlushComplete (s : State) : Host.Outcome State Fault Refusal :=
  .next (
    if !s.flag Reg.MEM_FLUSH.busy then s
    else { s with flushing := [] }.setFld Reg.MEM_FLUSH.busy 0)

/-- STAGING_WRITEBACK (R214): a bank writes back a dirty line in the background. -/
def execStagingWriteback (stack line : Nat) (s : State) : Host.Outcome State Fault Refusal :=
  .next (s.writeBack (setKey stack line, line))

/-! ### Borrowed and lent ranges (R219 to R223) -/

/-- Two ranges meet. -/
def meets (a n b m : Nat) : Bool := decide (a < b + m) && decide (b < a + n)

/-- What both kinds of entry need (R221): state 0, an aligned range, no overlap with an active entry of its table, a lease still to run. An
entry counts as active in every state but 0 (DEDUCED, log entry 109). -/
def State.badEntry (s : State) (state base length leaseEnd : Field) (i : Nat) : Bool :=
  let n := s.fld length i
  s.fld state i != 0 || n == 0 || n % 65536 != 0 || decide (s.fld leaseEnd i ≤ s.gscXdie) ||
    (List.range 16).any fun k =>
      k != i && s.fld state k != 0 && meets (s.fld base i * 65536) n (s.fld base k * 65536) (s.fld length k)

/-- A rejected activation (R221). -/
def State.rejectEntry (s : State) : State := s.raise Reg.MEM_EVT.reject Reg.MEM_EVTMASK.mask

/-- A borrower entry may not be activated (R221): also where the range leaves T2 or its offset in the region is misaligned. -/
def State.badBorrow (s : State) (i : Nat) : Bool :=
  let inT2 := match locateRange (s.fld Reg.MEM_T2MAP.base i * 65536) (s.fld Reg.MEM_T2MAP.length i) with
    | some (.t2, _) => true
    | _ => false
  s.badEntry Reg.MEM_T2MAP.state Reg.MEM_T2MAP.base Reg.MEM_T2MAP.length Reg.MEM_T2MAP.lease_end i || !inT2 ||
    s.fld Reg.MEM_T2MAP.roff i % 65536 != 0

/-- T2MAP_ACTIVATE (R221): the control word carries state 1 and the lender's endpoint; the learned T2 wait starts again. -/
def execT2mapActivate (entry ep : Nat) (s : State) : Host.Outcome State Fault Refusal :=
  .next (if 16 ≤ entry then s
    else s.hostWrite (0x1002024 + 64 * entry) 4 fun s =>
      if s.badBorrow entry then s.rejectEntry
      else
        let s := (s.setFld Reg.MEM_T2MAP.ep ep entry).setFld Reg.MEM_T2MAP.recall_end 0 entry
        let s := s.setFld Reg.MEM_T2MAP.state 1 entry
        { s with avg := Table.set (avgStart 2) s.avg 2 (avgStart 2) })

/-- T2MAP_RELEASE (R222): the entry is free, and the lender is told. -/
def execT2mapRelease (entry : Nat) (s : State) : Host.Outcome State Fault Refusal :=
  .next (if 16 ≤ entry then s
    else s.hostWrite (0x1002024 + 64 * entry) 4 fun s =>
      if s.fld Reg.MEM_T2MAP.state entry = 0 then s
      else
        let s := s.sendEngine 8 (s.fld Reg.MEM_T2MAP.ep entry) 0x1B
          (lineOf [(0, 4, s.fld Reg.MEM_T2MAP.key entry), (8, 8, s.fld Reg.MEM_T2MAP.roff entry), (0x10, 8, s.fld Reg.MEM_T2MAP.length entry)])
        (s.setFld Reg.MEM_T2MAP.state 0 entry).setFld Reg.MEM_T2MAP.recall_end 0 entry)

/-- LEND_ACTIVATE (R221): rejected also where the range leaves T1 or meets the cloak area. -/
def execLendActivate (entry : Nat) (s : State) : Host.Outcome State Fault Refusal :=
  .next (if 16 ≤ entry then s
    else s.hostWrite (0x1003024 + 64 * entry) 4 fun s =>
      if s.badEntry Reg.MEM_LEND.state Reg.MEM_LEND.base Reg.MEM_LEND.length Reg.MEM_LEND.lease_end entry ||
          s.badRegion (s.fld Reg.MEM_LEND.base entry * 65536) (s.fld Reg.MEM_LEND.length entry) then s.rejectEntry
      else s.setFld Reg.MEM_LEND.state 1 entry)

/-- LEND_RECALL (R222): a lent entry is recalled, and the borrower is told by when. -/
def execLendRecall (entry : Nat) (s : State) : Host.Outcome State Fault Refusal :=
  .next (if 16 ≤ entry then s
    else s.hostWrite (0x1003024 + 64 * entry) 4 fun s =>
      if s.fld Reg.MEM_LEND.state entry ≠ 1 then s
      else
        let s := s.setFld Reg.MEM_LEND.state 2 entry
        s.sendEngine 8 (s.fld Reg.MEM_LEND.ep entry) 0x1A
          (lineOf [(0, 1, entry), (0x10, 8, s.fld Reg.MEM_LEND.length entry),
            (0x18, 8, s.gscXdie + s.fld Reg.MEM_LEND.grace_ms entry * 1000000)]))

/-- T2_RECALL_RECEIVE (R222): the active entries borrowed from the sender in the recalled range are recalling. -/
def execT2RecallReceive (hd : PacketHead) (roff length recallEnd : Nat) (s : State) : Host.Outcome State Fault Refusal :=
  .next (s.engineTake hd (fun _ => true) fun s =>
    let hit := (List.range 16).filter fun i =>
      s.fld Reg.MEM_T2MAP.state i == 1 && s.fld Reg.MEM_T2MAP.ep i == hd.source &&
        meets (s.fld Reg.MEM_T2MAP.roff i) (s.fld Reg.MEM_T2MAP.length i) roff length
    let s := hit.foldl (fun s i => (s.setFld Reg.MEM_T2MAP.state 2 i).setFld Reg.MEM_T2MAP.recall_end recallEnd i) s
    if hit.isEmpty then s else s.raise Reg.MEM_EVT.t2_recall Reg.MEM_EVTMASK.mask)

/-- T2_RELEASE_RECEIVE (R222): the lender begins zeroing the range of that key lent to the sender. -/
def execT2ReleaseReceive (hd : PacketHead) (key : Nat) (s : State) : Host.Outcome State Fault Refusal :=
  .next (s.engineTake hd (fun _ => true) fun s =>
    ((List.range 16).filter fun i => s.lendOpen i && s.fld Reg.MEM_LEND.key i == key && s.fld Reg.MEM_LEND.ep i == hd.source).foldl
      (fun s i => s.setFld Reg.MEM_LEND.state 3 i) s)

/-- LEND_DEADLINE_EXPIRE (R222): recall_end or lease_end has come. -/
def execLendDeadlineExpire (entry : Nat) (s : State) : Host.Outcome State Fault Refusal :=
  .next (if s.lendOpen entry then s.setFld Reg.MEM_LEND.state 3 entry else s)

/-- LEND_ZEROING_COMPLETE (R222, R223): the range holds zeros, written through the staging caches, and the entry is free. -/
def execLendZeroingComplete (entry : Nat) (s : State) : Host.Outcome State Fault Refusal :=
  .next (
    if s.fld Reg.MEM_LEND.state entry ≠ 3 then s
    else
      let off := t1Off (s.fld Reg.MEM_LEND.base entry * 65536)
      let n := s.fld Reg.MEM_LEND.length entry
      (s.t1Zero off n).setFld Reg.MEM_LEND.state 0 entry)

/-- T2_BORROWER_EXPIRE (R222): a borrower entry that was not released in time fails. -/
def execT2BorrowerExpire (entry : Nat) (s : State) : Host.Outcome State Fault Refusal :=
  .next (
    if s.fld Reg.MEM_T2MAP.state entry = 1 ∨ s.fld Reg.MEM_T2MAP.state entry = 2 then s.failT2 entry else s)

end Sys2Proof.Machine
end

