-- ==== Sys2Proof/Machine/Units.lean ====
section
/-! DEFINITION. The units: members, UNIT_CTRL and its serial order, UNIT_EVT and software groups (chapter 03). -/

namespace Sys2Proof.Machine

/-! ### The units and their members (R48, R49, R51) -/

/-- A slot that holds a unit (Table 3.1). -/
def slotHolds (slot : Nat) : Bool :=
  decide (slot < 40) || (decide (64 ≤ slot) && decide (slot < 320)) || (decide (448 ≤ slot) && decide (slot < 512))

/-- The definition of a software group. -/
def State.group (s : State) (g : Nat) : GroupDef := Table.get ⟨[], []⟩ s.groups g

/-- The members of a unit: its CHILDREN or GROUP_DEF entry (Table 3.11). -/
def State.members (s : State) (slot : Nat) : List Nat :=
  if slot = 0 then span 1 5 ++ span 21 36 ++ ((List.range 64).filter fun g => !(s.group g).slots.isEmpty).map slotGroup
  else if slot < 5 then span (4 * slot + 1) (4 * slot + 5) ++ [slotSlice (slot - 1)]
  else if slot < 21 then span (slotCore (16 * (slot - 5))) (slotCore (16 * (slot - 5) + 16))
  else if slot = slotSe then span 36 40
  else if 448 ≤ slot then (s.group (slot - 448)).slots
  else []

/-- The hardware parent of a unit (R49); none for the module. -/
def parentOf (slot : Nat) : Option Nat :=
  if slot = 0 then none
  else if 5 ≤ slot ∧ slot < 21 then some (slotCdie ((slot - 5) / 4))
  else if 36 ≤ slot ∧ slot < 40 then some (slotCdie (slot - 36))
  else if 64 ≤ slot ∧ slot < 320 then some (slotCluster ((slot - 64) / 16))
  else some 0

/-- Levels of membership: no chain of distinct groups and hardware units is longer. -/
def depth : Nat := 70

/-- A unit's members at any depth, as far as `n` levels, and after them the unit itself (R53); a member that `skip` names is passed over
with all below it. -/
def State.under (s : State) (skip : Nat → Bool) : Nat → Nat → List Nat
  | 0, slot => [slot]
  | n + 1, slot => (((s.members slot).filter fun m => !skip m).flatMap (s.under skip n)).eraseDups ++ [slot]

/-- A unit and everything below it, each once. -/
def State.tree (s : State) (slot : Nat) : List Nat := (s.under (fun _ => false) depth slot).eraseDups

/-- A unit without members. -/
def State.leaf (s : State) (slot : Nat) : Bool := (s.members slot).isEmpty && decide (slot < 448)

/-! ### What a unit with members reports (R51, R55, Table 3.8) -/

/-- Health from the health of the parts (R51). -/
def joinHealth (hs : List Nat) : Nat :=
  if hs.all (· == 3) then (if hs.isEmpty then 0 else 3)
  else if hs.any fun h => h == 3 || h == 2 then 2
  else if hs.any (· == 1) then 1
  else 0

/-- The value all of a list share, or `d`. -/
def common (d : Nat) (xs : List Nat) : Option Nat :=
  match xs with
  | [] => none
  | x :: r => some (if r.all (· == x) then x else d)

/-- UNIT_STATE.health as read (R50, R51, R58). -/
def State.health (s : State) : Nat → Nat → Nat
  | 0, slot => s.fld Reg.UNIT_STATE.health slot
  | n + 1, slot =>
    if (s.members slot).isEmpty || s.retired slot then s.fld Reg.UNIT_STATE.health slot
    else joinHealth ((if 448 ≤ slot ∨ slot = slotSe then [] else [s.fld Reg.UNIT_STATE.health slot]) ++ (s.members slot).map (s.health n))

/-- A unit that Apron mode holds off (R62): a C-die, cluster, core, M-die or SE slice. -/
def computeUnit (slot : Nat) : Bool := slot != 0 && slot != slotXdieA && slot != slotXdieB && slot < 320

/-- UNIT_STATE.run as read (R51, R58): 0 for a group with no members, and in Apron mode 6 for a C-die or cluster that is not retired
(R62). While MRESET_N is held low every unit reads 5 (R470). -/
def State.runRead (s : State) : Nat → Nat → Nat
  | 0, slot => if s.mreset then Run.reset else s.run slot
  | n + 1, slot =>
    if s.mreset then Run.reset
    else if s.apron && computeUnit slot && slot != slotSe && s.health n slot != 3 then Run.apron
    else match common 7 ((s.members slot).map (s.runRead n)) with
    | some r => r
    | none => if 448 ≤ slot then 0 else s.run slot

/-- UNIT_STATE.stale as read (R51). -/
def State.stale (s : State) (slot : Nat) : Bool := (s.tree slot).any fun u => s.flag Reg.UNIT_STATE.stale u

/-- A UNIT_EVT bit as read (R55). -/
def State.unitEvt (s : State) (f : Field) (slot : Nat) : Bool := (s.tree slot).any fun u => s.flag f u

/-- UNIT_JOB as read (Table 3.8). -/
def State.unitJob (s : State) (slot : Nat) : Nat :=
  (common 0xFFFF (((s.tree slot).filter s.leaf).map fun u => s.fld Reg.UNIT_JOB.job u)).getD 0xFFFF

/-- UNIT_BUSY as read: microseconds in run state 2 of all leaf units under the unit (Table 3.8). -/
def State.unitBusy (s : State) (slot : Nat) : Nat := ((((s.tree slot).filter s.leaf).map s.busyNow).sum / 1000) % 2 ^ 64

/-! ### UNIT_CTRL (R53, R54, R90, R364) -/

/-- What a UNIT_CTRL write reaches, in the order in which it takes effect: no member that is retired, or whose members all are (R51, R53). -/
def State.reached (s : State) (slot : Nat) : List Nat := (s.under (fun m => s.health depth m == 3) depth slot).eraseDups

/-- Set UNIT_EVT.reject. -/
def State.rejectUnit (s : State) (slot : Nat) : State := s.raiseUnit Reg.UNIT_EVT.reject Reg.UNIT_EVTMASK.reject slot

/-- The core of a slot, if it is one. -/
def coreOf (slot : Nat) : Option Nat := if 64 ≤ slot ∧ slot < 320 then some (slot - 64) else none

/-- The job whose state a core holds, while it is active. -/
def State.heldJob (s : State) (c : Nat) : Option Job := s.job? (s.core c).sq.job

/-- A UNIT_CTRL write is rejected at a unit (R54). -/
def State.ctrlRejected (s : State) (w : UnitWrite) (slot : Nat) : Bool :=
  (s.apron && computeUnit slot) ||
    (w.reset && (s.members slot).isEmpty &&
      ((s.runRead depth slot != Run.idle && s.runRead depth slot != Run.quiesced) ||
        match coreOf slot with
        | some c => (s.heldJob c).any fun j => j.fault.isNone
        | none => false))

/-- A quiesce reaches a core (R90, R364): it freezes in place; a core of a faulted job is left as it is. -/
def State.quiesceCore (s : State) (c : Nat) : State :=
  if (s.heldJob c).any fun j => j.fault.isSome then s
  else
    let s := s.modCore c fun k => { k with quiesced := true }
    if s.run (slotCore c) = Run.idle then s.setRun (slotCore c) Run.quiesced
    else if s.run (slotCore c) = Run.running then (s.freeze c).rest c
    else s

/-- A core runs again (R364), unless a switch or a fault keeps it frozen. -/
def State.releaseCore (s : State) (c : Nat) : State :=
  if !(s.core c).quiesced then s
  else
    let s := s.modCore c fun k => { k with quiesced := false }
    match s.heldJob c with
    | none => if s.run (slotCore c) = Run.quiesced then s.setRun (slotCore c) Run.idle else s
    | some j =>
      if j.fault.isSome || s.switches.any fun w => w.outgoing.any fun x => x.1 == j.id then s
      else ((s.modCore c fun k => { k with frozen := false }).setRun (slotCore c) Run.running).runMovers c |>.applyTally c

/-- The XE on the path of a core: that of X-die A for C-dies 0 and 1, of X-die B for C-dies 2 and 3 (R17, Table 5.2). -/
def xeSlot (c : Nat) : Nat := if c / 128 = 0 then slotXdieA else slotXdieB

/-- The engine in a unit outside the cores works on an operation of a core: an SE slice on those of its C-die, an X-die on those of its XE
(Table 5.2). -/
def unitRuns (slot c : Nat) (o : EngineOp) : Bool :=
  if o.op < 0x90 then slot == xeSlot c else slot == slotSlice (c / 64)

/-- Clear the instruction queue of the engine in a unit outside the cores (R54). -/
def State.clearEngine (s : State) (slot : Nat) : State :=
  (List.range 256).foldl (fun s c =>
    if (s.core c).engine.any (unitRuns slot c) then
      s.modCore c fun k => { k with engine := k.engine.filter fun o => !unitRuns slot c o }
    else s) s

/-- A UNIT_CTRL write takes effect at one unit. A write that carries unit_reset takes the reset and no quiesce: their joint effect is not
specified (DESIGN CHOICE, log entry 104). -/
def State.ctrlUnit (s : State) (w : UnitWrite) (slot : Nat) : State :=
  if s.ctrlRejected w slot then s.rejectUnit slot
  else
    let s := s.setFlag Reg.UNIT_CTRL.enable w.enable slot
    if !s.leaf slot then s
    else match coreOf slot with
      | some c => if w.reset then s.clearCore c Run.idle else if w.quiesce then s.quiesceCore c else if w.enable then s.releaseCore c else s
      | none =>
        if w.reset then (s.clearEngine slot).setRun slot Run.idle
        else if w.quiesce then (if s.run slot = Run.idle ∨ s.run slot = Run.running then s.setRun slot Run.quiesced else s)
        else if w.enable ∧ s.run slot = Run.quiesced then s.setRun slot Run.idle
        else s

/-- A UNIT_CTRL write reaches the head of the serial order and takes effect on every unit it reaches (R53); a change of an enable is a
scheduling event (R358). -/
def State.applyCtrl (s : State) (w : UnitWrite) : State :=
  if s.health depth w.slot = 3 then s.rejectUnit w.slot
  else
    let us := s.reached w.slot
    let s' := us.foldl (fun s u => s.ctrlUnit w u) s
    if us.any fun u => s.flag Reg.UNIT_CTRL.enable u != s'.flag Reg.UNIT_CTRL.enable u then s'.schedule .plain else s'.settle

/-- A UNIT_CTRL write arrives: it takes effect at once if none is before it (R53). -/
def State.writeCtrl (s : State) (w : UnitWrite) : State :=
  if !slotHolds w.slot then s
  else s.hostWrite (0x2000014 + 256 * w.slot) 4 fun s =>
    let s' := { s with ctrlQueue := s.ctrlQueue ++ [w] }
    if s.ctrlQueue.isEmpty then s'.applyCtrl w else s'

/-- UNIT_ENABLE (R53). -/
def execUnitEnable (slot : Nat) (enable : Bool) (s : State) : Host.Outcome State Fault Refusal :=
  .next (s.writeCtrl ⟨slot, enable, false, false⟩)

/-- UNIT_QUIESCE (R90); the write carries enable too. -/
def execUnitQuiesce (slot : Nat) (enable : Bool) (s : State) : Host.Outcome State Fault Refusal :=
  .next (s.writeCtrl ⟨slot, enable, true, false⟩)

/-- UNIT_RESET (R54); the write carries enable too. -/
def execUnitReset (slot : Nat) (enable : Bool) (s : State) : Host.Outcome State Fault Refusal :=
  .next (s.writeCtrl ⟨slot, enable, false, true⟩)

/-- UNIT_CTRL_APPLIED (R53): the oldest write is complete, and the next one takes effect. UNIT_CTRL.busy reads 1 while one is left. -/
def execUnitCtrlApplied (s : State) : Host.Outcome State Fault Refusal :=
  .next (match s.ctrlQueue with
    | [] => s
    | _ :: r =>
      let s := { s with ctrlQueue := r }
      match r with
      | [] => s
      | w :: _ => s.applyCtrl w)

/-- UNIT_EVT_CLEAR (R55): the bits go in the unit and in every member. -/
def execUnitEvtClear (slot mask : Nat) (s : State) : Host.Outcome State Fault Refusal :=
  .next (if !slotHolds slot then s
    else s.hostWrite (0x2000018 + 256 * slot) 4 fun s =>
      let fs := [Reg.UNIT_EVT.reject, Reg.UNIT_EVT.run_change, Reg.UNIT_EVT.fault, Reg.UNIT_EVT.sat].filter fun f => bit mask f.low
      (s.tree slot).foldl (fun s u => s.clearFlds fs u) s)

/-! ### Software groups (R58, R541) -/

/-- A group's UNIT_CTRL.enable or busy is 1: its definition stands. -/
def State.groupFixed (s : State) (g : Nat) : Bool := s.flag Reg.UNIT_CTRL.enable (slotGroup g) || !s.ctrlQueue.isEmpty

/-- The slots a new definition would hold: a word written since the last definition, else the one in force, else 0xFFFF. -/
def State.newSlots (s : State) (g count : Nat) : List Nat :=
  let d := s.group g
  (List.range count).map fun i => match d.staged.find? fun x => x.1 == i with
    | some x => x.2
    | none => d.slots.getD i 0xFFFF

/-- A definition is rejected (R58). -/
def State.badGroup (s : State) (g count : Nat) : Bool :=
  s.groupFixed g || decide (500 < count) ||
    (s.newSlots g count).any fun m => m == 0 || !slotHolds m || (s.tree m).contains (slotGroup g)

/-- GROUP_DEFINE (R58, R59): the write of count tests and applies the definition. A rejected one leaves the slot words written before it for
the next write of count (DESIGN CHOICE, log entry 105). -/
def execGroupDefine (group count : Nat) (s : State) : Host.Outcome State Fault Refusal :=
  .next (if 64 ≤ group then s
    else s.hostWrite (0x20008 + 1024 * group) 4 fun s =>
      let count := count % 65536
      if s.badGroup group count then s.rejectUnit (slotGroup group)
      else
        let d : GroupDef := ⟨s.newSlots group count, []⟩
        { s with groups := Table.set ⟨[], []⟩ s.groups group d }.setFld Reg.CAP_GEN.gen (s.fld Reg.CAP_GEN.gen + 1))

/-- A write to a slot word of GROUP_DEF (R58): slots `2i` and `2i + 1`, kept until count is written. -/
def State.stageSlots (s : State) (g i value : Nat) : State :=
  if s.groupFixed g then s.rejectUnit (slotGroup g)
  else
    let d := s.group g
    let put (l : List (Nat × Nat)) (k v : Nat) : List (Nat × Nat) := (k, v) :: l.filter fun x => x.1 != k
    { s with groups := Table.set ⟨[], []⟩ s.groups g { d with staged := put (put d.staged (2 * i) (bits value 15 0)) (2 * i + 1) (bits value 31 16) } }

end Sys2Proof.Machine
end

