-- ==== Sys2Proof/Machine/Start.lean ====
section
/-! DEFINITION. Start, shutdown and self-test (chapter 20): resets, the twelve stages, failed attempts and Apron mode, the orderly shutdown
with its slices, and repair. -/

namespace Sys2Proof.Machine

/-! ### Resets (R470 to R473) -/

/-- The seq that follows the last record committed. -/
def EventLog.resume (l : EventLog) : EventLog :=
  let next := match l.pages.flatten.getLast? with
    | some r => (r.seq + 1) % 2 ^ 32
    | none => 0
  ⟨l.pages, [], 0, next, [], 0⟩

/-- What the persistence area shows in registers: the last failed attempt, the attempt counter, the test budgets, the entries held and the
results of the last test (R480, R491, Tables 20.10 and 20.12). -/
def State.loadPersist (s : State) : State :=
  let p := s.persist
  let s := s.setFld Reg.TOP_STARTSTAT.cause p.failCause
  let s := s.setFld Reg.TOP_STARTSTAT.fail_stage p.failStage
  let s := s.setFld Reg.TOP_STARTSTAT.attempts p.attempts
  let s := (s.setFld Reg.TST_CFG.total_s p.totalS).setFld Reg.TST_CFG.slice_ms p.sliceMs
  let s := (s.setFld Reg.TST_FRSTAT.entries p.entries.length).setFlag Reg.TST_FRSTAT.full (decide (4096 ≤ p.entries.length))
  p.results.foldl (fun s x =>
    ((s.setFld Reg.TST_SLICE.result x.2.1 x.1).setFld Reg.TST_SLICE.faults x.2.2.1 x.1).setFld Reg.TST_SLICE.ms x.2.2.2 x.1) s

/-- POWER_ON_RESET (R14, R425, R470, R471, R526): once an input has reached 50 V the carrier selects it, the standby rail comes up, and everything
but fuses, NOR and NV store starts from its reset value; a persistence copy whose write the loss of power tore is not in force (R453), nor are
the first journal record whose code fails and those after it (R241, log 122). Without an input nothing happens. -/
def execPowerOnReset (inputs : InputVolts) (found : PowerOn) (s : State) : Host.Outcome State Fault Refusal :=
  .next (
    if inputs.main < 50000 ∧ inputs.backup < 50000 then s
    else
      let c := s.copies.afterLoss found.torn
      let rs := s.nvs.records.take (found.badRecord.getD s.nvs.records.length)
      let t : State :=
        { State.reset with
          pending := s.pending, out := s.out, freeCount := s.freeCount, mem := { State.reset.mem with t3 := s.mem.t3 }, perst := s.perst,
          nvs := { s.nvs.recover with levelled := [], records := rs }, log := s.log.resume, persist := c.current, copies := c, counter := s.counter,
          revoked := s.revoked, emergency := s.emergency, fused := s.fused, waitCool := true, strap := found.straps % 4 }
      let t := (t.meterInputs inputs.main inputs.backup).setFld Reg.PWR_SUPSTAT.active (if 50000 ≤ inputs.main then 0 else 1)
      t.setFld Reg.TOP_STARTSTAT.stage 1)

/-- A register field that a module reset keeps (R14, R470): RSt fields; Brilo's registers; what its supervisor and its lease hold; the GSC. -/
def moduleKeeps (k : Nat) : Bool :=
  (decide (8 * 0x200000 ≤ k) && decide (k < 8 * 0x400000)) ||
    [Reg.PWR_SUPSTAT.active, Reg.PWR_SUPSTAT.main_ok, Reg.PWR_SUPSTAT.backup_ok, Reg.PWR_SUPSTAT.inhibit, Reg.PWR_SUPSTAT.hold,
      Reg.PWR_INMEAS.mv, Reg.PWR_INMEAS.power_w, Reg.PWR_LEASE.budget_w, Reg.PWR_LEASE.state, Reg.PWR_LEASE.seq, Reg.PWR_CAP.draw_w,
      Reg.PWR_THERM.state, Reg.PWR_THERM.diode, Reg.PWR_THERM.tj_max, Reg.PWR_DIODE.temp, Reg.FAB_GSC.value,
      Reg.TOP_FAULT.cause, Reg.TOP_FAULT.slot, Reg.TOP_FAULT.cls, Reg.TOP_FAULT.valid, Reg.TOP_FAULT.gsc_lo, Reg.UNIT_FAULT.cause].any
      fun f => f.holds k

/-- A module reset (R470, R472, R480): an attempt in progress no longer counts. -/
def State.moduleReset (s : State) : State :=
  let s := match s.attemptFound with
    | some a => if s.starting && s.attemptEnded.isNone then s.modPersist fun p => { p with attempts := a } else s
    | none => s
  let t : State :=
    { State.reset with
      pending := s.pending, out := s.out, freeCount := s.freeCount, mem := { State.reset.mem with t3 := s.mem.t3 },
      regs := s.regs.filter fun e => moduleKeeps e.1, nvs := s.nvs.recover, log := s.log, uptime := s.uptime, briloUp := s.briloUp,
      receiver := s.receiver, brilo := { s.brilo with busy := false }, persist := s.persist, copies := s.copies, counter := s.counter, revoked := s.revoked,
      fused := s.fused, emergency := s.emergency, mbReq := s.mbReq, mbRsp := s.mbRsp, logData := s.logData, leaseAt := s.leaseAt,
      pcieUp := s.pcieUp, pcieWidth := s.pcieWidth, pcieSpeed := s.pcieSpeed, d3hot := s.d3hot, perst := s.perst, clocks := s.clocks,
      faultPin := s.faultPin, thermtrip := s.thermtrip, trip := s.trip, waitCool := s.trip, strap := s.strap }
  (t.setFlag Reg.NVS_STATUS.inhibit (s.flag Reg.PWR_SUPSTAT.inhibit)).recap.loadPersist

/-- MRESET_ASSERT (R470, R525): a low pulse of 10 µs or more resets the module, one of less than 5 µs does nothing, and one between does
either, wholly. -/
def execMresetAssert (us : Nat) (taken : Bool) (s : State) : Host.Outcome State Fault Refusal :=
  .next (
    if s.fld Reg.TOP_STARTSTAT.stage = 0 || decide (us < 5) || (decide (us < 10) && !taken) then s
    else { s.moduleReset with mreset := true }.setFld Reg.TOP_STARTSTAT.stage 1)

/-- MODULE_RESET_RELEASE (R470): the start begins at stage 2. -/
def execModuleResetRelease (s : State) : Host.Outcome State Fault Refusal :=
  .next (if s.mreset then { s with mreset := false }.setFld Reg.TOP_STARTSTAT.stage 2 else s)

/-- TOP_MODULE_RESET (R470): a write of 1 to TOP_RSTCTL.module. -/
def execTopModuleReset (s : State) : Host.Outcome State Fault Refusal :=
  .next (s.hostWrite 0x110 4 fun s => s.moduleReset.setFld Reg.TOP_STARTSTAT.stage 2)

/-- PERST_ASSERT (R470, R473): the PCI Express link and its configuration space are reset, which is a loss of the link. -/
def execPerstAssert (s : State) : Host.Outcome State Fault Refusal :=
  .next (
    if s.perst then s
    else { s with perst := true, pcieUp := false, pcieWidth := 0, pcieSpeed := 0, d3hot := false }.failT3)

/-- PERST_RELEASE (R476). -/
def execPerstRelease (s : State) : Host.Outcome State Fault Refusal := .next { s with perst := false }

/-! ### Failed attempts (R479 to R482) -/

/-- Stage `n` of a start is in progress; under write inhibit it holds (R474). -/
def State.atStage (s : State) (n : Nat) : Bool :=
  s.fld Reg.TOP_STARTSTAT.stage == n && s.starting && !s.mreset && s.attemptEnded.isNone && !s.inhibited

/-- The next stage begins (R474, Table 20.2). -/
def State.toStage (s : State) (n : Nat) : State := s.setFld Reg.TOP_STARTSTAT.stage n

/-- A stage fails (R480, R482). A full attempt is recorded, asserts FAULT_N and removes the rails, and another follows; an Apron start stays
where it is; a failed stage 1 leaves Brilo in recovery. -/
def State.failStart (s : State) (cause : Nat) : State :=
  let stage := s.fld Reg.TOP_STARTSTAT.stage
  if stage = 1 then s.enterRecovery cause
  else if s.apron then ({ s with faultPin := true, attemptEnded := some false }).recordFault cause .module [stage]
  else
    let s := s.modPersist fun p => { p with failCause := cause, failStage := stage, failed := true }
    let s := (s.setFld Reg.TOP_STARTSTAT.cause cause).setFld Reg.TOP_STARTSTAT.fail_stage stage
    let s := { s with faultPin := true, attemptEnded := some true }.recordFault cause .module [stage]
    s.lasersOff.railsOff

/-- The stage at which a cause of Table 20.5 may fail a start. -/
def causeStage (cause stage : Nat) : Bool :=
  cause == 0x0201 || (cause == 0x0204 && stage == 3) || (cause == 0x0205 && stage == 4) || (cause == 0x0206 && stage == 5) ||
    (cause == 0x0207 && stage == 6) || (cause == 0x0208 && (stage == 7 || stage == 9)) || (cause == 0x0209 && stage == 9) ||
    (cause == 0x020A && stage == 10)

/-- START_STAGE_TIMEOUT (R474, R480): the stage in progress passes its latest time (0x0201), or fails earlier with a cause of Table 20.5. -/
def execStartStageTimeout (cause : Nat) (s : State) : Host.Outcome State Fault Refusal :=
  .next (
    let stage := s.fld Reg.TOP_STARTSTAT.stage
    if s.atStage stage && decide (1 ≤ stage) && causeStage cause stage then s.failStart cause else s)

/-- START_RETRY (R480): 1 s after a failed attempt the next one begins at stage 2. -/
def execStartRetry (s : State) : Host.Outcome State Fault Refusal :=
  .next (if s.attemptEnded = some true then { s with attemptEnded := none }.toStage 2 else s)

/-- CLEAR_ATTEMPTS (R482, Table 20.10). -/
def execClearAttempts (s : State) : Host.Outcome State Fault Refusal :=
  .next (s.hostWrite 0x108 4 fun s => (s.modPersist fun p => { p with attempts := 0 }).setFld Reg.TOP_STARTSTAT.attempts 0)

/-- FORCE_APRON (R479, Table 20.10). -/
def execForceApron (s : State) : Host.Outcome State Fault Refusal :=
  .next (s.hostWrite 0x108 4 fun s => s.modPersist fun p => { p with forceApron := true })

/-! ### Slices and entries (R486 to R488) -/

/-- The slots a slice covers (Table 20.8). -/
def sliceUnits (i : Nat) : List Nat :=
  if i < 16 then slotCluster i :: (List.range 16).map fun k => slotCore (16 * i + k)
  else if i < 28 then [slotMdie (i - 16)]
  else if i < 32 then [slotCdie (i - 28), slotSlice (i - 28)]
  else if i = 32 then [slotXdieB]
  else if i = 33 then [slotXdieA]
  else []

/-- The slice that covers a slot. -/
def sliceOf (slot : Nat) : Nat := ((List.range 34).find? fun i => (sliceUnits i).contains slot).getD 34

/-- Keep one fault (R488): the answer says whether an entry was added. A full table sets the retire-map bit instead. -/
def Persist.keepFault (p : Persist) (e : RepairEntry) : Bool × Persist :=
  if p.entries.any fun x => x.slot == e.slot && x.kind == e.kind && x.addr == e.addr && x.bit == e.bit then (false, p)
  else if p.entries.length < 4096 then
    (true, { p with
      entries := p.entries ++ [e]
      firsts := if p.firsts.any (fun x => x.slot == e.slot) then p.firsts else p.firsts ++ [e] })
  else (false, { p with retireMap := p.retireMap.filter (· != e.slot) ++ [e.slot] })

/-- Keep the faults that the test or quick check of a slice found; the answer counts the entries added. -/
def Persist.keepFaults (p : Persist) (slice source : Nat) (es : List RepairEntry) : Nat × Persist :=
  let us := sliceUnits slice
  let es := es.filter fun e => us.contains e.slot
  let p := { p with
    firsts := p.firsts.filter fun x => !us.contains x.slot
    found := p.found.filter (fun x => !us.contains x) ++ (es.map (·.slot)).eraseDups
    tested := p.tested.filter (· != slice) ++ [slice] }
  es.foldl (fun (n, p) e =>
    let got := p.keepFault { e with source := source }
    let added := got.1
    let p := got.2
    (n + ofFlag added, p)) (0, p)

/-- TST_FRSTAT follows the entry table. -/
def State.showEntries (s : State) : State :=
  (s.setFld Reg.TST_FRSTAT.entries s.persist.entries.length).setFlag Reg.TST_FRSTAT.full (decide (4096 ≤ s.persist.entries.length))

/-! ### Repair (R182 to R184, R200, R201, R489, R490) -/

/-- DPA cell faults of a unit's entries: column and slice (Table 20.9). -/
def dpaCells (es : List RepairEntry) : List (Nat × Nat) :=
  (es.filter fun e => e.kind == 2).map fun e => ((e.addr - 0x1000000) / 16, (e.addr - 0x1000000) % 16)
/-- DPA column faults. -/
def dpaColumns (es : List RepairEntry) : List Nat := (es.filter fun e => e.kind == 3).map fun e => e.addr - 0x1100000
/-- DPA slice faults. -/
def dpaSlices (es : List RepairEntry) : List Nat := (es.filter fun e => e.kind == 4).map fun e => e.addr - 0x1200000

/-- The logical units that are faulty under a candidate: none, or the slice the spare row serves (R182). -/
def dpaFaulty (es : List RepairEntry) (cand : Option Nat) : List Nat :=
  (List.range 128).filter fun n =>
    (dpaColumns es).contains n ||
      (dpaCells es).any fun x => x.1 == n && (if x.2 < 8 then cand != some x.2 else cand.isSome)

/-- The spare columns that are usable under a candidate (R182). -/
def dpaUsable (es : List RepairEntry) (cand : Option Nat) : List Nat :=
  [128, 129, 130, 131].filter fun k =>
    !(dpaColumns es).contains k &&
      (dpaCells es).all fun x => x.1 != k || (if x.2 < 8 then cand == some x.2 else cand.isNone)

/-- A candidate is feasible (R182). -/
def dpaFeasible (es : List RepairEntry) (cand : Option Nat) : Bool :=
  ((dpaSlices es).all fun i => if i < 8 then cand == some i else cand.isNone) &&
    decide ((dpaFaulty es cand).length ≤ (dpaUsable es cand).length)

/-- The repair of a DPA (R182): the candidate with the fewest spare columns, the first of equals, and the spare column of each faulty unit. -/
def dpaRepair (es : List RepairEntry) : Option (Option Nat × List (Nat × Nat)) :=
  let cands := (none :: (List.range 8).map some).filter (dpaFeasible es)
  let best := cands.foldl (fun (b : Option (Option Nat)) c =>
    match b with
    | none => some c
    | some x => if (dpaFaulty es c).length < (dpaFaulty es x).length then some c else some x) none
  best.map fun c => (c, (dpaUsable es c).zip (dpaFaulty es c))

/-- The repair of a VRW (R200): spare lanes and the logical lanes they serve; none where the usable spares do not suffice. -/
def vrwRepair (es : List RepairEntry) : Option (List (Nat × Nat)) :=
  let bad := (es.filter fun e => e.kind == 5).map fun e => e.addr - 0x2000000
  let faulty := (List.range 512).filter bad.contains
  let usable := (List.range 8).filter fun k => !bad.contains (512 + k)
  if faulty.length ≤ usable.length then some (usable.zip faulty) else none

/-- The failing rows of 1 KiB of a unit's SRAM (R489). -/
def sramRows (es : List RepairEntry) : List Nat := ((es.filter fun e => e.kind == 1).map fun e => e.addr / 1024).eraseDups

/-- A bank of 256 KiB has more than 4 failing rows (R489). -/
def sramBeyond (es : List RepairEntry) : Bool :=
  (sramRows es).any fun r => decide (4 < ((sramRows es).filter fun q => q / 256 == r / 256).length)

/-- A unit's faults that cannot be repaired (R489). -/
def unrepairable (slot : Nat) (es : List RepairEntry) : Bool :=
  (es.any fun e => e.kind == 7) || sramBeyond es ||
    ((coreOf slot).isSome && ((dpaRepair es).isNone || (vrwRepair es).isNone))

/-- The entries of a slot. -/
def ofSlot (es : List RepairEntry) (slot : Nat) : List RepairEntry := es.filter fun e => e.slot == slot

/-- The slots with a fault that cannot be repaired, or a retire-map bit (R489). -/
def badSlots (all : List RepairEntry) (retireMap : List Nat) : List Nat :=
  (((all.map (·.slot)).eraseDups.filter fun u => unrepairable u (ofSlot all u)) ++ retireMap).eraseDups

/-- A slot is retired with the bad slots: itself, or a core under a bad cluster (R52, R489). -/
def isRetired (bad : List Nat) (slot : Nat) : Bool :=
  bad.contains slot || match coreOf slot with
    | some c => bad.contains (slotCluster (c / 16))
    | none => false

/-- A unit's REPAIR entry (Table 3.12). -/
def repairOf (slot : Nat) (es own : List RepairEntry) (retired : Bool) : UnitRepair :=
  let got := if retired || (coreOf slot).isNone then (false, 0, 0)
    else match dpaRepair es, vrwRepair es with
      | some (c, xs), some ls => (c.isSome, xs.length, ls.length)
      | _, _ => (false, 0, 0)
  let row := got.1
  let cols := got.2.1
  let lanes := got.2.2
  ⟨if retired then 0 else min 255 (sramRows es).length, lanes, cols, row, min 255 own.length⟩

/-- The health that stage 9 gives a unit of its own (R489, Table 3.4). -/
def healthOf (r : UnitRepair) (es : List RepairEntry) (retired : Bool) : Nat :=
  if retired then 3
  else if r.rows ≠ 0 ∨ r.lanes ≠ 0 ∨ r.cols ≠ 0 ∨ r.spareRow ∨ (es.any fun e => e.kind == 6) then 1 else 0

/-- The fields of spare column `k` of a core's DPA: in use, and the column it stands for (Table 22.11). -/
def spareColumn (k : Nat) : Option (Field × Field) :=
  match k with
  | 0 => some (Reg.SEQ_DPAREP.c0_en, Reg.SEQ_DPAREP.c0_unit)
  | 1 => some (Reg.SEQ_DPAREP.c1_en, Reg.SEQ_DPAREP.c1_unit)
  | 2 => some (Reg.SEQ_DPAREP.c2_en, Reg.SEQ_DPAREP.c2_unit)
  | 3 => some (Reg.SEQ_DPAREP.c3_en, Reg.SEQ_DPAREP.c3_unit)
  | _ => none

/-- Put spare column `x.1` − 128 in the place of column `x.2`. -/
def State.loadColumn (s : State) (c : Nat) (x : Nat × Nat) : State :=
  match spareColumn (x.1 - 128) with
  | some (en, unit) => (s.setFld en 1 c).setFld unit x.2 c
  | none => s

/-- Put spare lane `x.1` in the place of lane `x.2`. -/
def State.loadLane (s : State) (c : Nat) (x : Nat × Nat) : State :=
  (s.setFld Reg.SEQ_VRWREP.en 1 (8 * c + x.1)).setFld Reg.SEQ_VRWREP.lane x.2 (8 * c + x.1)

/-- Load SEQ_DPAREP and SEQ_VRWREP of a core (R184, R201). -/
def State.loadRepair (s : State) (c : Nat) (es : List RepairEntry) (retired : Bool) : State :=
  match if retired then none else dpaRepair es, vrwRepair es with
  | some (cand, xs), some ls =>
    let s := xs.foldl (fun s x => s.loadColumn c x) s
    let s := (s.setFlag Reg.SEQ_DPAREP.row_en cand.isSome c).setFld Reg.SEQ_DPAREP.row_slice (cand.getD 0) c
    ls.foldl (fun s x => s.loadLane c x) s
  | _, _ => s

/-- The units of their own that a start repairs and publishes: dies, clusters, SE slices and cores. -/
def ownUnits : List Nat := span 1 35 ++ span 36 40 ++ span 64 320

/-- Clear every repair map, before the entries are loaded afresh. -/
def State.clearRepair (s : State) : State :=
  { s.resetFlds [Reg.SEQ_DPAREP.c0_en, Reg.SEQ_DPAREP.c0_unit, Reg.SEQ_DPAREP.c1_en, Reg.SEQ_DPAREP.c1_unit, Reg.SEQ_DPAREP.c2_en,
      Reg.SEQ_DPAREP.c2_unit, Reg.SEQ_DPAREP.c3_en, Reg.SEQ_DPAREP.c3_unit, Reg.SEQ_DPAREP.row_en, Reg.SEQ_DPAREP.row_slice,
      Reg.SEQ_VRWREP.en, Reg.SEQ_VRWREP.lane] with repairs := [] }

/-- The health and the repair of one unit. -/
def State.repairUnit (s : State) (all : List RepairEntry) (bad : List Nat) (u : Nat) : State :=
  let es := ofSlot all u
  let gone := isRetired bad u
  if es.isEmpty && !gone then s.setFld Reg.UNIT_STATE.health 0 u
  else
    let r := repairOf u es (ofSlot s.persist.entries u) gone
    let s := s.setFld Reg.UNIT_STATE.health (healthOf r es gone) u
    let s := { s with repairs := Table.set UnitRepair.none s.repairs u r }
    match coreOf u with
    | some c => s.loadRepair c es gone
    | none => s

/-- Stage 9 applies the repair (R489). -/
def State.applyRepair (s : State) (all : List RepairEntry) (bad : List Nat) : State :=
  ownUnits.foldl (fun s u => s.repairUnit all bad u) s.clearRepair

/-- A TEST entry (R490). In Apron mode the result is 3. -/
def State.testOf (s : State) (slot : Nat) : TestEntry :=
  let p := s.persist
  let slices := if slot = 0 then List.range 34 else [sliceOf slot]
  let inside (u : Nat) : Bool := slot == 0 || u == slot
  let result := if s.apron then 3 else if s.retired slot then 2 else if slices.any fun i => !p.tested.contains i then 3
    else if p.found.any inside then 1 else 0
  let first := p.firsts.find? fun e => inside e.slot
  ⟨result, slices.any p.quick.contains, (first.map (·.addr)).getD 0, (first.map (·.bit)).getD 0⟩

/-! ### The stages (R474 to R478, R491) -/

/-- STAGE_BRILO_COMPLETE (R464, R453, R493): Brilo runs an image and has read the persistence area; an emergency record found becomes a
record of the brown-out. -/
def execStageBriloComplete (s : State) : Host.Outcome State Fault Refusal :=
  .next (
    if !s.atStage 1 || !s.briloUp || s.flag Reg.MGT_STATUS.recovery then s
    else
      let s := match s.emergency with
        | some g => { s with emergency := none }.addRecord ⟨0, 1, 3, 0x0704, g, s.uptime / 1000, 0, []⟩
        | none => s
      s.loadPersist.toStage 2)

/-- Some diode reads 90 °C or above (R445, R471). -/
def State.hot (s : State) : Bool := (List.range 72).any fun i => decide (90 * 16 ≤ signed 16 (s.fld Reg.PWR_DIODE.temp i))

/-- What is left where both persistence copies are invalid (Table 20.5): the images, and nothing remembered. -/
def Persist.lost (p : Persist) (running : Nat) : Persist :=
  { Persist.factory with imageA := p.imageA, imageB := p.imageB, preferred := running, sliceMap := [] }

/-- STAGE_PLAN_COMPLETE (R471, R479, R530): the attempt is counted, and it is a full or an Apron start. -/
def execStagePlanComplete (persistLost : Bool) (s : State) : Host.Outcome State Fault Refusal :=
  .next (
    if !s.atStage 2 || !s.briloUp || s.flag Reg.MGT_STATUS.recovery || (s.waitCool && s.hot) then s
    else
      let s := { s with trip := false, thermtrip := false, waitCool := false, shutdown := none, scan := false }
      let s := if persistLost then
          (s.modPersist fun p => p.lost (s.fld Reg.MGT_STATUS.image)).recordFault 0x0203 .module [2]
        else s
      let a := s.persist.attempts
      let apron := decide (3 ≤ a) || s.persist.forceApron || persistLost
      let s := s.modPersist fun p => { p with attempts := min 15 (a + 1), forceApron := false }
      let s := { s with attemptFound := some a, faultPin := s.faultPin || s.persist.failed || apron }
      let s := s.setFld Reg.TOP_STARTSTAT.attempts (min 15 (a + 1))
      let s := if apron then { s with clocks := false }.setFld Reg.CAP_GEN.gen (s.fld Reg.CAP_GEN.gen + 1) else s
      (s.setFlag Reg.TOP_STARTSTAT.apron apron).toStage 3)

/-- STAGE_RAILS_COMPLETE (R475): PWRGD is asserted. The start value of the core rail is not stated but lies in its operating range (R31). -/
def execStageRailsComplete (s : State) : Host.Outcome State Fault Refusal :=
  .next (
    if !s.atStage 3 then s
    else
      let got := s.free
      let s := got.2.setRails (600 + got.1 % 251)
      { s with pwrgd := true, coreMv := if s.apron then 0 else s.coreMv, naturalRate := if s.apron then 0 else s.naturalRate,
               lasers := !s.apron }.toStage 4)

/-- STAGE_CLOCKS_COMPLETE (Table 20.2): an Apron start goes on at stage 10. -/
def execStageClocksComplete (s : State) : Host.Outcome State Fault Refusal :=
  .next (
    if !s.atStage 4 then s
    else if s.apron then s.toStage 10
    else { s with clocks := true }.toStage 5)

/-- STAGE_LINKS_COMPLETE (R32): the die-to-die links are trained. -/
def execStageLinksComplete (s : State) : Host.Outcome State Fault Refusal :=
  .next (if s.atStage 5 then { s with linkHeld := [], linkFails := [], linkErrors := [], linkDown := [] }.toStage 6 else s)

/-- The rate mode after the start-time refit (R43, R477). -/
def State.startMode (s : State) : State :=
  let top := breezeCeiling s.drift
  let s := { s with paceRate := 145 }
  let s := if top < 50 then (s.enterGust.setFld Reg.TOP_STARTSTAT.gust 1).recordFault 0x0210 .module [6]
    else s.enterBreeze (min 100 top)
  s.showCapped.showRate

/-- STAGE_REFIT_COMPLETE (R43, R449, R450): without a valid fray monitor the stage fails. -/
def execStageRefitComplete (counts : List Nat) (s : State) : Host.Outcome State Fault Refusal :=
  .next (
    if !s.atStage 6 then s
    else
      let got := s.measuredDrift counts
      let s := s.measureFray counts
      match got with
      | none => s.failStart 0x0207
      | some d => (s.writeRefit d true).startMode.toStage 7)

/-- STAGE_MEMORY_COMPLETE (R213, R478): T1, scratch and cluster SRAM are zero, and the staging caches empty. -/
def execStageMemoryComplete (s : State) : Host.Outcome State Fault Refusal :=
  .next (
    if !s.atStage 7 then s
    else { s with mem := ⟨[], [], [], s.mem.t3⟩, stack := [], poison := [], cache := [], flushing := [] }.toStage 8)

/-- STAGE_CHECK_COMPLETE (R491): every slice whose bit is 0 is checked, and is stale. -/
def execStageCheckComplete (found : List RepairEntry) (s : State) : Host.Outcome State Fault Refusal :=
  .next (
    if !s.atStage 8 then s
    else
      let slices := (List.range 34).filter fun i => !s.persist.sliceMap.contains i
      let s := s.modPersist fun p => slices.foldl (fun p i => (p.keepFaults i 1 found).2) { p with quick := slices }
      let s := s.resetFlds [Reg.UNIT_STATE.stale]
      let s := (slices.flatMap sliceUnits).foldl (fun s u => s.setFld Reg.UNIT_STATE.stale 1 u) s
      ((s.setFlag Reg.TOP_STARTSTAT.stale !slices.isEmpty).showEntries).toStage 9)

/-- STAGE_REPAIR_COMPLETE (R182, R200, R489): repair, or failure where a fault outside cores and clusters cannot be repaired (0x0208), or no
core is left (0x0209). -/
def execStageRepairComplete (s : State) : Host.Outcome State Fault Refusal :=
  .next (
    if !s.atStage 9 then s
    else
      let all := s.fused ++ s.persist.entries
      let bad := badSlots all s.persist.retireMap
      if bad.any fun u => (coreOf u).isNone && !(decide (5 ≤ u) && decide (u < 21)) then s.failStart 0x0208
      else if (List.range 256).all fun c => isRetired bad (slotCore c) then s.failStart 0x0209
      else (s.applyRepair all bad).toStage 10)

/-- STAGE_NVS_COMPLETE (R241, R242, R251, R468): the module key is loaded, the last checkpoint read and the journal replayed, and
NVS_WEAR filled; blocks whose program was interrupted are erased before anything uses them. -/
def execStageNvsComplete (s : State) : Host.Outcome State Fault Refusal :=
  .next (
    if !s.atStage 10 then s
    else
      let s := ({ s with nvsKey := true }.modNvs Nvs.replay).showWear
      let s := s.setFld Reg.NVS_STATUS.ready 1
      let s := if s.apron then (s.setFld Reg.NVS_STATUS.apron 1).setFld Reg.NVS_STATUS.ro 1 else s.eraseOld
      s.toStage 11)

/-- The run state a unit is published with (R52, R62). -/
def State.publishedRun (s : State) (slot : Nat) : Nat :=
  if s.retired slot then Run.off
  else if !s.apron then Run.idle
  else if computeUnit slot then Run.apron
  else if slot = slotXdieB then Run.off
  else Run.idle

/-- In Apron mode the health and REPAIR entries shown are those of the last completed start (R62). -/
def State.showLast (s : State) : State :=
  if s.apron then
    { ownUnits.foldl (fun t u => t.setFld Reg.UNIT_STATE.health (Table.get 0 s.persist.lastHealth u) u) s with
      repairs := s.persist.lastRepairs }
  else s

/-- The slots whose run state a start publishes. -/
def publishedSlots : List Nat := [0, slotSe] ++ ownUnits

/-- The TEST entry a start publishes for a slot (R490). -/
def State.publishedTest (s : State) (u : Nat) : TestEntry :=
  if s.apron then { Table.get ⟨3, false, 0, 0⟩ s.persist.lastTests u with result := 3 } else s.testOf u

/-- Publish the run states. -/
def State.publishRuns (s : State) : State :=
  publishedSlots.foldl (fun s u => s.setFld Reg.UNIT_STATE.run (s.publishedRun u) u) s

/-- Publish the TEST entries. -/
def State.publishTests (s : State) : State := { s with tests := (0 :: ownUnits).map fun u => (u, s.publishedTest u) }

/-- The walk is published (R59, R60, R490): health and repairs of the last completed start in Apron mode, run states and TEST entries. -/
def State.publish (s : State) : State :=
  let s := s.showLast.publishRuns.publishTests
  (s.setFld Reg.CAP_STATUS.ready 1).setFld Reg.CAP_GEN.gen (s.fld Reg.CAP_GEN.gen + 1)

/-- STAGE_PUBLISH_COMPLETE (R59, R476, R481): the blocks open; an Apron start is complete. -/
def execStagePublishComplete (s : State) : Host.Outcome State Fault Refusal :=
  .next (
    if !s.atStage 11 then s
    else
      let s := s.publish.setFld Reg.TOP_BLKSTAT.blocks (if s.apron then 0x70B else 0x7FF)
      if s.apron then s.dueRestart else s.toStage 12)

/-- What a completed full start leaves for an Apron start to show (R62). -/
def State.remember (s : State) : State :=
  let health := (ownUnits.map fun u => (u, s.fld Reg.UNIT_STATE.health u)).filter fun x => x.2 != 0
  s.modPersist fun p => { p with lastHealth := health, lastTests := s.tests, lastRepairs := s.repairs }

/-- STAGE_READY_COMPLETE (R475, R479, R491, R496): the start is complete. -/
def execStageReadyComplete (s : State) : Host.Outcome State Fault Refusal :=
  .next (
    if !s.atStage 12 then s
    else
      let s := s.remember.modPersist fun p => { p with attempts := 0, sliceMap := [], failed := false }
      let s := (s.setFld Reg.TOP_STARTSTAT.ready 1).setFld Reg.TOP_STARTSTAT.attempts 0
      { s with readyPin := true, faultPin := false, attemptFound := none }.dueRestart)

/-! ### Orderly shutdown (R483 to R487) -/

/-- A write of 1 to TOP_SHUTCTL.start (R483, Table 20.11): phase 1 begins, or the write is discarded with its result. -/
def State.beginShutdown (s : State) (skip : Bool) : State :=
  if s.shutdown.isSome then s.setFld Reg.TOP_SHUTSTAT.result 2
  else if !s.flag Reg.TOP_STARTSTAT.ready && !s.apron then s.setFld Reg.TOP_SHUTSTAT.result 1
  else
    let s := ((s.setFld Reg.TOP_SHUTSTAT.result 0).setFld Reg.TOP_SHUTSTAT.state 1).setFld Reg.TOP_SHUTSTAT.slices_done 0
    let s := { s with readyPin := false, shutdown := some ⟨1, skip, 0, none, false⟩ }
    (s.jobs.foldl (fun s j => s.markFault j.id 0x100 true) s).settle

/-- SHUTDOWN_START (R483). -/
def execShutdownStart (s : State) : Host.Outcome State Fault Refusal := .next (s.hostWrite 0x118 4 fun s => s.beginShutdown false)
/-- SHUTDOWN_START_SKIP_TEST (R483). -/
def execShutdownStartSkipTest (s : State) : Host.Outcome State Fault Refusal :=
  .next (s.hostWrite 0x118 4 fun s => s.beginShutdown true)

/-- The shutdown in a phase. -/
def State.inPhase (s : State) (n : Nat) (k : Shutdown → State) : State :=
  match s.shutdown with
  | some d => if d.phase = n then k d else s
  | none => s

/-- Go to a phase. -/
def State.toPhase (s : State) (d : Shutdown) (n : Nat) : State := { s with shutdown := some { d with phase := n } }

/-- SHUTDOWN_CLOSE_COMPLETE (Table 20.6, phase 1): every job has ended and the NVS has completed its commands. -/
def execShutdownCloseComplete (s : State) : Host.Outcome State Fault Refusal :=
  .next (s.inPhase 1 fun d =>
    if !s.jobs.isEmpty || !s.nvs.cmds.isEmpty then s
    else if s.apron then s.toPhase d 3
    else s.beginFlush.toPhase d 2)

/-- SHUTDOWN_WRITEBACK_COMPLETE (Table 20.6, phase 2). -/
def execShutdownWritebackComplete (s : State) : Host.Outcome State Fault Refusal :=
  .next (s.inPhase 2 fun d => { s with flushing := [] }.toPhase d 3)

/-- SHUTDOWN_CHECKPOINT_COMPLETE (R240, R483, R485, Table 20.6, phase 3): the NVS stops; in Apron mode it writes no checkpoint. From phase 4
on Brilo answers SPDM with Busy. -/
def execShutdownCheckpointComplete (s : State) : Host.Outcome State Fault Refusal :=
  .next (s.inPhase 3 fun d =>
    if s.inhibited then s
    else
      let s := (if s.apron then s else s.modNvs Nvs.checkpoint).setFld Reg.NVS_STATUS.ready 0
      if s.apron || d.skip then s.toPhase d 6 else (s.modBrilo fun b => { b with busy := true }).toPhase d 4)

/-- The secrets that phase 4 clears (R485). -/
def State.clearSecrets (s : State) : State :=
  let s := { s with nvsKey := false }.resetFlds [Reg.FAB_RGN.key, Reg.MEM_LEND.key, Reg.MEM_T2MAP.key, Reg.FAB_MCRED.key]
  s.modBrilo fun b => { b with sessions := [], identity := false }

/-- SECRETS_CLEAR_COMPLETE (R485): only if every word reads back zero are the scan paths enabled. -/
def execSecretsClearComplete (clean : Bool) (s : State) : Host.Outcome State Fault Refusal :=
  .next (s.inPhase 4 fun d =>
    let s := s.clearSecrets
    if clean then ({ s with scan := true }.setFld Reg.TOP_SHUTSTAT.state 2).toPhase d 5
    else (s.recordFault 0x0220 .module []).toPhase d 6)

/-- The slice in progress ends with a result (R487). -/
def State.endSlice (s : State) (d : Shutdown) (result ms : Nat) (faults : List RepairEntry) (stopped : Bool) : State :=
  let r := if result = 0 ∧ (faults.any fun e => (sliceUnits d.slice).contains e.slot) then 1 else result
  { s with shutdown := some { d with ended := some (r, faults, ms), stopped := stopped } }

/-- SLICE_TESTS_COMPLETE (R487, R488): the tests of the slice end within its budget. -/
def execSliceTestsComplete (faults : List RepairEntry) (ms : Nat) (s : State) : Host.Outcome State Fault Refusal :=
  .next (s.inPhase 5 fun d =>
    if d.ended.isSome || d.stopped || s.inhibited || decide (s.fld Reg.TST_CFG.slice_ms < ms) then s
    else s.endSlice d 0 ms faults false)

/-- SLICE_BUDGET_EXPIRE (R487): the slice has run its budget and is incomplete. -/
def execSliceBudgetExpire (faults : List RepairEntry) (s : State) : Host.Outcome State Fault Refusal :=
  .next (s.inPhase 5 fun d =>
    if d.ended.isSome || d.stopped || s.inhibited then s else s.endSlice d 2 (s.fld Reg.TST_CFG.slice_ms) faults false)

/-- TEST_BUDGET_EXPIRE (R487): the slice in progress ends incomplete, and no further one runs. -/
def execTestBudgetExpire (faults : List RepairEntry) (ms : Nat) (s : State) : Host.Outcome State Fault Refusal :=
  .next (s.inPhase 5 fun d =>
    if d.stopped then s
    else if d.ended.isSome then { s with shutdown := some { d with stopped := true } }
    else s.endSlice d 2 ms faults true)

/-- SLICE_COMMIT_COMPLETE (R487): the slice's entries, its result and its bit, where it is complete, are in the persistence area. -/
def execSliceCommitComplete (s : State) : Host.Outcome State Fault Refusal :=
  .next (s.inPhase 5 fun d =>
    match d.ended with
    | none => s
    | some (r, faults, ms) =>
      if s.inhibited then s
      else
        let n := (s.persist.keepFaults d.slice 0 faults).1
        let s := ((s.setFld Reg.TST_SLICE.result r d.slice).setFld Reg.TST_SLICE.faults n d.slice).setFld Reg.TST_SLICE.ms ms d.slice
        let s := (s.modPersist fun p =>
          let p := (p.keepFaults d.slice 0 faults).2
          { p with
            results := (p.results.filter fun x => x.1 != d.slice) ++ [(d.slice, r, n, ms)]
            sliceMap := if r < 2 then p.sliceMap.filter (· != d.slice) ++ [d.slice] else p.sliceMap }).showEntries
        let s := if r < 2 then s.setFld Reg.TOP_SHUTSTAT.slices_done (s.fld Reg.TOP_SHUTSTAT.slices_done + 1) else s
        if d.stopped || d.slice == 33 then s.toPhase d 6
        else { s with shutdown := some { d with slice := d.slice + 1, ended := none } })

/-- SHUTDOWN_OFF_COMPLETE (R484, Table 20.6, phase 6): the core rails are off and the state is done. X-die A stays powered. -/
def execShutdownOffComplete (s : State) : Host.Outcome State Fault Refusal :=
  .next (s.inPhase 6 fun d =>
    let s := s.lasersOff.computeOff.setFld Reg.TOP_SHUTSTAT.state 3
    (s.toPhase d 7).dueRestart)

end Sys2Proof.Machine
end

