-- ==== Sys2Proof/Machine/Bar0.lean ====
section
/-! DEFINITION. What a BAR0 read returns (R511, R513, R516), with the unit control blocks, the capability entries and the group
definitions as reads show them (R48 to R62, R540, R541), and ALERT_N (R495). -/

namespace Sys2Proof.Machine

/-! ### Fields of the map -/

/-- The fields of a block of Table 22.3. -/
def blockFields (k : Nat) : List Field :=
  match k with
  | 0 => fieldsTop
  | 1 => fieldsCap
  | 2 => fieldsPwr
  | 3 => fieldsMgt
  | 4 => fieldsSeq
  | 5 => fieldsFab
  | 6 => fieldsXe
  | 7 => fieldsMem
  | 8 => fieldsNvs
  | 9 => fieldsUnit
  | _ => fieldsTst

/-- The instances of a field that have a bit among the `n` bytes (at most 8) at offset `a`. -/
def Field.hits (f : Field) (a n : Nat) : List Nat :=
  let i := if f.stride = 0 then 0 else (8 * a - f.key 0) / (8 * f.stride)
  (if f.stride = 0 then [0] else [i, i + 1, i + 2]).filter fun i =>
    decide (i < f.count) && decide (f.key i < 8 * (a + n)) && decide (8 * a < f.key i + f.width)

/-! ### Capability entries (R56, R57, R540, R541) -/

/-- A capability entry: its identifier and its words from word 2 on. Every entry is of version 1. -/
structure CapEntry where
  id : Nat
  body : List Nat
  deriving DecidableEq, Repr

/-- The member slots two to a word, padded with 0xFFFF (Table 3.11). -/
def slotWords : List Nat → List Nat
  | [] => []
  | [a] => [a + 0xFFFF0000]
  | a :: b :: r => (a + 65536 * b) :: slotWords r

/-- The CHILDREN entry of a unit (Table 3.11). -/
def State.children (s : State) (slot : Nat) : CapEntry := ⟨0x0001, (s.members slot).length :: slotWords (s.members slot)⟩

/-- The TEST entry of a unit (Table 3.12). -/
def State.testEntry (s : State) (slot : Nat) : CapEntry :=
  let t := Table.get ⟨3, false, 0, 0⟩ s.tests slot
  ⟨0x0070, [ofFlag t.quick + 16 * t.result, t.addr % 2 ^ 32, t.bit % 64]⟩

/-- The REPAIR entry of a unit (Table 3.12). -/
def State.repairEntry (s : State) (slot : Nat) : CapEntry :=
  let r := Table.get UnitRepair.none s.repairs slot
  ⟨0x0060, [min 255 r.entries + 256 * ofFlag r.spareRow + 512 * (r.cols % 8) + 4096 * (r.lanes % 16) + 65536 * min 255 r.rows]⟩

/-- The entries in a unit's own capability area, in the order of their chain (Table 3.10). The module's CHILDREN entry lies in the CAP
block and ends its chain; a software group has none here. -/
def State.capEntries (s : State) (slot : Nat) : List CapEntry :=
  let test := s.testEntry slot
  if slot = 0 then [⟨0x0050, [0x100100, 0x100104, 0x100108, 0x10010C]⟩, test]
  else if slot < 5 then [s.children slot, test]
  else if slot < 21 then [s.children slot, ⟨0x0020, [0x2000, 0x01000000, 0]⟩, s.repairEntry slot, test]
  else if slot < 33 then
    [⟨0x0030, [(slot - 21) + 256 * ((slot - 21) / 3), 0x00400030]⟩, s.repairEntry slot, test]
  else if slot < 35 then
    let x := slot - 33
    let shared : List CapEntry :=
      [⟨0x0041, [x + 256 * 0x10, 0x10 + 256 * 4 + 65536 * 0x100, 65536 * 0x1000]⟩,
       ⟨0x0042, [x + 16 * 8 + 256 * (8 * x) + 65536 * 8,
         s.fld Reg.FAB_EPID.ep + 2 ^ 31 * s.fld Reg.FAB_EPID.valid, 0x11 + 256 * 0x10 + 65536 * 0xC8]⟩]
    if x = 0 then shared ++
      [⟨0x0043, [8, 0x1000, 0xC00, 0x0080 + 65536 * 0x1000]⟩, ⟨0x0044, [s.pcieSpeed + 256 * s.pcieWidth]⟩,
       ⟨0x0045, [s.fld Reg.MGT_STATUS.image + 2 * s.fld Reg.MGT_STATUS.trial + 4 * s.fld Reg.MGT_STATUS.recovery +
         256 * s.fld Reg.MGT_STATUS.svn, s.fld Reg.MGT_FWVER.version]⟩, test]
    else shared ++ [test]
  else if slot = slotSe then [s.children slot, ⟨0x0040, [0xFF + 256 * 4, 0x10000]⟩]
  else if slot < 40 then [⟨0x0040, [(slot - 36) + 256, 0x10000]⟩, test]
  else if 64 ≤ slot ∧ slot < 320 then
    [⟨0x0010, [0x00200602, 0x1000]⟩, ⟨0x0011, [0x80 + 2 ^ 12 * 0xF, 0x22282414, 0x3FC0]⟩, ⟨0x0012, [0x000F0200, 0xA80C4000]⟩,
     s.repairEntry slot, test]
  else []

/-- The words of an entry: the header of Table 3.9 with its next offset, and the body. -/
def CapEntry.words (e : CapEntry) (next : Nat) : List Nat :=
  (e.id + 65536 + 2 ^ 24 * ((2 + e.body.length) % 256)) :: next :: e.body

/-- The words of a chain that starts at offset `at'`, each entry on 8 bytes; the last entry's next is `stop`. -/
def chainWords (at' stop : Nat) : List CapEntry → List Nat
  | [] => []
  | e :: r =>
    let size := 8 * ((e.body.length + 3) / 2)
    let next := if r.isEmpty then stop else at' + size
    e.words next ++ List.replicate (e.body.length % 2) 0 ++ chainWords (at' + size) stop r

/-- A word of the GROUP_DEF entry of software group `g` (R541): words beyond the members read 0xFFFF twice. -/
def State.groupWord (s : State) (g w : Nat) : Nat :=
  let m := (s.group g).slots
  ((CapEntry.words ⟨0x00F0, m.length :: slotWords m⟩ 0)[w]?).getD 0xFFFFFFFF

/-! ### Unit control blocks (Tables 3.2 to 3.8) -/

/-- UNIT_IDENT: kind and number (Tables 3.1 and 3.3). -/
def identWord (slot : Nat) : Nat :=
  let kind (k n : Nat) : Nat := 2 ^ 24 * k + n
  if slot = 0 then kind 1 0
  else if slot < 5 then kind 2 (slot - 1)
  else if slot < 21 then kind 3 (slot - 5)
  else if slot < 33 then kind 5 (slot - 21)
  else if slot < 35 then kind 6 (slot - 33)
  else if slot = slotSe then kind 8 0
  else if slot < 40 then kind 7 (slot - 36)
  else if slot < 320 then kind 4 (slot - 64)
  else kind 9 (slot - 448)

/-- UNIT_LINKS: hardware parent and number of members (Table 3.3). -/
def State.linksWord (s : State) (slot : Nat) : Nat := 65536 * (parentOf slot).getD 0xFFFF + (s.members slot).length

/-- UNIT_CAPPTR: the first entry of the unit's chain (Table 3.3). -/
def capPointer (slot : Nat) : Nat := if 448 ≤ slot then 0x20000 + 1024 * (slot - 448) else 0x2000040 + 256 * slot

/-- The value a field instance reads as: WO fields read 0 (R13), fields derived from other state are computed, and every other field
reads as it is kept. -/
def State.fieldRead (s : State) (f : Field) (i : Nat) : Nat :=
  if f.access = .wo then 0
  else if f = Reg.TOP_ID.variant then Config.variant % 2
  else if f = Reg.TOP_LOCKSTAT.mem then s.fld Reg.MEM_LOCK.lock
  else if f = Reg.TOP_LOCKSTAT.nvs then s.fld Reg.NVS_LOCK.lock
  else if f = Reg.TOP_LOCKSTAT.kv then s.fld Reg.SEQ_KVLOCK.lock
  else if f = Reg.PWR_LEASE.remaining_ms then s.leaseLeft
  else if f = Reg.MEM_LATE.late_ns then s.lateNs (i + 1)
  else if f = Reg.UNIT_STATE.health then s.health depth i
  else if f = Reg.UNIT_STATE.run then s.runRead depth i
  else if f = Reg.UNIT_STATE.stale then ofFlag (s.stale i)
  else if f = Reg.UNIT_CTRL.busy then ofFlag (!s.ctrlQueue.isEmpty)
  else if f = Reg.UNIT_EVT.reject || f = Reg.UNIT_EVT.run_change || f = Reg.UNIT_EVT.fault || f = Reg.UNIT_EVT.sat then ofFlag (s.unitEvt f i)
  else if f = Reg.UNIT_JOB.job then s.unitJob i
  else if f = Reg.UNIT_BUSY.busy_us then s.unitBusy i
  else s.fld f i

/-- The part of a field instance that lies in the 4-byte word at offset `o`. -/
def State.fieldPart (s : State) (f : Field) (o i : Nat) : Nat :=
  let v := s.fieldRead f i
  (if 8 * o ≤ f.key i then v * 2 ^ (f.key i - 8 * o) else v / 2 ^ (8 * o - f.key i)) % 2 ^ 32

/-- A 4-byte word made of the fields of its block; an offset without fields reads 0 (R513). -/
def State.fieldWord (s : State) (o : Nat) : Nat :=
  (((blockFields (blockOf o)).flatMap fun f => (f.hits o 4).map (s.fieldPart f o)).sum) % 2 ^ 32

/-- A word of the UCB of a slot (R48, R60); while MRESET_N is held low its run state alone is there (R470). -/
def State.unitWord (s : State) (slot w : Nat) : Nat :=
  if !slotHolds slot then 0
  else if s.mreset then if w = 4 then s.fieldPart Reg.UNIT_STATE.run (0x2000010 + 256 * slot) slot else 0
  else if !s.flag Reg.CAP_STATUS.ready then 0
  else if w = 0 then identWord slot
  else if w = 1 then 0x0001B000
  else if w = 2 then s.linksWord slot
  else if w = 3 then capPointer slot
  else if w < 16 then s.fieldWord (0x2000000 + 256 * slot + 4 * w)
  else (chainWords (capPointer slot) (if slot = 0 then 0x10100 else 0) (s.capEntries slot)).getD (w - 16) 0

/-- A bit per core of SEQ_NUMSUM (R161). -/
def State.numSum (s : State) (i : Nat) : Nat :=
  ((List.range 32).map fun j => ofFlag (s.numFlagged (32 * i + j)) * 2 ^ j).sum

/-- The 4-byte word at a BAR0 offset, a multiple of 4, of an accessible block. -/
def State.readWord (s : State) (o : Nat) : Nat :=
  if 0x2000000 ≤ o ∧ o < 0x2020000 then s.unitWord ((o - 0x2000000) / 256) ((o - 0x2000000) % 256 / 4)
  else if 0x10100 ≤ o ∧ o < 0x20000 then (((s.children 0).words 0)[(o - 0x10100) / 4]?).getD 0
  else if 0x20000 ≤ o ∧ o < 0x30000 then s.groupWord ((o - 0x20000) / 1024) ((o - 0x20000) % 1024 / 4)
  else if 0x422000 ≤ o ∧ o < 0x422020 then s.numSum ((o - 0x422000) / 4)
  else if 0x200040 ≤ o ∧ o < 0x200080 then ofBytes ((s.logData.drop (o - 0x200040)).take 4)
  else if 0x201000 ≤ o ∧ o < 0x202000 then ofBytes (readBytes s.mbReq (o - 0x201000) 4)
  else if 0x202000 ≤ o ∧ o < 0x203000 then ofBytes (readBytes s.mbRsp (o - 0x202000) 4)
  else s.fieldWord o

/-- What a BAR0 read of `n` bytes returns (R511, R513, R476): zeros where it crosses a 64-byte boundary or its block is not accessible.
While MRESET_N is held low the run states can be read (R470). It changes no state. -/
def State.readBar0 (s : State) (offset n : Nat) : List Byte :=
  if n = 0 ∨ 64 < offset % 64 + n ∨ 2 ^ 26 ≤ offset ∨ !(s.blockOpen (blockOf offset) || (s.mreset && blockOf offset == 9)) then List.replicate n 0
  else
    let first := offset / 4
    let words := (List.range ((offset + n + 3) / 4 - first)).flatMap fun k => toBytes 4 (s.readWord (4 * (first + k)))
    (words.drop (offset % 4)).take n

/-! ### ALERT_N (R495) -/

/-- The event registers with their masks: bit k of a mask masks bit k of its register. -/
def eventRegs : List (List Field × Field) :=
  [([Reg.TOP_EVT.sat, Reg.TOP_EVT.fault], Reg.TOP_EVTMASK.mask),
   ([Reg.PWR_EVT.switchover, Reg.PWR_EVT.inhibit, Reg.PWR_EVT.hold, Reg.PWR_EVT.lease_expired, Reg.PWR_EVT.throttle,
     Reg.PWR_EVT.thermal_hold, Reg.PWR_EVT.refit, Reg.PWR_EVT.margin_warn, Reg.PWR_EVT.margin_end, Reg.PWR_EVT.fray_fault],
    Reg.PWR_EVTMASK.mask),
   ([Reg.PWR_RATEEVT.slip, Reg.PWR_RATEEVT.suspend, Reg.PWR_RATEEVT.reject], Reg.PWR_RATEEVTMASK.mask),
   ([Reg.SEQ_KVEVT.defer, Reg.SEQ_KVEVT.exhausted, Reg.SEQ_KVEVT.expire, Reg.SEQ_KVEVT.park_fail, Reg.SEQ_KVEVT.drop,
     Reg.SEQ_KVEVT.reject], Reg.SEQ_KVEVTMASK.mask),
   ([Reg.SEQ_SRVEVT.bad_db, Reg.SEQ_SRVEVT.cmd_fail, Reg.SEQ_SRVEVT.strm_wait, Reg.SEQ_SRVEVT.nan_end, Reg.SEQ_SRVEVT.lost,
     Reg.SEQ_SRVEVT.dup_prop], Reg.SEQ_SRVEVTMASK.mask),
   ([Reg.SEQ_SCHEDEVT.preempt, Reg.SEQ_SCHEDEVT.slot_wait, Reg.SEQ_SCHEDEVT.ctl_reject], Reg.SEQ_SCHEDEVTMASK.mask),
   ([Reg.FAB_EVT.port_change, Reg.FAB_EVT.degraded, Reg.FAB_EVT.isolated, Reg.FAB_EVT.reject, Reg.FAB_EVT.gsc_unlock,
     Reg.FAB_EVT.gm_conflict], Reg.FAB_EVTMASK.mask),
   ([Reg.FAB_OPEVT.refused_out, Reg.FAB_OPEVT.refused_in, Reg.FAB_OPEVT.dead, Reg.FAB_OPEVT.poison_in, Reg.FAB_OPEVT.teardown,
     Reg.FAB_OPEVT.bulk_fail, Reg.FAB_OPEVT.red_sat, Reg.FAB_OPEVT.rgn_reject], Reg.FAB_OPEVTMASK.mask),
   ([Reg.XE_EVT.refused, Reg.XE_EVT.overflow, Reg.XE_EVT.unret, Reg.XE_EVT.stale], Reg.XE_EVTMASK.mask),
   ([Reg.MEM_EVT.late, Reg.MEM_EVT.timeout, Reg.MEM_EVT.uc, Reg.MEM_EVT.t2_recall, Reg.MEM_EVT.t2_fail, Reg.MEM_EVT.t3_fail,
     Reg.MEM_EVT.reject], Reg.MEM_EVTMASK.mask),
   ([Reg.NVS_EVT.cmd_fail, Reg.NVS_EVT.digest, Reg.NVS_EVT.uc, Reg.NVS_EVT.inhibit, Reg.NVS_EVT.wear_warn, Reg.NVS_EVT.worn,
     Reg.NVS_EVT.reject], Reg.NVS_EVTMASK.mask)]

/-- The bits of UNIT_EVT with their masks (Table 3.7). -/
def unitEvents : List (Field × Field) :=
  [(Reg.UNIT_EVT.reject, Reg.UNIT_EVTMASK.reject), (Reg.UNIT_EVT.run_change, Reg.UNIT_EVTMASK.run_change),
   (Reg.UNIT_EVT.fault, Reg.UNIT_EVTMASK.fault), (Reg.UNIT_EVT.sat, Reg.UNIT_EVTMASK.sat)]

/-- ALERT_N is asserted: an event bit of a block or of a UCB is 1 and unmasked (R495). -/
def State.alert (s : State) : Bool :=
  (eventRegs.any fun r => r.1.any fun f => s.flag f && !bit (s.fld r.2) f.low) ||
    ((List.range 512).filter slotHolds).any fun u => unitEvents.any fun p => !s.flag p.2 u && s.unitEvt p.1 u

/-! ### Sideband outputs and identity (R510, R527 to R529, R538) -/

/-- The sideband outputs of Table 23.5, and SBREF, which feeds the pull-ups of PWRGD and READY (R528). -/
inductive Pin where
  | prsntN
  | pwrgd
  | ready
  | alertN
  | faultN
  | thermtripN
  | sbref
  deriving DecidableEq, Repr

/-- The standby rail is up: it came up at the last power-on reset, and no brown-out has followed. -/
def State.standby (s : State) : Bool := s.fld Reg.TOP_STARTSTAT.stage != 0

/-- A pin of a seated module is high, with the resistors of Table 23.5 (R529). PRSNT_N is tied to carrier ground (R527); an unpowered module
drives no other pin. -/
def State.pinHigh (s : State) (p : Pin) : Bool :=
  match p with
  | .prsntN => false
  | .pwrgd => s.standby && s.pwrgd
  | .ready => s.standby && s.readyPin
  | .alertN => !(s.standby && s.alert)
  | .faultN => !(s.standby && s.faultPin)
  | .thermtripN => !(s.standby && s.thermtrip)
  | .sbref => s.standby

/-- The configuration identity of Table 22.1: vendor, device, revision, class code, subsystem vendor and subsystem, which names the ordering
code as TOP_ID.variant does (R538). -/
def configIdentity : List Nat := [0x1F3C, 0x9640, 0xB0, 0x120000, 0x1F3C, 1 + Config.variant % 2]

end Sys2Proof.Machine
end

