-- ==== Sys2Proof/Machine/Lull.lean ====
section
/-! DEFINITION. The lull window's end and the packets of the lull protocol (R497 to R500). -/

namespace Sys2Proof.Machine

/-- The suspect a lull packet codes (Table 17.16). -/
def suspectOf (kind id : Nat) : Suspect :=
  if kind = 1 then .unit id else if kind = 2 then .endpoint id else if kind = 3 then .shard id else .module

/-- This module is the arbiter of its domain (R498). -/
def State.isArbiter (s : State) : Bool :=
  s.flag Reg.FAB_LULLCFG.arb_valid && s.fld Reg.FAB_LULLCFG.arb_ep == s.fld Reg.FAB_EPID.ep

/-- LULL_WINDOW_END (R497, R499, R509): the entries are free again, the tallies that are not zero wait to be sent, and a new window length
takes effect. -/
def execLullWindowEnd (s : State) : Host.Outcome State Fault Refusal :=
  .next (
    let w := s.lullWindow - 1
    { s with
      lull := [], lullFull := false, lullSent := [],
      lullEnded := s.lullEnded ++ ((s.lull.filter fun e => e.tally != 0).map fun e => (w, e)),
      arbiter := [], arbiterEnded := s.arbiter, arbiterWindow := if s.isArbiter then some w else none,
      lullMs := s.fld Reg.FAB_LULLWIN.window_ms })

/-- Add a module's tally to the arbiter's table of the ended window (R499). -/
def State.arbiterTally (s : State) (src : Nat) (p : Suspect) (cause events : Nat) : State :=
  if s.arbiterEnded.any fun e => e.suspect == p && e.cause == cause then
    { s with arbiterEnded := s.arbiterEnded.map fun e =>
        if e.suspect == p && e.cause == cause then { e with observers := addObserver e.observers src, events := e.events + events } else e }
  else { s with arbiterEnded := s.arbiterEnded ++ [(⟨p, cause, [src], events⟩ : ArbiterEntry)] }

/-- Send one tally (R499): to the arbiter, into the own table of the arbiter, or to the fabric manager where no arbiter is named (R500). -/
def State.sendTally (s : State) (x : Nat × LullEntry) : State :=
  let got := x
  let w := got.1
  let e := got.2
  if !s.flag Reg.FAB_LULLCFG.fm_valid then s
  else if s.isArbiter then s.arbiterTally (s.fld Reg.FAB_EPID.ep) e.suspect e.cause e.tally
  else
    let body := s.lullBody e.suspect e.cause (causeSeverity e.cause) w 1 e.tally
    if s.flag Reg.FAB_LULLCFG.arb_valid then s.sendControl (s.fld Reg.FAB_LULLCFG.arb_ep) false 0x26 body
    else s.toManager 0x26 body

/-- LULL_TALLY_SEND (R499): the module's moment in the first 500 µs after a window. -/
def execLullTallySend (s : State) : Host.Outcome State Fault Refusal :=
  .next (s.lullEnded.foldl State.sendTally { s with lullEnded := [] })

/-- LULL_REPORT_RECEIVE (R498): the arbiter takes a module's report. -/
def execLullReportReceive (hd : PacketHead) (cause kind id severity events : Nat) (s : State) : Host.Outcome State Fault Refusal :=
  .next (s.controlTake hd fun s =>
    if s.isArbiter then s.arbiterTake hd.source (suspectOf kind id) cause severity events else s)

/-- LULL_NOTICE_RECEIVE (R498): the pair enters the module's own lull table. -/
def execLullNoticeReceive (hd : PacketHead) (cause kind id : Nat) (s : State) : Host.Outcome State Fault Refusal :=
  .next (s.controlTake hd fun s => s.noticed (suspectOf kind id) cause)

/-- LULL_TALLY_RECEIVE (R499): the arbiter adds a tally of the window that has ended, or discards and counts a late one. -/
def execLullTallyReceive (hd : PacketHead) (cause kind id window events : Nat) (s : State) : Host.Outcome State Fault Refusal :=
  .next (s.controlTake hd fun s =>
    if !s.isArbiter then s
    else if s.arbiterWindow = some window then s.arbiterTally hd.source (suspectOf kind id) cause events
    else s.count Reg.FAB_LULLLATECNT.count 1)

/-- ARBITER_TALLY_SEND (R499): 2 ms after a window the arbiter sends the fabric manager one tally for each pair. -/
def execArbiterTallySend (s : State) : Host.Outcome State Fault Refusal :=
  .next (match s.arbiterWindow with
    | none => s
    | some w =>
      s.arbiterEnded.foldl (fun s e =>
        s.toManager 0x26 (s.lullBody e.suspect e.cause (causeSeverity e.cause) w e.observers.length e.events))
        { s with arbiterEnded := [], arbiterWindow := none })

end Sys2Proof.Machine
end

