-- ==== Sys2Proof/Machine/Sync.lean ====
section
/-! DEFINITION. Synchronisation between cores: core signals, the job barrier and the shared tile counters (R107 to R109, R142 to
R146). -/

namespace Sys2Proof.Machine

/-- Body bits of the target event of SIGC. -/
def mTev : Nat := maskOf 79 75

/-- The cores of a core's job. -/
def State.jobCores (s : State) (c : Nat) : List Nat :=
  match s.job? (s.core c).sq.job with
  | some j => j.cores
  | none => []

/-- Send a core signal to each target (R107). -/
def State.sendSignals (s : State) (c event : Nat) (targets : List Nat) : State :=
  { s with signals := s.signals ++ targets.map fun t => (⟨t, (s.core c).sq.job, event⟩ : CoreSignal) }

/-- SIGC with sub 0: one core signal to the core of rank C[a] (R107). -/
def execSigcRank (core : Nat) (s : State) : Host.Outcome State Fault Refusal :=
  .next (s.issue core (isRest 0x60 [1]) fun s w =>
    let q := (s.core core).sq
    let rank := (q.c (Psi.a w)).toNat
    let tev := bits w 79 75
    { mask := mA ||| mTev, codes := Psi.sub w == 0, order := inOrder,
      checks := [(q.bind tev != 4 || decide (q.ncores ≤ rank), 0x0402)],
      effect := fun s => s.sendSignals core tev (((s.jobCores core).drop rank).take 1) })

/-- SIGC with sub 1: a core signal to every other core of the job in the cluster (R107). -/
def execSigcCluster (core : Nat) (s : State) : Host.Outcome State Fault Refusal :=
  .next (s.issue core (isSub 0x60 1) fun s w =>
    let tev := bits w 79 75
    { mask := mA ||| mTev, codes := Psi.sub w == 1, order := inOrder,
      checks := [((s.core core).sq.bind tev != 4, 0x0402)],
      effect := fun s => s.sendSignals core tev ((s.jobCores core).filter fun t => t / 16 == core / 16 && t != core) })

/-- CORE_SIGNAL_ARRIVAL (R107): a signal in flight lands in the counter or the tally of its target. -/
def execCoreSignalArrival (core job event : Nat) (s : State) : Host.Outcome State Fault Refusal :=
  .next (
    if s.signals.contains ⟨core, job, event⟩ then
      { s with signals := s.signals.erase ⟨core, job, event⟩ }.signalExt job core event
    else s)

/-- A core arrives at its job's barrier; the last arrival completes the round (R81). -/
def Job.arrive (j : Job) (c : Nat) : Job :=
  if j.arrived.length + 1 < j.cores.length then { j with arrived := j.arrived ++ [c] }
  else { j with arrived := [], barrier := j.barrier + 1 }

/-- BAR (R108). -/
def execBar (core : Nat) (s : State) : Host.Outcome State Fault Refusal :=
  .next (s.issue core (isOp 0x61) fun s w =>
    let q := (s.core core).sq
    let twice := match s.job? q.job with
      | some j => j.arrived.contains core
      | none => false
    { mask := 0, codes := Psi.sub w == 0, order := inOrder,
      checks := [((q.boundTo 5).isEmpty, 0x0402), (twice, 0x0402)],
      effect := fun s => s.modJob q.job fun j => j.arrive core })

/-- BARRIER_COMPLETE (R108): a completed round signals every event of every core of the job bound to source code 5. -/
def execBarrierComplete (job : Nat) (s : State) : Host.Outcome State Fault Refusal :=
  .next (match s.job? job with
    | some j => if j.barrier = 0 then s else (s.modJob job fun j => { j with barrier := j.barrier - 1 }).signalJob job 5
    | none => s)

/-! ### Tile counters -/

/-- TCLAIM (R109): its operands are read, and the hold begins. -/
def execTclaim (core : Nat) (s : State) : Host.Outcome State Fault Refusal :=
  .next (s.issue core (isOp 0x62) fun s w =>
    let q := (s.core core).sq
    { mask := mD ||| mA ||| mB ||| mP, codes := Psi.sub w == 0, names := [Psi.p w], order := inOrder,
      checks := [(Psi.p w == 0, 0x0402)],
      hold := some ⟨(q.c (Psi.a w)).toNat, (q.c (Psi.b w)).toNat, Psi.d w, Psi.p w, none⟩ })

/-- The tile counter of a core's job (R142). -/
def State.tileOf (s : State) (c : Nat) : Option Nat := (s.job? (s.core c).sq.job).map (·.tile)

/-- The claim port applies one core's claim (R109). -/
def State.applyClaim (s : State) (tile c : Nat) : State :=
  match (s.core c).claim with
  | some h =>
    if h.old.isNone && s.tileOf c == some tile then
      let v := s.fld Reg.SEQ_TILECNT.value tile
      (s.setFld Reg.SEQ_TILECNT.value (v + h.inc) tile).modCore c fun k => { k with claim := some { h with old := some v } }
    else s
  | none => s

/-- TILE_CLAIM_APPLY (R144): the claims of one step, in ascending core number. A host write of the same step comes before, as
TILECNT_HOST_WRITE. -/
def execTileClaimApply (tile : Nat) (cores : List Nat) (s : State) : Host.Outcome State Fault Refusal :=
  .next (((List.range 256).filter fun c => cores.contains c).foldl (fun s c => s.applyClaim tile c) s)

/-- TCLAIM_RETURN (R109): the old value is back; C[d] and P[p] are written in the issue step that ends the hold. -/
def execTclaimReturn (core : Nat) (s : State) : Host.Outcome State Fault Refusal :=
  .next (
    let k := s.core core
    match k.claim, k.fetch with
    | some h, some w =>
      match h.old with
      | some v =>
        (s.modCore core fun k => { k with claim := none }).issueNow core w
          { mask := 0, order := inOrder,
            effect := fun s => s.modSq core fun q =>
              (q.setC h.d (BitVec.ofNat 32 v)).setP h.p (decide (v < h.limit)) } true
      | none => s
    | _, _ => s)

/-- TILECNT_HOST_WRITE (R144). -/
def execTilecntHostWrite (tile value : Nat) (s : State) : Host.Outcome State Fault Refusal :=
  .next (s.hostWrite (0x410000 + 4 * tile) 4 fun s => s.setFld Reg.SEQ_TILECNT.value value tile)

end Sys2Proof.Machine
end

