-- ==== Sys2Proof/Machine/Host.lean ====
section
/-! DEFINITION. Writes of the BAR0 registers (R511 to R518), the PCI Express link and the function's power state (R225, R510, R540), and
link errors between dies (R32). -/

namespace Sys2Proof.Machine

/-! ### Words with an effect of their own -/

/-- The state a meaning answers. -/
def State.applied (s : State) (o : Host.Outcome State Fault Refusal) : State :=
  match o with
  | .next t => t
  | _ => s

/-- TOP_STARTCTL, TOP_RSTCTL and TOP_SHUTCTL (Tables 20.10 and 20.11). -/
def topWord (o : Nat) : Option (Nat → State → State) :=
  if o = 0x108 then some fun v s =>
    let s := if bit v 0 then s.applied (execClearAttempts s) else s
    if bit v 1 then s.applied (execForceApron s) else s
  else if o = 0x110 then some fun v s => if bit v 0 then s.applied (execTopModuleReset s) else s
  else if o = 0x118 then some fun v s => if bit v 0 then s.beginShutdown (bit v 1) else s
  else none

/-- The words of a GROUP_DEF entry that can be written (R541): count at 8, slot words from 12 on. -/
def capWord (o : Nat) : Option (Nat → State → State) :=
  if o < 0x20000 ∨ 0x30000 ≤ o then none
  else
    let g := (o - 0x20000) / 1024
    let w := o % 1024
    if w = 8 then some fun v s => s.applied (execGroupDefine g v s)
    else if 12 ≤ w ∧ w < 1012 then some fun v s => s.stageSlots g ((w - 12) / 4) v
    else none

/-- PWR_RATECTL, PWR_TWCFG and PWR_REFITCTL (Tables 2.5, 18.6 and 18.8). -/
def pwrWord (o : Nat) : Option (Nat → State → State) :=
  if o = 0x100100 then some fun v s => s.requestRate (v % 2) (bits v 14 8)
  else if o = 0x100300 then some fun v s =>
    if bit v 31 then s.enableTailwind (bits v 15 0)
    else if s.flag Reg.PWR_TWCFG.en then s.setFld Reg.PWR_TWCFG.en 0
    else s.setFld Reg.PWR_TWCFG.grp (bits v 15 0)
  else if o = 0x100600 then some fun v s => if bit v 0 then s.startRefit else s
  else none

/-- MGT_LOGSEL and MGT_MBCTL (R458, R460). -/
def mgtWord (o : Nat) : Option (Nat → State → State) :=
  if o = 0x200018 then some fun v s => s.applied (execLogFetch v s)
  else if o = 0x200100 then some fun v s =>
    let s := if bit v 30 then s.setFld Reg.MGT_MBCTL.done 0 else s
    if bit v 29 then s.applied (execMailboxGo (bits v 12 0) s) else s.setFld Reg.MGT_MBCTL.req_len (bits v 12 0)
  else none

/-- SEQ_KVLOCK, SEQ_SERVE, SEQ_JOBCTL and SEQ_QCFG (Tables 12.12, 13.15, 13.16 and 15.6). -/
def seqWord (o : Nat) : Option (Nat → State → State) :=
  if o = 0x460038 then some fun v s => if bit v 0 then s.applied (execSeqKvlockSet s) else s
  else if 0x470100 ≤ o ∧ o < 0x470500 ∧ o % 64 = 0 then
    let i := (o - 0x470100) / 64
    some fun v s =>
      if bit v 31 then s.applied (execServeEnable i v s)
      else if s.flag Reg.SEQ_SERVE.en i then s.setFld Reg.SEQ_SERVE.en 0 i
      else s.setFld Reg.SEQ_SERVE.job (bits v 15 0) i
  else if o = 0x480010 then some fun v s => s.jobControl (bits v 17 16) (bits v 15 0)
  else if 0x500000 ≤ o ∧ o < 0x700000 ∧ o % 32 = 8 then
    let q := (o - 0x500000) / 32
    some fun v s =>
      if bit v 31 then s.applied (execQueueEnable q v s)
      else if s.qEn q then s.applied (execQueueDisable q s)
      else
        let s := s.setFld Reg.SEQ_QCFG.kind (bits v 25 24) q
        (s.setFld Reg.SEQ_QCFG.slice (bits v 21 20) q).setFld Reg.SEQ_QCFG.log2n (bits v 4 0) q
  else none

/-- FAB_EPID, FAB_PORTCTL, the bulk ring registers, FAB_RGN and FAB_GRP (Tables 16.5, 16.6, 16.11, 17.11 and 17.13). -/
def fabWord (o : Nat) : Option (Nat → State → State) :=
  if o = 0x800000 then some fun v s =>
    if bit v 31 then s.applied (execEpidValidSet (bits v 16 0) s)
    else if s.flag Reg.FAB_EPID.valid then s.applied (execEpidValidClear s)
    else if s.jobs.isEmpty then s.setFld Reg.FAB_EPID.ep (bits v 16 0)
    else s.rejectFab
  else if 0x800180 ≤ o ∧ o < 0x8001C0 then
    let p := (o - 0x800180) / 4
    some fun v s =>
      let s :=
        if bit v 0 = s.flag Reg.FAB_PORTCTL.fence p then s
        else if bit v 0 then s.applied (execPortFence p s)
        else s.applied (execPortUnfence p s)
      if bit v 1 then s.applied (execPortRetrain p s) else s
  else if o = 0x802100 then some fun v s =>
    if bit v 31 then s.applied (execFabBulkRingEnable v s)
    else if s.flag Reg.FAB_BQCFG.en ∨ bits v 3 0 < 4 ∨ 12 < bits v 3 0 then s
    else s.setFld Reg.FAB_BQCFG.log2n (bits v 3 0)
  else if o = 0x802118 then some fun v s => s.applied (execFabBqtailWrite v s)
  else if o = 0x802124 then some fun v s => s.applied (execFabBcheadWrite v s)
  else if 0x804000 ≤ o ∧ o < 0x806000 ∧ o % 32 = 0x14 then
    let i := (o - 0x804000) / 32
    some fun v s =>
      if bit v 31 then s.applied (execRegionEnable i v s)
      else if s.flag Reg.FAB_RGN.en i then s
      else
        let s := s.setFld Reg.FAB_RGN.job (bits v 15 0) i
        (s.setFld Reg.FAB_RGN.kind (bits v 17 16) i).setFld Reg.FAB_RGN.rights (bits v 27 24) i
  else if 0x880000 ≤ o ∧ o < 0x900000 ∧ o % 8 = 4 then
    some fun v s => s.applied (execGroupEntryWrite ((o - 0x880000) / 8) (v * 2 ^ 32) s)
  else none

/-- XE_XCFG (Table 14.4). -/
def xeWord (o : Nat) : Option (Nat → State → State) :=
  if 0xC00000 ≤ o ∧ o < 0xC00400 ∧ o % 64 = 0 then
    let x := (o - 0xC00000) / 64
    some fun v s =>
      if bit v 31 then s.applied (execXeContextOpen x v s)
      else if s.flag Reg.XE_XCFG.en x then s.applied (execXeContextClose x s)
      else s.setFld Reg.XE_XCFG.job (bits v 15 0) x
  else none

/-- MEM_LOCK, MEM_FLUSH, MEM_T2MAP and MEM_LEND (Tables 10.3, 10.8 and 10.9). -/
def memWord (o : Nat) : Option (Nat → State → State) :=
  if o = 0x1000004 then some fun v s => if bit v 0 then s.applied (execMemLockSet s) else s
  else if o = 0x100000C then some fun v s => if bit v 0 then s.applied (execMemFlushStart s) else s
  else if 0x1002000 ≤ o ∧ o < 0x1002400 ∧ o % 64 = 0x24 then
    let i := (o - 0x1002000) / 64
    some fun v s =>
      if bits v 31 30 = 1 then s.applied (execT2mapActivate i (bits v 16 0) s)
      else if bits v 31 30 ≠ 0 then s
      else if s.fld Reg.MEM_T2MAP.state i = 0 then s.setFld Reg.MEM_T2MAP.ep (bits v 16 0) i
      else s.applied (execT2mapRelease i s)
  else if 0x1003000 ≤ o ∧ o < 0x1003400 ∧ o % 64 = 0x24 then
    let i := (o - 0x1003000) / 64
    some fun v s =>
      let s := if bit v 1 then s.applied (execLendActivate i s) else s
      if bit v 0 then s.applied (execLendRecall i s) else s
  else none

/-- NVS_LOCK, the ring registers, the state words of NVS_GEN and NVS_GENACT (Tables 11.6 and 11.7). -/
def nvsWord (o : Nat) : Option (Nat → State → State) :=
  if o = 0x1400004 then some fun v s => if bit v 0 then s.applied (execNvsLockSet s) else s
  else if o = 0x1400008 then some fun v s =>
    if bit v 31 then s.applied (execNvsRingEnable v s)
    else if s.flag Reg.NVS_RINGCFG.en ∨ bits v 3 0 < 4 ∨ 12 < bits v 3 0 then s
    else s.setFld Reg.NVS_RINGCFG.log2n (bits v 3 0)
  else if o = 0x1400020 then some fun v s => s.applied (execNvsCmdtailWrite v s)
  else if o = 0x140002C then some fun v s => s.applied (execNvsCplheadWrite v s)
  else if o = 0x1400114 ∨ o = 0x1400134 then
    let i := (o - 0x1400114) / 32
    some fun v s =>
      let old := s.genState i
      match v % 4 with
      | 0 => s.applied (execGenSetEmpty i (bit v 2) s)
      | 1 => s.applied (execGenSetLoading i (bit v 2) s)
      | 2 =>
        let t := s.applied (execGenSetReady i s)
        if old = 1 ∧ t.genState i = 2 then t.setFlag Reg.NVS_GEN.kv_keep (bit v 2) i else t
      | _ => if old = 3 then s else s.rejectGen
  else if o = 0x1400140 then some fun v s => s.applied (execGenactWrite (v % 2) s)
  else none

/-- UNIT_CTRL and UNIT_EVT of the slots that hold a unit (R53, R55). -/
def unitWrite (o : Nat) : Option (Nat → State → State) :=
  if o < 0x2000000 ∨ 0x2020000 ≤ o then none
  else
    let slot := (o - 0x2000000) / 256
    if o % 256 = 0x14 then some fun v s => s.writeCtrl ⟨slot, bit v 0, bit v 1, bit v 2⟩
    else if o % 256 = 0x18 then some fun v s => s.applied (execUnitEvtClear slot v s)
    else none

/-- The effect of a 4-byte word of BAR0 that is not the plain storing of its fields; none for every other word. -/
def actionWord (o : Nat) : Option (Nat → State → State) :=
  match blockOf o with
  | 0 => topWord o
  | 1 => capWord o
  | 2 => pwrWord o
  | 3 => mgtWord o
  | 4 => seqWord o
  | 5 => fabWord o
  | 6 => xeWord o
  | 7 => memWord o
  | 8 => nvsWord o
  | 9 => unitWrite o
  | _ => none

/-! ### Fields that are stored (R13, R517, R518) -/

/-- The lock that covers an RWL field (Table 22.14). -/
def lockFor (f : Field) : Field :=
  if f.offset < 0x800000 then Reg.SEQ_KVLOCK.lock else if f.offset < 0x1400000 then Reg.MEM_LOCK.lock else Reg.NVS_LOCK.lock

/-- A value lies in a range. -/
def within (lo v hi : Nat) : Bool := decide (lo ≤ v) && decide (v ≤ hi)

/-- The range a rule gives a field, outside which a write is discarded (R207, R218, R300, R350 and the register tables of chapters 15 to
21). -/
def State.legalValue (s : State) (f : Field) (i v : Nat) : Bool :=
  if f = Reg.MEM_T1ZONE.local_ then decide (v % 3 = 0) && within 0 v 141
  else if f = Reg.MEM_BAR4BASE.base then decide (v * 2 ^ 21 + 2 ^ 30 ≤ 576 * 2 ^ 30)
  else if f = Reg.MEM_STALLTO.timeout_us then within 10 v 1000000
  else if f = Reg.SEQ_KVCFG.layers then within 1 v 16
  else if f = Reg.SEQ_KVCFG.defer_max then within 1 v 255
  else if f = Reg.SEQ_SCHEDCFG.quantum_ms then within 1 v 1000
  else if f = Reg.XE_XCFG.experts then within 2 v 256
  else if f = Reg.XE_XCFG.nsrc then within 1 v 256
  else if f = Reg.XE_XCFG.k then within 1 v 4 && decide (v ≤ s.fld Reg.XE_XCFG.experts i)
  else if f = Reg.XE_XCFG.cap_src then within 1 v 256
  else if f = Reg.XE_XCFG.ret_row || f = Reg.XE_XCFG.send_row then within 1 v 4096
  else if f = Reg.XE_XCFG.nbuf then within 1 v 2
  else if f = Reg.XE_XCFG.to_us then within 100 v 1000000
  else if f = Reg.FAB_DOMAIN.count then within 1 v 144
  else if f = Reg.FAB_REGION.count then within 1 v 8192
  else if f = Reg.FAB_ARCFG.warm then within 1 v 255
  else if f = Reg.FAB_ARCFG.min_planes then within 1 v 16
  else if f = Reg.FAB_RTOCFG.tries then within 2 v 8
  else if f = Reg.FAB_RTOCFG.attempt_us then within 5 v 1000
  else if f = Reg.FAB_ACCTO.accept_us then within 100 v 1100000
  else if f = Reg.FAB_GWTO.gw_us then within 50 v 1000000
  else if f = Reg.FAB_LULLWIN.window_ms then within 1 v 1000
  else if f = Reg.PWR_TWCFG.slack_pct then within 1 v 90
  else if f = Reg.PWR_TWCFG.floor_w then within 400 v 2200
  else if f = Reg.PWR_THCFG.throttle_c then within 60 v 100
  else if f = Reg.PWR_REFITCFG.target_rate then within 50 v 110
  else if f = Reg.PWR_REFITCFG.warn then within 1 v 127
  else if f = Reg.PWR_REFITCFG.period_h then within 1 v 720
  else if f = Reg.TST_CFG.total_s then within 1 v 300
  else if f = Reg.TST_CFG.slice_ms then within 10 v 2000
  else if f = Reg.UNIT_FAULT.cause then v == 0
  else true

/-- A field may be written in the state of its register (R245, R257, R303, R332, R350, R378, R404, R438, R509, Table 10.9). -/
def State.mayWrite (s : State) (f : Field) (i v : Nat) : Bool :=
  let o := f.offset
  if f = Reg.SEQ_QCFG.base || f = Reg.SEQ_QCFG.cplq then !s.qEn i
  else if 0x470100 ≤ o ∧ o < 0x470140 then !s.flag Reg.SEQ_SERVE.en i
  else if 0xC00000 ≤ o ∧ o < 0xC00040 then !s.flag Reg.XE_XCFG.en i
  else if 0xC10000 ≤ o ∧ o < 0xC10004 then !s.flag Reg.XE_XCFG.en (i / 256)
  else if 0xC20000 ≤ o ∧ o < 0xC20010 then !s.flag Reg.XE_XCFG.en (i / 16)
  else if 0x800008 ≤ o ∧ o < 0x80001C then !s.flag Reg.FAB_EPID.valid
  else if o = 0x802108 ∨ o = 0x802110 then !s.flag Reg.FAB_BQCFG.en
  else if 0x802300 ≤ o ∧ o < 0x80230C then s.jobs.isEmpty
  else if 0x804000 ≤ o ∧ o < 0x804020 then !s.flag Reg.FAB_RGN.en i
  else if 0x100304 ≤ o ∧ o < 0x10030C then !s.flag Reg.PWR_TWCFG.en
  else if o = 0x1400010 ∨ o = 0x1400018 then !s.flag Reg.NVS_RINGCFG.en
  else if 0x1400100 ≤ o ∧ o < 0x1400114 then s.genState i == 0
  else if 0x1002000 ≤ o ∧ o < 0x1002024 then s.fld Reg.MEM_T2MAP.state i == 0
  else if f = Reg.MEM_LEND.lease_end then
    s.fld Reg.MEM_LEND.state i == 0 || (s.fld Reg.MEM_LEND.state i == 1 && decide (s.fld Reg.MEM_LEND.lease_end i < v))
  else true

/-- Writing 1 to a W1C bit: the sat bit of a counter takes its count along (R502), the valid bit of TOP_FAULT and TOP_ACCERR its register
(Tables 21.5 and 22.5). -/
def State.clearBit (s : State) (f : Field) (i : Nat) : State :=
  if f.low = 48 then (s.setFld f 0 i).setFld { f with low := 0, width := 48, access := .ro } 0 i
  else if f = Reg.TOP_ACCERR.valid then
    s.clearFlds [Reg.TOP_ACCERR.offset, Reg.TOP_ACCERR.write, Reg.TOP_ACCERR.bytes, Reg.TOP_ACCERR.kind, Reg.TOP_ACCERR.valid]
  else if f = Reg.TOP_FAULT.valid then
    s.clearFlds [Reg.TOP_FAULT.cause, Reg.TOP_FAULT.slot, Reg.TOP_FAULT.cls, Reg.TOP_FAULT.gsc_lo, Reg.TOP_FAULT.valid]
  else s.setFld f 0 i

/-- A field takes its part of a write as its access code gives (R13); `offset` and `bytes` are the write's. -/
def State.writeField (s : State) (offset bytes : Nat) (f : Field) (i v : Nat) : State :=
  let store (s : State) : State := if s.legalValue f i v && s.mayWrite f i v then s.setFld f v i else s
  match f.access with
  | .ro | .rstRo | .wo => s
  | .w1c | .rstW1c => if v = 0 then s else s.clearBit f i
  | .rwl => if s.flag (lockFor f) then s.latchAccess 3 offset bytes else store s
  | .rw | .rstRw => store s

/-- A write to the field has an effect: it is not read-only. -/
def Field.writable (f : Field) : Bool := f.access != .ro && f.access != .rstRo

/-- What follows a write of registers that others are computed from: the latched fields of SEQ_NUMFLAG (R159), the ledgers' free counts,
and the test budgets in the persistence area (R488). -/
def State.afterWrite (s : State) (offset : Nat) : State :=
  if 0x420000 ≤ offset ∧ offset < 0x422000 then s.releaseNumeric ((offset - 0x420000) / 32)
  else if 0x460000 ≤ offset ∧ offset < 0x460300 then (List.range 16).foldl State.showLedger s
  else if offset < 0x3000000 ∨ 0x3000008 ≤ offset then s
  else s.modPersist fun p => { p with totalS := s.fld Reg.TST_CFG.total_s, sliceMs := s.fld Reg.TST_CFG.slice_ms }

/-- The 4-byte word at offset `o` of a write of `v` at `offset`. -/
def wordOf (offset v o : Nat) : Nat := v / 2 ^ (8 * (o - offset)) % 2 ^ 32

/-- A write carries a log2n of SEQ_QCFG outside 4 to 16: it is discarded whole (R303). -/
def badQueueWrite (offset bytes v : Nat) : Bool :=
  decide (0x500000 ≤ offset) && decide (offset < 0x700000) && offset % 32 == 8 && !within 4 (bits v 4 0) 16 && decide (4 ≤ bytes)

/-- The offset lies in the UCB of a slot that holds no unit (R48). -/
def emptyUnit (offset : Nat) : Bool :=
  decide (0x2000000 ≤ offset) && decide (offset < 0x3000000) && !slotHolds ((offset - 0x2000000) / 256)

/-- A field that a write sets as its access code gives. -/
def Field.stored (f : Field) : Bool := f.access == .rw || f.access == .rstRw || f.access == .rwl

/-- The field is one of those a write covers with a value outside its range: the write to its register is discarded whole (Tables 16.8, 17.10,
18.6 and 18.8, R488). -/
def State.spoils (s : State) (offset bytes v : Nat) (x y : Field × Nat) : Bool :=
  let k := y.1.key y.2
  x.1.offset + x.1.stride * x.2 == y.1.offset + y.1.stride * y.2 && decide (8 * offset ≤ k) && decide (k + y.1.width ≤ 8 * (offset + bytes)) &&
    y.1.stored && !s.legalValue y.1 y.2 (v / 2 ^ (k - 8 * offset) % y.1.size)

/-- A legal write of 4 or 8 bytes (R512, R514): the fields wholly inside it take their values as their access codes give, a field that extends
beyond it stays as it is and the access is latched, and then the words with an effect of their own act, the higher one first. -/
def State.applyWrite (s : State) (offset bytes v : Nat) : State :=
  if 0x201000 ≤ offset ∧ offset < 0x202000 then
    if s.flag Reg.MGT_MBCTL.busy then s else { s with mbReq := writeBytes s.mbReq (offset - 0x201000) (toBytes bytes v) }
  else if badQueueWrite offset bytes v || emptyUnit offset then s
  else
    let parts := (blockFields (blockOf offset)).flatMap fun f =>
      if f.writable then (f.hits offset bytes).map fun i => (f, i) else []
    let s := parts.foldl (fun s x =>
      let k := x.1.key x.2
      if k < 8 * offset ∨ 8 * (offset + bytes) < k + x.1.width then s.latchAccess 2 offset bytes
      else if (actionWord (k / 32 * 4)).isSome then s
      else if x.1.stored && parts.any (s.spoils offset bytes v x) && !(x.1.access == .rwl && s.flag (lockFor x.1)) then s
      else s.writeField offset bytes x.1 x.2 (v / 2 ^ (k - 8 * offset) % x.1.size)) s
    let act (s : State) (o : Nat) : State := match actionWord o with
      | some g => g (wordOf offset v o) s
      | none => s
    let s := if bytes = 8 then act s (offset + 4) else s
    (act s offset).afterWrite offset

/-- A latch that the write has just filled names the write itself (R515). -/
def relabel (s t : State) (offset bytes : Nat) : State :=
  if !s.flag Reg.TOP_ACCERR.valid && t.flag Reg.TOP_ACCERR.valid then
    (t.setFld Reg.TOP_ACCERR.offset offset).setFld Reg.TOP_ACCERR.bytes bytes
  else t

/-- REGISTER_WRITE (R13, R511 to R515): a write of `bytes` bytes at a BAR0 offset. One that does not reach the module changes nothing. -/
def execRegisterWrite (offset bytes value : Nat) (s : State) : Host.Outcome State Fault Refusal :=
  .next (
    if 2 ^ 26 ≤ offset then s
    else s.hostWrite offset bytes fun s =>
      if (bytes = 4 ∧ offset % 4 = 0) ∨ (bytes = 8 ∧ offset % 8 = 0) then relabel s (s.applyWrite offset bytes value) offset bytes
      else s.latchAccess 2 offset bytes)

/-- The counter at an offset of BAR0: its sat field and instance. -/
def counterAt (offset : Nat) : Option (Field × Nat) :=
  ((blockFields (blockOf offset)).flatMap fun f => if f.low = 48 ∧ f.access = .w1c then (f.hits offset 8).map fun i => (f, i) else []).find?
    fun x => x.1.offset + x.1.stride * x.2 == offset

/-- COUNTER_SAT_CLEAR (R502): a write of 1 to the sat field of the counter at an offset clears sat and count. -/
def execCounterSatClear (counter : Nat) (s : State) : Host.Outcome State Fault Refusal :=
  .next (match counterAt counter with
    | some x => if emptyUnit counter then s else s.hostWrite counter 8 fun s => s.clearBit x.1 x.2
    | none => s)

/-! ### The PCI Express function (R225, R510, R540) -/

/-- PCIE_LINK_UP (R540): the link has trained, and PCIE reports the negotiated width and speed. It trains once PERST_N is high and the start has begun. -/
def execPcieLinkUp (width speed : Nat) (s : State) : Host.Outcome State Fault Refusal :=
  .next (if s.perst || s.pcieUp || s.fld Reg.TOP_STARTSTAT.stage == 0 || width == 0 || decide (16 < width) || speed == 0 || decide (6 < speed) then s
    else { s with pcieUp := true, pcieWidth := width, pcieSpeed := speed })

/-- PCIE_LINK_DOWN (R225, R524, R540): T3 fails, and the capability reads 0. -/
def execPcieLinkDown (s : State) : Host.Outcome State Fault Refusal :=
  .next (if s.pcieUp then { s with pcieUp := false, pcieWidth := 0, pcieSpeed := 0 }.failT3 else s)

/-- POWER_MANAGEMENT_STATE_WRITE (R510): a configuration write to the Power Management capability, D0 or D3hot. Compute goes on. Until
stage 1 completes it gets Request Retry Status and changes nothing (R476). -/
def execPowerManagementStateWrite (hot : Bool) (s : State) : Host.Outcome State Fault Refusal :=
  .next (if s.pcieUp && !s.perst && decide (2 ≤ s.fld Reg.TOP_STARTSTAT.stage) then { s with d3hot := hot } else s)

/-! ### Die-to-die links (R32) -/

/-- A channel carries a symbol: exactly one of its four wires is high. -/
def symbol (wires : Nat) : Bool := wires == 1 || wires == 2 || wires == 4 || wires == 8

/-- The symbols of the 8 CRC channels of a beat, two bits of its CRC to a channel (R32). -/
def crcSymbols (payload : List Nat) : List Nat := (List.range 8).map fun i => 2 ^ (Config.linkCrc payload / 4 ^ i % 4)

/-- A link error (R32): a symbol with more than one wire high, a beat that fails its CRC, or a spacer that does not return. -/
def badBeat (b : DieBeat) : Bool :=
  !(b.payload ++ b.crc).all symbol || decide (crcSymbols b.payload ≠ b.crc) || !b.spacer

/-- The withheld beat of a link direction, with the replays of it that have failed. -/
def State.holdBeat (s : State) (k held fails : Nat) : State :=
  { s with linkHeld := Table.set 0 s.linkHeld k held, linkFails := Table.set 0 s.linkFails k fails }

/-- DIE_LINK_BEAT_ERROR (R32, Table 21.1): the receiver checks a beat of a link direction. A bad one is counted and its acknowledge
withheld, and the sender replays it from its buffer; the eighth failed replay of one beat in a row fails the link, which is a fault of class
M. A good one is acknowledged, and ends the withholding where it is the beat withheld. -/
def execDieLinkBeatError (link dir : Nat) (beat : DieBeat) (s : State) : Host.Outcome State Fault Refusal :=
  .next (
    let k := 2 * link + dir
    let again := Table.get 0 s.linkHeld k == beat.place + 1
    if 23 ≤ link ∨ 2 ≤ dir ∨ Table.get false s.linkDown k then s
    else if !badBeat beat then (if again then s.holdBeat k 0 0 else s)
    else
      let n := if again then Table.get 0 s.linkFails k + 1 else 0
      let s := { s with linkErrors := Table.modify 0 s.linkErrors k (· + 1) }.holdBeat k (beat.place + 1) n
      if n < 8 then s.emit (.dieReplay link dir beat.place)
      else { s with linkDown := Table.set false s.linkDown k true }.moduleFault 0x0101 (.unit (linkSlot link dir)) [link, dir])

end Sys2Proof.Machine
end

