-- ==== Sys2Proof/Machine/Vrw.lean ====
section
/-! DEFINITION. The vector row: the VRW instructions and their completion (chapters 05, 07 and 09). -/

namespace Sys2Proof.Machine

/-! ### Fields and shapes (Table 5.8) -/

/-- Field func, bits [75:72]. -/
def Psi.func (w : Nat) : Nat := bits w 75 72

/-- The format of an fmt code. -/
def vFmt (fmt : Nat) : FpFormat := if fmt = 0 then fp8 else if fmt = 1 then bf16 else fp32

/-- Elements of a step of the whole row, 512 e (Table 9.2). -/
def vRow (fmt : Nat) : Nat := if fmt = 0 then 4096 else if fmt = 1 then 1024 else 256

/-- Elements a logical lane takes at once: 8, 2, or one per pair of steps (R188). -/
def vLane (fmt : Nat) : Nat := if fmt = 0 then 8 else if fmt = 1 then 2 else 1

/-- Bytes of an element of a VCVT format code (Table 5.8). -/
def cvtBytes (code : Nat) : Nat := if code ≤ 1 then 1 else if code = 2 then 2 else 4

/-- The operation takes the broadcast scalar (R190). -/
def VrwOp.scalar (o : VrwOp) : Bool :=
  (o.op == 0x31 && (o.func == 0 || o.func == 1 || o.func == 7)) || (o.op == 0x33 && o.func == 0) || decide (0x34 ≤ o.op)

/-- The operation reads operand c. -/
def VrwOp.usesC (o : VrwOp) : Bool :=
  (o.op == 0x31 && (o.func == 0 || (decide (2 ≤ o.func) && decide (o.func ≤ 6)))) || o.op == 0x35

/-- Bytes of one element of operand a. -/
def VrwOp.size (o : VrwOp) : Nat := if o.op = 0x37 then cvtBytes o.src else (vFmt o.fmt).bytes

/-- Bytes of operand a (R188, R189). -/
def VrwOp.aBytes (o : VrwOp) : Nat := (if o.op = 0x30 then 512 * o.n else o.n) * o.size

/-- Bytes of operand c; none where it is not read. -/
def VrwOp.cBytes (o : VrwOp) : Nat := if !o.usesC then 0 else if o.op = 0x35 then o.n else o.n * o.size

/-- Bytes read at A[b]: the vector of VMAC, or a scalar that does not come from imm32 (R190). -/
def VrwOp.bBytes (o : VrwOp) : Nat := if o.op = 0x30 then o.n * o.size else if o.scalar && !o.bimm then 4 else 0

/-- Bytes of the result; none for VTEST. -/
def VrwOp.dBytes (o : VrwOp) : Nat :=
  match o.op with
  | 0x30 => 2048
  | 0x32 => 4
  | 0x34 => o.n
  | 0x36 => 0
  | 0x37 => o.n * cvtBytes o.dst
  | _ => o.n * o.size

/-- Cost in VRW steps (Table 5.9). -/
def VrwOp.cost (o : VrwOp) : Nat :=
  match o.op with
  | 0x30 => if o.fmt = 0 then ceilDiv o.n 8 else if o.fmt = 1 then ceilDiv o.n 2 else 2 * o.n
  | 0x32 => ceilDiv o.n (vRow o.fmt) + 12
  | 0x33 => ceilDiv o.n 512
  | 0x36 => ceilDiv o.n (vRow o.fmt) + 12
  | 0x37 => ceilDiv o.n 512
  | _ => ceilDiv o.n (vRow o.fmt)

/-- The count has the form its operation requires (Table 5.9). -/
def VrwOp.countOk (o : VrwOp) : Bool :=
  o.n != 0 && (if o.op = 0x30 then o.n % vLane o.fmt == 0 else o.n % 512 == 0)

/-! ### The checks at issue (R114, R542) -/

/-- An operand of `n` bytes that is read or written breaks a test. -/
def used (n : Nat) (b : Bool) : Bool := n != 0 && b

/-- The result shares a byte with a range and is not exactly that range. -/
def VrwOp.clashes (o : VrwOp) (a n : Nat) : Bool := overlap o.d o.dBytes a n && !(o.d == a && o.dBytes == n)

/-- The conditions of R114 and R190 with their causes, in the order of R542. The alignment of an operand that the operation names is tested
whatever the count is. -/
def VrwOp.checks (o : VrwOp) : List (Bool × Nat) :=
  [((o.op != 0x36 && o.d % 64 != 0) || o.a % 64 != 0 || (o.usesC && o.c % 64 != 0) || (o.op == 0x30 && o.b % 64 != 0) ||
      (o.scalar && !o.bimm && o.b % 4 != 0), 0x0404),
   (!o.countOk || decide (16384 < o.cost) || (o.op == 0x36 && o.pdst == 0) || (o.op == 0x37 && o.fmt != 0) ||
      (!o.scalar && (o.bimm || o.imm != 0)), 0x0402),
   (used o.dBytes (outsideScratch o.d) || outsideScratch o.a || used o.cBytes (outsideScratch o.c) ||
      used o.bBytes (outsideScratch o.b), 0x0403),
   (used o.dBytes (pastScratch o.d o.dBytes) || pastScratch o.a o.aBytes || used o.cBytes (pastScratch o.c o.cBytes) ||
      used o.bBytes (pastScratch o.b o.bBytes), 0x0409),
   (used o.dBytes (used o.bBytes (overlap o.d o.dBytes o.b o.bBytes) || o.clashes o.a o.aBytes ||
      used o.cBytes (o.clashes o.c o.cBytes)), 0x0402)]

/-- The operation a word issues, with the values its registers hold. -/
def State.vrwOp (s : State) (c w : Nat) : VrwOp :=
  { index := (s.core c).sq.pc, op := Psi.op w, func := Psi.func w, fmt := bits w 97 96, d := s.addr c (Psi.d w),
    a := s.addr c (Psi.a w), c := s.addr c (Psi.b w), b := s.addr c (Psi.f80 w), n := s.cnt c (Psi.f76 w), cond := bits w 71 69,
    bimm := bit w 68, imm := bits w 63 32, pdst := bits w 67 65, mode := bit w 64, src := bits w 31 28, dst := bits w 27 24,
    signal := Psi.signal w }

/-- One step of the SQ that belongs to a VRW instruction with functions 0 to `last`. -/
def State.issueVrw (s : State) (core : Nat) (mine : Nat → Bool) (last : Nat) : Host.Outcome State Fault Refusal :=
  .next (s.issue core mine fun s w =>
    let o := s.vrwOp core w
    let test := o.op == 0x36
    { mask := maskOf 95 24,
      codes := decide (Psi.sub w < 3) && decide (o.func ≤ last) && decide (o.cond ≤ 5) && decide (o.src ≤ 3) && decide (o.dst ≤ 3),
      names := if test then [o.pdst] else [],
      full := decide (4 ≤ (s.core core).vrw.length), atIssue := false, order := inOrder, checks := o.checks,
      effect := fun s => s.modCore core fun k =>
        { k with vrw := k.vrw ++ [o], predPending := if test then k.predPending ++ [o.pdst] else k.predPending } })

/-- The word has major opcode `op` and function code `func`. -/
def isFunc (op func : Nat) (w : Nat) : Bool := Psi.op w == op && Psi.func w == func

/-- The word has major opcode `op` and a function code no other row of that opcode takes. -/
def isFuncRest (op last : Nat) (w : Nat) : Bool := Psi.op w == op && (Psi.func w == 0 || decide (last < Psi.func w))

/-- VMAC: lane-major multiply-accumulate over D. -/
def execVmac (core : Nat) (s : State) : Host.Outcome State Fault Refusal := s.issueVrw core (isOp 0x30) 0
/-- VEW FMA: a × s + c. -/
def execVewFma (core : Nat) (s : State) : Host.Outcome State Fault Refusal := s.issueVrw core (isFuncRest 0x31 7) 7
/-- VEW MUL: a × s. -/
def execVewMul (core : Nat) (s : State) : Host.Outcome State Fault Refusal := s.issueVrw core (isFunc 0x31 1) 7
/-- VEW ADD: a + c. -/
def execVewAdd (core : Nat) (s : State) : Host.Outcome State Fault Refusal := s.issueVrw core (isFunc 0x31 2) 7
/-- VEW SUB: a − c. -/
def execVewSub (core : Nat) (s : State) : Host.Outcome State Fault Refusal := s.issueVrw core (isFunc 0x31 3) 7
/-- VEW MAX. -/
def execVewMax (core : Nat) (s : State) : Host.Outcome State Fault Refusal := s.issueVrw core (isFunc 0x31 4) 7
/-- VEW MIN. -/
def execVewMin (core : Nat) (s : State) : Host.Outcome State Fault Refusal := s.issueVrw core (isFunc 0x31 5) 7
/-- VEW MULV: a × c. -/
def execVewMulv (core : Nat) (s : State) : Host.Outcome State Fault Refusal := s.issueVrw core (isFunc 0x31 6) 7
/-- VEW ADDS: a + s. -/
def execVewAdds (core : Nat) (s : State) : Host.Outcome State Fault Refusal := s.issueVrw core (isFunc 0x31 7) 7
/-- VRED MAX. -/
def execVredMax (core : Nat) (s : State) : Host.Outcome State Fault Refusal := s.issueVrw core (isFuncRest 0x32 2) 2
/-- VRED SUM. -/
def execVredSum (core : Nat) (s : State) : Host.Outcome State Fault Refusal := s.issueVrw core (isFunc 0x32 1) 2
/-- VRED SUMSQ. -/
def execVredSumsq (core : Nat) (s : State) : Host.Outcome State Fault Refusal := s.issueVrw core (isFunc 0x32 2) 2
/-- VEXP EXP: exp(a − s). -/
def execVexpExp (core : Nat) (s : State) : Host.Outcome State Fault Refusal := s.issueVrw core (isFuncRest 0x33 2) 2
/-- VEXP RCP: 1 ÷ a. -/
def execVexpRcp (core : Nat) (s : State) : Host.Outcome State Fault Refusal := s.issueVrw core (isFunc 0x33 1) 2
/-- VEXP RSQRT: 1 ÷ √a. -/
def execVexpRsqrt (core : Nat) (s : State) : Host.Outcome State Fault Refusal := s.issueVrw core (isFunc 0x33 2) 2
/-- VCMP: one byte per element, a cond s. -/
def execVcmp (core : Nat) (s : State) : Host.Outcome State Fault Refusal := s.issueVrw core (isOp 0x34) 0
/-- VSEL: a where the mask byte is not zero, s elsewhere. -/
def execVsel (core : Nat) (s : State) : Host.Outcome State Fault Refusal := s.issueVrw core (isOp 0x35) 0
/-- VTEST: any or all of a cond s, into P[pdst]. -/
def execVtest (core : Nat) (s : State) : Host.Outcome State Fault Refusal := s.issueVrw core (isOp 0x36) 0
/-- VCVT: a × s from format src to format dst. -/
def execVcvt (core : Nat) (s : State) : Host.Outcome State Fault Refusal := s.issueVrw core (isOp 0x37) 0

/-! ### The arithmetic (R192 to R198) -/

/-- The comparison codes of Table 5.8; a NaN is unequal to everything and in no other relation (R197). -/
def condFp (cond : Nat) (x y : Fp) : Bool :=
  match cond with
  | 0 => Fp.eq x y
  | 1 => !Fp.eq x y
  | 2 => Fp.lt x y
  | 3 => !x.isNan && !y.isNan && !Fp.lt x y
  | 4 => Fp.lt y x
  | _ => !x.isNan && !y.isNan && !Fp.lt y x

/-- The exact value of a VEW function (Table 5.9, R193). -/
def vewValue (func : Nat) (a c s : Fp) : Fp :=
  match func with
  | 0 => Fp.add (Fp.mul a s) c
  | 1 => Fp.mul a s
  | 2 => Fp.add a c
  | 3 => Fp.add a c.neg
  | 4 => Fp.max a c
  | 5 => Fp.min a c
  | 6 => Fp.mul a c
  | _ => Fp.add a s

/-- 1 ÷ x in a format (Table 9.3). -/
def rcpIn (f : FpFormat) (x : Fp) : Fp × NumEvents :=
  match x with
  | .nan => roundTo f .nan
  | .inf neg => (.fin neg 0 f.qmin, .none)
  | .fin neg m e =>
    if m = 0 then (f.largest neg, ⟨1, 0, 0⟩)
    else
      let got := recipMag m e
      let r := got.1
      let q := got.2.1
      let sticky := got.2.2
      roundTo f (.fin neg r q) sticky

/-- 1 ÷ √x in a format (Table 9.3, R196). -/
def rsqrtIn (f : FpFormat) (x : Fp) : Fp × NumEvents :=
  match x with
  | .nan => roundTo f .nan
  | .inf neg => (.fin false 0 f.qmin, if neg then ⟨0, 0, 1⟩ else .none)
  | .fin neg m e =>
    if m = 0 then (f.largest neg, ⟨1, 0, 0⟩)
    else if neg then (.fin false 0 f.qmin, ⟨0, 0, 1⟩)
    else
      let got := rsqrtMag m e
      let r := got.1
      let q := got.2.1
      let sticky := got.2.2
      roundTo f (.fin false r q) sticky

/-- A finite number. -/
def Fp.isFin : Fp → Bool
  | .fin .. => true
  | _ => false

/-- A zero. -/
def Fp.isZero : Fp → Bool
  | .fin _ 0 _ => true
  | _ => false

/-- exp(a − s) in a format: the difference is rounded to FP32, the exponential once to the format; a zero from a finite x is an underflow
(R195). -/
def expIn (f : FpFormat) (a s : Fp) : Fp × NumEvents :=
  let got := roundInternal fp32 (Fp.add a s.neg)
  let x := got.1
  let e₁ := got.2
  let got := expValue x
  let v := got.1
  let sticky := got.2
  let got := roundTo f v sticky
  let r := got.1
  let e₂ := got.2
  let e₃ : NumEvents := if x.isFin && r.isZero then ⟨0, 1, 0⟩ else .none
  (r, (e₁.add e₂).add e₃)

/-- The value written for one element of an operation that writes elements in fmt: VEW, VEXP and VSEL. -/
def VrwOp.element (o : VrwOp) (a c s : Fp) (mask : Nat) : Fp × NumEvents :=
  let f := vFmt o.fmt
  match o.op with
  | 0x31 => roundTo f (vewValue o.func a c s)
  | 0x33 => if o.func = 0 then expIn f a s else if o.func = 1 then rcpIn f a else rsqrtIn f a
  | _ => if mask ≠ 0 then roundTo f a else roundTo f s

/-- What one logical lane takes in step (or pair of steps) `u`: elements 512 e u + e l on (R188, R189). -/
def laneSlice (fmt l u : Nat) (els : List Fp) : List Fp := (els.drop (512 * vLane fmt * u + vLane fmt * l)).take (vLane fmt)

/-- Accumulate over the steps of one lane, one rounding per step that brings something (R192, R194). -/
def laneSum (steps : List (List Fp)) (start : Fp) : Fp × NumEvents :=
  steps.foldl (fun acc xs =>
    if xs.isEmpty then acc
    else
      let got := roundInternal fp32 (Fp.add acc.1 (Fp.sum xs))
      let v := got.1
      let e := got.2
      (v, acc.2.add e)) (start, NumEvents.none)

/-- The values of lane `l` of a reduction, by step. -/
def VrwOp.laneSteps (o : VrwOp) (els : List Fp) (l : Nat) : List (List Fp) :=
  (List.range (ceilDiv o.n (512 * vLane o.fmt))).map fun u => laneSlice o.fmt l u els

/-- VRED: the partials of the 512 lanes, then a tree of 9 levels (R194). -/
def VrwOp.reduce (o : VrwOp) (els : List Fp) : Fp × NumEvents :=
  let lane (l : Nat) : Fp × NumEvents :=
    match o.func with
    | 0 => (((o.laneSteps els l).flatten).foldl Fp.max (.inf true), .none)
    | 1 => laneSum (o.laneSteps els l) (.fin false 0 0)
    | _ => laneSum (o.laneSteps (els.map fun x => Fp.mul x x) l) (.fin false 0 0)
  tree (if o.func = 0 then Fp.max else Fp.add) 9 ((List.range 512).map lane)

/-- VMAC: one accumulator per lane over the steps of D (R192). -/
def VrwOp.multiply (o : VrwOp) (a b old : List Fp) : List (Fp × NumEvents) :=
  let e := vLane o.fmt
  (List.range 512).map fun l =>
    let products := (List.range (ceilDiv o.n e)).map fun u =>
      List.zipWith Fp.mul (laneSlice o.fmt l u a) ((b.drop (e * u)).take e)
    laneSum products (if o.mode then old.getD l (.fin false 0 0) else .fin false 0 0)

/-- One element of VCVT: a × s exactly, rounded once to the destination (R157). -/
def cvtElement (dst : Nat) (a s : Fp) : Nat × NumEvents :=
  let v := Fp.mul a s
  match dst with
  | 0 => narrowInt8 v
  | 1 => ((encodeFp fp8 (narrow fp8 v).1), (narrow fp8 v).2)
  | 2 => ((encodeFp bf16 (narrow bf16 v).1), (narrow bf16 v).2)
  | _ => ((encodeFp fp32 (roundInternal fp32 v).1), (roundInternal fp32 v).2)

/-- The source elements of a VCVT format code (Table 5.8). -/
def cvtElems (src n : Nat) (bs : List Byte) : List Fp :=
  if src = 0 then bs.map fun b => decodeInt8 b.toNat
  else fpElems (if src = 1 then fp8 else if src = 2 then bf16 else fp32) n bs

/-- The scalar of an operation (R190). -/
def State.vScalar (s : State) (c : Nat) (o : VrwOp) : Fp :=
  decodeFp fp32 (if o.bimm then o.imm else ofBytes (s.scratchGet c o.b 4))

/-- Elements in a format, packed, with the events of each counted once per kind (R158). -/
def packed (f : FpFormat) (xs : List (Fp × NumEvents)) : List Byte × NumEvents :=
  (xs.flatMap fun x => toBytes f.bytes (encodeFp f x.1), NumEvents.total (xs.map fun x => x.2.once))

/-- What an operation writes at d, its events, and the answer of VTEST. -/
def State.vrwResult (s : State) (c : Nat) (o : VrwOp) : List Byte × NumEvents × Bool :=
  let f := vFmt o.fmt
  let bsA := s.scratchGet c o.a o.aBytes
  let bsC := s.scratchGet c o.c o.cBytes
  let sc := s.vScalar c o
  match o.op with
  | 0x30 =>
    let a := fpElems f (512 * o.n) bsA
    let b := fpElems f o.n (s.scratchGet c o.b o.bBytes)
    let old := fpElems fp32 512 (s.scratchGet c o.d 2048)
    let got := packed fp32 (o.multiply a b old)
    let bs := got.1
    let ev := got.2
    (bs, ev, false)
  | 0x32 =>
    let got := packed fp32 [o.reduce (fpElems f o.n bsA)]
    let bs := got.1
    let ev := got.2
    (bs, ev, false)
  | 0x34 => ((fpElems f o.n bsA).map fun x => if condFp o.cond x sc then 1 else 0, .none, false)
  | 0x36 =>
    let hits := (fpElems f o.n bsA).map fun x => condFp o.cond x sc
    ([], .none, if o.mode then hits.all id else hits.any id)
  | 0x37 =>
    let xs := (cvtElems o.src o.n bsA).map fun x => cvtElement o.dst x sc
    (xs.flatMap fun x => toBytes (cvtBytes o.dst) x.1, NumEvents.total (xs.map fun x => x.2.once), false)
  | _ =>
    let a := fpElems f o.n bsA
    let cs := if o.op = 0x35 ∨ !o.usesC then List.replicate o.n (.fin false 0 0) else fpElems f o.n bsC
    let masks := if o.op = 0x35 then bsC.map BitVec.toNat else List.replicate o.n 0
    let got := packed f ((List.zip (List.zip a cs) masks).map fun x => o.element x.1.1 x.1.2 sc x.2)
    let bs := got.1
    let ev := got.2
    (bs, ev, false)

/-! ### Completion -/

/-- Charge VRW steps to the job on a core (R355). -/
def State.chargeVrw (s : State) (c n : Nat) : State :=
  let t := (s.core c).fracVrw + n
  (s.modCore c fun k => { k with fracVrw := t % 1024 }).modJob (s.core c).sq.job fun j =>
    { j with vrwKs := j.vrwKs + t / 1024, steps := j.steps + n }

/-- The result of an operation reaches scratch, or a predicate, and its events are counted before its signal (R113, R158). -/
def State.vrwWrite (s : State) (c : Nat) (o : VrwOp) : State :=
  let got := s.vrwResult c o
  let bs := got.1
  let ev := got.2.1
  let hit := got.2.2
  let s := (s.scratchPut c o.d bs).countNumeric c 2 o.index ev
  if o.op = 0x36 then s.modSq c fun q => q.setP o.pdst hit else s

/-- VRW_OP_COMPLETE (R113, R202): the oldest operation is written and signals. A parity error, at a physical lane, writes no result for
this operation nor for a later one of the faulted job, and faults the core. -/
def execVrwOpComplete (core : Nat) (parity : Option Nat) (s : State) : Host.Outcome State Fault Refusal :=
  .next (match (s.core core).vrw with
    | [] => s
    | o :: rest =>
      if !s.ringsRun then s
      else
        let bad := (s.core core).vrwBad
        let s := (s.chargeVrw core o.cost).modCore core fun k =>
          { k with vrw := rest, predPending := if o.op = 0x36 then k.predPending.erase o.pdst else k.predPending }
        let s :=
          if bad then s
          else match parity with
            | some lane => (s.modCore core fun k => { k with vrwBad := true }).hardwareFault core 0x0103 [lane]
            | none => (s.vrwWrite core o).signalOwn core 2 o.index o.signal
        (s.modCore core Core.settleParity).restCore core)

end Sys2Proof.Machine
end

