-- ==== Sys2Proof/Machine/Dispatch.lean ====
section
/-! DEFINITION. The dispatch: one arm per command, each a direct call of its meaning. -/

namespace Sys2Proof.Machine

def exec (i : Instr) (s : State) : Host.Outcome State Fault Refusal :=
  match i with
  | .registerWrite offset bytes value => Sys2Proof.Machine.execRegisterWrite offset bytes value s
  | .ratectlGustRequest rate => Sys2Proof.Machine.execRatectlGustRequest rate s
  | .ratectlBreezeRequest rate => Sys2Proof.Machine.execRatectlBreezeRequest rate s
  | .rateChangeComplete => Sys2Proof.Machine.execRateChangeComplete s
  | .pacingWindowEnd rings => Sys2Proof.Machine.execPacingWindowEnd rings s
  | .breezeRailAdjust => Sys2Proof.Machine.execBreezeRailAdjust s
  | .pacingRaiseStep => Sys2Proof.Machine.execPacingRaiseStep s
  | .dieLinkBeatError link dir beat => Sys2Proof.Machine.execDieLinkBeatError link dir beat s
  | .unitEnable slot enable => Sys2Proof.Machine.execUnitEnable slot enable s
  | .unitQuiesce slot enable => Sys2Proof.Machine.execUnitQuiesce slot enable s
  | .unitReset slot enable => Sys2Proof.Machine.execUnitReset slot enable s
  | .unitCtrlApplied => Sys2Proof.Machine.execUnitCtrlApplied s
  | .unitEvtClear slot mask => Sys2Proof.Machine.execUnitEvtClear slot mask s
  | .groupDefine group count => Sys2Proof.Machine.execGroupDefine group count s
  | .nop core => Sys2Proof.Machine.execNop core s
  | .endJob core => Sys2Proof.Machine.execEndJob core s
  | .corePartEnd core => Sys2Proof.Machine.execCorePartEnd core s
  | .loop core => Sys2Proof.Machine.execLoop core s
  | .skip core => Sys2Proof.Machine.execSkip core s
  | .selA core => Sys2Proof.Machine.execSelA core s
  | .selC core => Sys2Proof.Machine.execSelC core s
  | .moviA core => Sys2Proof.Machine.execMoviA core s
  | .moviC core => Sys2Proof.Machine.execMoviC core s
  | .add core => Sys2Proof.Machine.execAdd core s
  | .sub core => Sys2Proof.Machine.execSub core s
  | .addi core => Sys2Proof.Machine.execAddi core s
  | .muli core => Sys2Proof.Machine.execMuli core s
  | .shli core => Sys2Proof.Machine.execShli core s
  | .shri core => Sys2Proof.Machine.execShri core s
  | .andi core => Sys2Proof.Machine.execAndi core s
  | .minu core => Sys2Proof.Machine.execMinu core s
  | .maxu core => Sys2Proof.Machine.execMaxu core s
  | .adda core => Sys2Proof.Machine.execAdda core s
  | .addai core => Sys2Proof.Machine.execAddai core s
  | .mada core => Sys2Proof.Machine.execMada core s
  | .movCa core => Sys2Proof.Machine.execMovCa core s
  | .movAc core => Sys2Proof.Machine.execMovAc core s
  | .cmp core => Sys2Proof.Machine.execCmp core s
  | .cmpi core => Sys2Proof.Machine.execCmpi core s
  | .cmpa core => Sys2Proof.Machine.execCmpa core s
  | .pand core => Sys2Proof.Machine.execPand core s
  | .por core => Sys2Proof.Machine.execPor core s
  | .pxor core => Sys2Proof.Machine.execPxor core s
  | .pandn core => Sys2Proof.Machine.execPandn core s
  | .pnot core => Sys2Proof.Machine.execPnot core s
  | .pset core => Sys2Proof.Machine.execPset core s
  | .rds core => Sys2Proof.Machine.execRds core s
  | .setldb core => Sys2Proof.Machine.execSetldb core s
  | .alarmSet core => Sys2Proof.Machine.execAlarmSet core s
  | .alarmRelative core => Sys2Proof.Machine.execAlarmRelative core s
  | .alarmDisarm core => Sys2Proof.Machine.execAlarmDisarm core s
  | .gscAlarmFire core => Sys2Proof.Machine.execGscAlarmFire core s
  | .sigcRank core => Sys2Proof.Machine.execSigcRank core s
  | .sigcCluster core => Sys2Proof.Machine.execSigcCluster core s
  | .coreSignalArrival core job event => Sys2Proof.Machine.execCoreSignalArrival core job event s
  | .bar core => Sys2Proof.Machine.execBar core s
  | .barrierComplete job => Sys2Proof.Machine.execBarrierComplete job s
  | .tclaim core => Sys2Proof.Machine.execTclaim core s
  | .tileClaimApply tile cores => Sys2Proof.Machine.execTileClaimApply tile cores s
  | .tclaimReturn core => Sys2Proof.Machine.execTclaimReturn core s
  | .tilecntHostWrite tile value => Sys2Proof.Machine.execTilecntHostWrite tile value s
  | .dpass core => Sys2Proof.Machine.execDpass core s
  | .dpassComplete core parity => Sys2Proof.Machine.execDpassComplete core parity s
  | .vmac core => Sys2Proof.Machine.execVmac core s
  | .vewFma core => Sys2Proof.Machine.execVewFma core s
  | .vewMul core => Sys2Proof.Machine.execVewMul core s
  | .vewAdd core => Sys2Proof.Machine.execVewAdd core s
  | .vewSub core => Sys2Proof.Machine.execVewSub core s
  | .vewMax core => Sys2Proof.Machine.execVewMax core s
  | .vewMin core => Sys2Proof.Machine.execVewMin core s
  | .vewMulv core => Sys2Proof.Machine.execVewMulv core s
  | .vewAdds core => Sys2Proof.Machine.execVewAdds core s
  | .vredMax core => Sys2Proof.Machine.execVredMax core s
  | .vredSum core => Sys2Proof.Machine.execVredSum core s
  | .vredSumsq core => Sys2Proof.Machine.execVredSumsq core s
  | .vexpExp core => Sys2Proof.Machine.execVexpExp core s
  | .vexpRcp core => Sys2Proof.Machine.execVexpRcp core s
  | .vexpRsqrt core => Sys2Proof.Machine.execVexpRsqrt core s
  | .vcmp core => Sys2Proof.Machine.execVcmp core s
  | .vsel core => Sys2Proof.Machine.execVsel core s
  | .vtest core => Sys2Proof.Machine.execVtest core s
  | .vcvt core => Sys2Proof.Machine.execVcvt core s
  | .vrwOpComplete core parity => Sys2Proof.Machine.execVrwOpComplete core parity s
  | .movl core => Sys2Proof.Machine.execMovl core s
  | .mfill core => Sys2Proof.Machine.execMfill core s
  | .movd core => Sys2Proof.Machine.execMovd core s
  | .moverBeatComplete core mover beat => Sys2Proof.Machine.execMoverBeatComplete core mover beat s
  | .moverBeatTimeout core mover waits dies => Sys2Proof.Machine.execMoverBeatTimeout core mover waits dies s
  | .rld core => Sys2Proof.Machine.execRld core s
  | .rst core => Sys2Proof.Machine.execRst core s
  | .ratomFetchAdd core => Sys2Proof.Machine.execRatomFetchAdd core s
  | .ratomCompareSwap core => Sys2Proof.Machine.execRatomCompareSwap core s
  | .rredAddInt32 core => Sys2Proof.Machine.execRredAddInt32 core s
  | .rredAddFp32 core => Sys2Proof.Machine.execRredAddFp32 core s
  | .rredAddBf16 core => Sys2Proof.Machine.execRredAddBf16 core s
  | .rredMaxFp32 core => Sys2Proof.Machine.execRredMaxFp32 core s
  | .rredMaxBf16 core => Sys2Proof.Machine.execRredMaxBf16 core s
  | .rmcs core => Sys2Proof.Machine.execRmcs core s
  | .bput core => Sys2Proof.Machine.execBput core s
  | .bget core => Sys2Proof.Machine.execBget core s
  | .msend core => Sys2Proof.Machine.execMsend core s
  | .mrecv core => Sys2Proof.Machine.execMrecv core s
  | .fence core => Sys2Proof.Machine.execFence core s
  | .xdisp core => Sys2Proof.Machine.execXdisp core s
  | .xret core => Sys2Proof.Machine.execXret core s
  | .xeRowsTaken taken => Sys2Proof.Machine.execXeRowsTaken taken s
  | .seiterBatch core => Sys2Proof.Machine.execSeiterBatch core s
  | .seiterResult core => Sys2Proof.Machine.execSeiterResult core s
  | .sepage core => Sys2Proof.Machine.execSepage core s
  | .sekv core => Sys2Proof.Machine.execSekv core s
  | .selogitTarget core => Sys2Proof.Machine.execSelogitTarget core s
  | .selogitDraft core => Sys2Proof.Machine.execSelogitDraft core s
  | .sedone core => Sys2Proof.Machine.execSedone core s
  | .seOpComplete core copies => Sys2Proof.Machine.execSeOpComplete core copies s
  | .bar4Write offset data report => Sys2Proof.Machine.execBar4Write offset data report s
  | .bar4Read offset bytes report => Sys2Proof.Machine.execBar4Read offset bytes report s
  | .memLockSet => Sys2Proof.Machine.execMemLockSet s
  | .memFlushStart => Sys2Proof.Machine.execMemFlushStart s
  | .memFlushComplete => Sys2Proof.Machine.execMemFlushComplete s
  | .stagingWriteback stack line => Sys2Proof.Machine.execStagingWriteback stack line s
  | .t2mapActivate entry ep => Sys2Proof.Machine.execT2mapActivate entry ep s
  | .t2mapRelease entry => Sys2Proof.Machine.execT2mapRelease entry s
  | .lendActivate entry => Sys2Proof.Machine.execLendActivate entry s
  | .lendRecall entry => Sys2Proof.Machine.execLendRecall entry s
  | .t2RecallReceive hd roff length recallEnd => Sys2Proof.Machine.execT2RecallReceive hd roff length recallEnd s
  | .t2ReleaseReceive hd key => Sys2Proof.Machine.execT2ReleaseReceive hd key s
  | .lendDeadlineExpire entry => Sys2Proof.Machine.execLendDeadlineExpire entry s
  | .lendZeroingComplete entry => Sys2Proof.Machine.execLendZeroingComplete entry s
  | .t2BorrowerExpire entry => Sys2Proof.Machine.execT2BorrowerExpire entry s
  | .nvsRingEnable value => Sys2Proof.Machine.execNvsRingEnable value s
  | .nvsCmdtailWrite value => Sys2Proof.Machine.execNvsCmdtailWrite value s
  | .nvsCplheadWrite value => Sys2Proof.Machine.execNvsCplheadWrite value s
  | .write host => Sys2Proof.Machine.execWrite host s
  | .load host => Sys2Proof.Machine.execLoad host s
  | .verify host => Sys2Proof.Machine.execVerify host s
  | .delete host => Sys2Proof.Machine.execDelete host s
  | .keep host => Sys2Proof.Machine.execKeep host s
  | .recv host => Sys2Proof.Machine.execRecv host s
  | .pload host => Sys2Proof.Machine.execPload host s
  | .pevict host => Sys2Proof.Machine.execPevict host s
  | .nvsCommandComplete key report => Sys2Proof.Machine.execNvsCommandComplete key report s
  | .nandOperationFail block => Sys2Proof.Machine.execNandOperationFail block s
  | .nvsWearLevel channel => Sys2Proof.Machine.execNvsWearLevel channel s
  | .nvsReadDisturbRelocate block => Sys2Proof.Machine.execNvsReadDisturbRelocate block s
  | .nvsScrub block weak report => Sys2Proof.Machine.execNvsScrub block weak report s
  | .nvsDigestCheck shard report => Sys2Proof.Machine.execNvsDigestCheck shard report s
  | .nvsCheckpoint => Sys2Proof.Machine.execNvsCheckpoint s
  | .keeperChunkReceive hd shard chunk lines => Sys2Proof.Machine.execKeeperChunkReceive hd shard chunk lines s
  | .keeperMarkerReceive hd shard kind sent => Sys2Proof.Machine.execKeeperMarkerReceive hd shard kind sent s
  | .repairRequestReceive hd shard chunks => Sys2Proof.Machine.execRepairRequestReceive hd shard chunks s
  | .keepRepairPeriodEnd key => Sys2Proof.Machine.execKeepRepairPeriodEnd key s
  | .recvIdleTimeout key => Sys2Proof.Machine.execRecvIdleTimeout key s
  | .genSetLoading slot keep => Sys2Proof.Machine.execGenSetLoading slot keep s
  | .genSetReady slot => Sys2Proof.Machine.execGenSetReady slot s
  | .genSetEmpty slot keep => Sys2Proof.Machine.execGenSetEmpty slot keep s
  | .genactWrite slot => Sys2Proof.Machine.execGenactWrite slot s
  | .nvsLockSet => Sys2Proof.Machine.execNvsLockSet s
  | .patchInstallReceive hd number entries report => Sys2Proof.Machine.execPatchInstallReceive hd number entries report s
  | .memberReplyReceive hd kind ledger handle record position => Sys2Proof.Machine.execMemberReplyReceive hd kind ledger handle record position s
  | .ploadReplyTimeout => Sys2Proof.Machine.execPloadReplyTimeout s
  | .ploadEvictTimeout => Sys2Proof.Machine.execPloadEvictTimeout s
  | .fork queue host => Sys2Proof.Machine.execFork queue host s
  | .park queue host copies => Sys2Proof.Machine.execPark queue host copies s
  | .restore queue host copies => Sys2Proof.Machine.execRestore queue host copies s
  | .drop queue host => Sys2Proof.Machine.execDrop queue host s
  | .release queue host => Sys2Proof.Machine.execRelease queue host s
  | .ledgerRecordReceive hd record copies => Sys2Proof.Machine.execLedgerRecordReceive hd record copies s
  | .ledgerGapTimeout ledger => Sys2Proof.Machine.execLedgerGapTimeout ledger s
  | .parkedTtlVisit ledger => Sys2Proof.Machine.execParkedTtlVisit ledger s
  | .restoreReplyTimeout handle => Sys2Proof.Machine.execRestoreReplyTimeout handle s
  | .seqKvlockSet => Sys2Proof.Machine.execSeqKvlockSet s
  | .queueEnable queue value => Sys2Proof.Machine.execQueueEnable queue value s
  | .queueDisable queue => Sys2Proof.Machine.execQueueDisable queue s
  | .doorbellTail queue offset value => Sys2Proof.Machine.execDoorbellTail queue offset value s
  | .doorbellHead queue offset value => Sys2Proof.Machine.execDoorbellHead queue offset value s
  | .launch queue host => Sys2Proof.Machine.execLaunch queue host s
  | .admitSeq queue host param token => Sys2Proof.Machine.execAdmitSeq queue host param token s
  | .cancel queue host => Sys2Proof.Machine.execCancel queue host s
  | .serveEnable ledger value => Sys2Proof.Machine.execServeEnable ledger value s
  | .batchForm ledger copies => Sys2Proof.Machine.execBatchForm ledger copies s
  | .batchDescriptorReceive hd lines => Sys2Proof.Machine.execBatchDescriptorReceive hd lines s
  | .samplerPartialReceive hd ledger batch row half => Sys2Proof.Machine.execSamplerPartialReceive hd ledger batch row half s
  | .sampleResultWrite ledger batch row => Sys2Proof.Machine.execSampleResultWrite ledger batch row s
  | .batchEndReportReceive hd ledger batch head proposals results copies => Sys2Proof.Machine.execBatchEndReportReceive hd ledger batch head proposals results copies s
  | .xeContextOpen context value => Sys2Proof.Machine.execXeContextOpen context value s
  | .xeContextClose context => Sys2Proof.Machine.execXeContextClose context s
  | .xeRowReceive hd row lines => Sys2Proof.Machine.execXeRowReceive hd row lines s
  | .xeEndMarkerReceive hd arrival => Sys2Proof.Machine.execXeEndMarkerReceive hd arrival s
  | .xeHalfTimeout context phase half => Sys2Proof.Machine.execXeHalfTimeout context phase half s
  | .jobSuspend job => Sys2Proof.Machine.execJobSuspend job s
  | .jobResume job => Sys2Proof.Machine.execJobResume job s
  | .jobAbort job => Sys2Proof.Machine.execJobAbort job s
  | .quantumExpire job => Sys2Proof.Machine.execQuantumExpire job s
  | .switchDrainComplete job cdie => Sys2Proof.Machine.execSwitchDrainComplete job cdie s
  | .switchSaveComplete job cdie => Sys2Proof.Machine.execSwitchSaveComplete job cdie s
  | .switchReadyComplete job cdie => Sys2Proof.Machine.execSwitchReadyComplete job cdie s
  | .jobEntryUpdate job => Sys2Proof.Machine.execJobEntryUpdate job s
  | .portTrainingComplete port lanes => Sys2Proof.Machine.execPortTrainingComplete port lanes s
  | .portTrainingRetry port => Sys2Proof.Machine.execPortTrainingRetry port s
  | .portLossOfSignal port => Sys2Proof.Machine.execPortLossOfSignal port s
  | .portRetrain port => Sys2Proof.Machine.execPortRetrain port s
  | .portFence port => Sys2Proof.Machine.execPortFence port s
  | .portUnfence port => Sys2Proof.Machine.execPortUnfence port s
  | .flitReceive port flit => Sys2Proof.Machine.execFlitReceive port flit s
  | .linkControlReceive port flit => Sys2Proof.Machine.execLinkControlReceive port flit s
  | .linkReplayTimeout port => Sys2Proof.Machine.execLinkReplayTimeout port s
  | .linkAckDue port => Sys2Proof.Machine.execLinkAckDue port s
  | .epidValidSet ep => Sys2Proof.Machine.execEpidValidSet ep s
  | .epidValidClear => Sys2Proof.Machine.execEpidValidClear s
  | .groupEntryWrite group value => Sys2Proof.Machine.execGroupEntryWrite group value s
  | .gmSyncSend => Sys2Proof.Machine.execGmSyncSend s
  | .syncReceive hd exchange plane gm t1 corr => Sys2Proof.Machine.execSyncReceive hd exchange plane gm t1 corr s
  | .delayRequestReceive hd exchange plane t3 corr => Sys2Proof.Machine.execDelayRequestReceive hd exchange plane t3 corr s
  | .delayResponseReceive hd exchange plane gm t4 corr => Sys2Proof.Machine.execDelayResponseReceive hd exchange plane gm t4 corr s
  | .gscMedianUpdate => Sys2Proof.Machine.execGscMedianUpdate s
  | .gscHoldoverEntry => Sys2Proof.Machine.execGscHoldoverEntry s
  | .gscFreerunEntry => Sys2Proof.Machine.execGscFreerunEntry s
  | .gscLowRead => Sys2Proof.Machine.execGscLowRead s
  | .gscHighRead => Sys2Proof.Machine.execGscHighRead s
  | .targetLoad hd wait report => Sys2Proof.Machine.execTargetLoad hd wait report s
  | .targetStore hd data wait report => Sys2Proof.Machine.execTargetStore hd data wait report s
  | .targetAtomic hd data wait report => Sys2Proof.Machine.execTargetAtomic hd data wait report s
  | .targetReduce hd data wait report => Sys2Proof.Machine.execTargetReduce hd data wait report s
  | .targetMulticastStore hd group data wait report => Sys2Proof.Machine.execTargetMulticastStore hd group data wait report s
  | .targetMessage hd data wait report => Sys2Proof.Machine.execTargetMessage hd data wait report s
  | .targetAcceptDue hd => Sys2Proof.Machine.execTargetAcceptDue hd s
  | .fabricResponseReceive hd data => Sys2Proof.Machine.execFabricResponseReceive hd data s
  | .requestAttemptTimeout tag seq => Sys2Proof.Machine.execRequestAttemptTimeout tag seq s
  | .acceptWaitTimeout tag seq => Sys2Proof.Machine.execAcceptWaitTimeout tag seq s
  | .regionEnable region value => Sys2Proof.Machine.execRegionEnable region value s
  | .teardownReceive hd job reason number => Sys2Proof.Machine.execTeardownReceive hd job reason number s
  | .teardownComplete job => Sys2Proof.Machine.execTeardownComplete job s
  | .fabBulkRingEnable value => Sys2Proof.Machine.execFabBulkRingEnable value s
  | .fabBqtailWrite value => Sys2Proof.Machine.execFabBqtailWrite value s
  | .fabBcheadWrite value => Sys2Proof.Machine.execFabBcheadWrite value s
  | .bulkPut host => Sys2Proof.Machine.execBulkPut host s
  | .bulkGet host => Sys2Proof.Machine.execBulkGet host s
  | .bulkComplete num => Sys2Proof.Machine.execBulkComplete num s
  | .pcieLinkDown => Sys2Proof.Machine.execPcieLinkDown s
  | .inputSwitchOver main backup => Sys2Proof.Machine.execInputSwitchOver main backup s
  | .returnToMain main backup => Sys2Proof.Machine.execReturnToMain main backup s
  | .inputBusSag mv => Sys2Proof.Machine.execInputBusSag mv s
  | .laserCheck mv => Sys2Proof.Machine.execLaserCheck mv s
  | .inhibitClear mv => Sys2Proof.Machine.execInhibitClear mv s
  | .brownOut => Sys2Proof.Machine.execBrownOut s
  | .leaseExpire => Sys2Proof.Machine.execLeaseExpire s
  | .capPacingStep main backup => Sys2Proof.Machine.execCapPacingStep main backup s
  | .tailwindEnable grp => Sys2Proof.Machine.execTailwindEnable grp s
  | .tailwindReportSend slack => Sys2Proof.Machine.execTailwindReportSend slack s
  | .tailwindReportReceive hd job slack eligible window => Sys2Proof.Machine.execTailwindReportReceive hd job slack eligible window s
  | .tailwindDecision => Sys2Proof.Machine.execTailwindDecision s
  | .tailwindGrantReceive hd job watts expiry => Sys2Proof.Machine.execTailwindGrantReceive hd job watts expiry s
  | .tailwindGrantExpire expiry => Sys2Proof.Machine.execTailwindGrantExpire expiry s
  | .tailwindGivenRelease expiry => Sys2Proof.Machine.execTailwindGivenRelease expiry s
  | .diodeSample temps => Sys2Proof.Machine.execDiodeSample temps s
  | .throttleStep => Sys2Proof.Machine.execThrottleStep s
  | .thermalTrip diode => Sys2Proof.Machine.execThermalTrip diode s
  | .fraySample counts => Sys2Proof.Machine.execFraySample counts s
  | .refitPeriod => Sys2Proof.Machine.execRefitPeriod s
  | .refitRequest => Sys2Proof.Machine.execRefitRequest s
  | .refitComplete counts => Sys2Proof.Machine.execRefitComplete counts s
  | .managementCoreStart => Sys2Proof.Machine.execManagementCoreStart s
  | .imageHealthy => Sys2Proof.Machine.execImageHealthy s
  | .trialWatchdogExpire => Sys2Proof.Machine.execTrialWatchdogExpire s
  | .logPageTimeout => Sys2Proof.Machine.execLogPageTimeout s
  | .logFetch seq => Sys2Proof.Machine.execLogFetch seq s
  | .mailboxGo len => Sys2Proof.Machine.execMailboxGo len s
  | .mailboxResponseReady response => Sys2Proof.Machine.execMailboxResponseReady response s
  | .setEndpointId binding ep eid => Sys2Proof.Machine.execSetEndpointId binding ep eid s
  | .getTid binding ep => Sys2Proof.Machine.execGetTid binding ep s
  | .setTid binding ep tid => Sys2Proof.Machine.execSetTid binding ep tid s
  | .getPldmVersion binding ep type => Sys2Proof.Machine.execGetPldmVersion binding ep type s
  | .getPldmTypes binding ep => Sys2Proof.Machine.execGetPldmTypes binding ep s
  | .getPldmCommands binding ep type => Sys2Proof.Machine.execGetPldmCommands binding ep type s
  | .getSensorReading binding ep sensor => Sys2Proof.Machine.execGetSensorReading binding ep sensor s
  | .getStateSensorReadings binding ep sensor => Sys2Proof.Machine.execGetStateSensorReadings binding ep sensor s
  | .setNumericSensorEnable binding ep sensor state => Sys2Proof.Machine.execSetNumericSensorEnable binding ep sensor state s
  | .getPdrRepositoryInfo binding ep => Sys2Proof.Machine.execGetPdrRepositoryInfo binding ep s
  | .getPdr binding ep handle => Sys2Proof.Machine.execGetPdr binding ep handle s
  | .setEventReceiver binding ep receiver enable => Sys2Proof.Machine.execSetEventReceiver binding ep receiver enable s
  | .getEventReceiver binding ep => Sys2Proof.Machine.execGetEventReceiver binding ep s
  | .setStateEffecterStates binding ep effecter value => Sys2Proof.Machine.execSetStateEffecterStates binding ep effecter value s
  | .queryDeviceIdentifiers binding ep => Sys2Proof.Machine.execQueryDeviceIdentifiers binding ep s
  | .getFirmwareParameters binding ep => Sys2Proof.Machine.execGetFirmwareParameters binding ep s
  | .requestUpdate binding ep => Sys2Proof.Machine.execRequestUpdate binding ep s
  | .passComponentTable binding ep => Sys2Proof.Machine.execPassComponentTable binding ep s
  | .updateComponent binding ep length => Sys2Proof.Machine.execUpdateComponent binding ep length s
  | .firmwareDataReceive binding ep data => Sys2Proof.Machine.execFirmwareDataReceive binding ep data s
  | .activateFirmware binding ep => Sys2Proof.Machine.execActivateFirmware binding ep s
  | .getStatus binding ep => Sys2Proof.Machine.execGetStatus binding ep s
  | .cancelUpdateComponent binding ep => Sys2Proof.Machine.execCancelUpdateComponent binding ep s
  | .cancelUpdate binding ep => Sys2Proof.Machine.execCancelUpdate binding ep s
  | .setLease binding ep budget lease => Sys2Proof.Machine.execSetLease binding ep budget lease s
  | .getLease binding ep => Sys2Proof.Machine.execGetLease binding ep s
  | .getLogRecords binding ep first count bad => Sys2Proof.Machine.execGetLogRecords binding ep first count bad s
  | .getLogRange binding ep => Sys2Proof.Machine.execGetLogRange binding ep s
  | .getVersion binding ep => Sys2Proof.Machine.execGetVersion binding ep s
  | .getCapabilities binding ep => Sys2Proof.Machine.execGetCapabilities binding ep s
  | .negotiateAlgorithms binding ep => Sys2Proof.Machine.execNegotiateAlgorithms binding ep s
  | .getDigests binding ep => Sys2Proof.Machine.execGetDigests binding ep s
  | .getCertificate binding ep slot offset length => Sys2Proof.Machine.execGetCertificate binding ep slot offset length s
  | .challenge binding ep slot => Sys2Proof.Machine.execChallenge binding ep slot s
  | .getMeasurements binding ep index => Sys2Proof.Machine.execGetMeasurements binding ep index s
  | .keyExchange binding ep => Sys2Proof.Machine.execKeyExchange binding ep s
  | .finish binding ep => Sys2Proof.Machine.execFinish binding ep s
  | .heartbeat binding ep => Sys2Proof.Machine.execHeartbeat binding ep s
  | .spdmHeartbeatTimeout binding ep => Sys2Proof.Machine.execSpdmHeartbeatTimeout binding ep s
  | .endSession binding ep => Sys2Proof.Machine.execEndSession binding ep s
  | .powerOnReset inputs found => Sys2Proof.Machine.execPowerOnReset inputs found s
  | .mresetAssert us taken => Sys2Proof.Machine.execMresetAssert us taken s
  | .moduleResetRelease => Sys2Proof.Machine.execModuleResetRelease s
  | .topModuleReset => Sys2Proof.Machine.execTopModuleReset s
  | .perstAssert => Sys2Proof.Machine.execPerstAssert s
  | .stageBriloComplete => Sys2Proof.Machine.execStageBriloComplete s
  | .stagePlanComplete persistLost => Sys2Proof.Machine.execStagePlanComplete persistLost s
  | .stageRailsComplete => Sys2Proof.Machine.execStageRailsComplete s
  | .stageClocksComplete => Sys2Proof.Machine.execStageClocksComplete s
  | .stageLinksComplete => Sys2Proof.Machine.execStageLinksComplete s
  | .stageRefitComplete counts => Sys2Proof.Machine.execStageRefitComplete counts s
  | .stageMemoryComplete => Sys2Proof.Machine.execStageMemoryComplete s
  | .stageCheckComplete found => Sys2Proof.Machine.execStageCheckComplete found s
  | .stageRepairComplete => Sys2Proof.Machine.execStageRepairComplete s
  | .stageNvsComplete => Sys2Proof.Machine.execStageNvsComplete s
  | .stagePublishComplete => Sys2Proof.Machine.execStagePublishComplete s
  | .stageReadyComplete => Sys2Proof.Machine.execStageReadyComplete s
  | .startStageTimeout cause => Sys2Proof.Machine.execStartStageTimeout cause s
  | .startRetry => Sys2Proof.Machine.execStartRetry s
  | .clearAttempts => Sys2Proof.Machine.execClearAttempts s
  | .forceApron => Sys2Proof.Machine.execForceApron s
  | .shutdownStart => Sys2Proof.Machine.execShutdownStart s
  | .shutdownStartSkipTest => Sys2Proof.Machine.execShutdownStartSkipTest s
  | .shutdownCloseComplete => Sys2Proof.Machine.execShutdownCloseComplete s
  | .shutdownWritebackComplete => Sys2Proof.Machine.execShutdownWritebackComplete s
  | .shutdownCheckpointComplete => Sys2Proof.Machine.execShutdownCheckpointComplete s
  | .secretsClearComplete clean => Sys2Proof.Machine.execSecretsClearComplete clean s
  | .sliceTestsComplete faults ms => Sys2Proof.Machine.execSliceTestsComplete faults ms s
  | .sliceBudgetExpire faults => Sys2Proof.Machine.execSliceBudgetExpire faults s
  | .testBudgetExpire faults ms => Sys2Proof.Machine.execTestBudgetExpire faults ms s
  | .sliceCommitComplete => Sys2Proof.Machine.execSliceCommitComplete s
  | .shutdownOffComplete => Sys2Proof.Machine.execShutdownOffComplete s
  | .lullWindowEnd => Sys2Proof.Machine.execLullWindowEnd s
  | .lullTallySend => Sys2Proof.Machine.execLullTallySend s
  | .lullReportReceive hd cause kind id severity events => Sys2Proof.Machine.execLullReportReceive hd cause kind id severity events s
  | .lullNoticeReceive hd cause kind id => Sys2Proof.Machine.execLullNoticeReceive hd cause kind id s
  | .lullTallyReceive hd cause kind id window events => Sys2Proof.Machine.execLullTallyReceive hd cause kind id window events s
  | .arbiterTallySend => Sys2Proof.Machine.execArbiterTallySend s
  | .counterSatClear counter => Sys2Proof.Machine.execCounterSatClear counter s
  | .logFetchComplete corrupt => Sys2Proof.Machine.execLogFetchComplete corrupt s
  | .targetStallTimeout hd => Sys2Proof.Machine.execTargetStallTimeout hd s
  | .creditReturnReceive core ep key => Sys2Proof.Machine.execCreditReturnReceive core ep key s
  | .perstRelease => Sys2Proof.Machine.execPerstRelease s
  | .pcieLinkUp width speed => Sys2Proof.Machine.execPcieLinkUp width speed s
  | .powerManagementStateWrite hot => Sys2Proof.Machine.execPowerManagementStateWrite hot s

end Sys2Proof.Machine
end

