-- ==== Sys2Proof/Safety.lean ====
section
/-! DEFINITION. What a safe run keeps, and the conditions under which a command has its effect, in the terms the statements use. -/

namespace Sys2Proof.Machine

/-- The byte stores are canonical: the four stores of the module, and the stacks behind the staging caches. -/
def storesOk (m : Memory) (stack : List Host.Cell) : Prop := m.wf = true ∧ Table.wf (0 : Byte) stack = true

/-- Every byte store the state holds is canonical. -/
def State.Stored (s : State) : Prop := storesOk s.mem s.stack

/-- A BAR0 access of the host at an offset has its effect: the host reaches the module and the block is open (R476, R515). -/
def State.takes (s : State) (offset : Nat) : Prop := s.hostReach = true ∧ s.blockOpen (blockOf offset) = true

/-- The 4-byte word of BAR0 at `o` holds one field that a write can change, instance `i` of `f`, wholly; it has no effect of its own and lies
neither in the mailbox nor in the UCB of an empty slot, nor is it that of TOP_ACCERR.valid (R13, R512). -/
def soleField (o : Nat) (f : Field) (i : Nat) : Prop :=
  o % 4 = 0 ∧ o < 2 ^ 26 ∧ o ≠ 0x14 ∧ ¬ (0x201000 ≤ o ∧ o < 0x202000) ∧ actionWord o = none ∧ emptyUnit o = false ∧
    ((blockFields (blockOf o)).flatMap fun g => if g.writable then (g.hits o 4).map fun j => (g, j) else []) = [(f, i)] ∧
    8 * o ≤ f.key i ∧ f.key i + f.width ≤ 8 * (o + 4)

/-- The bits of a field in a value written to its word. -/
def Field.part (f : Field) (o i v : Nat) : Nat := v / 2 ^ (f.key i - 8 * o) % f.size

/-- Core `c` issues the word `w`: it stands at PC, the core may issue, its wait is satisfied, its predicate test passes, no predicate it
names is still to be written, and its body sets no bit outside `mask` (R75, R94, R98, R99). -/
def State.Issues (s : State) (c w mask : Nat) (names : List Nat := []) : Prop :=
  s.canIssue c = true ∧ (s.core c).fetch = some w ∧ Psi.wcnt w ≤ (s.core c).sq.e (Psi.wev w) ∧ (s.core c).sq.passes w = true ∧
    (∀ x ∈ Psi.pidx w :: names, x ∉ (s.core c).predPending) ∧ w % 2 ^ 96 &&& mask = w % 2 ^ 96 ∧ (Psi.sen w = true ∨ Psi.sev w = 0)

/-- The issue of `w` on core `c` with an effect: the wait count falls, the effect happens, program order follows, and the signal is given
in the issue step where `now` holds (R76, R94, R103). -/
def State.issued (s : State) (c w : Nat) (effect : State → State) (now : Bool := true) (order : Sequencer → Sequencer := inOrder) : State :=
  s.issueNow c w { mask := 0, atIssue := now, effect := effect, order := order } true

/-- The issue of an instruction that only changes its sequencer. -/
def State.issuedSq (s : State) (c w : Nat) (f : Sequencer → Sequencer) : State := s.issued c w fun s => s.modSq c f

/-- An engine packet is taken for the first time, with `v` the source's window after it (R415, R422). -/
def State.Fresh (s : State) (hd : PacketHead) (v : Seen) : Prop :=
  s.flag Reg.FAB_EPID.valid = true ∧ (Table.get Seen.empty s.seen (seenKey hd)).take hd.seq = some v ∧ s.closing = false

/-- The state once an engine or control packet's number has been taken. -/
def State.taken (s : State) (hd : PacketHead) (v : Seen) : State := { s with seen := Table.set Seen.empty s.seen (seenKey hd) v }

/-- A control packet is taken for the first time (R422). -/
def State.FreshControl (s : State) (hd : PacketHead) (v : Seen) : Prop :=
  s.flag Reg.FAB_EPID.valid = true ∧ (Table.get Seen.empty s.seen (seenKey hd)).take hd.seq = some v

/-- The next command that the slice of queue `q` takes is at its head, where its slice can read it: `cmd`, with opcode `op` (R305). -/
def State.Commands (s : State) (q : Nat) (host : List Byte) (op : Nat) (cmd : Command) : Prop :=
  s.seRuns = true ∧ s.closing = false ∧ s.nextQueue (s.fld Reg.SEQ_QCFG.slice q) = some q ∧
    s.areaClosed (s.qBase q + 64 * (s.qHead q % s.qN q)) 64 = false ∧ cmd = s.headEntry q host ∧ cmd.op = op

/-- The command's reserved bytes are zero, its sequence has a record here, and the queue is one of the slice that serves its ledger
(R299, R307). -/
def State.OnSequence (s : State) (q : Nat) (cmd : Command) : Prop :=
  firstNonzero cmd.raw ([1, 0xB, 0x11] ++ span 0x20 0x40) = none ∧ s.kvState cmd.seq ≠ 0 ∧ s.servedBy q (s.kvLedger cmd.seq) = true

/-- The commands that may change a byte of core scratch or cluster SRAM. -/
def writesScratch : Instr → Bool
  | .dpassComplete .. | .vrwOpComplete .. | .moverBeatComplete .. | .fabricResponseReceive .. | .mrecv .. | .seOpComplete .. => true
  | .switchSaveComplete .. | .stageMemoryComplete .. | .powerOnReset .. | .mresetAssert .. | .topModuleReset .. | .registerWrite .. => true
  | _ => false

end Sys2Proof.Machine
end

