-- ==== Sys2Proof/Certificates/Slice0/Obligations.lean ====
section
/-! DEFINITION. The statements about the module, for the provers: what a command does, what it leaves alone, and what every step
keeps. -/

section

open Sys2Proof Sys2Proof.Machine

/-- A step of a state with command c in front is exec of c on the state with the rest of the queue. On an empty queue the module idles for one
nanosecond (the model's choice, log entry 3): before the start nothing changes; then the time since power-on goes up by one and, without
main clocks, nothing else changes; with them the global step counter goes up by one and the slew of that nanosecond, which is -1, 0 or 1
and 0 on a grandmaster and in free-run, and nothing else changes but the record of the timing exchanges. (95_what_each_step_holds.md) -/
def Obligations.StepRunsTheFront : Prop :=
  (∀ c s rest, s.pending = c :: rest → step s = exec c { s with pending := rest }) ∧
  (∀ (s : State), s.pending = [] → step s = .next s.tick) ∧
  (∀ (s : State), s.fld Reg.TOP_STARTSTAT.stage = 0 → s.tick = s) ∧
  (∀ (s : State), s.fld Reg.TOP_STARTSTAT.stage ≠ 0 → s.clocks = false → s.tick = { s with uptime := s.uptime + 1 }) ∧
  (∀ (s : State), s.fld Reg.TOP_STARTSTAT.stage ≠ 0 → s.clocks = true → ∃ (d : Int) (regs : List (Nat × Nat)) (g : GscSync), -1 ≤ d ∧ d ≤ 1 ∧
    (s.isMaster = true ∨ s.fld Reg.FAB_GSCSTAT.state = 0 → d = 0) ∧
    s.tick = { s with uptime := s.uptime + 1, regs := regs, gscSync := g } ∧ s.tick.gsc = unsigned 64 ((s.gsc : Int) + 1 + d) ∧
    ∀ f i, f.key i ≠ Reg.FAB_GSC.value.key 0 → s.tick.fld f i = s.fld f i)

/-- Every register field reads the reset value of its table (for the fields to which the spec gives none, the model's choice, log entry 47);
the byte stores list nothing and are canonical, no command waits, no job is active, and every core holds its reset state. Among the values
are the stall timeouts of 2,000 us, the scheduling quantum of 20 ms, the size 2^8 of the weight store's rings, and the three locks open.
(R14, R207, Table 20.1) -/
def Obligations.AfterReset : Prop :=
  (∀ f i, i < f.count → State.reset.fld f i = f.reset) ∧ State.reset.mem = ⟨[], [], [], []⟩ ∧ State.reset.stack = [] ∧ State.reset.Stored ∧
  State.reset.pending = [] ∧ State.reset.jobs = [] ∧
  (∀ c, State.reset.core c = Core.reset) ∧ (∀ i, i < 3 → State.reset.fld Reg.MEM_STALLTO.timeout_us i = 2000) ∧
  State.reset.fld Reg.SEQ_SCHEDCFG.quantum_ms = 20 ∧ State.reset.fld Reg.NVS_RINGCFG.log2n = 8 ∧
  State.reset.flag Reg.MEM_LOCK.lock = false ∧ State.reset.flag Reg.NVS_LOCK.lock = false ∧ State.reset.flag Reg.SEQ_KVLOCK.lock = false

/-- For every command and every state, exec answers a next state, never a fault and never a refusal, and the commands that wait are the same
after it. (95_what_each_step_holds.md) -/
def Obligations.EveryCommandAnswers : Prop :=
  ∀ c s, ∃ t, exec c s = .next t ∧ t.pending = s.pending

/-- If the byte stores of the state (core scratch, cluster SRAM, T1 as readers see it, what was written to host memory, and the stacks behind
the staging caches) are in canonical form (addresses strictly rising, no entry equal to what an unlisted address reads as), they are so
after every step. (R11, R67, R206, R210) -/
def Obligations.BytesStayCanonical : Prop :=
  ∀ (s : State) t, s.Stored → step s = .next t → t.Stored

/-- No command changes a byte of core scratch or of cluster SRAM but these: the completions of DPASS, VRW, mover beat, fabric response and SE
operations, MRECV, the save of a switch, the memory stage of a start, the resets, and a register write (which may be a reset). (R67, R357,
R470, R478) -/
def Obligations.ScratchWriters : Prop :=
  ∀ c s t, writesScratch c = false → exec c s = .next t → t.mem.scratch = s.mem.scratch ∧ t.mem.sram = s.mem.sram

/-- A write of PWR_RATECTL that reaches an open block while no change is in progress, with a rate of 50 to 110 (and, for Breeze mode, not
above the Breeze ceiling), stores mode and rate; it starts the change and sets busy unless the module is already in that mode at that
rate. A write while busy, out of range, or above the ceiling sets reject_cause 3, 1 or 2 and PWR_RATEEVT.reject, and leaves the declared
rate and the change in progress. A change in progress completes: the module enters Gust mode, or Breeze mode at the rate capped by the
ceiling, busy clears and no change is left. In Breeze mode with the rails on and no hold, a window in which a ring slipped is counted
once, sets PWR_RATEEVT.slip and puts a raise of 10 mV, up to 800 mV, on the rail, in place of the raise of the window before; a window
without a slip ends that raise. The rail governor chooses the rail for the declared rate, the raise on top, and stays from 600 to 800 mV.
Without a limit the pacing rises by one step. A bad beat of a die-to-die link is counted, withheld and asked for again; the eighth failed
replay of one beat in a row fails the link, a fault 0x0101; a good beat ends the withholding of its own. (R31, R32, R36, R38, R39, R40,
R41, R42, R515) -/
def Obligations.RateModes : Prop :=
  (∀ (s : State) rate, s.takes 0x100100 → s.flag Reg.PWR_RATESTAT.busy = false → 50 ≤ rate → rate ≤ 110 →
    exec (.ratectlGustRequest rate) s = .next (if s.breeze then
        State.setFld { (s.setFld Reg.PWR_RATECTL.mode 0).setFld Reg.PWR_RATECTL.breeze_rate rate with rateChange := some (0, rate) }
          Reg.PWR_RATESTAT.busy 1
      else ((s.setFld Reg.PWR_RATECTL.mode 0).setFld Reg.PWR_RATECTL.breeze_rate rate).showCapped)) ∧
  (∀ (s : State) rate, s.takes 0x100100 → s.flag Reg.PWR_RATESTAT.busy = false → 50 ≤ rate → rate ≤ 110 → rate ≤ breezeCeiling s.drift →
    exec (.ratectlBreezeRequest rate) s = .next (if s.breeze = true ∧ s.declRate = rate then
        ((s.setFld Reg.PWR_RATECTL.mode 1).setFld Reg.PWR_RATECTL.breeze_rate rate).showCapped
      else State.setFld { (s.setFld Reg.PWR_RATECTL.mode 1).setFld Reg.PWR_RATECTL.breeze_rate rate with rateChange := some (1, rate) }
          Reg.PWR_RATESTAT.busy 1)) ∧
  (∀ (s : State) rate c, (c = Instr.ratectlGustRequest rate ∨ c = Instr.ratectlBreezeRequest rate) → s.takes 0x100100 →
    (s.flag Reg.PWR_RATESTAT.busy = true → exec c s = .next (s.rejectRate 3)) ∧
    (s.flag Reg.PWR_RATESTAT.busy = false → rate < 50 ∨ 110 < rate → exec c s = .next (s.rejectRate 1))) ∧
  (∀ (s : State) rate, s.takes 0x100100 → s.flag Reg.PWR_RATESTAT.busy = false → 50 ≤ rate → rate ≤ 110 → breezeCeiling s.drift < rate →
    exec (.ratectlBreezeRequest rate) s = .next (s.rejectRate 2)) ∧
  (∀ (s : State) cause, cause < 4 → (s.rejectRate cause).fld Reg.PWR_RATESTAT.reject_cause = cause ∧
    (s.rejectRate cause).flag Reg.PWR_RATEEVT.reject = true ∧ (s.rejectRate cause).rateChange = s.rateChange ∧
    (s.rejectRate cause).fld Reg.PWR_RATECTL.breeze_rate = s.fld Reg.PWR_RATECTL.breeze_rate) ∧
  (∀ (s : State) mode rate, s.rateChange = some (mode, rate) → ∃ t, exec .rateChangeComplete s = .next t ∧ t.rateChange = none ∧
    t.flag Reg.PWR_RATESTAT.busy = false ∧ t.mem = s.mem ∧ t.jobs = s.jobs ∧
    (mode = 0 ∨ breezeCeiling s.drift < 50 → t.breeze = false ∧ t.declRate = 0) ∧
    (mode ≠ 0 → 50 ≤ breezeCeiling s.drift → t.breeze = true ∧ t.declRate = min rate (breezeCeiling s.drift) ∧
      t.coreMv = s.breezeRail (min rate (breezeCeiling s.drift)))) ∧
  (∀ (s : State) rings, s.breeze = true → s.held = false → s.pwrgd = true → (∃ w ∈ rings, slipped s.paceRate w = true) →
    ∃ t, exec (.pacingWindowEnd rings) s = .next t ∧ t.slipMv = min 10 (800 - s.baseMv) ∧ t.coreMv = s.baseMv + t.slipMv ∧
      t.flag Reg.PWR_RATEEVT.slip = true ∧ t.paceRate = s.paceRate ∧ t.mem = s.mem ∧
      (s.flag Reg.PWR_SLIPCNT.sat = false → s.fld Reg.PWR_SLIPCNT.count + 1 < 2 ^ 48 - 1 →
        t.fld Reg.PWR_SLIPCNT.count = s.fld Reg.PWR_SLIPCNT.count + 1)) ∧
  (∀ (s : State) rings, s.breeze = true → s.held = false → s.pwrgd = true → s.slipMv ≠ 0 → (∀ w ∈ rings, slipped s.paceRate w = false) →
    ∃ t, exec (.pacingWindowEnd rings) s = .next t ∧ t.slipMv = 0 ∧ t.coreMv = s.baseMv ∧ t.regs = s.regs ∧ t.mem = s.mem) ∧
  (∀ (s : State), s.breeze = true → s.pwrgd = true → s.apron = false → ∃ t, exec .breezeRailAdjust s = .next t ∧
    t.slipMv = min s.slipMv (800 - s.breezeRail s.declRate) ∧ t.coreMv = s.breezeRail s.declRate + t.slipMv ∧
    600 ≤ t.coreMv ∧ t.coreMv ≤ 800 ∧ t.regs = s.regs ∧ t.paceRate = s.paceRate ∧ t.mem = s.mem) ∧
  (∀ (s : State), s.limited = false → s.paceRate < s.targetRate →
    exec .pacingRaiseStep s = .next (State.showRate { s with paceRate := s.paceRate + 1 })) ∧
  (∀ (s : State) link dir beat, link < 23 → dir < 2 → Table.get false s.linkDown (2 * link + dir) = false → badBeat beat = true →
    Table.get 0 s.linkHeld (2 * link + dir) ≠ beat.place + 1 →
    exec (.dieLinkBeatError link dir beat) s = .next { s with
      linkErrors := Table.set 0 s.linkErrors (2 * link + dir) (Table.get 0 s.linkErrors (2 * link + dir) + 1)
      linkHeld := Table.set 0 s.linkHeld (2 * link + dir) (beat.place + 1)
      linkFails := Table.set 0 s.linkFails (2 * link + dir) 0
      out := s.out ++ [.dieReplay link dir beat.place] }) ∧
  (∀ (s : State) link dir beat, link < 23 → dir < 2 → Table.get false s.linkDown (2 * link + dir) = false → badBeat beat = true →
    Table.get 0 s.linkHeld (2 * link + dir) = beat.place + 1 → Table.get 0 s.linkFails (2 * link + dir) < 7 →
    exec (.dieLinkBeatError link dir beat) s = .next { s with
      linkErrors := Table.set 0 s.linkErrors (2 * link + dir) (Table.get 0 s.linkErrors (2 * link + dir) + 1)
      linkHeld := Table.set 0 s.linkHeld (2 * link + dir) (beat.place + 1)
      linkFails := Table.set 0 s.linkFails (2 * link + dir) (Table.get 0 s.linkFails (2 * link + dir) + 1)
      out := s.out ++ [.dieReplay link dir beat.place] }) ∧
  (∀ (s : State) link dir beat, link < 23 → dir < 2 → Table.get false s.linkDown (2 * link + dir) = false → badBeat beat = true →
    Table.get 0 s.linkHeld (2 * link + dir) = beat.place + 1 → Table.get 0 s.linkFails (2 * link + dir) = 7 →
    exec (.dieLinkBeatError link dir beat) s = .next (State.moduleFault { s with
      linkErrors := Table.set 0 s.linkErrors (2 * link + dir) (Table.get 0 s.linkErrors (2 * link + dir) + 1)
      linkHeld := Table.set 0 s.linkHeld (2 * link + dir) (beat.place + 1)
      linkFails := Table.set 0 s.linkFails (2 * link + dir) 8
      linkDown := Table.set false s.linkDown (2 * link + dir) true } 0x0101 (.unit (linkSlot link dir)) [link, dir])) ∧
  (∀ (s : State) link dir beat, link < 23 → dir < 2 → Table.get false s.linkDown (2 * link + dir) = false → badBeat beat = false →
    Table.get 0 s.linkHeld (2 * link + dir) = beat.place + 1 → exec (.dieLinkBeatError link dir beat) s = .next { s with
      linkHeld := Table.set 0 s.linkHeld (2 * link + dir) 0
      linkFails := Table.set 0 s.linkFails (2 * link + dir) 0 })

/-- A UNIT_CTRL write to a slot that holds a unit joins the writes in progress and takes effect at once only where none is before it; when a
write has been applied it leaves the queue and the next one takes effect. A unit at which the write is rejected sets UNIT_EVT.reject; its
enable and the cores stay. Writing 1s to UNIT_EVT clears those bits in the unit and in every member at any depth and leaves its other
bits, memory and the cores. A write of a group count that is not rejected puts the new slots in force, raises CAP_GEN by one and leaves
every other group; a rejected one sets UNIT_EVT.reject of the group and leaves the definitions and CAP_GEN alone. (R53, R54, R55, R58,
R59, R541) -/
def Obligations.UnitsAndGroups : Prop :=
  (∀ (s : State) slot enable c (w : UnitWrite), slotHolds slot = true → s.takes (0x2000014 + 256 * slot) →
    (c = Instr.unitEnable slot enable ∧ w = ⟨slot, enable, false, false⟩ ∨ c = Instr.unitQuiesce slot enable ∧ w = ⟨slot, enable, true, false⟩ ∨
      c = Instr.unitReset slot enable ∧ w = ⟨slot, enable, false, true⟩) →
    (s.ctrlQueue ≠ [] → exec c s = .next { s with ctrlQueue := s.ctrlQueue ++ [w] }) ∧
    (s.ctrlQueue = [] → exec c s = .next (State.applyCtrl { s with ctrlQueue := [w] } w))) ∧
  (∀ (s : State) w, s.ctrlQueue = [w] → exec .unitCtrlApplied s = .next { s with ctrlQueue := [] }) ∧
  (∀ (s : State) v w r, s.ctrlQueue = v :: w :: r → exec .unitCtrlApplied s = .next (State.applyCtrl { s with ctrlQueue := w :: r } w)) ∧
  (∀ (s : State) w slot, slot < 512 → s.ctrlRejected w slot = true → (s.ctrlUnit w slot).flag Reg.UNIT_EVT.reject slot = true ∧
    (s.ctrlUnit w slot).fld Reg.UNIT_CTRL.enable slot = s.fld Reg.UNIT_CTRL.enable slot ∧ (s.ctrlUnit w slot).cores = s.cores) ∧
  (∀ (s : State) slot mask, slotHolds slot = true → s.takes (0x2000018 + 256 * slot) →
    ∃ t, exec (.unitEvtClear slot mask) s = .next t ∧ t.mem = s.mem ∧ t.cores = s.cores ∧
      ∀ u ∈ s.tree slot, ∀ f ∈ [Reg.UNIT_EVT.reject, Reg.UNIT_EVT.run_change, Reg.UNIT_EVT.fault, Reg.UNIT_EVT.sat],
        (bit mask f.low = true → t.flag f u = false) ∧ (bit mask f.low = false → t.flag f u = s.flag f u)) ∧
  (∀ (s : State) group count, group < 64 → count < 65536 → s.takes (0x20008 + 1024 * group) → s.badGroup group count = false →
    ∃ t, exec (.groupDefine group count) s = .next t ∧ t.group group = ⟨s.newSlots group count, []⟩ ∧
      t.fld Reg.CAP_GEN.gen = (s.fld Reg.CAP_GEN.gen + 1) % 2 ^ 32 ∧ ∀ g, g ≠ group → t.group g = s.group g) ∧
  (∀ (s : State) group count, group < 64 → count < 65536 → s.takes (0x20008 + 1024 * group) → s.badGroup group count = true →
    ∃ t, exec (.groupDefine group count) s = .next t ∧ t.groups = s.groups ∧ t.flag Reg.UNIT_EVT.reject (slotGroup group) = true ∧
      t.fld Reg.CAP_GEN.gen = s.fld Reg.CAP_GEN.gen)

/-- P0 always reads 1, and a write to P0 changes nothing; after a write of any other predicate it reads the value written, and no other
predicate has changed. (R65) -/
def Obligations.PredicateZero : Prop :=
  (∀ q : Sequencer, q.p 0 = true) ∧ (∀ (q : Sequencer) v, q.setP 0 v = q) ∧ (∀ (q : Sequencer) r v, r ≠ 0 → (q.setP r v).p r = v) ∧
  (∀ (q : Sequencer) r r' v, r' ≠ r → (q.setP r v).p r' = q.p r')

/-- A write of NVS_GENACT.active that names a slot in state 2 puts that slot in state 3 and the slot that was active in state 2; one that
names the active slot changes nothing; one that names any other slot leaves every slot and the active one as they are. (R258) -/
def Obligations.ActiveGeneration : Prop :=
  (∀ (s : State) slot, slot < 2 → s.takes 0x1400140 → s.genState slot = 2 → ∃ t, exec (.genactWrite slot) s = .next t ∧ t.genState slot = 3 ∧
    t.fld Reg.NVS_GENACT.active = slot ∧ (∀ i, i < 2 → i ≠ slot → s.fld Reg.NVS_GENACT.active = i → s.genState i = 3 → t.genState i = 2) ∧
    t.mem = s.mem ∧ t.nvs = { s.nvs with block5 := t.nvs.block5 }) ∧
  (∀ (s : State) slot, slot < 2 → s.takes 0x1400140 → s.genState slot = 3 → exec (.genactWrite slot) s = .next s) ∧
  (∀ (s : State) slot, slot < 2 → s.takes 0x1400140 → s.genState slot ≠ 2 → ∃ t, exec (.genactWrite slot) s = .next t ∧
    t.fld Reg.NVS_GENACT.active = s.fld Reg.NVS_GENACT.active ∧ ∀ i, t.genState i = s.genState i)

/-- When core c issues ADD, SUB, ADDI, MULI, SHLI, SHRI, ANDI, MINU or MAXU, the next state is the issue of that word with C[d] set to the
sum, difference, product, shift, AND, unsigned minimum or unsigned maximum of its operands modulo 2^32, and nothing else of the sequencer
but the wait count, the program order and the signal of its own. (R64, R75, R76, R94) -/
def Obligations.SqArithmetic : Prop :=
  (∀ (s : State) c w, s.Issues c w (mD ||| mA ||| mB) → Psi.sub w = 0 →
    (Psi.op w = 0x08 → exec (.add c) s = .next (s.issuedSq c w fun q => q.setC (Psi.d w) (q.c (Psi.a w) + q.c (Psi.b w)))) ∧
    (Psi.op w = 0x09 → exec (.sub c) s = .next (s.issuedSq c w fun q => q.setC (Psi.d w) (q.c (Psi.a w) - q.c (Psi.b w)))) ∧
    (Psi.op w = 0x0F → exec (.minu c) s = .next (s.issuedSq c w fun q =>
      q.setC (Psi.d w) (if (q.c (Psi.a w)).ult (q.c (Psi.b w)) then q.c (Psi.a w) else q.c (Psi.b w))))) ∧
  (∀ (s : State) c w, s.Issues c w (mD ||| mA ||| mB) → Psi.op w = 0x0F → Psi.sub w = 1 →
    exec (.maxu c) s = .next (s.issuedSq c w fun q =>
      q.setC (Psi.d w) (if (q.c (Psi.a w)).ult (q.c (Psi.b w)) then q.c (Psi.b w) else q.c (Psi.a w)))) ∧
  (∀ (s : State) c w, s.Issues c w (mD ||| mA ||| mImm) → Psi.sub w = 0 →
    (Psi.op w = 0x0A → exec (.addi c) s = .next (s.issuedSq c w fun q => q.setC (Psi.d w) (q.c (Psi.a w) + BitVec.ofNat 32 (bits w 31 0)))) ∧
    (Psi.op w = 0x0B → exec (.muli c) s = .next (s.issuedSq c w fun q => q.setC (Psi.d w) (q.c (Psi.a w) * BitVec.ofNat 32 (bits w 31 0)))) ∧
    (Psi.op w = 0x0E → exec (.andi c) s = .next (s.issuedSq c w fun q =>
      q.setC (Psi.d w) (q.c (Psi.a w) &&& BitVec.ofNat 32 (bits w 31 0))))) ∧
  (∀ (s : State) c w, s.Issues c w (mD ||| mA ||| maskOf 4 0) → Psi.sub w = 0 →
    (Psi.op w = 0x0C → exec (.shli c) s = .next (s.issuedSq c w fun q => q.setC (Psi.d w) (q.c (Psi.a w) <<< bits w 4 0))) ∧
    (Psi.op w = 0x0D → exec (.shri c) s = .next (s.issuedSq c w fun q => q.setC (Psi.d w) (q.c (Psi.a w) >>> bits w 4 0))))

/-- When core c issues SEL.A, SEL.C, MOVI.A, MOVI.C, ADDA, ADDAI, MADA, MOV.CA, MOV.AC or SETLDB, the next state is the issue of that word
with the destination set as Table 5.4 gives: addresses modulo 2^48, counters zero or sign extended, and for SETLDB the loop-descriptor
base set to A[a], a core scratch address on a 256-byte boundary. (R64, R67, R75, R99) -/
def Obligations.SqAddresses : Prop :=
  (∀ (s : State) c w, s.Issues c w (mD ||| mA ||| mB ||| mP) [Psi.p w] → Psi.sub w = 0 →
    (Psi.op w = 0x04 → exec (.selA c) s = .next (s.issuedSq c w fun q =>
      q.setA (Psi.d w) (if q.p (Psi.p w) then q.a (Psi.a w) else q.a (Psi.b w)))) ∧
    (Psi.op w = 0x05 → exec (.selC c) s = .next (s.issuedSq c w fun q =>
      q.setC (Psi.d w) (if q.p (Psi.p w) then q.c (Psi.a w) else q.c (Psi.b w))))) ∧
  (∀ (s : State) c w, s.Issues c w (mD ||| maskOf 47 0) → Psi.op w = 0x06 → Psi.sub w = 0 →
    exec (.moviA c) s = .next (s.issuedSq c w fun q => q.setA (Psi.d w) (BitVec.ofNat 48 (bits w 47 0)))) ∧
  (∀ (s : State) c w, s.Issues c w (mD ||| mImm) → Psi.op w = 0x07 → Psi.sub w = 0 →
    exec (.moviC c) s = .next (s.issuedSq c w fun q => q.setC (Psi.d w) (BitVec.ofNat 32 (bits w 31 0)))) ∧
  (∀ (s : State) c w, s.Issues c w (mD ||| mA ||| mB) → Psi.op w = 0x10 →
    (Psi.sub w = 0 → exec (.adda c) s = .next (s.issuedSq c w fun q => q.setA (Psi.d w) (q.a (Psi.a w) + (q.c (Psi.b w)).setWidth 48))) ∧
    (Psi.sub w = 1 → exec (.adda c) s = .next (s.issuedSq c w fun q => q.setA (Psi.d w) (q.a (Psi.a w) + (q.c (Psi.b w)).signExtend 48)))) ∧
  (∀ (s : State) c w, s.Issues c w (mD ||| mA ||| mImm) → Psi.op w = 0x11 → Psi.sub w = 0 →
    exec (.addai c) s = .next (s.issuedSq c w fun q => q.setA (Psi.d w) (q.a (Psi.a w) + (BitVec.ofNat 32 (bits w 31 0)).signExtend 48))) ∧
  (∀ (s : State) c w, s.Issues c w (mD ||| mA ||| mB ||| mImm) → Psi.op w = 0x12 → Psi.sub w = 0 →
    exec (.mada c) s = .next (s.issuedSq c w fun q =>
      q.setA (Psi.d w) (q.a (Psi.a w) + (q.c (Psi.b w)).setWidth 48 * (BitVec.ofNat 32 (bits w 31 0)).setWidth 48))) ∧
  (∀ (s : State) c w, s.Issues c w (mD ||| mB) → Psi.op w = 0x13 → Psi.sub w = 0 →
    exec (.movCa c) s = .next (s.issuedSq c w fun q => q.setA (Psi.d w) ((q.c (Psi.b w)).setWidth 48))) ∧
  (∀ (s : State) c w, s.Issues c w (mD ||| mA) → Psi.op w = 0x13 → Psi.sub w = 1 →
    exec (.movAc c) s = .next (s.issuedSq c w fun q => q.setC (Psi.d w) ((q.a (Psi.a w)).setWidth 32))) ∧
  (∀ (s : State) c w, s.Issues c w mA → Psi.op w = 0x19 → Psi.sub w = 0 →
    ((s.core c).sq.a (Psi.a w)).toNat % 256 = 0 → ((s.core c).sq.a (Psi.a w)).toNat < scratchSize →
    exec (.setldb c) s = .next (s.issuedSq c w fun q => { q with ldb := q.a (Psi.a w) }))

/-- When core c issues CMP, CMPI (condition codes 0 to 5) or CMPA (codes 0 to 3), P[p] takes the comparison; when it issues PAND, POR, PXOR,
PANDN, PNOT or PSET, P[d] takes the function of P[a] and P[b], or imm[0]. A write to P0 is discarded, and P0 reads 1 in every state. (R65,
R75, R98, R99) -/
def Obligations.SqPredicates : Prop :=
  (∀ (s : State) c w, s.Issues c w (mA ||| mB ||| mP) [Psi.p w] → Psi.op w = 0x14 → Psi.sub w ≤ 5 →
    exec (.cmp c) s = .next (s.issuedSq c w fun q => q.setP (Psi.p w) (condWord (Psi.sub w) (q.c (Psi.a w)) (q.c (Psi.b w))))) ∧
  (∀ (s : State) c w, s.Issues c w (mA ||| mP ||| mImm) [Psi.p w] → Psi.op w = 0x15 → Psi.sub w ≤ 5 →
    exec (.cmpi c) s = .next (s.issuedSq c w fun q =>
      q.setP (Psi.p w) (condWord (Psi.sub w) (q.c (Psi.a w)) (BitVec.ofNat 32 (bits w 31 0))))) ∧
  (∀ (s : State) c w, s.Issues c w (mA ||| mB ||| mP) [Psi.p w] → Psi.op w = 0x16 → Psi.sub w ≤ 3 →
    exec (.cmpa c) s = .next (s.issuedSq c w fun q => q.setP (Psi.p w) (condAddr (Psi.sub w) (q.a (Psi.a w)) (q.a (Psi.b w))))) ∧
  (∀ (s : State) c w, s.Issues c w mPlog [Psi.d w % 8, Psi.a w % 8, Psi.b w % 8] → Psi.op w = 0x17 →
    (Psi.sub w = 0 → exec (.pand c) s = .next (s.issuedSq c w fun q => q.setP (Psi.d w % 8) (q.p (Psi.a w % 8) && q.p (Psi.b w % 8)))) ∧
    (Psi.sub w = 1 → exec (.por c) s = .next (s.issuedSq c w fun q => q.setP (Psi.d w % 8) (q.p (Psi.a w % 8) || q.p (Psi.b w % 8)))) ∧
    (Psi.sub w = 2 → exec (.pxor c) s = .next (s.issuedSq c w fun q => q.setP (Psi.d w % 8) (q.p (Psi.a w % 8) != q.p (Psi.b w % 8)))) ∧
    (Psi.sub w = 3 → exec (.pandn c) s = .next (s.issuedSq c w fun q => q.setP (Psi.d w % 8) (q.p (Psi.a w % 8) && !q.p (Psi.b w % 8)))) ∧
    (Psi.sub w = 4 → exec (.pnot c) s = .next (s.issuedSq c w fun q => q.setP (Psi.d w % 8) (!q.p (Psi.a w % 8)))) ∧
    (Psi.sub w = 5 → exec (.pset c) s = .next (s.issuedSq c w fun q => q.setP (Psi.d w % 8) (bit w 0)))) ∧
  (∀ (q : Sequencer) (v : Bool), q.p 0 = true ∧ q.setP 0 v = q)

/-- When core c issues NOP, END, LOOP, SKIP, RDS or one of the three ALARM rows whose conditions hold, the next state is the issue of that
word with its effect and its program order: END marks the core as ended, LOOP opens an entry or passes over its body, SKIP passes n
instructions, RDS writes C[d], and ALARM sets, sets relative to the GSC seen, or disarms the alarm. The alarm of a core fires once the GSC
is past it by the least lag, outside supply and thermal hold and while the pacing is above 0. A LOOP body is left by going back while a
count above 1 remains, and by popping the entry otherwise. (R74, R76, R80, R102, R103, R104, R105, R106) -/
def Obligations.SqControl : Prop :=
  (∀ (s : State) c w, s.Issues c w 0 → Psi.sub w = 0 →
    (Psi.op w = 0x00 → exec (.nop c) s = .next (s.issued c w id)) ∧
    (Psi.op w = 0x01 → Psi.sen w = false →
      exec (.endJob c) s = .next (s.issued c w fun s => s.modCore c fun k => { k with ended := true }))) ∧
  (∀ (s : State) c w, s.Issues c w (mA ||| maskOf 75 64 ||| mImm) → Psi.op w = 0x02 → Psi.sub w ≤ 1 → Psi.len w ≠ 0 →
    (s.core c).sq.pc + Psi.len w < (s.core c).progLen → (∀ l ∈ (s.core c).sq.loops.head?, (s.core c).sq.pc + Psi.len w ≤ l.stop) →
    ((s.core c).sq.loopCount w = 0 ∨ (s.core c).sq.loops.length < 4) →
    exec (.loop c) s = .next (s.issued c w id true fun q => q.openLoop w)) ∧
  (∀ (s : State) c w, s.Issues c w (maskOf 67 64) → Psi.op w = 0x03 → Psi.sub w = 0 → bits w 67 64 ≠ 0 →
    (∀ l ∈ (s.core c).sq.loops, l.stop < (s.core c).sq.pc + 1 ∨ (s.core c).sq.pc + bits w 67 64 < l.stop) →
    (s.core c).sq.pc + bits w 67 64 + 1 < (s.core c).progLen →
    exec (.skip c) s = .next (s.issued c w id true fun q => q.advance q.pc (q.pc + bits w 67 64 + 1))) ∧
  (∀ (s : State) c w, s.Issues c w mD → Psi.op w = 0x18 →
    (Psi.sub w = 0 → exec (.rds c) s = .next (s.issuedSq c w fun q => q.setC (Psi.d w) (BitVec.ofNat 32 q.job))) ∧
    (Psi.sub w = 1 → exec (.rds c) s = .next (s.issuedSq c w fun q => q.setC (Psi.d w) (BitVec.ofNat 32 q.rank))) ∧
    (Psi.sub w = 2 → exec (.rds c) s = .next (s.issuedSq c w fun q => q.setC (Psi.d w) (BitVec.ofNat 32 q.ncores))) ∧
    (Psi.sub w = 3 → exec (.rds c) s = .next (s.issued c w fun s => s.rdsGsc c (Psi.d w))) ∧
    (Psi.sub w = 4 → exec (.rds c) s = .next (s.issued c w fun s => s.modCore c fun k =>
      { k with sq := k.sq.setC (Psi.d w) (BitVec.ofNat 32 (k.gscLatch / 2 ^ 32)) }))) ∧
  (∀ (s : State) c w, s.Issues c w (mA ||| mB) → Psi.op w = 0x1A → (s.core c).sq.boundTo 6 ≠ [] →
    (Psi.sub w = 0 → exec (.alarmSet c) s = .next (s.issued c w fun s => s.seenGsc.2.armAlarm c
      (((s.core c).sq.c (Psi.b w)).toNat * 2 ^ 32 + ((s.core c).sq.c (Psi.a w)).toNat) s.seenGsc.1)) ∧
    (Psi.sub w = 1 → exec (.alarmRelative c) s = .next (s.issued c w fun s => s.seenGsc.2.armAlarm c
      ((s.seenGsc.1 + ((s.core c).sq.c (Psi.a w)).toNat) % 2 ^ 64) s.seenGsc.1)) ∧
    (Psi.sub w = 2 → exec (.alarmDisarm c) s = .next (s.issuedSq c w fun q => { q with alarm := alarmOff }))) ∧
  (∀ (s : State) c, (s.core c).sq.alarm ≠ alarmOff → (s.core c).sq.alarm + s.seenLag.1 ≤ s.gsc → s.flag Reg.PWR_SUPSTAT.hold = false →
    s.fld Reg.PWR_THERM.state ≠ 2 → s.paceRate ≠ 0 → exec (.gscAlarmFire c) s = .next ((s.modSq c fun q => { q with alarm := alarmOff }).signalCode
      (s.core c).sq.job c 6)) ∧
  (∀ (s : State) c j (x : Job), (s.core c).ended = true → (s.core c).partDone = false → (s.core c).empty = true → (s.core c).sq.job = j →
    s.job? j = some x → x.fault = none →
    exec (.corePartEnd c) s = .next (if x.cores.all ((s.setCore c { s.core c with partDone := true }).partOver j) then
        ((s.setCore c { s.core c with partDone := true }).endJob j 0 j).settle
      else s.setCore c { s.core c with partDone := true })) ∧
  (∀ (q : Sequencer) (l : LoopEntry) r at' onward, q.loops = l :: r →
    (l.stop ≠ at' → q.advance at' onward = { q with pc := onward }) ∧
    (l.stop = at' → 1 < l.remaining → q.advance at' onward =
      { q with loops := { l with remaining := l.remaining - 1 } :: r, pc := l.start }) ∧
    (l.stop = at' → l.remaining ≤ 1 → q.advance at' onward = { q with loops := r }.advance at' onward))

/-- When core c issues SIGC, one signal leaves for the core of the named rank, or for every other core of the job in its cluster; a signal in
flight lands in the state of the job on its core. BAR arrives at the barrier of its job, and a completed round signals code 5 on every
core of the job. TCLAIM begins its hold; the claim port adds the increment to the tile counter and answers its old value, and the return
writes C[d] and P[p]. A host write sets a tile counter. (R81, R107, R108, R109, R142, R144) -/
def Obligations.SqSynchronisation : Prop :=
  (∀ (s : State) c w, s.Issues c w (mA ||| mTev) → Psi.op w = 0x60 → (s.core c).sq.bind (bits w 79 75) = 4 →
    (Psi.sub w = 0 → ((s.core c).sq.c (Psi.a w)).toNat < (s.core c).sq.ncores →
      exec (.sigcRank c) s = .next (s.issued c w fun t => t.sendSignals c (bits w 79 75)
        (((t.jobCores c).drop ((s.core c).sq.c (Psi.a w)).toNat).take 1))) ∧
    (Psi.sub w = 1 → exec (.sigcCluster c) s = .next (s.issued c w fun t => t.sendSignals c (bits w 79 75)
        ((t.jobCores c).filter fun k => k / 16 == c / 16 && k != c)))) ∧
  (∀ (s : State) c j e, ⟨c, j, e⟩ ∈ s.signals →
    exec (.coreSignalArrival c j e) s = .next (State.signalExt { s with signals := s.signals.erase ⟨c, j, e⟩ } j c e)) ∧
  (∀ (s : State) c w, s.Issues c w 0 → Psi.op w = 0x61 → Psi.sub w = 0 → (s.core c).sq.boundTo 5 ≠ [] →
    (∀ j, s.job? (s.core c).sq.job = some j → c ∉ j.arrived) →
    exec (.bar c) s = .next (s.issued c w fun t => t.modJob (s.core c).sq.job fun j => j.arrive c)) ∧
  (∀ (s : State) j (x : Job), s.job? j = some x → x.barrier ≠ 0 →
    exec (.barrierComplete j) s = .next ((s.modJob j fun y => { y with barrier := y.barrier - 1 }).signalJob j 5)) ∧
  (∀ (s : State) c w, s.Issues c w (mD ||| mA ||| mB ||| mP) [Psi.p w] → Psi.op w = 0x62 → Psi.sub w = 0 → Psi.p w ≠ 0 →
    exec (.tclaim c) s = .next (s.modCore c fun k => { k with claim :=
      (some ⟨((s.core c).sq.c (Psi.a w)).toNat, ((s.core c).sq.c (Psi.b w)).toNat, Psi.d w, Psi.p w, none⟩ : Option Claim) })) ∧
  (∀ (s : State) tile c (h : Claim), c < 256 → (s.core c).claim = some h → h.old = none → s.tileOf c = some tile →
    exec (.tileClaimApply tile [c]) s = .next ((s.setFld Reg.SEQ_TILECNT.value (s.fld Reg.SEQ_TILECNT.value tile + h.inc) tile).modCore c
      fun k => { k with claim := some { h with old := some (s.fld Reg.SEQ_TILECNT.value tile) } })) ∧
  (∀ (s : State) c w (h : Claim) v, (s.core c).claim = some h → (s.core c).fetch = some w → h.old = some v →
    exec (.tclaimReturn c) s = .next ((s.modCore c fun k => { k with claim := none }).issuedSq c w fun q =>
      (q.setC h.d (BitVec.ofNat 32 v)).setP h.p (decide (v < h.limit)))) ∧
  (∀ (s : State) tile value, s.takes (0x410000 + 4 * tile) →
    exec (.tilecntHostWrite tile value) s = .next (s.setFld Reg.SEQ_TILECNT.value value tile))

/-- The issue of an instruction that only changes its sequencer and gives no signal changes no BAR0 field, no byte of memory, no other core,
no job and no log: only the sequencer of its core, whose program counter moves on by one where no loop ends there and whose waited event
falls by the wait count. A word whose wait is not satisfied leaves the state alone while its event is bound or signals enough are still
owed, and raises 0x0405 otherwise. A word whose wait is satisfied but whose body sets a bit outside its fields raises 0x0401, whatever its
predicate. A legal word whose predicate test fails only lets its wait fall and moves on. An index outside the program raises 0x0408. (R74,
R75, R76, R94, R98, R103, R542) -/
def Obligations.Issue : Prop :=
  (∀ (s : State) c w f, Psi.sen w = false → ∃ cs, s.issuedSq c w f = { s with cores := cs } ∧
    Table.get Core.reset cs c =
      { s.core c with sq := inOrder (f ((s.core c).sq.setE (Psi.wev w) ((s.core c).sq.e (Psi.wev w) - Psi.wcnt w))) } ∧
    ∀ d, d ≠ c → Table.get Core.reset cs d = s.core d) ∧
  (∀ (q : Sequencer), q.loops = [] → inOrder q = { q with pc := q.pc + 1 }) ∧
  (∀ (s : State) c w, s.canIssue c = true → (s.core c).fetch = some w → Psi.op w = 0x08 → (s.core c).sq.e (Psi.wev w) < Psi.wcnt w →
    (((s.core c).sq.bind (Psi.wev w) ≠ 0 ∨ Psi.wcnt w ≤ (s.core c).sq.e (Psi.wev w) + (s.core c).owed (Psi.wev w)) →
      exec (.add c) s = .next s) ∧
    ((s.core c).sq.bind (Psi.wev w) = 0 → (s.core c).sq.e (Psi.wev w) + (s.core c).owed (Psi.wev w) < Psi.wcnt w →
      exec (.add c) s = .next (s.exception c 0x0405 (Psi.engine w) (s.core c).sq.pc false))) ∧
  (∀ (s : State) c w, s.canIssue c = true → (s.core c).fetch = some w → Psi.op w = 0x08 → Psi.wcnt w ≤ (s.core c).sq.e (Psi.wev w) →
    Psi.pidx w ∉ (s.core c).predPending →
    (Psi.sub w ≠ 0 ∨ w % 2 ^ 96 &&& (mD ||| mA ||| mB) ≠ w % 2 ^ 96 ∨ (Psi.sen w = false ∧ Psi.sev w ≠ 0)) →
    exec (.add c) s = .next (s.exception c 0x0401 (Psi.engine w) (s.core c).sq.pc false)) ∧
  (∀ (s : State) c w, s.canIssue c = true → (s.core c).fetch = some w → Psi.op w = 0x08 → Psi.sub w = 0 → Psi.sen w = false → Psi.sev w = 0 →
    Psi.wcnt w ≤ (s.core c).sq.e (Psi.wev w) → Psi.pidx w ∉ (s.core c).predPending → w % 2 ^ 96 &&& (mD ||| mA ||| mB) = w % 2 ^ 96 →
    (s.core c).sq.passes w = false →
    exec (.add c) s = .next ((s.modSq c fun q => q.setE (Psi.wev w) (q.e (Psi.wev w) - Psi.wcnt w)).modSq c inOrder)) ∧
  (∀ (s : State) c, s.canIssue c = true → (s.core c).fetch = none →
    exec (.nop c) s = .next ((s.exception c 0x0408 0 (s.core c).sq.pc false).issue c
      (fun w => Psi.op w == 0 || !Psi.assigned (Psi.op w)) fun _ w => { mask := 0, codes := Psi.op w == 0 && Psi.sub w == 0, order := inOrder }))

/-- A legal DPASS joins the DPA queue of its core with the operand values of its issue, and does not signal yet; joining it changes no byte.
The completion of the oldest pass, on rings that run and with no parity error in its live banks, charges its steps, writes the outputs of
all its vectors to core scratch and counts their events, gives its signal and lets the pass leave the queue; writing n vectors changes no
byte of scratch outside its 128 outputs of each. (R83, R110, R111, R112, R158, R355) -/
def Obligations.DpassIssueAndCompletion : Prop :=
  (∀ (s : State) c w, s.Issues c w (mD ||| mA ||| mB ||| mF80 ||| maskOf 79 76) (if bit w 79 then [bits w 78 76] else []) → Psi.op w = 0x20 →
    Psi.sub w < 16 → bits w 99 98 ≤ 1 → (s.core c).dpa.length < 4 →
    s.addr c (Psi.d w) % 64 = 0 → s.addr c (Psi.a w) % 64 = 0 → s.addr c (Psi.b w) % 64 = 0 →
    1 ≤ s.cnt c (Psi.f80 w) → s.cnt c (Psi.f80 w) ≤ 16320 → ¬ (bits w 99 98 = 1 ∧ bit w 79 = true) →
    s.addr c (Psi.d w) + dpaTile (bits w 97 96) ≤ scratchSize → s.addr c (Psi.a w) + dpaK (bits w 97 96) * s.cnt c (Psi.f80 w) ≤ scratchSize →
    s.addr c (Psi.b w) + (if bits w 99 98 = 1 then 256 else 512) * s.cnt c (Psi.f80 w) ≤ scratchSize →
    overlap (s.addr c (Psi.b w)) ((if bits w 99 98 = 1 then 256 else 512) * s.cnt c (Psi.f80 w)) (s.addr c (Psi.d w)) (dpaTile (bits w 97 96)) = false →
    overlap (s.addr c (Psi.b w)) ((if bits w 99 98 = 1 then 256 else 512) * s.cnt c (Psi.f80 w)) (s.addr c (Psi.a w))
      (dpaK (bits w 97 96) * s.cnt c (Psi.f80 w)) = false →
    exec (.dpass c) s = .next (s.issued c w (fun t => t.pushDpa c
      { index := (s.core c).sq.pc, width := bits w 97 96, bf16 := bits w 99 98 == 1, aw := s.addr c (Psi.d w), ax := s.addr c (Psi.a w),
        ay := s.addr c (Psi.b w), m := s.cnt c (Psi.f80 w), acc := bit w 79 && (t.core c).sq.p (bits w 78 76), signal := Psi.signal w,
        tile := [], acts := t.scratchGet c (s.addr c (Psi.a w)) (dpaK (bits w 97 96) * s.cnt c (Psi.f80 w)) }) false)) ∧
  (∀ (s : State) c (o : DpaOp), (s.pushDpa c o).mem = s.mem ∧ ((s.pushDpa c o).core c).dpa.map (fun y => (y.index, y.ay, y.signal)) =
    ((s.core c).dpa ++ [o]).map (fun y => (y.index, y.ay, y.signal))) ∧
  (∀ (s : State) c (o : DpaOp) r u, (s.core c).dpa = o :: r → s.ringsRun = true → (s.core c).dpaBad = false →
    u = s.chargeDpa c (o.m + dpaHem o.width) → u.bankError c o.width (u.liveBank c o) = none →
    exec (.dpassComplete c none) s = .next (((((u.dpaWrite c o (u.liveBank c o) o.m).signalOwn c 1 o.index o.signal).popDpa c).modCore c
      Core.settleParity).restCore c)) ∧
  (∀ (s : State) c (o : DpaOp) b n a, (a < c * scratchSize + o.ay ∨ c * scratchSize + o.ay + 128 * o.outBytes * n ≤ a) →
    Table.get 0 (s.dpaWrite c o b n).mem.scratch a = Table.get 0 s.mem.scratch a)

/-- Each VMAC, VEW, VRED, VEXP, VCMP, VSEL and VCVT row, and VTEST, whose codes are assigned and whose operands meet the conditions of its
row, joins the VRW queue of its core with the operand values of its issue and gives no signal yet; VTEST also marks its predicate as still
to be written. (R83, R99, R113, R114, R190) -/
def Obligations.VrwIssue : Prop :=
  (∀ (s : State) c w (row : Nat × Nat × (Nat → Instr)), row ∈ [(0x30, 0, Instr.vmac), (0x31, 0, .vewFma), (0x31, 1, .vewMul), (0x31, 2, .vewAdd),
      (0x31, 3, .vewSub), (0x31, 4, .vewMax), (0x31, 5, .vewMin), (0x31, 6, .vewMulv), (0x31, 7, .vewAdds), (0x32, 0, .vredMax),
      (0x32, 1, .vredSum), (0x32, 2, .vredSumsq), (0x33, 0, .vexpExp), (0x33, 1, .vexpRcp), (0x33, 2, .vexpRsqrt), (0x34, 0, .vcmp),
      (0x35, 0, .vsel), (0x37, 0, .vcvt)] →
    s.Issues c w (maskOf 95 24) → Psi.op w = row.1 → Psi.func w = row.2.1 → Psi.sub w < 3 → bits w 71 69 ≤ 5 → bits w 31 28 ≤ 3 →
    bits w 27 24 ≤ 3 → (s.core c).vrw.length < 4 → (∀ x ∈ (s.vrwOp c w).checks, x.1 = false) →
    exec (row.2.2 c) s = .next (s.issued c w (fun t => t.modCore c fun k => { k with vrw := k.vrw ++ [s.vrwOp c w] }) false)) ∧
  (∀ (s : State) c w, s.Issues c w (maskOf 95 24) [bits w 67 65] → Psi.op w = 0x36 → Psi.func w = 0 → Psi.sub w < 3 → bits w 71 69 ≤ 5 →
    bits w 31 28 ≤ 3 → bits w 27 24 ≤ 3 → (s.core c).vrw.length < 4 → (∀ x ∈ (s.vrwOp c w).checks, x.1 = false) →
    exec (.vtest c) s = .next (s.issued c w (fun t => t.modCore c fun k =>
      { k with vrw := k.vrw ++ [s.vrwOp c w], predPending := k.predPending ++ [bits w 67 65] }) false))

/-- The oldest VRW operation completes in order: it is charged, its result goes to core scratch (VTEST: to its predicate), its numeric events
are counted and it signals. With a parity error it writes no result: byte stores keep every byte, and the core takes hardware fault
0x0103. VEW ADD writes the sum of its operands rounded once, MAX and MIN choose, and a comparison with a NaN is true only for unequal.
(R113, R158, R193, R194, R197, R202) -/
def Obligations.VrwCompletion : Prop :=
  (∀ (s : State) c (o : VrwOp) r u, (s.core c).vrw = o :: r → s.ringsRun = true → (s.core c).vrwBad = false →
    u = ((s.chargeVrw c o.cost).modCore c fun k =>
      { k with vrw := r, predPending := if o.op = 0x36 then k.predPending.erase o.pdst else k.predPending }) →
    exec (.vrwOpComplete c none) s = .next ((((u.vrwWrite c o).signalOwn c 2 o.index o.signal).modCore c Core.settleParity).restCore c) ∧
    ∀ lane, exec (.vrwOpComplete c (some lane)) s = .next ((((u.modCore c fun k => { k with vrwBad := true }).hardwareFault c 0x0103
      [lane]).modCore c Core.settleParity).restCore c)) ∧
  (∀ (s : State) c (o : VrwOp) a, o.op ≠ 0x36 → (a < c * scratchSize + o.d ∨ c * scratchSize + o.d + (s.vrwResult c o).1.length ≤ a) →
    Table.get 0 (s.vrwWrite c o).mem.scratch a = Table.get 0 s.mem.scratch a) ∧
  (∀ (o : VrwOp) a c x m, o.op = 0x31 →
    (o.func = 2 → o.element a c x m = roundTo (vFmt o.fmt) (Fp.add a c)) ∧
    (o.func = 4 → o.element a c x m = roundTo (vFmt o.fmt) (Fp.max a c)) ∧
    (o.func = 5 → o.element a c x m = roundTo (vFmt o.fmt) (Fp.min a c))) ∧
  (∀ (cond : Nat) (x : Fp), condFp cond .nan x = (cond == 1) ∧ condFp cond x .nan = (cond == 1))

/-- A MOVL, MFILL or MOVD whose lengths, alignment, ranges, table and list meet the conditions joins the queue of its mover with the values of
its issue, and gives no signal of its own yet. The oldest beat sent, with core scratch, cluster SRAM and T1 on both sides, that completes
without error or wait moves its chunks to their destinations, is charged one mover step, and counts toward its operation, which leaves the
queue and signals once every byte has moved and the last of them is not in T3. A beat to T2 or T3 that has waited for the stall timeout of
its tier is charged its waits and counted, raises MEM_EVT.timeout and fails its operation. One beat moves at most 256 bytes. A chunk of a
beat from scratch to scratch is copied. (R83, R116, R117, R118, R127, R133, R134, R138, R204, R226, R227, R230) -/
def Obligations.Mover : Prop :=
  (∀ (s : State) c w, s.Issues c w (mD ||| mB ||| mA) → Psi.op w = 0x50 → Psi.sub w < 2 → ((s.core c).moverQueue (Psi.mover w)).length < 4 →
    s.addr c (Psi.d w) % 64 = 0 → s.addr c (Psi.a w) % 64 = 0 → s.cnt c (Psi.b w) % 64 = 0 → s.cnt c (Psi.b w) ≠ 0 →
    s.barred c ⟨s.addr c (Psi.d w), s.addr c (Psi.d w) + s.cnt c (Psi.b w)⟩ true = false →
    s.barred c ⟨s.addr c (Psi.a w), s.addr c (Psi.a w) + s.cnt c (Psi.b w)⟩ false = false →
    overlap (s.addr c (Psi.d w)) (s.cnt c (Psi.b w)) (s.addr c (Psi.a w)) (s.cnt c (Psi.b w)) = false →
    exec (.movl c) s = .next (s.issued c w (fun t => t.pushMover c (Psi.mover w) ⟨(t.core c).sq.pc, .movl, s.addr c (Psi.d w),
      s.addr c (Psi.a w), s.cnt c (Psi.b w), 0, 0, Psi.signal w, 0, 0, [], false⟩) false)) ∧
  (∀ (s : State) c w, s.Issues c w (mD ||| mB ||| mImm) → Psi.op w = 0x52 → Psi.sub w < 2 → ((s.core c).moverQueue (Psi.mover w)).length < 4 →
    s.addr c (Psi.d w) % 64 = 0 → s.cnt c (Psi.b w) % 64 = 0 → s.cnt c (Psi.b w) ≠ 0 →
    s.barred c ⟨s.addr c (Psi.d w), s.addr c (Psi.d w) + s.cnt c (Psi.b w)⟩ true = false →
    exec (.mfill c) s = .next (s.issued c w (fun t => t.pushMover c (Psi.mover w) ⟨(t.core c).sq.pc, .mfill (Psi.imm w), s.addr c (Psi.d w),
      0, s.cnt c (Psi.b w), 0, 0, Psi.signal w, 0, 0, [], false⟩) false)) ∧
  (∀ (s : State) c w bs (t : Descriptor), s.Issues c w (mD ||| mA ||| mF80 ||| maskOf 79 66) → Psi.op w = 0x51 → Psi.sub w < 4 →
    ((s.core c).moverQueue (Psi.mover w)).length < 4 → (s.core c).sq.ldb.toNat + 256 * bits w 79 72 + 256 ≤ scratchSize →
    bs = s.scratchGet c ((s.core c).sq.ldb.toNat + 256 * bits w 79 72) 256 → t = Descriptor.ofBytes bs → bit w 71 = false →
    s.addr c (Psi.d w) % 64 = 0 → s.addr c (Psi.a w) % 64 = 0 → t.misaligned = false → t.illegal bs false = false →
    s.barred c (t.box (s.addr c (Psi.d w)) (·.dst) false) true = false → s.barred c (t.box (s.addr c (Psi.a w)) (·.src) false) false = false →
    (t.box (s.addr c (Psi.d w)) (·.dst) false).meets (t.box (s.addr c (Psi.a w)) (·.src) false) = false →
    exec (.movd c) s = .next (s.issued c w (fun u => u.pushMover c (Psi.mover w) ⟨(u.core c).sq.pc,
      .movd t none (if bit w 97 then some (bits w 70 66) else none), s.addr c (Psi.d w), s.addr c (Psi.a w), 0, 0, 0, Psi.signal w, 0, 0, [], false⟩) false)) ∧
  (∀ (s : State) c w bs es (t : Descriptor), s.Issues c w (mD ||| mA ||| mF80 ||| maskOf 79 66) → Psi.op w = 0x51 → Psi.sub w < 4 →
    ((s.core c).moverQueue (Psi.mover w)).length < 4 → (s.core c).sq.ldb.toNat + 256 * bits w 79 72 + 256 ≤ scratchSize →
    bs = s.scratchGet c ((s.core c).sq.ldb.toNat + 256 * bits w 79 72) 256 → t = Descriptor.ofBytes bs → bit w 71 = true →
    es = ((List.range t.plistLen).map fun i => ofBytes (s.scratchGet c (s.addr c (Psi.f80 w) + 8 * i) 8)) →
    s.addr c (Psi.d w) % 64 = 0 → s.addr c (Psi.a w) % 64 = 0 → s.addr c (Psi.f80 w) % 64 = 0 → t.misaligned = false →
    t.illegal bs true = false → s.addr c (Psi.f80 w) + 8 * t.plistLen ≤ scratchSize →
    s.barred c (t.box (s.addr c (Psi.d w)) (·.dst) t.plistDst) true = false →
    s.barred c (t.box (s.addr c (Psi.a w)) (·.src) (!t.plistDst)) false = false →
    (t.box (s.addr c (Psi.d w)) (·.dst) t.plistDst).meets (t.box (s.addr c (Psi.a w)) (·.src) (!t.plistDst)) = false →
    exec (.movd c) s = .next (s.issued c w (fun u => u.pushMover c (Psi.mover w) ⟨(u.core c).sq.pc,
      .movd t (some es) (if bit w 97 then some (bits w 70 66) else none), s.addr c (Psi.d w), s.addr c (Psi.a w), 0, 0, 0, Psi.signal w, 0, 0, [], false⟩) false)) ∧
  (∀ (s : State) c m (o : MoverOp), (s.core c).moverQueue m ≠ [] → m < 2 →
    ((s.pushMover c m o).core c).moverQueue m = (s.core c).moverQueue m ++ [{ o with num := s.fabNext }]) ∧
  (∀ (s : State) c m (o : MoverOp) r u data, (s.core c).moverQueue m = o :: r → m < 2 → s.ringsRun = true → s.sendBeat c m = none →
    o.readback = false → o.far = [] → o.beats < o.sent → o.beat ≠ [] → beatTier o.beat ≤ 1 → s.fld Reg.MEM_STALLTO.timeout_us 0 ≠ 0 →
    s.beatFails o.beat true = false → s.beatBarred o.beat = false →
    (data, u) = s.readBeat c o [] (o.beat.mapIdx fun k x => (k, x)) [] →
    exec (.moverBeatComplete c m { waits := [], corrected := [], uncorrectable := none, failed := false, arrived := [] }) s =
      .next (((u.writeBeat c o.beat data).endBeat c m).restCore c)) ∧
  (∀ (s : State) c m (o : MoverOp), 256 * o.beats ≥ o.bytes → tierOf o.lastLine ≠ 3 → s.afterBeat c m o =
    ((((s.signalTiles c m).modCore c fun k => k.setMover m ((k.moverQueue m).drop 1)).signalOwn c (3 + m) o.index o.signal).runMover c m)) ∧
  (∀ (s : State) c m (o : MoverOp) r waits tier, (s.core c).moverQueue m = o :: r → m < 2 → o.readback = false → o.beats < o.sent →
    tier = beatTier o.beat → 2 ≤ tier → 1000 * s.fld Reg.MEM_STALLTO.timeout_us (tier - 1) ≤ wholeWait (s.waitsOf o.beat false waits) →
    exec (.moverBeatTimeout c m waits []) s = .next ((State.failMover (((((s.chargeWaits (s.waitsOf o.beat false waits)).countLate
      (s.waitsOf o.beat false waits) tier).count Reg.MEM_TOCNT.count 1 (tier - 1)).raise Reg.MEM_EVT.timeout Reg.MEM_EVTMASK.mask)) c m o
      (t2Writes o.beat) (srcTier o.beat == 3 || dstTier o.beat == 3)).restCore c)) ∧
  (∀ (o : MoverOp), o.beat.length ≤ 4) ∧
  (∀ (s : State) c (o : MoverOp) a d x, locate a = some (.scratch, a) → locate d = some (.scratch, d) →
    (s.readBeat c o [] [(0, some a, d)] x).2.writeBeat c [(some a, d)] (s.readBeat c o [] [(0, some a, d)] x).1 =
      s.scratchPut c d (s.scratchGet c a 64))

/-- A write of 4 bytes at a multiple of 4, or of 8 at a multiple of 8, that reaches an open block acts on the registers it covers; every other
size or alignment changes no register and is latched with kind 2. In a word whose one writable field is of kind RW, or RWL with its lock
open, that field takes its bits of the value where they are legal for it and the state of its register lets it be written, and is left
alone otherwise; nothing else changes but what is computed from the numeric flags, the ledgers' registers and the test budgets. A word
without a writable field or an effect of its own changes nothing. Writing the event bits of MEM_EVT clears exactly the bits written as 1
and leaves memory and the cores. A locked RWL field, MEM_T1ZONE.local, keeps its value, and the access is latched with kind 3. A write of
MEM_LOCK with bit 0 set acts as MEM_LOCK_SET. Clearing sat takes the count along. (R13, R502, R511, R512, R514, R515, R518) -/
def Obligations.HostRegisterWrites : Prop :=
  (∀ (s : State) offset bytes value, offset < 2 ^ 26 → s.takes offset → (bytes = 4 ∧ offset % 4 = 0) ∨ (bytes = 8 ∧ offset % 8 = 0) →
    exec (.registerWrite offset bytes value) s = .next (relabel s (s.applyWrite offset bytes value) offset bytes)) ∧
  (∀ (s : State) offset bytes value, offset < 2 ^ 26 → s.takes offset → ¬((bytes = 4 ∧ offset % 4 = 0) ∨ (bytes = 8 ∧ offset % 8 = 0)) →
    exec (.registerWrite offset bytes value) s = .next (s.latchAccess 2 offset bytes)) ∧
  (∀ (s : State) o f i v, soleField o f i → s.takes o → f.stored = true → (f.access = .rwl → s.flag (lockFor f) = false) →
    s.legalValue f i (f.part o i v) = true → s.mayWrite f i (f.part o i v) = true →
    exec (.registerWrite o 4 v) s = .next ((s.setFld f (f.part o i v) i).afterWrite o)) ∧
  (∀ (s : State) o f i v, soleField o f i → s.takes o → f.stored = true → (f.access = .rwl → s.flag (lockFor f) = false) →
    s.legalValue f i (f.part o i v) = false ∨ s.mayWrite f i (f.part o i v) = false →
    exec (.registerWrite o 4 v) s = .next (s.afterWrite o)) ∧
  (∀ (s : State) o v, o % 4 = 0 → o < 2 ^ 26 → ¬ (0x201000 ≤ o ∧ o < 0x202000) → actionWord o = none → emptyUnit o = false →
    (∀ f ∈ blockFields (blockOf o), f.writable = true → f.hits o 4 = []) → s.takes o →
    exec (.registerWrite o 4 v) s = .next (s.afterWrite o)) ∧
  (∀ (s : State) o, ¬ (0x420000 ≤ o ∧ o < 0x422000) → ¬ (0x460000 ≤ o ∧ o < 0x460300) → ¬ (0x3000000 ≤ o ∧ o < 0x3000008) → s.afterWrite o = s) ∧
  (∀ (s : State) v, s.takes 0x1000400 → ∃ t, exec (.registerWrite 0x1000400 4 v) s = .next t ∧ t.mem = s.mem ∧ t.cores = s.cores ∧ t.jobs = s.jobs ∧
    ∀ f ∈ [Reg.MEM_EVT.late, Reg.MEM_EVT.timeout, Reg.MEM_EVT.uc, Reg.MEM_EVT.t2_recall, Reg.MEM_EVT.t2_fail, Reg.MEM_EVT.t3_fail,
      Reg.MEM_EVT.reject], (bit v f.low = true → t.flag f = false) ∧ (bit v f.low = false → t.flag f = s.flag f)) ∧
  (∀ (s : State) v, s.takes 0x1000000 → s.flag Reg.MEM_LOCK.lock = true → ∃ t, exec (.registerWrite 0x1000000 4 v) s = .next t ∧
    t.fld Reg.MEM_T1ZONE.local_ = s.fld Reg.MEM_T1ZONE.local_ ∧ t.mem = s.mem ∧ t.flag Reg.TOP_ACCERR.valid = true ∧
    (s.flag Reg.TOP_ACCERR.valid = false → t.fld Reg.TOP_ACCERR.kind = 3 ∧ t.fld Reg.TOP_ACCERR.offset = 0x1000000)) ∧
  (∀ (s : State) v, s.takes 0x1000004 → v % 2 = 1 → exec (.registerWrite 0x1000004 4 v) s = exec .memLockSet s) ∧
  (∀ (s : State) counter x, counterAt counter = some x → emptyUnit counter = false → s.takes counter →
    ∃ t, exec (.counterSatClear counter) s = .next t ∧ t = (s.setFld x.1 0 x.2).setFld { x.1 with low := 0, width := 48, access := .ro } 0 x.2 ∧
      t.fld x.1 x.2 = 0 ∧ t.fld { x.1 with low := 0, width := 48, access := .ro } x.2 = 0)

/-- The link comes up with the width and speed it negotiated, and its loss clears them and fails T3. After stage 1, a configuration write puts
the function in D0 or D3hot and changes nothing else. A BAR4 write behind a set MEM_LOCK stores its bytes at the T1 offset of BAR4, and
every other byte of T1, core scratch, cluster SRAM and what was written to host memory read as before; before the lock it stores nothing
and TOP_ACCERR is valid. A BAR4 read of a range in the cloak area or lent answers zeros; one of an open range answers the bytes of T1, or
that they are poisoned, and leaves them. The memory lock sets; the weight store and KV locks set behind the memory lock, and without it
the write is latched with kind 3. (R207, R218, R225, R510, R518, R524, R540) -/
def Obligations.HostLinkAndBar4 : Prop :=
  (∀ (s : State) width speed, s.perst = false → s.pcieUp = false → s.fld Reg.TOP_STARTSTAT.stage ≠ 0 → 1 ≤ width → width ≤ 16 → 1 ≤ speed → speed ≤ 6 →
    exec (.pcieLinkUp width speed) s = .next { s with pcieUp := true, pcieWidth := width, pcieSpeed := speed }) ∧
  (∀ (s : State), s.pcieUp = true → exec .pcieLinkDown s = .next (State.failT3 { s with pcieUp := false, pcieWidth := 0, pcieSpeed := 0 })) ∧
  (∀ (s : State) hot, s.pcieUp = true → s.perst = false → 2 ≤ s.fld Reg.TOP_STARTSTAT.stage →
    exec (.powerManagementStateWrite hot) s = .next { s with d3hot := hot }) ∧
  (∀ (s : State) offset data report, s.hostReach = true → data ≠ [] → s.flag Reg.MEM_LOCK.lock = true →
    s.bar4Closed (s.bar4Off offset) data.length = false → ∃ t, exec (.bar4Write offset data report) s = .next t ∧
      t.t1Get (s.bar4Off offset) data.length = data ∧ t.mem.scratch = s.mem.scratch ∧ t.mem.sram = s.mem.sram ∧ t.mem.t3 = s.mem.t3 ∧
      ∀ b, (b < s.bar4Off offset ∨ s.bar4Off offset + data.length ≤ b) → Table.get 0 t.mem.t1 b = Table.get 0 s.mem.t1 b) ∧
  (∀ (s : State) offset data report, s.hostReach = true → data ≠ [] → s.flag Reg.MEM_LOCK.lock = false →
    ∃ t, exec (.bar4Write offset data report) s = .next t ∧ t.mem = s.mem ∧ t.flag Reg.TOP_ACCERR.valid = true) ∧
  (∀ (s : State) offset bytes report, s.hostReach = true → s.bar4Closed (s.bar4Off offset) bytes = true →
    exec (.bar4Read offset bytes report) s = .next (s.emit (.readData (List.replicate bytes 0) false))) ∧
  (∀ (s : State) offset bytes report, s.hostReach = true → s.bar4Closed (s.bar4Off offset) bytes = false → s.shutdown = none →
    ∃ t, exec (.bar4Read offset bytes report) s = .next t ∧ t.mem = s.mem ∧ t.cores = s.cores ∧
      ((s.bankFound report).isPoisoned (s.bar4Off offset) bytes = false →
        t.out.getLast? = some (.readData (s.t1Get (s.bar4Off offset) bytes) false)) ∧
      ((s.bankFound report).isPoisoned (s.bar4Off offset) bytes = true → t.out.getLast? = some (.readData [] true))) ∧
  (∀ (s : State), s.takes 0x1000004 → exec .memLockSet s = .next ((s.setFld Reg.MEM_LOCK.lock 1).setFld Reg.TOP_LOCKSTAT.mem 1)) ∧
  (∀ (s : State), s.takes 0x1400004 → exec .nvsLockSet s = .next (if s.flag Reg.MEM_LOCK.lock = true then
      (s.setFld Reg.NVS_LOCK.lock 1).setFld Reg.TOP_LOCKSTAT.nvs 1 else s.latchAccess 3 0x1400004 4)) ∧
  (∀ (s : State), s.takes 0x460038 → exec .seqKvlockSet s = .next (if s.flag Reg.MEM_LOCK.lock = true then
      (List.range 16).foldl State.showLedger ((s.setFld Reg.SEQ_KVLOCK.lock 1).setFld Reg.TOP_LOCKSTAT.kv 1) else s.latchAccess 3 0x460038 4))

/-- A flush writes back every line that is dirty then, takes them as its own, and sets busy; while one is in progress another changes nothing.
When it is complete busy is clear and it has no lines. A bank may write a line back at any time. After either write-back the lines written
back are clean, the tags of every set stay, and T1 reads as before. A borrowed or lent entry that passes the tests of R221 becomes active;
one that does not sets MEM_EVT.reject and leaves both tables and memory. Releasing a borrowed range frees the entry and tells the lender;
recalling a lent one marks it and tells the borrower the deadline; a recall received marks the borrowed entries of its range with its
deadline and sets MEM_EVT.t2_recall; a release received, or a deadline, begins zeroing, and when that is complete the range reads as
zeros, no other byte of T1 has changed, and the entry is free. A borrowed entry not released in time fails. (R214, R216, R219, R221, R222,
R223) -/
def Obligations.TierUpkeep : Prop :=
  (∀ (s : State), s.takes 0x100000C → s.flag Reg.MEM_FLUSH.busy = false → ∃ t, exec .memFlushStart s = .next t ∧ t.flag Reg.MEM_FLUSH.busy = true ∧
    t.flushing = s.dirtyLines ∧ t.mem = s.mem ∧ t.cores = s.cores ∧
    (∀ x ∈ s.dirtyLines, ∀ w ∈ (Table.get CacheSet.empty t.cache x.1).ways, w.line = x.2 → w.dirty = false) ∧
    ∀ k, (Table.get CacheSet.empty t.cache k).ways.map (·.line) = (Table.get CacheSet.empty s.cache k).ways.map (·.line)) ∧
  (∀ (s : State), s.takes 0x100000C → s.flag Reg.MEM_FLUSH.busy = true → exec .memFlushStart s = .next s) ∧
  (∀ (s : State), s.flag Reg.MEM_FLUSH.busy = true → exec .memFlushComplete s = .next (State.setFld { s with flushing := [] } Reg.MEM_FLUSH.busy 0)) ∧
  (∀ (s : State) stack line, ∃ t, exec (.stagingWriteback stack line) s = .next t ∧ t.regs = s.regs ∧ t.mem = s.mem ∧ t.cores = s.cores ∧
    (∀ w ∈ (Table.get CacheSet.empty t.cache (setKey stack line)).ways, w.line = line → w.dirty = false) ∧
    ∀ k, (Table.get CacheSet.empty t.cache k).ways.map (·.line) = (Table.get CacheSet.empty s.cache k).ways.map (·.line)) ∧
  (∀ (s : State) entry ep, entry < 16 → s.takes (0x1002024 + 64 * entry) →
    (s.badBorrow entry = true → exec (.t2mapActivate entry ep) s = .next s.rejectEntry) ∧
    (∀ u, u = ((s.setFld Reg.MEM_T2MAP.ep ep entry).setFld Reg.MEM_T2MAP.recall_end 0 entry).setFld Reg.MEM_T2MAP.state 1 entry →
      s.badBorrow entry = false → exec (.t2mapActivate entry ep) s = .next { u with avg := Table.set (avgStart 2) u.avg 2 (avgStart 2) }) ∧
    (s.fld Reg.MEM_T2MAP.state entry ≠ 0 → exec (.t2mapRelease entry) s = .next (((s.sendEngine 8 (s.fld Reg.MEM_T2MAP.ep entry) 0x1B
      (lineOf [(0, 4, s.fld Reg.MEM_T2MAP.key entry), (8, 8, s.fld Reg.MEM_T2MAP.roff entry), (0x10, 8, s.fld Reg.MEM_T2MAP.length entry)])).setFld
      Reg.MEM_T2MAP.state 0 entry).setFld Reg.MEM_T2MAP.recall_end 0 entry))) ∧
  (∀ (s : State), s.rejectEntry.flag Reg.MEM_EVT.reject = true ∧ s.rejectEntry.mem = s.mem ∧ ∀ i,
    s.rejectEntry.fld Reg.MEM_T2MAP.state i = s.fld Reg.MEM_T2MAP.state i ∧ s.rejectEntry.fld Reg.MEM_LEND.state i = s.fld Reg.MEM_LEND.state i) ∧
  (∀ (s : State) entry, entry < 16 → s.takes (0x1003024 + 64 * entry) →
    (s.badEntry Reg.MEM_LEND.state Reg.MEM_LEND.base Reg.MEM_LEND.length Reg.MEM_LEND.lease_end entry = false →
      s.badRegion (s.fld Reg.MEM_LEND.base entry * 65536) (s.fld Reg.MEM_LEND.length entry) = false →
      exec (.lendActivate entry) s = .next (s.setFld Reg.MEM_LEND.state 1 entry)) ∧
    (s.badEntry Reg.MEM_LEND.state Reg.MEM_LEND.base Reg.MEM_LEND.length Reg.MEM_LEND.lease_end entry = true ∨
      s.badRegion (s.fld Reg.MEM_LEND.base entry * 65536) (s.fld Reg.MEM_LEND.length entry) = true →
      exec (.lendActivate entry) s = .next s.rejectEntry) ∧
    (∀ u, u = s.setFld Reg.MEM_LEND.state 2 entry → s.fld Reg.MEM_LEND.state entry = 1 → exec (.lendRecall entry) s = .next (u.sendEngine 8
      (u.fld Reg.MEM_LEND.ep entry) 0x1A (lineOf [(0, 1, entry), (0x10, 8, u.fld Reg.MEM_LEND.length entry),
        (0x18, 8, u.gscXdie + u.fld Reg.MEM_LEND.grace_ms entry * 1000000)])))) ∧
  (∀ (s : State) hd roff length recallEnd v i, s.Fresh hd v → i < 16 → s.fld Reg.MEM_T2MAP.state i = 1 → s.fld Reg.MEM_T2MAP.ep i = hd.source →
    meets (s.fld Reg.MEM_T2MAP.roff i) (s.fld Reg.MEM_T2MAP.length i) roff length = true →
    ∃ t, exec (.t2RecallReceive hd roff length recallEnd) s = .next t ∧ t.fld Reg.MEM_T2MAP.state i = 2 ∧
      t.fld Reg.MEM_T2MAP.recall_end i = recallEnd % 2 ^ 64 ∧ t.flag Reg.MEM_EVT.t2_recall = true ∧ t.mem = s.mem) ∧
  (∀ (s : State) hd key v i, s.Fresh hd v → i < 16 → s.lendOpen i = true → s.fld Reg.MEM_LEND.key i = key → s.fld Reg.MEM_LEND.ep i = hd.source →
    ∃ t, exec (.t2ReleaseReceive hd key) s = .next t ∧ t.fld Reg.MEM_LEND.state i = 3 ∧ t.mem = s.mem) ∧
  (∀ (s : State) entry, s.lendOpen entry = true → exec (.lendDeadlineExpire entry) s = .next (s.setFld Reg.MEM_LEND.state 3 entry)) ∧
  (∀ (s : State) entry, s.fld Reg.MEM_LEND.state entry = 3 → ∃ t, exec (.lendZeroingComplete entry) s = .next t ∧ t.fld Reg.MEM_LEND.state entry = 0 ∧
    ∀ b, Table.get 0 t.mem.t1 b = if t1Off (s.fld Reg.MEM_LEND.base entry * 65536) ≤ b ∧
      b < t1Off (s.fld Reg.MEM_LEND.base entry * 65536) + s.fld Reg.MEM_LEND.length entry then 0 else Table.get 0 s.mem.t1 b) ∧
  (∀ (s : State) entry, s.fld Reg.MEM_T2MAP.state entry = 1 ∨ s.fld Reg.MEM_T2MAP.state entry = 2 → exec (.t2BorrowerExpire entry) s = .next (s.failT2 entry))

/-- Enabling, with a legal size, the lock set and the rings off, empties both rings and leaves memory and the store. A command tail moves to a
legal position forward by no more than the room, a completion head by no more than the entries. The command at the head of an enabled,
reachable ring of a store that is ready is taken by the row of its opcode while fewer than 16 of the ring's commands are in progress: it
joins those in progress under the next key, the head moves by one, and a command that is turned away has its status at once. A started
command whose result stands gets its record when the completion ring has room; one without a result first does its work. Writing the
record sets NVS_EVT.cmd_fail where the status is not 0, lets go of the command, puts 16 bytes at the tail of the completion ring and moves
that tail by one. (R245, R246, R247, R518) -/
def Obligations.NvsRings : Prop :=
  (∀ (s : State) value, s.takes 0x1400008 → s.flag Reg.NVS_RINGCFG.en = false → 4 ≤ bits value 3 0 → bits value 3 0 ≤ 12 →
    s.flag Reg.NVS_LOCK.lock = true → ∃ t, exec (.nvsRingEnable value) s = .next t ∧ t.flag Reg.NVS_RINGCFG.en = true ∧
      t.fld Reg.NVS_RINGCFG.log2n = bits value 3 0 ∧ t.nvHead = 0 ∧ t.nvTail = 0 ∧ t.nvCplHead = 0 ∧ t.nvCplTail = 0 ∧ t.nvs = s.nvs ∧
      t.mem = s.mem) ∧
  (∀ (s : State) value, s.takes 0x1400020 → ringLegal 12 s.nvN value = true →
    ringDist s.nvN s.nvHead s.nvTail ≤ ringDist s.nvN s.nvHead (ringPos 12 s.nvN value) →
    ringDist s.nvN s.nvHead (ringPos 12 s.nvN value) ≤ s.nvN →
    exec (.nvsCmdtailWrite value) s = .next (s.setNvPos Reg.NVS_CMDTAIL.index Reg.NVS_CMDTAIL.phase (ringPos 12 s.nvN value))) ∧
  (∀ (s : State) value, s.takes 0x140002C → ringLegal 12 s.nvN value = true →
    ringDist s.nvN s.nvCplHead (ringPos 12 s.nvN value) ≤ ringDist s.nvN s.nvCplHead s.nvCplTail →
    exec (.nvsCplheadWrite value) s = .next (s.setNvPos Reg.NVS_CPLHEAD.index Reg.NVS_CPLHEAD.phase (ringPos 12 s.nvN value))) ∧
  (∀ (s : State) host u (row : Nat × Instr) (c : NvCmd), row ∈ [(1, Instr.write host), (2, .load host), (3, .verify host), (4, .delete host),
      (5, .keep host), (6, .recv host), (7, .pload host), (8, .pevict host)] → numAt (s.nvEntry host) 0 1 = row.1 →
    s.flag Reg.NVS_RINGCFG.en = true → s.flag Reg.NVS_STATUS.ready = true → s.nvHead ≠ s.nvTail → s.closing = false →
    s.apron = false → s.nvClosed = false → (s.nvs.cmds.filter (·.index.isSome)).length < 16 →
    c = NvCmd.ofBytes s.nvs.taken (some (s.nvHead % s.nvN)) (s.nvEntry host) →
    u = ((s.touchT1 (s.fld Reg.NVS_CMDBASE.base + 64 * (s.nvHead % s.nvN)) 64).setNvPos Reg.NVS_CMDHEAD.index Reg.NVS_CMDHEAD.phase
      ((s.nvHead + 1) % (2 * s.nvN))).modNvs (fun v => { v with cmds := v.cmds ++ [c], taken := v.taken + 1 }) →
    (s.nvRefusal c (s.nvEntry host) = none → exec row.2 s = .next (u.nvStart 17)) ∧
    ∀ st, s.nvRefusal c (s.nvEntry host) = some st → exec row.2 s = .next ((u.nvDecide c st 0).nvStart 17)) ∧
  (∀ (s : State) key report (c : NvCmd) st d, (s.nvs.cmds.find? fun c => c.key == key) = some c → c.started = true → c.result = some (st, d) →
    c.index.isSome = true → s.nvRoom = true → exec (.nvsCommandComplete key report) s = .next (s.nvRecord c st d)) ∧
  (∀ (s : State) key report (c d : NvCmd), (s.nvs.cmds.find? fun c => c.key == key) = some c → c.started = true → c.result = none →
    ((s.nvWork c report).nvs.cmds.find? fun c => c.key == key) = some d →
    (d.result = none → exec (.nvsCommandComplete key report) s = .next (s.nvWork c report)) ∧
    ∀ x, d.result = some x → d.index.isSome = true → exec (.nvsCommandComplete key report) s =
      .next (if (s.nvWork c report).nvRoom then (s.nvWork c report).nvRecord d x.1 x.2 else s.nvWork c report)) ∧
  (∀ (s : State) u (c : NvCmd) st d, s.flag Reg.NVS_RINGCFG.en = true → s.apron = false →
    u = ((if st = 0 then s else s.nvEvt Reg.NVS_EVT.cmd_fail).modNvs fun v => { v with cmds := v.cmds.filter fun x => x.key != c.key }).eraseOld →
    s.nvRecord c st d = (((u.areaPut (u.fld Reg.NVS_CPLBASE.base + 16 * (u.nvCplTail % u.nvN))
      (toBytes 2 (c.index.getD 0) ++ toBytes 1 st ++ toBytes 1 (entryPhase u.nvN u.nvCplTail) ++ toBytes 4 c.shard ++ toBytes 8 d)).setNvPos
      Reg.NVS_CPLTAIL.index Reg.NVS_CPLTAIL.phase ((u.nvCplTail + 1) % (2 * u.nvN))).nvStart 17))

/-- A LOAD that reads its whole shard stores its bytes at the target and nothing else in T1, leaves the directory, and ends with status 0, or
5 where the digest does not match. A WRITE or RECV commits: status 0 puts the shard in the directory, every other status leaves the
directory as it was, and T1 keeps every byte. DELETE takes the shard out of the directory, leaves every other, and ends with 0. A VERIFY
whose shard can be read ends with 0 where the digest matches; a check that finds it wrong fails, sets NVS_EVT.digest and marks the shard
bad. A KEEP that reads a sound shard has begun its first round. PEVICT of a resident patch unmaps it and ends with 0. (R248, R251, R252,
R254, R255, R256, Table 11.3) -/
def Obligations.NvsCommandEffects : Prop :=
  (∀ (s : State) (c : NvCmd) h r, c.op = 2 → s.shard? c.shard = some h → r.uncorrectable = none → s.nvs.firstLost h.base h.length = none →
    (s.nvWork c r).t1Get (c.addr - Store.t1.base) (s.shardBytes h).length = s.shardBytes h ∧
    (∀ b, (b < c.addr - Store.t1.base ∨ c.addr - Store.t1.base + (s.shardBytes h).length ≤ b) →
      Table.get 0 (s.nvWork c r).mem.t1 b = Table.get 0 s.mem.t1 b) ∧ (s.nvWork c r).nvs.cur = s.nvs.cur ∧
    ∀ x ∈ (s.nvWork c r).nvs.cmds, x.key = c.key → x.result = some (if s.digestOk h = true then 0 else 5, h.length)) ∧
  (∀ (s : State) (c : NvCmd) g failed, ((s.commitShard c g failed).1 = 0 → ((s.commitShard c g failed).2.shard? c.shard).isSome = true) ∧
    ((s.commitShard c g failed).1 ≠ 0 → (s.commitShard c g failed).2.nvs.cur.dir = s.nvs.cur.dir) ∧
    (s.commitShard c g failed).2.mem = s.mem) ∧
  (∀ (s : State) (c : NvCmd) g r, c.run = some g → (c.op = 1 ∨ c.op = 6) → (s.nvWork c r).mem = s.mem) ∧
  (∀ (s : State) (c : NvCmd) h r, c.op = 4 → s.shard? c.shard = some h → (s.nvWork c r).shard? c.shard = none ∧ (s.nvWork c r).mem = s.mem ∧
    (∀ x ∈ s.nvs.cur.dir, x.id ≠ c.shard → x ∈ (s.nvWork c r).nvs.cur.dir) ∧
    ∀ x ∈ (s.nvWork c r).nvs.cmds, x.key = c.key → x.result = some (0, 0)) ∧
  (∀ (s : State) (c : NvCmd) h r, c.op = 3 → s.shard? c.shard = some h → r.uncorrectable = none → s.nvs.firstLost h.base h.length = none →
    s.digestOk h = true → (s.nvWork c r).mem = s.mem ∧ ∀ x ∈ (s.nvWork c r).nvs.cmds, x.key = c.key → x.result = some (0, h.length)) ∧
  (∀ (s : State) h r, s.digestOk h = false → r.uncorrectable = none → (s.checkShard h r).2.1 = false ∧
    (s.checkShard h r).2.2.flag Reg.NVS_EVT.digest = true ∧ (∀ x ∈ (s.checkShard h r).2.2.nvs.cur.dir, x.id = h.id → x.bad = true) ∧
    (s.checkShard h r).2.2.mem = s.mem) ∧
  (∀ (s : State) (c : NvCmd) h r, c.op = 5 → c.rounds = 0 → s.shard? c.shard = some h → r.uncorrectable = none →
    s.nvs.firstLost h.base h.length = none → s.digestOk h = true →
    (s.nvWork c r).mem = s.mem ∧ ∀ x ∈ (s.nvWork c r).nvs.cmds, x.key = c.key → x.rounds = 1) ∧
  (∀ (s : State) (c : NvCmd), c.op = 8 → c.result = none → c.patch < 256 → s.flag Reg.NVS_PATCHMAP.resident c.patch = true →
    (s.nvBegin c).flag Reg.NVS_PATCHMAP.resident c.patch = false ∧ (s.nvBegin c).mem = s.mem ∧
    ∀ x ∈ (s.nvBegin c).nvs.cmds, x.key = c.key → x.result = some (0, 0))

/-- A block whose NAND operation fails, outside write inhibit, is retired and counted, and where it is mapped and its channel has a free block
its data is relocated there; the directory and T1 keep everything. Data of the least worn usable block goes to the first of the most worn
free ones where the counts differ by more than 256 and no levelling of the channel is on record; a block with 200,000 page reads is
relocated; a scrub read of a sound mapped block counts its page reads and what it corrected; a background check of the shard whose check
is oldest, with no command on it, is that of a VERIFY; a checkpoint takes the journal's records. Relocating keeps the directory and every
byte of T1. (R236, R237, R238, R239, R240, R242, R255) -/
def Obligations.NvsUpkeep : Prop :=
  (∀ (s : State) block u, block < 8 * nvBlocks → s.inhibited = false → s.nvs.isRetired block = false →
    u = (s.modNvs fun v => v.journal (.retire block (if v.system block then s.nvs.freeBlock (block / nvBlocks) else none))).count
      Reg.NVS_RETIRECNT.count 1 →
    exec (.nandOperationFail block) s = .next (State.showWear (match s.nvs.freeBlock (block / nvBlocks) with
      | some q => if (s.nvs.cur.map.any fun e => e.2 == block) then u.relocate block q true else u
      | none => u)) ∧
    ∃ t, exec (.nandOperationFail block) s = .next t ∧ t.nvs.isRetired block = true ∧ t.nvs.cur.dir = s.nvs.cur.dir ∧ t.mem = s.mem) ∧
  (∀ (s : State) channel p q rest, channel < 8 → s.nvWrites = true → Table.get 0 s.nvs.levelled channel = 0 →
    leastBy s.nvs.erasesOf ((nvChannel channel).filter fun p => !s.nvs.system p && !s.nvs.isRetired p) = some p →
    s.nvs.erasesOf p + 256 < ((((nvChannel channel).filter fun p => !s.nvs.system p && !s.nvs.isRetired p).map
      s.nvs.erasesOf).foldl max 0) →
    ((((nvChannel channel).filter fun p => !s.nvs.system p && !s.nvs.isRetired p).filter s.nvs.isFree).filter fun q =>
      s.nvs.erasesOf q == ((((((nvChannel channel).filter fun p => !s.nvs.system p && !s.nvs.isRetired p).filter
        s.nvs.isFree).map s.nvs.erasesOf).foldl max 0))) = q :: rest → (s.nvs.cur.map.any fun e => e.2 == p) = true →
    exec (.nvsWearLevel channel) s = .next
      ((s.modNvs fun v => { v with levelled := Table.set 0 v.levelled channel (s.uptime + 1) }).relocate p q false)) ∧
  (∀ (s : State) block q, s.nvWrites = true → 200000 ≤ Table.get 0 s.nvs.reads block → s.nvs.freeBlock (block / nvBlocks) = some q →
    (s.nvs.cur.map.any fun e => e.2 == block) = true → exec (.nvsReadDisturbRelocate block) s = .next (s.relocate block q false)) ∧
  (∀ (s : State) block (report : NvsReport), s.flag Reg.NVS_STATUS.ready = true → (s.nvs.cur.map.any fun e => e.2 == block) = true →
    report.uncorrectable = none → exec (.nvsScrub block false report) s =
      .next (((s.count Reg.NVS_ECCCNT.count report.corrected).chargeBeats report.beats).modNvs fun v =>
        { v with reads := Table.modify 0 v.reads block (· + 1024) })) ∧
  (∀ (s : State) shard report h, s.shard? shard = some h → s.flag Reg.NVS_STATUS.ready = true → s.shardBusy shard = false →
    (∀ x ∈ s.nvs.cur.dir, h.checked ≤ x.checked) → exec (.nvsDigestCheck shard report) s = .next (s.checkShard h report).2.2) ∧
  (∀ (s : State), s.inhibited = false → 65536 ≤ s.nvs.records.length →
    exec .nvsCheckpoint s = .next (s.modNvs fun v => { v with image := v.cur, records := [] })) ∧
  (∀ (s : State) p q retire, (s.relocate p q retire).nvs.cur.dir = s.nvs.cur.dir ∧ (s.relocate p q retire).mem = s.mem)

/-- A slot goes from empty to loading with no failure on record; from loading to ready where no load is in progress, none failed, and there is
no manifest or it has been read and matches, with load_fail set and the write rejected where it does not match; and back to empty from
loading, or from ready where nothing refers to it. A write of loading to a ready or active slot, of ready while a load is in progress or
one failed, of empty to a referenced or active slot is rejected: NVS_EVT.reject is set and no slot changes its state. (R257, R268, R269) -/
def Obligations.NvsGenerations : Prop :=
  (∀ (s : State) slot keep, slot < 2 → s.takes (0x1400114 + 32 * slot) →
    (s.genState slot = 0 → ∃ t, exec (.genSetLoading slot keep) s = .next t ∧ t.genState slot = 1 ∧ t.flag Reg.NVS_GEN.kv_keep slot = keep ∧
      t.flag Reg.NVS_GEN.load_fail slot = false ∧ t.mem = s.mem ∧ t.nvs.cur = s.nvs.cur) ∧
    (s.genState slot = 2 ∨ s.genState slot = 3 → exec (.genSetLoading slot keep) s = .next s.rejectGen) ∧
    (s.genState slot = 1 → s.loadsInto slot = false → s.flag Reg.NVS_GEN.load_fail slot = false →
      s.manifest? (s.fld Reg.NVS_GEN.gen slot) = none → exec (.genSetReady slot) s = .next (s.setFld Reg.NVS_GEN.state 2 slot)) ∧
    (∀ m, s.genState slot = 1 → s.loadsInto slot = false → s.flag Reg.NVS_GEN.load_fail slot = false →
      s.manifest? (s.fld Reg.NVS_GEN.gen slot) = some m →
      (s.manifestOk slot = true → exec (.genSetReady slot) s = .next ((s.nvFetch m.base m.length).2.setFld Reg.NVS_GEN.state 2 slot)) ∧
      (s.manifestOk slot = false →
        exec (.genSetReady slot) s = .next ((s.nvFetch m.base m.length).2.setFld Reg.NVS_GEN.load_fail 1 slot).rejectGen)) ∧
    (s.genState slot = 1 → (s.loadsInto slot = true ∨ s.flag Reg.NVS_GEN.load_fail slot = true) →
      exec (.genSetReady slot) s = .next s.rejectGen) ∧
    (s.genState slot = 1 → exec (.genSetEmpty slot keep) s = .next ((s.setFld Reg.NVS_GEN.state 0 slot).setFlag Reg.NVS_GEN.kv_keep keep slot)) ∧
    (s.genState slot = 2 → s.fld Reg.NVS_GEN.refs slot = 0 → exec (.genSetEmpty slot keep) s = .next (s.setFld Reg.NVS_GEN.state 0 slot)) ∧
    (s.genState slot = 2 → s.fld Reg.NVS_GEN.refs slot ≠ 0 → exec (.genSetEmpty slot keep) s = .next s.rejectGen) ∧
    (s.genState slot = 3 → exec (.genSetEmpty slot keep) s = .next s.rejectGen)) ∧
  (∀ (s : State), s.rejectGen.flag Reg.NVS_EVT.reject = true ∧ ∀ i, s.rejectGen.genState i = s.genState i)

/-- A packet with lines of a chunk of a RECV in progress is taken and answered done; the chunk is kept once every line of it is held, and
stored in T1, there and nowhere else, where the command names a target. An abort marker, a short count, or a chunk still missing after 3
rounds ends the RECV with 0x0B; an end marker with nothing missing closes a round, and one with chunks missing asks for them. A keeper
answers a repair request with the chunks it can read and an end marker. The waits end a KEEP with 0x00, a RECV with 0x0B, a PLOAD with
0x0D or 0x0C. A member told to install writes no byte of T1 outside the slots named and leaves the directory; where the one patch named
can be read and is sound its slot is resident and the map names it, and where it is not in the store its slot is free. (R252, R253, R263,
R265) -/
def Obligations.NvsKeepersAndPatches : Prop :=
  (∀ (s : State) hd shard chunk first bytes v (c : NvCmd) u, s.Fresh hd v → s.receiving shard = some c → chunk < shardChunks c.length → chunk ∉ c.chunks →
    (∀ bs, (some bs, u) = (s.taken hd v).gather hd.source 0x17 [shard, chunk] 1024 first bytes →
      exec (.keeperChunkReceive hd shard chunk ⟨first, bytes⟩) s = .next ((u.takeChunk c chunk bs).answer hd 0x80 0)) ∧
    ((none, u) = (s.taken hd v).gather hd.source 0x17 [shard, chunk] 1024 first bytes →
      exec (.keeperChunkReceive hd shard chunk ⟨first, bytes⟩) s = .next (u.answer hd 0x80 0))) ∧
  (∀ (s : State) (c : NvCmd) chunk bs, (∀ x ∈ (s.takeChunk c chunk bs).nvs.cmds, x.key = c.key → chunk ∈ x.chunks) ∧
    (c.addr = 0 → (s.takeChunk c chunk bs).mem = s.mem) ∧
    (c.addr ≠ 0 → (s.takeChunk c chunk bs).t1Get (c.addr - Store.t1.base + 65536 * chunk) bs.length = bs ∧
      ∀ b, (b < c.addr - Store.t1.base + 65536 * chunk ∨ c.addr - Store.t1.base + 65536 * chunk + bs.length ≤ b) →
        Table.get 0 (s.takeChunk c chunk bs).mem.t1 b = Table.get 0 s.mem.t1 b)) ∧
  (∀ (s : State) hd shard kind sent v (c : NvCmd), s.Fresh hd v → s.receiving shard = some c →
    (kind ≠ 0 ∨ sent < shardChunks c.length → exec (.keeperMarkerReceive hd shard kind sent) s =
      .next (((s.taken hd v).failRecv c 0x0B).answer hd 0x80 0)) ∧
    (kind = 0 → shardChunks c.length ≤ sent → c.missing = [] → exec (.keeperMarkerReceive hd shard kind sent) s =
      .next (((s.taken hd v).modCmd c.key fun c => { c with rounds := c.rounds + 1 }).answer hd 0x80 0)) ∧
    (kind = 0 → shardChunks c.length ≤ sent → c.missing ≠ [] → 3 ≤ c.rounds → exec (.keeperMarkerReceive hd shard kind sent) s =
      .next (((s.taken hd v).failRecv c 0x0B).answer hd 0x80 0)) ∧
    (kind = 0 → shardChunks c.length ≤ sent → c.missing ≠ [] → c.rounds < 3 → exec (.keeperMarkerReceive hd shard kind sent) s =
      .next ((((s.taken hd v).modCmd c.key fun c => { c with rounds := c.rounds + 1 }).sendRepairs hd.source shard c.missing.length
        c.missing).answer hd 0x80 0))) ∧
  (∀ (s : State) (c : NvCmd) status, ∀ x ∈ (s.failRecv c status).nvs.cmds, x.key = c.key → x.result = some (status, 65536 * c.chunks.length)) ∧
  (∀ (s : State) hd shard chunks v (c : NvCmd) h u ks, s.Fresh hd v →
    (s.nvs.cmds.find? fun c => c.op == 5 && c.shard == shard && c.rounds != 0 && c.result.isNone) = some c → s.shard? shard = some h →
    ks = chunks.filter (fun k => decide (k < shardChunks h.length)) →
    u = ks.foldl (fun s k => (s.nvFetch (h.base + 65536 * k) 65536).2) (s.taken hd v) →
    exec (.repairRequestReceive hd shard chunks) s = .next (((u.sendChunks c h (ks.filter fun k =>
      (u.nvs.firstLost (h.base + 65536 * k) 65536).isNone)).sendEngine 6 hd.source 0x18 (markerLine shard 0 (shardChunks h.length))).answer
        hd 0x80 0)) ∧
  (∀ (s : State) key (c : NvCmd), (s.nvs.cmds.find? fun c => c.key == key && c.op == 5 && c.rounds != 0 && c.result.isNone) = some c →
    exec (.keepRepairPeriodEnd key) s = .next (s.nvDecide c 0 (((s.shard? c.shard).map (·.length)).getD 0))) ∧
  (∀ (s : State) key (c : NvCmd), (s.nvs.cmds.find? fun c => c.key == key && c.op == 6 && c.started && c.result.isNone) = some c →
    exec (.recvIdleTimeout key) s = .next (s.failRecv c 0x0B)) ∧
  (∀ (s : State) hd number entries (report : NvsReport) v, s.Fresh hd v → hd.source ≠ s.fld Reg.FAB_EPID.ep → s.apron = false →
    s.flag Reg.NVS_STATUS.ready = true →
    ∃ t, exec (.patchInstallReceive hd number entries report) s = .next t ∧ t.nvs.cur = s.nvs.cur ∧
      (∀ b, (∀ e ∈ entries, b < s.patchAt e.2.2 ∨ s.patchAt e.2.2 + s.fld Reg.NVS_PATCHCFG.slot_mib * 2 ^ 20 ≤ b) →
        Table.get 0 t.mem.t1 b = Table.get 0 s.mem.t1 b) ∧
      ∀ p ver slot, entries = [(p, ver, slot)] → slot < s.fld Reg.NVS_PATCHCFG.slots → slot < 256 → p < 256 →
        (s.patchShard p ver = none → t.patchState slot = 0) ∧
        ∀ h, s.patchShard p ver = some h → h.bad = false → h.length ≤ s.fld Reg.NVS_PATCHCFG.slot_mib * 2 ^ 20 →
          report.uncorrectable = none → s.nvs.firstLost h.base h.length = none → s.digestOk h = true →
          t.patchState slot = 2 ∧ t.flag Reg.NVS_PATCHMAP.resident p = true ∧ t.fld Reg.NVS_PATCHMAP.slot p = slot) ∧
  (∀ (s : State) (c : NvCmd), (s.nvs.cmds.find? fun c => c.op == 7 && c.started && c.result.isNone && !c.slots.isEmpty) = some c →
    exec .ploadReplyTimeout s = .next (s.failPload c 0x0D).nvSettle) ∧
  (∀ (s : State) (c : NvCmd), (s.nvs.cmds.find? fun c => c.op == 7 && c.started && c.result.isNone && c.slots.isEmpty) = some c →
    exec .ploadEvictTimeout s = .next (s.nvDecide c 0x0C 0).nvSettle)

/-- Enabling a disabled queue behind the KV lock stores kind, slice and size, empties the queue and enables it. Disabling an enabled one drops
its doorbells and, by the count of its disables, the completion entries reserved in it. A legal doorbell write that moves the tail of a
command queue forward stores it and remembers the order; one that moves the head of another enabled queue stores it; an illegal one sets
SEQ_SRVEVT.bad_db and changes nothing else. (R302, R303, R304, R518) -/
def Obligations.QueuesAndDoorbells : Prop :=
  (∀ (s : State) queue value, s.takes (0x500008 + 32 * queue) → s.qEn queue = false → 4 ≤ bits value 4 0 → bits value 4 0 ≤ 16 →
    s.flag Reg.SEQ_KVLOCK.lock = true → exec (.queueEnable queue value) s = .next ((((((s.setFld Reg.SEQ_QCFG.kind (bits value 25 24) queue).setFld
      Reg.SEQ_QCFG.slice (bits value 21 20) queue).setFld Reg.SEQ_QCFG.log2n (bits value 4 0) queue).setFld Reg.SEQ_QCFG.head 0 queue).setFld
      Reg.SEQ_QCFG.tail 0 queue).setFld Reg.SEQ_QCFG.en 1 queue)) ∧
  (∀ (s : State) queue, s.takes (0x500008 + 32 * queue) → s.qEn queue = true → exec (.queueDisable queue) s =
    .next { s.setFld Reg.SEQ_QCFG.en 0 queue with
      doorbells := s.doorbells.filter fun d => d.1 != queue
      queueDisables := Table.modify 0 s.queueDisables queue (· + 1) }) ∧
  (∀ (s : State) queue value, s.hostReach = true → s.blockOpen (blockOf 0x500000) = true → s.qIs queue 1 = true → ringLegal 16 (s.qN queue) value = true →
    s.qUsed queue < ringDist (s.qN queue) (s.qHead queue) (ringPos 16 (s.qN queue) value) →
    ringDist (s.qN queue) (s.qHead queue) (ringPos 16 (s.qN queue) value) ≤ s.qN queue →
    exec (.doorbellTail queue 0 value) s = .next { s.setTail queue (ringPos 16 (s.qN queue) value) with
      doorbells := s.doorbells ++ [(queue, ringPos 16 (s.qN queue) value)] }) ∧
  (∀ (s : State) queue offset value, s.hostReach = true → s.blockOpen (blockOf 0x500000) = true → (s.qIs queue 1 = true ∨ s.qEn queue = false) →
    (offset ≠ 0 ∨ s.qEn queue = false ∨ ringLegal 16 (s.qN queue) value = false ∨
      ringDist (s.qN queue) (s.qHead queue) (ringPos 16 (s.qN queue) value) < s.qUsed queue ∨
      s.qN queue < ringDist (s.qN queue) (s.qHead queue) (ringPos 16 (s.qN queue) value)) →
    exec (.doorbellTail queue offset value) s = .next (s.srvEvt Reg.SEQ_SRVEVT.bad_db)) ∧
  (∀ (s : State) queue value, s.hostReach = true → s.blockOpen (blockOf 0x500000) = true → s.qEn queue = true → s.qIs queue 1 = false →
    ringLegal 16 (s.qN queue) value = true → ringDist (s.qN queue) (s.qHead queue) (ringPos 16 (s.qN queue) value) ≤ s.qUsed queue →
    exec (.doorbellHead queue 0 value) s = .next (s.setHead queue (ringPos 16 (s.qN queue) value))) ∧
  (∀ (s : State) queue offset value, s.hostReach = true → s.blockOpen (blockOf 0x500000) = true → s.qIs queue 1 = false →
    (offset ≠ 0 ∨ s.qEn queue = false ∨ ringLegal 16 (s.qN queue) value = false ∨
      s.qUsed queue < ringDist (s.qN queue) (s.qHead queue) (ringPos 16 (s.qN queue) value)) →
    exec (.doorbellHead queue offset value) s = .next (s.srvEvt Reg.SEQ_SRVEVT.bad_db))

/-- A LAUNCH whose entry is legal and whose block meets no case of R71 makes a waiting job, clears its tile counter, writes its entry and is a
scheduling event; one that meets a case completes with status 9 and the case; an illegal entry completes with status 1 and the offset of
the field. A write of SEQ_JOBCTL while none is in progress sets busy and reaches the scheduler; while one is, it is rejected with result
4. A quantum that ends is a scheduling event: the job may be displaced where an equal waits for its cores, and a new quantum begins
otherwise. The entry update writes the entry of a resident job with its account. (R70, R71, R72, R305, R306, R354, R358, R360, R368) -/
def Obligations.LaunchesAndJobControl : Prop :=
  (∀ (s : State) queue host cmd t u j, s.Commands queue host 1 cmd → launchIllegal cmd = none → t = (s.take queue cmd).1 →
    u = (s.take queue cmd).2.readLaunch cmd.addr → u.launchCase cmd.addr = none → j = u.newJob cmd.addr t →
    j.state = .waiting ∧ exec (.launch queue host) s = .next ((State.putEntry { u.setFld Reg.SEQ_TILECNT.value 0 j.tile with
      jobs := u.jobs ++ [j], torn := Table.del u.torn j.id } j 1).schedule .plain)) ∧
  (∀ (s : State) queue host cmd t u k, s.Commands queue host 1 cmd → launchIllegal cmd = none → t = (s.take queue cmd).1 →
    u = (s.take queue cmd).2.readLaunch cmd.addr → u.launchCase cmd.addr = some k → exec (.launch queue host) s = .next (u.complete t 9 k)) ∧
  (∀ (s : State) queue host cmd o, s.Commands queue host 1 cmd → launchIllegal cmd = some o →
    exec (.launch queue host) s = .next ((s.take queue cmd).2.complete (s.take queue cmd).1 1 o)) ∧
  (∀ (s : State) job (row : Nat × Instr), row ∈ [(1, Instr.jobSuspend job), (2, .jobResume job), (3, .jobAbort job)] → s.takes 0x480010 →
    (s.flag Reg.SEQ_JOBCTLSTAT.busy = false →
      exec row.2 s = .next ((s.setFld Reg.SEQ_JOBCTLSTAT.busy 1).schedule (.control row.1 job))) ∧
    (s.flag Reg.SEQ_JOBCTLSTAT.busy = true → exec row.2 s =
      .next ((s.setFld Reg.SEQ_JOBCTLSTAT.result 4).raise Reg.SEQ_SCHEDEVT.ctl_reject Reg.SEQ_SCHEDEVTMASK.mask))) ∧
  (∀ (s : State) job (j : Job), s.job? job = some j → j.state = .resident → s.inSwitch job = false → j.fault = none →
    (s.jobs.any (fun v => (v.state == .waiting || v.state == .suspended) && v.fault.isNone && v.prio == j.prio &&
      v.cores.any j.cores.contains) = false →
      exec (.quantumExpire job) s = .next ((s.modJob job fun j => { j with placedAt := s.uptime }).schedule .plain)) ∧
    (s.jobs.any (fun v => (v.state == .waiting || v.state == .suspended) && v.fault.isNone && v.prio == j.prio &&
      v.cores.any j.cores.contains) = true →
      exec (.quantumExpire job) s = .next ((s.modJob job fun j => { j with quantumOver := true }).schedule .plain))) ∧
  (∀ (s : State) job (j : Job), s.job? job = some j → j.state = .resident → exec (.jobEntryUpdate job) s = .next (s.updateJob job id)) ∧
  (∀ (s : State) job (j : Job), s.job? job = some j → s.updateJob job id =
    let u := s.modJob job fun x => x.accrue s.uptime
    match u.job? job with
    | some x => u.putEntry x x.state.code
    | none => u)

/-- A C-die whose outgoing cores are at rest goes from drain to save. At the end of save every outgoing job of the die has been saved, and a
switch without an incoming job is done there; with one, its cores on the die have their scratch made ready and the die is ready. At the
end of ready the incoming cores begin and the die is done. Saving a core keeps its engines' and its sequencer's state in the slot's image
and its scratch bytes in the slot's place of the cloak area, and empties that core and no other. (R91, R93, R357, R361, R362, R363, R364,
R365) -/
def Obligations.SwitchPhases : Prop :=
  (∀ (s : State) job cdie (w : Switch), s.switchOf job = some w → w.at cdie = .drain → (w.outgoing.all (fun x => match s.job? x.1 with
      | some j => (j.onDie cdie).all fun c => (s.core c).sq.job != j.id || (s.core c).atRest
      | none => true)) = true → exec (.switchDrainComplete job cdie) s = .next (s.setPhase w cdie .save)) ∧
  (∀ (s : State) job cdie (w : Switch), s.switchOf job = some w → w.at cdie = .save → w.incoming = none →
    exec (.switchSaveComplete job cdie) s = .next ((((w.outgoing.filterMap fun x => s.job? x.1).filter fun j => j.fault.isNone).flatMap
      fun j => j.onDie cdie).foldl State.idleCore (w.outgoing.foldl (fun s x => s.suspendSaved w.held x) (w.outgoing.foldl
        (fun s x => s.saveJob cdie x) (s.setPhase w cdie .done)))).settle) ∧
  (∀ (s : State) job cdie (w : Switch) (j : Job), s.switchOf job = some w → w.at cdie = .save → w.incoming.bind s.job? = some j → w.outgoing = [] →
    j.clusterSram = false → j.onDie cdie ≠ [] → exec (.switchSaveComplete job cdie) s =
      .next ((j.onDie cdie).foldl (fun s c => s.readyCore j.id c) (s.setPhase w cdie .ready)).settle) ∧
  (∀ (s : State) job cdie (w : Switch) (j : Job), s.switchOf job = some w → w.incoming.bind s.job? = some j → w.at cdie = .ready → j.onDie cdie = [] →
    exec (.switchReadyComplete job cdie) s = .next (s.setPhase w cdie .done).settle) ∧
  (∀ (s : State) job cdie (w : Switch) (j x : Job) c, s.switchOf job = some w → w.incoming.bind s.job? = some j → w.at cdie = .ready →
    j.onDie cdie = [c] → s.job? j.id = some x → x.fault = none →
    exec (.switchReadyComplete job cdie) s = .next (((s.setPhase w cdie .done).startCore j c).settle)) ∧
  (∀ (s : State) j slot c, slot < 2 → c < 256 → ∃ t : State, t = s.saveCore j slot c ∧ (∃ im, (2 * c + slot, im) ∈ t.images ∧ im.job = j ∧
      im.core = { s.core c with prog := [], progLen := 0, frozen := false } ∧ im.quiesced = (s.core c).quiesced) ∧
    t.cloakGet (s.slotBase slot + cloakScratch c) scratchSize = shiftCells (c * scratchSize) (s.slotBase slot + cloakScratch c)
      (s.mem.scratch.filter fun e => e.1 / scratchSize == c) ∧
    t.core c = Core.reset ∧ t.mem.scratch = s.mem.scratch ∧ t.mem.sram = s.mem.sram ∧ ∀ d, d ≠ c → t.core d = s.core d)

/-- A FORK whose source, target and length are legal makes the new sequence, or completes with 3 where table blocks are short. PARK, DROP and
RELEASE on a sequence of the slice run at once when no batch pins it, and are held while one does, RELEASE with its flag set at once.
RESTORE of a parked sequence begins, or completes with 3 where its sets are short; of another it completes with 6. RELEASE of a served
sequence that is not a hold sequence completes with 1. A command on no sequence completes with 2; on one of another slice with 7. (R285,
R288, R291, R293, R295, R299, R307, R309) -/
def Obligations.KvCommands : Prop :=
  (∀ (s : State) queue host cmd u, s.Commands queue host 0x40 cmd → u = (s.take queue cmd).2 →
    firstNonzero cmd.raw ([1, 0xB, 0x11] ++ span 0x20 0x40) = none → numAt cmd.raw 0xA 1 < 8 → inT1T3 cmd.hist (4 * cmd.len) = true →
    u.kvState (numAt cmd.raw 8 2) = 1 → u.servedBy queue (u.kvLedger (numAt cmd.raw 8 2)) = true → u.kvState cmd.seq = 0 → 1 ≤ cmd.len →
    cmd.len ≤ u.kvValid (numAt cmd.raw 8 2) →
    exec (.fork queue host) s = .next (match u.fork (u.kvLedger (numAt cmd.raw 8 2)) cmd.seq (numAt cmd.raw 8 2) cmd.len (numAt cmd.raw 0xA 1)
        cmd.hist cmd.tag with
      | some t => t.endKv (s.take queue cmd).1 0
      | none => u.endKv (s.take queue cmd).1 3)) ∧
  (∀ (s : State) queue host copies cmd u, s.Commands queue host 0x41 cmd → u = (s.take queue cmd).2 → u.OnSequence queue cmd → 1 ≤ cmd.len →
    cmd.len ≤ 86400000 → exec (.park queue host copies) s =
      .next (u.runOrHold (u.kvLedger cmd.seq) ⟨cmd.seq, 0x41, cmd.len, some (s.take queue cmd).1⟩ copies)) ∧
  (∀ (s : State) queue host copies cmd u, s.Commands queue host 0x42 cmd → u = (s.take queue cmd).2 → u.OnSequence queue cmd →
    (u.kvState cmd.seq ≠ 2 → exec (.restore queue host copies) s = .next (u.endKv (s.take queue cmd).1 6)) ∧
    (u.kvState cmd.seq = 2 → exec (.restore queue host copies) s =
      .next (match u.restore (u.kvLedger cmd.seq) cmd.seq cmd.tag copies (some (s.take queue cmd).1) with
        | some x => x.2
        | none => u.endKv (s.take queue cmd).1 3))) ∧
  (∀ (s : State) queue host cmd u, s.Commands queue host 0x43 cmd → u = (s.take queue cmd).2 → u.OnSequence queue cmd →
    exec (.drop queue host) s = .next (u.runOrHold (u.kvLedger cmd.seq) ⟨cmd.seq, 0x43, cmd.len, some (s.take queue cmd).1⟩ noCopies)) ∧
  (∀ (s : State) queue host cmd u, s.Commands queue host 0x44 cmd → u = (s.take queue cmd).2 → u.OnSequence queue cmd →
    (∀ q, u.seq? cmd.seq = some q → q.hold = true) →
    ∃ w : State, w = u.runOrHold (u.kvLedger cmd.seq) ⟨cmd.seq, 0x44, 0, some (s.take queue cmd).1⟩ noCopies ∧
    exec (.release queue host) s = .next (if w.kvState cmd.seq = 0 then w.forgetRestore cmd.seq else w)) ∧
  (∀ (s : State) queue host cmd u q, s.Commands queue host 0x44 cmd → u = (s.take queue cmd).2 → u.OnSequence queue cmd → u.seq? cmd.seq = some q →
    q.hold = false → exec (.release queue host) s = .next (u.endKv (s.take queue cmd).1 1)) ∧
  (∀ (s : State) lg c cd, s.kvPinned c.handle = true → c.op ≠ 0x44 → s.runOrHold lg c cd = { s with heldCmds := s.heldCmds ++ [c] }) ∧
  (∀ (s : State) lg c cd (w : State), s.kvPinned c.handle = true → c.op = 0x44 → w = (s.decision.flags c.handle (s.kvFlags c.handle + 16 *
      (1 - bits (s.kvFlags c.handle) 4 4))).commit lg 2 0xFFFFFFFF ((c.taken.map (·.tag)).getD 0) →
    s.runOrHold lg c cd = { w with heldCmds := w.heldCmds ++ [c] }) ∧
  (∀ (s : State) lg c cd, s.kvPinned c.handle = false → s.runOrHold lg c cd = s.runHeld lg c cd) ∧
  (∀ (s : State) queue host copies cmd u (row : Nat × Instr), row ∈ [(0x42, Instr.restore queue host copies), (0x43, .drop queue host),
      (0x44, .release queue host)] ∨ (row = (0x41, .park queue host copies) ∧ 1 ≤ cmd.len ∧ cmd.len ≤ 86400000) →
    s.Commands queue host row.1 cmd → u = (s.take queue cmd).2 → firstNonzero cmd.raw ([1, 0xB, 0x11] ++ span 0x20 0x40) = none →
    (u.kvState cmd.seq = 0 → exec row.2 s = .next (u.endKv (s.take queue cmd).1 2)) ∧
    (u.kvState cmd.seq ≠ 0 → u.servedBy queue (u.kvLedger cmd.seq) = false → exec row.2 s = .next (u.endKv (s.take queue cmd).1 7)))

/-- A record that is due at a member is applied with those it releases; an early one is kept; a stale one changes nothing; one that is refused
records fault 0x0601 and faults the job; at the former none changes anything. A gap of 2 ms faults with 0x0602. The former visits its
parked sequences and drops those whose time has come, ends a restore that lacks replies, and counts a reply to a restore copy that is in
progress. A PLOAD reply reaches the command of this module. Each packet is answered done. (R282, R284, R292, R293, R294, R301, R422) -/
def Obligations.LedgerRecords : Prop :=
  (∀ (s : State) hd r copies v u, s.Fresh hd v → s.ledgerOn r.ledger = true → u = (s.taken hd v).takeRecord r copies →
    exec (.ledgerRecordReceive hd r copies) s = .next ((u.applyEarlyBatches r.ledger (u.srv r.ledger).early.length).answer hd 0x80 0)) ∧
  (∀ (s : State) (r : LedgerRecord) cd, s.isFormer r.ledger = false → s.refuses r = true → s.takeRecord r cd = s.ledgerFault r.ledger 0x0601) ∧
  (∀ (s : State) (r : LedgerRecord) cd, s.isFormer r.ledger = true → s.takeRecord r cd = s) ∧
  (∀ (s : State) (r : LedgerRecord) cd u, s.isFormer r.ledger = false → s.refuses r = false → r.record = s.fld Reg.SEQ_KVSTAT.record r.ledger →
    u = (s.applyRecord r cd).applyEarly r.ledger s.earlyRecords.length →
    ∃ at', s.takeRecord r cd = { u with lastRecordAt := at' }) ∧
  (∀ (s : State) (r : LedgerRecord) cd, s.isFormer r.ledger = false → s.refuses r = false → laterBy 32 r.record (s.fld Reg.SEQ_KVSTAT.record r.ledger) = false →
    r.record ≠ s.fld Reg.SEQ_KVSTAT.record r.ledger → s.takeRecord r cd = s) ∧
  (∀ (s : State) (r : LedgerRecord) cd, s.isFormer r.ledger = false → s.refuses r = false → r.record ≠ s.fld Reg.SEQ_KVSTAT.record r.ledger →
    laterBy 32 r.record (s.fld Reg.SEQ_KVSTAT.record r.ledger) = true →
    ∃ at', s.takeRecord r cd = { s with earlyRecords := s.earlyRecords ++ [(r, cd)], lastRecordAt := at' }) ∧
  (∀ (s : State) ledger, (∃ x ∈ s.lastRecordAt, x.1 = ledger) → exec (.ledgerGapTimeout ledger) s =
    .next (State.ledgerFault { s with lastRecordAt := Table.del s.lastRecordAt ledger } ledger 0x0602)) ∧
  (∀ (s : State) ledger, s.isFormer ledger = true → exec (.parkedTtlVisit ledger) s = .next (((List.range 65536).filter fun h =>
      s.kvState h == 2 && s.kvLedger h == ledger).foldl (fun s h => if s.kvField h 0x18 8 ≤ s.gscSe then s.expirePark ledger h else s) s)) ∧
  (∀ (s : State) handle r, (s.restoring.find? fun r => r.handle == handle) = some r →
    exec (.restoreReplyTimeout handle) s = .next (s.copyFailed r.ledger handle (r.positions.headD 0))) ∧
  (∀ (s : State) hd ledger handle record position v u, s.Fresh hd v → s.isFormer ledger = true → u = s.taken hd v →
    ((∃ r ∈ s.restoring, r.handle = handle ∧ record ∈ r.records ∧ position ∈ r.positions) →
      exec (.memberReplyReceive hd 1 ledger handle record position) s = .next ((u.restoreReply ledger handle hd.source position).answer hd 0x80 0)) ∧
    exec (.memberReplyReceive hd 2 ledger handle record position) s = .next ((u.copyFailed ledger handle position).answer hd 0x80 0)) ∧
  (∀ (s : State) hd ledger handle record position v u, s.Fresh hd v → s.flag Reg.NVS_STATUS.ready = true → u = s.taken hd v →
    exec (.memberReplyReceive hd 3 ledger handle record position) s = .next ((u.ploadReply record hd.source true).answer hd 0x80 0) ∧
    exec (.memberReplyReceive hd 4 ledger handle record position) s = .next ((u.ploadReply record hd.source false).answer hd 0x80 0))

/-- An SEITER, SEPAGE, SEKV, SELOGIT, XDISP or XRET whose block is aligned and lies in core scratch, whose count and fields are in range, and
whose rows, where its entries name some, lie in core scratch too, joins the engine instructions of its core and gives no signal yet.
SEDONE joins with a block of no bytes. (R85, R88, R121, R279, R280, R314, R315, R317, R341, R343) -/
def Obligations.EngineInstructions : Prop :=
  (∀ (s : State) c w blk n (row : Nat × Nat × Nat × Nat × Nat × (Nat → Instr)), row ∈ [(0x90, 0, 64, 128, 1024, Instr.seiterBatch),
      (0x90, 1, 0, 48, 1024, .seiterResult), (0x91, 0, 0, 16, 256, .sepage), (0x92, 0, 0, 16, 256, .sekv)] →
    s.Issues c w mBlock → Psi.op w = row.1 → Psi.sub w = row.2.1 → blk = s.addr c (Psi.d w) → n = s.cnt c (Psi.a w) → blk % 256 = 0 →
    1 ≤ n → n ≤ row.2.2.2.2.1 → blk + (row.2.2.1 + row.2.2.2.1 * n) ≤ scratchSize →
    (row.1 = 0x90 → row.2.1 = 1 → ∃ lg, s.ledgerOf c = some lg ∧ s.inSampler lg = true) →
    exec (row.2.2.2.2.2 c) s = .next (s.issued c w (fun t => t.modCore c fun k => { k with engine := k.engine ++
      [(⟨k.sq.pc, row.1, row.2.1, blk, n, Psi.signal w⟩ : EngineOp)] }) false)) ∧
  (∀ (s : State) c w blk n (row : Nat × (Nat → Instr)), row ∈ [(0, Instr.selogitTarget), (1, .selogitDraft)] → s.Issues c w mBlock → Psi.op w = 0x93 →
    Psi.sub w = row.1 → blk = s.addr c (Psi.d w) → n = s.cnt c (Psi.a w) → blk % 256 = 0 → blk + 64 ≤ scratchSize →
    s.badLogits c row.1 blk n = false → (∀ r ∈ s.logitRanges c blk n, r.1 + r.2 ≤ scratchSize ∧ r.1 < scratchSize) →
    exec (row.2 c) s = .next (s.issued c w (fun t => t.modCore c fun k => { k with engine := k.engine ++
      [(⟨k.sq.pc, 0x93, row.1, blk, n, Psi.signal w⟩ : EngineOp)] }) false)) ∧
  (∀ (s : State) c w blk n, s.Issues c w mBlock → Psi.op w = 0x80 → Psi.sub w = 0 → blk = s.addr c (Psi.d w) → n = s.cnt c (Psi.a w) → blk % 256 = 0 →
    blk + (64 + 16 * n) ≤ scratchSize → s.badDispatch c blk n = false →
    (∀ r ∈ s.dispatchRows c blk n, r.1 + r.2 ≤ scratchSize ∧ r.1 < scratchSize) →
    exec (.xdisp c) s = .next (s.issued c w (fun t => t.modCore c fun k => { k with engine := k.engine ++
      [(⟨k.sq.pc, 0x80, 0, blk, n, Psi.signal w⟩ : EngineOp)] }) false)) ∧
  (∀ (s : State) c w blk n, s.Issues c w mBlock → Psi.op w = 0x81 → Psi.sub w = 0 → blk = s.addr c (Psi.d w) → n = s.cnt c (Psi.a w) → blk % 256 = 0 →
    blk + (64 + 8 * n) ≤ scratchSize → s.badReturn c blk n = false →
    (∀ r ∈ s.returnRows c blk n, r.1 + r.2 ≤ scratchSize ∧ r.1 < scratchSize) →
    exec (.xret c) s = .next (s.issued c w (fun t => t.modCore c fun k => { k with engine := k.engine ++
      [(⟨k.sq.pc, 0x81, 0, blk, n, Psi.signal w⟩ : EngineOp)] }) false)) ∧
  (∀ (s : State) c w blk, s.Issues c w mBlock → Psi.op w = 0x94 → Psi.sub w = 0 → blk = s.addr c (Psi.d w) → blk % 256 = 0 → blk < scratchSize →
    exec (.sedone c) s = .next (s.issued c w (fun t => t.modCore c fun k => { k with engine := k.engine ++
      [(⟨k.sq.pc, 0x94, 0, blk, s.cnt c (Psi.a w), Psi.signal w⟩ : EngineOp)] }) false))

/-- The waits of the SE's beats are charged, and the oldest SE instruction of the core ends: SEITER writes the descriptor of the core's batch,
or its result rows once they are ready, to its block; SEPAGE and SEKV do their entries in order; SELOGIT takes its rows; SEDONE records
the core's part. An entry of SEPAGE or SEKV that is not allowed fails the instruction with 0x040A. The XE sends the rows of the oldest
exchange instruction and ends it; one that it refuses sets XE_EVT.refused and fails with 0x040B. An instruction that ends gives its
signal, one that fails raises its exception. (R121, R227, R279, R280, R314, R315, R317, R341, R343, R347) -/
def Obligations.EngineCompletions : Prop :=
  (∀ (s : State) c copies (o : EngineOp) u lg b, ((s.core c).engine.find? fun o => decide (0x90 ≤ o.op)) = some o → s.seRuns = true →
    u = s.chargeBeats copies.beats → u.ledgerOf c = some lg → u.coreBatch c lg = some b →
    (o.op = 0x90 → o.func = 0 → exec (.seOpComplete c copies) s = .next ((u.scratchPut c o.blk
      (u.descriptorBytes b ((u.srv lg).missing.contains b.number) o.n)).endEngineOp c o true 0x040A)) ∧
    (o.op = 0x90 → o.func ≠ 0 → u.resultsReady lg b = true → exec (.seOpComplete c copies) s = .next ((u.scratchPut c o.blk
      (((resultRowsOf b).take o.n).flatMap fun r => resultBytes (u.resultRow lg b r))).endEngineOp c o true 0x040A)) ∧
    (o.op = 0x94 → exec (.seOpComplete c copies) s =
      .next ((u.recordDone c lg { copies with beats := [] }).endEngineOp c o true 0x040A))) ∧
  (∀ (s : State) c copies (o : EngineOp) u, ((s.core c).engine.find? fun o => decide (0x90 ≤ o.op)) = some o → s.seRuns = true →
    u = s.chargeBeats copies.beats →
    (o.op = 0x91 → exec (.seOpComplete c copies) s = .next ((u.doEntries (fun s a => s.pageRequest c a) o.blk o.n).1.endEngineOp c o
      (u.doEntries (fun s a => s.pageRequest c a) o.blk o.n).2 0x040A)) ∧
    (o.op = 0x92 → exec (.seOpComplete c copies) s = .next ((u.doEntries (fun s a => s.appendRow c a) o.blk o.n).1.endEngineOp c o
      (u.doEntries (fun s a => s.appendRow c a) o.blk o.n).2 0x040A)) ∧
    (o.op = 0x93 → exec (.seOpComplete c copies) s = .next ((u.takeLogits c o).endEngineOp c o true 0x040A))) ∧
  (∀ (s : State) f blk, s.doEntries f blk 0 = (s, true)) ∧
  (∀ (s : State) f blk n, f s blk = none → s.doEntries f blk (n + 1) = (s, false)) ∧
  (∀ (s : State) f blk n t, f s blk = some t → s.doEntries f blk (n + 1) = t.doEntries f (blk + 16) n) ∧
  (∀ (s : State) c beats (o : EngineOp) u x p, ((s.core c).engine.find? fun o => decide (o.op < 0x90)) = some o → s.seRuns = true →
    u = s.chargeBeats beats → x = u.blockNum c o.blk 0 1 → p = u.blockNum c o.blk 4 4 → u.xeRefuses c x p = false →
    (o.op = 0x80 → u.blockNum c o.blk 2 2 < u.fld Reg.XE_XCFG.nsrc x →
      (∀ z ∈ ((u.ctx x).at p).sources, z.index ≠ u.blockNum c o.blk 2 2) →
      ∃ t, u.dispatch c o = some t ∧ exec (.xeRowsTaken ⟨c, beats⟩) s = .next (t.endEngineOp c o true 0x040B)) ∧
    (o.op ≠ 0x80 → (∀ l, u.hosts x l = true → bit (u.blockNum c o.blk 2 2) l = true → ∀ z ∈ ((u.ctx x).at p).closed, z.1 ≠ l) →
      ∃ t, u.giveBack c o = some t ∧ exec (.xeRowsTaken ⟨c, beats⟩) s = .next (t.endEngineOp c o true 0x040B))) ∧
  (∀ (s : State) c beats (o : EngineOp) u, ((s.core c).engine.find? fun o => decide (o.op < 0x90)) = some o → s.seRuns = true →
    u = s.chargeBeats beats → u.xeRefuses c (u.blockNum c o.blk 0 1) (u.blockNum c o.blk 4 4) = true →
    exec (.xeRowsTaken ⟨c, beats⟩) s = .next ((u.xeEvt Reg.XE_EVT.refused).endEngineOp c o false 0x040B)) ∧
  (∀ (s : State) c (o : EngineOp) cause u, u = s.modCore c (fun k => { k with engine := k.engine.erase o }) →
    s.endEngineOp c o true cause = (u.signalOwn c 6 o.index o.signal).restCore c ∧
    s.endEngineOp c o false cause = (u.exception c cause 6 o.index true).restCore c)

/-- An ADMIT whose entry and parameter block are legal, whose handle is free, whose prefix source, if any, is legal, and whose stream queue
has room admits the sequence; an illegal field completes with 1 and its offset, another slice with 7, a handle in use with 2, a full
stream queue with 0x0B. CANCEL of an unpinned sequence ends it with status 5; of a pinned one it is kept for the batch's end, and a second
one waits; of an ended one it completes with 8, of none with 2, of another slice's with 7. Serving is enabled with its job while it is not
enabled. (R307, R308, R309, R310, R329, R332) -/
def Obligations.AdmissionAndCancel : Prop :=
  (∀ (s : State) queue host param token cmd t p u, s.Commands queue host 2 cmd → t = (s.take queue cmd).1 → p = (s.take queue cmd).2.areaGet cmd.addr 512 param →
    u = (s.take queue cmd).2.touchT1 cmd.addr 512 →
    (∀ o, admitIllegal cmd = some o → exec (.admitSeq queue host param token) s = .next ((s.take queue cmd).2.complete t 1 o)) ∧
    (admitIllegal cmd = none → u.servedBy queue cmd.ledger = false →
      exec (.admitSeq queue host param token) s = .next (u.complete t 7 cmd.ledger)) ∧
    (admitIllegal cmd = none → u.servedBy queue cmd.ledger = true →
      (∀ o, u.paramIllegal p cmd.ledger queue = some o → exec (.admitSeq queue host param token) s = .next (u.complete t 1 o)) ∧
      (u.paramIllegal p cmd.ledger queue = none → u.kvState cmd.seq ≠ 0 →
        exec (.admitSeq queue host param token) s = .next (u.complete t 2 cmd.seq)) ∧
      (u.paramIllegal p cmd.ledger queue = none → u.kvState cmd.seq = 0 →
        (cmd.src ≠ 0xFFFF → u.kvState cmd.src = 1 ∧ u.kvLedger cmd.src = cmd.ledger ∧ 1 ≤ cmd.len ∧
          cmd.len ≤ min (u.kvValid cmd.src) (if bit (numAt p 3 1) 4 then numAt p 4 4 else numAt p 4 4 - 1)) →
        (u.streamFree (numAt p 0 2) ≠ 0 → exec (.admitSeq queue host param token) s = .next (u.admitCmd cmd p token t)) ∧
        (u.streamFree (numAt p 0 2) = 0 →
          exec (.admitSeq queue host param token) s = .next (u.complete t 0x0B (numAt p 0 2)))))) ∧
  (∀ (s : State) queue host cmd t u, s.Commands queue host 3 cmd → t = (s.take queue cmd).1 → u = (s.take queue cmd).2 →
    firstNonzero cmd.raw ([1, 0x11] ++ span 0x20 0x40) = none →
    (u.seq? cmd.seq = none → (u.kvState cmd.seq = 0 ∨ u.servedBy queue (u.kvLedger cmd.seq) = true) → exec (.cancel queue host) s =
      .next (if u.ended.any fun x => x.1 == cmd.seq then u.complete t 8 cmd.seq else u.complete t 2 cmd.seq)) ∧
    (u.seq? cmd.seq = none → u.kvState cmd.seq ≠ 0 → u.servedBy queue (u.kvLedger cmd.seq) = false →
      exec (.cancel queue host) s = .next (u.complete t 7 (u.kvLedger cmd.seq))) ∧
    (∀ q : SeqState, u.seq? cmd.seq = some q → u.servedBy queue q.ledger = false →
      exec (.cancel queue host) s = .next (u.complete t 7 q.ledger)) ∧
    (∀ q : SeqState, u.seq? cmd.seq = some q → u.servedBy queue q.ledger = true →
      (u.kvPinned cmd.seq = false → exec (.cancel queue host) s =
        .next (((u.setSeq cmd.seq { q with cancel := some t }).endSeq cmd.seq 5 2 0xFFFFFFFF false t.tag).forgetRestore cmd.seq)) ∧
      (u.kvPinned cmd.seq = true → q.cancel = none → exec (.cancel queue host) s = .next (((u.decision.flags cmd.seq (u.kvFlags cmd.seq +
        16 * (1 - bits (u.kvFlags cmd.seq) 4 4))).commit q.ledger 2 0xFFFFFFFF t.tag).setSeq cmd.seq { q with cancel := some t })) ∧
      (u.kvPinned cmd.seq = true → q.cancel.isSome = true → exec (.cancel queue host) s =
        .next { u with heldCmds := u.heldCmds ++ [⟨cmd.seq, 3, 0, some t⟩] }))) ∧
  (∀ (s : State) ledger value, ledger < 16 → s.takes (0x470100 + 64 * ledger) → s.flag Reg.SEQ_SERVE.en ledger = false → bit value 31 = true →
    exec (.serveEnable ledger value) s = .next ((s.setFld Reg.SEQ_SERVE.job (bits value 15 0) ledger).setFld Reg.SEQ_SERVE.en 1 ledger))

/-- The former forms a batch when the gap has passed and fewer than depth are in flight, sends its descriptor to the group and applies it.
Lines of a descriptor are kept until the last one is there; then, when no other waits, a member applies the batch that is next once its
records are applied, keeps it or a later one until then, and drops an earlier one. Halves of a sampler partial are kept until both are
there; the partial of an applied batch then takes the place of that member's earlier one. A complete row gets its result. Items of an end
report are kept until all are there and reach the former together. Proposals are accepted up to the first that differs. (R284, R310, R313,
R316, R318, R319, R321, R324, R424) -/
def Obligations.Batches : Prop :=
  (∀ (s : State) ledger copies, s.seRuns = true → s.isFormer ledger = true → s.flag Reg.SEQ_SERVE.en ledger = true →
    (∀ g, (s.srv ledger).lastFormed = some g → g + s.fld Reg.SEQ_SERVE.min_gap_ns ledger ≤ s.gscSe) →
    s.fld Reg.SEQ_SERVE.inflight ledger < s.fld Reg.SEQ_SERVE.depth ledger →
    exec (.batchForm ledger copies) s = .next (match (s.formBatch ledger copies).2 with
      | none => (s.formBatch ledger copies).1
      | some b => ((s.formBatch ledger copies).1.sendBatch b).applyBatch b)) ∧
  (∀ (s : State) hd ledger batch first lines bytes v u, s.Fresh hd v → s.ledgerOn ledger = true → s.flag Reg.SEQ_SERVE.en ledger = true →
    s.isFormer ledger = false → u = (s.taken hd v).gather hd.source 0x13 [ledger, batch] lines first bytes →
    exec (.batchDescriptorReceive hd ⟨ledger, batch, lines, first, bytes⟩) s = .next ((match u.1 with
      | some bs => u.2.descriptorArrives ledger { Batch.ofBytes bs with ledger := ledger, number := batch }
      | none => u.2).answer hd 0x80 0)) ∧
  (∀ (s : State) (b : Batch) w, (s.srv b.ledger).early = [] → w = s.modSrv b.ledger (fun v => { v with early := [b] }) →
    (b.number = s.fld Reg.SEQ_SERVE.next_batch b.ledger → s.recordsApplied b = true → s.descriptorArrives b.ledger b =
      (w.modSrv b.ledger (fun v => { v with early := [] })).applyBatch b) ∧
    (b.number = s.fld Reg.SEQ_SERVE.next_batch b.ledger → s.recordsApplied b = false → s.descriptorArrives b.ledger b = w) ∧
    (b.number ≠ s.fld Reg.SEQ_SERVE.next_batch b.ledger → laterBy 32 b.number (s.fld Reg.SEQ_SERVE.next_batch b.ledger) = true →
      s.descriptorArrives b.ledger b = w) ∧
    (b.number ≠ s.fld Reg.SEQ_SERVE.next_batch b.ledger → laterBy 32 b.number (s.fld Reg.SEQ_SERVE.next_batch b.ledger) = false →
      s.descriptorArrives b.ledger b = s)) ∧
  (∀ (s : State) hd ledger batch row half part v u held, s.Fresh hd v → s.ledgerOn ledger = true → s.inSampler ledger = true → u = s.taken hd v →
    held = (s.srv ledger).halves.find? (fun x => x.1 == batch && x.2.1 == row && x.2.2.1 == hd.source) →
    (held = none → exec (.samplerPartialReceive hd ledger batch row ⟨half, part⟩) s =
      .next ((u.modSrv ledger fun v => { v with halves := v.halves ++ [(batch, row, hd.source, half, part)] }).answer hd 0x80 0)) ∧
    (∀ x, held = some x → x.2.2.2.1 ≠ half → exec (.samplerPartialReceive hd ledger batch row ⟨half, part⟩) s =
      .next (((u.modSrv ledger fun v => { v with halves := v.halves.filter fun y =>
        !(y.1 == batch && y.2.1 == row && y.2.2.1 == hd.source) }).partialArrives ledger batch row hd.source
          (if half = 0 then { part with top := part.top ++ x.2.2.2.2.top }
            else { x.2.2.2.2 with top := x.2.2.2.2.top ++ part.top })).answer hd 0x80 0))) ∧
  (∀ (s : State) ledger batch row ep part, (∃ b ∈ (s.srv ledger).applied, b.number = batch) →
    s.partialArrives ledger batch row ep part = s.takePartial ledger batch row ep part) ∧
  (∀ (s : State) ledger batch row (b : Batch), ((s.srv ledger).applied.find? fun b => b.number == batch) = some b → s.seRuns = true →
    (s.sample ledger batch 0 row 0).token = none → s.sampleFull ledger (s.sample ledger batch 0 row 0) = true →
    exec (.sampleResultWrite ledger batch row) s = .next (s.setSample ledger { s.sample ledger batch 0 row 0 with
      token := some (chosenToken ledger (s.sample ledger batch 0 row 0) (batchSettings b row)) })) ∧
  (∀ (s : State) hd ledger batch missing counts first proposals results copies v u p, s.Fresh hd v → s.isFormer ledger = true →
    p = (((s.srv ledger).reports.find? fun p => p.batch == batch && p.source == hd.source).getD ⟨batch, hd.source, [], []⟩).take first counts.1
      proposals results → u = (s.taken hd v).modSrv ledger (fun v =>
        { v with reports := v.reports.filter fun p => !(p.batch == batch && p.source == hd.source) }) →
    exec (.batchEndReportReceive hd ledger batch ⟨missing, counts, first⟩ proposals results copies) s = .next ((
      if (itemsHeld p.proposals 0 counts.1).length < counts.1 ∨ (itemsHeld p.results counts.1 counts.2).length < counts.2 then
        u.modSrv ledger fun v => { v with reports := v.reports ++ [p] }
      else u.takeReport ledger batch hd.source missing (itemsHeld p.proposals 0 counts.1) (itemsHeld p.results counts.1 counts.2)
        copies).answer hd 0x80 0)) ∧
  (∀ qs ts, acceptRun qs ts ≤ qs.length ∧ acceptRun qs ts ≤ ts.length ∧ qs.take (acceptRun qs ts) = ts.take (acceptRun qs ts) ∧
    ∀ q t, qs[acceptRun qs ts]? = some q → ts[acceptRun qs ts]? = some t → q ≠ t)

/-- A context opens with its job, a new epoch and no phase done where its slots fit and it was not closed too recently; where not, the write
is refused whole and only the event is set. Closing it clears en and what was held. A packet of a row is taken, answered and its beats
charged: the row arrives with the packet that brings its last line; one of a closed context, another epoch or a phase outside the window
is counted stale, and so is such a marker. A half that is late closes the context with fault 0x0603 and faults the job. (R227, R334, R339,
R342, R348, R349, R350, R424) -/
def Obligations.ExchangeContexts : Prop :=
  (∀ (s : State) x value u, x < 16 → s.takes (0xC00000 + 64 * x) → s.flag Reg.XE_XCFG.en x = false → bit value 31 = true →
    u = s.setFld Reg.XE_XCFG.job (bits value 15 0) x →
    (s.fld Reg.XE_XCFG.nsrc x * s.fld Reg.XE_XCFG.cap_src x ≤ 65536 →
      (∀ t, (s.ctx x).closedAt = some t → t + 1000 * s.fld Reg.XE_XCFG.to_us x ≤ s.uptime) → exec (.xeContextOpen x value) s =
      .next (((((u.setFld Reg.XE_XCFG.epoch (u.fld Reg.XE_XCFG.epoch x + 1) x).setFld Reg.XE_XCFG.done_phase 0xFFFFFFFF x).setFld
        Reg.XE_XCFG.en 1 x).setCtx x XeContext.empty).advanceXe x 0)) ∧
    ((65536 < s.fld Reg.XE_XCFG.nsrc x * s.fld Reg.XE_XCFG.cap_src x ∨
        ∃ t, (s.ctx x).closedAt = some t ∧ s.uptime < t + 1000 * s.fld Reg.XE_XCFG.to_us x) →
      exec (.xeContextOpen x value) s = .next (s.xeEvt Reg.XE_EVT.refused))) ∧
  (∀ (s : State) x, x < 16 → s.takes (0xC00000 + 64 * x) → s.flag Reg.XE_XCFG.en x = true → ∃ t, exec (.xeContextClose x) s = .next t ∧
    t.flag Reg.XE_XCFG.en x = false ∧ t.ctx x = { XeContext.empty with closedAt := some s.uptime } ∧ t.mem = s.mem) ∧
  (∀ (s : State) hd (r : ExchangeRow) first data beats v, s.Fresh hd v →
    (r.half = 1 ∨ s.hosts r.context r.lexp = true ∨ s.staleArrival r.context r.epoch r.phase = true) →
    exec (.xeRowReceive hd r ⟨first, data, beats⟩) s =
      .next ((((s.taken hd v).rowPacket hd.source r first data).chargeBeats beats).answer hd 0x80 0)) ∧
  (∀ (s : State) hd (m : ExchangeMark) beats v, s.Fresh hd v →
    (m.half = 1 ∨ s.hosts m.context m.lexp = true ∨ s.staleArrival m.context m.epoch m.phase = true) →
    exec (.xeEndMarkerReceive hd ⟨m, beats⟩) s = .next ((((s.taken hd v).markArrives hd.source m).chargeBeats beats).answer hd 0x80 0)) ∧
  (∀ (s : State) ep (r : ExchangeRow) first data, s.staleArrival r.context r.epoch r.phase = true → s.rowPacket ep r first data = s.countStale) ∧
  (∀ (s : State) ep (m : ExchangeMark), s.staleArrival m.context m.epoch m.phase = true → s.markArrives ep m = s.countStale) ∧
  (∀ (s : State) ep (r : ExchangeRow) first data u, s.staleArrival r.context r.epoch r.phase = false →
    u = s.gather ep 0x10 [r.context, r.epoch, r.half, r.lexp, r.phase, r.slot, r.src, r.row, r.choice]
      (s.fld (if r.half = 0 then Reg.XE_XCFG.send_row else Reg.XE_XCFG.ret_row) r.context) first data →
    s.rowPacket ep r first data = match u.1 with
      | some bs => u.2.rowArrives ep r bs
      | none => u.2) ∧
  (∀ (s : State) x phase half (y : XePhase), x < 16 → s.flag Reg.XE_XCFG.en x = true → ((s.ctx x).phases.find? fun y => y.phase == phase) = some y →
    (if half = 0 then !y.dispatched && y.dispatchEvent.isSome else !y.returned && y.returnEvent.isSome) = true →
    exec (.xeHalfTimeout x phase half) s = .next
      (((s.recordFault 0x0603 (.unit slotXdieA) [x, phase, half]).closeContext x).faultJob (s.fld Reg.XE_XCFG.job x) 0x100))

/-- For k of at least 1 and at most the number of experts the route of a token is a list of k different expert numbers, all below that number.
Among the choices of a block no two have the same expert and the same count of earlier choices, so that the slots they name differ. (R336,
R337) -/
def Obligations.ExchangeRouting : Prop :=
  (∀ seed token layer experts k, k ≤ experts → (routeToken seed token layer experts k).length = k ∧
    (routeToken seed token layer experts k).Nodup ∧ ∀ e ∈ routeToken seed token layer experts k, e < experts) ∧
  (∀ rows : List (List Nat), ((picks rows).map fun p => (p.expert, p.earlier)).Nodup ∧
    ∀ e, ((picks rows).filter fun p => p.expert == e).map (·.earlier) = List.range ((picks rows).filter fun p => p.expert == e).length)

/-- A remote load, store, atomic, reduction, multicast store or bulk instruction whose addresses, count and endpoint meet the conditions of
its row enters the fabric unit with the packets built from its registers and core scratch; the FU refuses a destination out of reach with
0x040B. MSEND also spends one credit of its entry. MRECV writes the oldest message of the job's queue to core scratch and, while the
module has a valid endpoint identifier, returns one credit. FENCE enters behind the operations before it. A returned credit adds 1 to its
entry, sticking at 255. (R119, R120, R377, R379, R402, R409, R410, R416) -/
def Obligations.FabInstructions : Prop :=
  (∀ (s : State) c w (row : Nat × FabForm × (Nat → Instr)) l n ep bytes, row ∈ [(0x70, { ptype := 1, most := 4096 }, Instr.rld),
      (0x71, { ptype := 2, most := 4096 }, .rst), (0x72, { ptype := 3, var := 0, fixed := 16 }, .ratomFetchAdd),
      (0x72, { ptype := 3, var := 1, fixed := 24 }, .ratomCompareSwap), (0x73, { ptype := 4, var := 0, most := 4096 }, .rredAddInt32),
      (0x73, { ptype := 4, var := 1, most := 4096 }, .rredAddFp32), (0x73, { ptype := 4, var := 2, most := 4096 }, .rredAddBf16),
      (0x73, { ptype := 4, var := 3, most := 4096 }, .rredMaxFp32), (0x73, { ptype := 4, var := 4, most := 4096 }, .rredMaxBf16),
      (0x74, { ptype := 5, most := 4096, group := true }, .rmcs), (0x75, { ptype := 2, most := 65536 }, .bput),
      (0x76, { ptype := 1, most := 65536 }, .bget)] →
    s.Issues c w (maskOf 95 76) → Psi.op w = row.1 → Psi.sub w < 16 → Psi.var w = row.2.1.var → (s.core c).fab.length < 64 →
    l = s.addr c (Psi.d w) → n = s.cnt c (Psi.f76 w) → ep = s.cnt c (Psi.b w) →
    bytes = (if row.2.1.fixed = 0 then 64 * n else row.2.1.fixed) →
    l % 64 = 0 → (row.2.1.ptype = 3 → s.addr c (Psi.a w) % 8 = 0) → (row.2.1.most ≠ 0 → 1 ≤ n ∧ n ≤ row.2.1.most) →
    ep < (if row.2.1.group then 2 ^ 16 else 2 ^ 17) → l < scratchSize → l + bytes ≤ scratchSize →
    exec (row.2.2 c) s = .next (s.issued c w (fun t => t.startFab c (Psi.signal w) ep row.2.1.group row.2.1.ptype
      (row.2.1.packets (s.fabBase c w row.2.1) n l (t.scratchGet c l bytes))) false)) ∧
  (∀ (s : State) c signal dst group ptype pkts, s.reaches dst group ptype = false →
    s.startFab c signal dst group ptype pkts = s.exception c 0x040B 5 (s.core c).sq.pc true) ∧
  (∀ (s : State) c w i, s.Issues c w (maskOf 95 76) → Psi.op w = 0x77 → Psi.sub w < 16 → Psi.var w = 0 → (s.core c).fab.length < 64 →
    s.creditEntry c (s.core c).sq.job (s.cnt c (Psi.b w)) (s.cnt c (Psi.f80 w)) = some i → s.fld Reg.FAB_MCRED.credits i ≠ 0 →
    s.addr c (Psi.d w) % 64 = 0 → 1 ≤ s.cnt c (Psi.f76 w) → s.cnt c (Psi.f76 w) ≤ 4 → s.cnt c (Psi.b w) < 2 ^ 17 →
    s.addr c (Psi.d w) + 64 * s.cnt c (Psi.f76 w) ≤ scratchSize →
    exec (.msend c) s = .next (s.issued c w (fun t => State.startFab (t.setFld Reg.FAB_MCRED.credits (t.fld Reg.FAB_MCRED.credits i - 1) i) c
      (Psi.signal w) (s.cnt c (Psi.b w)) false 8 [({ s.fabBase c w { ptype := 8, most := 4 } with
        bytes := t.scratchGet c (s.addr c (Psi.d w)) (64 * s.cnt c (Psi.f76 w)) }, s.addr c (Psi.d w))]) false)) ∧
  (∀ (s : State) c w i, s.Issues c w (maskOf 95 76) → Psi.op w = 0x78 → Psi.sub w = 0 → (s.core c).fab.length < 64 →
    s.jobQueue c (s.core c).sq.job = some i → s.addr c (Psi.d w) % 64 = 0 → s.addr c (Psi.d w) + 320 ≤ scratchSize →
    exec (.mrecv c) s = .next (s.issued c w fun t => match (t.queue i).msgs with
      | [] => t
      | m :: r =>
        let u := t.touchLines m.place (64 * m.lines) false
        let v : State := { u.scratchPut c (s.addr c (Psi.d w)) (u.messageBytes m) with
          queuesIn := Table.set MsgQueue.empty t.queuesIn i { t.queue i with msgs := r } }
        if t.flag Reg.FAB_EPID.valid then v.emit (.credit m.ep m.core m.key) else v)) ∧
  (∀ (s : State) c w, s.Issues c w (maskOf 95 76) → Psi.op w = 0x79 → Psi.sub w = 0 → (s.core c).fab.length < 64 →
    exec (.fence c) s = .next (s.issued c w (fun t => State.settleCoreFab { t.modCore c (fun k =>
      { k with fab := k.fab ++ [(⟨t.fabNext, k.sq.pc, 0, false, true, Psi.signal w, []⟩ : FabOp)] }) with fabNext := t.fabNext + 1 } c) false)) ∧
  (∀ (s : State) c ep key i, s.flag Reg.FAB_EPID.valid = true → ((List.range 8).map (· + 8 * c)).find? (fun i =>
      s.fld Reg.FAB_MCRED.job i != 0xFFFF && s.fld Reg.FAB_MCRED.ep i == ep && s.fld Reg.FAB_MCRED.key i == key) = some i →
    exec (.creditReturnReceive c ep key) s = .next (s.setFld Reg.FAB_MCRED.credits (min 255 (s.fld Reg.FAB_MCRED.credits i + 1)) i))

/-- An accepted response marks its request as accepted. A final response lands its data, counts as one of the answers the request needs, and
with the last of them ends the request: done, refused or poisoned. An unreachable response sends the request on another plane, or poisons
it where none is left. A response of another type to no request changes nothing. Without a response, and with none from the destination of
late, the attempt timer sends the request again, or poisons it after the last attempt; after an accepted response the wait timer poisons
it. A request toward an endpoint with 1,024 outstanding is held, and the oldest one held goes when one of those completes. (R383, R403,
R408, R413, R420) -/
def Obligations.FabResponses : Prop :=
  (∀ (s : State) (hd : ResponseHead) data (r : Request) u v, s.flag Reg.FAB_EPID.valid = true → s.request? hd.tag hd.seq = some r →
    u = s.takeMark r.packet hd.plane hd.mark → v = { u with heard := Table.set 0 u.heard (seqKey r.packet.dst r.packet.group) (u.uptime + 1) } →
    (hd.type = 0x82 →
      exec (.fabricResponseReceive hd data) s = .next (v.modRequest hd.tag hd.seq fun y => { y with accepted := true })) ∧
    (hd.type = 0x85 → exec (.fabricResponseReceive hd data) s = .next (((u.modRequest hd.tag hd.seq fun y =>
        { y with unreachable := hd.plane :: r.unreachable }).resend r (hd.plane :: r.unreachable) 0).getD
      ((u.modRequest hd.tag hd.seq fun y => { y with unreachable := hd.plane :: r.unreachable }).deadRequest r))) ∧
    (∀ w x r', hd.type ∈ [0x80, 0x81, 0x83, 0x84] →
      w = (if hd.type = 0x83 then (v.count Reg.FAB_REFOUTCNT.count 1).raise Reg.FAB_OPEVT.refused_out Reg.FAB_OPEVTMASK.mask else v) →
      r' = { r with answered := r.answered + 1, failed := r.failed || (hd.type == 0x83 || hd.type == 0x84) } →
      x = State.modRequest (if hd.type = 0x81 then w.landData r data else w) hd.tag hd.seq (fun _ => r') →
      exec (.fabricResponseReceive hd data) s = .next (if x.allAnswered r' then
        x.finishRequest r' (if r'.failed = false then 0 else if hd.type = 0x83 then 2 else 3) else x))) ∧
  (∀ (s : State) (hd : ResponseHead) data, s.flag Reg.FAB_EPID.valid = true → s.request? hd.tag hd.seq = none → hd.type ≠ 0x85 →
    exec (.fabricResponseReceive hd data) s = .next s) ∧
  (∀ (s : State) tag seq (r : Request), s.request? tag seq = some r → r.accepted = false → s.heardLately r = false →
    exec (.requestAttemptTimeout tag seq) s = .next (if s.fld Reg.FAB_RTOCFG.tries ≤ r.attempts then s.deadRequest r
      else ((s.resend r [] 1).map fun t => t.count Reg.FAB_RETRYCNT.count 1).getD
        (s.modRequest tag seq fun y => { y with attempts := y.attempts + 1 }))) ∧
  (∀ (s : State) tag seq (r : Request), s.request? tag seq = some r → r.accepted = true →
    exec (.requestAttemptTimeout tag seq) s = .next s ∧ exec (.acceptWaitTimeout tag seq) s = .next (s.deadRequest r)) ∧
  (∀ (s : State) (p : Packet) owner dest, p.group = false → 1024 ≤ s.outstanding p.dst →
    s.sendRequest p owner dest = { (s.stamp p).2 with heldRequests := s.heldRequests ++ [((s.stamp p).1, owner, dest)] }) ∧
  (∀ (s : State) (r : Request) status h, r.packet.group = false → r.owner = .engine → s.heldRequests.find? (fun x => x.1.dst == r.packet.dst) = some h →
    s.finishRequest r status = State.launchRequest { s with
      tracker := s.tracker.filter fun y => !(y.packet.tag == r.packet.tag && y.packet.seq == r.packet.seq)
      heldRequests := s.heldRequests.erase h } h.1 h.2.1 h.2.2)

/-- An enable of the bulk rings with log2n of 4 to 12, once the memory lock is set, stores log2n, puts all four indices to index 0 and phase
0, and sets en; without the lock it is latched as kind 3. A legal tail or head value moves its index. A descriptor whose fields are legal
and whose endpoint is in reach is taken and sent; a finished one without a failure writes its completion entry and moves the completion
tail. (R245, R419, R518) -/
def Obligations.BulkRings : Prop :=
  (∀ (s : State) value, s.takes 0x802100 → s.flag Reg.FAB_BQCFG.en = false → 4 ≤ bits value 3 0 → bits value 3 0 ≤ 12 →
    s.flag Reg.MEM_LOCK.lock = true → ∃ t, exec (.fabBulkRingEnable value) s = .next t ∧ t.flag Reg.FAB_BQCFG.en = true ∧
      t.fld Reg.FAB_BQCFG.log2n = bits value 3 0 ∧ t.bqHead = 0 ∧ t.bqTail = 0 ∧ t.bcHead = 0 ∧ t.bcTail = 0 ∧ t.mem = s.mem ∧ t.bulks = s.bulks) ∧
  (∀ (s : State) value, s.takes 0x802100 → s.flag Reg.FAB_BQCFG.en = false → 4 ≤ bits value 3 0 → bits value 3 0 ≤ 12 →
    s.flag Reg.MEM_LOCK.lock = false → exec (.fabBulkRingEnable value) s = .next (s.latchAccess 3 0x802100 4)) ∧
  (∀ (s : State) value, s.takes 0x802118 → ringLegal 12 s.bqN value = true →
    ringDist s.bqN s.bqHead s.bqTail ≤ ringDist s.bqN s.bqHead (ringPos 12 s.bqN value) →
    ringDist s.bqN s.bqHead (ringPos 12 s.bqN value) ≤ s.bqN →
    exec (.fabBqtailWrite value) s = .next (s.setBqPos Reg.FAB_BQTAIL.index Reg.FAB_BQTAIL.phase (ringPos 12 s.bqN value))) ∧
  (∀ (s : State) value, s.takes 0x802124 → ringLegal 12 s.bqN value = true →
    ringDist s.bqN s.bcHead (ringPos 12 s.bqN value) ≤ ringDist s.bqN s.bcHead s.bcTail →
    exec (.fabBcheadWrite value) s = .next (s.setBqPos Reg.FAB_BCHEAD.index Reg.FAB_BCHEAD.phase (ringPos 12 s.bqN value))) ∧
  (∀ (s : State) host c op bs a (b : Bulk) u, (c = Instr.bulkPut host ∧ op = 1 ∨ c = Instr.bulkGet host ∧ op = 2) → s.flag Reg.FAB_BQCFG.en = true →
    s.closing = false → s.bqHead ≠ s.bqTail → s.bulks.length < 16 → a = s.fld Reg.FAB_BQBASE.base + 64 * (s.bqHead % s.bqN) →
    s.areaClosed a 64 = false → bs = s.areaGet a 64 host → numAt bs 0 1 = op → u = s.touchT1 a 64 → u.bulkIllegal bs = false →
    u.reaches (numAt bs 4 4) false (if op = 1 then 2 else 1) = true →
    b = { num := u.bulkNext, op := op, ep := numAt bs 4 4, loc := numAt bs 8 8, offset := numAt bs 0x10 8, length := numAt bs 0x18 4,
          key := numAt bs 0x1C 4, job := numAt bs 0x20 2, tag := numAt bs 0x24 4, left := ceilDiv (numAt bs 0x18 4) 512, done := 0, status := 0 } →
    exec c s = .next (State.sendBulk { u.setBqPos Reg.FAB_BQHEAD.index Reg.FAB_BQHEAD.phase ((u.bqHead + 1) % (2 * u.bqN)) with
      bulks := u.bulks ++ [b], bulkNext := u.bulkNext + 1 } b)) ∧
  (∀ (s : State) num (b : Bulk), (s.bulks.find? fun x => x.num == num) = some b → b.left = 0 → s.flag Reg.FAB_BQCFG.en = true →
    ringDist s.bqN s.bcHead s.bcTail < s.bqN → b.status = 0 →
    exec (.bulkComplete num) s = .next (State.setBqPos (State.areaPut { s with bulks := s.bulks.erase b }
      (s.fld Reg.FAB_BCBASE.base + 16 * (s.bcTail % s.bqN)) (toBytes 4 b.tag ++ toBytes 1 0 ++ toBytes 1 (entryPhase s.bqN s.bcTail) ++
        toBytes 2 0 ++ toBytes 8 b.done)) Reg.FAB_BCTAIL.index Reg.FAB_BCTAIL.phase ((s.bcTail + 1) % (2 * s.bqN))))

/-- A load, store, atomic, reduction, multicast copy or message that its source sends for the first time, and that passes the tests of its row
while the ingress buffer has room, reaches its bank and is answered, or waits in the ingress when its bank is not free or an older request
for it waits; one that fails a test is counted, recorded and answered with the reason. A request that waits is applied when its bank
resumes and no older one goes first, is answered accepted once when that is due, and is answered poisoned when the bank stalls. (R377,
R405, R406, R407, R408, R409, R414, R415, R417) -/
def Obligations.TargetRequests : Prop :=
  (∀ (s : State) (hd : RequestHead) group data report (v : Seen) g u (row : Nat × (List Byte → TargetWait → Instr)), row ∈
      [(1, fun _ w => Instr.targetLoad hd w report), (2, fun d w => .targetStore hd d w report), (3, fun d w => .targetAtomic hd d w report),
       (4, fun d w => .targetReduce hd d w report), (5, fun d w => .targetMulticastStore hd group d w report),
       (8, fun d w => .targetMessage hd d w report)] →
    g = (if row.1 = 5 then group + 1 else 0) → (row.1 = 5 → s.flag Reg.FAB_GRP.valid group = true ∧ s.flag Reg.FAB_GRP.member group = true) →
    (row.1 = 1 → data = []) → s.closing = false → s.ingress.length < 2048 → s.flag Reg.FAB_EPID.valid = true →
    (s.seenOf (requestKey hd g)).take hd.seq = some v → u = { s with seen := Table.set Seen.empty s.seen (requestKey hd g) v } →
    (∀ r : Region, s.checkRequest row.1 hd = .ok r →
      (State.mustWait s.ingress row.1 hd r = false → exec (row.2 data .atOnce) s =
        .next ((u.reachBank row.1 g hd r data report).2.reply hd (u.reachBank row.1 g hd r data report).1)) ∧
      (State.mustWait s.ingress row.1 hd r = true → exec (row.2 data .atOnce) s =
        .next { u with ingress := s.ingress ++ [(⟨row.1, hd, r, data, false, false⟩ : Ingress)] }) ∧
      exec (row.2 data .waits) s = .next { u with ingress := s.ingress ++ [(⟨row.1, hd, r, data, false, false⟩ : Ingress)] }) ∧
    (∀ reason w, s.checkRequest row.1 hd = .error reason → w ≠ .resumes →
      exec (row.2 data w) s = .next ((s.refuseIn hd reason).2.reply hd ⟨0x83, reason, []⟩))) ∧
  (∀ (s : State) (hd : RequestHead) group data report g (x : Ingress) (row : Nat × Instr), row ∈
      [(1, Instr.targetLoad hd .resumes report), (2, .targetStore hd data .resumes report), (3, .targetAtomic hd data .resumes report),
       (4, .targetReduce hd data .resumes report), (5, .targetMulticastStore hd group data .resumes report),
       (8, .targetMessage hd data .resumes report)] →
    g = (if row.1 = 5 then group + 1 else 0) → (row.1 = 5 → s.flag Reg.FAB_GRP.valid group = true ∧ s.flag Reg.FAB_GRP.member group = true) →
    s.waiting? row.1 hd = some x → exec row.2 s = .next (((s.settleIngress x).reachBank row.1 g hd x.region x.data report).2.reply hd
      ((s.settleIngress x).reachBank row.1 g hd x.region x.data report).1)) ∧
  (∀ (s : State) hd (x : Ingress), (s.ingress.find? fun y => y.head == hd && !y.accepted && !y.answered) = some x →
    exec (.targetAcceptDue hd) s = .next (State.reply { s with ingress := s.ingress.map fun y => if y == x then { y with accepted := true } else y }
      hd ⟨0x82, 0, []⟩)) ∧
  (∀ (s : State) hd (x : Ingress), (s.ingress.find? fun y => y.head == hd && !y.answered) = some x →
    exec (.targetStallTimeout hd) s = .next (((s.settleIngress x).raise Reg.FAB_OPEVT.poison_in Reg.FAB_OPEVTMASK.mask).reply hd ⟨0x84, 11, []⟩))

/-- A store or a multicast copy stores its payload at the address of its region: the bytes read back are the payload, and every byte of T1
outside them reads as before. A load of chunks that are not poisoned answers the bytes and stores nothing; an atomic answers the old value
and stores the sum, or the swap value where the old value matches; a reduction replaces each element by the combination of old and new; a
message goes to the next slot of its queue and signals its core. A poisoned chunk is answered with reason 10. No request but a message,
whose signal may stop a core, changes core scratch, cluster SRAM or host memory. (R406, R407, R408, R409, R414) -/
def Obligations.TargetEffects : Prop :=
  (∀ (s : State) ptype hd (r : Region) data n, ptype = 2 ∨ ptype = 5 → n = requestBytes ptype hd.lines →
    (s.applyRequest ptype hd r data).1 = ⟨0x80, 0, []⟩ ∧
    (s.applyRequest ptype hd r data).2.t1Get (r.base + hd.offset) n = (data ++ List.replicate n 0).take n ∧
    ∀ b, (b < r.base + hd.offset ∨ r.base + hd.offset + n ≤ b) →
      Table.get 0 (s.applyRequest ptype hd r data).2.mem.t1 b = Table.get 0 s.mem.t1 b) ∧
  (∀ (s : State) hd (r : Region) data n, n = requestBytes 1 hd.lines → s.isPoisoned (r.base + hd.offset) n = false →
    (s.applyRequest 1 hd r data).1 = ⟨0x81, 0, s.t1Get (r.base + hd.offset) n⟩ ∧ (s.applyRequest 1 hd r data).2.mem = s.mem) ∧
  (∀ (s : State) hd (r : Region) data, s.isPoisoned (r.base + hd.offset) 8 = false →
    (s.applyRequest 3 hd r data).1 = ⟨0x81, 0, s.t1Get (r.base + hd.offset) 8⟩ ∧
    (s.applyRequest 3 hd r data).2.t1Get (r.base + hd.offset) 8 = toBytes 8 (atomicResult hd.var (s.t1Num (r.base + hd.offset) 8) data)) ∧
  (∀ (s : State) hd (r : Region) data n, n = requestBytes 4 hd.lines → s.isPoisoned (r.base + hd.offset) n = false →
    (s.applyRequest 4 hd r data).1 = ⟨0x80, 0, []⟩ ∧ (s.applyRequest 4 hd r data).2.t1Get (r.base + hd.offset) n =
      (reduceBytes hd.var (n / reduceSize hd.var) (s.t1Get (r.base + hd.offset) n) ((data ++ List.replicate n 0).take n)).1) ∧
  (∀ var n old new k z, k < n → z = reduceSize var → ((reduceBytes var n old new).1.drop (z * k)).take z =
    toBytes z (reduceElement var (ofBytes ((old.drop (z * k)).take z)) (ofBytes ((new.drop (z * k)).take z))).1) ∧
  (∀ (s : State) ptype hd (r : Region) data, ptype = 1 ∨ ptype = 3 ∨ ptype = 4 → s.isPoisoned (r.base + hd.offset) (requestBytes ptype hd.lines) = true →
    s.applyRequest ptype hd r data = (⟨0x84, 10, []⟩, s.raise Reg.FAB_OPEVT.poison_in Reg.FAB_OPEVTMASK.mask)) ∧
  (∀ (s : State) hd (r : Region) data n, n = 64 * hd.lines → s.applyRequest 8 hd r data = (⟨0x80, 0, []⟩,
    ((s.t1Put (r.base + 256 * (s.queue r.index).next) (((data ++ List.replicate n 0).take n).take n)).enterMessage r (s.queue r.index)
      ⟨r.base + 256 * (s.queue r.index).next, hd.src, hd.unit, hd.lines, s.gscXdie, hd.key⟩).signalRegion r)) ∧
  (∀ (s : State) ptype hd (r : Region) data, ptype ≠ 8 → (s.applyRequest ptype hd r data).2.mem.scratch = s.mem.scratch ∧
    (s.applyRequest ptype hd r data).2.mem.sram = s.mem.sram ∧ (s.applyRequest ptype hd r data).2.mem.t3 = s.mem.t3) ∧
  (∀ old x y, atomicResult 0 old (toBytes 8 x) = (old + x % 2 ^ 64) % 2 ^ 64 ∧
    (old < 2 ^ 64 → atomicResult 1 old (toBytes 8 old ++ toBytes 8 y) = y % 2 ^ 64))

/-- A write of en = 1 that no test of R404 rejects stores job, kind and rights, opens the region and empties its message queue; a rejected one
only raises FAB_OPEVT.rgn_reject. A teardown closes the fabric of its job, marks it torn down, and aborts an active job that is not
faulted; one that is not active is done at once, what serves it stops, and the sender is told. When the job is no longer active the
teardown is complete and its sender is told. (R331, R349, R404, R421) -/
def Obligations.RegionsAndTeardown : Prop :=
  (∀ (s : State) region value, region < 256 → s.takes (0x804014 + 32 * region) → s.flag Reg.FAB_RGN.en region = false →
    s.regionRejected region value = false → exec (.regionEnable region value) s = .next
      { (((s.setFld Reg.FAB_RGN.job (bits value 15 0) region).setFld Reg.FAB_RGN.kind (bits value 17 16) region).setFld Reg.FAB_RGN.rights
        (bits value 27 24) region).setFld Reg.FAB_RGN.en 1 region with queuesIn := Table.set MsgQueue.empty s.queuesIn region MsgQueue.empty }) ∧
  (∀ (s : State) region value, region < 256 → s.takes (0x804014 + 32 * region) → s.flag Reg.FAB_RGN.en region = false →
    s.regionRejected region value = true →
    exec (.regionEnable region value) s = .next (s.raise Reg.FAB_OPEVT.rgn_reject Reg.FAB_OPEVTMASK.mask)) ∧
  (∀ (s : State) hd job reason number v u w, s.FreshControl hd v → u = State.recordFault ((s.taken hd v).raise Reg.FAB_OPEVT.teardown
      Reg.FAB_OPEVTMASK.mask) 0x0505 .module [job, reason, number] →
    w = { u.closeJobFabric job with torn := Table.set false u.torn job true } →
    (w.job? job = none → ∃ z : State, z = (w.stopJob job).showTeardown 2 job reason ∧
      exec (.teardownReceive hd job reason number) s = .next (z.sendControl hd.source false 0x21 (teardownLine job reason 1 number z.gscXdie) job)) ∧
    (∀ x : Job, w.job? job = some x → ∃ z : State,
      z = { w.showTeardown 1 job reason with tearing := w.tearing ++ [⟨job, hd.source, number, reason⟩] } ∧
      (x.fault = none → exec (.teardownReceive hd job reason number) s = .next (z.markFault job 0x100 true).settle) ∧
      (x.fault ≠ none → exec (.teardownReceive hd job reason number) s = .next z))) ∧
  (∀ (s : State) job (t : Teardown), (s.tearing.find? fun t => t.job == job) = some t → s.job? job = none →
    exec (.teardownComplete job) s = .next ((State.showTeardown { s with tearing := s.tearing.erase t } 2 job t.reason).sendControl t.source false
      0x21 (teardownLine job t.reason 0 t.number s.gscXdie) job))

/-- A training port takes the lanes that passed, none without light: all 8 bring it up at full width, a half at 4 lanes, and with fewer it is
down. A port that is down trains again; an up port that loses a lane or is told to retrain goes to training; a fenced port is in state 4
and returns to training when unfenced. (R373, R374, R375, R376, R430) -/
def Obligations.PortStates : Prop :=
  (∀ (s : State) port lanes got u, port < 16 → s.fld Reg.FAB_PORTSTAT.state port = 1 → got = trainedState (if s.lasers then lanes else 0) →
    u = (s.setFld Reg.FAB_PORTSTAT.lanes_ok lanes port).setFld Reg.FAB_PORTSTAT.half got.2 port →
    (got.1 ≠ 0 → exec (.portTrainingComplete port lanes) s = .next (u.portUp port got.1)) ∧
    (got.1 = 0 → exec (.portTrainingComplete port lanes) s = .next (u.setPort port 0))) ∧
  (∀ lanes, lanes < 256 → trainedState lanes = if lanes = 0xFF then (3, 0) else if lanes % 16 = 0xF then (2, 0)
    else if lanes / 16 = 0xF then (2, 1) else (0, 0)) ∧
  (∀ (s : State) port, port < 16 → s.fld Reg.FAB_PORTSTAT.state port = 0 → exec (.portTrainingRetry port) s = .next (s.setPort port 1)) ∧
  (∀ (s : State) port, s.planeUp port = true → exec (.portLossOfSignal port) s = .next (s.setPort port 1)) ∧
  (∀ (s : State) port, port < 16 → s.takes (0x800180 + 4 * port) →
    (s.planeUp port = true → exec (.portRetrain port) s = .next (s.setPort port 1)) ∧
    exec (.portFence port) s = .next ((s.setFld Reg.FAB_PORTCTL.fence 1 port).setPort port 4) ∧
    (s.fld Reg.FAB_PORTSTAT.state port = 4 → exec (.portUnfence port) s = .next ((s.setFld Reg.FAB_PORTCTL.fence 0 port).setPort port 1)) ∧
    (s.fld Reg.FAB_PORTSTAT.state port ≠ 4 → exec (.portUnfence port) s = .next (s.setFld Reg.FAB_PORTCTL.fence 0 port))) ∧
  (∀ (s : State) port st, port < 16 → st < 8 → s.fld Reg.FAB_PORTSTAT.state port ≠ st → s.planeUp port = false →
    (s.setPort port st).fld Reg.FAB_PORTSTAT.state port = st ∧ (s.setPort port st).flag Reg.FAB_EVT.port_change = true ∧
    (s.setPort port st).tracker = s.tracker ∧ (s.setPort port st).mem = s.mem)

/-- A data flit built from a sequence number, a channel and whole 16-byte units is not bad and gives them back, its start-of-packet bit
included; so does a link-control flit with its acknowledgement. On an up port the next data flit in order is accepted and, while the
ingress buffer has room, frees its buffer; a flit that cannot be read or is out of order is discarded, and the first one asks for a
replay. A link-control flit frees what it acknowledges, returns credits, replays where it asks to, and lets waiting packets go. A timeout
replays, and an acknowledgement due is sent. (R395, R396, R397, R398, R417) -/
def Obligations.LinkFlits : Prop :=
  (∀ seq vc sop (content : List Byte), seq < 1024 → vc ≤ 4 → content.length % 16 = 0 → 16 ≤ content.length → content.length ≤ 128 →
    ∃ f, f = dataFlit seq vc sop content ∧ f.length = 136 ∧ flitBad f = false ∧ flitKind f = 0 ∧ flitSeq f = seq ∧ flitChannel f = vc ∧
      flitNack f = sop ∧ flitContent f = content) ∧
  (∀ ack nack freed, ack < 1024 → ∃ f, f = controlFlit ack nack freed ∧ f.length = 136 ∧ flitBad f = false ∧ flitKind f = 1 ∧ flitSeq f = ack ∧
    flitNack f = nack ∧ ∀ v, v < 5 → ofBytes ((f.drop (4 + 2 * v)).take 2) = freed.getD v 0 % 65536) ∧
  (∀ (s : State) port flit, s.planeUp port = true → flitKind flit = 0 → flitBad flit = false → flitSeq flit = (s.link port).rxNext →
    exec (.flitReceive port flit) s = .next (s.acceptFlit port flit)) ∧
  (∀ (s : State) port flit, s.planeUp port = true → flitKind flit ≠ 1 →
    (flitBad flit = true ∨ (flitKind flit ≠ 2 ∧ flitSeq flit ≠ (s.link port).rxNext)) →
    exec (.flitReceive port flit) s = .next (s.discardFlit port)) ∧
  (∀ (s : State) port, s.discardFlit port = if (s.link port).rxStall then s
    else (s.setLink port { s.link port with rxStall := true }).sendLinkControl port true) ∧
  (∀ (s : State) port flit, s.planeUp port = true → flitKind flit = 2 → flitBad flit = false → exec (.flitReceive port flit) s = .next s) ∧
  (∀ (s : State) port flit u, s.planeUp port = true → flitKind flit = 1 → flitBad flit = false →
    u = s.setLink port ((s.link port).acked (flitSeq flit) ((List.range 5).map fun v => ofBytes ((flit.drop (4 + 2 * v)).take 2))) →
    (flitNack flit = false → exec (.linkControlReceive port flit) s = .next (u.pump port ((u.link port).waiting.length + 1))) ∧
    (flitNack flit = true → exec (.linkControlReceive port flit) s =
      .next ((u.replay port).pump port (((u.replay port).link port).waiting.length + 1)))) ∧
  (∀ (s : State) port flit, s.planeUp port = true → flitKind flit = 1 → flitBad flit = true →
    exec (.linkControlReceive port flit) s = .next (s.discardFlit port)) ∧
  (∀ (s : State) port, s.planeUp port = true → exec (.linkReplayTimeout port) s = .next (s.replay port)) ∧
  (∀ (s : State) port, s.planeUp port = true → 0 < (s.link port).sinceAck → exec (.linkAckDue port) s = .next (s.sendLinkControl port false)) ∧
  (∀ (s : State) port flit l got, l = s.link port → got = l.assemble flit → (∀ p ∈ got.1, reservedPacket p = false) → l.sinceAck < 63 →
    (flitChannel flit ≠ 0 ∨ s.ingress.length < 2048) → s.acceptFlit port flit = s.setLink port (Link.free { l with
      rxPackets := got.1, rxPart := got.2, rxNext := (l.rxNext + 1) % 1024, rxStall := false, sinceAck := l.sinceAck + 1 } (flitChannel flit) 1))

/-- An identifier that fits its domain and region is named and made valid, the congestion estimates of all planes start from nothing, and
waiting packets may go; while one is valid it stays. One that does not fit, or a clear while a job is active, only raises FAB_EVT.reject.
A group entry is written whole unless an operation to its group is outstanding. (R377, R378, R381, R383) -/
def Obligations.EndpointAndGroups : Prop :=
  (∀ (s : State) ep, s.takes 0x800000 → s.flag Reg.FAB_EPID.valid = false → s.badEndpoint (ep % 2 ^ 17) = false →
    exec (.epidValidSet ep) s = .next ((List.range 16).foldl (fun s p => s.pump p ((s.link p).waiting.length + 1))
      ((List.range 16).foldl State.coolPlane ((s.setFld Reg.FAB_EPID.ep ep).setFld Reg.FAB_EPID.valid 1)))) ∧
  (∀ (s : State) ep, s.takes 0x800000 → s.flag Reg.FAB_EPID.valid = true → s.badEndpoint (ep % 2 ^ 17) = false → exec (.epidValidSet ep) s = .next s) ∧
  (∀ (s : State) ep, s.takes 0x800000 → s.badEndpoint (ep % 2 ^ 17) = true →
    exec (.epidValidSet ep) s = .next (s.raise Reg.FAB_EVT.reject Reg.FAB_EVTMASK.mask)) ∧
  (∀ (s : State), s.takes 0x800000 → (s.jobs = [] → exec .epidValidClear s = .next (s.setFld Reg.FAB_EPID.valid 0)) ∧
    (s.jobs ≠ [] → exec .epidValidClear s = .next (s.raise Reg.FAB_EVT.reject Reg.FAB_EVTMASK.mask))) ∧
  (∀ (s : State) group value, group < 65536 → s.takes (0x880000 + 8 * group) → s.groupBusy group = false →
    ∃ t, exec (.groupEntryWrite group value) s = .next t ∧ t.fld Reg.FAB_GRP.valid group = bits value 63 63 ∧
      t.fld Reg.FAB_GRP.member group = bits value 62 62 ∧ t.fld Reg.FAB_GRP.count group = bits value 39 32 ∧ t.tracker = s.tracker ∧
      t.mem = s.mem) ∧
  (∀ (s : State) group value, group < 65536 → s.takes (0x880000 + 8 * group) → s.groupBusy group = true →
    exec (.groupEntryWrite group value) s = .next (s.raise Reg.FAB_EVT.reject Reg.FAB_EVTMASK.mask))

/-- A grandmaster sends one Sync on each usable plane to every other endpoint of its domain and answers a delay request; a follower notes the
Sync of the grandmaster it follows and answers, and takes the offset of the exchange when the response comes. The median of the fresh
offsets is shown and corrects the GSC; a locked module without a median enters holdover, and a module in holdover for a second runs free.
A read of the low half of the GSC latches the high half, and the read of the high half returns it. (R154, R387, R388, R389, R391, R392,
R422, R423) -/
def Obligations.GscTiming : Prop :=
  (∀ (s : State) n me, s.isMaster = true → n = s.gscSync.number → me = s.fld Reg.FAB_EPID.ep → exec .gmSyncSend s =
    .next (s.planes.foldl (fun t p => (((List.range (s.fld Reg.FAB_DOMAIN.count)).map (· + s.fld Reg.FAB_DOMAIN.first)).filter fun d => d != me).foldl
      (fun t d => t.sendControl d false 0x27 (lineOf [(0, 2, n), (2, 1, p), (4, 4, me), (8, 8, t.gsc)]) 0xFFFF (some p)) t)
      (s.modSync fun g => { g with number := (n + 1) % 65536 }))) ∧
  (∀ (s : State) hd (exchange plane gm t1 : Nat) corr v u, (Table.get Seen.empty s.seen (seenKey hd)).take hd.seq = some v → s.isMaster = false →
    u = (s.taken hd v).hearMaster gm → u.fld Reg.FAB_GSCGM.ep = gm →
    exec (.syncReceive hd exchange plane gm t1 corr) s = .next ((u.modSync fun g => { g with
      exchanges := Table.put g.exchanges plane [(exchange : Int), gm, t1, u.gsc, u.gsc, corr] }).sendControl hd.source false 0x28
        (lineOf [(0, 2, exchange), (2, 1, plane), (8, 8, u.gsc)]) 0xFFFF (some plane))) ∧
  (∀ (s : State) hd (exchange plane t3 : Nat) corr v, (Table.get Seen.empty s.seen (seenKey hd)).take hd.seq = some v → s.isMaster = true →
    exec (.delayRequestReceive hd exchange plane t3 corr) s = .next ((s.taken hd v).sendControl hd.source false 0x29
      (lineOf [(0, 2, exchange), (2, 1, plane), (4, 4, s.fld Reg.FAB_EPID.ep), (8, 8, s.gsc), (0x10, 8, unsigned 64 corr)]) 0xFFFF (some plane))) ∧
  (∀ (s : State) hd (exchange plane gm t4 : Nat) corr v u (t1 t2 t3 cs : Int), (Table.get Seen.empty s.seen (seenKey hd)).take hd.seq = some v →
    s.isMaster = false → u = (s.taken hd v).hearMaster gm → u.fld Reg.FAB_GSCGM.ep = gm →
    Table.get [] u.gscSync.exchanges plane = [(exchange : Int), gm, t1, t2, t3, cs] →
    exec (.delayResponseReceive hd exchange plane gm t4 corr) s = .next (u.modSync fun g => { g with
      exchanges := Table.del g.exchanges plane
      offsets := Table.put g.offsets plane (exchangeOffset t1 t2 t3 t4 cs corr, u.uptime) })) ∧
  (∀ (s : State) m, s.isMaster = false → medianOf (s.freshOffsets.map (·.2)) = some m →
    exec .gscMedianUpdate s = .next (State.takeMedian (State.modSync ((s.setFld Reg.FAB_GSCSTAT.planes
      ((s.freshOffsets.map fun x => 2 ^ x.1).sum)).setFld Reg.FAB_GSCSTAT.offset (unsigned 32 m)) fun g =>
        { g with lastMedian := some s.uptime }) m)) ∧
  (∀ (s : State), s.fld Reg.FAB_GSCSTAT.state = 2 → ∃ t, exec .gscHoldoverEntry s = .next t ∧ t.fld Reg.FAB_GSCSTAT.state = 3 ∧
    t.flag Reg.FAB_EVT.gsc_unlock = true ∧ t.gscSync = { s.gscSync with holdoverAt := s.uptime, streak := 0 } ∧ t.mem = s.mem) ∧
  (∀ (s : State), s.fld Reg.FAB_GSCSTAT.state = 3 → exec .gscFreerunEntry s = .next (s.setFld Reg.FAB_GSCSTAT.state 0)) ∧
  (∀ (s : State), s.takes 0x800300 → exec .gscLowRead s = .next { s with
    gscLatch := some (s.gsc / 2 ^ 32), out := s.out ++ [.readData (toBytes 4 s.gsc) false] }) ∧
  (∀ (s : State), s.takes 0x800304 → exec .gscHighRead s = .next { s with
    gscLatch := none, out := s.out ++ [.readData (toBytes 4 (s.gscLatch.getD (s.gsc / 2 ^ 32))) false] })

/-- At the end of a window the lull table is free again, the tallies that are not zero wait to be sent, and a new window length takes effect.
A module sends each of its waiting tallies; an arbiter takes reports, takes tallies of the window that has ended, counts late ones, and
sends the fabric manager one tally for each pair; a notice enters the module's own table. (R422, R497, R498, R499, R500, R509) -/
def Obligations.LullReports : Prop :=
  (∀ (s : State), exec .lullWindowEnd s = .next { s with
    lull := [], lullFull := false, lullSent := []
    lullEnded := s.lullEnded ++ ((s.lull.filter fun e => e.tally != 0).map fun e => (s.lullWindow - 1, e))
    arbiter := [], arbiterEnded := s.arbiter, arbiterWindow := if s.isArbiter then some (s.lullWindow - 1) else none
    lullMs := s.fld Reg.FAB_LULLWIN.window_ms }) ∧
  (∀ (s : State), exec .lullTallySend s = .next (s.lullEnded.foldl State.sendTally { s with lullEnded := [] })) ∧
  (∀ (s : State) w e, s.flag Reg.FAB_LULLCFG.fm_valid = true → s.isArbiter = false → s.flag Reg.FAB_LULLCFG.arb_valid = true →
    s.sendTally (w, e) = s.sendControl (s.fld Reg.FAB_LULLCFG.arb_ep) false 0x26
      (s.lullBody e.suspect e.cause (causeSeverity e.cause) w 1 e.tally)) ∧
  (∀ (s : State) hd cause kind id severity events v, s.FreshControl hd v → s.isArbiter = true →
    exec (.lullReportReceive hd cause kind id severity events) s =
      .next ((s.taken hd v).arbiterTake hd.source (suspectOf kind id) cause severity events)) ∧
  (∀ (s : State) hd cause kind id v, s.FreshControl hd v →
    exec (.lullNoticeReceive hd cause kind id) s = .next ((s.taken hd v).noticed (suspectOf kind id) cause)) ∧
  (∀ (s : State) hd cause kind id window events v, s.FreshControl hd v → s.isArbiter = true →
    exec (.lullTallyReceive hd cause kind id window events) s = .next (if s.arbiterWindow = some window then
      (s.taken hd v).arbiterTally hd.source (suspectOf kind id) cause events
      else (s.taken hd v).count Reg.FAB_LULLLATECNT.count 1)) ∧
  (∀ (s : State) w, s.arbiterWindow = some w → exec .arbiterTallySend s = .next (s.arbiterEnded.foldl (fun t e =>
    t.toManager 0x26 (t.lullBody e.suspect e.cause (causeSeverity e.cause) w e.observers.length e.events))
    { s with arbiterEnded := [], arbiterWindow := none }))

/-- The carrier changes to the other input when the active one is below 48 V and the other at 50 V or above, and back to P54A. A sag sets
inhibit and hold, writes the emergency record, stops the NV store, and is counted and recorded. 500 µs later a bus below 46 V puts the
lasers off. At 47 V or above inhibit and hold clear, the NV store opens a journal segment, and a NOR write that is due takes place. A
brown-out takes the lasers, every rail and the links. (R426, R428, R429, R430, R431, R457) -/
def Obligations.PowerInputs : Prop :=
  (∀ (s : State) main backup u, u = s.meterInputs main backup →
    (s.fld Reg.PWR_SUPSTAT.active = 0 → main < 48000 → 50000 ≤ backup → exec (.inputSwitchOver main backup) s = .next (u.switchInput 1)) ∧
    (s.fld Reg.PWR_SUPSTAT.active = 1 → backup < 48000 → 50000 ≤ main → exec (.inputSwitchOver main backup) s = .next (u.switchInput 0)) ∧
    (s.fld Reg.PWR_SUPSTAT.active = 1 → 50000 ≤ main → exec (.returnToMain main backup) s = .next (u.switchInput 0)) ∧
    (s.fld Reg.PWR_SUPSTAT.active = 0 → exec (.returnToMain main backup) s = .next u)) ∧
  (∀ (s : State) mv u w, s.inhibited = false → u = ((s.setFld Reg.PWR_INMEAS.mv mv (s.fld Reg.PWR_SUPSTAT.active)).setFld Reg.PWR_SUPSTAT.inhibit 1).setFld
      Reg.PWR_SUPSTAT.hold 1 → w = ((u.emergencyRecord mv).nvInhibit).count Reg.PWR_INHCNT.count 1 →
    u.flag Reg.PWR_SUPSTAT.inhibit = true ∧ u.flag Reg.PWR_SUPSTAT.hold = true ∧ exec (.inputBusSag mv) s = .next
      ((((w.raise Reg.PWR_EVT.inhibit Reg.PWR_EVTMASK.mask).raise Reg.PWR_EVT.hold Reg.PWR_EVTMASK.mask).recordFault 0x0703 .module
        [mv]).showRate)) ∧
  (∀ (s : State) mv u, s.inhibited = true → u = s.setFld Reg.PWR_INMEAS.mv mv (s.fld Reg.PWR_SUPSTAT.active) →
    exec (.laserCheck mv) s = .next (if mv < 46000 then u.lasersOff else u)) ∧
  (∀ (s : State) mv u w, s.inhibited = true → 47000 ≤ mv → u = ((s.setFld Reg.PWR_INMEAS.mv mv (s.fld Reg.PWR_SUPSTAT.active)).setFld
      Reg.PWR_SUPSTAT.inhibit 0).setFld Reg.PWR_SUPSTAT.hold 0 →
    w = (State.nvUninhibit { u with emergency := none, lasers := u.pwrgd && !u.trip && !u.apron }).writeDue →
    u.flag Reg.PWR_SUPSTAT.inhibit = false ∧ u.flag Reg.PWR_SUPSTAT.hold = false ∧
    exec (.inhibitClear mv) s = .next (w.commitFull (w.log.buffer.length / 256)).showRate) ∧
  (∀ s : State, s.nvUninhibit = State.eraseOld { s.setFld Reg.NVS_STATUS.inhibit 0 with nvs := { s.nvs with segments := s.nvs.segments + 1 } }) ∧
  (∀ s : State, s.copies.due = true → s.writeDue = s.modPersist id) ∧
  (∀ (s : State), s.inhibited = true → exec .brownOut s = .next { s.lasersOff.railsOff.setFld Reg.TOP_STARTSTAT.stage 0 with
    stopped := true, readyPin := false, briloUp := false, pcieUp := false, pcieWidth := 0, pcieSpeed := 0 }) ∧
  (∀ s : State, s.railsOff.coreMv = 0 ∧ s.railsOff.uncoreMv = 0 ∧ s.railsOff.pwrgd = false ∧ s.railsOff.clocks = false ∧ s.railsOff.mem = s.mem)

/-- A lease that expires leaves at most 1,200 W. Above the cap the pacing falls by one step, and well below it rises by one. The diodes show
their readings, and the thermal state follows the hottest; at the throttle point the pacing falls; a trip stops the module and takes the
lasers and the rails. A drift 0.5 % above the last refit's starts a refit, as do the period and a request; a refit takes the greater of
the measured drift and its own last. (R433, R434, R435, R442, R443, R444, R445, R447, R448, R449, R450) -/
def Obligations.PowerAndHeat : Prop :=
  (∀ (s : State), s.fld Reg.PWR_LEASE.state = 1 → ∃ t, exec .leaseExpire s = .next t ∧ t.fld Reg.PWR_LEASE.state = 2 ∧
    t.fld Reg.PWR_LEASE.budget_w = min 1200 (s.fld Reg.PWR_LEASE.budget_w) ∧ t.flag Reg.PWR_EVT.lease_expired = true ∧
    t.fld Reg.PWR_LEASE.seq = s.fld Reg.PWR_LEASE.seq ∧ t.mem = s.mem) ∧
  (∀ (s : State) main backup u, u = ((s.setFld Reg.PWR_INMEAS.power_w main 0).setFld Reg.PWR_INMEAS.power_w backup 1).setFld Reg.PWR_CAP.draw_w
      (main + backup) →
    (s.fld Reg.PWR_CAP.cap_w < main + backup → exec (.capPacingStep main backup) s = .next (u.paceDown 0).gustGovern) ∧
    (main + backup ≤ s.fld Reg.PWR_CAP.cap_w → u.limited = false → u.paceRate < u.targetRate →
      exec (.capPacingStep main backup) s = .next u.paceUp) ∧
    (main + backup ≤ s.fld Reg.PWR_CAP.cap_w → u.limited = true → exec (.capPacingStep main backup) s = .next u)) ∧
  (∀ (s : State) temps, ∃ t, exec (.diodeSample temps) s = .next t ∧ t.fld Reg.PWR_THERM.state = thermalNext (s.fld Reg.PWR_THERM.state)
      (hottest (temps.take 72)).2 (s.fld Reg.PWR_THCFG.throttle_c) ∧
    (∀ i x, i < 72 → temps[i]? = some x → t.fld Reg.PWR_DIODE.temp i = unsigned 16 x) ∧ t.mem = s.mem) ∧
  (∀ (s : State) u, s.fld Reg.PWR_THERM.state = 1 → u = s.count Reg.PWR_THROTNS.count 50000 →
    exec .throttleStep s = .next (if u.fld Reg.PWR_THCFG.throttle_c ≤ u.fld Reg.PWR_THERM.tj_max then u.paceDown 50 else u)) ∧
  (∀ (s : State) diode, s.trip = false → ∃ t, exec (.thermalTrip diode) s = .next t ∧ t = (State.moduleFault { s with trip := true, thermtrip := true }
      0x0702 .module [diode, s.fld Reg.PWR_THERM.tj_max]).lasersOff.railsOff ∧ t.pwrgd = false ∧ t.clocks = false ∧ t.coreMv = 0 ∧
    t.uncoreMv = 0) ∧
  (∀ (s : State) counts u, s.briloUp = true → s.pwrgd = true → u = s.measureFray counts →
    (∀ d, s.measuredDrift counts = some d → exec (.fraySample counts) s = .next (if u.drift + 5 ≤ d then u.startRefit else u)) ∧
    (s.measuredDrift counts = none → exec (.fraySample counts) s = .next u)) ∧
  (∀ (s : State), s.briloUp = true → s.pwrgd = true → exec .refitPeriod s = .next s.startRefit) ∧
  (∀ (s : State), s.takes 0x100600 → exec .refitRequest s = .next s.startRefit) ∧
  (∀ (s : State) counts u, s.flag Reg.PWR_REFITCTL.busy = true → s.briloUp = true → u = s.measureFray counts →
    (∀ d, s.measuredDrift counts = some d → exec (.refitComplete counts) s = .next ((u.writeRefit (max d u.drift) false).obeyRefit)) ∧
    (s.measuredDrift counts = none → exec (.refitComplete counts) s = .next ((u.writeRefit u.drift false).obeyRefit))) ∧
  (∀ d : Int, 600 ≤ refitFloor d ∧ refitFloor d ≤ 700 ∧ refitAssist d ≤ 3 ∧ (d ≤ 0 → refitFloor d = 600) ∧ (100 ≤ d → refitFloor d = 700))

/-- A write that sets en drops every grant and report. A member multicasts its slack in the window that ended and keeps a partner's report. A
donor with every report of the window gives to the neediest eligible member with less slack, or nothing where there is none. A Gust member
keeps a grant until its expiry and counts one it may not take; given grants stop counting 10 µs after their expiry. (R438, R439, R440,
R441) -/
def Obligations.Tailwind : Prop :=
  (∀ (s : State) grp, s.takes 0x100300 → exec (.tailwindEnable grp) s = .next (s.enableTailwind grp)) ∧
  (∀ (s : State) grp u, u = (if s.flag Reg.PWR_TWCFG.en then s else s.setFld Reg.PWR_TWCFG.grp grp) → s.enableTailwind grp =
    (State.recap { u with grantsHeld := [], grantsGiven := [], twWindow := none, twReports := [] }).setFld Reg.PWR_TWCFG.en 1) ∧
  (∀ (s : State) slack u, s.tailwind = true → u = s.setFld Reg.PWR_TWSTAT.slack (if s.twHolds then min 100 slack else 100) →
    ∃ w : State, w = u.keepReport s.endedWindow ⟨u.fld Reg.FAB_EPID.ep, if s.twHolds then min 100 slack else 100, !u.breeze⟩ ∧
    exec (.tailwindReportSend slack) s = .next (w.sendControl (w.fld Reg.PWR_TWCFG.grp) true 0x24
      (lineOf [(0, 2, w.fld Reg.PWR_TWCFG.job), (2, 1, if s.twHolds then min 100 slack else 100), (3, 1, ofFlag !w.breeze), (8, 8, s.endedWindow)]))) ∧
  (∀ (s : State) hd job slack eligible window v, s.FreshControl hd v → s.tailwind = true → job = s.fld Reg.PWR_TWCFG.job →
    hd.source ≠ s.fld Reg.FAB_EPID.ep → exec (.tailwindReportReceive hd job slack eligible window) s =
      .next ((s.taken hd v).keepReport window ⟨hd.source, slack, eligible != 0⟩)) ∧
  (∀ (s : State) w grp rs u (own : TwReport), s.tailwind = true → w = s.endedWindow → grp = s.fld Reg.PWR_TWCFG.grp →
    rs = (if s.twWindow = some w then s.twReports else []) → (rs.find? fun r => r.ep == s.fld Reg.FAB_EPID.ep) = some own →
    own.eligible = true → s.breeze = false → s.fld Reg.PWR_TWCFG.slack_pct ≤ own.slack → 1 < s.fld Reg.FAB_GRP.count grp →
    s.fld Reg.FAB_GRP.count grp ≤ rs.length →
    u = (s.setFlag Reg.PWR_TWSTAT.history true).setFld Reg.PWR_TWSTAT.reports rs.length →
    (∀ r, neediest rs own.slack = some r →
      exec .tailwindDecision s = .next (u.giveGrant r.ep false 1 (u.donation own.slack) ((w + 2) * 1000000 + 20000))) ∧
    (neediest rs own.slack = none → exec .tailwindDecision s = .next u)) ∧
  (∀ rs own r, neediest rs own = some r → r ∈ rs ∧ r.eligible = true ∧ r.slack < own ∧
    ∀ x ∈ rs, x.eligible = true → x.slack < own → r.slack < x.slack ∨ (r.slack = x.slack ∧ r.ep ≤ x.ep)) ∧
  (∀ rs own, neediest rs own = none → ∀ x ∈ rs, x.eligible = true → own ≤ x.slack) ∧
  (∀ (s : State) hd job watts expiry v, s.FreshControl hd v → hd.source ≠ s.fld Reg.FAB_EPID.ep → job = s.fld Reg.PWR_TWCFG.job →
    s.flag Reg.PWR_TWCFG.en = true → s.breeze = false →
    (s.gsc < expiry → exec (.tailwindGrantReceive hd job watts expiry) s = .next (State.recap { s.taken hd v with
      grantsHeld := s.grantsHeld ++ [(⟨watts, expiry⟩ : Grant)] })) ∧
    (expiry ≤ s.gsc → exec (.tailwindGrantReceive hd job watts expiry) s = .next ((s.taken hd v).count Reg.PWR_TWDISCNT.count 1))) ∧
  (∀ (s : State) expiry, exec (.tailwindGrantExpire expiry) s =
    .next (State.recap { s with grantsHeld := s.grantsHeld.filter fun g => g.expiry != expiry })) ∧
  (∀ (s : State) expiry, exec (.tailwindGivenRelease expiry) s =
    .next (State.recap { s with grantsGiven := s.grantsGiven.filter fun g => g.expiry != expiry }))

/-- At a start the boot ROM updates the selection record and runs the preferred image if it is valid, else the other with fault 0x0801, else
recovery. A healthy trial image is committed and the counter rises to its svn; a trial that misses its deadline restarts the core. A page
of the buffer is committed after 100 ms. A fetch answers the record, or missing, or corrupt; the mailbox takes one request at a time and
shows its response. (R456, R458, R460, R464, R465) -/
def Obligations.ManagementCore : Prop :=
  (∀ (s : State) u i, s.briloUp = false → s.fld Reg.TOP_STARTSTAT.stage ≠ 0 → (s.persist.trial = true → s.inhibited = false) → u = s.modPersist Persist.boot →
    i = u.persist.preferred →
    (u.imageValid (u.persist.image i) = true → exec .managementCoreStart s = .next (u.runImage i)) ∧
    (u.imageValid (u.persist.image i) = false → u.imageValid (u.persist.image (1 - i)) = true → exec .managementCoreStart s =
      .next (((u.runImage (1 - i)).logRecord 3 2 0 slotXdieA [i]).recordFault 0x0801 (.unit slotXdieA) [i])) ∧
    (u.imageValid (u.persist.image i) = false → u.imageValid (u.persist.image (1 - i)) = false →
      exec .managementCoreStart s = .next (u.enterRecovery 0x0202))) ∧
  (∀ (s : State), s.briloUp = true → s.flag Reg.MGT_STATUS.healthy = false → s.flag Reg.MGT_STATUS.recovery = false → s.inhibited = false →
    (s.flag Reg.MGT_STATUS.trial = false → exec .imageHealthy s = .next (s.setFld Reg.MGT_STATUS.healthy 1)) ∧
    (s.flag Reg.MGT_STATUS.trial = true → ∃ t, exec .imageHealthy s = .next t ∧ t.persist.trial = false ∧ t.persist.trials = 0 ∧
      t.persist.preferred = s.persist.preferred ∧ t.counter = max s.counter (min 64 (s.fld Reg.MGT_STATUS.svn)) ∧
      t.flag Reg.MGT_STATUS.healthy = true ∧ t.flag Reg.MGT_STATUS.trial = false)) ∧
  (∀ (s : State), s.briloUp = true → s.flag Reg.MGT_STATUS.trial = true → s.flag Reg.MGT_STATUS.healthy = false →
    exec .trialWatchdogExpire s = .next s.coreRestart) ∧
  (∀ (s : State), s.briloUp = true → s.inhibited = false → s.log.buffer ≠ [] → exec .logPageTimeout s =
    .next (State.showLog (State.count { s with log := (commitPage s.log).1 } Reg.MGT_LOGLOST.count (commitPage s.log).2))) ∧
  (∀ (s : State) seq, s.takes 0x200018 → exec (.logFetch seq) s = .next ((s.setFld Reg.MGT_LOGSEL.seq seq).clearFlds
    [Reg.MGT_LOGSTAT.ready, Reg.MGT_LOGSTAT.missing, Reg.MGT_LOGSTAT.corrupt])) ∧
  (∀ (s : State), s.briloUp = true → s.flag Reg.MGT_LOGSTAT.ready = false →
    (∀ corrupt, s.record? (s.fld Reg.MGT_LOGSEL.seq) = none → exec (.logFetchComplete corrupt) s =
      .next ((s.setFld Reg.MGT_LOGSTAT.ready 1).setFld Reg.MGT_LOGSTAT.missing 1)) ∧
    (∀ r, s.record? (s.fld Reg.MGT_LOGSEL.seq) = some r →
      exec (.logFetchComplete none) s = .next { s.setFld Reg.MGT_LOGSTAT.ready 1 with logData := r.bytes } ∧
      ∀ bs, exec (.logFetchComplete (some bs)) s = .next (State.setFld { s.setFld Reg.MGT_LOGSTAT.ready 1 with
        logData := (bs ++ List.replicate 64 0).take 64 } Reg.MGT_LOGSTAT.corrupt 1))) ∧
  (∀ (s : State) len, s.takes 0x200100 → (s.flag Reg.MGT_MBCTL.busy = false → exec (.mailboxGo len) s =
      .next ((s.setFld Reg.MGT_MBCTL.req_len len).setFld Reg.MGT_MBCTL.busy 1)) ∧
    (s.flag Reg.MGT_MBCTL.busy = true → exec (.mailboxGo len) s = .next s)) ∧
  (∀ (s : State) response, s.briloUp = true → s.flag Reg.MGT_MBCTL.busy = true → exec (.mailboxResponseReady response) s =
    .next (((State.setFld { s with mbRsp := writeBytes s.mbRsp 0 (response.take 4096) } Reg.MGT_MBRLEN.rsp_len
      (min 4096 response.length)).setFld Reg.MGT_MBCTL.busy 0).setFld Reg.MGT_MBCTL.done 1))

/-- On a binding that Brilo answers, each of these messages is answered with the values of its registers, tables or identifiers; SetTID,
SetEventReceiver, SetNumericSensorEnable, SetStateEffecterStates and SetLease also store what they carry. Sensors, effecters, types,
handles, identifiers and counts out of range, and a lease on another path, are answered with their completion codes and change nothing
else. (R434, R454, R458, R459, R461, R464, Table 19.6, Table 19.7) -/
def Obligations.PldmMessages : Prop :=
  (∀ (s : State) binding ep eid, s.answers binding true = true → exec (.setEndpointId binding ep eid) s =
    .next ((s.modBrilo fun b => { b with eids := Table.put b.eids binding eid }).emit (.message binding ep [0, 1, 0, eid]))) ∧
  (∀ (s : State) binding ep (row : Instr × List Nat), row ∈ [(Instr.getTid binding ep, pldm 0 0x02 0 [s.brilo.tid]), (.getPldmTypes binding ep, pldm 0 0x04 0 pldmTypes),
      (.getPdrRepositoryInfo binding ep, pldm 2 0x50 0 [sensors.length]), (.getEventReceiver binding ep, pldm 2 0x05 0 (match s.receiver with
        | some (b, e) => [b, e]
        | none => [])), (.getLease binding ep, pldm 63 0x02 0 (leBytes 8 s.leaseWord ++ leBytes 8 s.capWord)),
      (.getLogRange binding ep, pldm 63 0x04 0 [s.fld Reg.MGT_LOGHEAD.seq, s.fld Reg.MGT_LOGTAIL.seq, s.fld Reg.MGT_LOGLOST.count])] →
    s.answers binding false = true → exec row.1 s = .next (s.emit (.message binding ep row.2))) ∧
  (∀ (s : State) binding ep type, s.answers binding false = true → type ∈ pldmTypes →
    exec (.getPldmVersion binding ep type) s = .next (s.free.2.emit (.message binding ep (pldm 0 0x03 0 [s.free.1]))) ∧
    exec (.getPldmCommands binding ep type) s = .next (s.emit (.message binding ep (pldm 0 0x05 0 (pldmCommands type))))) ∧
  (∀ (s : State) binding ep tid, s.answers binding false = true → 0 < tid → tid < 255 → exec (.setTid binding ep tid) s =
    .next ((s.modBrilo fun b => { b with tid := tid }).emit (.message binding ep (pldm 0 0x01 0)))) ∧
  (∀ (s : State) binding ep sensor, s.answers binding false = true → sensor ∈ numericSensors →
    (Table.get 0 s.brilo.sensorsOff sensor = 0 → s.sensorPowered sensor = true → exec (.getSensorReading binding ep sensor) s =
      .next ((s.sensorValue sensor).2.emit (.message binding ep (pldm 2 0x11 0 [0, (s.sensorValue sensor).1])))) ∧
    (Table.get 0 s.brilo.sensorsOff sensor = 0 → s.sensorPowered sensor = false →
      exec (.getSensorReading binding ep sensor) s = .next (s.emit (.message binding ep (pldm 2 0x11 0 [2])))) ∧
    (∀ st, st ≤ 2 → exec (.setNumericSensorEnable binding ep sensor st) s = .next ((s.modBrilo fun b =>
      { b with sensorsOff := Table.set 0 b.sensorsOff sensor st }).emit (.message binding ep (pldm 2 0x10 0))))) ∧
  (∀ (s : State) binding ep sensor, s.answers binding false = true → sensor ∉ numericSensors →
    exec (.getSensorReading binding ep sensor) s = .next (s.emit (.message binding ep (pldm 2 0x11 0x80)))) ∧
  (∀ (s : State) binding ep sensor, s.answers binding false = true → sensor ∈ stateSensors → exec (.getStateSensorReadings binding ep sensor) s =
    .next (s.emit (.message binding ep (pldm 2 0x21 0 [1, 0, s.sensorState sensor])))) ∧
  (∀ (s : State) binding ep handle id, s.answers binding false = true → sensors[max 1 handle - 1]? = some id → exec (.getPdr binding ep handle) s =
    .next (s.emit (.message binding ep (pldm 2 0x51 0 [if max 1 handle < sensors.length then max 1 handle + 1 else 0, id,
      ofFlag (stateSensors.contains id)])))) ∧
  (∀ (s : State) binding ep receiver enable, s.answers binding false = true → exec (.setEventReceiver binding ep receiver enable) s =
    .next (State.emit { s with receiver := if enable then some (binding, receiver) else none } (.message binding ep (pldm 2 0x04 0)))) ∧
  (∀ (s : State) binding ep value, s.answers binding false = true → exec (.setStateEffecterStates binding ep 0x200 value) s =
    .next ((if value = 1 ∧ s.pwrgd = true then s.startRefit else s).emit (.message binding ep (pldm 2 0x39 0)))) ∧
  (∀ (s : State) binding ep budget lease, s.answers binding false = true → binding = 0 ∨ binding = 2 → exec (.setLease binding ep budget lease) s =
    .next ((s.takeLease budget lease).2.emit (.message binding ep (pldm 63 0x01 0 [(s.takeLease budget lease).1])))) ∧
  (∀ (s : State) binding ep first count bad, s.answers binding false = true → 1 ≤ count → count ≤ 16 → exec (.getLogRecords binding ep first count bad) s =
    .next (s.emit (.message binding ep (pldm 63 0x03 0 (count :: ((List.range count).flatMap fun k =>
      s.logAnswer bad ((first + k) % 2 ^ 32))))))) ∧
  (∀ (s : State) binding ep n, s.answers binding false = true →
    (n ∉ numericSensors → ∀ st, exec (.setNumericSensorEnable binding ep n st) s = .next (s.emit (.message binding ep (pldm 2 0x10 0x80)))) ∧
    (n ∈ numericSensors → ∀ st, 2 < st →
      exec (.setNumericSensorEnable binding ep n st) s = .next (s.emit (.message binding ep (pldm 2 0x10 0x81)))) ∧
    (n ∉ stateSensors → exec (.getStateSensorReadings binding ep n) s = .next (s.emit (.message binding ep (pldm 2 0x21 0x80)))) ∧
    (n ∉ pldmTypes → exec (.getPldmVersion binding ep n) s = .next (s.emit (.message binding ep (pldm 0 0x03 0x83))) ∧
      exec (.getPldmCommands binding ep n) s = .next (s.emit (.message binding ep (pldm 0 0x05 0x83)))) ∧
    (sensors.length < n → exec (.getPdr binding ep n) s = .next (s.emit (.message binding ep (pldm 2 0x51 0x82)))) ∧
    (n = 0 ∨ 255 ≤ n → exec (.setTid binding ep n) s = .next (s.emit (.message binding ep (pldm 0 0x01 2)))) ∧
    (n ≠ 0x200 → ∀ v, exec (.setStateEffecterStates binding ep n v) s = .next (s.emit (.message binding ep (pldm 2 0x39 0x80)))) ∧
    (n = 0 ∨ 16 < n → ∀ first bad, exec (.getLogRecords binding ep first n bad) s = .next (s.emit (.message binding ep (pldm 63 0x03 2)))) ∧
    (binding = 1 ∨ binding = 3 → ∀ b l, exec (.setLease binding ep b l) s = .next (s.emit (.message binding ep (pldm 63 0x01 5)))))

/-- One agent at a time enters update mode, unless the running image is in trial or runs as the other's fall-back; another agent is refused.
UpdateComponent erases the slot that is not running and asks for data; the last part is verified, a good image stands in the slot and a
bad one leaves none. Cancelling leaves the slot invalid. Activation makes the new image preferred and in trial and restarts the core.
(R463, R464, R466) -/
def Obligations.FirmwareUpdate : Prop :=
  (∀ (s : State) binding ep (row : Instr × List Nat), row ∈ [(Instr.queryDeviceIdentifiers binding ep,
      pldm 5 0x01 0 [0x1F3C, Config.serial % 2 ^ 64, Config.variant % 2, 0xB0]), (.getFirmwareParameters binding ep,
      pldm 5 0x02 0 [1, s.fld Reg.MGT_FWVER.version, s.pendingVersion]), (.getStatus binding ep, pldm 5 0x1B 0 [updateState s.brilo.update])] →
    s.answers binding true = true → exec row.1 s = .next (s.emit (.message binding ep row.2))) ∧
  (∀ (s : State) binding ep, s.answers binding true = true → s.brilo.update = none →
    (s.flag Reg.MGT_STATUS.trial = false → s.flag Reg.MGT_STATUS.recovery = true ∨ s.fld Reg.MGT_STATUS.image = s.persist.preferred →
      exec (.requestUpdate binding ep) s = .next ((s.modBrilo fun b =>
      { b with update := some ⟨binding, ep, false, none, 0, [], false⟩ }).emit (.message binding ep (pldm 5 0x10 0)))) ∧
    (s.flag Reg.MGT_STATUS.trial = true ∨ s.flag Reg.MGT_STATUS.recovery = false ∧ s.fld Reg.MGT_STATUS.image ≠ s.persist.preferred →
      exec (.requestUpdate binding ep) s = .next (s.emit (.message binding ep (pldm 5 0x10 0x8A))))) ∧
  (∀ (s : State) binding ep (u : Update), s.answers binding true = true → s.brilo.update = some u → u.binding ≠ binding ∨ u.agent ≠ ep →
    exec (.requestUpdate binding ep) s = .next (s.emit (.message binding ep (pldm 5 0x10 0x81))) ∧
    exec (.passComponentTable binding ep) s = .next (s.emit (.message binding ep (pldm 5 0x13 0x80)))) ∧
  (∀ (s : State) binding ep (u : Update), s.answers binding true = true → s.brilo.update = some u → u.binding = binding → u.agent = ep →
    exec (.passComponentTable binding ep) s = .next ((s.setUpdate (some { u with passed := true })).emit (.message binding ep (pldm 5 0x13 0 [0]))) ∧
    (∀ length, s.inhibited = false → u.passed = true → 0 < length → length ≤ 1835008 → ∃ v : Update,
        v = { u with slot := some s.updateSlot, length := length, data := [], verified := false } ∧
      exec (.updateComponent binding ep length) s = .next ((((s.setImage s.updateSlot Image.none).setUpdate (some v)).askData
        v).emit (.message binding ep (pldm 5 0x14 0 [0])))) ∧
    (∀ data, s.inhibited = false → u.slot ≠ none → u.verified = false → u.data.length < u.length → ∃ v : Update,
        v = { u with data := (u.data ++ data).take u.length } ∧ exec (.firmwareDataReceive binding ep data) s =
          .next (if v.data.length = v.length then s.verifyUpdate v else (s.setUpdate (some v)).askData v)) ∧
    exec (.cancelUpdateComponent binding ep) s = .next (((s.dropSlot u).setUpdate (some
      { u with slot := none, length := 0, data := [], verified := false })).emit (.message binding ep (pldm 5 0x1C 0))) ∧
    exec (.cancelUpdate binding ep) s = .next (((s.dropSlot u).setUpdate none).emit (.message binding ep (pldm 5 0x1D 0))) ∧
    (∀ t : State, s.inhibited = false → u.verified = true → t = (s.modPersist fun p =>
        { p with preferred := u.slot.getD 0, trial := true, trials := 0 }).emit (.message binding ep (pldm 5 0x1A 0)) →
      (s.starting = false → s.shuttingDown = false → exec (.activateFirmware binding ep) s = .next t.coreRestart) ∧
      (s.starting = true ∨ s.shuttingDown = true → exec (.activateFirmware binding ep) s =
        .next (t.modBrilo fun b => { b with restartDue := true, update := none })))) ∧
  (∀ (s : State) (u : Update), u.slot = some 0 ∨ u.slot = some 1 →
    (s.verifyUpdate u).persist.image (u.slot.getD 0) = (if s.imageValid (parseImage u.data) = true then parseImage u.data else Image.none) ∧
    (s.verifyUpdate u).persist.image (1 - u.slot.getD 0) = s.persist.image (1 - u.slot.getD 0))

/-- While it is not busy, Brilo answers each SPDM request in its order: version, capabilities, algorithms, then digests, certificate,
challenge, measurements and key exchange. A fifth session, or a second of one requester, is answered Busy. A secured request with keys is
answered and END_SESSION drops the session, as a missed heartbeat does; during a shutdown from phase 4 every request is answered Busy and
changes nothing. (R459, R462, R468, R485) -/
def Obligations.SpdmMessages : Prop :=
  (∀ (s : State) binding ep, s.answers binding false = true → s.brilo.busy = false →
    exec (.getVersion binding ep) s = .next ((s.setSpdmPhase binding ep 1).emit (.message binding ep [5, 0x04, 0x12])) ∧
    (1 ≤ s.spdmPhase binding ep → exec (.getCapabilities binding ep) s =
      .next ((s.setSpdmPhase binding ep (max 2 (s.spdmPhase binding ep))).emit (.message binding ep [5, 0x61]))) ∧
    (2 ≤ s.spdmPhase binding ep → exec (.negotiateAlgorithms binding ep) s =
      .next ((s.setSpdmPhase binding ep 3).emit (.message binding ep [5, 0x63]))) ∧
    (3 ≤ s.spdmPhase binding ep →
      exec (.getDigests binding ep) s = .next (s.emit (.message binding ep ([5, 0x01, 1] ++ (sha384 Config.certChain).map (·.toNat)))) ∧
      (∀ offset length, exec (.getCertificate binding ep 0 offset length) s = .next (s.emit (.message binding ep
        ([5, 0x02, 0] ++ ((Config.certChain.drop offset).take length).map fun b : Byte => b.toNat)))) ∧
      exec (.challenge binding ep 0) s = .next (s.free.2.emit (.message binding ep [5, 0x03, 0, s.free.1])) ∧
      exec (.getMeasurements binding ep 0) s = .next (s.emit (.message binding ep [5, 0x60, 5])) ∧
      (∀ i, 1 ≤ i → i ≤ 5 → exec (.getMeasurements binding ep i) s =
        .next (s.emit (.message binding ep ([5, 0x60] ++ i :: (s.measurement i).map (·.toNat))))) ∧
      (s.brilo.sessions.length < 4 → s.session? binding ep = none → exec (.keyExchange binding ep) s = .next ((s.free.2.modBrilo fun b =>
        { b with sessions := b.sessions ++ [(⟨binding, ep, false⟩ : Session)] }).emit (.message binding ep [5, 0x64, s.free.1]))) ∧
      (4 ≤ s.brilo.sessions.length ∨ s.session? binding ep ≠ none → exec (.keyExchange binding ep) s = .next (s.emit (.message binding ep (spdmError 3)))))) ∧
  (∀ (s : State) binding ep (x : Session), binding = 1 ∨ binding = 3 → s.answers binding false = true → s.brilo.busy = false →
    s.session? binding ep = some x →
    (x.keys = false → exec (.finish binding ep) s = .next ((s.modBrilo fun b => { b with sessions := b.sessions.map fun y =>
      if y.binding = binding ∧ y.requester = ep then { y with keys := true } else y }).emit (.message binding ep [5, 0x65]))) ∧
    (x.keys = true → exec (.heartbeat binding ep) s = .next (s.emit (.message binding ep [5, 0x68])) ∧
      exec (.endSession binding ep) s = .next ((s.dropSession binding ep).emit (.message binding ep [5, 0x6C])))) ∧
  (∀ (s : State) binding ep, exec (.spdmHeartbeatTimeout binding ep) s = .next (s.dropSession binding ep)) ∧
  (∀ (s : State) binding ep c, c ∈ [Instr.getVersion binding ep, .getCapabilities binding ep, .negotiateAlgorithms binding ep, .getDigests binding ep,
      .challenge binding ep 0, .keyExchange binding ep] ∨ (∃ slot offset length, c = .getCertificate binding ep slot offset length) ∨
      (∃ i, c = .getMeasurements binding ep i) ∨ ((binding = 1 ∨ binding = 3) ∧ c ∈ [.finish binding ep, .heartbeat binding ep, .endSession binding ep]) →
    s.answers binding false = true → s.brilo.busy = true →
    exec c s = .next (s.emit (.message binding ep (spdmError 3))))

/-- At power-on the carrier selects P54A at 50 V or above, else P54B at 50 V or above, and stage 1 begins; with neither the module does not
start. (R425) -/
def Obligations.PowerOnSelection : Prop :=
  (∀ (s : State) main backup found, 50000 ≤ main → ∃ t, exec (.powerOnReset ⟨main, backup⟩ found) s = .next t ∧ t.fld Reg.PWR_SUPSTAT.active = 0 ∧
    t.fld Reg.TOP_STARTSTAT.stage = 1) ∧
  (∀ (s : State) main backup found, main < 50000 → 50000 ≤ backup → ∃ t, exec (.powerOnReset ⟨main, backup⟩ found) s = .next t ∧
    t.fld Reg.PWR_SUPSTAT.active = 1 ∧ t.fld Reg.TOP_STARTSTAT.stage = 1) ∧
  (∀ (s : State) main backup found, main < 50000 → backup < 50000 → exec (.powerOnReset ⟨main, backup⟩ found) s = .next s)

/-- A power-on reset and a module reset leave T1, scratch and cluster SRAM empty, no job, no core with state, and the three locks clear; they
keep what the weight store's NAND holds and host memory, but journal records from the first whose code fails after a loss of power on, and
power-on samples the slot straps and takes the persistence copy that stands. A pulse on MRESET_N of less than 5 µs does nothing, one of 10
µs or more resets the module, and one between does one or the other. A release lets the start go on at stage 2. PERST_N ends the link and
T3 with it. (R14, R453, R470, R472, R473, R525, R526, Table 20.1) -/
def Obligations.Resets : Prop :=
  (∀ (s : State) main backup found, 50000 ≤ main ∨ 50000 ≤ backup → ∃ t, exec (.powerOnReset ⟨main, backup⟩ found) s = .next t ∧
    t.mem = ⟨[], [], [], s.mem.t3⟩ ∧ t.stack = [] ∧ t.jobs = [] ∧ t.cores = [] ∧ t.nvs.units = s.nvs.units ∧ t.nvs.image = s.nvs.image ∧
    (found.badRecord = none → t.nvs.records = s.nvs.records) ∧ (∀ k, found.badRecord = some k → t.nvs.records = s.nvs.records.take k) ∧
    t.persist = (s.copies.afterLoss found.torn).current ∧ t.strap = found.straps % 4 ∧ t.pending = s.pending ∧
    ∀ l ∈ [Reg.MEM_LOCK.lock, Reg.NVS_LOCK.lock, Reg.SEQ_KVLOCK.lock], t.flag l = false) ∧
  (∀ (s : State), s.moduleReset.mem = ⟨[], [], [], s.mem.t3⟩ ∧ s.moduleReset.jobs = [] ∧ s.moduleReset.cores = [] ∧ s.moduleReset.nvs.units = s.nvs.units ∧
    s.moduleReset.nvs.image = s.nvs.image ∧ s.moduleReset.nvs.records = s.nvs.records ∧ s.moduleReset.stack = [] ∧ s.moduleReset.pending = s.pending ∧ s.moduleReset.images = [] ∧ s.moduleReset.switches = [] ∧
    (∀ l ∈ [Reg.MEM_LOCK.lock, Reg.NVS_LOCK.lock, Reg.SEQ_KVLOCK.lock], s.moduleReset.flag l = false) ∧
    (∀ f i, f ∈ [Reg.TOP_FAULT.cause, Reg.TOP_FAULT.slot, Reg.TOP_FAULT.cls, Reg.TOP_FAULT.valid, Reg.TOP_FAULT.gsc_lo, Reg.UNIT_FAULT.cause] →
      s.moduleReset.fld f i = s.fld f i)) ∧
  (∀ (s : State) us taken, us < 5 → exec (.mresetAssert us taken) s = .next s) ∧
  (∀ (s : State) us taken, 10 ≤ us → s.fld Reg.TOP_STARTSTAT.stage ≠ 0 →
    exec (.mresetAssert us taken) s = .next (State.setFld { s.moduleReset with mreset := true } Reg.TOP_STARTSTAT.stage 1)) ∧
  (∀ (s : State) us taken, exec (.mresetAssert us taken) s = .next s ∨
    exec (.mresetAssert us taken) s = .next (State.setFld { s.moduleReset with mreset := true } Reg.TOP_STARTSTAT.stage 1)) ∧
  (∀ (s : State), s.mreset = true → exec .moduleResetRelease s = .next (State.setFld { s with mreset := false } Reg.TOP_STARTSTAT.stage 2)) ∧
  (∀ (s : State), s.takes 0x110 → exec .topModuleReset s = .next (s.moduleReset.setFld Reg.TOP_STARTSTAT.stage 2)) ∧
  (∀ (s : State), s.perst = false → exec .perstAssert s =
    .next (State.failT3 { s with perst := true, pcieUp := false, pcieWidth := 0, pcieSpeed := 0, d3hot := false })) ∧
  (∀ (s : State), exec .perstRelease s = .next { s with perst := false })

/-- Each stage in progress that completes leads to the next, with the effect of its row: rails and PWRGD, clocks, links, refit, cleared
memory, the quick check, repair, the weight store, the published walk, and ready. An Apron start skips stages 5 to 9 and ends at 11. A
stage that is late fails the attempt, which asserts FAULT_N and ends PWRGD in a full start; 1 s later the next begins at stage 2. (R43,
R241, R474, R475, R476, R478, R479, R480, R482, R489, R491) -/
def Obligations.StartStages : Prop :=
  (∀ (s : State), s.atStage 1 = true → s.briloUp = true → s.flag Reg.MGT_STATUS.recovery = false → s.emergency = none →
    exec .stageBriloComplete s = .next (s.loadPersist.toStage 2)) ∧
  (∀ (s : State), s.atStage 2 = true → s.briloUp = true → s.flag Reg.MGT_STATUS.recovery = false → (s.waitCool = true → s.hot = false) →
    ∃ t, exec (.stagePlanComplete false) s = .next t ∧ t.fld Reg.TOP_STARTSTAT.stage = 3 ∧
      t.flag Reg.TOP_STARTSTAT.apron = (decide (3 ≤ s.persist.attempts) || s.persist.forceApron) ∧
      t.persist.attempts = min 15 (s.persist.attempts + 1) ∧ t.persist.forceApron = false ∧ t.trip = false ∧ t.mem = s.mem) ∧
  (∀ (s : State), s.atStage 3 = true → ∃ t, exec .stageRailsComplete s = .next t ∧ t.pwrgd = true ∧ t.lasers = !s.apron ∧
    t.fld Reg.TOP_STARTSTAT.stage = 4 ∧ (s.apron = true → t.coreMv = 0) ∧ (s.apron = false → 600 ≤ t.coreMv ∧ t.coreMv ≤ 850) ∧ t.mem = s.mem) ∧
  (∀ (s : State), s.atStage 4 = true → (s.apron = true → exec .stageClocksComplete s = .next (s.toStage 10)) ∧
    (s.apron = false → exec .stageClocksComplete s = .next (State.toStage { s with clocks := true } 5))) ∧
  (∀ (s : State), s.atStage 5 = true →
    exec .stageLinksComplete s = .next (State.toStage { s with linkHeld := [], linkFails := [], linkErrors := [], linkDown := [] } 6)) ∧
  (∀ (s : State) readings, s.atStage 6 = true →
    (∀ d, s.measuredDrift readings = some d →
      exec (.stageRefitComplete readings) s = .next ((((s.measureFray readings).writeRefit d true).startMode).toStage 7)) ∧
    (s.measuredDrift readings = none → exec (.stageRefitComplete readings) s = .next ((s.measureFray readings).failStart 0x0207))) ∧
  (∀ (s : State), s.atStage 7 = true → exec .stageMemoryComplete s =
    .next (State.toStage { s with mem := ⟨[], [], [], s.mem.t3⟩, stack := [], poison := [], cache := [], flushing := [] } 8)) ∧
  (∀ (s : State) found, s.atStage 8 = true → ∃ t, exec (.stageCheckComplete found) s = .next t ∧ t.fld Reg.TOP_STARTSTAT.stage = 9 ∧
    (t.flag Reg.TOP_STARTSTAT.stale = true ↔ ∃ i, i < 34 ∧ i ∉ s.persist.sliceMap) ∧ t.mem = s.mem) ∧
  (∀ (s : State) all bad, s.atStage 9 = true → all = s.fused ++ s.persist.entries → bad = badSlots all s.persist.retireMap →
    (∀ u ∈ bad, (coreOf u).isSome = true ∨ (5 ≤ u ∧ u < 21)) → (∃ c, c < 256 ∧ isRetired bad (slotCore c) = false) →
    exec .stageRepairComplete s = .next ((s.applyRepair all bad).toStage 10)) ∧
  (∀ (s : State), s.atStage 10 = true → ∃ t, exec .stageNvsComplete s = .next t ∧ t.nvsKey = true ∧ t.flag Reg.NVS_STATUS.ready = true ∧
    (s.apron = true → t.flag Reg.NVS_STATUS.ro = true ∧ t.flag Reg.NVS_STATUS.apron = true) ∧ t.fld Reg.TOP_STARTSTAT.stage = 11) ∧
  (∀ (s : State), s.atStage 11 = true → ∃ t, exec .stagePublishComplete s = .next t ∧ t.flag Reg.CAP_STATUS.ready = true ∧
    (s.apron = false → t.fld Reg.TOP_STARTSTAT.stage = 12 ∧ t.fld Reg.TOP_BLKSTAT.blocks = 0x7FF) ∧
    (s.apron = true → t.fld Reg.TOP_STARTSTAT.stage = 11 ∧ t.fld Reg.TOP_BLKSTAT.blocks = 0x70B)) ∧
  (∀ (s : State), s.atStage 12 = true → ∃ t, exec .stageReadyComplete s = .next t ∧ t.readyPin = true ∧ t.faultPin = false ∧
    t.flag Reg.TOP_STARTSTAT.ready = true ∧ t.persist.attempts = 0 ∧ t.persist.sliceMap = [] ∧ t.mem = s.mem) ∧
  (∀ (s : State) cause n, s.fld Reg.TOP_STARTSTAT.stage = n → s.atStage n = true → 1 ≤ n → causeStage cause n = true →
    exec (.startStageTimeout cause) s = .next (s.failStart cause)) ∧
  (∀ (s : State) cause, 2 ≤ s.fld Reg.TOP_STARTSTAT.stage → s.apron = false → (s.failStart cause).attemptEnded = some true ∧
    (s.failStart cause).faultPin = true ∧ (s.failStart cause).pwrgd = false) ∧
  (∀ (s : State), s.attemptEnded = some true → exec .startRetry s = .next (State.toStage { s with attemptEnded := none } 2)) ∧
  (∀ (s : State), s.takes 0x108 → exec .clearAttempts s =
      .next ((s.modPersist fun p => { p with attempts := 0 }).setFld Reg.TOP_STARTSTAT.attempts 0) ∧
    exec .forceApron s = .next (s.modPersist fun p => { p with forceApron := true }))

/-- A shutdown of a module that is ready or in Apron mode begins phase 1 and marks every job to end; a second request, or one of a module that
is not ready, only shows its result. The phases follow in order: the queues closed, the caches written back, the checkpoint, the secrets
cleared, the slices, and off; skipping the test, and an Apron shutdown, go from the checkpoint to off. A slice that ends has its result
and its entries kept, and a complete one sets its bit. (R483, R484, R485, R487, R488, Table 20.6) -/
def Obligations.ShutdownPhases : Prop :=
  (∀ (s : State) c skip, c = Instr.shutdownStart ∧ skip = false ∨ c = Instr.shutdownStartSkipTest ∧ skip = true → s.takes 0x118 →
    exec c s = .next (s.beginShutdown skip)) ∧
  (∀ (s : State) skip, s.shutdown.isSome = true → s.beginShutdown skip = s.setFld Reg.TOP_SHUTSTAT.result 2) ∧
  (∀ (s : State) skip, s.shutdown = none → s.flag Reg.TOP_STARTSTAT.ready = false → s.apron = false →
    s.beginShutdown skip = s.setFld Reg.TOP_SHUTSTAT.result 1) ∧
  (∀ (s : State) skip, s.shutdown = none → s.flag Reg.TOP_STARTSTAT.ready = true ∨ s.apron = true → ∃ t : State, t.jobs = s.jobs ∧
    s.beginShutdown skip = (s.jobs.foldl (fun u j => u.markFault j.id 0x100 true) t).settle ∧ t.shutdown = some ⟨1, skip, 0, none, false⟩ ∧ t.readyPin = false ∧ t.fld Reg.TOP_SHUTSTAT.state = 1) ∧
  (∀ (s : State) (d : Shutdown), s.shutdown = some d →
    (d.phase = 1 → s.jobs = [] → s.nvs.cmds = [] →
      (s.apron = true → exec .shutdownCloseComplete s = .next (s.toPhase d 3)) ∧
      (s.apron = false → exec .shutdownCloseComplete s = .next (s.beginFlush.toPhase d 2))) ∧
    (d.phase = 2 → exec .shutdownWritebackComplete s =
      .next (State.toPhase { s with flushing := [] } d 3)) ∧
    (d.phase = 3 → s.inhibited = false → s.apron = false →
      (d.skip = true → exec .shutdownCheckpointComplete s =
        .next (((s.modNvs Nvs.checkpoint).setFld Reg.NVS_STATUS.ready 0).toPhase d 6)) ∧
      (d.skip = false → exec .shutdownCheckpointComplete s = .next ((((s.modNvs Nvs.checkpoint).setFld
        Reg.NVS_STATUS.ready 0).modBrilo fun b => { b with busy := true }).toPhase d 4))) ∧
    (d.phase = 4 → exec (.secretsClearComplete true) s =
        .next ((State.setFld { s.clearSecrets with scan := true } Reg.TOP_SHUTSTAT.state 2).toPhase d 5) ∧
      exec (.secretsClearComplete false) s = .next ((s.clearSecrets.recordFault 0x0220 .module []).toPhase d 6)) ∧
    (d.phase = 5 → d.ended = none → d.stopped = false → s.inhibited = false →
      (∀ faults ms, ms ≤ s.fld Reg.TST_CFG.slice_ms → exec (.sliceTestsComplete faults ms) s = .next (s.endSlice d 0 ms faults false)) ∧
      (∀ faults, exec (.sliceBudgetExpire faults) s = .next (s.endSlice d 2 (s.fld Reg.TST_CFG.slice_ms) faults false)) ∧
      ∀ faults ms, exec (.testBudgetExpire faults ms) s = .next (s.endSlice d 2 ms faults true)) ∧
    (∀ r faults ms n p, d.phase = 5 → d.ended = some (r, faults, ms) → s.inhibited = false → d.slice < 34 → r < 4 →
      (n, p) = s.persist.keepFaults d.slice 0 faults → ∃ t, exec .sliceCommitComplete s = .next t ∧
      t.fld Reg.TST_SLICE.result d.slice = r ∧ (d.slice, r, n, ms) ∈ t.persist.results ∧ t.persist.entries = p.entries ∧
      (r < 2 → d.slice ∈ t.persist.sliceMap) ∧ (2 ≤ r → t.persist.sliceMap = s.persist.sliceMap) ∧ t.mem = s.mem ∧
      (d.stopped = false → d.slice < 33 → t.shutdown = some { d with slice := d.slice + 1, ended := none }) ∧
      (d.stopped = true ∨ d.slice = 33 → t.shutdown = some { d with phase := 6 })) ∧
    (d.phase = 6 → ∃ t, exec .shutdownOffComplete s = .next t ∧ t.coreMv = 0 ∧ t.pwrgd = false ∧ t.fld Reg.TOP_SHUTSTAT.state = 3 ∧
      t.shutdown = some { d with phase := 7 } ∧ (s.brilo.restartDue = true → t.briloUp = false) ∧ t.mem = s.mem)) ∧
  (∀ (s : State), s.clearSecrets.nvsKey = false ∧ s.clearSecrets.brilo.sessions = [] ∧ s.clearSecrets.brilo.identity = false ∧
    ∀ i, s.clearSecrets.fld Reg.FAB_RGN.key i = 0 ∧ s.clearSecrets.fld Reg.MEM_LEND.key i = 0 ∧ s.clearSecrets.fld Reg.MEM_T2MAP.key i = 0 ∧
      s.clearSecrets.fld Reg.FAB_MCRED.key i = 0)

end
end

