-- ==== Sys2Proof/Laws/State.lean ====
section
/-! SUPPORT. One lemma per field per update of the state, true by `rfl`: no later proof unfolds a record update. -/

namespace Sys2Proof.Machine.State

@[simp] theorem setFld_pending (s : State) (f : Field) (v i : Nat) : (s.setFld f v i).pending = s.pending := rfl
@[simp] theorem setFld_mem (s : State) (f : Field) (v i : Nat) : (s.setFld f v i).mem = s.mem := rfl
@[simp] theorem setFld_poison (s : State) (f : Field) (v i : Nat) : (s.setFld f v i).poison = s.poison := rfl
@[simp] theorem setFld_cache (s : State) (f : Field) (v i : Nat) : (s.setFld f v i).cache = s.cache := rfl
@[simp] theorem setFld_flushing (s : State) (f : Field) (v i : Nat) : (s.setFld f v i).flushing = s.flushing := rfl
@[simp] theorem setFld_avg (s : State) (f : Field) (v i : Nat) : (s.setFld f v i).avg = s.avg := rfl
@[simp] theorem setFld_coreMv (s : State) (f : Field) (v i : Nat) : (s.setFld f v i).coreMv = s.coreMv := rfl
@[simp] theorem setFld_uncoreMv (s : State) (f : Field) (v i : Nat) : (s.setFld f v i).uncoreMv = s.uncoreMv := rfl
@[simp] theorem setFld_rateChange (s : State) (f : Field) (v i : Nat) : (s.setFld f v i).rateChange = s.rateChange := rfl
@[simp] theorem setFld_declRate (s : State) (f : Field) (v i : Nat) : (s.setFld f v i).declRate = s.declRate := rfl
@[simp] theorem setFld_paceRate (s : State) (f : Field) (v i : Nat) : (s.setFld f v i).paceRate = s.paceRate := rfl
@[simp] theorem setFld_linkFails (s : State) (f : Field) (v i : Nat) : (s.setFld f v i).linkFails = s.linkFails := rfl
@[simp] theorem setFld_linkErrors (s : State) (f : Field) (v i : Nat) : (s.setFld f v i).linkErrors = s.linkErrors := rfl
@[simp] theorem setFld_linkDown (s : State) (f : Field) (v i : Nat) : (s.setFld f v i).linkDown = s.linkDown := rfl
@[simp] theorem setFld_ctrlQueue (s : State) (f : Field) (v i : Nat) : (s.setFld f v i).ctrlQueue = s.ctrlQueue := rfl
@[simp] theorem setFld_groups (s : State) (f : Field) (v i : Nat) : (s.setFld f v i).groups = s.groups := rfl
@[simp] theorem setFld_cores (s : State) (f : Field) (v i : Nat) : (s.setFld f v i).cores = s.cores := rfl
@[simp] theorem setFld_signals (s : State) (f : Field) (v i : Nat) : (s.setFld f v i).signals = s.signals := rfl
@[simp] theorem setFld_doorbells (s : State) (f : Field) (v i : Nat) : (s.setFld f v i).doorbells = s.doorbells := rfl
@[simp] theorem setFld_queueDisables (s : State) (f : Field) (v i : Nat) : (s.setFld f v i).queueDisables = s.queueDisables := rfl
@[simp] theorem setFld_streamHeld (s : State) (f : Field) (v i : Nat) : (s.setFld f v i).streamHeld = s.streamHeld := rfl
@[simp] theorem setFld_seqs (s : State) (f : Field) (v i : Nat) : (s.setFld f v i).seqs = s.seqs := rfl
@[simp] theorem setFld_ended (s : State) (f : Field) (v i : Nat) : (s.setFld f v i).ended = s.ended := rfl
@[simp] theorem setFld_heldCmds (s : State) (f : Field) (v i : Nat) : (s.setFld f v i).heldCmds = s.heldCmds := rfl
@[simp] theorem setFld_restoring (s : State) (f : Field) (v i : Nat) : (s.setFld f v i).restoring = s.restoring := rfl
@[simp] theorem setFld_serving (s : State) (f : Field) (v i : Nat) : (s.setFld f v i).serving = s.serving := rfl
@[simp] theorem setFld_lastRecordAt (s : State) (f : Field) (v i : Nat) : (s.setFld f v i).lastRecordAt = s.lastRecordAt := rfl
@[simp] theorem setFld_earlyRecords (s : State) (f : Field) (v i : Nat) : (s.setFld f v i).earlyRecords = s.earlyRecords := rfl
@[simp] theorem setFld_parkUsed (s : State) (f : Field) (v i : Nat) : (s.setFld f v i).parkUsed = s.parkUsed := rfl
@[simp] theorem setFld_tabUsed (s : State) (f : Field) (v i : Nat) : (s.setFld f v i).tabUsed = s.tabUsed := rfl
@[simp] theorem setFld_xe (s : State) (f : Field) (v i : Nat) : (s.setFld f v i).xe = s.xe := rfl
@[simp] theorem setFld_jobs (s : State) (f : Field) (v i : Nat) : (s.setFld f v i).jobs = s.jobs := rfl
@[simp] theorem setFld_images (s : State) (f : Field) (v i : Nat) : (s.setFld f v i).images = s.images := rfl
@[simp] theorem setFld_sramImages (s : State) (f : Field) (v i : Nat) : (s.setFld f v i).sramImages = s.sramImages := rfl
@[simp] theorem setFld_stopped (s : State) (f : Field) (v i : Nat) : (s.setFld f v i).stopped = s.stopped := rfl
@[simp] theorem setFld_control (s : State) (f : Field) (v i : Nat) : (s.setFld f v i).control = s.control := rfl
@[simp] theorem setFld_busyNs (s : State) (f : Field) (v i : Nat) : (s.setFld f v i).busyNs = s.busyNs := rfl
@[simp] theorem setFld_ranSince (s : State) (f : Field) (v i : Nat) : (s.setFld f v i).ranSince = s.ranSince := rfl
@[simp] theorem setFld_pwrgd (s : State) (f : Field) (v i : Nat) : (s.setFld f v i).pwrgd = s.pwrgd := rfl
@[simp] theorem setFld_faultPin (s : State) (f : Field) (v i : Nat) : (s.setFld f v i).faultPin = s.faultPin := rfl
@[simp] theorem setFld_thermtrip (s : State) (f : Field) (v i : Nat) : (s.setFld f v i).thermtrip = s.thermtrip := rfl
@[simp] theorem setFld_switches (s : State) (f : Field) (v i : Nat) : (s.setFld f v i).switches = s.switches := rfl
@[simp] theorem setFld_schedWait (s : State) (f : Field) (v i : Nat) : (s.setFld f v i).schedWait = s.schedWait := rfl
@[simp] theorem setFld_lull (s : State) (f : Field) (v i : Nat) : (s.setFld f v i).lull = s.lull := rfl
@[simp] theorem setFld_lullFull (s : State) (f : Field) (v i : Nat) : (s.setFld f v i).lullFull = s.lullFull := rfl
@[simp] theorem setFld_arbiter (s : State) (f : Field) (v i : Nat) : (s.setFld f v i).arbiter = s.arbiter := rfl
@[simp] theorem setFld_lullEnded (s : State) (f : Field) (v i : Nat) : (s.setFld f v i).lullEnded = s.lullEnded := rfl
@[simp] theorem setFld_arbiterEnded (s : State) (f : Field) (v i : Nat) : (s.setFld f v i).arbiterEnded = s.arbiterEnded := rfl
@[simp] theorem setFld_arbiterWindow (s : State) (f : Field) (v i : Nat) : (s.setFld f v i).arbiterWindow = s.arbiterWindow := rfl
@[simp] theorem setFld_log (s : State) (f : Field) (v i : Nat) : (s.setFld f v i).log = s.log := rfl
@[simp] theorem setFld_uptime (s : State) (f : Field) (v i : Nat) : (s.setFld f v i).uptime = s.uptime := rfl
@[simp] theorem setFld_pcieUp (s : State) (f : Field) (v i : Nat) : (s.setFld f v i).pcieUp = s.pcieUp := rfl
@[simp] theorem setFld_pcieWidth (s : State) (f : Field) (v i : Nat) : (s.setFld f v i).pcieWidth = s.pcieWidth := rfl
@[simp] theorem setFld_pcieSpeed (s : State) (f : Field) (v i : Nat) : (s.setFld f v i).pcieSpeed = s.pcieSpeed := rfl
@[simp] theorem setFld_d3hot (s : State) (f : Field) (v i : Nat) : (s.setFld f v i).d3hot = s.d3hot := rfl
@[simp] theorem setFld_perst (s : State) (f : Field) (v i : Nat) : (s.setFld f v i).perst = s.perst := rfl
@[simp] theorem setFld_briloUp (s : State) (f : Field) (v i : Nat) : (s.setFld f v i).briloUp = s.briloUp := rfl
@[simp] theorem setFld_receiver (s : State) (f : Field) (v i : Nat) : (s.setFld f v i).receiver = s.receiver := rfl
@[simp] theorem setFld_links (s : State) (f : Field) (v i : Nat) : (s.setFld f v i).links = s.links := rfl
@[simp] theorem setFld_tracker (s : State) (f : Field) (v i : Nat) : (s.setFld f v i).tracker = s.tracker := rfl
@[simp] theorem setFld_heldRequests (s : State) (f : Field) (v i : Nat) : (s.setFld f v i).heldRequests = s.heldRequests := rfl
@[simp] theorem setFld_nextTag (s : State) (f : Field) (v i : Nat) : (s.setFld f v i).nextTag = s.nextTag := rfl
@[simp] theorem setFld_seqOut (s : State) (f : Field) (v i : Nat) : (s.setFld f v i).seqOut = s.seqOut := rfl
@[simp] theorem setFld_seen (s : State) (f : Field) (v i : Nat) : (s.setFld f v i).seen = s.seen := rfl
@[simp] theorem setFld_ingress (s : State) (f : Field) (v i : Nat) : (s.setFld f v i).ingress = s.ingress := rfl
@[simp] theorem setFld_queuesIn (s : State) (f : Field) (v i : Nat) : (s.setFld f v i).queuesIn = s.queuesIn := rfl
@[simp] theorem setFld_torn (s : State) (f : Field) (v i : Nat) : (s.setFld f v i).torn = s.torn := rfl
@[simp] theorem setFld_tearing (s : State) (f : Field) (v i : Nat) : (s.setFld f v i).tearing = s.tearing := rfl
@[simp] theorem setFld_heard (s : State) (f : Field) (v i : Nat) : (s.setFld f v i).heard = s.heard := rfl
@[simp] theorem setFld_lullSent (s : State) (f : Field) (v i : Nat) : (s.setFld f v i).lullSent = s.lullSent := rfl
@[simp] theorem setFld_gscLatch (s : State) (f : Field) (v i : Nat) : (s.setFld f v i).gscLatch = s.gscLatch := rfl
@[simp] theorem setFld_bulks (s : State) (f : Field) (v i : Nat) : (s.setFld f v i).bulks = s.bulks := rfl
@[simp] theorem setFld_bulkNext (s : State) (f : Field) (v i : Nat) : (s.setFld f v i).bulkNext = s.bulkNext := rfl
@[simp] theorem setFld_fabNext (s : State) (f : Field) (v i : Nat) : (s.setFld f v i).fabNext = s.fabNext := rfl
@[simp] theorem setFld_gscSync (s : State) (f : Field) (v i : Nat) : (s.setFld f v i).gscSync = s.gscSync := rfl
@[simp] theorem setFld_nvs (s : State) (f : Field) (v i : Nat) : (s.setFld f v i).nvs = s.nvs := rfl
@[simp] theorem setFld_lullMs (s : State) (f : Field) (v i : Nat) : (s.setFld f v i).lullMs = s.lullMs := rfl
@[simp] theorem setFld_lasers (s : State) (f : Field) (v i : Nat) : (s.setFld f v i).lasers = s.lasers := rfl
@[simp] theorem setFld_trip (s : State) (f : Field) (v i : Nat) : (s.setFld f v i).trip = s.trip := rfl
@[simp] theorem setFld_leaseAt (s : State) (f : Field) (v i : Nat) : (s.setFld f v i).leaseAt = s.leaseAt := rfl
@[simp] theorem setFld_grantsHeld (s : State) (f : Field) (v i : Nat) : (s.setFld f v i).grantsHeld = s.grantsHeld := rfl
@[simp] theorem setFld_grantsGiven (s : State) (f : Field) (v i : Nat) : (s.setFld f v i).grantsGiven = s.grantsGiven := rfl
@[simp] theorem setFld_twWindow (s : State) (f : Field) (v i : Nat) : (s.setFld f v i).twWindow = s.twWindow := rfl
@[simp] theorem setFld_twReports (s : State) (f : Field) (v i : Nat) : (s.setFld f v i).twReports = s.twReports := rfl
@[simp] theorem setFld_emergency (s : State) (f : Field) (v i : Nat) : (s.setFld f v i).emergency = s.emergency := rfl
@[simp] theorem setFld_persist (s : State) (f : Field) (v i : Nat) : (s.setFld f v i).persist = s.persist := rfl
@[simp] theorem setFld_brilo (s : State) (f : Field) (v i : Nat) : (s.setFld f v i).brilo = s.brilo := rfl
@[simp] theorem setFld_counter (s : State) (f : Field) (v i : Nat) : (s.setFld f v i).counter = s.counter := rfl
@[simp] theorem setFld_revoked (s : State) (f : Field) (v i : Nat) : (s.setFld f v i).revoked = s.revoked := rfl
@[simp] theorem setFld_mbReq (s : State) (f : Field) (v i : Nat) : (s.setFld f v i).mbReq = s.mbReq := rfl
@[simp] theorem setFld_mbRsp (s : State) (f : Field) (v i : Nat) : (s.setFld f v i).mbRsp = s.mbRsp := rfl
@[simp] theorem setFld_logData (s : State) (f : Field) (v i : Nat) : (s.setFld f v i).logData = s.logData := rfl
@[simp] theorem setFld_nvsKey (s : State) (f : Field) (v i : Nat) : (s.setFld f v i).nvsKey = s.nvsKey := rfl
@[simp] theorem setFld_clocks (s : State) (f : Field) (v i : Nat) : (s.setFld f v i).clocks = s.clocks := rfl
@[simp] theorem setFld_attemptFound (s : State) (f : Field) (v i : Nat) : (s.setFld f v i).attemptFound = s.attemptFound := rfl
@[simp] theorem setFld_attemptEnded (s : State) (f : Field) (v i : Nat) : (s.setFld f v i).attemptEnded = s.attemptEnded := rfl
@[simp] theorem setFld_readyPin (s : State) (f : Field) (v i : Nat) : (s.setFld f v i).readyPin = s.readyPin := rfl
@[simp] theorem setFld_waitCool (s : State) (f : Field) (v i : Nat) : (s.setFld f v i).waitCool = s.waitCool := rfl
@[simp] theorem setFld_fused (s : State) (f : Field) (v i : Nat) : (s.setFld f v i).fused = s.fused := rfl
@[simp] theorem setFld_mreset (s : State) (f : Field) (v i : Nat) : (s.setFld f v i).mreset = s.mreset := rfl
@[simp] theorem setFld_shutdown (s : State) (f : Field) (v i : Nat) : (s.setFld f v i).shutdown = s.shutdown := rfl
@[simp] theorem setFld_scan (s : State) (f : Field) (v i : Nat) : (s.setFld f v i).scan = s.scan := rfl
@[simp] theorem setFld_tests (s : State) (f : Field) (v i : Nat) : (s.setFld f v i).tests = s.tests := rfl
@[simp] theorem setFld_repairs (s : State) (f : Field) (v i : Nat) : (s.setFld f v i).repairs = s.repairs := rfl
@[simp] theorem setFld_out (s : State) (f : Field) (v i : Nat) : (s.setFld f v i).out = s.out := rfl
@[simp] theorem setFld_freeCount (s : State) (f : Field) (v i : Nat) : (s.setFld f v i).freeCount = s.freeCount := rfl
@[simp] theorem setFld_stack (s : State) (f : Field) (v i : Nat) : (s.setFld f v i).stack = s.stack := rfl
@[simp] theorem setFld_naturalRate (s : State) (f : Field) (v i : Nat) : (s.setFld f v i).naturalRate = s.naturalRate := rfl
@[simp] theorem setFld_uncoreRatio (s : State) (f : Field) (v i : Nat) : (s.setFld f v i).uncoreRatio = s.uncoreRatio := rfl
@[simp] theorem setFld_slipMv (s : State) (f : Field) (v i : Nat) : (s.setFld f v i).slipMv = s.slipMv := rfl
@[simp] theorem setFld_linkHeld (s : State) (f : Field) (v i : Nat) : (s.setFld f v i).linkHeld = s.linkHeld := rfl
@[simp] theorem setFld_nextAge (s : State) (f : Field) (v i : Nat) : (s.setFld f v i).nextAge = s.nextAge := rfl
@[simp] theorem setFld_parts (s : State) (f : Field) (v i : Nat) : (s.setFld f v i).parts = s.parts := rfl
@[simp] theorem setFld_copies (s : State) (f : Field) (v i : Nat) : (s.setFld f v i).copies = s.copies := rfl
@[simp] theorem setFld_strap (s : State) (f : Field) (v i : Nat) : (s.setFld f v i).strap = s.strap := rfl

end Sys2Proof.Machine.State
end

