-- ==== Sys2Proof/Laws/Table.lean ====
section
/-! SUPPORT. Sparse tables: reading after a write, and the canonical form, which every operation keeps. -/

namespace Sys2Proof.Table

variable {α : Type}

/-- Every key of a table is at least `b`, and the keys rise strictly. -/
def risesFrom : Nat → List (Nat × α) → Prop
  | _, [] => True
  | b, (k, _) :: r => b ≤ k ∧ risesFrom (k + 1) r

theorem risesFrom_mono {a b : Nat} (h : a ≤ b) : ∀ {t : List (Nat × α)}, risesFrom b t → risesFrom a t
  | [], _ => trivial
  | (_, _) :: _, ⟨h₁, h₂⟩ => ⟨Nat.le_trans h h₁, h₂⟩

@[simp] theorem get_nil (d : α) (i : Nat) : get d [] i = d := rfl

theorem get_of_lt (d : α) {b i : Nat} (hi : i < b) : ∀ {t : List (Nat × α)}, risesFrom b t → get d t i = d
  | [], _ => rfl
  | (k, v) :: r, ⟨h₁, h₂⟩ => by
    have : k ≠ i := by omega
    simp [get, this, get_of_lt d (show i < k + 1 by omega) h₂]

@[simp] theorem get_put_same (d v : α) (i : Nat) : ∀ t : List (Nat × α), get d (put t i v) i = v
  | [] => by simp [put, get]
  | (k, w) :: r => by
    unfold put
    split
    · simp [get]
    · split
      · simp [get]
      · rename_i h₁ h₂
        have : k ≠ i := by omega
        simp [get, this, get_put_same d v i r]

theorem get_put_ne (d v : α) {i j : Nat} (h : j ≠ i) : ∀ t : List (Nat × α), get d (put t i v) j = get d t j
  | [] => by simp [put, get, Ne.symm h]
  | (k, w) :: r => by
    unfold put
    split
    · simp [get, Ne.symm h]
    · split
      · rename_i h₁ h₂
        subst h₂
        simp [get, Ne.symm h]
      · simp [get, get_put_ne d v h r]

theorem get_del_ne (d : α) {i j : Nat} (h : j ≠ i) : ∀ t : List (Nat × α), get d (del t i) j = get d t j
  | [] => rfl
  | (k, w) :: r => by
    unfold del
    split
    · rename_i h₁
      subst h₁
      simp [get, Ne.symm h, get_del_ne d h r]
    · simp [get, get_del_ne d h r]

@[simp] theorem get_del_same (d : α) (i : Nat) : ∀ t : List (Nat × α), get d (del t i) i = d
  | [] => rfl
  | (k, w) :: r => by
    unfold del
    split
    · exact get_del_same d i r
    · rename_i h
      simp [get, Ne.symm h, get_del_same d i r]

theorem rises_put (v : α) {i b : Nat} (hb : b ≤ i) : ∀ {t : List (Nat × α)}, risesFrom b t → risesFrom b (put t i v)
  | [], _ => ⟨hb, trivial⟩
  | (k, w) :: r, ⟨h₁, h₂⟩ => by
    unfold put
    split
    · exact ⟨hb, by omega, h₂⟩
    · split
      · rename_i h₃ h₄
        subst h₄
        exact ⟨hb, h₂⟩
      · exact ⟨h₁, rises_put v (by omega) h₂⟩

theorem rises_del {i b : Nat} : ∀ {t : List (Nat × α)}, risesFrom b t → risesFrom b (del t i)
  | [], _ => trivial
  | (k, w) :: r, ⟨h₁, h₂⟩ => by
    unfold del
    split
    · exact risesFrom_mono (by omega) (rises_del h₂)
    · exact ⟨h₁, rises_del h₂⟩

theorem rises_filter (p : Nat × α → Bool) : ∀ {b : Nat} {t : List (Nat × α)}, risesFrom b t → risesFrom b (t.filter p)
  | _, [], _ => trivial
  | b, (k, w) :: r, ⟨h₁, h₂⟩ => by
    rw [List.filter_cons]
    split
    · exact ⟨h₁, rises_filter p h₂⟩
    · exact risesFrom_mono (by omega) (rises_filter p h₂)

/-- Keys at least `c` rise from `c`. -/
theorem rises_from {b c : Nat} : ∀ {t : List (Nat × α)}, risesFrom b t → (∀ e ∈ t, c ≤ e.1) → risesFrom c t
  | [], _, _ => trivial
  | _ :: _, ⟨_, h₂⟩, h => ⟨h _ (List.mem_cons_self ..), h₂⟩

/-- A table below `c` followed by one from `c` on. -/
theorem rises_append {c : Nat} {u : List (Nat × α)} : ∀ {b : Nat} {t : List (Nat × α)}, b ≤ c → risesFrom b t → (∀ e ∈ t, e.1 < c) →
    risesFrom c u → risesFrom b (t ++ u)
  | _, [], h, _, _, hu => risesFrom_mono h hu
  | _, (_, _) :: _, _, ⟨h₁, h₂⟩, h, hu =>
    ⟨h₁, rises_append (h _ (List.mem_cons_self ..)) h₂ (fun e he => h e (List.mem_cons_of_mem _ he)) hu⟩

/-- Keys moved together, none below the place they are counted from. -/
theorem rises_shift (x y : Nat) : ∀ {b : Nat} {t : List (Nat × α)}, x ≤ b → risesFrom b t →
    risesFrom (b - x + y) (t.map fun e => (e.1 - x + y, e.2))
  | _, [], _, _ => trivial
  | b, (k, w) :: r, h, ⟨h₁, h₂⟩ => by
    have := rises_shift x y (show x ≤ k + 1 by omega) h₂
    exact ⟨by omega, risesFrom_mono (by omega) this⟩

theorem mem_put {v : α} {i : Nat} {e : Nat × α} : ∀ {t : List (Nat × α)}, e ∈ put t i v → e = (i, v) ∨ e ∈ t
  | [], h => by simpa [put] using h
  | (k, w) :: r, h => by
    unfold put at h
    split at h
    · simpa using h
    · split at h
      · simp only [List.mem_cons] at h
        rcases h with h | h
        · exact .inl h
        · exact .inr (List.mem_cons_of_mem _ h)
      · simp only [List.mem_cons] at h
        rcases h with h | h
        · exact .inr (by simp [h])
        · exact (mem_put h).imp id (List.mem_cons_of_mem _)

theorem mem_del {i : Nat} {e : Nat × α} : ∀ {t : List (Nat × α)}, e ∈ del t i → e ∈ t
  | [], h => h
  | (k, w) :: r, h => by
    unfold del at h
    split at h
    · exact List.mem_cons_of_mem _ (mem_del h)
    · simp only [List.mem_cons] at h ⊢
      exact h.imp id mem_del

variable [DecidableEq α]

theorem rises_set (d v : α) {i b : Nat} (hb : b ≤ i) {t : List (Nat × α)} (h : risesFrom b t) : risesFrom b (set d t i v) := by
  unfold set
  split
  · exact rises_del h
  · exact rises_put v hb h

/-- Reading what was written. -/
@[simp] theorem get_set_same (d v : α) (i : Nat) (t : List (Nat × α)) : get d (set d t i v) i = v := by
  unfold set
  split
  · rename_i hv
    rw [get_del_same, hv]
  · exact get_put_same d v i t

/-- A write leaves every other key alone. -/
theorem get_set_ne (d v : α) {i j : Nat} (h : j ≠ i) (t : List (Nat × α)) : get d (set d t i v) j = get d t j := by
  unfold set
  split
  · exact get_del_ne d h t
  · exact get_put_ne d v h t

/-- The canonical form is rising keys and no entry at the default. -/
theorem wfFrom_iff (d : α) : ∀ (b : Nat) (t : List (Nat × α)), wfFrom d b t = true ↔ risesFrom b t ∧ ∀ e ∈ t, e.2 ≠ d
  | _, [] => by simp [wfFrom, risesFrom]
  | b, (k, v) :: r => by
    simp only [wfFrom, Bool.and_eq_true, decide_eq_true_eq, wfFrom_iff d (k + 1) r, risesFrom, List.mem_cons, forall_eq_or_imp]
    tauto

theorem wf_iff (d : α) (t : List (Nat × α)) : wf d t = true ↔ risesFrom 0 t ∧ ∀ e ∈ t, e.2 ≠ d := wfFrom_iff d 0 t

theorem wf_nil (d : α) : wf d ([] : List (Nat × α)) = true := rfl

/-- Writing keeps the canonical form. -/
theorem wf_set (d v : α) (i : Nat) {t : List (Nat × α)} (h : wf d t = true) : wf d (set d t i v) = true := by
  rw [wf_iff] at h ⊢
  refine ⟨rises_set d v (Nat.zero_le i) h.1, fun e he => ?_⟩
  unfold set at he
  split at he
  · exact h.2 e (mem_del he)
  · rename_i hv
    rcases mem_put he with he | he
    · simpa [he] using hv
    · exact h.2 e he

/-- Removing entries keeps the canonical form. -/
theorem wf_filter (d : α) (p : Nat × α → Bool) {t : List (Nat × α)} (h : wf d t = true) : wf d (t.filter p) = true := by
  rw [wf_iff] at h ⊢
  exact ⟨rises_filter p h.1, fun e he => h.2 e (List.mem_filter.mp he).1⟩

/-- Two canonical tables, the first below `c` and the second from `c` on, make one. -/
theorem wf_append (d : α) (c : Nat) {t u : List (Nat × α)} (ht : wf d t = true) (hu : wf d u = true) (h : ∀ e ∈ t, e.1 < c)
    (h' : ∀ e ∈ u, c ≤ e.1) : wf d (t ++ u) = true := by
  rw [wf_iff] at ht hu ⊢
  refine ⟨rises_append (Nat.zero_le c) ht.1 h (rises_from hu.1 h'), fun e he => ?_⟩
  rcases List.mem_append.mp he with he | he
  · exact ht.2 e he
  · exact hu.2 e he

/-- A canonical table moved as a whole. -/
theorem wf_shift (d : α) (x y : Nat) {t : List (Nat × α)} (ht : wf d t = true) (h : ∀ e ∈ t, x ≤ e.1) :
    wf d (t.map fun e => (e.1 - x + y, e.2)) = true := by
  rw [wf_iff] at ht ⊢
  refine ⟨risesFrom_mono (Nat.zero_le _) (rises_shift x y (Nat.le_refl x) (rises_from ht.1 h)), fun e he => ?_⟩
  obtain ⟨f, hf, rfl⟩ := List.mem_map.mp he
  exact ht.2 f hf

end Sys2Proof.Table
end

