-- ==== Sys2Proof/Laws/Regs.lean ====
section
/-! SUPPORT. BAR0 fields: reading a field after it, or another one, has been stored. -/

namespace Sys2Proof.Machine.State

/-- A stored field instance reads as the stored value, cut to the field's width. -/
theorem fld_setFld_same (s : State) (f : Field) (v i : Nat) (h : i < f.count) : (s.setFld f v i).fld f i = v % f.size := by
  simp [fld, setFld, h]

/-- An instance that does not exist reads 0. -/
theorem fld_of_ge (s : State) (f : Field) (i : Nat) (h : f.count ≤ i) : s.fld f i = 0 := by
  simp [fld, Nat.not_lt.mpr h]

/-- Storing one field instance leaves every field instance at another key alone. -/
theorem fld_setFld_ne (s : State) (f g : Field) (v i j : Nat) (h : g.key j ≠ f.key i) : (s.setFld f v i).fld g j = s.fld g j := by
  unfold fld setFld
  by_cases hi : i < f.count
  · simp only [hi, if_true]
    by_cases hj : j < g.count
    · simp only [hj, if_true]
      rw [show Table.get g.reset (Table.set f.reset s.regs (f.key i) (v % f.size)) (g.key j) = Table.get g.reset s.regs (g.key j) from ?_]
      unfold Table.set
      split
      · exact Table.get_del_ne _ h _
      · exact Table.get_put_ne _ _ h _
    · simp [hj]
  · simp [hi]

/-- A one-bit field stored as 1 reads as set. -/
theorem flag_setFld_one (s : State) (f : Field) (i : Nat) (h : i < f.count) (hw : f.width ≠ 0) : (s.setFld f 1 i).flag f i = true := by
  have : 1 % f.size = 1 := Nat.mod_eq_of_lt (Nat.one_lt_two_pow hw)
  simp [flag, fld_setFld_same s f 1 i h, this]

/-- A field stored as 0 reads as clear. -/
theorem flag_setFld_zero (s : State) (f : Field) (i : Nat) : (s.setFld f 0 i).flag f i = false := by
  by_cases h : i < f.count
  · simp [flag, fld_setFld_same s f 0 i h]
  · simp [flag, fld_of_ge _ f i (Nat.not_lt.mp h)]

theorem flag_setFld_ne (s : State) (f g : Field) (v i j : Nat) (h : g.key j ≠ f.key i) : (s.setFld f v i).flag g j = s.flag g j := by
  simp [flag, fld_setFld_ne s f g v i j h]

@[simp] theorem gsc_def (s : State) : s.fld Reg.FAB_GSC.value = s.gsc := rfl

@[simp] theorem emit_regs (s : State) (o : Output) : (s.emit o).regs = s.regs := rfl
@[simp] theorem emit_fld (s : State) (o : Output) (f : Field) (i : Nat) : (s.emit o).fld f i = s.fld f i := rfl
@[simp] theorem emit_flag (s : State) (o : Output) (f : Field) (i : Nat) : (s.emit o).flag f i = s.flag f i := rfl
@[simp] theorem emit_out (s : State) (o : Output) : (s.emit o).out = s.out ++ [o] := rfl
@[simp] theorem emit_pending (s : State) (o : Output) : (s.emit o).pending = s.pending := rfl
@[simp] theorem emit_mem (s : State) (o : Output) : (s.emit o).mem = s.mem := rfl

/-- What the host does to a register: nothing where it does not reach, the effect where its block is open, and the access is latched
otherwise. -/
theorem hostWrite_cases (s : State) (offset bytes : Nat) (k : State → State) :
    (s.hostReach = false ∧ s.hostWrite offset bytes k = s) ∨
      (s.hostReach = true ∧ s.blockOpen (blockOf offset) = true ∧ s.hostWrite offset bytes k = k s) ∨
      (s.hostReach = true ∧ s.blockOpen (blockOf offset) = false ∧ s.hostWrite offset bytes k = s.latchAccess 1 offset bytes) := by
  unfold hostWrite
  cases h : s.hostReach <;> cases h' : s.blockOpen (blockOf offset) <;> simp

/-- A write that reaches an open block has its effect. -/
theorem hostWrite_open (s : State) (offset bytes : Nat) (k : State → State) (h : s.hostReach = true)
    (hb : s.blockOpen (blockOf offset) = true) : s.hostWrite offset bytes k = k s := by
  simp [hostWrite, h, hb]

/-- A latched access changes registers only. -/
@[simp] theorem latchAccess_mem (s : State) (k o b : Nat) (w : Bool) : (s.latchAccess k o b w).mem = s.mem := by
  unfold latchAccess; split <;> rfl
@[simp] theorem latchAccess_pending (s : State) (k o b : Nat) (w : Bool) : (s.latchAccess k o b w).pending = s.pending := by
  unfold latchAccess; split <;> rfl

end Sys2Proof.Machine.State
end

