-- ==== Sys2Proof/Laws/Report.lean ====
section
/-! SUPPORT. What sending, logging and reporting do to the BAR0 fields: a packet changes none, a record, a report or a counter only the
fields of `Field.logged` and the counter itself. -/

namespace Sys2Proof.Machine

/-- The fields any record or report may change: the log's bounds and losses, the two lull counters, and TOP_EVT.sat. -/
def Field.logged (f : Field) : Bool :=
  [Reg.MGT_LOGLOST.count, Reg.MGT_LOGLOST.sat, Reg.MGT_LOGHEAD.seq, Reg.MGT_LOGTAIL.seq, Reg.FAB_LULLSUPCNT.count, Reg.FAB_LULLSUPCNT.sat,
    Reg.FAB_LULLOVFCNT.count, Reg.FAB_LULLOVFCNT.sat, Reg.TOP_EVT.sat].any fun g => f.holds (g.key 0)

/-- A field instance that exists has a key the field holds. -/
theorem Field.holds_key (f : Field) (i : Nat) (h : i < f.count) (hs : f.stride = 0 → f.count = 1) : f.holds (f.key i) = true := by
  by_cases h0 : f.stride = 0
  · have : i = 0 := by have := hs h0; omega
    simp [Field.holds, h0, this]
  · have e : f.key i - f.key 0 = 8 * f.stride * i := by simp only [Field.key, Nat.mul_zero, Nat.add_zero]; rw [Nat.mul_add, Nat.mul_assoc]; omega
    have le : f.key 0 ≤ f.key i := by simp only [Field.key, Nat.mul_zero, Nat.add_zero]; rw [Nat.mul_add]; omega
    simp [Field.holds, h0, e, le, Nat.mul_div_cancel_left i (show 0 < 8 * f.stride by omega), h]

/-- A field of stride 0 has one instance: the shape every field of the map has. -/
def Field.plain (f : Field) : Bool := f.stride != 0 || f.count == 1

/-- A field no record or report changes. -/
def Field.quiet (f : Field) : Bool := f.plain && !f.logged

namespace State

/-- A field whose keys a stored field instance is none of reads as before. -/
theorem fld_setFld_apart (s : State) (f g : Field) (v i j : Nat) (hg : g.plain = true) (h : g.holds (f.key i) = false) :
    (s.setFld f v i).fld g j = s.fld g j := by
  by_cases hj : j < g.count
  · refine fld_setFld_ne s f g v i j fun e => ?_
    have := g.holds_key j hj (by simpa [Field.plain, Nat.pos_iff_ne_zero, or_iff_not_imp_left] using hg)
    rw [e, h] at this
    exact absurd this (by simp)
  · rw [fld_of_ge _ g j (Nat.not_lt.mp hj), fld_of_ge _ g j (Nat.not_lt.mp hj)]

/-- Fields read the registers only. -/
theorem fld_congr {s t : State} (h : t.regs = s.regs) (f : Field) (i : Nat) : t.fld f i = s.fld f i := by unfold fld; rw [h]
theorem flag_congr {s t : State} (h : t.regs = s.regs) (f : Field) (i : Nat) : t.flag f i = s.flag f i := by
  unfold flag; rw [fld_congr h]

/-! ### Packets leave the registers alone -/

@[simp] theorem setLink_regs (s : State) (p : Nat) (l : Link) : (s.setLink p l).regs = s.regs := rfl
@[simp] theorem sendFlit_regs (s : State) (port : Nat) (bs : List Byte) : (s.sendFlit port bs).regs = s.regs := rfl
@[simp] theorem pump_regs (s : State) (port n : Nat) : (s.pump port n).regs = s.regs := by
  have flits (fs : List TxFlit) (s : State) : (fs.foldl (fun s f => s.sendFlit port f.bytes) s).regs = s.regs := by
    induction fs generalizing s with
    | nil => rfl
    | cons f r ih => rw [List.foldl_cons, ih, sendFlit_regs]
  induction n generalizing s with
  | zero => rfl
  | succ n ih =>
    unfold pump
    split
    · rfl
    · split
      · rfl
      · simp only [ih, flits, setLink_regs]
@[simp] theorem stamp_regs (s : State) (p : Packet) : (s.stamp p).2.regs = s.regs := by unfold stamp; split <;> rfl
@[simp] theorem enqueue_regs (s : State) (port : Nat) (p : Packet) : (s.enqueue port p).regs = s.regs := by simp [enqueue]
@[simp] theorem route_regs (s : State) (p : Packet) (b : Option Nat) (a : List Nat) : (s.route p b a).2.regs = s.regs := by
  unfold route
  split
  · simp
  · split <;> simp
@[simp] theorem number_regs (s : State) (p : Packet) : (s.number p).2.regs = s.regs := rfl
@[simp] theorem launchRequest_regs (s : State) (p : Packet) (o : Owner) (d : Nat) : (s.launchRequest p o d).regs = s.regs := by
  simp only [launchRequest]
  split <;> simp
@[simp] theorem sendRequest_regs (s : State) (p : Packet) (o : Owner) (d : Nat) : (s.sendRequest p o d).regs = s.regs := by
  simp only [sendRequest]
  split <;> simp
/-- An engine packet within reach leaves the registers alone. -/
theorem sendEngine_regs (s : State) (u d pt : Nat) (payload : List Byte) (j : Nat) (h : s.engineReach d false = true) :
    (s.sendEngine u d pt payload j).regs = s.regs := by
  simp [sendEngine, h]
/-- An engine packet to a group within reach leaves the registers alone. -/
theorem sendGroup_regs (s : State) (u g pt : Nat) (payload : List Byte) (j : Nat) (h : s.engineReach g true = true) :
    (s.sendGroup u g pt payload j).regs = s.regs := by
  cases hm : s.soleMember g <;> simp [sendGroup, hm, h]
@[simp] theorem sendControl_regs (s : State) (d : Nat) (g : Bool) (pt : Nat) (line : List Byte) (j : Nat) (pl : Option Nat) :
    (s.sendControl d g pt line j pl).regs = s.regs := by
  unfold sendControl
  split
  · rfl
  · simp only []
    split <;> simp
@[simp] theorem sendResponse_regs (s : State) (d k u t r q g : Nat) (b : List Byte) : (s.sendResponse d k u t r q g b).regs = s.regs := by
  simp [sendResponse]
@[simp] theorem toManager_regs (s : State) (pt : Nat) (body : List Byte) : (s.toManager pt body).regs = s.regs := by
  unfold toManager; split <;> simp
@[simp] theorem noticed_regs (s : State) (p : Suspect) (c : Nat) : (s.noticed p c).regs = s.regs := by
  unfold noticed; split <;> rfl
@[simp] theorem arbiterTake_regs (s : State) (src : Nat) (p : Suspect) (c v e : Nat) : (s.arbiterTake src p c v e).regs = s.regs := by
  unfold arbiterTake; split <;> simp
@[simp] theorem lullPacket_regs (s : State) (p : Suspect) (c v e : Nat) : (s.lullPacket p c v e).regs = s.regs := by
  unfold lullPacket
  split
  · rfl
  · split
    · simp
    · split <;> simp

/-! ### Records, reports and counters -/

/-- A counter changes its own two fields and no other. -/
theorem bump_fld_apart (s : State) (g : Field) (n j : Nat) (f : Field) (i : Nat) (hp : f.plain = true) (h : f.holds (g.key j) = false)
    (hs : f.holds (({ g with low := 48, width := 1, access := .w1c, reset := 0 } : Field).key j) = false) :
    (s.bump g n j).1.fld f i = s.fld f i := by
  unfold bump
  simp only []
  split
  · rfl
  · split
    · simp only []; rw [fld_setFld_apart _ _ _ _ _ _ hp h]
    · simp only []; rw [fld_setFld_apart _ _ _ _ _ _ hp hs, fld_setFld_apart _ _ _ _ _ _ hp h]

/-- What a quiet field is: none of the fields a record or report may change. -/
theorem quiet_iff (f : Field) : f.quiet = true ↔ f.plain = true ∧ f.holds (Reg.MGT_LOGLOST.count.key 0) = false ∧
    f.holds (Reg.MGT_LOGLOST.sat.key 0) = false ∧ f.holds (Reg.MGT_LOGHEAD.seq.key 0) = false ∧
    f.holds (Reg.MGT_LOGTAIL.seq.key 0) = false ∧ f.holds (Reg.FAB_LULLSUPCNT.count.key 0) = false ∧
    f.holds (Reg.FAB_LULLSUPCNT.sat.key 0) = false ∧ f.holds (Reg.FAB_LULLOVFCNT.count.key 0) = false ∧
    f.holds (Reg.FAB_LULLOVFCNT.sat.key 0) = false ∧ f.holds (Reg.TOP_EVT.sat.key 0) = false := by
  simp [Field.quiet, Field.logged]

variable {f : Field} {i : Nat}

theorem addRecord_fld (s : State) (r : LogRecord) (hf : f.quiet = true) : (s.addRecord r).fld f i = s.fld f i := by
  obtain ⟨hp, h1, h2, h3, h4, -⟩ := (quiet_iff f).mp hf
  unfold addRecord
  simp only []
  have main : ∀ (l : EventLog) (n : Nat),
      (({ s with log := l } : State).bump Reg.MGT_LOGLOST.count n).1.showLog.fld f i = s.fld f i := by
    intro l n
    unfold showLog
    simp only []
    rw [fld_setFld_apart _ _ _ _ _ _ hp h4, fld_setFld_apart _ _ _ _ _ _ hp h3, bump_fld_apart _ _ _ _ _ _ hp h1 h2]
    rfl
  repeat' split
  all_goals exact main _ _

theorem logRecord_fld (s : State) (k v c n : Nat) (p : List Nat) (hf : f.quiet = true) : (s.logRecord k v c n p).fld f i = s.fld f i :=
  addRecord_fld s _ hf

theorem makeReport_fld (s : State) (p : Suspect) (k c v : Nat) (l : List Nat) (hf : f.quiet = true) :
    (s.makeReport p k c v l).fld f i = s.fld f i := by
  unfold makeReport
  simp only []
  repeat' split
  all_goals first | exact logRecord_fld _ _ _ _ _ _ hf | (rw [fld_congr (lullPacket_regs _ _ _ _ _)]; exact logRecord_fld _ _ _ _ _ _ hf)

/-- A report changes no quiet field, if the way it counts in the lull counters changes none. -/
theorem reportWith_fld (bump : State → Field → State) (s : State) (p : Suspect) (k c v : Nat) (l : List Nat) (hf : f.quiet = true)
    (hb : ∀ (t : State) (g : Field), g = Reg.FAB_LULLSUPCNT.count ∨ g = Reg.FAB_LULLOVFCNT.count → (bump t g).fld f i = t.fld f i) :
    (reportWith bump s p k c v l).fld f i = s.fld f i := by
  unfold reportWith
  split
  · rw [hb _ _ (.inl rfl)]; rfl
  · split
    · rw [makeReport_fld _ _ _ _ _ _ hf]; rfl
    · simp only []
      split
      · rw [hb _ _ (.inr rfl)]
      · rw [makeReport_fld _ _ _ _ _ _ hf]; exact hb _ _ (.inr rfl)

/-- A counter changes, beside its own fields, only what its report changes. -/
theorem countWith_fld (report : State → Suspect → Nat → Nat → Nat → List Nat → State) (s : State) (g : Field) (n j : Nat)
    (hf : f.quiet = true) (h : f.holds (g.key j) = false)
    (hs : f.holds (({ g with low := 48, width := 1, access := .w1c, reset := 0 } : Field).key j) = false)
    (hr : ∀ (t : State) (p : Suspect) (k c v : Nat) (l : List Nat), (report t p k c v l).fld f i = t.fld f i) :
    (countWith report s g n j).fld f i = s.fld f i := by
  obtain ⟨hp, -, -, -, -, -, -, -, -, h9⟩ := (quiet_iff f).mp hf
  unfold countWith
  simp only []
  split
  · rw [hr, fld_setFld_apart _ _ _ _ _ _ hp h9, bump_fld_apart _ _ _ _ _ _ hp h hs]
  · rw [bump_fld_apart _ _ _ _ _ _ hp h hs]

theorem lull_apart (hf : f.quiet = true) (g : Field) (hg : g = Reg.FAB_LULLSUPCNT.count ∨ g = Reg.FAB_LULLOVFCNT.count) :
    f.holds (g.key 0) = false ∧ f.holds (({ g with low := 48, width := 1, access := .w1c, reset := 0 } : Field).key 0) = false := by
  obtain ⟨-, -, -, -, -, h5, h6, h7, h8, -⟩ := (quiet_iff f).mp hf
  rcases hg with rfl | rfl
  · exact ⟨h5, h6⟩
  · exact ⟨h7, h8⟩

theorem report0_fld (s : State) (p : Suspect) (k c v : Nat) (l : List Nat) (hf : f.quiet = true) :
    (s.report0 p k c v l).fld f i = s.fld f i :=
  reportWith_fld _ s p k c v l hf fun t g hg =>
    bump_fld_apart t g 1 0 f i ((quiet_iff f).mp hf).1 (lull_apart hf g hg).1 (lull_apart hf g hg).2

theorem report1_fld (s : State) (p : Suspect) (k c v : Nat) (l : List Nat) (hf : f.quiet = true) :
    (s.report1 p k c v l).fld f i = s.fld f i :=
  reportWith_fld _ s p k c v l hf fun t g hg =>
    countWith_fld _ t g 1 0 hf (lull_apart hf g hg).1 (lull_apart hf g hg).2 fun t p k c v l => report0_fld t p k c v l hf

/-- A report changes no quiet field. -/
theorem report_fld (s : State) (p : Suspect) (k c v : Nat) (l : List Nat) (hf : f.quiet = true) :
    (s.report p k c v l).fld f i = s.fld f i :=
  reportWith_fld _ s p k c v l hf fun t g hg =>
    countWith_fld _ t g 1 0 hf (lull_apart hf g hg).1 (lull_apart hf g hg).2 fun t p k c v l => report1_fld t p k c v l hf

/-- A counter changes no quiet field but its own. -/
theorem count_fld (s : State) (g : Field) (n j : Nat) (hf : f.quiet = true) (h : f.holds (g.key j) = false)
    (hs : f.holds (({ g with low := 48, width := 1, access := .w1c, reset := 0 } : Field).key j) = false) :
    (s.count g n j).fld f i = s.fld f i :=
  countWith_fld _ s g n j hf h hs fun t p k c v l => report_fld t p k c v l hf

/-- An event changes its own bit and no other quiet field. -/
theorem raise_fld (s : State) (evt mask : Field) (hf : f.quiet = true) (h : f.holds (evt.key 0) = false) :
    (s.raise evt mask).fld f i = s.fld f i := by
  unfold raise
  simp only []
  split
  · rw [fld_setFld_apart _ _ _ _ _ _ ((quiet_iff f).mp hf).1 h]
  · rw [report_fld _ _ _ _ _ _ hf, fld_setFld_apart _ _ _ _ _ _ ((quiet_iff f).mp hf).1 h]

/-- An event of a slot changes its own bit and no other quiet field. -/
theorem raiseUnit_fld (s : State) (evt mask : Field) (slot : Nat) (hf : f.quiet = true) (h : f.holds (evt.key slot) = false) :
    (s.raiseUnit evt mask slot).fld f i = s.fld f i := by
  unfold raiseUnit
  simp only []
  split
  · rw [fld_setFld_apart _ _ _ _ _ _ ((quiet_iff f).mp hf).1 h]
  · rw [report_fld _ _ _ _ _ _ hf, fld_setFld_apart _ _ _ _ _ _ ((quiet_iff f).mp hf).1 h]

/-- An event bit reads as set once it has been raised. -/
theorem raise_self (s : State) (evt mask : Field) (hf : evt.quiet = true) (hc : 0 < evt.count) (hw : evt.width ≠ 0) :
    (s.raise evt mask).flag evt = true := by
  unfold raise
  simp only []
  split
  · exact flag_setFld_one s evt 0 hc hw
  · unfold flag
    rw [report_fld _ _ _ _ _ _ hf]
    exact flag_setFld_one s evt 0 hc hw

/-- The fields a latched fault of class A or M changes. -/
def topFault : List Field := [Reg.TOP_FAULT.cause, Reg.TOP_FAULT.slot, Reg.TOP_FAULT.cls, Reg.TOP_FAULT.gsc_lo, Reg.TOP_FAULT.valid,
  Reg.TOP_EVT.fault]

theorem latchTop_fld (s : State) (c n : Nat) (hp : f.plain = true) (h : topFault.all (fun g => !f.holds (g.key 0)) = true) :
    (s.latchTop c n).fld f i = s.fld f i := by
  simp [topFault] at h
  obtain ⟨h1, h2, h3, h4, h5, h6⟩ := h
  unfold latchTop
  simp only []
  repeat' split
  all_goals first
    | rfl
    | rw [fld_setFld_apart _ _ _ _ _ _ hp h6, fld_setFld_apart _ _ _ _ _ _ hp h5, fld_setFld_apart _ _ _ _ _ _ hp h4,
        fld_setFld_apart _ _ _ _ _ _ hp h3, fld_setFld_apart _ _ _ _ _ _ hp h2, fld_setFld_apart _ _ _ _ _ _ hp h1]

/-- The fault register and event bit of a unit are the only unit fields a recorded fault changes. -/
theorem recordFault_fld (s : State) (c : Nat) (p : Suspect) (l : List Nat) (hf : f.quiet = true)
    (h : topFault.all (fun g => !f.holds (g.key 0)) = true)
    (hu : ∀ n, f.holds (Reg.UNIT_FAULT.cause.key n) = false ∧ f.holds (Reg.UNIT_EVT.fault.key n) = false) :
    (s.recordFault c p l).fld f i = s.fld f i := by
  have hp := ((quiet_iff f).mp hf).1
  unfold recordFault
  simp only []
  rw [latchTop_fld _ _ _ hp h, report_fld _ _ _ _ _ _ hf]
  split
  · rw [fld_setFld_apart _ _ _ _ _ _ hp (hu _).2, fld_setFld_apart _ _ _ _ _ _ hp (hu _).1]
  · rw [fld_setFld_apart _ _ _ _ _ _ hp (hu _).2, fld_setFld_apart _ _ _ _ _ _ hp (hu _).1]
  · rfl

/-! ### Beyond the registers -/

end State

/-- The parts of the state that sending, logging and reporting may change. -/
structure Told where
  regs : List (Nat × Nat)
  lull : List LullEntry
  lullFull : Bool
  arbiter : List ArbiterEntry
  lullSent : List LullSent
  log : EventLog
  links : List (Nat × Link)
  nextAge : Nat
  seqOut : List (Nat × Nat)
  freeCount : Nat
  out : List Output

namespace State

/-- The state with those parts at new values, and every other part as it was. -/
def tell (s : State) (x : Told) : State :=
  { s with regs := x.regs, lull := x.lull, lullFull := x.lullFull, arbiter := x.arbiter, lullSent := x.lullSent, log := x.log,
           links := x.links, nextAge := x.nextAge, seqOut := x.seqOut, freeCount := x.freeCount, out := x.out }

/-- `t` differs from `s` at most in what sending, logging and reporting may change. -/
def Tells (s t : State) : Prop := ∃ x : Told, t = s.tell x

/-- Those parts as the state has them. -/
def told (s : State) : Told :=
  ⟨s.regs, s.lull, s.lullFull, s.arbiter, s.lullSent, s.log, s.links, s.nextAge, s.seqOut, s.freeCount, s.out⟩

theorem Tells.refl (s : State) : s.Tells s := ⟨s.told, rfl⟩
theorem Tells.trans {s t u : State} (h : s.Tells t) (k : t.Tells u) : s.Tells u := by
  obtain ⟨x, rfl⟩ := h
  obtain ⟨y, rfl⟩ := k
  exact ⟨y, rfl⟩

theorem tells_setFld (s : State) (f : Field) (v i : Nat) : s.Tells (s.setFld f v i) := ⟨{ s.told with regs := _ }, rfl⟩
theorem tells_emit (s : State) (o : Output) : s.Tells (s.emit o) := ⟨{ s.told with out := _ }, rfl⟩
theorem tells_setLink (s : State) (p : Nat) (l : Link) : s.Tells (s.setLink p l) := ⟨{ s.told with links := _ }, rfl⟩
theorem tells_log (s : State) (l : EventLog) : s.Tells { s with log := l } := ⟨{ s.told with log := _ }, rfl⟩
theorem tells_lull (s : State) (l : List LullEntry) : s.Tells { s with lull := l } := ⟨{ s.told with lull := _ }, rfl⟩
theorem tells_lullFull (s : State) (b : Bool) : s.Tells { s with lullFull := b } := ⟨{ s.told with lullFull := _ }, rfl⟩
theorem tells_arbiter (s : State) (l : List ArbiterEntry) : s.Tells { s with arbiter := l } := ⟨{ s.told with arbiter := _ }, rfl⟩
theorem tells_lullSent (s : State) (l : List LullSent) : s.Tells { s with lullSent := l } := ⟨{ s.told with lullSent := _ }, rfl⟩
theorem tells_free (s : State) : s.Tells s.free.2 := ⟨{ s.told with freeCount := _ }, rfl⟩
theorem tells_number (s : State) (p : Packet) : s.Tells (s.number p).2 := ⟨{ s.told with seqOut := _ }, rfl⟩
theorem tells_stamp (s : State) (p : Packet) : s.Tells (s.stamp p).2 := by
  unfold stamp
  split
  · exact ⟨{ s.told with nextAge := _ }, rfl⟩
  · exact .refl s
theorem tells_sendFlit (s : State) (port : Nat) (bs : List Byte) : s.Tells (s.sendFlit port bs) :=
  (tells_setLink s port _).trans (tells_emit _ _)

theorem tells_pump (s : State) (port n : Nat) : s.Tells (s.pump port n) := by
  have flits (fs : List TxFlit) (s : State) : s.Tells (fs.foldl (fun s f => s.sendFlit port f.bytes) s) := by
    induction fs generalizing s with
    | nil => exact .refl s
    | cons f r ih => exact (tells_sendFlit s port _).trans (ih _)
  induction n generalizing s with
  | zero => exact .refl s
  | succ n ih =>
    unfold pump
    split
    · exact .refl s
    · split
      · exact .refl s
      · exact ((tells_setLink s port _).trans (flits _ _)).trans (ih _)

theorem tells_enqueue (s : State) (port : Nat) (p : Packet) : s.Tells (s.enqueue port p) :=
  ((tells_stamp s p).trans (tells_setLink _ port _)).trans (tells_pump _ _ _)

theorem tells_route (s : State) (p : Packet) (b : Option Nat) (a : List Nat) : s.Tells (s.route p b a).2 := by
  unfold route
  split
  · exact tells_enqueue _ _ _
  · split
    · exact tells_enqueue _ _ _
    · exact .refl s

theorem tells_sendControl (s : State) (d : Nat) (g : Bool) (pt : Nat) (line : List Byte) (j : Nat) (pl : Option Nat) :
    s.Tells (s.sendControl d g pt line j pl) := by
  unfold sendControl
  split
  · exact .refl s
  · simp only []
    split
    · exact tells_number s _
    · exact (tells_number s _).trans (tells_route _ _ _ _)

theorem tells_sendResponse (s : State) (d k u t r q g : Nat) (b : List Byte) : s.Tells (s.sendResponse d k u t r q g b) :=
  tells_route _ _ _ _

theorem tells_toManager (s : State) (pt : Nat) (body : List Byte) : s.Tells (s.toManager pt body) := by
  unfold toManager
  split
  · exact tells_sendControl _ _ _ _ _ _ _
  · exact .refl s

theorem tells_noticed (s : State) (p : Suspect) (c : Nat) : s.Tells (s.noticed p c) := by
  unfold noticed
  split
  · exact .refl s
  · exact tells_lull s _

theorem tells_arbiterTake (s : State) (src : Nat) (p : Suspect) (c v e : Nat) : s.Tells (s.arbiterTake src p c v e) := by
  unfold arbiterTake
  split
  · exact tells_arbiter s _
  · exact (((tells_arbiter s _).trans (tells_noticed _ _ _)).trans (tells_toManager _ _ _)).trans (tells_sendControl _ _ _ _ _ _ _)

theorem tells_lullPacket (s : State) (p : Suspect) (c v e : Nat) : s.Tells (s.lullPacket p c v e) := by
  unfold lullPacket
  split
  · exact .refl s
  · split
    · exact tells_toManager _ _ _
    · split
      · exact tells_arbiterTake _ _ _ _ _ _
      · exact (tells_lullSent s _).trans (tells_sendControl _ _ _ _ _ _ _)

theorem tells_bump (s : State) (f : Field) (n i : Nat) : s.Tells (s.bump f n i).1 := by
  unfold bump
  simp only []
  split
  · exact .refl s
  · split
    · exact tells_setFld _ _ _ _
    · exact (tells_setFld _ _ _ _).trans (tells_setFld _ _ _ _)

theorem tells_addRecord (s : State) (r : LogRecord) : s.Tells (s.addRecord r) := by
  have main : ∀ (l : EventLog) (n : Nat), s.Tells (({ s with log := l } : State).bump Reg.MGT_LOGLOST.count n).1.showLog := fun l n =>
    (((tells_log s l).trans (tells_bump _ _ _ _)).trans (tells_setFld _ _ _ _)).trans (tells_setFld _ _ _ _)
  unfold addRecord
  simp only []
  repeat' split
  all_goals first | exact main _ _ | exact (main _ _).trans (tells_emit _ _)

theorem tells_makeReport (s : State) (p : Suspect) (k c v : Nat) (l : List Nat) : s.Tells (s.makeReport p k c v l) := by
  unfold makeReport
  simp only []
  repeat' split
  all_goals first | exact tells_addRecord _ _ | exact (tells_addRecord _ _).trans (tells_lullPacket _ _ _ _ _)

theorem tells_reportWith (bump : State → Field → State) (hb : ∀ (t : State) (g : Field), t.Tells (bump t g)) (s : State) (p : Suspect) (k c v : Nat)
    (l : List Nat) : s.Tells (reportWith bump s p k c v l) := by
  unfold reportWith
  split
  · exact (tells_lull s _).trans (hb _ _)
  · split
    · exact (tells_lull s _).trans (tells_makeReport _ _ _ _ _ _)
    · simp only []
      split
      · exact hb _ _
      · exact ((hb s _).trans (tells_lullFull _ _)).trans (tells_makeReport _ _ _ _ _ _)

theorem tells_countWith (report : State → Suspect → Nat → Nat → Nat → List Nat → State)
    (hr : ∀ (t : State) (p : Suspect) (k c v : Nat) (l : List Nat), t.Tells (report t p k c v l)) (s : State) (g : Field) (n j : Nat) : s.Tells (countWith report s g n j) := by
  unfold countWith
  simp only []
  split
  · exact ((tells_bump _ _ _ _).trans (tells_setFld _ _ _ _)).trans (hr _ _ _ _ _ _)
  · exact tells_bump _ _ _ _

theorem tells_report0 (s : State) (p : Suspect) (k c v : Nat) (l : List Nat) : s.Tells (s.report0 p k c v l) :=
  tells_reportWith _ (fun _ _ => tells_bump _ _ _ _) s p k c v l
theorem tells_report1 (s : State) (p : Suspect) (k c v : Nat) (l : List Nat) : s.Tells (s.report1 p k c v l) :=
  tells_reportWith _ (fun _ _ => tells_countWith _ tells_report0 _ _ _ _) s p k c v l
/-- A report changes at most what telling may change. -/
theorem tells_report (s : State) (p : Suspect) (k c v : Nat) (l : List Nat) : s.Tells (s.report p k c v l) :=
  tells_reportWith _ (fun _ _ => tells_countWith _ tells_report1 _ _ _ _) s p k c v l
theorem tells_count (s : State) (g : Field) (n j : Nat) : s.Tells (s.count g n j) := tells_countWith _ tells_report s g n j

theorem tells_raise (s : State) (evt mask : Field) : s.Tells (s.raise evt mask) := by
  unfold raise
  simp only []
  split
  · exact tells_setFld _ _ _ _
  · exact (tells_setFld _ _ _ _).trans (tells_report _ _ _ _ _ _)
theorem tells_raiseUnit (s : State) (evt mask : Field) (n : Nat) : s.Tells (s.raiseUnit evt mask n) := by
  unfold raiseUnit
  simp only []
  split
  · exact tells_setFld _ _ _ _
  · exact (tells_setFld _ _ _ _).trans (tells_report _ _ _ _ _ _)

theorem tells_latchTop (s : State) (c n : Nat) : s.Tells (s.latchTop c n) := by
  unfold latchTop
  simp only []
  repeat' split
  all_goals first
    | exact .refl s
    | exact (((((tells_setFld _ _ _ _).trans (tells_setFld _ _ _ _)).trans (tells_setFld _ _ _ _)).trans (tells_setFld _ _ _ _)).trans
        (tells_setFld _ _ _ _)).trans (tells_setFld _ _ _ _)

theorem tells_recordFault (s : State) (c : Nat) (p : Suspect) (l : List Nat) : s.Tells (s.recordFault c p l) := by
  unfold recordFault
  simp only []
  refine Tells.trans ?_ ((tells_report _ _ _ _ _ _).trans (tells_latchTop _ _ _))
  split
  · exact (tells_setFld _ _ _ _).trans (tells_setFld _ _ _ _)
  · exact (tells_setFld _ _ _ _).trans (tells_setFld _ _ _ _)
  · exact .refl s

theorem tells_latchAccess (s : State) (k o b : Nat) (w : Bool) : s.Tells (s.latchAccess k o b w) := by
  unfold latchAccess setFlag
  simp only []
  split
  · exact .refl s
  · exact ((((tells_setFld _ _ _ _).trans (tells_setFld _ _ _ _)).trans (tells_setFld _ _ _ _)).trans (tells_setFld _ _ _ _)).trans
      (tells_setFld _ _ _ _)

end State
end Sys2Proof.Machine
end

