-- ==== Sys2Proof/Laws/Issue.lean ====
section
/-! SUPPORT. What the issue of one instruction does, said once. -/

namespace Sys2Proof.Machine.State

/-- The word at PC is not this row's: nothing happens. -/
theorem issue_other (s : State) (c w : Nat) (mine : Nat → Bool) (plan : State → Nat → Plan) (hf : (s.core c).fetch = some w)
    (hm : mine w = false) : s.issue c mine plan = s := by
  unfold issue
  split
  · rfl
  · simp [hf, hm]

/-- A plan whose conditions are met issues: its effect, its program order, and its signal where it comes at issue. -/
theorem issue_issued (s : State) (c w : Nat) (mine : Nat → Bool) (plan : State → Nat → Plan) (mask : Nat) (names : List Nat)
    (h : s.Issues c w mask names) (hm : mine w = true) (hk : (plan s w).mask = mask) (hn : (plan s w).names = names)
    (hc : (plan s w).codes = true) (hx : ∀ x ∈ (plan s w).checks, x.1 = false) (hf : (plan s w).full = false)
    (hh : (plan s w).hold = none) :
    s.issue c mine plan = s.issued c w (plan s w).effect (plan s w).atIssue (plan s w).order := by
  obtain ⟨h1, h2, h3, h4, h5, h6, h7⟩ := h
  have hp : ((Psi.pidx w :: (plan s w).names).any fun x => (s.core c).predPending.contains x) = false := by
    rw [hn, List.any_eq_false]
    intro x hx'
    have := h5 x hx'
    simp [this]
  have hi : (plan s w).cause w true = none := by
    have hg : (plan s w).illegal w = false := by
      unfold Plan.illegal
      rw [hk, h6, hc]
      rcases h7 with h7 | h7 <;> simp [h7]
    have : ((plan s w).checks.find? fun x => x.1) = none := by
      rw [List.find?_eq_none]
      intro x hx'
      simp [hx x hx']
    simp [Plan.cause, hg, this]
  unfold issue
  simp only [h1, h2, hm, h4, hp, hf, hi, hh, Nat.not_lt.mpr h3, Bool.not_true, Bool.false_eq_true, if_false, Bool.and_false,
    Option.isSome_none]
  rfl

end Sys2Proof.Machine.State
end

