-- ==== Sys2Proof/Laws/Memory.lean ====
section
/-! SUPPORT. The byte stores: reading after writing, what a write leaves alone, and the canonical form, which every memory operation
keeps. -/

namespace Sys2Proof.Machine

/-- A byte outside the bytes written reads as before. -/
theorem get_writeBytes_ne (a i : Nat) : ∀ (bs : List Byte) (t : List Host.Cell), (i < a ∨ a + bs.length ≤ i) →
    Table.get 0 (writeBytes t a bs) i = Table.get 0 t i
  | [], _, _ => rfl
  | b :: r, t, h => by
    simp only [List.length_cons] at h
    rw [writeBytes, get_writeBytes_ne (a + 1) i r _ (by omega), Table.get_set_ne _ _ (by omega)]

/-- The bytes written read back. -/
theorem get_writeBytes_same (a k : Nat) : ∀ (bs : List Byte) (t : List Host.Cell) (h : k < bs.length),
    Table.get 0 (writeBytes t a bs) (a + k) = bs[k]
  | b :: r, t, h => by
    rw [writeBytes]
    cases k with
    | zero =>
      show Table.get 0 (writeBytes (Table.set 0 t a b) (a + 1) r) a = b
      rw [get_writeBytes_ne (a + 1) a r _ (by omega)]
      simp
    | succ k =>
      rw [show a + (k + 1) = a + 1 + k by omega]
      exact get_writeBytes_same (a + 1) k r _ (by simpa using h)
termination_by bs => bs.length

@[simp] theorem length_readBytes (t : List Host.Cell) : ∀ (n a : Nat), (readBytes t a n).length = n
  | 0, _ => rfl
  | n + 1, a => by simp [readBytes, length_readBytes t n]

theorem readBytes_congr {t u : List Host.Cell} : ∀ {n a : Nat}, (∀ i, a ≤ i → i < a + n → Table.get 0 t i = Table.get 0 u i) →
    readBytes t a n = readBytes u a n
  | 0, _, _ => rfl
  | n + 1, a, h => by
    simp only [readBytes]
    rw [h a (Nat.le_refl a) (by omega), readBytes_congr fun i h₁ h₂ => h i (by omega) (by omega)]

/-- A read of the bytes just written gives them. -/
theorem readBytes_writeBytes (t : List Host.Cell) (a : Nat) (bs : List Byte) : readBytes (writeBytes t a bs) a bs.length = bs := by
  induction bs generalizing t a with
  | nil => rfl
  | cons b r ih =>
    simp only [List.length_cons, readBytes, writeBytes]
    rw [ih, get_writeBytes_ne (a + 1) a r _ (by omega)]
    simp

/-- A read that meets none of the bytes written is as before. -/
theorem readBytes_writeBytes_ne (t : List Host.Cell) (a b n : Nat) (bs : List Byte) (h : b + n ≤ a ∨ a + bs.length ≤ b) :
    readBytes (writeBytes t a bs) b n = readBytes t b n :=
  readBytes_congr fun i h₁ h₂ => get_writeBytes_ne a i bs t (by omega)

theorem wf_writeBytes (a : Nat) : ∀ (bs : List Byte) {t : List Host.Cell}, Table.wf (0 : Byte) t = true →
    Table.wf (0 : Byte) (writeBytes t a bs) = true
  | [], _, h => h
  | b :: r, _, h => wf_writeBytes (a + 1) r (Table.wf_set 0 b a h)

theorem wf_zeroRange (a n : Nat) {t : List Host.Cell} (h : Table.wf (0 : Byte) t = true) : Table.wf (0 : Byte) (zeroRange t a n) = true :=
  Table.wf_filter 0 _ h

/-- A range taken from one canonical store into another leaves it canonical. -/
theorem wf_takeRange {t src : List Host.Cell} (a n : Nat) (ht : Table.wf (0 : Byte) t = true) (hs : Table.wf (0 : Byte) src = true) :
    Table.wf (0 : Byte) (takeRange t src a n) = true := by
  have below := Table.wf_append (0 : Byte) a (Table.wf_filter 0 (fun e => decide (e.1 < a)) ht)
    (Table.wf_filter 0 (fun e => decide (a ≤ e.1) && decide (e.1 < a + n)) hs)
    (fun e h => by simpa using (List.mem_filter.mp h).2) (fun e h => by have := (List.mem_filter.mp h).2; simp at this; exact this.1)
  refine Table.wf_append (0 : Byte) (a + n) below (Table.wf_filter 0 (fun e => decide (a + n ≤ e.1)) ht) ?_ ?_
  · intro e h
    rcases List.mem_append.mp h with h | h
    · have := (List.mem_filter.mp h).2
      simp at this
      omega
    · have := (List.mem_filter.mp h).2
      simp at this
      exact this.2
  · intro e h
    simpa using (List.mem_filter.mp h).2

theorem Memory.wf_iff (m : Memory) : m.wf = true ↔ Table.wf (0 : Byte) m.scratch = true ∧ Table.wf (0 : Byte) m.sram = true ∧
    Table.wf (0 : Byte) m.t1 = true ∧ Table.wf (0 : Byte) m.t3 = true := by
  simp [Memory.wf, and_assoc]

namespace State

/-- A fold keeps what each of its steps keeps. -/
theorem foldl_keep {α β : Type} (g : State → β) (f : State → α → State) (hf : ∀ s x, g (f s x) = g s) (l : List α) (s : State) :
    g (l.foldl f s) = g s := by
  induction l generalizing s with
  | nil => rfl
  | cons x r ih => rw [List.foldl_cons, ih, hf]

theorem storeLine_mem (s : State) (d l : Nat) : (s.storeLine d l).mem = s.mem := rfl

/-- Reading or writing through the staging caches moves lines between them and the stacks; what T1 reads as is in `mem` alone. -/
theorem touchLines_mem (s : State) (off n : Nat) (w : Bool) : (s.touchLines off n w).mem = s.mem := by
  unfold touchLines
  refine foldl_keep State.mem _ (fun s k => ?_) _ s
  exact foldl_keep State.mem _ (fun s l => storeLine_mem s _ l) _ s

/-- The stacks after an access keep the canonical form (R210, R214). -/
theorem touchLines_stack_wf (s : State) (off n : Nat) (w : Bool) (hm : Table.wf (0 : Byte) s.mem.t1 = true)
    (h : Table.wf (0 : Byte) s.stack = true) : Table.wf (0 : Byte) (s.touchLines off n w).stack = true := by
  have key : ∀ (l : List Nat) (d : Nat) (s : State), Table.wf (0 : Byte) s.mem.t1 = true → Table.wf (0 : Byte) s.stack = true →
      Table.wf (0 : Byte) (l.foldl (fun s k => s.storeLine d k) s).stack = true := by
    intro l d
    induction l with
    | nil => exact fun _ _ h => h
    | cons a r ih => exact fun s hm h => ih _ hm (wf_takeRange _ _ h hm)
  unfold touchLines
  generalize List.range _ = l
  induction l generalizing s with
  | nil => exact h
  | cons k r ih =>
    refine ih _ ?_ (key _ _ _ hm h)
    exact (congrArg (fun m : Memory => Table.wf (0 : Byte) m.t1) (foldl_keep State.mem _ (fun s l => storeLine_mem s _ l) _ s)).trans hm

theorem scratchPut_mem (s : State) (c o : Nat) (bs : List Byte) :
    (s.scratchPut c o bs).mem = { s.mem with scratch := writeBytes s.mem.scratch (c * scratchSize + o) bs } := rfl

theorem sramPut_mem (s : State) (c o : Nat) (bs : List Byte) :
    (s.sramPut c o bs).mem = { s.mem with sram := writeBytes s.mem.sram (c * sramSize + o) bs } := rfl

theorem t1Put_mem (s : State) (o : Nat) (bs : List Byte) : (s.t1Put o bs).mem = { s.mem with t1 := writeBytes s.mem.t1 o bs } := by
  unfold t1Put
  simp only [touchLines_mem]

theorem t1Zero_mem (s : State) (o n : Nat) : (s.t1Zero o n).mem = { s.mem with t1 := zeroRange s.mem.t1 o n } := by
  unfold t1Zero
  simp only [touchLines_mem]

theorem t3Put_mem (s : State) (o : Nat) (bs : List Byte) :
    (s.t3Put o bs).mem = { s.mem with t3 := writeBytes s.mem.t3 (s.hostAt o) bs } := rfl

theorem scratchPut_wf (s : State) (c o : Nat) (bs : List Byte) (h : s.mem.wf = true) : (s.scratchPut c o bs).mem.wf = true := by
  rw [scratchPut_mem, Memory.wf_iff]
  rw [Memory.wf_iff] at h
  exact ⟨wf_writeBytes _ bs h.1, h.2⟩

theorem sramPut_wf (s : State) (c o : Nat) (bs : List Byte) (h : s.mem.wf = true) : (s.sramPut c o bs).mem.wf = true := by
  rw [sramPut_mem, Memory.wf_iff]
  rw [Memory.wf_iff] at h
  exact ⟨h.1, wf_writeBytes _ bs h.2.1, h.2.2⟩

theorem t1Put_wf (s : State) (o : Nat) (bs : List Byte) (h : s.mem.wf = true) : (s.t1Put o bs).mem.wf = true := by
  rw [t1Put_mem, Memory.wf_iff]
  rw [Memory.wf_iff] at h
  exact ⟨h.1, h.2.1, wf_writeBytes _ bs h.2.2.1, h.2.2.2⟩

theorem t1Zero_wf (s : State) (o n : Nat) (h : s.mem.wf = true) : (s.t1Zero o n).mem.wf = true := by
  rw [t1Zero_mem, Memory.wf_iff]
  rw [Memory.wf_iff] at h
  exact ⟨h.1, h.2.1, wf_zeroRange _ _ h.2.2.1, h.2.2.2⟩

theorem t3Put_wf (s : State) (o : Nat) (bs : List Byte) (h : s.mem.wf = true) : (s.t3Put o bs).mem.wf = true := by
  rw [t3Put_mem, Memory.wf_iff]
  rw [Memory.wf_iff] at h
  exact ⟨h.1, h.2.1, h.2.2.1, wf_writeBytes _ bs h.2.2.2⟩

/-- A write at a program address keeps the canonical form. -/
theorem progPut_wf (s : State) (c a : Nat) (bs : List Byte) (h : s.mem.wf = true) : (s.progPut c a bs).mem.wf = true := by
  unfold progPut
  split
  · exact scratchPut_wf _ _ _ _ h
  · exact sramPut_wf _ _ _ _ h
  · exact t1Put_wf _ _ _ h
  · exact t3Put_wf _ _ _ h
  · exact h

/-- A write of a ring entry or area keeps the canonical form. -/
theorem areaPut_wf (s : State) (a : Nat) (bs : List Byte) (h : s.mem.wf = true) : (s.areaPut a bs).mem.wf = true := by
  unfold areaPut
  split
  · exact h
  · split
    · exact t1Put_wf _ _ _ h
    · exact t3Put_wf _ _ _ h
    · exact h

/-- T1 reads back what was written to it. -/
theorem t1Get_t1Put (s : State) (o : Nat) (bs : List Byte) : (s.t1Put o bs).t1Get o bs.length = bs := by
  simp [t1Put, t1Get, readBytes_writeBytes]

/-- A write to T1 leaves every other byte of T1 alone. -/
theorem t1Get_t1Put_ne (s : State) (o b n : Nat) (bs : List Byte) (h : b + n ≤ o ∨ o + bs.length ≤ b) :
    (s.t1Put o bs).t1Get b n = s.t1Get b n := by
  simp [t1Put, t1Get, touchLines_mem, readBytes_writeBytes_ne _ _ _ _ _ h]

end State
end Sys2Proof.Machine
end

