-- ==== Sys2Proof/Laws/Queue.lean ====
section
/-! SUPPORT. No operation a command is built from touches the queue of waiting commands: one lemma for each, in the order of the
files of Machine. -/

namespace Sys2Proof.Machine.State

set_option linter.unusedTactic false
set_option linter.unreachableTactic false
set_option linter.unnecessarySeqFocus false
set_option linter.unusedSimpArgs false

@[simp] theorem ite_snd_pending {β : Type} (c : Prop) [Decidable c] (a b : β × State) :
    (if c then a else b).2.pending = if c then a.2.pending else b.2.pending := by split <;> rfl
@[simp] theorem ite_fst_pending {β : Type} (c : Prop) [Decidable c] (a b : State × β) :
    (if c then a else b).1.pending = if c then a.1.pending else b.1.pending := by split <;> rfl
@[simp] theorem ite_thd_pending {β γ : Type} (c : Prop) [Decidable c] (a b : β × γ × State) :
    (if c then a else b).2.2.pending = if c then a.2.2.pending else b.2.2.pending := by split <;> rfl
@[simp] theorem ite_pending (c : Prop) [Decidable c] (a b : State) : (if c then a else b).pending = if c then a.pending else b.pending :=
  apply_ite State.pending c a b
@[simp] theorem ite_dec_pending (c : Prop) [Decidable c] (a b : Decision) :
    (if c then a else b).s.pending = if c then a.s.pending else b.s.pending := by split <;> rfl
@[simp] theorem ite_for_pending (c : Prop) [Decidable c] (a b : Forming) :
    (if c then a else b).s.pending = if c then a.s.pending else b.s.pending := by split <;> rfl
@[simp] theorem foldl_pending_for {α : Type} (f : Forming → α → Forming) (l : List α) (s : Forming) (hf : ∀ s x, (f s x).s.pending = s.s.pending) :
    (l.foldl f s).s.pending = s.s.pending := by
  induction l generalizing s with
  | nil => rfl
  | cons a r ih => rw [List.foldl_cons, ih, hf]
@[simp] theorem foldl_pending {α : Type} (f : State → α → State) (l : List α) (s : State) (hf : ∀ s x, (f s x).pending = s.pending) :
    (l.foldl f s).pending = s.pending := foldl_keep State.pending f hf l s
@[simp] theorem foldl_pending_snd {α β : Type} (f : β × State → α → β × State) (l : List α) (x : β × State)
    (hf : ∀ x a, (f x a).2.pending = x.2.pending) : (l.foldl f x).2.pending = x.2.pending := by
  induction l generalizing x with
  | nil => rfl
  | cons a r ih => rw [List.foldl_cons, ih, hf]
@[simp] theorem foldl_pending_fst {α β : Type} (f : State × β → α → State × β) (l : List α) (x : State × β)
    (hf : ∀ x a, (f x a).1.pending = x.1.pending) : (l.foldl f x).1.pending = x.1.pending := by
  induction l generalizing x with
  | nil => rfl
  | cons a r ih => rw [List.foldl_cons, ih, hf]
@[simp] theorem foldl_pending_dec {α : Type} (f : Decision → α → Decision) (l : List α) (s : Decision) (hf : ∀ s x, (f s x).s.pending = s.s.pending) :
    (l.foldl f s).s.pending = s.s.pending := by
  induction l generalizing s with
  | nil => rfl
  | cons a r ih => rw [List.foldl_cons, ih, hf]
@[simp] theorem getD_pending {α : Type} (o : Option α) (f : α → State) (d : State) (h : ∀ a, (f a).pending = d.pending) :
    ((o.map f).getD d).pending = d.pending := by cases o <;> simp [h]

/-! ### Regs -/

@[simp] theorem setFlag_pending (s : State) (f : Field) (b : Bool) (i : Nat) : (State.setFlag s f b i).pending = s.pending := by
  unfold State.setFlag
  simp

@[simp] theorem clearFlds_pending (s : State) (fs : List Field) (i : Nat) : (State.clearFlds s fs i).pending = s.pending := by
  unfold State.clearFlds
  refine foldl_pending _ _ _ ?_
  intro s f
  rfl

@[simp] theorem resetFlds_pending (s : State) (fs : List Field) : (State.resetFlds s fs).pending = s.pending := by
  unfold State.resetFlds
  simp

@[simp] theorem free_pending (s : State) : (State.free s).2.pending = s.pending := by
  unfold State.free
  simp

@[simp] theorem bump_pending (s : State) (f : Field) (n : Nat) (i : Nat) : (State.bump s f n i).1.pending = s.pending := by
  unfold State.bump
  simp only
  (repeat' split) <;> rfl

/-! ### Send -/

@[simp] theorem setLink_pending (s : State) (p : Nat) (l : Link) : (State.setLink s p l).pending = s.pending := by
  unfold State.setLink
  simp

@[simp] theorem sendFlit_pending (s : State) (port : Nat) (bytes : List Byte) : (State.sendFlit s port bytes).pending = s.pending := by
  unfold State.sendFlit
  simp

@[simp] theorem sendLinkControl_pending (s : State) (port : Nat) (nack : Bool) :
    (State.sendLinkControl s port nack).pending = s.pending := by
  unfold State.sendLinkControl
  simp

@[simp] theorem pump_pending (s : State) (port : Nat) (x1 : Nat) : (State.pump s port x1).pending = s.pending := by
  induction x1 generalizing s with
  | zero => rfl
  | succ n ih =>
    unfold State.pump
    (repeat' (first | split | dsimp only)) <;> simp_all

@[simp] theorem stamp_pending (s : State) (p : Packet) : (State.stamp s p).2.pending = s.pending := by
  unfold State.stamp
  simp

@[simp] theorem enqueue_pending (s : State) (port : Nat) (p : Packet) : (State.enqueue s port p).pending = s.pending := by
  unfold State.enqueue
  simp

@[simp] theorem route_pending (s : State) (p : Packet) (bound : Option Nat) (avoid : List Nat) :
    (State.route s p bound avoid).2.pending = s.pending := by
  unfold State.route
  (repeat' (first | split | dsimp only)) <;> simp_all

@[simp] theorem number_pending (s : State) (p : Packet) : (State.number s p).2.pending = s.pending := by
  unfold State.number
  simp

@[simp] theorem launchRequest_pending (s : State) (p : Packet) (owner : Owner) (dest : Nat) :
    (State.launchRequest s p owner dest).pending = s.pending := by
  unfold State.launchRequest
  simp

@[simp] theorem sendRequest_pending (s : State) (p : Packet) (owner : Owner) (dest : Nat) :
    (State.sendRequest s p owner dest).pending = s.pending := by
  unfold State.sendRequest
  simp

@[simp] theorem sendHeld_pending (s : State) (dst : Nat) : (State.sendHeld s dst).pending = s.pending := by
  unfold State.sendHeld
  split <;> simp

@[simp] theorem sendControl_pending (s : State) (dst : Nat) (group : Bool) (ptype : Nat) (line : List Byte) (job : Nat) (plane : Option Nat)
    : (State.sendControl s dst group ptype line job plane).pending = s.pending := by
  unfold State.sendControl
  simp

@[simp] theorem sendResponse_pending (s : State) (dst kind unit type reason seq tag : Nat) (data : List Byte) :
    (State.sendResponse s dst kind unit type reason seq tag data).pending = s.pending := by
  unfold State.sendResponse
  simp

/-! ### Ops -/

@[simp] theorem showLog_pending (s : State) : (State.showLog s).pending = s.pending := by
  unfold State.showLog
  simp

@[simp] theorem addRecord_pending (s : State) (r : LogRecord) : (State.addRecord s r).pending = s.pending := by
  unfold State.addRecord
  (repeat' (first | split | dsimp only)) <;> simp_all

@[simp] theorem logRecord_pending (s : State) (kind severity cause slot : Nat) (payload : List Nat) :
    (State.logRecord s kind severity cause slot payload).pending = s.pending := by
  unfold State.logRecord
  simp

@[simp] theorem toManager_pending (s : State) (ptype : Nat) (body : List Byte) : (State.toManager s ptype body).pending = s.pending := by
  unfold State.toManager
  simp

@[simp] theorem noticed_pending (s : State) (p : Suspect) (cause : Nat) : (State.noticed s p cause).pending = s.pending := by
  unfold State.noticed
  simp

@[simp] theorem arbiterTake_pending (s : State) (src : Nat) (p : Suspect) (cause severity events : Nat) :
    (State.arbiterTake s src p cause severity events).pending = s.pending := by
  unfold State.arbiterTake
  simp

@[simp] theorem lullPacket_pending (s : State) (p : Suspect) (cause severity events : Nat) :
    (State.lullPacket s p cause severity events).pending = s.pending := by
  unfold State.lullPacket
  simp

@[simp] theorem makeReport_pending (s : State) (p : Suspect) (kind cause severity : Nat) (payload : List Nat) :
    (State.makeReport s p kind cause severity payload).pending = s.pending := by
  unfold State.makeReport
  simp

@[simp] theorem reportWith_pending (bump : State → Field → State) (s : State) (p : Suspect) (kind cause severity : Nat) (payload : List Nat)
    (h_bump : ∀ t y1, (bump t y1).pending = t.pending) : (State.reportWith bump s p kind cause severity payload).pending = s.pending := by
  unfold State.reportWith
  (repeat' split) <;> simp_all

@[simp] theorem countWith_pending (report : State → Suspect → Nat → Nat → Nat → List Nat → State) (s : State) (f : Field) (n : Nat)
    (i : Nat) (h_report : ∀ t y1 y2 y3 y4 y5, (report t y1 y2 y3 y4 y5).pending = t.pending) :
    (State.countWith report s f n i).pending = s.pending := by
  unfold State.countWith
  (repeat' split) <;> simp_all

@[simp] theorem report0_pending (x1 : State) (x2 : Suspect) (x3 : Nat) (x4 : Nat) (x5 : Nat) (x6 : List Nat) :
    (State.report0 x1 x2 x3 x4 x5 x6).pending = x1.pending := by
  unfold State.report0
  simp

@[simp] theorem report1_pending (x1 : State) (x2 : Suspect) (x3 : Nat) (x4 : Nat) (x5 : Nat) (x6 : List Nat) :
    (State.report1 x1 x2 x3 x4 x5 x6).pending = x1.pending := by
  unfold State.report1
  simp

@[simp] theorem report_pending (x1 : State) (x2 : Suspect) (x3 : Nat) (x4 : Nat) (x5 : Nat) (x6 : List Nat) :
    (State.report x1 x2 x3 x4 x5 x6).pending = x1.pending := by
  unfold State.report
  simp

@[simp] theorem count_pending (s : State) (f : Field) (n : Nat) (i : Nat) : (State.count s f n i).pending = s.pending := by
  unfold State.count
  simp

@[simp] theorem raise_pending (s : State) (evt mask : Field) : (State.raise s evt mask).pending = s.pending := by
  unfold State.raise
  simp

@[simp] theorem raiseUnit_pending (s : State) (evt mask : Field) (slot : Nat) : (State.raiseUnit s evt mask slot).pending = s.pending := by
  unfold State.raiseUnit
  simp

@[simp] theorem latchTop_pending (s : State) (cause slot : Nat) : (State.latchTop s cause slot).pending = s.pending := by
  unfold State.latchTop
  simp

@[simp] theorem recordFault_pending (s : State) (cause : Nat) (p : Suspect) (payload : List Nat) :
    (State.recordFault s cause p payload).pending = s.pending := by
  unfold State.recordFault
  split <;> simp

@[simp] theorem hostWrite_pending (s : State) (offset bytes : Nat) (k : State → State) (h_k : ∀ t, (k t).pending = t.pending) :
    (State.hostWrite s offset bytes k).pending = s.pending := by
  unfold State.hostWrite
  (repeat' split) <;> simp_all

@[simp] theorem hostRead_pending (s : State) (offset bytes : Nat) (k : State → State) (h_k : ∀ t, (k t).pending = t.pending) :
    (State.hostRead s offset bytes k).pending = s.pending := by
  unfold State.hostRead
  (repeat' split) <;> simp_all

@[simp] theorem setCtx_pending (s : State) (x : Nat) (v : XeContext) : (State.setCtx s x v).pending = s.pending := by
  unfold State.setCtx
  simp

@[simp] theorem setPhaseOf_pending (s : State) (x : Nat) (y : XePhase) : (State.setPhaseOf s x y).pending = s.pending := by
  unfold State.setPhaseOf
  simp

@[simp] theorem putMark_pending (s : State) (c index ep : Nat) (m : ExchangeMark) : (State.putMark s c index ep m).pending = s.pending := by
  unfold State.putMark
  simp

@[simp] theorem releaseEnds_pending (s : State) (c index x p src ep : Nat) (failed : Bool) :
    (State.releaseEnds s c index x p src ep failed).pending = s.pending := by
  unfold State.releaseEnds
  simp

@[simp] theorem refusedOut_pending (s : State) : (State.refusedOut s).pending = s.pending := by
  unfold State.refusedOut
  simp

@[simp] theorem sendEngine_pending (s : State) (unit dst ptype : Nat) (payload : List Byte) (job : Nat) :
    (State.sendEngine s unit dst ptype payload job).pending = s.pending := by
  unfold State.sendEngine
  simp

@[simp] theorem sendGroup_pending (s : State) (unit grp ptype : Nat) (payload : List Byte) (job : Nat) :
    (State.sendGroup s unit grp ptype payload job).pending = s.pending := by
  unfold State.sendGroup
  simp

/-! ### Mem -/

@[simp] theorem scratchPut_pending (s : State) (core off : Nat) (bs : List Byte) :
    (State.scratchPut s core off bs).pending = s.pending := by
  unfold State.scratchPut
  simp

@[simp] theorem sramPut_pending (s : State) (cluster off : Nat) (bs : List Byte) :
    (State.sramPut s cluster off bs).pending = s.pending := by
  unfold State.sramPut
  simp

@[simp] theorem t3Put_pending (s : State) (off : Nat) (bs : List Byte) : (State.t3Put s off bs).pending = s.pending := by
  unfold State.t3Put
  simp

@[simp] theorem storeLine_pending (s : State) (stack line : Nat) : (State.storeLine s stack line).pending = s.pending := by
  unfold State.storeLine
  simp

@[simp] theorem touchLines_pending (s : State) (off n : Nat) (write : Bool) : (State.touchLines s off n write).pending = s.pending := by
  unfold State.touchLines
  simp

@[simp] theorem t1Read_pending (s : State) (off n : Nat) : (State.t1Read s off n).2.pending = s.pending := by
  unfold State.t1Read
  simp

@[simp] theorem t1Put_pending (s : State) (off : Nat) (bs : List Byte) : (State.t1Put s off bs).pending = s.pending := by
  unfold State.t1Put
  simp

@[simp] theorem t1Zero_pending (s : State) (off n : Nat) : (State.t1Zero s off n).pending = s.pending := by
  unfold State.t1Zero
  simp

@[simp] theorem touchT1_pending (s : State) (a n : Nat) : (State.touchT1 s a n).pending = s.pending := by
  unfold State.touchT1
  split <;> simp

@[simp] theorem progPut_pending (s : State) (core a : Nat) (bs : List Byte) : (State.progPut s core a bs).pending = s.pending := by
  unfold State.progPut
  split <;> simp

@[simp] theorem areaPut_pending (s : State) (a : Nat) (bs : List Byte) : (State.areaPut s a bs).pending = s.pending := by
  unfold State.areaPut
  (repeat' split) <;> simp

@[simp] theorem chargeWaits_pending (s : State) (waits : List (Nat × Nat)) : (State.chargeWaits s waits).pending = s.pending := by
  unfold State.chargeWaits
  simp

@[simp] theorem countLate_pending (s : State) (waits : List (Nat × Nat)) (tier : Nat) :
    (State.countLate s waits tier).pending = s.pending := by
  unfold State.countLate
  simp

@[simp] theorem learnWait_pending (s : State) (waits : List (Nat × Nat)) (tier : Nat) :
    (State.learnWait s waits tier).pending = s.pending := by
  unfold State.learnWait
  simp

@[simp] theorem chargeBeats_pending (s : State) (beats : List (Nat × List (Nat × Nat))) :
    (State.chargeBeats s beats).pending = s.pending := by
  unfold State.chargeBeats
  simp

@[simp] theorem countError_pending (s : State) (slot : Nat) : (State.countError s slot).pending = s.pending := by
  unfold State.countError
  simp

@[simp] theorem countCorrected_pending (s : State) (mdies : List Nat) : (State.countCorrected s mdies).pending = s.pending := by
  unfold State.countCorrected
  simp

@[simp] theorem poisonAt_pending (s : State) (off stack a : Nat) : (State.poisonAt s off stack a).pending = s.pending := by
  unfold State.poisonAt
  simp

@[simp] theorem uncorrectable_pending (s : State) (off : Nat) : (State.uncorrectable s off).pending = s.pending := by
  unfold State.uncorrectable
  simp

@[simp] theorem failT2_pending (s : State) (i : Nat) : (State.failT2 s i).pending = s.pending := by
  unfold State.failT2
  simp

@[simp] theorem failT3_pending (s : State) : (State.failT3 s).pending = s.pending := by
  unfold State.failT3
  simp

/-! ### Cores -/

@[simp] theorem setCore_pending (s : State) (c : Nat) (k : Core) : (State.setCore s c k).pending = s.pending := by
  unfold State.setCore
  simp

@[simp] theorem modCore_pending (s : State) (c : Nat) (f : Core → Core) : (State.modCore s c f).pending = s.pending := by
  unfold State.modCore
  simp

@[simp] theorem setRun_pending (s : State) (slot r : Nat) : (State.setRun s slot r).pending = s.pending := by
  unfold State.setRun
  simp

@[simp] theorem modJob_pending (s : State) (j : Nat) (f : Job → Job) : (State.modJob s j f).pending = s.pending := by
  unfold State.modJob
  simp

/-! ### Queues -/

@[simp] theorem setHead_pending (s : State) (q p : Nat) : (State.setHead s q p).pending = s.pending := by
  unfold State.setHead
  simp

@[simp] theorem setTail_pending (s : State) (q p : Nat) : (State.setTail s q p).pending = s.pending := by
  unfold State.setTail
  simp

@[simp] theorem srvEvt_pending (s : State) (f : Field) : (State.srvEvt s f).pending = s.pending := by
  unfold State.srvEvt
  simp

@[simp] theorem doorbell_pending (s : State) (k : State → State) (h_k : ∀ t, (k t).pending = t.pending) :
    (State.doorbell s k).pending = s.pending := by
  unfold State.doorbell
  (repeat' split) <;> simp_all

@[simp] theorem take_pending (s : State) (q : Nat) (cmd : Command) : (State.take s q cmd).2.pending = s.pending := by
  unfold State.take
  simp

@[simp] theorem takeCmd_pending (s : State) (q : Nat) (host : List Byte) (mine : Nat → Bool) (k : State → Taken → Command → State)
    (h_k : ∀ t y1 y2, (k t y1 y2).pending = t.pending) : (State.takeCmd s q host mine k).pending = s.pending := by
  unfold State.takeCmd
  (repeat' split) <;> simp_all

@[simp] theorem complete_pending (s : State) (t : Taken) (status detail : Nat) :
    (State.complete s t status detail).pending = s.pending := by
  unfold State.complete
  simp

@[simp] theorem completeKv_pending (s : State) (t : Option Taken) (status detail : Nat) :
    (State.completeKv s t status detail).pending = s.pending := by
  unfold State.completeKv
  split <;> simp

@[simp] theorem reserveStream_pending (s : State) (q n : Nat) : (State.reserveStream s q n).pending = s.pending := by
  unfold State.reserveStream
  simp

@[simp] theorem releaseStream_pending (s : State) (q n : Nat) : (State.releaseStream s q n).pending = s.pending := by
  unfold State.releaseStream
  simp

@[simp] theorem streamRecord_pending (s : State) (q handle flags status token pos : Nat) :
    (State.streamRecord s q handle flags status token pos).pending = s.pending := by
  unfold State.streamRecord
  simp

/-! ### Kv -/

@[simp] theorem showLedger_pending (s : State) (i : Nat) : (State.showLedger s i).pending = s.pending := by
  unfold State.showLedger
  simp

@[simp] theorem putT1_pending (s : State) (a n v : Nat) : (State.putT1 s a n v).pending = s.pending := by
  unfold State.putT1
  simp

@[simp] theorem zeroSet_pending (s : State) (k : Nat) : (State.zeroSet s k).pending = s.pending := by
  unfold State.zeroSet
  simp

@[simp] theorem t1Drop_pending (s : State) (a n : Nat) (which : Nat → Bool) : (State.t1Drop s a n which).pending = s.pending := by
  unfold State.t1Drop
  simp

@[simp] theorem t1Copy_pending (s : State) (a b n : Nat) (keep : Nat → Bool) : (State.t1Copy s a b n keep).pending = s.pending := by
  unfold State.t1Copy
  simp

@[simp] theorem zeroSlots_pending (s : State) (k : Nat) (which : Nat → Bool) : (State.zeroSlots s k which).pending = s.pending := by
  unfold State.zeroSlots
  simp

@[simp] theorem copyRequests_pending (s : State) (ptype a n : Nat) (bs : List Byte) :
    (State.copyRequests s ptype a n bs).pending = s.pending := by
  unfold State.copyRequests
  simp

@[simp] theorem parkPut_pending (s : State) (a : Nat) (bs : List Byte) : (State.parkPut s a bs).pending = s.pending := by
  unfold State.parkPut
  split <;> simp

@[simp] theorem parkAsk_pending (s : State) (a n : Nat) : (s.parkAsk a n).pending = s.pending := by
  unfold State.parkAsk
  split
  · exact foldl_pending _ _ _ fun s k => by simp
  · simp
  · rfl

@[simp] theorem closePark_pending (s : State) (a : Nat) (write : Bool) : (State.closePark s a write).pending = s.pending := by
  unfold State.closePark
  (repeat' split) <;> simp

@[simp] theorem parkCopy_pending (s : State) (set slot : Nat) (cd : CopyData) : (State.parkCopy s set slot cd).1.pending = s.pending := by
  unfold State.parkCopy
  simp

@[simp] theorem restoreCopy_pending (s : State) (slot set : Nat) (cd : CopyData) :
    (State.restoreCopy s slot set cd).1.pending = s.pending := by
  unfold State.restoreCopy
  simp

@[simp] theorem useTab_pending (s : State) (k : Nat) (u : Bool) : (State.useTab s k u).pending = s.pending := by
  unfold State.useTab
  simp

@[simp] theorem usePark_pending (s : State) (k : Nat) (u : Bool) : (State.usePark s k u).pending = s.pending := by
  unfold State.usePark
  simp

@[simp] theorem setEntry_pending (s : State) (h i e : Nat) : (State.setEntry s h i e).pending = s.pending := by
  unfold State.setEntry
  simp

@[simp] theorem setTblk_pending (s : State) (h k b : Nat) : (State.setTblk s h k b).pending = s.pending := by
  unfold State.setTblk
  simp

@[simp] theorem copySet_pending (s : State) (a b n : Nat) : (State.copySet s a b n).pending = s.pending := by
  unfold State.copySet
  simp

@[simp] theorem applyOp_pending (s : State) (o : LedgerOp) (cd : CopyData) : (State.applyOp s o cd).1.pending = s.pending := by
  unfold State.applyOp
  split <;> simp

@[simp] theorem decision_pending (s : State) (cd : CopyData) : (State.decision s cd).s.pending = s.pending := by
  unfold State.decision
  simp

@[simp] theorem Decision_op_pending (d : Decision) (op handle a b c : Nat) : (Decision.op d op handle a b c).s.pending = d.s.pending := by
  unfold Decision.op
  simp

@[simp] theorem Decision_copy_pending (d : Decision) (op a b i : Nat) : (Decision.copy d op a b i).s.pending = d.s.pending := by
  unfold Decision.copy
  simp

@[simp] theorem Decision_field_pending (d : Decision) (h off n v : Nat) : (Decision.field d h off n v).s.pending = d.s.pending := by
  unfold Decision.field
  simp

@[simp] theorem Decision_flags_pending (d : Decision) (h v : Nat) : (Decision.flags d h v).s.pending = d.s.pending := by
  unfold Decision.flags
  simp

@[simp] theorem Decision_showSets_pending (d : Decision) (h : Nat) : (Decision.showSets d h).s.pending = d.s.pending := by
  unfold Decision.showSets
  simp

@[simp] theorem Decision_entry_pending (d : Decision) (lg h i e : Nat) : (Decision.entry d lg h i e).s.pending = d.s.pending := by
  unfold Decision.entry
  (repeat' split) <;> simp

@[simp] theorem Decision_freeBlocks_pending (d : Decision) (h : Nat) : (Decision.freeBlocks d h).s.pending = d.s.pending := by
  unfold Decision.freeBlocks
  simp

@[simp] theorem Decision_unref_pending (d : Decision) (set : Nat) : (Decision.unref d set).s.pending = d.s.pending := by
  unfold Decision.unref
  simp

@[simp] theorem Decision_replace_pending (d : Decision) (lg h i e : Nat) : (Decision.replace d lg h i e).s.pending = d.s.pending := by
  unfold Decision.replace
  simp

@[simp] theorem Decision_drop_pending (d : Decision) (lg h i : Nat) : (Decision.drop d lg h i).s.pending = d.s.pending := by
  unfold Decision.drop
  simp

@[simp] theorem Decision_dropFrom_pending (d : Decision) (lg h i : Nat) : (Decision.dropFrom d lg h i).s.pending = d.s.pending := by
  unfold Decision.dropFrom
  simp

@[simp] theorem Decision_dropVictims_pending (d : Decision) (lg h n free : Nat) :
    (Decision.dropVictims d lg h n free).s.pending = d.s.pending := by
  unfold Decision.dropVictims
  simp [-List.foldl_reverse]

theorem Decision_obtain_pending (d : Decision) (lg h n m : Nat) (grow : Bool) (u : Decision)
    (h_u : Decision.obtain d lg h n m grow = some u) : u.s.pending = d.s.pending := by
  unfold Decision.obtain at h_u
  repeat' (first | split at h_u | dsimp only at h_u)
  all_goals first
    | (simp at h_u; done)
    | (simp only [Option.some.injEq, Host.Outcome.next.injEq] at h_u; subst h_u; simp_all; done)
    | (simp_all; done)

@[simp] theorem sendRecords_pending (s : State) (lg cause batch tag : Nat) (x1 : Nat) (x2 : List LedgerOp) :
    (State.sendRecords s lg cause batch tag x1 x2).pending = s.pending := by
  induction x1 generalizing s x2 with
  | zero => 
    unfold State.sendRecords
    rfl
  | succ n ih =>
    unfold State.sendRecords
    (repeat' (first | split | dsimp only)) <;> simp_all

@[simp] theorem Decision_commit_pending (d : Decision) (lg cause : Nat) (batch : Nat) (tag : Nat) :
    (Decision.commit d lg cause batch tag).pending = d.s.pending := by
  unfold Decision.commit
  simp

@[simp] theorem Decision_newRecord_pending (d : Decision) (h flags lg length valid gen hist : Nat) :
    (Decision.newRecord d h flags lg length valid gen hist).s.pending = d.s.pending := by
  unfold Decision.newRecord
  simp

@[simp] theorem Decision_share_pending (d : Decision) (lg h src n : Nat) : (Decision.share d lg h src n).s.pending = d.s.pending := by
  unfold Decision.share
  simp

theorem fork_pending (s : State) (lg h src len flags hist tag : Nat) (u : State) (h_u : State.fork s lg h src len flags hist tag = some u) :
    u.pending = s.pending := by
  unfold State.fork at h_u
  dsimp only at h_u
  split at h_u
  · simp at h_u
  · rename_i d hd
    simp only [Option.some.injEq] at h_u
    subst h_u
    simpa using Decision_obtain_pending _ _ _ _ _ _ _ hd

@[simp] theorem Decision_release_pending (d : Decision) (lg h : Nat) : (Decision.release d lg h).s.pending = d.s.pending := by
  unfold Decision.release
  simp

@[simp] theorem dropFailed_pending (s : State) (lg h i : Nat) : (State.dropFailed s lg h i).pending = s.pending := by
  unfold State.dropFailed
  simp

@[simp] theorem copyFailed_pending (s : State) (lg h i : Nat) : (State.copyFailed s lg h i).pending = s.pending := by
  unfold State.copyFailed
  simp

theorem park_pending (s : State) (lg h ttl tag : Nat) (cd : CopyData) (u : (Bool × State)) (h_u : State.park s lg h ttl tag cd = some u) :
    u.2.pending = s.pending := by
  unfold State.park at h_u
  repeat' (first | split at h_u | dsimp only at h_u)
  all_goals first
    | (simp at h_u; done)
    | (simp only [Option.some.injEq, Host.Outcome.next.injEq] at h_u; subst h_u; simp_all; done)
    | (simp_all; done)

@[simp] theorem restoreReply_pending (s : State) (lg h ep i : Nat) : (State.restoreReply s lg h ep i).pending = s.pending := by
  unfold State.restoreReply
  split <;> simp

theorem restore_pending (s : State) (lg h tag : Nat) (cd : CopyData) (taken : Option Taken) (u : CopyData × State)
    (h_u : s.restore lg h tag cd taken = some u) : u.2.pending = s.pending := by
  unfold State.restore at h_u
  dsimp only at h_u
  split at h_u
  · simp at h_u
  · rename_i d hd
    simp only [Option.some.injEq] at h_u
    subst h_u
    have e := Decision_obtain_pending _ _ _ _ _ _ _ hd
    rw [foldl_pending _ _ _ fun s i => by simp]
    split
    · rw [restoreReply_pending]
      dsimp only
      rw [Decision_commit_pending, Decision_field_pending, Decision_field_pending, foldl_pending_dec _ _ _ (by intros; simp)]
      exact e
    · rw [foldl_pending _ _ _ fun s i => by simp]
      dsimp only
      rw [Decision_commit_pending, Decision_field_pending, Decision_field_pending, foldl_pending_dec _ _ _ (by intros; simp)]
      exact e

@[simp] theorem expirePark_pending (s : State) (lg h : Nat) : (State.expirePark s lg h).pending = s.pending := by
  unfold State.expirePark
  (repeat' (first | split | dsimp only)) <;> simp_all

/-! ### Receive -/

@[simp] theorem answer_pending (s : State) (hd : PacketHead) (type reason : Nat) : (State.answer s hd type reason).pending = s.pending := by
  unfold State.answer
  simp

@[simp] theorem engineTake_pending (s : State) (hd : PacketHead) (enabled : State → Bool) (k : State → State)
    (h_k : ∀ t, (k t).pending = t.pending) : (State.engineTake s hd enabled k).pending = s.pending := by
  unfold State.engineTake
  (repeat' split) <;> simp_all

@[simp] theorem gather_pending (s : State) (source ptype : Nat) (name : List Nat) (total first : Nat) (bytes : List Byte) :
    (State.gather s source ptype name total first bytes).2.pending = s.pending := by
  unfold State.gather
  (repeat' split) <;> simp_all

@[simp] theorem controlTake_pending (s : State) (hd : PacketHead) (k : State → State) (h_k : ∀ t, (k t).pending = t.pending) :
    (State.controlTake s hd k).pending = s.pending := by
  unfold State.controlTake
  (repeat' split) <;> simp_all

/-! ### Nvs -/

@[simp] theorem modNvs_pending (s : State) (f : Nvs → Nvs) : (State.modNvs s f).pending = s.pending := by
  unfold State.modNvs
  simp

@[simp] theorem nvEvt_pending (s : State) (f : Field) : (State.nvEvt s f).pending = s.pending := by
  unfold State.nvEvt
  simp

@[simp] theorem showWear_pending (s : State) : (State.showWear s).pending = s.pending := by
  unfold State.showWear
  simp

@[simp] theorem eraseOld_pending (s : State) : (State.eraseOld s).pending = s.pending := by
  unfold State.eraseOld
  simp

@[simp] theorem relocate_pending (s : State) (p q : Nat) (retire : Bool) : (State.relocate s p q retire).pending = s.pending := by
  unfold State.relocate
  simp

@[simp] theorem relocateLow_pending (s : State) (p : Nat) : (State.relocateLow s p).pending = s.pending := by
  unfold State.relocateLow
  split <;> simp

@[simp] theorem readPages_pending (s : State) (u n : Nat) : (State.readPages s u n).pending = s.pending := by
  unfold State.readPages
  simp

@[simp] theorem nvLost_pending (s : State) : (State.nvLost s).pending = s.pending := by
  unfold State.nvLost
  simp

@[simp] theorem nvRead_pending (s : State) (r : NvsReport) : (State.nvRead s r).pending = s.pending := by
  unfold State.nvRead
  split <;> simp

@[simp] theorem nvFetch_pending (s : State) (u n : Nat) : (State.nvFetch s u n).2.pending = s.pending := by
  unfold State.nvFetch
  (repeat' (first | split | dsimp only)) <;> simp_all

@[simp] theorem returnRun_pending (s : State) (g n : Nat) : (State.returnRun s g n).pending = s.pending := by
  unfold State.returnRun
  simp

@[simp] theorem markBad_pending (s : State) (id : Nat) : (State.markBad s id).pending = s.pending := by
  unfold State.markBad
  simp

@[simp] theorem checkShard_pending (s : State) (h : Shard) (r : NvsReport) : (State.checkShard s h r).2.2.pending = s.pending := by
  unfold State.checkShard
  (repeat' split) <;> simp_all

@[simp] theorem commitShard_pending (s : State) (c : NvCmd) (g : Nat) (failed : Bool) :
    (State.commitShard s c g failed).2.pending = s.pending := by
  unfold State.commitShard
  (repeat' (first | split | dsimp only)) <;> simp_all

@[simp] theorem noteLoad_pending (s : State) (c : NvCmd) (ok : Bool) : (State.noteLoad s c ok).pending = s.pending := by
  unfold State.noteLoad
  (repeat' split) <;> simp

@[simp] theorem rejectGen_pending (s : State) : (State.rejectGen s).pending = s.pending := by
  unfold State.rejectGen
  simp

@[simp] theorem measure5_pending (s : State) (patches : List Byte) : (State.measure5 s patches).pending = s.pending := by
  unfold State.measure5
  simp

@[simp] theorem freeSlot_pending (s : State) (i : Nat) : (State.freeSlot s i).pending = s.pending := by
  unfold State.freeSlot
  simp

@[simp] theorem settleSlot_pending (s : State) (i : Nat) : (State.settleSlot s i).pending = s.pending := by
  unfold State.settleSlot
  simp

@[simp] theorem retireSlot_pending (s : State) (i : Nat) : (State.retireSlot s i).pending = s.pending := by
  unfold State.retireSlot
  simp

@[simp] theorem unmapPatch_pending (s : State) (p : Nat) : (State.unmapPatch s p).pending = s.pending := by
  unfold State.unmapPatch
  simp

@[simp] theorem remeasure_pending (s t : State) : (State.remeasure s t).pending = s.pending := by
  unfold State.remeasure
  simp

@[simp] theorem loadPatch_pending (s : State) (p v slot : Nat) : (State.loadPatch s p v slot).2.pending = s.pending := by
  unfold State.loadPatch
  (repeat' (first | split | dsimp only)) <;> simp_all

@[simp] theorem usePatch_pending (s : State) (i : Nat) : (State.usePatch s i).pending = s.pending := by
  unfold State.usePatch
  simp only [setFld_pending]
  split
  · rfl
  · exact foldl_pending _ _ _ (fun _ _ => setFld_pending _ _ _ _)

@[simp] theorem setNvPos_pending (s : State) (index phase : Field) (p : Nat) : (State.setNvPos s index phase p).pending = s.pending := by
  unfold State.setNvPos
  simp

@[simp] theorem modCmd_pending (s : State) (key : Nat) (f : NvCmd → NvCmd) : (State.modCmd s key f).pending = s.pending := by
  unfold State.modCmd
  simp

@[simp] theorem nvDecide_pending (s : State) (c : NvCmd) (status detail : Nat) :
    (State.nvDecide s c status detail).pending = s.pending := by
  unfold State.nvDecide
  simp

@[simp] theorem placePload_pending (s : State) (c : NvCmd) : (State.placePload s c).pending = s.pending := by
  unfold State.placePload
  (repeat' split) <;> (try simp_all) <;> (repeat rw [foldl_pending _ _ _ (by intros; (repeat' split) <;> simp)]) <;> simp

@[simp] theorem retryPload_pending (s : State) : (State.retryPload s).pending = s.pending := by
  unfold State.retryPload
  split <;> simp

@[simp] theorem takeRun_pending (s : State) (c : NvCmd) : (State.takeRun s c).pending = s.pending := by
  unfold State.takeRun
  (repeat' (first | split | dsimp only)) <;> simp_all

@[simp] theorem nvBegin_pending (s : State) (c : NvCmd) : (State.nvBegin s c).pending = s.pending := by
  unfold State.nvBegin
  (repeat' (first | split | dsimp only)) <;> simp_all

@[simp] theorem nvStart_pending (x1 : Nat) (x2 : State) : (State.nvStart x1 x2).pending = x2.pending := by
  induction x1 generalizing x2 with
  | zero => rfl
  | succ n ih =>
    unfold State.nvStart
    (repeat' (first | split | dsimp only)) <;> simp_all

@[simp] theorem nvSettle_pending (s : State) : (State.nvSettle s).pending = s.pending := by
  unfold State.nvSettle
  simp

@[simp] theorem nvTake_pending (s : State) (host : List Byte) (mine : Nat → Bool) : (State.nvTake s host mine).pending = s.pending := by
  unfold State.nvTake
  dsimp only
  (repeat' split) <;> simp

@[simp] theorem autoLoad_pending (s : State) (p : Nat) : (State.autoLoad s p).pending = s.pending := by
  unfold State.autoLoad
  simp

@[simp] theorem sendChunk_pending (s : State) (c : NvCmd) (h : Shard) (k : Nat) : (s.sendChunk c h k).pending = s.pending := by
  unfold sendChunk
  generalize s.chunkItems c h k = l
  exact foldl_pending _ _ _ fun s p => sendGroup_pending s 6 c.group 0x17 p _

@[simp] theorem sendChunks_pending (s : State) (c : NvCmd) (h : Shard) (chunks : List Nat) :
    (s.sendChunks c h chunks).pending = s.pending := by
  unfold sendChunks
  induction chunks generalizing s with
  | nil => rfl
  | cons a r ih => rw [List.foldl_cons, ih, sendChunk_pending]

@[simp] theorem keepStream_pending (s : State) (c : NvCmd) (h : Shard) : (State.keepStream s c h).pending = s.pending := by
  unfold State.keepStream
  (repeat' (first | split | dsimp only)) <;> simp_all

@[simp] theorem failPload_pending (s : State) (c : NvCmd) (status : Nat) : (State.failPload s c status).pending = s.pending := by
  unfold State.failPload
  simp

@[simp] theorem install_pending (s : State) (pairs : List ((Nat × Nat) × Nat)) : (State.install s pairs).pending = s.pending := by
  unfold State.install
  simp

@[simp] theorem finishPload_pending (s : State) (c : NvCmd) : (State.finishPload s c).pending = s.pending := by
  unfold State.finishPload
  simp

@[simp] theorem ploadReply_pending (s : State) (number ep : Nat) (ok : Bool) : (State.ploadReply s number ep ok).pending = s.pending := by
  unfold State.ploadReply
  split <;> simp

@[simp] theorem loadPatches_pending (s : State) (xs : List ((Nat × Nat) × Nat)) : (State.loadPatches s xs).2.pending = s.pending := by
  unfold State.loadPatches
  simp

@[simp] theorem ploadOwn_pending (s : State) (c : NvCmd) : (State.ploadOwn s c).pending = s.pending := by
  unfold State.ploadOwn
  simp

@[simp] theorem writeShard_pending (s : State) (c : NvCmd) (g : Nat) (r : NvsReport) : (State.writeShard s c g r).pending = s.pending := by
  unfold State.writeShard
  simp

@[simp] theorem loadShard_pending (s : State) (c : NvCmd) (h : Shard) : (State.loadShard s c h).pending = s.pending := by
  unfold State.loadShard
  (repeat' (first | split | dsimp only)) <;> simp_all

@[simp] theorem deleteShard_pending (s : State) (h : Shard) : (State.deleteShard s h).pending = s.pending := by
  unfold State.deleteShard
  simp

@[simp] theorem nvWork_pending (s : State) (c : NvCmd) (r : NvsReport) : (State.nvWork s c r).pending = s.pending := by
  unfold State.nvWork
  (repeat' (first | split | dsimp only)) <;> simp_all

@[simp] theorem nvRecord_pending (s : State) (c : NvCmd) (status detail : Nat) :
    (State.nvRecord s c status detail).pending = s.pending := by
  unfold State.nvRecord
  simp

@[simp] theorem takeChunk_pending (s : State) (c : NvCmd) (chunk : Nat) (bs : List Byte) :
    (State.takeChunk s c chunk bs).pending = s.pending := by
  unfold State.takeChunk
  dsimp only
  (repeat' split) <;> simp

@[simp] theorem sendRepairs_pending (s : State) (keeper shard : Nat) (x1 : Nat) (x2 : List Nat) :
    (State.sendRepairs s keeper shard x1 x2).pending = s.pending := by
  induction x1 generalizing s x2 with
  | zero => rfl
  | succ n ih =>
    unfold State.sendRepairs
    (repeat' (first | split | dsimp only)) <;> simp_all

@[simp] theorem failRecv_pending (s : State) (c : NvCmd) (status : Nat) : (State.failRecv s c status).pending = s.pending := by
  unfold State.failRecv
  simp

@[simp] theorem nvStop_pending (s : State) (c : NvCmd) : (State.nvStop s c).pending = s.pending := by
  unfold State.nvStop
  dsimp only
  (repeat' split) <;> simp

@[simp] theorem nvInhibit_pending (s : State) : (State.nvInhibit s).pending = s.pending := by
  unfold State.nvInhibit
  simp

@[simp] theorem nvUninhibit_pending (s : State) : (State.nvUninhibit s).pending = s.pending := by
  unfold State.nvUninhibit
  simp

/-! ### Serve -/

@[simp] theorem setSrv_pending (s : State) (i : Nat) (v : Serving) : (State.setSrv s i v).pending = s.pending := by
  unfold State.setSrv
  simp

@[simp] theorem modSrv_pending (s : State) (i : Nat) (f : Serving → Serving) : (State.modSrv s i f).pending = s.pending := by
  unfold State.modSrv
  simp

@[simp] theorem setSeq_pending (s : State) (h : Nat) (q : SeqState) : (State.setSeq s h q).pending = s.pending := by
  unfold State.setSeq
  simp

@[simp] theorem modSeq_pending (s : State) (h : Nat) (f : SeqState → SeqState) : (State.modSeq s h f).pending = s.pending := by
  unfold State.modSeq
  split <;> simp

@[simp] theorem wrapCount_pending (s : State) (f : Field) (n : Nat) (i : Nat) : (State.wrapCount s f n i).pending = s.pending := by
  unfold State.wrapCount
  simp

@[simp] theorem account_pending (s : State) (h : Nat) (q : SeqState) (status : Nat) : (State.account s h q status).pending = s.pending := by
  unfold State.account
  simp

@[simp] theorem streamToken_pending (s : State) (h : Nat) (q : SeqState) (token pos flags status accepted : Nat) :
    (State.streamToken s h q token pos flags status accepted).pending = s.pending := by
  unfold State.streamToken
  simp

@[simp] theorem settleSeq_pending (s : State) (h : Nat) (q : SeqState) (cancelStatus : Nat) :
    (State.settleSeq s h q cancelStatus).pending = s.pending := by
  unfold State.settleSeq
  (repeat' split) <;> simp

@[simp] theorem endSeq_pending (s : State) (h status cause batch : Nat) (finalDone : Bool) (tag : Nat) :
    (State.endSeq s h status cause batch finalDone tag).pending = s.pending := by
  unfold State.endSeq
  split <;> simp

@[simp] theorem Decision_appendRange_pending (d : Decision) (lg h valid last : Nat) :
    (Decision.appendRange d lg h valid last).s.pending = d.s.pending := by
  unfold Decision.appendRange
  simp

@[simp] theorem deferSeq_pending (s : State) (lg h batch : Nat) : (State.deferSeq s lg h batch).pending = s.pending := by
  unfold State.deferSeq
  simp

@[simp] theorem Forming_take_pending (f : Forming) (lg h batch : Nat) (row : BatchRow) (last : Nat) :
    (Forming.take f lg h batch row last).s.pending = f.s.pending := by
  unfold Forming.take
  dsimp only
  split
  · simp
  · rename_i d hd
    have := Decision_obtain_pending _ _ _ _ _ _ _ hd
    repeat' (first | split | (simp [this, apply_ite State.pending]; done) | skip)

@[simp] theorem Forming_decodeRow_pending (f : Forming) (lg batch h slot : Nat) (q : SeqState) :
    (Forming.decodeRow f lg batch h slot q).s.pending = f.s.pending := by
  unfold Forming.decodeRow
  simp

@[simp] theorem Forming_prefillRow_pending (f : Forming) (lg batch h slot : Nat) (q : SeqState) :
    (Forming.prefillRow f lg batch h slot q).s.pending = f.s.pending := by
  unfold Forming.prefillRow
  simp

@[simp] theorem freshKv_pending (s : State) (lg h batch gen : Nat) (keep : Bool) :
    (State.freshKv s lg h batch gen keep).pending = s.pending := by
  unfold State.freshKv
  simp

@[simp] theorem Forming_restore_pending (f : Forming) (lg h : Nat) : (Forming.restore f lg h).s.pending = f.s.pending := by
  unfold Forming.restore
  split
  · rename_i hr
    exact restore_pending _ _ _ _ _ _ _ hr
  · rfl

@[simp] theorem Forming_consider_pending (f : Forming) (lg batch gen : Nat) (keep : Bool) (h : Nat) :
    (Forming.consider f lg batch gen keep h).s.pending = f.s.pending := by
  unfold Forming.consider
  (repeat' split) <;> simp

@[simp] theorem formBatch_pending (s : State) (lg : Nat) (cd : CopyData) : (State.formBatch s lg cd).1.pending = s.pending := by
  unfold State.formBatch
  simp

@[simp] theorem streamRow_pending (s : State) (h : Nat) (accepted : Nat) (late : Bool) (x1 : Nat) (x2 : Nat) (x3 : List Nat) :
    (State.streamRow s h accepted late x1 x2 x3).1.pending = s.pending := by
  induction x3 generalizing s x1 x2 with
  | nil => unfold State.streamRow; rfl
  | cons t r ih =>
    unfold State.streamRow
    dsimp only
    split
    · rfl
    · split
      all_goals (split <;> first | (simp only [ih]; simp; done) | (simp; done))

@[simp] theorem closeRange_pending (s : State) (lg h batch first count newValid newLen : Nat) :
    (State.closeRange s lg h batch first count newValid newLen).pending = s.pending := by
  unfold State.closeRange
  simp

@[simp] theorem finishKv_pending (s : State) (t : Option Taken) (st : Nat) : (State.finishKv s t st).pending = s.pending := by
  unfold State.finishKv
  simp

@[simp] theorem runPark_pending (s : State) (lg : Nat) (c : HeldCmd) (cd : CopyData) : (State.runPark s lg c cd).pending = s.pending := by
  unfold State.runPark
  split
  · simp
  · split
    · rename_i hp
      have := park_pending _ _ _ _ _ _ _ hp
      simp_all [apply_ite State.pending]
    · simp

@[simp] theorem leaveSeq_pending (s : State) (h : Nat) : (State.leaveSeq s h).pending = s.pending := by
  unfold State.leaveSeq
  split <;> simp

@[simp] theorem runHeld_pending (s : State) (lg : Nat) (c : HeldCmd) (cd : CopyData) : (State.runHeld s lg c cd).pending = s.pending := by
  unfold State.runHeld
  (repeat' split) <;> simp

@[simp] theorem runHeldOf_pending (s : State) (lg h : Nat) (cd : CopyData) : (State.runHeldOf s lg h cd).pending = s.pending := by
  unfold State.runHeldOf
  simp

@[simp] theorem spareRow_pending (s : State) (h n : Nat) : (State.spareRow s h n).pending = s.pending := by
  unfold State.spareRow
  simp

@[simp] theorem stopRow_pending (s : State) (lg batch : Nat) (cd : CopyData) (row : BatchRow) (status : Nat) (finalDone : Bool)
    (valid len : Nat) : (State.stopRow s lg batch cd row status finalDone valid len).pending = s.pending := by
  unfold State.stopRow
  simp

@[simp] theorem prefillRow_pending (s : State) (lg batch : Nat) (cd : CopyData) (row : BatchRow) (q : SeqState) :
    (State.prefillRow s lg batch cd row q).pending = s.pending := by
  unfold State.prefillRow
  split <;> simp

@[simp] theorem emitRow_pending (s : State) (lg batch : Nat) (cd : CopyData) (row : BatchRow) (q : SeqState) (r : ResultRow) :
    (State.emitRow s lg batch cd row q r).pending = s.pending := by
  unfold State.emitRow
  simp

@[simp] theorem endRow_pending (s : State) (lg : Nat) (f : Flight) (cd : CopyData) (row : BatchRow) :
    (State.endRow s lg f cd row).pending = s.pending := by
  unfold State.endRow
  (repeat' (first | split | dsimp only)) <;> simp_all

@[simp] theorem dropFlight_pending (s : State) (lg : Nat) (f : Flight) : (State.dropFlight s lg f).pending = s.pending := by
  unfold State.dropFlight
  simp

@[simp] theorem endBatch_pending (s : State) (lg : Nat) (f : Flight) (cd : CopyData) : (State.endBatch s lg f cd).pending = s.pending := by
  unfold State.endBatch
  simp

@[simp] theorem propose_pending (s : State) (p : Nat × Nat × Nat) : (State.propose s p).pending = s.pending := by
  unfold State.propose
  split <;> simp

@[simp] theorem takeReport_pending (s : State) (lg batch ep : Nat) (missing : Bool) (proposals : List (Nat × Nat × Nat))
    (results : List ResultRow) (cd : CopyData) : (State.takeReport s lg batch ep missing proposals results cd).pending = s.pending := by
  unfold State.takeReport
  split <;> simp

@[simp] theorem stopServing_pending (s : State) (lg : Nat) : (State.stopServing s lg).pending = s.pending := by
  unfold State.stopServing
  simp

/-! ### Sched -/

@[simp] theorem putEntry_pending (s : State) (j : Job) (state : Nat) : (State.putEntry s j state).pending = s.pending := by
  unfold State.putEntry
  simp

@[simp] theorem updateJob_pending (s : State) (j : Nat) (f : Job → Job) : (State.updateJob s j f).pending = s.pending := by
  unfold State.updateJob
  (repeat' (first | split | dsimp only)) <;> simp_all

@[simp] theorem freeze_pending (s : State) (c : Nat) : (State.freeze s c).pending = s.pending := by
  unfold State.freeze
  simp

@[simp] theorem rest_pending (s : State) (c : Nat) : (State.rest s c).pending = s.pending := by
  unfold State.rest
  simp

@[simp] theorem freezeJob_pending (s : State) (j : Job) : (State.freezeJob s j).pending = s.pending := by
  unfold State.freezeJob
  simp

@[simp] theorem beginSwitch_pending (s : State) (incoming : Option Job) (outgoing : List (Job × Nat)) (held : Bool) :
    (State.beginSwitch s incoming outgoing held).pending = s.pending := by
  unfold State.beginSwitch
  simp

@[simp] theorem consider_pending (s : State) (j : Job) : (State.consider s j).pending = s.pending := by
  unfold State.consider
  simp

@[simp] theorem pass_pending (s : State) : (State.pass s).pending = s.pending := by
  unfold State.pass
  simp

@[simp] theorem closeContext_pending (s : State) (x : Nat) : (State.closeContext s x).pending = s.pending := by
  unfold State.closeContext
  split <;> simp

@[simp] theorem stopJob_pending (s : State) (j : Nat) : (State.stopJob s j).pending = s.pending := by
  unfold State.stopJob
  simp

@[simp] theorem finishControl_pending (s : State) (result : Nat) : (State.finishControl s result).pending = s.pending := by
  unfold State.finishControl
  simp

@[simp] theorem clearCore_pending (s : State) (c run : Nat) : (State.clearCore s c run).pending = s.pending := by
  unfold State.clearCore
  simp

@[simp] theorem idleCore_pending (s : State) (c : Nat) : (State.idleCore s c).pending = s.pending := by
  unfold State.idleCore
  simp

@[simp] theorem dropImages_pending (s : State) (j : Nat) : (State.dropImages s j).pending = s.pending := by
  unfold State.dropImages
  (repeat' split) <;> (try simp_all) <;> (repeat rw [foldl_pending _ _ _ (by intros; (repeat' split) <;> simp)]) <;> simp

@[simp] theorem leaveSwitches_pending (s : State) (j : Nat) : (State.leaveSwitches s j).pending = s.pending := by
  unfold State.leaveSwitches
  simp

@[simp] theorem endJob_pending (s : State) (j status detail : Nat) : (State.endJob s j status detail).pending = s.pending := by
  unfold State.endJob
  (repeat' (first | split | dsimp only)) <;> simp_all

@[simp] theorem markFault_pending (s : State) (j detail : Nat) (all : Bool) : (State.markFault s j detail all).pending = s.pending := by
  unfold State.markFault
  split <;> simp

@[simp] theorem applyControl_pending (s : State) (op j : Nat) : (State.applyControl s op j).pending = s.pending := by
  unfold State.applyControl
  (repeat' (first | split | dsimp only)) <;> simp_all

@[simp] theorem endSwitch_pending (s : State) (w : Switch) : (State.endSwitch s w).pending = s.pending := by
  unfold State.endSwitch
  (repeat' (first | split | dsimp only)) <;> simp_all

@[simp] theorem takeEvent_pending (s : State) (e : SchedEvent) : (State.takeEvent s e).pending = s.pending := by
  unfold State.takeEvent
  split <;> simp

@[simp] theorem settleN_pending (x1 : Nat) (x2 : State) : (State.settleN x1 x2).pending = x2.pending := by
  induction x1 generalizing x2 with
  | zero => rfl
  | succ n ih =>
    unfold State.settleN
    (repeat' (first | split | dsimp only)) <;> simp_all

@[simp] theorem settle_pending (s : State) : (State.settle s).pending = s.pending := by
  unfold State.settle
  simp

@[simp] theorem schedule_pending (s : State) (e : SchedEvent) : (State.schedule s e).pending = s.pending := by
  unfold State.schedule
  simp

@[simp] theorem faultJob_pending (s : State) (j detail : Nat) : (State.faultJob s j detail).pending = s.pending := by
  unfold State.faultJob
  simp

@[simp] theorem restCore_pending (s : State) (c : Nat) : (State.restCore s c).pending = s.pending := by
  unfold State.restCore
  simp

@[simp] theorem halt_pending (s : State) (c : Nat) : (State.halt s c).pending = s.pending := by
  unfold State.halt
  simp

@[simp] theorem setExcinfo_pending (s : State) (c cause engine index job : Nat) (async : Bool) :
    (State.setExcinfo s c cause engine index job async).pending = s.pending := by
  unfold State.setExcinfo
  simp

@[simp] theorem exception_pending (s : State) (c cause engine index : Nat) (async : Bool) :
    (State.exception s c cause engine index async).pending = s.pending := by
  unfold State.exception
  simp

@[simp] theorem hardwareFault_pending (s : State) (c cause : Nat) (payload : List Nat) :
    (State.hardwareFault s c cause payload).pending = s.pending := by
  unfold State.hardwareFault
  simp

@[simp] theorem moduleFault_pending (s : State) (cause : Nat) (p : Suspect) (payload : List Nat) :
    (State.moduleFault s cause p payload).pending = s.pending := by
  unfold State.moduleFault
  simp

@[simp] theorem landSignal_pending (s : State) (c e engine index : Nat) : (State.landSignal s c e engine index).pending = s.pending := by
  unfold State.landSignal
  simp

@[simp] theorem signalOwn_pending (s : State) (c engine index : Nat) (e : Option Nat) :
    (State.signalOwn s c engine index e).pending = s.pending := by
  unfold State.signalOwn
  split <;> simp

@[simp] theorem signalExt_pending (s : State) (j c e : Nat) : (State.signalExt s j c e).pending = s.pending := by
  unfold State.signalExt
  split <;> simp

@[simp] theorem signalCode_pending (s : State) (j c code : Nat) : (State.signalCode s j c code).pending = s.pending := by
  unfold State.signalCode
  simp

@[simp] theorem signalJob_pending (s : State) (j code : Nat) : (State.signalJob s j code).pending = s.pending := by
  unfold State.signalJob
  split <;> simp

@[simp] theorem applyTally_pending (s : State) (c : Nat) : (State.applyTally s c).pending = s.pending := by
  unfold State.applyTally
  simp

/-! ### Insn -/

@[simp] theorem modSq_pending (s : State) (c : Nat) (f : Sequencer → Sequencer) : (State.modSq s c f).pending = s.pending := by
  unfold State.modSq
  simp

@[simp] theorem issueNow_pending (s : State) (c w : Nat) (p : Plan) (pass : Bool) (h : ∀ t, (p.effect t).pending = t.pending) :
    (s.issueNow c w p pass).pending = s.pending := by
  unfold State.issueNow
  dsimp only
  (repeat' split) <;> simp_all

@[simp] theorem heldByWait_pending (s : State) (c w : Nat) : (State.heldByWait s c w).pending = s.pending := by
  unfold State.heldByWait
  simp

@[simp] theorem issue_pending (s : State) (c : Nat) (mine : Nat → Bool) (plan : State → Nat → Plan)
    (h : ∀ u w t, ((plan u w).effect t).pending = t.pending) : (s.issue c mine plan).pending = s.pending := by
  unfold State.issue
  dsimp only
  (repeat' split) <;> simp_all

@[simp] theorem outOfProgram_pending (s : State) (c : Nat) : (State.outOfProgram s c).pending = s.pending := by
  unfold State.outOfProgram
  simp

@[simp] theorem seenGsc_pending (s : State) : (State.seenGsc s).2.pending = s.pending := by
  unfold State.seenGsc
  simp

/-! ### Flags -/

@[simp] theorem setIf_pending (s : State) (f : Field) (n c : Nat) : (State.setIf s f n c).pending = s.pending := by
  unfold State.setIf
  simp

@[simp] theorem latchNumeric_pending (s : State) (c engine index : Nat) : (State.latchNumeric s c engine index).pending = s.pending := by
  unfold State.latchNumeric
  simp

@[simp] theorem countNumeric_pending (s : State) (c engine index : Nat) (ev : NumEvents) :
    (State.countNumeric s c engine index ev).pending = s.pending := by
  unfold State.countNumeric
  simp

@[simp] theorem releaseNumeric_pending (s : State) (c : Nat) : (State.releaseNumeric s c).pending = s.pending := by
  unfold State.releaseNumeric
  simp

/-! ### SqLocal -/

theorem runSimple_pending (s : State) (c : Nat) (mine : Nat → Bool) (mask sub : Nat) (f : Nat → Sequencer → Sequencer)
    (names : Nat → List Nat) (u : State) (h_u : State.runSimple s c mine mask sub f names = .next u) : u.pending = s.pending := by
  unfold State.runSimple at h_u
  cases h_u
  simp [Plan.simple]

theorem runCompare_pending (s : State) (c op mask accepts : Nat) (f : Nat → Sequencer → Bool) (u : State)
    (h_u : State.runCompare s c op mask accepts f = .next u) : u.pending = s.pending := by
  unfold State.runCompare at h_u
  repeat' (first | split at h_u | dsimp only at h_u)
  all_goals first
    | (simp at h_u; done)
    | (simp only [Option.some.injEq, Host.Outcome.next.injEq] at h_u; subst h_u; simp_all; done)
    | (simp_all; done)

theorem runPlog_pending (s : State) (c : Nat) (mine : Nat → Bool) (func : Nat) (f : Nat → Bool → Bool → Bool) (u : State)
    (h_u : State.runPlog s c mine func f = .next u) : u.pending = s.pending := by
  unfold State.runPlog at h_u
  cases h_u
  simp [Plan.simple]

@[simp] theorem rdsGsc_pending (s : State) (c d : Nat) : (State.rdsGsc s c d).pending = s.pending := by
  unfold State.rdsGsc
  simp

@[simp] theorem fireAlarm_pending (s : State) (c : Nat) : (State.fireAlarm s c).pending = s.pending := by
  unfold State.fireAlarm
  simp

@[simp] theorem armAlarm_pending (s : State) (c target seen : Nat) : (State.armAlarm s c target seen).pending = s.pending := by
  unfold State.armAlarm
  simp

theorem runAlarm_pending (s : State) (c : Nat) (mine : Nat → Bool) (mode : Nat) (f : Nat → State → State)
    (h_f : ∀ y0 t, (f y0 t).pending = t.pending) (u : State) (h_u : State.runAlarm s c mine mode f = .next u) : u.pending = s.pending := by
  unfold State.runAlarm at h_u
  repeat' (first | split at h_u | dsimp only at h_u)
  all_goals first
    | (simp at h_u; done)
    | (simp only [Option.some.injEq, Host.Outcome.next.injEq] at h_u; subst h_u; simp_all; done)
    | (simp_all; done)

/-! ### Dpa -/

@[simp] theorem fillShadow_pending (s : State) (c : Nat) (o : DpaOp) : (State.fillShadow s c o).pending = s.pending := by
  unfold State.fillShadow
  simp

@[simp] theorem pushDpa_pending (s : State) (c : Nat) (o : DpaOp) : (State.pushDpa s c o).pending = s.pending := by
  unfold State.pushDpa
  simp

@[simp] theorem popDpa_pending (s : State) (c : Nat) : (State.popDpa s c).pending = s.pending := by
  unfold State.popDpa
  (repeat' split) <;> simp

@[simp] theorem dpaWrite_pending (s : State) (c : Nat) (o : DpaOp) (b : DpaBank) (n : Nat) :
    (State.dpaWrite s c o b n).pending = s.pending := by
  unfold State.dpaWrite
  simp

@[simp] theorem chargeDpa_pending (s : State) (c n : Nat) : (State.chargeDpa s c n).pending = s.pending := by
  unfold State.chargeDpa
  simp

/-! ### Mover -/

@[simp] theorem modHead_pending (s : State) (c m : Nat) (f : MoverOp → MoverOp) : (State.modHead s c m f).pending = s.pending := by
  unfold State.modHead
  simp

@[simp] theorem sendLoads_pending (s : State) (c m num b : Nat) (beat : List (Option Nat × Nat)) :
    (State.sendLoads s c m num b beat).pending = s.pending := by
  unfold State.sendLoads
  simp

@[simp] theorem sendStores_pending (s : State) (c m num b : Nat) (beat : List (Option Nat × Nat)) (data : List (Nat × List Byte)) :
    (State.sendStores s c m num b beat data).pending = s.pending := by
  unfold State.sendStores
  simp

@[simp] theorem readChunk_pending (s : State) (core : Nat) (o : MoverOp) (src : Option Nat) (arrived : List Byte) :
    (State.readChunk s core o src arrived).2.pending = s.pending := by
  unfold State.readChunk
  (repeat' split) <;> simp

@[simp] theorem readBeat_pending (s : State) (core : Nat) (o : MoverOp) (far : List (Nat × List Byte)) (x1 : List (Nat × Option Nat × Nat))
    (x2 : List Byte) : (State.readBeat s core o far x1 x2).2.pending = s.pending := by
  induction x1 generalizing s x2 with
  | nil => (unfold State.readBeat; simp)
  | cons a r ih =>
    unfold State.readBeat
    (repeat' (first | split | dsimp only)) <;> simp_all

@[simp] theorem askHost_pending (s : State) (xs : List (Nat × Nat)) : (State.askHost s xs).pending = s.pending := by
  unfold State.askHost
  refine foldl_pending _ _ _ ?_
  intro s f
  (repeat' (first | split | dsimp only)) <;> simp_all

theorem sendBeat_pending (s : State) (c m : Nat) (u : State) (h_u : State.sendBeat s c m = some u) : u.pending = s.pending := by
  unfold State.sendBeat at h_u
  repeat' (first | split at h_u | dsimp only at h_u)
  all_goals first
    | (simp at h_u; done)
    | (simp only [Option.some.injEq, Host.Outcome.next.injEq] at h_u; subst h_u; simp_all; done)
    | (simp_all; done)

@[simp] theorem sendBeats_pending (s : State) (c m : Nat) (n : Nat) : (s.sendBeats c m n).pending = s.pending := by
  induction n generalizing s with
  | zero => rfl
  | succ n ih =>
    unfold State.sendBeats
    split
    · rfl
    · split
      · rename_i t h
        rw [ih, sendBeat_pending _ _ _ _ h]
      · rfl

@[simp] theorem signalTiles_pending (s : State) (c m : Nat) : (State.signalTiles s c m).pending = s.pending := by
  unfold State.signalTiles
  (repeat' split) <;> simp

@[simp] theorem runMover_pending (s : State) (c m : Nat) : (State.runMover s c m).pending = s.pending := by
  unfold State.runMover
  simp

@[simp] theorem pushMover_pending (s : State) (c m : Nat) (o : MoverOp) : (State.pushMover s c m o).pending = s.pending := by
  unfold State.pushMover
  simp

@[simp] theorem runMovers_pending (s : State) (c : Nat) : (State.runMovers s c).pending = s.pending := by
  unfold State.runMovers
  simp

@[simp] theorem chargeMover_pending (s : State) (c : Nat) : (State.chargeMover s c).pending = s.pending := by
  unfold State.chargeMover
  simp

@[simp] theorem popMover_pending (s : State) (c m : Nat) : (State.popMover s c m).pending = s.pending := by
  unfold State.popMover
  simp

@[simp] theorem failMover_pending (s : State) (core m : Nat) (o : MoverOp) (t2 : List Nat) (t3 : Bool) :
    (State.failMover s core m o t2 t3).pending = s.pending := by
  unfold State.failMover
  (repeat' split) <;> (try simp_all) <;> (repeat rw [foldl_pending _ _ _ (by intros; (repeat' split) <;> simp)]) <;> simp

@[simp] theorem afterBeat_pending (s : State) (core m : Nat) (o : MoverOp) : (State.afterBeat s core m o).pending = s.pending := by
  unfold State.afterBeat
  simp

@[simp] theorem endBeat_pending (s : State) (core m : Nat) : (State.endBeat s core m).pending = s.pending := by
  unfold State.endBeat
  (repeat' (first | split | dsimp only)) <;> simp_all

@[simp] theorem writeBeat_pending (s : State) (core : Nat) (beat : List (Option Nat × Nat)) (data : List (Nat × List Byte)) :
    (State.writeBeat s core beat data).pending = s.pending := by
  unfold State.writeBeat
  simp

@[simp] theorem takeBeat_pending (s : State) (core m : Nat) (o : MoverOp) (arrived : List Byte) (failed : Bool) :
    (State.takeBeat s core m o arrived failed).pending = s.pending := by
  unfold State.takeBeat
  simp

@[simp] theorem farData_pending (s : State) (c m num b k : Nat) (data : List Byte) :
    (State.farData s c m num b k data).pending = s.pending := by
  unfold State.farData
  split <;> simp

@[simp] theorem farEnd_pending (s : State) (c m num b : Nat) (ok : Bool) : (State.farEnd s c m num b ok).pending = s.pending := by
  unfold State.farEnd
  (repeat' split) <;> simp

/-! ### Jobs -/

@[simp] theorem takeImage_pending (s : State) (j c : Nat) : (State.takeImage s j c).pending = s.pending := by
  unfold State.takeImage
  split <;> simp

@[simp] theorem startCore_pending (s : State) (j : Job) (c : Nat) : (State.startCore s j c).pending = s.pending := by
  unfold State.startCore
  simp

@[simp] theorem setPhase_pending (s : State) (w : Switch) (d : Nat) (p : SwitchPhase) : (State.setPhase s w d p).pending = s.pending := by
  unfold State.setPhase
  simp

@[simp] theorem cloakPut_pending (s : State) (off n : Nat) (cells : List Host.Cell) :
    (State.cloakPut s off n cells).pending = s.pending := by
  unfold State.cloakPut
  simp

@[simp] theorem saveCore_pending (s : State) (j slot c : Nat) : (State.saveCore s j slot c).pending = s.pending := by
  unfold State.saveCore
  simp

@[simp] theorem saveSram_pending (s : State) (j slot k : Nat) : (State.saveSram s j slot k).pending = s.pending := by
  unfold State.saveSram
  simp

@[simp] theorem readyCore_pending (s : State) (j c : Nat) : (State.readyCore s j c).pending = s.pending := by
  unfold State.readyCore
  simp

@[simp] theorem readySram_pending (s : State) (j k : Nat) : (State.readySram s j k).pending = s.pending := by
  unfold State.readySram
  (repeat' (first | split | dsimp only)) <;> simp_all

@[simp] theorem saveJob_pending (s : State) (d : Nat) (x : Nat × Nat) : (State.saveJob s d x).pending = s.pending := by
  unfold State.saveJob
  split <;> simp

@[simp] theorem suspendSaved_pending (s : State) (held : Bool) (x : Nat × Nat) : (State.suspendSaved s held x).pending = s.pending := by
  unfold State.suspendSaved
  split <;> simp

@[simp] theorem jobControl_pending (s : State) (op job : Nat) : (State.jobControl s op job).pending = s.pending := by
  unfold State.jobControl
  simp

/-! ### Units -/

@[simp] theorem rejectUnit_pending (s : State) (slot : Nat) : (State.rejectUnit s slot).pending = s.pending := by
  unfold State.rejectUnit
  simp

@[simp] theorem quiesceCore_pending (s : State) (c : Nat) : (State.quiesceCore s c).pending = s.pending := by
  unfold State.quiesceCore
  simp

@[simp] theorem releaseCore_pending (s : State) (c : Nat) : (State.releaseCore s c).pending = s.pending := by
  unfold State.releaseCore
  (repeat' (first | split | dsimp only)) <;> simp_all

@[simp] theorem clearEngine_pending (s : State) (slot : Nat) : (State.clearEngine s slot).pending = s.pending := by
  unfold State.clearEngine
  simp

@[simp] theorem ctrlUnit_pending (s : State) (w : UnitWrite) (slot : Nat) : (State.ctrlUnit s w slot).pending = s.pending := by
  unfold State.ctrlUnit
  (repeat' split) <;> simp

@[simp] theorem applyCtrl_pending (s : State) (w : UnitWrite) : (State.applyCtrl s w).pending = s.pending := by
  unfold State.applyCtrl
  simp

@[simp] theorem writeCtrl_pending (s : State) (w : UnitWrite) : (State.writeCtrl s w).pending = s.pending := by
  unfold State.writeCtrl
  simp

@[simp] theorem stageSlots_pending (s : State) (g i value : Nat) : (State.stageSlots s g i value).pending = s.pending := by
  unfold State.stageSlots
  simp

/-! ### Target -/

@[simp] theorem poisoned_pending (s : State) (reason : Nat) : (State.poisoned s reason).2.pending = s.pending := by
  unfold State.poisoned
  simp

@[simp] theorem enterMessage_pending (s : State) (r : Region) (q : MsgQueue) (m : Message) :
    (State.enterMessage s r q m).pending = s.pending := by
  unfold State.enterMessage
  simp

@[simp] theorem storeMessage_pending (s : State) (r : Region) (data : List Byte) : (State.storeMessage s r data).pending = s.pending := by
  unfold State.storeMessage
  simp

@[simp] theorem signalRegion_pending (s : State) (r : Region) : (State.signalRegion s r).pending = s.pending := by
  unfold State.signalRegion
  simp

@[simp] theorem queueMessage_pending (s : State) (r : Region) (hd : RequestHead) (data : List Byte) :
    (State.queueMessage s r hd data).pending = s.pending := by
  unfold State.queueMessage
  simp

@[simp] theorem applyRequest_pending (s : State) (ptype : Nat) (hd : RequestHead) (r : Region) (data : List Byte) :
    (State.applyRequest s ptype hd r data).2.pending = s.pending := by
  unfold State.applyRequest
  (repeat' split) <;> simp

@[simp] theorem refuseIn_pending (s : State) (hd : RequestHead) (reason : Nat) : (State.refuseIn s hd reason).2.pending = s.pending := by
  unfold State.refuseIn
  simp

@[simp] theorem noteAtomic_pending (s : State) (key : Nat) (hd : RequestHead) (a : Answer) :
    (State.noteAtomic s key hd a).pending = s.pending := by
  unfold State.noteAtomic
  simp

@[simp] theorem bankFound_pending (s : State) (r : BankReport) : (State.bankFound s r).pending = s.pending := by
  unfold State.bankFound
  split <;> simp

@[simp] theorem reachBank_pending (s : State) (ptype group : Nat) (hd : RequestHead) (r : Region) (data : List Byte) (report : BankReport) :
    (State.reachBank s ptype group hd r data report).2.pending = s.pending := by
  unfold State.reachBank
  simp

@[simp] theorem answerDuplicate_pending (s : State) (ptype group : Nat) (hd : RequestHead) :
    (State.answerDuplicate s ptype group hd).2.pending = s.pending := by
  unfold State.answerDuplicate
  (repeat' (first | split | dsimp only)) <;> simp_all

@[simp] theorem takeRequest_pending (s : State) (ptype group : Nat) (hd : RequestHead) (data : List Byte) (wait : Bool)
    (report : BankReport) : (State.takeRequest s ptype group hd data wait report).2.pending = s.pending := by
  unfold State.takeRequest
  (repeat' (first | split | dsimp only)) <;> simp_all

@[simp] theorem reply_pending (s : State) (hd : RequestHead) (a : Answer) : (State.reply s hd a).pending = s.pending := by
  unfold State.reply
  simp

@[simp] theorem returnCredits_pending (s : State) : (State.returnCredits s).pending = s.pending := by
  unfold State.returnCredits
  simp

@[simp] theorem settleIngress_pending (s : State) (x : Ingress) : (State.settleIngress s x).pending = s.pending := by
  unfold State.settleIngress
  simp

@[simp] theorem target_pending (s : State) (ptype group : Nat) (hd : RequestHead) (data : List Byte) (wait : TargetWait)
    (report : BankReport) : (State.target s ptype group hd data wait report).pending = s.pending := by
  unfold State.target
  (repeat' (first | split | dsimp only)) <;> simp_all

@[simp] theorem showTeardown_pending (s : State) (state job reason : Nat) :
    (State.showTeardown s state job reason).pending = s.pending := by
  unfold State.showTeardown
  simp

@[simp] theorem closeRegion_pending (s : State) (job i : Nat) : (State.closeRegion s job i).pending = s.pending := by
  unfold State.closeRegion
  split <;> simp

@[simp] theorem closeCredit_pending (s : State) (job i : Nat) : (State.closeCredit s job i).pending = s.pending := by
  unfold State.closeCredit
  simp

@[simp] theorem closeJobFabric_pending (s : State) (job : Nat) : (State.closeJobFabric s job).pending = s.pending := by
  unfold State.closeJobFabric
  simp only [foldl_pending _ _ _ fun s i => closeCredit_pending s _ i, foldl_pending _ _ _ fun s i => closeRegion_pending s _ i]

/-! ### KvCmds -/

@[simp] theorem endKv_pending (s : State) (t : Taken) (status : Nat) : (State.endKv s t status).pending = s.pending := by
  unfold State.endKv
  simp

@[simp] theorem onSequence_pending (s : State) (queue : Nat) (t : Taken) (cmd : Command) (legal : Bool) (k : State → Nat → State)
    (h_k : ∀ t y1, (k t y1).pending = t.pending) : (State.onSequence s queue t cmd legal k).pending = s.pending := by
  unfold State.onSequence
  (repeat' split) <;> simp_all

@[simp] theorem runOrHold_pending (s : State) (lg : Nat) (c : HeldCmd) (cd : CopyData) :
    (State.runOrHold s lg c cd).pending = s.pending := by
  unfold State.runOrHold
  simp

@[simp] theorem forgetRestore_pending (s : State) (h : Nat) : (State.forgetRestore s h).pending = s.pending := by
  unfold State.forgetRestore
  (repeat' split) <;> (try simp_all) <;> (repeat rw [foldl_pending _ _ _ (by intros; (repeat' split) <;> simp)]) <;> simp

@[simp] theorem ledgerFault_pending (s : State) (lg cause : Nat) : (State.ledgerFault s lg cause).pending = s.pending := by
  unfold State.ledgerFault
  simp

@[simp] theorem memberReply_pending (s : State) (lg kind handle record position : Nat) :
    (State.memberReply s lg kind handle record position).pending = s.pending := by
  unfold State.memberReply
  simp

@[simp] theorem memberOp_pending (s : State) (r : LedgerRecord) (o : LedgerOp) (cd : CopyData) :
    (State.memberOp s r o cd).1.pending = s.pending := by
  unfold State.memberOp
  simp

@[simp] theorem parkStoreFailed_pending (s : State) (a : Nat) : (State.parkStoreFailed s a).pending = s.pending := by
  unfold State.parkStoreFailed
  (repeat' (first | split | dsimp only)) <;> simp_all

@[simp] theorem notePins_pending (s : State) (r : LedgerRecord) : (State.notePins s r).pending = s.pending := by
  unfold State.notePins
  simp

@[simp] theorem applyRecord_pending (s : State) (r : LedgerRecord) (cd : CopyData) : (State.applyRecord s r cd).pending = s.pending := by
  unfold State.applyRecord
  simp

@[simp] theorem applyEarly_pending (s : State) (lg : Nat) (x1 : Nat) : (State.applyEarly s lg x1).pending = s.pending := by
  induction x1 generalizing s with
  | zero => (unfold State.applyEarly; rfl)
  | succ n ih =>
    unfold State.applyEarly
    (repeat' (first | split | dsimp only)) <;> simp_all

@[simp] theorem takeRecord_pending (s : State) (r : LedgerRecord) (cd : CopyData) : (State.takeRecord s r cd).pending = s.pending := by
  unfold State.takeRecord
  simp

/-! ### Fab -/

@[simp] theorem modRequest_pending (s : State) (tag seq : Nat) (f : Request → Request) :
    (State.modRequest s tag seq f).pending = s.pending := by
  unfold State.modRequest
  simp

@[simp] theorem ownCopy_pending (s : State) (p : Packet) : (State.ownCopy s p).2.pending = s.pending := by
  unfold State.ownCopy
  (repeat' (first | split | dsimp only)) <;> simp_all

@[simp] theorem endPacket_pending (s : State) (c num : Nat) (ok : Bool) : (State.endPacket s c num ok).pending = s.pending := by
  unfold State.endPacket
  split <;> simp

@[simp] theorem sendFab_pending (s : State) (c num : Nat) (x : Packet × Nat) : (State.sendFab s c num x).pending = s.pending := by
  unfold State.sendFab
  (repeat' (first | split | dsimp only)) <;> simp_all

@[simp] theorem settleFab_pending (s : State) (c : Nat) (x1 : Nat) : (State.settleFab s c x1).pending = s.pending := by
  induction x1 generalizing s with
  | zero => (unfold State.settleFab; rfl)
  | succ n ih =>
    unfold State.settleFab
    (repeat' (first | split | dsimp only)) <;> simp_all

@[simp] theorem settleCoreFab_pending (s : State) (c : Nat) : (State.settleCoreFab s c).pending = s.pending := by
  unfold State.settleCoreFab
  simp

@[simp] theorem landData_pending (s : State) (r : Request) (data : List Byte) : (State.landData s r data).pending = s.pending := by
  unfold State.landData
  (repeat' split) <;> simp

@[simp] theorem endBulkPacket_pending (s : State) (num bytes status : Nat) :
    (State.endBulkPacket s num bytes status).pending = s.pending := by
  unfold State.endBulkPacket
  simp

@[simp] theorem finishRequest_pending (s : State) (r : Request) (status : Nat) : (s.finishRequest r status).pending = s.pending := by
  unfold State.finishRequest
  (repeat' (first | split | dsimp only)) <;> simp

@[simp] theorem deadRequest_pending (s : State) (r : Request) : (State.deadRequest s r).pending = s.pending := by
  unfold State.deadRequest
  simp

theorem resend_pending (s : State) (r : Request) (avoid : List Nat) (count : Nat) (u : State) (h_u : State.resend s r avoid count = some u)
    : u.pending = s.pending := by
  unfold State.resend at h_u
  repeat' (first | split at h_u | dsimp only at h_u)
  all_goals first
    | (simp at h_u; done)
    | (simp only [Option.some.injEq, Host.Outcome.next.injEq] at h_u; subst h_u; simp_all; done)
    | (simp_all; done)

@[simp] theorem takeMark_pending (s : State) (p : Packet) (plane : Nat) (mark : Bool) :
    (State.takeMark s p plane mark).pending = s.pending := by
  unfold State.takeMark
  simp

@[simp] theorem lullUnreachable_pending (s : State) (hd : ResponseHead) : (State.lullUnreachable s hd).pending = s.pending := by
  unfold State.lullUnreachable
  split <;> simp

@[simp] theorem startFab_pending (s : State) (core : Nat) (signal : Option Nat) (dst : Nat) (group : Bool) (ptype : Nat)
    (pkts : List (Packet × Nat)) : (State.startFab s core signal dst group ptype pkts).pending = s.pending := by
  unfold State.startFab
  simp

@[simp] theorem spendCredit_pending (s : State) (entry : Option Nat) : (State.spendCredit s entry).pending = s.pending := by
  unfold State.spendCredit
  split <;> simp

theorem issueFab_pending (s : State) (core : Nat) (mine : Nat → Bool) (vars : Nat) (f : FabForm) (u : State)
    (h_u : State.issueFab s core mine vars f = .next u) : u.pending = s.pending := by
  unfold State.issueFab at h_u
  cases h_u
  simp [State.fabPlan]

@[simp] theorem setBqPos_pending (s : State) (index phase : Field) (p : Nat) : (State.setBqPos s index phase p).pending = s.pending := by
  unfold State.setBqPos
  simp

@[simp] theorem sendBulk_pending (s : State) (b : Bulk) : (State.sendBulk s b).pending = s.pending := by
  unfold State.sendBulk
  simp

@[simp] theorem takeBulk_pending (s : State) (host : List Byte) (mine : Nat → Bool) : (State.takeBulk s host mine).pending = s.pending := by
  unfold State.takeBulk
  simp

/-! ### Port -/

@[simp] theorem reroute_pending (s : State) (x : List (Nat × Nat)) (p : Packet) : (State.reroute s x p).2.pending = s.pending := by
  unfold State.reroute
  simp

@[simp] theorem rebind_pending (s : State) (port : Nat) (x : List (Nat × Nat)) : (State.rebind s port x).pending = s.pending := by
  unfold State.rebind
  simp

@[simp] theorem rerouteLink_pending (s : State) (port : Nat) : (State.rerouteLink s port).pending = s.pending := by
  unfold State.rerouteLink
  simp

@[simp] theorem planesFell_pending (s : State) (before : Nat) : (State.planesFell s before).pending = s.pending := by
  unfold State.planesFell
  simp

@[simp] theorem setPort_pending (s : State) (port st : Nat) : (State.setPort s port st).pending = s.pending := by
  unfold State.setPort
  simp

@[simp] theorem coolPlane_pending (s : State) (p : Nat) : (State.coolPlane s p).pending = s.pending := by
  unfold State.coolPlane
  simp

@[simp] theorem portUp_pending (s : State) (port st : Nat) : (State.portUp s port st).pending = s.pending := by
  unfold State.portUp
  simp

@[simp] theorem discardFlit_pending (s : State) (port : Nat) : (State.discardFlit s port).pending = s.pending := by
  unfold State.discardFlit
  simp

@[simp] theorem acceptFlit_pending (s : State) (port : Nat) (flit : List Byte) : (State.acceptFlit s port flit).pending = s.pending := by
  unfold State.acceptFlit
  simp

@[simp] theorem replay_pending (s : State) (port : Nat) : (State.replay s port).pending = s.pending := by
  unfold State.replay
  (repeat' split) <;> (try simp_all) <;> (repeat rw [foldl_pending _ _ _ (by intros; (repeat' split) <;> simp)]) <;> simp

@[simp] theorem rejectFab_pending (s : State) : (State.rejectFab s).pending = s.pending := by
  unfold State.rejectFab
  simp

/-! ### Rate -/

@[simp] theorem showRate_pending (s : State) : (State.showRate s).pending = s.pending := by
  unfold State.showRate
  simp

@[simp] theorem showCapped_pending (s : State) : (State.showCapped s).pending = s.pending := by
  unfold State.showCapped
  simp

@[simp] theorem retarget_pending (s : State) (limited : Bool) : (State.retarget s limited).pending = s.pending := by
  unfold State.retarget
  simp

@[simp] theorem setRails_pending (s : State) (mv : Nat) : (State.setRails s mv).pending = s.pending := by
  unfold State.setRails
  simp

@[simp] theorem gustGovern_pending (s : State) : (State.gustGovern s).pending = s.pending := by
  unfold State.gustGovern
  simp

@[simp] theorem recap_pending (s : State) : (State.recap s).pending = s.pending := by
  unfold State.recap
  simp

@[simp] theorem enterGust_pending (s : State) : (State.enterGust s).pending = s.pending := by
  unfold State.enterGust
  simp

@[simp] theorem enterBreeze_pending (s : State) (r : Nat) : (State.enterBreeze s r).pending = s.pending := by
  unfold State.enterBreeze
  simp

@[simp] theorem enterMode_pending (s : State) (mode rate : Nat) : (State.enterMode s mode rate).pending = s.pending := by
  unfold State.enterMode
  simp

@[simp] theorem rejectRate_pending (s : State) (cause : Nat) : (State.rejectRate s cause).pending = s.pending := by
  unfold State.rejectRate
  simp

@[simp] theorem requestRate_pending (s : State) (mode rate : Nat) : (State.requestRate s mode rate).pending = s.pending := by
  unfold State.requestRate
  simp

@[simp] theorem raiseRail_pending (s : State) (mv : Nat) : (State.raiseRail s mv).pending = s.pending := by
  unfold State.raiseRail
  simp

@[simp] theorem breezeGovern_pending (s : State) : (State.breezeGovern s).pending = s.pending := by
  unfold State.breezeGovern
  simp

@[simp] theorem paceUp_pending (s : State) : (State.paceUp s).pending = s.pending := by
  unfold State.paceUp
  simp

@[simp] theorem paceDown_pending (s : State) (least : Nat) : (State.paceDown s least).pending = s.pending := by
  unfold State.paceDown
  simp

/-! ### Power -/

@[simp] theorem meterInputs_pending (s : State) (main backup : Nat) : (State.meterInputs s main backup).pending = s.pending := by
  unfold State.meterInputs
  simp

@[simp] theorem switchInput_pending (s : State) (input : Nat) : (State.switchInput s input).pending = s.pending := by
  unfold State.switchInput
  simp

@[simp] theorem emergencyRecord_pending (s : State) (mv : Nat) : (State.emergencyRecord s mv).pending = s.pending := by
  unfold State.emergencyRecord
  simp

@[simp] theorem commitFull_pending (s : State) (x1 : Nat) : (State.commitFull s x1).pending = s.pending := by
  induction x1 generalizing s with
  | zero => (unfold State.commitFull; rfl)
  | succ n ih =>
    unfold State.commitFull
    (repeat' (first | split | dsimp only)) <;> simp_all

@[simp] theorem lasersOff_pending (s : State) : (State.lasersOff s).pending = s.pending := by
  unfold State.lasersOff
  simp

@[simp] theorem modPersist_pending (s : State) (f : Persist → Persist) : (State.modPersist s f).pending = s.pending := by
  unfold State.modPersist
  simp

@[simp] theorem writeDue_pending (s : State) : (State.writeDue s).pending = s.pending := by
  unfold State.writeDue
  simp

@[simp] theorem computeOff_pending (s : State) : (State.computeOff s).pending = s.pending := by
  unfold State.computeOff
  simp

@[simp] theorem railsOff_pending (s : State) : (State.railsOff s).pending = s.pending := by
  unfold State.railsOff
  simp

@[simp] theorem takeLease_pending (s : State) (budget number : Nat) : (State.takeLease s budget number).2.pending = s.pending := by
  unfold State.takeLease
  simp

@[simp] theorem enableTailwind_pending (s : State) (grp : Nat) : (State.enableTailwind s grp).pending = s.pending := by
  unfold State.enableTailwind
  simp

@[simp] theorem keepReport_pending (s : State) (window : Nat) (r : TwReport) : (State.keepReport s window r).pending = s.pending := by
  unfold State.keepReport
  simp

@[simp] theorem giveGrant_pending (s : State) (dst : Nat) (group : Bool) (members watts expiry : Nat) :
    (State.giveGrant s dst group members watts expiry).pending = s.pending := by
  unfold State.giveGrant
  simp

@[simp] theorem setThermal_pending (s : State) (st : Nat) : (State.setThermal s st).pending = s.pending := by
  unfold State.setThermal
  simp

@[simp] theorem readFray_pending (s : State) (m n : Nat) : (State.readFray s m n).pending = s.pending := by
  unfold State.readFray
  simp

@[simp] theorem measureFray_pending (s : State) (counts : List Nat) : (State.measureFray s counts).pending = s.pending := by
  unfold State.measureFray
  simp

@[simp] theorem startRefit_pending (s : State) : (State.startRefit s).pending = s.pending := by
  unfold State.startRefit
  simp

@[simp] theorem showMargin_pending (s : State) (m : Int) : (State.showMargin s m).pending = s.pending := by
  unfold State.showMargin
  simp

@[simp] theorem writeRefit_pending (s : State) (d : Int) (atStart : Bool) : (State.writeRefit s d atStart).pending = s.pending := by
  unfold State.writeRefit
  simp

@[simp] theorem obeyRefit_pending (s : State) : (State.obeyRefit s).pending = s.pending := by
  unfold State.obeyRefit
  simp

/-! ### Brilo -/

@[simp] theorem modBrilo_pending (s : State) (f : Brilo → Brilo) : (State.modBrilo s f).pending = s.pending := by
  unfold State.modBrilo
  simp

@[simp] theorem coreRestart_pending (s : State) : (State.coreRestart s).pending = s.pending := by
  unfold State.coreRestart
  simp

@[simp] theorem dueRestart_pending (s : State) : (State.dueRestart s).pending = s.pending := by
  unfold State.dueRestart
  simp

@[simp] theorem setImage_pending (s : State) (i : Nat) (im : Image) : (State.setImage s i im).pending = s.pending := by
  unfold State.setImage
  simp

@[simp] theorem drainQueue_pending (s : State) : (State.drainQueue s).pending = s.pending := by
  unfold State.drainQueue
  simp

@[simp] theorem runImage_pending (s : State) (i : Nat) : (State.runImage s i).pending = s.pending := by
  unfold State.runImage
  simp

@[simp] theorem enterRecovery_pending (s : State) (cause : Nat) : (State.enterRecovery s cause).pending = s.pending := by
  unfold State.enterRecovery
  simp

@[simp] theorem message_pending (s : State) (binding ep : Nat) (inRecovery : Bool) (k : State → List Nat × State)
    (h_k : ∀ t, (k t).2.pending = t.pending) : (State.message s binding ep inRecovery k).pending = s.pending := by
  unfold State.message
  (repeat' split) <;> simp_all

@[simp] theorem pldmCmd_pending (s : State) (binding ep type cmd : Nat) (k : State → Nat × List Nat × State)
    (h_k : ∀ t, (k t).2.2.pending = t.pending) : (State.pldmCmd s binding ep type cmd k).pending = s.pending := by
  unfold State.pldmCmd
  (repeat' split) <;> simp_all

@[simp] theorem updateCmd_pending (s : State) (binding ep cmd : Nat) (k : State → Nat × List Nat × State)
    (h_k : ∀ t, (k t).2.2.pending = t.pending) : (State.updateCmd s binding ep cmd k).pending = s.pending := by
  unfold State.updateCmd
  (repeat' split) <;> simp_all

@[simp] theorem sensorValue_pending (s : State) (id : Nat) : (State.sensorValue s id).2.pending = s.pending := by
  unfold State.sensorValue
  simp

@[simp] theorem agentCmd_pending (s : State) (binding ep cmd : Nat) (k : State → Update → Nat × List Nat × State)
    (h_k : ∀ t y1, (k t y1).2.2.pending = t.pending) : (State.agentCmd s binding ep cmd k).pending = s.pending := by
  unfold State.agentCmd
  refine updateCmd_pending _ _ _ _ _ fun t => ?_
  split
  · simp [h_k]
  · rfl

@[simp] theorem setUpdate_pending (s : State) (u : Option Update) : (State.setUpdate s u).pending = s.pending := by
  unfold State.setUpdate
  simp

@[simp] theorem askData_pending (s : State) (u : Update) : (State.askData s u).pending = s.pending := by
  unfold State.askData
  simp

@[simp] theorem verifyUpdate_pending (s : State) (u : Update) : (State.verifyUpdate s u).pending = s.pending := by
  unfold State.verifyUpdate
  simp

@[simp] theorem dropSlot_pending (s : State) (u : Update) : (State.dropSlot s u).pending = s.pending := by
  unfold State.dropSlot
  split <;> simp

@[simp] theorem spdm_pending (s : State) (binding ep : Nat) (k : State → List Nat × State) (h_k : ∀ t, (k t).2.pending = t.pending) :
    (State.spdm s binding ep k).pending = s.pending := by
  unfold State.spdm
  (repeat' split) <;> simp_all

@[simp] theorem setSpdmPhase_pending (s : State) (binding ep n : Nat) : (State.setSpdmPhase s binding ep n).pending = s.pending := by
  unfold State.setSpdmPhase
  simp

@[simp] theorem spdmAfter_pending (s : State) (binding ep n : Nat) (k : State → List Nat × State) (h_k : ∀ t, (k t).2.pending = t.pending) :
    (State.spdmAfter s binding ep n k).pending = s.pending := by
  unfold State.spdmAfter
  (repeat' split) <;> simp_all

@[simp] theorem secured_pending (s : State) (binding ep : Nat) (k : State → Session → List Nat × State)
    (h_k : ∀ t y1, (k t y1).2.pending = t.pending) : (State.secured s binding ep k).pending = s.pending := by
  unfold State.secured
  split
  · rfl
  · refine spdm_pending _ _ _ _ fun t => ?_
    split
    · exact h_k _ _
    · rfl

@[simp] theorem dropSession_pending (s : State) (binding ep : Nat) : (State.dropSession s binding ep).pending = s.pending := by
  unfold State.dropSession
  simp

/-! ### MemCmds -/

@[simp] theorem afterScan_pending (s : State) (off : Nat) (bs : List Byte) : (State.afterScan s off bs).2.pending = s.pending := by
  unfold State.afterScan
  simp

@[simp] theorem writeBack_pending (s : State) (x : Nat × Nat) : (State.writeBack s x).pending = s.pending := by
  unfold State.writeBack
  simp

@[simp] theorem beginFlush_pending (s : State) : (State.beginFlush s).pending = s.pending := by
  unfold State.beginFlush
  simp

@[simp] theorem rejectEntry_pending (s : State) : (State.rejectEntry s).pending = s.pending := by
  unfold State.rejectEntry
  simp

/-! ### Start -/

@[simp] theorem loadPersist_pending (s : State) : (State.loadPersist s).pending = s.pending := by
  unfold State.loadPersist
  (repeat' split) <;> (try simp_all) <;> (repeat rw [foldl_pending _ _ _ (by intros; (repeat' split) <;> simp)]) <;> simp

@[simp] theorem moduleReset_pending (s : State) : (State.moduleReset s).pending = s.pending := by
  unfold State.moduleReset
  split <;> simp

@[simp] theorem toStage_pending (s : State) (n : Nat) : (State.toStage s n).pending = s.pending := by
  unfold State.toStage
  simp

@[simp] theorem failStart_pending (s : State) (cause : Nat) : (State.failStart s cause).pending = s.pending := by
  unfold State.failStart
  simp

@[simp] theorem showEntries_pending (s : State) : (State.showEntries s).pending = s.pending := by
  unfold State.showEntries
  simp

@[simp] theorem loadColumn_pending (s : State) (c : Nat) (x : Nat × Nat) : (State.loadColumn s c x).pending = s.pending := by
  unfold State.loadColumn
  split <;> simp

@[simp] theorem loadLane_pending (s : State) (c : Nat) (x : Nat × Nat) : (State.loadLane s c x).pending = s.pending := by
  unfold State.loadLane
  simp

@[simp] theorem loadRepair_pending (s : State) (c : Nat) (es : List RepairEntry) (retired : Bool) :
    (State.loadRepair s c es retired).pending = s.pending := by
  unfold State.loadRepair
  split <;> simp

@[simp] theorem clearRepair_pending (s : State) : (State.clearRepair s).pending = s.pending := by
  unfold State.clearRepair
  simp

@[simp] theorem repairUnit_pending (s : State) (all : List RepairEntry) (bad : List Nat) (u : Nat) :
    (State.repairUnit s all bad u).pending = s.pending := by
  unfold State.repairUnit
  split <;> simp

@[simp] theorem applyRepair_pending (s : State) (all : List RepairEntry) (bad : List Nat) :
    (State.applyRepair s all bad).pending = s.pending := by
  unfold State.applyRepair
  rw [foldl_pending _ _ _ fun s u => repairUnit_pending s _ _ u, clearRepair_pending]

@[simp] theorem startMode_pending (s : State) : (State.startMode s).pending = s.pending := by
  unfold State.startMode
  simp

@[simp] theorem showLast_pending (s : State) : (State.showLast s).pending = s.pending := by
  unfold State.showLast
  (repeat' split) <;> (try simp_all) <;> (repeat rw [foldl_pending _ _ _ (by intros; (repeat' split) <;> simp)]) <;> simp

@[simp] theorem publishRuns_pending (s : State) : (State.publishRuns s).pending = s.pending := by
  unfold State.publishRuns
  exact foldl_pending _ _ _ fun s u => setFld_pending _ _ _ _

@[simp] theorem publishTests_pending (s : State) : (State.publishTests s).pending = s.pending := by
  unfold State.publishTests
  simp

@[simp] theorem publish_pending (s : State) : (State.publish s).pending = s.pending := by
  unfold State.publish
  rw [setFld_pending, setFld_pending, publishTests_pending, publishRuns_pending, showLast_pending]

@[simp] theorem remember_pending (s : State) : (State.remember s).pending = s.pending := by
  unfold State.remember
  simp

@[simp] theorem beginShutdown_pending (s : State) (skip : Bool) : (State.beginShutdown s skip).pending = s.pending := by
  unfold State.beginShutdown
  simp

@[simp] theorem inPhase_pending (s : State) (n : Nat) (k : Shutdown → State) (h_k : ∀ y0, (k y0).pending = s.pending) :
    (State.inPhase s n k).pending = s.pending := by
  unfold State.inPhase
  (repeat' split) <;> simp_all

@[simp] theorem toPhase_pending (s : State) (d : Shutdown) (n : Nat) : (State.toPhase s d n).pending = s.pending := by
  unfold State.toPhase
  simp

@[simp] theorem clearSecrets_pending (s : State) : (State.clearSecrets s).pending = s.pending := by
  unfold State.clearSecrets
  simp

@[simp] theorem endSlice_pending (s : State) (d : Shutdown) (result ms : Nat) (faults : List RepairEntry) (stopped : Bool) :
    (State.endSlice s d result ms faults stopped).pending = s.pending := by
  unfold State.endSlice
  simp

/-! ### Serving -/

@[simp] theorem admitCmd_pending (s : State) (cmd : Command) (p : List Byte) (token : Nat) (t : Taken) :
    (State.admitCmd s cmd p token t).pending = s.pending := by
  unfold State.admitCmd
  dsimp only
  split
  · simp
  · rename_i d hd
    have := Decision_obtain_pending _ _ _ _ _ _ _ hd
    simp [this]

@[simp] theorem sendBatch_pending (s : State) (b : Batch) : (State.sendBatch s b).pending = s.pending := by
  unfold State.sendBatch
  simp

@[simp] theorem signalIteration_pending (s : State) (lg : Nat) : (State.signalIteration s lg).pending = s.pending := by
  unfold State.signalIteration
  simp

@[simp] theorem setSample_pending (s : State) (lg : Nat) (x : RowSample) : (State.setSample s lg x).pending = s.pending := by
  unfold State.setSample
  simp

@[simp] theorem takePartial_pending (s : State) (lg batch row ep : Nat) (p : Partial) :
    (State.takePartial s lg batch row ep p).pending = s.pending := by
  unfold State.takePartial
  simp

@[simp] theorem applyBatch_pending (s : State) (b : Batch) : (State.applyBatch s b).pending = s.pending := by
  unfold State.applyBatch
  simp

@[simp] theorem applyEarlyBatches_pending (s : State) (lg : Nat) (x1 : Nat) : (State.applyEarlyBatches s lg x1).pending = s.pending := by
  induction x1 generalizing s with
  | zero => (unfold State.applyEarlyBatches; rfl)
  | succ n ih =>
    unfold State.applyEarlyBatches
    (repeat' (first | split | dsimp only)) <;> simp_all

@[simp] theorem descriptorArrives_pending (s : State) (lg : Nat) (batch : Batch) :
    (State.descriptorArrives s lg batch).pending = s.pending := by
  unfold State.descriptorArrives
  simp

@[simp] theorem partialArrives_pending (s : State) (ledger batch row ep : Nat) (part : Partial) :
    (State.partialArrives s ledger batch row ep part).pending = s.pending := by
  unfold State.partialArrives
  simp

theorem issueBlock_pending (s : State) (core op func : Nat) (mine : Nat → Bool) (size : Nat → Nat) (bad : State → Nat → Nat → Bool)
    (ranges : State → Nat → Nat → List (Nat × Nat)) (u : State) (h_u : State.issueBlock s core op func mine size bad ranges = .next u) :
    u.pending = s.pending := by
  unfold State.issueBlock at h_u
  repeat' (first | split at h_u | dsimp only at h_u)
  all_goals first
    | (simp at h_u; done)
    | (simp only [Option.some.injEq, Host.Outcome.next.injEq] at h_u; subst h_u; simp_all; done)
    | (simp_all; done)

theorem pageRequest_pending (s : State) (core blk : Nat) (u : State) (h_u : State.pageRequest s core blk = some u) :
    u.pending = s.pending := by
  unfold State.pageRequest at h_u
  repeat' (first | split at h_u | dsimp only at h_u)
  all_goals first
    | (simp at h_u; done)
    | (simp only [Option.some.injEq, Host.Outcome.next.injEq] at h_u; subst h_u; simp_all; done)
    | (simp_all; done)

theorem appendRow_pending (s : State) (core blk : Nat) (u : State) (h_u : State.appendRow s core blk = some u) : u.pending = s.pending := by
  unfold State.appendRow at h_u
  repeat' (first | split at h_u | dsimp only at h_u)
  all_goals first
    | (simp at h_u; done)
    | (simp only [Option.some.injEq, Host.Outcome.next.injEq] at h_u; subst h_u; simp_all; done)
    | (simp_all; done)

theorem doEntries_pending (s : State) (f : State → Nat → Option State) (hf : ∀ s b u, f s b = some u → u.pending = s.pending)
    (blk n : Nat) : (s.doEntries f blk n).1.pending = s.pending := by
  induction n generalizing s blk with
  | zero => rfl
  | succ n ih =>
    unfold State.doEntries
    split
    · rename_i h
      exact (ih _ _).trans (hf _ _ _ h)
    · rfl

@[simp] theorem doEntries_pageRequest_pending (s : State) (core blk n : Nat) :
    (s.doEntries (fun s a => s.pageRequest core a) blk n).1.pending = s.pending :=
  doEntries_pending _ _ (fun s b u h => pageRequest_pending s core b u h) _ _
@[simp] theorem doEntries_appendRow_pending (s : State) (core blk n : Nat) :
    (s.doEntries (fun s a => s.appendRow core a) blk n).1.pending = s.pending :=
  doEntries_pending _ _ (fun s b u h => appendRow_pending s core b u h) _ _

@[simp] theorem takeSlice_pending (s : State) (lg core func : Nat) (b : Batch) (step first width logits row k : Nat) :
    (State.takeSlice s lg core func b step first width logits row k).pending = s.pending := by
  unfold State.takeSlice
  simp

@[simp] theorem takeLogits_pending (s : State) (core : Nat) (o : EngineOp) : (State.takeLogits s core o).pending = s.pending := by
  unfold State.takeLogits
  (repeat' (first | split | dsimp only)) <;> simp_all

@[simp] theorem sendReport_pending (s : State) (lg batch : Nat) (props : List (Nat × Nat × Nat)) (res : List ResultRow) :
    (State.sendReport s lg batch props res).pending = s.pending := by
  unfold State.sendReport
  simp

@[simp] theorem endReport_pending (s : State) (lg : Nat) (b : Batch) (cd : CopyData) : (State.endReport s lg b cd).pending = s.pending := by
  unfold State.endReport
  simp

@[simp] theorem recordDone_pending (s : State) (core lg : Nat) (cd : CopyData) : (State.recordDone s core lg cd).pending = s.pending := by
  unfold State.recordDone
  (repeat' (first | split | dsimp only)) <;> simp_all

theorem seWork_pending (s : State) (core : Nat) (o : EngineOp) (cd : CopyData) (u : (State × Bool))
    (h_u : State.seWork s core o cd = some u) : u.1.pending = s.pending := by
  unfold State.seWork at h_u
  repeat' (first | split at h_u | dsimp only at h_u)
  all_goals first
    | (simp at h_u; done)
    | (cases h_u; simp; done)
    | (simp_all; done)

@[simp] theorem endEngineOp_pending (s : State) (core : Nat) (o : EngineOp) (ok : Bool) (cause : Nat) :
    (State.endEngineOp s core o ok cause).pending = s.pending := by
  unfold State.endEngineOp
  simp

/-! ### Exchange -/

@[simp] theorem xeEvt_pending (s : State) (f : Field) : (State.xeEvt s f).pending = s.pending := by
  unfold State.xeEvt
  simp

@[simp] theorem writePresence_pending (s : State) (x p l : Nat) (got : List Nat) :
    (State.writePresence s x p l got).pending = s.pending := by
  unfold State.writePresence
  simp

@[simp] theorem fillReturns_pending (s : State) (x : Nat) (z : XeSource) : (State.fillReturns s x z).pending = s.pending := by
  unfold State.fillReturns
  simp

@[simp] theorem completeHalves_pending (s : State) (x p : Nat) : (State.completeHalves s x p).pending = s.pending := by
  unfold State.completeHalves
  simp

@[simp] theorem signalHalves_pending (s : State) (x : Nat) (x1 : Nat) : (State.signalHalves s x x1).pending = s.pending := by
  induction x1 generalizing s with
  | zero => (unfold State.signalHalves; rfl)
  | succ n ih =>
    unfold State.signalHalves
    (repeat' (first | split | dsimp only)) <;> simp_all

@[simp] theorem advanceXe_pending (s : State) (x p : Nat) : (State.advanceXe s x p).pending = s.pending := by
  unfold State.advanceXe
  simp

@[simp] theorem countStale_pending (s : State) : (State.countStale s).pending = s.pending := by
  unfold State.countStale
  simp

@[simp] theorem rowArrives_pending (s : State) (ep : Nat) (r : ExchangeRow) (data : List Byte) :
    (State.rowArrives s ep r data).pending = s.pending := by
  unfold State.rowArrives
  (repeat' (first | split | dsimp only)) <;> simp_all

@[simp] theorem returnMark_pending (s : State) (ep : Nat) (m : ExchangeMark) : (State.returnMark s ep m).pending = s.pending := by
  unfold State.returnMark
  (repeat' (first | split | dsimp only)) <;> simp_all

@[simp] theorem putRefused_pending (s : State) (c index : Nat) : (State.putRefused s c index).pending = s.pending := by
  unfold State.putRefused
  simp

@[simp] theorem sendClose_pending (s : State) (c index ep : Nat) (m : ExchangeMark) :
    (State.sendClose s c index ep m).pending = s.pending := by
  unfold State.sendClose
  simp

@[simp] theorem dispatchMark_pending (s : State) (ep : Nat) (m : ExchangeMark) : (State.dispatchMark s ep m).pending = s.pending := by
  unfold State.dispatchMark
  simp

@[simp] theorem markArrives_pending (s : State) (ep : Nat) (m : ExchangeMark) : (State.markArrives s ep m).pending = s.pending := by
  unfold State.markArrives
  (repeat' (first | split | dsimp only)) <;> simp_all

@[simp] theorem rowPacket_pending (s : State) (ep : Nat) (r : ExchangeRow) (first : Nat) (data : List Byte) :
    (State.rowPacket s ep r first data).pending = s.pending := by
  unfold State.rowPacket
  (repeat' (first | split | dsimp only)) <;> simp_all

@[simp] theorem sendRowTo_pending (s : State) (who : Nat × Nat) (ep : Nat) (r : ExchangeRow) (data : List Byte) :
    (State.sendRowTo s who ep r data).pending = s.pending := by
  unfold State.sendRowTo
  simp

@[simp] theorem sendMarkTo_pending (s : State) (who : Nat × Nat) (ep : Nat) (m : ExchangeMark) :
    (State.sendMarkTo s who ep m).pending = s.pending := by
  unfold State.sendMarkTo
  simp

@[simp] theorem overflowRow_pending (s : State) : (State.overflowRow s).pending = s.pending := by
  unfold State.overflowRow
  simp

@[simp] theorem sendPick_pending (s v : State) (core blk index x p src : Nat) (k : Pick) :
    (State.sendPick s v core blk index x p src k).pending = s.pending := by
  unfold State.sendPick
  simp

@[simp] theorem sendEnd_pending (s v : State) (core index x p src : Nat) (sent : List Pick) (e : Nat) :
    (State.sendEnd s v core index x p src sent e).pending = s.pending := by
  unfold State.sendEnd
  simp

theorem dispatch_pending (s : State) (core : Nat) (o : EngineOp) (u : State) (h_u : State.dispatch s core o = some u) :
    u.pending = s.pending := by
  unfold State.dispatch at h_u
  repeat' (first | split at h_u | dsimp only at h_u)
  all_goals first
    | (simp at h_u; done)
    | (simp only [Option.some.injEq, Host.Outcome.next.injEq] at h_u; subst h_u; simp_all; done)
    | (simp_all; done)

@[simp] theorem returnSlotRow_pending (s : State) (core index x p lexp slot src : Nat) :
    (State.returnSlotRow s core index x p lexp slot src).pending = s.pending := by
  unfold State.returnSlotRow
  (repeat' (first | split | dsimp only)) <;> simp_all

@[simp] theorem closeExperts_pending (s : State) (core index x p : Nat) (closes : List Nat) :
    (State.closeExperts s core index x p closes).pending = s.pending := by
  unfold State.closeExperts
  simp

theorem giveBack_pending (s : State) (core : Nat) (o : EngineOp) (u : State) (h_u : State.giveBack s core o = some u) :
    u.pending = s.pending := by
  unfold State.giveBack at h_u
  repeat' (first | split at h_u | dsimp only at h_u)
  all_goals first
    | (simp at h_u; done)
    | (simp only [Option.some.injEq, Host.Outcome.next.injEq] at h_u; subst h_u; simp_all; done)
    | (simp_all; done)

/-! ### Gsc -/

@[simp] theorem modSync_pending (s : State) (f : GscSync → GscSync) : (State.modSync s f).pending = s.pending := by
  unfold State.modSync
  simp

@[simp] theorem timingTake_pending (s : State) (hd : PacketHead) (k : State → State) (h_k : ∀ t, (k t).pending = t.pending) :
    (State.timingTake s hd k).pending = s.pending := by
  unfold State.timingTake
  (repeat' split) <;> simp_all

@[simp] theorem gmConflict_pending (s : State) : (State.gmConflict s).pending = s.pending := by
  unfold State.gmConflict
  simp

@[simp] theorem hearMaster_pending (s : State) (gm : Nat) : (State.hearMaster s gm).pending = s.pending := by
  unfold State.hearMaster
  simp

@[simp] theorem unlock_pending (s : State) (st : Nat) : (State.unlock s st).pending = s.pending := by
  unfold State.unlock
  simp

@[simp] theorem stepGsc_pending (s : State) (m : Int) : (State.stepGsc s m).pending = s.pending := by
  unfold State.stepGsc
  simp

@[simp] theorem takeMedian_pending (s : State) (m : Int) : (State.takeMedian s m).pending = s.pending := by
  unfold State.takeMedian
  simp

@[simp] theorem slewStep_pending (s : State) : (State.slewStep s).2.pending = s.pending := by
  unfold State.slewStep
  simp

@[simp] theorem tick_pending (s : State) : (State.tick s).pending = s.pending := by
  unfold State.tick
  simp

/-! ### Lull -/

@[simp] theorem arbiterTally_pending (s : State) (src : Nat) (p : Suspect) (cause events : Nat) :
    (State.arbiterTally s src p cause events).pending = s.pending := by
  unfold State.arbiterTally
  simp

@[simp] theorem sendTally_pending (s : State) (x : Nat × LullEntry) : (State.sendTally s x).pending = s.pending := by
  unfold State.sendTally
  simp

/-! ### Sync -/

@[simp] theorem sendSignals_pending (s : State) (c event : Nat) (targets : List Nat) :
    (State.sendSignals s c event targets).pending = s.pending := by
  unfold State.sendSignals
  simp

@[simp] theorem applyClaim_pending (s : State) (tile c : Nat) : (State.applyClaim s tile c).pending = s.pending := by
  unfold State.applyClaim
  split <;> simp

/-! ### Host -/

@[simp] theorem clearBit_pending (s : State) (f : Field) (i : Nat) : (State.clearBit s f i).pending = s.pending := by
  unfold State.clearBit
  simp

@[simp] theorem writeField_pending (s : State) (offset bytes : Nat) (f : Field) (i v : Nat) :
    (State.writeField s offset bytes f i v).pending = s.pending := by
  unfold State.writeField
  split <;> simp

@[simp] theorem afterWrite_pending (s : State) (offset : Nat) : (State.afterWrite s offset).pending = s.pending := by
  unfold State.afterWrite
  simp

@[simp] theorem holdBeat_pending (s : State) (k held fails : Nat) : (State.holdBeat s k held fails).pending = s.pending := by
  unfold State.holdBeat
  simp

/-! ### Vrw -/

theorem issueVrw_pending (s : State) (core : Nat) (mine : Nat → Bool) (last : Nat) (u : State)
    (h_u : State.issueVrw s core mine last = .next u) : u.pending = s.pending := by
  unfold State.issueVrw at h_u
  repeat' (first | split at h_u | dsimp only at h_u)
  all_goals first
    | (simp at h_u; done)
    | (simp only [Option.some.injEq, Host.Outcome.next.injEq] at h_u; subst h_u; simp_all; done)
    | (simp_all; done)

@[simp] theorem chargeVrw_pending (s : State) (c n : Nat) : (State.chargeVrw s c n).pending = s.pending := by
  unfold State.chargeVrw
  simp

@[simp] theorem vrwWrite_pending (s : State) (c : Nat) (o : VrwOp) : (State.vrwWrite s c o).pending = s.pending := by
  unfold State.vrwWrite
  simp

end Sys2Proof.Machine.State
end

