-- ==== Sys2Proof/Laws/Untouched.lean ====
section
/-! SUPPORT. The operations that leave the bytes of memory alone, and those that leave the stacks behind the staging caches alone as
well: one lemma for each, in the order of the files of Machine. -/

namespace Sys2Proof.Machine.State

set_option linter.unusedTactic false
set_option linter.unreachableTactic false
set_option linter.unnecessarySeqFocus false
set_option linter.unusedSimpArgs false

@[simp] theorem ite_mem (c : Prop) [Decidable c] (a b : State) : (if c then a else b).mem = if c then a.mem else b.mem := by split <;> rfl
@[simp] theorem ite_stack (c : Prop) [Decidable c] (a b : State) : (if c then a else b).stack = if c then a.stack else b.stack := by
  split <;> rfl
@[simp] theorem ite_snd_mem {β : Type} (c : Prop) [Decidable c] (a b : β × State) :
    (if c then a else b).2.mem = if c then a.2.mem else b.2.mem := by split <;> rfl
@[simp] theorem ite_snd_stack {β : Type} (c : Prop) [Decidable c] (a b : β × State) :
    (if c then a else b).2.stack = if c then a.2.stack else b.2.stack := by split <;> rfl
@[simp] theorem ite_fst_mem {β : Type} (c : Prop) [Decidable c] (a b : State × β) :
    (if c then a else b).1.mem = if c then a.1.mem else b.1.mem := by split <;> rfl
@[simp] theorem ite_fst_stack {β : Type} (c : Prop) [Decidable c] (a b : State × β) :
    (if c then a else b).1.stack = if c then a.1.stack else b.1.stack := by split <;> rfl
@[simp] theorem ite_thd_mem {β γ : Type} (c : Prop) [Decidable c] (a b : β × γ × State) :
    (if c then a else b).2.2.mem = if c then a.2.2.mem else b.2.2.mem := by split <;> rfl
@[simp] theorem ite_thd_stack {β γ : Type} (c : Prop) [Decidable c] (a b : β × γ × State) :
    (if c then a else b).2.2.stack = if c then a.2.2.stack else b.2.2.stack := by split <;> rfl
@[simp] theorem getD_stores {α : Type} (o : Option α) (f : α → State) (d : State)
    (h : ∀ a, (f a).mem = d.mem ∧ (f a).stack = d.stack) :
    ((o.map f).getD d).mem = d.mem ∧ ((o.map f).getD d).stack = d.stack := by cases o <;> simp [h]
@[simp] theorem getD_mem {α : Type} (o : Option α) (f : α → State) (d : State) (h : ∀ a, (f a).mem = d.mem) :
    ((o.map f).getD d).mem = d.mem := by cases o <;> simp [h]
@[simp] theorem foldl_stores {α : Type} (f : State → α → State) (l : List α) (s : State)
    (hf : ∀ s x, (f s x).mem = s.mem ∧ (f s x).stack = s.stack) : (l.foldl f s).mem = s.mem ∧ (l.foldl f s).stack = s.stack := by
  induction l generalizing s with
  | nil => simp
  | cons a r ih => simp [ih, hf]
@[simp] theorem foldl_stores_snd {α β : Type} (f : β × State → α → β × State) (l : List α) (x : β × State)
    (hf : ∀ x a, (f x a).2.mem = x.2.mem ∧ (f x a).2.stack = x.2.stack) :
    (l.foldl f x).2.mem = x.2.mem ∧ (l.foldl f x).2.stack = x.2.stack := by
  induction l generalizing x with
  | nil => simp
  | cons a r ih => simp [ih, hf]
@[simp] theorem foldl_stores_fst {α β : Type} (f : State × β → α → State × β) (l : List α) (x : State × β)
    (hf : ∀ x a, (f x a).1.mem = x.1.mem ∧ (f x a).1.stack = x.1.stack) :
    (l.foldl f x).1.mem = x.1.mem ∧ (l.foldl f x).1.stack = x.1.stack := by
  induction l generalizing x with
  | nil => simp
  | cons a r ih => simp [ih, hf]
@[simp] theorem foldl_mem {α : Type} (f : State → α → State) (l : List α) (s : State) (hf : ∀ s x, (f s x).mem = s.mem) :
    (l.foldl f s).mem = s.mem := foldl_keep State.mem f hf l s
@[simp] theorem foldl_mem_snd {α β : Type} (f : β × State → α → β × State) (l : List α) (x : β × State)
    (hf : ∀ x a, (f x a).2.mem = x.2.mem) : (l.foldl f x).2.mem = x.2.mem := by
  induction l generalizing x with
  | nil => rfl
  | cons a r ih => rw [List.foldl_cons, ih, hf]
@[simp] theorem emit_stores (s : State) (o : Output) : (s.emit o).mem = s.mem ∧ (s.emit o).stack = s.stack := ⟨rfl, rfl⟩
@[simp] theorem setFld_stores (s : State) (f : Field) (v i : Nat) : (s.setFld f v i).mem = s.mem ∧ (s.setFld f v i).stack = s.stack :=
  ⟨rfl, rfl⟩
@[simp] theorem latchAccess_stores (s : State) (k o b : Nat) (w : Bool) :
    (s.latchAccess k o b w).mem = s.mem ∧ (s.latchAccess k o b w).stack = s.stack := by
  unfold latchAccess setFlag; split <;> simp

/-! ### Regs -/

@[simp] theorem setFlag_stores (s : State) (f : Field) (b : Bool) (i : Nat) :
    (State.setFlag s f b i).mem = s.mem ∧ (State.setFlag s f b i).stack = s.stack := by
  unfold State.setFlag
  simp

@[simp] theorem clearFlds_stores (s : State) (fs : List Field) (i : Nat) :
    (State.clearFlds s fs i).mem = s.mem ∧ (State.clearFlds s fs i).stack = s.stack := by
  unfold State.clearFlds
  simp

@[simp] theorem resetFlds_stores (s : State) (fs : List Field) :
    (State.resetFlds s fs).mem = s.mem ∧ (State.resetFlds s fs).stack = s.stack := by
  unfold State.resetFlds
  simp

@[simp] theorem free_stores (s : State) : (State.free s).2.mem = s.mem ∧ (State.free s).2.stack = s.stack := by
  unfold State.free
  simp

@[simp] theorem bump_stores (s : State) (f : Field) (n : Nat) (i : Nat) :
    (State.bump s f n i).1.mem = s.mem ∧ (State.bump s f n i).1.stack = s.stack := by
  unfold State.bump
  simp

/-! ### Send -/

@[simp] theorem setLink_stores (s : State) (p : Nat) (l : Link) :
    (State.setLink s p l).mem = s.mem ∧ (State.setLink s p l).stack = s.stack := by
  unfold State.setLink
  simp

@[simp] theorem sendFlit_stores (s : State) (port : Nat) (bytes : List Byte) :
    (State.sendFlit s port bytes).mem = s.mem ∧ (State.sendFlit s port bytes).stack = s.stack := by
  unfold State.sendFlit
  simp

@[simp] theorem sendLinkControl_stores (s : State) (port : Nat) (nack : Bool) :
    (State.sendLinkControl s port nack).mem = s.mem ∧ (State.sendLinkControl s port nack).stack = s.stack := by
  unfold State.sendLinkControl
  simp

@[simp] theorem pump_stores (s : State) (port : Nat) (x1 : Nat) :
    (State.pump s port x1).mem = s.mem ∧ (State.pump s port x1).stack = s.stack := by
  induction x1 generalizing s with
  | zero => (unfold State.pump; simp)
  | succ n ih =>
    unfold State.pump
    ((repeat' (first | split | dsimp only)) <;> simp_all)

@[simp] theorem stamp_stores (s : State) (p : Packet) : (State.stamp s p).2.mem = s.mem ∧ (State.stamp s p).2.stack = s.stack := by
  unfold State.stamp
  simp

@[simp] theorem enqueue_stores (s : State) (port : Nat) (p : Packet) :
    (State.enqueue s port p).mem = s.mem ∧ (State.enqueue s port p).stack = s.stack := by
  unfold State.enqueue
  simp

@[simp] theorem route_stores (s : State) (p : Packet) (bound : Option Nat) (avoid : List Nat) :
    (State.route s p bound avoid).2.mem = s.mem ∧ (State.route s p bound avoid).2.stack = s.stack := by
  unfold State.route
  (repeat' split) <;> simp

@[simp] theorem number_stores (s : State) (p : Packet) : (State.number s p).2.mem = s.mem ∧ (State.number s p).2.stack = s.stack := by
  unfold State.number
  simp

@[simp] theorem launchRequest_stores (s : State) (p : Packet) (owner : Owner) (dest : Nat) :
    (State.launchRequest s p owner dest).mem = s.mem ∧ (State.launchRequest s p owner dest).stack = s.stack := by
  unfold State.launchRequest
  simp

@[simp] theorem sendRequest_stores (s : State) (p : Packet) (owner : Owner) (dest : Nat) :
    (State.sendRequest s p owner dest).mem = s.mem ∧ (State.sendRequest s p owner dest).stack = s.stack := by
  unfold State.sendRequest
  simp

@[simp] theorem sendHeld_stores (s : State) (dst : Nat) : (State.sendHeld s dst).mem = s.mem ∧ (State.sendHeld s dst).stack = s.stack := by
  unfold State.sendHeld
  split <;> simp

@[simp] theorem sendControl_stores (s : State) (dst : Nat) (group : Bool) (ptype : Nat) (line : List Byte) (job : Nat) (plane : Option Nat)
    :
    (State.sendControl s dst group ptype line job plane).mem = s.mem ∧ (State.sendControl s dst group ptype line job plane).stack = s.stack := by
  unfold State.sendControl
  simp

@[simp] theorem sendResponse_stores (s : State) (dst kind unit type reason seq tag : Nat) (data : List Byte) :
    (State.sendResponse s dst kind unit type reason seq tag data).mem = s.mem ∧ (State.sendResponse s dst kind unit type reason seq tag data).stack = s.stack := by
  unfold State.sendResponse
  simp

/-! ### Ops -/

@[simp] theorem showLog_stores (s : State) : (State.showLog s).mem = s.mem ∧ (State.showLog s).stack = s.stack := by
  unfold State.showLog
  simp

@[simp] theorem addRecord_stores (s : State) (r : LogRecord) :
    (State.addRecord s r).mem = s.mem ∧ (State.addRecord s r).stack = s.stack := by
  unfold State.addRecord
  (repeat' (first | split | dsimp only)) <;> simp_all

@[simp] theorem logRecord_stores (s : State) (kind severity cause slot : Nat) (payload : List Nat) :
    (State.logRecord s kind severity cause slot payload).mem = s.mem ∧ (State.logRecord s kind severity cause slot payload).stack = s.stack := by
  unfold State.logRecord
  simp

@[simp] theorem toManager_stores (s : State) (ptype : Nat) (body : List Byte) :
    (State.toManager s ptype body).mem = s.mem ∧ (State.toManager s ptype body).stack = s.stack := by
  unfold State.toManager
  simp

@[simp] theorem noticed_stores (s : State) (p : Suspect) (cause : Nat) :
    (State.noticed s p cause).mem = s.mem ∧ (State.noticed s p cause).stack = s.stack := by
  unfold State.noticed
  simp

@[simp] theorem arbiterTake_stores (s : State) (src : Nat) (p : Suspect) (cause severity events : Nat) :
    (State.arbiterTake s src p cause severity events).mem = s.mem ∧ (State.arbiterTake s src p cause severity events).stack = s.stack := by
  unfold State.arbiterTake
  simp

@[simp] theorem lullPacket_stores (s : State) (p : Suspect) (cause severity events : Nat) :
    (State.lullPacket s p cause severity events).mem = s.mem ∧ (State.lullPacket s p cause severity events).stack = s.stack := by
  unfold State.lullPacket
  simp

@[simp] theorem makeReport_stores (s : State) (p : Suspect) (kind cause severity : Nat) (payload : List Nat) :
    (State.makeReport s p kind cause severity payload).mem = s.mem ∧ (State.makeReport s p kind cause severity payload).stack = s.stack := by
  unfold State.makeReport
  simp

@[simp] theorem reportWith_stores (bump : State → Field → State) (s : State) (p : Suspect) (kind cause severity : Nat) (payload : List Nat)
    (h_bump : ∀ t y1, (bump t y1).mem = t.mem ∧ (bump t y1).stack = t.stack) :
    (State.reportWith bump s p kind cause severity payload).mem = s.mem ∧ (State.reportWith bump s p kind cause severity payload).stack = s.stack := by
  unfold State.reportWith
  (repeat' split) <;> simp_all

@[simp] theorem countWith_stores (report : State → Suspect → Nat → Nat → Nat → List Nat → State) (s : State) (f : Field) (n : Nat) (i : Nat)
    (h_report : ∀ t y1 y2 y3 y4 y5, (report t y1 y2 y3 y4 y5).mem = t.mem ∧ (report t y1 y2 y3 y4 y5).stack = t.stack) :
    (State.countWith report s f n i).mem = s.mem ∧ (State.countWith report s f n i).stack = s.stack := by
  unfold State.countWith
  (repeat' split) <;> simp_all

@[simp] theorem report0_stores (x1 : State) (x2 : Suspect) (x3 : Nat) (x4 : Nat) (x5 : Nat) (x6 : List Nat) :
    (State.report0 x1 x2 x3 x4 x5 x6).mem = x1.mem ∧ (State.report0 x1 x2 x3 x4 x5 x6).stack = x1.stack := by
  induction x3 generalizing x1 x2 x4 x5 x6 with
  | zero => (unfold State.report0; simp)
  | succ n ih =>
    unfold State.report0
    simp_all

@[simp] theorem report1_stores (x1 : State) (x2 : Suspect) (x3 : Nat) (x4 : Nat) (x5 : Nat) (x6 : List Nat) :
    (State.report1 x1 x2 x3 x4 x5 x6).mem = x1.mem ∧ (State.report1 x1 x2 x3 x4 x5 x6).stack = x1.stack := by
  induction x3 generalizing x1 x2 x4 x5 x6 with
  | zero => (unfold State.report1; simp)
  | succ n ih =>
    unfold State.report1
    simp_all

@[simp] theorem report_stores (x1 : State) (x2 : Suspect) (x3 : Nat) (x4 : Nat) (x5 : Nat) (x6 : List Nat) :
    (State.report x1 x2 x3 x4 x5 x6).mem = x1.mem ∧ (State.report x1 x2 x3 x4 x5 x6).stack = x1.stack := by
  induction x3 generalizing x1 x2 x4 x5 x6 with
  | zero => (unfold State.report; simp)
  | succ n ih =>
    unfold State.report
    simp_all

@[simp] theorem count_stores (s : State) (f : Field) (n : Nat) (i : Nat) :
    (State.count s f n i).mem = s.mem ∧ (State.count s f n i).stack = s.stack := by
  unfold State.count
  simp

@[simp] theorem raise_stores (s : State) (evt mask : Field) :
    (State.raise s evt mask).mem = s.mem ∧ (State.raise s evt mask).stack = s.stack := by
  unfold State.raise
  simp

@[simp] theorem raiseUnit_stores (s : State) (evt mask : Field) (slot : Nat) :
    (State.raiseUnit s evt mask slot).mem = s.mem ∧ (State.raiseUnit s evt mask slot).stack = s.stack := by
  unfold State.raiseUnit
  simp

@[simp] theorem latchTop_stores (s : State) (cause slot : Nat) :
    (State.latchTop s cause slot).mem = s.mem ∧ (State.latchTop s cause slot).stack = s.stack := by
  unfold State.latchTop
  simp

@[simp] theorem recordFault_stores (s : State) (cause : Nat) (p : Suspect) (payload : List Nat) :
    (State.recordFault s cause p payload).mem = s.mem ∧ (State.recordFault s cause p payload).stack = s.stack := by
  unfold State.recordFault
  split <;> simp

@[simp] theorem hostWrite_stores (s : State) (offset bytes : Nat) (k : State → State)
    (h_k : ∀ t, (k t).mem = t.mem ∧ (k t).stack = t.stack) :
    (State.hostWrite s offset bytes k).mem = s.mem ∧ (State.hostWrite s offset bytes k).stack = s.stack := by
  unfold State.hostWrite
  split
  · simp
  · split <;> simp [h_k]

@[simp] theorem hostRead_stores (s : State) (offset bytes : Nat) (k : State → State) (h_k : ∀ t, (k t).mem = t.mem ∧ (k t).stack = t.stack)
    : (State.hostRead s offset bytes k).mem = s.mem ∧ (State.hostRead s offset bytes k).stack = s.stack := by
  unfold State.hostRead
  (repeat' split) <;> simp_all

@[simp] theorem setCtx_stores (s : State) (x : Nat) (v : XeContext) :
    (State.setCtx s x v).mem = s.mem ∧ (State.setCtx s x v).stack = s.stack := by
  unfold State.setCtx
  simp

@[simp] theorem setPhaseOf_stores (s : State) (x : Nat) (y : XePhase) :
    (State.setPhaseOf s x y).mem = s.mem ∧ (State.setPhaseOf s x y).stack = s.stack := by
  unfold State.setPhaseOf
  simp

@[simp] theorem putMark_stores (s : State) (c index ep : Nat) (m : ExchangeMark) :
    (State.putMark s c index ep m).mem = s.mem ∧ (State.putMark s c index ep m).stack = s.stack := by
  unfold State.putMark
  simp

@[simp] theorem releaseEnds_stores (s : State) (c index x p src ep : Nat) (failed : Bool) :
    (State.releaseEnds s c index x p src ep failed).mem = s.mem ∧ (State.releaseEnds s c index x p src ep failed).stack = s.stack := by
  unfold State.releaseEnds
  simp

@[simp] theorem refusedOut_stores (s : State) : (State.refusedOut s).mem = s.mem ∧ (State.refusedOut s).stack = s.stack := by
  unfold State.refusedOut
  simp

@[simp] theorem sendEngine_stores (s : State) (unit dst ptype : Nat) (payload : List Byte) (job : Nat) :
    (State.sendEngine s unit dst ptype payload job).mem = s.mem ∧ (State.sendEngine s unit dst ptype payload job).stack = s.stack := by
  unfold State.sendEngine
  simp

@[simp] theorem sendGroup_stores (s : State) (unit grp ptype : Nat) (payload : List Byte) (job : Nat) :
    (State.sendGroup s unit grp ptype payload job).mem = s.mem ∧ (State.sendGroup s unit grp ptype payload job).stack = s.stack := by
  unfold State.sendGroup
  simp

/-! ### Mem -/

theorem t1Read_mem (s : State) (off n : Nat) : (State.t1Read s off n).2.mem = s.mem := by
  unfold State.t1Read
  simp [touchLines_mem]

theorem touchT1_mem (s : State) (a n : Nat) : (State.touchT1 s a n).mem = s.mem := by
  unfold State.touchT1
  split <;> simp [touchLines_mem]

@[simp] theorem chargeWaits_stores (s : State) (waits : List (Nat × Nat)) :
    (State.chargeWaits s waits).mem = s.mem ∧ (State.chargeWaits s waits).stack = s.stack := by
  unfold State.chargeWaits
  simp

@[simp] theorem countLate_stores (s : State) (waits : List (Nat × Nat)) (tier : Nat) :
    (State.countLate s waits tier).mem = s.mem ∧ (State.countLate s waits tier).stack = s.stack := by
  unfold State.countLate
  simp

@[simp] theorem learnWait_stores (s : State) (waits : List (Nat × Nat)) (tier : Nat) :
    (State.learnWait s waits tier).mem = s.mem ∧ (State.learnWait s waits tier).stack = s.stack := by
  unfold State.learnWait
  simp

@[simp] theorem chargeBeats_stores (s : State) (beats : List (Nat × List (Nat × Nat))) :
    (State.chargeBeats s beats).mem = s.mem ∧ (State.chargeBeats s beats).stack = s.stack := by
  unfold State.chargeBeats
  simp

@[simp] theorem countError_stores (s : State) (slot : Nat) :
    (State.countError s slot).mem = s.mem ∧ (State.countError s slot).stack = s.stack := by
  unfold State.countError
  simp

@[simp] theorem countCorrected_stores (s : State) (mdies : List Nat) :
    (State.countCorrected s mdies).mem = s.mem ∧ (State.countCorrected s mdies).stack = s.stack := by
  unfold State.countCorrected
  simp

@[simp] theorem poisonAt_stores (s : State) (off stack a : Nat) :
    (State.poisonAt s off stack a).mem = s.mem ∧ (State.poisonAt s off stack a).stack = s.stack := by
  unfold State.poisonAt
  simp

@[simp] theorem uncorrectable_stores (s : State) (off : Nat) :
    (State.uncorrectable s off).mem = s.mem ∧ (State.uncorrectable s off).stack = s.stack := by
  unfold State.uncorrectable
  simp

@[simp] theorem failT2_stores (s : State) (i : Nat) : (State.failT2 s i).mem = s.mem ∧ (State.failT2 s i).stack = s.stack := by
  unfold State.failT2
  simp

@[simp] theorem failT3_stores (s : State) : (State.failT3 s).mem = s.mem ∧ (State.failT3 s).stack = s.stack := by
  unfold State.failT3
  simp

/-! ### Cores -/

@[simp] theorem setCore_stores (s : State) (c : Nat) (k : Core) :
    (State.setCore s c k).mem = s.mem ∧ (State.setCore s c k).stack = s.stack := by
  unfold State.setCore
  simp

@[simp] theorem modCore_stores (s : State) (c : Nat) (f : Core → Core) :
    (State.modCore s c f).mem = s.mem ∧ (State.modCore s c f).stack = s.stack := by
  unfold State.modCore
  simp

@[simp] theorem setRun_stores (s : State) (slot r : Nat) :
    (State.setRun s slot r).mem = s.mem ∧ (State.setRun s slot r).stack = s.stack := by
  unfold State.setRun
  simp

@[simp] theorem modJob_stores (s : State) (j : Nat) (f : Job → Job) :
    (State.modJob s j f).mem = s.mem ∧ (State.modJob s j f).stack = s.stack := by
  unfold State.modJob
  simp

/-! ### Queues -/

@[simp] theorem setHead_stores (s : State) (q p : Nat) : (State.setHead s q p).mem = s.mem ∧ (State.setHead s q p).stack = s.stack := by
  unfold State.setHead
  simp

@[simp] theorem setTail_stores (s : State) (q p : Nat) : (State.setTail s q p).mem = s.mem ∧ (State.setTail s q p).stack = s.stack := by
  unfold State.setTail
  simp

@[simp] theorem srvEvt_stores (s : State) (f : Field) : (State.srvEvt s f).mem = s.mem ∧ (State.srvEvt s f).stack = s.stack := by
  unfold State.srvEvt
  simp

@[simp] theorem doorbell_stores (s : State) (k : State → State) (h_k : ∀ t, (k t).mem = t.mem ∧ (k t).stack = t.stack) :
    (State.doorbell s k).mem = s.mem ∧ (State.doorbell s k).stack = s.stack := by
  unfold State.doorbell
  (repeat' split) <;> simp_all

theorem take_mem (s : State) (q : Nat) (cmd : Command) : (State.take s q cmd).2.mem = s.mem := by
  unfold State.take
  simp [touchT1_mem]

theorem takeCmd_mem (s : State) (q : Nat) (host : List Byte) (mine : Nat → Bool) (k : State → Taken → Command → State)
    (h_k : ∀ t y1 y2, (k t y1 y2).mem = t.mem) : (State.takeCmd s q host mine k).mem = s.mem := by
  unfold State.takeCmd
  (repeat' split) <;> simp_all [take_mem]

@[simp] theorem reserveStream_stores (s : State) (q n : Nat) :
    (State.reserveStream s q n).mem = s.mem ∧ (State.reserveStream s q n).stack = s.stack := by
  unfold State.reserveStream
  simp

@[simp] theorem releaseStream_stores (s : State) (q n : Nat) :
    (State.releaseStream s q n).mem = s.mem ∧ (State.releaseStream s q n).stack = s.stack := by
  unfold State.releaseStream
  simp

/-! ### Kv -/

@[simp] theorem showLedger_stores (s : State) (i : Nat) : (State.showLedger s i).mem = s.mem ∧ (State.showLedger s i).stack = s.stack := by
  unfold State.showLedger
  simp

@[simp] theorem copyRequests_stores (s : State) (ptype a n : Nat) (bs : List Byte) :
    (State.copyRequests s ptype a n bs).mem = s.mem ∧ (State.copyRequests s ptype a n bs).stack = s.stack := by
  unfold State.copyRequests
  simp

@[simp] theorem parkAsk_stores (s : State) (a n : Nat) : (State.parkAsk s a n).mem = s.mem ∧ (State.parkAsk s a n).stack = s.stack := by
  unfold State.parkAsk
  split <;> simp

@[simp] theorem closePark_stores (s : State) (a : Nat) (write : Bool) :
    (State.closePark s a write).mem = s.mem ∧ (State.closePark s a write).stack = s.stack := by
  unfold State.closePark
  (repeat' split) <;> simp

@[simp] theorem useTab_stores (s : State) (k : Nat) (u : Bool) :
    (State.useTab s k u).mem = s.mem ∧ (State.useTab s k u).stack = s.stack := by
  unfold State.useTab
  simp

@[simp] theorem usePark_stores (s : State) (k : Nat) (u : Bool) :
    (State.usePark s k u).mem = s.mem ∧ (State.usePark s k u).stack = s.stack := by
  unfold State.usePark
  simp

@[simp] theorem decision_stores (s : State) (cd : CopyData) :
    (State.decision s cd).s.mem = s.mem ∧ (State.decision s cd).s.stack = s.stack := by
  unfold State.decision
  simp

@[simp] theorem sendRecords_stores (s : State) (lg cause batch tag : Nat) (x1 : Nat) (x2 : List LedgerOp) :
    (State.sendRecords s lg cause batch tag x1 x2).mem = s.mem ∧ (State.sendRecords s lg cause batch tag x1 x2).stack = s.stack := by
  induction x1 generalizing s x2 with
  | zero => (unfold State.sendRecords; simp)
  | succ n ih =>
    unfold State.sendRecords
    ((repeat' (first | split | dsimp only)) <;> simp_all)

@[simp] theorem Decision_commit_stores (d : Decision) (lg cause : Nat) (batch : Nat) (tag : Nat) :
    (Decision.commit d lg cause batch tag).mem = d.s.mem ∧ (Decision.commit d lg cause batch tag).stack = d.s.stack := by
  unfold Decision.commit
  simp

/-! ### Receive -/

@[simp] theorem answer_stores (s : State) (hd : PacketHead) (type reason : Nat) :
    (State.answer s hd type reason).mem = s.mem ∧ (State.answer s hd type reason).stack = s.stack := by
  unfold State.answer
  simp

@[simp] theorem engineTake_stores (s : State) (hd : PacketHead) (enabled : State → Bool) (k : State → State)
    (h_k : ∀ t, (k t).mem = t.mem ∧ (k t).stack = t.stack) :
    (State.engineTake s hd enabled k).mem = s.mem ∧ (State.engineTake s hd enabled k).stack = s.stack := by
  unfold State.engineTake
  (repeat' split) <;> simp_all

@[simp] theorem gather_stores (s : State) (source ptype : Nat) (name : List Nat) (total first : Nat) (bytes : List Byte) :
    (State.gather s source ptype name total first bytes).2.mem = s.mem ∧ (State.gather s source ptype name total first bytes).2.stack = s.stack := by
  unfold State.gather
  simp

@[simp] theorem controlTake_stores (s : State) (hd : PacketHead) (k : State → State) (h_k : ∀ t, (k t).mem = t.mem ∧ (k t).stack = t.stack)
    : (State.controlTake s hd k).mem = s.mem ∧ (State.controlTake s hd k).stack = s.stack := by
  unfold State.controlTake
  (repeat' split) <;> simp_all

/-! ### Nvs -/

@[simp] theorem modNvs_stores (s : State) (f : Nvs → Nvs) : (State.modNvs s f).mem = s.mem ∧ (State.modNvs s f).stack = s.stack := by
  unfold State.modNvs
  simp

@[simp] theorem nvEvt_stores (s : State) (f : Field) : (State.nvEvt s f).mem = s.mem ∧ (State.nvEvt s f).stack = s.stack := by
  unfold State.nvEvt
  simp

@[simp] theorem showWear_stores (s : State) : (State.showWear s).mem = s.mem ∧ (State.showWear s).stack = s.stack := by
  unfold State.showWear
  simp

@[simp] theorem eraseOld_stores (s : State) : (State.eraseOld s).mem = s.mem ∧ (State.eraseOld s).stack = s.stack := by
  unfold State.eraseOld
  simp

@[simp] theorem relocate_stores (s : State) (p q : Nat) (retire : Bool) :
    (State.relocate s p q retire).mem = s.mem ∧ (State.relocate s p q retire).stack = s.stack := by
  unfold State.relocate
  simp

@[simp] theorem relocateLow_stores (s : State) (p : Nat) :
    (State.relocateLow s p).mem = s.mem ∧ (State.relocateLow s p).stack = s.stack := by
  unfold State.relocateLow
  split <;> simp

@[simp] theorem readPages_stores (s : State) (u n : Nat) :
    (State.readPages s u n).mem = s.mem ∧ (State.readPages s u n).stack = s.stack := by
  unfold State.readPages
  simp

@[simp] theorem nvLost_stores (s : State) : (State.nvLost s).mem = s.mem ∧ (State.nvLost s).stack = s.stack := by
  unfold State.nvLost
  simp

@[simp] theorem nvRead_stores (s : State) (r : NvsReport) : (State.nvRead s r).mem = s.mem ∧ (State.nvRead s r).stack = s.stack := by
  unfold State.nvRead
  split <;> simp

@[simp] theorem nvFetch_stores (s : State) (u n : Nat) : (State.nvFetch s u n).2.mem = s.mem ∧ (State.nvFetch s u n).2.stack = s.stack := by
  unfold State.nvFetch
  (repeat' (first | split | dsimp only)) <;> simp_all

@[simp] theorem returnRun_stores (s : State) (g n : Nat) :
    (State.returnRun s g n).mem = s.mem ∧ (State.returnRun s g n).stack = s.stack := by
  unfold State.returnRun
  simp

@[simp] theorem markBad_stores (s : State) (id : Nat) : (State.markBad s id).mem = s.mem ∧ (State.markBad s id).stack = s.stack := by
  unfold State.markBad
  simp

@[simp] theorem checkShard_stores (s : State) (h : Shard) (r : NvsReport) :
    (State.checkShard s h r).2.2.mem = s.mem ∧ (State.checkShard s h r).2.2.stack = s.stack := by
  unfold State.checkShard
  simp

@[simp] theorem commitShard_stores (s : State) (c : NvCmd) (g : Nat) (failed : Bool) :
    (State.commitShard s c g failed).2.mem = s.mem ∧ (State.commitShard s c g failed).2.stack = s.stack := by
  unfold State.commitShard
  simp

@[simp] theorem noteLoad_stores (s : State) (c : NvCmd) (ok : Bool) :
    (State.noteLoad s c ok).mem = s.mem ∧ (State.noteLoad s c ok).stack = s.stack := by
  unfold State.noteLoad
  (repeat' split) <;> simp

@[simp] theorem rejectGen_stores (s : State) : (State.rejectGen s).mem = s.mem ∧ (State.rejectGen s).stack = s.stack := by
  unfold State.rejectGen
  simp

@[simp] theorem measure5_stores (s : State) (patches : List Byte) :
    (State.measure5 s patches).mem = s.mem ∧ (State.measure5 s patches).stack = s.stack := by
  unfold State.measure5
  simp

@[simp] theorem freeSlot_stores (s : State) (i : Nat) : (State.freeSlot s i).mem = s.mem ∧ (State.freeSlot s i).stack = s.stack := by
  unfold State.freeSlot
  simp

@[simp] theorem settleSlot_stores (s : State) (i : Nat) : (State.settleSlot s i).mem = s.mem ∧ (State.settleSlot s i).stack = s.stack := by
  unfold State.settleSlot
  simp

@[simp] theorem retireSlot_stores (s : State) (i : Nat) : (State.retireSlot s i).mem = s.mem ∧ (State.retireSlot s i).stack = s.stack := by
  unfold State.retireSlot
  simp

@[simp] theorem unmapPatch_stores (s : State) (p : Nat) : (State.unmapPatch s p).mem = s.mem ∧ (State.unmapPatch s p).stack = s.stack := by
  unfold State.unmapPatch
  simp

@[simp] theorem remeasure_stores (s t : State) : (State.remeasure s t).mem = s.mem ∧ (State.remeasure s t).stack = s.stack := by
  unfold State.remeasure
  simp

@[simp] theorem usePatch_stores (s : State) (i : Nat) : (State.usePatch s i).mem = s.mem ∧ (State.usePatch s i).stack = s.stack := by
  unfold State.usePatch
  simp

@[simp] theorem setNvPos_stores (s : State) (index phase : Field) (p : Nat) :
    (State.setNvPos s index phase p).mem = s.mem ∧ (State.setNvPos s index phase p).stack = s.stack := by
  unfold State.setNvPos
  simp

@[simp] theorem modCmd_stores (s : State) (key : Nat) (f : NvCmd → NvCmd) :
    (State.modCmd s key f).mem = s.mem ∧ (State.modCmd s key f).stack = s.stack := by
  unfold State.modCmd
  simp

@[simp] theorem nvDecide_stores (s : State) (c : NvCmd) (status detail : Nat) :
    (State.nvDecide s c status detail).mem = s.mem ∧ (State.nvDecide s c status detail).stack = s.stack := by
  unfold State.nvDecide
  simp

@[simp] theorem placePload_stores (s : State) (c : NvCmd) :
    (State.placePload s c).mem = s.mem ∧ (State.placePload s c).stack = s.stack := by
  unfold State.placePload
  split <;> simp

@[simp] theorem retryPload_stores (s : State) : (State.retryPload s).mem = s.mem ∧ (State.retryPload s).stack = s.stack := by
  unfold State.retryPload
  split <;> simp

@[simp] theorem takeRun_stores (s : State) (c : NvCmd) : (State.takeRun s c).mem = s.mem ∧ (State.takeRun s c).stack = s.stack := by
  unfold State.takeRun
  (repeat' (first | split | dsimp only)) <;> simp_all

@[simp] theorem nvBegin_stores (s : State) (c : NvCmd) : (State.nvBegin s c).mem = s.mem ∧ (State.nvBegin s c).stack = s.stack := by
  unfold State.nvBegin
  (repeat' (first | split | dsimp only)) <;> simp_all

@[simp] theorem nvStart_stores (x1 : Nat) (x2 : State) : (State.nvStart x1 x2).mem = x2.mem ∧ (State.nvStart x1 x2).stack = x2.stack := by
  induction x1 generalizing x2 with
  | zero => (unfold State.nvStart; simp)
  | succ n ih =>
    unfold State.nvStart
    ((repeat' (first | split | dsimp only)) <;> simp_all)

@[simp] theorem nvSettle_stores (s : State) : (State.nvSettle s).mem = s.mem ∧ (State.nvSettle s).stack = s.stack := by
  unfold State.nvSettle
  simp

theorem nvTake_mem (s : State) (host : List Byte) (mine : Nat → Bool) : (State.nvTake s host mine).mem = s.mem := by
  unfold State.nvTake
  simp [touchT1_mem]

@[simp] theorem autoLoad_stores (s : State) (p : Nat) : (State.autoLoad s p).mem = s.mem ∧ (State.autoLoad s p).stack = s.stack := by
  unfold State.autoLoad
  simp

@[simp] theorem sendChunk_stores (s : State) (c : NvCmd) (h : Shard) (k : Nat) :
    (State.sendChunk s c h k).mem = s.mem ∧ (State.sendChunk s c h k).stack = s.stack := by
  unfold State.sendChunk
  simp

@[simp] theorem sendChunks_stores (s : State) (c : NvCmd) (h : Shard) (chunks : List Nat) :
    (s.sendChunks c h chunks).mem = s.mem ∧ (s.sendChunks c h chunks).stack = s.stack := by
  unfold sendChunks
  induction chunks generalizing s with
  | nil => exact ⟨rfl, rfl⟩
  | cons a r ih => rw [List.foldl_cons, (ih _).1, (ih _).2, (sendChunk_stores _ _ _ _).1, (sendChunk_stores _ _ _ _).2]; exact ⟨rfl, rfl⟩

@[simp] theorem keepStream_stores (s : State) (c : NvCmd) (h : Shard) :
    (State.keepStream s c h).mem = s.mem ∧ (State.keepStream s c h).stack = s.stack := by
  unfold State.keepStream
  (repeat' (first | split | dsimp only)) <;> simp_all

@[simp] theorem failPload_stores (s : State) (c : NvCmd) (status : Nat) :
    (State.failPload s c status).mem = s.mem ∧ (State.failPload s c status).stack = s.stack := by
  unfold State.failPload
  simp

@[simp] theorem install_stores (s : State) (pairs : List ((Nat × Nat) × Nat)) :
    (State.install s pairs).mem = s.mem ∧ (State.install s pairs).stack = s.stack := by
  unfold State.install
  simp

@[simp] theorem finishPload_stores (s : State) (c : NvCmd) :
    (State.finishPload s c).mem = s.mem ∧ (State.finishPload s c).stack = s.stack := by
  unfold State.finishPload
  simp

@[simp] theorem ploadReply_stores (s : State) (number ep : Nat) (ok : Bool) :
    (State.ploadReply s number ep ok).mem = s.mem ∧ (State.ploadReply s number ep ok).stack = s.stack := by
  unfold State.ploadReply
  split <;> simp

theorem writeShard_mem (s : State) (c : NvCmd) (g : Nat) (r : NvsReport) : (State.writeShard s c g r).mem = s.mem := by
  unfold State.writeShard
  simp [touchT1_mem]

@[simp] theorem deleteShard_stores (s : State) (h : Shard) :
    (State.deleteShard s h).mem = s.mem ∧ (State.deleteShard s h).stack = s.stack := by
  unfold State.deleteShard
  simp

@[simp] theorem sendRepairs_stores (s : State) (keeper shard : Nat) (x1 : Nat) (x2 : List Nat) :
    (State.sendRepairs s keeper shard x1 x2).mem = s.mem ∧ (State.sendRepairs s keeper shard x1 x2).stack = s.stack := by
  induction x1 generalizing s x2 with
  | zero => (unfold State.sendRepairs; simp)
  | succ n ih =>
    unfold State.sendRepairs
    simp_all

@[simp] theorem failRecv_stores (s : State) (c : NvCmd) (status : Nat) :
    (State.failRecv s c status).mem = s.mem ∧ (State.failRecv s c status).stack = s.stack := by
  unfold State.failRecv
  simp

@[simp] theorem nvStop_stores (s : State) (c : NvCmd) : (State.nvStop s c).mem = s.mem ∧ (State.nvStop s c).stack = s.stack := by
  unfold State.nvStop
  simp

@[simp] theorem nvInhibit_stores (s : State) : (State.nvInhibit s).mem = s.mem ∧ (State.nvInhibit s).stack = s.stack := by
  unfold State.nvInhibit
  simp

@[simp] theorem nvUninhibit_stores (s : State) : (State.nvUninhibit s).mem = s.mem ∧ (State.nvUninhibit s).stack = s.stack := by
  unfold State.nvUninhibit
  simp

/-! ### Serve -/

@[simp] theorem setSrv_stores (s : State) (i : Nat) (v : Serving) :
    (State.setSrv s i v).mem = s.mem ∧ (State.setSrv s i v).stack = s.stack := by
  unfold State.setSrv
  simp

@[simp] theorem modSrv_stores (s : State) (i : Nat) (f : Serving → Serving) :
    (State.modSrv s i f).mem = s.mem ∧ (State.modSrv s i f).stack = s.stack := by
  unfold State.modSrv
  simp

@[simp] theorem setSeq_stores (s : State) (h : Nat) (q : SeqState) :
    (State.setSeq s h q).mem = s.mem ∧ (State.setSeq s h q).stack = s.stack := by
  unfold State.setSeq
  simp

@[simp] theorem modSeq_stores (s : State) (h : Nat) (f : SeqState → SeqState) :
    (State.modSeq s h f).mem = s.mem ∧ (State.modSeq s h f).stack = s.stack := by
  unfold State.modSeq
  split <;> simp

@[simp] theorem wrapCount_stores (s : State) (f : Field) (n : Nat) (i : Nat) :
    (State.wrapCount s f n i).mem = s.mem ∧ (State.wrapCount s f n i).stack = s.stack := by
  unfold State.wrapCount
  simp

@[simp] theorem spareRow_stores (s : State) (h n : Nat) : (State.spareRow s h n).mem = s.mem ∧ (State.spareRow s h n).stack = s.stack := by
  unfold State.spareRow
  simp

@[simp] theorem dropFlight_stores (s : State) (lg : Nat) (f : Flight) :
    (State.dropFlight s lg f).mem = s.mem ∧ (State.dropFlight s lg f).stack = s.stack := by
  unfold State.dropFlight
  simp

@[simp] theorem propose_stores (s : State) (p : Nat × Nat × Nat) :
    (State.propose s p).mem = s.mem ∧ (State.propose s p).stack = s.stack := by
  unfold State.propose
  split <;> simp

/-! ### Sched -/

@[simp] theorem freeze_stores (s : State) (c : Nat) : (State.freeze s c).mem = s.mem ∧ (State.freeze s c).stack = s.stack := by
  unfold State.freeze
  simp

@[simp] theorem rest_stores (s : State) (c : Nat) : (State.rest s c).mem = s.mem ∧ (State.rest s c).stack = s.stack := by
  unfold State.rest
  simp

@[simp] theorem freezeJob_stores (s : State) (j : Job) : (State.freezeJob s j).mem = s.mem ∧ (State.freezeJob s j).stack = s.stack := by
  unfold State.freezeJob
  simp

@[simp] theorem beginSwitch_stores (s : State) (incoming : Option Job) (outgoing : List (Job × Nat)) (held : Bool) :
    (State.beginSwitch s incoming outgoing held).mem = s.mem ∧ (State.beginSwitch s incoming outgoing held).stack = s.stack := by
  unfold State.beginSwitch
  simp

@[simp] theorem consider_stores (s : State) (j : Job) : (State.consider s j).mem = s.mem ∧ (State.consider s j).stack = s.stack := by
  unfold State.consider
  simp

@[simp] theorem pass_stores (s : State) : (State.pass s).mem = s.mem ∧ (State.pass s).stack = s.stack := by
  unfold State.pass
  simp

@[simp] theorem closeContext_stores (s : State) (x : Nat) :
    (State.closeContext s x).mem = s.mem ∧ (State.closeContext s x).stack = s.stack := by
  unfold State.closeContext
  simp

@[simp] theorem finishControl_stores (s : State) (result : Nat) :
    (State.finishControl s result).mem = s.mem ∧ (State.finishControl s result).stack = s.stack := by
  unfold State.finishControl
  simp

@[simp] theorem clearCore_stores (s : State) (c run : Nat) :
    (State.clearCore s c run).mem = s.mem ∧ (State.clearCore s c run).stack = s.stack := by
  unfold State.clearCore
  simp

@[simp] theorem idleCore_stores (s : State) (c : Nat) : (State.idleCore s c).mem = s.mem ∧ (State.idleCore s c).stack = s.stack := by
  unfold State.idleCore
  simp

@[simp] theorem dropImages_stores (s : State) (j : Nat) : (State.dropImages s j).mem = s.mem ∧ (State.dropImages s j).stack = s.stack := by
  unfold State.dropImages
  simp

@[simp] theorem leaveSwitches_stores (s : State) (j : Nat) :
    (State.leaveSwitches s j).mem = s.mem ∧ (State.leaveSwitches s j).stack = s.stack := by
  unfold State.leaveSwitches
  simp

@[simp] theorem halt_stores (s : State) (c : Nat) : (State.halt s c).mem = s.mem ∧ (State.halt s c).stack = s.stack := by
  unfold State.halt
  simp

@[simp] theorem setExcinfo_stores (s : State) (c cause engine index job : Nat) (async : Bool) :
    (State.setExcinfo s c cause engine index job async).mem = s.mem ∧ (State.setExcinfo s c cause engine index job async).stack = s.stack := by
  unfold State.setExcinfo
  simp

/-! ### Insn -/

@[simp] theorem modSq_stores (s : State) (c : Nat) (f : Sequencer → Sequencer) :
    (State.modSq s c f).mem = s.mem ∧ (State.modSq s c f).stack = s.stack := by
  unfold State.modSq
  simp

@[simp] theorem seenGsc_stores (s : State) : (State.seenGsc s).2.mem = s.mem ∧ (State.seenGsc s).2.stack = s.stack := by
  unfold State.seenGsc
  simp

/-! ### Flags -/

@[simp] theorem setIf_stores (s : State) (f : Field) (n c : Nat) :
    (State.setIf s f n c).mem = s.mem ∧ (State.setIf s f n c).stack = s.stack := by
  unfold State.setIf
  simp

@[simp] theorem latchNumeric_stores (s : State) (c engine index : Nat) :
    (State.latchNumeric s c engine index).mem = s.mem ∧ (State.latchNumeric s c engine index).stack = s.stack := by
  unfold State.latchNumeric
  simp

@[simp] theorem countNumeric_stores (s : State) (c engine index : Nat) (ev : NumEvents) :
    (State.countNumeric s c engine index ev).mem = s.mem ∧ (State.countNumeric s c engine index ev).stack = s.stack := by
  unfold State.countNumeric
  simp

@[simp] theorem releaseNumeric_stores (s : State) (c : Nat) :
    (State.releaseNumeric s c).mem = s.mem ∧ (State.releaseNumeric s c).stack = s.stack := by
  unfold State.releaseNumeric
  simp

/-! ### SqLocal -/

@[simp] theorem rdsGsc_stores (s : State) (c d : Nat) : (State.rdsGsc s c d).mem = s.mem ∧ (State.rdsGsc s c d).stack = s.stack := by
  unfold State.rdsGsc
  simp

/-! ### Dpa -/

@[simp] theorem fillShadow_stores (s : State) (c : Nat) (o : DpaOp) :
    (State.fillShadow s c o).mem = s.mem ∧ (State.fillShadow s c o).stack = s.stack := by
  unfold State.fillShadow
  simp

@[simp] theorem pushDpa_stores (s : State) (c : Nat) (o : DpaOp) :
    (State.pushDpa s c o).mem = s.mem ∧ (State.pushDpa s c o).stack = s.stack := by
  unfold State.pushDpa
  simp

@[simp] theorem popDpa_stores (s : State) (c : Nat) : (State.popDpa s c).mem = s.mem ∧ (State.popDpa s c).stack = s.stack := by
  unfold State.popDpa
  (repeat' split) <;> simp

@[simp] theorem chargeDpa_stores (s : State) (c n : Nat) :
    (State.chargeDpa s c n).mem = s.mem ∧ (State.chargeDpa s c n).stack = s.stack := by
  unfold State.chargeDpa
  simp

/-! ### Mover -/

@[simp] theorem modHead_stores (s : State) (c m : Nat) (f : MoverOp → MoverOp) :
    (State.modHead s c m f).mem = s.mem ∧ (State.modHead s c m f).stack = s.stack := by
  unfold State.modHead
  simp

@[simp] theorem sendLoads_stores (s : State) (c m num b : Nat) (beat : List (Option Nat × Nat)) :
    (State.sendLoads s c m num b beat).mem = s.mem ∧ (State.sendLoads s c m num b beat).stack = s.stack := by
  unfold State.sendLoads
  simp

@[simp] theorem sendStores_stores (s : State) (c m num b : Nat) (beat : List (Option Nat × Nat)) (data : List (Nat × List Byte)) :
    (State.sendStores s c m num b beat data).mem = s.mem ∧ (State.sendStores s c m num b beat data).stack = s.stack := by
  unfold State.sendStores
  simp

theorem readChunk_mem (s : State) (core : Nat) (o : MoverOp) (src : Option Nat) (arrived : List Byte) :
    (State.readChunk s core o src arrived).2.mem = s.mem := by
  unfold State.readChunk
  (repeat' split) <;> simp [t1Read_mem]

theorem readBeat_mem (s : State) (core : Nat) (o : MoverOp) (far : List (Nat × List Byte)) (x1 : List (Nat × Option Nat × Nat))
    (x2 : List Byte) : (State.readBeat s core o far x1 x2).2.mem = s.mem := by
  induction x1 generalizing s x2 with
  | nil => (unfold State.readBeat; simp [readChunk_mem])
  | cons a r ih =>
    unfold State.readBeat
    (repeat' (first | split | dsimp only)) <;> simp_all [readChunk_mem]

@[simp] theorem askHost_stores (s : State) (xs : List (Nat × Nat)) :
    (State.askHost s xs).mem = s.mem ∧ (State.askHost s xs).stack = s.stack := by
  unfold State.askHost
  refine foldl_stores _ _ _ ?_
  intro s f
  (repeat' (first | split | dsimp only)) <;> simp_all

theorem sendBeat_mem (s : State) (c m : Nat) (u : State) (h_u : State.sendBeat s c m = some u) : u.mem = s.mem := by
  unfold State.sendBeat at h_u
  repeat' (first | split at h_u | dsimp only at h_u)
  all_goals first
    | (simp at h_u; done)
    | (simp only [Option.some.injEq, Host.Outcome.next.injEq] at h_u; subst h_u; simp_all [readBeat_mem]; done)
    | (simp_all [readBeat_mem]; done)

@[simp] theorem sendBeats_mem (s : State) (c m : Nat) (n : Nat) : (s.sendBeats c m n).mem = s.mem := by
  induction n generalizing s with
  | zero => rfl
  | succ n ih =>
    unfold State.sendBeats
    split
    · rfl
    · split
      · rename_i t h
        rw [ih, sendBeat_mem _ _ _ _ h]
      · rfl

@[simp] theorem chargeMover_stores (s : State) (c : Nat) :
    (State.chargeMover s c).mem = s.mem ∧ (State.chargeMover s c).stack = s.stack := by
  unfold State.chargeMover
  simp

@[simp] theorem farData_stores (s : State) (c m num b k : Nat) (data : List Byte) :
    (State.farData s c m num b k data).mem = s.mem ∧ (State.farData s c m num b k data).stack = s.stack := by
  unfold State.farData
  split <;> simp

/-! ### Jobs -/

@[simp] theorem takeImage_stores (s : State) (j c : Nat) :
    (State.takeImage s j c).mem = s.mem ∧ (State.takeImage s j c).stack = s.stack := by
  unfold State.takeImage
  split <;> simp

@[simp] theorem setPhase_stores (s : State) (w : Switch) (d : Nat) (p : SwitchPhase) :
    (State.setPhase s w d p).mem = s.mem ∧ (State.setPhase s w d p).stack = s.stack := by
  unfold State.setPhase
  simp

/-! ### Units -/

@[simp] theorem rejectUnit_stores (s : State) (slot : Nat) :
    (State.rejectUnit s slot).mem = s.mem ∧ (State.rejectUnit s slot).stack = s.stack := by
  unfold State.rejectUnit
  simp

@[simp] theorem quiesceCore_stores (s : State) (c : Nat) :
    (State.quiesceCore s c).mem = s.mem ∧ (State.quiesceCore s c).stack = s.stack := by
  unfold State.quiesceCore
  simp

@[simp] theorem clearEngine_stores (s : State) (slot : Nat) :
    (State.clearEngine s slot).mem = s.mem ∧ (State.clearEngine s slot).stack = s.stack := by
  unfold State.clearEngine
  simp

@[simp] theorem stageSlots_stores (s : State) (g i value : Nat) :
    (State.stageSlots s g i value).mem = s.mem ∧ (State.stageSlots s g i value).stack = s.stack := by
  unfold State.stageSlots
  simp

/-! ### Target -/

@[simp] theorem poisoned_stores (s : State) (reason : Nat) :
    (State.poisoned s reason).2.mem = s.mem ∧ (State.poisoned s reason).2.stack = s.stack := by
  unfold State.poisoned
  simp

@[simp] theorem enterMessage_stores (s : State) (r : Region) (q : MsgQueue) (m : Message) :
    (State.enterMessage s r q m).mem = s.mem ∧ (State.enterMessage s r q m).stack = s.stack := by
  unfold State.enterMessage
  simp

@[simp] theorem refuseIn_stores (s : State) (hd : RequestHead) (reason : Nat) :
    (State.refuseIn s hd reason).2.mem = s.mem ∧ (State.refuseIn s hd reason).2.stack = s.stack := by
  unfold State.refuseIn
  simp

@[simp] theorem noteAtomic_stores (s : State) (key : Nat) (hd : RequestHead) (a : Answer) :
    (State.noteAtomic s key hd a).mem = s.mem ∧ (State.noteAtomic s key hd a).stack = s.stack := by
  unfold State.noteAtomic
  simp

@[simp] theorem bankFound_stores (s : State) (r : BankReport) :
    (State.bankFound s r).mem = s.mem ∧ (State.bankFound s r).stack = s.stack := by
  unfold State.bankFound
  split <;> simp

@[simp] theorem reply_stores (s : State) (hd : RequestHead) (a : Answer) :
    (State.reply s hd a).mem = s.mem ∧ (State.reply s hd a).stack = s.stack := by
  unfold State.reply
  simp

@[simp] theorem returnCredits_stores (s : State) : (State.returnCredits s).mem = s.mem ∧ (State.returnCredits s).stack = s.stack := by
  unfold State.returnCredits
  simp

@[simp] theorem settleIngress_stores (s : State) (x : Ingress) :
    (State.settleIngress s x).mem = s.mem ∧ (State.settleIngress s x).stack = s.stack := by
  unfold State.settleIngress
  simp

@[simp] theorem showTeardown_stores (s : State) (state job reason : Nat) :
    (State.showTeardown s state job reason).mem = s.mem ∧ (State.showTeardown s state job reason).stack = s.stack := by
  unfold State.showTeardown
  simp

@[simp] theorem closeRegion_stores (s : State) (job i : Nat) :
    (State.closeRegion s job i).mem = s.mem ∧ (State.closeRegion s job i).stack = s.stack := by
  unfold State.closeRegion
  simp

@[simp] theorem closeCredit_stores (s : State) (job i : Nat) :
    (State.closeCredit s job i).mem = s.mem ∧ (State.closeCredit s job i).stack = s.stack := by
  unfold State.closeCredit
  simp

@[simp] theorem closeJobFabric_stores (s : State) (job : Nat) :
    (State.closeJobFabric s job).mem = s.mem ∧ (State.closeJobFabric s job).stack = s.stack := by
  unfold State.closeJobFabric
  simp

/-! ### KvCmds -/

@[simp] theorem memberReply_stores (s : State) (lg kind handle record position : Nat) :
    (State.memberReply s lg kind handle record position).mem = s.mem ∧ (State.memberReply s lg kind handle record position).stack = s.stack := by
  unfold State.memberReply
  simp

@[simp] theorem notePins_stores (s : State) (r : LedgerRecord) :
    (State.notePins s r).mem = s.mem ∧ (State.notePins s r).stack = s.stack := by
  unfold State.notePins
  simp

/-! ### Fab -/

@[simp] theorem modRequest_stores (s : State) (tag seq : Nat) (f : Request → Request) :
    (State.modRequest s tag seq f).mem = s.mem ∧ (State.modRequest s tag seq f).stack = s.stack := by
  unfold State.modRequest
  simp

@[simp] theorem endBulkPacket_stores (s : State) (num bytes status : Nat) :
    (State.endBulkPacket s num bytes status).mem = s.mem ∧ (State.endBulkPacket s num bytes status).stack = s.stack := by
  unfold State.endBulkPacket
  simp

theorem resend_stores (s : State) (r : Request) (avoid : List Nat) (count : Nat) (u : State) (h_u : State.resend s r avoid count = some u) :
    u.mem = s.mem ∧ u.stack = s.stack := by
  unfold State.resend at h_u
  repeat' (first | split at h_u | dsimp only at h_u)
  all_goals first
    | (simp at h_u; done)
    | (simp only [Option.some.injEq, Host.Outcome.next.injEq] at h_u; subst h_u; simp_all; done)
    | (simp_all; done)

@[simp] theorem takeMark_stores (s : State) (p : Packet) (plane : Nat) (mark : Bool) :
    (State.takeMark s p plane mark).mem = s.mem ∧ (State.takeMark s p plane mark).stack = s.stack := by
  unfold State.takeMark
  simp

@[simp] theorem lullUnreachable_stores (s : State) (hd : ResponseHead) :
    (State.lullUnreachable s hd).mem = s.mem ∧ (State.lullUnreachable s hd).stack = s.stack := by
  unfold State.lullUnreachable
  split <;> simp

@[simp] theorem spendCredit_stores (s : State) (entry : Option Nat) :
    (State.spendCredit s entry).mem = s.mem ∧ (State.spendCredit s entry).stack = s.stack := by
  unfold State.spendCredit
  split <;> simp

@[simp] theorem setBqPos_stores (s : State) (index phase : Field) (p : Nat) :
    (State.setBqPos s index phase p).mem = s.mem ∧ (State.setBqPos s index phase p).stack = s.stack := by
  unfold State.setBqPos
  simp

theorem sendBulk_mem (s : State) (b : Bulk) : (State.sendBulk s b).mem = s.mem := by
  unfold State.sendBulk
  simp [touchLines_mem]

theorem takeBulk_mem (s : State) (host : List Byte) (mine : Nat → Bool) : (State.takeBulk s host mine).mem = s.mem := by
  unfold State.takeBulk
  simp [sendBulk_mem, touchT1_mem]

/-! ### Port -/

@[simp] theorem reroute_stores (s : State) (x : List (Nat × Nat)) (p : Packet) :
    (State.reroute s x p).2.mem = s.mem ∧ (State.reroute s x p).2.stack = s.stack := by
  unfold State.reroute
  simp

@[simp] theorem rebind_stores (s : State) (port : Nat) (x : List (Nat × Nat)) :
    (State.rebind s port x).mem = s.mem ∧ (State.rebind s port x).stack = s.stack := by
  unfold State.rebind
  simp

@[simp] theorem rerouteLink_stores (s : State) (port : Nat) :
    (State.rerouteLink s port).mem = s.mem ∧ (State.rerouteLink s port).stack = s.stack := by
  unfold State.rerouteLink
  simp

@[simp] theorem coolPlane_stores (s : State) (p : Nat) : (State.coolPlane s p).mem = s.mem ∧ (State.coolPlane s p).stack = s.stack := by
  unfold State.coolPlane
  simp

@[simp] theorem discardFlit_stores (s : State) (port : Nat) :
    (State.discardFlit s port).mem = s.mem ∧ (State.discardFlit s port).stack = s.stack := by
  unfold State.discardFlit
  simp

@[simp] theorem acceptFlit_stores (s : State) (port : Nat) (flit : List Byte) :
    (State.acceptFlit s port flit).mem = s.mem ∧ (State.acceptFlit s port flit).stack = s.stack := by
  unfold State.acceptFlit
  simp

@[simp] theorem rejectFab_stores (s : State) : (State.rejectFab s).mem = s.mem ∧ (State.rejectFab s).stack = s.stack := by
  unfold State.rejectFab
  simp

/-! ### Rate -/

@[simp] theorem showRate_stores (s : State) : (State.showRate s).mem = s.mem ∧ (State.showRate s).stack = s.stack := by
  unfold State.showRate
  simp

@[simp] theorem showCapped_stores (s : State) : (State.showCapped s).mem = s.mem ∧ (State.showCapped s).stack = s.stack := by
  unfold State.showCapped
  simp

@[simp] theorem retarget_stores (s : State) (limited : Bool) :
    (State.retarget s limited).mem = s.mem ∧ (State.retarget s limited).stack = s.stack := by
  unfold State.retarget
  simp

@[simp] theorem setRails_stores (s : State) (mv : Nat) : (State.setRails s mv).mem = s.mem ∧ (State.setRails s mv).stack = s.stack := by
  unfold State.setRails
  simp

@[simp] theorem gustGovern_stores (s : State) : (State.gustGovern s).mem = s.mem ∧ (State.gustGovern s).stack = s.stack := by
  unfold State.gustGovern
  simp

@[simp] theorem recap_stores (s : State) : (State.recap s).mem = s.mem ∧ (State.recap s).stack = s.stack := by
  unfold State.recap
  simp

@[simp] theorem enterGust_stores (s : State) : (State.enterGust s).mem = s.mem ∧ (State.enterGust s).stack = s.stack := by
  unfold State.enterGust
  simp

@[simp] theorem enterBreeze_stores (s : State) (r : Nat) :
    (State.enterBreeze s r).mem = s.mem ∧ (State.enterBreeze s r).stack = s.stack := by
  unfold State.enterBreeze
  simp

@[simp] theorem enterMode_stores (s : State) (mode rate : Nat) :
    (State.enterMode s mode rate).mem = s.mem ∧ (State.enterMode s mode rate).stack = s.stack := by
  unfold State.enterMode
  simp

@[simp] theorem rejectRate_stores (s : State) (cause : Nat) :
    (State.rejectRate s cause).mem = s.mem ∧ (State.rejectRate s cause).stack = s.stack := by
  unfold State.rejectRate
  simp

@[simp] theorem requestRate_stores (s : State) (mode rate : Nat) :
    (State.requestRate s mode rate).mem = s.mem ∧ (State.requestRate s mode rate).stack = s.stack := by
  unfold State.requestRate
  simp

@[simp] theorem raiseRail_stores (s : State) (mv : Nat) : (State.raiseRail s mv).mem = s.mem ∧ (State.raiseRail s mv).stack = s.stack := by
  unfold State.raiseRail
  simp

@[simp] theorem breezeGovern_stores (s : State) : (State.breezeGovern s).mem = s.mem ∧ (State.breezeGovern s).stack = s.stack := by
  unfold State.breezeGovern
  simp

@[simp] theorem paceUp_stores (s : State) : (State.paceUp s).mem = s.mem ∧ (State.paceUp s).stack = s.stack := by
  unfold State.paceUp
  simp

@[simp] theorem paceDown_stores (s : State) (least : Nat) :
    (State.paceDown s least).mem = s.mem ∧ (State.paceDown s least).stack = s.stack := by
  unfold State.paceDown
  simp

/-! ### Power -/

@[simp] theorem meterInputs_stores (s : State) (main backup : Nat) :
    (State.meterInputs s main backup).mem = s.mem ∧ (State.meterInputs s main backup).stack = s.stack := by
  unfold State.meterInputs
  simp

@[simp] theorem switchInput_stores (s : State) (input : Nat) :
    (State.switchInput s input).mem = s.mem ∧ (State.switchInput s input).stack = s.stack := by
  unfold State.switchInput
  simp

@[simp] theorem emergencyRecord_stores (s : State) (mv : Nat) :
    (State.emergencyRecord s mv).mem = s.mem ∧ (State.emergencyRecord s mv).stack = s.stack := by
  unfold State.emergencyRecord
  simp

@[simp] theorem commitFull_stores (s : State) (x1 : Nat) :
    (State.commitFull s x1).mem = s.mem ∧ (State.commitFull s x1).stack = s.stack := by
  induction x1 generalizing s with
  | zero => (unfold State.commitFull; simp)
  | succ n ih =>
    unfold State.commitFull
    simp_all

@[simp] theorem modPersist_stores (s : State) (f : Persist → Persist) :
    (State.modPersist s f).mem = s.mem ∧ (State.modPersist s f).stack = s.stack := by
  unfold State.modPersist
  simp

@[simp] theorem writeDue_stores (s : State) : (State.writeDue s).mem = s.mem ∧ (State.writeDue s).stack = s.stack := by
  unfold State.writeDue
  simp

@[simp] theorem computeOff_stores (s : State) : (State.computeOff s).mem = s.mem ∧ (State.computeOff s).stack = s.stack := by
  unfold State.computeOff
  simp

@[simp] theorem railsOff_stores (s : State) : (State.railsOff s).mem = s.mem ∧ (State.railsOff s).stack = s.stack := by
  unfold State.railsOff
  simp

@[simp] theorem takeLease_stores (s : State) (budget number : Nat) :
    (State.takeLease s budget number).2.mem = s.mem ∧ (State.takeLease s budget number).2.stack = s.stack := by
  unfold State.takeLease
  simp

@[simp] theorem enableTailwind_stores (s : State) (grp : Nat) :
    (State.enableTailwind s grp).mem = s.mem ∧ (State.enableTailwind s grp).stack = s.stack := by
  unfold State.enableTailwind
  simp

@[simp] theorem keepReport_stores (s : State) (window : Nat) (r : TwReport) :
    (State.keepReport s window r).mem = s.mem ∧ (State.keepReport s window r).stack = s.stack := by
  unfold State.keepReport
  simp

@[simp] theorem giveGrant_stores (s : State) (dst : Nat) (group : Bool) (members watts expiry : Nat) :
    (State.giveGrant s dst group members watts expiry).mem = s.mem ∧ (State.giveGrant s dst group members watts expiry).stack = s.stack := by
  unfold State.giveGrant
  simp

@[simp] theorem setThermal_stores (s : State) (st : Nat) :
    (State.setThermal s st).mem = s.mem ∧ (State.setThermal s st).stack = s.stack := by
  unfold State.setThermal
  simp

@[simp] theorem readFray_stores (s : State) (m n : Nat) : (State.readFray s m n).mem = s.mem ∧ (State.readFray s m n).stack = s.stack := by
  unfold State.readFray
  simp

@[simp] theorem measureFray_stores (s : State) (counts : List Nat) :
    (State.measureFray s counts).mem = s.mem ∧ (State.measureFray s counts).stack = s.stack := by
  unfold State.measureFray
  simp

@[simp] theorem startRefit_stores (s : State) : (State.startRefit s).mem = s.mem ∧ (State.startRefit s).stack = s.stack := by
  unfold State.startRefit
  simp

@[simp] theorem showMargin_stores (s : State) (m : Int) : (State.showMargin s m).mem = s.mem ∧ (State.showMargin s m).stack = s.stack := by
  unfold State.showMargin
  simp

@[simp] theorem writeRefit_stores (s : State) (d : Int) (atStart : Bool) :
    (State.writeRefit s d atStart).mem = s.mem ∧ (State.writeRefit s d atStart).stack = s.stack := by
  unfold State.writeRefit
  simp

@[simp] theorem obeyRefit_stores (s : State) : (State.obeyRefit s).mem = s.mem ∧ (State.obeyRefit s).stack = s.stack := by
  unfold State.obeyRefit
  simp

/-! ### Brilo -/

@[simp] theorem modBrilo_stores (s : State) (f : Brilo → Brilo) :
    (State.modBrilo s f).mem = s.mem ∧ (State.modBrilo s f).stack = s.stack := by
  unfold State.modBrilo
  simp

@[simp] theorem coreRestart_stores (s : State) : (State.coreRestart s).mem = s.mem ∧ (State.coreRestart s).stack = s.stack := by
  unfold State.coreRestart
  simp

@[simp] theorem dueRestart_stores (s : State) : (State.dueRestart s).mem = s.mem ∧ (State.dueRestart s).stack = s.stack := by
  unfold State.dueRestart
  simp

@[simp] theorem setImage_stores (s : State) (i : Nat) (im : Image) :
    (State.setImage s i im).mem = s.mem ∧ (State.setImage s i im).stack = s.stack := by
  unfold State.setImage
  simp

@[simp] theorem drainQueue_stores (s : State) : (State.drainQueue s).mem = s.mem ∧ (State.drainQueue s).stack = s.stack := by
  unfold State.drainQueue
  simp

@[simp] theorem runImage_stores (s : State) (i : Nat) : (State.runImage s i).mem = s.mem ∧ (State.runImage s i).stack = s.stack := by
  unfold State.runImage
  simp

@[simp] theorem message_stores (s : State) (binding ep : Nat) (inRecovery : Bool) (k : State → List Nat × State)
    (h_k : ∀ t, (k t).2.mem = t.mem ∧ (k t).2.stack = t.stack) :
    (State.message s binding ep inRecovery k).mem = s.mem ∧ (State.message s binding ep inRecovery k).stack = s.stack := by
  unfold State.message
  (repeat' split) <;> simp_all

@[simp] theorem pldmCmd_stores (s : State) (binding ep type cmd : Nat) (k : State → Nat × List Nat × State)
    (h_k : ∀ t, (k t).2.2.mem = t.mem ∧ (k t).2.2.stack = t.stack) :
    (State.pldmCmd s binding ep type cmd k).mem = s.mem ∧ (State.pldmCmd s binding ep type cmd k).stack = s.stack := by
  unfold State.pldmCmd
  (repeat' split) <;> simp_all

@[simp] theorem updateCmd_stores (s : State) (binding ep cmd : Nat) (k : State → Nat × List Nat × State)
    (h_k : ∀ t, (k t).2.2.mem = t.mem ∧ (k t).2.2.stack = t.stack) :
    (State.updateCmd s binding ep cmd k).mem = s.mem ∧ (State.updateCmd s binding ep cmd k).stack = s.stack := by
  unfold State.updateCmd
  (repeat' split) <;> simp_all

@[simp] theorem sensorValue_stores (s : State) (id : Nat) :
    (State.sensorValue s id).2.mem = s.mem ∧ (State.sensorValue s id).2.stack = s.stack := by
  unfold State.sensorValue
  simp

@[simp] theorem agentCmd_stores (s : State) (binding ep cmd : Nat) (k : State → Update → Nat × List Nat × State)
    (h_k : ∀ t y1, (k t y1).2.2.mem = t.mem ∧ (k t y1).2.2.stack = t.stack) :
    (State.agentCmd s binding ep cmd k).mem = s.mem ∧ (State.agentCmd s binding ep cmd k).stack = s.stack := by
  unfold State.agentCmd
  refine updateCmd_stores _ _ _ _ _ fun t => ?_
  split
  · simp [h_k]
  · simp

@[simp] theorem setUpdate_stores (s : State) (u : Option Update) :
    (State.setUpdate s u).mem = s.mem ∧ (State.setUpdate s u).stack = s.stack := by
  unfold State.setUpdate
  simp

@[simp] theorem askData_stores (s : State) (u : Update) : (State.askData s u).mem = s.mem ∧ (State.askData s u).stack = s.stack := by
  unfold State.askData
  simp

@[simp] theorem verifyUpdate_stores (s : State) (u : Update) :
    (State.verifyUpdate s u).mem = s.mem ∧ (State.verifyUpdate s u).stack = s.stack := by
  unfold State.verifyUpdate
  simp

@[simp] theorem dropSlot_stores (s : State) (u : Update) : (State.dropSlot s u).mem = s.mem ∧ (State.dropSlot s u).stack = s.stack := by
  unfold State.dropSlot
  split <;> simp

@[simp] theorem spdm_stores (s : State) (binding ep : Nat) (k : State → List Nat × State)
    (h_k : ∀ t, (k t).2.mem = t.mem ∧ (k t).2.stack = t.stack) :
    (State.spdm s binding ep k).mem = s.mem ∧ (State.spdm s binding ep k).stack = s.stack := by
  unfold State.spdm
  (repeat' split) <;> simp_all

@[simp] theorem setSpdmPhase_stores (s : State) (binding ep n : Nat) :
    (State.setSpdmPhase s binding ep n).mem = s.mem ∧ (State.setSpdmPhase s binding ep n).stack = s.stack := by
  unfold State.setSpdmPhase
  simp

@[simp] theorem spdmAfter_stores (s : State) (binding ep n : Nat) (k : State → List Nat × State)
    (h_k : ∀ t, (k t).2.mem = t.mem ∧ (k t).2.stack = t.stack) :
    (State.spdmAfter s binding ep n k).mem = s.mem ∧ (State.spdmAfter s binding ep n k).stack = s.stack := by
  unfold State.spdmAfter
  (repeat' split) <;> simp_all

@[simp] theorem secured_stores (s : State) (binding ep : Nat) (k : State → Session → List Nat × State)
    (h_k : ∀ t y1, (k t y1).2.mem = t.mem ∧ (k t y1).2.stack = t.stack) :
    (State.secured s binding ep k).mem = s.mem ∧ (State.secured s binding ep k).stack = s.stack := by
  unfold State.secured
  split
  · simp
  · refine spdm_stores _ _ _ _ fun t => ?_
    split
    · exact h_k _ _
    · simp

@[simp] theorem dropSession_stores (s : State) (binding ep : Nat) :
    (State.dropSession s binding ep).mem = s.mem ∧ (State.dropSession s binding ep).stack = s.stack := by
  unfold State.dropSession
  simp

/-! ### MemCmds -/

@[simp] theorem afterScan_stores (s : State) (off : Nat) (bs : List Byte) :
    (State.afterScan s off bs).2.mem = s.mem ∧ (State.afterScan s off bs).2.stack = s.stack := by
  unfold State.afterScan
  simp

theorem writeBack_mem (s : State) (x : Nat × Nat) : (State.writeBack s x).mem = s.mem := by
  unfold State.writeBack
  simp [storeLine_mem]

theorem beginFlush_mem (s : State) : (State.beginFlush s).mem = s.mem := by
  unfold State.beginFlush
  simp [writeBack_mem]

@[simp] theorem rejectEntry_stores (s : State) : (State.rejectEntry s).mem = s.mem ∧ (State.rejectEntry s).stack = s.stack := by
  unfold State.rejectEntry
  simp

/-! ### Start -/

@[simp] theorem loadPersist_stores (s : State) : (State.loadPersist s).mem = s.mem ∧ (State.loadPersist s).stack = s.stack := by
  unfold State.loadPersist
  simp

@[simp] theorem toStage_stores (s : State) (n : Nat) : (State.toStage s n).mem = s.mem ∧ (State.toStage s n).stack = s.stack := by
  unfold State.toStage
  simp

@[simp] theorem showEntries_stores (s : State) : (State.showEntries s).mem = s.mem ∧ (State.showEntries s).stack = s.stack := by
  unfold State.showEntries
  simp

@[simp] theorem loadColumn_stores (s : State) (c : Nat) (x : Nat × Nat) :
    (State.loadColumn s c x).mem = s.mem ∧ (State.loadColumn s c x).stack = s.stack := by
  unfold State.loadColumn
  split <;> simp

@[simp] theorem loadLane_stores (s : State) (c : Nat) (x : Nat × Nat) :
    (State.loadLane s c x).mem = s.mem ∧ (State.loadLane s c x).stack = s.stack := by
  unfold State.loadLane
  simp

@[simp] theorem loadRepair_stores (s : State) (c : Nat) (es : List RepairEntry) (retired : Bool) :
    (State.loadRepair s c es retired).mem = s.mem ∧ (State.loadRepair s c es retired).stack = s.stack := by
  unfold State.loadRepair
  split <;> simp

@[simp] theorem clearRepair_stores (s : State) : (State.clearRepair s).mem = s.mem ∧ (State.clearRepair s).stack = s.stack := by
  unfold State.clearRepair
  simp

@[simp] theorem repairUnit_stores (s : State) (all : List RepairEntry) (bad : List Nat) (u : Nat) :
    (State.repairUnit s all bad u).mem = s.mem ∧ (State.repairUnit s all bad u).stack = s.stack := by
  unfold State.repairUnit
  split <;> simp

@[simp] theorem applyRepair_stores (s : State) (all : List RepairEntry) (bad : List Nat) :
    (State.applyRepair s all bad).mem = s.mem ∧ (State.applyRepair s all bad).stack = s.stack := by
  unfold State.applyRepair
  simp

@[simp] theorem startMode_stores (s : State) : (State.startMode s).mem = s.mem ∧ (State.startMode s).stack = s.stack := by
  unfold State.startMode
  simp

@[simp] theorem showLast_stores (s : State) : (State.showLast s).mem = s.mem ∧ (State.showLast s).stack = s.stack := by
  unfold State.showLast
  simp

@[simp] theorem publishRuns_stores (s : State) : (State.publishRuns s).mem = s.mem ∧ (State.publishRuns s).stack = s.stack := by
  unfold State.publishRuns
  simp

@[simp] theorem publishTests_stores (s : State) : (State.publishTests s).mem = s.mem ∧ (State.publishTests s).stack = s.stack := by
  unfold State.publishTests
  simp

@[simp] theorem publish_stores (s : State) : (State.publish s).mem = s.mem ∧ (State.publish s).stack = s.stack := by
  unfold State.publish
  dsimp only
  rw [setFld_mem, setFld_mem, setFld_stack, setFld_stack]
  exact ⟨(publishTests_stores s.showLast.publishRuns).1.trans ((publishRuns_stores s.showLast).1.trans (showLast_stores s).1),
    (publishTests_stores s.showLast.publishRuns).2.trans ((publishRuns_stores s.showLast).2.trans (showLast_stores s).2)⟩

@[simp] theorem remember_stores (s : State) : (State.remember s).mem = s.mem ∧ (State.remember s).stack = s.stack := by
  unfold State.remember
  simp

@[simp] theorem inPhase_stores (s : State) (n : Nat) (k : Shutdown → State) (h_k : ∀ y0, (k y0).mem = s.mem ∧ (k y0).stack = s.stack) :
    (State.inPhase s n k).mem = s.mem ∧ (State.inPhase s n k).stack = s.stack := by
  unfold State.inPhase
  (repeat' split) <;> simp_all

@[simp] theorem toPhase_stores (s : State) (d : Shutdown) (n : Nat) :
    (State.toPhase s d n).mem = s.mem ∧ (State.toPhase s d n).stack = s.stack := by
  unfold State.toPhase
  simp

@[simp] theorem clearSecrets_stores (s : State) : (State.clearSecrets s).mem = s.mem ∧ (State.clearSecrets s).stack = s.stack := by
  unfold State.clearSecrets
  simp

@[simp] theorem endSlice_stores (s : State) (d : Shutdown) (result ms : Nat) (faults : List RepairEntry) (stopped : Bool) :
    (State.endSlice s d result ms faults stopped).mem = s.mem ∧ (State.endSlice s d result ms faults stopped).stack = s.stack := by
  unfold State.endSlice
  simp

/-! ### Serving -/

@[simp] theorem sendBatch_stores (s : State) (b : Batch) : (State.sendBatch s b).mem = s.mem ∧ (State.sendBatch s b).stack = s.stack := by
  unfold State.sendBatch
  simp

@[simp] theorem setSample_stores (s : State) (lg : Nat) (x : RowSample) :
    (State.setSample s lg x).mem = s.mem ∧ (State.setSample s lg x).stack = s.stack := by
  unfold State.setSample
  simp

@[simp] theorem takePartial_stores (s : State) (lg batch row ep : Nat) (p : Partial) :
    (State.takePartial s lg batch row ep p).mem = s.mem ∧ (State.takePartial s lg batch row ep p).stack = s.stack := by
  unfold State.takePartial
  simp

@[simp] theorem partialArrives_stores (s : State) (ledger batch row ep : Nat) (part : Partial) :
    (State.partialArrives s ledger batch row ep part).mem = s.mem ∧ (State.partialArrives s ledger batch row ep part).stack = s.stack := by
  unfold State.partialArrives
  simp

theorem doEntries_stores (s : State) (f : State → Nat → Option State)
    (hf : ∀ s b u, f s b = some u → u.mem = s.mem ∧ u.stack = s.stack) (blk n : Nat) :
    (s.doEntries f blk n).1.mem = s.mem ∧ (s.doEntries f blk n).1.stack = s.stack := by
  induction n generalizing s blk with
  | zero => exact ⟨rfl, rfl⟩
  | succ n ih =>
    unfold State.doEntries
    split
    · rename_i h
      exact ⟨(ih _ _).1.trans (hf _ _ _ h).1, (ih _ _).2.trans (hf _ _ _ h).2⟩
    · exact ⟨rfl, rfl⟩

@[simp] theorem takeSlice_stores (s : State) (lg core func : Nat) (b : Batch) (step first width logits row k : Nat) :
    (State.takeSlice s lg core func b step first width logits row k).mem = s.mem ∧ (State.takeSlice s lg core func b step first width logits row k).stack = s.stack := by
  unfold State.takeSlice
  simp

@[simp] theorem takeLogits_stores (s : State) (core : Nat) (o : EngineOp) :
    (State.takeLogits s core o).mem = s.mem ∧ (State.takeLogits s core o).stack = s.stack := by
  unfold State.takeLogits
  (repeat' (first | split | dsimp only)) <;> simp_all

@[simp] theorem sendReport_stores (s : State) (lg batch : Nat) (props : List (Nat × Nat × Nat)) (res : List ResultRow) :
    (State.sendReport s lg batch props res).mem = s.mem ∧ (State.sendReport s lg batch props res).stack = s.stack := by
  unfold State.sendReport
  simp

/-! ### Exchange -/

@[simp] theorem xeEvt_stores (s : State) (f : Field) : (State.xeEvt s f).mem = s.mem ∧ (State.xeEvt s f).stack = s.stack := by
  unfold State.xeEvt
  simp

@[simp] theorem countStale_stores (s : State) : (State.countStale s).mem = s.mem ∧ (State.countStale s).stack = s.stack := by
  unfold State.countStale
  simp

@[simp] theorem overflowRow_stores (s : State) : (State.overflowRow s).mem = s.mem ∧ (State.overflowRow s).stack = s.stack := by
  unfold State.overflowRow
  simp

/-! ### Gsc -/

@[simp] theorem modSync_stores (s : State) (f : GscSync → GscSync) :
    (State.modSync s f).mem = s.mem ∧ (State.modSync s f).stack = s.stack := by
  unfold State.modSync
  simp

@[simp] theorem timingTake_stores (s : State) (hd : PacketHead) (k : State → State) (h_k : ∀ t, (k t).mem = t.mem ∧ (k t).stack = t.stack) :
    (State.timingTake s hd k).mem = s.mem ∧ (State.timingTake s hd k).stack = s.stack := by
  unfold State.timingTake
  (repeat' split) <;> simp_all

@[simp] theorem gmConflict_stores (s : State) : (State.gmConflict s).mem = s.mem ∧ (State.gmConflict s).stack = s.stack := by
  unfold State.gmConflict
  simp

@[simp] theorem hearMaster_stores (s : State) (gm : Nat) :
    (State.hearMaster s gm).mem = s.mem ∧ (State.hearMaster s gm).stack = s.stack := by
  unfold State.hearMaster
  simp

@[simp] theorem unlock_stores (s : State) (st : Nat) : (State.unlock s st).mem = s.mem ∧ (State.unlock s st).stack = s.stack := by
  unfold State.unlock
  simp

@[simp] theorem stepGsc_stores (s : State) (m : Int) : (State.stepGsc s m).mem = s.mem ∧ (State.stepGsc s m).stack = s.stack := by
  unfold State.stepGsc
  simp

@[simp] theorem takeMedian_stores (s : State) (m : Int) : (State.takeMedian s m).mem = s.mem ∧ (State.takeMedian s m).stack = s.stack := by
  unfold State.takeMedian
  simp

@[simp] theorem slewStep_stores (s : State) : (State.slewStep s).2.mem = s.mem ∧ (State.slewStep s).2.stack = s.stack := by
  unfold State.slewStep
  simp

@[simp] theorem tick_stores (s : State) : (State.tick s).mem = s.mem ∧ (State.tick s).stack = s.stack := by
  unfold State.tick
  simp

/-! ### Lull -/

@[simp] theorem arbiterTally_stores (s : State) (src : Nat) (p : Suspect) (cause events : Nat) :
    (State.arbiterTally s src p cause events).mem = s.mem ∧ (State.arbiterTally s src p cause events).stack = s.stack := by
  unfold State.arbiterTally
  simp

@[simp] theorem sendTally_stores (s : State) (x : Nat × LullEntry) :
    (State.sendTally s x).mem = s.mem ∧ (State.sendTally s x).stack = s.stack := by
  unfold State.sendTally
  simp

/-! ### Sync -/

@[simp] theorem sendSignals_stores (s : State) (c event : Nat) (targets : List Nat) :
    (State.sendSignals s c event targets).mem = s.mem ∧ (State.sendSignals s c event targets).stack = s.stack := by
  unfold State.sendSignals
  simp

@[simp] theorem applyClaim_stores (s : State) (tile c : Nat) :
    (State.applyClaim s tile c).mem = s.mem ∧ (State.applyClaim s tile c).stack = s.stack := by
  unfold State.applyClaim
  split <;> simp

/-! ### Host -/

@[simp] theorem clearBit_stores (s : State) (f : Field) (i : Nat) :
    (State.clearBit s f i).mem = s.mem ∧ (State.clearBit s f i).stack = s.stack := by
  unfold State.clearBit
  simp

@[simp] theorem writeField_stores (s : State) (offset bytes : Nat) (f : Field) (i v : Nat) :
    (State.writeField s offset bytes f i v).mem = s.mem ∧ (State.writeField s offset bytes f i v).stack = s.stack := by
  unfold State.writeField
  split <;> simp

@[simp] theorem afterWrite_stores (s : State) (offset : Nat) :
    (State.afterWrite s offset).mem = s.mem ∧ (State.afterWrite s offset).stack = s.stack := by
  unfold State.afterWrite
  simp

@[simp] theorem holdBeat_stores (s : State) (k held fails : Nat) :
    (State.holdBeat s k held fails).mem = s.mem ∧ (State.holdBeat s k held fails).stack = s.stack := by
  unfold State.holdBeat
  simp

/-! ### Vrw -/

@[simp] theorem chargeVrw_stores (s : State) (c n : Nat) :
    (State.chargeVrw s c n).mem = s.mem ∧ (State.chargeVrw s c n).stack = s.stack := by
  unfold State.chargeVrw
  simp

end Sys2Proof.Machine.State
end

