-- ==== Sys2Proof/Laws/Stored.lean ====
section
/-! SUPPORT. The operations that write to the byte stores keep every store canonical (`State.Stored`): one lemma for each, in the order of
the files of Machine. -/

namespace Sys2Proof.Machine.State

set_option linter.unusedTactic false
set_option linter.unreachableTactic false
set_option linter.unnecessarySeqFocus false
set_option linter.unusedSimpArgs false

theorem foldl_stored {α : Type} (f : State → α → State) (hf : ∀ s x, s.Stored → (f s x).Stored) (l : List α) (s : State)
    (h : s.Stored) : (l.foldl f s).Stored := by
  induction l generalizing s with
  | nil => exact h
  | cons a r ih => exact ih _ (hf _ _ h)
theorem foldl_stored_snd {α β : Type} (f : β × State → α → β × State) (hf : ∀ x a, x.2.Stored → (f x a).2.Stored) (l : List α)
    (x : β × State) (h : x.2.Stored) : (l.foldl f x).2.Stored := by
  induction l generalizing x with
  | nil => exact h
  | cons a r ih => exact ih _ (hf _ _ h)
theorem foldl_stored_fst {α β : Type} (f : State × β → α → State × β) (hf : ∀ x a, x.1.Stored → (f x a).1.Stored) (l : List α)
    (x : State × β) (h : x.1.Stored) : (l.foldl f x).1.Stored := by
  induction l generalizing x with
  | nil => exact h
  | cons a r ih => exact ih _ (hf _ _ h)
theorem foldl_stored_dec {α : Type} (f : Decision → α → Decision) (hf : ∀ x a, x.s.Stored → (f x a).s.Stored) (l : List α)
    (x : Decision) (h : x.s.Stored) : (l.foldl f x).s.Stored := by
  induction l generalizing x with
  | nil => exact h
  | cons a r ih => exact ih _ (hf _ _ h)
theorem foldl_stored_for {α : Type} (f : Forming → α → Forming) (hf : ∀ x a, x.s.Stored → (f x a).s.Stored) (l : List α)
    (x : Forming) (h : x.s.Stored) : (l.foldl f x).s.Stored := by
  induction l generalizing x with
  | nil => exact h
  | cons a r ih => exact ih _ (hf _ _ h)
theorem ite_stored (c : Prop) [Decidable c] (a b : State) (ha : a.Stored) (hb : b.Stored) : (if c then a else b).Stored := by
  split <;> assumption
theorem getD_stored {α : Type} (o : Option α) (f : α → State) (d : State) (hf : ∀ a, (f a).Stored) (h : d.Stored) :
    ((o.map f).getD d).Stored := by
  cases o
  · exact h
  · exact hf _
theorem stored_mem {s : State} (h : s.Stored) {m : Memory} (hm : m.wf = true) : ({ s with mem := m } : State).Stored := ⟨hm, h.2⟩
theorem refold {s : State} (h : s.Stored) : storesOk s.mem s.stack := h
theorem stored_of_stores {s t : State} (h : t.mem = s.mem ∧ t.stack = s.stack) (hs : s.Stored) : t.Stored := by
  unfold State.Stored
  rw [h.1, h.2]
  exact hs

/-! ### Ops -/

theorem reportWith_stored (bump : State → Field → State) (s : State) (p : Suspect) (kind cause severity : Nat) (payload : List Nat)
    (h_bump : ∀ t y1, t.Stored → (bump t y1).Stored) (hs : s.Stored) : (State.reportWith bump s p kind cause severity payload).Stored := by
  unfold State.reportWith
  (try dsimp only)
  repeat' first
    | with_reducible assumption
    | with_reducible apply h_bump
    | split
    | with_reducible apply ite_stored
    | with_reducible apply refold
    | (simp [State.Stored])

theorem countWith_stored (report : State → Suspect → Nat → Nat → Nat → List Nat → State) (s : State) (f : Field) (n : Nat) (i : Nat)
    (h_report : ∀ t y1 y2 y3 y4 y5, t.Stored → (report t y1 y2 y3 y4 y5).Stored) (hs : s.Stored) :
    (State.countWith report s f n i).Stored := by
  unfold State.countWith
  (try dsimp only)
  repeat' first
    | with_reducible assumption
    | with_reducible apply h_report
    | split
    | with_reducible apply ite_stored
    | with_reducible apply refold
    | (simp [State.Stored])

theorem hostWrite_stored (s : State) (offset bytes : Nat) (k : State → State) (h_k : ∀ t, t.Stored → (k t).Stored) (hs : s.Stored) :
    (State.hostWrite s offset bytes k).Stored := by
  unfold State.hostWrite
  (try dsimp only)
  repeat' first
    | with_reducible assumption
    | with_reducible apply h_k
    | split
    | with_reducible apply ite_stored
    | with_reducible apply refold
    | (simp [State.Stored])

theorem hostRead_stored (s : State) (offset bytes : Nat) (k : State → State) (h_k : ∀ t, t.Stored → (k t).Stored) (hs : s.Stored) :
    (State.hostRead s offset bytes k).Stored := by
  unfold State.hostRead
  (try dsimp only)
  repeat' first
    | with_reducible assumption
    | with_reducible apply h_k
    | split
    | with_reducible apply ite_stored
    | with_reducible apply refold
    | (simp [State.Stored])

/-! ### Mem -/

theorem scratchPut_stored (s : State) (core off : Nat) (bs : List Byte) (hs : s.Stored) : (s.scratchPut core off bs).Stored :=
  ⟨scratchPut_wf _ _ _ _ hs.1, hs.2⟩

theorem sramPut_stored (s : State) (core off : Nat) (bs : List Byte) (hs : s.Stored) : (s.sramPut core off bs).Stored :=
  ⟨sramPut_wf _ _ _ _ hs.1, hs.2⟩

theorem t3Put_stored (s : State) (off : Nat) (bs : List Byte) (hs : s.Stored) : (s.t3Put off bs).Stored :=
  ⟨t3Put_wf _ _ _ hs.1, hs.2⟩

theorem storeLine_stored (s : State) (stack line : Nat) (hs : s.Stored) : (s.storeLine stack line).Stored :=
  ⟨hs.1, wf_takeRange _ _ hs.2 ((Memory.wf_iff _).mp hs.1).2.2.1⟩

theorem touchLines_stored (s : State) (off n : Nat) (write : Bool) (hs : s.Stored) : (s.touchLines off n write).Stored := by
  refine ⟨?_, touchLines_stack_wf s off n write ((Memory.wf_iff _).mp hs.1).2.2.1 hs.2⟩
  rw [touchLines_mem]
  exact hs.1

theorem t1Read_stored (s : State) (off n : Nat) (hs : s.Stored) : (State.t1Read s off n).2.Stored := by
  unfold State.t1Read
  (try dsimp only)
  repeat' first
    | with_reducible assumption
    | with_reducible apply touchLines_stored
    | split
    | with_reducible apply ite_stored
    | with_reducible apply refold
    | (simp [State.Stored])

theorem t1Put_stored (s : State) (off : Nat) (bs : List Byte) (hs : s.Stored) : (s.t1Put off bs).Stored :=
  ⟨t1Put_wf _ _ _ hs.1, (touchLines_stored s off bs.length true hs).2⟩

theorem t1Zero_stored (s : State) (off n : Nat) (hs : s.Stored) : (s.t1Zero off n).Stored :=
  ⟨t1Zero_wf _ _ _ hs.1, (touchLines_stored s off n true hs).2⟩

theorem touchT1_stored (s : State) (a n : Nat) (hs : s.Stored) : (State.touchT1 s a n).Stored := by
  unfold State.touchT1
  (try dsimp only)
  repeat' first
    | with_reducible assumption
    | with_reducible apply touchLines_stored
    | split
    | with_reducible apply ite_stored
    | with_reducible apply refold
    | (simp [State.Stored])

theorem progPut_stored (s : State) (core a : Nat) (bs : List Byte) (hs : s.Stored) : (State.progPut s core a bs).Stored := by
  unfold State.progPut
  (try dsimp only)
  repeat' first
    | with_reducible assumption
    | with_reducible apply t1Put_stored
    | with_reducible apply t3Put_stored
    | with_reducible apply sramPut_stored
    | with_reducible apply scratchPut_stored
    | split
    | with_reducible apply ite_stored
    | with_reducible apply refold
    | (simp [State.Stored])

theorem areaPut_stored (s : State) (a : Nat) (bs : List Byte) (hs : s.Stored) : (State.areaPut s a bs).Stored := by
  unfold State.areaPut
  (try dsimp only)
  repeat' first
    | with_reducible assumption
    | with_reducible apply t1Put_stored
    | with_reducible apply t3Put_stored
    | split
    | with_reducible apply ite_stored
    | with_reducible apply refold
    | (simp [State.Stored])

/-! ### Queues -/

theorem doorbell_stored (s : State) (k : State → State) (h_k : ∀ t, t.Stored → (k t).Stored) (hs : s.Stored) :
    (State.doorbell s k).Stored := by
  unfold State.doorbell
  (try dsimp only)
  repeat' first
    | with_reducible assumption
    | with_reducible apply h_k
    | split
    | with_reducible apply ite_stored
    | with_reducible apply refold
    | (simp [State.Stored])

theorem take_stored (s : State) (q : Nat) (cmd : Command) (hs : s.Stored) : (State.take s q cmd).2.Stored := by
  unfold State.take
  (try dsimp only)
  repeat' first
    | with_reducible assumption
    | with_reducible apply touchT1_stored
    | split
    | with_reducible apply ite_stored
    | with_reducible apply refold
    | (simp [State.Stored])

theorem takeCmd_stored (s : State) (q : Nat) (host : List Byte) (mine : Nat → Bool) (k : State → Taken → Command → State)
    (h_k : ∀ t y1 y2, t.Stored → (k t y1 y2).Stored) (hs : s.Stored) : (State.takeCmd s q host mine k).Stored := by
  unfold State.takeCmd
  (try dsimp only)
  repeat' first
    | with_reducible assumption
    | with_reducible apply h_k
    | with_reducible apply take_stored
    | split
    | with_reducible apply ite_stored
    | with_reducible apply refold
    | (simp [State.Stored])

theorem complete_stored (s : State) (t : Taken) (status detail : Nat) (hs : s.Stored) : (State.complete s t status detail).Stored := by
  unfold State.complete
  (try dsimp only)
  repeat' first
    | with_reducible assumption
    | with_reducible apply areaPut_stored
    | split
    | with_reducible apply ite_stored
    | with_reducible apply refold
    | (simp [State.Stored])

theorem completeKv_stored (s : State) (t : Option Taken) (status detail : Nat) (hs : s.Stored) :
    (State.completeKv s t status detail).Stored := by
  unfold State.completeKv
  (try dsimp only)
  repeat' first
    | with_reducible assumption
    | with_reducible apply complete_stored
    | split
    | with_reducible apply ite_stored
    | with_reducible apply refold
    | (simp [State.Stored])

theorem streamRecord_stored (s : State) (q handle flags status token pos : Nat) (hs : s.Stored) :
    (State.streamRecord s q handle flags status token pos).Stored := by
  unfold State.streamRecord
  (try dsimp only)
  repeat' first
    | with_reducible assumption
    | with_reducible apply areaPut_stored
    | split
    | with_reducible apply ite_stored
    | with_reducible apply refold
    | (simp [State.Stored])

/-! ### Kv -/

theorem putT1_stored (s : State) (a n v : Nat) (hs : s.Stored) : (State.putT1 s a n v).Stored := by
  unfold State.putT1
  (try dsimp only)
  repeat' first
    | with_reducible assumption
    | with_reducible apply t1Put_stored
    | split
    | with_reducible apply ite_stored
    | with_reducible apply refold
    | (simp [State.Stored])

theorem zeroSet_stored (s : State) (k : Nat) (hs : s.Stored) : (State.zeroSet s k).Stored := by
  unfold State.zeroSet
  (try dsimp only)
  repeat' first
    | with_reducible assumption
    | with_reducible apply t1Zero_stored
    | split
    | with_reducible apply ite_stored
    | with_reducible apply refold
    | (simp [State.Stored])

theorem t1Drop_stored (s : State) (a n : Nat) (which : Nat → Bool) (hs : s.Stored) : (s.t1Drop a n which).Stored := by
  have h := touchLines_stored s a n true hs
  have hm := (Memory.wf_iff _).mp h.1
  exact ⟨(Memory.wf_iff _).mpr ⟨hm.1, hm.2.1, Table.wf_filter 0 _ hm.2.2.1, hm.2.2.2⟩, h.2⟩

theorem wf_copyRange (t : List Host.Cell) (a n b : Nat) (keep : Nat → Bool) (h : Table.wf (0 : Byte) t = true) :
    Table.wf (0 : Byte) (copyRange t a n b keep) = true := by
  unfold copyRange
  have (l : List Host.Cell) (u : List Host.Cell) (hu : Table.wf (0 : Byte) u = true) :
      Table.wf (0 : Byte) (l.foldl (fun t e => Table.set 0 t (b + (e.1 - a)) e.2) u) = true := by
    induction l generalizing u with
    | nil => exact hu
    | cons x r ih => exact ih _ (Table.wf_set 0 _ _ hu)
  exact this _ _ (wf_zeroRange _ _ h)

theorem t1Copy_stored (s : State) (a b n : Nat) (keep : Nat → Bool) (hs : s.Stored) : (s.t1Copy a b n keep).Stored := by
  have h := touchLines_stored _ b n true (touchLines_stored s a n false hs)
  have hm := (Memory.wf_iff _).mp h.1
  exact ⟨(Memory.wf_iff _).mpr ⟨hm.1, hm.2.1, wf_copyRange _ _ _ _ _ hm.2.2.1, hm.2.2.2⟩, h.2⟩

theorem zeroSlots_stored (s : State) (k : Nat) (which : Nat → Bool) (hs : s.Stored) : (State.zeroSlots s k which).Stored := by
  unfold State.zeroSlots
  (try dsimp only)
  repeat' first
    | with_reducible assumption
    | with_reducible apply t1Drop_stored
    | split
    | with_reducible apply ite_stored
    | with_reducible apply refold
    | (simp [State.Stored])

theorem parkPut_stored (s : State) (a : Nat) (bs : List Byte) (hs : s.Stored) : (State.parkPut s a bs).Stored := by
  unfold State.parkPut
  (try dsimp only)
  repeat' first
    | with_reducible assumption
    | with_reducible apply t3Put_stored
    | split
    | with_reducible apply ite_stored
    | with_reducible apply refold
    | (simp [State.Stored])

theorem parkCopy_stored (s : State) (set slot : Nat) (cd : CopyData) (hs : s.Stored) : (State.parkCopy s set slot cd).1.Stored := by
  unfold State.parkCopy
  (try dsimp only)
  repeat' first
    | with_reducible assumption
    | with_reducible apply parkPut_stored
    | with_reducible apply touchLines_stored
    | split
    | with_reducible apply ite_stored
    | with_reducible apply refold
    | (simp [State.Stored])

theorem restoreCopy_stored (s : State) (slot set : Nat) (cd : CopyData) (hs : s.Stored) : (State.restoreCopy s slot set cd).1.Stored := by
  unfold State.restoreCopy
  (try dsimp only)
  repeat' first
    | with_reducible assumption
    | with_reducible apply t1Zero_stored
    | with_reducible apply t1Put_stored
    | split
    | with_reducible apply ite_stored
    | with_reducible apply refold
    | (simp [State.Stored])

theorem setEntry_stored (s : State) (h i e : Nat) (hs : s.Stored) : (State.setEntry s h i e).Stored := by
  unfold State.setEntry
  (try dsimp only)
  repeat' first
    | with_reducible assumption
    | with_reducible apply putT1_stored
    | split
    | with_reducible apply ite_stored
    | with_reducible apply refold
    | (simp [State.Stored])

theorem setTblk_stored (s : State) (h k b : Nat) (hs : s.Stored) : (State.setTblk s h k b).Stored := by
  unfold State.setTblk
  (try dsimp only)
  repeat' first
    | with_reducible assumption
    | with_reducible apply putT1_stored
    | split
    | with_reducible apply ite_stored
    | with_reducible apply refold
    | (simp [State.Stored])

theorem copySet_stored (s : State) (a b n : Nat) (hs : s.Stored) : (State.copySet s a b n).Stored := by
  unfold State.copySet
  (try dsimp only)
  repeat' first
    | with_reducible assumption
    | with_reducible apply t1Copy_stored
    | split
    | with_reducible apply ite_stored
    | with_reducible apply refold
    | (simp [State.Stored])

theorem applyOp_stored (s : State) (o : LedgerOp) (cd : CopyData) (hs : s.Stored) : (State.applyOp s o cd).1.Stored := by
  unfold State.applyOp
  (try dsimp only)
  repeat' first
    | with_reducible assumption
    | with_reducible apply copySet_stored
    | with_reducible apply setTblk_stored
    | with_reducible apply setEntry_stored
    | with_reducible apply restoreCopy_stored
    | with_reducible apply parkCopy_stored
    | with_reducible apply zeroSlots_stored
    | with_reducible apply zeroSet_stored
    | with_reducible apply putT1_stored
    | with_reducible apply t1Zero_stored
    | split
    | with_reducible apply ite_stored
    | with_reducible apply refold
    | (simp [State.Stored])

theorem Decision_op_stored (d : Decision) (op handle a b c : Nat) (hs : d.s.Stored) : (Decision.op d op handle a b c).s.Stored := by
  unfold Decision.op
  (try dsimp only)
  repeat' first
    | with_reducible assumption
    | with_reducible apply applyOp_stored
    | split
    | with_reducible apply ite_stored
    | with_reducible apply refold
    | (simp [State.Stored])

theorem Decision_copy_stored (d : Decision) (op a b i : Nat) (hs : d.s.Stored) : (Decision.copy d op a b i).s.Stored := by
  unfold Decision.copy
  (try dsimp only)
  repeat' first
    | with_reducible assumption
    | with_reducible apply Decision_op_stored
    | split
    | with_reducible apply ite_stored
    | with_reducible apply refold
    | (simp [State.Stored])

theorem Decision_field_stored (d : Decision) (h off n v : Nat) (hs : d.s.Stored) : (Decision.field d h off n v).s.Stored := by
  unfold Decision.field
  (try dsimp only)
  repeat' first
    | with_reducible assumption
    | with_reducible apply Decision_op_stored
    | split
    | with_reducible apply ite_stored
    | with_reducible apply refold
    | (simp [State.Stored])

theorem Decision_flags_stored (d : Decision) (h v : Nat) (hs : d.s.Stored) : (Decision.flags d h v).s.Stored := by
  unfold Decision.flags
  (try dsimp only)
  repeat' first
    | with_reducible assumption
    | with_reducible apply Decision_field_stored
    | split
    | with_reducible apply ite_stored
    | with_reducible apply refold
    | (simp [State.Stored])

theorem Decision_showSets_stored (d : Decision) (h : Nat) (hs : d.s.Stored) : (Decision.showSets d h).s.Stored := by
  unfold Decision.showSets
  (try dsimp only)
  repeat' first
    | with_reducible assumption
    | with_reducible apply Decision_field_stored
    | split
    | with_reducible apply ite_stored
    | with_reducible apply refold
    | (simp [State.Stored])

theorem Decision_entry_stored (d : Decision) (lg h i e : Nat) (hs : d.s.Stored) : (Decision.entry d lg h i e).s.Stored := by
  unfold Decision.entry
  (try dsimp only)
  repeat' first
    | with_reducible assumption
    | with_reducible apply Decision_op_stored
    | split
    | with_reducible apply ite_stored
    | with_reducible apply refold
    | (simp [State.Stored])

theorem Decision_freeBlocks_stored (d : Decision) (h : Nat) (hs : d.s.Stored) : (Decision.freeBlocks d h).s.Stored := by
  unfold Decision.freeBlocks
  (try dsimp only)
  repeat' first
    | with_reducible assumption
    | with_reducible (intro _)
    | with_reducible apply Decision_op_stored
    | with_reducible refine foldl_stored _ ?_ _ _ ?_
    | with_reducible refine foldl_stored_snd _ ?_ _ _ ?_
    | with_reducible refine foldl_stored_fst _ ?_ _ _ ?_
    | with_reducible refine foldl_stored_dec _ ?_ _ _ ?_
    | with_reducible refine foldl_stored_for _ ?_ _ _ ?_
    | split
    | with_reducible apply ite_stored
    | with_reducible apply refold
    | (simp [State.Stored])

theorem Decision_unref_stored (d : Decision) (set : Nat) (hs : d.s.Stored) : (Decision.unref d set).s.Stored := by
  unfold Decision.unref
  (try dsimp only)
  repeat' first
    | with_reducible assumption
    | with_reducible apply Decision_op_stored
    | split
    | with_reducible apply ite_stored
    | with_reducible apply refold
    | (simp [State.Stored])

theorem Decision_replace_stored (d : Decision) (lg h i e : Nat) (hs : d.s.Stored) : (Decision.replace d lg h i e).s.Stored := by
  unfold Decision.replace
  (try dsimp only)
  repeat' first
    | with_reducible assumption
    | with_reducible apply Decision_unref_stored
    | with_reducible apply Decision_entry_stored
    | split
    | with_reducible apply ite_stored
    | with_reducible apply refold
    | (simp [State.Stored])

theorem Decision_drop_stored (d : Decision) (lg h i : Nat) (hs : d.s.Stored) : (Decision.drop d lg h i).s.Stored := by
  unfold Decision.drop
  (try dsimp only)
  repeat' first
    | with_reducible assumption
    | with_reducible apply Decision_replace_stored
    | with_reducible apply Decision_field_stored
    | split
    | with_reducible apply ite_stored
    | with_reducible apply refold
    | (simp [State.Stored])

theorem Decision_dropFrom_stored (d : Decision) (lg h i : Nat) (hs : d.s.Stored) : (Decision.dropFrom d lg h i).s.Stored := by
  unfold Decision.dropFrom
  (try dsimp only)
  repeat' first
    | with_reducible assumption
    | with_reducible (intro _)
    | with_reducible apply Decision_drop_stored
    | with_reducible apply Decision_showSets_stored
    | with_reducible refine foldl_stored _ ?_ _ _ ?_
    | with_reducible refine foldl_stored_snd _ ?_ _ _ ?_
    | with_reducible refine foldl_stored_fst _ ?_ _ _ ?_
    | with_reducible refine foldl_stored_dec _ ?_ _ _ ?_
    | with_reducible refine foldl_stored_for _ ?_ _ _ ?_
    | split
    | with_reducible apply ite_stored
    | with_reducible apply refold
    | (simp [State.Stored])

theorem Decision_dropVictims_stored (d : Decision) (lg h n free : Nat) (hs : d.s.Stored) :
    (Decision.dropVictims d lg h n free).s.Stored := by
  unfold Decision.dropVictims
  (try dsimp only)
  repeat' first
    | with_reducible assumption
    | with_reducible (intro _)
    | with_reducible apply Decision_drop_stored
    | with_reducible apply Decision_showSets_stored
    | with_reducible refine foldl_stored _ ?_ _ _ ?_
    | with_reducible refine foldl_stored_snd _ ?_ _ _ ?_
    | with_reducible refine foldl_stored_fst _ ?_ _ _ ?_
    | with_reducible refine foldl_stored_dec _ ?_ _ _ ?_
    | with_reducible refine foldl_stored_for _ ?_ _ _ ?_
    | split
    | with_reducible apply ite_stored
    | with_reducible apply refold
    | (simp [State.Stored])

theorem Decision_obtain_stored (d : Decision) (lg h n m : Nat) (grow : Bool) (u : Decision) (h_u : Decision.obtain d lg h n m grow = some u)
    (hs : d.s.Stored) : u.s.Stored := by
  unfold Decision.obtain at h_u
  repeat' (first | split at h_u | dsimp only at h_u)
  all_goals first
    | (injection h_u; done)
    | (injection h_u with h_u; subst h_u; (try dsimp only))
  repeat' first
    | with_reducible assumption
    | with_reducible (intro _)
    | with_reducible apply Decision_dropVictims_stored
    | with_reducible refine foldl_stored _ ?_ _ _ ?_
    | with_reducible refine foldl_stored_snd _ ?_ _ _ ?_
    | with_reducible refine foldl_stored_fst _ ?_ _ _ ?_
    | with_reducible refine foldl_stored_dec _ ?_ _ _ ?_
    | with_reducible refine foldl_stored_for _ ?_ _ _ ?_
    | split
    | with_reducible apply ite_stored
    | with_reducible apply refold
    | (simp [State.Stored])

theorem Decision_newRecord_stored (d : Decision) (h flags lg length valid gen hist : Nat) (hs : d.s.Stored) :
    (Decision.newRecord d h flags lg length valid gen hist).s.Stored := by
  unfold Decision.newRecord
  (try dsimp only)
  repeat' first
    | with_reducible assumption
    | with_reducible (intro _)
    | with_reducible apply Decision_field_stored
    | with_reducible refine foldl_stored _ ?_ _ _ ?_
    | with_reducible refine foldl_stored_snd _ ?_ _ _ ?_
    | with_reducible refine foldl_stored_fst _ ?_ _ _ ?_
    | with_reducible refine foldl_stored_dec _ ?_ _ _ ?_
    | with_reducible refine foldl_stored_for _ ?_ _ _ ?_
    | split
    | with_reducible apply ite_stored
    | with_reducible apply refold
    | (simp [State.Stored])

theorem Decision_share_stored (d : Decision) (lg h src n : Nat) (hs : d.s.Stored) : (Decision.share d lg h src n).s.Stored := by
  unfold Decision.share
  (try dsimp only)
  repeat' first
    | with_reducible assumption
    | with_reducible (intro _)
    | with_reducible apply Decision_entry_stored
    | with_reducible apply Decision_showSets_stored
    | with_reducible apply Decision_op_stored
    | with_reducible refine foldl_stored _ ?_ _ _ ?_
    | with_reducible refine foldl_stored_snd _ ?_ _ _ ?_
    | with_reducible refine foldl_stored_fst _ ?_ _ _ ?_
    | with_reducible refine foldl_stored_dec _ ?_ _ _ ?_
    | with_reducible refine foldl_stored_for _ ?_ _ _ ?_
    | split
    | with_reducible apply ite_stored
    | with_reducible apply refold
    | (simp [State.Stored])

theorem fork_stored (s : State) (lg h src len flags hist tag : Nat) (u : State)
    (h_u : State.fork s lg h src len flags hist tag = some u) (hs : s.Stored) : u.Stored := by
  unfold State.fork at h_u
  dsimp only at h_u
  split at h_u
  · simp at h_u
  · rename_i d hd
    simp only [Option.some.injEq] at h_u
    subst h_u
    simp only [State.Stored, Decision_commit_stores]
    exact refold (Decision_share_stored _ _ _ _ _ (Decision_newRecord_stored _ _ _ _ _ _ _ _ (Decision_obtain_stored _ _ _ _ _ _ _ hd hs)))

theorem Decision_release_stored (d : Decision) (lg h : Nat) (hs : d.s.Stored) : (Decision.release d lg h).s.Stored := by
  unfold Decision.release
  (try dsimp only)
  repeat' first
    | with_reducible assumption
    | with_reducible (intro _)
    | with_reducible apply Decision_replace_stored
    | with_reducible apply Decision_freeBlocks_stored
    | with_reducible apply Decision_op_stored
    | with_reducible refine foldl_stored _ ?_ _ _ ?_
    | with_reducible refine foldl_stored_snd _ ?_ _ _ ?_
    | with_reducible refine foldl_stored_fst _ ?_ _ _ ?_
    | with_reducible refine foldl_stored_dec _ ?_ _ _ ?_
    | with_reducible refine foldl_stored_for _ ?_ _ _ ?_
    | split
    | with_reducible apply ite_stored
    | with_reducible apply refold
    | (simp [State.Stored])

theorem dropFailed_stored (s : State) (lg h i : Nat) (hs : s.Stored) : (State.dropFailed s lg h i).Stored := by
  unfold State.dropFailed
  (try dsimp only)
  repeat' first
    | with_reducible assumption
    | with_reducible (intro _)
    | with_reducible apply Decision_dropFrom_stored
    | with_reducible apply Decision_field_stored
    | with_reducible apply completeKv_stored
    | with_reducible refine foldl_stored _ ?_ _ _ ?_
    | with_reducible refine foldl_stored_snd _ ?_ _ _ ?_
    | with_reducible refine foldl_stored_fst _ ?_ _ _ ?_
    | with_reducible refine foldl_stored_dec _ ?_ _ _ ?_
    | with_reducible refine foldl_stored_for _ ?_ _ _ ?_
    | split
    | with_reducible apply ite_stored
    | with_reducible apply refold
    | (simp [State.Stored])

theorem copyFailed_stored (s : State) (lg h i : Nat) (hs : s.Stored) : (State.copyFailed s lg h i).Stored := by
  unfold State.copyFailed
  (try dsimp only)
  repeat' first
    | with_reducible assumption
    | with_reducible apply dropFailed_stored
    | split
    | with_reducible apply ite_stored
    | with_reducible apply refold
    | (simp [State.Stored])

theorem park_stored (s : State) (lg h ttl tag : Nat) (cd : CopyData) (u : (Bool × State)) (h_u : State.park s lg h ttl tag cd = some u)
    (hs : s.Stored) : u.2.Stored := by
  unfold State.park at h_u
  repeat' (first | split at h_u | dsimp only at h_u)
  all_goals first
    | (simp at h_u; done)
    | (simp only [Option.some.injEq, Host.Outcome.next.injEq] at h_u; subst h_u; dsimp only)
    | skip
  repeat' first
    | with_reducible assumption
    | with_reducible (intro _)
    | with_reducible apply copyFailed_stored
    | with_reducible apply Decision_entry_stored
    | with_reducible apply Decision_field_stored
    | with_reducible apply Decision_copy_stored
    | with_reducible apply Decision_op_stored
    | with_reducible refine foldl_stored _ ?_ _ _ ?_
    | with_reducible refine foldl_stored_snd _ ?_ _ _ ?_
    | with_reducible refine foldl_stored_fst _ ?_ _ _ ?_
    | with_reducible refine foldl_stored_dec _ ?_ _ _ ?_
    | with_reducible refine foldl_stored_for _ ?_ _ _ ?_
    | split
    | with_reducible apply ite_stored
    | with_reducible apply refold
    | (simp [State.Stored])

theorem restoreReply_stored (s : State) (lg h ep i : Nat) (hs : s.Stored) : (State.restoreReply s lg h ep i).Stored := by
  unfold State.restoreReply
  (try dsimp only)
  repeat' first
    | with_reducible assumption
    | with_reducible apply Decision_field_stored
    | with_reducible apply completeKv_stored
    | split
    | with_reducible apply ite_stored
    | with_reducible apply refold
    | (simp [State.Stored])

theorem restore_stored (s : State) (lg h tag : Nat) (cd : CopyData) (taken : Option Taken) (u : CopyData × State)
    (h_u : State.restore s lg h tag cd taken = some u) (hs : s.Stored) : u.2.Stored := by
  unfold State.restore at h_u
  dsimp only at h_u
  split at h_u
  · simp at h_u
  · rename_i d hd
    simp only [Option.some.injEq] at h_u
    subst h_u
    have hd := Decision_obtain_stored _ _ _ _ _ _ _ hd hs
    have key : ∀ (l : List Nat) (r : List Restoring), State.Stored { (((l.foldl (fun (d : Decision) i =>
        ((d.copy 0x08 (entIx (d.s.kvEntry h i)) (d.freeSet lg) i).entry lg h i (mkEnt 1 (d.freeSet lg))).op 0x06 0 (d.freeSet lg) 1 0) d).field
          h 0 1 3).field h 0x18 8 0).commit lg 2 0xFFFFFFFF tag with restoring := r } := by
      intro l r
      simp only [State.Stored, Decision_commit_stores]
      refine refold (Decision_field_stored _ _ _ _ _ (Decision_field_stored _ _ _ _ _ ?_))
      exact foldl_stored_dec _ (fun x a hx => Decision_op_stored _ _ _ _ _ _ (Decision_entry_stored _ _ _ _ _ (Decision_copy_stored _ _ _ _ _ hx)))
        _ _ hd
    refine foldl_stored _ (fun s i h => copyFailed_stored _ _ _ _ h) _ _ ?_
    split
    · exact restoreReply_stored _ _ _ _ _ (key _ _)
    · exact foldl_stored _ (fun s i h => restoreReply_stored _ _ _ _ _ h) _ _ (key _ _)

theorem expirePark_stored (s : State) (lg h : Nat) (hs : s.Stored) : (State.expirePark s lg h).Stored := by
  unfold State.expirePark
  (try dsimp only)
  repeat' first
    | with_reducible assumption
    | with_reducible (intro _)
    | with_reducible apply Decision_entry_stored
    | with_reducible apply Decision_showSets_stored
    | with_reducible apply Decision_field_stored
    | with_reducible refine foldl_stored _ ?_ _ _ ?_
    | with_reducible refine foldl_stored_snd _ ?_ _ _ ?_
    | with_reducible refine foldl_stored_fst _ ?_ _ _ ?_
    | with_reducible refine foldl_stored_dec _ ?_ _ _ ?_
    | with_reducible refine foldl_stored_for _ ?_ _ _ ?_
    | split
    | with_reducible apply ite_stored
    | with_reducible apply refold
    | (simp [State.Stored])

/-! ### Receive -/

theorem engineTake_stored (s : State) (hd : PacketHead) (enabled : State → Bool) (k : State → State) (h_k : ∀ t, t.Stored → (k t).Stored)
    (hs : s.Stored) : (State.engineTake s hd enabled k).Stored := by
  unfold State.engineTake
  (try dsimp only)
  repeat' first
    | with_reducible assumption
    | with_reducible apply h_k
    | split
    | with_reducible apply ite_stored
    | with_reducible apply refold
    | (simp [State.Stored])

theorem controlTake_stored (s : State) (hd : PacketHead) (k : State → State) (h_k : ∀ t, t.Stored → (k t).Stored) (hs : s.Stored) :
    (State.controlTake s hd k).Stored := by
  unfold State.controlTake
  (try dsimp only)
  repeat' first
    | with_reducible assumption
    | with_reducible apply h_k
    | split
    | with_reducible apply ite_stored
    | with_reducible apply refold
    | (simp [State.Stored])

/-! ### Nvs -/

theorem loadPatch_stored (s : State) (p v slot : Nat) (hs : s.Stored) : (State.loadPatch s p v slot).2.Stored := by
  unfold State.loadPatch
  (try dsimp only)
  repeat' first
    | with_reducible assumption
    | with_reducible apply t1Put_stored
    | split
    | with_reducible apply ite_stored
    | with_reducible apply refold
    | (simp [State.Stored])

theorem nvTake_stored (s : State) (host : List Byte) (mine : Nat → Bool) (hs : s.Stored) : (State.nvTake s host mine).Stored := by
  unfold State.nvTake
  (try dsimp only)
  repeat' first
    | with_reducible assumption
    | with_reducible apply touchT1_stored
    | split
    | with_reducible apply ite_stored
    | with_reducible apply refold
    | (simp [State.Stored])

theorem loadPatches_stored (s : State) (xs : List ((Nat × Nat) × Nat)) (hs : s.Stored) : (State.loadPatches s xs).2.Stored := by
  unfold State.loadPatches
  (try dsimp only)
  repeat' first
    | with_reducible assumption
    | with_reducible (intro _)
    | with_reducible apply loadPatch_stored
    | with_reducible refine foldl_stored _ ?_ _ _ ?_
    | with_reducible refine foldl_stored_snd _ ?_ _ _ ?_
    | with_reducible refine foldl_stored_fst _ ?_ _ _ ?_
    | with_reducible refine foldl_stored_dec _ ?_ _ _ ?_
    | with_reducible refine foldl_stored_for _ ?_ _ _ ?_
    | split
    | with_reducible apply ite_stored
    | with_reducible apply refold
    | (simp [State.Stored])

theorem ploadOwn_stored (s : State) (c : NvCmd) (hs : s.Stored) : (State.ploadOwn s c).Stored := by
  unfold State.ploadOwn
  (try dsimp only)
  repeat' first
    | with_reducible assumption
    | with_reducible apply loadPatches_stored
    | split
    | with_reducible apply ite_stored
    | with_reducible apply refold
    | (simp [State.Stored])

theorem writeShard_stored (s : State) (c : NvCmd) (g : Nat) (r : NvsReport) (hs : s.Stored) : (State.writeShard s c g r).Stored := by
  unfold State.writeShard
  (try dsimp only)
  repeat' first
    | with_reducible assumption
    | with_reducible apply touchT1_stored
    | split
    | with_reducible apply ite_stored
    | with_reducible apply refold
    | (simp [State.Stored])

theorem loadShard_stored (s : State) (c : NvCmd) (h : Shard) (hs : s.Stored) : (State.loadShard s c h).Stored := by
  unfold State.loadShard
  (try dsimp only)
  repeat' first
    | with_reducible assumption
    | with_reducible apply t1Put_stored
    | split
    | with_reducible apply ite_stored
    | with_reducible apply refold
    | (simp [State.Stored])

theorem nvWork_stored (s : State) (c : NvCmd) (r : NvsReport) (hs : s.Stored) : (State.nvWork s c r).Stored := by
  have hr : (s.nvRead r).Stored := stored_of_stores (by simp) hs
  unfold State.nvWork
  dsimp only
  generalize s.nvRead r = s at hr
  split
  · exact getD_stored _ _ _ (fun g => writeShard_stored _ _ _ _ hr) hr
  · exact loadShard_stored _ _ _ hr
  · split <;> exact stored_of_stores (by simp) hr
  · exact stored_of_stores (by simp) hr
  · split
    · exact stored_of_stores (by simp) hr
    · exact hr
  · split
    · split
      · exact stored_of_stores (by simp) hr
      · exact hr
    · exact hr
  · split
    · exact hr
    · exact ploadOwn_stored _ _ hr
  · exact hr

theorem nvRecord_stored (s : State) (c : NvCmd) (status detail : Nat) (hs : s.Stored) : (State.nvRecord s c status detail).Stored := by
  unfold State.nvRecord
  (try dsimp only)
  repeat' first
    | with_reducible assumption
    | with_reducible apply areaPut_stored
    | split
    | with_reducible apply ite_stored
    | with_reducible apply refold
    | (simp [State.Stored])

theorem takeChunk_stored (s : State) (c : NvCmd) (chunk : Nat) (bs : List Byte) (hs : s.Stored) :
    (State.takeChunk s c chunk bs).Stored := by
  unfold State.takeChunk
  (try dsimp only)
  repeat' first
    | with_reducible assumption
    | with_reducible apply t1Put_stored
    | split
    | with_reducible apply ite_stored
    | with_reducible apply refold
    | (simp [State.Stored])

/-! ### Serve -/

theorem account_stored (s : State) (h : Nat) (q : SeqState) (status : Nat) (hs : s.Stored) : (State.account s h q status).Stored := by
  unfold State.account
  (try dsimp only)
  repeat' first
    | with_reducible assumption
    | with_reducible apply areaPut_stored
    | split
    | with_reducible apply ite_stored
    | with_reducible apply refold
    | (simp [State.Stored])

theorem streamToken_stored (s : State) (h : Nat) (q : SeqState) (token pos flags status accepted : Nat) (hs : s.Stored) :
    (State.streamToken s h q token pos flags status accepted).Stored := by
  unfold State.streamToken
  (try dsimp only)
  repeat' first
    | with_reducible assumption
    | with_reducible apply account_stored
    | with_reducible apply streamRecord_stored
    | with_reducible apply areaPut_stored
    | split
    | with_reducible apply ite_stored
    | with_reducible apply refold
    | (simp [State.Stored])

theorem settleSeq_stored (s : State) (h : Nat) (q : SeqState) (cancelStatus : Nat) (hs : s.Stored) :
    (State.settleSeq s h q cancelStatus).Stored := by
  unfold State.settleSeq
  (try dsimp only)
  repeat' first
    | with_reducible assumption
    | with_reducible apply complete_stored
    | split
    | with_reducible apply ite_stored
    | with_reducible apply refold
    | (simp [State.Stored])

theorem endSeq_stored (s : State) (h status cause batch : Nat) (finalDone : Bool) (tag : Nat)
    (hs : s.Stored) : (State.endSeq s h status cause batch finalDone tag).Stored := by
  unfold State.endSeq
  split
  · exact hs
  · rename_i q _
    dsimp only
    generalize (if q.firstGsc = 0 then _ else q) = q1
    have h0 := streamRecord_stored _ q1.stream h 2 status 4294967295 (s.kvLength h) (account_stored s h q1 status hs)
    have h2 : (s.releaseStream q.stream 1).Stored := stored_of_stores (by simp) hs
    generalize (s.account h q1 status).streamRecord q1.stream h 2 status 4294967295 (s.kvLength h) = t1 at h0 ⊢
    generalize s.releaseStream q.stream 1 = t2 at h2 ⊢
    have h3 : (if (q.hold || finalDone) = true then t2 else t1).Stored := ite_stored _ _ _ h2 h0
    generalize (if (q.hold || finalDone) = true then t2 else t1) = t at h3 ⊢
    have hr : ((t.decision.release q.ledger h).commit q.ledger cause batch tag).Stored := by
      refine stored_of_stores (Decision_commit_stores _ _ _ _ _) (Decision_release_stored _ _ _ ?_)
      exact stored_of_stores (by simp) h3
    generalize (t.decision.release q.ledger h).commit q.ledger cause batch tag = v at hr ⊢
    refine settleSeq_stored _ _ _ _ ?_
    split
    · exact stored_of_stores (by simp) hr
    · exact hr

theorem Decision_appendRange_stored (d : Decision) (lg h valid last : Nat) (hs : d.s.Stored) :
    (Decision.appendRange d lg h valid last).s.Stored := by
  unfold Decision.appendRange
  (try dsimp only)
  repeat' first
    | with_reducible assumption
    | with_reducible (intro _)
    | with_reducible apply Decision_unref_stored
    | with_reducible apply Decision_entry_stored
    | with_reducible apply Decision_op_stored
    | with_reducible refine foldl_stored _ ?_ _ _ ?_
    | with_reducible refine foldl_stored_snd _ ?_ _ _ ?_
    | with_reducible refine foldl_stored_fst _ ?_ _ _ ?_
    | with_reducible refine foldl_stored_dec _ ?_ _ _ ?_
    | with_reducible refine foldl_stored_for _ ?_ _ _ ?_
    | split
    | with_reducible apply ite_stored
    | with_reducible apply refold
    | (simp [State.Stored])

theorem deferSeq_stored (s : State) (lg h batch : Nat) (hs : s.Stored) : (State.deferSeq s lg h batch).Stored := by
  unfold State.deferSeq
  (try dsimp only)
  repeat' first
    | with_reducible assumption
    | with_reducible apply endSeq_stored
    | with_reducible apply Decision_field_stored
    | split
    | with_reducible apply ite_stored
    | with_reducible apply refold
    | (simp [State.Stored])

theorem Forming_take_stored (f : Forming) (lg h batch : Nat) (row : BatchRow) (last : Nat)
    (hs : f.s.Stored) : (Forming.take f lg h batch row last).s.Stored := by
  unfold Forming.take
  dsimp only
  split
  · exact deferSeq_stored _ _ _ _ hs
  · rename_i d hd
    have hd := Decision_obtain_stored _ _ _ _ _ _ _ hd hs
    repeat' first
        | with_reducible assumption
        | with_reducible apply Decision_field_stored
        | with_reducible apply Decision_flags_stored
        | with_reducible apply Decision_showSets_stored
        | with_reducible apply Decision_appendRange_stored
        | split
        | with_reducible apply ite_stored
        | with_reducible apply refold
        | (simp [State.Stored])

theorem Forming_decodeRow_stored (f : Forming) (lg batch h slot : Nat) (q : SeqState) (hs : f.s.Stored) :
    (Forming.decodeRow f lg batch h slot q).s.Stored := by
  unfold Forming.decodeRow
  (try dsimp only)
  repeat' first
    | with_reducible assumption
    | with_reducible apply Forming_take_stored
    | split
    | with_reducible apply ite_stored
    | with_reducible apply refold
    | (simp [State.Stored])

theorem Forming_prefillRow_stored (f : Forming) (lg batch h slot : Nat) (q : SeqState) (hs : f.s.Stored) :
    (Forming.prefillRow f lg batch h slot q).s.Stored := by
  unfold Forming.prefillRow
  (try dsimp only)
  repeat' first
    | with_reducible assumption
    | with_reducible apply Forming_take_stored
    | split
    | with_reducible apply ite_stored
    | with_reducible apply refold
    | (simp [State.Stored])

theorem freshKv_stored (s : State) (lg h batch gen : Nat) (keep : Bool) (hs : s.Stored) : (State.freshKv s lg h batch gen keep).Stored := by
  unfold State.freshKv
  (try dsimp only)
  repeat' first
    | with_reducible assumption
    | with_reducible apply Decision_dropFrom_stored
    | with_reducible apply Decision_field_stored
    | split
    | with_reducible apply ite_stored
    | with_reducible apply refold
    | (simp [State.Stored])

theorem Forming_restore_stored (f : Forming) (lg h : Nat) (hs : f.s.Stored) : (Forming.restore f lg h).s.Stored := by
  unfold Forming.restore
  split
  · rename_i hr
    exact restore_stored _ _ _ _ _ _ _ hr hs
  · exact hs

theorem Forming_consider_stored (f : Forming) (lg batch gen : Nat) (keep : Bool) (h : Nat) (hs : f.s.Stored) :
    (Forming.consider f lg batch gen keep h).s.Stored := by
  unfold Forming.consider
  (try dsimp only)
  repeat' first
    | with_reducible assumption
    | with_reducible apply Forming_restore_stored
    | with_reducible apply freshKv_stored
    | with_reducible apply Forming_prefillRow_stored
    | with_reducible apply Forming_decodeRow_stored
    | with_reducible apply endSeq_stored
    | split
    | with_reducible apply ite_stored
    | with_reducible apply refold
    | (simp [State.Stored])

theorem formBatch_stored (s : State) (lg : Nat) (cd : CopyData) (hs : s.Stored) : (State.formBatch s lg cd).1.Stored := by
  unfold State.formBatch
  (try dsimp only)
  repeat' first
    | with_reducible assumption
    | with_reducible (intro _)
    | with_reducible apply Forming_consider_stored
    | with_reducible refine foldl_stored _ ?_ _ _ ?_
    | with_reducible refine foldl_stored_snd _ ?_ _ _ ?_
    | with_reducible refine foldl_stored_fst _ ?_ _ _ ?_
    | with_reducible refine foldl_stored_dec _ ?_ _ _ ?_
    | with_reducible refine foldl_stored_for _ ?_ _ _ ?_
    | split
    | with_reducible apply ite_stored
    | with_reducible apply refold
    | (simp [State.Stored])

theorem streamRow_stored (s : State) (h accepted : Nat) (late : Bool) (x1 x2 : Nat) (x3 : List Nat)
    (hs : s.Stored) : (State.streamRow s h accepted late x1 x2 x3).1.Stored := by
  induction x3 generalizing s x1 x2 with
  | nil => unfold State.streamRow; exact hs
  | cons t r ih =>
    unfold State.streamRow
    dsimp only
    split
    · exact hs
    · split
      all_goals
        split
        · exact ih _ _ _ (streamToken_stored _ _ _ _ _ _ _ _ hs)
        · exact streamToken_stored _ _ _ _ _ _ _ _ hs

theorem closeRange_stored (s : State) (lg h batch first count newValid newLen : Nat) (hs : s.Stored) :
    (State.closeRange s lg h batch first count newValid newLen).Stored := by
  unfold State.closeRange
  (try dsimp only)
  repeat' first
    | with_reducible assumption
    | with_reducible (intro _)
    | with_reducible apply Decision_replace_stored
    | with_reducible apply Decision_freeBlocks_stored
    | with_reducible apply Decision_showSets_stored
    | with_reducible apply Decision_flags_stored
    | with_reducible apply Decision_field_stored
    | with_reducible apply Decision_op_stored
    | with_reducible refine foldl_stored _ ?_ _ _ ?_
    | with_reducible refine foldl_stored_snd _ ?_ _ _ ?_
    | with_reducible refine foldl_stored_fst _ ?_ _ _ ?_
    | with_reducible refine foldl_stored_dec _ ?_ _ _ ?_
    | with_reducible refine foldl_stored_for _ ?_ _ _ ?_
    | split
    | with_reducible apply ite_stored
    | with_reducible apply refold
    | (simp [State.Stored])

theorem finishKv_stored (s : State) (t : Option Taken) (st : Nat) (hs : s.Stored) : (State.finishKv s t st).Stored := by
  unfold State.finishKv
  (try dsimp only)
  repeat' first
    | with_reducible assumption
    | with_reducible apply completeKv_stored
    | split
    | with_reducible apply ite_stored
    | with_reducible apply refold
    | (simp [State.Stored])

theorem runPark_stored (s : State) (lg : Nat) (c : HeldCmd) (cd : CopyData) (hs : s.Stored) : (State.runPark s lg c cd).Stored := by
  unfold State.runPark
  split
  · exact finishKv_stored _ _ _ hs
  · split
    · rename_i hp
      exact finishKv_stored _ _ _ (park_stored _ _ _ _ _ _ _ hp hs)
    · exact finishKv_stored _ _ _ hs

theorem leaveSeq_stored (s : State) (h : Nat) (hs : s.Stored) : (State.leaveSeq s h).Stored := by
  unfold State.leaveSeq
  (try dsimp only)
  repeat' first
    | with_reducible assumption
    | with_reducible apply settleSeq_stored
    | split
    | with_reducible apply ite_stored
    | with_reducible apply refold
    | (simp [State.Stored])

theorem runHeld_stored (s : State) (lg : Nat) (c : HeldCmd) (cd : CopyData) (hs : s.Stored) : (State.runHeld s lg c cd).Stored := by
  unfold State.runHeld
  (try dsimp only)
  repeat' first
    | with_reducible assumption
    | with_reducible apply leaveSeq_stored
    | with_reducible apply runPark_stored
    | with_reducible apply finishKv_stored
    | with_reducible apply dropFailed_stored
    | with_reducible apply Decision_release_stored
    | with_reducible apply Decision_dropFrom_stored
    | with_reducible apply complete_stored
    | split
    | with_reducible apply ite_stored
    | with_reducible apply refold
    | (simp [State.Stored])

theorem runHeldOf_stored (s : State) (lg h : Nat) (cd : CopyData) (hs : s.Stored) : (State.runHeldOf s lg h cd).Stored := by
  unfold State.runHeldOf
  (try dsimp only)
  repeat' first
    | with_reducible assumption
    | with_reducible (intro _)
    | with_reducible apply runHeld_stored
    | with_reducible refine foldl_stored _ ?_ _ _ ?_
    | with_reducible refine foldl_stored_snd _ ?_ _ _ ?_
    | with_reducible refine foldl_stored_fst _ ?_ _ _ ?_
    | with_reducible refine foldl_stored_dec _ ?_ _ _ ?_
    | with_reducible refine foldl_stored_for _ ?_ _ _ ?_
    | split
    | with_reducible apply ite_stored
    | with_reducible apply refold
    | (simp [State.Stored])

theorem stopRow_stored (s : State) (lg batch : Nat) (cd : CopyData) (row : BatchRow) (status : Nat) (finalDone : Bool) (valid len : Nat)
    (hs : s.Stored) : (State.stopRow s lg batch cd row status finalDone valid len).Stored := by
  unfold State.stopRow
  (try dsimp only)
  repeat' first
    | with_reducible assumption
    | with_reducible apply runHeldOf_stored
    | with_reducible apply closeRange_stored
    | with_reducible apply endSeq_stored
    | split
    | with_reducible apply ite_stored
    | with_reducible apply refold
    | (simp [State.Stored])

theorem prefillRow_stored (s : State) (lg batch : Nat) (cd : CopyData) (row : BatchRow) (q : SeqState) (hs : s.Stored) :
    (State.prefillRow s lg batch cd row q).Stored := by
  unfold State.prefillRow
  (try dsimp only)
  repeat' first
    | with_reducible assumption
    | with_reducible apply runHeldOf_stored
    | with_reducible apply closeRange_stored
    | with_reducible apply complete_stored
    | split
    | with_reducible apply ite_stored
    | with_reducible apply refold
    | (simp [State.Stored])

theorem emitRow_stored (s : State) (lg batch : Nat) (cd : CopyData) (row : BatchRow) (q : SeqState) (r : ResultRow) (hs : s.Stored) :
    (State.emitRow s lg batch cd row q r).Stored := by
  unfold State.emitRow
  (try dsimp only)
  repeat' first
    | with_reducible assumption
    | with_reducible apply stopRow_stored
    | with_reducible apply runHeldOf_stored
    | with_reducible apply closeRange_stored
    | with_reducible apply streamRow_stored
    | split
    | with_reducible apply ite_stored
    | with_reducible apply refold
    | (simp [State.Stored])

theorem endRow_stored (s : State) (lg : Nat) (f : Flight) (cd : CopyData) (row : BatchRow) (hs : s.Stored) :
    (State.endRow s lg f cd row).Stored := by
  unfold State.endRow
  (try dsimp only)
  repeat' first
    | with_reducible assumption
    | with_reducible apply emitRow_stored
    | with_reducible apply prefillRow_stored
    | with_reducible apply stopRow_stored
    | split
    | with_reducible apply ite_stored
    | with_reducible apply refold
    | (simp [State.Stored])

theorem endBatch_stored (s : State) (lg : Nat) (f : Flight) (cd : CopyData) (hs : s.Stored) : (State.endBatch s lg f cd).Stored := by
  unfold State.endBatch
  (try dsimp only)
  repeat' first
    | with_reducible assumption
    | with_reducible (intro _)
    | with_reducible apply endRow_stored
    | with_reducible refine foldl_stored _ ?_ _ _ ?_
    | with_reducible refine foldl_stored_snd _ ?_ _ _ ?_
    | with_reducible refine foldl_stored_fst _ ?_ _ _ ?_
    | with_reducible refine foldl_stored_dec _ ?_ _ _ ?_
    | with_reducible refine foldl_stored_for _ ?_ _ _ ?_
    | split
    | with_reducible apply ite_stored
    | with_reducible apply refold
    | (simp [State.Stored])

theorem takeReport_stored (s : State) (lg batch ep : Nat) (missing : Bool) (proposals : List (Nat × Nat × Nat)) (results : List ResultRow)
    (cd : CopyData) (hs : s.Stored) : (State.takeReport s lg batch ep missing proposals results cd).Stored := by
  unfold State.takeReport
  (try dsimp only)
  repeat' first
    | with_reducible assumption
    | with_reducible apply endBatch_stored
    | split
    | with_reducible apply ite_stored
    | with_reducible apply refold
    | (simp [State.Stored])

theorem stopServing_stored (s : State) (lg : Nat) (hs : s.Stored) : (State.stopServing s lg).Stored := by
  unfold State.stopServing
  (try dsimp only)
  repeat' first
    | with_reducible assumption
    | with_reducible (intro _)
    | with_reducible apply runHeldOf_stored
    | with_reducible apply closeRange_stored
    | with_reducible apply endSeq_stored
    | with_reducible refine foldl_stored _ ?_ _ _ ?_
    | with_reducible refine foldl_stored_snd _ ?_ _ _ ?_
    | with_reducible refine foldl_stored_fst _ ?_ _ _ ?_
    | with_reducible refine foldl_stored_dec _ ?_ _ _ ?_
    | with_reducible refine foldl_stored_for _ ?_ _ _ ?_
    | split
    | with_reducible apply ite_stored
    | with_reducible apply refold
    | (simp [State.Stored])

/-! ### Sched -/

theorem putEntry_stored (s : State) (j : Job) (state : Nat) (hs : s.Stored) : (State.putEntry s j state).Stored := by
  unfold State.putEntry
  (try dsimp only)
  repeat' first
    | with_reducible assumption
    | with_reducible apply areaPut_stored
    | split
    | with_reducible apply ite_stored
    | with_reducible apply refold
    | (simp [State.Stored])

theorem updateJob_stored (s : State) (j : Nat) (f : Job → Job) (hs : s.Stored) : (State.updateJob s j f).Stored := by
  unfold State.updateJob
  (try dsimp only)
  repeat' first
    | with_reducible assumption
    | with_reducible apply putEntry_stored
    | split
    | with_reducible apply ite_stored
    | with_reducible apply refold
    | (simp [State.Stored])

theorem stopJob_stored (s : State) (j : Nat) (hs : s.Stored) : (State.stopJob s j).Stored := by
  unfold State.stopJob
  (try dsimp only)
  repeat' first
    | with_reducible assumption
    | with_reducible (intro _)
    | with_reducible apply stopServing_stored
    | with_reducible refine foldl_stored _ ?_ _ _ ?_
    | with_reducible refine foldl_stored_snd _ ?_ _ _ ?_
    | with_reducible refine foldl_stored_fst _ ?_ _ _ ?_
    | with_reducible refine foldl_stored_dec _ ?_ _ _ ?_
    | with_reducible refine foldl_stored_for _ ?_ _ _ ?_
    | split
    | with_reducible apply ite_stored
    | with_reducible apply refold
    | (simp [State.Stored])

theorem endJob_stored (s : State) (j status detail : Nat) (hs : s.Stored) : (State.endJob s j status detail).Stored := by
  unfold State.endJob
  (try dsimp only)
  repeat' first
    | with_reducible assumption
    | with_reducible apply stopJob_stored
    | with_reducible apply putEntry_stored
    | with_reducible apply complete_stored
    | split
    | with_reducible apply ite_stored
    | with_reducible apply refold
    | (simp [State.Stored])

theorem markFault_stored (s : State) (j detail : Nat) (all : Bool) (hs : s.Stored) : (State.markFault s j detail all).Stored := by
  unfold State.markFault
  (try dsimp only)
  repeat' first
    | with_reducible assumption
    | with_reducible apply stopJob_stored
    | split
    | with_reducible apply ite_stored
    | with_reducible apply refold
    | (simp [State.Stored])

theorem applyControl_stored (s : State) (op j : Nat) (hs : s.Stored) : (State.applyControl s op j).Stored := by
  unfold State.applyControl
  (try dsimp only)
  repeat' first
    | with_reducible assumption
    | with_reducible apply markFault_stored
    | with_reducible apply updateJob_stored
    | split
    | with_reducible apply ite_stored
    | with_reducible apply refold
    | (simp [State.Stored])

theorem endSwitch_stored (s : State) (w : Switch) (hs : s.Stored) : (State.endSwitch s w).Stored := by
  unfold State.endSwitch
  (try dsimp only)
  repeat' first
    | with_reducible assumption
    | with_reducible apply updateJob_stored
    | split
    | with_reducible apply ite_stored
    | with_reducible apply refold
    | (simp [State.Stored])

theorem takeEvent_stored (s : State) (e : SchedEvent) (hs : s.Stored) : (State.takeEvent s e).Stored := by
  unfold State.takeEvent
  (try dsimp only)
  repeat' first
    | with_reducible assumption
    | with_reducible apply applyControl_stored
    | split
    | with_reducible apply ite_stored
    | with_reducible apply refold
    | (simp [State.Stored])

theorem settleN_stored (x1 : Nat) (x2 : State) (hs : x2.Stored) : (State.settleN x1 x2).Stored := by
  induction x1 generalizing x2 with
  | zero => (unfold State.settleN; simpa using hs)
  | succ n ih =>
    unfold State.settleN
    (try dsimp only)
    repeat' first
      | with_reducible assumption
      | with_reducible (intro _)
      | with_reducible apply ih
      | with_reducible apply takeEvent_stored
      | with_reducible apply endSwitch_stored
      | with_reducible apply endJob_stored
      | with_reducible refine foldl_stored _ ?_ _ _ ?_
      | with_reducible refine foldl_stored_snd _ ?_ _ _ ?_
      | with_reducible refine foldl_stored_fst _ ?_ _ _ ?_
      | with_reducible refine foldl_stored_dec _ ?_ _ _ ?_
      | with_reducible refine foldl_stored_for _ ?_ _ _ ?_
      | split
      | with_reducible apply ite_stored
      | with_reducible apply refold
      | (simp [State.Stored])

theorem settle_stored (s : State) (hs : s.Stored) : (State.settle s).Stored := by
  unfold State.settle
  (try dsimp only)
  repeat' first
    | with_reducible assumption
    | with_reducible apply settleN_stored
    | split
    | with_reducible apply ite_stored
    | with_reducible apply refold
    | (simp [State.Stored])

theorem schedule_stored (s : State) (e : SchedEvent) (hs : s.Stored) : (State.schedule s e).Stored := by
  unfold State.schedule
  (try dsimp only)
  repeat' first
    | with_reducible assumption
    | with_reducible apply settle_stored
    | split
    | with_reducible apply ite_stored
    | with_reducible apply refold
    | (simp [State.Stored])

theorem faultJob_stored (s : State) (j detail : Nat) (hs : s.Stored) : (State.faultJob s j detail).Stored := by
  unfold State.faultJob
  (try dsimp only)
  repeat' first
    | with_reducible assumption
    | with_reducible apply schedule_stored
    | with_reducible apply settle_stored
    | with_reducible apply markFault_stored
    | split
    | with_reducible apply ite_stored
    | with_reducible apply refold
    | (simp [State.Stored])

theorem restCore_stored (s : State) (c : Nat) (hs : s.Stored) : (State.restCore s c).Stored := by
  unfold State.restCore
  (try dsimp only)
  repeat' first
    | with_reducible assumption
    | with_reducible apply settle_stored
    | split
    | with_reducible apply ite_stored
    | with_reducible apply refold
    | (simp [State.Stored])

theorem exception_stored (s : State) (c cause engine index : Nat) (async : Bool) (hs : s.Stored) :
    (State.exception s c cause engine index async).Stored := by
  unfold State.exception
  (try dsimp only)
  repeat' first
    | with_reducible assumption
    | with_reducible apply faultJob_stored
    | split
    | with_reducible apply ite_stored
    | with_reducible apply refold
    | (simp [State.Stored])

theorem hardwareFault_stored (s : State) (c cause : Nat) (payload : List Nat) (hs : s.Stored) :
    (State.hardwareFault s c cause payload).Stored := by
  unfold State.hardwareFault
  (try dsimp only)
  repeat' first
    | with_reducible assumption
    | with_reducible apply faultJob_stored
    | split
    | with_reducible apply ite_stored
    | with_reducible apply refold
    | (simp [State.Stored])

theorem moduleFault_stored (s : State) (cause : Nat) (p : Suspect) (payload : List Nat) (hs : s.Stored) :
    (State.moduleFault s cause p payload).Stored := by
  unfold State.moduleFault
  (try dsimp only)
  repeat' first
    | with_reducible assumption
    | with_reducible (intro _)
    | with_reducible apply settle_stored
    | with_reducible apply markFault_stored
    | with_reducible apply stopServing_stored
    | with_reducible refine foldl_stored _ ?_ _ _ ?_
    | with_reducible refine foldl_stored_snd _ ?_ _ _ ?_
    | with_reducible refine foldl_stored_fst _ ?_ _ _ ?_
    | with_reducible refine foldl_stored_dec _ ?_ _ _ ?_
    | with_reducible refine foldl_stored_for _ ?_ _ _ ?_
    | split
    | with_reducible apply ite_stored
    | with_reducible apply refold
    | (simp [State.Stored])

theorem landSignal_stored (s : State) (c e engine index : Nat) (hs : s.Stored) : (State.landSignal s c e engine index).Stored := by
  unfold State.landSignal
  (try dsimp only)
  repeat' first
    | with_reducible assumption
    | with_reducible apply exception_stored
    | split
    | with_reducible apply ite_stored
    | with_reducible apply refold
    | (simp [State.Stored])

theorem signalOwn_stored (s : State) (c engine index : Nat) (e : Option Nat) (hs : s.Stored) :
    (State.signalOwn s c engine index e).Stored := by
  unfold State.signalOwn
  (try dsimp only)
  repeat' first
    | with_reducible assumption
    | with_reducible apply landSignal_stored
    | split
    | with_reducible apply ite_stored
    | with_reducible apply refold
    | (simp [State.Stored])

theorem signalExt_stored (s : State) (j c e : Nat) (hs : s.Stored) : (State.signalExt s j c e).Stored := by
  unfold State.signalExt
  (try dsimp only)
  repeat' first
    | with_reducible assumption
    | with_reducible apply landSignal_stored
    | split
    | with_reducible apply ite_stored
    | with_reducible apply refold
    | (simp [State.Stored])

theorem signalCode_stored (s : State) (j c code : Nat) (hs : s.Stored) : (State.signalCode s j c code).Stored := by
  unfold State.signalCode
  (try dsimp only)
  repeat' first
    | with_reducible assumption
    | with_reducible (intro _)
    | with_reducible apply signalExt_stored
    | with_reducible refine foldl_stored _ ?_ _ _ ?_
    | with_reducible refine foldl_stored_snd _ ?_ _ _ ?_
    | with_reducible refine foldl_stored_fst _ ?_ _ _ ?_
    | with_reducible refine foldl_stored_dec _ ?_ _ _ ?_
    | with_reducible refine foldl_stored_for _ ?_ _ _ ?_
    | split
    | with_reducible apply ite_stored
    | with_reducible apply refold
    | (simp [State.Stored])

theorem signalJob_stored (s : State) (j code : Nat) (hs : s.Stored) : (State.signalJob s j code).Stored := by
  unfold State.signalJob
  (try dsimp only)
  repeat' first
    | with_reducible assumption
    | with_reducible (intro _)
    | with_reducible apply signalCode_stored
    | with_reducible refine foldl_stored _ ?_ _ _ ?_
    | with_reducible refine foldl_stored_snd _ ?_ _ _ ?_
    | with_reducible refine foldl_stored_fst _ ?_ _ _ ?_
    | with_reducible refine foldl_stored_dec _ ?_ _ _ ?_
    | with_reducible refine foldl_stored_for _ ?_ _ _ ?_
    | split
    | with_reducible apply ite_stored
    | with_reducible apply refold
    | (simp [State.Stored])

theorem applyTally_stored (s : State) (c : Nat) (hs : s.Stored) : (State.applyTally s c).Stored := by
  unfold State.applyTally
  (try dsimp only)
  repeat' first
    | with_reducible assumption
    | with_reducible apply exception_stored
    | split
    | with_reducible apply ite_stored
    | with_reducible apply refold
    | (simp [State.Stored])

/-! ### Insn -/

theorem issueNow_stored (s : State) (c w : Nat) (p : Plan) (pass : Bool) (he : ∀ t, t.Stored → (p.effect t).Stored) (hs : s.Stored) :
    (s.issueNow c w p pass).Stored := by
  have hm (t : State) (f : Sequencer → Sequencer) (ht : t.Stored) : (t.modSq c f).Stored := stored_of_stores (by simp) ht
  have hg (t : State) (ht : t.Stored) (n a : Nat) (z : Option Nat) : (t.signalOwn c n a z).Stored := by
    first
      | exact stored_of_stores (by simp) ht
      | exact signalOwn_stored _ _ _ _ _ ht
  unfold State.issueNow
  dsimp only
  split
  · refine hg _ (hm _ _ ?_) _ _ _
    split
    · exact he _ (hm _ _ hs)
    · exact hm _ _ hs
  · refine hm _ _ ?_
    split
    · exact he _ (hm _ _ hs)
    · exact hm _ _ hs

theorem heldByWait_stored (s : State) (c w : Nat) (hs : s.Stored) : (State.heldByWait s c w).Stored := by
  unfold State.heldByWait
  (try dsimp only)
  repeat' first
    | with_reducible assumption
    | with_reducible apply exception_stored
    | split
    | with_reducible apply ite_stored
    | with_reducible apply refold
    | (simp [State.Stored])

theorem issue_stored (s : State) (c : Nat) (mine : Nat → Bool) (plan : State → Nat → Plan)
    (he : ∀ u w t, t.Stored → ((plan u w).effect t).Stored) (hs : s.Stored) : (s.issue c mine plan).Stored := by
  unfold State.issue
  dsimp only
  repeat' first
    | with_reducible assumption
    | with_reducible apply heldByWait_stored
    | with_reducible apply exception_stored
    | with_reducible refine issueNow_stored _ _ _ _ _ (he _ _) ?_
    | split
    | with_reducible apply refold
    | (simp [State.Stored])

theorem outOfProgram_stored (s : State) (c : Nat) (hs : s.Stored) : (State.outOfProgram s c).Stored := by
  unfold State.outOfProgram
  (try dsimp only)
  repeat' first
    | with_reducible assumption
    | with_reducible apply exception_stored
    | split
    | with_reducible apply ite_stored
    | with_reducible apply refold
    | (simp [State.Stored])

/-! ### SqLocal -/

theorem runSimple_stored (s : State) (c : Nat) (mine : Nat → Bool) (mask sub : Nat) (f : Nat → Sequencer → Sequencer)
    (names : Nat → List Nat) (u : State) (h_u : State.runSimple s c mine mask sub f names = .next u) (hs : s.Stored) : u.Stored := by
  unfold State.runSimple at h_u
  cases h_u
  refine issue_stored _ _ _ _ (fun u w t ht => ?_) hs
  simpa [State.Stored, Plan.simple] using ht

theorem runCompare_stored (s : State) (c op : Nat) (mask accepts : Nat) (f : Nat → Sequencer → Bool) (u : State)
    (h_u : State.runCompare s c op mask accepts f = .next u) (hs : s.Stored) : u.Stored := by
  unfold State.runCompare at h_u
  cases h_u
  refine issue_stored _ _ _ _ (fun u w t ht => ?_) hs
  simpa [State.Stored] using ht

theorem runPlog_stored (s : State) (c : Nat) (mine : Nat → Bool) (func : Nat) (f : Nat → Bool → Bool → Bool) (u : State)
    (h_u : State.runPlog s c mine func f = .next u) (hs : s.Stored) : u.Stored := runSimple_stored _ _ _ _ _ _ _ u h_u hs

theorem fireAlarm_stored (s : State) (c : Nat) (hs : s.Stored) : (State.fireAlarm s c).Stored := by
  unfold State.fireAlarm
  (try dsimp only)
  repeat' first
    | with_reducible assumption
    | with_reducible apply signalCode_stored
    | split
    | with_reducible apply ite_stored
    | with_reducible apply refold
    | (simp [State.Stored])

theorem armAlarm_stored (s : State) (c target seen : Nat) (hs : s.Stored) : (State.armAlarm s c target seen).Stored := by
  unfold State.armAlarm
  (try dsimp only)
  repeat' first
    | with_reducible assumption
    | with_reducible apply fireAlarm_stored
    | split
    | with_reducible apply ite_stored
    | with_reducible apply refold
    | (simp [State.Stored])

theorem runAlarm_stored (s : State) (c : Nat) (mine : Nat → Bool) (mode : Nat) (f : Nat → State → State)
    (h_f : ∀ y0 t, t.Stored → (f y0 t).Stored) (u : State) (h_u : State.runAlarm s c mine mode f = .next u) (hs : s.Stored) : u.Stored := by
  unfold State.runAlarm at h_u
  cases h_u
  exact issue_stored _ _ _ _ (fun u w t ht => h_f w t ht) hs

/-! ### Dpa -/

theorem dpaWrite_stored (s : State) (c : Nat) (o : DpaOp) (b : DpaBank) (n : Nat) (hs : s.Stored) : (State.dpaWrite s c o b n).Stored := by
  unfold State.dpaWrite
  (try dsimp only)
  repeat' first
    | with_reducible assumption
    | with_reducible apply scratchPut_stored
    | split
    | with_reducible apply ite_stored
    | with_reducible apply refold
    | (simp [State.Stored])

/-! ### Mover -/

theorem readChunk_stored (s : State) (core : Nat) (o : MoverOp) (src : Option Nat) (arrived : List Byte) (hs : s.Stored) :
    (State.readChunk s core o src arrived).2.Stored := by
  unfold State.readChunk
  (try dsimp only)
  repeat' first
    | with_reducible assumption
    | with_reducible apply t1Read_stored
    | split
    | with_reducible apply ite_stored
    | with_reducible apply refold
    | (simp [State.Stored])

theorem readBeat_stored (s : State) (core : Nat) (o : MoverOp) (far : List (Nat × List Byte)) (x1 : List (Nat × Option Nat × Nat))
    (x2 : List Byte) (hs : s.Stored) : (State.readBeat s core o far x1 x2).2.Stored := by
  induction x1 generalizing s x2 with
  | nil => (unfold State.readBeat; simpa using hs)
  | cons a r ih =>
    unfold State.readBeat
    (try dsimp only)
    repeat' first
      | with_reducible assumption
      | with_reducible (intro _)
      | with_reducible apply ih
      | with_reducible apply readChunk_stored
      | with_reducible refine foldl_stored _ ?_ _ _ ?_
      | with_reducible refine foldl_stored_snd _ ?_ _ _ ?_
      | with_reducible refine foldl_stored_fst _ ?_ _ _ ?_
      | with_reducible refine foldl_stored_dec _ ?_ _ _ ?_
      | with_reducible refine foldl_stored_for _ ?_ _ _ ?_
      | split
      | with_reducible apply ite_stored
      | with_reducible apply refold
      | (simp [State.Stored])

theorem sendBeat_stored (s : State) (c m : Nat) (u : State) (h_u : State.sendBeat s c m = some u) (hs : s.Stored) : u.Stored := by
  unfold State.sendBeat at h_u
  repeat' (first | split at h_u | dsimp only at h_u)
  all_goals first
    | (injection h_u; done)
    | (injection h_u with h_u; subst h_u; (try dsimp only))
  repeat' first
    | with_reducible assumption
    | with_reducible (intro _)
    | with_reducible apply readBeat_stored
    | with_reducible refine foldl_stored _ ?_ _ _ ?_
    | with_reducible refine foldl_stored_snd _ ?_ _ _ ?_
    | with_reducible refine foldl_stored_fst _ ?_ _ _ ?_
    | with_reducible refine foldl_stored_dec _ ?_ _ _ ?_
    | with_reducible refine foldl_stored_for _ ?_ _ _ ?_
    | split
    | with_reducible apply ite_stored
    | with_reducible apply refold
    | (simp [State.Stored])

theorem sendBeats_stored (s : State) (c m : Nat) (n : Nat) (hs : s.Stored) : (s.sendBeats c m n).Stored := by
  induction n generalizing s with
  | zero => exact hs
  | succ n ih =>
    unfold State.sendBeats
    split
    · exact hs
    · split
      · rename_i t h
        exact ih _ (sendBeat_stored _ _ _ _ h hs)
      · exact hs

theorem signalTiles_stored (s : State) (c m : Nat) (hs : s.Stored) : (State.signalTiles s c m).Stored := by
  unfold State.signalTiles
  (try dsimp only)
  repeat' first
    | with_reducible assumption
    | with_reducible (intro _)
    | with_reducible apply signalOwn_stored
    | with_reducible refine foldl_stored _ ?_ _ _ ?_
    | with_reducible refine foldl_stored_snd _ ?_ _ _ ?_
    | with_reducible refine foldl_stored_fst _ ?_ _ _ ?_
    | with_reducible refine foldl_stored_dec _ ?_ _ _ ?_
    | with_reducible refine foldl_stored_for _ ?_ _ _ ?_
    | split
    | with_reducible apply ite_stored
    | with_reducible apply refold
    | (simp [State.Stored])

theorem runMover_stored (s : State) (c m : Nat) (hs : s.Stored) : (State.runMover s c m).Stored := by
  unfold State.runMover
  (try dsimp only)
  repeat' first
    | with_reducible assumption
    | with_reducible apply signalTiles_stored
    | with_reducible apply sendBeats_stored
    | split
    | with_reducible apply ite_stored
    | with_reducible apply refold
    | (simp [State.Stored])

theorem pushMover_stored (s : State) (c m : Nat) (o : MoverOp) (hs : s.Stored) : (State.pushMover s c m o).Stored := by
  unfold State.pushMover
  (try dsimp only)
  repeat' first
    | with_reducible assumption
    | with_reducible apply runMover_stored
    | split
    | with_reducible apply ite_stored
    | with_reducible apply refold
    | (simp [State.Stored])

theorem runMovers_stored (s : State) (c : Nat) (hs : s.Stored) : (State.runMovers s c).Stored := by
  unfold State.runMovers
  (try dsimp only)
  repeat' first
    | with_reducible assumption
    | with_reducible apply runMover_stored
    | split
    | with_reducible apply ite_stored
    | with_reducible apply refold
    | (simp [State.Stored])

theorem popMover_stored (s : State) (c m : Nat) (hs : s.Stored) : (State.popMover s c m).Stored := by
  unfold State.popMover
  (try dsimp only)
  repeat' first
    | with_reducible assumption
    | with_reducible apply runMover_stored
    | split
    | with_reducible apply ite_stored
    | with_reducible apply refold
    | (simp [State.Stored])

theorem failMover_stored (s : State) (core m : Nat) (o : MoverOp) (t2 : List Nat) (t3 : Bool) (hs : s.Stored) :
    (State.failMover s core m o t2 t3).Stored := by
  unfold State.failMover
  (try dsimp only)
  repeat' first
    | with_reducible assumption
    | with_reducible (intro _)
    | with_reducible apply runMover_stored
    | with_reducible apply exception_stored
    | with_reducible refine foldl_stored _ ?_ _ _ ?_
    | with_reducible refine foldl_stored_snd _ ?_ _ _ ?_
    | with_reducible refine foldl_stored_fst _ ?_ _ _ ?_
    | with_reducible refine foldl_stored_dec _ ?_ _ _ ?_
    | with_reducible refine foldl_stored_for _ ?_ _ _ ?_
    | split
    | with_reducible apply ite_stored
    | with_reducible apply refold
    | (simp [State.Stored])

theorem afterBeat_stored (s : State) (core m : Nat) (o : MoverOp) (hs : s.Stored) : (State.afterBeat s core m o).Stored := by
  unfold State.afterBeat
  (try dsimp only)
  repeat' first
    | with_reducible assumption
    | with_reducible apply runMover_stored
    | with_reducible apply signalTiles_stored
    | with_reducible apply sendBeats_stored
    | with_reducible apply signalOwn_stored
    | split
    | with_reducible apply ite_stored
    | with_reducible apply refold
    | (simp [State.Stored])

theorem endBeat_stored (s : State) (core m : Nat) (hs : s.Stored) : (State.endBeat s core m).Stored := by
  unfold State.endBeat
  (try dsimp only)
  repeat' first
    | with_reducible assumption
    | with_reducible apply afterBeat_stored
    | split
    | with_reducible apply ite_stored
    | with_reducible apply refold
    | (simp [State.Stored])

theorem writeBeat_stored (s : State) (core : Nat) (beat : List (Option Nat × Nat)) (data : List (Nat × List Byte)) (hs : s.Stored) :
    (State.writeBeat s core beat data).Stored := by
  unfold State.writeBeat
  (try dsimp only)
  repeat' first
    | with_reducible assumption
    | with_reducible (intro _)
    | with_reducible apply progPut_stored
    | with_reducible refine foldl_stored _ ?_ _ _ ?_
    | with_reducible refine foldl_stored_snd _ ?_ _ _ ?_
    | with_reducible refine foldl_stored_fst _ ?_ _ _ ?_
    | with_reducible refine foldl_stored_dec _ ?_ _ _ ?_
    | with_reducible refine foldl_stored_for _ ?_ _ _ ?_
    | split
    | with_reducible apply ite_stored
    | with_reducible apply refold
    | (simp [State.Stored])

theorem takeBeat_stored (s : State) (core m : Nat) (o : MoverOp) (arrived : List Byte) (failed : Bool) (hs : s.Stored) :
    (State.takeBeat s core m o arrived failed).Stored := by
  unfold State.takeBeat
  (try dsimp only)
  repeat' first
    | with_reducible assumption
    | with_reducible apply writeBeat_stored
    | with_reducible apply endBeat_stored
    | with_reducible apply failMover_stored
    | with_reducible apply runMover_stored
    | with_reducible apply readBeat_stored
    | with_reducible apply exception_stored
    | split
    | with_reducible apply ite_stored
    | with_reducible apply refold
    | (simp [State.Stored])

theorem farEnd_stored (s : State) (c m num b : Nat) (ok : Bool) (hs : s.Stored) : (State.farEnd s c m num b ok).Stored := by
  unfold State.farEnd
  (try dsimp only)
  repeat' first
    | with_reducible assumption
    | with_reducible apply failMover_stored
    | with_reducible apply restCore_stored
    | split
    | with_reducible apply ite_stored
    | with_reducible apply refold
    | (simp [State.Stored])

/-! ### Jobs -/

theorem startCore_stored (s : State) (j : Job) (c : Nat) (hs : s.Stored) : (State.startCore s j c).Stored := by
  unfold State.startCore
  (try dsimp only)
  repeat' first
    | with_reducible assumption
    | with_reducible apply runMovers_stored
    | with_reducible apply applyTally_stored
    | with_reducible apply touchT1_stored
    | split
    | with_reducible apply ite_stored
    | with_reducible apply refold
    | (simp [State.Stored])

theorem mem_writeBytes {e : Host.Cell} : ∀ {bs : List Byte} {t : List Host.Cell} {a : Nat}, e ∈ writeBytes t a bs →
    e ∈ t ∨ (a ≤ e.1 ∧ e.1 < a + bs.length)
  | [], _, _, h => .inl h
  | b :: r, t, a, h => by
    rcases mem_writeBytes (bs := r) h with h | h
    · unfold Table.set at h
      split at h
      · exact .inl (Table.mem_del h)
      · rcases Table.mem_put h with h | h
        · exact .inr (by simp [h])
        · exact .inl h
    · exact .inr (by simp only [List.length_cons]; omega)

/-- Cells that fit a range of the cloak area. -/
def fits (off n : Nat) (cells : List Host.Cell) : Prop :=
  Table.wf (0 : Byte) cells = true ∧ ∀ e ∈ cells, off ≤ e.1 ∧ e.1 < off + n

theorem fits_bytes (off n : Nat) (bs : List Byte) (h : bs.length ≤ n) : fits off n (writeBytes [] off bs) :=
  ⟨wf_writeBytes _ bs rfl, fun e he => by
    rcases mem_writeBytes he with h' | h'
    · simp at h'
    · omega⟩

/-- The cells of one unit of a store, moved to a range of the unit's size. -/
theorem fits_unit (t : List Host.Cell) (size unit to' : Nat) (hz : 0 < size) (ht : Table.wf (0 : Byte) t = true) :
    fits to' size (shiftCells (unit * size) to' (t.filter fun e => e.1 / size == unit)) := by
  have lo {e : Host.Cell} (he : e ∈ t.filter fun e => e.1 / size == unit) : unit * size ≤ e.1 ∧ e.1 < (unit + 1) * size := by
    have : e.1 / size = unit := by simpa using (List.mem_filter.mp he).2
    exact ⟨(Nat.le_div_iff_mul_le hz).mp (Nat.le_of_eq this.symm), (Nat.div_lt_iff_lt_mul hz).mp (by omega)⟩
  refine ⟨Table.wf_shift 0 _ _ (Table.wf_filter 0 _ ht) fun e he => (lo he).1, fun e he => ?_⟩
  obtain ⟨f, hf, rfl⟩ := List.mem_map.mp he
  have h := lo hf
  rw [Nat.succ_mul] at h
  dsimp only
  omega

theorem cloakPut_stored (s : State) (off n : Nat) (cells : List Host.Cell) (hc : fits off n cells) (hs : s.Stored) :
    (s.cloakPut off n cells).Stored := by
  have hm := (Memory.wf_iff _).mp hs.1
  refine ⟨(Memory.wf_iff _).mpr ⟨hm.1, hm.2.1, ?_, hm.2.2.2⟩, hs.2⟩
  refine Table.wf_append (0 : Byte) (off + n) (Table.wf_append (0 : Byte) off (Table.wf_filter 0 _ hm.2.2.1) hc.1 ?_ fun e he => (hc.2 e he).1)
    (Table.wf_filter 0 _ hm.2.2.1) ?_ ?_
  · exact fun e he => by simpa using (List.mem_filter.mp he).2
  · intro e he
    rcases List.mem_append.mp he with he | he
    · have := (List.mem_filter.mp he).2
      simp at this
      omega
    · exact (hc.2 e he).2
  · exact fun e he => by simpa using (List.mem_filter.mp he).2

theorem length_toBytes (n v : Nat) : (toBytes n v).length = n := by
  induction n generalizing v with
  | zero => rfl
  | succ n ih => simp [toBytes, ih]

theorem length_flatMap_const {α β : Type} (f : α → List β) (k : Nat) (h : ∀ x, (f x).length = k) (l : List α) :
    (l.flatMap f).length = l.length * k := by
  induction l with
  | nil => simp
  | cons a r ih => rw [List.flatMap_cons, List.length_append, h, ih, List.length_cons, Nat.succ_mul]; omega

/-- The record of a core fills bytes 0x0000 to 0x015F of its place (Table 15.3). -/
theorem length_record (k : Core) (run : Nat) : (k.record run).length = 0x160 := by
  unfold Core.record
  dsimp only
  simp only [List.length_append, length_toBytes]
  rw [length_flatMap_const _ 8 (fun _ => length_toBytes _ _), length_flatMap_const _ 4 (fun _ => length_toBytes _ _),
    length_flatMap_const _ 2 (fun _ => length_toBytes _ _), length_flatMap_const _ 16]
  · simp only [List.length_range]
  · intro i
    split <;> simp only [List.length_append, length_toBytes]

theorem saveCore_stored (s : State) (j slot c : Nat) (hs : s.Stored) : (s.saveCore j slot c).Stored := by
  have hm := (Memory.wf_iff _).mp hs.1
  unfold State.saveCore
  dsimp only
  generalize s.slotBase slot = base
  have h1 := cloakPut_stored s (base + cloakScratch c) scratchSize _ (fits_unit s.mem.scratch scratchSize c _ (by decide) hm.1) hs
  generalize s.cloakPut (base + cloakScratch c) scratchSize _ = t at h1 ⊢
  have h2 := cloakPut_stored t (base + cloakRecord c) 0x2000 _ (fits_bytes _ _ ((s.core c).record (t.run (slotCore c)))
    (by rw [length_record]; decide)) h1
  generalize t.cloakPut (base + cloakRecord c) 0x2000 _ = t at h2 ⊢
  have h3 := cloakPut_stored t (base + 4 * c) 4 _ (fits_bytes _ _ (toBytes 2 j ++ toBytes 1 1 ++ toBytes 1 (ofFlag (s.core c).quiesced))
    (by simp only [List.length_append, length_toBytes]; decide)) h2
  generalize t.cloakPut (base + 4 * c) 4 _ = t at h3 ⊢
  exact stored_of_stores (by simp) h3

theorem saveSram_stored (s : State) (j slot k : Nat) (hs : s.Stored) : (s.saveSram j slot k).Stored := by
  have hm := (Memory.wf_iff _).mp hs.1
  unfold State.saveSram
  dsimp only
  generalize s.slotBase slot = base
  have h1 := cloakPut_stored s (base + cloakSramAt k) sramSize _ (fits_unit s.mem.sram sramSize k _ (by decide) hm.2.1) hs
  generalize s.cloakPut (base + cloakSramAt k) sramSize _ = t at h1 ⊢
  have h2 := cloakPut_stored t (base + 0x400 + 4 * k) 4 _ (fits_bytes _ _ (toBytes 2 j ++ toBytes 2 1)
    (by simp only [List.length_append, length_toBytes]; decide)) h1
  generalize t.cloakPut (base + 0x400 + 4 * k) 4 _ = t at h2 ⊢
  exact h2

theorem wf_swapUnit (t new : List Host.Cell) (size unit : Nat) (hz : 0 < size) (ht : Table.wf (0 : Byte) t = true)
    (hn : Table.wf (0 : Byte) new = true) : Table.wf (0 : Byte) (swapUnit t size unit new) = true := by
  have lo {e : Host.Cell} (he : e ∈ new.filter fun e => e.1 / size == unit) : unit * size ≤ e.1 ∧ e.1 < (unit + 1) * size := by
    have : e.1 / size = unit := by simpa using (List.mem_filter.mp he).2
    exact ⟨(Nat.le_div_iff_mul_le hz).mp (Nat.le_of_eq this.symm), (Nat.div_lt_iff_lt_mul hz).mp (by omega)⟩
  have step : unit * size ≤ (unit + 1) * size := Nat.mul_le_mul_right _ (Nat.le_succ _)
  refine Table.wf_append (0 : Byte) ((unit + 1) * size) (Table.wf_append (0 : Byte) (unit * size) (Table.wf_filter 0 _ ht)
    (Table.wf_filter 0 _ hn) ?_ fun e he => (lo he).1) (Table.wf_filter 0 _ ht) ?_ ?_
  · exact fun e he => by simpa using (List.mem_filter.mp he).2
  · intro e he
    rcases List.mem_append.mp he with he | he
    · have : e.1 < unit * size := by simpa using (List.mem_filter.mp he).2
      omega
    · exact (lo he).2
  · exact fun e he => by simpa using (List.mem_filter.mp he).2

/-- What a range of the cloak area holds, moved, is canonical. -/
theorem wf_cloakGet (s : State) (off n to' : Nat) (hs : s.Stored) :
    Table.wf (0 : Byte) (shiftCells off to' (s.cloakGet off n)) = true := by
  have hm := (Memory.wf_iff _).mp hs.1
  refine Table.wf_shift 0 _ _ (Table.wf_filter 0 _ hm.2.2.1) fun e he => ?_
  have := (List.mem_filter.mp he).2
  simp at this
  exact this.1

theorem readyCore_stored (s : State) (j c : Nat) (hs : s.Stored) : (s.readyCore j c).Stored := by
  have hm := (Memory.wf_iff _).mp hs.1
  unfold State.readyCore
  dsimp only
  refine ⟨(Memory.wf_iff _).mpr ⟨wf_swapUnit _ _ _ _ (by decide) hm.1 ?_, hm.2⟩, hs.2⟩
  split
  · exact wf_cloakGet _ _ _ _ hs
  · rfl

theorem readySram_stored (s : State) (j k : Nat) (hs : s.Stored) : (s.readySram j k).Stored := by
  have hm := (Memory.wf_iff _).mp hs.1
  have key (new : List Host.Cell) (hn : Table.wf (0 : Byte) new = true) :
      storesOk { s.mem with sram := swapUnit s.mem.sram sramSize k new } s.stack :=
    ⟨(Memory.wf_iff _).mpr ⟨hm.1, wf_swapUnit _ _ _ _ (by decide) hm.2.1 hn, hm.2.2⟩, hs.2⟩
  unfold State.readySram
  dsimp only
  split
  · exact key _ (wf_cloakGet _ _ _ _ hs)
  · exact key [] rfl

theorem saveJob_stored (s : State) (d : Nat) (x : Nat × Nat) (hs : s.Stored) : (State.saveJob s d x).Stored := by
  unfold State.saveJob
  (try dsimp only)
  repeat' first
    | with_reducible assumption
    | with_reducible (intro _)
    | with_reducible apply saveSram_stored
    | with_reducible apply saveCore_stored
    | with_reducible refine foldl_stored _ ?_ _ _ ?_
    | with_reducible refine foldl_stored_snd _ ?_ _ _ ?_
    | with_reducible refine foldl_stored_fst _ ?_ _ _ ?_
    | with_reducible refine foldl_stored_dec _ ?_ _ _ ?_
    | with_reducible refine foldl_stored_for _ ?_ _ _ ?_
    | split
    | with_reducible apply ite_stored
    | with_reducible apply refold
    | (simp [State.Stored])

theorem suspendSaved_stored (s : State) (held : Bool) (x : Nat × Nat) (hs : s.Stored) : (State.suspendSaved s held x).Stored := by
  unfold State.suspendSaved
  (try dsimp only)
  repeat' first
    | with_reducible assumption
    | with_reducible apply endJob_stored
    | with_reducible apply updateJob_stored
    | split
    | with_reducible apply ite_stored
    | with_reducible apply refold
    | (simp [State.Stored])

theorem jobControl_stored (s : State) (op job : Nat) (hs : s.Stored) : (State.jobControl s op job).Stored := by
  unfold State.jobControl
  (try dsimp only)
  repeat' first
    | with_reducible assumption
    | with_reducible (intro _)
    | with_reducible apply schedule_stored
    | with_reducible refine hostWrite_stored _ _ _ _ ?_ ?_
    | with_reducible refine foldl_stored _ ?_ _ _ ?_
    | with_reducible refine foldl_stored_snd _ ?_ _ _ ?_
    | with_reducible refine foldl_stored_fst _ ?_ _ _ ?_
    | with_reducible refine foldl_stored_dec _ ?_ _ _ ?_
    | with_reducible refine foldl_stored_for _ ?_ _ _ ?_
    | split
    | with_reducible apply ite_stored
    | with_reducible apply refold
    | (simp [State.Stored])

/-! ### Units -/

theorem releaseCore_stored (s : State) (c : Nat) (hs : s.Stored) : (State.releaseCore s c).Stored := by
  unfold State.releaseCore
  (try dsimp only)
  repeat' first
    | with_reducible assumption
    | with_reducible apply runMovers_stored
    | with_reducible apply applyTally_stored
    | split
    | with_reducible apply ite_stored
    | with_reducible apply refold
    | (simp [State.Stored])

theorem ctrlUnit_stored (s : State) (w : UnitWrite) (slot : Nat) (hs : s.Stored) : (State.ctrlUnit s w slot).Stored := by
  unfold State.ctrlUnit
  (try dsimp only)
  repeat' first
    | with_reducible assumption
    | with_reducible apply releaseCore_stored
    | split
    | with_reducible apply ite_stored
    | with_reducible apply refold
    | (simp [State.Stored])

theorem applyCtrl_stored (s : State) (w : UnitWrite) (hs : s.Stored) : (State.applyCtrl s w).Stored := by
  unfold State.applyCtrl
  (try dsimp only)
  repeat' first
    | with_reducible assumption
    | with_reducible (intro _)
    | with_reducible apply ctrlUnit_stored
    | with_reducible apply schedule_stored
    | with_reducible apply settle_stored
    | with_reducible refine foldl_stored _ ?_ _ _ ?_
    | with_reducible refine foldl_stored_snd _ ?_ _ _ ?_
    | with_reducible refine foldl_stored_fst _ ?_ _ _ ?_
    | with_reducible refine foldl_stored_dec _ ?_ _ _ ?_
    | with_reducible refine foldl_stored_for _ ?_ _ _ ?_
    | split
    | with_reducible apply ite_stored
    | with_reducible apply refold
    | (simp [State.Stored])

theorem writeCtrl_stored (s : State) (w : UnitWrite) (hs : s.Stored) : (State.writeCtrl s w).Stored := by
  unfold State.writeCtrl
  (try dsimp only)
  repeat' first
    | with_reducible assumption
    | with_reducible (intro _)
    | with_reducible apply applyCtrl_stored
    | with_reducible refine hostWrite_stored _ _ _ _ ?_ ?_
    | with_reducible refine foldl_stored _ ?_ _ _ ?_
    | with_reducible refine foldl_stored_snd _ ?_ _ _ ?_
    | with_reducible refine foldl_stored_fst _ ?_ _ _ ?_
    | with_reducible refine foldl_stored_dec _ ?_ _ _ ?_
    | with_reducible refine foldl_stored_for _ ?_ _ _ ?_
    | split
    | with_reducible apply ite_stored
    | with_reducible apply refold
    | (simp [State.Stored])

/-! ### Target -/

theorem storeMessage_stored (s : State) (r : Region) (data : List Byte) (hs : s.Stored) : (State.storeMessage s r data).Stored := by
  unfold State.storeMessage
  (try dsimp only)
  repeat' first
    | with_reducible assumption
    | with_reducible apply t1Put_stored
    | split
    | with_reducible apply ite_stored
    | with_reducible apply refold
    | (simp [State.Stored])

theorem signalRegion_stored (s : State) (r : Region) (hs : s.Stored) : (State.signalRegion s r).Stored := by
  unfold State.signalRegion
  (try dsimp only)
  repeat' first
    | with_reducible assumption
    | with_reducible apply signalCode_stored
    | split
    | with_reducible apply ite_stored
    | with_reducible apply refold
    | (simp [State.Stored])

theorem queueMessage_stored (s : State) (r : Region) (hd : RequestHead) (data : List Byte) (hs : s.Stored) :
    (State.queueMessage s r hd data).Stored := by
  unfold State.queueMessage
  (try dsimp only)
  repeat' first
    | with_reducible assumption
    | with_reducible apply signalRegion_stored
    | with_reducible apply storeMessage_stored
    | split
    | with_reducible apply ite_stored
    | with_reducible apply refold
    | (simp [State.Stored])

theorem applyRequest_stored (s : State) (ptype : Nat) (hd : RequestHead) (r : Region) (data : List Byte) (hs : s.Stored) :
    (State.applyRequest s ptype hd r data).2.Stored := by
  unfold State.applyRequest
  (try dsimp only)
  repeat' first
    | with_reducible assumption
    | with_reducible apply queueMessage_stored
    | with_reducible apply t1Put_stored
    | with_reducible apply t1Read_stored
    | split
    | with_reducible apply ite_stored
    | with_reducible apply refold
    | (simp [State.Stored])

theorem reachBank_stored (s : State) (ptype group : Nat) (hd : RequestHead) (r : Region) (data : List Byte) (report : BankReport)
    (hs : s.Stored) : (State.reachBank s ptype group hd r data report).2.Stored := by
  unfold State.reachBank
  (try dsimp only)
  repeat' first
    | with_reducible assumption
    | with_reducible apply applyRequest_stored
    | split
    | with_reducible apply ite_stored
    | with_reducible apply refold
    | (simp [State.Stored])

theorem answerDuplicate_stored (s : State) (ptype group : Nat) (hd : RequestHead) (hs : s.Stored) :
    (State.answerDuplicate s ptype group hd).2.Stored := by
  unfold State.answerDuplicate
  (try dsimp only)
  repeat' first
    | with_reducible assumption
    | with_reducible apply applyRequest_stored
    | split
    | with_reducible apply ite_stored
    | with_reducible apply refold
    | (simp [State.Stored])

theorem takeRequest_stored (s : State) (ptype group : Nat) (hd : RequestHead) (data : List Byte) (wait : Bool) (report : BankReport)
    (hs : s.Stored) : (State.takeRequest s ptype group hd data wait report).2.Stored := by
  unfold State.takeRequest
  (try dsimp only)
  repeat' first
    | with_reducible assumption
    | with_reducible apply answerDuplicate_stored
    | with_reducible apply reachBank_stored
    | split
    | with_reducible apply ite_stored
    | with_reducible apply refold
    | (simp [State.Stored])

theorem target_stored (s : State) (ptype group : Nat) (hd : RequestHead) (data : List Byte) (wait : TargetWait) (report : BankReport)
    (hs : s.Stored) : (State.target s ptype group hd data wait report).Stored := by
  unfold State.target
  (try dsimp only)
  repeat' first
    | with_reducible assumption
    | with_reducible apply takeRequest_stored
    | with_reducible apply reachBank_stored
    | split
    | with_reducible apply ite_stored
    | with_reducible apply refold
    | (simp [State.Stored])

/-! ### KvCmds -/

theorem endKv_stored (s : State) (t : Taken) (status : Nat) (hs : s.Stored) : (State.endKv s t status).Stored := by
  unfold State.endKv
  (try dsimp only)
  repeat' first
    | with_reducible assumption
    | with_reducible apply completeKv_stored
    | split
    | with_reducible apply ite_stored
    | with_reducible apply refold
    | (simp [State.Stored])

theorem onSequence_stored (s : State) (queue : Nat) (t : Taken) (cmd : Command) (legal : Bool) (k : State → Nat → State)
    (h_k : ∀ t y1, t.Stored → (k t y1).Stored) (hs : s.Stored) : (State.onSequence s queue t cmd legal k).Stored := by
  unfold State.onSequence
  (try dsimp only)
  repeat' first
    | with_reducible assumption
    | with_reducible apply h_k
    | with_reducible apply endKv_stored
    | split
    | with_reducible apply ite_stored
    | with_reducible apply refold
    | (simp [State.Stored])

theorem runOrHold_stored (s : State) (lg : Nat) (c : HeldCmd) (cd : CopyData) (hs : s.Stored) : (State.runOrHold s lg c cd).Stored := by
  unfold State.runOrHold
  (try dsimp only)
  repeat' first
    | with_reducible assumption
    | with_reducible apply runHeld_stored
    | with_reducible apply Decision_flags_stored
    | split
    | with_reducible apply ite_stored
    | with_reducible apply refold
    | (simp [State.Stored])

theorem forgetRestore_stored (s : State) (h : Nat) (hs : s.Stored) : (State.forgetRestore s h).Stored := by
  unfold State.forgetRestore
  (try dsimp only)
  repeat' first
    | with_reducible assumption
    | with_reducible (intro _)
    | with_reducible apply endKv_stored
    | with_reducible refine foldl_stored _ ?_ _ _ ?_
    | with_reducible refine foldl_stored_snd _ ?_ _ _ ?_
    | with_reducible refine foldl_stored_fst _ ?_ _ _ ?_
    | with_reducible refine foldl_stored_dec _ ?_ _ _ ?_
    | with_reducible refine foldl_stored_for _ ?_ _ _ ?_
    | split
    | with_reducible apply ite_stored
    | with_reducible apply refold
    | (simp [State.Stored])

theorem ledgerFault_stored (s : State) (lg cause : Nat) (hs : s.Stored) : (State.ledgerFault s lg cause).Stored := by
  unfold State.ledgerFault
  (try dsimp only)
  repeat' first
    | with_reducible assumption
    | with_reducible apply faultJob_stored
    | split
    | with_reducible apply ite_stored
    | with_reducible apply refold
    | (simp [State.Stored])

theorem memberOp_stored (s : State) (r : LedgerRecord) (o : LedgerOp) (cd : CopyData) (hs : s.Stored) :
    (State.memberOp s r o cd).1.Stored := by
  unfold State.memberOp
  (try dsimp only)
  repeat' first
    | with_reducible assumption
    | with_reducible apply applyOp_stored
    | split
    | with_reducible apply ite_stored
    | with_reducible apply refold
    | (simp [State.Stored])

theorem parkStoreFailed_stored (s : State) (a : Nat) (hs : s.Stored) : (State.parkStoreFailed s a).Stored := by
  unfold State.parkStoreFailed
  (try dsimp only)
  repeat' first
    | with_reducible assumption
    | with_reducible apply copyFailed_stored
    | split
    | with_reducible apply ite_stored
    | with_reducible apply refold
    | (simp [State.Stored])

theorem applyRecord_stored (s : State) (r : LedgerRecord) (cd : CopyData) (hs : s.Stored) : (State.applyRecord s r cd).Stored := by
  unfold State.applyRecord
  (try dsimp only)
  repeat' first
    | with_reducible assumption
    | with_reducible (intro _)
    | with_reducible apply memberOp_stored
    | with_reducible refine foldl_stored _ ?_ _ _ ?_
    | with_reducible refine foldl_stored_snd _ ?_ _ _ ?_
    | with_reducible refine foldl_stored_fst _ ?_ _ _ ?_
    | with_reducible refine foldl_stored_dec _ ?_ _ _ ?_
    | with_reducible refine foldl_stored_for _ ?_ _ _ ?_
    | split
    | with_reducible apply ite_stored
    | with_reducible apply refold
    | (simp [State.Stored])

theorem applyEarly_stored (s : State) (lg : Nat) (x1 : Nat) (hs : s.Stored) : (State.applyEarly s lg x1).Stored := by
  induction x1 generalizing s with
  | zero => (unfold State.applyEarly; simpa using hs)
  | succ n ih =>
    unfold State.applyEarly
    (try dsimp only)
    repeat' first
      | with_reducible assumption
      | with_reducible (intro _)
      | with_reducible apply ih
      | with_reducible apply applyRecord_stored
      | with_reducible refine foldl_stored _ ?_ _ _ ?_
      | with_reducible refine foldl_stored_snd _ ?_ _ _ ?_
      | with_reducible refine foldl_stored_fst _ ?_ _ _ ?_
      | with_reducible refine foldl_stored_dec _ ?_ _ _ ?_
      | with_reducible refine foldl_stored_for _ ?_ _ _ ?_
      | split
      | with_reducible apply ite_stored
      | with_reducible apply refold
      | (simp [State.Stored])

theorem takeRecord_stored (s : State) (r : LedgerRecord) (cd : CopyData) (hs : s.Stored) : (State.takeRecord s r cd).Stored := by
  unfold State.takeRecord
  (try dsimp only)
  repeat' first
    | with_reducible assumption
    | with_reducible apply applyEarly_stored
    | with_reducible apply applyRecord_stored
    | with_reducible apply ledgerFault_stored
    | split
    | with_reducible apply ite_stored
    | with_reducible apply refold
    | (simp [State.Stored])

/-! ### Fab -/

theorem ownCopy_stored (s : State) (p : Packet) (hs : s.Stored) : (State.ownCopy s p).2.Stored := by
  unfold State.ownCopy
  (try dsimp only)
  repeat' first
    | with_reducible assumption
    | with_reducible apply takeRequest_stored
    | split
    | with_reducible apply ite_stored
    | with_reducible apply refold
    | (simp [State.Stored])

theorem endPacket_stored (s : State) (c num : Nat) (ok : Bool) (hs : s.Stored) : (State.endPacket s c num ok).Stored := by
  unfold State.endPacket
  (try dsimp only)
  repeat' first
    | with_reducible assumption
    | with_reducible apply signalOwn_stored
    | with_reducible apply exception_stored
    | split
    | with_reducible apply ite_stored
    | with_reducible apply refold
    | (simp [State.Stored])

theorem sendFab_stored (s : State) (c num : Nat) (x : Packet × Nat) (hs : s.Stored) : (State.sendFab s c num x).Stored := by
  unfold State.sendFab
  (try dsimp only)
  repeat' first
    | with_reducible assumption
    | with_reducible apply endPacket_stored
    | with_reducible apply ownCopy_stored
    | split
    | with_reducible apply ite_stored
    | with_reducible apply refold
    | (simp [State.Stored])

theorem settleFab_stored (s : State) (c : Nat) (x1 : Nat) (hs : s.Stored) : (State.settleFab s c x1).Stored := by
  induction x1 generalizing s with
  | zero => (unfold State.settleFab; simpa using hs)
  | succ n ih =>
    unfold State.settleFab
    (try dsimp only)
    repeat' first
      | with_reducible assumption
      | with_reducible (intro _)
      | with_reducible apply ih
      | with_reducible apply sendFab_stored
      | with_reducible apply signalOwn_stored
      | with_reducible refine foldl_stored _ ?_ _ _ ?_
      | with_reducible refine foldl_stored_snd _ ?_ _ _ ?_
      | with_reducible refine foldl_stored_fst _ ?_ _ _ ?_
      | with_reducible refine foldl_stored_dec _ ?_ _ _ ?_
      | with_reducible refine foldl_stored_for _ ?_ _ _ ?_
      | split
      | with_reducible apply ite_stored
      | with_reducible apply refold
      | (simp [State.Stored])

theorem settleCoreFab_stored (s : State) (c : Nat) (hs : s.Stored) : (State.settleCoreFab s c).Stored := by
  unfold State.settleCoreFab
  (try dsimp only)
  repeat' first
    | with_reducible assumption
    | with_reducible apply settleFab_stored
    | split
    | with_reducible apply ite_stored
    | with_reducible apply refold
    | (simp [State.Stored])

theorem landData_stored (s : State) (r : Request) (data : List Byte) (hs : s.Stored) : (State.landData s r data).Stored := by
  unfold State.landData
  (try dsimp only)
  repeat' first
    | with_reducible assumption
    | with_reducible apply t1Put_stored
    | with_reducible apply scratchPut_stored
    | split
    | with_reducible apply ite_stored
    | with_reducible apply refold
    | (simp [State.Stored])

theorem finishRequest_stored (s : State) (r : Request) (status : Nat) (hs : s.Stored) : (State.finishRequest s r status).Stored := by
  unfold State.finishRequest
  (try dsimp only)
  repeat' first
    | with_reducible assumption
    | with_reducible apply settleCoreFab_stored
    | with_reducible apply endPacket_stored
    | with_reducible apply parkStoreFailed_stored
    | with_reducible apply farEnd_stored
    | with_reducible apply exception_stored
    | with_reducible apply restCore_stored
    | split
    | with_reducible apply ite_stored
    | with_reducible apply refold
    | (simp [State.Stored])

theorem deadRequest_stored (s : State) (r : Request) (hs : s.Stored) : (State.deadRequest s r).Stored := by
  unfold State.deadRequest
  (try dsimp only)
  repeat' first
    | with_reducible assumption
    | with_reducible apply finishRequest_stored
    | split
    | with_reducible apply ite_stored
    | with_reducible apply refold
    | (simp [State.Stored])

theorem startFab_stored (s : State) (core : Nat) (signal : Option Nat) (dst : Nat) (group : Bool) (ptype : Nat) (pkts : List (Packet × Nat))
    (hs : s.Stored) : (State.startFab s core signal dst group ptype pkts).Stored := by
  unfold State.startFab
  (try dsimp only)
  repeat' first
    | with_reducible assumption
    | with_reducible apply settleCoreFab_stored
    | with_reducible apply exception_stored
    | split
    | with_reducible apply ite_stored
    | with_reducible apply refold
    | (simp [State.Stored])

theorem issueFab_stored (s : State) (core : Nat) (mine : Nat → Bool) (vars : Nat) (f : FabForm) (u : State)
    (h_u : State.issueFab s core mine vars f = .next u) (hs : s.Stored) : u.Stored := by
  unfold State.issueFab at h_u
  cases h_u
  refine issue_stored _ _ _ _ (fun u w t ht => ?_) hs
  exact startFab_stored _ _ _ _ _ _ _ (by simpa [State.Stored] using ht)

theorem sendBulk_stored (s : State) (b : Bulk) (hs : s.Stored) : (State.sendBulk s b).Stored := by
  unfold State.sendBulk
  (try dsimp only)
  repeat' first
    | with_reducible assumption
    | with_reducible (intro _)
    | with_reducible apply touchLines_stored
    | with_reducible refine foldl_stored _ ?_ _ _ ?_
    | with_reducible refine foldl_stored_snd _ ?_ _ _ ?_
    | with_reducible refine foldl_stored_fst _ ?_ _ _ ?_
    | with_reducible refine foldl_stored_dec _ ?_ _ _ ?_
    | with_reducible refine foldl_stored_for _ ?_ _ _ ?_
    | split
    | with_reducible apply ite_stored
    | with_reducible apply refold
    | (simp [State.Stored])

theorem takeBulk_stored (s : State) (host : List Byte) (mine : Nat → Bool) (hs : s.Stored) : (State.takeBulk s host mine).Stored := by
  unfold State.takeBulk
  (try dsimp only)
  repeat' first
    | with_reducible assumption
    | with_reducible apply sendBulk_stored
    | with_reducible apply touchT1_stored
    | split
    | with_reducible apply ite_stored
    | with_reducible apply refold
    | (simp [State.Stored])

/-! ### Port -/

theorem planesFell_stored (s : State) (before : Nat) (hs : s.Stored) : (State.planesFell s before).Stored := by
  unfold State.planesFell
  (try dsimp only)
  repeat' first
    | with_reducible assumption
    | with_reducible apply moduleFault_stored
    | split
    | with_reducible apply ite_stored
    | with_reducible apply refold
    | (simp [State.Stored])

theorem setPort_stored (s : State) (port st : Nat) (hs : s.Stored) : (State.setPort s port st).Stored := by
  unfold State.setPort
  (try dsimp only)
  repeat' first
    | with_reducible assumption
    | with_reducible apply planesFell_stored
    | split
    | with_reducible apply ite_stored
    | with_reducible apply refold
    | (simp [State.Stored])

theorem portUp_stored (s : State) (port st : Nat) (hs : s.Stored) : (State.portUp s port st).Stored := by
  unfold State.portUp
  (try dsimp only)
  repeat' first
    | with_reducible assumption
    | with_reducible apply setPort_stored
    | split
    | with_reducible apply ite_stored
    | with_reducible apply refold
    | (simp [State.Stored])

theorem replay_stored (s : State) (port : Nat) (hs : s.Stored) : (State.replay s port).Stored := by
  unfold State.replay
  (try dsimp only)
  repeat' first
    | with_reducible assumption
    | with_reducible apply setPort_stored
    | split
    | with_reducible apply ite_stored
    | with_reducible apply refold
    | (simp [State.Stored])

/-! ### Power -/

theorem lasersOff_stored (s : State) (hs : s.Stored) : (State.lasersOff s).Stored := by
  unfold State.lasersOff
  (try dsimp only)
  repeat' first
    | with_reducible assumption
    | with_reducible (intro _)
    | with_reducible apply setPort_stored
    | with_reducible refine foldl_stored _ ?_ _ _ ?_
    | with_reducible refine foldl_stored_snd _ ?_ _ _ ?_
    | with_reducible refine foldl_stored_fst _ ?_ _ _ ?_
    | with_reducible refine foldl_stored_dec _ ?_ _ _ ?_
    | with_reducible refine foldl_stored_for _ ?_ _ _ ?_
    | split
    | with_reducible apply ite_stored
    | with_reducible apply refold
    | (simp [State.Stored])

/-! ### Brilo -/

theorem enterRecovery_stored (s : State) (cause : Nat) (hs : s.Stored) : (State.enterRecovery s cause).Stored := by
  unfold State.enterRecovery
  (try dsimp only)
  repeat' first
    | with_reducible assumption
    | with_reducible apply moduleFault_stored
    | split
    | with_reducible apply ite_stored
    | with_reducible apply refold
    | (simp [State.Stored])

theorem message_stored (s : State) (binding ep : Nat) (inRecovery : Bool) (k : State → List Nat × State)
    (h_k : ∀ t, t.Stored → (k t).2.Stored) (hs : s.Stored) : (State.message s binding ep inRecovery k).Stored := by
  unfold State.message
  (try dsimp only)
  repeat' first
    | with_reducible assumption
    | with_reducible apply h_k
    | split
    | with_reducible apply ite_stored
    | with_reducible apply refold
    | (simp [State.Stored])

theorem pldmCmd_stored (s : State) (binding ep type cmd : Nat) (k : State → Nat × List Nat × State) (h_k : ∀ t, t.Stored → (k t).2.2.Stored)
    (hs : s.Stored) : (State.pldmCmd s binding ep type cmd k).Stored := by
  unfold State.pldmCmd
  (try dsimp only)
  repeat' first
    | with_reducible assumption
    | with_reducible apply h_k
    | with_reducible refine message_stored _ _ _ _ _ ?_ ?_
    | split
    | with_reducible apply ite_stored
    | with_reducible apply refold
    | (simp [State.Stored])

theorem updateCmd_stored (s : State) (binding ep cmd : Nat) (k : State → Nat × List Nat × State) (h_k : ∀ t, t.Stored → (k t).2.2.Stored)
    (hs : s.Stored) : (State.updateCmd s binding ep cmd k).Stored := by
  unfold State.updateCmd
  (try dsimp only)
  repeat' first
    | with_reducible assumption
    | with_reducible apply h_k
    | with_reducible refine message_stored _ _ _ _ _ ?_ ?_
    | split
    | with_reducible apply ite_stored
    | with_reducible apply refold
    | (simp [State.Stored])

theorem agentCmd_stored (s : State) (binding ep cmd : Nat) (k : State → Update → Nat × List Nat × State)
    (h_k : ∀ t y1, t.Stored → (k t y1).2.2.Stored) (hs : s.Stored) : (State.agentCmd s binding ep cmd k).Stored := by
  unfold State.agentCmd
  (try dsimp only)
  repeat' first
    | with_reducible assumption
    | with_reducible (intro _)
    | with_reducible apply h_k
    | with_reducible refine updateCmd_stored _ _ _ _ _ ?_ ?_
    | with_reducible refine foldl_stored _ ?_ _ _ ?_
    | with_reducible refine foldl_stored_snd _ ?_ _ _ ?_
    | with_reducible refine foldl_stored_fst _ ?_ _ _ ?_
    | with_reducible refine foldl_stored_dec _ ?_ _ _ ?_
    | with_reducible refine foldl_stored_for _ ?_ _ _ ?_
    | split
    | with_reducible apply ite_stored
    | with_reducible apply refold
    | (simp [State.Stored])

theorem spdm_stored (s : State) (binding ep : Nat) (k : State → List Nat × State) (h_k : ∀ t, t.Stored → (k t).2.Stored) (hs : s.Stored) :
    (State.spdm s binding ep k).Stored := by
  unfold State.spdm
  (try dsimp only)
  repeat' first
    | with_reducible assumption
    | with_reducible (intro _)
    | with_reducible apply h_k
    | with_reducible refine message_stored _ _ _ _ _ ?_ ?_
    | with_reducible refine foldl_stored _ ?_ _ _ ?_
    | with_reducible refine foldl_stored_snd _ ?_ _ _ ?_
    | with_reducible refine foldl_stored_fst _ ?_ _ _ ?_
    | with_reducible refine foldl_stored_dec _ ?_ _ _ ?_
    | with_reducible refine foldl_stored_for _ ?_ _ _ ?_
    | split
    | with_reducible apply ite_stored
    | with_reducible apply refold
    | (simp [State.Stored])

theorem spdmAfter_stored (s : State) (binding ep n : Nat) (k : State → List Nat × State) (h_k : ∀ t, t.Stored → (k t).2.Stored)
    (hs : s.Stored) : (State.spdmAfter s binding ep n k).Stored := by
  unfold State.spdmAfter
  (try dsimp only)
  repeat' first
    | with_reducible assumption
    | with_reducible (intro _)
    | with_reducible apply h_k
    | with_reducible refine spdm_stored _ _ _ _ ?_ ?_
    | with_reducible refine foldl_stored _ ?_ _ _ ?_
    | with_reducible refine foldl_stored_snd _ ?_ _ _ ?_
    | with_reducible refine foldl_stored_fst _ ?_ _ _ ?_
    | with_reducible refine foldl_stored_dec _ ?_ _ _ ?_
    | with_reducible refine foldl_stored_for _ ?_ _ _ ?_
    | split
    | with_reducible apply ite_stored
    | with_reducible apply refold
    | (simp [State.Stored])

theorem secured_stored (s : State) (binding ep : Nat) (k : State → Session → List Nat × State) (h_k : ∀ t y1, t.Stored → (k t y1).2.Stored)
    (hs : s.Stored) : (State.secured s binding ep k).Stored := by
  unfold State.secured
  (try dsimp only)
  repeat' first
    | with_reducible assumption
    | with_reducible (intro _)
    | with_reducible apply h_k
    | with_reducible refine spdm_stored _ _ _ _ ?_ ?_
    | with_reducible refine foldl_stored _ ?_ _ _ ?_
    | with_reducible refine foldl_stored_snd _ ?_ _ _ ?_
    | with_reducible refine foldl_stored_fst _ ?_ _ _ ?_
    | with_reducible refine foldl_stored_dec _ ?_ _ _ ?_
    | with_reducible refine foldl_stored_for _ ?_ _ _ ?_
    | split
    | with_reducible apply ite_stored
    | with_reducible apply refold
    | (simp [State.Stored])

/-! ### MemCmds -/

theorem writeBack_stored (s : State) (x : Nat × Nat) (hs : s.Stored) : (State.writeBack s x).Stored := by
  unfold State.writeBack
  (try dsimp only)
  repeat' first
    | with_reducible assumption
    | with_reducible apply storeLine_stored
    | split
    | with_reducible apply ite_stored
    | with_reducible apply refold
    | (simp [State.Stored])

theorem beginFlush_stored (s : State) (hs : s.Stored) : (State.beginFlush s).Stored := by
  unfold State.beginFlush
  (try dsimp only)
  repeat' first
    | with_reducible assumption
    | with_reducible (intro _)
    | with_reducible apply writeBack_stored
    | with_reducible refine foldl_stored _ ?_ _ _ ?_
    | with_reducible refine foldl_stored_snd _ ?_ _ _ ?_
    | with_reducible refine foldl_stored_fst _ ?_ _ _ ?_
    | with_reducible refine foldl_stored_dec _ ?_ _ _ ?_
    | with_reducible refine foldl_stored_for _ ?_ _ _ ?_
    | split
    | with_reducible apply ite_stored
    | with_reducible apply refold
    | (simp [State.Stored])

/-! ### Start -/

theorem cleared_ok (s : State) (hs : s.Stored) : storesOk ⟨[], [], [], s.mem.t3⟩ [] :=
  ⟨(Memory.wf_iff _).mpr ⟨rfl, rfl, rfl, ((Memory.wf_iff _).mp hs.1).2.2.2⟩, rfl⟩

theorem moduleReset_stored (s : State) (hs : s.Stored) : (s.moduleReset).Stored := by
  have key (t : State) (ht : t.mem = s.mem) : storesOk ⟨[], [], [], t.mem.t3⟩ [] := by rw [ht]; exact cleared_ok s hs
  unfold State.moduleReset
  dsimp only
  refine stored_of_stores (loadPersist_stores _) (stored_of_stores (recap_stores _) (stored_of_stores (setFlag_stores _ _ _ _) ?_))
  refine key _ ?_
  split
  · split
    · exact (modPersist_stores _ _).1
    · rfl
  · rfl

theorem failStart_stored (s : State) (cause : Nat) (hs : s.Stored) : (State.failStart s cause).Stored := by
  unfold State.failStart
  (try dsimp only)
  repeat' first
    | with_reducible assumption
    | with_reducible apply enterRecovery_stored
    | with_reducible apply lasersOff_stored
    | split
    | with_reducible apply ite_stored
    | with_reducible apply refold
    | (simp [State.Stored])

theorem beginShutdown_stored (s : State) (skip : Bool) (hs : s.Stored) : (State.beginShutdown s skip).Stored := by
  unfold State.beginShutdown
  (try dsimp only)
  repeat' first
    | with_reducible assumption
    | with_reducible (intro _)
    | with_reducible apply settle_stored
    | with_reducible apply markFault_stored
    | with_reducible refine foldl_stored _ ?_ _ _ ?_
    | with_reducible refine foldl_stored_snd _ ?_ _ _ ?_
    | with_reducible refine foldl_stored_fst _ ?_ _ _ ?_
    | with_reducible refine foldl_stored_dec _ ?_ _ _ ?_
    | with_reducible refine foldl_stored_for _ ?_ _ _ ?_
    | split
    | with_reducible apply ite_stored
    | with_reducible apply refold
    | (simp [State.Stored])

theorem inPhase_stored (s : State) (n : Nat) (k : Shutdown → State) (h_k : ∀ y0, s.Stored → (k y0).Stored) (hs : s.Stored) :
    (State.inPhase s n k).Stored := by
  unfold State.inPhase
  (try dsimp only)
  repeat' first
    | with_reducible assumption
    | with_reducible apply h_k
    | split
    | with_reducible apply ite_stored
    | with_reducible apply refold
    | (simp [State.Stored])

/-! ### Serving -/

theorem admitCmd_stored (s : State) (cmd : Command) (p : List Byte) (token : Nat) (t : Taken)
    (hs : s.Stored) : (State.admitCmd s cmd p token t).Stored := by
  unfold State.admitCmd
  dsimp only
  split
  · exact complete_stored _ _ _ _ hs
  · rename_i d hd
    have hd := Decision_obtain_stored _ _ _ _ _ _ _ hd hs
    repeat' first
      | with_reducible assumption
      | with_reducible apply complete_stored
      | with_reducible apply Decision_newRecord_stored
      | with_reducible apply Decision_share_stored
      | with_reducible apply touchT1_stored
      | split
      | with_reducible apply refold
      | (simp [State.Stored])

theorem signalIteration_stored (s : State) (lg : Nat) (hs : s.Stored) : (State.signalIteration s lg).Stored := by
  unfold State.signalIteration
  (try dsimp only)
  repeat' first
    | with_reducible assumption
    | with_reducible apply signalJob_stored
    | split
    | with_reducible apply ite_stored
    | with_reducible apply refold
    | (simp [State.Stored])

theorem applyBatch_stored (s : State) (b : Batch) (hs : s.Stored) : (State.applyBatch s b).Stored := by
  unfold State.applyBatch
  (try dsimp only)
  repeat' first
    | with_reducible assumption
    | with_reducible apply signalIteration_stored
    | split
    | with_reducible apply ite_stored
    | with_reducible apply refold
    | (simp [State.Stored])

theorem applyEarlyBatches_stored (s : State) (lg : Nat) (x1 : Nat) (hs : s.Stored) : (State.applyEarlyBatches s lg x1).Stored := by
  induction x1 generalizing s with
  | zero => (unfold State.applyEarlyBatches; simpa using hs)
  | succ n ih =>
    unfold State.applyEarlyBatches
    (try dsimp only)
    repeat' first
      | with_reducible assumption
      | with_reducible (intro _)
      | with_reducible apply ih
      | with_reducible apply applyBatch_stored
      | with_reducible refine foldl_stored _ ?_ _ _ ?_
      | with_reducible refine foldl_stored_snd _ ?_ _ _ ?_
      | with_reducible refine foldl_stored_fst _ ?_ _ _ ?_
      | with_reducible refine foldl_stored_dec _ ?_ _ _ ?_
      | with_reducible refine foldl_stored_for _ ?_ _ _ ?_
      | split
      | with_reducible apply ite_stored
      | with_reducible apply refold
      | (simp [State.Stored])

theorem descriptorArrives_stored (s : State) (lg : Nat) (batch : Batch) (hs : s.Stored) : (State.descriptorArrives s lg batch).Stored := by
  unfold State.descriptorArrives
  (try dsimp only)
  repeat' first
    | with_reducible assumption
    | with_reducible apply applyEarlyBatches_stored
    | split
    | with_reducible apply ite_stored
    | with_reducible apply refold
    | (simp [State.Stored])

theorem issueBlock_stored (s : State) (core op func : Nat) (mine : Nat → Bool) (size : Nat → Nat) (bad : State → Nat → Nat → Bool)
    (ranges : State → Nat → Nat → List (Nat × Nat)) (u : State) (h_u : State.issueBlock s core op func mine size bad ranges = .next u)
    (hs : s.Stored) : u.Stored := by
  unfold State.issueBlock at h_u
  repeat' (first | split at h_u | dsimp only at h_u)
  all_goals first
    | (injection h_u; done)
    | (injection h_u with h_u; subst h_u; (try dsimp only))
  repeat' first
    | with_reducible assumption
    | with_reducible (intro _)
    | with_reducible apply issue_stored
    | with_reducible refine foldl_stored _ ?_ _ _ ?_
    | with_reducible refine foldl_stored_snd _ ?_ _ _ ?_
    | with_reducible refine foldl_stored_fst _ ?_ _ _ ?_
    | with_reducible refine foldl_stored_dec _ ?_ _ _ ?_
    | with_reducible refine foldl_stored_for _ ?_ _ _ ?_
    | split
    | with_reducible apply ite_stored
    | with_reducible apply refold
    | (simp [State.Stored])

theorem pageRequest_stored (s : State) (core blk : Nat) (u : State) (h_u : State.pageRequest s core blk = some u) (hs : s.Stored) :
    u.Stored := by
  unfold State.pageRequest at h_u
  repeat' (first | split at h_u | dsimp only at h_u)
  all_goals first
    | (injection h_u; done)
    | (injection h_u with h_u; subst h_u; (try dsimp only))
  repeat' first
    | with_reducible assumption
    | with_reducible (intro _)
    | with_reducible apply touchT1_stored
    | with_reducible apply scratchPut_stored
    | with_reducible refine foldl_stored _ ?_ _ _ ?_
    | with_reducible refine foldl_stored_snd _ ?_ _ _ ?_
    | with_reducible refine foldl_stored_fst _ ?_ _ _ ?_
    | with_reducible refine foldl_stored_dec _ ?_ _ _ ?_
    | with_reducible refine foldl_stored_for _ ?_ _ _ ?_
    | split
    | with_reducible apply ite_stored
    | with_reducible apply refold
    | (simp [State.Stored])

theorem appendRow_stored (s : State) (core blk : Nat) (u : State) (h_u : State.appendRow s core blk = some u)
    (hs : s.Stored) : u.Stored := by
  unfold State.appendRow at h_u
  repeat' (first | split at h_u | dsimp only at h_u)
  all_goals try (simp only [Option.some.injEq, Host.Outcome.next.injEq, reduceCtorEq] at h_u)
  all_goals try subst h_u
  all_goals repeat' first
    | with_reducible assumption
    | with_reducible (intro _)
    | with_reducible apply t1Put_stored
    | with_reducible refine foldl_stored _ ?_ _ _ ?_
    | split
    | with_reducible apply ite_stored
    | with_reducible apply refold
    | (simp [State.Stored])

theorem doEntries_stored (s : State) (f : State → Nat → Option State) (hf : ∀ s b u, f s b = some u → s.Stored → u.Stored)
    (blk n : Nat) (hs : s.Stored) : (s.doEntries f blk n).1.Stored := by
  induction n generalizing s blk with
  | zero => exact hs
  | succ n ih =>
    unfold State.doEntries
    split
    · rename_i h
      exact ih _ _ (hf _ _ _ h hs)
    · exact hs

theorem endReport_stored (s : State) (lg : Nat) (b : Batch) (cd : CopyData) (hs : s.Stored) : (State.endReport s lg b cd).Stored := by
  unfold State.endReport
  (try dsimp only)
  repeat' first
    | with_reducible assumption
    | with_reducible apply signalIteration_stored
    | with_reducible apply takeReport_stored
    | split
    | with_reducible apply ite_stored
    | with_reducible apply refold
    | (simp [State.Stored])

theorem recordDone_stored (s : State) (core lg : Nat) (cd : CopyData) (hs : s.Stored) : (State.recordDone s core lg cd).Stored := by
  unfold State.recordDone
  (try dsimp only)
  repeat' first
    | with_reducible assumption
    | with_reducible apply endReport_stored
    | split
    | with_reducible apply ite_stored
    | with_reducible apply refold
    | (simp [State.Stored])

theorem seWork_stored (s : State) (core : Nat) (o : EngineOp) (cd : CopyData) (u : State × Bool) (h_u : State.seWork s core o cd = some u)
    (hs : s.Stored) : u.1.Stored := by
  unfold State.seWork at h_u
  dsimp only at h_u
  split at h_u
  · split at h_u
    · cases h_u
      exact scratchPut_stored _ _ _ _ hs
    · split at h_u
      · cases h_u
        exact scratchPut_stored _ _ _ _ hs
      · cases h_u
  · simp only [Option.some.injEq] at h_u
    subst h_u
    exact doEntries_stored _ _ (fun s b u h => pageRequest_stored s core b u h) _ _ hs
  · simp only [Option.some.injEq] at h_u
    subst h_u
    exact doEntries_stored _ _ (fun s b u h => appendRow_stored s core b u h) _ _ hs
  · simp only [Option.some.injEq] at h_u
    subst h_u
    exact stored_of_stores (by simp) hs
  · simp only [Option.some.injEq] at h_u
    subst h_u
    exact recordDone_stored _ _ _ _ hs
  · simp at h_u

theorem endEngineOp_stored (s : State) (core : Nat) (o : EngineOp) (ok : Bool) (cause : Nat) (hs : s.Stored) :
    (State.endEngineOp s core o ok cause).Stored := by
  unfold State.endEngineOp
  (try dsimp only)
  repeat' first
    | with_reducible assumption
    | with_reducible apply signalOwn_stored
    | with_reducible apply exception_stored
    | with_reducible apply restCore_stored
    | split
    | with_reducible apply ite_stored
    | with_reducible apply refold
    | (simp [State.Stored])

/-! ### Exchange -/

theorem writePresence_stored (s : State) (x p l : Nat) (got : List Nat) (hs : s.Stored) : (State.writePresence s x p l got).Stored := by
  unfold State.writePresence
  (try dsimp only)
  repeat' first
    | with_reducible assumption
    | with_reducible apply areaPut_stored
    | split
    | with_reducible apply ite_stored
    | with_reducible apply refold
    | (simp [State.Stored])

theorem fillReturns_stored (s : State) (x : Nat) (z : XeSource) (hs : s.Stored) : (State.fillReturns s x z).Stored := by
  unfold State.fillReturns
  (try dsimp only)
  repeat' first
    | with_reducible assumption
    | with_reducible (intro _)
    | with_reducible apply areaPut_stored
    | with_reducible refine foldl_stored _ ?_ _ _ ?_
    | with_reducible refine foldl_stored_snd _ ?_ _ _ ?_
    | with_reducible refine foldl_stored_fst _ ?_ _ _ ?_
    | with_reducible refine foldl_stored_dec _ ?_ _ _ ?_
    | with_reducible refine foldl_stored_for _ ?_ _ _ ?_
    | split
    | with_reducible apply ite_stored
    | with_reducible apply refold
    | (simp [State.Stored])

theorem completeHalves_stored (s : State) (x p : Nat) (hs : s.Stored) : (State.completeHalves s x p).Stored := by
  unfold State.completeHalves
  (try dsimp only)
  repeat' first
    | with_reducible assumption
    | with_reducible (intro _)
    | with_reducible apply fillReturns_stored
    | with_reducible apply writePresence_stored
    | with_reducible refine foldl_stored _ ?_ _ _ ?_
    | with_reducible refine foldl_stored_snd _ ?_ _ _ ?_
    | with_reducible refine foldl_stored_fst _ ?_ _ _ ?_
    | with_reducible refine foldl_stored_dec _ ?_ _ _ ?_
    | with_reducible refine foldl_stored_for _ ?_ _ _ ?_
    | split
    | with_reducible apply ite_stored
    | with_reducible apply refold
    | (simp [State.Stored])

theorem signalHalves_stored (s : State) (x : Nat) (x1 : Nat) (hs : s.Stored) : (State.signalHalves s x x1).Stored := by
  induction x1 generalizing s x with
  | zero => (unfold State.signalHalves; simpa using hs)
  | succ n ih =>
    unfold State.signalHalves
    (try dsimp only)
    repeat' first
      | with_reducible assumption
      | with_reducible (intro _)
      | with_reducible apply ih
      | with_reducible apply completeHalves_stored
      | with_reducible apply signalJob_stored
      | with_reducible refine foldl_stored _ ?_ _ _ ?_
      | with_reducible refine foldl_stored_snd _ ?_ _ _ ?_
      | with_reducible refine foldl_stored_fst _ ?_ _ _ ?_
      | with_reducible refine foldl_stored_dec _ ?_ _ _ ?_
      | with_reducible refine foldl_stored_for _ ?_ _ _ ?_
      | split
      | with_reducible apply ite_stored
      | with_reducible apply refold
      | (simp [State.Stored])

theorem advanceXe_stored (s : State) (x p : Nat) (hs : s.Stored) : (State.advanceXe s x p).Stored := by
  unfold State.advanceXe
  (try dsimp only)
  repeat' first
    | with_reducible assumption
    | with_reducible apply signalHalves_stored
    | with_reducible apply completeHalves_stored
    | split
    | with_reducible apply ite_stored
    | with_reducible apply refold
    | (simp [State.Stored])

theorem rowArrives_stored (s : State) (ep : Nat) (r : ExchangeRow) (data : List Byte) (hs : s.Stored) :
    (State.rowArrives s ep r data).Stored := by
  unfold State.rowArrives
  (try dsimp only)
  repeat' first
    | with_reducible assumption
    | with_reducible apply advanceXe_stored
    | with_reducible apply areaPut_stored
    | split
    | with_reducible apply ite_stored
    | with_reducible apply refold
    | (simp [State.Stored])

theorem returnMark_stored (s : State) (ep : Nat) (m : ExchangeMark) (hs : s.Stored) : (State.returnMark s ep m).Stored := by
  unfold State.returnMark
  (try dsimp only)
  repeat' first
    | with_reducible assumption
    | with_reducible apply advanceXe_stored
    | split
    | with_reducible apply ite_stored
    | with_reducible apply refold
    | (simp [State.Stored])

theorem putRefused_stored (s : State) (c index : Nat) (hs : s.Stored) : (State.putRefused s c index).Stored := by
  unfold State.putRefused
  (try dsimp only)
  repeat' first
    | with_reducible assumption
    | with_reducible apply exception_stored
    | split
    | with_reducible apply ite_stored
    | with_reducible apply refold
    | (simp [State.Stored])

theorem sendClose_stored (s : State) (c index ep : Nat) (m : ExchangeMark) (hs : s.Stored) : (State.sendClose s c index ep m).Stored := by
  unfold State.sendClose
  (try dsimp only)
  repeat' first
    | with_reducible assumption
    | with_reducible apply putRefused_stored
    | with_reducible apply returnMark_stored
    | split
    | with_reducible apply ite_stored
    | with_reducible apply refold
    | (simp [State.Stored])

theorem dispatchMark_stored (s : State) (ep : Nat) (m : ExchangeMark) (hs : s.Stored) : (State.dispatchMark s ep m).Stored := by
  unfold State.dispatchMark
  (try dsimp only)
  repeat' first
    | with_reducible assumption
    | with_reducible (intro _)
    | with_reducible apply sendClose_stored
    | with_reducible apply advanceXe_stored
    | with_reducible refine foldl_stored _ ?_ _ _ ?_
    | with_reducible refine foldl_stored_snd _ ?_ _ _ ?_
    | with_reducible refine foldl_stored_fst _ ?_ _ _ ?_
    | with_reducible refine foldl_stored_dec _ ?_ _ _ ?_
    | with_reducible refine foldl_stored_for _ ?_ _ _ ?_
    | split
    | with_reducible apply ite_stored
    | with_reducible apply refold
    | (simp [State.Stored])

theorem markArrives_stored (s : State) (ep : Nat) (m : ExchangeMark) (hs : s.Stored) : (State.markArrives s ep m).Stored := by
  unfold State.markArrives
  (try dsimp only)
  repeat' first
    | with_reducible assumption
    | with_reducible apply dispatchMark_stored
    | with_reducible apply returnMark_stored
    | split
    | with_reducible apply ite_stored
    | with_reducible apply refold
    | (simp [State.Stored])

theorem rowPacket_stored (s : State) (ep : Nat) (r : ExchangeRow) (first : Nat) (data : List Byte) (hs : s.Stored) :
    (State.rowPacket s ep r first data).Stored := by
  unfold State.rowPacket
  (try dsimp only)
  repeat' first
    | with_reducible assumption
    | with_reducible apply rowArrives_stored
    | split
    | with_reducible apply ite_stored
    | with_reducible apply refold
    | (simp [State.Stored])

theorem sendRowTo_stored (s : State) (who : Nat × Nat) (ep : Nat) (r : ExchangeRow) (data : List Byte) (hs : s.Stored) :
    (State.sendRowTo s who ep r data).Stored := by
  unfold State.sendRowTo
  (try dsimp only)
  repeat' first
    | with_reducible assumption
    | with_reducible apply putRefused_stored
    | with_reducible apply rowArrives_stored
    | split
    | with_reducible apply ite_stored
    | with_reducible apply refold
    | (simp [State.Stored])

theorem sendMarkTo_stored (s : State) (who : Nat × Nat) (ep : Nat) (m : ExchangeMark) (hs : s.Stored) :
    (State.sendMarkTo s who ep m).Stored := by
  unfold State.sendMarkTo
  (try dsimp only)
  repeat' first
    | with_reducible assumption
    | with_reducible apply dispatchMark_stored
    | with_reducible apply putRefused_stored
    | split
    | with_reducible apply ite_stored
    | with_reducible apply refold
    | (simp [State.Stored])

theorem sendPick_stored (s v : State) (core blk index x p src : Nat) (k : Pick) (hs : s.Stored) :
    (State.sendPick s v core blk index x p src k).Stored := by
  unfold State.sendPick
  (try dsimp only)
  repeat' first
    | with_reducible assumption
    | with_reducible apply sendRowTo_stored
    | split
    | with_reducible apply ite_stored
    | with_reducible apply refold
    | (simp [State.Stored])

theorem sendEnd_stored (s v : State) (core index x p src : Nat) (sent : List Pick) (e : Nat) (hs : s.Stored) :
    (State.sendEnd s v core index x p src sent e).Stored := by
  unfold State.sendEnd
  (try dsimp only)
  repeat' first
    | with_reducible assumption
    | with_reducible apply sendMarkTo_stored
    | split
    | with_reducible apply ite_stored
    | with_reducible apply refold
    | (simp [State.Stored])

theorem dispatch_stored (s : State) (core : Nat) (o : EngineOp) (u : State) (h_u : State.dispatch s core o = some u) (hs : s.Stored) :
    u.Stored := by
  unfold State.dispatch at h_u
  repeat' (first | split at h_u | dsimp only at h_u)
  all_goals first
    | (injection h_u; done)
    | (injection h_u with h_u; subst h_u; (try dsimp only))
  repeat' first
    | with_reducible assumption
    | with_reducible (intro _)
    | with_reducible apply sendEnd_stored
    | with_reducible apply sendPick_stored
    | with_reducible apply advanceXe_stored
    | with_reducible refine foldl_stored _ ?_ _ _ ?_
    | with_reducible refine foldl_stored_snd _ ?_ _ _ ?_
    | with_reducible refine foldl_stored_fst _ ?_ _ _ ?_
    | with_reducible refine foldl_stored_dec _ ?_ _ _ ?_
    | with_reducible refine foldl_stored_for _ ?_ _ _ ?_
    | split
    | with_reducible apply ite_stored
    | with_reducible apply refold
    | (simp [State.Stored])

theorem returnSlotRow_stored (s : State) (core index x p lexp slot src : Nat) (hs : s.Stored) :
    (State.returnSlotRow s core index x p lexp slot src).Stored := by
  unfold State.returnSlotRow
  (try dsimp only)
  repeat' first
    | with_reducible assumption
    | with_reducible apply sendRowTo_stored
    | split
    | with_reducible apply ite_stored
    | with_reducible apply refold
    | (simp [State.Stored])

theorem closeExperts_stored (s : State) (core index x p : Nat) (closes : List Nat) (hs : s.Stored) :
    (State.closeExperts s core index x p closes).Stored := by
  unfold State.closeExperts
  (try dsimp only)
  repeat' first
    | with_reducible assumption
    | with_reducible (intro _)
    | with_reducible apply sendClose_stored
    | with_reducible refine foldl_stored _ ?_ _ _ ?_
    | with_reducible refine foldl_stored_snd _ ?_ _ _ ?_
    | with_reducible refine foldl_stored_fst _ ?_ _ _ ?_
    | with_reducible refine foldl_stored_dec _ ?_ _ _ ?_
    | with_reducible refine foldl_stored_for _ ?_ _ _ ?_
    | split
    | with_reducible apply ite_stored
    | with_reducible apply refold
    | (simp [State.Stored])

theorem giveBack_stored (s : State) (core : Nat) (o : EngineOp) (u : State) (h_u : State.giveBack s core o = some u) (hs : s.Stored) :
    u.Stored := by
  unfold State.giveBack at h_u
  repeat' (first | split at h_u | dsimp only at h_u)
  all_goals first
    | (injection h_u; done)
    | (injection h_u with h_u; subst h_u; (try dsimp only))
  repeat' first
    | with_reducible assumption
    | with_reducible (intro _)
    | with_reducible apply closeExperts_stored
    | with_reducible apply returnSlotRow_stored
    | with_reducible apply advanceXe_stored
    | with_reducible refine foldl_stored _ ?_ _ _ ?_
    | with_reducible refine foldl_stored_snd _ ?_ _ _ ?_
    | with_reducible refine foldl_stored_fst _ ?_ _ _ ?_
    | with_reducible refine foldl_stored_dec _ ?_ _ _ ?_
    | with_reducible refine foldl_stored_for _ ?_ _ _ ?_
    | split
    | with_reducible apply ite_stored
    | with_reducible apply refold
    | (simp [State.Stored])

/-! ### Gsc -/

theorem timingTake_stored (s : State) (hd : PacketHead) (k : State → State) (h_k : ∀ t, t.Stored → (k t).Stored) (hs : s.Stored) :
    (State.timingTake s hd k).Stored := by
  unfold State.timingTake
  (try dsimp only)
  repeat' first
    | with_reducible assumption
    | with_reducible apply h_k
    | split
    | with_reducible apply ite_stored
    | with_reducible apply refold
    | (simp [State.Stored])

/-! ### Vrw -/

theorem issueVrw_stored (s : State) (core : Nat) (mine : Nat → Bool) (last : Nat) (u : State)
    (h_u : State.issueVrw s core mine last = .next u) (hs : s.Stored) : u.Stored := by
  unfold State.issueVrw at h_u
  repeat' (first | split at h_u | dsimp only at h_u)
  all_goals first
    | (injection h_u; done)
    | (injection h_u with h_u; subst h_u; (try dsimp only))
  repeat' first
    | with_reducible assumption
    | with_reducible (intro _)
    | with_reducible apply issue_stored
    | with_reducible refine foldl_stored _ ?_ _ _ ?_
    | with_reducible refine foldl_stored_snd _ ?_ _ _ ?_
    | with_reducible refine foldl_stored_fst _ ?_ _ _ ?_
    | with_reducible refine foldl_stored_dec _ ?_ _ _ ?_
    | with_reducible refine foldl_stored_for _ ?_ _ _ ?_
    | split
    | with_reducible apply ite_stored
    | with_reducible apply refold
    | (simp [State.Stored])

theorem vrwWrite_stored (s : State) (c : Nat) (o : VrwOp) (hs : s.Stored) : (State.vrwWrite s c o).Stored := by
  unfold State.vrwWrite
  (try dsimp only)
  repeat' first
    | with_reducible assumption
    | with_reducible apply scratchPut_stored
    | split
    | with_reducible apply ite_stored
    | with_reducible apply refold
    | (simp [State.Stored])

end Sys2Proof.Machine.State
end

