-- ==== Sys2Proof/Laws/Take.lean ====
section
/-! SUPPORT. What the operations that admit a command answer once its conditions hold: a register write that takes, a packet that is fresh, a
command at the head of its queue, a message that Brilo answers. -/

namespace Sys2Proof.Machine.State

/-- A write that takes has its effect. -/
theorem hostWrite_takes {s : State} {offset : Nat} (h : s.takes offset) (bytes : Nat) (k : State → State) :
    s.hostWrite offset bytes k = k s := hostWrite_open s offset bytes k h.1 h.2

/-- A fresh engine packet whose engine is enabled is taken and answered done. -/
theorem engineTake_fresh {s : State} {hd : PacketHead} {v : Seen} (h : s.Fresh hd v) (enabled : State → Bool) (k : State → State)
    (he : enabled s = true) : s.engineTake hd enabled k = (k (s.taken hd v)).answer hd 0x80 0 := by
  obtain ⟨h1, h2, h3⟩ := h
  simp [engineTake, h1, h2, h3, he, taken]

/-- A fresh engine packet whose engine is not enabled is refused with reason 8, and its number is not taken. -/
theorem engineTake_disabled {s : State} {hd : PacketHead} {v : Seen} (h : s.Fresh hd v) (enabled : State → Bool) (k : State → State)
    (he : enabled s = false) : s.engineTake hd enabled k = s.answer hd 0x83 8 := by
  obtain ⟨h1, h2, _⟩ := h
  simp [engineTake, h1, h2, he]

/-- A fresh control packet acts. -/
theorem controlTake_fresh {s : State} {hd : PacketHead} {v : Seen} (h : s.FreshControl hd v) (k : State → State) :
    s.controlTake hd k = k (s.taken hd v) := by
  obtain ⟨h1, h2⟩ := h
  simp [controlTake, h1, h2, taken]

/-- The command at the head of the queue that its slice serves next is taken. -/
theorem takeCmd_commands {s : State} {q op : Nat} {host : List Byte} {cmd : Command} (h : s.Commands q host op cmd) (mine : Nat → Bool)
    (k : State → Taken → Command → State) (hm : mine op = true) :
    s.takeCmd q host mine k = k (s.take q cmd).2 (s.take q cmd).1 cmd := by
  obtain ⟨h1, h2, h3, h6, h4, h5⟩ := h
  subst h4
  simp [takeCmd, h1, h2, h3, h5, h6, hm]

/-- A KV command on a sequence whose tests pass is carried out. -/
theorem onSequence_meets {s : State} {q : Nat} {cmd : Command} (h : s.OnSequence q cmd) (t : Taken) (legal : Bool) (k : State → Nat → State)
    (hl : legal = true) : s.onSequence q t cmd legal k = k s (s.kvLedger cmd.seq) := by
  obtain ⟨h1, h2, h3⟩ := h
  subst hl
  have h1' : (firstNonzero cmd.raw (1 :: 11 :: 17 :: span 32 64)).isSome = false := by
    rw [show (1 :: 11 :: 17 :: span 32 64) = [1, 0xB, 0x11] ++ span 0x20 0x40 from rfl, h1]; rfl
  simp [onSequence, h1', h2, h3]

/-- A message that Brilo answers is answered with the body its meaning gives. -/
theorem message_answers {s : State} {binding : Nat} {inRecovery : Bool} (h : s.answers binding inRecovery = true) (ep : Nat)
    (k : State → List Nat × State) : s.message binding ep inRecovery k = (k s).2.emit (.message binding ep (k s).1) := by
  simp [message, h]

end Sys2Proof.Machine.State
end

