-- ==== Sys2Proof/WellFormed.lean ====
section
/-! DEFINITION. Well-formed commands: every operand lies in the range the spec gives the thing it names (a core, a port, a slot, a queue,
an endpoint identifier, a flit of 136 bytes). -/

namespace Sys2Proof

/-- A number below a bound. -/
def below (n m : Nat) : Bool := decide (n < m)

/-- A core number (R20). -/
def coreOk (c : Nat) : Bool := below c 256

/-- The header of a packet that reaches an engine: a 17-bit endpoint, a 32-bit seq, and a 16-bit group or none (Table 17.1). -/
def PacketHead.wf (h : PacketHead) : Bool := below h.source (2 ^ 17) && below h.seq (2 ^ 32) && below h.group 65537 && below h.unit 256

/-- The header of a request (Table 17.1). -/
def RequestHead.wf (h : RequestHead) : Bool :=
  below h.src (2 ^ 17) && below h.job 65536 && below h.key (2 ^ 32) && below h.seq (2 ^ 32)

/-- The header of a response (Table 17.3). -/
def ResponseHead.wf (h : ResponseHead) : Bool := below h.plane 16 && below h.seq (2 ^ 32)

/-- Payload channels of a die-to-die link in each direction (Table 2.2): links 0 to 11 C-die to M-die, 12 to 17 C-die to C-die, 18 to 21 X-die
to C-die, 22 X-die A to X-die B. -/
def dieChannels (link : Nat) : Nat := if link < 12 then 6000 else if link < 18 then 4000 else if link < 22 then 3000 else 1000

/-- A die-to-die beat on a link: a place in the 32-beat buffer, every payload channel and 8 CRC channels, each of four wires with one
raised at least (R32). -/
def DieBeat.wf (b : DieBeat) (link : Nat) : Bool :=
  below b.place 32 && b.payload.length == dieChannels link && b.crc.length == 8 &&
    (b.payload ++ b.crc).all fun w => decide (0 < w) && below w 16

/-- A command is well-formed. -/
def Instr.wf : Instr → Bool
  | .registerWrite offset bytes value => below offset (2 ^ 26) && decide (0 < bytes) && below bytes 65 && below value (2 ^ (8 * bytes))
  | .ratectlGustRequest rate => below rate 128
  | .ratectlBreezeRequest rate => below rate 128
  | .rateChangeComplete => true
  | .pacingWindowEnd _ => true
  | .breezeRailAdjust => true
  | .pacingRaiseStep => true
  | .dieLinkBeatError link dir beat => below link 23 && below dir 2 && beat.wf link
  | .unitEnable slot _ => below slot 512
  | .unitQuiesce slot _ => below slot 512
  | .unitReset slot _ => below slot 512
  | .unitCtrlApplied => true
  | .unitEvtClear slot _ => below slot 512
  | .groupDefine group _ => below group 64
  | .nop core => coreOk core
  | .endJob core => coreOk core
  | .corePartEnd core => coreOk core
  | .loop core => coreOk core
  | .skip core => coreOk core
  | .selA core => coreOk core
  | .selC core => coreOk core
  | .moviA core => coreOk core
  | .moviC core => coreOk core
  | .add core => coreOk core
  | .sub core => coreOk core
  | .addi core => coreOk core
  | .muli core => coreOk core
  | .shli core => coreOk core
  | .shri core => coreOk core
  | .andi core => coreOk core
  | .minu core => coreOk core
  | .maxu core => coreOk core
  | .adda core => coreOk core
  | .addai core => coreOk core
  | .mada core => coreOk core
  | .movCa core => coreOk core
  | .movAc core => coreOk core
  | .cmp core => coreOk core
  | .cmpi core => coreOk core
  | .cmpa core => coreOk core
  | .pand core => coreOk core
  | .por core => coreOk core
  | .pxor core => coreOk core
  | .pandn core => coreOk core
  | .pnot core => coreOk core
  | .pset core => coreOk core
  | .rds core => coreOk core
  | .setldb core => coreOk core
  | .alarmSet core => coreOk core
  | .alarmRelative core => coreOk core
  | .alarmDisarm core => coreOk core
  | .gscAlarmFire core => coreOk core
  | .sigcRank core => coreOk core
  | .sigcCluster core => coreOk core
  | .coreSignalArrival core job event => coreOk core && below job 65536 && below event 32
  | .bar core => coreOk core
  | .barrierComplete job => below job 65536
  | .tclaim core => coreOk core
  | .tileClaimApply tile cores => below tile 4096 && cores.all coreOk
  | .tclaimReturn core => coreOk core
  | .tilecntHostWrite tile value => below tile 4096 && below value (2 ^ 32)
  | .dpass core => coreOk core
  | .dpassComplete core _ => coreOk core
  | .vmac core => coreOk core
  | .vewFma core => coreOk core
  | .vewMul core => coreOk core
  | .vewAdd core => coreOk core
  | .vewSub core => coreOk core
  | .vewMax core => coreOk core
  | .vewMin core => coreOk core
  | .vewMulv core => coreOk core
  | .vewAdds core => coreOk core
  | .vredMax core => coreOk core
  | .vredSum core => coreOk core
  | .vredSumsq core => coreOk core
  | .vexpExp core => coreOk core
  | .vexpRcp core => coreOk core
  | .vexpRsqrt core => coreOk core
  | .vcmp core => coreOk core
  | .vsel core => coreOk core
  | .vtest core => coreOk core
  | .vcvt core => coreOk core
  | .vrwOpComplete core _ => coreOk core
  | .movl core => coreOk core
  | .mfill core => coreOk core
  | .movd core => coreOk core
  | .moverBeatComplete core mover _ => coreOk core && below mover 2
  | .moverBeatTimeout core mover _ _ => coreOk core && below mover 2
  | .rld core => coreOk core
  | .rst core => coreOk core
  | .ratomFetchAdd core => coreOk core
  | .ratomCompareSwap core => coreOk core
  | .rredAddInt32 core => coreOk core
  | .rredAddFp32 core => coreOk core
  | .rredAddBf16 core => coreOk core
  | .rredMaxFp32 core => coreOk core
  | .rredMaxBf16 core => coreOk core
  | .rmcs core => coreOk core
  | .bput core => coreOk core
  | .bget core => coreOk core
  | .msend core => coreOk core
  | .mrecv core => coreOk core
  | .fence core => coreOk core
  | .xdisp core => coreOk core
  | .xret core => coreOk core
  | .xeRowsTaken taken => coreOk taken.core
  | .seiterBatch core => coreOk core
  | .seiterResult core => coreOk core
  | .sepage core => coreOk core
  | .sekv core => coreOk core
  | .selogitTarget core => coreOk core
  | .selogitDraft core => coreOk core
  | .sedone core => coreOk core
  | .seOpComplete core _ => coreOk core
  | .bar4Write offset data _ => below (offset + data.length) (2 ^ 30 + 1)
  | .bar4Read offset bytes _ => below (offset + bytes) (2 ^ 30 + 1)
  | .memLockSet => true
  | .memFlushStart => true
  | .memFlushComplete => true
  | .stagingWriteback stack _ => below stack 12
  | .t2mapActivate entry ep => below entry 16 && below ep (2 ^ 17)
  | .t2mapRelease entry => below entry 16
  | .lendActivate entry => below entry 16
  | .lendRecall entry => below entry 16
  | .t2RecallReceive hd _ _ _ => hd.wf
  | .t2ReleaseReceive hd _ => hd.wf
  | .lendDeadlineExpire entry => below entry 16
  | .lendZeroingComplete entry => below entry 16
  | .t2BorrowerExpire entry => below entry 16
  | .nvsRingEnable _ => true
  | .nvsCmdtailWrite _ => true
  | .nvsCplheadWrite _ => true
  | .write _ => true
  | .load _ => true
  | .verify _ => true
  | .delete _ => true
  | .keep _ => true
  | .recv _ => true
  | .pload _ => true
  | .pevict _ => true
  | .nvsCommandComplete _ _ => true
  | .nandOperationFail _ => true
  | .nvsWearLevel channel => below channel 8
  | .nvsReadDisturbRelocate _ => true
  | .nvsScrub _ _ _ => true
  | .nvsDigestCheck shard _ => below shard (2 ^ 32)
  | .nvsCheckpoint => true
  | .keeperChunkReceive hd shard _ _ => hd.wf && below shard (2 ^ 32)
  | .keeperMarkerReceive hd shard _ _ => hd.wf && below shard (2 ^ 32)
  | .repairRequestReceive hd shard _ => hd.wf && below shard (2 ^ 32)
  | .keepRepairPeriodEnd _ => true
  | .recvIdleTimeout _ => true
  | .genSetLoading slot _ => below slot 2
  | .genSetReady slot => below slot 2
  | .genSetEmpty slot _ => below slot 2
  | .genactWrite slot => below slot 2
  | .nvsLockSet => true
  | .patchInstallReceive hd number _ _ => hd.wf && below number (2 ^ 32)
  | .memberReplyReceive hd _ ledger _ _ _ => hd.wf && below ledger 16
  | .ploadReplyTimeout => true
  | .ploadEvictTimeout => true
  | .fork queue _ => below queue 65536
  | .park queue _ _ => below queue 65536
  | .restore queue _ _ => below queue 65536
  | .drop queue _ => below queue 65536
  | .release queue _ => below queue 65536
  | .ledgerRecordReceive hd record _ => hd.wf && below record.ledger 16
  | .ledgerGapTimeout ledger => below ledger 16
  | .parkedTtlVisit ledger => below ledger 16
  | .restoreReplyTimeout _ => true
  | .seqKvlockSet => true
  | .queueEnable queue _ => below queue 65536
  | .queueDisable queue => below queue 65536
  | .doorbellTail queue offset _ => below queue 65536 && below offset 64
  | .doorbellHead queue offset _ => below queue 65536 && below offset 64
  | .launch queue _ => below queue 65536
  | .admitSeq queue _ _ token => below queue 65536 && below token (2 ^ 32)
  | .cancel queue _ => below queue 65536
  | .serveEnable ledger _ => below ledger 16
  | .batchForm ledger _ => below ledger 16
  | .batchDescriptorReceive hd lines => hd.wf && below lines.ledger 16
  | .samplerPartialReceive hd ledger _ _ _ => hd.wf && below ledger 16
  | .sampleResultWrite ledger _ _ => below ledger 16
  | .batchEndReportReceive hd ledger _ _ _ _ _ => hd.wf && below ledger 16
  | .xeContextOpen context _ => below context 16
  | .xeContextClose context => below context 16
  | .xeRowReceive hd _ _ => hd.wf
  | .xeEndMarkerReceive hd _ => hd.wf
  | .xeHalfTimeout context phase half => below context 16 && below phase (2 ^ 32) && below half 2
  | .jobSuspend job => below job 65536
  | .jobResume job => below job 65536
  | .jobAbort job => below job 65536
  | .quantumExpire job => below job 65536
  | .switchDrainComplete job cdie => below job 65536 && below cdie 4
  | .switchSaveComplete job cdie => below job 65536 && below cdie 4
  | .switchReadyComplete job cdie => below job 65536 && below cdie 4
  | .jobEntryUpdate job => below job 65536
  | .portTrainingComplete port lanes => below port 16 && below lanes 9
  | .portTrainingRetry port => below port 16
  | .portLossOfSignal port => below port 16
  | .portRetrain port => below port 16
  | .portFence port => below port 16
  | .portUnfence port => below port 16
  | .flitReceive port flit => below port 16 && flit.length == 136
  | .linkControlReceive port flit => below port 16 && flit.length == 136
  | .linkReplayTimeout port => below port 16
  | .linkAckDue port => below port 16
  | .epidValidSet ep => below ep (2 ^ 17)
  | .epidValidClear => true
  | .groupEntryWrite group _ => below group 65536
  | .gmSyncSend => true
  | .syncReceive hd exchange plane gm _ _ => hd.wf && below exchange 65536 && below plane 16 && below gm (2 ^ 17)
  | .delayRequestReceive hd exchange plane _ _ => hd.wf && below exchange 65536 && below plane 16
  | .delayResponseReceive hd exchange plane gm _ _ => hd.wf && below exchange 65536 && below plane 16 && below gm (2 ^ 17)
  | .gscMedianUpdate => true
  | .gscHoldoverEntry => true
  | .gscFreerunEntry => true
  | .gscLowRead => true
  | .gscHighRead => true
  | .targetLoad hd _ _ => hd.wf
  | .targetStore hd data _ _ => hd.wf && below data.length 4097
  | .targetAtomic hd _ _ _ => hd.wf
  | .targetReduce hd _ _ _ => hd.wf
  | .targetMulticastStore hd group _ _ _ => hd.wf && below group 65536
  | .targetMessage hd _ _ _ => hd.wf
  | .targetAcceptDue hd => hd.wf
  | .fabricResponseReceive hd _ => hd.wf
  | .requestAttemptTimeout tag seq => below tag 65536 && below seq (2 ^ 32)
  | .acceptWaitTimeout tag seq => below tag 65536 && below seq (2 ^ 32)
  | .regionEnable region _ => below region 256
  | .teardownReceive hd job _ number => hd.wf && below job 65536 && below number (2 ^ 32)
  | .teardownComplete job => below job 65536
  | .fabBulkRingEnable _ => true
  | .fabBqtailWrite _ => true
  | .fabBcheadWrite _ => true
  | .bulkPut _ => true
  | .bulkGet _ => true
  | .bulkComplete _ => true
  | .pcieLinkDown => true
  | .inputSwitchOver _ _ => true
  | .returnToMain _ _ => true
  | .inputBusSag _ => true
  | .laserCheck _ => true
  | .inhibitClear _ => true
  | .brownOut => true
  | .leaseExpire => true
  | .capPacingStep _ _ => true
  | .tailwindEnable grp => below grp 65536
  | .tailwindReportSend _ => true
  | .tailwindReportReceive hd job _ _ _ => hd.wf && below job 65536
  | .tailwindDecision => true
  | .tailwindGrantReceive hd job _ _ => hd.wf && below job 65536
  | .tailwindGrantExpire _ => true
  | .tailwindGivenRelease _ => true
  | .diodeSample temps => temps.length == 72
  | .throttleStep => true
  | .thermalTrip diode => below diode 72
  | .fraySample counts => counts.length == 48
  | .refitPeriod => true
  | .refitRequest => true
  | .refitComplete counts => counts.length == 48
  | .managementCoreStart => true
  | .imageHealthy => true
  | .trialWatchdogExpire => true
  | .logPageTimeout => true
  | .logFetch seq => below seq (2 ^ 32)
  | .mailboxGo _ => true
  | .mailboxResponseReady _ => true
  | .setEndpointId binding ep eid => below binding 4 && below ep (2 ^ 17) && below eid 256
  | .getTid binding ep => below binding 4 && below ep (2 ^ 17)
  | .setTid binding ep tid => below binding 4 && below ep (2 ^ 17) && below tid 256
  | .getPldmVersion binding ep _ => below binding 4 && below ep (2 ^ 17)
  | .getPldmTypes binding ep => below binding 4 && below ep (2 ^ 17)
  | .getPldmCommands binding ep _ => below binding 4 && below ep (2 ^ 17)
  | .getSensorReading binding ep _ => below binding 4 && below ep (2 ^ 17)
  | .getStateSensorReadings binding ep _ => below binding 4 && below ep (2 ^ 17)
  | .setNumericSensorEnable binding ep _ _ => below binding 4 && below ep (2 ^ 17)
  | .getPdrRepositoryInfo binding ep => below binding 4 && below ep (2 ^ 17)
  | .getPdr binding ep _ => below binding 4 && below ep (2 ^ 17)
  | .setEventReceiver binding ep _ _ => below binding 4 && below ep (2 ^ 17)
  | .getEventReceiver binding ep => below binding 4 && below ep (2 ^ 17)
  | .setStateEffecterStates binding ep _ _ => below binding 4 && below ep (2 ^ 17)
  | .queryDeviceIdentifiers binding ep => below binding 4 && below ep (2 ^ 17)
  | .getFirmwareParameters binding ep => below binding 4 && below ep (2 ^ 17)
  | .requestUpdate binding ep => below binding 4 && below ep (2 ^ 17)
  | .passComponentTable binding ep => below binding 4 && below ep (2 ^ 17)
  | .updateComponent binding ep _ => below binding 4 && below ep (2 ^ 17)
  | .firmwareDataReceive binding ep _ => below binding 4 && below ep (2 ^ 17)
  | .activateFirmware binding ep => below binding 4 && below ep (2 ^ 17)
  | .getStatus binding ep => below binding 4 && below ep (2 ^ 17)
  | .cancelUpdateComponent binding ep => below binding 4 && below ep (2 ^ 17)
  | .cancelUpdate binding ep => below binding 4 && below ep (2 ^ 17)
  | .setLease binding ep _ _ => below binding 4 && below ep (2 ^ 17)
  | .getLease binding ep => below binding 4 && below ep (2 ^ 17)
  | .getLogRecords binding ep first _ _ => below binding 4 && below ep (2 ^ 17) && below first (2 ^ 32)
  | .getLogRange binding ep => below binding 4 && below ep (2 ^ 17)
  | .getVersion binding ep => below binding 4 && below ep (2 ^ 17)
  | .getCapabilities binding ep => below binding 4 && below ep (2 ^ 17)
  | .negotiateAlgorithms binding ep => below binding 4 && below ep (2 ^ 17)
  | .getDigests binding ep => below binding 4 && below ep (2 ^ 17)
  | .getCertificate binding ep slot _ _ => below binding 4 && below ep (2 ^ 17) && below slot 8
  | .challenge binding ep slot => below binding 4 && below ep (2 ^ 17) && below slot 8
  | .getMeasurements binding ep _ => below binding 4 && below ep (2 ^ 17)
  | .keyExchange binding ep => below binding 4 && below ep (2 ^ 17)
  | .finish binding ep => below binding 4 && below ep (2 ^ 17)
  | .heartbeat binding ep => below binding 4 && below ep (2 ^ 17)
  | .spdmHeartbeatTimeout binding ep => below binding 4 && below ep (2 ^ 17)
  | .endSession binding ep => below binding 4 && below ep (2 ^ 17)
  | .powerOnReset _ found => decide (found.straps < 4)
  | .mresetAssert _ _ => true
  | .moduleResetRelease => true
  | .topModuleReset => true
  | .perstAssert => true
  | .stageBriloComplete => true
  | .stagePlanComplete _ => true
  | .stageRailsComplete => true
  | .stageClocksComplete => true
  | .stageLinksComplete => true
  | .stageRefitComplete counts => counts.length == 48
  | .stageMemoryComplete => true
  | .stageCheckComplete _ => true
  | .stageRepairComplete => true
  | .stageNvsComplete => true
  | .stagePublishComplete => true
  | .stageReadyComplete => true
  | .startStageTimeout _ => true
  | .startRetry => true
  | .clearAttempts => true
  | .forceApron => true
  | .shutdownStart => true
  | .shutdownStartSkipTest => true
  | .shutdownCloseComplete => true
  | .shutdownWritebackComplete => true
  | .shutdownCheckpointComplete => true
  | .secretsClearComplete _ => true
  | .sliceTestsComplete _ _ => true
  | .sliceBudgetExpire _ => true
  | .testBudgetExpire _ _ => true
  | .sliceCommitComplete => true
  | .shutdownOffComplete => true
  | .lullWindowEnd => true
  | .lullTallySend => true
  | .lullReportReceive hd _ _ _ _ _ => hd.wf
  | .lullNoticeReceive hd _ _ _ => hd.wf
  | .lullTallyReceive hd _ _ _ _ _ => hd.wf
  | .arbiterTallySend => true
  | .counterSatClear counter => below counter (2 ^ 26)
  | .logFetchComplete _ => true
  | .targetStallTimeout hd => hd.wf
  | .creditReturnReceive core ep _ => coreOk core && below ep (2 ^ 17)
  | .perstRelease => true
  | .pcieLinkUp width speed => below width 17 && below speed 7
  | .powerManagementStateWrite _ => true

end Sys2Proof
end

