-- ==== Sys2Proof/Tests/Slice0.lean ====
section
/-! SUPPORT. Tests of the model: ill-formed commands that WellFormed refuses, single steps with results from the spec, and for every
statement a state and operands that meet its hypotheses. -/

namespace Sys2Proof.Tests

open Sys2Proof.Machine

set_option Elab.async false

/-! ### States -/

/-- A state with fields set to values. -/
def put (s : State) (fs : List (Field × Nat × Nat)) : State := fs.foldl (fun s x => s.setFld x.1 x.2.1 x.2.2) s

/-- A module that is ready: every block open, the PCI Express link up, Brilo running, and endpoint 5 valid. -/
def up : State :=
  put { State.reset with pcieUp := true, clocks := true, pwrgd := true, briloUp := true, lasers := true, readyPin := true, paceRate := 145 }
    [(Reg.TOP_STARTSTAT.stage, 12, 0), (Reg.TOP_STARTSTAT.ready, 1, 0), (Reg.TOP_BLKSTAT.blocks, 0x7FF, 0),
      (Reg.FAB_EPID.ep, 5, 0), (Reg.FAB_EPID.valid, 1, 0)]

theorem takes_of {s : State} {offset : Nat} (h : (s.hostReach && s.blockOpen (blockOf offset)) = true) : s.takes offset := by
  rw [Bool.and_eq_true] at h
  exact h

/-- A word of Psigo: an opcode and body fields as (value, low bit) (Table 5.1). -/
def word (op : Nat) (fields : List (Nat × Nat)) : Nat := op * 2 ^ 120 + (fields.map fun x => x.1 * 2 ^ x.2).sum

/-- A sequencer of job 1, rank 0 of one core, with A1 = 0x10000, A2 = 0x20000, A3 = 0x40000, A4 = 0x60000, C1 = 64, C2 = 1, C3 = 512, and events 4,
5 and 6 bound to the source codes 4, 5 and 6. -/
def seq1 : Sequencer :=
  { Sequencer.reset with
    areg := [(1, 0x10000), (2, 0x20000), (3, 0x40000), (4, 0x60000)], creg := [(1, 64), (2, 1), (3, 512)], binding := [(4, 4), (5, 5), (6, 6)],
    job := 1, rank := 0, ncores := 2 }

/-- Core 255 runs with a program of three words: `w`, and two after it. -/
def core1 (w : Nat) : Core := { Core.reset with sq := seq1, prog := [(0, BitVec.ofNat 128 w)], progLen := 3 }

/-- A job on core 255. -/
def job1 : Job :=
  { id := 1, state := .resident, cores := [255], length := 3, entry := 0, program := 0, init := 0, ldb := 0, bind := 0, tile := 7,
    clusterSram := false, windows := [], taken := ⟨1, 0x01, 40, 0, 0⟩, head := 0, prio := 3, weight := 1, kind := 0, vNum := 0, vDen := 1, steps := 0,
    dpaKs := 0, vrwKs := 0, moverKs := 0, coreNs := 0, cloakNs := 0, preempts := 0, slot := 0, since := 0, placedAt := 0,
    quantumOver := false, arrived := [], barrier := 0, tallies := [], fault := none }

/-- The module with a core 255 that runs. -/
def withCore (k : Core) : State := { put up [(Reg.UNIT_STATE.run, 2, 319)] with cores := [(255, k)], jobs := [job1] }

/-- The conditions of an issue as one test. -/
def issues (s : State) (c w mask : Nat) (names : List Nat := []) : Bool :=
  decide (s.canIssue c = true ∧ (s.core c).fetch = some w ∧ Psi.wcnt w ≤ (s.core c).sq.e (Psi.wev w) ∧ (s.core c).sq.passes w = true ∧
    (∀ x ∈ Psi.pidx w :: names, x ∉ (s.core c).predPending) ∧ w % 2 ^ 96 &&& mask = w % 2 ^ 96 ∧ (Psi.sen w = true ∨ Psi.sev w = 0))

theorem issues_of {s : State} {c w mask : Nat} {names : List Nat} (h : issues s c w mask names = true) : s.Issues c w mask names := by
  rw [issues, decide_eq_true_eq] at h
  exact h

/-- Words with the mask of their operands and the predicates they name issue on core 255. -/
theorem all_issue (ws : List (Nat × Nat × List Nat)) (h : (ws.all fun x => issues (withCore (core1 x.1)) 255 x.1 x.2.1 x.2.2) = true) :
    ∀ x ∈ ws, (withCore (core1 x.1)).Issues 255 x.1 x.2.1 x.2.2 := fun x hx => issues_of (List.all_eq_true.mp h x hx)

/-- A packet from endpoint 131,071 to this endpoint, its first, and what the source's window holds after it. -/
def head1 : PacketHead := ⟨131071, 4294967295, 9, 0, 0⟩
/-- The window after `head1`. -/
def seen1 : Seen := ⟨some 4294967295, [4294967295], []⟩

theorem fresh_of {s : State} {hd : PacketHead} {v : Seen}
    (h : (s.flag Reg.FAB_EPID.valid && (decide ((Table.get Seen.empty s.seen (seenKey hd)).take hd.seq = some v) && !s.closing)) = true) :
    s.Fresh hd v := by
  rw [Bool.and_eq_true, Bool.and_eq_true, decide_eq_true_eq, Bool.not_eq_true'] at h
  exact h

theorem freshControl_of {s : State} {hd : PacketHead} {v : Seen}
    (h : (s.flag Reg.FAB_EPID.valid && decide ((Table.get Seen.empty s.seen (seenKey hd)).take hd.seq = some v)) = true) :
    s.FreshControl hd v := by
  rw [Bool.and_eq_true, decide_eq_true_eq] at h
  exact h

/-- At a global step counter of 0 the X-die logic sees 0, whatever its lag. -/
theorem xdie_zero {s : State} (h : s.gsc = 0) : s.gscXdie = 0 := by
  simp only [State.gscXdie, State.gscSeen, h, Nat.zero_sub]

/-! ### Well-formedness -/

/-- A core number of 256 is ill-formed (part 1). -/
theorem test_illFormed_cores1 :
    ((Instr.nop 256).wf = false) ∧ ((Instr.endJob 256).wf = false) ∧ ((Instr.corePartEnd 256).wf = false) ∧ ((Instr.loop 256).wf = false) ∧
    ((Instr.skip 256).wf = false) ∧ ((Instr.selA 256).wf = false) ∧ ((Instr.selC 256).wf = false) ∧ ((Instr.moviA 256).wf = false) ∧
    ((Instr.moviC 256).wf = false) ∧ ((Instr.add 256).wf = false) ∧ ((Instr.sub 256).wf = false) ∧ ((Instr.addi 256).wf = false) ∧
    ((Instr.muli 256).wf = false) ∧ ((Instr.shli 256).wf = false) ∧ ((Instr.shri 256).wf = false) ∧ ((Instr.andi 256).wf = false) ∧
    ((Instr.minu 256).wf = false) ∧ ((Instr.maxu 256).wf = false) ∧ ((Instr.adda 256).wf = false) ∧ ((Instr.addai 256).wf = false) ∧
    ((Instr.mada 256).wf = false) ∧ ((Instr.movCa 256).wf = false) ∧ ((Instr.movAc 256).wf = false) ∧ ((Instr.cmp 256).wf = false) := by
  simp [Instr.wf, below, coreOk]

/-- A core number of 256 is ill-formed (part 2). -/
theorem test_illFormed_cores2 :
    ((Instr.cmpi 256).wf = false) ∧ ((Instr.cmpa 256).wf = false) ∧ ((Instr.pand 256).wf = false) ∧ ((Instr.por 256).wf = false) ∧
    ((Instr.pxor 256).wf = false) ∧ ((Instr.pandn 256).wf = false) ∧ ((Instr.pnot 256).wf = false) ∧ ((Instr.pset 256).wf = false) ∧
    ((Instr.rds 256).wf = false) ∧ ((Instr.setldb 256).wf = false) ∧ ((Instr.alarmSet 256).wf = false) ∧
    ((Instr.alarmRelative 256).wf = false) ∧ ((Instr.alarmDisarm 256).wf = false) ∧ ((Instr.gscAlarmFire 256).wf = false) ∧
    ((Instr.sigcRank 256).wf = false) ∧ ((Instr.sigcCluster 256).wf = false) ∧ (∀ a b, (Instr.coreSignalArrival 256 a b).wf = false) ∧
    ((Instr.bar 256).wf = false) ∧ ((Instr.tclaim 256).wf = false) ∧ (∀ a, (Instr.tileClaimApply a [255, 256]).wf = false) ∧
    ((Instr.tclaimReturn 256).wf = false) ∧ ((Instr.dpass 256).wf = false) ∧ (∀ a, (Instr.dpassComplete 256 a).wf = false) ∧
    ((Instr.vmac 256).wf = false) := by
  simp [Instr.wf, below, coreOk]

/-- A core number of 256 is ill-formed (part 3). -/
theorem test_illFormed_cores3 :
    ((Instr.vewFma 256).wf = false) ∧ ((Instr.vewMul 256).wf = false) ∧ ((Instr.vewAdd 256).wf = false) ∧ ((Instr.vewSub 256).wf = false) ∧
    ((Instr.vewMax 256).wf = false) ∧ ((Instr.vewMin 256).wf = false) ∧ ((Instr.vewMulv 256).wf = false) ∧ ((Instr.vewAdds 256).wf = false) ∧
    ((Instr.vredMax 256).wf = false) ∧ ((Instr.vredSum 256).wf = false) ∧ ((Instr.vredSumsq 256).wf = false) ∧
    ((Instr.vexpExp 256).wf = false) ∧ ((Instr.vexpRcp 256).wf = false) ∧ ((Instr.vexpRsqrt 256).wf = false) ∧
    ((Instr.vcmp 256).wf = false) ∧ ((Instr.vsel 256).wf = false) ∧ ((Instr.vtest 256).wf = false) ∧ ((Instr.vcvt 256).wf = false) ∧
    (∀ a, (Instr.vrwOpComplete 256 a).wf = false) ∧ ((Instr.movl 256).wf = false) ∧ ((Instr.mfill 256).wf = false) ∧
    ((Instr.movd 256).wf = false) ∧ (∀ a b, (Instr.moverBeatComplete 256 a b).wf = false) ∧
    (∀ a b c, (Instr.moverBeatTimeout 256 a b c).wf = false) := by
  simp [Instr.wf, below, coreOk]

/-- A core number of 256 is ill-formed (part 4). -/
theorem test_illFormed_cores4 :
    ((Instr.rld 256).wf = false) ∧ ((Instr.rst 256).wf = false) ∧ ((Instr.ratomFetchAdd 256).wf = false) ∧
    ((Instr.ratomCompareSwap 256).wf = false) ∧ ((Instr.rredAddInt32 256).wf = false) ∧ ((Instr.rredAddFp32 256).wf = false) ∧
    ((Instr.rredAddBf16 256).wf = false) ∧ ((Instr.rredMaxFp32 256).wf = false) ∧ ((Instr.rredMaxBf16 256).wf = false) ∧
    ((Instr.rmcs 256).wf = false) ∧ ((Instr.bput 256).wf = false) ∧ ((Instr.bget 256).wf = false) ∧ ((Instr.msend 256).wf = false) ∧
    ((Instr.mrecv 256).wf = false) ∧ ((Instr.fence 256).wf = false) ∧ ((Instr.xdisp 256).wf = false) ∧ ((Instr.xret 256).wf = false) ∧
    (∀ a, (Instr.xeRowsTaken ⟨256, a⟩).wf = false) ∧ ((Instr.seiterBatch 256).wf = false) ∧ ((Instr.seiterResult 256).wf = false) ∧
    ((Instr.sepage 256).wf = false) ∧ ((Instr.sekv 256).wf = false) ∧ ((Instr.selogitTarget 256).wf = false) ∧
    ((Instr.selogitDraft 256).wf = false) := by
  simp [Instr.wf, below, coreOk]

/-- A core number of 256 is ill-formed (part 5). -/
theorem test_illFormed_cores5 :
    ((Instr.sedone 256).wf = false) ∧ (∀ a, (Instr.seOpComplete 256 a).wf = false) ∧ (∀ a b, (Instr.creditReturnReceive 256 a b).wf = false) := by
  simp [Instr.wf, below, coreOk]

/-- A slot, group, port, link or direction past the last is ill-formed. -/
theorem test_illFormed_slotsAndPorts :
    (∀ a b, (Instr.dieLinkBeatError 23 a b).wf = false) ∧ (∀ a b, (Instr.dieLinkBeatError a 2 b).wf = false) ∧
    (∀ a, (Instr.unitEnable 512 a).wf = false) ∧ (∀ a, (Instr.unitQuiesce 512 a).wf = false) ∧ (∀ a, (Instr.unitReset 512 a).wf = false) ∧
    (∀ a, (Instr.unitEvtClear 512 a).wf = false) ∧ (∀ a, (Instr.genSetLoading 2 a).wf = false) ∧ ((Instr.genSetReady 2).wf = false) ∧
    (∀ a, (Instr.genSetEmpty 2 a).wf = false) ∧ ((Instr.genactWrite 2).wf = false) ∧ (∀ a, (Instr.portTrainingComplete 16 a).wf = false) ∧
    ((Instr.portTrainingRetry 16).wf = false) ∧ ((Instr.portLossOfSignal 16).wf = false) ∧ ((Instr.portRetrain 16).wf = false) ∧
    ((Instr.portFence 16).wf = false) ∧ ((Instr.portUnfence 16).wf = false) ∧ (∀ a, (Instr.flitReceive 16 a).wf = false) ∧
    (∀ a, (Instr.linkControlReceive 16 a).wf = false) ∧ ((Instr.linkReplayTimeout 16).wf = false) ∧ ((Instr.linkAckDue 16).wf = false) ∧
    (∀ a b c d, (Instr.getCertificate a b 8 c d).wf = false) ∧ (∀ a b, (Instr.challenge a b 8).wf = false) := by
  simp [Instr.wf, below]

/-- A queue or job number of 65,536 is ill-formed (part 1). -/
theorem test_illFormed_queuesAndJobs1 :
    (∀ a b, (Instr.coreSignalArrival a 65536 b).wf = false) ∧ ((Instr.barrierComplete 65536).wf = false) ∧
    (∀ a, (Instr.fork 65536 a).wf = false) ∧ (∀ a b, (Instr.park 65536 a b).wf = false) ∧ (∀ a b, (Instr.restore 65536 a b).wf = false) ∧
    (∀ a, (Instr.drop 65536 a).wf = false) ∧ (∀ a, (Instr.release 65536 a).wf = false) ∧ (∀ a, (Instr.queueEnable 65536 a).wf = false) ∧
    ((Instr.queueDisable 65536).wf = false) ∧ (∀ a b, (Instr.doorbellTail 65536 a b).wf = false) ∧
    (∀ a b, (Instr.doorbellHead 65536 a b).wf = false) ∧ (∀ a, (Instr.launch 65536 a).wf = false) ∧
    (∀ a b c, (Instr.admitSeq 65536 a b c).wf = false) ∧ (∀ a, (Instr.cancel 65536 a).wf = false) ∧ ((Instr.jobSuspend 65536).wf = false) ∧
    ((Instr.jobResume 65536).wf = false) ∧ ((Instr.jobAbort 65536).wf = false) ∧ ((Instr.quantumExpire 65536).wf = false) ∧
    (∀ a, (Instr.switchDrainComplete 65536 a).wf = false) ∧ (∀ a, (Instr.switchSaveComplete 65536 a).wf = false) ∧
    (∀ a, (Instr.switchReadyComplete 65536 a).wf = false) ∧ ((Instr.jobEntryUpdate 65536).wf = false) ∧
    (∀ a b c, (Instr.teardownReceive a 65536 b c).wf = false) ∧ ((Instr.teardownComplete 65536).wf = false) := by
  simp [Instr.wf, below]

/-- A queue or job number of 65,536 is ill-formed (part 2). -/
theorem test_illFormed_queuesAndJobs2 :
    (∀ a b c d, (Instr.tailwindReportReceive a 65536 b c d).wf = false) ∧ (∀ a b c, (Instr.tailwindGrantReceive a 65536 b c).wf = false) := by
  simp [Instr.wf, below]

/-- An entry, ledger, number or rate out of range is ill-formed (part 1). -/
theorem test_illFormed_entries1 :
    (∀ a b, (Instr.registerWrite 67108864 a b).wf = false) ∧ ((Instr.ratectlGustRequest 128).wf = false) ∧
    ((Instr.ratectlBreezeRequest 128).wf = false) ∧ (∀ a, (Instr.groupDefine 64 a).wf = false) ∧
    (∀ a b, (Instr.coreSignalArrival a b 32).wf = false) ∧ (∀ a, (Instr.tileClaimApply 4096 a).wf = false) ∧
    (∀ a, (Instr.tilecntHostWrite 4096 a).wf = false) ∧ (∀ a, (Instr.tilecntHostWrite a (2 ^ 32)).wf = false) ∧
    (∀ a b, (Instr.moverBeatComplete a 2 b).wf = false) ∧ (∀ a b c, (Instr.moverBeatTimeout a 2 b c).wf = false) ∧
    (∀ a, (Instr.stagingWriteback 12 a).wf = false) ∧ (∀ a, (Instr.t2mapActivate 16 a).wf = false) ∧ ((Instr.t2mapRelease 16).wf = false) ∧
    ((Instr.lendActivate 16).wf = false) ∧ ((Instr.lendRecall 16).wf = false) ∧ ((Instr.lendDeadlineExpire 16).wf = false) ∧
    ((Instr.lendZeroingComplete 16).wf = false) ∧ ((Instr.t2BorrowerExpire 16).wf = false) ∧ ((Instr.nvsWearLevel 8).wf = false) ∧
    (∀ a, (Instr.nvsDigestCheck (2 ^ 32) a).wf = false) ∧ (∀ a b c, (Instr.keeperChunkReceive a (2 ^ 32) b c).wf = false) ∧
    (∀ a b c, (Instr.keeperMarkerReceive a (2 ^ 32) b c).wf = false) ∧ (∀ a b, (Instr.repairRequestReceive a (2 ^ 32) b).wf = false) ∧
    (∀ a b c, (Instr.patchInstallReceive a (2 ^ 32) b c).wf = false) := by
  simp [Instr.wf, below]

/-- An entry, ledger, number or rate out of range is ill-formed (part 2). -/
theorem test_illFormed_entries2 :
    (∀ a b c d e, (Instr.memberReplyReceive a b 16 c d e).wf = false) ∧ ((Instr.ledgerGapTimeout 16).wf = false) ∧
    ((Instr.parkedTtlVisit 16).wf = false) ∧ (∀ a b, (Instr.doorbellTail a 64 b).wf = false) ∧
    (∀ a b, (Instr.doorbellHead a 64 b).wf = false) ∧ (∀ a b c, (Instr.admitSeq a b c (2 ^ 32)).wf = false) ∧
    (∀ a, (Instr.serveEnable 16 a).wf = false) ∧ (∀ a, (Instr.batchForm 16 a).wf = false) ∧
    (∀ a b c d e, (Instr.batchDescriptorReceive a ⟨16, b, c, d, e⟩).wf = false) ∧
    (∀ a b c d, (Instr.samplerPartialReceive a 16 b c d).wf = false) ∧ (∀ a b, (Instr.sampleResultWrite 16 a b).wf = false) ∧
    (∀ a b c d e f, (Instr.batchEndReportReceive a 16 b c d e f).wf = false) ∧ (∀ a, (Instr.xeContextOpen 16 a).wf = false) ∧
    ((Instr.xeContextClose 16).wf = false) ∧ (∀ a b, (Instr.xeHalfTimeout 16 a b).wf = false) ∧
    (∀ a b, (Instr.xeHalfTimeout a (2 ^ 32) b).wf = false) ∧ (∀ a b, (Instr.xeHalfTimeout a b 2).wf = false) ∧
    (∀ a, (Instr.switchDrainComplete a 4).wf = false) ∧ (∀ a, (Instr.switchSaveComplete a 4).wf = false) ∧
    (∀ a, (Instr.switchReadyComplete a 4).wf = false) ∧ (∀ a, (Instr.portTrainingComplete a 9).wf = false) ∧
    (∀ a, (Instr.groupEntryWrite 65536 a).wf = false) ∧ (∀ a b c d e, (Instr.syncReceive a 65536 b c d e).wf = false) ∧
    (∀ a b c d e, (Instr.syncReceive a b 16 c d e).wf = false) := by
  simp [Instr.wf, below]

/-- An entry, ledger, number or rate out of range is ill-formed (part 3). -/
theorem test_illFormed_entries3 :
    (∀ a b c d e, (Instr.syncReceive a b c 131072 d e).wf = false) ∧ (∀ a b c d, (Instr.delayRequestReceive a 65536 b c d).wf = false) ∧
    (∀ a b c d, (Instr.delayRequestReceive a b 16 c d).wf = false) ∧ (∀ a b c d e, (Instr.delayResponseReceive a 65536 b c d e).wf = false) ∧
    (∀ a b c d e, (Instr.delayResponseReceive a b 16 c d e).wf = false) ∧
    (∀ a b c d e, (Instr.delayResponseReceive a b c 131072 d e).wf = false) ∧
    (∀ a b c d, (Instr.targetMulticastStore a 65536 b c d).wf = false) ∧ (∀ a, (Instr.requestAttemptTimeout 65536 a).wf = false) ∧
    (∀ a, (Instr.requestAttemptTimeout a (2 ^ 32)).wf = false) ∧ (∀ a, (Instr.acceptWaitTimeout 65536 a).wf = false) ∧
    (∀ a, (Instr.acceptWaitTimeout a (2 ^ 32)).wf = false) ∧ (∀ a, (Instr.regionEnable 256 a).wf = false) ∧
    (∀ a b c, (Instr.teardownReceive a b c (2 ^ 32)).wf = false) ∧ ((Instr.tailwindEnable 65536).wf = false) ∧
    ((Instr.thermalTrip 72).wf = false) ∧ ((Instr.logFetch (2 ^ 32)).wf = false) ∧
    (∀ a b c d, (Instr.getLogRecords a b (2 ^ 32) c d).wf = false) ∧ ((Instr.counterSatClear 67108864).wf = false) ∧
    (∀ a, (Instr.pcieLinkUp 17 a).wf = false) ∧ (∀ a, (Instr.pcieLinkUp a 7).wf = false) := by
  simp [Instr.wf, below]

/-- A binding, endpoint identifier or terminus out of range is ill-formed (part 1). -/
theorem test_illFormed_endpoints1 :
    (∀ a, (Instr.t2mapActivate a 131072).wf = false) ∧ ((Instr.epidValidSet 131072).wf = false) ∧
    (∀ a b, (Instr.setEndpointId 4 a b).wf = false) ∧ (∀ a b, (Instr.setEndpointId a 131072 b).wf = false) ∧
    (∀ a b, (Instr.setEndpointId a b 256).wf = false) ∧ (∀ a, (Instr.getTid 4 a).wf = false) ∧ (∀ a, (Instr.getTid a 131072).wf = false) ∧
    (∀ a b, (Instr.setTid 4 a b).wf = false) ∧ (∀ a b, (Instr.setTid a 131072 b).wf = false) ∧ (∀ a b, (Instr.setTid a b 256).wf = false) ∧
    (∀ a b, (Instr.getPldmVersion 4 a b).wf = false) ∧ (∀ a b, (Instr.getPldmVersion a 131072 b).wf = false) ∧
    (∀ a, (Instr.getPldmTypes 4 a).wf = false) ∧ (∀ a, (Instr.getPldmTypes a 131072).wf = false) ∧
    (∀ a b, (Instr.getPldmCommands 4 a b).wf = false) ∧ (∀ a b, (Instr.getPldmCommands a 131072 b).wf = false) ∧
    (∀ a b, (Instr.getSensorReading 4 a b).wf = false) ∧ (∀ a b, (Instr.getSensorReading a 131072 b).wf = false) ∧
    (∀ a b, (Instr.getStateSensorReadings 4 a b).wf = false) ∧ (∀ a b, (Instr.getStateSensorReadings a 131072 b).wf = false) ∧
    (∀ a b c, (Instr.setNumericSensorEnable 4 a b c).wf = false) ∧ (∀ a b c, (Instr.setNumericSensorEnable a 131072 b c).wf = false) ∧
    (∀ a, (Instr.getPdrRepositoryInfo 4 a).wf = false) ∧ (∀ a, (Instr.getPdrRepositoryInfo a 131072).wf = false) := by
  simp [Instr.wf, below]

/-- A binding, endpoint identifier or terminus out of range is ill-formed (part 2). -/
theorem test_illFormed_endpoints2 :
    (∀ a b, (Instr.getPdr 4 a b).wf = false) ∧ (∀ a b, (Instr.getPdr a 131072 b).wf = false) ∧
    (∀ a b c, (Instr.setEventReceiver 4 a b c).wf = false) ∧ (∀ a b c, (Instr.setEventReceiver a 131072 b c).wf = false) ∧
    (∀ a, (Instr.getEventReceiver 4 a).wf = false) ∧ (∀ a, (Instr.getEventReceiver a 131072).wf = false) ∧
    (∀ a b c, (Instr.setStateEffecterStates 4 a b c).wf = false) ∧ (∀ a b c, (Instr.setStateEffecterStates a 131072 b c).wf = false) ∧
    (∀ a, (Instr.queryDeviceIdentifiers 4 a).wf = false) ∧ (∀ a, (Instr.queryDeviceIdentifiers a 131072).wf = false) ∧
    (∀ a, (Instr.getFirmwareParameters 4 a).wf = false) ∧ (∀ a, (Instr.getFirmwareParameters a 131072).wf = false) ∧
    (∀ a, (Instr.requestUpdate 4 a).wf = false) ∧ (∀ a, (Instr.requestUpdate a 131072).wf = false) ∧
    (∀ a, (Instr.passComponentTable 4 a).wf = false) ∧ (∀ a, (Instr.passComponentTable a 131072).wf = false) ∧
    (∀ a b, (Instr.updateComponent 4 a b).wf = false) ∧ (∀ a b, (Instr.updateComponent a 131072 b).wf = false) ∧
    (∀ a b, (Instr.firmwareDataReceive 4 a b).wf = false) ∧ (∀ a b, (Instr.firmwareDataReceive a 131072 b).wf = false) ∧
    (∀ a, (Instr.activateFirmware 4 a).wf = false) ∧ (∀ a, (Instr.activateFirmware a 131072).wf = false) ∧
    (∀ a, (Instr.getStatus 4 a).wf = false) ∧ (∀ a, (Instr.getStatus a 131072).wf = false) := by
  simp [Instr.wf, below]

/-- A binding, endpoint identifier or terminus out of range is ill-formed (part 3). -/
theorem test_illFormed_endpoints3 :
    (∀ a, (Instr.cancelUpdateComponent 4 a).wf = false) ∧ (∀ a, (Instr.cancelUpdateComponent a 131072).wf = false) ∧
    (∀ a, (Instr.cancelUpdate 4 a).wf = false) ∧ (∀ a, (Instr.cancelUpdate a 131072).wf = false) ∧
    (∀ a b c, (Instr.setLease 4 a b c).wf = false) ∧ (∀ a b c, (Instr.setLease a 131072 b c).wf = false) ∧
    (∀ a, (Instr.getLease 4 a).wf = false) ∧ (∀ a, (Instr.getLease a 131072).wf = false) ∧
    (∀ a b c d, (Instr.getLogRecords 4 a b c d).wf = false) ∧ (∀ a b c d, (Instr.getLogRecords a 131072 b c d).wf = false) ∧
    (∀ a, (Instr.getLogRange 4 a).wf = false) ∧ (∀ a, (Instr.getLogRange a 131072).wf = false) ∧ (∀ a, (Instr.getVersion 4 a).wf = false) ∧
    (∀ a, (Instr.getVersion a 131072).wf = false) ∧ (∀ a, (Instr.getCapabilities 4 a).wf = false) ∧
    (∀ a, (Instr.getCapabilities a 131072).wf = false) ∧ (∀ a, (Instr.negotiateAlgorithms 4 a).wf = false) ∧
    (∀ a, (Instr.negotiateAlgorithms a 131072).wf = false) ∧ (∀ a, (Instr.getDigests 4 a).wf = false) ∧
    (∀ a, (Instr.getDigests a 131072).wf = false) ∧ (∀ a b c d, (Instr.getCertificate 4 a b c d).wf = false) ∧
    (∀ a b c d, (Instr.getCertificate a 131072 b c d).wf = false) ∧ (∀ a b, (Instr.challenge 4 a b).wf = false) ∧
    (∀ a b, (Instr.challenge a 131072 b).wf = false) := by
  simp [Instr.wf, below]

/-- A binding, endpoint identifier or terminus out of range is ill-formed (part 4). -/
theorem test_illFormed_endpoints4 :
    (∀ a b, (Instr.getMeasurements 4 a b).wf = false) ∧ (∀ a b, (Instr.getMeasurements a 131072 b).wf = false) ∧
    (∀ a, (Instr.keyExchange 4 a).wf = false) ∧ (∀ a, (Instr.keyExchange a 131072).wf = false) ∧ (∀ a, (Instr.finish 4 a).wf = false) ∧
    (∀ a, (Instr.finish a 131072).wf = false) ∧ (∀ a, (Instr.heartbeat 4 a).wf = false) ∧ (∀ a, (Instr.heartbeat a 131072).wf = false) ∧
    (∀ a, (Instr.spdmHeartbeatTimeout 4 a).wf = false) ∧ (∀ a, (Instr.spdmHeartbeatTimeout a 131072).wf = false) ∧
    (∀ a, (Instr.endSession 4 a).wf = false) ∧ (∀ a, (Instr.endSession a 131072).wf = false) ∧
    (∀ a b, (Instr.creditReturnReceive a 131072 b).wf = false) := by
  simp [Instr.wf, below]

/-- A packet header with an endpoint of 18 bits, a sequence number of 33 bits, a group past none or a unit of 9 bits is ill-formed. -/
theorem test_illFormed_heads : ∀ h ∈ [(⟨131072, 0, 0, 0, 0⟩ : PacketHead), ⟨0, 2 ^ 32, 0, 0, 0⟩, ⟨0, 0, 0, 65537, 0⟩, ⟨0, 0, 0, 0, 256⟩], h.wf = false := by decide

/-- So is a request header with a source, a job, a key or a sequence number out of range. -/
theorem test_illFormed_requestHeads : ∀ h ∈ [(⟨131072, 0, 0, 0, 0, 0, 0, 0, 0, 0⟩ : RequestHead), ⟨0, 0, 0, 65536, 0, 0, 0, 0, 0, 0⟩,
    ⟨0, 0, 0, 0, 2 ^ 32, 0, 0, 0, 0, 0⟩, ⟨0, 0, 0, 0, 0, 0, 0, 0, 2 ^ 32, 0⟩], h.wf = false := by decide

/-- So is a response header with a plane or a sequence number out of range. -/
theorem test_illFormed_responseHeads : ∀ h ∈ [(⟨16, 0, 0, false, 0, 0⟩ : ResponseHead), ⟨0, 0, 0, false, 2 ^ 32, 0⟩], h.wf = false := by decide

/-- A command that carries such a header is ill-formed. -/
theorem test_illFormed_packets (h : PacketHead) (bad : h.wf = false) :
    (∀ a b c, (Instr.t2RecallReceive h a b c).wf = false) ∧ (∀ a, (Instr.t2ReleaseReceive h a).wf = false) ∧
    (∀ a b c, (Instr.keeperChunkReceive h a b c).wf = false) ∧ (∀ a b c, (Instr.keeperMarkerReceive h a b c).wf = false) ∧
    (∀ a b, (Instr.repairRequestReceive h a b).wf = false) ∧ (∀ a b c, (Instr.patchInstallReceive h a b c).wf = false) ∧
    (∀ a b c d e, (Instr.memberReplyReceive h a b c d e).wf = false) ∧ (∀ a b, (Instr.ledgerRecordReceive h a b).wf = false) ∧
    (∀ a, (Instr.batchDescriptorReceive h a).wf = false) ∧ (∀ a b c d, (Instr.samplerPartialReceive h a b c d).wf = false) ∧
    (∀ a b c d e f, (Instr.batchEndReportReceive h a b c d e f).wf = false) ∧ (∀ a b, (Instr.xeRowReceive h a b).wf = false) ∧
    (∀ a, (Instr.xeEndMarkerReceive h a).wf = false) ∧ (∀ a b c d e, (Instr.syncReceive h a b c d e).wf = false) ∧
    (∀ a b c d, (Instr.delayRequestReceive h a b c d).wf = false) ∧ (∀ a b c d e, (Instr.delayResponseReceive h a b c d e).wf = false) ∧
    (∀ a b c, (Instr.teardownReceive h a b c).wf = false) ∧ (∀ a b c d, (Instr.tailwindReportReceive h a b c d).wf = false) ∧
    (∀ a b c, (Instr.tailwindGrantReceive h a b c).wf = false) ∧ (∀ a b c d e, (Instr.lullReportReceive h a b c d e).wf = false) ∧
    (∀ a b c, (Instr.lullNoticeReceive h a b c).wf = false) ∧ (∀ a b c d e, (Instr.lullTallyReceive h a b c d e).wf = false) := by
  simp [Instr.wf, bad]

/-- A command that carries such a header is ill-formed. -/
theorem test_illFormed_requests (h : RequestHead) (bad : h.wf = false) :
    (∀ a b, (Instr.targetLoad h a b).wf = false) ∧ (∀ a b c, (Instr.targetStore h a b c).wf = false) ∧
    (∀ a b c, (Instr.targetAtomic h a b c).wf = false) ∧ (∀ a b c, (Instr.targetReduce h a b c).wf = false) ∧
    (∀ a b c d, (Instr.targetMulticastStore h a b c d).wf = false) ∧ (∀ a b c, (Instr.targetMessage h a b c).wf = false) ∧
    ((Instr.targetAcceptDue h).wf = false) ∧ ((Instr.targetStallTimeout h).wf = false) := by
  simp [Instr.wf, bad]

/-- A command that carries such a header is ill-formed. -/
theorem test_illFormed_responses (h : ResponseHead) (bad : h.wf = false) :
    (∀ a, (Instr.fabricResponseReceive h a).wf = false) := by
  simp [Instr.wf, bad]

/-- Lengths and spans out of range are ill-formed, and a record of a ledger past the last. -/
theorem test_illFormed_shapes :
    ((Instr.registerWrite 8 0 0).wf = false) ∧ ((Instr.registerWrite 8 4 (2 ^ 32)).wf = false) ∧
    ((Instr.registerWrite (2 ^ 26) 4 0).wf = false) ∧ (∀ a b, (Instr.bar4Write (2 ^ 30) [a] b).wf = false) ∧
    (∀ a, (Instr.bar4Read (2 ^ 30 - 7) 8 a).wf = false) ∧ (∀ a b c d, d.length = 4097 → (Instr.targetStore a d b c).wf = false) ∧
    ((Instr.flitReceive 0 (List.replicate 135 0)).wf = false) ∧ ((Instr.linkControlReceive 0 (List.replicate 137 0)).wf = false) ∧
    ((Instr.diodeSample (List.replicate 71 0)).wf = false) ∧ ((Instr.fraySample (List.replicate 47 0)).wf = false) ∧
    ((Instr.refitComplete (List.replicate 49 0)).wf = false) ∧ ((Instr.stageRefitComplete []).wf = false) ∧
    (∀ a b c, (Instr.powerOnReset a ⟨4, b, c⟩).wf = false) ∧ (∀ b : DieBeat, b.place = 32 → (Instr.dieLinkBeatError 22 0 b).wf = false) := by
  simp +contextual [Instr.wf, below, DieBeat.wf]

theorem test_illFormed_bytes : (Instr.registerWrite 8 65 0).wf = false := by decide +kernel

theorem test_illFormed_record (h : PacketHead) (r : LedgerRecord) (a : CopyData) (bad : r.ledger = 16) : (Instr.ledgerRecordReceive h r a).wf = false := by
  simp [Instr.wf, below, bad]

/-- The last of each range is well-formed. -/
theorem test_wellFormed :
    ∀ i ∈ [Instr.add 255, .unitEnable 511 true, .groupDefine 63 64, .flitReceive 15 (List.replicate 136 0), .queueDisable 65535,
      .registerWrite (2 ^ 26 - 1) 1 255, .getTid 3 131071, .teardownComplete 65535, .setTid 0 0 255], i.wf = true := by decide +kernel

/-! ### Worked values of the manual -/

/-- A module whose last refit read a drift of d ÷ 10 % with a junction of 70 °C. -/
def aged (d : Nat) : State := put up [(Reg.PWR_REFIT.d, d, 0), (Reg.PWR_THERM.tj_max, 70, 0), (Reg.PWR_REFIT.floor_mv, 600, 0)]

/-- Chapter 2, example after R41: 0.680 V aged by 4.0 %, 0.665 V fresh, and every Breeze rate up to 1.10 Gstep/s. -/
theorem test_breezeRail : (aged 40).breezeRail 100 = 680 ∧ (aged 0).breezeRail 100 = 665 ∧ breezeCeiling 40 = 110 := by decide +kernel

/-- R42: a rate outside 50 to 110 is rejected with cause 1, whatever the mode; a write while busy with cause 3, tested first. -/
theorem test_rateRejected :
    (up.requestRate 0 111).fld Reg.PWR_RATESTAT.reject_cause = 1 ∧
    ((up.setFld Reg.PWR_RATESTAT.busy 1).requestRate 1 111).fld Reg.PWR_RATESTAT.reject_cause = 3 := by decide +kernel

/-- Chapter 3, example: core 77 has slot 141, is core 13 of cluster 4, and cluster 4 has slot 9. -/
theorem test_slots : slotCore 77 = 141 ∧ 77 / 16 = 4 ∧ slotCluster 4 = 9 ∧ coreOf 141 = some 77 := by decide

/-- Chapter 5, example: DPASS.W2 A4, A6, A8, C3, acc P1 w(E2,1) s(E0) is 0x20010C00_46839000 above 64 zero bits. -/
theorem test_dpassWord :
    let w := 0x20010C0046839000 * 2 ^ 64
    Psi.op w = 0x20 ∧ Psi.pidx w = 0 ∧ Psi.wev w = 2 ∧ Psi.wcnt w = 1 ∧ Psi.sen w = true ∧ Psi.sev w = 0 ∧ Psi.sub w = 0 ∧ Psi.d w = 4 ∧
      Psi.a w = 6 ∧ Psi.b w = 8 := by decide

/-- The C register that core 255 holds after a step. -/
def cAfter (i : Instr) (s : State) (r : Nat) : Option Word :=
  match exec i s with
  | .next t => some ((t.core 255).sq.c r)
  | _ => none

/-- ADD wraps at 32 bits, SUB too, and MULI keeps the low 32 bits (R99, Table 5.4); C1 is 64 and C2 is 1. -/
theorem test_arithmetic :
    cAfter (.addi 255) (withCore (core1 (word 0x0A [(15, 92), (2, 88), (0xFFFFFFFF, 0)]))) 15 = some 0 ∧
    cAfter (.sub 255) (withCore (core1 (word 0x09 [(15, 92), (2, 88), (1, 84)]))) 15 = some 0xFFFFFFC1 ∧
    cAfter (.muli 255) (withCore (core1 (word 0x0B [(15, 92), (1, 88), (0x80000001, 0)]))) 15 = some 64 := by decide +kernel

/-- LTU and LTS differ on 0xFFFFFFFF and 1; EQ and GES (Table 5.4). -/
theorem test_conditions :
    condWord 2 0xFFFFFFFF 1 = false ∧ condWord 4 0xFFFFFFFF 1 = true ∧ condWord 0 7 7 = true ∧ condWord 5 1 0xFFFFFFFF = true := by decide

/-- Chapter 7, example: byte 0xE4 holds −3, −1, +1 and +3; scale 0x2A is 0.3125; the block product is 48.75 = 1,560 ÷ 32. -/
theorem test_blockProduct :
    (rowCodes 0 [0xE4]).map (fun k => (weightOf 0 k).1) = [-3, -1, 1, 3] ∧ decodeFp fp8 0x2A = .fin false 10 (-5) ∧
    blockProduct ([-3, -1, 1, 3] ++ List.replicate 28 1) ([10, 20, 30, 40] ++ List.replicate 28 2) (decodeFp fp8 0x2A) =
      .fin false 1560 (-5) := by decide +kernel

/-- Chapter 7, example: 9.25 × 16 = 148 narrows to 127 with a saturation, 9.25 × 8 = 74 exactly (Table 7.5). -/
theorem test_narrowInt8 : narrowInt8 (.fin false 148 0) = (127, ⟨1, 0, 0⟩) ∧ narrowInt8 (.fin false 74 0) = (74, ⟨0, 0, 0⟩) := by decide +kernel

/-- A VRW operation on FP32 of `n` elements. -/
def vOp (op n : Nat) : VrwOp := ⟨0, op, 0, 2, 0, 0, 0, 0, n, 0, false, 0, 0, false, 0, 0, none⟩

/-- Chapter 9, example: costs of 28, 8, 28, 1 and 16 steps. -/
theorem test_vrwCosts : [(0x32, 4096), (0x33, 4096), (0x32, 4096), (0x33, 512), (0x31, 4096)].map (fun x => (vOp x.1 x.2).cost) = [28, 8, 28, 1, 16] := by
  decide

/-- A fault of core 3 or core 77 at an address of Table 20.9. -/
def faultAt (kind addr : Nat) : RepairEntry := ⟨67, kind, 1, addr, 0⟩

/-- Chapter 9, example: faulty lanes 7, 300 and 513 put lane 7 on spare 0 and lane 300 on spare 2. -/
theorem test_vrwRepair : vrwRepair [faultAt 5 0x2000007, faultAt 5 0x200012C, faultAt 5 0x2000201] = some [(0, 7), (2, 300)] := by decide +kernel

/-- Chapter 8, example: the spare row serves slice 3 and unit 90 goes to column 128; chapter 20, example: cell (17, 3), at 0x01000113, alone
needs no column. -/
theorem test_dpaRepair :
    dpaRepair [faultAt 2 0x1000113, faultAt 2 0x1000283, faultAt 2 0x10005A6, faultAt 2 0x1000811] = some (some 3, [(128, 90)]) ∧
    dpaRepair [faultAt 2 0x1000113] = some (some 3, []) := by decide +kernel

/-- Chapter 20, example: the stale units of the slices that were not completed. -/
theorem test_slices : [22, 30, 31, 32, 33].map sliceUnits = [[27], [3, 38], [4, 39], [34], [33]] := by decide +kernel

/-- Chapter 10, example: with L = 120 the address 0x0154_0012_3440 lies in stack 6 at 0x2_0006_1440. -/
theorem test_stackOf : (put up [(Reg.MEM_T1ZONE.local_, 120, 0)]).stackOf 0x5400123440 = (6, 0x200061440) := by decide +kernel

/-- Chapter 10, example: 300 ns of cause 5 and 39,700 ns of cause 6 are late in T2, and move its average from 2,000 to 2,037 ns. -/
theorem test_lateBeat :
    let s := (up.chargeWaits [(5, 300), (6, 39700)]).learnWait [(5, 300), (6, 39700)] 2
    s.fld Reg.MEM_STALLNS.count 5 = 300 ∧ s.fld Reg.MEM_STALLNS.count 6 = 39700 ∧ s.fld Reg.MEM_LATECNT.count 1 = 1 ∧
      s.flag Reg.MEM_EVT.late = true ∧ Table.get 2000 s.avg 2 = 2037 := by decide +kernel

/-- Four patch slots in use, each with its use count, stamp and references. -/
def patched (fs : List (Nat × Nat × Nat)) : State :=
  put up ((Reg.NVS_PATCHCFG.slots, 4, 0) :: fs.zipIdx.flatMap fun x => [(Reg.NVS_PATCHSLOT.state, 2, x.2), (Reg.NVS_PATCHSLOT.use, x.1.1, x.2),
    (Reg.NVS_PATCHSLOT.stamp, x.1.2.1, x.2), (Reg.NVS_PATCHSLOT.refs, x.1.2.2, x.2)])

/-- Chapter 11, example: a PLOAD takes slot 0 of equals, and later slot 1, the earlier stamp of two with 120 uses, past a slot with references. -/
theorem test_patchSlot :
    (patched [(0, 1, 0), (0, 1, 0), (0, 2, 0), (0, 3, 0)]).pickSlot [] = some 0 ∧
    (patched [(300, 4, 0), (120, 1, 0), (120, 2, 0), (0, 3, 2)]).pickSlot [] = some 1 := by decide +kernel

/-- Chapter 14, example: slot 0 at 4,096, a stride of 851,968, and slot 16 at 397,312. -/
theorem test_exchangeBuffer :
    let s := put up [(Reg.XE_XCFG.nsrc, 4, 0), (Reg.XE_XCFG.cap_src, 8, 0), (Reg.XE_XCFG.send_row, 384, 0), (Reg.XE_XCFG.nbuf, 2, 0)]
    s.firstSlot 0 = 4096 ∧ s.xeStride 0 = 851968 ∧ s.firstSlot 0 + 16 * s.sendRow 0 = 397312 := by decide +kernel

/-- Chapter 18, example: donations of 180 W and 40 W, and A the neediest. -/
theorem test_tailwind :
    let s := put up [(Reg.PWR_LEASE.budget_w, 1500, 0), (Reg.PWR_TWCFG.floor_w, 600, 0)]
    s.donation 40 = 180 ∧ s.donation 10 = 40 ∧ neediest [⟨1, 0, true⟩, ⟨2, 40, true⟩, ⟨3, 10, true⟩, ⟨4, 5, true⟩] 40 = some ⟨1, 0, true⟩ := by
  decide +kernel

/-- TOP_STARTSTAT.stage is bits 35:32 of 0x100 (Table 20.10), and a read of 8 bytes shows it. -/
theorem test_readBar0 : ofBytes ((put State.reset [(Reg.TOP_STARTSTAT.stage, 7, 0)]).readBar0 0x100 8) / 2 ^ 32 % 16 = 7 := by decide +kernel

/-! ### Conditions met: the step, reset, the rate and the units -/

theorem witness_StepRunsTheFront :
    ({ up with pending := [.nop 0, .stagePlanComplete false] } : State).pending = .nop 0 :: [.stagePlanComplete false] ∧ up.pending = [] ∧
      State.reset.fld Reg.TOP_STARTSTAT.stage = 0 ∧
      (up.fld Reg.TOP_STARTSTAT.stage ≠ 0 ∧ up.clocks = true ∧ (up.isMaster = true ∨ up.fld Reg.FAB_GSCSTAT.state = 0)) ∧
      ({ up with clocks := false } : State).fld Reg.TOP_STARTSTAT.stage ≠ 0 ∧ ({ up with clocks := false } : State).clocks = false := by
  decide +kernel

theorem witness_AfterReset : 511 < Reg.UNIT_EVT.reject.count ∧ 2 < 3 := by decide +kernel

theorem witness_BytesStayCanonical : State.reset.Stored ∧ ∃ t, step State.reset = .next t :=
  ⟨⟨by decide, by decide⟩, _, rfl⟩

theorem witness_ScratchWriters : writesScratch (.nop 0) = false ∧ ∃ t, exec (.nop 0) up = .next t := ⟨rfl, _, rfl⟩

/-- A module in Breeze mode at 1.00 Gstep/s. -/
def breezy : State := { put up [(Reg.PWR_RATESTAT.active_mode, 1, 0), (Reg.PWR_CAP.cap_w, 2200, 0)] with declRate := 100, paceRate := 90 }

/-- A beat of the link between the X-dies with the symbols its CRC gives. -/
def beat1 (spacer : Bool) : DieBeat := ⟨31, List.replicate 1000 1, crcSymbols (List.replicate 1000 1), spacer⟩

theorem crc_symbols (p : List Nat) : (crcSymbols p).all symbol = true := by
  simp only [crcSymbols, List.all_map, List.all_eq_true]
  intro i _
  have h : Config.linkCrc p / 4 ^ i % 4 < 4 := Nat.mod_lt _ (by decide)
  show symbol (2 ^ (Config.linkCrc p / 4 ^ i % 4)) = true
  generalize Config.linkCrc p / 4 ^ i % 4 = k at h
  revert k
  decide

/-- A beat of such symbols is bad exactly where its spacer does not return. -/
theorem badBeat_of (k : Nat) (p : List Nat) (h : p.all symbol = true) (spacer : Bool) : badBeat ⟨k, p, crcSymbols p, spacer⟩ = !spacer := by
  simp [badBeat, List.all_append, h, crc_symbols p]

/-- A beat without its spacer is bad; the same beat with it is good. -/
theorem test_beats : badBeat (beat1 false) = true ∧ badBeat (beat1 true) = false :=
  ⟨badBeat_of _ _ (by decide +kernel) _, badBeat_of _ _ (by decide +kernel) _⟩

theorem witness_RateModes :
    (up.takes 0x100100 ∧ breezy.takes 0x100100 ∧ (up.setFld Reg.PWR_RATESTAT.busy 1).takes 0x100100) ∧
    (up.flag Reg.PWR_RATESTAT.busy = false ∧ breezy.flag Reg.PWR_RATESTAT.busy = false ∧
      (up.setFld Reg.PWR_RATESTAT.busy 1).flag Reg.PWR_RATESTAT.busy = true ∧ breezeCeiling up.drift = 110 ∧
      breezeCeiling (up.setFld Reg.PWR_REFIT.d 250).drift < 94) ∧
    ({ up with rateChange := some (1, 100) } : State).rateChange = some (1, 100) ∧
    (breezy.breeze = true ∧ breezy.held = false ∧ breezy.pwrgd = true ∧ breezy.apron = false ∧ slipped breezy.paceRate ⟨.dpa, 0, true⟩ = true ∧
      breezy.flag Reg.PWR_SLIPCNT.sat = false ∧ breezy.fld Reg.PWR_SLIPCNT.count + 1 < 2 ^ 48 - 1 ∧
      slipped breezy.paceRate ⟨.dpa, 2 ^ 40, true⟩ = false) ∧ ({ breezy with slipMv := 10 } : State).slipMv ≠ 0 ∧
    (breezy.limited = false ∧ breezy.paceRate < breezy.targetRate) ∧
    (Table.get false up.linkDown (2 * 22 + 1) = false ∧ badBeat (beat1 false) = true ∧ badBeat (beat1 true) = false ∧
      Table.get 0 up.linkHeld (2 * 22 + 1) ≠ 31 + 1 ∧
      (∀ n ∈ [6, 7], Table.get 0 ({ up with linkHeld := [(45, 32)], linkFails := [(45, n)] } : State).linkHeld (2 * 22 + 1) = 31 + 1 ∧
        Table.get 0 ({ up with linkHeld := [(45, 32)], linkFails := [(45, n)] } : State).linkFails (2 * 22 + 1) = n)) :=
  ⟨⟨takes_of (by decide +kernel), takes_of (by decide +kernel), takes_of (by decide +kernel)⟩, by decide +kernel, by decide +kernel,
    by decide +kernel, by decide +kernel, by decide +kernel, by decide +kernel, test_beats.1, test_beats.2, by decide +kernel, by decide +kernel⟩

/-- A core that runs a job is enabled but not reset; a group whose definition names its own group is refused. -/
theorem witness_UnitsAndGroups :
    (slotHolds 0 = true ∧ slotHolds 39 = true ∧ slotHolds 511 = true ∧ up.takes (0x2000014 + 256 * 511)) ∧ up.ctrlQueue = [] ∧
    ({ up with ctrlQueue := [⟨0, true, false, false⟩, ⟨1, true, false, false⟩] } : State).ctrlQueue ≠ [] ∧
    (up.setFld Reg.TOP_STARTSTAT.apron 1).ctrlRejected ⟨64, true, false, false⟩ 64 = true ∧ up.takes (0x2000018 + 256 * 511) ∧
    up.takes (0x20008 + 1024 * 63) ∧ up.badGroup 63 0 = false ∧ up.badGroup 63 501 = true := by
  refine ⟨⟨by decide, by decide, by decide, takes_of (by decide +kernel)⟩, by decide, by decide, by decide +kernel,
    takes_of (by decide +kernel), takes_of (by decide +kernel), by decide +kernel, by decide +kernel⟩

theorem witness_PredicateZero : (255 : Nat) ≠ 0 ∧ (0 : Nat) ≠ 255 := by decide

/-- Slot 0 is active and slot 1 is ready. -/
def twoSlots : State := put up [(Reg.NVS_GEN.state, 3, 0), (Reg.NVS_GEN.state, 2, 1)]

theorem witness_ActiveGeneration :
    twoSlots.takes 0x1400140 ∧ twoSlots.genState 1 = 2 ∧ twoSlots.genState 0 = 3 ∧ twoSlots.fld Reg.NVS_GENACT.active = 0 ∧
      up.takes 0x1400140 ∧ up.genState 1 ≠ 2 :=
  ⟨takes_of (by decide +kernel), by decide +kernel, by decide +kernel, by decide +kernel, takes_of (by decide +kernel), by decide +kernel⟩
/-! ### Conditions met: the sequencer -/

/-- ADD, SUB, MINU, MAXU with d = 15, a = 1, b = 2; ADDI, MULI, ANDI with an immediate of 2^32 − 1; SHLI and SHRI by 31. -/
theorem witness_SqArithmetic :
    ∀ x ∈ [(word 0x08 [(15, 92), (1, 88), (2, 84)], (mD ||| mA ||| mB), ([] : List Nat)),
      (word 0x09 [(15, 92), (1, 88), (2, 84)], (mD ||| mA ||| mB), []), (word 0x0F [(15, 92), (1, 88), (2, 84)], (mD ||| mA ||| mB), []),
      (word 0x0F [(1, 96), (15, 92), (1, 88), (2, 84)], (mD ||| mA ||| mB), []),
      (word 0x0A [(15, 92), (1, 88), (0xFFFFFFFF, 0)], (mD ||| mA ||| mImm), []),
      (word 0x0B [(15, 92), (1, 88), (0xFFFFFFFF, 0)], (mD ||| mA ||| mImm), []),
      (word 0x0E [(15, 92), (1, 88), (0xFFFFFFFF, 0)], (mD ||| mA ||| mImm), []),
      (word 0x0C [(15, 92), (1, 88), (31, 0)], (mD ||| mA ||| maskOf 4 0), []),
      (word 0x0D [(15, 92), (1, 88), (31, 0)], (mD ||| mA ||| maskOf 4 0), [])],
      (withCore (core1 x.1)).Issues 255 x.1 x.2.1 x.2.2 := all_issue _ (by decide +kernel)

/-- SEL.A, SEL.C on P7; MOVI.A of 2^48 − 1; MOVI.C; ADDA, ADDA.s; ADDAI; MADA; MOV.CA, MOV.AC; SETLDB from A1 = 0x10000. -/
theorem witness_SqAddresses :
    (∀ x ∈ [(word 0x04 [(15, 92), (1, 88), (2, 84), (7, 80)], (mD ||| mA ||| mB ||| mP), [7]),
      (word 0x05 [(15, 92), (1, 88), (2, 84), (7, 80)], (mD ||| mA ||| mB ||| mP), [7]),
      (word 0x06 [(15, 92), (2 ^ 48 - 1, 0)], (mD ||| maskOf 47 0), []), (word 0x07 [(15, 92), (0xFFFFFFFF, 0)], (mD ||| mImm), []),
      (word 0x10 [(15, 92), (1, 88), (2, 84)], (mD ||| mA ||| mB), []), (word 0x10 [(1, 96), (15, 92), (1, 88), (2, 84)], (mD ||| mA ||| mB), []),
      (word 0x11 [(15, 92), (1, 88), (0x80000000, 0)], (mD ||| mA ||| mImm), []),
      (word 0x12 [(15, 92), (1, 88), (2, 84), (0xFFFFFFFF, 0)], (mD ||| mA ||| mB ||| mImm), []),
      (word 0x13 [(15, 92), (2, 84)], (mD ||| mB), []), (word 0x13 [(1, 96), (15, 92), (1, 88)], (mD ||| mA), []),
      (word 0x19 [(1, 88)], mA, [])], (withCore (core1 x.1)).Issues 255 x.1 x.2.1 x.2.2) ∧
    (seq1.a 1).toNat % 256 = 0 ∧ (seq1.a 1).toNat < scratchSize := ⟨all_issue _ (by decide +kernel), by decide +kernel⟩

/-- CMP and CMPI with condition 5, CMPA with condition 3, and the six functions of PLOG on P7, P6 and P5. -/
theorem witness_SqPredicates :
    ∀ x ∈ [(word 0x14 [(5, 96), (1, 88), (2, 84), (7, 80)], (mA ||| mB ||| mP), [7]),
      (word 0x15 [(5, 96), (1, 88), (7, 80), (0xFFFFFFFF, 0)], (mA ||| mP ||| mImm), [7]),
      (word 0x16 [(3, 96), (1, 88), (2, 84), (7, 80)], (mA ||| mB ||| mP), [7])] ++
      (List.range 5).map (fun k => (word 0x17 [(k, 96), (7, 92), (6, 88), (5, 84)], mPlog, [7, 6, 5])) ++
      [(word 0x17 [(5, 96), (7, 92), (1, 0)], mPlog, [7, 0, 0])],
      (withCore (core1 x.1)).Issues 255 x.1 x.2.1 x.2.2 := all_issue _ (by decide +kernel)

/-- NOP, END, LOOP with its count in imm and 2 words, SKIP of 1, RDS with the sub codes 0 to 4, ALARM with 0 to 2; a core whose alarm is due;
a job with no running core; a core at the end of a loop. -/
theorem witness_SqControl :
    (∀ x ∈ [(word 0x00 [], 0, ([] : List Nat)), (word 0x01 [], 0, []),
      (word 0x02 [(1, 96), (2, 64), (3, 0)], (mA ||| maskOf 75 64 ||| mImm), []), (word 0x03 [(1, 64)], maskOf 67 64, [])] ++
      (List.range 5).map (fun k => (word 0x18 [(k, 96), (15, 92)], mD, [])) ++
      (List.range 3).map (fun k => (word 0x1A [(k, 96), (1, 88), (2, 84)], (mA ||| mB), [])),
      (withCore (core1 x.1)).Issues 255 x.1 x.2.1 x.2.2) ∧
    (seq1.boundTo 6 ≠ [] ∧ (core1 0).sq.pc + 2 < (core1 0).progLen ∧ seq1.loops.length < 4) ∧
    (∃ s : State, (s.core 255).sq.alarm ≠ alarmOff ∧ (s.core 255).sq.alarm + s.seenLag.1 ≤ s.gsc ∧ s.flag Reg.PWR_SUPSTAT.hold = false ∧
      s.fld Reg.PWR_THERM.state ≠ 2 ∧ s.paceRate ≠ 0) ∧
    (∃ s : State, (s.core 255).ended = true ∧ (s.core 255).partDone = false ∧ (s.core 255).empty = true ∧
      s.job? (s.core 255).sq.job = some job1 ∧ job1.fault = none) ∧
    ({ seq1 with loops := [⟨0, 2, 2⟩] } : Sequencer).loops = [⟨0, 2, 2⟩] := by
  refine ⟨all_issue _ (by decide +kernel), by decide +kernel, ?_, ?_, rfl⟩
  · refine ⟨{ withCore { core1 0 with sq := { seq1 with alarm := 1 } } with regs := (up.setFld Reg.FAB_GSC.value (2 ^ 40)).regs }, ?_, ?_, ?_, ?_, ?_⟩
    · decide +kernel
    · decide +kernel
    · decide +kernel
    · decide +kernel
    · decide +kernel
  · exact ⟨withCore { core1 0 with ended := true }, by decide +kernel⟩

/-- A signal in flight, a round to complete, a claim that holds and one whose old value has returned; SIGC to rank 1 of 2 and to the cluster, BAR
and TCLAIM. -/
theorem witness_SqSynchronisation :
    (∀ x ∈ [(word 0x60 [(2, 88), (4, 75)], (mA ||| mTev), ([] : List Nat)), (word 0x60 [(1, 96), (2, 88), (4, 75)], (mA ||| mTev), []),
      (word 0x61 [], 0, []), (word 0x62 [(15, 92), (1, 88), (2, 84), (7, 80)], (mD ||| mA ||| mB ||| mP), [7])],
      (withCore (core1 x.1)).Issues 255 x.1 x.2.1 x.2.2) ∧
    (seq1.bind 4 = 4 ∧ (seq1.c 2).toNat < seq1.ncores ∧ seq1.boundTo 5 ≠ [] ∧ 255 ∉ job1.arrived) ∧
    (⟨255, 1, 31⟩ : CoreSignal) ∈ ({ up with signals := [⟨255, 1, 31⟩] } : State).signals ∧
    (∃ x : Job, ({ up with jobs := [{ job1 with barrier := 1 }] } : State).job? 1 = some x ∧ x.barrier ≠ 0) ∧
    (withCore { core1 0 with claim := some ⟨64, 1, 15, 7, none⟩ }).tileOf 255 = some 7 ∧
    (core1 0).fetch = some 0 ∧ up.takes (0x410000 + 4 * 4095) :=
  ⟨all_issue _ (by decide +kernel), by decide +kernel, by decide +kernel, ⟨_, rfl, by decide⟩, by decide +kernel, by decide +kernel,
    takes_of (by decide +kernel)⟩

/-- ADD with a wait of 1 on E5 (bound) and on E7 (free); ADD with bit 0 set; ADD under P1, which is 0; a PC at the program's length. -/
theorem witness_Issue :
    (∀ w ∈ [word 0x08 [(1, 107), (5, 111)], word 0x08 [(1, 107), (7, 111)], word 0x08 [(1, 0)], word 0x08 [(1, 116)]],
      (withCore (core1 w)).canIssue 255 = true ∧ ((withCore (core1 w)).core 255).fetch = some w) ∧
    (seq1.e 5 < 1 ∧ seq1.bind 5 ≠ 0 ∧ seq1.e 7 < 1 ∧ seq1.bind 7 = 0 ∧ seq1.e 7 + (core1 0).owed 7 < 1) ∧
    (word 0x08 [(1, 0)] % 2 ^ 96 &&& (mD ||| mA ||| mB) ≠ word 0x08 [(1, 0)] % 2 ^ 96) ∧ seq1.passes (word 0x08 [(1, 116)]) = false ∧
    seq1.loops = [] ∧ ((withCore { core1 0 with progLen := 0 }).core 255).fetch = none ∧
    (withCore { core1 0 with progLen := 0 }).canIssue 255 = true := by decide +kernel
/-! ### Conditions met: the engines of a core -/

/-- DPASS of 64 samples from A1 by the tile at A2 to A3, not accumulating. -/
def dpassWord : Nat := word 0x20 [(3, 92), (2, 88), (1, 84), (1, 80)]

/-- Such a pass, with a signal to E31, whose fill has read a tile of zeros. -/
def pass1 : DpaOp := ⟨0, 0, false, 0x10000, 0x20000, 0x40000, 64, false, some 31, up.scratchGet 255 0x10000 (dpaTile 0), []⟩

/-- Empty banks hold no parity error. -/
theorem bankError_empty (s : State) (c width : Nat) : s.bankError c width ⟨[], []⟩ = none := by
  have h : parityOf 0 = false := by decide
  simp only [State.bankError, List.getD_nil, h, bne_self_eq_false, Option.map_eq_none_iff, List.find?_eq_none, List.mem_flatMap, List.mem_append,
    List.mem_map]
  rintro x ⟨n, _, ⟨i, _, rfl⟩ | ⟨i, _, rfl⟩⟩ <;> simp

/-- Such a pass alone in the array. -/
def passing : State := withCore { core1 0 with dpa := [pass1] }

theorem passing_bank : (passing.chargeDpa 255 (64 + dpaHem 0)).liveBank 255 pass1 = ⟨[], []⟩ := by
  have h : pass1.tile = (passing.chargeDpa 255 (64 + dpaHem 0)).scratchGet 255 pass1.aw (dpaTile pass1.width) := rfl
  rw [State.liveBank, if_pos h]
  decide +kernel

theorem witness_DpassIssueAndCompletion :
    (∃ s : State, s.Issues 255 dpassWord (mD ||| mA ||| mB ||| mF80 ||| maskOf 79 76) [] ∧ bit dpassWord 79 = false ∧ (s.core 255).dpa.length < 4 ∧
      s.addr 255 3 % 64 = 0 ∧ s.addr 255 2 % 64 = 0 ∧ s.addr 255 1 % 64 = 0 ∧ s.cnt 255 1 = 64 ∧ s.addr 255 3 + dpaTile 0 ≤ scratchSize ∧
      s.addr 255 2 + dpaK 0 * 64 ≤ scratchSize ∧ s.addr 255 1 + 512 * 64 ≤ scratchSize ∧
      overlap (s.addr 255 1) (512 * 64) (s.addr 255 3) (dpaTile 0) = false ∧ overlap (s.addr 255 1) (512 * 64) (s.addr 255 2) (dpaK 0 * 64) = false) ∧
    (∃ s : State, (s.core 255).dpa = [pass1] ∧ s.ringsRun = true ∧ (s.core 255).dpaBad = false ∧
      (s.chargeDpa 255 (64 + dpaHem 0)).bankError 255 0 ((s.chargeDpa 255 (64 + dpaHem 0)).liveBank 255 pass1) = none) ∧
    1 * scratchSize - 1 < 1 * scratchSize + pass1.ay :=
  ⟨⟨withCore (core1 dpassWord), issues_of (by decide +kernel), by decide +kernel⟩, ⟨passing, rfl, by decide +kernel, by decide +kernel, by rw [passing_bank]; exact bankError_empty _ _ _⟩, by decide⟩

/-- A VRW instruction on d = A1, a = A2, c = A3, the scalar at A4, n = C3 = 512 (VMAC: C1 = 64), with func at bits [75:72]. -/
def vrwWord (op func : Nat) : Nat :=
  word op [(func, 72), (1, 92), (2, 88), (3, 84), (4, 80), (if op = 0x30 then 1 else 3, 76), (if op = 0x36 then 7 else 0, 65)]

theorem witness_VrwIssue :
    ∀ x ∈ [(0x30, 0), (0x31, 0), (0x31, 1), (0x31, 2), (0x31, 3), (0x31, 4), (0x31, 5), (0x31, 6), (0x31, 7), (0x32, 0), (0x32, 1), (0x32, 2),
      (0x33, 0), (0x33, 1), (0x33, 2), (0x34, 0), (0x35, 0), (0x36, 0), (0x37, 0)],
      (withCore (core1 (vrwWord x.1 x.2))).Issues 255 (vrwWord x.1 x.2) (maskOf 95 24) (if x.1 = 0x36 then [7] else []) ∧
      Psi.func (vrwWord x.1 x.2) = x.2 ∧ ∀ y ∈ ((withCore (core1 (vrwWord x.1 x.2))).vrwOp 255 (vrwWord x.1 x.2)).checks, y.1 = false :=
  fun x hx => by
  have h : ([(0x30, 0), (0x31, 0), (0x31, 1), (0x31, 2), (0x31, 3), (0x31, 4), (0x31, 5), (0x31, 6), (0x31, 7), (0x32, 0), (0x32, 1), (0x32, 2),
      (0x33, 0), (0x33, 1), (0x33, 2), (0x34, 0), (0x35, 0), (0x36, 0), (0x37, 0)] : List (Nat × Nat)).all (fun x =>
        issues (withCore (core1 (vrwWord x.1 x.2))) 255 (vrwWord x.1 x.2) (maskOf 95 24) (if x.1 = 0x36 then [7] else [])) = true := by
    decide +kernel
  exact ⟨issues_of (List.all_eq_true.mp h x hx), by revert x; decide +kernel⟩

/-- VEW ADD of 512 FP32 elements and VTEST into P7. -/
def vew1 : VrwOp := ⟨0, 0x31, 2, 0, 0x10000, 0x20000, 0x40000, 0x60000, 512, 0, false, 0, 0, false, 0, 0, some 31⟩

theorem witness_VrwCompletion :
    (∃ s : State, (s.core 255).vrw = [vew1] ∧ s.ringsRun = true ∧ (s.core 255).vrwBad = false) ∧ vew1.op ≠ 0x36 ∧
      255 * scratchSize + 0 < 255 * scratchSize + vew1.d :=
  ⟨⟨withCore { core1 0 with vrw := [vew1] }, by decide +kernel⟩, by decide, by decide⟩

/-- MOVL.m1 of 64 bytes from A2 to A1; MFILL; MOVD with the table at 0, without a list. -/
def movlWord : Nat := word 0x50 [(1, 96), (1, 92), (2, 88), (1, 84)]
/-- MFILL.m1 of 64 bytes at A1. -/
def mfillWord : Nat := word 0x52 [(1, 96), (1, 92), (1, 84), (0xFFFFFFFF, 0)]
/-- MOVD.m1 from A2 to A1 by table 1, with a tile signal to E31. -/
def movdWord : Nat := word 0x51 [(3, 96), (1, 92), (2, 88), (1, 72), (31, 66)]
/-- MOVD.m1 with the list at A4. -/
def movdListWord : Nat := word 0x51 [(1, 96), (1, 92), (2, 88), (4, 80), (1, 72), (1, 71)]

/-- A table of one level: two runs of 64 bytes, 64 apart, with a list of 2 entries that spans 64 bytes. -/
def table1 : List Byte :=
  toBytes 4 64 ++ [1, 0, 0, 0] ++ toBytes 8 2 ++ toBytes 8 64 ++ List.replicate 40 0 ++
    (toBytes 4 2 ++ toBytes 4 0 ++ toBytes 8 64 ++ toBytes 8 64 ++ toBytes 8 1)

/-- A core with a word to issue and that table in its scratch; the job may reach scratch. -/
def tabled (w : Nat) : State := (withCore (core1 w)).scratchPut 255 256 table1

/-- A MOVL of 512 bytes from A2 to A1, both of its beats sent. -/
def move1 : MoverOp := ⟨0, .movl, 0x10000, 0x20000, 512, 0, 0, some 31, 0, 2, [], false⟩

/-- A MOVL of 512 bytes from T3 to A1. -/
def far1 : MoverOp := ⟨0, .movl, 0x10000, 0x8000_0000_0000, 512, 0, 0, none, 0, 1, [], false⟩

theorem witness_Mover :
    ((tabled movlWord).Issues 255 movlWord (mD ||| mB ||| mA) ∧ (tabled mfillWord).Issues 255 mfillWord (mD ||| mB ||| mImm) ∧
      (tabled movdWord).Issues 255 movdWord (mD ||| mA ||| mF80 ||| maskOf 79 66) ∧
      (tabled movdListWord).Issues 255 movdListWord (mD ||| mA ||| mF80 ||| maskOf 79 66)) ∧
    ((tabled movlWord).barred 255 ⟨0x10000, 0x10000 + 64⟩ true = false ∧ (tabled movlWord).barred 255 ⟨0x20000, 0x20000 + 64⟩ false = false ∧
      overlap 0x10000 64 0x20000 64 = false) ∧
    (∃ t, t = Descriptor.ofBytes ((tabled movdWord).scratchGet 255 256 256) ∧ t.misaligned = false ∧
      t.illegal ((tabled movdWord).scratchGet 255 256 256) false = false ∧ t.illegal ((tabled movdWord).scratchGet 255 256 256) true = false ∧
      (tabled movdWord).barred 255 (t.box 0x10000 (·.dst) false) true = false ∧ (tabled movdWord).barred 255 (t.box 0x20000 (·.src) false) false = false ∧
      (tabled movdWord).barred 255 (t.box 0x20000 (·.src) true) false = false ∧
      (t.box 0x10000 (·.dst) false).meets (t.box 0x20000 (·.src) false) = false ∧
      (t.box 0x10000 (·.dst) false).meets (t.box 0x20000 (·.src) true) = false ∧ 0x60000 + 8 * t.plistLen ≤ scratchSize) ∧
    (∃ s : State, (s.core 255).moverQueue 1 = [move1] ∧ s.ringsRun = true ∧ s.sendBeat 255 1 = none ∧ move1.beats < move1.sent ∧
      move1.beat ≠ [] ∧ beatTier move1.beat ≤ 1 ∧ s.fld Reg.MEM_STALLTO.timeout_us 0 ≠ 0 ∧ s.beatFails move1.beat true = false ∧
      s.beatBarred move1.beat = false) ∧ (256 * 2 ≥ move1.bytes ∧ tierOf move1.lastLine ≠ 3) ∧
    beatTier far1.beat = 3 ∧ far1.beats < far1.sent ∧
      1000 * up.fld Reg.MEM_STALLTO.timeout_us 2 ≤ wholeWait (up.waitsOf far1.beat false [(0, 1), (5, 7), (8, 1999999)]) ∧ locate 0x10000 = some (.scratch, 0x10000) :=
  ⟨⟨issues_of (by decide +kernel), issues_of (by decide +kernel), issues_of (by decide +kernel), issues_of (by decide +kernel)⟩, by decide +kernel,
    ⟨_, rfl, by decide +kernel⟩, ⟨withCore { core1 0 with mover1 := [move1] }, by decide +kernel⟩, by decide +kernel⟩
/-! ### Conditions met: the host and the memory tiers -/

/-- The word at 0x480008 holds SEQ_SCHEDCFG.quantum_ms, that at 0x1000000 MEM_T1ZONE.local, and that at 0x10023E0 the key of entry 15. -/
theorem sole_fields :
    soleField 0x480008 Reg.SEQ_SCHEDCFG.quantum_ms 0 ∧ soleField 0x1000000 Reg.MEM_T1ZONE.local_ 0 ∧
      soleField 0x10023E0 Reg.MEM_T2MAP.key 15 :=
  ⟨by unfold soleField; decide +kernel, by unfold soleField; decide +kernel, by unfold soleField; decide +kernel⟩

/-- A quantum of 20 ms, a quantum of 0, which is illegal, the unlocked number of local stacks, and the key of an active entry. -/
theorem witness_HostRegisterWrites :
    (up.takes 0x100100 ∧ (0x100100 : Nat) < 2 ^ 26 ∧ 0x100100 % 8 = 0 ∧ 0x100100 % 4 = 0) ∧
    (up.takes 0x480008 ∧ up.takes 0x1000000 ∧ up.takes 0x10023E0) ∧
    ((∀ f ∈ [Reg.SEQ_SCHEDCFG.quantum_ms, Reg.MEM_T1ZONE.local_, Reg.MEM_T2MAP.key], f.stored = true) ∧
      up.legalValue Reg.SEQ_SCHEDCFG.quantum_ms 0 (Reg.SEQ_SCHEDCFG.quantum_ms.part 0x480008 0 20) = true ∧
      up.mayWrite Reg.SEQ_SCHEDCFG.quantum_ms 0 (Reg.SEQ_SCHEDCFG.quantum_ms.part 0x480008 0 20) = true ∧
      up.legalValue Reg.SEQ_SCHEDCFG.quantum_ms 0 (Reg.SEQ_SCHEDCFG.quantum_ms.part 0x480008 0 0) = false ∧
      Reg.MEM_T1ZONE.local_.access = .rwl ∧ up.flag (lockFor Reg.MEM_T1ZONE.local_) = false ∧
      (up.setFld Reg.MEM_T2MAP.state 1 15).mayWrite Reg.MEM_T2MAP.key 15 (Reg.MEM_T2MAP.key.part 0x10023E0 15 1) = false) ∧
    (0x1003FFC % 4 = 0 ∧ actionWord 0x1003FFC = none ∧ emptyUnit 0x1003FFC = false ∧
      ∀ f ∈ blockFields (blockOf 0x1003FFC), f.writable = true → f.hits 0x1003FFC 4 = []) ∧
    (up.takes 0x1000400 ∧ (up.setFld Reg.MEM_LOCK.lock 1).takes 0x1000000 ∧ (up.setFld Reg.MEM_LOCK.lock 1).flag Reg.MEM_LOCK.lock = true ∧
      up.flag Reg.TOP_ACCERR.valid = false ∧ up.takes 0x1000004) ∧
    ((counterAt 0x100110).isSome = true ∧ emptyUnit 0x100110 = false ∧ up.takes 0x100110) :=
  ⟨⟨takes_of (by decide +kernel), by decide⟩, ⟨takes_of (by decide +kernel), takes_of (by decide +kernel), takes_of (by decide +kernel)⟩,
    by decide +kernel, by decide +kernel,
    ⟨takes_of (by decide +kernel), takes_of (by decide +kernel), by decide +kernel, by decide +kernel, takes_of (by decide +kernel)⟩,
    by decide +kernel, by decide +kernel, takes_of (by decide +kernel)⟩

/-- The module with the memory lock set. -/
def locked : State := up.setFld Reg.MEM_LOCK.lock 1

theorem witness_HostLinkAndBar4 :
    (({ up with pcieUp := false } : State).pcieUp = false ∧ up.perst = false ∧ 2 ≤ up.fld Reg.TOP_STARTSTAT.stage ∧ up.pcieUp = true) ∧
    (locked.hostReach = true ∧ locked.flag Reg.MEM_LOCK.lock = true ∧ locked.bar4Closed (locked.bar4Off 0x3FFFFFFF) 1 = false ∧
      up.flag Reg.MEM_LOCK.lock = false ∧ up.hostReach = true) ∧
    (up.setFld Reg.TOP_BLKSTAT.blocks 0x70B).bar4Closed 0 64 = true ∧ (locked.bankFound ⟨none, []⟩).isPoisoned 0 64 = false ∧
    (locked.bankFound ⟨some 0, []⟩).isPoisoned 0 64 = true ∧ locked.shutdown = none ∧
    up.takes 0x1000004 ∧ locked.takes 0x1400004 ∧ locked.takes 0x460038 ∧ up.takes 0x1400004 ∧ up.takes 0x460038 :=
  ⟨by decide +kernel, by decide +kernel, by decide +kernel, by decide +kernel, by decide +kernel, by decide +kernel,
    takes_of (by decide +kernel), takes_of (by decide +kernel), takes_of (by decide +kernel), takes_of (by decide +kernel), takes_of (by decide +kernel)⟩

/-- Entry 15 borrows 64 KiB at the start of T2 from endpoint 131,071, with a lease still to run. -/
def borrows (state : Nat) : State :=
  put up [(Reg.MEM_T2MAP.base, 0x40000000, 15), (Reg.MEM_T2MAP.length, 65536, 15), (Reg.MEM_T2MAP.lease_end, 1, 15),
    (Reg.MEM_T2MAP.ep, 131071, 15), (Reg.MEM_T2MAP.state, state, 15)]

/-- Entry 15 lends the first 64 KiB of T1 to endpoint 131,071 under key 3. -/
def lends (state : Nat) : State :=
  put up [(Reg.MEM_LEND.base, 0x1000000, 15), (Reg.MEM_LEND.length, 65536, 15), (Reg.MEM_LEND.lease_end, 1, 15), (Reg.MEM_LEND.key, 3, 15),
    (Reg.MEM_LEND.ep, 131071, 15), (Reg.MEM_LEND.state, state, 15)]

theorem witness_TierUpkeep :
    (up.takes 0x100000C ∧ up.flag Reg.MEM_FLUSH.busy = false ∧ (up.setFld Reg.MEM_FLUSH.busy 1).takes 0x100000C ∧
      (up.setFld Reg.MEM_FLUSH.busy 1).flag Reg.MEM_FLUSH.busy = true) ∧
    ((borrows 0).takes (0x1002024 + 64 * 15) ∧ (borrows 0).badBorrow 15 = false ∧ up.badBorrow 15 = true ∧
      (borrows 1).fld Reg.MEM_T2MAP.state 15 = 1) ∧
    ((lends 0).takes (0x1003024 + 64 * 15) ∧ (lends 0).badEntry Reg.MEM_LEND.state Reg.MEM_LEND.base Reg.MEM_LEND.length Reg.MEM_LEND.lease_end 15 = false ∧
      (lends 0).badRegion ((lends 0).fld Reg.MEM_LEND.base 15 * 65536) ((lends 0).fld Reg.MEM_LEND.length 15) = false ∧
      up.badRegion (up.fld Reg.MEM_LEND.base 15 * 65536) (up.fld Reg.MEM_LEND.length 15) = true ∧ (lends 1).fld Reg.MEM_LEND.state 15 = 1) ∧
    ((borrows 1).Fresh head1 seen1 ∧ (borrows 1).fld Reg.MEM_T2MAP.ep 15 = head1.source ∧
      meets ((borrows 1).fld Reg.MEM_T2MAP.roff 15) ((borrows 1).fld Reg.MEM_T2MAP.length 15) 65535 1 = true) ∧
    ((lends 2).Fresh head1 seen1 ∧ (lends 2).lendOpen 15 = true ∧ (lends 2).fld Reg.MEM_LEND.key 15 = 3 ∧
      (lends 2).fld Reg.MEM_LEND.ep 15 = head1.source) ∧ (lends 3).fld Reg.MEM_LEND.state 15 = 3 :=
  ⟨⟨takes_of (by decide +kernel), by decide +kernel, takes_of (by decide +kernel), by decide +kernel⟩,
    ⟨takes_of (by decide +kernel), by unfold State.badBorrow State.badEntry; rw [xdie_zero (by decide +kernel)]; decide +kernel,
      by unfold State.badBorrow State.badEntry; rw [xdie_zero (by decide +kernel)]; decide +kernel, by decide +kernel⟩,
    ⟨takes_of (by decide +kernel), by unfold State.badEntry; rw [xdie_zero (by decide +kernel)]; decide +kernel, by decide +kernel⟩,
    ⟨fresh_of (by decide +kernel), by decide +kernel⟩, ⟨fresh_of (by decide +kernel), by decide +kernel⟩, by decide +kernel⟩
/-! ### Conditions met: the weight store -/

/-- The rings of the weight store are on, of 16 entries, the commands in T3 and the completions in T1; one command waits; the store is ready. -/
def rings : State :=
  put locked [(Reg.NVS_RINGCFG.log2n, 4, 0), (Reg.NVS_RINGCFG.en, 1, 0), (Reg.NVS_STATUS.ready, 1, 0), (Reg.NVS_CMDTAIL.index, 1, 0),
    (Reg.NVS_CPLTAIL.index, 1, 0), (Reg.NVS_CMDBASE.base, 0x800000000000, 0), (Reg.NVS_CPLBASE.base, 0x10000000000, 0),
    (Reg.MEM_T3BASE.en, 1, 0)]

/-- A command in progress: `op`, of shard 7 with one chunk, taken first, at ring index 0. -/
def cmd (op : Nat) : NvCmd :=
  { NvCmd.ofBytes 0 (some 0) [] with op := op, shard := 7, length := 65536, addr := 0x10000000000, started := true }

/-- Nothing went wrong on the NAND. -/
def clean : NvsReport := ⟨[], false, 0, none, 0, []⟩

/-- One block of the NAND, number 17 of channel 0, holds the 16 units of a chunk. -/
def nand : Nvs := { Nvs.reset with cur := { NvImage.empty with map := [(0, 17)] }, units := (List.range 16).map fun k => (17 * 4096 + k, [0]) }

/-- Shard 7, of one chunk in group 0, with the digest of what the NAND holds of it. -/
def shard7 : Shard := ⟨7, 1, 65536, 0, 0, 0, sha256 (digestPrefix 7 1 0 0 65536 ++ nand.bytes 0 65536), 0, 1, false⟩

/-- The module with a command in progress, and shard 7. -/
def storing (c : NvCmd) : State :=
  { rings with nvs := { nand with cmds := [c], cur := { nand.cur with dir := [shard7] }, reads := [(17, 200000)] } }

theorem bytes_congr {v w : Nvs} (h1 : v.units = w.units) (h2 : v.cur.map = w.cur.map) (u n : Nat) : v.bytes u n = w.bytes u n := by
  simp only [Nvs.bytes, Nvs.plain, Nvs.cipher, Nvs.place, NvImage.entry, h1, h2]

theorem shard7_sound (c : NvCmd) : (storing c).digestOk shard7 = true := by
  have h : (storing c).shardBytes shard7 = nand.bytes 0 65536 := bytes_congr (v := (storing c).nvs) (by rw [storing]) (by rw [storing]) _ _
  have hd : sha256 (digestPrefix shard7.id shard7.kind shard7.patch shard7.version shard7.length ++ nand.bytes 0 65536) = shard7.digest := by
    simp only [shard7]
  simp only [State.digestOk, h, hd, beq_self_eq_true]

theorem shard7_here (c : NvCmd) : (storing c).shard? 7 = some shard7 := by simp [State.shard?, storing, shard7]

theorem nand_whole : nand.firstLost 0 65536 = none := by decide +kernel

theorem shard7_whole (c : NvCmd) : (storing c).nvs.firstLost shard7.base shard7.length = none := by
  have h : (storing c).nvs.firstLost 0 65536 = nand.firstLost 0 65536 := by
    simp only [Nvs.firstLost, Nvs.cipher, Nvs.place, NvImage.entry, storing]
  have hb : shard7.base = 0 ∧ shard7.length = 65536 := by simp [Shard.base, shard7]
  rw [hb.1, hb.2, h, nand_whole]

theorem witness_NvsRings :
    (locked.takes 0x1400008 ∧ bits 4 3 0 = 4 ∧ (locked.setFld Reg.NVS_LOCK.lock 1).takes 0x1400008 ∧
      (locked.setFld Reg.NVS_LOCK.lock 1).flag Reg.NVS_LOCK.lock = true ∧ (locked.setFld Reg.NVS_LOCK.lock 1).flag Reg.NVS_RINGCFG.en = false) ∧
    (rings.takes 0x1400020 ∧ ringLegal 12 rings.nvN (2 ^ 12) = true ∧
      ringDist rings.nvN rings.nvHead rings.nvTail ≤ ringDist rings.nvN rings.nvHead (ringPos 12 rings.nvN (2 ^ 12)) ∧
      ringDist rings.nvN rings.nvHead (ringPos 12 rings.nvN (2 ^ 12)) ≤ rings.nvN) ∧
    (rings.takes 0x140002C ∧ ringLegal 12 rings.nvN 1 = true ∧
      ringDist rings.nvN rings.nvCplHead (ringPos 12 rings.nvN 1) ≤ ringDist rings.nvN rings.nvCplHead rings.nvCplTail) ∧
    (∀ op ∈ [1, 2, 3, 4, 5, 6, 7, 8], numAt (rings.nvEntry [BitVec.ofNat 8 op]) 0 1 = op) ∧
    (rings.flag Reg.NVS_RINGCFG.en = true ∧ rings.flag Reg.NVS_STATUS.ready = true ∧ rings.nvHead ≠ rings.nvTail ∧ rings.closing = false ∧
      rings.apron = false ∧ rings.nvClosed = false ∧ (rings.nvs.cmds.filter (·.index.isSome)).length < 16) ∧
    (rings.nvRefusal (NvCmd.ofBytes 0 (some 0) (rings.nvEntry [3])) (rings.nvEntry [3]) = none ∧
      rings.nvRefusal (NvCmd.ofBytes 0 (some 0) (rings.nvEntry [3, 1])) (rings.nvEntry [3, 1]) = some 1) ∧
    (((storing { cmd 2 with result := some (0, 65536) }).nvs.cmds.find? fun c => c.key == 0) = some { cmd 2 with result := some (0, 65536) } ∧
      (storing { cmd 2 with result := some (0, 65536) }).nvRoom = true ∧ (cmd 2).started = true ∧ (cmd 2).index.isSome = true) ∧
    ((cmd 5).result = none ∧ ((storing { cmd 5 with rounds := 1 }).nvs.cmds.find? fun c => c.key == 0) = some { cmd 5 with rounds := 1 } ∧
      (((storing { cmd 5 with rounds := 1 }).nvWork { cmd 5 with rounds := 1 } clean).nvs.cmds.find? fun c => c.key == 0) =
        some { cmd 5 with rounds := 1 }) ∧
    ((((storing (cmd 4)).nvWork (cmd 4) clean).nvs.cmds.find? fun c => c.key == 0).map (·.result) = some (some (0, 0))) := by
  refine ⟨⟨takes_of (by decide +kernel), by decide, takes_of (by decide +kernel), by decide +kernel, by decide +kernel⟩,
    ⟨takes_of (by decide +kernel), by decide +kernel⟩, ⟨takes_of (by decide +kernel), by decide +kernel⟩, by decide +kernel,
    by decide +kernel, by decide +kernel, ⟨by rfl, by decide +kernel, rfl, rfl⟩, ⟨rfl, by rfl, by rfl⟩, by rfl⟩

/-- Shard 7 is sound, and with another digest it is not; a WRITE has taken group 0. -/
theorem witness_NvsCommandEffects :
    (∀ c, (storing c).shard? 7 = some shard7 ∧ (storing c).nvs.firstLost shard7.base shard7.length = none ∧ (storing c).digestOk shard7 = true) ∧
    (∃ s : State, ∃ h : Shard, s.digestOk h = false) ∧ clean.uncorrectable = none ∧ ({ cmd 1 with run := some 0 } : NvCmd).run = some 0 ∧
    (cmd 5).rounds = 0 ∧ (cmd 8).result = none ∧ (cmd 8).patch < 256 ∧
    (up.setFld Reg.NVS_PATCHMAP.resident 1 (cmd 8).patch).flag Reg.NVS_PATCHMAP.resident (cmd 8).patch = true :=
  ⟨fun c => ⟨shard7_here c, shard7_whole c, shard7_sound c⟩, ⟨up, ⟨7, 1, 0, 0, 0, 0, [], 0, 0, false⟩, by decide +kernel⟩, by decide +kernel⟩

theorem leastBy_least (f : Nat → Nat) : ∀ l : List Nat, l ≠ [] → ∃ p, leastBy f l = some p ∧ p ∈ l ∧ ∀ x ∈ l, f p ≤ f x
  | [], h => absurd rfl h
  | [a], _ => ⟨a, rfl, by simp, by simp⟩
  | a :: b :: r, _ => by
    obtain ⟨q, h1, h2, h3⟩ := leastBy_least f (b :: r) (by simp)
    by_cases h : f a ≤ f q
    · exact ⟨a, by rw [leastBy, h1]; simp [h], by simp, fun x hx => by
        rcases List.mem_cons.mp hx with rfl | hx
        · exact Nat.le_refl _
        · exact Nat.le_trans h (h3 x hx)⟩
    · exact ⟨q, by rw [leastBy, h1]; simp [h], List.mem_cons_of_mem _ h2, fun x hx => by
        rcases List.mem_cons.mp hx with rfl | hx
        · omega
        · exact h3 x hx⟩

theorem foldl_max_eq (m : Nat) : ∀ (l : List Nat) (a : Nat), a ≤ m → (∀ x ∈ l, x ≤ m) → (a = m ∨ m ∈ l) → l.foldl max a = m
  | [], a, _, _, h => by simpa using h
  | b :: r, a, h1, h2, h3 => by
    have hb : b ≤ m := h2 b (by simp)
    refine foldl_max_eq m r (max a b) (by omega) (fun x hx => h2 x (by simp [hx])) ?_
    rcases h3 with h | h
    · left; omega
    · rcases List.mem_cons.mp h with h | h
      · left; omega
      · exact .inr h

/-- The block that is worn: 300 erases. -/
def wornBlock : Nat := 7 * nvBlocks + 40

/-- The logical blocks of channel 7 that hold data. -/
def fullBlocks : List Nat := (nvChannel 7).filter fun p => p != wornBlock

theorem mem_full (p : Nat) : p ∈ fullBlocks ↔ p ∈ nvChannel 7 ∧ p ≠ wornBlock := by
  rw [fullBlocks, List.mem_filter, bne_iff_ne]

/-- Channel 7 with one free block, the worn one; every other block holds data and has no erases. -/
def worn : State :=
  { rings with nvs := { Nvs.reset with
      erases := [(wornBlock, 300)], cur := { NvImage.empty with map := fullBlocks.map fun p => (p, p) } } }

theorem worn_map : worn.nvs.cur.map = fullBlocks.map fun p => (p, p) := by simp only [worn]

theorem worn_erases (p : Nat) : worn.nvs.erasesOf p = if p = wornBlock then 300 else 0 := by
  by_cases h : p = wornBlock <;> simp [Nvs.erasesOf, worn, Table.get, h, eq_comm]

theorem worn_system (p : Nat) : worn.nvs.system p = nvSystem p := by simp [Nvs.system, worn, NvImage.empty]

theorem worn_retired (p : Nat) : worn.nvs.isRetired p = false := by simp [Nvs.isRetired, worn, NvImage.empty, Table.get]

/-- The usable blocks of channel 7. -/
def usable7 : List Nat := (nvChannel 7).filter fun p => !worn.nvs.system p && !worn.nvs.isRetired p

theorem worn_usable : wornBlock ∈ usable7 ∧ 7 * nvBlocks + 17 ∈ usable7 := by
  have h : ∀ k, k < nvBlocks → nvSystem (7 * nvBlocks + k) = false → 7 * nvBlocks + k ∈ usable7 := fun k h1 h2 => by
    refine List.mem_filter.mpr ⟨List.mem_map.mpr ⟨k, List.mem_range.mpr h1, by omega⟩, ?_⟩
    rw [worn_system, worn_retired, h2]
    rfl
  exact ⟨h 40 (by decide) (by decide), h 17 (by decide) (by decide)⟩

theorem worn_top (l : List Nat) (h : wornBlock ∈ l) : (l.map worn.nvs.erasesOf).foldl max 0 = 300 := by
  refine foldl_max_eq 300 _ 0 (by omega) (fun x hx => ?_) (.inr (List.mem_map.mpr ⟨_, h, by rw [worn_erases]; simp⟩))
  obtain ⟨p, -, rfl⟩ := List.mem_map.mp hx
  rw [worn_erases]
  split <;> omega

theorem worn_free : worn.nvs.isFree wornBlock = true := by
  have h : (worn.nvs.cur.map.any fun e => e.2 == wornBlock) = false := by
    rw [List.any_eq_false]
    intro e he
    rw [worn_map] at he
    obtain ⟨p, hp, rfl⟩ := List.mem_map.mp he
    simpa using ((mem_full p).mp hp).2
  have h2 : worn.nvs.old = [] := by simp only [worn, Nvs.reset]
  rw [Nvs.isFree, h, h2, worn_system, worn_retired]
  decide

theorem worn_full (p : Nat) (h1 : p ∈ nvChannel 7) (h2 : p ≠ wornBlock) : (worn.nvs.cur.map.any fun e => e.2 == p) = true := by
  rw [worn_map, List.any_eq_true]
  exact ⟨(p, p), List.mem_map.mpr ⟨p, (mem_full p).mpr ⟨h1, h2⟩, rfl⟩, by simp⟩

theorem witness_NvsWearLevel :
    ∃ (s : State) (p q : Nat) (rest : List Nat), s.nvWrites = true ∧ Table.get 0 s.nvs.levelled 7 = 0 ∧
      leastBy s.nvs.erasesOf ((nvChannel 7).filter fun p => !s.nvs.system p && !s.nvs.isRetired p) = some p ∧
      s.nvs.erasesOf p + 256 < ((((nvChannel 7).filter fun p => !s.nvs.system p && !s.nvs.isRetired p).map
        s.nvs.erasesOf).foldl max 0) ∧
      ((((nvChannel 7).filter fun p => !s.nvs.system p && !s.nvs.isRetired p).filter s.nvs.isFree).filter fun q =>
        s.nvs.erasesOf q == ((((((nvChannel 7).filter fun p => !s.nvs.system p && !s.nvs.isRetired p).filter
          s.nvs.isFree).map s.nvs.erasesOf).foldl max 0))) = q :: rest ∧ (s.nvs.cur.map.any fun e => e.2 == p) = true := by
  obtain ⟨p, h1, h2, h3⟩ := leastBy_least worn.nvs.erasesOf usable7 (List.ne_nil_of_mem worn_usable.1)
  have h4 : worn.nvs.erasesOf p = 0 := by
    have h := h3 _ worn_usable.2
    rw [worn_erases p] at h
    have h17 : 7 * nvBlocks + 17 ≠ wornBlock := by decide
    rw [worn_erases (7 * nvBlocks + 17), if_neg h17] at h
    rw [worn_erases]
    omega
  have h5 : p ≠ wornBlock := by
    rintro rfl
    rw [worn_erases] at h4
    simp at h4
  have h6 : wornBlock ∈ usable7.filter worn.nvs.isFree := List.mem_filter.mpr ⟨worn_usable.1, worn_free⟩
  have h7 : wornBlock ∈ (usable7.filter worn.nvs.isFree).filter fun q =>
      worn.nvs.erasesOf q == ((usable7.filter worn.nvs.isFree).map worn.nvs.erasesOf).foldl max 0 :=
    List.mem_filter.mpr ⟨h6, by rw [worn_top _ h6, worn_erases]; simp⟩
  obtain ⟨q, rest, h8⟩ := List.exists_cons_of_ne_nil (List.ne_nil_of_mem h7)
  have h9 : worn.nvs.erasesOf p + 256 < (usable7.map worn.nvs.erasesOf).foldl max 0 := by
    rw [worn_top usable7 worn_usable.1, h4]
    decide
  exact ⟨worn, p, q, rest, by decide +kernel, rfl, h1, h9, h8, worn_full p (List.mem_filter.mp h2).1 h5⟩

/-- The read block that has a free block in its channel, the worn one. -/
theorem witness_ReadDisturb : ∃ (s : State) (block q : Nat), s.nvWrites = true ∧ 200000 ≤ Table.get 0 s.nvs.reads block ∧
    s.nvs.freeBlock (block / nvBlocks) = some q ∧ (s.nvs.cur.map.any fun e => e.2 == block) = true := by
  obtain ⟨q, h, -, -⟩ := leastBy_least worn.nvs.erasesOf ((nvChannel 7).filter worn.nvs.isFree)
    (List.ne_nil_of_mem (List.mem_filter.mpr ⟨(List.mem_filter.mp worn_usable.1).1, worn_free⟩))
  refine ⟨worn.modNvs fun v => { v with reads := [(7 * nvBlocks + 17, 200000)] }, 7 * nvBlocks + 17, q, by decide +kernel, by decide +kernel, ?_,
    worn_full _ (List.mem_filter.mp worn_usable.2).1 (by decide)⟩
  have h17 : (7 * nvBlocks + 17) / nvBlocks = 7 := by decide
  rw [h17]
  exact h

/-- A journal of 65,536 records. -/
def journaled : State := rings.modNvs fun v => { v with records := List.replicate 65536 .close }

theorem witness_NvsUpkeep :
    ((262143 : Nat) < 8 * nvBlocks ∧ rings.inhibited = false ∧ rings.nvs.isRetired 262143 = false) ∧
    ((storing (cmd 7)).flag Reg.NVS_STATUS.ready = true ∧ ((storing (cmd 7)).nvs.cur.map.any fun e => e.2 == 17) = true) ∧
    ((storing (cmd 7)).shard? 7 = some shard7 ∧ (storing (cmd 7)).shardBusy 7 = false ∧
      ∀ x ∈ (storing (cmd 7)).nvs.cur.dir, shard7.checked ≤ x.checked) ∧
    (journaled.inhibited = false ∧ 65536 ≤ journaled.nvs.records.length) ∧ clean.uncorrectable = none :=
  ⟨by decide +kernel, by decide +kernel, ⟨shard7_here _, by decide +kernel, by simp [storing]⟩,
    ⟨by decide +kernel, Nat.le_of_eq (List.length_replicate (n := 65536) (a := NvRecord.close)).symm⟩, rfl⟩

/-- The module with slot 1 of the generations in a state, with a count of references. -/
def slotState (st refs : Nat) : State := put up [(Reg.NVS_GEN.state, st, 1), (Reg.NVS_GEN.refs, refs, 1)]

/-- A manifest of generation 0 that the NAND does not hold. -/
def manifest0 : Shard := ⟨9, 3, 65536, 0, 0, 0, [], 1, 1, false⟩

theorem witness_NvsGenerations :
    (∀ st ∈ [0, 1, 2, 3], (slotState st 0).genState 1 = st) ∧ (slotState 1 0).takes (0x1400114 + 32 * 1) ∧
    ((slotState 1 0).loadsInto 1 = false ∧ (slotState 1 0).flag Reg.NVS_GEN.load_fail 1 = false ∧
      (slotState 1 0).manifest? ((slotState 1 0).fld Reg.NVS_GEN.gen 1) = none) ∧
    (∃ s : State, s.genState 1 = 1 ∧ s.loadsInto 1 = false ∧ s.flag Reg.NVS_GEN.load_fail 1 = false ∧
      s.manifest? (s.fld Reg.NVS_GEN.gen 1) = some manifest0 ∧ s.manifestOk 1 = false) ∧
    ((slotState 1 0).setFld Reg.NVS_GEN.load_fail 1 1).flag Reg.NVS_GEN.load_fail 1 = true ∧ (slotState 2 0).fld Reg.NVS_GEN.refs 1 = 0 ∧
    ((slotState 2 5).fld Reg.NVS_GEN.refs 1 ≠ 0 ∧ (slotState 2 5).genState 1 = 2) := by
  refine ⟨by decide +kernel, takes_of (by decide +kernel), by decide +kernel, ?_, by decide +kernel, by decide +kernel, by decide +kernel⟩
  refine ⟨(slotState 1 0).modNvs fun v => { v with cur := { v.cur with dir := [manifest0] } }, by decide +kernel, by decide +kernel,
    by decide +kernel, by decide +kernel, ?_⟩
  have h : (((slotState 1 0).modNvs fun v => { v with cur := { v.cur with dir := [manifest0] } }).nvs.firstLost manifest0.base
    manifest0.length).isNone = false := by decide +kernel
  have hm : ((slotState 1 0).modNvs fun v => { v with cur := { v.cur with dir := [manifest0] } }).manifest?
    (((slotState 1 0).modNvs fun v => { v with cur := { v.cur with dir := [manifest0] } }).fld Reg.NVS_GEN.gen 1) = some manifest0 := by
    decide +kernel
  simp only [State.manifestOk, hm, h, Bool.false_and]

/-- An item whose every line is held is whole with the next packet. -/
theorem gather_isSome (s : State) (source ptype : Nat) (name : List Nat) (total first : Nat) (bytes : List Byte)
    (h : ∀ k, k < total → ∃ x ∈ (((s.parts.find? fun x => x.source == source && x.ptype == ptype && x.name == name).map (·.lines)).getD []), x.1 = k) :
    (s.gather source ptype name total first bytes).1.isSome = true := by
  simp only [State.gather]
  rw [if_pos]
  · rfl
  · simp only [List.all_eq_true, List.mem_map, List.mem_range]
    rintro x ⟨k, hk, rfl⟩
    obtain ⟨y, hy, rfl⟩ := h k hk
    rw [Option.isSome_map, List.find?_isSome]
    exact ⟨y, List.mem_append_left _ hy, by simp⟩

/-- The first `n` lines of chunk 0 of shard 7 are held. -/
def gathered (n : Nat) : State :=
  { (storing (cmd 6)).taken head1 seen1 with parts := [⟨131071, 0x17, [7, 0], (List.range n).map fun k => (k, [])⟩] }

theorem gathered_whole (n : Nat) : ((gathered n).gather 131071 0x17 [7, 0] n 0 [1]).1.isSome = true := by
  apply gather_isSome
  intro k hk
  have h : (gathered n).parts = [⟨131071, 0x17, [7, 0], (List.range n).map fun k => (k, [])⟩] := by rw [gathered]
  rw [h]
  exact ⟨(k, []), by simpa using hk, rfl⟩

theorem gathered_part : (((storing (cmd 6)).taken head1 seen1).gather 131071 0x17 [7, 0] 1024 0 [1]).1 = none := by decide +kernel

theorem witness_NvsKeepersAndPatches :
    ((storing { cmd 6 with addr := 0 }).Fresh head1 seen1 ∧ (storing { cmd 6 with addr := 0 }).receiving 7 = some { cmd 6 with addr := 0 } ∧
      0 < shardChunks 65536 ∧ (0 : Nat) ∉ (cmd 6).chunks) ∧
    (((gathered 1024).gather 131071 0x17 [7, 0] 1024 0 [1]).1.isSome = true ∧
      (((storing (cmd 6)).taken head1 seen1).gather 131071 0x17 [7, 0] 1024 0 [1]).1 = none) ∧
    ((storing (cmd 6)).Fresh head1 seen1 ∧ (storing (cmd 6)).receiving 7 = some (cmd 6) ∧ (cmd 6).addr ≠ 0 ∧ (cmd 6).missing ≠ [] ∧
      ({ cmd 6 with chunks := [0] } : NvCmd).missing = [] ∧ (cmd 6).rounds < 3 ∧ 3 ≤ ({ cmd 6 with rounds := 3 } : NvCmd).rounds ∧
      shardChunks 65536 ≤ 1 ∧ 0 < shardChunks 65536) ∧
    (((storing { cmd 5 with rounds := 1 }).nvs.cmds.find? fun c => c.op == 5 && c.shard == 7 && c.rounds != 0 && c.result.isNone) =
      some { cmd 5 with rounds := 1 } ∧ (storing { cmd 5 with rounds := 1 }).shard? 7 = some shard7) ∧
    ((storing { cmd 5 with rounds := 1 }).nvs.cmds.find? fun c => c.key == 0 && c.op == 5 && c.rounds != 0 && c.result.isNone) =
      some { cmd 5 with rounds := 1 } ∧
    ((storing (cmd 6)).nvs.cmds.find? fun c => c.key == 0 && c.op == 6 && c.started && c.result.isNone) = some (cmd 6) ∧
    (head1.source ≠ rings.fld Reg.FAB_EPID.ep ∧ rings.apron = false ∧ rings.flag Reg.NVS_STATUS.ready = true ∧ rings.Fresh head1 seen1) ∧
    ((storing { cmd 7 with slots := [0] }).nvs.cmds.find? fun c => c.op == 7 && c.started && c.result.isNone && !c.slots.isEmpty) =
      some { cmd 7 with slots := [0] } ∧
    ((storing (cmd 7)).nvs.cmds.find? fun c => c.op == 7 && c.started && c.result.isNone && c.slots.isEmpty) = some (cmd 7) :=
  ⟨⟨fresh_of (by decide +kernel), by rfl, by decide, by decide⟩, ⟨gathered_whole 1024, gathered_part⟩,
    ⟨fresh_of (by decide +kernel), by rfl, by decide +kernel⟩, ⟨by rfl, shard7_here _⟩, by rfl, by rfl,
    ⟨by decide +kernel, by decide +kernel, by decide +kernel, fresh_of (by decide +kernel)⟩, by rfl, by rfl⟩

/-- A patch in a slot of 1 MiB: the one the store holds, and one it does not. -/
theorem witness_PatchInstall :
    ∃ s : State, (0 < s.fld Reg.NVS_PATCHCFG.slots ∧ s.patchShard 3 1 = none) ∧
      ∃ h, s.patchShard 4 1 = some h ∧ h.bad = false ∧ h.length ≤ s.fld Reg.NVS_PATCHCFG.slot_mib * 2 ^ 20 ∧ clean.uncorrectable = none ∧
        s.nvs.firstLost h.base h.length = none ∧ s.digestOk h = true := by
  refine ⟨(put rings [(Reg.NVS_PATCHCFG.slots, 1, 0), (Reg.NVS_PATCHCFG.slot_mib, 1, 0)]).modNvs fun v =>
      { v with cur := { v.cur with dir := [⟨8, 2, 0, 0, 4, 1, sha256 (digestPrefix 8 2 4 1 0), 0, 0, false⟩] } },
    by decide +kernel, _, rfl, rfl, by decide +kernel, rfl, rfl, ?_⟩
  decide +kernel
/-! ### Conditions met: queues, jobs and sequences -/

/-- Queue 9 takes commands for slice 3 and completes to queue 40; both are rings of 16 entries in T3. -/
def queues : State :=
  { put locked [(Reg.SEQ_QCFG.base, 0x800000000, 9), (Reg.SEQ_QCFG.log2n, 4, 9), (Reg.SEQ_QCFG.kind, 1, 9), (Reg.SEQ_QCFG.slice, 3, 9),
      (Reg.SEQ_QCFG.cplq, 40, 9), (Reg.SEQ_QCFG.tail, 1, 9), (Reg.SEQ_QCFG.en, 1, 9), (Reg.SEQ_QCFG.base, 0x800001000, 40),
      (Reg.SEQ_QCFG.log2n, 4, 40), (Reg.SEQ_QCFG.kind, 2, 40), (Reg.SEQ_QCFG.en, 1, 40), (Reg.MEM_T3BASE.en, 1, 0)] with doorbells := [(9, 1)] }

theorem witness_QueuesAndDoorbells :
    ((locked.setFld Reg.SEQ_KVLOCK.lock 1).takes (0x500008 + 32 * 65535) ∧ (locked.setFld Reg.SEQ_KVLOCK.lock 1).qEn 65535 = false ∧
      bits 16 4 0 = 16 ∧ (locked.setFld Reg.SEQ_KVLOCK.lock 1).flag Reg.SEQ_KVLOCK.lock = true) ∧
    (queues.takes (0x500008 + 32 * 9) ∧ queues.qEn 9 = true) ∧
    (queues.hostReach = true ∧ queues.blockOpen (blockOf 0x500000) = true ∧ queues.qIs 9 1 = true ∧ ringLegal 16 (queues.qN 9) (2 ^ 16) = true ∧
      queues.qUsed 9 < ringDist (queues.qN 9) (queues.qHead 9) (ringPos 16 (queues.qN 9) (2 ^ 16)) ∧
      ringDist (queues.qN 9) (queues.qHead 9) (ringPos 16 (queues.qN 9) (2 ^ 16)) ≤ queues.qN 9) ∧
    (queues.qEn 40 = true ∧ queues.qIs 40 1 = false ∧ ringLegal 16 (queues.qN 40) 0 = true ∧
      ringDist (queues.qN 40) (queues.qHead 40) (ringPos 16 (queues.qN 40) 0) ≤ queues.qUsed 40) :=
  ⟨⟨takes_of (by decide +kernel), by decide +kernel⟩, ⟨takes_of (by decide +kernel), by decide +kernel⟩, by decide +kernel, by decide +kernel⟩

/-- The conditions of a command as one test. -/
def commands (s : State) (q : Nat) (host : List Byte) (op : Nat) : Bool :=
  decide (s.seRuns = true ∧ s.closing = false ∧ s.nextQueue (s.fld Reg.SEQ_QCFG.slice q) = some q ∧
    s.areaClosed (s.qBase q + 64 * (s.qHead q % s.qN q)) 64 = false ∧ (s.headEntry q host).op = op)

theorem commands_of {s : State} {q : Nat} {host : List Byte} {op : Nat} (h : commands s q host op = true) :
    s.Commands q host op (s.headEntry q host) := by
  rw [commands, decide_eq_true_eq] at h
  exact ⟨h.1, h.2.1, h.2.2.1, h.2.2.2.1, rfl, h.2.2.2.2⟩

/-- A LAUNCH of the block 64 KiB into T1. -/
def launchEntry : List Byte := toBytes 8 1 ++ toBytes 8 0x10000010000 ++ List.replicate 48 0
/-- The same with byte 1 set. -/
def launchBad : List Byte := [1, 1] ++ toBytes 6 0 ++ toBytes 8 0x10000010000 ++ List.replicate 48 0

/-- Queue 9 with a launch block of job 2 on group 0, which holds core 0. -/
def launching : State :=
  ({ put queues [(Reg.UNIT_STATE.run, 1, 64)] with groups := [(0, ⟨[64], []⟩)] } : State).t1Put 0x10000
    (toBytes 2 2 ++ toBytes 2 448 ++ toBytes 2 1 ++ toBytes 2 0 ++ toBytes 8 0x10000001000 ++ toBytes 8 0 ++ toBytes 8 0 ++ toBytes 2 4095 ++
      toBytes 30 0 ++ toBytes 8 0x10000001000 ++ toBytes 4 1 ++ toBytes 4 1)

/-- A job that waits for core 255, of the priority of job 1. -/
def waiting2 : Job := { job1 with id := 2, state := .waiting }

theorem witness_LaunchesAndJobControl :
    (launching.Commands 9 launchEntry 1 (launching.headEntry 9 launchEntry) ∧ launchIllegal (launching.headEntry 9 launchEntry) = none ∧
      ((launching.take 9 (launching.headEntry 9 launchEntry)).2.readLaunch (launching.headEntry 9 launchEntry).addr).launchCase
        (launching.headEntry 9 launchEntry).addr = none) ∧
    (queues.Commands 9 launchEntry 1 (queues.headEntry 9 launchEntry) ∧ launchIllegal (queues.headEntry 9 launchEntry) = none ∧
      ((queues.take 9 (queues.headEntry 9 launchEntry)).2.readLaunch (queues.headEntry 9 launchEntry).addr).launchCase
        (queues.headEntry 9 launchEntry).addr = some 3) ∧
    (queues.Commands 9 launchBad 1 (queues.headEntry 9 launchBad) ∧ launchIllegal (queues.headEntry 9 launchBad) = some 1) ∧
    (up.takes 0x480010 ∧ up.flag Reg.SEQ_JOBCTLSTAT.busy = false ∧ (up.setFld Reg.SEQ_JOBCTLSTAT.busy 1).takes 0x480010 ∧
      (up.setFld Reg.SEQ_JOBCTLSTAT.busy 1).flag Reg.SEQ_JOBCTLSTAT.busy = true) ∧
    (∀ js ∈ [[job1], [job1, waiting2]], ({ up with jobs := js } : State).job? 1 = some job1 ∧ ({ up with jobs := js } : State).inSwitch 1 = false) ∧
    ([job1].any (fun v => (v.state == .waiting || v.state == .suspended) && v.fault.isNone && v.prio == job1.prio &&
        v.cores.any job1.cores.contains) = false ∧
      [job1, waiting2].any (fun v => (v.state == .waiting || v.state == .suspended) && v.fault.isNone && v.prio == job1.prio &&
        v.cores.any job1.cores.contains) = true) :=
  ⟨⟨commands_of (by decide +kernel), by decide +kernel⟩, ⟨commands_of (by decide +kernel), by decide +kernel⟩,
    ⟨commands_of (by decide +kernel), by decide +kernel⟩, ⟨takes_of (by decide +kernel), by decide +kernel, takes_of (by decide +kernel),
      by decide +kernel⟩, by decide +kernel, by decide +kernel⟩

/-- A switch on C-die 3 in a phase: job 1 goes out, or job 2 comes in. -/
def switching (inc : Option Nat) (out : List (Nat × Nat)) (p : SwitchPhase) (js : List Job) : State :=
  { up with switches := [⟨inc, out, false, [(3, p)]⟩], jobs := js }

/-- Job 2, for which a core of C-die 3 is free, and job 2 without a core there. -/
def onDie0 : Job := { waiting2 with cores := [0] }

theorem witness_SwitchPhases :
    ((switching none [(1, 0)] .drain [job1]).switchOf 1 = some ⟨none, [(1, 0)], false, [(3, .drain)]⟩ ∧
      (⟨none, [(1, 0)], false, [(3, .drain)]⟩ : Switch).at 3 = .drain ∧
      ((⟨none, [(1, 0)], false, [(3, .drain)]⟩ : Switch).outgoing.all (fun x => match (switching none [(1, 0)] .drain [job1]).job? x.1 with
        | some j => (j.onDie 3).all fun c => ((switching none [(1, 0)] .drain [job1]).core c).sq.job != j.id ||
            ((switching none [(1, 0)] .drain [job1]).core c).atRest
        | none => true)) = true) ∧
    ((switching none [(1, 0)] .save [job1]).switchOf 1 = some ⟨none, [(1, 0)], false, [(3, .save)]⟩ ∧
      (⟨none, [(1, 0)], false, [(3, .save)]⟩ : Switch).at 3 = .save) ∧
    ((switching (some 2) [] .save [waiting2]).switchOf 2 = some ⟨some 2, [], false, [(3, .save)]⟩ ∧
      (⟨some 2, [], false, [(3, .save)]⟩ : Switch).at 3 = .save ∧ (some 2).bind (switching (some 2) [] .save [waiting2]).job? = some waiting2 ∧
      waiting2.clusterSram = false) ∧
    ((switching (some 2) [] .ready [onDie0]).switchOf 2 = some ⟨some 2, [], false, [(3, .ready)]⟩ ∧
      (switching (some 2) [] .ready [onDie0]).job? 2 = some onDie0 ∧ onDie0.onDie 3 = []) ∧
    ((switching (some 2) [] .ready [waiting2]).switchOf 2 = some ⟨some 2, [], false, [(3, .ready)]⟩ ∧ waiting2.onDie 3 = [255] ∧
      waiting2.fault = none ∧ (switching (some 2) [] .ready [waiting2]).job? 2 = some waiting2) ∧
    (1 : Nat) < 2 ∧ (255 : Nat) < 256 := by decide +kernel

/-- Ledger 3 has its former here; sequence 1 has a record in a state and of a ledger, with 64 positions present. -/
def kv (st lg : Nat) : State :=
  (put queues [(Reg.SEQ_KVREC.base, 0x10000000, 0), (Reg.SEQ_KVLEDGER.en, 1, 3), (Reg.SEQ_KVLEDGER.former, 5, 3), (Reg.SEQ_KVLEDGER.en, 1, 2),
    (Reg.SEQ_KVLEDGER.former, 5, 2)]).t1Put 128 ([BitVec.ofNat 8 st, 0, BitVec.ofNat 8 lg, 0] ++ toBytes 4 64 ++ toBytes 4 64)

/-- A command entry on sequence 1 (a FORK makes sequence 2 from 1), with a length of 64 and a history in T1. -/
def kvEntry (op : Nat) : List Byte :=
  [BitVec.ofNat 8 op, 0] ++ toBytes 2 (if op = 0x40 then 2 else 1) ++ toBytes 4 9 ++ toBytes 8 (if op = 0x40 then 1 else 0) ++ toBytes 4 0 ++
    toBytes 4 64 ++ toBytes 8 0x10000020000 ++ List.replicate 32 0

theorem onSequence_of {s : State} {q : Nat} {cmd : Command}
    (h : (decide (firstNonzero cmd.raw ([1, 0xB, 0x11] ++ span 0x20 0x40) = none) && (s.kvState cmd.seq != 0 && s.servedBy q (s.kvLedger cmd.seq))) = true) :
    s.OnSequence q cmd := by
  rw [Bool.and_eq_true, Bool.and_eq_true, decide_eq_true_eq, bne_iff_ne] at h
  exact h

/-- The state once queue 9 has taken the entry. -/
def kvTaken (st lg op : Nat) : State := ((kv st lg).take 9 ((kv st lg).headEntry 9 (kvEntry op))).2

theorem kv_commands (op : Nat) (h : op ∈ [0x40, 0x41, 0x42, 0x43, 0x44]) (st lg : Nat) (h2 : (st, lg) ∈ [(1, 3), (2, 3), (0, 3), (1, 2)]) :
    (kv st lg).Commands 9 (kvEntry op) op ((kv st lg).headEntry 9 (kvEntry op)) := by
  have h3 : (([0x40, 0x41, 0x42, 0x43, 0x44] : List Nat).all fun op => ([(1, 3), (2, 3), (0, 3), (1, 2)] : List (Nat × Nat)).all fun x =>
      commands (kv x.1 x.2) 9 (kvEntry op) op) = true := by decide +kernel
  exact commands_of (List.all_eq_true.mp (List.all_eq_true.mp h3 op h) (st, lg) h2)

theorem witness_KvCommands :
    ((kv 1 3).Commands 9 (kvEntry 0x40) 0x40 ((kv 1 3).headEntry 9 (kvEntry 0x40)) ∧
      firstNonzero ((kv 1 3).headEntry 9 (kvEntry 0x40)).raw ([1, 0xB, 0x11] ++ span 0x20 0x40) = none ∧
      numAt ((kv 1 3).headEntry 9 (kvEntry 0x40)).raw 0xA 1 < 8 ∧ numAt ((kv 1 3).headEntry 9 (kvEntry 0x40)).raw 8 2 = 1 ∧
      inT1T3 ((kv 1 3).headEntry 9 (kvEntry 0x40)).hist (4 * 64) = true ∧ ((kv 1 3).headEntry 9 (kvEntry 0x40)).len = 64 ∧
      (kvTaken 1 3 0x40).kvState 1 = 1 ∧ (kvTaken 1 3 0x40).servedBy 9 ((kvTaken 1 3 0x40).kvLedger 1) = true ∧
      (kvTaken 1 3 0x40).kvState ((kv 1 3).headEntry 9 (kvEntry 0x40)).seq = 0 ∧ 64 ≤ (kvTaken 1 3 0x40).kvValid 1) ∧
    (∀ op ∈ [0x41, 0x42, 0x43, 0x44], ∀ x ∈ [(1, 3), (2, 3)], (kv x.1 x.2).Commands 9 (kvEntry op) op ((kv x.1 x.2).headEntry 9 (kvEntry op))) ∧
    ((kvTaken 1 3 0x41).OnSequence 9 ((kv 1 3).headEntry 9 (kvEntry 0x41)) ∧ ((kv 1 3).headEntry 9 (kvEntry 0x41)).len = 64 ∧
      (kvTaken 1 3 0x42).OnSequence 9 ((kv 1 3).headEntry 9 (kvEntry 0x42)) ∧ (kvTaken 2 3 0x42).OnSequence 9 ((kv 2 3).headEntry 9 (kvEntry 0x42)) ∧
      (kvTaken 1 3 0x43).OnSequence 9 ((kv 1 3).headEntry 9 (kvEntry 0x43)) ∧ (kvTaken 1 3 0x44).OnSequence 9 ((kv 1 3).headEntry 9 (kvEntry 0x44))) ∧
    ((kvTaken 1 3 0x42).kvState 1 ≠ 2 ∧ (kvTaken 2 3 0x42).kvState 1 = 2 ∧ ((kvTaken 1 3 0x44).seq? 1).isNone = true ∧ (kv 1 3).kvPinned 1 = false ∧
      (((kv 1 3).t1Put 129 [8]).kvPinned 1 = true)) ∧
    (∀ op ∈ [0x42, 0x43, 0x44], ∀ x ∈ [(0, 3), (1, 2)], (kv x.1 x.2).Commands 9 (kvEntry op) op ((kv x.1 x.2).headEntry 9 (kvEntry op))) ∧
    ((kvTaken 0 3 0x43).kvState 1 = 0 ∧ (kvTaken 1 2 0x43).kvState 1 ≠ 0 ∧ (kvTaken 1 2 0x43).servedBy 9 ((kvTaken 1 2 0x43).kvLedger 1) = false) := by
  refine ⟨⟨kv_commands _ (by decide) _ _ (by decide), by decide +kernel⟩, fun op h x hx => kv_commands op (by simp at h ⊢; omega) x.1 x.2 ?_,
    ⟨onSequence_of (by decide +kernel), by decide +kernel, onSequence_of (by decide +kernel), onSequence_of (by decide +kernel),
      onSequence_of (by decide +kernel), onSequence_of (by decide +kernel)⟩, by decide +kernel,
    fun op h x hx => kv_commands op (by simp at h ⊢; omega) x.1 x.2 ?_, by decide +kernel⟩
  · revert x; decide
  · revert x; decide

/-- A record number 7 of ledger 3, at a member that expects number `n`. -/
def member (n : Nat) : State := put up [(Reg.SEQ_KVLEDGER.en, 1, 3), (Reg.SEQ_KVLEDGER.former, 6, 3), (Reg.SEQ_KVSTAT.record, n, 3)]
/-- Record 7 of ledger 3 with the check value of `member`. -/
def record7 : LedgerRecord := ⟨3, 7, (member 0).ledgerCrc 3, 0, 0, 0, 0, 0, []⟩

theorem witness_LedgerRecords :
    ((member 7).Fresh head1 seen1 ∧ (member 7).ledgerOn 3 = true) ∧
    ((member 7).isFormer 3 = false ∧ (member 7).refuses { record7 with cause := 5 } = true ∧ (kv 1 3).isFormer 3 = true ∧
      (member 7).refuses record7 = false) ∧
    ((member 8).isFormer 3 = false ∧ (member 8).refuses record7 = false ∧ laterBy 32 7 ((member 8).fld Reg.SEQ_KVSTAT.record 3) = false ∧
      (7 : Nat) ≠ (member 8).fld Reg.SEQ_KVSTAT.record 3) ∧
    ((member 6).isFormer 3 = false ∧ (member 6).refuses record7 = false ∧ laterBy 32 7 ((member 6).fld Reg.SEQ_KVSTAT.record 3) = true) ∧
    ((member 7).isFormer 3 = false ∧ (member 7).refuses record7 = false ∧ record7.record = (member 7).fld Reg.SEQ_KVSTAT.record 3) ∧
    (∃ x ∈ ({ up with lastRecordAt := [(15, 9)] } : State).lastRecordAt, x.1 = 15) ∧
    (({ kv 1 3 with restoring := [⟨3, 1, [7, 8], [0, 1], [], none⟩] } : State).restoring.find? fun r => r.handle == 1) = some ⟨3, 1, [7, 8], [0, 1], [], none⟩ ∧
    (∃ r ∈ ({ kv 1 3 with restoring := [⟨3, 1, [7, 8], [0, 1], [], none⟩] } : State).restoring, r.handle = 1 ∧ 8 ∈ r.records ∧ 1 ∈ r.positions) ∧
    ((kv 1 3).Fresh head1 seen1 ∧ (kv 1 3).isFormer 3 = true ∧ rings.Fresh head1 seen1 ∧ rings.flag Reg.NVS_STATUS.ready = true) :=
  ⟨⟨fresh_of (by decide +kernel), by decide +kernel⟩, by decide +kernel, by decide +kernel, by decide +kernel, by decide +kernel, ⟨(15, 9), by simp, rfl⟩,
    by decide +kernel, ⟨_, List.mem_singleton.mpr rfl, by decide⟩, fresh_of (by decide +kernel), by decide +kernel, fresh_of (by decide +kernel), by decide +kernel⟩
/-! ### Conditions met: serving and exchange -/

/-- Batch 7 of ledger 3: one plain row of sequence 1 with one token. -/
def batch7 : Batch := ⟨3, 7, 1, 1, 0, 0, 0, [⟨1, 0, 1, 0, 1, 0xFF, 0, 0, 0, 0, 0, 0, [9]⟩]⟩

/-- Core 255 with a word to issue: job 1 serves ledger 3 with a vocabulary of 512, this module is in the sampler group, and batch 7 is
applied. At A1 stands a SELOGIT block: a slice of 512 logits at A2. -/
def serves (k : Core) : State :=
  { (put (withCore k) [(Reg.SEQ_SERVE.job, 1, 3), (Reg.SEQ_SERVE.vocab, 512, 3), (Reg.SEQ_SERVE.sgrp, 65535, 3), (Reg.FAB_GRP.member, 1, 65535),
      (Reg.SEQ_KVLEDGER.en, 1, 3), (Reg.SEQ_KVLEDGER.former, 5, 3), (Reg.SEQ_SERVE.en, 1, 3), (Reg.SEQ_SERVE.depth, 2, 3)]).scratchPut 255 0x10000
    (toBytes 4 7 ++ toBytes 4 0 ++ toBytes 4 0 ++ toBytes 4 512 ++ toBytes 4 0x20000 ++ toBytes 4 0) with
      serving := [(3, { Serving.empty with applied := [batch7] })] }

/-- An engine word with its block at A1 and a count of C2 = 1. -/
def blockWord (op sub : Nat) : Nat := word op [(sub, 96), (1, 92), (2, 88)]

theorem serves_issues (op sub : Nat) (h : (op, sub) ∈ [(0x90, 0), (0x90, 1), (0x91, 0), (0x92, 0), (0x93, 0), (0x93, 1), (0x94, 0)]) :
    (serves (core1 (blockWord op sub))).Issues 255 (blockWord op sub) mBlock := by
  have h2 : ([(0x90, 0), (0x90, 1), (0x91, 0), (0x92, 0), (0x93, 0), (0x93, 1), (0x94, 0)] : List (Nat × Nat)).all (fun x =>
      issues (serves (core1 (blockWord x.1 x.2))) 255 (blockWord x.1 x.2) mBlock) = true := by decide +kernel
  exact issues_of (List.all_eq_true.mp h2 (op, sub) h)

/-- XDISP or XRET with its block at A4. -/
def xWord (op : Nat) : Nat := word op [(4, 92), (2, 88)]
/-- A core that issues it: context 15, with a return area in T1 for XDISP. -/
def xIssue (op : Nat) : State :=
  (serves (core1 (xWord op))).scratchPut 255 0x60000 (toBytes 8 15 ++ toBytes 8 0 ++ toBytes 8 (if op = 0x80 then 0x10000000000 else 0))

theorem witness_EngineInstructions :
    (∀ x ∈ [(0x90, 0, 64, 128), (0x90, 1, 0, 48), (0x91, 0, 0, 16), (0x92, 0, 0, 16)], (serves (core1 (blockWord x.1 x.2.1))).Issues 255
      (blockWord x.1 x.2.1) mBlock ∧ (0x10000 : Nat) % 256 = 0 ∧ 0x10000 + (x.2.2.1 + x.2.2.2 * 1) ≤ scratchSize) ∧
    (serves (core1 (blockWord 0x90 1))).addr 255 1 = 0x10000 ∧ (serves (core1 (blockWord 0x90 1))).cnt 255 2 = 1 ∧
    (serves (core1 (blockWord 0x90 1))).ledgerOf 255 = some 3 ∧ (serves (core1 (blockWord 0x90 1))).inSampler 3 = true ∧
    (∀ f ∈ [0, 1], (serves (core1 (blockWord 0x93 f))).Issues 255 (blockWord 0x93 f) mBlock ∧
      (serves (core1 (blockWord 0x93 f))).badLogits 255 f 0x10000 1 = false ∧
      ∀ r ∈ (serves (core1 (blockWord 0x93 f))).logitRanges 255 0x10000 1, r.1 + r.2 ≤ scratchSize ∧ r.1 < scratchSize) ∧
    ((xIssue 0x80).Issues 255 (xWord 0x80) mBlock ∧ (xIssue 0x80).addr 255 (Psi.d (xWord 0x80)) = 0x60000 ∧
      (xIssue 0x80).badDispatch 255 0x60000 1 = false ∧
      ∀ r ∈ (xIssue 0x80).dispatchRows 255 0x60000 1, r.1 + r.2 ≤ scratchSize ∧ r.1 < scratchSize) ∧
    ((xIssue 0x81).Issues 255 (xWord 0x81) mBlock ∧ (xIssue 0x81).badReturn 255 0x60000 1 = false ∧
      ∀ r ∈ (xIssue 0x81).returnRows 255 0x60000 1, r.1 + r.2 ≤ scratchSize ∧ r.1 < scratchSize) ∧
    (serves (core1 (word 0x94 []))).Issues 255 (word 0x94 []) mBlock := by
  refine ⟨fun x hx => ⟨serves_issues _ _ ?_, by decide, ?_⟩, by decide +kernel, by decide +kernel, by decide +kernel, by decide +kernel,
    fun f hf => ⟨serves_issues _ _ ?_, ?_⟩, ⟨issues_of (by decide +kernel), by decide +kernel⟩, ⟨issues_of (by decide +kernel), by decide +kernel⟩,
    issues_of (by decide +kernel)⟩
  · revert x; decide
  · revert x; decide
  · revert f; decide
  · revert f; decide +kernel

/-- An engine instruction of core 255 with its block at 0x30000. -/
def engineOp (op func n : Nat) : EngineOp := ⟨0, op, func, 0x30000, n, some 31⟩

/-- Exchange context 15 of job 1, open, with a block of one source at 0x30000 whose return area lies in T1. -/
def exchanging (op : Nat) : State :=
  (put (serves { core1 0 with engine := [engineOp op 0 0] }) [(Reg.XE_XCFG.en, 1, 15), (Reg.XE_XCFG.job, 1, 15), (Reg.XE_XCFG.nsrc, 1, 15),
    (Reg.XE_XCFG.nbuf, 1, 15), (Reg.XE_XCFG.done_phase, 0xFFFFFFFF, 15)]).scratchPut 255 0x30000
      (toBytes 8 15 ++ toBytes 8 0 ++ toBytes 8 (if op = 0x80 then 0x10000000000 else 0))

/-- Core 255 with an SE instruction, and the result of the row of its batch. -/
def ending (o : EngineOp) : State :=
  { serves { core1 0 with engine := [o] } with
      serving := [(3, { Serving.empty with applied := [batch7], samples := [⟨7, 0, 0, 0, [], [], some (some 5)⟩] })] }

/-- SEITER of a descriptor and of results, SEPAGE, SEKV, SELOGIT and SEDONE; an entry that is refused; XDISP and XRET of an open context, and
of a closed one. -/
theorem witness_EngineCompletions :
    (∀ o ∈ [engineOp 0x90 0 1, engineOp 0x90 1 1, engineOp 0x91 0 1, engineOp 0x92 0 1, engineOp 0x93 0 1, engineOp 0x94 0 0],
      ((ending o).core 255).engine.find? (fun o => decide (0x90 ≤ o.op)) = some o ∧ (ending o).seRuns = true) ∧
    (∀ o ∈ [engineOp 0x90 0 1, engineOp 0x90 1 1, engineOp 0x94 0 0], ((ending o).chargeBeats []).ledgerOf 255 = some 3 ∧
      ((ending o).chargeBeats []).coreBatch 255 3 = some batch7 ∧ ((ending o).chargeBeats []).resultsReady 3 batch7 = true) ∧
    ((serves (core1 0)).pageRequest 255 (engineOp 0x91 0 1).blk).isNone = true ∧
    (∀ op ∈ [0x80, 0x81], ((exchanging op).core 255).engine.find? (fun o => decide (o.op < 0x90)) = some (engineOp op 0 0) ∧
      (exchanging op).seRuns = true ∧ ((exchanging op).chargeBeats []).blockNum 255 0x30000 0 1 = 15 ∧
      ((exchanging op).chargeBeats []).xeRefuses 255 15 0 = false ∧
      ((exchanging op).chargeBeats []).blockNum 255 0x30000 2 2 < ((exchanging op).chargeBeats []).fld Reg.XE_XCFG.nsrc 15 ∧
      ((((exchanging op).chargeBeats []).ctx 15).at 0).sources = [] ∧ ((((exchanging op).chargeBeats []).ctx 15).at 0).closed = []) ∧
    ((serves { core1 0 with engine := [engineOp 0x80 0 0] }).chargeBeats []).xeRefuses 255 0 0 = true := by decide +kernel

/-- Queue 9 with a stream queue 41 of 16 entries, for ledger 3 with a vocabulary of 512. -/
def streams (st lg : Nat) (room : Bool) : State :=
  put (kv st lg) [(Reg.SEQ_QCFG.log2n, 4, 41), (Reg.SEQ_QCFG.kind, 3, 41), (Reg.SEQ_QCFG.slice, 3, 41), (Reg.SEQ_QCFG.en, 1, 41),
    (Reg.SEQ_QCFG.tail, if room then 0 else 2 ^ 16, 41), (Reg.SEQ_SERVE.vocab, 512, 3)]

/-- An ADMIT of sequence 2 on ledger 3, forked from sequence `src` with a length of 1. -/
def admitEntry (src : Nat) : List Byte :=
  [2, 0] ++ toBytes 2 2 ++ toBytes 4 9 ++ toBytes 8 0x800000100000 ++ [3, 0] ++ toBytes 2 src ++ toBytes 4 1 ++ toBytes 40 0

/-- A parameter block: stream 41, a prompt of 4 tokens in T3, at most 8, temperature 0, top-p 1. -/
def params : List Byte :=
  toBytes 4 41 ++ toBytes 4 4 ++ toBytes 8 0x800000200000 ++ toBytes 4 8 ++ toBytes 16 0 ++ toBytes 4 0x3F800000 ++ toBytes 472 0

/-- A CANCEL of sequence 1. -/
def cancelEntry : List Byte := [3, 0] ++ toBytes 2 1 ++ toBytes 4 9 ++ toBytes 56 0

/-- Sequence 1 as admitted to ledger 3. -/
def seqState1 : SeqState :=
  ⟨3, 41, none, false, false, 4, 8, 0, 0, 0, 0, 0, 0, [], [], 0, [], [], none, none, false, 0, 0, 0, 0, 0, 0, 0, 0⟩

/-- The state once queue 9 has taken an entry. -/
def after (s : State) (e : List Byte) : State := (s.take 9 (s.headEntry 9 e)).2

/-- Sequence 1 in a batch in flight, with what a CANCEL before has left. -/
def inBatch (c : Option Taken) : State := { (kv 1 3).t1Put 129 [8] with seqs := [(1, { seqState1 with cancel := c })] }

theorem witness_AdmissionAndCancel :
    ((streams 1 3 true).Commands 9 (admitEntry 0xFFFF) 2 ((streams 1 3 true).headEntry 9 (admitEntry 0xFFFF)) ∧
      (streams 1 3 true).Commands 9 (admitEntry 1) 2 ((streams 1 3 true).headEntry 9 (admitEntry 1)) ∧
      (streams 1 3 false).Commands 9 (admitEntry 0xFFFF) 2 ((streams 1 3 false).headEntry 9 (admitEntry 0xFFFF))) ∧
    (admitIllegal ((streams 1 3 true).headEntry 9 (admitEntry 1)) = none ∧ ((after (streams 1 3 true) (admitEntry 1)).servedBy 9 3) = true ∧
      (after (streams 1 3 true) (admitEntry 1)).areaGet 0x800000100000 512 params = params ∧
      (after (streams 1 3 true) (admitEntry 1)).paramIllegal params 3 9 = none ∧
      (after (streams 1 3 false) (admitEntry 1)).paramIllegal params 3 9 = none ∧
      (after (streams 1 3 true) (admitEntry 1)).paramIllegal (toBytes 512 0) 3 9 = some 0 ∧
      (after (streams 1 3 true) (admitEntry 1)).kvState 2 = 0 ∧ (after (streams 1 3 true) (admitEntry 1)).kvState 1 = 1 ∧
      (after (streams 1 3 true) (admitEntry 1)).kvLedger 1 = 3 ∧ 1 ≤ min ((after (streams 1 3 true) (admitEntry 1)).kvValid 1) (4 - 1) ∧
      (after (streams 1 3 true) (admitEntry 1)).streamFree 41 ≠ 0 ∧ (after (streams 1 3 false) (admitEntry 1)).streamFree 41 = 0) ∧
    ((kv 1 3).Commands 9 cancelEntry 3 ((kv 1 3).headEntry 9 cancelEntry) ∧
      firstNonzero ((kv 1 3).headEntry 9 cancelEntry).raw ([1, 0x11] ++ span 0x20 0x40) = none ∧ ((after (kv 1 3) cancelEntry).seq? 1).isNone = true ∧
      (after { kv 1 3 with seqs := [(1, seqState1)] } cancelEntry).seq? 1 = some seqState1 ∧
      (after { kv 1 3 with seqs := [(1, seqState1)] } cancelEntry).servedBy 9 3 = true ∧ (after (kv 1 3) cancelEntry).kvPinned 1 = false ∧
      (after { kv 1 3 with seqs := [(1, seqState1)] } cancelEntry).kvPinned 1 = false ∧
      (after (inBatch none) cancelEntry).kvPinned 1 = true ∧ ((after (inBatch none) cancelEntry).seq? 1).map (·.cancel) = some none ∧
      (after (inBatch none) cancelEntry).servedBy 9 3 = true ∧ (after (inBatch (some ⟨0, 3, 0, 0, 0⟩)) cancelEntry).kvPinned 1 = true ∧
      (after (inBatch (some ⟨0, 3, 0, 0, 0⟩)) cancelEntry).servedBy 9 3 = true ∧
      (((after (inBatch (some ⟨0, 3, 0, 0, 0⟩)) cancelEntry).seq? 1).bind (·.cancel)).isSome = true) ∧
    ((inBatch none).Commands 9 cancelEntry 3 ((inBatch none).headEntry 9 cancelEntry) ∧
      (inBatch (some ⟨0, 3, 0, 0, 0⟩)).Commands 9 cancelEntry 3 ((inBatch (some ⟨0, 3, 0, 0, 0⟩)).headEntry 9 cancelEntry)) ∧
    ((after { kv 1 2 with seqs := [(1, { seqState1 with ledger := 2 })] } cancelEntry).servedBy 9 2 = false ∧
      (after (kv 1 2) cancelEntry).kvState 1 ≠ 0 ∧ (after (kv 1 2) cancelEntry).servedBy 9 ((after (kv 1 2) cancelEntry).kvLedger 1) = false) ∧
    (up.takes (0x470100 + 64 * 15) ∧ up.flag Reg.SEQ_SERVE.en 15 = false ∧ bit 0x80000001 31 = true) :=
  ⟨⟨commands_of (by decide +kernel), commands_of (by decide +kernel), commands_of (by decide +kernel)⟩, by decide +kernel,
    ⟨commands_of (by decide +kernel), by decide +kernel⟩, ⟨commands_of (by decide +kernel), commands_of (by decide +kernel)⟩,
    by decide +kernel, takes_of (by decide +kernel), by decide +kernel⟩

/-- A member that waits for batch `n` of ledger 3. -/
def follows (n : Nat) : State := put (member 0) [(Reg.SEQ_SERVE.en, 1, 3), (Reg.SEQ_SERVE.next_batch, n, 3)]

/-- A partial of a slice of 512. -/
def part512 : Partial := ⟨[(0, 512)], false, 0, 0, 0, 0, []⟩

/-- Batch 7 applied, with a partial of the whole vocabulary for its row. -/
def sampled7 : Serving :=
  { Serving.empty with applied := [batch7], samples := [⟨7, 0, 0, 0, [], [(9, part512)], none⟩] }

/-- Half 0 of the partial of endpoint 131,071 is here. -/
def half7 : Serving := { Serving.empty with applied := [batch7], halves := [(7, 0, 131071, 0, part512)] }

theorem witness_Batches :
    ((serves (core1 0)).seRuns = true ∧ (serves (core1 0)).isFormer 3 = true ∧ (serves (core1 0)).flag Reg.SEQ_SERVE.en 3 = true ∧
      ((serves (core1 0)).srv 3).lastFormed = none ∧ (serves (core1 0)).fld Reg.SEQ_SERVE.inflight 3 < (serves (core1 0)).fld Reg.SEQ_SERVE.depth 3) ∧
    ((follows 7).Fresh head1 seen1 ∧ (follows 7).ledgerOn 3 = true ∧ (follows 7).flag Reg.SEQ_SERVE.en 3 = true ∧ (follows 7).isFormer 3 = false) ∧
    (((follows 7).srv batch7.ledger).early = [] ∧ batch7.number = (follows 7).fld Reg.SEQ_SERVE.next_batch batch7.ledger ∧
      (follows 7).recordsApplied batch7 = false ∧
      ({ follows 7 with serving := [(3, { Serving.empty with formed := [(1, 7)] })] } : State).recordsApplied batch7 = true ∧
      batch7.number ≠ (follows 6).fld Reg.SEQ_SERVE.next_batch 3 ∧ laterBy 32 7 ((follows 6).fld Reg.SEQ_SERVE.next_batch 3) = true ∧
      laterBy 32 7 ((follows 8).fld Reg.SEQ_SERVE.next_batch 3) = false ∧ batch7.number ≠ (follows 8).fld Reg.SEQ_SERVE.next_batch 3) ∧
    ((serves (core1 0)).Fresh head1 seen1 ∧ (serves (core1 0)).ledgerOn 3 = true ∧ (serves (core1 0)).inSampler 3 = true ∧
      batch7 ∈ ((serves (core1 0)).srv 3).applied ∧
      ((serves (core1 0)).srv 3).halves.find? (fun x => x.1 == 7 && x.2.1 == 0 && x.2.2.1 == head1.source) = none ∧
      (({ serves (core1 0) with serving := [(3, half7)] } : State).srv 3).halves.find? (fun x => x.1 == 7 && x.2.1 == 0 && x.2.2.1 == head1.source) =
        some (7, 0, 131071, 0, part512)) ∧
    (∃ s : State, ((s.srv 3).applied.find? fun b => b.number == 7) = some batch7 ∧ s.seRuns = true ∧ (s.sample 3 7 0 0 0).token = none ∧
      s.sampleFull 3 (s.sample 3 7 0 0 0) = true) ∧
    ((itemsHeld ([] : List (Nat × Nat)) 0 1).length < 1 ∧ ¬ ((itemsHeld ([] : List (Nat × Nat)) 0 0).length < 0)) ∧
    ([9, 8, 7][acceptRun [9, 8, 7] [9, 8, 6]]? = some 7 ∧ [9, 8, 6][acceptRun [9, 8, 7] [9, 8, 6]]? = some 6) :=
  ⟨by decide +kernel, ⟨fresh_of (by decide +kernel), by decide +kernel⟩, by decide +kernel, ⟨fresh_of (by decide +kernel), by decide +kernel⟩,
    ⟨{ serves (core1 0) with serving := [(3, sampled7)] }, by decide +kernel⟩, by decide +kernel⟩

/-- Context 15 with a phase 0 whose dispatch half runs and has an event, and a local expert 15. -/
def phased : State :=
  (put up [(Reg.XE_XCFG.en, 1, 15), (Reg.XE_XCFG.epoch, 2, 15), (Reg.XE_LEXP.en, 1, 255)]).setCtx 15
    { XeContext.empty with phases := [{ XePhase.fresh 0 with dispatchEvent := some 1, returnEvent := some 2 }] }

theorem witness_ExchangeContexts :
    (up.takes (0xC00000 + 64 * 15) ∧ up.flag Reg.XE_XCFG.en 15 = false ∧ bit 0x80000001 31 = true ∧
      up.fld Reg.XE_XCFG.nsrc 15 * up.fld Reg.XE_XCFG.cap_src 15 ≤ 65536 ∧ (up.ctx 15).closedAt = none ∧
      65536 < (put up [(Reg.XE_XCFG.nsrc, 256, 15), (Reg.XE_XCFG.cap_src, 257, 15)]).fld Reg.XE_XCFG.nsrc 15 *
        (put up [(Reg.XE_XCFG.nsrc, 256, 15), (Reg.XE_XCFG.cap_src, 257, 15)]).fld Reg.XE_XCFG.cap_src 15) ∧
    (phased.takes (0xC00000 + 64 * 15) ∧ phased.flag Reg.XE_XCFG.en 15 = true) ∧
    (phased.Fresh head1 seen1 ∧ phased.hosts 15 15 = true ∧ phased.staleArrival 15 1 0 = true ∧ phased.staleArrival 15 2 0 = false) ∧
    ((phased.ctx 15).phases.find? fun y => y.phase == 0) = some { XePhase.fresh 0 with dispatchEvent := some 1, returnEvent := some 2 } ∧
    ((!({ XePhase.fresh 0 with dispatchEvent := some 1, returnEvent := some 2 } : XePhase).dispatched && (some 1 : Option Nat).isSome) = true) :=
  ⟨⟨takes_of (by decide +kernel), by decide +kernel⟩, ⟨takes_of (by decide +kernel), by decide +kernel⟩,
    ⟨fresh_of (by decide +kernel), by decide +kernel⟩, by decide +kernel, by decide +kernel⟩

/-- RELEASE of a sequence that is served and not held, and of a hold sequence. -/
theorem witness_KvRelease : ∀ h ∈ [false, true],
    (after { kv 1 3 with seqs := [(1, { seqState1 with hold := h })] } (kvEntry 0x44)).seq? 1 = some { seqState1 with hold := h } := by
  decide +kernel

theorem witness_ExchangeRouting :
    (2 : Nat) ≤ 3 ∧ ∀ e ∈ routeToken 1 2 3 3 2, e < 3 := by decide +kernel
/-! ### Conditions met: the fabric -/

/-- A fabric instruction on d = A1, a = A0, b = C0 = 0, [83:80] = C0 and n = C2 = 1. -/
def fabWord (op var : Nat) : Nat := word op [(var, 96), (1, 92), (2, 76)]

/-- A fabric instruction on core 255, with a message credit for endpoint 0 and a message that waits for the core. -/
def fab (w : Nat) : State :=
  { put (withCore (core1 w)) [(Reg.FAB_MCRED.job, 1, 2040), (Reg.FAB_MCRED.credits, 255, 2040), (Reg.FAB_RGN.kind, 1, 255), (Reg.FAB_RGN.job, 1, 255),
      (Reg.FAB_RGN.core, 255, 255)] with queuesIn := [(255, ⟨1, [⟨0, 9, 4, 1, 0, 7⟩]⟩)] }

/-- The first twelve rows: opcode, variant, variants of the opcode, and form. -/
def fabRows : List (Nat × Nat × Nat × FabForm) :=
  [(0x70, 0, 1, { ptype := 1, most := 4096 }), (0x71, 0, 1, { ptype := 2, most := 4096 }), (0x72, 0, 2, { ptype := 3, var := 0, fixed := 16 }),
    (0x72, 1, 2, { ptype := 3, var := 1, fixed := 24 }), (0x73, 0, 5, { ptype := 4, var := 0, most := 4096 }),
    (0x73, 1, 5, { ptype := 4, var := 1, most := 4096 }), (0x73, 2, 5, { ptype := 4, var := 2, most := 4096 }),
    (0x73, 3, 5, { ptype := 4, var := 3, most := 4096 }), (0x73, 4, 5, { ptype := 4, var := 4, most := 4096 }),
    (0x74, 0, 1, { ptype := 5, most := 4096, group := true }), (0x75, 0, 1, { ptype := 2, most := 65536 }),
    (0x76, 0, 1, { ptype := 1, most := 65536 })]

theorem witness_FabInstructions :
    (∀ x ∈ fabRows, (fab (fabWord x.1 x.2.1)).Issues 255 (fabWord x.1 x.2.1) (maskOf 95 76) ∧
      ∀ y ∈ ((fab (fabWord x.1 x.2.1)).fabPlan 255 x.2.2.1 x.2.2.2 (fabWord x.1 x.2.1)).checks, y.1 = false) ∧
    (∀ op ∈ [0x77, 0x78, 0x79], (fab (fabWord op 0)).Issues 255 (fabWord op 0) (maskOf 95 76)) ∧
    ((fab (fabWord 0x77 0)).creditEntry 255 1 0 0 = some 2040 ∧ (fab (fabWord 0x77 0)).fld Reg.FAB_MCRED.credits 2040 ≠ 0 ∧
      (fab (fabWord 0x77 0)).addr 255 1 % 64 = 0 ∧ (fab (fabWord 0x77 0)).cnt 255 2 = 1 ∧
      (fab (fabWord 0x77 0)).addr 255 1 + 320 ≤ scratchSize ∧ (fab (fabWord 0x78 0)).jobQueue 255 1 = some 255 ∧
      ((fab (fabWord 0x78 0)).queue 255).msgs = [⟨0, 9, 4, 1, 0, 7⟩]) ∧
    ((List.range 8).map (· + 8 * 255)).find? (fun i => (fab 0).fld Reg.FAB_MCRED.job i != 0xFFFF && (fab 0).fld Reg.FAB_MCRED.ep i == 0 &&
      (fab 0).fld Reg.FAB_MCRED.key i == 0) = some 2040 := by
  have h : fabRows.all (fun x => issues (fab (fabWord x.1 x.2.1)) 255 (fabWord x.1 x.2.1) (maskOf 95 76)) = true := by decide +kernel
  have h2 : ([0x77, 0x78, 0x79] : List Nat).all (fun op => issues (fab (fabWord op 0)) 255 (fabWord op 0) (maskOf 95 76)) = true := by decide +kernel
  refine ⟨fun x hx => ⟨issues_of (List.all_eq_true.mp h x hx), ?_⟩, fun op hop => issues_of (List.all_eq_true.mp h2 op hop), by decide +kernel,
    by decide +kernel⟩
  revert x
  decide +kernel

/-- A load that core 255 sent, whose response is still to come. -/
def load1 (acc : Bool) : Request :=
  ⟨⟨4, false, 1, 0, 1, 0, 0, 1, 0, 255, 3, 65535, none, false, false, [], 0⟩, 15, acc, 1, [], 0, false, .core 255 0, 0x10000, false⟩

/-- The module with that request in the tracker. -/
def asked (acc : Bool) : State := { up with tracker := [load1 acc] }

/-- The module with 1,024 requests toward endpoint 4 outstanding, and one held. -/
def full1 : State := { up with tracker := List.replicate 1024 (load1 false), heldRequests := [((load1 false).packet, .engine, 0)] }

theorem witness_FabResponses :
    ((asked false).flag Reg.FAB_EPID.valid = true ∧ (asked false).request? 65535 3 = some (load1 false) ∧ (load1 false).accepted = false ∧
      (asked false).heardLately (load1 false) = false) ∧
    ((asked true).request? 65535 3 = some (load1 true) ∧ (load1 true).accepted = true) ∧
    (((asked false).request? 65535 4).isNone = true ∧ (0x84 : Nat) ≠ 0x85) ∧
    ((load1 false).packet.group = false ∧ 1024 ≤ full1.outstanding 4) ∧
    (full1.heldRequests.find? fun x => x.1.dst == 4) = some ((load1 false).packet, .engine, 0) := by decide +kernel

/-- R403: with 1,024 requests outstanding toward endpoint 4 the next one is held, and nothing is sent. -/
theorem test_request_held :
    (full1.sendRequest (load1 false).packet .engine 64).heldRequests.length = 2 ∧
      (full1.sendRequest (load1 false).packet .engine 64).tracker.length = 1024 ∧
      ((full1.sendHeld 4).heldRequests.length = 0 ∧ (full1.sendHeld 4).tracker.length = 1025) := by decide +kernel

/-- The bulk rings are on, of 16 entries, with one descriptor waiting; endpoint 6 is in the domain. -/
def bulky : State :=
  put locked [(Reg.FAB_BQCFG.log2n, 4, 0), (Reg.FAB_BQCFG.en, 1, 0), (Reg.FAB_BQTAIL.index, 1, 0), (Reg.FAB_BCTAIL.index, 1, 0),
    (Reg.FAB_BQBASE.base, 0x800000000000, 0), (Reg.FAB_BCBASE.base, 0x800000010000, 0), (Reg.MEM_T3BASE.en, 1, 0),
    (Reg.FAB_DOMAIN.first, 0, 0), (Reg.FAB_DOMAIN.count, 8, 0)]

/-- A descriptor of 64 bytes at the start of T1, to or from endpoint 6. -/
def descriptor (op : Nat) : List Byte :=
  toBytes 4 op ++ toBytes 4 6 ++ toBytes 8 0x10000000000 ++ toBytes 8 0 ++ toBytes 4 64 ++ toBytes 4 1 ++ toBytes 32 0

theorem witness_BulkRings :
    (locked.takes 0x802100 ∧ locked.flag Reg.FAB_BQCFG.en = false ∧ bits 12 3 0 = 12 ∧ locked.flag Reg.MEM_LOCK.lock = true ∧ up.takes 0x802100 ∧
      up.flag Reg.FAB_BQCFG.en = false ∧ up.flag Reg.MEM_LOCK.lock = false) ∧
    (bulky.takes 0x802118 ∧ ringLegal 12 bulky.bqN (2 ^ 12) = true ∧
      ringDist bulky.bqN bulky.bqHead bulky.bqTail ≤ ringDist bulky.bqN bulky.bqHead (ringPos 12 bulky.bqN (2 ^ 12)) ∧
      ringDist bulky.bqN bulky.bqHead (ringPos 12 bulky.bqN (2 ^ 12)) ≤ bulky.bqN) ∧
    (bulky.takes 0x802124 ∧ ringLegal 12 bulky.bqN 1 = true ∧
      ringDist bulky.bqN bulky.bcHead (ringPos 12 bulky.bqN 1) ≤ ringDist bulky.bqN bulky.bcHead bulky.bcTail) ∧
    bulky.areaClosed (bulky.fld Reg.FAB_BQBASE.base + 64 * (bulky.bqHead % bulky.bqN)) 64 = false ∧
    (∀ op ∈ [1, 2], numAt (bulky.areaGet (bulky.fld Reg.FAB_BQBASE.base + 64 * (bulky.bqHead % bulky.bqN)) 64 (descriptor op)) 0 1 = op ∧
      (bulky.touchT1 (bulky.fld Reg.FAB_BQBASE.base + 64 * (bulky.bqHead % bulky.bqN)) 64).bulkIllegal
        (bulky.areaGet (bulky.fld Reg.FAB_BQBASE.base + 64 * (bulky.bqHead % bulky.bqN)) 64 (descriptor op)) = false ∧
      bulky.reaches 6 false (if op = 1 then 2 else 1) = true) ∧
    (bulky.flag Reg.FAB_BQCFG.en = true ∧ bulky.flag Reg.FAB_EPID.valid = true ∧ bulky.closing = false ∧ bulky.bqHead ≠ bulky.bqTail ∧
      bulky.bulks.length < 16 ∧ ringDist bulky.bqN bulky.bcHead bulky.bcTail < bulky.bqN) ∧
    (({ bulky with bulks := [⟨5, 1, 6, 0, 0, 64, 1, 0, 9, 0, 64, 0⟩] } : State).bulks.find? fun x => x.num == 5) =
      some ⟨5, 1, 6, 0, 0, 64, 1, 0, 9, 0, 64, 0⟩ :=
  ⟨⟨takes_of (by decide +kernel), by decide +kernel, by decide, by decide +kernel, takes_of (by decide +kernel), by decide +kernel⟩,
    ⟨takes_of (by decide +kernel), by decide +kernel⟩, ⟨takes_of (by decide +kernel), by decide +kernel⟩, by decide +kernel, by decide +kernel,
    by decide +kernel, by decide +kernel⟩

/-- Region 255 of 64 KiB at the start of T1 for job 1, open to endpoints 0 to 7 under key 3, and message region 254 under key 4. -/
def regions : State :=
  put bulky [(Reg.FAB_RGN.base, 0x10000000, 255), (Reg.FAB_RGN.length, 65536, 255), (Reg.FAB_RGN.job, 1, 255), (Reg.FAB_RGN.rights, 15, 255),
    (Reg.FAB_RGN.src_count, 8, 255), (Reg.FAB_RGN.key, 3, 255), (Reg.FAB_RGN.en, 1, 255),
    (Reg.FAB_RGN.base, 0x10000010, 254), (Reg.FAB_RGN.length, 65536, 254), (Reg.FAB_RGN.job, 1, 254), (Reg.FAB_RGN.rights, 15, 254),
    (Reg.FAB_RGN.kind, 1, 254), (Reg.FAB_RGN.depth, 1, 254), (Reg.FAB_RGN.src_count, 8, 254), (Reg.FAB_RGN.key, 4, 254), (Reg.FAB_RGN.en, 1, 254),
    (Reg.FAB_GRP.valid, 1, 65535), (Reg.FAB_GRP.member, 1, 65535)]

/-- A request of endpoint 6 for one line of a region. -/
def reqHead (key : Nat) : RequestHead := ⟨6, 0, 0, 1, key, 0, 1, 0, 9, 1⟩
/-- The window of its source after it. -/
def reqSeen : Seen := ⟨some 9, [9], []⟩

/-- The region that a request resolves to. -/
def okRegion (x : Except Nat Region) : Bool :=
  match x with
  | .ok _ => true
  | .error _ => false

/-- Region 255 as a request resolves it, and a store to it that waits for its bank. -/
def region1 : Region := ⟨255, 0, 65536, 1, 15, false, 0, 8, false, 2, 0⟩
/-- See `region1`. -/
def waiter : Ingress := ⟨2, reqHead 3, region1, [], false, false⟩

theorem witness_TargetRequests :
    (∀ x ∈ [(1, 3), (2, 3), (3, 3), (4, 3), (8, 4)], okRegion (regions.checkRequest x.1 (reqHead x.2)) = true) ∧
    (regions.closing = false ∧ regions.flag Reg.FAB_EPID.valid = true ∧ (regions.seenOf (requestKey (reqHead 3) 0)).take 9 = some reqSeen ∧
      regions.ingress.length < 2048) ∧
    (regions.flag Reg.FAB_GRP.valid 65535 = true ∧ regions.flag Reg.FAB_GRP.member 65535 = true ∧
      (regions.seenOf (requestKey (reqHead 3) 65536)).take 9 = some reqSeen ∧ okRegion (regions.checkRequest 5 (reqHead 3)) = true) ∧
    okRegion (regions.checkRequest 2 (reqHead 9)) = false ∧
    (State.mustWait [] 2 (reqHead 3) region1 = false ∧ State.mustWait [waiter] 2 (reqHead 3) region1 = true) ∧
    (({ regions with ingress := [waiter] } : State).waiting? 2 (reqHead 3) = some waiter ∧
      ([waiter].find? fun y => y.head == reqHead 3 && !y.accepted && !y.answered) = some waiter ∧
      ([waiter].find? fun y => y.head == reqHead 3 && !y.answered) = some waiter) := by decide +kernel

theorem witness_TargetEffects :
    regions.isPoisoned 0 (requestBytes 1 1) = false ∧ regions.isPoisoned 0 (requestBytes 3 1) = false ∧ requestBytes 3 1 = 8 ∧
      (64 : Nat) < 128 ∧ (5 : Nat) < 2 ^ 64 := by decide +kernel

/-- A state that has taken the event and the fault of a teardown of job 1. -/
def told (s : State) : State :=
  ((s.taken head1 seen1).raise Reg.FAB_OPEVT.teardown Reg.FAB_OPEVTMASK.mask).recordFault 0x0505 .module [1, 0, 1]

theorem job?_closed (s : State) (job j : Nat) : (s.closeJobFabric job).job? j = s.job? j := by
  have h1 : ∀ (s : State) i, (s.closeRegion job i).jobs = s.jobs := fun s i => by unfold State.closeRegion; split <;> rfl
  have h2 : ∀ (s : State) i, (s.closeCredit job i).jobs = s.jobs := fun s i => by unfold State.closeCredit; split <;> rfl
  have h : ∀ (f : State → Nat → State) (l : List Nat) s, (∀ s i, (f s i).jobs = s.jobs) → (l.foldl f s).jobs = s.jobs := fun f l s hf => by
    induction l generalizing s with
    | nil => rfl
    | cons x r ih => rw [List.foldl_cons, ih, hf]
  rw [State.job?, State.job?, State.closeJobFabric, h _ _ _ h2, h _ _ _ h1]

theorem witness_RegionsAndTeardown :
    ((regions.setFld Reg.FAB_RGN.en 0 255).takes (0x804014 + 32 * 255) ∧ (regions.setFld Reg.FAB_RGN.en 0 255).flag Reg.FAB_RGN.en 255 = false ∧
      (regions.setFld Reg.FAB_RGN.en 0 255).regionRejected 255 (2 ^ 31 + 0xF000001) = false ∧ up.takes (0x804014 + 32 * 255) ∧
      up.flag Reg.FAB_RGN.en 255 = false ∧ up.regionRejected 255 (2 ^ 31) = true) ∧
    (up.FreshControl head1 seen1 ∧ ((told up).closeJobFabric 1).job? 1 = none ∧ (withCore (core1 0)).FreshControl head1 seen1 ∧
      ((told (withCore (core1 0))).closeJobFabric 1).job? 1 = some job1 ∧ job1.fault = none) ∧
    (({ up with tearing := [⟨1, 6, 7, 2⟩] } : State).tearing.find? fun t => t.job == 1) = some ⟨1, 6, 7, 2⟩ :=
  ⟨⟨takes_of (by decide +kernel), by decide +kernel, by decide +kernel, takes_of (by decide +kernel), by decide +kernel⟩,
    ⟨freshControl_of (by decide +kernel), by rw [job?_closed]; decide +kernel, freshControl_of (by decide +kernel),
      by rw [job?_closed]; decide +kernel, by decide⟩, by decide +kernel⟩

/-- The module with port 15 in a state. -/
def ported (st : Nat) : State := up.setFld Reg.FAB_PORTSTAT.state st 15

theorem witness_PortStates :
    (∀ st ∈ [0, 1, 2, 3, 4], (ported st).fld Reg.FAB_PORTSTAT.state 15 = st) ∧ (ported 3).planeUp 15 = true ∧ (ported 1).planeUp 15 = false ∧
    (trainedState 0xFF).1 ≠ 0 ∧ (trainedState 0).1 = 0 ∧ (ported 4).takes (0x800180 + 4 * 15) :=
  ⟨by decide +kernel, by decide +kernel, by decide +kernel, by decide, by decide, takes_of (by decide +kernel)⟩

theorem length_toBytes : ∀ n v, (toBytes n v).length = n
  | 0, _ => rfl
  | n + 1, v => by rw [toBytes, List.length_cons, length_toBytes n]

theorem ofBytes_toBytes : ∀ n v, ofBytes (toBytes n v) = v % 256 ^ n
  | 0, v => by simp [toBytes, ofBytes, Nat.mod_one]
  | n + 1, v => by
    have h : v % 256 ^ (n + 1) = v % 256 + 256 * (v / 256 % 256 ^ n) := by rw [Nat.pow_succ', Nat.mod_mul]
    rw [h, toBytes, ofBytes, ofBytes_toBytes n, BitVec.toNat_ofNat]

/-- A flit of 132 bytes with its check value. -/
def checked (b : List Byte) : List Byte := b ++ toBytes 4 (crc32c b).toNat

theorem flitHeader_checked {b : List Byte} (h : b.length = 132) : flitHeader (checked b) = flitHeader b := by
  rw [flitHeader, checked, List.take_append_of_le_length (by omega), flitHeader]

theorem flitBad_checked {b : List Byte} (h : b.length = 132) (h1 : flitKind b ≠ 3) (h2 : flitChannel b ≤ 4) (h3 : bits (flitHeader b) 11 0 = 0) :
    flitBad (checked b) = false := by
  have h4 : (checked b).take 132 = b := by rw [checked, List.take_append_of_le_length (by omega), List.take_of_length_le (by omega)]
  have h5 : (checked b).drop 132 = toBytes 4 (crc32c b).toNat := by rw [checked, ← h, List.drop_left]
  have h6 : (checked b).length = 136 := by rw [checked, List.length_append, length_toBytes, h]
  have h7 : ofBytes (toBytes 4 (crc32c b).toNat) = (crc32c b).toNat := by
    rw [ofBytes_toBytes]
    exact Nat.mod_eq_of_lt (crc32c b).isLt
  rw [flitBad, h4, h5, h6, h7, flitKind, flitChannel, flitHeader_checked h, h3]
  rw [flitKind] at h1
  rw [flitChannel] at h2
  simp [h1]
  omega

/-- A flit of zeros under a link header, without its check value. -/
def flitOf (header : Nat) : List Byte := toBytes 4 header ++ List.replicate 128 0

/-- An up port; good flits of each kind, one out of order and one with nack; flits that fail their check; a link with an acknowledgement due; a
flit that holds no packet of a reserved type. -/
theorem witness_LinkFlits :
    ((1023 : Nat) < 1024 ∧ (List.replicate 128 (0 : Byte)).length % 16 = 0 ∧ (List.replicate 128 (0 : Byte)).length ≤ 128) ∧
    ((ported 3).planeUp 15 = true ∧ ((ported 3).link 15).rxNext = 0 ∧ ((ported 3).link 15).sinceAck < 63 ∧ (ported 3).ingress.length < 2048) ∧
    (∀ x ∈ [(0, 0, 0, false), (2 ^ 20, 0, 1, false), (2 ^ 30, 1, 0, false), (2 ^ 30 + 2 ^ 16, 1, 0, true), (2 ^ 31, 2, 0, false)],
      flitBad (checked (flitOf x.1)) = false ∧ flitKind (checked (flitOf x.1)) = x.2.1 ∧ flitSeq (checked (flitOf x.1)) = x.2.2.1 ∧
        flitNack (checked (flitOf x.1)) = x.2.2.2) ∧
    (flitBad [] = true ∧ flitKind [] = 0 ∧ flitBad (toBytes 4 (2 ^ 30)) = true ∧ flitKind (toBytes 4 (2 ^ 30)) = 1) ∧
    (0 : Nat) < ({ Link.up with sinceAck := 1 } : Link).sinceAck ∧
    (∀ p ∈ (Link.up.assemble (flitOf 0)).1, reservedPacket p = false) := by
  have h : ∀ k, (flitOf k).length = 132 := fun k => by rw [flitOf, List.length_append, length_toBytes, List.length_replicate]
  refine ⟨by decide +kernel, by decide +kernel, fun x hx => ⟨flitBad_checked (h x.1) ?_ ?_ ?_, ?_, ?_, ?_⟩, by decide +kernel, by decide,
    by decide +kernel⟩
  · revert x; decide
  · revert x; decide
  · revert x; decide
  · rw [flitKind, flitHeader_checked (h x.1)]; revert x; decide
  · rw [flitSeq, flitHeader_checked (h x.1)]; revert x; decide
  · rw [flitNack, flitHeader_checked (h x.1)]; revert x; decide

theorem witness_EndpointAndGroups :
    ((bulky.setFld Reg.FAB_EPID.valid 0).takes 0x800000 ∧ (bulky.setFld Reg.FAB_EPID.valid 0).flag Reg.FAB_EPID.valid = false ∧
      (put bulky [(Reg.FAB_EPID.valid, 0, 0), (Reg.FAB_REGION.count, 8, 0)]).badEndpoint (7 % 2 ^ 17) = false ∧
      (put bulky [(Reg.FAB_EPID.valid, 0, 0), (Reg.FAB_REGION.count, 8, 0)]).badEndpoint (8 % 2 ^ 17) = true) ∧
    (put bulky [(Reg.FAB_EPID.valid, 0, 0), (Reg.FAB_REGION.count, 8, 0)]).takes 0x800000 ∧
    (up.takes 0x800000 ∧ up.jobs = [] ∧ (withCore (core1 0)).takes 0x800000 ∧ (withCore (core1 0)).jobs ≠ []) ∧
    (up.takes (0x880000 + 8 * 65535) ∧ up.groupBusy 65535 = false ∧
      ({ up with tracker := [{ load1 false with packet := { (load1 false).packet with dst := 65535, group := true } }] } : State).groupBusy 65535 = true) :=
  ⟨⟨takes_of (by decide +kernel), by decide +kernel⟩, takes_of (by decide +kernel), ⟨takes_of (by decide +kernel), by decide +kernel,
    takes_of (by decide +kernel), by decide +kernel⟩, takes_of (by decide +kernel), by decide +kernel⟩

/-- The grandmaster; a follower that sent a delay request on plane 15 after a Sync of master 1 and holds an offset of plane 2. -/
def master : State := up.setFld Reg.FAB_GSCCFG.gm 1
/-- See `master`. -/
def follower : State := up.modSync fun g => { g with exchanges := [(15, [7, 1, 100, 200, 300, 0])], offsets := [(2, 5, 0)] }

theorem witness_GscTiming :
    (master.isMaster = true ∧ (Table.get Seen.empty master.seen (seenKey head1)).take head1.seq = some seen1) ∧
    (follower.isMaster = false ∧ (Table.get Seen.empty follower.seen (seenKey head1)).take head1.seq = some seen1 ∧
      ((follower.taken head1 seen1).hearMaster 1).fld Reg.FAB_GSCGM.ep = 1 ∧
      Table.get [] ((follower.taken head1 seen1).hearMaster 1).gscSync.exchanges 15 = [((7 : Nat) : Int), ((1 : Nat) : Int), 100, 200, 300, 0]) ∧
    medianOf (follower.freshOffsets.map (·.2)) = some 5 ∧
    ((up.setFld Reg.FAB_GSCSTAT.state 2).fld Reg.FAB_GSCSTAT.state = 2 ∧ (up.setFld Reg.FAB_GSCSTAT.state 3).fld Reg.FAB_GSCSTAT.state = 3) ∧
    up.takes 0x800300 ∧ up.takes 0x800304 :=
  ⟨by decide +kernel, by decide +kernel, by decide +kernel, by decide +kernel, takes_of (by decide +kernel), takes_of (by decide +kernel)⟩

/-- The arbiter of a lull domain, with the window that ended. -/
def arbiter : State := { put up [(Reg.FAB_LULLCFG.arb_valid, 1, 0), (Reg.FAB_LULLCFG.arb_ep, 5, 0)] with arbiterWindow := some 4 }

theorem witness_LullReports :
    (arbiter.FreshControl head1 seen1 ∧ arbiter.isArbiter = true ∧ arbiter.arbiterWindow = some 4) ∧ up.FreshControl head1 seen1 :=
  ⟨⟨freshControl_of (by decide +kernel), by decide +kernel, by decide +kernel⟩, freshControl_of (by decide +kernel)⟩
/-! ### Conditions met: power, management and the start -/

/-- Write inhibit is asserted. -/
def sagged : State := up.setFld Reg.PWR_SUPSTAT.inhibit 1

theorem witness_PowerInputs :
    (up.fld Reg.PWR_SUPSTAT.active = 0 ∧ (up.setFld Reg.PWR_SUPSTAT.active 1).fld Reg.PWR_SUPSTAT.active = 1 ∧ (47999 : Nat) < 48000) ∧
      up.inhibited = false ∧ sagged.inhibited = true ∧
      ({ up with copies := { up.copies with due := true } } : State).copies.due = true := by decide +kernel

/-- A lease in force; a cap of 2,200 W; a limit of temperature; a refit under way; the pacing below its target. -/
def leased : State :=
  put { up with paceRate := 100 } [(Reg.PWR_LEASE.state, 1, 0), (Reg.PWR_LEASE.budget_w, 2000, 0), (Reg.PWR_CAP.cap_w, 2200, 0),
    (Reg.PWR_REFITCTL.busy, 1, 0)]

/-- `leased` as it draws `a` and `b` watts. -/
def drawn (a b : Nat) : State :=
  put leased [(Reg.PWR_INMEAS.power_w, a, 0), (Reg.PWR_INMEAS.power_w, b, 1), (Reg.PWR_CAP.draw_w, a + b, 0)]

/-- Where the factory counts at the present rail and temperature are 1,000, counts of 1,000 show no drift. -/
theorem drift_even {s : State} (h : ∀ m, s.frayBase m = (1000, 1)) : s.measuredDrift (List.replicate 48 1000) = some 0 := by
  have h1 : s.frayBase = fun _ => (1000, 1) := funext h
  rw [State.measuredDrift, h1]
  decide +kernel

/-- A monitor without a count is invalid, whatever its factory count. -/
theorem drift_none (s : State) : s.measuredDrift [] = none := by
  have h : ∀ n0, frayValid n0 0 = false := fun _ => rfl
  have h1 : frayCounts [] = List.replicate 48 0 := by decide
  have h2 : ((List.replicate 48 0).zipIdx.filter fun x => frayValid (s.frayBase x.2) x.1) = [] := by
    rw [List.filter_eq_nil_iff]
    rintro ⟨n, m⟩ hx
    obtain rfl : n = 0 := (List.mem_replicate.mp (List.fst_mem_of_mem_zipIdx hx)).2
    simp [h]
  rw [State.measuredDrift, h1, h2]
  rfl

theorem witness_PowerAndHeat :
    leased.fld Reg.PWR_LEASE.state = 1 ∧
    (leased.fld Reg.PWR_CAP.cap_w < 1200 + 1001 ∧ (drawn 1000 1000).limited = false ∧ (drawn 1000 1000).paceRate < (drawn 1000 1000).targetRate ∧
      (drawn 1100 1100).limited = true ∧ 1100 + 1100 ≤ leased.fld Reg.PWR_CAP.cap_w) ∧
    (up.setFld Reg.PWR_THERM.state 1).fld Reg.PWR_THERM.state = 1 ∧ up.trip = false ∧ (up.briloUp = true ∧ up.pwrgd = true) ∧
    up.measuredDrift [] = none ∧ leased.measuredDrift [] = none ∧
    (leased.flag Reg.PWR_REFITCTL.busy = true ∧ leased.briloUp = true) ∧ up.takes 0x100600 :=
  ⟨by decide +kernel, by decide +kernel, by decide +kernel, by decide +kernel, by decide +kernel, drift_none _, drift_none _,
    by decide +kernel, takes_of (by decide +kernel)⟩

/-- A member of group 9 with tailwind on and the reports of the window that ended. -/
def twState : State :=
  { put up [(Reg.PWR_TWCFG.en, 1, 0), (Reg.PWR_TWCFG.grp, 9, 0), (Reg.PWR_TWCFG.slack_pct, 10, 0), (Reg.FAB_GRP.member, 1, 9), (Reg.FAB_GRP.count, 2, 9),
      (Reg.FAB_GSC.value, 1000001, 0)] with twWindow := some 0, twReports := [⟨5, 50, true⟩, ⟨6, 10, true⟩] }

theorem witness_Tailwind :
    up.takes 0x100300 ∧ twState.tailwind = true ∧ (twState.FreshControl head1 seen1 ∧ head1.source ≠ twState.fld Reg.FAB_EPID.ep) ∧
    (twState.endedWindow = 0 ∧ twState.twWindow = some 0 ∧ (twState.twReports.find? fun r => r.ep == twState.fld Reg.FAB_EPID.ep) = some ⟨5, 50, true⟩ ∧
      twState.breeze = false ∧ twState.fld Reg.PWR_TWCFG.slack_pct ≤ 50 ∧ 1 < twState.fld Reg.FAB_GRP.count 9 ∧
      twState.fld Reg.FAB_GRP.count 9 ≤ twState.twReports.length ∧ neediest twState.twReports 50 = some ⟨6, 10, true⟩ ∧
      neediest twState.twReports 10 = none) ∧
    (twState.fld Reg.PWR_TWCFG.job = 0xFFFF ∧ twState.flag Reg.PWR_TWCFG.en = true ∧ twState.gsc < 1000002 ∧ 1000001 ≤ twState.gsc) :=
  ⟨takes_of (by decide +kernel), by decide +kernel, ⟨freshControl_of (by decide +kernel), by decide +kernel⟩, by decide +kernel, by decide +kernel⟩

/-- The module with the management core at rest, and images A and B sound or not. -/
def booting (a b : Bool) : State :=
  { up with briloUp := false, persist := { up.persist with imageA := ⟨1, 0, 0, [], a⟩, imageB := ⟨2, 0, 0, [], b⟩ } }

/-- The core runs a trial image; a record is in the buffer; a fetch names it. -/
def trialRun : State :=
  { put up [(Reg.MGT_STATUS.trial, 1, 0), (Reg.MGT_STATUS.svn, 3, 0), (Reg.MGT_MBCTL.busy, 1, 0)] with
      log := { up.log with buffer := [⟨0, 2, 0, 0, 0, 0, 0, []⟩] } }

theorem witness_ManagementCore :
    (∀ x ∈ [(true, false), (false, true), (false, false)], (booting x.1 x.2).briloUp = false ∧ (booting x.1 x.2).fld Reg.TOP_STARTSTAT.stage ≠ 0 ∧
      (booting x.1 x.2).inhibited = false ∧ ((booting x.1 x.2).modPersist Persist.boot).persist.preferred = 0 ∧
      ((booting x.1 x.2).modPersist Persist.boot).imageValid (((booting x.1 x.2).modPersist Persist.boot).persist.image 0) = x.1 ∧
      ((booting x.1 x.2).modPersist Persist.boot).imageValid (((booting x.1 x.2).modPersist Persist.boot).persist.image 1) = x.2) ∧
    (up.briloUp = true ∧ up.flag Reg.MGT_STATUS.healthy = false ∧ up.flag Reg.MGT_STATUS.recovery = false ∧ up.inhibited = false ∧
      up.flag Reg.MGT_STATUS.trial = false ∧ trialRun.flag Reg.MGT_STATUS.trial = true ∧ trialRun.briloUp = true ∧ trialRun.inhibited = false ∧
      trialRun.flag Reg.MGT_STATUS.healthy = false ∧ trialRun.flag Reg.MGT_STATUS.recovery = false) ∧
    trialRun.log.buffer ≠ [] ∧ (trialRun.flag Reg.MGT_LOGSTAT.ready = false ∧ trialRun.record? (trialRun.fld Reg.MGT_LOGSEL.seq) =
      some ⟨0, 2, 0, 0, 0, 0, 0, []⟩ ∧ (up.record? (up.fld Reg.MGT_LOGSEL.seq)).isNone = true) ∧
    (trialRun.flag Reg.MGT_MBCTL.busy = true ∧ up.flag Reg.MGT_MBCTL.busy = false) ∧ up.takes 0x200018 ∧ up.takes 0x200100 ∧ trialRun.takes 0x200100 :=
  ⟨by decide +kernel, by decide +kernel, by decide +kernel, by decide +kernel, by decide +kernel, takes_of (by decide +kernel),
    takes_of (by decide +kernel), takes_of (by decide +kernel)⟩

theorem witness_PldmMessages :
    (up.answers 0 true = true ∧ up.answers 0 false = true ∧ up.answers 2 false = true ∧ up.answers 1 false = true ∧ trialRun.answers 3 false = true) ∧
    (63 ∈ pldmTypes ∧ 0xB2 ∈ numericSensors ∧ 0xB3 ∉ numericSensors ∧ 0x103 ∈ stateSensors ∧ (sensors[max 1 1 - 1]?).isSome = true) ∧
    (Table.get 0 up.brilo.sensorsOff 0x70 = 0 ∧ up.sensorPowered 0x70 = true ∧ ({ up with pwrgd := false } : State).sensorPowered 0x70 = false ∧
      ({ up with pwrgd := false } : State).answers 0 false = true) := by decide +kernel

/-- An update of 2 bytes by agent 9 on binding 0, with its slot erased and nothing received, or with everything verified. -/
def updating (u : Update) : State := up.modBrilo fun b => { b with update := some u }
/-- See `updating`. -/
def update1 : Update := ⟨0, 9, true, some 1, 2, [], false⟩

theorem witness_FirmwareUpdate :
    (up.answers 0 true = true ∧ up.brilo.update = none ∧ up.flag Reg.MGT_STATUS.trial = false ∧ trialRun.answers 0 true = true ∧
      trialRun.brilo.update = none ∧ trialRun.flag Reg.MGT_STATUS.trial = true) ∧
    (up.fld Reg.MGT_STATUS.image = up.persist.preferred ∧ up.flag Reg.MGT_STATUS.recovery = false ∧
      (up.setFld Reg.MGT_STATUS.image 1).fld Reg.MGT_STATUS.image ≠ up.persist.preferred ∧ update1.agent ≠ 8) ∧
    ((updating update1).answers 0 true = true ∧ (updating update1).brilo.update = some update1 ∧ (updating update1).inhibited = false ∧
      update1.passed = true ∧ update1.slot ≠ none ∧ update1.verified = false ∧ update1.data.length < update1.length) ∧
    ({ update1 with verified := true }.verified = true ∧ (updating { update1 with verified := true }).starting = false ∧
      (updating { update1 with verified := true }).shuttingDown = false ∧
      ((updating { update1 with verified := true }).setFld Reg.TOP_STARTSTAT.ready 0).starting = true) ∧ update1.slot = some 1 := by decide +kernel

/-- A requester 9 on binding 1 that has negotiated, with a session. -/
def spdmUp (k busy : Bool) (n : Nat) : State :=
  up.modBrilo fun b => { b with negotiated := [(1, 9, 3)], busy := busy, sessions := (List.range n).map fun i => ⟨1, 9 + i, k⟩ }

theorem witness_SpdmMessages :
    ((spdmUp false false 0).answers 1 false = true ∧ (spdmUp false false 0).brilo.busy = false ∧ 3 ≤ (spdmUp false false 0).spdmPhase 1 9 ∧
      (spdmUp false false 0).brilo.sessions.length < 4 ∧ (spdmUp false false 0).session? 1 9 = none ∧ 4 ≤ (spdmUp false false 4).brilo.sessions.length ∧
      (spdmUp false false 4).answers 1 false = true ∧ 3 ≤ (spdmUp false false 4).spdmPhase 1 9) ∧
    ((spdmUp false false 1).session? 1 9 = some ⟨1, 9, false⟩ ∧ (spdmUp true false 1).session? 1 9 = some ⟨1, 9, true⟩ ∧
      (spdmUp true false 1).answers 1 false = true ∧ (spdmUp true false 1).brilo.busy = false) ∧
    ((spdmUp true true 1).answers 1 false = true ∧ (spdmUp true true 1).brilo.busy = true) := by decide +kernel

/-- A start with stage `n` in progress; in Apron where `a`. -/
def atS (n : Nat) (a : Bool := false) : State :=
  { put State.reset [(Reg.TOP_STARTSTAT.stage, n, 0), (Reg.TOP_STARTSTAT.apron, ofFlag a, 0)] with briloUp := true }

theorem witness_PowerOnSelection :
    (50000 : Nat) ≤ 50000 ∧ (49999 : Nat) < 50000 ∧ State.reset.atStage 0 = false ∧ (atS 1).atStage 1 = true := by decide +kernel

/-- The module is held in reset. -/
def held : State := { up with mreset := true }

theorem witness_Resets :
    ((4 : Nat) < 5 ∧ (10 : Nat) ≤ 10 ∧ up.fld Reg.TOP_STARTSTAT.stage ≠ 0) ∧ held.mreset = true ∧ up.takes 0x110 ∧ up.perst = false :=
  ⟨by decide +kernel, by decide +kernel, takes_of (by decide +kernel), by decide +kernel⟩

theorem witness_StartStages_order :
    (∀ n ∈ [1, 2, 3, 4, 5, 6, 7, 8, 9, 10, 11, 12], (atS n).atStage n = true) ∧
    (∀ n ∈ [3, 4, 10, 11], (atS n true).atStage n = true ∧ (atS n true).apron = true) ∧
    ((atS 1).briloUp = true ∧ (atS 1).flag Reg.MGT_STATUS.recovery = false ∧ (atS 1).emergency = none ∧ (atS 2).waitCool = false ∧
      (atS 2).hot = false ∧ (atS 4).apron = false ∧ (atS 11).apron = false) ∧
    (atS 6).measuredDrift [] = none :=
  ⟨by decide +kernel, by decide +kernel, by decide +kernel, drift_none _⟩

/-- A repair entry of an unrepairable core 0. -/
def deadCore : List RepairEntry := [⟨slotCore 0, 1, 0, 0, 0⟩]

theorem witness_StartStages_repair :
    (badSlots ((atS 9).fused ++ (atS 9).persist.entries) (atS 9).persist.retireMap = [] ∧ badSlots [] [slotCore 3, 5] = [slotCore 3, 5]) ∧
    (∀ u ∈ [slotCore 3, 5], (coreOf u).isSome = true ∨ (5 ≤ u ∧ u < 21)) ∧ (255 < 256 ∧ isRetired [slotCore 3, 5] (slotCore 255) = false) := by
  decide +kernel

theorem witness_StartStages_failure :
    (∀ x ∈ [(0x0201, 1), (0x0204, 3), (0x0205, 4), (0x0206, 5), (0x0207, 6), (0x0208, 7), (0x0209, 9), (0x020A, 10), (0x0201, 12)],
      (atS x.2).fld Reg.TOP_STARTSTAT.stage = x.2 ∧ (atS x.2).atStage x.2 = true ∧ 1 ≤ x.2 ∧ causeStage x.1 x.2 = true) ∧
    ({ atS 5 with attemptEnded := some true } : State).attemptEnded = some true ∧ up.takes 0x108 :=
  ⟨by decide +kernel, rfl, takes_of (by decide +kernel)⟩

/-- A shutdown in phase `p`, of slice `i`; with or without the test. -/
def shutting (p i : Nat) (skip : Bool) (e : Option (Nat × List RepairEntry × Nat)) (stop : Bool) (a : Bool := false) : State :=
  { up.setFld Reg.TOP_STARTSTAT.apron (ofFlag a) with shutdown := some ⟨p, skip, i, e, stop⟩ }

theorem witness_ShutdownPhases :
    up.takes 0x118 ∧ (up.shutdown = none ∧ up.flag Reg.TOP_STARTSTAT.ready = true ∧ up.jobs = [] ∧ up.apron = false ∧
      (atS 5).shutdown = none ∧ (atS 5).flag Reg.TOP_STARTSTAT.ready = false ∧ (atS 5).apron = false) ∧
    (∀ p ∈ [1, 2, 3, 4, 5, 6], ∀ skip ∈ [false, true], (shutting p 0 skip none false).shutdown = some ⟨p, skip, 0, none, false⟩ ∧
      (shutting p 0 skip none false).jobs = [] ∧ (shutting p 0 skip none false).nvs.cmds = [] ∧ (shutting p 0 skip none false).inhibited = false ∧
      (shutting p 0 skip none false).apron = false ∧ (shutting p 0 skip none false).brilo.restartDue = false) ∧
    (shutting 1 0 true none false true).apron = true ∧
    (∀ x ∈ [(0, 0, false), (33, 1, false), (4, 2, true), (33, 3, true)], (shutting 5 x.1 false (some (x.2.1, deadCore, 900)) x.2.2).shutdown =
      some ⟨5, false, x.1, some (x.2.1, deadCore, 900), x.2.2⟩ ∧ x.1 < 34 ∧ x.2.1 < 4) ∧
    (250 : Nat) ≤ (shutting 5 0 false none false).fld Reg.TST_CFG.slice_ms :=
  ⟨takes_of (by decide +kernel), by decide +kernel, by decide +kernel, by decide +kernel, by decide +kernel, by decide +kernel⟩

end Sys2Proof.Tests
end

