-- ==== Sys2Proof/Proofs/ByteStores.lean ====
section
/-! Every step keeps the byte stores canonical (O4): one lemma per command, from what each shared operation keeps. -/

namespace Sys2Proof.Machine.State

/-- A state with the byte stores and stacks of a canonical one is canonical. -/
theorem Stored.keep {s t : State} (hs : s.Stored) (h : t.mem = s.mem ∧ t.stack = s.stack) : t.Stored :=
  stored_of_stores h hs

/-- The state a command answers is canonical when the state its meaning computes is. -/
theorem stored_of_next {a t : State} (h : (.next a : Host.Outcome State Fault Refusal) = .next t) (ha : a.Stored) : t.Stored := by
  cases h
  exact ha

theorem setFld_stored (s : State) (f : Field) (v i : Nat) (hs : s.Stored) : (s.setFld f v i).Stored :=
  hs.keep (setFld_stores _ _ _ _)

theorem emit_stored (s : State) (o : Output) (hs : s.Stored) : (s.emit o).Stored := hs.keep (emit_stores _ _)

/-! ### Sequencer rows -/

/-- A row whose effect changes no byte store keeps them canonical, whatever the row's checks find. -/
theorem issue_stored_of_stores (s : State) (c : Nat) (mine : Nat → Bool) (plan : State → Nat → Plan)
    (he : ∀ u w t, ((plan u w).effect t).mem = t.mem ∧ ((plan u w).effect t).stack = t.stack) (hs : s.Stored) : (s.issue c mine plan).Stored :=
  issue_stored s c mine plan (fun u w t ht => ht.keep (he u w t)) hs

theorem execRds_stored {core : Nat} {s t : State} (hs : s.Stored) (h : execRds core s = .next t) : t.Stored := by
  refine stored_of_next h (issue_stored_of_stores _ _ _ _ (fun u w t => ?_) hs)
  dsimp only
  split <;> simp

theorem execAlarmDisarm_stored {core : Nat} {s t : State} (hs : s.Stored) (h : execAlarmDisarm core s = .next t) : t.Stored :=
  runAlarm_stored _ _ _ _ _ (fun _ _ ht => ht.keep (by simp)) _ h hs

theorem execGscAlarmFire_stored {core : Nat} {s t : State} (hs : s.Stored) (h : execGscAlarmFire core s = .next t) : t.Stored :=
  stored_of_next h (ite_stored _ _ _ hs (fireAlarm_stored _ _ hs))

theorem execFence_stored {core : Nat} {s t : State} (hs : s.Stored) (h : execFence core s = .next t) : t.Stored :=
  stored_of_next h (issue_stored _ _ _ _ (fun _ _ _ ht => settleCoreFab_stored _ _ (ht.keep (by simp))) hs)

theorem execTclaimReturn_stored {core : Nat} {s t : State} (hs : s.Stored) (h : execTclaimReturn core s = .next t) : t.Stored := by
  refine stored_of_next h ?_
  dsimp only
  split
  · split
    · exact issueNow_stored _ _ _ _ _ (fun _ ht => ht.keep (by simp)) (hs.keep (by simp))
    · exact hs
  · exact hs

theorem execMrecv_stored {core : Nat} {s t : State} (hs : s.Stored) (h : execMrecv core s = .next t) : t.Stored := by
  refine stored_of_next h (issue_stored _ _ _ _ (fun u w t ht => ?_) hs)
  dsimp only
  split
  · exact ht
  · split
    · exact ht
    · next m _ _ =>
      have hp := scratchPut_stored _ core (u.addr core (Psi.d w)) (t.messageBytes m) (touchLines_stored t m.place (64 * m.lines) false ht)
      exact ite_stored _ _ _ (hp.keep (by simp)) (hp.keep (by simp))

theorem execNop_stored {core : Nat} {s t : State} (hs : s.Stored) (h : execNop core s = .next t) : t.Stored :=
  stored_of_next h (issue_stored _ _ _ _ (fun _ _ _ ht => ht) (outOfProgram_stored _ _ hs))

/-! ### The weight store -/

theorem execNandOperationFail_stored {block : Nat} {s t : State} (hs : s.Stored) (h : execNandOperationFail block s = .next t) :
    t.Stored := by
  refine stored_of_next h ?_
  dsimp only
  split
  · exact hs
  · split <;> exact hs.keep (by simp)

theorem execNvsWearLevel_stored {channel : Nat} {s t : State} (hs : s.Stored) (h : execNvsWearLevel channel s = .next t) :
    t.Stored := by
  unfold execNvsWearLevel at h
  -- The pages of a channel are a long computed list: an opaque name keeps the kernel from evaluating it.
  obtain ⟨pages, hpages⟩ : ∃ p, p = nvChannel channel := ⟨_, rfl⟩
  rw [← hpages] at h
  refine stored_of_next h (ite_stored _ _ _ hs ?_)
  split
  · exact hs
  · refine ite_stored _ _ _ hs ?_
    dsimp only
    split
    · exact ite_stored _ _ _ (hs.keep (by simp)) (hs.keep (by simp))
    · exact hs

theorem execGenSetReady_stored {slot : Nat} {s t : State} (hs : s.Stored) (h : execGenSetReady slot s = .next t) : t.Stored := by
  refine stored_of_next h (hostWrite_stored _ _ _ _ (fun u hu => ?_) hs)
  dsimp only
  cases u.manifest? (u.fld Reg.NVS_GEN.gen slot) <;> exact hu.keep (by simp)

theorem execNvsCommandComplete_stored {key : Nat} {report : NvsReport} {s t : State} (hs : s.Stored)
    (h : execNvsCommandComplete key report s = .next t) : t.Stored := by
  refine stored_of_next h ?_
  dsimp only
  split
  · exact hs
  · rename_i c _
    split
    · exact hs
    · have hw : (if c.result.isNone then s.nvWork c report else s).Stored := ite_stored _ _ _ (nvWork_stored _ _ _ hs) hs
      split
      · split
        · exact ite_stored _ _ _ (hw.keep (by simp)) (ite_stored _ _ _ (nvRecord_stored _ _ _ _ hw) hw)
        · exact hw
      · exact hw

theorem execKeeperChunkReceive_stored {hd : PacketHead} {shard chunk : Nat} {lines : ItemLines} {s t : State} (hs : s.Stored)
    (h : execKeeperChunkReceive hd shard chunk lines s = .next t) : t.Stored := by
  refine stored_of_next h (engineTake_stored _ _ _ _ (fun u hu => ?_) hs)
  dsimp only
  split
  · exact hu
  · split
    · exact hu
    · split
      · exact takeChunk_stored _ _ _ _ (hu.keep (by simp))
      · exact hu.keep (by simp)

theorem execKeeperMarkerReceive_stored {hd : PacketHead} {shard kind sent : Nat} {s t : State} (hs : s.Stored)
    (h : execKeeperMarkerReceive hd shard kind sent s = .next t) : t.Stored := by
  refine stored_of_next h (engineTake_stored _ _ _ _ (fun u hu => ?_) hs)
  split <;> exact hu.keep (by simp)

theorem execRepairRequestReceive_stored {hd : PacketHead} {shard : Nat} {chunks : List Nat} {s t : State} (hs : s.Stored)
    (h : execRepairRequestReceive hd shard chunks s = .next t) : t.Stored := by
  refine stored_of_next h (engineTake_stored _ _ _ _ (fun u hu => ?_) hs)
  split
  · next c sh _ _ =>
    have hr := foldl_stored (fun s k => (State.nvFetch s (sh.base + 65536 * k) 65536).2) (fun _ _ ht => ht.keep (by simp))
      (chunks.filter fun k => decide (k < shardChunks sh.length)) _ hu
    dsimp only
    generalize List.foldl _ u _ = v at hr ⊢
    exact hr.keep (by simp)
  · exact hu

theorem execPatchInstallReceive_stored {hd : PacketHead} {number : Nat} {entries : List (Nat × Nat × Nat)} {report : NvsReport} {s t : State}
    (hs : s.Stored) (h : execPatchInstallReceive hd number entries report s = .next t) : t.Stored := by
  refine stored_of_next h (engineTake_stored _ _ _ _ (fun u hu => ?_) hs)
  dsimp only
  generalize List.map _ (List.filter _ entries) = xs
  generalize hv : List.foldl _ (u.nvRead report) _ = v
  have hm : v.Stored := hv ▸ (hu.keep (by simp))
  exact (loadPatches_stored (v.remeasure u) xs (hm.keep (by simp))).keep (by simp)

/-! ### Key-value commands -/

theorem execFork_stored {queue : Nat} {host : List Byte} {s t : State} (hs : s.Stored) (h : execFork queue host s = .next t) :
    t.Stored := by
  refine stored_of_next h (takeCmd_stored _ _ _ _ _ (fun u t cmd hu => ?_) hs)
  have he (st : Nat) : (u.endKv t st).Stored := endKv_stored _ _ _ hu
  refine ite_stored _ _ _ (he 1) (ite_stored _ _ _ (he 2) (ite_stored _ _ _ (he 7) (ite_stored _ _ _ (he 2) (ite_stored _ _ _ (he 1) ?_))))
  split
  · exact endKv_stored _ _ _ (fork_stored _ _ _ _ _ _ _ _ _ ‹_› hu)
  · exact he 3

theorem execPark_stored {queue : Nat} {host : List Byte} {copies : CopyData} {s t : State} (hs : s.Stored)
    (h : execPark queue host copies s = .next t) : t.Stored :=
  stored_of_next h (takeCmd_stored _ _ _ _ _ (fun _ _ _ hu => onSequence_stored _ _ _ _ _ _ (fun _ _ hv => runOrHold_stored _ _ _ _ hv) hu) hs)

theorem execDrop_stored {queue : Nat} {host : List Byte} {s t : State} (hs : s.Stored) (h : execDrop queue host s = .next t) : t.Stored :=
  stored_of_next h (takeCmd_stored _ _ _ _ _ (fun _ _ _ hu => onSequence_stored _ _ _ _ _ _ (fun _ _ hv => runOrHold_stored _ _ _ _ hv) hu) hs)

theorem execRestore_stored {queue : Nat} {host : List Byte} {copies : CopyData} {s t : State} (hs : s.Stored)
    (h : execRestore queue host copies s = .next t) : t.Stored := by
  refine stored_of_next h (takeCmd_stored _ _ _ _ _ (fun _ _ _ hu => onSequence_stored _ _ _ _ _ _ (fun u lg hv => ?_) hu) hs)
  refine ite_stored _ _ _ (endKv_stored _ _ _ hv) ?_
  split
  · exact restore_stored _ _ _ _ _ _ _ ‹_› hv
  · exact endKv_stored _ _ _ hv

theorem execRelease_stored {queue : Nat} {host : List Byte} {s t : State} (hs : s.Stored) (h : execRelease queue host s = .next t) :
    t.Stored := by
  refine stored_of_next h (takeCmd_stored _ _ _ _ _ (fun _ _ _ hu => onSequence_stored _ _ _ _ _ _ (fun u lg hv => ?_) hu) hs)
  have hr := runOrHold_stored u lg
  exact ite_stored _ _ _ (endKv_stored _ _ _ hv) (ite_stored _ _ _ (forgetRestore_stored _ _ (hr _ _ hv)) (hr _ _ hv))

theorem execMemberReplyReceive_stored {hd : PacketHead} {kind ledger handle record position : Nat} {s t : State} (hs : s.Stored)
    (h : execMemberReplyReceive hd kind ledger handle record position s = .next t) : t.Stored := by
  refine stored_of_next h (engineTake_stored _ _ _ _ (fun u hu => ?_) hs)
  split
  · exact ite_stored _ _ _ (restoreReply_stored _ _ _ _ _ hu) hu
  · exact copyFailed_stored _ _ _ _ hu
  · exact hu.keep (by simp)
  · exact hu.keep (by simp)
  · exact hu

theorem execParkedTtlVisit_stored {ledger : Nat} {s t : State} (hs : s.Stored) (h : execParkedTtlVisit ledger s = .next t) : t.Stored :=
  stored_of_next h (ite_stored _ _ _ hs (foldl_stored _ (fun _ _ hu => ite_stored _ _ _ (expirePark_stored _ _ _ hu) hu) _ _ hs))

theorem execRestoreReplyTimeout_stored {handle : Nat} {s t : State} (hs : s.Stored) (h : execRestoreReplyTimeout handle s = .next t) :
    t.Stored := by
  refine stored_of_next h ?_
  split
  · exact copyFailed_stored _ _ _ _ hs
  · exact hs

theorem execLedgerGapTimeout_stored {ledger : Nat} {s t : State} (hs : s.Stored) (h : execLedgerGapTimeout ledger s = .next t) : t.Stored :=
  stored_of_next h (ite_stored _ _ _ (ledgerFault_stored _ _ _ (hs.keep (by simp))) hs)

/-! ### Completions of engine operations -/

theorem execDpassComplete_stored {core : Nat} {parity : Option DpaParity} {s t : State} (hs : s.Stored)
    (h : execDpassComplete core parity s = .next t) : t.Stored := by
  refine stored_of_next h ?_
  have popped (v : State) (hv : v.Stored) : (((v.popDpa core).modCore core Core.settleParity).restCore core).Stored :=
    restCore_stored _ _ (hv.keep (by simp))
  have failed (v : State) (f : Core → Core) (p : List Nat) (hv : v.Stored) : ((v.modCore core f).hardwareFault core 0x0102 p).Stored :=
    hardwareFault_stored _ _ _ _ (hv.keep (by simp))
  split
  · exact hs
  · next o _ _ =>
    have hc : (s.chargeDpa core (o.m + dpaHem o.width)).Stored := hs.keep (by simp)
    refine ite_stored _ _ _ hs (popped _ (ite_stored _ _ _ hc ?_))
    dsimp only
    split
    · exact signalOwn_stored _ _ _ _ _ (dpaWrite_stored _ _ _ _ _ hc)
    · exact failed _ _ _ (dpaWrite_stored _ _ _ _ _ hc)

theorem execVrwOpComplete_stored {core : Nat} {parity : Option Nat} {s t : State} (hs : s.Stored)
    (h : execVrwOpComplete core parity s = .next t) : t.Stored := by
  refine stored_of_next h ?_
  have popped (v : State) (hv : v.Stored) : ((v.modCore core Core.settleParity).restCore core).Stored := restCore_stored _ _ (hv.keep (by simp))
  split
  · exact hs
  · refine ite_stored _ _ _ hs (popped _ (ite_stored _ _ _ (hs.keep (by simp)) ?_))
    cases parity
    · exact signalOwn_stored _ _ _ _ _ (vrwWrite_stored _ _ _ (hs.keep (by simp)))
    · exact hardwareFault_stored _ _ _ _ (hs.keep (by simp))

theorem execMoverBeatComplete_stored {core mover : Nat} {beat : BeatReport} {s t : State} (hs : s.Stored)
    (h : execMoverBeatComplete core mover beat s = .next t) : t.Stored := by
  refine stored_of_next h (ite_stored _ _ _ hs ?_)
  have hb := sendBeats_stored s core mover 256 hs
  generalize s.sendBeats core mover 256 = u at hb ⊢
  have taken (v : State) (o : MoverOp) (d : List Byte) (f : Bool) (hv : v.Stored) : ((v.takeBeat core mover o d f).restCore core).Stored :=
    restCore_stored _ _ (takeBeat_stored _ _ _ _ _ _ hv)
  dsimp only
  split
  · exact hb
  · refine ite_stored _ _ _ (ite_stored _ _ _ hb (restCore_stored _ _ (afterBeat_stored _ _ _ _ hb))) ?_
    refine ite_stored _ _ _ (ite_stored _ _ _ hb (ite_stored _ _ _ (taken _ _ _ _ hb) (ite_stored _ _ _ ?_ hb))) ?_
    · exact restCore_stored _ _ (failMover_stored _ _ _ _ _ _ (hb.keep (by simp)))
    · refine ite_stored _ _ _ hb (restCore_stored _ _ ?_)
      cases beat.uncorrectable
      all_goals
        refine ite_stored _ _ _ (ite_stored _ _ _ (failMover_stored _ _ _ _ _ _ (hb.keep (by simp))) ?_)
          (takeBeat_stored _ _ _ _ _ _ (hb.keep (by simp)))
        exact runMover_stored _ _ _ (signalOwn_stored _ _ _ _ _ (hb.keep (by simp)))

theorem execMoverBeatTimeout_stored {core mover : Nat} {waits : List (Nat × Nat)} {mdies : List Nat} {s t : State} (hs : s.Stored)
    (h : execMoverBeatTimeout core mover waits mdies s = .next t) : t.Stored := by
  refine stored_of_next h ?_
  split
  · exact hs
  · exact ite_stored _ _ _ hs (restCore_stored _ _ (failMover_stored _ _ _ _ _ _ (hs.keep (by simp))))

/-! ### Fabric -/

theorem execTeardownReceive_stored {hd : PacketHead} {job reason number : Nat} {s t : State} (hs : s.Stored)
    (h : execTeardownReceive hd job reason number s = .next t) : t.Stored := by
  have hc := closeJobFabric_stores
  unfold execTeardownReceive at h
  -- `closeJobFabric` folds over 2,048 credit entries: an opaque name keeps the kernel from evaluating it.
  obtain ⟨close, hclose⟩ : ∃ f, f = State.closeJobFabric := ⟨_, rfl⟩
  rw [← hclose] at h hc
  refine stored_of_next h (controlTake_stored _ _ _ (fun u hu => ?_) hs)
  extract_lets _ _ w
  have hw : w.Stored := hu.keep (by simp +zetaDelta [hc])
  clear_value w
  split
  · exact (stopJob_stored w job hw).keep (by simp)
  · exact ite_stored _ _ _ (hw.keep (by simp +zetaDelta)) (settle_stored _ (markFault_stored _ _ _ _ (hw.keep (by simp +zetaDelta))))

theorem execFabricResponseReceive_stored {hd : ResponseHead} {data : List Byte} {s t : State} (hs : s.Stored)
    (h : execFabricResponseReceive hd data s = .next t) : t.Stored := by
  refine stored_of_next h (ite_stored _ _ _ hs ?_)
  split
  · exact hs.keep (by simp)
  · next r _ =>
    extract_lets u v
    have hv : v.Stored := ite_stored _ _ _ (hs.keep (by simp +zetaDelta)) (hs.keep (by simp +zetaDelta))
    clear_value v
    split
    · exact hv.keep (by simp)
    · cases hr : State.resend _ r _ 0 with
      | none => exact deadRequest_stored _ _ (hv.keep (by simp +zetaDelta))
      | some x => exact Stored.keep hv (by simp +zetaDelta [resend_stores _ _ _ _ _ hr])
    · extract_lets bad w x r' y
      have hw : w.Stored := ite_stored _ _ _ (hv.keep (by simp)) hv
      have hx : x.Stored := ite_stored _ _ _ (landData_stored _ _ _ hw) hw
      have hy : y.Stored := hx.keep (by simp +zetaDelta)
      exact ite_stored _ _ _ (finishRequest_stored _ _ _ hy) hy

theorem execRequestAttemptTimeout_stored {tag seq : Nat} {s t : State} (hs : s.Stored) (h : execRequestAttemptTimeout tag seq s = .next t) :
    t.Stored := by
  refine stored_of_next h ?_
  split
  · exact hs
  · next r _ =>
    refine ite_stored _ _ _ hs (ite_stored _ _ _ (deadRequest_stored _ _ hs) ?_)
    cases hr : s.resend r [] 1 with
    | none => exact hs.keep (by simp)
    | some u => exact Stored.keep (stored_of_stores (resend_stores _ _ _ _ _ hr) hs) (by simp)

theorem execAcceptWaitTimeout_stored {tag seq : Nat} {s t : State} (hs : s.Stored) (h : execAcceptWaitTimeout tag seq s = .next t) :
    t.Stored := by
  refine stored_of_next h ?_
  split
  · exact hs
  · exact ite_stored _ _ _ (deadRequest_stored _ _ hs) hs

theorem execBulkComplete_stored {num : Nat} {s t : State} (hs : s.Stored) (h : execBulkComplete num s = .next t) : t.Stored := by
  refine stored_of_next h ?_
  split
  · exact hs
  · refine ite_stored _ _ _ hs (ite_stored _ _ _ (hs.keep (by simp)) (ite_stored _ _ _ hs ?_))
    extract_lets p bs u v
    have hu : u.Stored := areaPut_stored _ _ _ (hs.keep (by simp))
    have hv : v.Stored := hu.keep (by simp +zetaDelta)
    exact ite_stored _ _ _ hv (hv.keep (by simp))

theorem execPortTrainingComplete_stored {port lanes : Nat} {s t : State} (hs : s.Stored) (h : execPortTrainingComplete port lanes s = .next t) :
    t.Stored :=
  stored_of_next h (ite_stored _ _ _ hs (ite_stored _ _ _ (setPort_stored _ _ _ (hs.keep (by simp))) (portUp_stored _ _ _ (hs.keep (by simp)))))

theorem execLinkControlReceive_stored {port : Nat} {flit : List Byte} {s t : State} (hs : s.Stored)
    (h : execLinkControlReceive port flit s = .next t) : t.Stored := by
  refine stored_of_next h (ite_stored _ _ _ hs (ite_stored _ _ _ (hs.keep (by simp)) ?_))
  extract_lets l u v
  have hv : v.Stored := ite_stored _ _ _ (replay_stored _ _ (hs.keep (by simp +zetaDelta))) (hs.keep (by simp +zetaDelta))
  exact hv.keep (by simp)

theorem execTargetMulticastStore_stored {hd : RequestHead} {group : Nat} {data : List Byte} {wait : TargetWait} {report : BankReport} {s t : State}
    (hs : s.Stored) (h : execTargetMulticastStore hd group data wait report s = .next t) : t.Stored :=
  stored_of_next h (ite_stored _ _ _ (target_stored _ _ _ _ _ _ _ hs) hs)

theorem execPortTrainingRetry_stored {port : Nat} {s t : State} (hs : s.Stored) (h : execPortTrainingRetry port s = .next t) : t.Stored :=
  stored_of_next h (ite_stored _ _ _ hs (setPort_stored _ _ _ hs))

theorem execPortLossOfSignal_stored {port : Nat} {s t : State} (hs : s.Stored) (h : execPortLossOfSignal port s = .next t) : t.Stored :=
  stored_of_next h (ite_stored _ _ _ (setPort_stored _ _ _ hs) hs)

theorem execPortRetrain_stored {port : Nat} {s t : State} (hs : s.Stored) (h : execPortRetrain port s = .next t) : t.Stored :=
  stored_of_next h (ite_stored _ _ _ hs (hostWrite_stored _ _ _ _ (fun _ hu => ite_stored _ _ _ (setPort_stored _ _ _ hu) hu) hs))

theorem execPortFence_stored {port : Nat} {s t : State} (hs : s.Stored) (h : execPortFence port s = .next t) : t.Stored :=
  stored_of_next h (ite_stored _ _ _ hs (hostWrite_stored _ _ _ _ (fun _ hu => setPort_stored _ _ _ (hu.keep (by simp))) hs))

theorem execPortUnfence_stored {port : Nat} {s t : State} (hs : s.Stored) (h : execPortUnfence port s = .next t) : t.Stored :=
  stored_of_next h (ite_stored _ _ _ hs (hostWrite_stored _ _ _ _ (fun _ hu =>
    ite_stored _ _ _ (setPort_stored _ _ _ (hu.keep (by simp))) (hu.keep (by simp))) hs))

theorem execLinkReplayTimeout_stored {port : Nat} {s t : State} (hs : s.Stored) (h : execLinkReplayTimeout port s = .next t) : t.Stored :=
  stored_of_next h (ite_stored _ _ _ (replay_stored _ _ hs) hs)

/-! ### Power -/

theorem execLaserCheck_stored {mv : Nat} {s t : State} (hs : s.Stored) (h : execLaserCheck mv s = .next t) : t.Stored :=
  stored_of_next h (ite_stored _ _ _ hs (ite_stored _ _ _ (lasersOff_stored _ (hs.keep (by simp))) (hs.keep (by simp))))

theorem execBrownOut_stored {s t : State} (hs : s.Stored) (h : execBrownOut s = .next t) : t.Stored :=
  stored_of_next h (ite_stored _ _ _ hs ((lasersOff_stored _ hs).keep (by simp)))

theorem execTailwindDecision_stored {s t : State} (hs : s.Stored) (h : execTailwindDecision s = .next t) : t.Stored := by
  refine stored_of_next h (ite_stored _ _ _ hs ?_)
  extract_lets w grp members rs full u expiry
  have hu : u.Stored := hs.keep (by simp +zetaDelta)
  clear_value u
  split
  · exact hu
  · refine ite_stored _ _ _ hu (ite_stored _ _ _ ?_ (hu.keep (by simp)))
    split
    · exact hu.keep (by simp)
    · exact hu

theorem execThermalTrip_stored {diode : Nat} {s t : State} (hs : s.Stored) (h : execThermalTrip diode s = .next t) : t.Stored := by
  have hf := moduleFault_stored { s with trip := true, thermtrip := true } 0x0702 .module [diode, s.fld Reg.PWR_THERM.tj_max] (hs.keep (by simp))
  exact stored_of_next h (ite_stored _ _ _ hs ((lasersOff_stored _ hf).keep (by simp)))

theorem execFraySample_stored {counts : List Nat} {s t : State} (hs : s.Stored) (h : execFraySample counts s = .next t) : t.Stored := by
  refine stored_of_next h (ite_stored _ _ _ hs ?_)
  extract_lets got u
  have hu : u.Stored := hs.keep (by simp +zetaDelta)
  cases got with
  | none => exact hu
  | some d => exact ite_stored _ _ _ (hu.keep (by simp)) hu

/-! ### Brilo and batches -/

theorem execManagementCoreStart_stored {s t : State} (hs : s.Stored) (h : execManagementCoreStart s = .next t) : t.Stored := by
  refine stored_of_next h (ite_stored _ _ _ hs ?_)
  extract_lets u i
  have hu : u.Stored := hs.keep (by simp +zetaDelta)
  exact ite_stored _ _ _ (hu.keep (by simp)) (ite_stored _ _ _ (hu.keep (by simp)) (enterRecovery_stored _ _ hu))

theorem execGetPdr_stored {binding ep handle : Nat} {s t : State} (hs : s.Stored) (h : execGetPdr binding ep handle s = .next t) : t.Stored := by
  refine stored_of_next h (pldmCmd_stored _ _ _ _ _ _ (fun u hu => ?_) hs)
  dsimp only
  split <;> exact hu

theorem execAdmitSeq_stored {queue : Nat} {host param : List Byte} {token : Nat} {s t : State} (hs : s.Stored)
    (h : execAdmitSeq queue host param token s = .next t) : t.Stored := by
  refine stored_of_next h (takeCmd_stored _ _ _ _ _ (fun u t cmd hu => ?_) hs)
  dsimp only
  have hv : (State.touchT1 u cmd.addr 512).Stored := touchT1_stored _ _ _ hu
  have answer (st d : Nat) := complete_stored _ t st d hv
  split
  · exact complete_stored _ _ _ _ hu
  · refine ite_stored _ _ _ (answer _ _) ?_
    split
    · exact answer _ _
    · refine ite_stored _ _ _ (answer _ _) (ite_stored _ _ _ (answer _ _) (ite_stored _ _ _ (answer _ _) (ite_stored _ _ _ (answer _ _) ?_)))
      exact admitCmd_stored _ _ _ _ _ hv

theorem execCancel_stored {queue : Nat} {host : List Byte} {s t : State} (hs : s.Stored) (h : execCancel queue host s = .next t) : t.Stored := by
  refine stored_of_next h (takeCmd_stored _ _ _ _ _ (fun u t cmd hu => ?_) hs)
  dsimp only
  have answer (st d : Nat) := complete_stored _ t st d hu
  split
  · exact answer _ _
  · split
    · exact ite_stored _ _ _ (answer _ _) (ite_stored _ _ _ (answer _ _) (answer _ _))
    · refine ite_stored _ _ _ (answer _ _) (ite_stored _ _ _ (hu.keep (by simp)) (ite_stored _ _ _ ?_ ?_))
      · have hd := Decision_flags_stored u.decision cmd.seq (u.kvFlags cmd.seq + 16 * (1 - bits (u.kvFlags cmd.seq) 4 4)) hu
        exact hd.keep (by simp)
      · exact forgetRestore_stored _ _ (endSeq_stored _ _ _ _ _ _ _ (hu.keep (by simp)))

theorem execBatchForm_stored {ledger : Nat} {copies : CopyData} {s t : State} (hs : s.Stored) (h : execBatchForm ledger copies s = .next t) :
    t.Stored := by
  refine stored_of_next h ?_
  extract_lets gap got u
  have hu : u.Stored := formBatch_stored _ _ _ hs
  refine ite_stored _ _ _ hs ?_
  split
  · exact hu
  · exact applyBatch_stored _ _ (hu.keep (by simp))

theorem execBatchDescriptorReceive_stored {hd : PacketHead} {lines : BatchLines} {s t : State} (hs : s.Stored)
    (h : execBatchDescriptorReceive hd lines s = .next t) : t.Stored := by
  refine stored_of_next h (engineTake_stored _ _ _ _ (fun u hu => ite_stored _ _ _ hu ?_) hs)
  extract_lets got
  have hg : got.2.Stored := hu.keep (by simp +zetaDelta)
  split
  · exact descriptorArrives_stored _ _ _ hg
  · exact hg

theorem execLedgerRecordReceive_stored {hd : PacketHead} {record : LedgerRecord} {copies : CopyData} {s t : State} (hs : s.Stored)
    (h : execLedgerRecordReceive hd record copies s = .next t) : t.Stored :=
  stored_of_next h (engineTake_stored _ _ _ _ (fun _ hu => applyEarlyBatches_stored _ _ _ (takeRecord_stored _ _ _ hu)) hs)

theorem execSamplerPartialReceive_stored {hd : PacketHead} {ledger batch row : Nat} {half : PartialHalf} {s t : State} (hs : s.Stored)
    (h : execSamplerPartialReceive hd ledger batch row half s = .next t) : t.Stored := by
  refine stored_of_next h (engineTake_stored _ _ _ _ (fun u hu => ?_) hs)
  dsimp only
  split
  · exact hu.keep (by simp)
  · exact ite_stored _ _ _ hu (hu.keep (by simp))

theorem execSeOpComplete_stored {core : Nat} {copies : CopyData} {s t : State} (hs : s.Stored) (h : execSeOpComplete core copies s = .next t) :
    t.Stored := by
  refine stored_of_next h ?_
  split
  · exact hs
  · refine ite_stored _ _ _ hs ?_
    split
    · exact hs
    · next u ok he => exact endEngineOp_stored _ _ _ _ _ (seWork_stored _ _ _ _ _ he (hs.keep (by simp)))

theorem execBatchEndReportReceive_stored {hd : PacketHead} {ledger batch : Nat} {head : ReportHead} {proposals : List (Nat × Nat × Nat)}
    {results : List ResultRow} {copies : CopyData} {s t : State} (hs : s.Stored)
    (h : execBatchEndReportReceive hd ledger batch head proposals results copies s = .next t) : t.Stored :=
  stored_of_next h (engineTake_stored _ _ _ _ (fun _ hu =>
    ite_stored _ _ _ (hu.keep (by simp)) (takeReport_stored _ _ _ _ _ _ _ _ (hu.keep (by simp)))) hs)

theorem execXeContextOpen_stored {context value : Nat} {s t : State} (hs : s.Stored) (h : execXeContextOpen context value s = .next t) :
    t.Stored :=
  stored_of_next h (hostWrite_stored _ _ _ _ (fun _ hu =>
    ite_stored _ _ _ hu (ite_stored _ _ _ (hu.keep (by simp)) (advanceXe_stored _ _ _ (hu.keep (by simp))))) hs)

theorem execXeRowReceive_stored {hd : PacketHead} {row : ExchangeRow} {lines : RowLines} {s t : State} (hs : s.Stored)
    (h : execXeRowReceive hd row lines s = .next t) : t.Stored :=
  stored_of_next h (engineTake_stored _ _ _ _ (fun u hu => (rowPacket_stored u hd.source row lines.first lines.bytes hu).keep (by simp)) hs)

theorem execXeEndMarkerReceive_stored {hd : PacketHead} {arrival : MarkArrival} {s t : State} (hs : s.Stored)
    (h : execXeEndMarkerReceive hd arrival s = .next t) : t.Stored :=
  stored_of_next h (engineTake_stored _ _ _ _ (fun u hu => (markArrives_stored u hd.source arrival.mark hu).keep (by simp)) hs)

theorem execXeRowsTaken_stored {taken : RowsTaken} {s t : State} (hs : s.Stored) (h : execXeRowsTaken taken s = .next t) : t.Stored := by
  refine stored_of_next h ?_
  dsimp only
  split
  · exact hs
  · next o _ =>
    refine ite_stored _ _ _ hs ?_
    have hu : (s.chargeBeats taken.beats).Stored := hs.keep (by simp)
    split
    · next v hv =>
      refine endEngineOp_stored _ _ _ _ _ ?_
      split at hv
      · exact dispatch_stored _ _ _ _ hv hu
      · exact giveBack_stored _ _ _ _ hv hu
    · exact endEngineOp_stored _ _ _ _ _ (hu.keep (by simp))

theorem execXeHalfTimeout_stored {context phase half : Nat} {s t : State} (hs : s.Stored) (h : execXeHalfTimeout context phase half s = .next t) :
    t.Stored := by
  refine stored_of_next h (ite_stored _ _ _ hs ?_)
  split
  · exact hs
  · exact ite_stored _ _ _ hs (faultJob_stored _ _ _ (hs.keep (by simp)))

/-! ### Jobs -/

theorem execSwitchSaveComplete_stored {job cdie : Nat} {s t : State} (hs : s.Stored) (h : execSwitchSaveComplete job cdie s = .next t) :
    t.Stored := by
  refine stored_of_next h ?_
  split
  · exact hs
  · next w _ =>
    refine ite_stored _ _ _ hs ?_
    extract_lets _ outCores inJob cs u v x y z
    have hu : u.Stored := hs.keep (by simp +zetaDelta)
    have hv : v.Stored := foldl_stored _ (fun _ _ ht => saveJob_stored _ _ _ ht) _ _ hu
    have hx : x.Stored := foldl_stored _ (fun _ _ ht => suspendSaved_stored _ _ _ ht) _ _ hv
    have hy : y.Stored := foldl_stored _ (fun _ _ ht => ht.keep (by simp)) _ _ hx
    refine settle_stored z ?_
    clear_value y cs inJob
    cases inJob with
    | none => exact hy
    | some j =>
      refine foldl_stored _ (fun _ _ ht => readyCore_stored _ _ _ ht) _ _ (ite_stored _ _ _ ?_ hy)
      exact foldl_stored _ (fun _ _ ht => readySram_stored _ _ _ ht) _ _ hy

theorem execSwitchReadyComplete_stored {job cdie : Nat} {s t : State} (hs : s.Stored) (h : execSwitchReadyComplete job cdie s = .next t) :
    t.Stored := by
  refine stored_of_next h ?_
  split
  · exact hs
  · split
    · exact hs
    · refine ite_stored _ _ _ hs (settle_stored _ ?_)
      exact foldl_stored _ (fun _ _ ht => ite_stored _ _ _ (startCore_stored _ _ _ ht) ht) _ _ (hs.keep (by simp))

theorem execCorePartEnd_stored {core : Nat} {s t : State} (hs : s.Stored) (h : execCorePartEnd core s = .next t) : t.Stored := by
  refine stored_of_next h (ite_stored _ _ _ hs ?_)
  extract_lets j u
  have hu : u.Stored := hs.keep (by simp +zetaDelta)
  split
  · exact hu
  · exact ite_stored _ _ _ (settle_stored _ (endJob_stored _ _ _ _ hu)) hu

theorem readLaunch_stored (s : State) (b : Nat) (hs : s.Stored) : (s.readLaunch b).Stored := by
  unfold State.readLaunch
  exact ite_stored _ _ _ (touchT1_stored _ _ _ (touchT1_stored _ _ _ hs)) (touchT1_stored _ _ _ hs)

theorem execLaunch_stored {queue : Nat} {host : List Byte} {s t : State} (hs : s.Stored) (h : execLaunch queue host s = .next t) : t.Stored := by
  refine stored_of_next h (takeCmd_stored _ _ _ _ _ (fun u t cmd hu => ?_) hs)
  split
  · exact complete_stored _ _ _ _ hu
  · extract_lets v j w x
    have hv : v.Stored := readLaunch_stored _ _ hu
    clear_value v
    split
    · exact complete_stored _ _ _ _ hv
    · exact schedule_stored _ _ (putEntry_stored _ _ _ (hv.keep (by simp +zetaDelta)))

theorem execQuantumExpire_stored {job : Nat} {s t : State} (hs : s.Stored) (h : execQuantumExpire job s = .next t) : t.Stored := by
  refine stored_of_next h ?_
  split
  · exact hs
  · exact ite_stored _ _ _ hs (schedule_stored _ _ (hs.keep (by simp)))

theorem execJobEntryUpdate_stored {job : Nat} {s t : State} (hs : s.Stored) (h : execJobEntryUpdate job s = .next t) : t.Stored := by
  refine stored_of_next h ?_
  split
  · exact ite_stored _ _ _ (updateJob_stored _ _ _ hs) hs
  · exact hs

theorem execCoreSignalArrival_stored {core job event : Nat} {s t : State} (hs : s.Stored) (h : execCoreSignalArrival core job event s = .next t) :
    t.Stored :=
  stored_of_next h (ite_stored _ _ _ (signalExt_stored _ _ _ _ (hs.keep (by simp))) hs)

theorem execBarrierComplete_stored {job : Nat} {s t : State} (hs : s.Stored) (h : execBarrierComplete job s = .next t) : t.Stored := by
  refine stored_of_next h ?_
  split
  · exact ite_stored _ _ _ hs (signalJob_stored _ _ _ (hs.keep (by simp)))
  · exact hs

theorem execUnitCtrlApplied_stored {s t : State} (hs : s.Stored) (h : execUnitCtrlApplied s = .next t) : t.Stored := by
  refine stored_of_next h ?_
  split
  · exact hs
  · dsimp only
    split
    · exact hs.keep (by simp)
    · exact applyCtrl_stored _ _ (hs.keep (by simp))

/-! ### Timing -/

theorem execDelayResponseReceive_stored {hd : PacketHead} {exchange plane gm t4 : Nat} {corr : Int} {s t : State} (hs : s.Stored)
    (h : execDelayResponseReceive hd exchange plane gm t4 corr s = .next t) : t.Stored := by
  refine stored_of_next h (timingTake_stored _ _ _ (fun u hu => ite_stored _ _ _ (ite_stored _ _ _ hu (hu.keep (by simp))) ?_) hs)
  extract_lets v
  have hv : v.Stored := hu.keep (by simp +zetaDelta)
  clear_value v
  split
  · exact ite_stored _ _ _ (hv.keep (by simp)) hv
  · exact hv

theorem execGscMedianUpdate_stored {s t : State} (hs : s.Stored) (h : execGscMedianUpdate s = .next t) : t.Stored := by
  refine stored_of_next h (ite_stored _ _ _ hs ?_)
  extract_lets os u
  have hu : u.Stored := hs.keep (by simp +zetaDelta)
  clear_value u
  split
  · exact hu
  · exact hu.keep (by simp)

/-! ### Memory -/

theorem execBar4Write_stored {offset : Nat} {data : List Byte} {report : BankReport} {s t : State} (hs : s.Stored)
    (h : execBar4Write offset data report s = .next t) : t.Stored :=
  stored_of_next h (ite_stored _ _ _ hs (ite_stored _ _ _ (hs.keep (by simp)) (ite_stored _ _ _ hs (t1Put_stored _ _ _ (hs.keep (by simp))))))

theorem execBar4Read_stored {offset bytes : Nat} {report : BankReport} {s t : State} (hs : s.Stored)
    (h : execBar4Read offset bytes report s = .next t) : t.Stored := by
  unfold execBar4Read at h
  extract_lets u got data v got' data' w at h
  have hv : v.Stored := t1Read_stored _ _ _ (hs.keep (by simp +zetaDelta))
  have hw : w.Stored := hv.keep (afterScan_stores _ _ _)
  clear_value v w
  exact stored_of_next h (ite_stored _ _ _ hs (ite_stored _ _ _ (emit_stored _ _ hs)
    (ite_stored _ _ _ (emit_stored _ _ hv) (emit_stored _ _ hw))))

theorem execMemFlushStart_stored {s t : State} (hs : s.Stored) (h : execMemFlushStart s = .next t) : t.Stored :=
  stored_of_next h (hostWrite_stored _ _ _ _ (fun _ hu => ite_stored _ _ _ hu (setFld_stored _ _ _ _ (beginFlush_stored _ hu))) hs)

theorem execLendZeroingComplete_stored {entry : Nat} {s t : State} (hs : s.Stored) (h : execLendZeroingComplete entry s = .next t) :
    t.Stored :=
  stored_of_next h (ite_stored _ _ _ hs (setFld_stored _ _ _ _ (t1Zero_stored _ _ _ hs)))

theorem execDieLinkBeatError_stored {link dir : Nat} {beat : DieBeat} {s t : State} (hs : s.Stored)
    (h : execDieLinkBeatError link dir beat s = .next t) : t.Stored := by
  refine stored_of_next h (ite_stored _ _ _ hs (ite_stored _ _ _ (ite_stored _ _ _ (hs.keep (by simp)) hs) ?_))
  exact ite_stored _ _ _ (hs.keep (by simp)) (moduleFault_stored _ _ _ _ (hs.keep (by simp)))

/-! ### Reset, start and shutdown -/

theorem execMresetAssert_stored {us : Nat} {taken : Bool} {s t : State} (hs : s.Stored) (h : execMresetAssert us taken s = .next t) : t.Stored :=
  stored_of_next h (ite_stored _ _ _ hs ((moduleReset_stored _ hs).keep (by simp)))

theorem execTopModuleReset_stored {s t : State} (hs : s.Stored) (h : execTopModuleReset s = .next t) : t.Stored :=
  stored_of_next h (hostWrite_stored _ _ _ _ (fun _ hu => (moduleReset_stored _ hu).keep (by simp)) hs)

theorem execStartStageTimeout_stored {cause : Nat} {s t : State} (hs : s.Stored) (h : execStartStageTimeout cause s = .next t) : t.Stored :=
  stored_of_next h (ite_stored _ _ _ (failStart_stored _ _ hs) hs)

theorem execStageRefitComplete_stored {counts : List Nat} {s t : State} (hs : s.Stored) (h : execStageRefitComplete counts s = .next t) :
    t.Stored := by
  refine stored_of_next h (ite_stored _ _ _ hs ?_)
  extract_lets got u
  have hu : u.Stored := hs.keep (by simp +zetaDelta)
  clear_value u
  cases got with
  | none => exact failStart_stored _ _ hu
  | some d => exact hu.keep (by simp)

theorem execStageRepairComplete_stored {s t : State} (hs : s.Stored) (h : execStageRepairComplete s = .next t) : t.Stored := by
  unfold execStageRepairComplete at h
  refine stored_of_next h (ite_stored _ _ _ hs ?_)
  extract_lets all bad
  clear_value bad all
  exact ite_stored _ _ _ (failStart_stored _ _ hs) (ite_stored _ _ _ (failStart_stored _ _ hs) (hs.keep (by simp)))

theorem execStagePublishComplete_stored {s t : State} (hs : s.Stored) (h : execStagePublishComplete s = .next t) : t.Stored := by
  unfold execStagePublishComplete at h
  extract_lets u at h
  have hu : u.Stored := setFld_stored _ _ _ _ (hs.keep (publish_stores s))
  clear_value u
  exact stored_of_next h (ite_stored _ _ _ hs (ite_stored _ _ _ (hu.keep (by simp)) (hu.keep (by simp))))

theorem execShutdownStart_stored {s t : State} (hs : s.Stored) (h : execShutdownStart s = .next t) : t.Stored :=
  stored_of_next h (hostWrite_stored _ _ _ _ (fun _ hu => beginShutdown_stored _ _ hu) hs)

theorem execShutdownStartSkipTest_stored {s t : State} (hs : s.Stored) (h : execShutdownStartSkipTest s = .next t) : t.Stored :=
  stored_of_next h (hostWrite_stored _ _ _ _ (fun _ hu => beginShutdown_stored _ _ hu) hs)

theorem execShutdownCloseComplete_stored {s t : State} (hs : s.Stored) (h : execShutdownCloseComplete s = .next t) : t.Stored :=
  stored_of_next h (inPhase_stored _ _ _ (fun _ hu =>
    ite_stored _ _ _ hu (ite_stored _ _ _ (hu.keep (by simp)) ((beginFlush_stored _ hu).keep (by simp)))) hs)

theorem execSliceCommitComplete_stored {s t : State} (hs : s.Stored) (h : execSliceCommitComplete s = .next t) : t.Stored := by
  refine stored_of_next h (inPhase_stored _ _ _ (fun d hu => ?_) hs)
  split
  · exact hu
  · refine ite_stored _ _ _ hu ?_
    extract_lets n u v w
    have hw : w.Stored := ite_stored _ _ _ (hu.keep (by simp +zetaDelta)) (hu.keep (by simp +zetaDelta))
    exact ite_stored _ _ _ (hw.keep (by simp)) (hw.keep (by simp))

theorem execShutdownOffComplete_stored {s t : State} (hs : s.Stored) (h : execShutdownOffComplete s = .next t) : t.Stored :=
  stored_of_next h (inPhase_stored _ _ _ (fun _ hu => (lasersOff_stored _ hu).keep (by simp)) hs)

theorem execStageMemoryComplete_stored {s t : State} (hs : s.Stored) (h : execStageMemoryComplete s = .next t) : t.Stored := by
  refine stored_of_next h (ite_stored _ _ _ hs ?_)
  exact Stored.keep (s := { s with mem := ⟨[], [], [], s.mem.t3⟩, stack := [] }) (cleared_ok s hs) (by simp)

theorem execPowerOnReset_stored {inputs : InputVolts} {found : PowerOn} {s t : State} (hs : s.Stored)
    (h : execPowerOnReset inputs found s = .next t) : t.Stored := by
  refine stored_of_next h (ite_stored _ _ _ hs ?_)
  refine Stored.keep (s := { s with mem := ⟨[], [], [], s.mem.t3⟩, stack := [] }) (cleared_ok s hs) ?_
  simp [State.reset]

/-- The commands that change no byte store. -/
def keepsStores : Instr → Bool
  | .ratectlGustRequest .. | .ratectlBreezeRequest .. | .rateChangeComplete | .pacingWindowEnd .. | .breezeRailAdjust | .pacingRaiseStep
  | .unitEvtClear .. | .groupDefine .. | .tileClaimApply .. | .tilecntHostWrite .. | .memLockSet | .memFlushComplete | .t2mapActivate ..
  | .t2mapRelease .. | .lendActivate .. | .lendRecall .. | .t2RecallReceive .. | .t2ReleaseReceive .. | .lendDeadlineExpire ..
  | .t2BorrowerExpire .. | .nvsRingEnable .. | .nvsCmdtailWrite .. | .nvsCplheadWrite .. | .nvsReadDisturbRelocate .. | .nvsScrub ..
  | .nvsDigestCheck .. | .nvsCheckpoint | .keepRepairPeriodEnd .. | .recvIdleTimeout .. | .genSetLoading .. | .genSetEmpty ..
  | .genactWrite .. | .nvsLockSet | .ploadReplyTimeout | .ploadEvictTimeout | .seqKvlockSet | .queueEnable .. | .queueDisable ..
  | .doorbellTail .. | .doorbellHead .. | .serveEnable .. | .sampleResultWrite .. | .xeContextClose .. | .switchDrainComplete ..
  | .flitReceive .. | .linkAckDue .. | .epidValidSet .. | .epidValidClear | .groupEntryWrite .. | .gmSyncSend | .syncReceive ..
  | .delayRequestReceive .. | .gscHoldoverEntry | .gscFreerunEntry | .gscLowRead | .gscHighRead | .targetAcceptDue .. | .regionEnable ..
  | .teardownComplete .. | .fabBulkRingEnable .. | .fabBqtailWrite .. | .fabBcheadWrite .. | .pcieLinkDown | .inputSwitchOver ..
  | .returnToMain .. | .inputBusSag .. | .inhibitClear .. | .leaseExpire | .capPacingStep .. | .tailwindEnable ..
  | .tailwindReportSend .. | .tailwindReportReceive .. | .tailwindGrantReceive .. | .tailwindGrantExpire .. | .tailwindGivenRelease ..
  | .diodeSample .. | .throttleStep | .refitPeriod | .refitRequest | .refitComplete .. | .imageHealthy | .trialWatchdogExpire
  | .logPageTimeout | .logFetch .. | .mailboxGo .. | .mailboxResponseReady .. | .setEndpointId .. | .getTid .. | .setTid ..
  | .getPldmVersion .. | .getPldmTypes .. | .getPldmCommands .. | .getSensorReading .. | .getStateSensorReadings ..
  | .setNumericSensorEnable .. | .getPdrRepositoryInfo .. | .setEventReceiver .. | .getEventReceiver .. | .setStateEffecterStates ..
  | .queryDeviceIdentifiers .. | .getFirmwareParameters .. | .requestUpdate .. | .passComponentTable .. | .updateComponent ..
  | .firmwareDataReceive .. | .activateFirmware .. | .getStatus .. | .cancelUpdateComponent .. | .cancelUpdate .. | .setLease ..
  | .getLease .. | .getLogRecords .. | .getLogRange .. | .getVersion .. | .getCapabilities .. | .negotiateAlgorithms .. | .getDigests ..
  | .getCertificate .. | .challenge .. | .getMeasurements .. | .keyExchange .. | .finish .. | .heartbeat .. | .spdmHeartbeatTimeout ..
  | .endSession .. | .moduleResetRelease | .perstAssert | .stageBriloComplete | .stagePlanComplete .. | .stageRailsComplete
  | .stageClocksComplete | .stageLinksComplete | .stageCheckComplete .. | .stageNvsComplete | .stageReadyComplete | .startRetry
  | .clearAttempts | .forceApron | .shutdownWritebackComplete | .shutdownCheckpointComplete | .secretsClearComplete ..
  | .sliceTestsComplete .. | .sliceBudgetExpire .. | .testBudgetExpire .. | .lullWindowEnd | .lullTallySend | .lullReportReceive ..
  | .lullNoticeReceive .. | .lullTallyReceive .. | .arbiterTallySend | .counterSatClear .. | .logFetchComplete ..
  | .targetStallTimeout .. | .creditReturnReceive .. | .perstRelease | .pcieLinkUp .. | .powerManagementStateWrite .. => true
  | _ => false

/-- Each of them changes fields of the state only, whatever branch it takes. -/
theorem exec_stores {c : Instr} {s t : State} (hc : keepsStores c = true) (h : exec c s = .next t) : t.mem = s.mem ∧ t.stack = s.stack := by
  cases c <;> cases hc
  all_goals
    cases h
    (repeat' split) <;> simp
/-! ### Register writes (R13, R511 to R518) -/

theorem applied_stored {s : State} {o : Host.Outcome State Fault Refusal} (hs : s.Stored) (h : ∀ t, o = .next t → t.Stored) :
    (s.applied o).Stored := by
  cases o
  case next t => exact h t rfl
  all_goals exact hs

/-- A word may run a command that changes no byte store. -/
theorem applied_stored_of_keepsStores {s : State} (c : Instr) (hc : keepsStores c = true) (hs : s.Stored) : (s.applied (exec c s)).Stored :=
  applied_stored hs fun _ h => stored_of_stores (exec_stores hc h) hs

theorem topWord_stored {o v : Nat} {g : Nat → State → State} {s : State} (hg : topWord o = some g) (hs : s.Stored) : (g v s).Stored := by
  unfold topWord at hg
  split at hg
  · cases hg
    have hc := ite_stored (bit v 0 = true) _ _ (applied_stored_of_keepsStores .clearAttempts rfl hs) hs
    exact ite_stored _ _ _ (applied_stored_of_keepsStores .forceApron rfl hc) hc
  · split at hg
    · cases hg
      exact ite_stored _ _ _ (applied_stored hs fun _ h => execTopModuleReset_stored hs h) hs
    · split at hg
      · cases hg
        exact ite_stored _ _ _ (beginShutdown_stored _ _ hs) hs
      · cases hg

theorem stageSlots_stored (s : State) (g i v : Nat) (hs : s.Stored) : (s.stageSlots g i v).Stored := hs.keep (by simp)

theorem capWord_stored {o v : Nat} {g : Nat → State → State} {s : State} (hg : Machine.capWord o = some g) (hs : s.Stored) : (g v s).Stored := by
  unfold Machine.capWord at hg
  extract_lets i w at hg
  split at hg
  · cases hg
  · split at hg
    · cases hg
      exact applied_stored_of_keepsStores (.groupDefine _ _) rfl hs
    · split at hg
      · cases hg
        exact stageSlots_stored _ _ _ _ hs
      · cases hg

theorem pwrWord_stored {o v : Nat} {g : Nat → State → State} {s : State} (hg : pwrWord o = some g) (hs : s.Stored) : (g v s).Stored := by
  unfold pwrWord at hg
  split at hg
  · cases hg
    exact hs.keep (by simp)
  · split at hg
    · cases hg
      exact ite_stored _ _ _ (hs.keep (by simp)) (ite_stored _ _ _ (hs.keep (by simp)) (hs.keep (by simp)))
    · split at hg
      · cases hg
        exact ite_stored _ _ _ (hs.keep (by simp)) hs
      · cases hg

theorem mgtWord_stored {o v : Nat} {g : Nat → State → State} {s : State} (hg : mgtWord o = some g) (hs : s.Stored) : (g v s).Stored := by
  unfold mgtWord at hg
  split at hg
  · cases hg
    exact applied_stored_of_keepsStores (.logFetch v) rfl hs
  · split at hg
    · cases hg
      have hd := ite_stored (bit v 30 = true) _ _ (setFld_stored s Reg.MGT_MBCTL.done 0 0 hs) hs
      exact ite_stored _ _ _ (applied_stored_of_keepsStores (.mailboxGo _) rfl hd) (hd.keep (by simp))
    · cases hg

theorem seqWord_stored {o v : Nat} {g : Nat → State → State} {s : State} (hg : seqWord o = some g) (hs : s.Stored) : (g v s).Stored := by
  unfold seqWord at hg
  extract_lets i q at hg
  split at hg
  · cases hg
    exact ite_stored _ _ _ (applied_stored_of_keepsStores .seqKvlockSet rfl hs) hs
  · split at hg
    · cases hg
      exact ite_stored _ _ _ (applied_stored_of_keepsStores (.serveEnable i v) rfl hs)
        (ite_stored _ _ _ (setFld_stored _ _ _ _ hs) (setFld_stored _ _ _ _ hs))
    · split at hg
      · cases hg
        exact jobControl_stored _ _ _ hs
      · split at hg
        · cases hg
          exact ite_stored _ _ _ (applied_stored_of_keepsStores (.queueEnable q v) rfl hs)
            (ite_stored _ _ _ (applied_stored_of_keepsStores (.queueDisable q) rfl hs)
              (setFld_stored _ _ _ _ (setFld_stored _ _ _ _ (setFld_stored _ _ _ _ hs))))
        · cases hg

theorem fabWord_stored {o v : Nat} {g : Nat → State → State} {s : State} (hg : fabWord o = some g) (hs : s.Stored) : (g v s).Stored := by
  unfold fabWord at hg
  extract_lets p i at hg
  split at hg
  · cases hg
    exact ite_stored _ _ _ (applied_stored_of_keepsStores (.epidValidSet _) rfl hs)
      (ite_stored _ _ _ (applied_stored_of_keepsStores .epidValidClear rfl hs) (ite_stored _ _ _ (hs.keep (by simp)) (hs.keep (by simp))))
  · split at hg
    · cases hg
      have hp := ite_stored (bit v 0 = true) _ _ (applied_stored hs fun _ h => execPortFence_stored (port := p) hs h)
        (applied_stored hs fun _ h => execPortUnfence_stored (port := p) hs h)
      have hf := ite_stored (bit v 0 = s.flag Reg.FAB_PORTCTL.fence p) _ _ hs hp
      exact ite_stored _ _ _ (applied_stored hf fun _ h => execPortRetrain_stored hf h) hf
    · split at hg
      · cases hg
        exact ite_stored _ _ _ (applied_stored_of_keepsStores (.fabBulkRingEnable v) rfl hs) (ite_stored _ _ _ hs (setFld_stored _ _ _ _ hs))
      · split at hg
        · cases hg
          exact applied_stored_of_keepsStores (.fabBqtailWrite v) rfl hs
        · split at hg
          · cases hg
            exact applied_stored_of_keepsStores (.fabBcheadWrite v) rfl hs
          · split at hg
            · cases hg
              exact ite_stored _ _ _ (applied_stored_of_keepsStores (.regionEnable i v) rfl hs)
                (ite_stored _ _ _ hs (setFld_stored _ _ _ _ (setFld_stored _ _ _ _ (setFld_stored _ _ _ _ hs))))
            · split at hg
              · cases hg
                exact applied_stored_of_keepsStores (.groupEntryWrite _ _) rfl hs
              · cases hg

theorem xeWord_stored {o v : Nat} {g : Nat → State → State} {s : State} (hg : xeWord o = some g) (hs : s.Stored) : (g v s).Stored := by
  unfold xeWord at hg
  extract_lets x at hg
  split at hg
  · cases hg
    exact ite_stored _ _ _ (applied_stored hs fun _ h => execXeContextOpen_stored hs h)
      (ite_stored _ _ _ (applied_stored_of_keepsStores (.xeContextClose x) rfl hs) (setFld_stored _ _ _ _ hs))
  · cases hg

theorem memWord_stored {o v : Nat} {g : Nat → State → State} {s : State} (hg : memWord o = some g) (hs : s.Stored) : (g v s).Stored := by
  unfold memWord at hg
  extract_lets i j at hg
  split at hg
  · cases hg
    exact ite_stored _ _ _ (applied_stored_of_keepsStores .memLockSet rfl hs) hs
  · split at hg
    · cases hg
      exact ite_stored _ _ _ (applied_stored hs fun _ h => execMemFlushStart_stored hs h) hs
    · split at hg
      · cases hg
        exact ite_stored _ _ _ (applied_stored_of_keepsStores (.t2mapActivate i _) rfl hs)
          (ite_stored _ _ _ hs (ite_stored _ _ _ (setFld_stored _ _ _ _ hs) (applied_stored_of_keepsStores (.t2mapRelease i) rfl hs)))
      · split at hg
        · cases hg
          have ha := ite_stored (bit v 1 = true) _ _ (applied_stored_of_keepsStores (.lendActivate j) rfl hs) hs
          exact ite_stored _ _ _ (applied_stored_of_keepsStores (.lendRecall j) rfl ha) ha
        · cases hg

theorem nvsWord_stored {o v : Nat} {g : Nat → State → State} {s : State} (hg : nvsWord o = some g) (hs : s.Stored) : (g v s).Stored := by
  unfold nvsWord at hg
  extract_lets i at hg
  split at hg
  · cases hg
    exact ite_stored _ _ _ (applied_stored_of_keepsStores .nvsLockSet rfl hs) hs
  · split at hg
    · cases hg
      exact ite_stored _ _ _ (applied_stored_of_keepsStores (.nvsRingEnable v) rfl hs) (ite_stored _ _ _ hs (hs.keep (by simp)))
    · split at hg
      · cases hg
        exact applied_stored_of_keepsStores (.nvsCmdtailWrite v) rfl hs
      · split at hg
        · cases hg
          exact applied_stored_of_keepsStores (.nvsCplheadWrite v) rfl hs
        · split at hg
          · cases hg
            have hr := applied_stored hs fun _ h => execGenSetReady_stored (slot := i) hs h
            dsimp only
            split
            · exact applied_stored_of_keepsStores (.genSetEmpty i _) rfl hs
            · exact applied_stored_of_keepsStores (.genSetLoading i _) rfl hs
            · exact ite_stored _ _ _ (hr.keep (by simp)) hr
            · exact ite_stored _ _ _ hs (hs.keep (by simp))
          · split at hg
            · cases hg
              exact applied_stored_of_keepsStores (.genactWrite _) rfl hs
            · cases hg

theorem unitWrite_stored {o v : Nat} {g : Nat → State → State} {s : State} (hg : unitWrite o = some g) (hs : s.Stored) : (g v s).Stored := by
  unfold unitWrite at hg
  extract_lets slot at hg
  split at hg
  · cases hg
  · split at hg
    · cases hg
      exact writeCtrl_stored _ _ hs
    · split at hg
      · cases hg
        exact applied_stored_of_keepsStores (.unitEvtClear slot v) rfl hs
      · cases hg

theorem actionWord_stored {o v : Nat} {g : Nat → State → State} {s : State} (hg : actionWord o = some g) (hs : s.Stored) : (g v s).Stored := by
  unfold actionWord at hg
  split at hg
  · exact topWord_stored hg hs
  · exact capWord_stored hg hs
  · exact pwrWord_stored hg hs
  · exact mgtWord_stored hg hs
  · exact seqWord_stored hg hs
  · exact fabWord_stored hg hs
  · exact xeWord_stored hg hs
  · exact memWord_stored hg hs
  · exact nvsWord_stored hg hs
  · exact unitWrite_stored hg hs
  · cases hg

theorem clearBit_stored {s : State} (f : Field) (i : Nat) (hs : s.Stored) : (s.clearBit f i).Stored :=
  ite_stored _ _ _ (hs.keep (by simp)) (ite_stored _ _ _ (hs.keep (clearFlds_stores _ _ _))
    (ite_stored _ _ _ (hs.keep (clearFlds_stores _ _ _)) (hs.keep (by simp))))

theorem writeField_stored {s : State} (offset bytes : Nat) (f : Field) (i v : Nat) (hs : s.Stored) :
    (s.writeField offset bytes f i v).Stored := by
  have store : (if s.legalValue f i v && s.mayWrite f i v then s.setFld f v i else s).Stored := ite_stored _ _ _ (hs.keep (by simp)) hs
  unfold State.writeField
  dsimp only
  split
  case h_4 | h_5 => exact ite_stored _ _ _ hs (clearBit_stored _ _ hs)
  case h_6 => exact ite_stored _ _ _ (hs.keep (by simp)) store
  case h_7 | h_8 => exact store
  all_goals exact hs

theorem afterWrite_stored {s : State} (offset : Nat) (hs : s.Stored) : (s.afterWrite offset).Stored :=
  ite_stored _ _ _ (hs.keep (by simp)) (ite_stored _ _ _ (foldl_stored _ (fun _ _ ht => ht.keep (by simp)) _ _ hs)
    (ite_stored _ _ _ hs (hs.keep (by simp))))

theorem applyWrite_stored {s : State} (offset bytes v : Nat) (hs : s.Stored) : (s.applyWrite offset bytes v).Stored := by
  unfold State.applyWrite
  refine ite_stored _ _ _ (ite_stored _ _ _ hs (hs.keep (by simp))) (ite_stored _ _ _ hs ?_)
  extract_lets parts u act w
  have hu : u.Stored := foldl_stored _ (fun _ _ ht => ite_stored _ _ _ (ht.keep (by simp)) (ite_stored _ _ _ ht (ite_stored _ _ _ ht
    (writeField_stored _ _ _ _ _ ht)))) _ _ hs
  have hact (t : State) (o : Nat) (ht : t.Stored) : (act t o).Stored := by
    simp only [act]
    split
    · exact actionWord_stored ‹_› ht
    · exact ht
  have hw : w.Stored := ite_stored _ _ _ (hact _ _ hu) hu
  exact afterWrite_stored _ (hact _ _ hw)

theorem execRegisterWrite_stored {offset bytes value : Nat} {s t : State} (hs : s.Stored) (h : execRegisterWrite offset bytes value s = .next t) :
    t.Stored := by
  have relabelled (u v : State) (hv : v.Stored) : (relabel u v offset bytes).Stored := ite_stored _ _ _ (hv.keep (by simp)) hv
  refine stored_of_next h (ite_stored _ _ _ hs (hostWrite_stored _ _ _ _ (fun u hu => ?_) hs))
  exact ite_stored _ _ _ (relabelled _ _ (applyWrite_stored _ _ _ hu)) (hu.keep (by simp))

/-! ### Every command -/

/-- Every command keeps the byte stores canonical: its own lemma says so, or it changes no store. -/
theorem exec_stored {c : Instr} {s t : State} (hs : s.Stored) (h : exec c s = .next t) : t.Stored := by
  cases c
  case registerWrite => exact execRegisterWrite_stored hs h
  -- Sequencer rows.
  case selA | selC | moviA | moviC | add | sub | addi | muli | shli | shri | andi | minu | maxu | addai | mada | movCa | movAc =>
    exact runSimple_stored _ _ _ _ _ _ _ _ h hs
  case cmp | cmpi | cmpa => exact runCompare_stored _ _ _ _ _ _ _ h hs
  case pand | por | pxor | pandn | pnot | pset =>
    unfold exec at h
    exact runPlog_stored _ _ _ _ _ _ h hs
  case vmac | vewFma | vewMul | vewAdd | vewSub | vewMax | vewMin | vewMulv | vewAdds | vredMax | vredSum | vredSumsq | vexpExp | vexpRcp
      | vexpRsqrt | vcmp | vsel | vtest | vcvt => exact issueVrw_stored _ _ _ _ _ h hs
  case rld | rst | ratomFetchAdd | ratomCompareSwap | rredAddInt32 | rredAddFp32 | rredAddBf16 | rredMaxFp32 | rredMaxBf16 | rmcs | bput
      | bget | msend => exact issueFab_stored _ _ _ _ _ _ h hs
  case xdisp | xret | seiterBatch | seiterResult | sepage | sekv | selogitTarget | selogitDraft | sedone =>
    unfold exec at h
    exact issueBlock_stored _ _ _ _ _ _ _ _ _ h hs
  case endJob | loop | skip | adda | setldb | dpass | sigcRank | sigcCluster | bar | tclaim =>
    exact stored_of_next h (issue_stored_of_stores _ _ _ _ (fun _ _ _ => by simp) hs)
  case movl | mfill | movd => exact stored_of_next h (issue_stored _ _ _ _ (fun _ _ _ ht => pushMover_stored _ _ _ _ ht) hs)
  case alarmSet | alarmRelative =>
    exact runAlarm_stored _ _ _ _ _ (fun _ _ ht => armAlarm_stored _ _ _ _ (ht.keep (by simp))) _ h hs
  -- Commands of one operation.
  case targetLoad | targetStore | targetAtomic | targetReduce | targetMessage => exact stored_of_next h (target_stored _ _ _ _ _ _ _ hs)
  case bulkPut | bulkGet => exact stored_of_next h (takeBulk_stored _ _ _ hs)
  case write | load | verify | delete | keep | recv | pload | pevict => exact stored_of_next h (nvTake_stored _ _ _ hs)
  case jobSuspend | jobResume | jobAbort => exact stored_of_next h (jobControl_stored _ _ _ hs)
  case unitEnable | unitQuiesce | unitReset => exact stored_of_next h (writeCtrl_stored _ _ hs)
  case stagingWriteback => exact stored_of_next h (writeBack_stored _ _ hs)
  -- Commands with a meaning of their own.
  case dieLinkBeatError => exact execDieLinkBeatError_stored hs h
  case unitCtrlApplied => exact execUnitCtrlApplied_stored hs h
  case nop => exact execNop_stored hs h
  case corePartEnd => exact execCorePartEnd_stored hs h
  case rds => exact execRds_stored hs h
  case alarmDisarm => exact execAlarmDisarm_stored hs h
  case gscAlarmFire => exact execGscAlarmFire_stored hs h
  case coreSignalArrival => exact execCoreSignalArrival_stored hs h
  case barrierComplete => exact execBarrierComplete_stored hs h
  case tclaimReturn => exact execTclaimReturn_stored hs h
  case dpassComplete => exact execDpassComplete_stored hs h
  case vrwOpComplete => exact execVrwOpComplete_stored hs h
  case moverBeatComplete => exact execMoverBeatComplete_stored hs h
  case moverBeatTimeout => exact execMoverBeatTimeout_stored hs h
  case mrecv => exact execMrecv_stored hs h
  case fence => exact execFence_stored hs h
  case xeRowsTaken => exact execXeRowsTaken_stored hs h
  case seOpComplete => exact execSeOpComplete_stored hs h
  case bar4Write => exact execBar4Write_stored hs h
  case bar4Read => exact execBar4Read_stored hs h
  case memFlushStart => exact execMemFlushStart_stored hs h
  case lendZeroingComplete => exact execLendZeroingComplete_stored hs h
  case nvsCommandComplete => exact execNvsCommandComplete_stored hs h
  case nandOperationFail => exact execNandOperationFail_stored hs h
  case nvsWearLevel =>
    unfold exec at h
    exact execNvsWearLevel_stored hs h
  case keeperChunkReceive =>
    unfold exec at h
    exact execKeeperChunkReceive_stored hs h
  case keeperMarkerReceive => exact execKeeperMarkerReceive_stored hs h
  case repairRequestReceive => exact execRepairRequestReceive_stored hs h
  case genSetReady => exact execGenSetReady_stored hs h
  case patchInstallReceive => exact execPatchInstallReceive_stored hs h
  case memberReplyReceive => exact execMemberReplyReceive_stored hs h
  case fork => exact execFork_stored hs h
  case park => exact execPark_stored hs h
  case restore =>
    unfold exec at h
    exact execRestore_stored hs h
  case drop => exact execDrop_stored hs h
  case release => exact execRelease_stored hs h
  case ledgerRecordReceive => exact execLedgerRecordReceive_stored hs h
  case ledgerGapTimeout => exact execLedgerGapTimeout_stored hs h
  case parkedTtlVisit => exact execParkedTtlVisit_stored hs h
  case restoreReplyTimeout => exact execRestoreReplyTimeout_stored hs h
  case launch => exact execLaunch_stored hs h
  case admitSeq => exact execAdmitSeq_stored hs h
  case cancel => exact execCancel_stored hs h
  case batchForm => exact execBatchForm_stored hs h
  case batchDescriptorReceive => exact execBatchDescriptorReceive_stored hs h
  case samplerPartialReceive => exact execSamplerPartialReceive_stored hs h
  case batchEndReportReceive => exact execBatchEndReportReceive_stored hs h
  case xeContextOpen => exact execXeContextOpen_stored hs h
  case xeRowReceive => exact execXeRowReceive_stored hs h
  case xeEndMarkerReceive => exact execXeEndMarkerReceive_stored hs h
  case xeHalfTimeout => exact execXeHalfTimeout_stored hs h
  case quantumExpire => exact execQuantumExpire_stored hs h
  case switchSaveComplete => exact execSwitchSaveComplete_stored hs h
  case switchReadyComplete => exact execSwitchReadyComplete_stored hs h
  case jobEntryUpdate => exact execJobEntryUpdate_stored hs h
  case portTrainingComplete => exact execPortTrainingComplete_stored hs h
  case portTrainingRetry => exact execPortTrainingRetry_stored hs h
  case portLossOfSignal => exact execPortLossOfSignal_stored hs h
  case portRetrain => exact execPortRetrain_stored hs h
  case portFence => exact execPortFence_stored hs h
  case portUnfence => exact execPortUnfence_stored hs h
  case linkControlReceive => exact execLinkControlReceive_stored hs h
  case linkReplayTimeout => exact execLinkReplayTimeout_stored hs h
  case delayResponseReceive => exact execDelayResponseReceive_stored hs h
  case gscMedianUpdate => exact execGscMedianUpdate_stored hs h
  case targetMulticastStore => exact execTargetMulticastStore_stored hs h
  case fabricResponseReceive => exact execFabricResponseReceive_stored hs h
  case requestAttemptTimeout => exact execRequestAttemptTimeout_stored hs h
  case acceptWaitTimeout => exact execAcceptWaitTimeout_stored hs h
  case teardownReceive =>
    unfold exec at h
    exact execTeardownReceive_stored hs h
  case bulkComplete => exact execBulkComplete_stored hs h
  case laserCheck => exact execLaserCheck_stored hs h
  case brownOut => exact execBrownOut_stored hs h
  case tailwindDecision => exact execTailwindDecision_stored hs h
  case thermalTrip => exact execThermalTrip_stored hs h
  case fraySample => exact execFraySample_stored hs h
  case managementCoreStart => exact execManagementCoreStart_stored hs h
  case getPdr => exact execGetPdr_stored hs h
  case powerOnReset => exact execPowerOnReset_stored hs h
  case mresetAssert => exact execMresetAssert_stored hs h
  case topModuleReset => exact execTopModuleReset_stored hs h
  case stageRefitComplete => exact execStageRefitComplete_stored hs h
  case stageMemoryComplete => exact execStageMemoryComplete_stored hs h
  case stageRepairComplete => exact execStageRepairComplete_stored hs h
  case stagePublishComplete => exact execStagePublishComplete_stored hs h
  case startStageTimeout => exact execStartStageTimeout_stored hs h
  case shutdownStart => exact execShutdownStart_stored hs h
  case shutdownStartSkipTest => exact execShutdownStartSkipTest_stored hs h
  case shutdownCloseComplete => exact execShutdownCloseComplete_stored hs h
  case sliceCommitComplete => exact execSliceCommitComplete_stored hs h
  case shutdownOffComplete => exact execShutdownOffComplete_stored hs h
  -- The others change no byte store.
  all_goals exact stored_of_stores (exec_stores rfl h) hs

end Sys2Proof.Machine.State

namespace Sys2Proof.Machine

/-- Settles O4: an empty queue lets a nanosecond pass, which touches no byte store; a command in front keeps them canonical. -/
theorem bytesStayCanonical : Obligations.BytesStayCanonical := by
  unfold Obligations.BytesStayCanonical
  intro s t hs h
  unfold step at h
  split at h
  · exact State.stored_of_next h (hs.keep (State.tick_stores s))
  · next c rest _ =>
    have hrest : ({ s with pending := rest } : State).Stored := hs.keep (by simp)
    exact State.exec_stored hrest h

end Sys2Proof.Machine
end

