-- ==== Sys2Proof/Proofs/Resets.lean ====
section
/-! What the resets clear and keep (O58). -/

namespace Sys2Proof.Table

/-- Reading a table of which only the keys of `p` were kept. -/
theorem get_filter_keys {α : Type} (d : α) (p : Nat → Bool) (k : Nat) : ∀ t : List (Nat × α),
    get d (t.filter fun e => p e.1) k = if p k then get d t k else d
  | [] => by simp
  | (j, v) :: r => by
    have ih := get_filter_keys d p k r
    by_cases hj : j = k
    · subst hj
      by_cases hp : p j <;> simp_all [get]
    · by_cases hp : p j <;> simp_all [get]

end Sys2Proof.Table

namespace Sys2Proof.Machine.State

/-! ### What a reset computes in registers -/

/-- The rail governor does nothing while the core rail is off. -/
theorem gustGovern_of_not_pwrgd (s : State) (h : s.pwrgd = false) : s.gustGovern = s := by
  unfold State.gustGovern
  simp [h]

/-- The persistence area is shown in registers only. -/
theorem loadPersist_onlyRegs (s : State) : ∃ r, s.loadPersist = { s with regs := r } := by
  have results (l : List (Nat × Nat × Nat × Nat)) (t : State) (ht : ∃ r, t = { s with regs := r }) :
      ∃ r, l.foldl (fun s x => ((s.setFld Reg.TST_SLICE.result x.2.1 x.1).setFld Reg.TST_SLICE.faults x.2.2.1 x.1).setFld
        Reg.TST_SLICE.ms x.2.2.2 x.1) t = { s with regs := r } := by
    induction l generalizing t with
    | nil => exact ht
    | cons x l ih =>
      obtain ⟨r, rfl⟩ := ht
      exact ih _ ⟨_, rfl⟩
  exact results _ _ ⟨_, rfl⟩

/-- The persistence area is shown in the start's and the tests' registers. -/
theorem loadPersist_fld (s : State) (f : Field) (i : Nat) (hk : f.key i < 8 * 0x3000000)
    (hs : ∀ g ∈ [Reg.TOP_STARTSTAT.cause, Reg.TOP_STARTSTAT.fail_stage, Reg.TOP_STARTSTAT.attempts], f.key i ≠ g.key 0) :
    s.loadPersist.fld f i = s.fld f i := by
  have results (l : List (Nat × Nat × Nat × Nat)) (t : State) :
      (l.foldl (fun s x => ((s.setFld Reg.TST_SLICE.result x.2.1 x.1).setFld Reg.TST_SLICE.faults x.2.2.1 x.1).setFld
        Reg.TST_SLICE.ms x.2.2.2 x.1) t).fld f i = t.fld f i := by
    induction l generalizing t with
    | nil => rfl
    | cons x l ih =>
      rw [List.foldl_cons, ih, fld_setFld_ne, fld_setFld_ne, fld_setFld_ne]
      all_goals
        simp only [Field.key, Reg.TST_SLICE.result, Reg.TST_SLICE.faults, Reg.TST_SLICE.ms] at hk ⊢
        omega
  have tests (g : Field) (hg : 8 * 0x3000000 ≤ g.key 0) : f.key i ≠ g.key 0 := by omega
  simp only [List.mem_cons, forall_eq_or_imp, List.not_mem_nil, false_implies, implies_true, and_true] at hs
  obtain ⟨hc, hf, ha⟩ := hs
  unfold State.loadPersist
  simp only [results, State.setFlag]
  rw [fld_setFld_ne _ _ _ _ _ _ (tests Reg.TST_FRSTAT.full (by decide)), fld_setFld_ne _ _ _ _ _ _ (tests Reg.TST_FRSTAT.entries (by decide)),
    fld_setFld_ne _ _ _ _ _ _ (tests Reg.TST_CFG.slice_ms (by decide)), fld_setFld_ne _ _ _ _ _ _ (tests Reg.TST_CFG.total_s (by decide)),
    fld_setFld_ne _ _ _ _ _ _ ha, fld_setFld_ne _ _ _ _ _ _ hf, fld_setFld_ne _ _ _ _ _ _ hc]

/-! ### A module reset -/

/-- With the core rail off, the effective cap is shown and nothing follows it. -/
theorem recap_of_not_pwrgd (s : State) (h : s.pwrgd = false) : s.recap =
    ((s.setFld Reg.PWR_CAP.given_w (wattsOf s.grantsGiven)).setFld Reg.PWR_CAP.received_w (wattsOf s.grantsHeld)).setFld Reg.PWR_CAP.cap_w
      (min 2200 (s.fld Reg.PWR_LEASE.budget_w + wattsOf s.grantsHeld - wattsOf s.grantsGiven)) :=
  gustGovern_of_not_pwrgd _ h

/-- A module reset empties T1, scratch, cluster SRAM, the jobs and the cores, and keeps host memory and the store's NAND. -/
theorem moduleReset_keeps (s : State) : s.moduleReset.mem = ⟨[], [], [], s.mem.t3⟩ ∧ s.moduleReset.jobs = [] ∧ s.moduleReset.cores = [] ∧
    s.moduleReset.nvs = s.nvs.recover ∧ s.moduleReset.stack = [] ∧ s.moduleReset.pending = s.pending ∧ s.moduleReset.images = [] ∧
    s.moduleReset.switches = [] := by
  unfold State.moduleReset
  extract_lets u _ _ _ t
  have hu : u.mem = s.mem ∧ u.nvs = s.nvs ∧ u.pending = s.pending := by
    simp only [u]
    split
    · split <;> exact ⟨rfl, rfl, rfl⟩
    · exact ⟨rfl, rfl, rfl⟩
  obtain ⟨hm, hn, hp⟩ := hu
  obtain ⟨r, hr⟩ := loadPersist_onlyRegs (t.setFlag Reg.NVS_STATUS.inhibit (u.flag Reg.PWR_SUPSTAT.inhibit)).recap
  rw [hr, recap_of_not_pwrgd _ rfl, ← hm, ← hn, ← hp]
  exact ⟨rfl, rfl, rfl, rfl, rfl, rfl, rfl, rfl⟩

/-- A module reset keeps the fields `moduleKeeps` names, and puts back the others, but for those it computes again. -/
theorem moduleReset_fld (s : State) (f : Field) (i : Nat) (hi : i < f.count) (hk : f.key i < 8 * 0x3000000)
    (hs : ∀ g ∈ [Reg.TOP_STARTSTAT.cause, Reg.TOP_STARTSTAT.fail_stage, Reg.TOP_STARTSTAT.attempts, Reg.PWR_CAP.given_w, Reg.PWR_CAP.received_w,
      Reg.PWR_CAP.cap_w, Reg.NVS_STATUS.inhibit], f.key i ≠ g.key 0) :
    s.moduleReset.fld f i = if moduleKeeps (f.key i) then s.fld f i else f.reset := by
  simp only [List.mem_cons, forall_eq_or_imp, List.not_mem_nil, false_implies, implies_true, and_true] at hs
  obtain ⟨hc, hf, ha, hg, hr, hw, hn⟩ := hs
  unfold State.moduleReset
  extract_lets u _ _ _ t
  have hu : u.regs = s.regs := by
    simp only [u]
    split
    · split <;> rfl
    · rfl
  rw [loadPersist_fld _ _ _ hk (by simp [hc, hf, ha])]
  rw [recap_of_not_pwrgd _ rfl]
  simp only [State.setFlag]
  rw [fld_setFld_ne _ _ _ _ _ _ hw, fld_setFld_ne _ _ _ _ _ _ hr, fld_setFld_ne _ _ _ _ _ _ hg, fld_setFld_ne _ _ _ _ _ _ hn]
  simp only [State.fld, hi, if_true, t, hu]
  exact Table.get_filter_keys _ _ _ _

/-- The three locks are open after a module reset. -/
theorem moduleReset_locks (s : State) (l : Field) (hl : l ∈ [Reg.MEM_LOCK.lock, Reg.NVS_LOCK.lock, Reg.SEQ_KVLOCK.lock]) :
    s.moduleReset.flag l = false := by
  simp only [List.mem_cons, List.not_mem_nil, or_false] at hl
  unfold State.flag
  rcases hl with rfl | rfl | rfl
  all_goals
    rw [moduleReset_fld s _ 0 (by decide) (by decide) (by decide), if_neg (by decide)]
    rfl

/-- A module reset keeps the fault registers (R14). -/
theorem moduleReset_faults (s : State) (f : Field) (i : Nat) (hf : f ∈ [Reg.TOP_FAULT.cause, Reg.TOP_FAULT.slot, Reg.TOP_FAULT.cls,
    Reg.TOP_FAULT.valid, Reg.TOP_FAULT.gsc_lo, Reg.UNIT_FAULT.cause]) : s.moduleReset.fld f i = s.fld f i := by
  by_cases hi : i < f.count
  · simp only [List.mem_cons, List.not_mem_nil, or_false] at hf
    rcases hf with rfl | rfl | rfl | rfl | rfl | rfl
    case inr.inr.inr.inr.inr =>
      have hi' : i < 512 := hi
      have hheld : Reg.UNIT_FAULT.cause.holds (Reg.UNIT_FAULT.cause.key i) = true := Reg.UNIT_FAULT.cause.holds_key i hi (by decide)
      have hkeep : moduleKeeps (Reg.UNIT_FAULT.cause.key i) = true := by simp [moduleKeeps, hheld]
      have hkey : Reg.UNIT_FAULT.cause.key i = 8 * (0x2000038 + 256 * i) := rfl
      rw [moduleReset_fld s _ i hi (by omega) ?_, if_pos hkeep]
      have below (g : Field) (hg : g.key 0 < 8 * 0x2000000) : Reg.UNIT_FAULT.cause.key i ≠ g.key 0 := by omega
      simp only [List.mem_cons, forall_eq_or_imp, List.not_mem_nil, false_implies, implies_true, and_true]
      exact ⟨below _ (by decide), below _ (by decide), below _ (by decide), below _ (by decide), below _ (by decide), below _ (by decide),
        below _ (by decide)⟩
    all_goals
      obtain rfl : i = 0 := Nat.lt_one_iff.mp hi
      rw [moduleReset_fld s _ 0 (by decide) (by decide) (by decide), if_pos (by decide)]
  · rw [fld_of_ge _ f i (Nat.not_lt.mp hi), fld_of_ge _ f i (Nat.not_lt.mp hi)]

/-! ### Power-on -/

/-- Measuring the inputs shows in their registers only. -/
theorem meterInputs_fld (s : State) (main backup : Nat) (f : Field) (i : Nat)
    (h : ∀ k ∈ [Reg.PWR_INMEAS.mv.key 0, Reg.PWR_INMEAS.mv.key 1, Reg.PWR_SUPSTAT.main_ok.key 0, Reg.PWR_SUPSTAT.backup_ok.key 0],
      f.key i ≠ k) :
    (s.meterInputs main backup).fld f i = s.fld f i := by
  simp only [List.mem_cons, forall_eq_or_imp, List.not_mem_nil, false_implies, implies_true, and_true] at h
  obtain ⟨h0, h1, hm, hb⟩ := h
  simp only [State.meterInputs, State.setFlag]
  rw [fld_setFld_ne _ _ _ _ _ _ hb, fld_setFld_ne _ _ _ _ _ _ hm, fld_setFld_ne _ _ _ _ _ _ h1, fld_setFld_ne _ _ _ _ _ _ h0]

end Sys2Proof.Machine.State

namespace Sys2Proof.Machine

/-- Settles O58: each reset is the reset state with what it carries over, and its registers are those it keeps or computes again. -/
theorem resets : Obligations.Resets := by
  unfold Obligations.Resets
  refine ⟨fun s main backup found hin => ?_, fun s => ?_, fun s us taken hus => ?_, fun s us taken hus hst => ?_, fun s us taken => ?_,
    fun s hm => ?_, fun s ht => ?_, fun s hp => ?_, fun s => rfl⟩
  · have hgo : ¬ (main < 50000 ∧ backup < 50000) := by omega
    refine ⟨_, congrArg Host.Outcome.next (if_neg hgo), rfl, rfl, rfl, rfl, rfl, rfl, fun hb => ?_, fun k hb => ?_, rfl, rfl, rfl, fun l hl => ?_⟩
    · simp [hb, Nvs.recover, State.meterInputs, State.setFlag, State.setFld]
    · simp [hb, Nvs.recover, State.meterInputs, State.setFlag, State.setFld]
    · unfold State.flag
      simp only [List.mem_cons, List.not_mem_nil, or_false] at hl
      rcases hl with rfl | rfl | rfl
      all_goals
        rw [State.fld_setFld_ne _ _ _ _ _ _ (by decide), State.fld_setFld_ne _ _ _ _ _ _ (by decide), State.meterInputs_fld _ _ _ _ _ (by decide)]
        rfl
  · obtain ⟨hm, hj, hc, hn, hst, hp, hi, hsw⟩ := s.moduleReset_keeps
    refine ⟨hm, hj, hc, by rw [hn]; rfl, by rw [hn]; rfl, by rw [hn]; rfl, hst, hp, hi, hsw, s.moduleReset_locks, s.moduleReset_faults⟩
  · exact congrArg Host.Outcome.next (if_pos (by simp [hus]))
  · exact congrArg Host.Outcome.next (if_neg (by simp [hst]; omega))
  · by_cases h : (s.fld Reg.TOP_STARTSTAT.stage = 0 || decide (us < 5) || (decide (us < 10) && !taken)) = true
    · exact .inl (congrArg Host.Outcome.next (if_pos h))
    · exact .inr (congrArg Host.Outcome.next (if_neg h))
  · exact congrArg Host.Outcome.next (if_pos hm)
  · exact congrArg Host.Outcome.next (State.hostWrite_takes ht 4 _)
  · exact congrArg Host.Outcome.next (if_neg (by simp [hp]))

end Sys2Proof.Machine
end

