-- ==== Sys2Proof/Proofs/AfterReset.lean ====
section
/-! What the module holds right after reset (O2). -/

namespace Sys2Proof.Machine

/-- With no register listed, a field reads its reset value. -/
theorem State.reset_fld (f : Field) (i : Nat) (hi : i < f.count) : State.reset.fld f i = f.reset := if_pos hi

/-- With no register listed, a one-bit field whose reset value is 0 is clear. -/
theorem State.reset_flag (f : Field) (hf : 0 < f.count) (h0 : f.reset = 0) : State.reset.flag f = false := by
  simp [State.flag, State.reset_fld f 0 hf, h0]

/-- Settles O2: the reset state lists no register, no byte, no command, no job and no core, so each reads as its default. -/
theorem afterReset : Obligations.AfterReset := by
  unfold Obligations.AfterReset
  refine ⟨State.reset_fld, rfl, rfl, ?_, rfl, rfl, fun _ => rfl, State.reset_fld Reg.MEM_STALLTO.timeout_us,
    State.reset_fld Reg.SEQ_SCHEDCFG.quantum_ms 0 (by decide), State.reset_fld Reg.NVS_RINGCFG.log2n 0 (by decide),
    State.reset_flag Reg.MEM_LOCK.lock (by decide) rfl, State.reset_flag Reg.NVS_LOCK.lock (by decide) rfl,
    State.reset_flag Reg.SEQ_KVLOCK.lock (by decide) rfl⟩
  exact ⟨rfl, rfl⟩

end Sys2Proof.Machine
end

