-- ==== Sys2Proof/Proofs/HostWrites.lean ====
section
/-! Register writes of the host, and the clearing of a counter (O20). -/

namespace Sys2Proof.Machine.State

/-! ### The latch of disallowed accesses stays as it is -/

/-- A field stored outside the word of TOP_ACCERR.valid leaves the latch as it is. -/
theorem accerrValid_setFld (s : State) (f : Field) (v i : Nat) (h : f.key i < 8 * 0x14 ∨ 8 * 0x18 ≤ f.key i) :
    (s.setFld f v i).flag Reg.TOP_ACCERR.valid = s.flag Reg.TOP_ACCERR.valid := by
  refine flag_setFld_ne _ _ _ _ _ _ ?_
  have : Reg.TOP_ACCERR.valid.key 0 = 191 := rfl
  omega

theorem accerrValid_showLedger (s : State) (i : Nat) : (s.showLedger i).flag Reg.TOP_ACCERR.valid = s.flag Reg.TOP_ACCERR.valid := by
  unfold State.showLedger
  rw [accerrValid_setFld, accerrValid_setFld, accerrValid_setFld]
  all_goals
    simp only [Field.key, Reg.SEQ_KVSTAT.free_sets, Reg.SEQ_KVSTAT.free_park, Reg.SEQ_KVSTAT.free_tab]
    omega

theorem accerrValid_releaseNumeric (s : State) (c : Nat) : (s.releaseNumeric c).flag Reg.TOP_ACCERR.valid = s.flag Reg.TOP_ACCERR.valid := by
  unfold State.releaseNumeric
  split
  · rfl
  · simp only [State.clearFlds, List.foldl_cons, List.foldl_nil]
    rw [accerrValid_setFld, accerrValid_setFld, accerrValid_setFld]
    all_goals
      simp only [Field.key, Reg.SEQ_NUMFLAG.job, Reg.SEQ_NUMFLAG.first_engine, Reg.SEQ_NUMFLAG.first_index]
      omega

/-- What follows a register write leaves the latch as it is. -/
theorem accerrValid_afterWrite (s : State) (o : Nat) : (s.afterWrite o).flag Reg.TOP_ACCERR.valid = s.flag Reg.TOP_ACCERR.valid := by
  have ledgers (l : List Nat) (t : State) : (l.foldl State.showLedger t).flag Reg.TOP_ACCERR.valid = t.flag Reg.TOP_ACCERR.valid := by
    induction l generalizing t with
    | nil => rfl
    | cons i l ih => rw [List.foldl_cons, ih, accerrValid_showLedger]
  unfold State.afterWrite
  split
  · exact accerrValid_releaseNumeric _ _
  · split
    · exact ledgers _ _
    · split <;> rfl

/-- Where no register is computed from what was written, nothing follows a write. -/
theorem afterWrite_elsewhere (s : State) {o : Nat} (hn : ¬ (0x420000 ≤ o ∧ o < 0x422000)) (hl : ¬ (0x460000 ≤ o ∧ o < 0x460300))
    (ht : ¬ (0x3000000 ≤ o ∧ o < 0x3000008)) : s.afterWrite o = s := by
  unfold State.afterWrite
  rw [if_neg hn, if_neg hl, if_pos (by omega)]

/-- A write that leaves the latch as it is names nothing in it. -/
theorem relabel_of_same (s t : State) (offset bytes : Nat) (h : t.flag Reg.TOP_ACCERR.valid = s.flag Reg.TOP_ACCERR.valid) :
    relabel s t offset bytes = t := by
  unfold relabel
  rw [h]
  exact if_neg (by simp)

/-! ### A register write that reaches an open block -/

theorem execRegisterWrite_of_takes {s : State} {offset bytes : Nat} (value : Nat) (hlt : offset < 2 ^ 26) (ht : s.takes offset) :
    exec (.registerWrite offset bytes value) s = .next (
      if (bytes = 4 ∧ offset % 4 = 0) ∨ (bytes = 8 ∧ offset % 8 = 0) then relabel s (s.applyWrite offset bytes value) offset bytes
      else s.latchAccess 2 offset bytes) :=
  congrArg Host.Outcome.next ((if_neg (Nat.not_le.mpr hlt)).trans (hostWrite_takes ht bytes _))

/-- The writable fields a write covers, each with its number in the array. -/
def written (offset bytes : Nat) : List (Field × Nat) :=
  (blockFields (blockOf offset)).flatMap fun f => if f.writable then (f.hits offset bytes).map fun i => (f, i) else []

/-- What a legal write does to one field it covers. -/
def writePart (offset bytes v : Nat) (parts : List (Field × Nat)) (s : State) (x : Field × Nat) : State :=
  let k := x.1.key x.2
  if k < 8 * offset ∨ 8 * (offset + bytes) < k + x.1.width then s.latchAccess 2 offset bytes
  else if (actionWord (k / 32 * 4)).isSome then s
  else if x.1.stored && parts.any (s.spoils offset bytes v x) && !(x.1.access == .rwl && s.flag (lockFor x.1)) then s
  else s.writeField offset bytes x.1 x.2 (v / 2 ^ (k - 8 * offset) % x.1.size)

/-- The words that can hold a log2n of SEQ_QCFG have an effect of their own. -/
theorem badQueueWrite_of_no_action {o : Nat} (bytes v : Nat) (ha : actionWord o = none) : badQueueWrite o bytes v = false := by
  by_contra hb
  simp only [Bool.not_eq_false, badQueueWrite, Bool.and_eq_true, decide_eq_true_eq, beq_iff_eq] at hb
  obtain ⟨⟨⟨⟨hlo, hhi⟩, h8⟩, -⟩, -⟩ := hb
  have hblock : blockOf o = 4 := by
    unfold blockOf
    repeat rw [if_neg (by omega)]
    rw [if_pos (by omega)]
  simp only [actionWord, hblock, seqWord] at ha
  rw [if_neg (by omega), if_neg (by omega), if_neg (by omega), if_pos ⟨hlo, hhi, h8⟩] at ha
  cases ha

/-- A write of 4 bytes outside the mailbox, the empty slots and the words with an effect of their own goes field by field. -/
theorem applyWrite_plain (s : State) {o : Nat} (v : Nat) (hm : ¬ (0x201000 ≤ o ∧ o < 0x202000)) (ha : actionWord o = none)
    (he : emptyUnit o = false) : s.applyWrite o 4 v = ((written o 4).foldl (writePart o 4 v (written o 4)) s).afterWrite o := by
  unfold State.applyWrite
  rw [if_neg hm, badQueueWrite_of_no_action 4 v ha, he, if_neg (by simp)]
  simp only [ha]
  rfl

/-- A covered field starts below the end of the write. -/
theorem key_lt_of_written {o bytes i : Nat} {f : Field} (h : (f, i) ∈ written o bytes) : f.key i < 8 * (o + bytes) := by
  obtain ⟨g, -, hg⟩ := List.mem_flatMap.mp h
  split at hg
  · obtain ⟨j, hj, he⟩ := List.mem_map.mp hg
    cases he
    simp only [Field.hits, List.mem_filter, Bool.and_eq_true, decide_eq_true_eq] at hj
    exact hj.2.1.2
  · cases hg

/-- A stored field whose lock, if it has one, is open takes its part of a write where it may. -/
theorem writeField_stores_part (s : State) (offset bytes : Nat) {f : Field} {i : Nat} (v : Nat) (hst : f.stored = true)
    (hopen : f.access = .rwl → s.flag (lockFor f) = false) :
    s.writeField offset bytes f i v = if s.legalValue f i v && s.mayWrite f i v then s.setFld f v i else s := by
  unfold State.writeField Field.stored at *
  cases hacc : f.access <;> simp_all

/-- The one field of a word takes its part of the value where that is legal and the state of its register lets it be written. -/
theorem writePart_sole (s : State) {o : Nat} {f : Field} {i : Nat} (v : Nat) (h : soleField o f i) (hst : f.stored = true)
    (hopen : f.access = .rwl → s.flag (lockFor f) = false) :
    writePart o 4 v [(f, i)] s (f, i) =
      if s.legalValue f i (f.part o i v) && s.mayWrite f i (f.part o i v) then s.setFld f (f.part o i v) i else s := by
  obtain ⟨h4, -, -, -, ha, -, hparts, hlo, hhi⟩ := h
  have hwritten : written o 4 = [(f, i)] := hparts
  have hlt : f.key i < 8 * (o + 4) := key_lt_of_written (by simp [hwritten])
  have hword : f.key i / 32 * 4 = o := by omega
  have hspoil : s.spoils o 4 v (f, i) (f, i) = !s.legalValue f i (f.part o i v) := by simp [State.spoils, hlo, hhi, hst, Field.part]
  have hlock : (f.access == .rwl && s.flag (lockFor f)) = false := by
    by_cases hr : f.access = .rwl <;> simp [hr, hopen]
  unfold writePart
  simp only [List.any_cons, List.any_nil, hspoil, hlock, hword, ha, hst]
  rw [if_neg (by omega), if_neg (by simp), writeField_stores_part s o 4 _ hst hopen]
  rw [show v / 2 ^ (f.key i - 8 * o) % f.size = f.part o i v from rfl]
  cases s.legalValue f i (f.part o i v) <;> simp

/-- A write of a word with one field changes that field, where it may be written, and what is computed from it. -/
theorem registerWrite_sole (s : State) {o : Nat} {f : Field} {i : Nat} (v : Nat) (h : soleField o f i) (ht : s.takes o) (hst : f.stored = true)
    (hopen : f.access = .rwl → s.flag (lockFor f) = false) : exec (.registerWrite o 4 v) s =
      .next ((if s.legalValue f i (f.part o i v) && s.mayWrite f i (f.part o i v) then s.setFld f (f.part o i v) i else s).afterWrite o) := by
  obtain ⟨h4, hlt, hne, hm, ha, he, hparts, hlo, hhi⟩ := id h
  have hwritten : written o 4 = [(f, i)] := hparts
  have hend : f.key i < 8 * (o + 4) := key_lt_of_written (by simp [hwritten])
  rw [execRegisterWrite_of_takes v hlt ht, if_pos (.inl ⟨rfl, h4⟩), applyWrite_plain s v hm ha he, hwritten, List.foldl_cons, List.foldl_nil,
    writePart_sole s v h hst hopen, relabel_of_same]
  rw [accerrValid_afterWrite]
  split
  · exact accerrValid_setFld _ _ _ _ (by omega)
  · rfl

/-- A word without a writable field or an effect of its own changes nothing but what follows a write. -/
theorem registerWrite_none (s : State) {o : Nat} (v : Nat) (h4 : o % 4 = 0) (hlt : o < 2 ^ 26) (hm : ¬ (0x201000 ≤ o ∧ o < 0x202000))
    (ha : actionWord o = none) (he : emptyUnit o = false) (hno : ∀ f ∈ blockFields (blockOf o), f.writable = true → f.hits o 4 = [])
    (ht : s.takes o) : exec (.registerWrite o 4 v) s = .next (s.afterWrite o) := by
  have hwritten : written o 4 = [] := by
    refine List.flatMap_eq_nil_iff.mpr fun f hf => ?_
    split
    · rw [hno f hf ‹_›]
      rfl
    · rfl
  rw [execRegisterWrite_of_takes v hlt ht, if_pos (.inl ⟨rfl, h4⟩), applyWrite_plain s v hm ha he, hwritten, List.foldl_nil,
    relabel_of_same _ _ _ _ (accerrValid_afterWrite s o)]

/-! ### Event bits -/

/-- A value written to an event bit clears it where its own bit is 1. -/
def clearOne (v : Nat) (s : State) (f : Field) : State := if bit v f.low then s.setFld f 0 else s

theorem clearOne_keeps (v : Nat) (s : State) (f : Field) :
    (clearOne v s f).mem = s.mem ∧ (clearOne v s f).cores = s.cores ∧ (clearOne v s f).jobs = s.jobs := by
  unfold clearOne
  split <;> exact ⟨rfl, rfl, rfl⟩

theorem clearOne_flag_same (v : Nat) (s : State) (f : Field) : (clearOne v s f).flag f = if bit v f.low then false else s.flag f := by
  unfold clearOne
  split
  · exact flag_setFld_zero _ _ _
  · rfl

theorem clearOne_flag_ne (v : Nat) (s : State) (f g : Field) (h : g.key 0 ≠ f.key 0) : (clearOne v s f).flag g = s.flag g := by
  unfold clearOne
  split
  · exact flag_setFld_ne _ _ _ _ _ _ h
  · rfl

theorem foldl_clearOne_keeps (v : Nat) (fs : List Field) (s : State) :
    (fs.foldl (clearOne v) s).mem = s.mem ∧ (fs.foldl (clearOne v) s).cores = s.cores ∧ (fs.foldl (clearOne v) s).jobs = s.jobs := by
  induction fs generalizing s with
  | nil => exact ⟨rfl, rfl, rfl⟩
  | cons f fs ih =>
    obtain ⟨hm, hc, hj⟩ := clearOne_keeps v s f
    rw [List.foldl_cons, ← hm, ← hc, ← hj]
    exact ih _

/-- A field at another place than the bits reads as before. -/
theorem foldl_clearOne_flag_ne (v : Nat) (fs : List Field) (s : State) (g : Field) (h : ∀ f ∈ fs, g.key 0 ≠ f.key 0) :
    (fs.foldl (clearOne v) s).flag g = s.flag g := by
  induction fs generalizing s with
  | nil => rfl
  | cons f fs ih =>
    rw [List.foldl_cons, ih _ fun x hx => h x (List.mem_cons_of_mem _ hx), clearOne_flag_ne _ _ _ _ (h f (List.mem_cons_self ..))]

/-- Of bits at different places, exactly those written as 1 are cleared. -/
theorem foldl_clearOne_flag (v : Nat) (fs : List Field) (s : State) (hd : (fs.map (Field.key · 0)).Nodup) (f : Field) (hf : f ∈ fs) :
    (fs.foldl (clearOne v) s).flag f = if bit v f.low then false else s.flag f := by
  induction fs generalizing s with
  | nil => cases hf
  | cons g fs ih =>
    obtain ⟨hg, hd⟩ := List.nodup_cons.mp hd
    rw [List.foldl_cons]
    by_cases hfg : f ∈ fs
    · rw [ih _ hd hfg, clearOne_flag_ne v s g f fun e => hg (List.mem_map.mpr ⟨f, hfg, e⟩)]
    · obtain rfl : f = g := (List.mem_cons.mp hf).resolve_right hfg
      rw [foldl_clearOne_flag_ne v fs _ f fun x hx e => hg (List.mem_map.mpr ⟨x, hx, e.symm⟩), clearOne_flag_same]

/-- The event bits of MEM_EVT. -/
def memEvents : List Field := [Reg.MEM_EVT.late, Reg.MEM_EVT.timeout, Reg.MEM_EVT.uc, Reg.MEM_EVT.t2_recall, Reg.MEM_EVT.t2_fail,
  Reg.MEM_EVT.t3_fail, Reg.MEM_EVT.reject]

theorem written_memEvents : written 0x1000400 4 = memEvents.map fun f => (f, 0) := by decide

theorem memEvents_shape : ∀ f ∈ memEvents, f.access = .w1c ∧ f.key 0 = 8 * 0x1000400 + f.low ∧ f.width = 1 ∧ f.low < 32 ∧
    f ≠ Reg.TOP_ACCERR.valid ∧ f ≠ Reg.TOP_FAULT.valid := by decide

theorem actionWord_memEvents : actionWord 0x1000400 = none := rfl

theorem writePart_memEvents (v : Nat) (parts : List (Field × Nat)) (s : State) (f : Field) (hf : f ∈ memEvents) :
    writePart 0x1000400 4 v parts s (f, 0) = clearOne v s f := by
  obtain ⟨hacc, hkey, hw, hlow, hne, hne'⟩ := memEvents_shape f hf
  have hclear : s.clearBit f 0 = s.setFld f 0 := by
    unfold State.clearBit
    rw [if_neg (by omega), if_neg hne, if_neg hne']
  have hword : (8 * 0x1000400 + f.low) / 32 * 4 = 0x1000400 := by omega
  have hsize : f.size = 2 := by rw [Field.size, hw]; rfl
  unfold writePart
  simp only [hkey, hword, hw, actionWord_memEvents, Field.stored, hacc, hsize, Nat.add_sub_cancel_left]
  rw [if_neg (by omega), if_neg (by simp), if_neg (by simp)]
  unfold State.writeField clearOne bit
  simp only [hacc, hclear, beq_iff_eq]
  split
  · rw [if_neg (by omega)]
  · rw [if_pos (by omega)]

/-- A write of MEM_EVT clears the event bits written as 1. -/
theorem registerWrite_memEvents (s : State) (v : Nat) (ht : s.takes 0x1000400) :
    exec (.registerWrite 0x1000400 4 v) s = .next (memEvents.foldl (clearOne v) s) := by
  have parts (fs : List Field) (hfs : ∀ f ∈ fs, f ∈ memEvents) (t : State) :
      (fs.map fun f => (f, 0)).foldl (writePart 0x1000400 4 v (memEvents.map fun f => (f, 0))) t = fs.foldl (clearOne v) t := by
    induction fs generalizing t with
    | nil => rfl
    | cons f fs ih =>
      rw [List.map_cons, List.foldl_cons, List.foldl_cons, writePart_memEvents v _ t f (hfs f (List.mem_cons_self ..))]
      exact ih (fun x hx => hfs x (List.mem_cons_of_mem _ hx)) _
  rw [execRegisterWrite_of_takes v (by decide) ht, if_pos (by decide), applyWrite_plain s v (by decide) rfl rfl, written_memEvents,
    parts memEvents (fun _ h => h), afterWrite_elsewhere _ (by decide) (by decide) (by decide), relabel_of_same]
  exact foldl_clearOne_flag_ne v memEvents s _ (by decide)

/-! ### Locked fields and locks -/

/-- A latch that is full stays as it is. -/
theorem latchAccess_of_valid (s : State) (kind offset bytes : Nat) (h : s.flag Reg.TOP_ACCERR.valid = true) : s.latchAccess kind offset bytes = s :=
  if_pos h

/-- An empty latch takes the access. -/
theorem latchAccess_of_empty (s : State) (kind offset bytes : Nat) (h : s.flag Reg.TOP_ACCERR.valid = false) :
    (s.latchAccess kind offset bytes).flag Reg.TOP_ACCERR.valid = true ∧
      (s.latchAccess kind offset bytes).fld Reg.TOP_ACCERR.kind = kind % Reg.TOP_ACCERR.kind.size ∧
      (s.latchAccess kind offset bytes).fld Reg.MEM_T1ZONE.local_ = s.fld Reg.MEM_T1ZONE.local_ := by
  unfold State.latchAccess
  rw [if_neg (by simp [h])]
  simp only [State.setFlag]
  refine ⟨flag_setFld_one _ _ _ (by decide) (by decide), ?_, ?_⟩
  · rw [fld_setFld_ne _ _ _ _ _ _ (by decide), fld_setFld_ne _ _ _ _ _ _ (by decide), fld_setFld_ne _ _ _ _ _ _ (by decide),
      fld_setFld_ne _ _ _ _ _ _ (by decide), fld_setFld_same _ _ _ _ (by decide)]
  · rw [fld_setFld_ne _ _ _ _ _ _ (by decide), fld_setFld_ne _ _ _ _ _ _ (by decide), fld_setFld_ne _ _ _ _ _ _ (by decide),
      fld_setFld_ne _ _ _ _ _ _ (by decide), fld_setFld_ne _ _ _ _ _ _ (by decide)]

/-- A write that fills the latch is named in it. -/
theorem relabel_of_filled (s t : State) (offset bytes : Nat) (hs : s.flag Reg.TOP_ACCERR.valid = false)
    (ht : t.flag Reg.TOP_ACCERR.valid = true) :
    relabel s t offset bytes = (t.setFld Reg.TOP_ACCERR.offset offset).setFld Reg.TOP_ACCERR.bytes bytes := by
  unfold relabel
  rw [hs, ht]
  exact if_pos rfl

theorem written_t1zone : written 0x1000000 4 = [(Reg.MEM_T1ZONE.local_, 0)] := by decide

/-- Behind a set memory lock, a write of MEM_T1ZONE is only latched. -/
theorem registerWrite_t1zone_locked (s : State) (v : Nat) (ht : s.takes 0x1000000) (hlock : s.flag Reg.MEM_LOCK.lock = true) :
    exec (.registerWrite 0x1000000 4 v) s = .next (relabel s (s.latchAccess 3 0x1000000 4) 0x1000000 4) := by
  have hl : s.flag (lockFor Reg.MEM_T1ZONE.local_) = true := hlock
  have hpart : writePart 0x1000000 4 v [(Reg.MEM_T1ZONE.local_, 0)] s (Reg.MEM_T1ZONE.local_, 0) = s.latchAccess 3 0x1000000 4 := by
    unfold writePart
    simp only [hl]
    rw [if_neg (by decide), if_neg (by decide), if_neg (by simp [show (Reg.MEM_T1ZONE.local_.access == .rwl) = true from rfl])]
    exact if_pos hl
  rw [execRegisterWrite_of_takes v (by decide) ht, if_pos (by decide), applyWrite_plain s v (by decide) rfl rfl, written_t1zone,
    List.foldl_cons, List.foldl_nil, hpart, afterWrite_elsewhere _ (by decide) (by decide) (by decide)]

/-- A word with an effect of its own whose writable fields lie in it has that effect, and nothing else is stored. -/
theorem applyWrite_action (s : State) {o : Nat} (v : Nat) {g : Nat → State → State} (hm : ¬ (0x201000 ≤ o ∧ o < 0x202000))
    (hq : badQueueWrite o 4 v = false) (he : emptyUnit o = false) (ha : actionWord o = some g)
    (hin : ∀ x ∈ written o 4, x.1.key x.2 / 32 * 4 = o ∧ 8 * o ≤ x.1.key x.2 ∧ x.1.key x.2 + x.1.width ≤ 8 * (o + 4)) :
    s.applyWrite o 4 v = (g (wordOf o v o) s).afterWrite o := by
  have parts (xs : List (Field × Nat)) (hxs : ∀ x ∈ xs, x ∈ written o 4) : xs.foldl (writePart o 4 v (written o 4)) s = s := by
    induction xs with
    | nil => rfl
    | cons x xs ih =>
      obtain ⟨hword, hlo, hhi⟩ := hin x (hxs x (List.mem_cons_self ..))
      have hx : writePart o 4 v (written o 4) s x = s := by
        unfold writePart
        simp only [hword, ha]
        rw [if_neg (by omega), if_pos (by simp)]
      rw [List.foldl_cons, hx]
      exact ih fun y hy => hxs y (List.mem_cons_of_mem _ hy)
  have hplain : s.applyWrite o 4 v = (g (wordOf o v o) ((written o 4).foldl (writePart o 4 v (written o 4)) s)).afterWrite o := by
    unfold State.applyWrite
    rw [if_neg hm, hq, he, if_neg (by simp)]
    simp only [ha]
    rfl
  rw [hplain, parts _ fun _ h => h]

/-- Setting the memory lock, with the host's write taken. -/
theorem execMemLockSet_of_takes (s : State) (ht : s.takes 0x1000004) :
    execMemLockSet s = .next ((s.setFld Reg.MEM_LOCK.lock 1).setFld Reg.TOP_LOCKSTAT.mem 1) :=
  congrArg Host.Outcome.next (hostWrite_takes ht 4 _)

/-- A write of MEM_LOCK with bit 0 set acts as MEM_LOCK_SET. -/
theorem registerWrite_memLock (s : State) (v : Nat) (ht : s.takes 0x1000004) (hv : v % 2 = 1) :
    exec (.registerWrite 0x1000004 4 v) s = exec .memLockSet s := by
  have ha : actionWord 0x1000004 = some fun v s => if bit v 0 then s.applied (execMemLockSet s) else s := rfl
  have hbit : bit (wordOf 0x1000004 v 0x1000004) 0 = true := by
    simp only [bit, wordOf, beq_iff_eq]
    omega
  rw [execRegisterWrite_of_takes v (by decide) ht, if_pos (by decide), applyWrite_action s v (by decide) rfl rfl ha (by decide),
    if_pos hbit, afterWrite_elsewhere _ (by decide) (by decide) (by decide), execMemLockSet_of_takes s ht]
  refine (congrArg Host.Outcome.next (relabel_of_same _ _ _ _ ?_)).trans (execMemLockSet_of_takes s ht).symm
  exact (accerrValid_setFld _ _ _ _ (by decide)).trans (accerrValid_setFld _ _ _ _ (by decide))

/-! ### Counters -/

/-- What `counterAt` finds is a sat bit. -/
theorem counterAt_low {counter : Nat} {x : Field × Nat} (h : counterAt counter = some x) : x.1.low = 48 := by
  have hmem := List.mem_of_find?_eq_some h
  obtain ⟨f, -, hf⟩ := List.mem_flatMap.mp hmem
  split at hf
  · next hs =>
    obtain ⟨i, -, rfl⟩ := List.mem_map.mp hf
    exact hs.1
  · cases hf

/-- A field stored as 0 reads 0. -/
theorem fld_setFld_zero (s : State) (f : Field) (i : Nat) : (s.setFld f 0 i).fld f i = 0 := by
  by_cases h : i < f.count
  · rw [fld_setFld_same s f 0 i h, Nat.zero_mod]
  · exact fld_of_ge _ _ _ (Nat.not_lt.mp h)

/-- Clearing the sat bit of a counter takes its count along. -/
theorem counterSatClear_clears (s : State) (counter : Nat) (x : Field × Nat) (hx : counterAt counter = some x) (he : emptyUnit counter = false)
    (ht : s.takes counter) : exec (.counterSatClear counter) s =
      .next ((s.setFld x.1 0 x.2).setFld { x.1 with low := 0, width := 48, access := .ro } 0 x.2) := by
  have hexec : execCounterSatClear counter s = .next (s.clearBit x.1 x.2) := by
    unfold execCounterSatClear
    rw [hx]
    simp only [he, Bool.false_eq_true, if_false]
    exact congrArg Host.Outcome.next (hostWrite_takes ht 8 _)
  exact hexec.trans (congrArg Host.Outcome.next (if_pos (counterAt_low hx)))

end Sys2Proof.Machine.State

namespace Sys2Proof.Machine

/-- Settles O20, from what a register write does to each word it covers and from the latch that no such effect touches. -/
theorem hostRegisterWrites : Obligations.HostRegisterWrites := by
  unfold Obligations.HostRegisterWrites
  refine ⟨fun s o b v hlt ht hlegal => ?_, fun s o b v hlt ht hillegal => ?_, fun s o f i v hsole ht hst hopen hlegal hmay => ?_,
    fun s o f i v hsole ht hst hopen hbad => ?_, fun s o v h4 hlt hm ha he hno ht => State.registerWrite_none s v h4 hlt hm ha he hno ht,
    fun s o hn hl ht => s.afterWrite_elsewhere hn hl ht, fun s v ht => ?_, fun s v ht hlock => ?_,
    fun s v ht hv => State.registerWrite_memLock s v ht hv, fun s c x hx he ht => ?_⟩
  · rw [State.execRegisterWrite_of_takes v hlt ht, if_pos hlegal]
  · rw [State.execRegisterWrite_of_takes v hlt ht, if_neg hillegal]
  · rw [State.registerWrite_sole s v hsole ht hst hopen, hlegal, hmay]
    rfl
  · rw [State.registerWrite_sole s v hsole ht hst hopen, if_neg]
    rcases hbad with h | h <;> simp [h]
  · obtain ⟨hm, hc, hj⟩ := State.foldl_clearOne_keeps v State.memEvents s
    refine ⟨_, State.registerWrite_memEvents s v ht, hm, hc, hj, fun f hf => ?_⟩
    rw [State.foldl_clearOne_flag v State.memEvents s (by decide) f hf]
    exact ⟨fun h => if_pos h, fun h => if_neg (by simp [h])⟩
  · refine ⟨_, State.registerWrite_t1zone_locked s v ht hlock, ?_⟩
    cases hv : s.flag Reg.TOP_ACCERR.valid with
    | true =>
      rw [State.latchAccess_of_valid _ _ _ _ hv, State.relabel_of_same _ _ _ _ rfl]
      exact ⟨rfl, rfl, hv, fun h => absurd h (by simp)⟩
    | false =>
      obtain ⟨hvalid, hkind, hzone⟩ := s.latchAccess_of_empty 3 0x1000000 4 hv
      rw [State.relabel_of_filled _ _ _ _ hv hvalid]
      refine ⟨?_, State.latchAccess_mem _ _ _ _ _, ?_, fun _ => ⟨?_, ?_⟩⟩
      · rw [State.fld_setFld_ne _ _ _ _ _ _ (by decide), State.fld_setFld_ne _ _ _ _ _ _ (by decide), hzone]
      · rw [State.flag_setFld_ne _ _ _ _ _ _ (by decide), State.flag_setFld_ne _ _ _ _ _ _ (by decide), hvalid]
      · rw [State.fld_setFld_ne _ _ _ _ _ _ (by decide), State.fld_setFld_ne _ _ _ _ _ _ (by decide), hkind]
        rfl
      · rw [State.fld_setFld_ne _ _ _ _ _ _ (by decide), State.fld_setFld_same _ _ _ _ (by decide)]
        rfl
  · refine ⟨_, State.counterSatClear_clears s c x hx he ht, rfl, ?_, State.fld_setFld_zero _ _ _⟩
    rw [State.fld_setFld_ne, State.fld_setFld_zero]
    have := State.counterAt_low hx
    simp only [Field.key]
    omega

end Sys2Proof.Machine
end

