-- ==== Sys2Proof/Proofs/RateModes.lean ====
section
/-! The rate modes, the pacing and its slips, and the die-to-die links (O6). -/

namespace Sys2Proof.Machine.State

/-! ### What telling, showing and governing keep -/

/-- Telling changes nothing of the rails, the pacing, the mode asked for, the jobs and memory. -/
theorem Tells.keeps_power {s t : State} (h : s.Tells t) : t.coreMv = s.coreMv ∧ t.slipMv = s.slipMv ∧ t.paceRate = s.paceRate ∧
    t.declRate = s.declRate ∧ t.rateChange = s.rateChange ∧ t.jobs = s.jobs ∧ t.mem = s.mem := by
  obtain ⟨x, rfl⟩ := h
  exact ⟨rfl, rfl, rfl, rfl, rfl, rfl, rfl⟩

/-- The fields that showing the pacing may change, beside those of a report. -/
def rateShown : List Field :=
  [Reg.PWR_RATESTAT.active_rate, Reg.PWR_RATESTAT.suspended, Reg.PWR_RATESTAT.ceiling, Reg.PWR_RATEEVT.suspend]

theorem showRate_fld (s : State) {f : Field} (i : Nat) (hf : f.quiet = true) (h : rateShown.all (fun g => !f.holds (g.key 0)) = true) :
    s.showRate.fld f i = s.fld f i := by
  obtain ⟨hp, -⟩ := (quiet_iff f).mp hf
  simp only [rateShown, List.all_cons, List.all_nil, Bool.and_true, Bool.and_eq_true, Bool.not_eq_true'] at h
  obtain ⟨hrate, hsusp, hceil, hevt⟩ := h
  unfold showRate
  simp only [setFlag]
  split
  · rw [raise_fld _ _ _ hf hevt, fld_setFld_apart _ _ _ _ _ _ hp hceil, fld_setFld_apart _ _ _ _ _ _ hp hsusp,
      fld_setFld_apart _ _ _ _ _ _ hp hrate]
  · rw [fld_setFld_apart _ _ _ _ _ _ hp hceil, fld_setFld_apart _ _ _ _ _ _ hp hsusp, fld_setFld_apart _ _ _ _ _ _ hp hrate]

theorem tells_showRate (s : State) : s.Tells s.showRate := by
  unfold showRate
  simp only []
  have shown (a b c : Nat) : s.Tells (((s.setFld Reg.PWR_RATESTAT.active_rate a).setFld Reg.PWR_RATESTAT.suspended b).setFld
      Reg.PWR_RATESTAT.ceiling c) := ((tells_setFld _ _ _ _).trans (tells_setFld _ _ _ _)).trans (tells_setFld _ _ _ _)
  split
  · exact (shown _ _ _).trans (tells_raise _ _ _)
  · exact shown _ _ _

/-- The mode in force is none of the fields that showing the pacing changes. -/
theorem showRate_breeze (s : State) : s.showRate.breeze = s.breeze := by
  unfold breeze flag
  rw [showRate_fld s 0 (by decide) (by decide)]

theorem showCapped_fld (s : State) {f : Field} (i : Nat) (h : f.key i ≠ Reg.PWR_RATESTAT.capped.key 0) :
    s.showCapped.fld f i = s.fld f i := fld_setFld_ne _ _ _ _ _ _ h

theorem tells_showCapped (s : State) : s.Tells s.showCapped := tells_setFld _ _ _ _

/-- The Gust governor moves the rails only, and shows the pacing. -/
theorem gustGovern_keeps (s : State) : s.gustGovern.breeze = s.breeze ∧ s.gustGovern.declRate = s.declRate ∧ s.gustGovern.jobs = s.jobs := by
  unfold gustGovern
  split
  · exact ⟨rfl, rfl, rfl⟩
  · obtain ⟨-, -, -, hdecl, -, hjobs, -⟩ := (tells_showRate (s.free.2.setRails (s.floorMv + s.free.1 % (851 - s.floorMv)))).keeps_power
    exact ⟨showRate_breeze _, hdecl, hjobs⟩

/-- The Gust governor does nothing in Breeze mode. -/
theorem gustGovern_of_breeze (s : State) (h : s.breeze = true) : s.gustGovern = s := if_pos (by simp [h])

/-! ### Requests (R42) -/

/-- A request that passes the tests is stored; it starts a change unless the module is already there. -/
theorem requestRate_accepted (s : State) {mode rate : Nat} (hbusy : s.flag Reg.PWR_RATESTAT.busy = false) (hlo : 50 ≤ rate) (hhi : rate ≤ 110)
    (hceil : mode = 1 → rate ≤ breezeCeiling s.drift) : s.requestRate mode rate =
      if (mode = 0 ∧ s.breeze = false) ∨ (mode = 1 ∧ s.breeze = true ∧ s.declRate = rate) then
        ((s.setFld Reg.PWR_RATECTL.mode mode).setFld Reg.PWR_RATECTL.breeze_rate rate).showCapped
      else State.setFld { (s.setFld Reg.PWR_RATECTL.mode mode).setFld Reg.PWR_RATECTL.breeze_rate rate with rateChange := some (mode, rate) }
        Reg.PWR_RATESTAT.busy 1 := by
  have hmode : ((s.setFld Reg.PWR_RATECTL.mode mode).setFld Reg.PWR_RATECTL.breeze_rate rate).breeze = s.breeze := by
    unfold breeze
    rw [flag_setFld_ne _ _ _ _ _ _ (by decide), flag_setFld_ne _ _ _ _ _ _ (by decide)]
  have hrange : ¬ (rate < 50 ∨ 110 < rate) := by omega
  have hbelow : ¬ (mode = 1 ∧ breezeCeiling s.drift < rate) := fun ⟨h1, h2⟩ => absurd (hceil h1) (Nat.not_le.mpr h2)
  unfold requestRate
  rw [hbusy, if_neg (by simp), if_neg hrange, if_neg hbelow]
  simp only [hmode, Bool.not_eq_true']
  rfl

theorem requestRate_busy (s : State) (mode rate : Nat) (hbusy : s.flag Reg.PWR_RATESTAT.busy = true) :
    s.requestRate mode rate = s.rejectRate 3 := if_pos hbusy

theorem requestRate_range (s : State) (mode : Nat) {rate : Nat} (hbusy : s.flag Reg.PWR_RATESTAT.busy = false) (h : rate < 50 ∨ 110 < rate) :
    s.requestRate mode rate = s.rejectRate 1 := by
  unfold requestRate
  rw [hbusy, if_neg (by simp), if_pos h]

theorem requestRate_ceiling (s : State) {rate : Nat} (hbusy : s.flag Reg.PWR_RATESTAT.busy = false) (hlo : 50 ≤ rate) (hhi : rate ≤ 110)
    (h : breezeCeiling s.drift < rate) : s.requestRate 1 rate = s.rejectRate 2 := by
  have hrange : ¬ (rate < 50 ∨ 110 < rate) := by omega
  unfold requestRate
  rw [hbusy, if_neg (by simp), if_neg hrange, if_pos ⟨rfl, h⟩]

/-- A rejection changes, of the quiet fields, its cause and its event only. -/
theorem rejectRate_fld (s : State) (cause : Nat) {f : Field} (i : Nat) (hf : f.quiet = true)
    (hcause : f.holds (Reg.PWR_RATESTAT.reject_cause.key 0) = false) (hevt : f.holds (Reg.PWR_RATEEVT.reject.key 0) = false) :
    (s.rejectRate cause).fld f i = s.fld f i := by
  obtain ⟨hp, -⟩ := (quiet_iff f).mp hf
  unfold rejectRate
  rw [raise_fld _ _ _ hf hevt, fld_setFld_apart _ _ _ _ _ _ hp hcause]

theorem rejectRate_cause (s : State) {cause : Nat} (h : cause < 4) : (s.rejectRate cause).fld Reg.PWR_RATESTAT.reject_cause = cause := by
  unfold rejectRate
  rw [raise_fld _ _ _ (by decide) (by decide), fld_setFld_same _ _ _ _ (by decide)]
  exact Nat.mod_eq_of_lt (h.trans (by decide))

theorem rejectRate_rateChange (s : State) (cause : Nat) : (s.rejectRate cause).rateChange = s.rateChange := by
  obtain ⟨-, -, -, -, hchange, -⟩ := ((tells_setFld s Reg.PWR_RATESTAT.reject_cause cause 0).trans
    (tells_raise _ Reg.PWR_RATEEVT.reject Reg.PWR_RATEEVTMASK.mask)).keeps_power
  exact hchange

/-! ### The change takes force (R35, R36, R41) -/

theorem enterGust_mode (s : State) : s.enterGust.breeze = false ∧ s.enterGust.declRate = 0 ∧ s.enterGust.jobs = s.jobs := by
  unfold enterGust
  obtain ⟨hmode, hdecl, hjobs⟩ := gustGovern_keeps (({ s.setFld Reg.PWR_RATESTAT.active_mode 0 with declRate := 0, slipMv := 0 } : State).retarget
    (decide (s.paceRate < s.targetRate)))
  exact ⟨hmode.trans (flag_setFld_zero s Reg.PWR_RATESTAT.active_mode 0), hdecl, hjobs⟩

/-- The rail for a rate does not depend on the mode in force. -/
theorem breezeRail_setMode (s : State) (v r : Nat) : (s.setFld Reg.PWR_RATESTAT.active_mode v).breezeRail r = s.breezeRail r := by
  unfold breezeRail floorMv drift
  rw [fld_setFld_ne _ _ _ _ _ _ (by decide), fld_setFld_ne _ _ _ _ _ _ (by decide), fld_setFld_ne _ _ _ _ _ _ (by decide)]

/-- In Breeze mode the effective cap shows in its registers, and no governor follows it. -/
theorem recap_of_breeze (s : State) (h : s.breeze = true) : s.recap.breeze = true ∧ s.recap.declRate = s.declRate ∧ s.recap.jobs = s.jobs ∧
    s.recap.coreMv = s.coreMv := by
  have hmode (g r c : Nat) : (((s.setFld Reg.PWR_CAP.given_w g).setFld Reg.PWR_CAP.received_w r).setFld Reg.PWR_CAP.cap_w c).breeze = true := by
    unfold breeze
    rw [flag_setFld_ne _ _ _ _ _ _ (by decide), flag_setFld_ne _ _ _ _ _ _ (by decide), flag_setFld_ne _ _ _ _ _ _ (by decide)]
    exact h
  unfold recap
  simp only []
  rw [gustGovern_of_breeze _ (hmode _ _ _)]
  exact ⟨hmode _ _ _, rfl, rfl, rfl⟩

theorem enterBreeze_mode (s : State) (r : Nat) : (s.enterBreeze r).breeze = true ∧ (s.enterBreeze r).declRate = r ∧
    (s.enterBreeze r).jobs = s.jobs ∧ (s.enterBreeze r).coreMv = s.breezeRail r := by
  unfold enterBreeze
  obtain ⟨hmode, hdecl, hjobs, hrail⟩ := recap_of_breeze
    ((({ s.setFld Reg.PWR_RATESTAT.active_mode 1 with declRate := r, slipMv := 0, grantsHeld := [] } : State).retarget
      (decide (s.paceRate < s.targetRate))).setRails ((s.setFld Reg.PWR_RATESTAT.active_mode 1).breezeRail r))
    (flag_setFld_one s Reg.PWR_RATESTAT.active_mode 0 (by decide) (by decide))
  exact ⟨hmode, hdecl, hjobs, hrail.trans (breezeRail_setMode s 1 r)⟩

theorem enterMode_jobs (s : State) (mode rate : Nat) : (s.enterMode mode rate).jobs = s.jobs := by
  unfold enterMode
  simp only []
  split
  · obtain ⟨-, -, hjobs⟩ := s.enterGust_mode
    exact hjobs
  · obtain ⟨-, -, hjobs, -⟩ := s.enterBreeze_mode (min rate (breezeCeiling s.drift))
    exact hjobs

/-- The end of a change, from the state in which the mode has been entered. -/
def endRateChange (s : State) : State := (({ s with rateChange := none } : State).setFld Reg.PWR_RATESTAT.busy 0).showCapped.showRate

theorem execRateChangeComplete_some {s : State} {mode rate : Nat} (h : s.rateChange = some (mode, rate)) :
    execRateChangeComplete s = .next (s.enterMode mode rate).endRateChange := by
  unfold execRateChangeComplete
  rw [h]
  rfl

theorem endRateChange_busy (s : State) : s.endRateChange.flag Reg.PWR_RATESTAT.busy = false := by
  unfold endRateChange flag
  rw [showRate_fld _ 0 (by decide) (by decide), showCapped_fld _ 0 (by decide)]
  exact flag_setFld_zero _ Reg.PWR_RATESTAT.busy 0

theorem endRateChange_breeze (s : State) : s.endRateChange.breeze = s.breeze := by
  unfold endRateChange
  rw [showRate_breeze]
  unfold breeze flag
  rw [showCapped_fld _ 0 (by decide), fld_setFld_ne _ _ _ _ _ _ (by decide)]
  rfl

theorem endRateChange_keeps (s : State) : s.endRateChange.rateChange = none ∧ s.endRateChange.coreMv = s.coreMv ∧
    s.endRateChange.declRate = s.declRate ∧ s.endRateChange.jobs = s.jobs ∧ s.endRateChange.mem = s.mem := by
  obtain ⟨hrail, -, -, hdecl, hchange, hjobs, hmem⟩ :=
    (((tells_setFld { s with rateChange := none } Reg.PWR_RATESTAT.busy 0 0).trans (tells_showCapped _)).trans (tells_showRate _)).keeps_power
  exact ⟨hchange, hrail, hdecl, hjobs, hmem⟩

/-! ### Windows and the rail (R38, R39) -/

/-- A counter below its end and not saturated goes up, and nothing is told of it. -/
theorem count_of_lt (s : State) (f : Field) {n : Nat} (i : Nat) (hn : n ≠ 0)
    (hsat : s.flag { f with low := 48, width := 1, access := .w1c, reset := 0 } i = false) (hlt : s.fld f i + n < 2 ^ 48 - 1) :
    s.count f n i = s.setFld f (s.fld f i + n) i := by
  have hbump : s.bump f n i = (s.setFld f (s.fld f i + n) i, false) := by
    unfold bump
    simp only [hsat, hn, hlt, decide_false, Bool.or_self, Bool.false_eq_true, if_false, if_true]
  unfold count countWith
  rw [hbump]
  rfl

/-- A slip as it shows in the registers: counted, and its event set. -/
def showSlip (s : State) : State := (s.count Reg.PWR_SLIPCNT.count 1).raise Reg.PWR_RATEEVT.slip Reg.PWR_RATEEVTMASK.mask

theorem tells_showSlip (s : State) : s.Tells s.showSlip := (tells_count _ _ _ _).trans (tells_raise _ _ _)

/-- A slip's event leaves the rail below the raise as it was. -/
theorem showSlip_baseMv (s : State) : s.showSlip.baseMv = s.baseMv := by
  obtain ⟨hcore, hup, -⟩ := s.tells_showSlip.keeps_power
  unfold baseMv
  rw [hcore, hup]

theorem showSlip_event (s : State) : s.showSlip.flag Reg.PWR_RATEEVT.slip = true := raise_self _ _ _ (by decide) (by decide) (by decide)

/-- A slip is counted once, where the counter has room. -/
theorem showSlip_counted (s : State) (hsat : s.flag Reg.PWR_SLIPCNT.sat = false) (hlt : s.fld Reg.PWR_SLIPCNT.count + 1 < 2 ^ 48 - 1) :
    s.showSlip.fld Reg.PWR_SLIPCNT.count = s.fld Reg.PWR_SLIPCNT.count + 1 := by
  unfold showSlip
  rw [raise_fld _ _ _ (by decide) (by decide), count_of_lt s _ 0 (by decide) hsat hlt, fld_setFld_same _ _ _ _ (by decide)]
  exact Nat.mod_eq_of_lt (hlt.trans (by decide))

/-- A raise goes on top of the rail without it, up to 800 mV, and changes no register. -/
theorem raiseRail_rail (s : State) (mv : Nat) : (s.raiseRail mv).slipMv = min mv (800 - s.baseMv) ∧
    (s.raiseRail mv).coreMv = s.baseMv + (s.raiseRail mv).slipMv ∧ (s.raiseRail mv).regs = s.regs ∧
    (s.raiseRail mv).paceRate = s.paceRate := ⟨rfl, rfl, rfl, rfl⟩

/-- In Breeze mode with the rails on and no hold, a window ends by whether a ring slipped in it. -/
theorem execPacingWindowEnd_breeze {s : State} (rings : List RingWindow) (hmode : s.breeze = true) (hheld : s.held = false)
    (hon : s.pwrgd = true) : execPacingWindowEnd rings s = .next (
      if rings.any (slipped s.paceRate) then s.showSlip.raiseRail 10 else if s.slipMv = 0 then s else s.raiseRail 0) :=
  congrArg Host.Outcome.next (if_neg (by simp [hmode, hheld, hon]))

/-- The rail the governor chooses lies from 600 to 800 mV. -/
theorem breezeRail_bounds (s : State) (r : Nat) : 600 ≤ s.breezeRail r ∧ s.breezeRail r ≤ 800 := by
  have hfloor : 600 ≤ s.floorMv ∧ s.floorMv ≤ 800 := by unfold floorMv; omega
  unfold breezeRail
  generalize hfind : (breezeRails s.floorMv).find? _ = found
  cases found with
  | none => exact ⟨by decide, by decide⟩
  | some mv =>
    obtain ⟨k, hk, rfl⟩ := List.mem_map.mp (List.mem_of_find?_eq_some hfind)
    have := List.mem_range.mp hk
    simp only [Option.getD_some]
    omega

theorem execBreezeRailAdjust_breeze {s : State} (hmode : s.breeze = true) (hon : s.pwrgd = true) (hfull : s.apron = false) :
    execBreezeRailAdjust s = .next (({ s with coreMv := s.breezeRail s.declRate, slipMv := 0 } : State).raiseRail s.slipMv) :=
  congrArg Host.Outcome.next (if_pos (by simp [hmode, hon, hfull]))

/-- Without a limit the pacing below its target rises by exactly one step. -/
theorem execPacingRaiseStep_below {s : State} (hfree : s.limited = false) (h : s.paceRate < s.targetRate) :
    execPacingRaiseStep s = .next (State.showRate { s with paceRate := s.paceRate + 1 }) := by
  have hstep : min s.targetRate (s.paceRate + 1) = s.paceRate + 1 := Nat.min_eq_right h
  unfold execPacingRaiseStep paceUp
  rw [if_neg (by simp [hfree, h]), hstep]

/-! ### Die-to-die links (R32) -/

theorem link_in_use {s : State} {link dir : Nat} (hlink : link < 23) (hdir : dir < 2)
    (hup : Table.get false s.linkDown (2 * link + dir) = false) :
    ¬ (23 ≤ link ∨ 2 ≤ dir ∨ Table.get false s.linkDown (2 * link + dir) = true) := by
  simp only [hup, Bool.false_eq_true, or_false]
  omega

/-- The failed replays of a withheld beat after one more bad beat of it, or of another. -/
def failsAfter (s : State) (k place : Nat) : Nat := if Table.get 0 s.linkHeld k = place + 1 then Table.get 0 s.linkFails k + 1 else 0

/-- A bad beat of a link in use is counted and withheld; the link asks for it again or fails. -/
theorem execDieLinkBeatError_bad {s : State} {link dir : Nat} {beat : DieBeat} (hlink : link < 23) (hdir : dir < 2)
    (hup : Table.get false s.linkDown (2 * link + dir) = false) (hbad : badBeat beat = true) :
    execDieLinkBeatError link dir beat s = .next (
      let t := { s with
        linkErrors := Table.set 0 s.linkErrors (2 * link + dir) (Table.get 0 s.linkErrors (2 * link + dir) + 1)
        linkHeld := Table.set 0 s.linkHeld (2 * link + dir) (beat.place + 1)
        linkFails := Table.set 0 s.linkFails (2 * link + dir) (s.failsAfter (2 * link + dir) beat.place) }
      if s.failsAfter (2 * link + dir) beat.place < 8 then t.emit (.dieReplay link dir beat.place)
      else State.moduleFault { t with linkDown := Table.set false t.linkDown (2 * link + dir) true } 0x0101 (.unit (linkSlot link dir)) [link, dir]) := by
  unfold execDieLinkBeatError
  simp only []
  rw [if_neg (link_in_use hlink hdir hup), if_neg (by simp [hbad])]
  simp only [beq_iff_eq]
  rfl

/-- A good beat of a link in use ends the withholding of its own. -/
theorem execDieLinkBeatError_good {s : State} {link dir : Nat} {beat : DieBeat} (hlink : link < 23) (hdir : dir < 2)
    (hup : Table.get false s.linkDown (2 * link + dir) = false) (hgood : badBeat beat = false)
    (hheld : Table.get 0 s.linkHeld (2 * link + dir) = beat.place + 1) :
    execDieLinkBeatError link dir beat s = .next (s.holdBeat (2 * link + dir) 0 0) := by
  unfold execDieLinkBeatError
  simp only []
  rw [if_neg (link_in_use hlink hdir hup), if_pos (by simp [hgood]), if_pos (by simp [hheld])]

end Sys2Proof.Machine.State

namespace Sys2Proof.Machine

/-- Settles O6: each clause is what the lemmas above say of its command, with what telling and showing keep. -/
theorem rateModes : Obligations.RateModes := by
  unfold Obligations.RateModes
  refine ⟨fun s rate ht hbusy hlo hhi => ?_, fun s rate ht hbusy hlo hhi hceil => ?_, fun s rate c hc ht => ?_,
    fun s rate ht hbusy hlo hhi hceil => ?_, fun s cause hc => ?_, fun s mode rate hchange => ?_, fun s rings hmode hheld hon hslip => ?_,
    fun s rings hmode hheld hon hraised hslip => ?_, fun s hmode hon hfull => ?_, fun s hfree h => State.execPacingRaiseStep_below hfree h,
    fun s link dir beat hlink hdir hup hbad hother => ?_, fun s link dir beat hlink hdir hup hbad hagain hfails => ?_,
    fun s link dir beat hlink hdir hup hbad hagain hfails => ?_,
    fun s link dir beat hlink hdir hup hgood hheld => State.execDieLinkBeatError_good hlink hdir hup hgood hheld⟩
  · refine congrArg Host.Outcome.next ((State.hostWrite_takes ht 4 _).trans ?_)
    rw [State.requestRate_accepted s hbusy hlo hhi (by simp)]
    cases hmode : s.breeze <;> simp
  · refine congrArg Host.Outcome.next ((State.hostWrite_takes ht 4 _).trans ?_)
    rw [State.requestRate_accepted s hbusy hlo hhi fun _ => hceil]
    simp
  · rcases hc with rfl | rfl
    · exact ⟨fun hb => congrArg Host.Outcome.next ((State.hostWrite_takes ht 4 _).trans (s.requestRate_busy 0 rate hb)),
        fun hb hr => congrArg Host.Outcome.next ((State.hostWrite_takes ht 4 _).trans (s.requestRate_range 0 hb hr))⟩
    · exact ⟨fun hb => congrArg Host.Outcome.next ((State.hostWrite_takes ht 4 _).trans (s.requestRate_busy 1 rate hb)),
        fun hb hr => congrArg Host.Outcome.next ((State.hostWrite_takes ht 4 _).trans (s.requestRate_range 1 hb hr))⟩
  · exact congrArg Host.Outcome.next ((State.hostWrite_takes ht 4 _).trans (s.requestRate_ceiling hbusy hlo hhi hceil))
  · exact ⟨s.rejectRate_cause hc, State.raise_self _ _ _ (by decide) (by decide) (by decide), s.rejectRate_rateChange cause,
      s.rejectRate_fld cause 0 (by decide) (by decide) (by decide)⟩
  · obtain ⟨hnone, hrail, hdecl, hjobs, hmem⟩ := (s.enterMode mode rate).endRateChange_keeps
    refine ⟨_, State.execRateChangeComplete_some hchange, hnone, State.endRateChange_busy _, hmem.trans (by simp),
      hjobs.trans (s.enterMode_jobs mode rate), fun hgust => ?_, fun h0 htop => ?_⟩
    · have hgo : s.enterMode mode rate = s.enterGust := if_pos hgust
      obtain ⟨hm, hd, -⟩ := s.enterGust_mode
      rw [hdecl, State.endRateChange_breeze, hgo]
      exact ⟨hm, hd⟩
    · have hgo : s.enterMode mode rate = s.enterBreeze (min rate (breezeCeiling s.drift)) := if_neg (by omega)
      obtain ⟨hm, hd, -, hr⟩ := s.enterBreeze_mode (min rate (breezeCeiling s.drift))
      rw [hdecl, hrail, State.endRateChange_breeze, hgo]
      exact ⟨hm, hd, hr⟩
  · have hany : rings.any (slipped s.paceRate) = true := List.any_eq_true.mpr hslip
    obtain ⟨-, -, hpace, -, -, -, hmem⟩ := s.tells_showSlip.keeps_power
    obtain ⟨hraise, hcore, hregs, hrate⟩ := s.showSlip.raiseRail_rail 10
    rw [State.showSlip_baseMv] at hraise hcore
    exact ⟨_, (State.execPacingWindowEnd_breeze rings hmode hheld hon).trans (congrArg Host.Outcome.next (if_pos hany)), hraise, hcore,
      (State.flag_congr hregs _ _).trans s.showSlip_event, hrate.trans hpace, hmem,
      fun hsat hlt => (State.fld_congr hregs _ _).trans (s.showSlip_counted hsat hlt)⟩
  · have hany : ¬ rings.any (slipped s.paceRate) = true := by simpa using hslip
    obtain ⟨hraise, hcore, hregs, -⟩ := s.raiseRail_rail 0
    rw [Nat.zero_min] at hraise
    rw [hraise, Nat.add_zero] at hcore
    exact ⟨_, (State.execPacingWindowEnd_breeze rings hmode hheld hon).trans (congrArg Host.Outcome.next
      ((if_neg hany).trans (if_neg hraised))), hraise, hcore, hregs, rfl⟩
  · obtain ⟨hlo, hhi⟩ := s.breezeRail_bounds s.declRate
    obtain ⟨hraise, hcore, hregs, hpace⟩ := State.raiseRail_rail { s with coreMv := s.breezeRail s.declRate, slipMv := 0 } s.slipMv
    rw [show State.baseMv { s with coreMv := s.breezeRail s.declRate, slipMv := 0 } = s.breezeRail s.declRate from rfl] at hraise hcore
    exact ⟨_, State.execBreezeRailAdjust_breeze hmode hon hfull, hraise, hcore, by omega, by omega, hregs, hpace, rfl⟩
  · have hn : s.failsAfter (2 * link + dir) beat.place = 0 := if_neg hother
    refine (State.execDieLinkBeatError_bad hlink hdir hup hbad).trans ?_
    rw [hn]
    rfl
  · have hn : s.failsAfter (2 * link + dir) beat.place = Table.get 0 s.linkFails (2 * link + dir) + 1 := if_pos hagain
    refine (State.execDieLinkBeatError_bad hlink hdir hup hbad).trans ?_
    simp only [hn]
    rw [if_pos (by omega)]
    rfl
  · have hn : s.failsAfter (2 * link + dir) beat.place = 8 := (if_pos hagain).trans (congrArg (· + 1) hfails)
    refine (State.execDieLinkBeatError_bad hlink hdir hup hbad).trans ?_
    simp only [hn, Nat.lt_irrefl, if_false]

end Sys2Proof.Machine
end

