-- ==== Sys2Proof/Proofs/Units.lean ====
section
/-! The writes of UNIT_CTRL in their order, the clearing of UNIT_EVT, and the definition of groups (O7). -/

namespace Sys2Proof.Machine.State

/-! ### UNIT_CTRL: the serial order, and rejection at a unit -/

/-- Telling changes neither the cores nor the definitions of groups nor memory. -/
theorem Tells.keeps_units {s t : State} (h : s.Tells t) : t.cores = s.cores ∧ t.groups = s.groups ∧ t.mem = s.mem := by
  obtain ⟨x, rfl⟩ := h
  exact ⟨rfl, rfl, rfl⟩

/-- A UNIT_CTRL write that takes waits behind the ones in progress (R53). -/
theorem writeCtrl_waits {s : State} {w : UnitWrite} (hslot : slotHolds w.slot = true) (ht : s.takes (0x2000014 + 256 * w.slot))
    (hq : s.ctrlQueue ≠ []) : s.writeCtrl w = { s with ctrlQueue := s.ctrlQueue ++ [w] } := by
  unfold writeCtrl
  rw [if_neg (by simp [hslot]), hostWrite_takes ht]
  exact if_neg (by simpa using hq)

/-- A UNIT_CTRL write that takes has its effect at once where none is in progress (R53). -/
theorem writeCtrl_applies {s : State} {w : UnitWrite} (hslot : slotHolds w.slot = true) (ht : s.takes (0x2000014 + 256 * w.slot))
    (hq : s.ctrlQueue = []) : s.writeCtrl w = State.applyCtrl { s with ctrlQueue := [w] } w := by
  unfold writeCtrl
  rw [if_neg (by simp [hslot]), hostWrite_takes ht]
  simp [hq]

/-- The last write in progress leaves the queue once it has been applied (R53). -/
theorem execUnitCtrlApplied_last {s : State} {w : UnitWrite} (hq : s.ctrlQueue = [w]) :
    execUnitCtrlApplied s = .next { s with ctrlQueue := [] } := by
  simp only [execUnitCtrlApplied, hq]

/-- Once a write has been applied, the one behind it takes effect (R53). -/
theorem execUnitCtrlApplied_next {s : State} {v w : UnitWrite} {r : List UnitWrite} (hq : s.ctrlQueue = v :: w :: r) :
    execUnitCtrlApplied s = .next (State.applyCtrl { s with ctrlQueue := w :: r } w) := by
  simp only [execUnitCtrlApplied, hq]

/-- An event bit of a slot reads as set once it has been raised. -/
theorem raiseUnit_self (s : State) (evt mask : Field) {slot : Nat} (hf : evt.quiet = true) (hc : slot < evt.count) (hw : evt.width ≠ 0) :
    (s.raiseUnit evt mask slot).flag evt slot = true := by
  have hset := flag_setFld_one s evt slot hc hw
  unfold raiseUnit
  simp only []
  split
  · exact hset
  · exact (congrArg (· != 0) (report_fld _ _ _ _ _ _ hf)).trans hset

theorem rejectUnit_reject (s : State) {slot : Nat} (h : slot < 512) : (s.rejectUnit slot).flag Reg.UNIT_EVT.reject slot = true :=
  raiseUnit_self s _ _ (by decide) h (by decide)

/-- A rejection sets UNIT_EVT.reject of its unit and no other quiet field. -/
theorem rejectUnit_fld (s : State) (slot : Nat) {f : Field} (i : Nat) (hf : f.quiet = true)
    (h : f.holds (Reg.UNIT_EVT.reject.key slot) = false) : (s.rejectUnit slot).fld f i = s.fld f i :=
  raiseUnit_fld s _ _ slot hf h

theorem tells_rejectUnit (s : State) (slot : Nat) : s.Tells (s.rejectUnit slot) := tells_raiseUnit s _ _ slot

/-- UNIT_CTRL.enable lies 4 bytes below UNIT_EVT, in every slot. -/
theorem enable_not_reject (slot : Nat) : Reg.UNIT_CTRL.enable.holds (Reg.UNIT_EVT.reject.key slot) = false := by
  have hoff : Reg.UNIT_EVT.reject.key slot - Reg.UNIT_CTRL.enable.key 0 = 32 + 2048 * slot := by
    simp only [Field.key, Reg.UNIT_EVT.reject, Reg.UNIT_CTRL.enable]
    omega
  have hstride : Reg.UNIT_CTRL.enable.stride = 256 := rfl
  simp [Field.holds, hstride, hoff]

/-- CAP_GEN.gen is one word, below the UNIT block. -/
theorem capGen_not_reject (slot : Nat) : Reg.CAP_GEN.gen.holds (Reg.UNIT_EVT.reject.key slot) = false := by
  have hne : Reg.UNIT_EVT.reject.key slot ≠ Reg.CAP_GEN.gen.key 0 := by
    simp only [Field.key, Reg.UNIT_EVT.reject, Reg.CAP_GEN.gen]
    omega
  have hstride : Reg.CAP_GEN.gen.stride = 0 := rfl
  simp [Field.holds, hstride, hne]

/-! ### UNIT_EVT -/

/-- The event bits of a unit (Table 3.7). -/
def unitEvents : List Field := [Reg.UNIT_EVT.reject, Reg.UNIT_EVT.run_change, Reg.UNIT_EVT.fault, Reg.UNIT_EVT.sat]

theorem unitEvents_shape : ∀ f ∈ unitEvents, f.offset = 0x2000018 ∧ f.stride = 256 ∧ f.low < 4 := by decide

theorem unitEvents_low : ∀ f ∈ unitEvents, ∀ g ∈ unitEvents, f.low = g.low → f = g := by decide

/-- No two event bits, of one unit or of two, share a key. -/
theorem unitEvents_key {f g : Field} (hf : f ∈ unitEvents) (hg : g ∈ unitEvents) {u v : Nat} (h : f.key v = g.key u) : f = g ∧ v = u := by
  obtain ⟨hfo, hfs, hfl⟩ := unitEvents_shape f hf
  obtain ⟨hgo, hgs, hgl⟩ := unitEvents_shape g hg
  rw [Field.key, Field.key, hfo, hfs, hgo, hgs] at h
  exact ⟨unitEvents_low f hf g hg (by omega), by omega⟩

/-- Clearing one event bit of a unit clears that bit alone. -/
theorem setFld_zero_unitEvents (s : State) {f g : Field} (hf : f ∈ unitEvents) (hg : g ∈ unitEvents) (u v : Nat) :
    (s.setFld g 0 u).flag f v = if f = g ∧ v = u then false else s.flag f v := by
  split
  next h =>
    obtain ⟨rfl, rfl⟩ := h
    exact flag_setFld_zero s f v
  next h => exact flag_setFld_ne s g f 0 u v fun hk => h (unitEvents_key hf hg hk)

/-- Clearing event bits of a unit clears those bits alone. -/
theorem clearFlds_unitEvents {f : Field} (hf : f ∈ unitEvents) (u v : Nat) {fs : List Field} (hfs : ∀ g ∈ fs, g ∈ unitEvents) (s : State) :
    (s.clearFlds fs u).flag f v = if f ∈ fs ∧ v = u then false else s.flag f v := by
  induction fs generalizing s with
  | nil => simp [clearFlds]
  | cons g fs ih =>
    obtain ⟨hg, hrest⟩ := List.forall_mem_cons.mp hfs
    have hstep : s.clearFlds (g :: fs) u = (s.setFld g 0 u).clearFlds fs u := rfl
    rw [hstep, ih hrest, setFld_zero_unitEvents s hf hg]
    by_cases hv : v = u <;> by_cases hfg : f = g <;> simp [hv, hfg]

/-- UNIT_EVT bits of several units cleared (R55). -/
def clearUnits (fs : List Field) (us : List Nat) (s : State) : State := us.foldl (fun s u => s.clearFlds fs u) s

/-- Clearing event bits of several units clears those bits of those units alone. -/
theorem clearUnits_unitEvents {f : Field} (hf : f ∈ unitEvents) (v : Nat) {fs : List Field} (hfs : ∀ g ∈ fs, g ∈ unitEvents) (us : List Nat)
    (s : State) : (clearUnits fs us s).flag f v = if f ∈ fs ∧ v ∈ us then false else s.flag f v := by
  induction us generalizing s with
  | nil => simp [clearUnits]
  | cons u us ih =>
    have hstep : clearUnits fs (u :: us) s = clearUnits fs us (s.clearFlds fs u) := rfl
    rw [hstep, ih, clearFlds_unitEvents hf u v hfs]
    by_cases hm : f ∈ fs <;> by_cases hv : v = u <;> simp [hm, hv]

theorem tells_clearFlds (s : State) (fs : List Field) (u : Nat) : s.Tells (s.clearFlds fs u) := by
  induction fs generalizing s with
  | nil => exact .refl s
  | cons f fs ih => exact (tells_setFld s f 0 u).trans (ih _)

theorem tells_clearUnits (s : State) (fs : List Field) (us : List Nat) : s.Tells (clearUnits fs us s) := by
  induction us generalizing s with
  | nil => exact .refl s
  | cons u us ih => exact (tells_clearFlds s fs u).trans (ih _)

/-- The event bits that a value written to UNIT_EVT clears. -/
def eventsIn (mask : Nat) : List Field := unitEvents.filter fun f => bit mask f.low

theorem mem_eventsIn {f : Field} {mask : Nat} : f ∈ eventsIn mask ↔ f ∈ unitEvents ∧ bit mask f.low = true := List.mem_filter

/-- A UNIT_EVT write that takes clears its bits in the unit and in every member (R55). -/
theorem execUnitEvtClear_takes {s : State} {slot : Nat} (mask : Nat) (hslot : slotHolds slot = true) (ht : s.takes (0x2000018 + 256 * slot)) :
    execUnitEvtClear slot mask s = .next (clearUnits (eventsIn mask) (s.tree slot) s) :=
  congrArg Host.Outcome.next ((if_neg (by simp [hslot])).trans (hostWrite_takes ht 4 _))

/-! ### GROUP_DEF -/

/-- The definition `d` of a group is in force, and CAP_GEN tells of it (R58, R59). -/
def defineGroup (s : State) (g : Nat) (d : GroupDef) : State :=
  { s with groups := Table.set ⟨[], []⟩ s.groups g d }.setFld Reg.CAP_GEN.gen (s.fld Reg.CAP_GEN.gen + 1)

theorem defineGroup_same (s : State) (g : Nat) (d : GroupDef) : (s.defineGroup g d).group g = d := Table.get_set_same _ _ _ _

theorem defineGroup_other (s : State) {g h : Nat} (d : GroupDef) (hne : h ≠ g) : (s.defineGroup g d).group h = s.group h :=
  Table.get_set_ne _ _ hne _

theorem defineGroup_gen (s : State) (g : Nat) (d : GroupDef) :
    (s.defineGroup g d).fld Reg.CAP_GEN.gen = (s.fld Reg.CAP_GEN.gen + 1) % 2 ^ 32 := fld_setFld_same _ _ _ _ (by decide)

/-- A write of a group count that takes tests the definition and applies it (R58, R59). -/
theorem execGroupDefine_takes {s : State} {group count : Nat} (hg : group < 64) (hc : count < 65536) (ht : s.takes (0x20008 + 1024 * group)) :
    execGroupDefine group count s = .next (if s.badGroup group count then s.rejectUnit (slotGroup group)
      else s.defineGroup group ⟨s.newSlots group count, []⟩) := by
  unfold execGroupDefine
  rw [if_neg (by omega), hostWrite_takes ht, Nat.mod_eq_of_lt hc]
  rfl

end Sys2Proof.Machine.State

namespace Sys2Proof.Machine

/-- Settles O7: UNIT_CTRL writes wait for the one at the head of the queue, UNIT_EVT is cleared over the tree of the unit bit by bit, and a
group count is judged once and then rejected or put in force. -/
theorem unitsAndGroups : Obligations.UnitsAndGroups := by
  unfold Obligations.UnitsAndGroups
  refine ⟨fun s slot enable c w hslot ht hc => ?_, fun s w hq => ?_, fun s v w r hq => ?_, fun s w slot hlt hrej => ?_,
    fun s slot mask hslot ht => ?_, fun s group count hg hc ht hgood => ?_, fun s group count hg hc ht hbad => ?_⟩
  · have hexec : exec c s = .next (s.writeCtrl w) ∧ w.slot = slot := by
      rcases hc with ⟨rfl, rfl⟩ | ⟨rfl, rfl⟩ | ⟨rfl, rfl⟩ <;> exact ⟨rfl, rfl⟩
    obtain ⟨hexec, rfl⟩ := hexec
    rw [hexec]
    exact ⟨fun hq => congrArg Host.Outcome.next (State.writeCtrl_waits hslot ht hq),
      fun hq => congrArg Host.Outcome.next (State.writeCtrl_applies hslot ht hq)⟩
  · exact State.execUnitCtrlApplied_last hq
  · exact State.execUnitCtrlApplied_next hq
  · have hrejected : s.ctrlUnit w slot = s.rejectUnit slot := if_pos hrej
    obtain ⟨hcores, -, -⟩ := (s.tells_rejectUnit slot).keeps_units
    rw [hrejected]
    exact ⟨s.rejectUnit_reject hlt, s.rejectUnit_fld slot slot (by decide) (State.enable_not_reject slot), hcores⟩
  · obtain ⟨hcores, -, hmem⟩ := (s.tells_clearUnits (State.eventsIn mask) (s.tree slot)).keeps_units
    refine ⟨_, State.execUnitEvtClear_takes mask hslot ht, hmem, hcores, fun u hu f hf => ?_⟩
    rw [State.clearUnits_unitEvents hf u fun g hg => (State.mem_eventsIn.mp hg).1]
    exact ⟨fun hone => if_pos ⟨State.mem_eventsIn.mpr ⟨hf, hone⟩, hu⟩,
      fun hzero => if_neg fun hin => Bool.false_ne_true (hzero.symm.trans (State.mem_eventsIn.mp hin.1).2)⟩
  · exact ⟨_, (State.execGroupDefine_takes hg hc ht).trans (congrArg Host.Outcome.next (if_neg (by simp [hgood]))), s.defineGroup_same _ _,
      s.defineGroup_gen _ _, fun g hne => s.defineGroup_other _ hne⟩
  · have hslot : slotGroup group < 512 := by
      unfold slotGroup
      omega
    obtain ⟨-, hgroups, -⟩ := (s.tells_rejectUnit (slotGroup group)).keeps_units
    exact ⟨_, (State.execGroupDefine_takes hg hc ht).trans (congrArg Host.Outcome.next (if_pos hbad)), hgroups, s.rejectUnit_reject hslot,
      s.rejectUnit_fld _ 0 (by decide) (State.capGen_not_reject _)⟩

end Sys2Proof.Machine
end

