-- ==== Sys2Proof/Proofs/SqLocal.lean ====
section
/-! The sequencer's own instructions: registers, addresses and predicates (O8, O10, O11, O12). -/

namespace Sys2Proof.Machine

/-! ### Predicates -/

@[simp] theorem Sequencer.p_zero (q : Sequencer) : q.p 0 = true := rfl

@[simp] theorem Sequencer.setP_zero (q : Sequencer) (v : Bool) : q.setP 0 v = q := rfl

theorem Sequencer.p_setP_same (q : Sequencer) {r : Nat} (v : Bool) (h : r ≠ 0) : (q.setP r v).p r = v := by
  simp [Sequencer.p, Sequencer.setP, h]

theorem Sequencer.p_setP_ne (q : Sequencer) {r r' : Nat} (v : Bool) (h : r' ≠ r) : (q.setP r v).p r' = q.p r' := by
  unfold Sequencer.p Sequencer.setP
  split
  · rfl
  · split
    · rfl
    · exact Table.get_set_ne false v h q.pred

/-! ### Which row a word belongs to -/

@[simp] theorem isOp_iff (op w : Nat) : isOp op w = true ↔ Psi.op w = op := by simp [isOp]

@[simp] theorem isSub_iff (op sub w : Nat) : isSub op sub w = true ↔ Psi.op w = op ∧ Psi.sub w = sub := by simp [isSub]

@[simp] theorem isRest_iff (op : Nat) (others : List Nat) (w : Nat) : isRest op others w = true ↔ Psi.op w = op ∧ Psi.sub w ∉ others := by
  simp [isRest]

/-- Bit 96 is the lowest bit of sub. -/
theorem bit96_eq_sub (w : Nat) : bit w 96 = (Psi.sub w % 2 == 1) := by
  unfold bit Psi.sub bits
  rw [Nat.mod_mod_of_dvd _ (by decide)]

namespace State

/-! ### The rows that only change their sequencer -/

variable {s : State} {c w : Nat} {mine : Nat → Bool}

/-- A simple instruction whose conditions are met issues with its change. -/
theorem runSimple_issues {mask sub : Nat} {f : Nat → Sequencer → Sequencer} {names : Nat → List Nat} (h : s.Issues c w mask (names w))
    (hm : mine w = true) (hs : Psi.sub w = sub) : s.runSimple c mine mask sub f names = .next (s.issuedSq c w (f w)) :=
  congrArg Host.Outcome.next (issue_issued s c w mine _ mask (names w) h hm rfl rfl (by simp [Plan.simple, hs]) (by simp [Plan.simple]) rfl rfl)

/-- A compare of a condition it accepts issues and writes its predicate. -/
theorem runCompare_issues {op mask accepts : Nat} {f : Nat → Sequencer → Bool} (h : s.Issues c w mask [Psi.p w]) (hop : Psi.op w = op)
    (ha : Psi.sub w ≤ accepts) (h5 : accepts ≤ 5) :
    s.runCompare c op mask accepts f = .next (s.issuedSq c w fun q => q.setP (Psi.p w) (f w q)) :=
  congrArg Host.Outcome.next (issue_issued s c w (isOp op) _ mask [Psi.p w] h (by simp [hop]) rfl rfl
    (decide_eq_true (ha.trans h5)) (by simp [ha]) rfl rfl)

/-- A function of two predicates issues and writes its predicate. -/
theorem runPlog_issues {func : Nat} {f : Nat → Bool → Bool → Bool} (h : s.Issues c w mPlog [Psi.d w % 8, Psi.a w % 8, Psi.b w % 8])
    (hm : mine w = true) (hs : Psi.sub w = func) : s.runPlog c mine func f =
      .next (s.issuedSq c w fun q => q.setP (Psi.d w % 8) (f w (q.p (Psi.a w % 8)) (q.p (Psi.b w % 8)))) :=
  runSimple_issues (names := fun w => [Psi.d w % 8, Psi.a w % 8, Psi.b w % 8]) h hm hs

end State

/-! ### The obligations -/

/-- Settles O8: P0 is not kept in the table of predicates, and every other predicate is. -/
theorem predicateZero : Obligations.PredicateZero := by
  unfold Obligations.PredicateZero
  exact ⟨Sequencer.p_zero, Sequencer.setP_zero, fun q _ v h => q.p_setP_same v h, fun q _ _ v h => q.p_setP_ne v h⟩

/-- Settles O10: each row is a simple instruction, told from its neighbours by op and sub. -/
theorem sqArithmetic : Obligations.SqArithmetic := by
  unfold Obligations.SqArithmetic
  refine ⟨fun s c w h hsub => ⟨fun hop => ?_, fun hop => ?_, fun hop => ?_⟩, fun s c w h hop hsub => ?_,
    fun s c w h hsub => ⟨fun hop => ?_, fun hop => ?_, fun hop => ?_⟩, fun s c w h hsub => ⟨fun hop => ?_, fun hop => ?_⟩⟩
  all_goals exact State.runSimple_issues h (by simp [hop, hsub]) hsub

/-- Settles O11: the simple rows as for O10; ADDA chooses the extension by bit 96, and SETLDB meets its two conditions on A[a]. -/
theorem sqAddresses : Obligations.SqAddresses := by
  unfold Obligations.SqAddresses
  refine ⟨fun s c w h hsub => ⟨fun hop => ?selA, fun hop => ?selC⟩, fun s c w h hop hsub => ?moviA, fun s c w h hop hsub => ?moviC,
    fun s c w h hop => ⟨fun hsub => ?adda, fun hsub => ?addaSigned⟩, fun s c w h hop hsub => ?addai, fun s c w h hop hsub => ?mada,
    fun s c w h hop hsub => ?movCa, fun s c w h hop hsub => ?movAc, fun s c w h hop hsub halign hlt => ?setldb⟩
  case selA | selC => exact State.runSimple_issues (names := fun w => [Psi.p w]) h (by simp [hop]) hsub
  case adda | addaSigned =>
    have hbit := bit96_eq_sub w
    rw [hsub] at hbit
    refine congrArg Host.Outcome.next ((State.issue_issued s c w (isOp 0x10) _ _ [] h (by simp [hop]) rfl rfl (by simp [hsub]) (by simp) rfl
      rfl).trans ?_)
    simp only [hbit]
    rfl
  case setldb =>
    exact congrArg Host.Outcome.next (State.issue_issued s c w (isOp 0x19) _ _ [] h (by simp [hop]) rfl rfl (by simp [hsub])
      (by simp [halign, hlt]) rfl rfl)
  all_goals exact State.runSimple_issues h (by simp [hop, hsub]) hsub

/-- Settles O12: the compares write P[p], the functions of two predicates P[d], and P0 takes no write. -/
theorem sqPredicates : Obligations.SqPredicates := by
  unfold Obligations.SqPredicates
  refine ⟨fun s c w h hop hsub => State.runCompare_issues h hop hsub (by decide),
    fun s c w h hop hsub => State.runCompare_issues h hop hsub (by decide), fun s c w h hop hsub => State.runCompare_issues h hop hsub (by decide),
    fun s c w h hop => ⟨fun hsub => ?pand, fun hsub => ?por, fun hsub => ?pxor, fun hsub => ?pandn, fun hsub => ?pnot, fun hsub => ?pset⟩,
    fun q v => ⟨q.p_zero, q.setP_zero v⟩⟩
  case pand => exact (State.runPlog_issues h (by simp [hop, hsub]) hsub : execPand c s = _)
  case por => exact (State.runPlog_issues h (by simp [hop, hsub]) hsub : execPor c s = _)
  case pxor => exact (State.runPlog_issues h (by simp [hop, hsub]) hsub : execPxor c s = _)
  case pandn => exact (State.runPlog_issues h (by simp [hop, hsub]) hsub : execPandn c s = _)
  case pnot => exact (State.runPlog_issues h (by simp [hop, hsub]) hsub : execPnot c s = _)
  case pset => exact (State.runPlog_issues h (by simp [hop, hsub]) hsub : execPset c s = _)

end Sys2Proof.Machine
end

