-- ==== Sys2Proof/Proofs/SqControl.lean ====
section
/-! Control: the end of a core's part, loops and skips, special values and the alarm (O13). -/

namespace Sys2Proof.Machine

/-! ### Leaving a loop (R103) -/

/-- A loop that ends elsewhere does not hold execution back. -/
theorem Sequencer.advance_other {q : Sequencer} {l : LoopEntry} {r : List LoopEntry} {at' onward : Nat} (hl : q.loops = l :: r)
    (h : l.stop ≠ at') : q.advance at' onward = { q with pc := onward } := by
  simp [Sequencer.advance, hl, testLoops, h]

/-- At the end of a loop with a count above 1 remaining, execution goes back. -/
theorem Sequencer.advance_back {q : Sequencer} {l : LoopEntry} {r : List LoopEntry} {at' onward : Nat} (hl : q.loops = l :: r)
    (h : l.stop = at') (hn : 1 < l.remaining) :
    q.advance at' onward = { q with loops := { l with remaining := l.remaining - 1 } :: r, pc := l.start } := by
  simp [Sequencer.advance, hl, testLoops, h, hn]

/-- At the end of a loop on its last count, the entry is popped and the next one is tested. -/
theorem Sequencer.advance_pop {q : Sequencer} {l : LoopEntry} {r : List LoopEntry} {at' onward : Nat} (hl : q.loops = l :: r)
    (h : l.stop = at') (hn : l.remaining ≤ 1) : q.advance at' onward = { q with loops := r }.advance at' onward := by
  simp [Sequencer.advance, hl, testLoops, h, Nat.not_lt.mpr hn]

namespace State

variable {s : State} {c w : Nat}

/-- An index within the program is no cause of 0x0408 (R74). -/
theorem outOfProgram_of_fetch (hf : (s.core c).fetch = some w) : s.outOfProgram c = s := by
  simp [outOfProgram, hf]

/-- The alarm rows share their conditions: an event of the job is bound to source code 6 (R106). -/
theorem runAlarm_issues {mine : Nat → Bool} {mode : Nat} {f : Nat → State → State} (h : s.Issues c w (mA ||| mB)) (hm : mine w = true)
    (hs : Psi.sub w = mode) (hb : (s.core c).sq.boundTo 6 ≠ []) : s.runAlarm c mine mode f = .next (s.issued c w (f w)) :=
  congrArg Host.Outcome.next (issue_issued s c w mine _ _ [] h hm rfl rfl (by simp [hs]) (by simp [hb]) rfl rfl)

/-- A LOOP whose body is not empty, lies in the program and in the loop around it, and that finds a free entry where it opens one
(R102). -/
theorem execLoop_issues (h : s.Issues c w (mA ||| maskOf 75 64 ||| mImm)) (hop : Psi.op w = 0x02) (hsub : Psi.sub w ≤ 1)
    (hlen : Psi.len w ≠ 0) (hin : (s.core c).sq.pc + Psi.len w < (s.core c).progLen)
    (hinner : ∀ l ∈ (s.core c).sq.loops.head?, (s.core c).sq.pc + Psi.len w ≤ l.stop)
    (hfree : (s.core c).sq.loopCount w = 0 ∨ (s.core c).sq.loops.length < 4) :
    execLoop c s = .next (s.issued c w id true fun q => q.openLoop w) := by
  have hfull : 1 ≤ (s.core c).sq.loopCount w → ¬ 4 ≤ (s.core c).sq.loops.length := by omega
  refine congrArg Host.Outcome.next (issue_issued s c w (isOp 0x02) _ _ [] h (by simp [hop]) rfl rfl (decide_eq_true hsub) ?_ rfl rfl)
  cases hl : (s.core c).sq.loops with
  | nil => simp [hl, hlen, hin]
  | cons l r => simpa [hl, hlen, hin, hinner l (by simp [hl])] using hfull

/-- A SKIP of at least one instruction that stays in the program and passes no loop's end (R104). -/
theorem execSkip_issues (h : s.Issues c w (maskOf 67 64)) (hop : Psi.op w = 0x03) (hsub : Psi.sub w = 0) (hn : bits w 67 64 ≠ 0)
    (hloops : ∀ l ∈ (s.core c).sq.loops, l.stop < (s.core c).sq.pc + 1 ∨ (s.core c).sq.pc + bits w 67 64 < l.stop)
    (hin : (s.core c).sq.pc + bits w 67 64 + 1 < (s.core c).progLen) :
    execSkip c s = .next (s.issued c w id true fun q => q.advance q.pc (q.pc + bits w 67 64 + 1)) := by
  have hcross : ∀ l ∈ (s.core c).sq.loops, (s.core c).sq.pc + 1 ≤ l.stop → (s.core c).sq.pc + bits w 67 64 < l.stop := by
    intro l hl hle
    have := hloops l hl
    omega
  exact congrArg Host.Outcome.next (issue_issued s c w (isOp 0x03) _ _ [] h (by simp [hop]) rfl rfl (by simp [hsub])
    (by simpa [hn, hin] using hcross) rfl rfl)

/-- The alarm fires once the GSC is past its target by the least lag, while the SQ ring makes steps (R80). -/
theorem execGscAlarmFire_due (hset : (s.core c).sq.alarm ≠ alarmOff) (hdue : (s.core c).sq.alarm + s.seenLag.1 ≤ s.gsc)
    (hhold : s.flag Reg.PWR_SUPSTAT.hold = false) (hcool : s.fld Reg.PWR_THERM.state ≠ 2) (hpace : s.paceRate ≠ 0) :
    execGscAlarmFire c s = .next (s.fireAlarm c) :=
  congrArg Host.Outcome.next (if_neg (by simp [hset, Nat.not_lt.mpr hdue, hhold, hcool, hpace]))

@[simp] theorem setCore_job? (s : State) (c : Nat) (k : Core) (j : Nat) : (s.setCore c k).job? j = s.job? j := rfl

/-- A core that has issued END and drained is done with its part, and the last core of a job that did not fault ends it (R74). -/
theorem execCorePartEnd_drained {x : Job} (hended : (s.core c).ended = true) (hpart : (s.core c).partDone = false)
    (hempty : (s.core c).empty = true) (hjob : s.job? (s.core c).sq.job = some x) (hfault : x.fault = none) :
    execCorePartEnd c s = .next (
      let t := s.setCore c { s.core c with partDone := true }
      if x.cores.all (t.partOver (s.core c).sq.job) then (t.endJob (s.core c).sq.job 0 (s.core c).sq.job).settle else t) := by
  refine congrArg Host.Outcome.next ((if_neg (by simp [hended, hpart, hempty])).trans ?_)
  simp only [setCore_job?, hjob, hfault, Option.isNone_none, Bool.true_and]

end State

/-- Settles O13: each row meets its conditions and issues with its own effect and program order. -/
theorem sqControl : Obligations.SqControl := by
  unfold Obligations.SqControl
  refine ⟨fun s c w h hsub => ⟨fun hop => ?nop, fun hop hsen => ?endJob⟩, fun s c w => State.execLoop_issues,
    fun s c w => State.execSkip_issues, fun s c w h hop => ?rds,
    fun s c w h hop hb => ⟨fun hsub => ?alarmSet, fun hsub => ?alarmRelative, fun hsub => ?alarmDisarm⟩,
    fun s c => State.execGscAlarmFire_due, fun s c j x hended hpart hempty hj hjob hfault => ?partEnd,
    fun q l r at' onward hl => ⟨q.advance_other hl, q.advance_back hl, q.advance_pop hl⟩⟩
  case nop =>
    have ⟨_, hfetch, _⟩ := h
    have hnop : execNop c s = .next (s.issued c w id) := by
      unfold execNop
      rw [State.outOfProgram_of_fetch hfetch]
      exact congrArg Host.Outcome.next (State.issue_issued s c w _ _ 0 [] h (by simp [hop]) rfl rfl (by simp [hop, hsub]) (by simp) rfl rfl)
    exact hnop
  case endJob =>
    exact congrArg Host.Outcome.next (State.issue_issued s c w (isOp 0x01) _ 0 [] h (by simp [hop]) rfl rfl (by simp [hsub, hsen]) (by simp) rfl
      rfl)
  case rds =>
    refine ⟨fun hsub => ?_, fun hsub => ?_, fun hsub => ?_, fun hsub => ?_, fun hsub => ?_⟩
    all_goals
      refine congrArg Host.Outcome.next ((State.issue_issued s c w (isOp 0x18) _ _ [] h (by simp [hop]) rfl rfl (by simp [hsub]) (by simp) rfl
        rfl).trans ?_)
      rw [hsub]
      rfl
  case alarmSet => exact (State.runAlarm_issues h (by simp [hop, hsub]) hsub hb : execAlarmSet c s = _)
  case alarmRelative => exact (State.runAlarm_issues h (by simp [hop, hsub]) hsub hb : execAlarmRelative c s = _)
  case alarmDisarm => exact (State.runAlarm_issues h (by simp [hop, hsub]) hsub hb : execAlarmDisarm c s = _)
  case partEnd =>
    subst hj
    exact State.execCorePartEnd_drained hended hpart hempty hjob hfault

end Sys2Proof.Machine
end

