-- ==== Sys2Proof/Proofs/Synchronisation.lean ====
section
/-! Core signals, the job barrier and the tile counters (O14). -/

namespace Sys2Proof.Machine.State

variable {s : State} {c w : Nat}

/-- A plan that holds, and whose conditions are met, begins its hold and does nothing else (R109). -/
theorem issue_holds {mine : Nat → Bool} {plan : State → Nat → Plan} {names : List Nat} {claim : Claim}
    (h : s.Issues c w (plan s w).mask names) (hm : mine w = true) (hn : (plan s w).names = names) (hc : (plan s w).codes = true)
    (hx : ∀ x ∈ (plan s w).checks, x.1 = false) (hf : (plan s w).full = false) (hh : (plan s w).hold = some claim) :
    s.issue c mine plan = s.modCore c fun k => { k with claim := some claim } := by
  obtain ⟨hcan, hfetch, hwait, hpass, hfree, hbody, hsen⟩ := h
  have hready : ((Psi.pidx w :: (plan s w).names).any fun x => (s.core c).predPending.contains x) = false := by
    simpa [hn] using hfree
  have hnone : (plan s w).cause w true = none := by
    have hlegal : (plan s w).illegal w = false := by
      unfold Plan.illegal
      rw [hbody, hc]
      rcases hsen with hsen | hsen <;> simp [hsen]
    have hmet : ((plan s w).checks.find? fun x => x.1) = none := List.find?_eq_none.mpr fun x hx' => by simp [hx x hx']
    simp [Plan.cause, hlegal, hmet]
  unfold issue
  simp only [hcan, hfetch, hm, hpass, hready, hf, hnone, hh, Nat.not_lt.mpr hwait, Bool.not_true, Bool.false_eq_true, if_false, Bool.and_false,
    Option.isSome_some, Bool.and_self, if_true]

/-! ### Signals between cores -/

/-- SIGC to a rank of the job, with an event bound to other cores (R107). -/
theorem execSigcRank_issues (h : s.Issues c w (mA ||| mTev)) (hop : Psi.op w = 0x60) (hsub : Psi.sub w = 0)
    (hbind : (s.core c).sq.bind (bits w 79 75) = 4) (hrank : ((s.core c).sq.c (Psi.a w)).toNat < (s.core c).sq.ncores) :
    execSigcRank c s = .next (s.issued c w fun t => t.sendSignals c (bits w 79 75)
      (((t.jobCores c).drop ((s.core c).sq.c (Psi.a w)).toNat).take 1)) :=
  congrArg Host.Outcome.next (issue_issued s c w (isRest 0x60 [1]) _ _ [] h (by simp [hop, hsub]) rfl rfl (by simp [hsub])
    (by simp [hbind, hrank]) rfl rfl)

/-- SIGC to the cluster, with an event bound to other cores (R107). -/
theorem execSigcCluster_issues (h : s.Issues c w (mA ||| mTev)) (hop : Psi.op w = 0x60) (hsub : Psi.sub w = 1)
    (hbind : (s.core c).sq.bind (bits w 79 75) = 4) :
    execSigcCluster c s = .next (s.issued c w fun t => t.sendSignals c (bits w 79 75) ((t.jobCores c).filter fun k => k / 16 == c / 16 && k != c)) :=
  congrArg Host.Outcome.next (issue_issued s c w (isSub 0x60 1) _ _ [] h (by simp [hop, hsub]) rfl rfl (by simp [hsub]) (by simp [hbind]) rfl rfl)

/-- A signal in flight lands (R107). -/
theorem execCoreSignalArrival_inFlight {j e : Nat} (h : ⟨c, j, e⟩ ∈ s.signals) :
    execCoreSignalArrival c j e s = .next (State.signalExt { s with signals := s.signals.erase ⟨c, j, e⟩ } j c e) :=
  congrArg Host.Outcome.next (if_pos (List.contains_iff_mem.mpr h))

/-! ### The barrier -/

/-- BAR of a core that has not arrived in this round, with an event bound to source code 5 (R108). -/
theorem execBar_issues (h : s.Issues c w 0) (hop : Psi.op w = 0x61) (hsub : Psi.sub w = 0) (hb : (s.core c).sq.boundTo 5 ≠ [])
    (honce : ∀ j, s.job? (s.core c).sq.job = some j → c ∉ j.arrived) :
    execBar c s = .next (s.issued c w fun t => t.modJob (s.core c).sq.job fun j => j.arrive c) := by
  refine congrArg Host.Outcome.next (issue_issued s c w (isOp 0x61) _ 0 [] h (by simp [hop]) rfl rfl (by simp [hsub]) ?_ rfl rfl)
  cases hj : s.job? (s.core c).sq.job with
  | none => simp [hj, hb]
  | some j => simp [hj, hb, honce j hj]

/-- A completed round signals source code 5 on every core of the job (R108). -/
theorem execBarrierComplete_round {j : Nat} {x : Job} (hj : s.job? j = some x) (hx : x.barrier ≠ 0) :
    execBarrierComplete j s = .next ((s.modJob j fun y => { y with barrier := y.barrier - 1 }).signalJob j 5) := by
  simp [execBarrierComplete, hj, hx]

/-! ### Tile counters -/

/-- TCLAIM with a predicate other than P0 reads its operands, and the hold begins (R109). -/
theorem execTclaim_holds (h : s.Issues c w (mD ||| mA ||| mB ||| mP) [Psi.p w]) (hop : Psi.op w = 0x62) (hsub : Psi.sub w = 0)
    (hp : Psi.p w ≠ 0) : execTclaim c s = .next (s.modCore c fun k => { k with claim :=
      (some ⟨((s.core c).sq.c (Psi.a w)).toNat, ((s.core c).sq.c (Psi.b w)).toNat, Psi.d w, Psi.p w, none⟩ : Option Claim) }) :=
  congrArg Host.Outcome.next (issue_holds h (by simp [hop]) rfl (by simp [hsub]) (by simp [hp]) rfl rfl)

/-- The cores of a step with one claim. -/
theorem filter_range_singleton {n d : Nat} (h : d < n) : (List.range n).filter (fun k => [d].contains k) = [d] := by
  have hd : (fun k => [d].contains k) = (fun k => k == d) := by
    funext k
    simp only [List.contains_cons, List.contains_nil, Bool.or_false]
  rw [hd, List.filter_beq, List.count_eq_one_of_mem List.nodup_range (List.mem_range.mpr h), List.replicate_one]

/-- The claim port adds the increment of a claim that holds and answers the old value (R109). -/
theorem applyClaim_holding {tile : Nat} {claim : Claim} (hclaim : (s.core c).claim = some claim) (hold : claim.old = none)
    (htile : s.tileOf c = some tile) : s.applyClaim tile c =
      (s.setFld Reg.SEQ_TILECNT.value (s.fld Reg.SEQ_TILECNT.value tile + claim.inc) tile).modCore c
        fun k => { k with claim := some { claim with old := some (s.fld Reg.SEQ_TILECNT.value tile) } } := by
  simp [applyClaim, hclaim, hold, htile]

/-- The return of the old value ends the hold, and the instruction issues with its answer (R109). -/
theorem execTclaimReturn_returned {claim : Claim} {v : Nat} (hclaim : (s.core c).claim = some claim) (hfetch : (s.core c).fetch = some w)
    (hold : claim.old = some v) : execTclaimReturn c s = .next ((s.modCore c fun k => { k with claim := none }).issuedSq c w fun q =>
      (q.setC claim.d (BitVec.ofNat 32 v)).setP claim.p (decide (v < claim.limit))) := by
  simp only [execTclaimReturn, hclaim, hfetch, hold]
  rfl

end Sys2Proof.Machine.State

namespace Sys2Proof.Machine

/-- Settles O14: SIGC and BAR issue, TCLAIM holds until its answer is back, and what arrives lands. -/
theorem sqSynchronisation : Obligations.SqSynchronisation := by
  unfold Obligations.SqSynchronisation
  refine ⟨fun s c w h hop hbind => ⟨fun hsub hrank => State.execSigcRank_issues h hop hsub hbind hrank,
      fun hsub => State.execSigcCluster_issues h hop hsub hbind⟩, fun s c j e => State.execCoreSignalArrival_inFlight,
    fun s c w => State.execBar_issues, fun s j x => State.execBarrierComplete_round, fun s c w => State.execTclaim_holds,
    fun s tile c claim hc hclaim hold htile => ?_, fun s c w claim v => State.execTclaimReturn_returned, fun s tile value ht => ?_⟩
  · have hport : execTileClaimApply tile [c] s = .next (s.applyClaim tile c) := by
      unfold execTileClaimApply
      rw [State.filter_range_singleton hc]
      rfl
    exact hport.trans (congrArg Host.Outcome.next (State.applyClaim_holding hclaim hold htile))
  · exact congrArg Host.Outcome.next (State.hostWrite_takes ht 4 _)

end Sys2Proof.Machine
end

