-- ==== Sys2Proof/Proofs/CoreStore.lean ====
section
/-! SUPPORT. Reading a core after a core has been stored. -/

namespace Sys2Proof.Machine.State

@[simp] theorem core_setCore_same (s : State) (c : Nat) (k : Core) : (s.setCore c k).core c = k := Table.get_set_same _ _ _ _

@[simp] theorem core_modCore_same (s : State) (c : Nat) (f : Core → Core) : (s.modCore c f).core c = f (s.core c) :=
  core_setCore_same _ _ _

@[simp] theorem core_modJob (s : State) (j c : Nat) (f : Job → Job) : (s.modJob j f).core c = s.core c := rfl

end Sys2Proof.Machine.State
end

