-- ==== Sys2Proof/Proofs/DotProduct.lean ====
section
/-! DPASS: its issue, what joining the queue keeps, its completion and the bytes it writes (O16). -/

namespace Sys2Proof.Machine

/-- An aligned operand range in core scratch meets neither of the two range conditions (R88). -/
theorem inScratch_of_fits {a n : Nat} (hn : 0 < n) (h : a + n ≤ scratchSize) : outsideScratch a = false ∧ pastScratch a n = false := by
  simp only [outsideScratch, pastScratch, Bool.and_eq_false_iff, decide_eq_false_iff_not]
  omega

theorem dpaK_pos (width : Nat) : 0 < dpaK width := by
  unfold dpaK
  repeat' split
  all_goals decide

theorem dpaTile_pos (width : Nat) : 0 < dpaTile width := Nat.add_pos_left (by decide) _

/-! ### What a pass writes (R151) -/

theorem DpaOp.length_sums (o : DpaOp) (units : List DpaUnit) (acts : List Byte) (m : Nat) : (o.sums units acts m).length = units.length := by
  simp [DpaOp.sums]

namespace State

theorem length_dpaUnits (s : State) (c width : Nat) (b : DpaBank) : (s.dpaUnits c width b).length = 128 := by simp [dpaUnits]

/-- A vector of 128 units has 128 outputs. -/
theorem length_dpaVector (s : State) (c : Nat) (o : DpaOp) {units : List DpaUnit} (acts : List Byte) (m : Nat) (hu : units.length = 128) :
    (s.dpaVector c o units acts m).1.length = 128 * o.outBytes := by
  unfold dpaVector
  rw [length_flatMap_const _ o.outBytes fun x => length_toBytes _ _, List.length_map, List.length_zip, List.length_range, o.length_sums, hu,
    Nat.min_self]

/-- The first `n` vectors of a pass are 128 outputs each. -/
theorem length_dpaResult (s : State) (c : Nat) (o : DpaOp) (b : DpaBank) (acts : List Byte) (n : Nat) :
    (s.dpaResult c o b acts n).1.length = 128 * o.outBytes * n := by
  have vector (m : Nat) : (s.dpaVector c o (s.dpaUnits c o.width b) acts m).1.length = 128 * o.outBytes :=
    s.length_dpaVector c o acts m (s.length_dpaUnits c o.width b)
  unfold dpaResult
  dsimp only
  rw [List.flatMap_map, length_flatMap_const _ _ vector, List.length_range, Nat.mul_comm]

/-- Writing a pass puts its result at the place of its outputs, and no other byte of memory changes. -/
theorem dpaWrite_mem (s : State) (c : Nat) (o : DpaOp) (b : DpaBank) (n : Nat) : (s.dpaWrite c o b n).mem =
    { s.mem with scratch := writeBytes s.mem.scratch (c * scratchSize + o.ay) (s.dpaResult c o b (s.liveActs c o) n).1 } :=
  (countNumeric_stores _ _ _ _ _).1

/-! ### The queue of passes -/

/-- Filling the shadow banks for a pass keeps every pass's place, outputs and signal: only its tile is noted. -/
theorem fillShadow_dpa (s : State) (c : Nat) (o : DpaOp) :
    ((s.fillShadow c o).core c).dpa.map (fun y => (y.index, y.ay, y.signal)) = (s.core c).dpa.map fun y => (y.index, y.ay, y.signal) := by
  simp only [fillShadow, core_modCore_same, List.map_map]
  refine List.map_congr_left fun y _ => ?_
  simp only [Function.comp_apply]
  split <;> rfl

/-- A pass joins the queue behind those before it. -/
theorem pushDpa_dpa (s : State) (c : Nat) (o : DpaOp) :
    ((s.pushDpa c o).core c).dpa.map (fun y => (y.index, y.ay, y.signal)) = ((s.core c).dpa ++ [o]).map fun y => (y.index, y.ay, y.signal) := by
  have joined (t : State) (ht : t = s.modCore c fun k => { k with dpa := k.dpa ++ [o] }) :
      ((t.fillShadow c o).core c).dpa.map (fun y => (y.index, y.ay, y.signal)) =
        ((s.core c).dpa ++ [o]).map fun y => (y.index, y.ay, y.signal) := by
    rw [fillShadow_dpa, ht, core_modCore_same]
  unfold pushDpa
  simp only []
  split
  · rw [core_modCore_same]
    exact joined _ rfl
  · split
    · exact joined _ rfl
    · rw [core_modCore_same]

/-! ### Issue and completion -/

/-- Charging a pass leaves its core as it is but for the steps not yet charged (R355). -/
theorem core_chargeDpa (s : State) (c n : Nat) :
    (s.chargeDpa c n).core c = { s.core c with fracDpa := ((s.core c).fracDpa + n) % 1024 } := by
  unfold chargeDpa
  rw [core_modJob, core_modCore_same]

/-- The oldest pass, on rings that run and with no parity error in its live banks, is written whole and leaves the queue (R112, R158). -/
theorem execDpassComplete_clean {s u : State} {c : Nat} {o : DpaOp} {r : List DpaOp} (hq : (s.core c).dpa = o :: r) (hr : s.ringsRun = true)
    (hbad : (s.core c).dpaBad = false) (hu : u = s.chargeDpa c (o.m + dpaHem o.width)) (hbank : u.bankError c o.width (u.liveBank c o) = none) :
    execDpassComplete c none s = .next (((((u.dpaWrite c o (u.liveBank c o) o.m).signalOwn c 1 o.index o.signal).popDpa c).modCore c
      Core.settleParity).restCore c) := by
  have hgood : ((s.chargeDpa c (o.m + dpaHem o.width)).core c).dpaBad = false := by
    rw [core_chargeDpa]
    exact hbad
  subst hu
  simp only [execDpassComplete, hq, hr, hgood, Option.map_none, Option.getD_none, hbank, Bool.not_true, Bool.false_eq_true, if_false]

end State

/-- Settles O16: the issue of a legal pass, the queue it joins, its completion, and the bytes its outputs take. -/
theorem dpassIssueAndCompletion : Obligations.DpassIssueAndCompletion := by
  unfold Obligations.DpassIssueAndCompletion
  refine ⟨fun s c w h hop hsub hout hfull hd ha hb hm hm' hacc hw hx hy hyw hyx => ?_,
    fun s c o => ⟨(s.pushDpa_stores c o).1, s.pushDpa_dpa c o⟩, fun s c o r u => State.execDpassComplete_clean, fun s c o b n a hne => ?_⟩
  · have hout' : 0 < (if bits w 99 98 = 1 then 256 else 512) := by split <;> decide
    obtain ⟨hwOut, hwPast⟩ := inScratch_of_fits (dpaTile_pos _) hw
    obtain ⟨hxOut, hxPast⟩ := inScratch_of_fits (Nat.mul_pos (dpaK_pos _) hm) hx
    obtain ⟨hyOut, hyPast⟩ := inScratch_of_fits (Nat.mul_pos hout' hm) hy
    refine congrArg Host.Outcome.next (State.issue_issued s c w (isOp 0x20) _ _ _ h (by simp [hop]) rfl rfl (by simp [hsub, hout]) ?_
      (decide_eq_false (Nat.not_le.mpr hfull)) rfl)
    have hm1 : ¬ s.cnt c (Psi.f80 w) < 1 := Nat.not_lt.mpr hm
    have hsum : (bits w 99 98 == 1 && bit w 79) = false := by
      simpa using hacc
    simp only [List.forall_mem_cons, hd, ha, hb, hm1, Nat.not_lt.mpr hm', hsum, hwOut, hxOut, hyOut, hwPast, hxPast, hyPast, hyw, hyx,
      bne_self_eq_false, decide_false, Bool.or_self, List.not_mem_nil, false_implies, implies_true, and_self]
  · rw [State.dpaWrite_mem]
    exact get_writeBytes_ne _ _ _ _ (by rwa [State.length_dpaResult])

end Sys2Proof.Machine
end

