-- ==== Sys2Proof/Proofs/VectorIssue.lean ====
section
/-! The issue of the vector row's instructions (O17). -/

namespace Sys2Proof.Machine

/-- The codes of a VRW instruction are assigned (Tables 5.8 and 5.9). -/
def vrwCodes (w last : Nat) : Prop := Psi.sub w < 3 ∧ Psi.func w ≤ last ∧ bits w 71 69 ≤ 5 ∧ bits w 31 28 ≤ 3 ∧ bits w 27 24 ≤ 3

namespace State

variable {s : State} {c w last : Nat} {mine : Nat → Bool}

/-- A VRW instruction other than VTEST joins the queue with the values of its issue (R83, R113). -/
theorem issueVrw_joins (h : s.Issues c w (maskOf 95 24)) (hm : mine w = true) (hop : Psi.op w ≠ 0x36) (hcodes : vrwCodes w last)
    (hfull : (s.core c).vrw.length < 4) (hx : ∀ x ∈ (s.vrwOp c w).checks, x.1 = false) : s.issueVrw c mine last =
      .next (s.issued c w (fun t => t.modCore c fun k => { k with vrw := k.vrw ++ [s.vrwOp c w] }) false) := by
  obtain ⟨hsub, hfunc, hcond, hsrc, hdst⟩ := hcodes
  have htest : ((s.vrwOp c w).op == 0x36) = false := beq_false_of_ne hop
  refine congrArg Host.Outcome.next ((issue_issued s c w mine _ _ [] h hm rfl (by simp only [htest]; rfl)
    (by simp [vrwOp, hsub, hfunc, hcond, hsrc, hdst]) hx (decide_eq_false (Nat.not_le.mpr hfull)) rfl).trans ?_)
  simp only [htest]
  rfl

/-- VTEST joins the queue and marks its predicate as still to be written (R99). -/
theorem issueVrw_marks (h : s.Issues c w (maskOf 95 24) [bits w 67 65]) (hm : mine w = true) (hop : Psi.op w = 0x36) (hcodes : vrwCodes w last)
    (hfull : (s.core c).vrw.length < 4) (hx : ∀ x ∈ (s.vrwOp c w).checks, x.1 = false) : s.issueVrw c mine last =
      .next (s.issued c w (fun t => t.modCore c fun k =>
        { k with vrw := k.vrw ++ [s.vrwOp c w], predPending := k.predPending ++ [bits w 67 65] }) false) := by
  obtain ⟨hsub, hfunc, hcond, hsrc, hdst⟩ := hcodes
  have htest : ((s.vrwOp c w).op == 0x36) = true := beq_iff_eq.mpr hop
  refine congrArg Host.Outcome.next ((issue_issued s c w mine _ _ [bits w 67 65] h hm rfl (by simp only [htest]; rfl)
    (by simp [vrwOp, hsub, hfunc, hcond, hsrc, hdst]) hx (decide_eq_false (Nat.not_le.mpr hfull)) rfl).trans ?_)
  simp only [htest]
  rfl

end State

/-- The rows of the vector row but VTEST: op, func and the command. -/
def vrwRows : List (Nat × Nat × (Nat → Instr)) :=
  [(0x30, 0, .vmac), (0x31, 0, .vewFma), (0x31, 1, .vewMul), (0x31, 2, .vewAdd), (0x31, 3, .vewSub), (0x31, 4, .vewMax), (0x31, 5, .vewMin),
    (0x31, 6, .vewMulv), (0x31, 7, .vewAdds), (0x32, 0, .vredMax), (0x32, 1, .vredSum), (0x32, 2, .vredSumsq), (0x33, 0, .vexpExp),
    (0x33, 1, .vexpRcp), (0x33, 2, .vexpRsqrt), (0x34, 0, .vcmp), (0x35, 0, .vsel), (0x37, 0, .vcvt)]

/-- Each row is the shared issue for the words with its op and func, whose functions run from 0 to the last of its op. -/
theorem vrwRows_issue : ∀ row ∈ vrwRows, ∃ (mine : Nat → Bool) (last : Nat), (∀ c s, exec (row.2.2 c) s = s.issueVrw c mine last) ∧
    (∀ w, Psi.op w = row.1 → Psi.func w = row.2.1 → mine w = true) ∧ row.1 ≠ 0x36 ∧ row.2.1 ≤ last := by
  intro row hrow
  simp only [vrwRows, List.mem_cons, List.not_mem_nil, or_false] at hrow
  rcases hrow with rfl | rfl | rfl | rfl | rfl | rfl | rfl | rfl | rfl | rfl | rfl | rfl | rfl | rfl | rfl | rfl | rfl | rfl
  all_goals exact ⟨_, _, fun _ _ => rfl, fun w hop hfunc => by simp [isFunc, isFuncRest, hop, hfunc], by decide, by decide⟩

/-- Settles O17: every row is the shared issue for its words, and VTEST also marks its predicate. -/
theorem vrwIssue : Obligations.VrwIssue := by
  unfold Obligations.VrwIssue
  refine ⟨fun s c w row hrow h hop hfunc hsub hcond hsrc hdst hfull hx => ?_, fun s c w h hop hfunc hsub hcond hsrc hdst hfull hx => ?_⟩
  · obtain ⟨mine, last, hexec, hmine, hne, hlast⟩ := vrwRows_issue row hrow
    rw [hexec]
    exact State.issueVrw_joins h (hmine w hop hfunc) (hop ▸ hne) ⟨hsub, hfunc.trans_le hlast, hcond, hsrc, hdst⟩ hfull hx
  · exact (State.issueVrw_marks h (by simp [hop]) hop ⟨hsub, hfunc.le, hcond, hsrc, hdst⟩ hfull hx : execVtest c s = _)

end Sys2Proof.Machine
end

