-- ==== Sys2Proof/Proofs/EngineIssue.lean ====
section
/-! The issue of the instructions of the sequence engine and the exchange engine (O33). -/

namespace Sys2Proof.Machine

/-- A count from 1 to the most allowed. -/
theorem countOut_eq_false {n most : Nat} (h1 : 1 ≤ n) (hn : n ≤ most) : countOut n most = false := by
  simp only [countOut, Bool.or_eq_false_iff, decide_eq_false_iff_not]
  omega

/-- A range lies in core scratch: it starts there, and ends no later. -/
def liesInScratch (r : Nat × Nat) : Prop := r.1 + r.2 ≤ scratchSize ∧ r.1 < scratchSize

/-- Ranges in core scratch meet neither of the two range conditions (R88). -/
theorem inScratch_of_liesIn {rs : List (Nat × Nat)} (h : ∀ r ∈ rs, liesInScratch r) :
    (rs.any fun r => outsideScratch r.1) = false ∧ (rs.any fun r => pastScratch r.1 r.2) = false := by
  simp only [List.any_eq_false]
  refine ⟨fun r hr => ?_, fun r hr => ?_⟩ <;> obtain ⟨hend, hstart⟩ := h r hr
  · simpa [outsideScratch] using hstart
  · simp [pastScratch, hstart, hend]

namespace State

/-- The block's address as its conditions look at it: the end of scratch where its first 64 bytes cannot be read. -/
def readableAt (blk : Nat) : Nat := if blk + 64 ≤ scratchSize then blk else scratchSize

theorem readableAt_of_le {blk : Nat} (h : blk + 64 ≤ scratchSize) : readableAt blk = blk := if_pos h

/-- An XE or SE instruction whose block is aligned and meets none of its own conditions, and whose ranges lie in core scratch, joins the
engine's queue (R83, R121). -/
theorem issueBlock_joins {s : State} {c w op func : Nat} {mine : Nat → Bool} {size : Nat → Nat} {bad : State → Nat → Nat → Bool}
    {ranges : State → Nat → Nat → List (Nat × Nat)} (h : s.Issues c w mBlock) (hm : mine w = true) (hs : Psi.sub w = func)
    (halign : s.addr c (Psi.d w) % 256 = 0) (hbad : bad s (readableAt (s.addr c (Psi.d w))) (s.cnt c (Psi.a w)) = false)
    (hblock : liesInScratch (s.addr c (Psi.d w), size (s.cnt c (Psi.a w))))
    (hranges : ∀ r ∈ ranges s (s.addr c (Psi.d w)) (s.cnt c (Psi.a w)), liesInScratch r) :
    s.issueBlock c op func mine size bad ranges = .next (s.issued c w (fun t => t.modCore c fun k => { k with engine := k.engine ++
      [(⟨k.sq.pc, op, func, s.addr c (Psi.d w), s.cnt c (Psi.a w), Psi.signal w⟩ : EngineOp)] }) false) := by
  have hall : ∀ r ∈ (s.addr c (Psi.d w), size (s.cnt c (Psi.a w))) ::
      (if s.addr c (Psi.d w) + 64 ≤ scratchSize then ranges s (s.addr c (Psi.d w)) (s.cnt c (Psi.a w)) else []), liesInScratch r := by
    refine List.forall_mem_cons.mpr ⟨hblock, fun r hr => ?_⟩
    split at hr
    · exact hranges r hr
    · cases hr
  obtain ⟨hout, hpast⟩ := inScratch_of_liesIn hall
  unfold readableAt at hbad
  refine congrArg Host.Outcome.next (issue_issued s c w mine _ _ [] h hm rfl rfl (by simp [hs]) ?_ rfl rfl)
  simp only [List.forall_mem_cons, halign, hout, hpast, decide_eq_true_eq, hbad, bne_self_eq_false, List.not_mem_nil, false_implies,
    implies_true, and_self]

end State

/-- Settles O33: each row is the shared issue of a block, with its own size, conditions and ranges. -/
theorem engineInstructions : Obligations.EngineInstructions := by
  unfold Obligations.EngineInstructions
  refine ⟨fun s c w blk n row hrow h hop hsub hblk hn halign h1 hmost hfit hsampler => ?counted,
    fun s c w blk n row hrow h hop hsub hblk hn halign hfit hbad hranges => ?logits,
    fun s c w blk n h hop hsub hblk hn halign hfit hbad hranges => ?dispatch,
    fun s c w blk n h hop hsub hblk hn halign hfit hbad hranges => ?ret, fun s c w blk h hop hsub hblk halign hlt => ?done⟩
  case counted =>
    subst hblk hn
    simp only [List.mem_cons, List.not_mem_nil, or_false] at hrow
    have hpos : 0 < row.2.2.1 + row.2.2.2.1 * s.cnt c (Psi.a w) := by
      rcases hrow with rfl | rfl | rfl | rfl <;> dsimp only <;> omega
    have hblock : liesInScratch (s.addr c (Psi.d w), row.2.2.1 + row.2.2.2.1 * s.cnt c (Psi.a w)) := ⟨hfit, by dsimp only; omega⟩
    have hcount := countOut_eq_false h1 hmost
    rcases hrow with rfl | rfl | rfl | rfl
    · exact (State.issueBlock_joins h (by simp [hop, hsub]) hsub halign hcount hblock (by simp) : execSeiterBatch c s = _)
    · obtain ⟨lg, hlg, hin⟩ := hsampler rfl rfl
      exact (State.issueBlock_joins h (by simp [hop, hsub]) hsub halign (by simpa [hlg, hin] using hcount) (by simpa using hblock) (by simp) :
        execSeiterResult c s = _)
    · exact (State.issueBlock_joins h (by simp [hop]) hsub halign hcount (by simpa using hblock) (by simp) : execSepage c s = _)
    · exact (State.issueBlock_joins h (by simp [hop]) hsub halign hcount (by simpa using hblock) (by simp) : execSekv c s = _)
  case logits =>
    subst hblk hn
    have hblock : liesInScratch (s.addr c (Psi.d w), 64) := ⟨hfit, by dsimp only; omega⟩
    simp only [List.mem_cons, List.not_mem_nil, or_false] at hrow
    rcases hrow with rfl | rfl
    · exact (State.issueBlock_joins h (by simp [hop, hsub]) hsub halign (by rwa [State.readableAt_of_le hfit]) hblock hranges :
        execSelogitTarget c s = _)
    · exact (State.issueBlock_joins h (by simp [hop, hsub]) hsub halign (by rwa [State.readableAt_of_le hfit]) hblock hranges :
        execSelogitDraft c s = _)
  case dispatch =>
    subst hblk hn
    exact (State.issueBlock_joins h (by simp [hop]) hsub halign (by rwa [State.readableAt_of_le (by omega)]) ⟨hfit, by dsimp only; omega⟩
      hranges : execXdisp c s = _)
  case ret =>
    subst hblk hn
    exact (State.issueBlock_joins h (by simp [hop]) hsub halign (by rwa [State.readableAt_of_le (by omega)]) ⟨hfit, by dsimp only; omega⟩
      hranges : execXret c s = _)
  case done =>
    subst hblk
    exact (State.issueBlock_joins h (by simp [hop]) hsub halign rfl ⟨by dsimp only; omega, hlt⟩ (by simp) : execSedone c s = _)

end Sys2Proof.Machine
end

