-- ==== Sys2Proof/Proofs/MoverBeats.lean ====
section
/-! The movers: issue, the oldest beat's completion and its timeout (O19). -/

namespace Sys2Proof.Machine

/-! ### The queue of a mover -/

@[simp] theorem Core.moverQueue_setMover (k : Core) (m : Nat) (l : List MoverOp) : (k.setMover m l).moverQueue m = l := by
  unfold Core.moverQueue Core.setMover
  split <;> rfl

/-- A beat moves at most four chunks of 64 bytes (R134). -/
theorem MoverOp.length_beatAt (o : MoverOp) (b : Nat) : (o.beatAt b).length ≤ 4 := by
  refine (List.length_filterMap_le _ _).trans ?_
  simp only [span, List.length_map, List.length_range]
  omega

/-- A beat that touches no tier beyond T1 does not write T2. -/
theorem dstTier_ne_two {beat : List (Option Nat × Nat)} (h : beatTier beat ≤ 1) : dstTier beat ≠ 2 := by
  have := le_max_right (srcTier beat) (dstTier beat)
  unfold beatTier at h
  omega

theorem tierOf_scratch {a : Nat} (h : locate a = some (.scratch, a)) : tierOf a = 0 := by
  simp [tierOf, h]

/-- A table whose list is legal has at least one entry (Table 6.4). -/
theorem Descriptor.plistLen_pos {t : Descriptor} {bs : List Byte} (h : t.illegal bs true = false) : 0 < t.plistLen := by
  by_contra hlen
  have : t.plistLen = 0 := by omega
  simp [Descriptor.illegal, this] at h

namespace State

/-- An operation joins behind those before it, with a number of its own. -/
theorem pushMover_behind {s : State} {c m : Nat} (o : MoverOp) (h : (s.core c).moverQueue m ≠ []) :
    ((s.pushMover c m o).core c).moverQueue m = (s.core c).moverQueue m ++ [{ o with num := s.fabNext }] := by
  have hfirst : ((s.core c).moverQueue m).isEmpty = false := by simpa using h
  simp only [pushMover, hfirst, Bool.false_eq_true, if_false, core_modCore_same, Core.moverQueue_setMover]
  rfl

theorem moverHead_of_queue {s : State} {c m : Nat} {o : MoverOp} {r : List MoverOp} (h : (s.core c).moverQueue m = o :: r) :
    s.moverHead c m = some o := by
  simp [moverHead, h]

/-- A mover that has no beat to send sends none. -/
theorem sendBeats_of_none {s : State} {c m : Nat} (h : s.sendBeat c m = none) : ∀ n, s.sendBeats c m n = s
  | 0 => rfl
  | n + 1 => by
    unfold sendBeats
    rw [h]
    exact ite_self s

/-! ### Issue (R116, R117, R133) -/

variable {s : State} {c w : Nat}

/-- MOVL of aligned ranges that the job may reach and that share no byte joins its mover (R116). -/
theorem execMovl_issues (h : s.Issues c w (mD ||| mB ||| mA)) (hop : Psi.op w = 0x50) (hsub : Psi.sub w < 2)
    (hfull : ((s.core c).moverQueue (Psi.mover w)).length < 4) (hd : s.addr c (Psi.d w) % 64 = 0) (ha : s.addr c (Psi.a w) % 64 = 0)
    (hn : s.cnt c (Psi.b w) % 64 = 0) (h0 : s.cnt c (Psi.b w) ≠ 0)
    (hdst : s.barred c ⟨s.addr c (Psi.d w), s.addr c (Psi.d w) + s.cnt c (Psi.b w)⟩ true = false)
    (hsrc : s.barred c ⟨s.addr c (Psi.a w), s.addr c (Psi.a w) + s.cnt c (Psi.b w)⟩ false = false)
    (hlap : overlap (s.addr c (Psi.d w)) (s.cnt c (Psi.b w)) (s.addr c (Psi.a w)) (s.cnt c (Psi.b w)) = false) :
    execMovl c s = .next (s.issued c w (fun t => t.pushMover c (Psi.mover w) ⟨(t.core c).sq.pc, .movl, s.addr c (Psi.d w),
      s.addr c (Psi.a w), s.cnt c (Psi.b w), 0, 0, Psi.signal w, 0, 0, [], false⟩) false) :=
  congrArg Host.Outcome.next (issue_issued s c w (isOp 0x50) _ _ [] h (by simp [hop]) rfl rfl (decide_eq_true hsub)
    (by simp [linearPlan, hd, ha, hn, h0, hdst, hsrc, hlap]) (decide_eq_false (Nat.not_le.mpr hfull)) rfl)

/-- MFILL of an aligned range that the job may write joins its mover (R116). -/
theorem execMfill_issues (h : s.Issues c w (mD ||| mB ||| mImm)) (hop : Psi.op w = 0x52) (hsub : Psi.sub w < 2)
    (hfull : ((s.core c).moverQueue (Psi.mover w)).length < 4) (hd : s.addr c (Psi.d w) % 64 = 0) (hn : s.cnt c (Psi.b w) % 64 = 0)
    (h0 : s.cnt c (Psi.b w) ≠ 0) (hdst : s.barred c ⟨s.addr c (Psi.d w), s.addr c (Psi.d w) + s.cnt c (Psi.b w)⟩ true = false) :
    execMfill c s = .next (s.issued c w (fun t => t.pushMover c (Psi.mover w) ⟨(t.core c).sq.pc, .mfill (Psi.imm w), s.addr c (Psi.d w),
      0, s.cnt c (Psi.b w), 0, 0, Psi.signal w, 0, 0, [], false⟩) false) :=
  congrArg Host.Outcome.next (issue_issued s c w (isOp 0x52) _ _ [] h (by simp [hop]) rfl rfl (decide_eq_true hsub)
    (by simp [linearPlan, hd, hn, h0, hdst]) (decide_eq_false (Nat.not_le.mpr hfull)) rfl)

/-- The entries of the list of a MOVD, as it issues (R131). -/
def listEntries (s : State) (c w n : Nat) : List Nat := (List.range n).map fun i => ofBytes (s.scratchGet c (s.addr c (Psi.f80 w) + 8 * i) 8)

/-- MOVD by a legal table in core scratch, with a list in core scratch or with none, whose boxes the job may reach and that do not meet,
joins its mover (R116, R127, R131 to R133). -/
theorem execMovd_issues {bs : List Byte} {t : Descriptor} {list : Bool} (h : s.Issues c w (mD ||| mA ||| mF80 ||| maskOf 79 66))
    (hop : Psi.op w = 0x51) (hsub : Psi.sub w < 4) (hfull : ((s.core c).moverQueue (Psi.mover w)).length < 4)
    (hfits : (s.core c).sq.ldb.toNat + 256 * bits w 79 72 + 256 ≤ scratchSize)
    (hbs : bs = s.scratchGet c ((s.core c).sq.ldb.toNat + 256 * bits w 79 72) 256) (ht : t = Descriptor.ofBytes bs)
    (hlist : bit w 71 = list) (hd : s.addr c (Psi.d w) % 64 = 0) (ha : s.addr c (Psi.a w) % 64 = 0) (halign : t.misaligned = false)
    (hlegal : t.illegal bs list = false)
    (hentries : list = true → s.addr c (Psi.f80 w) % 64 = 0 ∧ s.addr c (Psi.f80 w) + 8 * t.plistLen ≤ scratchSize)
    (hdst : s.barred c (t.box (s.addr c (Psi.d w)) (·.dst) (list && t.plistDst)) true = false)
    (hsrc : s.barred c (t.box (s.addr c (Psi.a w)) (·.src) (list && !t.plistDst)) false = false)
    (hmeet : (t.box (s.addr c (Psi.d w)) (·.dst) (list && t.plistDst)).meets (t.box (s.addr c (Psi.a w)) (·.src) (list && !t.plistDst)) = false) :
    execMovd c s = .next (s.issued c w (fun u => u.pushMover c (Psi.mover w) ⟨(u.core c).sq.pc,
      .movd t (if list then some (s.listEntries c w t.plistLen) else none) (if bit w 97 then some (bits w 70 66) else none),
      s.addr c (Psi.d w), s.addr c (Psi.a w), 0, 0, 0, Psi.signal w, 0, 0, [], false⟩) false) := by
  have hlistOk : (list && s.addr c (Psi.f80 w) % 64 != 0) = false ∧ (list && outsideScratch (s.addr c (Psi.f80 w))) = false ∧
      (list && pastScratch (s.addr c (Psi.f80 w)) (8 * t.plistLen)) = false := by
    cases list with
    | false => simp
    | true =>
      obtain ⟨hp, hend⟩ := hentries rfl
      obtain ⟨hout, hpast⟩ := inScratch_of_fits (Nat.mul_pos (by decide) (Descriptor.plistLen_pos hlegal)) hend
      simp [hp, hout, hpast]
  obtain ⟨hp, hout, hpast⟩ := hlistOk
  have hfits' : decide ((s.core c).sq.ldb.toNat + 256 * bits w 79 72 + 256 ≤ scratchSize) = true := decide_eq_true hfits
  subst ht hbs hlist
  refine congrArg Host.Outcome.next ((issue_issued s c w (isOp 0x51) _ _ [] h (by simp [hop]) rfl rfl (decide_eq_true hsub) ?_
    (decide_eq_false (Nat.not_le.mpr hfull)) rfl).trans ?_)
  · simp only [hfits', if_true, List.forall_mem_cons, hd, ha, halign, hlegal, hp, hout, hpast, hdst, hsrc, hmeet, bne_self_eq_false, Bool.not_true, Bool.or_self,
      List.not_mem_nil, false_implies, implies_true, and_self]
  · simp only [hfits', if_true]
    rfl

/-! ### The oldest beat (R118, R230) -/

/-- A beat that did not wait charges nothing and moves no learned wait. -/
theorem learnWait_nil (s : State) (tier : Nat) : s.learnWait [] tier = s := by
  have hw : wholeWait [] = 0 := rfl
  simp [learnWait, hw]

/-- A beat within T1 that did not wait has timed out only where the timeout of T1 is 0 (R230). -/
theorem timedOut_nil {tier : Nat} (htier : tier ≤ 1) (h : s.fld Reg.MEM_STALLTO.timeout_us 0 ≠ 0) : s.timedOut [] tier = false := by
  have hw : wholeWait [] = 0 := rfl
  interval_cases tier
  · rfl
  · simp [timedOut, hw, h]

/-- The oldest beat sent, within T0 and T1 and without a wait or an error, moves its chunks and is complete (R118). -/
theorem execMoverBeatComplete_clean {m : Nat} {o : MoverOp} {r : List MoverOp} {u : State} {data : List (Nat × List Byte)}
    (hq : (s.core c).moverQueue m = o :: r) (hm : m < 2) (hr : s.ringsRun = true) (hsend : s.sendBeat c m = none) (hrb : o.readback = false)
    (hfar : o.far = []) (hsent : o.beats < o.sent) (hbeat : o.beat ≠ []) (htier : beatTier o.beat ≤ 1)
    (hto : s.fld Reg.MEM_STALLTO.timeout_us 0 ≠ 0) (hok : s.beatFails o.beat true = false) (hopen : s.beatBarred o.beat = false)
    (hdata : (data, u) = s.readBeat c o [] (o.beat.mapIdx fun k x => (k, x)) []) :
    execMoverBeatComplete c m { waits := [], corrected := [], uncorrectable := none, failed := false, arrived := [] } s =
      .next (((u.writeBeat c o.beat data).endBeat c m).restCore c) := by
  have hnow : o.farNow = none := by simp [MoverOp.farNow, hfar]
  have hnone : o.beat.isEmpty = false := by simpa using hbeat
  have htake : s.takeBeat c m o [] false = (u.writeBeat c o.beat data).endBeat c m := by
    simp only [takeBeat, hopen, hok, hnow, dstTier_ne_two htier, ← hdata, Option.map_none, Option.getD_none, Bool.or_self, Bool.false_eq_true,
      if_false]
  have hrun : (decide (2 ≤ m) || !s.ringsRun) = false := by simp [hm, hr]
  have hwaits : s.waitsOf o.beat false [] = [] := rfl
  have hcharged : (s.chargeWaits []).countCorrected [] = s := rfl
  unfold execMoverBeatComplete
  simp only [hrun, sendBeats_of_none hsend, moverHead_of_queue hq, hrb, hnone, hnow, Nat.not_le.mpr hsent, hwaits, hcharged, hok,
    timedOut_nil htier hto, learnWait_nil, htake, Option.map_none, Option.getD_none, decide_false, Bool.and_false, Bool.or_self,
    Bool.false_eq_true, if_false]

/-- The oldest beat sent, beyond T1, that has waited for the stall timeout of its tier fails its operation (R230). -/
theorem execMoverBeatTimeout_far {m tier : Nat} {o : MoverOp} {r : List MoverOp} {waits : List (Nat × Nat)}
    (hq : (s.core c).moverQueue m = o :: r) (hm : m < 2) (hrb : o.readback = false) (hsent : o.beats < o.sent) (ht : tier = beatTier o.beat)
    (h2 : 2 ≤ tier) (hto : 1000 * s.fld Reg.MEM_STALLTO.timeout_us (tier - 1) ≤ wholeWait (s.waitsOf o.beat false waits)) :
    execMoverBeatTimeout c m waits [] s = .next ((State.failMover (((((s.chargeWaits (s.waitsOf o.beat false waits)).countLate
      (s.waitsOf o.beat false waits) tier).count Reg.MEM_TOCNT.count 1 (tier - 1)).raise Reg.MEM_EVT.timeout Reg.MEM_EVTMASK.mask)) c m o
      (t2Writes o.beat) (srcTier o.beat == 3 || dstTier o.beat == 3)).restCore c) := by
  subst ht
  have hout : s.timedOut (s.waitsOf o.beat false waits) (beatTier o.beat) = true := by
    have hfar : beatTier o.beat ≠ 0 := by omega
    simp [timedOut, hto, hfar]
  have hne : beatTier o.beat ≠ 1 := by omega
  simp [execMoverBeatTimeout, Nat.not_le.mpr hm, moverHead_of_queue hq, hrb, Nat.not_le.mpr hsent, hout, hne]

/-- A chunk from core scratch to core scratch is copied. -/
theorem writeBeat_readBeat_scratch (o : MoverOp) {a d : Nat} (x : List Byte) (ha : locate a = some (.scratch, a))
    (hd : locate d = some (.scratch, d)) :
    (s.readBeat c o [] [(0, some a, d)] x).2.writeBeat c [(some a, d)] (s.readBeat c o [] [(0, some a, d)] x).1 =
      s.scratchPut c d (s.scratchGet c a 64) := by
  have hread : s.readBeat c o [] [(0, some a, d)] x = ([(0, s.scratchGet c a 64)], s) := by
    simp [readBeat, tierOf_scratch ha, readChunk, ha, progGet]
  rw [hread]
  simp [writeBeat, targets, chunkData, progPut, hd]

end State

/-- Settles O19: the three issues, the queue, a clean beat and its end, the timeout beyond T1, and what a beat can move. -/
theorem mover : Obligations.Mover := by
  unfold Obligations.Mover
  refine ⟨fun s c w => State.execMovl_issues, fun s c w => State.execMfill_issues,
    fun s c w bs t h hop hsub hfull hfits hbs ht hlist hd ha halign hlegal hdst hsrc hmeet => ?_,
    fun s c w bs es t h hop hsub hfull hfits hbs ht hlist hes hd ha hp halign hlegal hend hdst hsrc hmeet => ?_,
    fun s c m o hq _ => State.pushMover_behind o hq, fun s c m o r u data => State.execMoverBeatComplete_clean, fun s c m o hdone hnear => ?_,
    fun s c m o r waits tier => State.execMoverBeatTimeout_far, fun o => o.length_beatAt o.beats,
    fun s c o a d x => State.writeBeat_readBeat_scratch o x⟩
  · exact (State.execMovd_issues h hop hsub hfull hfits hbs ht hlist hd ha halign hlegal (by simp) hdst hsrc hmeet : execMovd c s = _)
  · subst hes
    exact (State.execMovd_issues h hop hsub hfull hfits hbs ht hlist hd ha halign hlegal (fun _ => ⟨hp, hend⟩) hdst hsrc hmeet : execMovd c s = _)
  · unfold State.afterBeat
    rw [if_neg (Nat.not_lt.mpr hdone), if_neg fun hfar => hnear hfar.2]

end Sys2Proof.Machine
end

