-- ==== Sys2Proof/Proofs/Launches.lean ====
section
/-! LAUNCH, the control of jobs, the quantum and the job entry (O29). -/

namespace Sys2Proof.Machine.State

/-! ### LAUNCH (R71, R72) -/

/-- A LAUNCH with an illegal entry completes with status 1 and the offset of the field. -/
theorem execLaunch_illegal {s : State} {queue o : Nat} {host : List Byte} {cmd : Command} (h : s.Commands queue host 1 cmd)
    (ho : launchIllegal cmd = some o) : execLaunch queue host s = .next ((s.take queue cmd).2.complete (s.take queue cmd).1 1 o) := by
  unfold execLaunch
  rw [takeCmd_commands h _ _ rfl]
  simp only [ho]

/-- A LAUNCH whose block meets a case of R71 completes with status 9 and the case. -/
theorem execLaunch_rejected {s u : State} {queue k : Nat} {host : List Byte} {cmd : Command} (h : s.Commands queue host 1 cmd)
    (ho : launchIllegal cmd = none) (hu : u = (s.take queue cmd).2.readLaunch cmd.addr) (hk : u.launchCase cmd.addr = some k) :
    execLaunch queue host s = .next (u.complete (s.take queue cmd).1 9 k) := by
  unfold execLaunch
  rw [takeCmd_commands h _ _ rfl]
  simp only [ho, ← hu, hk]

/-- A LAUNCH whose block meets no case of R71 makes a waiting job, which is a scheduling event. -/
theorem execLaunch_accepted {s u : State} {queue : Nat} {host : List Byte} {cmd : Command} {j : Job} (h : s.Commands queue host 1 cmd)
    (ho : launchIllegal cmd = none) (hu : u = (s.take queue cmd).2.readLaunch cmd.addr) (hk : u.launchCase cmd.addr = none)
    (hj : j = u.newJob cmd.addr (s.take queue cmd).1) :
    execLaunch queue host s = .next ((State.putEntry { u.setFld Reg.SEQ_TILECNT.value 0 j.tile with
      jobs := u.jobs ++ [j], torn := Table.del u.torn j.id } j 1).schedule .plain) := by
  unfold execLaunch
  rw [takeCmd_commands h _ _ rfl]
  simp only [ho, ← hu, hk, ← hj]
  rfl

/-! ### Job control (R368) and the quantum (R360) -/

variable {s : State} {job : Nat}

/-- A write of SEQ_JOBCTL while none is in progress sets busy and reaches the scheduler. -/
theorem jobControl_idle {op : Nat} (ht : s.takes 0x480010) (hb : s.flag Reg.SEQ_JOBCTLSTAT.busy = false) (hop : op ≠ 0) :
    s.jobControl op job = (s.setFld Reg.SEQ_JOBCTLSTAT.busy 1).schedule (.control op job) := by
  unfold jobControl
  rw [hostWrite_takes ht, if_neg (by simp [hb]), if_neg hop]

/-- A write of SEQ_JOBCTL while one is in progress is rejected with result 4. -/
theorem jobControl_busy {op : Nat} (ht : s.takes 0x480010) (hb : s.flag Reg.SEQ_JOBCTLSTAT.busy = true) :
    s.jobControl op job = (s.setFld Reg.SEQ_JOBCTLSTAT.result 4).raise Reg.SEQ_SCHEDEVT.ctl_reject Reg.SEQ_SCHEDEVTMASK.mask := by
  unfold jobControl
  rw [hostWrite_takes ht, if_pos hb]

/-- A job of equal priority waits for a core of this one (R360). -/
def rivals (s : State) (j : Job) : Bool :=
  s.jobs.any fun v => (v.state == .waiting || v.state == .suspended) && v.fault.isNone && v.prio == j.prio && v.cores.any j.cores.contains

/-- The quantum of a resident job that did not fault and is in no switch: it may be displaced where a rival waits, and a new quantum
begins otherwise. -/
theorem execQuantumExpire_resident {j : Job} (hj : s.job? job = some j) (hres : j.state = .resident) (hsw : s.inSwitch job = false)
    (hfault : j.fault = none) : execQuantumExpire job s =
      .next ((s.modJob job fun x => if s.rivals j then { x with quantumOver := true } else { x with placedAt := s.uptime }).schedule .plain) := by
  simp only [execQuantumExpire, hj, hres, hsw, hfault, bne_self_eq_false, Option.isSome_none, Bool.or_self, Bool.false_eq_true, if_false]
  rfl

/-- The entry of a resident job is written (R354). -/
theorem execJobEntryUpdate_resident {j : Job} (hj : s.job? job = some j) (hres : j.state = .resident) :
    execJobEntryUpdate job s = .next (s.updateJob job id) := by
  simp only [execJobEntryUpdate, hj, hres, if_true]

end Sys2Proof.Machine.State

namespace Sys2Proof.Machine

/-- Settles O29: the three ends of a LAUNCH, the two of a job control write and of a quantum, and the entry of a job with its account. -/
theorem launchesAndJobControl : Obligations.LaunchesAndJobControl := by
  unfold Obligations.LaunchesAndJobControl
  refine ⟨fun s queue host cmd t u j h ho ht hu hk hj => ?_, fun s queue host cmd t u k h ho ht hu hk => ?_,
    fun s queue host cmd o => State.execLaunch_illegal, fun s job row hrow ht => ⟨fun hb => ?_, fun hb => ?_⟩,
    fun s job j hj hres hsw hfault => ⟨fun hnone => ?_, fun hrival => ?_⟩, fun s job j => State.execJobEntryUpdate_resident,
    fun s job j _ => rfl⟩
  · subst ht
    exact ⟨by rw [hj]; rfl, State.execLaunch_accepted h ho hu hk hj⟩
  · subst ht
    exact State.execLaunch_rejected h ho hu hk
  · simp only [List.mem_cons, List.not_mem_nil, or_false] at hrow
    rcases hrow with rfl | rfl | rfl <;> exact congrArg Host.Outcome.next (State.jobControl_idle ht hb (by decide))
  · simp only [List.mem_cons, List.not_mem_nil, or_false] at hrow
    rcases hrow with rfl | rfl | rfl <;> exact congrArg Host.Outcome.next (State.jobControl_busy ht hb)
  · have hkeep : s.rivals j = false := hnone
    have hquantum := State.execQuantumExpire_resident hj hres hsw hfault
    simp only [hkeep, Bool.false_eq_true, if_false] at hquantum
    exact hquantum
  · have hyield : s.rivals j = true := hrival
    have hquantum := State.execQuantumExpire_resident hj hres hsw hfault
    simp only [hyield, if_true] at hquantum
    exact hquantum

end Sys2Proof.Machine
end

