-- ==== Sys2Proof/Proofs/VectorCompletion.lean ====
section
/-! The completion of the vector row's oldest operation, its bytes and its arithmetic (O18). -/

namespace Sys2Proof.Machine

/-- A comparison with a NaN holds for the code of unequal alone (R197). -/
theorem condFp_of_isNan {x y : Fp} (h : x.isNan = true ∨ y.isNan = true) (cond : Nat) : condFp cond x y = (cond == 1) := by
  have hnan : (!x.isNan && !y.isNan) = false := by
    rcases h with h | h <;> simp [h]
  have heq : Fp.eq x y = false := by simp [Fp.eq, hnan]
  have hlt : Fp.lt x y = false ∧ Fp.lt y x = false := by
    rcases h with h | h
    · cases x <;> cases h
      cases y <;> exact ⟨rfl, rfl⟩
    · cases y <;> cases h
      cases x <;> exact ⟨rfl, rfl⟩
  obtain ⟨hxy, hyx⟩ := hlt
  simp only [condFp, heq, hxy, hyx, hnan, Bool.not_false, Bool.false_and]
  split <;> simp_all

namespace State

/-- Writing an operation puts its result at its place in core scratch, and no other byte of memory changes (R113). -/
theorem vrwWrite_mem (s : State) (c : Nat) (o : VrwOp) : (s.vrwWrite c o).mem =
    { s.mem with scratch := writeBytes s.mem.scratch (c * scratchSize + o.d) (s.vrwResult c o).1 } := by
  have hscratch := (countNumeric_stores (s.scratchPut c o.d (s.vrwResult c o).1) c 2 o.index (s.vrwResult c o).2.1).1
  unfold vrwWrite
  dsimp only
  split <;> exact hscratch

/-- The oldest operation on rings that run, on a core whose row is sound, leaves the queue charged: it is written and signals, or, with a
parity error, faults the core (R113, R202). -/
theorem execVrwOpComplete_oldest {s u : State} {c : Nat} {o : VrwOp} {r : List VrwOp} (hq : (s.core c).vrw = o :: r)
    (hr : s.ringsRun = true) (hbad : (s.core c).vrwBad = false) (hu : u = ((s.chargeVrw c o.cost).modCore c fun k =>
      { k with vrw := r, predPending := if o.op = 0x36 then k.predPending.erase o.pdst else k.predPending })) (parity : Option Nat) :
    execVrwOpComplete c parity s = .next (((match parity with
      | some lane => (u.modCore c fun k => { k with vrwBad := true }).hardwareFault c 0x0103 [lane]
      | none => (u.vrwWrite c o).signalOwn c 2 o.index o.signal).modCore c Core.settleParity).restCore c) := by
  subst hu
  cases parity <;> simp only [execVrwOpComplete, hq, hr, hbad, Bool.not_true, Bool.false_eq_true, if_false]

end State

/-- Settles O18: the completion without and with a parity error, the bytes it writes, the elements of VEW, and comparisons with a NaN. -/
theorem vrwCompletion : Obligations.VrwCompletion := by
  unfold Obligations.VrwCompletion
  refine ⟨fun s c o r u hq hr hbad hu => ⟨State.execVrwOpComplete_oldest hq hr hbad hu none,
    fun lane => State.execVrwOpComplete_oldest hq hr hbad hu (some lane)⟩, fun s c o a _ hout => ?_, fun o a c x m hop => ?_,
    fun cond x => ⟨condFp_of_isNan (.inl rfl) cond, condFp_of_isNan (.inr rfl) cond⟩⟩
  · rw [State.vrwWrite_mem]
    exact get_writeBytes_ne _ _ _ _ hout
  · have helement : o.element a c x m = roundTo (vFmt o.fmt) (vewValue o.func a c x) := by simp only [VrwOp.element, hop]
    refine ⟨fun hf => ?_, fun hf => ?_, fun hf => ?_⟩ <;> rw [helement, hf] <;> rfl

end Sys2Proof.Machine
end

