-- ==== Sys2Proof/Proofs/EngineCompletion.lean ====
section
/-! The completion of the instructions of the sequence engine and the exchange engine (O34). -/

namespace Sys2Proof.Machine.State

/-! ### The sequence engine (R121, R279, R280, R314, R315, R317) -/

section

variable {s u : State} {c : Nat} {copies : CopyData} {o : EngineOp}

/-- The oldest SE instruction of a core whose work can be done ends, in the state its work leaves, with a signal or with 0x040A. -/
theorem execSeOpComplete_ends {t : State} {ok : Bool} (ho : ((s.core c).engine.find? fun o => decide (0x90 ≤ o.op)) = some o)
    (hr : s.seRuns = true) (hu : u = s.chargeBeats copies.beats) (hwork : u.seWork c o { copies with beats := [] } = some (t, ok)) :
    execSeOpComplete c copies s = .next (t.endEngineOp c o ok 0x040A) := by
  subst hu
  simp only [execSeOpComplete, ho, hr, hwork, Bool.not_true, Bool.false_eq_true, if_false]

section

variable {lg : Nat} {b : Batch}

/-- SEITER with function 0 writes the descriptor of the core's batch to its block (R314). -/
theorem seWork_descriptor (hlg : s.ledgerOf c = some lg) (hb : s.coreBatch c lg = some b) (hop : o.op = 0x90) (hf : o.func = 0) :
    s.seWork c o copies = some (s.scratchPut c o.blk (s.descriptorBytes b ((s.srv lg).missing.contains b.number) o.n), true) := by
  simp only [seWork, hop, hlg, hb, hf, Option.bind_some, Option.map_some, if_true]

/-- SEITER with function 1 writes the result rows of the core's batch, once they are ready, to its block (R314). -/
theorem seWork_results (hlg : s.ledgerOf c = some lg) (hb : s.coreBatch c lg = some b) (hop : o.op = 0x90) (hf : o.func ≠ 0)
    (hready : s.resultsReady lg b = true) : s.seWork c o copies =
      some (s.scratchPut c o.blk (((resultRowsOf b).take o.n).flatMap fun r => resultBytes (s.resultRow lg b r)), true) := by
  simp only [seWork, hop, hlg, hb, hf, hready, Option.bind_some, Option.map_some, if_true, if_false]

/-- SEDONE records the core's part of its batch (R315). -/
theorem seWork_done (hlg : s.ledgerOf c = some lg) (hb : s.coreBatch c lg = some b) (hop : o.op = 0x94) :
    s.seWork c o copies = some (s.recordDone c lg copies, true) := by
  simp only [seWork, hop, hlg, hb, Option.bind_some, Option.map_some]

end

/-- SEPAGE does its entries in order (R279). -/
theorem seWork_pages (hop : o.op = 0x91) : s.seWork c o copies = some (s.doEntries (fun s a => s.pageRequest c a) o.blk o.n) := by
  simp only [seWork, hop]

/-- SEKV does its entries in order (R280). -/
theorem seWork_appends (hop : o.op = 0x92) : s.seWork c o copies = some (s.doEntries (fun s a => s.appendRow c a) o.blk o.n) := by
  simp only [seWork, hop]

/-- SELOGIT takes its rows (R317). -/
theorem seWork_logits (hop : o.op = 0x93) : s.seWork c o copies = some (s.takeLogits c o, true) := by
  simp only [seWork, hop]

/-- An entry that is not allowed ends the entries, as a failure. -/
theorem doEntries_refused {f : State → Nat → Option State} {blk : Nat} (h : f s blk = none) (n : Nat) :
    s.doEntries f blk (n + 1) = (s, false) := by
  simp only [doEntries, h]

/-- The entries behind one that is allowed begin 16 bytes on. -/
theorem doEntries_allowed {f : State → Nat → Option State} {blk : Nat} (h : f s blk = some u) (n : Nat) :
    s.doEntries f blk (n + 1) = u.doEntries f (blk + 16) n := by
  simp only [doEntries, h]

end

/-! ### The exchange engine (R341, R343, R347) -/

section

variable {s : State} {c : Nat} {o : EngineOp}

section

variable {x p : Nat}

/-- XDISP sends its rows: its context and phase are open to the core, its source index is in range, and no other instruction of the phase has
that index (R341). -/
theorem dispatch_isSome (hx : x = s.blockNum c o.blk 0 1) (hp : p = s.blockNum c o.blk 4 4) (hok : s.xeRefuses c x p = false)
    (hsrc : s.blockNum c o.blk 2 2 < s.fld Reg.XE_XCFG.nsrc x)
    (hnew : ∀ z ∈ ((s.ctx x).at p).sources, z.index ≠ s.blockNum c o.blk 2 2) : ∃ t, s.dispatch c o = some t := by
  have htwice : (((s.ctx x).at p).sources.any fun z => z.index == s.blockNum c o.blk 2 2) = false := by
    simpa [List.any_eq_false] using hnew
  subst hx hp
  exact ⟨_, if_neg (by simp [hok, Nat.not_le.mpr hsrc, htwice])⟩

/-- XRET returns its slots: its context and phase are open to the core, and no local expert that it closes is closed (R343). -/
theorem giveBack_isSome (hx : x = s.blockNum c o.blk 0 1) (hp : p = s.blockNum c o.blk 4 4) (hok : s.xeRefuses c x p = false)
    (hopen : ∀ l, s.hosts x l = true → bit (s.blockNum c o.blk 2 2) l = true → ∀ z ∈ ((s.ctx x).at p).closed, z.1 ≠ l) :
    ∃ t, s.giveBack c o = some t := by
  have hclosed : (((s.localExperts x).filter fun l => bit (s.blockNum c o.blk 2 2) l).any fun l =>
      ((s.ctx x).at p).closed.any fun z => z.1 == l) = false := by
    simp only [List.any_eq_false, List.mem_filter, localExperts]
    rintro l ⟨⟨_, hhost⟩, hbit⟩ hany
    obtain ⟨z, hz, heq⟩ := List.any_eq_true.mp hany
    exact hopen l hhost hbit z hz (beq_iff_eq.mp heq)
  subst hx hp
  exact ⟨_, if_neg (by simp [hok, hclosed])⟩

end

/-- Neither instruction does anything in a context or phase that is not open to its core (R347). -/
theorem exchange_refused (hno : s.xeRefuses c (s.blockNum c o.blk 0 1) (s.blockNum c o.blk 4 4) = true) :
    s.dispatch c o = none ∧ s.giveBack c o = none := ⟨if_pos (by simp [hno]), if_pos (by simp [hno])⟩

variable {u : State} {beats : List (Nat × List (Nat × Nat))}

/-- The oldest exchange instruction of a core ends with its signal once the XE has its rows (R341, R343). -/
theorem execXeRowsTaken_sends {t : State} (ho : ((s.core c).engine.find? fun o => decide (o.op < 0x90)) = some o) (hr : s.seRuns = true)
    (hu : u = s.chargeBeats beats) (hwork : (if o.op = 0x80 then u.dispatch c o else u.giveBack c o) = some t) :
    execXeRowsTaken ⟨c, beats⟩ s = .next (t.endEngineOp c o true 0x040B) := by
  subst hu
  simp only [execXeRowsTaken, ho, hr, hwork, Bool.not_true, Bool.false_eq_true, if_false]

/-- The oldest exchange instruction of a core, where the XE refuses it, sets the event and fails with 0x040B (R347). -/
theorem execXeRowsTaken_refused (ho : ((s.core c).engine.find? fun o => decide (o.op < 0x90)) = some o) (hr : s.seRuns = true)
    (hu : u = s.chargeBeats beats) (hwork : (if o.op = 0x80 then u.dispatch c o else u.giveBack c o) = none) :
    execXeRowsTaken ⟨c, beats⟩ s = .next ((u.xeEvt Reg.XE_EVT.refused).endEngineOp c o false 0x040B) := by
  subst hu
  simp only [execXeRowsTaken, ho, hr, hwork, Bool.not_true, Bool.false_eq_true, if_false]

end

end Sys2Proof.Machine.State

namespace Sys2Proof.Machine

/-- Settles O34: the work of each SE instruction, the entries of SEPAGE and SEKV, the rows of the XE, and the two ends of an instruction. -/
theorem engineCompletions : Obligations.EngineCompletions := by
  unfold Obligations.EngineCompletions
  refine ⟨fun s c copies o u lg b ho hr hu hlg hb => ⟨fun hop hf => ?_, fun hop hf hready => ?_, fun hop => ?_⟩,
    fun s c copies o u ho hr hu => ⟨fun hop => ?_, fun hop => ?_, fun hop => ?_⟩, fun s f blk => rfl,
    fun s f blk n h => State.doEntries_refused h n, fun s f blk n t h => State.doEntries_allowed h n,
    fun s c beats o u x p ho hr hu hx hp hok => ⟨fun hop hsrc hnew => ?_, fun hop hopen => ?_⟩, fun s c beats o u ho hr hu hno => ?_,
    fun s c o cause u hu => ?_⟩
  · exact State.execSeOpComplete_ends ho hr hu (State.seWork_descriptor hlg hb hop hf)
  · exact State.execSeOpComplete_ends ho hr hu (State.seWork_results hlg hb hop hf hready)
  · exact State.execSeOpComplete_ends ho hr hu (State.seWork_done hlg hb hop)
  · exact State.execSeOpComplete_ends ho hr hu (State.seWork_pages hop)
  · exact State.execSeOpComplete_ends ho hr hu (State.seWork_appends hop)
  · exact State.execSeOpComplete_ends ho hr hu (State.seWork_logits hop)
  · obtain ⟨t, ht⟩ := State.dispatch_isSome hx hp hok hsrc hnew
    exact ⟨t, ht, State.execXeRowsTaken_sends ho hr hu ((if_pos hop).trans ht)⟩
  · obtain ⟨t, ht⟩ := State.giveBack_isSome hx hp hok hopen
    exact ⟨t, ht, State.execXeRowsTaken_sends ho hr hu ((if_neg hop).trans ht)⟩
  · obtain ⟨hdispatch, hgive⟩ := State.exchange_refused hno
    exact State.execXeRowsTaken_refused ho hr hu (by rw [hdispatch, hgive, ite_self])
  · subst hu
    exact ⟨rfl, rfl⟩

end Sys2Proof.Machine
end

