-- ==== Sys2Proof/Proofs/FabricIssue.lean ====
section
/-! The fabric instructions: their issue, the credits of messages, MRECV and FENCE (O39). -/

namespace Sys2Proof.Machine

/-- What the row of a fabric instruction asks of its operands: local lines, the alignment of an atomic's target, the count, the endpoint, and
the local bytes (R119, R542). -/
structure FabOperands (s : State) (c w : Nat) (f : FabForm) : Prop where
  aligned : s.addr c (Psi.d w) % 64 = 0
  atomic : f.ptype = 3 → s.addr c (Psi.a w) % 8 = 0
  count : f.most ≠ 0 → 1 ≤ s.cnt c (Psi.f76 w) ∧ s.cnt c (Psi.f76 w) ≤ f.most
  endpoint : s.cnt c (Psi.b w) < if f.group then 2 ^ 16 else 2 ^ 17
  starts : s.addr c (Psi.d w) < scratchSize
  ends : s.addr c (Psi.d w) + (if f.fixed = 0 then 64 * s.cnt c (Psi.f76 w) else f.fixed) ≤ scratchSize

namespace State

/-! ### What an access of T1 keeps -/

/-- An access of T1 changes only the staging caches and the stacks behind them (R210). -/
theorem touchLines_keeps {β : Type} (g : State → β) (hstore : ∀ s d l, g (State.storeLine s d l) = g s)
    (hcache : ∀ s cache, g { s with cache := cache } = g s) (s : State) (off n : Nat) (write : Bool) :
    g (s.touchLines off n write) = g s :=
  foldl_keep g _ (fun s _ => (hcache _ _).trans (foldl_keep g _ (fun s l => hstore s _ l) _ s)) _ s

theorem touchLines_regs (s : State) (off n : Nat) (write : Bool) : (s.touchLines off n write).regs = s.regs :=
  touchLines_keeps State.regs (fun _ _ _ => rfl) (fun _ _ => rfl) s off n write

theorem touchLines_flag (s : State) (off n : Nat) (write : Bool) (f : Field) (i : Nat) : (s.touchLines off n write).flag f i = s.flag f i := by
  simp only [flag, fld, touchLines_regs]

theorem touchLines_queuesIn (s : State) (off n : Nat) (write : Bool) : (s.touchLines off n write).queuesIn = s.queuesIn :=
  touchLines_keeps State.queuesIn (fun _ _ _ => rfl) (fun _ _ => rfl) s off n write

theorem messageBytes_touchLines (s : State) (off n : Nat) (write : Bool) (m : Message) :
    (s.touchLines off n write).messageBytes m = s.messageBytes m := by
  simp only [messageBytes, t1Get, touchLines_mem]

/-! ### Issue -/

/-- The entry of FAB_MCRED a message spends its credit from, and no entry where the instruction is not a message (R410). -/
def creditSpent (s : State) (c w : Nat) (f : FabForm) : Option Nat :=
  if f.ptype = 8 then s.creditEntry c (s.core c).sq.job (s.cnt c (Psi.b w)) (s.cnt c (Psi.f80 w)) else none

variable {s : State} {c w : Nat}

/-- An instruction whose operands its row allows, and that is no message or has a credit to spend, meets none of its conditions (R542). -/
theorem fabPlan_checks {f : FabForm} {entry : Option Nat} (vars : Nat) (h : FabOperands s c w f) (hentry : s.creditSpent c w f = entry)
    (hnone : entry = none → f.ptype ≠ 8) (hsome : ∀ i, entry = some i → s.fld Reg.FAB_MCRED.credits i ≠ 0) :
    ∀ x ∈ (s.fabPlan c vars f w).checks, x.1 = false := by
  obtain ⟨haligned, hatomic, hcount, hend, hstart, hpast⟩ := h
  have halign : (s.addr c (Psi.d w) % 64 != 0 || (f.ptype == 3 && s.addr c (Psi.a w) % 8 != 0)) = false := by
    simpa [haligned] using hatomic
  have hlines : (f.most != 0 && (decide (s.cnt c (Psi.f76 w) < 1) || decide (f.most < s.cnt c (Psi.f76 w)))) = false := by
    simpa [Nat.one_le_iff_ne_zero] using hcount
  have hreach := decide_eq_false (Nat.not_le.mpr hend)
  have hout : outsideScratch (s.addr c (Psi.d w)) = false := decide_eq_false (Nat.not_le.mpr hstart)
  have hrange : pastScratch (s.addr c (Psi.d w)) (if f.fixed = 0 then 64 * s.cnt c (Psi.f76 w) else f.fixed) = false := by
    rw [pastScratch, decide_eq_false (Nat.not_lt.mpr hpast), Bool.and_false]
  unfold creditSpent at hentry
  simp only [fabPlan, List.forall_mem_cons, halign, hlines, hreach, hentry, hout, hrange, Bool.false_or, List.not_mem_nil, false_implies,
    implies_true, true_and, and_true]
  cases entry with
  | none => exact beq_false_of_ne (hnone rfl)
  | some i => exact beq_false_of_ne (hsome i rfl)

/-- A fabric instruction with such operands enters the FU with its packets, its credit spent (R83, R119, R410). -/
theorem issueFab_enters {f : FabForm} {mine : Nat → Bool} {vars : Nat} {entry : Option Nat} (h : s.Issues c w (maskOf 95 76))
    (hm : mine w = true) (hsub : Psi.sub w < 16) (hvar : Psi.var w < vars) (hfull : (s.core c).fab.length < 64)
    (hops : FabOperands s c w f) (hentry : s.creditSpent c w f = entry) (hnone : entry = none → f.ptype ≠ 8)
    (hsome : ∀ i, entry = some i → s.fld Reg.FAB_MCRED.credits i ≠ 0) : s.issueFab c mine vars f =
      .next (s.issued c w (fun t => (t.spendCredit entry).startFab c (Psi.signal w) (s.cnt c (Psi.b w)) f.group f.ptype
        (f.packets (s.fabBase c w f) (s.cnt c (Psi.f76 w)) (s.addr c (Psi.d w))
          (t.scratchGet c (s.addr c (Psi.d w)) (if f.fixed = 0 then 64 * s.cnt c (Psi.f76 w) else f.fixed)))) false) := by
  have hcodes : (decide (Psi.sub w < 16) && decide (Psi.var w < vars)) = true := by simp [hsub, hvar]
  have hissue := issue_issued s c w mine (fun s w => s.fabPlan c vars f w) _ [] h hm rfl rfl hcodes
    (fabPlan_checks vars hops hentry hnone hsome) (decide_eq_false (Nat.not_le.mpr hfull)) rfl
  subst hentry
  exact congrArg Host.Outcome.next hissue

/-- MRECV with a message in the job's queue takes the oldest one to core scratch and returns its credit (R409). -/
theorem execMrecv_takes {i : Nat} (h : s.Issues c w (maskOf 95 76)) (hop : Psi.op w = 0x78) (hsub : Psi.sub w = 0)
    (hfull : (s.core c).fab.length < 64) (hqueue : s.jobQueue c (s.core c).sq.job = some i) (halign : s.addr c (Psi.d w) % 64 = 0)
    (hfits : s.addr c (Psi.d w) + 320 ≤ scratchSize) :
    execMrecv c s = .next (s.issued c w fun t => match (t.queue i).msgs with
      | [] => t
      | m :: r =>
        let u := t.touchLines m.place (64 * m.lines) false
        let v : State := { u.scratchPut c (s.addr c (Psi.d w)) (u.messageBytes m) with
          queuesIn := Table.set MsgQueue.empty t.queuesIn i { t.queue i with msgs := r } }
        if t.flag Reg.FAB_EPID.valid then v.emit (.credit m.ep m.core m.key) else v) := by
  obtain ⟨hout, hpast⟩ := inScratch_of_fits (by decide : 0 < 320) hfits
  refine congrArg Host.Outcome.next ((issue_issued s c w (isOp 0x78) _ _ [] h (by simp [hop]) rfl rfl (by simp [hsub])
    (by simp [halign, hqueue, hout, hpast]) (decide_eq_false (Nat.not_le.mpr hfull)) rfl).trans ?_)
  simp only [hqueue]
  refine congrArg (fun effect => s.issued c w effect) (funext fun t => ?_)
  cases hmsgs : (t.queue i).msgs with
  | nil => rfl
  | cons m r =>
    have hflag := t.touchLines_flag m.place (64 * m.lines) false Reg.FAB_EPID.valid 0
    have hqueues := t.touchLines_queuesIn m.place (64 * m.lines) false
    simp only [queue, ← hqueues, ← hflag, messageBytes_touchLines]
    rfl

/-- FENCE enters behind the operations before it (R119, R416). -/
theorem execFence_enters (h : s.Issues c w (maskOf 95 76)) (hop : Psi.op w = 0x79) (hsub : Psi.sub w = 0)
    (hfull : (s.core c).fab.length < 64) : execFence c s =
      .next (s.issued c w (fun t => State.settleCoreFab { t.modCore c (fun k =>
        { k with fab := k.fab ++ [(⟨t.fabNext, k.sq.pc, 0, false, true, Psi.signal w, []⟩ : FabOp)] }) with
          fabNext := t.fabNext + 1 } c) false) :=
  congrArg Host.Outcome.next (issue_issued s c w (isOp 0x79) _ _ [] h (by simp [hop]) rfl rfl (by simp [hsub]) (by simp)
    (decide_eq_false (Nat.not_le.mpr hfull)) rfl)

/-- An operation whose destination is out of reach is refused (R379). -/
theorem startFab_refused {dst ptype : Nat} {group : Bool} (h : s.reaches dst group ptype = false) (signal : Option Nat)
    (pkts : List (Packet × Nat)) : s.startFab c signal dst group ptype pkts = s.exception c 0x040B 5 (s.core c).sq.pc true := by
  simp only [startFab, h, Bool.not_false, if_true]

/-- A credit that returns adds 1 to its entry, which sticks at 255 (R410). -/
theorem execCreditReturnReceive_adds {ep key i : Nat} (hvalid : s.flag Reg.FAB_EPID.valid = true)
    (hentry : ((List.range 8).map (· + 8 * c)).find? (fun i => s.fld Reg.FAB_MCRED.job i != 0xFFFF && s.fld Reg.FAB_MCRED.ep i == ep &&
      s.fld Reg.FAB_MCRED.key i == key) = some i) : execCreditReturnReceive c ep key s =
      .next (s.setFld Reg.FAB_MCRED.credits (min 255 (s.fld Reg.FAB_MCRED.credits i + 1)) i) := by
  simp only [execCreditReturnReceive, hvalid, Bool.true_and, hentry]

end State

/-- The rows that send packets but MSEND: op, form and the command. -/
def fabSendRows : List (Nat × FabForm × (Nat → Instr)) :=
  [(0x70, { ptype := 1, most := 4096 }, .rld), (0x71, { ptype := 2, most := 4096 }, .rst),
    (0x72, { ptype := 3, var := 0, fixed := 16 }, .ratomFetchAdd), (0x72, { ptype := 3, var := 1, fixed := 24 }, .ratomCompareSwap),
    (0x73, { ptype := 4, var := 0, most := 4096 }, .rredAddInt32), (0x73, { ptype := 4, var := 1, most := 4096 }, .rredAddFp32),
    (0x73, { ptype := 4, var := 2, most := 4096 }, .rredAddBf16), (0x73, { ptype := 4, var := 3, most := 4096 }, .rredMaxFp32),
    (0x73, { ptype := 4, var := 4, most := 4096 }, .rredMaxBf16), (0x74, { ptype := 5, most := 4096, group := true }, .rmcs),
    (0x75, { ptype := 2, most := 65536 }, .bput), (0x76, { ptype := 1, most := 65536 }, .bget)]

/-- Each row is the shared issue of its form for the words with its op and var, and sends no message. -/
theorem fabSendRows_issue : ∀ row ∈ fabSendRows, ∃ (mine : Nat → Bool) (vars : Nat),
    (∀ c s, exec (row.2.2 c) s = s.issueFab c mine vars row.2.1) ∧
      (∀ w, Psi.op w = row.1 → Psi.var w = row.2.1.var → mine w = true) ∧ row.2.1.var < vars ∧ row.2.1.ptype ≠ 8 := by
  intro row hrow
  simp only [fabSendRows, List.mem_cons, List.not_mem_nil, or_false] at hrow
  rcases hrow with rfl | rfl | rfl | rfl | rfl | rfl | rfl | rfl | rfl | rfl | rfl | rfl
  all_goals exact ⟨_, _, fun _ _ => rfl, fun w hop hvar => by simp [hop, hvar], by decide, by decide⟩

/-- Settles O39: the rows that send packets, MSEND with its credit, MRECV, FENCE, the refusal out of reach, and a returned credit. -/
theorem fabInstructions : Obligations.FabInstructions := by
  unfold Obligations.FabInstructions
  refine ⟨fun s c w row l n ep bytes hrow h hop hsub hvar hfull hl hn hep hbytes halign hatomic hcount hend hstart hpast => ?_,
    fun s c signal dst group ptype pkts h => State.startFab_refused h signal pkts,
    fun s c w i h hop hsub hvar hfull hentry hcredits halign h1 hmost hend hfits => ?_, fun s c w i => State.execMrecv_takes,
    fun s c w => State.execFence_enters, fun s c ep key i => State.execCreditReturnReceive_adds⟩
  · subst hl hn hep hbytes
    obtain ⟨mine, vars, hexec, hmine, hvars, hmsg⟩ := fabSendRows_issue row hrow
    rw [hexec]
    exact State.issueFab_enters (entry := none) h (hmine w hop hvar) hsub (hvar.trans_lt hvars) hfull
      ⟨halign, hatomic, hcount, hend, hstart, hpast⟩ (if_neg hmsg) (fun _ => hmsg) nofun
  · have hstart : s.addr c (Psi.d w) < scratchSize := by omega
    have hops : FabOperands s c w { ptype := 8, most := 4 } := ⟨halign, nofun, fun _ => ⟨h1, hmost⟩, hend, hstart, hfits⟩
    exact (State.issueFab_enters h (by simp [hop]) hsub (by omega) hfull hops hentry nofun
      (fun j hj => Option.some.inj hj ▸ hcredits) : execMsend c s = _)

end Sys2Proof.Machine
end

