-- ==== Sys2Proof/Proofs/TimingExchange.lean ====
section
/-! The timing exchanges, the lock of the global step counter, and the reads that latch it (O48). -/

namespace Sys2Proof.Machine

/-- A field with one instance holds no key of a field that lies after it. -/
theorem Field.holds_of_before {f g : Field} (hf : f.stride = 0) (h : f.key 0 < g.key 0) (n : Nat) : f.holds (g.key n) = false := by
  have hle : g.key 0 ≤ g.key n := by unfold Field.key; omega
  have hne : g.key n ≠ f.key 0 := by omega
  simp [Field.holds, hf, hne]

namespace State

variable {s : State} {hd : PacketHead} {v : Seen}

/-! ### The exchanges (R388, R422, R423) -/

/-- A timing packet that is no duplicate acts, whether or not the endpoint identifier is valid. -/
theorem timingTake_fresh (h : (Table.get Seen.empty s.seen (seenKey hd)).take hd.seq = some v) (k : State → State) :
    s.timingTake hd k = k (s.taken hd v) := by
  simp only [timingTake, h, taken]

@[simp] theorem taken_isMaster (s : State) (hd : PacketHead) (v : Seen) : (s.taken hd v).isMaster = s.isMaster := rfl

/-- The grandmaster sends its Syncs, and counts the exchange. -/
theorem execGmSyncSend_master {n me : Nat} (hm : s.isMaster = true) (hn : n = s.gscSync.number) (hme : me = s.fld Reg.FAB_EPID.ep) :
    execGmSyncSend s = .next (s.planes.foldl (fun t p =>
      (((List.range (s.fld Reg.FAB_DOMAIN.count)).map (· + s.fld Reg.FAB_DOMAIN.first)).filter fun d => d != me).foldl (fun t d =>
        t.sendControl d false 0x27 (lineOf [(0, 2, n), (2, 1, p), (4, 4, me), (8, 8, t.gsc)]) 0xFFFF (some p)) t)
      (s.modSync fun g => { g with number := (n + 1) % 65536 })) := by
  subst hn hme
  simp only [execGmSyncSend, hm, Bool.not_true, Bool.false_eq_true, if_false]
  rfl

section

variable {u : State} {exchange plane gm : Nat} {corr : Int}

/-- A follower notes the Sync of the grandmaster it follows, and answers it. -/
theorem execSyncReceive_follows {t1 : Nat} (hseq : (Table.get Seen.empty s.seen (seenKey hd)).take hd.seq = some v) (hm : s.isMaster = false)
    (hu : u = (s.taken hd v).hearMaster gm) (hgm : u.fld Reg.FAB_GSCGM.ep = gm) : execSyncReceive hd exchange plane gm t1 corr s =
      .next ((u.modSync fun g => { g with exchanges := Table.put g.exchanges plane [(exchange : Int), gm, t1, u.gsc, u.gsc, corr] }).sendControl
        hd.source false 0x28 (lineOf [(0, 2, exchange), (2, 1, plane), (8, 8, u.gsc)]) 0xFFFF (some plane)) := by
  simp only [execSyncReceive, timingTake_fresh hseq, taken_isMaster, hm, Bool.false_eq_true, if_false, ← hu, hgm, if_true]
  rfl

/-- The grandmaster answers a delay request. -/
theorem execDelayRequestReceive_answers (t3 : Nat) (hseq : (Table.get Seen.empty s.seen (seenKey hd)).take hd.seq = some v)
    (hm : s.isMaster = true) : execDelayRequestReceive hd exchange plane t3 corr s = .next ((s.taken hd v).sendControl hd.source false 0x29
      (lineOf [(0, 2, exchange), (2, 1, plane), (4, 4, s.fld Reg.FAB_EPID.ep), (8, 8, s.gsc), (0x10, 8, unsigned 64 corr)]) 0xFFFF
        (some plane)) := by
  simp only [execDelayRequestReceive, timingTake_fresh hseq, taken_isMaster, hm, if_true]
  rfl

/-- The response that belongs to the Sync noted on its plane ends the exchange, which gives its offset. -/
theorem execDelayResponseReceive_offset {t4 : Nat} {t1 t2 t3 cs : Int}
    (hseq : (Table.get Seen.empty s.seen (seenKey hd)).take hd.seq = some v) (hm : s.isMaster = false)
    (hu : u = (s.taken hd v).hearMaster gm) (hgm : u.fld Reg.FAB_GSCGM.ep = gm)
    (hex : Table.get [] u.gscSync.exchanges plane = [(exchange : Int), gm, t1, t2, t3, cs]) :
    execDelayResponseReceive hd exchange plane gm t4 corr s = .next (u.modSync fun g => { g with
      exchanges := Table.del g.exchanges plane
      offsets := Table.put g.offsets plane (exchangeOffset t1 t2 t3 t4 cs corr, u.uptime) }) := by
  simp only [execDelayResponseReceive, timingTake_fresh hseq, taken_isMaster, hm, Bool.false_eq_true, if_false, ← hu, hex, hgm, and_self,
    if_true]

end

/-! ### The lock (R388, R389, R391) -/

/-- A follower with fresh offsets shows their median and takes it. -/
theorem execGscMedianUpdate_takes {m : Int} (hm : s.isMaster = false) (hmed : medianOf (s.freshOffsets.map (·.2)) = some m) :
    execGscMedianUpdate s = .next ((((s.setFld Reg.FAB_GSCSTAT.planes ((s.freshOffsets.map fun x => 2 ^ x.1).sum)).setFld
      Reg.FAB_GSCSTAT.offset (unsigned 32 m)).modSync fun g => { g with lastMedian := some s.uptime }).takeMedian m) := by
  simp only [execGscMedianUpdate, hm, Bool.false_eq_true, if_false, hmed]
  rfl

/-- Telling changes nothing of the timing exchanges. -/
theorem Tells.keeps_gscSync {t : State} (h : s.Tells t) : t.gscSync = s.gscSync := by
  obtain ⟨x, rfl⟩ := h
  rfl

/-- Leaving the locked state is a matter of registers and reports. -/
theorem unlock_gscSync (s : State) (st : Nat) : (s.unlock st).gscSync = s.gscSync :=
  (((tells_setFld _ _ _ _).trans (tells_raise _ _ _)).trans (tells_recordFault _ _ _ _)).keeps_gscSync

/-- A recorded fault changes no quiet field that lies before the UNIT block, apart from those that latch it. -/
theorem recordFault_fld_before_units {f : Field} (c : Nat) (p : Suspect) (l : List Nat) (i : Nat) (hf : f.quiet = true)
    (htop : topFault.all (fun g => !f.holds (g.key 0)) = true) (hone : f.stride = 0)
    (hlt : f.key 0 < Reg.UNIT_FAULT.cause.key 0 ∧ f.key 0 < Reg.UNIT_EVT.fault.key 0) : (s.recordFault c p l).fld f i = s.fld f i :=
  recordFault_fld _ _ _ _ hf htop fun n => ⟨Field.holds_of_before hone hlt.1 n, Field.holds_of_before hone hlt.2 n⟩

/-- A module that leaves the locked state shows the state it goes to. -/
theorem unlock_state (s : State) (st : Nat) : (s.unlock st).fld Reg.FAB_GSCSTAT.state = st % 4 := by
  unfold unlock
  rw [recordFault_fld_before_units _ _ _ _ (by decide) (by decide) rfl (by decide), raise_fld _ _ _ (by decide) (by decide)]
  exact fld_setFld_same _ _ _ _ (by decide)

/-- A module that leaves the locked state raises the event (R391). -/
theorem unlock_event (s : State) (st : Nat) : (s.unlock st).flag Reg.FAB_EVT.gsc_unlock = true := by
  unfold unlock flag
  rw [recordFault_fld_before_units _ _ _ _ (by decide) (by decide) rfl (by decide)]
  exact raise_self _ _ _ (by decide) (by decide) (by decide)

/-- A locked module that enters holdover notes when, and leaves the locked state. -/
theorem execGscHoldoverEntry_locked (h : s.fld Reg.FAB_GSCSTAT.state = 2) : execGscHoldoverEntry s =
    .next ((s.modSync fun g => { g with holdoverAt := s.uptime, streak := 0 }).unlock 3) :=
  congrArg Host.Outcome.next (if_pos h)

/-- A module in holdover runs free. -/
theorem execGscFreerunEntry_holdover (h : s.fld Reg.FAB_GSCSTAT.state = 3) : execGscFreerunEntry s =
    .next (s.setFld Reg.FAB_GSCSTAT.state 0) :=
  congrArg Host.Outcome.next (if_pos h)

/-! ### Reads of FAB_GSC (R387) -/

/-- A read that reaches an open block has its effect. -/
theorem hostRead_takes {offset : Nat} (h : s.takes offset) (bytes : Nat) (k : State → State) : s.hostRead offset bytes k = k s := by
  obtain ⟨hreach, hopen⟩ := h
  simp only [hostRead, hreach, hopen, Bool.not_true, Bool.false_eq_true, if_false, if_true]

/-- A read of the low half latches the high half. -/
theorem execGscLowRead_latches (h : s.takes 0x800300) : execGscLowRead s = .next { s with
    gscLatch := some (s.gsc / 2 ^ 32), out := s.out ++ [.readData (toBytes 4 s.gsc) false] } :=
  congrArg Host.Outcome.next (hostRead_takes h 4 _)

/-- A read of the high half returns the latched one and releases it. -/
theorem execGscHighRead_releases (h : s.takes 0x800304) : execGscHighRead s = .next { s with
    gscLatch := none, out := s.out ++ [.readData (toBytes 4 (s.gscLatch.getD (s.gsc / 2 ^ 32))) false] } :=
  congrArg Host.Outcome.next (hostRead_takes h 4 _)

end State

/-- Settles O48: the rule of each timing command, and what leaving the locked state shows. -/
theorem gscTiming : Obligations.GscTiming := by
  unfold Obligations.GscTiming
  exact ⟨fun s n me => State.execGmSyncSend_master, fun s hd exchange plane gm t1 corr v u => State.execSyncReceive_follows,
    fun s hd exchange plane t3 corr v => State.execDelayRequestReceive_answers t3,
    fun s hd exchange plane gm t4 corr v u t1 t2 t3 cs => State.execDelayResponseReceive_offset, fun s m => State.execGscMedianUpdate_takes,
    fun s h => ⟨_, State.execGscHoldoverEntry_locked h, State.unlock_state _ 3, State.unlock_event _ 3, State.unlock_gscSync _ 3,
      (State.unlock_stores _ 3).1⟩,
    fun s => State.execGscFreerunEntry_holdover, fun s => State.execGscLowRead_latches, fun s => State.execGscHighRead_releases⟩

end Sys2Proof.Machine
end

