-- ==== Sys2Proof/Proofs/HostLink.lean ====
section
/-! The PCI Express link and its power states, accesses through BAR4, and the three locks (O21). -/

namespace Sys2Proof.Machine.State

/-! ### What a bank's findings keep (R217) -/

theorem Tells.keeps_shutdown {s t : State} (h : s.Tells t) : t.shutdown = s.shutdown := by
  obtain ⟨x, rfl⟩ := h
  rfl

theorem Tells.foldl {α : Type} {f : State → α → State} (hf : ∀ (s : State) (x : α), s.Tells (f s x)) (l : List α) (s : State) : s.Tells (l.foldl f s) := by
  induction l generalizing s with
  | nil => exact .refl s
  | cons x l ih => exact (hf s x).trans (ih _)

/-- An error is a matter of counters and their events. -/
theorem tells_countError (s : State) (slot : Nat) : s.Tells (s.countError slot) :=
  Tells.foldl (fun s u => by
    have hcount := tells_count s Reg.UNIT_ERRCNT.count 1 u
    show s.Tells (ite _ _ _)
    split
    · exact hcount.trans (tells_raiseUnit _ _ _ u)
    · exact hcount) _ s

theorem tells_countCorrected (s : State) (mdies : List Nat) : s.Tells (s.countCorrected mdies) :=
  Tells.foldl (fun s m => by
    split
    · exact tells_countError s _
    · exact .refl s) mdies s

/-- A chunk that is poisoned is marked so; the rest is telling. -/
theorem tells_poisonAt (s : State) (off stack a : Nat) :
    State.Tells { s with poison := Table.set false s.poison (off / 64) true } (s.poisonAt off stack a) := by
  unfold poisonAt
  exact ((((tells_setFld _ _ _ _).trans (tells_setFld _ _ _ _)).trans (tells_raise _ _ _)).trans (tells_countError _ _)).trans
    (tells_recordFault _ _ _ _)

/-- What a bank found is errors counted, and at most one chunk poisoned. -/
theorem bankFound_keeps {β : Type} (g : State → β) (hcount : ∀ s mdies, g (State.countCorrected s mdies) = g s)
    (hpoison : ∀ s off stack a, g (State.poisonAt s off stack a) = g s) (s : State) (r : BankReport) : g (s.bankFound r) = g s := by
  unfold bankFound
  split
  · unfold uncorrectable
    split
    · exact hcount _ _
    · exact (hpoison _ _ _ _).trans (hcount _ _)
  · exact hcount _ _

theorem bankFound_cores (s : State) (r : BankReport) : (s.bankFound r).cores = s.cores :=
  bankFound_keeps State.cores (fun _ _ => (tells_countCorrected _ _).keeps_units.1) (fun _ _ _ _ => (tells_poisonAt _ _ _ _).keeps_units.1) s r

theorem bankFound_shutdown (s : State) (r : BankReport) : (s.bankFound r).shutdown = s.shutdown :=
  bankFound_keeps State.shutdown (fun _ _ => (tells_countCorrected _ _).keeps_shutdown)
    (fun _ _ _ _ => (tells_poisonAt _ _ _ _).keeps_shutdown) s r

theorem bankFound_mem (s : State) (r : BankReport) : (s.bankFound r).mem = s.mem := (bankFound_stores s r).1

/-- The fields before the UNIT block that a bank's findings change, beside those of a report. -/
def poisonFields : List Field := [Reg.MEM_UCADDR.stack, Reg.MEM_UCADDR.addr, Reg.MEM_EVT.uc]

section

variable {f : Field} (hf : f.quiet = true) (hone : f.stride = 0) (hlt : f.key 0 < 8 * 0x2000000)
include hf hone hlt

/-- An error changes no quiet field that lies before the UNIT block. -/
theorem countError_fld_before_units (s : State) (slot i : Nat) : (s.countError slot).fld f i = s.fld f i := by
  have h (g : Field) (hg : 8 * 0x2000000 ≤ g.key 0) := Field.holds_of_before hone (hlt.trans_le hg)
  unfold countError
  refine foldl_keep (State.fld · f i) _ (fun s u => ?_) _ s
  have hcount : (s.count Reg.UNIT_ERRCNT.count 1 u).fld f i = s.fld f i :=
    count_fld _ _ _ _ hf (h _ (by decide) u) (h { Reg.UNIT_ERRCNT.count with low := 48, width := 1, access := .w1c, reset := 0 } (by decide) u)
  show State.fld (ite _ _ _) f i = _
  split
  · exact (raiseUnit_fld _ _ _ _ hf (h _ (by decide) u)).trans hcount
  · exact hcount

theorem countCorrected_fld_before_units (s : State) (mdies : List Nat) (i : Nat) : (s.countCorrected mdies).fld f i = s.fld f i := by
  refine foldl_keep (State.fld · f i) _ (fun s m => ?_) mdies s
  show State.fld (ite _ _ _) f i = _
  split
  · exact countError_fld_before_units hf hone hlt s _ i
  · rfl

/-- What a bank found changes no other quiet field that lies before the UNIT block. -/
theorem bankFound_fld_before_units (htop : topFault.all (fun g => !f.holds (g.key 0)) = true)
    (hpoison : poisonFields.all (fun g => !f.holds (g.key 0)) = true) (s : State) (r : BankReport) (i : Nat) :
    (s.bankFound r).fld f i = s.fld f i := by
  simp only [poisonFields, List.all_cons, List.all_nil, Bool.and_true, Bool.and_eq_true, Bool.not_eq_true'] at hpoison
  obtain ⟨hstack, haddr, hevt⟩ := hpoison
  have hp := ((quiet_iff f).mp hf).1
  refine bankFound_keeps (State.fld · f i) (fun s l => countCorrected_fld_before_units hf hone hlt s l i) (fun s off stack a => ?_) s r
  simp only [poisonAt]
  rw [recordFault_fld_before_units _ _ _ _ hf htop hone ⟨hlt.trans_le (by decide), hlt.trans_le (by decide)⟩,
    countError_fld_before_units hf hone hlt, raise_fld _ _ _ hf hevt, fld_setFld_apart _ _ _ _ _ _ hp haddr,
    fld_setFld_apart _ _ _ _ _ _ hp hstack]
  rfl

end

/-- A bank's findings leave BAR4 where it is. -/
theorem bankFound_bar4Off (s : State) (r : BankReport) (b : Nat) : (s.bankFound r).bar4Off b = s.bar4Off b := by
  unfold bar4Off
  rw [bankFound_fld_before_units (by decide) rfl (by decide) (by decide) (by decide)]

/-! ### What an access of T1 keeps -/

theorem touchLines_cores (s : State) (off n : Nat) (write : Bool) : (s.touchLines off n write).cores = s.cores :=
  touchLines_keeps State.cores (fun _ _ _ => rfl) (fun _ _ => rfl) s off n write

theorem touchLines_shutdown (s : State) (off n : Nat) (write : Bool) : (s.touchLines off n write).shutdown = s.shutdown :=
  touchLines_keeps State.shutdown (fun _ _ _ => rfl) (fun _ _ => rfl) s off n write

theorem touchLines_isPoisoned (s : State) (off n : Nat) (write : Bool) (o m : Nat) :
    (s.touchLines off n write).isPoisoned o m = s.isPoisoned o m :=
  touchLines_keeps (State.isPoisoned · o m) (fun _ _ _ => rfl) (fun _ _ => rfl) s off n write

theorem touchLines_bar4Off (s : State) (off n : Nat) (write : Bool) (b : Nat) : (s.touchLines off n write).bar4Off b = s.bar4Off b :=
  touchLines_keeps (State.bar4Off · b) (fun _ _ _ => rfl) (fun _ _ => rfl) s off n write

/-! ### The link and the power state (R225, R510, R540) -/

/-- A link that trains comes up with what it negotiated. -/
theorem execPcieLinkUp_trains {s : State} {width speed : Nat} (hp : s.perst = false) (hu : s.pcieUp = false)
    (hst : s.fld Reg.TOP_STARTSTAT.stage ≠ 0) (hw : 1 ≤ width) (hw' : width ≤ 16) (hs : 1 ≤ speed) (hs' : speed ≤ 6) :
    execPcieLinkUp width speed s = .next { s with pcieUp := true, pcieWidth := width, pcieSpeed := speed } := by
  have hwidth : width ≠ 0 ∧ ¬ 16 < width := by omega
  have hspeed : speed ≠ 0 ∧ ¬ 6 < speed := by omega
  exact congrArg Host.Outcome.next (if_neg (by simp [hp, hu, hst, hwidth, hspeed]))

/-- The loss of the link clears what it negotiated and fails T3. -/
theorem execPcieLinkDown_fails {s : State} (hu : s.pcieUp = true) :
    execPcieLinkDown s = .next (State.failT3 { s with pcieUp := false, pcieWidth := 0, pcieSpeed := 0 }) :=
  congrArg Host.Outcome.next (if_pos hu)

/-- After stage 1 the function goes to the power state written. -/
theorem execPowerManagementStateWrite_sets {s : State} (hot : Bool) (hu : s.pcieUp = true) (hp : s.perst = false)
    (hst : 2 ≤ s.fld Reg.TOP_STARTSTAT.stage) : execPowerManagementStateWrite hot s = .next { s with d3hot := hot } :=
  congrArg Host.Outcome.next (if_pos (by simp [hu, hp, hst]))

/-! ### BAR4 (R218, R518) -/

/-- Behind the memory lock a write of an open range is stored, with what the bank found. -/
theorem execBar4Write_stores {s : State} {offset : Nat} {data : List Byte} (report : BankReport) (hr : s.hostReach = true) (hd : data ≠ [])
    (hl : s.flag Reg.MEM_LOCK.lock = true) (hc : s.bar4Closed (s.bar4Off offset) data.length = false) :
    execBar4Write offset data report s = .next ((s.bankFound report).t1Put (s.bar4Off offset) data) := by
  simp [execBar4Write, hr, hd, hl, hc]

/-- Before the lock a write is only latched; its offset there is free. -/
theorem execBar4Write_unlocked {s : State} {offset : Nat} {data : List Byte} (report : BankReport) (hr : s.hostReach = true) (hd : data ≠ [])
    (hl : s.flag Reg.MEM_LOCK.lock = false) : execBar4Write offset data report s = .next (s.free.2.latchAccess 3 s.free.1 data.length) := by
  simp [execBar4Write, hr, hd, hl]

/-- A latched access finds the latch full or fills it. -/
theorem latchAccess_valid (s : State) (kind offset bytes : Nat) : (s.latchAccess kind offset bytes).flag Reg.TOP_ACCERR.valid = true := by
  cases h : s.flag Reg.TOP_ACCERR.valid with
  | true => rwa [latchAccess_of_valid _ _ _ _ h]
  | false => exact (latchAccess_of_empty s kind offset bytes h).1

@[simp] theorem emit_cores (s : State) (o : Output) : (s.emit o).cores = s.cores := rfl

/-- A read of a closed range answers zeros. -/
theorem execBar4Read_closed {s : State} {offset bytes : Nat} (report : BankReport) (hr : s.hostReach = true)
    (hc : s.bar4Closed (s.bar4Off offset) bytes = true) :
    execBar4Read offset bytes report s = .next (s.emit (.readData (List.replicate bytes 0) false)) := by
  simp [execBar4Read, hr, hc]

/-- Outside a shutdown no byte of T1 has been destroyed: a read gives what it found. -/
theorem afterScan_of_no_shutdown {s : State} (h : s.shutdown = none) (off : Nat) (bs : List Byte) : s.afterScan off bs = (bs, s) := by
  simp [afterScan, scanned, h]

/-- Outside a shutdown a read of an open range answers its bytes, or that they are poisoned. -/
theorem execBar4Read_open {s : State} {offset bytes : Nat} (report : BankReport) (hr : s.hostReach = true)
    (hc : s.bar4Closed (s.bar4Off offset) bytes = false) (hs : s.shutdown = none) :
    execBar4Read offset bytes report s = .next (((s.bankFound report).touchLines (s.bar4Off offset) bytes false).emit
      (if (s.bankFound report).isPoisoned (s.bar4Off offset) bytes = true then .readData [] true
        else .readData (s.t1Get (s.bar4Off offset) bytes) false)) := by
  have hscan : ((s.bankFound report).touchLines (s.bar4Off offset) bytes false).shutdown = none := by
    rw [touchLines_shutdown, bankFound_shutdown, hs]
  have hbytes : (s.bankFound report).t1Get (s.bar4Off offset) bytes = s.t1Get (s.bar4Off offset) bytes := by
    simp only [t1Get, bankFound_mem]
  unfold execBar4Read
  rw [if_neg (by simp [hr]), if_neg (by simp [hc])]
  simp only [t1Read, bankFound_bar4Off, touchLines_bar4Off, touchLines_isPoisoned, afterScan_of_no_shutdown hscan, hbytes]
  split
  · rfl
  · rfl

/-! ### The locks (R207, R518) -/

theorem execNvsLockSet_of_takes {s : State} (ht : s.takes 0x1400004) : execNvsLockSet s = .next (if s.flag Reg.MEM_LOCK.lock = true then
    (s.setFld Reg.NVS_LOCK.lock 1).setFld Reg.TOP_LOCKSTAT.nvs 1 else s.latchAccess 3 0x1400004 4) :=
  congrArg Host.Outcome.next (hostWrite_takes ht 4 _)

theorem execSeqKvlockSet_of_takes {s : State} (ht : s.takes 0x460038) : execSeqKvlockSet s = .next (if s.flag Reg.MEM_LOCK.lock = true then
    (List.range 16).foldl State.showLedger ((s.setFld Reg.SEQ_KVLOCK.lock 1).setFld Reg.TOP_LOCKSTAT.kv 1)
    else s.latchAccess 3 0x460038 4) := by
  unfold execSeqKvlockSet
  rw [hostWrite_takes ht]

end Sys2Proof.Machine.State

namespace Sys2Proof.Machine

/-- Settles O21: the effect of each command, and what a bank's findings and an access of T1 keep of memory and the cores. -/
theorem hostLinkAndBar4 : Obligations.HostLinkAndBar4 := by
  unfold Obligations.HostLinkAndBar4
  refine ⟨fun s width speed => State.execPcieLinkUp_trains, fun s => State.execPcieLinkDown_fails,
    fun s hot => State.execPowerManagementStateWrite_sets hot, fun s offset data report hr hd hl hc => ?_,
    fun s offset data report hr hd hl => ?_, fun s offset bytes report => State.execBar4Read_closed report,
    fun s offset bytes report hr hc hs => ?_, State.execMemLockSet_of_takes, fun s => State.execNvsLockSet_of_takes,
    fun s => State.execSeqKvlockSet_of_takes⟩
  · have hmem := State.t1Put_mem (s.bankFound report) (s.bar4Off offset) data
    rw [State.bankFound_mem] at hmem
    refine ⟨_, State.execBar4Write_stores report hr hd hl hc, State.t1Get_t1Put _ _ _, ?_, ?_, ?_, fun b hb => ?_⟩
    · rw [hmem]
    · rw [hmem]
    · rw [hmem]
    · rw [hmem]
      exact get_writeBytes_ne _ _ _ _ hb
  · exact ⟨_, State.execBar4Write_unlocked report hr hd hl, State.latchAccess_mem _ _ _ _ _, State.latchAccess_valid _ _ _ _⟩
  · refine ⟨_, State.execBar4Read_open report hr hc hs, ?_, ?_, fun hp => ?_, fun hp => ?_⟩
    · rw [State.emit_mem, State.touchLines_mem, State.bankFound_mem]
    · rw [State.emit_cores, State.touchLines_cores, State.bankFound_cores]
    · simp [hp]
    · simp [hp]

end Sys2Proof.Machine
end

