-- ==== Sys2Proof/Proofs/ExchangeContexts.lean ====
section
/-! The contexts of the expert exchange: opening, closing, what arrives, and the timeout (O37). -/

namespace Sys2Proof.Machine.State

variable {s : State} {x : Nat}

/-! ### Opening and closing (R334, R342, R349, R350) -/

/-- Whether a context closed too recently to open again (R350). -/
def closedSoon (s : State) (x : Nat) : Bool :=
  match (s.ctx x).closedAt with
  | some t => decide (s.uptime < t + 1000 * s.fld Reg.XE_XCFG.to_us x)
  | none => false

theorem closedSoon_iff : s.closedSoon x = true ↔ ∃ t, (s.ctx x).closedAt = some t ∧ s.uptime < t + 1000 * s.fld Reg.XE_XCFG.to_us x := by
  unfold closedSoon
  cases (s.ctx x).closedAt <;> simp

/-- A context as it opens: its job, the next epoch, no phase done, and nothing held. -/
def openContext (s : State) (x job : Nat) : State :=
  let u := s.setFld Reg.XE_XCFG.job job x
  (((u.setFld Reg.XE_XCFG.epoch (u.fld Reg.XE_XCFG.epoch x + 1) x).setFld Reg.XE_XCFG.done_phase 0xFFFFFFFF x).setFld
    Reg.XE_XCFG.en 1 x).setCtx x XeContext.empty

/-- A write that opens a closed context opens it where its slots fit and it did not close too recently, and is refused otherwise. -/
theorem execXeContextOpen_of_takes {value : Nat} (hx : x < 16) (ht : s.takes (0xC00000 + 64 * x)) (hen : s.flag Reg.XE_XCFG.en x = false)
    (hv : bit value 31 = true) : execXeContextOpen x value s =
      .next (if decide (65536 < s.fld Reg.XE_XCFG.nsrc x * s.fld Reg.XE_XCFG.cap_src x) || s.closedSoon x then s.xeEvt Reg.XE_EVT.refused
        else (s.openContext x (bits value 15 0)).advanceXe x 0) :=
  congrArg Host.Outcome.next ((hostWrite_takes ht 4 _).trans (if_neg (by simp [hen, hv, Nat.not_le.mpr hx])))

/-- A context that is open closes: nothing is held of it but when it closed. -/
theorem closeContext_of_open (hen : s.flag Reg.XE_XCFG.en x = true) : s.closeContext x = { s.setFld Reg.XE_XCFG.en 0 x with
    xe := Table.set XeContext.empty s.xe x { XeContext.empty with closedAt := some s.uptime } } := by
  simp [closeContext, hen]

theorem closeContext_ctx (hen : s.flag Reg.XE_XCFG.en x = true) :
    (s.closeContext x).ctx x = { XeContext.empty with closedAt := some s.uptime } := by
  rw [closeContext_of_open hen]
  simp only [ctx, Table.get_set_same]

/-- A closed context reads as closed. -/
theorem closeContext_en (s : State) (x : Nat) : (s.closeContext x).flag Reg.XE_XCFG.en x = false := by
  cases hen : s.flag Reg.XE_XCFG.en x with
  | true =>
    rw [closeContext_of_open hen]
    exact flag_setFld_zero _ _ _
  | false => simp [closeContext, hen]

theorem execXeContextClose_of_takes (hx : x < 16) (ht : s.takes (0xC00000 + 64 * x)) :
    execXeContextClose x s = .next (s.closeContext x) :=
  congrArg Host.Outcome.next ((hostWrite_takes ht 4 _).trans (if_pos hx))

/-! ### Arrivals (R339, R349, R424) -/

variable {hd : PacketHead} {v : Seen}

/-- A fresh packet of a row is taken where its row is a return, its expert is hosted here, or it is stale. -/
theorem execXeRowReceive_taken {r : ExchangeRow} (lines : RowLines) (h : s.Fresh hd v)
    (hr : r.half = 1 ∨ s.hosts r.context r.lexp = true ∨ s.staleArrival r.context r.epoch r.phase = true) :
    execXeRowReceive hd r lines s = .next ((((s.taken hd v).rowPacket hd.source r lines.first lines.bytes).chargeBeats lines.beats).answer
      hd 0x80 0) := by
  refine congrArg Host.Outcome.next (engineTake_fresh h _ _ ?_)
  rcases hr with hr | hr | hr <;> simp [hr]

/-- A fresh end marker is taken under the conditions of a row. -/
theorem execXeEndMarkerReceive_taken {a : MarkArrival} (h : s.Fresh hd v)
    (hr : a.mark.half = 1 ∨ s.hosts a.mark.context a.mark.lexp = true ∨
      s.staleArrival a.mark.context a.mark.epoch a.mark.phase = true) :
    execXeEndMarkerReceive hd a s = .next ((((s.taken hd v).markArrives hd.source a.mark).chargeBeats a.beats).answer hd 0x80 0) := by
  refine congrArg Host.Outcome.next (engineTake_fresh h _ _ ?_)
  rcases hr with hr | hr | hr <;> simp [hr]

theorem rowPacket_stale {ep : Nat} {r : ExchangeRow} {first : Nat} {data : List Byte}
    (h : s.staleArrival r.context r.epoch r.phase = true) : s.rowPacket ep r first data = s.countStale := if_pos h

/-- A stale marker is counted, of whichever half it is. -/
theorem markArrives_stale {ep : Nat} {m : ExchangeMark} (h : s.staleArrival m.context m.epoch m.phase = true) :
    s.markArrives ep m = s.countStale := by
  unfold markArrives
  split
  · exact if_pos h
  · exact if_pos h

/-- A row that is not stale arrives with the packet that brings its last line. -/
theorem rowPacket_gathers {ep : Nat} {r : ExchangeRow} {first : Nat} {data : List Byte} {u : Option (List Byte) × State}
    (h : s.staleArrival r.context r.epoch r.phase = false)
    (hu : u = s.gather ep 0x10 [r.context, r.epoch, r.half, r.lexp, r.phase, r.slot, r.src, r.row, r.choice]
      (s.fld (if r.half = 0 then Reg.XE_XCFG.send_row else Reg.XE_XCFG.ret_row) r.context) first data) :
    s.rowPacket ep r first data = match u.1 with
      | some bs => u.2.rowArrives ep r bs
      | none => u.2 := by
  subst hu
  exact if_neg (by simp [h])

/-! ### The timeout (R348) -/

/-- A half that is late closes its context and faults its job. -/
theorem execXeHalfTimeout_late {phase half : Nat} {y : XePhase} (hx : x < 16) (hen : s.flag Reg.XE_XCFG.en x = true)
    (hy : ((s.ctx x).phases.find? fun y => y.phase == phase) = some y)
    (hlate : (if half = 0 then !y.dispatched && y.dispatchEvent.isSome else !y.returned && y.returnEvent.isSome) = true) :
    execXeHalfTimeout x phase half s = .next
      (((s.recordFault 0x0603 (.unit slotXdieA) [x, phase, half]).closeContext x).faultJob (s.fld Reg.XE_XCFG.job x) 0x100) := by
  unfold execXeHalfTimeout
  rw [if_neg (by simp [hen, hx]), hy]
  simp only [hlate, Bool.not_true, Bool.false_eq_true, if_false]

end Sys2Proof.Machine.State

namespace Sys2Proof.Machine

/-- Settles O37: both ends of an opening write, the closing, packets and markers fresh and stale, and the late half. -/
theorem exchangeContexts : Obligations.ExchangeContexts := by
  unfold Obligations.ExchangeContexts
  refine ⟨fun s x value u hx ht hen hv hu => ⟨fun hfit hlong => ?_, fun hbad => ?_⟩, fun s x hx ht hen => ?_,
    fun s hd r first data beats v => State.execXeRowReceive_taken ⟨first, data, beats⟩,
    fun s hd m beats v => State.execXeEndMarkerReceive_taken (a := ⟨m, beats⟩), fun s ep r first data => State.rowPacket_stale,
    fun s ep m => State.markArrives_stale, fun s ep r first data u => State.rowPacket_gathers,
    fun s x phase half y => State.execXeHalfTimeout_late⟩
  · have hsoon : ¬ s.closedSoon x = true := fun h =>
      have ⟨t, hclosed, hlt⟩ := State.closedSoon_iff.mp h
      Nat.not_lt.mpr (hlong t hclosed) hlt
    subst hu
    exact (State.execXeContextOpen_of_takes hx ht hen hv).trans
      (congrArg Host.Outcome.next (if_neg (by simp [hsoon, Nat.not_lt.mpr hfit])))
  · refine (State.execXeContextOpen_of_takes hx ht hen hv).trans (congrArg Host.Outcome.next (if_pos ?_))
    rwa [Bool.or_eq_true, decide_eq_true_iff, State.closedSoon_iff]
  · exact ⟨_, State.execXeContextClose_of_takes hx ht, State.closeContext_en s x, State.closeContext_ctx hen, (State.closeContext_stores s x).1⟩

end Sys2Proof.Machine
end

