-- ==== Sys2Proof/Proofs/StoreLaws.lean ====
section
/-! What the operations of the weight store keep: the translation state, the commands in progress, and the registers that none of them
shows anything in. -/

namespace Sys2Proof.Machine

/-! ### The operations of the NAND alone -/

namespace Nvs

theorem lose_cur (v : Nvs) (u : Nat) : (v.lose u).cur = v.cur := by
  unfold lose
  split <;> rfl

theorem program_cmds (v : Nvs) (u : Nat) (bs : List Byte) : (v.program u bs).cmds = v.cmds := by
  unfold program
  split <;> rfl

theorem programAll_cmds (n : Nat) (v : Nvs) (u : Nat) (bs : List Byte) : (v.programAll u n bs).cmds = v.cmds := by
  induction n generalizing v u bs with
  | zero => rfl
  | succ n ih => exact (ih _ _ _).trans (v.program_cmds u _)

/-- Erasing blocks is a matter of the NAND: the translation state stays. -/
theorem foldl_erase_cur (ps : List Nat) (v : Nvs) : (ps.foldl erase v).cur = v.cur := by
  induction ps generalizing v with
  | nil => rfl
  | cons p ps ih => exact ih (v.erase p)

/-- A record of a relocation changes the map only. -/
theorem foldl_journal_relocate_keeps (q : Nat) (es : List (Nat × Nat)) (v : Nvs) :
    (es.foldl (fun v e => v.journal (.relocate e.1 q)) v).cur.dir = v.cur.dir ∧
      (es.foldl (fun v e => v.journal (.relocate e.1 q)) v).cur.retired = v.cur.retired := by
  induction es generalizing v with
  | nil => exact ⟨rfl, rfl⟩
  | cons e es ih => exact ih (v.journal (.relocate e.1 q))

end Nvs

namespace State

/-! ### What only tells leaves the store as it is -/

/-- Telling changes nothing of the store. -/
theorem Tells.keeps_nvs {s t : State} (h : s.Tells t) : t.nvs = s.nvs := by
  obtain ⟨x, rfl⟩ := h
  rfl

@[simp] theorem modNvs_nvs (s : State) (f : Nvs → Nvs) : (s.modNvs f).nvs = f s.nvs := rfl
@[simp] theorem modNvs_fld (s : State) (f : Nvs → Nvs) (g : Field) (i : Nat) : (s.modNvs f).fld g i = s.fld g i := rfl
@[simp] theorem count_nvs (s : State) (f : Field) (n i : Nat) : (s.count f n i).nvs = s.nvs := (tells_count s f n i).keeps_nvs
@[simp] theorem nvEvt_nvs (s : State) (f : Field) : (s.nvEvt f).nvs = s.nvs := (tells_raise s f _).keeps_nvs
@[simp] theorem recordFault_nvs (s : State) (c : Nat) (p : Suspect) (l : List Nat) : (s.recordFault c p l).nvs = s.nvs :=
  (tells_recordFault s c p l).keeps_nvs

theorem tells_countLate (s : State) (waits : List (Nat × Nat)) (tier : Nat) : s.Tells (s.countLate waits tier) := by
  unfold countLate
  split
  · exact .refl s
  · exact ((tells_count _ _ _ _).trans (tells_raise _ _ _)).trans (tells_report _ _ _ _ _ _)

theorem tells_chargeWaits (s : State) (waits : List (Nat × Nat)) : s.Tells (s.chargeWaits waits) :=
  Tells.foldl (fun s w => by
    split
    · exact tells_count _ _ _ _
    · exact .refl s) waits s

@[simp] theorem learnWait_nvs (s : State) (waits : List (Nat × Nat)) (tier : Nat) : (s.learnWait waits tier).nvs = s.nvs := by
  unfold learnWait
  simp only []
  split
  · rfl
  · exact (tells_countLate s waits tier).keeps_nvs

@[simp] theorem chargeBeats_nvs (s : State) (beats : List (Nat × List (Nat × Nat))) : (s.chargeBeats beats).nvs = s.nvs := by
  refine foldl_keep State.nvs _ (fun s b => ?_) beats s
  show State.nvs (ite _ _ _) = _
  split
  · exact (learnWait_nvs _ _ _).trans (tells_chargeWaits _ _).keeps_nvs
  · rfl

@[simp] theorem launchRequest_nvs (s : State) (p : Packet) (o : Owner) (d : Nat) : (s.launchRequest p o d).nvs = s.nvs := by
  have hroute (t : State) (p : Packet) (b : Option Nat) : (t.route p b []).2.nvs = t.nvs := (tells_route t p b []).keeps_nvs
  simp only [launchRequest]
  split
  · rfl
  · exact hroute _ _ _

@[simp] theorem sendRequest_nvs (s : State) (p : Packet) (o : Owner) (d : Nat) : (s.sendRequest p o d).nvs = s.nvs := by
  have hstamp : (s.stamp p).2.nvs = s.nvs := (tells_stamp s p).keeps_nvs
  simp only [sendRequest]
  split
  · exact hstamp
  · exact (launchRequest_nvs _ _ _ _).trans hstamp

@[simp] theorem refusedOut_nvs (s : State) : s.refusedOut.nvs = s.nvs := by
  unfold refusedOut
  split
  · exact (tells_raise _ _ _).keeps_nvs
  · rfl

@[simp] theorem sendEngine_nvs (s : State) (u d pt : Nat) (payload : List Byte) (j : Nat) : (s.sendEngine u d pt payload j).nvs = s.nvs := by
  unfold sendEngine
  split
  · exact sendRequest_nvs _ _ _ _
  · exact refusedOut_nvs s

@[simp] theorem sendGroup_nvs (s : State) (u g pt : Nat) (payload : List Byte) (j : Nat) : (s.sendGroup u g pt payload j).nvs = s.nvs := by
  unfold sendGroup
  split
  · rfl
  · split
    · exact sendRequest_nvs _ _ _ _
    · exact refusedOut_nvs s

@[simp] theorem answer_nvs (s : State) (hd : PacketHead) (type reason : Nat) : (s.answer hd type reason).nvs = s.nvs := by
  unfold answer
  split
  · rfl
  · exact (tells_sendResponse _ _ _ _ _ _ _ _ _).keeps_nvs

@[simp] theorem touchLines_nvs (s : State) (off n : Nat) (write : Bool) : (s.touchLines off n write).nvs = s.nvs :=
  touchLines_keeps State.nvs (fun _ _ _ => rfl) (fun _ _ => rfl) s off n write

@[simp] theorem t1Put_nvs (s : State) (o : Nat) (bs : List Byte) : (s.t1Put o bs).nvs = s.nvs := touchLines_nvs s o bs.length true
@[simp] theorem t1Put_regs (s : State) (o : Nat) (bs : List Byte) : (s.t1Put o bs).regs = s.regs := touchLines_regs s o bs.length true

@[simp] theorem touchT1_regs (s : State) (a n : Nat) : (s.touchT1 a n).regs = s.regs := by
  unfold touchT1
  split
  · exact touchLines_regs _ _ _ _
  · rfl

theorem tells_showWear (s : State) : s.Tells s.showWear := by
  have shown : s.Tells (((s.setFld Reg.NVS_WEAR.spare s.nvs.spare).setFld Reg.NVS_WEAR.max_erase ((s.nvs.erases.map (·.2)).foldl max 0)).setFld
      Reg.NVS_WEAR.avg_erase ((s.nvs.erases.map (·.2)).sum / 262144)) :=
    ((tells_setFld _ _ _ _).trans (tells_setFld _ _ _ _)).trans (tells_setFld _ _ _ _)
  have warned (t : State) (b : Bool) : t.Tells (if b then t.nvEvt Reg.NVS_EVT.wear_warn else t) := by
    split
    · exact tells_raise _ _ _
    · exact .refl t
  have worn (t : State) : t.Tells ((((t.setFld Reg.NVS_STATUS.worn 1).setFld Reg.NVS_STATUS.ro 1).nvEvt Reg.NVS_EVT.worn).recordFault 0x0606
      (.unit slotXdieA) []) :=
    (((tells_setFld _ _ _ _).trans (tells_setFld _ _ _ _)).trans (tells_raise _ _ _)).trans (tells_recordFault _ _ _ _)
  unfold showWear
  extract_lets _ _ _ _ _ _ u
  have hu : s.Tells u := shown.trans (warned _ _)
  split
  · exact hu.trans (worn _)
  · exact hu

@[simp] theorem showWear_nvs (s : State) : s.showWear.nvs = s.nvs := (tells_showWear s).keeps_nvs

/-- A unit that is lost is a matter of counters and reports. -/
theorem tells_nvLost (s : State) : s.Tells s.nvLost := ((tells_count _ _ _ _).trans (tells_raise _ _ _)).trans (tells_recordFault _ _ _ _)

@[simp] theorem nvLost_nvs (s : State) : s.nvLost.nvs = s.nvs := (tells_nvLost s).keeps_nvs

/-! ### Reads of the store -/

/-- A report with no unit lost leaves the store as it is. -/
theorem nvRead_nvs_of_none {r : NvsReport} (h : r.uncorrectable = none) (s : State) : (s.nvRead r).nvs = s.nvs := by
  simp [nvRead, h]

@[simp] theorem nvRead_cur (s : State) (r : NvsReport) : (s.nvRead r).nvs.cur = s.nvs.cur := by
  unfold nvRead
  simp only []
  split
  · simp
  · simp [Nvs.lose_cur]

/-- Reading counts the page reads of blocks, and changes nothing else of the store (R238). -/
theorem readPages_nvs (s : State) (u n : Nat) : ∃ t, (s.readPages u n).nvs = { s.nvs with reads := t } := by
  have step (ks : List Nat) (v : Nvs) : ∃ t, ks.foldl (fun v k => match v.cur.entry (nvLogical (u + 65536 * k)) with
      | some p => { v with reads := Table.modify 0 v.reads p (· + 4) }
      | none => v) v = { v with reads := t } := by
    induction ks generalizing v with
    | nil => exact ⟨v.reads, rfl⟩
    | cons k ks ih =>
      rw [List.foldl_cons]
      split
      · obtain ⟨t, ht⟩ := ih { v with reads := Table.modify 0 v.reads _ (· + 4) }
        exact ⟨t, ht⟩
      · exact ih v
  exact step _ _

/-- A fetch fails at the first unit of its range that is lost. -/
theorem nvFetch_fst (s : State) (u n : Nat) : (s.nvFetch u n).1 = s.nvs.firstLost u n := by
  obtain ⟨t, ht⟩ := readPages_nvs s u n
  have hlost : (s.readPages u n).nvs.firstLost u n = s.nvs.firstLost u n := by rw [ht]; rfl
  simp only [nvFetch, hlost]
  cases s.nvs.firstLost u n <;> rfl

/-- A fetch changes the page counts of the store only. -/
theorem nvFetch_nvs (s : State) (u n : Nat) : ∃ t, (s.nvFetch u n).2.nvs = { s.nvs with reads := t } := by
  obtain ⟨t, ht⟩ := readPages_nvs s u n
  refine ⟨t, ?_⟩
  simp only [nvFetch]
  split
  · exact ht
  · exact (nvLost_nvs _).trans ht

@[simp] theorem nvFetch_cur (s : State) (u n : Nat) : (s.nvFetch u n).2.nvs.cur = s.nvs.cur := by
  obtain ⟨t, ht⟩ := nvFetch_nvs s u n
  rw [ht]

/-- A fetch leaves the bytes of every shard as they are. -/
@[simp] theorem nvFetch_shardBytes (s : State) (u n : Nat) (h : Shard) : (s.nvFetch u n).2.shardBytes h = s.shardBytes h := by
  obtain ⟨t, ht⟩ := nvFetch_nvs s u n
  unfold shardBytes
  rw [ht]
  rfl

/-- A digest is checked against the bytes of the shard alone. -/
theorem digestOk_congr {s t : State} {h : Shard} (hb : t.shardBytes h = s.shardBytes h) : t.digestOk h = s.digestOk h := by
  unfold digestOk
  rw [hb]

theorem shardBytes_congr {s t : State} (h : t.nvs = s.nvs) (x : Shard) : t.shardBytes x = s.shardBytes x := by
  unfold shardBytes
  rw [h]

@[simp] theorem nvFetch_digestOk (s : State) (u n : Nat) (h : Shard) : (s.nvFetch u n).2.digestOk h = s.digestOk h :=
  digestOk_congr (nvFetch_shardBytes s u n h)

/-- The directory gives a shard of the identifier asked for. -/
theorem shard?_id {s : State} {id : Nat} {h : Shard} (hs : s.shard? id = some h) : h.id = id := by
  simpa using List.find?_some hs

theorem shard?_congr {s t : State} (h : t.nvs.cur = s.nvs.cur) (id : Nat) : t.shard? id = s.shard? id := by
  unfold shard?
  rw [h]

theorem patchShard_congr {s t : State} (h : t.nvs.cur = s.nvs.cur) (p v : Nat) : t.patchShard p v = s.patchShard p v := by
  unfold patchShard
  rw [h]

/-! ### Erasing, relocating, and the commands -/

/-- Erasing old blocks leaves the translation state as it is. -/
@[simp] theorem eraseOld_cur (s : State) : s.eraseOld.nvs.cur = s.nvs.cur := by
  unfold eraseOld
  split
  · rfl
  · extract_lets waits gone
    split
    · rfl
    · rw [showWear_nvs]
      exact Nvs.foldl_erase_cur gone { s.nvs with old := s.nvs.old.filter waits }

/-- A relocation leaves the directory and the retired blocks as they are. -/
theorem relocate_keeps (s : State) (p q : Nat) (retire : Bool) :
    (s.relocate p q retire).nvs.cur.dir = s.nvs.cur.dir ∧ (s.relocate p q retire).nvs.cur.retired = s.nvs.cur.retired := by
  unfold relocate
  simp only [showWear_nvs, eraseOld_cur, count_nvs, modNvs_nvs]
  split
  · exact Nvs.foldl_journal_relocate_keeps _ _ _
  · exact Nvs.foldl_journal_relocate_keeps _ _ _

/-- A run that goes back leaves the directory as it is. -/
@[simp] theorem returnRun_dir (s : State) (g n : Nat) : (s.returnRun g n).nvs.cur.dir = s.nvs.cur.dir := by
  unfold returnRun
  rw [eraseOld_cur]
  rfl

@[simp] theorem modCmd_regs (s : State) (key : Nat) (f : NvCmd → NvCmd) : (s.modCmd key f).regs = s.regs := rfl
@[simp] theorem remeasure_regs (s t : State) : (s.remeasure t).regs = s.regs := rfl
@[simp] theorem remeasure_fld (s t : State) (f : Field) (i : Nat) : (s.remeasure t).fld f i = s.fld f i := rfl
@[simp] theorem remeasure_flag (s t : State) (f : Field) (i : Nat) : (s.remeasure t).flag f i = s.flag f i := rfl
@[simp] theorem remeasure_cur (s t : State) : (s.remeasure t).nvs.cur = s.nvs.cur := rfl

/-- A load that has ended is noted in the store's list or in the slot, and changes nothing of the translation state. -/
theorem noteLoad_cur (s : State) (c : NvCmd) (ok : Bool) : (s.noteLoad c ok).nvs.cur = s.nvs.cur := by
  unfold noteLoad
  repeat' split
  all_goals rfl

/-- A command that does not load into a generation slot notes nothing. -/
theorem noteLoad_of_not_loads {c : NvCmd} (h : c.loads = false) (s : State) (ok : Bool) : s.noteLoad c ok = s := by
  simp [noteLoad, h]

@[simp] theorem nvDecide_cur (s : State) (c : NvCmd) (st d : Nat) : (s.nvDecide c st d).nvs.cur = s.nvs.cur := noteLoad_cur _ _ _

/-- What a change of the commands of a key makes of each of them. -/
theorem mem_modCmd {s : State} {key : Nat} {f : NvCmd → NvCmd} {x : NvCmd} (h : x ∈ (s.modCmd key f).nvs.cmds)
    (hx : x.key = key) : ∃ c ∈ s.nvs.cmds, c.key = key ∧ x = f c := by
  obtain ⟨c, hc, rfl⟩ := List.mem_map.mp h
  by_cases hk : c.key = key
  · exact ⟨c, hc, hk, by simp [hk]⟩
  · simp [hk] at hx

/-- A decided command has its result. -/
theorem nvDecide_result (s : State) (c : NvCmd) (st d : Nat) :
    ∀ x ∈ (s.nvDecide c st d).nvs.cmds, x.key = c.key → x.result = some (st, d) := by
  intro x hx hk
  obtain ⟨y, -, -, rfl⟩ := mem_modCmd hx hk
  rfl

end State
end Sys2Proof.Machine
end

