-- ==== Sys2Proof/Proofs/StoreGenerations.lean ====
section
/-! The states of the generation slots, and the slot that is active (O9, O26). -/

namespace Sys2Proof.Machine.State

variable {s : State} {slot : Nat}

/-! ### A rejected write -/

/-- A rejected write raises its event (R257). -/
theorem rejectGen_reject (s : State) : s.rejectGen.flag Reg.NVS_EVT.reject = true := raise_self _ _ _ (by decide) (by decide) (by decide)

/-- A rejected write leaves every slot as it is. -/
theorem rejectGen_genState (s : State) (i : Nat) : s.rejectGen.genState i = s.genState i := raise_fld s _ _ (by decide) (by decide)

/-- A rejected write leaves the active slot as it is. -/
theorem rejectGen_active (s : State) : s.rejectGen.fld Reg.NVS_GENACT.active = s.fld Reg.NVS_GENACT.active :=
  raise_fld s _ _ (by decide) (by decide)

/-! ### The state of a slot after it, or another field, has been stored -/

theorem genState_setFld_same {v : Nat} (hslot : slot < 2) (hv : v < 4) (s : State) : (s.setFld Reg.NVS_GEN.state v slot).genState slot = v :=
  (fld_setFld_same _ _ _ _ hslot).trans (Nat.mod_eq_of_lt hv)

theorem genState_setFld_ne {i v : Nat} (h : i ≠ slot) (s : State) : (s.setFld Reg.NVS_GEN.state v slot).genState i = s.genState i :=
  fld_setFld_ne _ _ _ _ _ _ (by simp only [Field.key, Reg.NVS_GEN.state]; omega)

theorem genState_setFld_active (s : State) (v i : Nat) : (s.setFld Reg.NVS_GENACT.active v).genState i = s.genState i := by
  by_cases hi : i < 2
  · exact fld_setFld_ne _ _ _ _ _ _ (by simp only [Field.key, Reg.NVS_GEN.state, Reg.NVS_GENACT.active]; omega)
  · rw [genState, genState, fld_of_ge _ _ _ (Nat.not_lt.mp hi), fld_of_ge _ _ _ (Nat.not_lt.mp hi)]

theorem genState_setFld_flag (s : State) {f : Field} (hf : f = Reg.NVS_GEN.kv_keep ∨ f = Reg.NVS_GEN.load_fail) (v j i : Nat) :
    (s.setFld f v j).genState i = s.genState i := by
  refine fld_setFld_ne _ _ _ _ _ _ ?_
  rcases hf with rfl | rfl
  · simp only [Field.key, Reg.NVS_GEN.state, Reg.NVS_GEN.kv_keep]; omega
  · simp only [Field.key, Reg.NVS_GEN.state, Reg.NVS_GEN.load_fail]; omega

/-! ### Activating a slot (R258) -/

/-- The slot that was active returns to state 2. -/
def retireActive (s : State) : State :=
  if s.genState (s.fld Reg.NVS_GENACT.active) = 3 then s.setFld Reg.NVS_GEN.state 2 (s.fld Reg.NVS_GENACT.active) else s

/-- The slot named becomes the active one. -/
def activate (s : State) (slot : Nat) : State :=
  ((s.retireActive.setFld Reg.NVS_GEN.state 3 slot).setFld Reg.NVS_GENACT.active slot).measure5 (s.retireActive.nvs.block5.drop 32)

theorem execGenactWrite_takes (hslot : slot < 2) (ht : s.takes 0x1400140) : execGenactWrite slot s =
    .next (if s.genState slot = 2 then s.activate slot else if s.genState slot = 3 then s else s.rejectGen) := by
  have hcut : ¬ 2 ≤ slot := Nat.not_le.mpr hslot
  refine congrArg Host.Outcome.next ((hostWrite_takes ht 4 _).trans ?_)
  rw [if_neg hcut]
  rfl

theorem activate_genState_same (hslot : slot < 2) (s : State) : (s.activate slot).genState slot = 3 :=
  (genState_setFld_active _ _ _).trans (genState_setFld_same hslot (by decide) _)

theorem activate_active (hslot : slot < 2) (s : State) : (s.activate slot).fld Reg.NVS_GENACT.active = slot :=
  (fld_setFld_same _ _ _ _ (by decide)).trans (Nat.mod_eq_of_lt hslot)

/-- The slot that was active is in state 2 once another is active. -/
theorem activate_genState_old {i : Nat} (hi : i < 2) (hne : i ≠ slot) (hact : s.fld Reg.NVS_GENACT.active = i) (h3 : s.genState i = 3) :
    (s.activate slot).genState i = 2 := by
  have hold : s.retireActive.genState i = 2 := by
    rw [retireActive, hact, if_pos h3]
    exact genState_setFld_same hi (by decide) s
  exact ((genState_setFld_active _ _ _).trans (genState_setFld_ne hne _)).trans hold

/-- An activation changes registers and the measurement of the active generation (R270). -/
theorem activate_keeps (s : State) (slot : Nat) : (s.activate slot).mem = s.mem ∧
    (s.activate slot).nvs = { s.nvs with block5 := (s.activate slot).nvs.block5 } := by
  have hretire : s.retireActive.mem = s.mem ∧ s.retireActive.nvs = s.nvs := by
    unfold retireActive
    split <;> exact ⟨rfl, rfl⟩
  obtain ⟨hmem, hnvs⟩ := hretire
  refine ⟨hmem, ?_⟩
  rw [← hnvs]
  rfl

/-! ### Moving a slot between its states (R257, R269) -/

/-- A slot that holds nothing starts to load, with no failure on record. -/
def startLoading (s : State) (slot : Nat) (keep : Bool) : State :=
  (((s.setFld Reg.NVS_GEN.state 1 slot).setFlag Reg.NVS_GEN.kv_keep keep slot).setFld Reg.NVS_GEN.load_fail 0 slot).modNvs fun v =>
    { v with loaded := v.loaded.filter fun x => x.1 != slot }

theorem execGenSetLoading_takes (hslot : slot < 2) (ht : s.takes (0x1400114 + 32 * slot)) (keep : Bool) : execGenSetLoading slot keep s =
    .next (if s.genState slot = 0 then s.startLoading slot keep
      else if s.genState slot = 1 then s.setFlag Reg.NVS_GEN.kv_keep keep slot else s.rejectGen) :=
  congrArg Host.Outcome.next ((hostWrite_takes ht 4 _).trans (if_neg (Nat.not_le.mpr hslot)))

theorem startLoading_genState (hslot : slot < 2) (s : State) (keep : Bool) : (s.startLoading slot keep).genState slot = 1 :=
  ((genState_setFld_flag _ (.inr rfl) _ _ _).trans (genState_setFld_flag _ (.inl rfl) _ _ _)).trans (genState_setFld_same hslot (by decide) s)

theorem startLoading_kvKeep (hslot : slot < 2) (s : State) (keep : Bool) : (s.startLoading slot keep).flag Reg.NVS_GEN.kv_keep slot = keep := by
  refine (flag_setFld_ne _ _ _ _ _ _ (by simp only [Field.key, Reg.NVS_GEN.kv_keep, Reg.NVS_GEN.load_fail]; omega)).trans ?_
  cases keep with
  | true => exact flag_setFld_one _ _ _ hslot (by decide)
  | false => exact flag_setFld_zero _ _ _

theorem startLoading_loadFail (s : State) (slot : Nat) (keep : Bool) : (s.startLoading slot keep).flag Reg.NVS_GEN.load_fail slot = false :=
  flag_setFld_zero _ _ _

/-- The manifest of a slot's generation has been read from the store, where there is one. -/
def readManifest (s : State) (slot : Nat) : State :=
  match s.manifest? (s.fld Reg.NVS_GEN.gen slot) with
  | some m => (s.nvFetch m.base m.length).2
  | none => s

theorem execGenSetReady_takes (hslot : slot < 2) (ht : s.takes (0x1400114 + 32 * slot)) (h1 : s.genState slot = 1) : execGenSetReady slot s =
    .next (if s.loadsInto slot ∨ s.flag Reg.NVS_GEN.load_fail slot then s.rejectGen
      else if s.manifestOk slot then (s.readManifest slot).setFld Reg.NVS_GEN.state 2 slot
      else ((s.readManifest slot).setFld Reg.NVS_GEN.load_fail 1 slot).rejectGen) := by
  have hcut : ¬ (2 ≤ slot ∨ s.genState slot = 2) := by omega
  refine congrArg Host.Outcome.next ((hostWrite_takes ht 4 _).trans ?_)
  rw [if_neg hcut]
  simp only [h1, ne_eq, not_true_eq_false, false_or]
  rfl

/-- A generation without a manifest has none to match. -/
theorem manifestOk_of_none (h : s.manifest? (s.fld Reg.NVS_GEN.gen slot) = none) : s.manifestOk slot = true := by
  unfold manifestOk
  rw [h]

theorem execGenSetEmpty_takes (hslot : slot < 2) (ht : s.takes (0x1400114 + 32 * slot)) (keep : Bool) : execGenSetEmpty slot keep s =
    .next (if s.genState slot = 0 then s.setFlag Reg.NVS_GEN.kv_keep keep slot
      else if s.genState slot = 1 then (s.setFld Reg.NVS_GEN.state 0 slot).setFlag Reg.NVS_GEN.kv_keep keep slot
      else if s.genState slot = 2 ∧ s.fld Reg.NVS_GEN.refs slot = 0 then s.setFld Reg.NVS_GEN.state 0 slot
      else s.rejectGen) :=
  congrArg Host.Outcome.next ((hostWrite_takes ht 4 _).trans (if_neg (Nat.not_le.mpr hslot)))

end Sys2Proof.Machine.State

namespace Sys2Proof.Machine

/-- Settles O9: a write that names a ready slot activates it, one that names the active slot does nothing, and every other is rejected. -/
theorem activeGeneration : Obligations.ActiveGeneration := by
  unfold Obligations.ActiveGeneration
  refine ⟨fun s slot hslot ht h2 => ?_, fun s slot hslot ht h3 => ?_, fun s slot hslot ht hne => ?_⟩
  · exact ⟨s.activate slot, (State.execGenactWrite_takes hslot ht).trans (by rw [if_pos h2]), State.activate_genState_same hslot s,
      State.activate_active hslot s, fun i hi hne hact h3 => State.activate_genState_old hi hne hact h3, s.activate_keeps slot⟩
  · exact (State.execGenactWrite_takes hslot ht).trans (by simp [h3])
  · by_cases h3 : s.genState slot = 3
    · exact ⟨s, (State.execGenactWrite_takes hslot ht).trans (by simp [h3]), rfl, fun _ => rfl⟩
    · exact ⟨s.rejectGen, (State.execGenactWrite_takes hslot ht).trans (by rw [if_neg hne, if_neg h3]), s.rejectGen_active,
        s.rejectGen_genState⟩

/-- Settles O26: each write of a slot's state by the state it finds the slot in. -/
theorem nvsGenerations : Obligations.NvsGenerations := by
  unfold Obligations.NvsGenerations
  refine ⟨fun s slot keep hslot ht => ?_, fun s => ⟨s.rejectGen_reject, s.rejectGen_genState⟩⟩
  have hload := State.execGenSetLoading_takes hslot ht keep
  have hready := State.execGenSetReady_takes hslot ht
  have hempty := State.execGenSetEmpty_takes hslot ht keep
  refine ⟨fun h0 => ?_, fun h => ?_, fun h1 hn hf hm => ?_, fun m h1 hn hf hm => ⟨fun hok => ?_, fun hok => ?_⟩, fun h1 hb => ?_, fun h1 => ?_,
    fun h2 hr => ?_, fun h2 hr => ?_, fun h3 => ?_⟩
  · exact ⟨s.startLoading slot keep, hload.trans (by rw [if_pos h0]), State.startLoading_genState hslot s keep,
      State.startLoading_kvKeep hslot s keep, s.startLoading_loadFail slot keep, rfl, rfl⟩
  · exact hload.trans (by rw [if_neg (by omega), if_neg (by omega)])
  · exact (hready h1).trans (by simp [hn, hf, State.manifestOk_of_none hm, State.readManifest, hm])
  · exact (hready h1).trans (by simp [hn, hf, hok, State.readManifest, hm])
  · exact (hready h1).trans (by simp [hn, hf, hok, State.readManifest, hm])
  · exact (hready h1).trans (by rw [if_pos hb])
  · exact hempty.trans (by simp [h1])
  · exact hempty.trans (by simp [h2, hr])
  · exact hempty.trans (by simp [h2, hr])
  · exact hempty.trans (by simp [h3])

end Sys2Proof.Machine
end

