-- ==== Sys2Proof/Proofs/StoreRings.lean ====
section
/-! The rings of the weight store: enabling, indices, taking a command, and its record (O23). -/

namespace Sys2Proof.Machine.State

/-! ### Clearing registers -/

/-- Clearing fields leaves every field at another place as it is. -/
theorem clearFlds_fld_ne {f : Field} {fs : List Field} {i j : Nat} (h : ∀ g ∈ fs, f.key j ≠ g.key i) (s : State) :
    (s.clearFlds fs i).fld f j = s.fld f j := by
  induction fs generalizing s with
  | nil => rfl
  | cons g fs ih =>
    rw [List.forall_mem_cons] at h
    exact (ih h.2 _).trans (fld_setFld_ne _ _ _ _ _ _ h.1)

/-- Of fields at places of their own, each that is cleared reads 0. -/
theorem clearFlds_fld_zero {f : Field} {fs : List Field} {i : Nat} (hd : (fs.map (Field.key · i)).Nodup) (hf : f ∈ fs) (s : State) :
    (s.clearFlds fs i).fld f i = 0 := by
  induction fs generalizing s with
  | nil => cases hf
  | cons g fs ih =>
    rw [List.map_cons, List.nodup_cons] at hd
    rcases List.mem_cons.mp hf with rfl | hf
    · refine (clearFlds_fld_ne (fs := fs) (fun g hg he => hd.1 ?_) _).trans (fld_setFld_zero s f i)
      exact List.mem_map.mpr ⟨g, hg, he.symm⟩
    · exact ih hd.2 hf _

variable {s : State}

/-! ### Enabling a pair of rings (R245) -/

/-- A command ring and its completion ring, enabled with a size and empty. -/
def enableRings (s : State) (log2n en : Field) (indices : List Field) (n : Nat) : State :=
  ((s.setFld log2n n).clearFlds indices).setFld en 1

section

variable {log2n en : Field} {indices : List Field} (hd : ((en :: log2n :: indices).map (Field.key · 0)).Nodup)
include hd

theorem enableRings_log2n (hc : 0 < log2n.count) (s : State) (n : Nat) : (s.enableRings log2n en indices n).fld log2n = n % log2n.size := by
  simp only [List.map_cons, List.nodup_cons, List.mem_cons, List.mem_map, not_or, not_exists, not_and] at hd
  obtain ⟨⟨hen, -⟩, hidx, -⟩ := hd
  exact (fld_setFld_ne _ _ _ _ _ _ (Ne.symm hen)).trans ((clearFlds_fld_ne (fun g hg he => hidx g hg he.symm) _).trans
    (fld_setFld_same _ _ _ _ hc))

/-- Every index is at entry 0, in phase 0. -/
theorem enableRings_index {f : Field} (hf : f ∈ indices) (s : State) (n : Nat) : (s.enableRings log2n en indices n).fld f = 0 := by
  simp only [List.map_cons, List.nodup_cons, List.mem_cons, List.mem_map, not_or, not_exists, not_and] at hd
  obtain ⟨⟨-, hen⟩, -, hidx⟩ := hd
  exact (fld_setFld_ne _ _ _ _ _ _ (hen f hf)).trans (clearFlds_fld_zero hidx hf _)

end

/-- Enabling rings is a matter of registers. -/
theorem tells_enableRings (s : State) (log2n en : Field) (indices : List Field) (n : Nat) : s.Tells (s.enableRings log2n en indices n) :=
  ((tells_setFld _ _ _ _).trans (tells_clearFlds _ _ _)).trans (tells_setFld _ _ _ _)

/-! ### The rings of the weight store, and their indices -/

/-- The indices of the two rings. -/
def nvIndices : List Field := [Reg.NVS_CMDHEAD.index, Reg.NVS_CMDHEAD.phase, Reg.NVS_CMDTAIL.index, Reg.NVS_CMDTAIL.phase,
  Reg.NVS_CPLHEAD.index, Reg.NVS_CPLHEAD.phase, Reg.NVS_CPLTAIL.index, Reg.NVS_CPLTAIL.phase]

theorem nvFields_apart : ((Reg.NVS_RINGCFG.en :: Reg.NVS_RINGCFG.log2n :: nvIndices).map (Field.key · 0)).Nodup := by decide

/-- The rings of the store, enabled and empty. -/
def enableNvRings (s : State) (n : Nat) : State := s.enableRings Reg.NVS_RINGCFG.log2n Reg.NVS_RINGCFG.en nvIndices n

theorem execNvsRingEnable_takes {value : Nat} (ht : s.takes 0x1400008) (hen : s.flag Reg.NVS_RINGCFG.en = false) (hlo : 4 ≤ bits value 3 0)
    (hhi : bits value 3 0 ≤ 12) (hlock : s.flag Reg.NVS_LOCK.lock = true) :
    execNvsRingEnable value s = .next (s.enableNvRings (bits value 3 0)) := by
  refine congrArg Host.Outcome.next ((hostWrite_takes ht 4 _).trans ?_)
  rw [if_neg (by simp [hen]; omega), if_neg (by simp [hlock])]
  rfl

theorem enableNvRings_pos {index phase : Field} (hi : index ∈ nvIndices) (hp : phase ∈ nvIndices) (s : State) (n : Nat) :
    (s.enableNvRings n).nvPos index phase = 0 := by
  unfold nvPos enableNvRings
  rw [enableRings_index nvFields_apart hi, enableRings_index nvFields_apart hp, Nat.mul_zero]

theorem execNvsCmdtailWrite_takes {value : Nat} (ht : s.takes 0x1400020) (hlegal : ringLegal 12 s.nvN value = true)
    (hfwd : ringDist s.nvN s.nvHead s.nvTail ≤ ringDist s.nvN s.nvHead (ringPos 12 s.nvN value))
    (hroom : ringDist s.nvN s.nvHead (ringPos 12 s.nvN value) ≤ s.nvN) : execNvsCmdtailWrite value s =
      .next (s.setNvPos Reg.NVS_CMDTAIL.index Reg.NVS_CMDTAIL.phase (ringPos 12 s.nvN value)) :=
  congrArg Host.Outcome.next ((hostWrite_takes ht 4 _).trans (if_neg (by simp [hlegal]; omega)))

theorem execNvsCplheadWrite_takes {value : Nat} (ht : s.takes 0x140002C) (hlegal : ringLegal 12 s.nvN value = true)
    (hroom : ringDist s.nvN s.nvCplHead (ringPos 12 s.nvN value) ≤ ringDist s.nvN s.nvCplHead s.nvCplTail) : execNvsCplheadWrite value s =
      .next (s.setNvPos Reg.NVS_CPLHEAD.index Reg.NVS_CPLHEAD.phase (ringPos 12 s.nvN value)) :=
  congrArg Host.Outcome.next ((hostWrite_takes ht 4 _).trans (if_neg (by simp [hlegal]; omega)))

/-! ### Taking a command (R246) -/

/-- The rows of the opcodes, and the opcodes each takes. -/
theorem nvRow_takes {host : List Byte} {row : Nat × Instr}
    (hrow : row ∈ [(1, Instr.write host), (2, .load host), (3, .verify host), (4, .delete host),
      (5, .keep host), (6, .recv host), (7, .pload host), (8, .pevict host)]) :
    ∃ mine : Nat → Bool, mine row.1 = true ∧ ∀ s, exec row.2 s = .next (s.nvTake host mine) := by
  simp only [List.mem_cons, List.not_mem_nil, or_false] at hrow
  rcases hrow with rfl | rfl | rfl | rfl | rfl | rfl | rfl | rfl
  · exact ⟨fun op => op == 1 || op == 0 || decide (8 < op), rfl, fun _ => rfl⟩
  all_goals exact ⟨_, rfl, fun _ => rfl⟩

/-- The state once a command has left the ring and joined those in progress. -/
def nvTook (s : State) (c : NvCmd) : State :=
  ((s.touchT1 (s.fld Reg.NVS_CMDBASE.base + 64 * (s.nvHead % s.nvN)) 64).setNvPos Reg.NVS_CMDHEAD.index Reg.NVS_CMDHEAD.phase
    ((s.nvHead + 1) % (2 * s.nvN))).modNvs fun v => { v with cmds := v.cmds ++ [c], taken := v.taken + 1 }

theorem touchT1_nvN (s : State) (a n : Nat) : (s.touchT1 a n).nvN = s.nvN := by
  unfold nvN
  rw [fld_congr (touchT1_regs s a n)]

/-- The command at the head of the ring of a store that takes one joins those in progress, decided where it is turned away. -/
theorem nvTake_takes {host : List Byte} {mine : Nat → Bool} {c : NvCmd} (hm : mine (numAt (s.nvEntry host) 0 1) = true)
    (hen : s.flag Reg.NVS_RINGCFG.en = true) (hready : s.flag Reg.NVS_STATUS.ready = true) (hring : s.nvHead ≠ s.nvTail)
    (hopen : s.closing = false) (hfull : s.apron = false) (hreach : s.nvClosed = false)
    (hfree : (s.nvs.cmds.filter (·.index.isSome)).length < 16)
    (hc : c = NvCmd.ofBytes s.nvs.taken (some (s.nvHead % s.nvN)) (s.nvEntry host)) :
    s.nvTake host mine = (((s.nvRefusal c (s.nvEntry host)).map fun st => (s.nvTook c).nvDecide c st 0).getD (s.nvTook c)).nvStart 17 := by
  subst hc
  unfold nvTake
  rw [if_neg (by simp [hen, hready, hring, hopen, hreach, hm]; omega)]
  simp only [hfull, Bool.false_eq_true, if_false, touchT1_nvN]
  rfl

/-! ### Completing a command (R247) -/

theorem execNvsCommandComplete_decided {key : Nat} {c : NvCmd} {st d : Nat} (report : NvsReport)
    (hc : (s.nvs.cmds.find? fun c => c.key == key) = some c) (hstart : c.started = true) (hres : c.result = some (st, d))
    (hidx : c.index.isSome = true) (hroom : s.nvRoom = true) : execNvsCommandComplete key report s = .next (s.nvRecord c st d) := by
  have hidx' : c.index.isNone = false := by simpa using hidx
  simp [execNvsCommandComplete, hc, hstart, hres, hidx', hroom]

section

variable {key : Nat} {report : NvsReport} {c d : NvCmd} (hc : (s.nvs.cmds.find? fun c => c.key == key) = some c) (hstart : c.started = true)
  (hres : c.result = none) (hd : ((s.nvWork c report).nvs.cmds.find? fun c => c.key == key) = some d)
include hc hstart hres hd

/-- A command whose work leaves it without a result stays in progress. -/
theorem execNvsCommandComplete_waits (hnone : d.result = none) : execNvsCommandComplete key report s = .next (s.nvWork c report) := by
  simp [execNvsCommandComplete, hc, hstart, hres, hd, hnone]

/-- A command whose work decides it is recorded at once where the ring has room. -/
theorem execNvsCommandComplete_ends {x : Nat × Nat} (hx : d.result = some x) (hidx : d.index.isSome = true) :
    execNvsCommandComplete key report s =
      .next (if (s.nvWork c report).nvRoom then (s.nvWork c report).nvRecord d x.1 x.2 else s.nvWork c report) := by
  have hidx' : d.index.isNone = false := by simpa using hidx
  simp [execNvsCommandComplete, hc, hstart, hres, hd, hx, hidx']

end

/-! ### What wear shows, and the record of a command -/

/-- The fields in which wear shows (R242). -/
def wearShown : List Field := [Reg.NVS_WEAR.spare, Reg.NVS_WEAR.max_erase, Reg.NVS_WEAR.avg_erase, Reg.NVS_EVT.wear_warn,
  Reg.NVS_STATUS.worn, Reg.NVS_STATUS.ro, Reg.NVS_EVT.worn]

section

variable {f : Field} (hf : f.quiet = true) (hone : f.stride = 0) (hlt : f.key 0 < 8 * 0x2000000)
  (htop : topFault.all (fun g => !f.holds (g.key 0)) = true) (hwear : wearShown.all (fun g => !f.holds (g.key 0)) = true)
include hf hone hlt htop hwear

/-- Wear shows in no other quiet field that lies before the UNIT block. -/
theorem showWear_fld (s : State) (i : Nat) : s.showWear.fld f i = s.fld f i := by
  simp only [wearShown, List.all_cons, List.all_nil, Bool.and_true, Bool.and_eq_true, Bool.not_eq_true'] at hwear
  obtain ⟨hspare, hmax, havg, hwarn, hworn, hro, hevt⟩ := hwear
  have hp := ((quiet_iff f).mp hf).1
  have warned (t : State) (b : Bool) : (if b then t.nvEvt Reg.NVS_EVT.wear_warn else t).fld f i = t.fld f i := by
    split
    · exact raise_fld _ _ _ hf hwarn
    · rfl
  unfold showWear
  extract_lets spare counts had s1 s2 s3 s4
  have h4 : s4.fld f i = s.fld f i := (warned s3 _).trans (by
    rw [fld_setFld_apart _ _ _ _ _ _ hp havg, fld_setFld_apart _ _ _ _ _ _ hp hmax, fld_setFld_apart _ _ _ _ _ _ hp hspare])
  split
  · refine (recordFault_fld_before_units _ _ _ _ hf htop hone ⟨hlt.trans_le (by decide), hlt.trans_le (by decide)⟩).trans ?_
    refine (raise_fld _ _ _ hf hevt).trans ?_
    rw [fld_setFld_apart _ _ _ _ _ _ hp hro, fld_setFld_apart _ _ _ _ _ _ hp hworn, h4]
  · exact h4

theorem eraseOld_fld (s : State) (i : Nat) : s.eraseOld.fld f i = s.fld f i := by
  unfold eraseOld
  split
  · rfl
  · extract_lets waits gone
    split
    · rfl
    · exact showWear_fld hf hone hlt htop hwear _ i

end

/-- The command has left those in progress, and what waited for it has been erased; a failure shows in its event. -/
def nvLetGo (s : State) (c : NvCmd) (st : Nat) : State :=
  ((if st = 0 then s else s.nvEvt Reg.NVS_EVT.cmd_fail).modNvs fun v => { v with cmds := v.cmds.filter fun x => x.key != c.key }).eraseOld

/-- Letting go of a command changes no quiet field that neither wear nor the event shows in. -/
theorem nvLetGo_flag {f : Field} (hf : f.quiet = true) (hone : f.stride = 0) (hlt : f.key 0 < 8 * 0x2000000)
    (htop : topFault.all (fun g => !f.holds (g.key 0)) = true) (hwear : wearShown.all (fun g => !f.holds (g.key 0)) = true)
    (hevt : f.holds (Reg.NVS_EVT.cmd_fail.key 0) = false) (c : NvCmd) (st i : Nat) : (s.nvLetGo c st).flag f i = s.flag f i := by
  unfold flag nvLetGo
  rw [eraseOld_fld hf hone hlt htop hwear, modNvs_fld]
  split
  · rfl
  · rw [nvEvt, raise_fld _ _ _ hf hevt]

/-- The record of a command goes to the tail of an enabled completion ring, outside Apron mode. -/
theorem nvRecord_enabled {c : NvCmd} {st : Nat} {u : State} (hen : s.flag Reg.NVS_RINGCFG.en = true) (hfull : s.apron = false)
    (hu : u = s.nvLetGo c st) (d : Nat) : s.nvRecord c st d =
      ((u.areaPut (u.fld Reg.NVS_CPLBASE.base + 16 * (u.nvCplTail % u.nvN)) (toBytes 2 (c.index.getD 0) ++ toBytes 1 st ++
        toBytes 1 (entryPhase u.nvN u.nvCplTail) ++ toBytes 4 c.shard ++ toBytes 8 d)).setNvPos Reg.NVS_CPLTAIL.index Reg.NVS_CPLTAIL.phase
          ((u.nvCplTail + 1) % (2 * u.nvN))).nvStart 17 := by
  subst hu
  have hen' : (s.nvLetGo c st).flag Reg.NVS_RINGCFG.en = true :=
    (nvLetGo_flag (by decide) rfl (by decide) (by decide) (by decide) (by decide) c st 0).trans hen
  have hfull' : (s.nvLetGo c st).apron = false :=
    (nvLetGo_flag (by decide) rfl (by decide) (by decide) (by decide) (by decide) c st 0).trans hfull
  unfold nvRecord
  extract_lets _ u n p bs a put moved
  have hput : put = u.areaPut a bs := if_neg (Bool.eq_false_iff.mp hfull')
  have hmoved : moved = put.setNvPos Reg.NVS_CPLTAIL.index Reg.NVS_CPLTAIL.phase ((p + 1) % (2 * n)) :=
    if_neg (by simp [show u.flag Reg.NVS_RINGCFG.en = true from hen'])
  rw [hmoved, hput]
  rfl

end Sys2Proof.Machine.State

namespace Sys2Proof.Machine

/-- Settles O23: the writes of the rings' registers, the row of each opcode, the two ways to a result, and the record. -/
theorem nvsRings : Obligations.NvsRings := by
  unfold Obligations.NvsRings
  refine ⟨fun s value ht hen hlo hhi hlock => ?_, fun s value ht hl hf hr => State.execNvsCmdtailWrite_takes ht hl hf hr,
    fun s value ht hl hr => State.execNvsCplheadWrite_takes ht hl hr,
    fun s host u row c hrow hop hen hready hring hclose hfull hreach hfree hc hu => ?_,
    fun s key report c st d hc hstart hres hidx hroom => State.execNvsCommandComplete_decided report hc hstart hres hidx hroom,
    fun s key report c d hc hstart hres hd => ?_, fun s u c st d hen hfull hu => ?_⟩
  · have htells := s.tells_enableRings Reg.NVS_RINGCFG.log2n Reg.NVS_RINGCFG.en State.nvIndices (bits value 3 0)
    exact ⟨s.enableNvRings (bits value 3 0), State.execNvsRingEnable_takes ht hen hlo hhi hlock,
      State.flag_setFld_one _ _ _ (by decide) (by decide),
      (State.enableRings_log2n State.nvFields_apart (by decide) s _).trans (Nat.mod_eq_of_lt (Nat.lt_of_le_of_lt hhi (by decide))),
      State.enableNvRings_pos (by decide) (by decide) s _, State.enableNvRings_pos (by decide) (by decide) s _,
      State.enableNvRings_pos (by decide) (by decide) s _, State.enableNvRings_pos (by decide) (by decide) s _, htells.keeps_nvs,
      htells.keeps_units.2.2⟩
  · obtain ⟨mine, hmine, hexec⟩ := State.nvRow_takes hrow
    have htake := State.nvTake_takes (mine := mine) (hop ▸ hmine) hen hready hring hclose hfull hreach hfree hc
    have hu' : u = s.nvTook c := hu
    refine ⟨fun hno => ?_, fun st hno => ?_⟩
    all_goals
      rw [hexec, htake, hno, hu']
      rfl
  · exact ⟨State.execNvsCommandComplete_waits hc hstart hres hd, fun x => State.execNvsCommandComplete_ends hc hstart hres hd⟩
  · exact State.nvRecord_enabled hen hfull hu d

end Sys2Proof.Machine
end

