-- ==== Sys2Proof/Proofs/BulkRings.lean ====
section
/-! The rings of the bulk descriptors: enabling, indices, taking a descriptor, and its completion (O41). -/

namespace Sys2Proof.Machine.State

variable {s : State}

/-! ### Enabling the rings, and their indices (R245, R518) -/

/-- The indices of the two rings. -/
def bulkIndices : List Field := [Reg.FAB_BQHEAD.index, Reg.FAB_BQHEAD.phase, Reg.FAB_BQTAIL.index, Reg.FAB_BQTAIL.phase, Reg.FAB_BCHEAD.index,
  Reg.FAB_BCHEAD.phase, Reg.FAB_BCTAIL.index, Reg.FAB_BCTAIL.phase]

theorem bulkFields_apart : ((Reg.FAB_BQCFG.en :: Reg.FAB_BQCFG.log2n :: bulkIndices).map (Field.key · 0)).Nodup := by decide

/-- The rings, enabled and empty. -/
def enableBulkRings (s : State) (n : Nat) : State := s.enableRings Reg.FAB_BQCFG.log2n Reg.FAB_BQCFG.en bulkIndices n

/-- A legal enable takes effect behind the memory lock, and is latched without it. -/
theorem execFabBulkRingEnable_takes {value : Nat} (ht : s.takes 0x802100) (hen : s.flag Reg.FAB_BQCFG.en = false) (hlo : 4 ≤ bits value 3 0)
    (hhi : bits value 3 0 ≤ 12) : execFabBulkRingEnable value s =
      .next (if !s.flag Reg.MEM_LOCK.lock then s.latchAccess 3 0x802100 4 else s.enableBulkRings (bits value 3 0)) :=
  congrArg Host.Outcome.next ((hostWrite_takes ht 4 _).trans (if_neg (by simp [hen]; omega)))

theorem enableBulkRings_pos {index phase : Field} (hi : index ∈ bulkIndices) (hp : phase ∈ bulkIndices) (s : State) (n : Nat) :
    (s.enableBulkRings n).bqPos index phase = 0 := by
  unfold bqPos enableBulkRings
  rw [enableRings_index bulkFields_apart hi, enableRings_index bulkFields_apart hp, Nat.mul_zero]

/-- Telling changes nothing of the bulk descriptors in progress. -/
theorem Tells.keeps_bulks {t : State} (h : s.Tells t) : t.bulks = s.bulks := by
  obtain ⟨x, rfl⟩ := h
  rfl

theorem execFabBqtailWrite_takes {value : Nat} (ht : s.takes 0x802118) (hlegal : ringLegal 12 s.bqN value = true)
    (hfwd : ringDist s.bqN s.bqHead s.bqTail ≤ ringDist s.bqN s.bqHead (ringPos 12 s.bqN value))
    (hroom : ringDist s.bqN s.bqHead (ringPos 12 s.bqN value) ≤ s.bqN) : execFabBqtailWrite value s =
      .next (s.setBqPos Reg.FAB_BQTAIL.index Reg.FAB_BQTAIL.phase (ringPos 12 s.bqN value)) :=
  congrArg Host.Outcome.next ((hostWrite_takes ht 4 _).trans (if_neg (by simp [hlegal]; omega)))

theorem execFabBcheadWrite_takes {value : Nat} (ht : s.takes 0x802124) (hlegal : ringLegal 12 s.bqN value = true)
    (hroom : ringDist s.bqN s.bcHead (ringPos 12 s.bqN value) ≤ ringDist s.bqN s.bcHead s.bcTail) : execFabBcheadWrite value s =
      .next (s.setBqPos Reg.FAB_BCHEAD.index Reg.FAB_BCHEAD.phase (ringPos 12 s.bqN value)) :=
  congrArg Host.Outcome.next ((hostWrite_takes ht 4 _).trans (if_neg (by simp [hlegal]; omega)))

/-! ### Taking a descriptor, and completing it (R419) -/

/-- The row of each of the two operations. -/
theorem bulkRow_takes {host : List Byte} {c : Instr} {op : Nat} (hc : c = Instr.bulkPut host ∧ op = 1 ∨ c = Instr.bulkGet host ∧ op = 2) :
    ∃ mine : Nat → Bool, mine op = true ∧ ∀ s, exec c s = .next (s.takeBulk host mine) := by
  rcases hc with ⟨rfl, rfl⟩ | ⟨rfl, rfl⟩
  · exact ⟨(· != 2), rfl, fun _ => rfl⟩
  · exact ⟨(· == 2), rfl, fun _ => rfl⟩

/-- The descriptor that the 64 bytes of an entry name, with every packet of it still to come. -/
def bulkOf (num : Nat) (bs : List Byte) : Bulk :=
  { num := num, op := numAt bs 0 1, ep := numAt bs 4 4, loc := numAt bs 8 8, offset := numAt bs 0x10 8, length := numAt bs 0x18 4,
    key := numAt bs 0x1C 4, job := numAt bs 0x20 2, tag := numAt bs 0x24 4, left := ceilDiv (numAt bs 0x18 4) 512, done := 0, status := 0 }

/-- A legal descriptor within reach, at the head of a ring that can be read, is taken and sent. -/
theorem takeBulk_sends {host bs : List Byte} {mine : Nat → Bool} {a : Nat} {u : State} (hen : s.flag Reg.FAB_BQCFG.en = true)
    (hopen : s.closing = false) (hring : s.bqHead ≠ s.bqTail) (hfree : s.bulks.length < 16)
    (ha : a = s.fld Reg.FAB_BQBASE.base + 64 * (s.bqHead % s.bqN)) (harea : s.areaClosed a 64 = false) (hbs : bs = s.areaGet a 64 host)
    (hm : mine (numAt bs 0 1) = true) (hu : u = s.touchT1 a 64) (hlegal : u.bulkIllegal bs = false)
    (hreach : u.reaches (numAt bs 4 4) false (if numAt bs 0 1 = 1 then 2 else 1) = true) : s.takeBulk host mine =
      State.sendBulk { u.setBqPos Reg.FAB_BQHEAD.index Reg.FAB_BQHEAD.phase ((u.bqHead + 1) % (2 * u.bqN)) with
        bulks := u.bulks ++ [bulkOf u.bulkNext bs], bulkNext := u.bulkNext + 1 } (bulkOf u.bulkNext bs) := by
  subst ha hbs hu
  unfold takeBulk
  rw [if_neg (by simp [hen, hopen, hring, harea]; omega)]
  simp only [hm, hlegal, hreach, Bool.not_true, Bool.not_false, Bool.and_self, Bool.false_eq_true, if_false, if_true]
  rfl

/-- A descriptor with every outcome known completes while the completion ring has an entry free. -/
theorem execBulkComplete_finished {num : Nat} {b : Bulk} (hb : (s.bulks.find? fun x => x.num == num) = some b) (hleft : b.left = 0)
    (hen : s.flag Reg.FAB_BQCFG.en = true) (hroom : ringDist s.bqN s.bcHead s.bcTail < s.bqN) (hok : b.status = 0) :
    execBulkComplete num s = .next (State.setBqPos (State.areaPut { s with bulks := s.bulks.erase b }
      (s.fld Reg.FAB_BCBASE.base + 16 * (s.bcTail % s.bqN)) (toBytes 4 b.tag ++ toBytes 1 0 ++ toBytes 1 (entryPhase s.bqN s.bcTail) ++
        toBytes 2 0 ++ toBytes 8 b.done)) Reg.FAB_BCTAIL.index Reg.FAB_BCTAIL.phase ((s.bcTail + 1) % (2 * s.bqN))) := by
  have hroom' : ¬ s.bqN ≤ ringDist s.bqN s.bcHead s.bcTail := Nat.not_le.mpr hroom
  simp only [execBulkComplete, hb, hleft, hen, hroom', hok, ne_eq, not_true_eq_false, Bool.not_true, Bool.false_eq_true, if_false, if_true]

end Sys2Proof.Machine.State

namespace Sys2Proof.Machine

/-- Settles O41: the writes of the rings' registers, the taking of a legal descriptor, and the completion of one without a failure. -/
theorem bulkRings : Obligations.BulkRings := by
  unfold Obligations.BulkRings
  refine ⟨fun s value ht hen hlo hhi hlock => ?_, fun s value ht hen hlo hhi hlock => ?_,
    fun s value ht hl hf hr => State.execFabBqtailWrite_takes ht hl hf hr, fun s value ht hl hr => State.execFabBcheadWrite_takes ht hl hr,
    fun s host c op bs a b u hc hen hclose hring hfree ha harea hbs hop hu hlegal hreach hb => ?_,
    fun s num b hb hleft hen hroom hok => State.execBulkComplete_finished hb hleft hen hroom hok⟩
  · have htells := s.tells_enableRings Reg.FAB_BQCFG.log2n Reg.FAB_BQCFG.en State.bulkIndices (bits value 3 0)
    exact ⟨s.enableBulkRings (bits value 3 0), (State.execFabBulkRingEnable_takes ht hen hlo hhi).trans (by simp [hlock]),
      State.flag_setFld_one _ _ _ (by decide) (by decide),
      (State.enableRings_log2n State.bulkFields_apart (by decide) s _).trans (Nat.mod_eq_of_lt (Nat.lt_of_le_of_lt hhi (by decide))),
      State.enableBulkRings_pos (by decide) (by decide) s _, State.enableBulkRings_pos (by decide) (by decide) s _,
      State.enableBulkRings_pos (by decide) (by decide) s _, State.enableBulkRings_pos (by decide) (by decide) s _,
      htells.keeps_units.2.2, htells.keeps_bulks⟩
  · exact (State.execFabBulkRingEnable_takes ht hen hlo hhi).trans (by simp [hlock])
  · obtain ⟨mine, hmine, hexec⟩ := State.bulkRow_takes hc
    subst hop
    obtain rfl : b = State.bulkOf u.bulkNext bs := hb
    exact (hexec s).trans (congrArg Host.Outcome.next
      (State.takeBulk_sends hen hclose hring hfree ha harea hbs hmine hu hlegal hreach))

end Sys2Proof.Machine
end

