-- ==== Sys2Proof/Proofs/StoreUpkeep.lean ====
section
/-! What the weight store does by itself: failed blocks, wear levelling, read disturb, scrub, digest checks, checkpoints (O25). -/

namespace Sys2Proof.Machine.State

variable {s : State}

/-! ### Failed blocks (R236) -/

/-- A block has been retired and counted; a block of a system region names its stand-in. -/
def retireBlock (s : State) (block : Nat) : State :=
  (s.modNvs fun v => v.journal (.retire block (if v.system block then s.nvs.freeBlock (block / nvBlocks) else none))).count
    Reg.NVS_RETIRECNT.count 1

/-- The data of a mapped block goes to a free block, where there is one. -/
def rescue (s : State) (block : Nat) (mapped : Bool) : Option Nat → State
  | some q => if mapped then s.relocate block q true else s
  | none => s

theorem execNandOperationFail_retires {block : Nat} (hb : block < 8 * nvBlocks) (hi : s.inhibited = false) (hr : s.nvs.isRetired block = false) :
    execNandOperationFail block s = .next ((s.retireBlock block).rescue block (s.nvs.cur.map.any fun e => e.2 == block)
      (s.nvs.freeBlock (block / nvBlocks))).showWear := by
  refine congrArg Host.Outcome.next ((if_neg (by simp [Nat.not_le.mpr hb, hi, hr])).trans ?_)
  unfold retireBlock
  -- The free blocks of a channel are found in a long computed list: an opaque name keeps it from being evaluated.
  generalize s.nvs.freeBlock (block / nvBlocks) = q
  cases q <;> rfl

theorem retireBlock_keeps (s : State) (block : Nat) : (s.retireBlock block).nvs.cur.dir = s.nvs.cur.dir ∧
    (s.retireBlock block).nvs.cur.retired = Table.put s.nvs.cur.retired block true ∧ (s.retireBlock block).mem = s.mem := by
  unfold retireBlock
  rw [count_nvs, (count_stores _ _ _ _).1]
  exact ⟨rfl, rfl, rfl⟩

/-- A rescue leaves the directory, the retired blocks and memory as they are. -/
theorem rescue_keeps (s : State) (block : Nat) (mapped : Bool) (q : Option Nat) : (s.rescue block mapped q).nvs.cur.dir = s.nvs.cur.dir ∧
    (s.rescue block mapped q).nvs.cur.retired = s.nvs.cur.retired ∧ (s.rescue block mapped q).mem = s.mem := by
  cases q with
  | none => exact ⟨rfl, rfl, rfl⟩
  | some q =>
    simp only [rescue]
    split
    · exact ⟨(relocate_keeps _ _ _ _).1, (relocate_keeps _ _ _ _).2, (relocate_stores _ _ _ _).1⟩
    · exact ⟨rfl, rfl, rfl⟩

/-! ### Relocations (R237, R238) -/

/-- Data of the least erased block that may hold some goes to the first free one of the highest count, where the counts differ by more than
256. -/
theorem execNvsWearLevel_levels {channel p q : Nat} {usable rest : List Nat} (hch : channel < 8) (hw : s.nvWrites = true)
    (hfirst : Table.get 0 s.nvs.levelled channel = 0)
    (husable : usable = (nvChannel channel).filter fun p => !s.nvs.system p && !s.nvs.isRetired p)
    (hlow : leastBy s.nvs.erasesOf usable = some p) (hgap : s.nvs.erasesOf p + 256 < (usable.map s.nvs.erasesOf).foldl max 0)
    (hfree : ((usable.filter s.nvs.isFree).filter fun q =>
      s.nvs.erasesOf q == ((usable.filter s.nvs.isFree).map s.nvs.erasesOf).foldl max 0) = q :: rest)
    (hmapped : (s.nvs.cur.map.any fun e => e.2 == p) = true) : execNvsWearLevel channel s = .next
      ((s.modNvs fun v => { v with levelled := Table.set 0 v.levelled channel (s.uptime + 1) }).relocate p q false) := by
  unfold execNvsWearLevel
  simp only [← husable, hfirst, hlow, hfree, hw, hmapped, Nat.not_le.mpr hch, Nat.not_le.mpr hgap, decide_false, Bool.not_true, Bool.or_self,
    Bool.false_eq_true, if_false, if_true]

theorem execNvsReadDisturbRelocate_due {block q : Nat} (hw : s.nvWrites = true) (hreads : 200000 ≤ Table.get 0 s.nvs.reads block)
    (hfree : s.nvs.freeBlock (block / nvBlocks) = some q) (hmapped : (s.nvs.cur.map.any fun e => e.2 == block) = true) :
    execNvsReadDisturbRelocate block s = .next (s.relocate block q false) := by
  refine congrArg Host.Outcome.next ((if_pos (by simp [hw, hreads])).trans ?_)
  unfold relocateLow
  simp only [hfree, hmapped, if_true]

/-! ### Reads and records of its own (R239, R240, R255) -/

theorem execNvsScrub_sound {block : Nat} {report : NvsReport} (hready : s.flag Reg.NVS_STATUS.ready = true)
    (hmapped : (s.nvs.cur.map.any fun e => e.2 == block) = true) (hr : report.uncorrectable = none) : execNvsScrub block false report s =
      .next (((s.count Reg.NVS_ECCCNT.count report.corrected).chargeBeats report.beats).modNvs fun v =>
        { v with reads := Table.modify 0 v.reads block (· + 1024) }) := by
  refine congrArg Host.Outcome.next ((if_neg (by simp [hready, hmapped])).trans ?_)
  simp only [nvRead, hr, Option.isSome_none, Bool.false_and, Bool.false_eq_true, if_false]

/-- The shard whose check is oldest is checked, where no command is on it. -/
theorem execNvsDigestCheck_oldest {shard : Nat} {report : NvsReport} {h : Shard} (hs : s.shard? shard = some h)
    (hready : s.flag Reg.NVS_STATUS.ready = true) (hidle : s.shardBusy shard = false) (hold : ∀ x ∈ s.nvs.cur.dir, h.checked ≤ x.checked) :
    execNvsDigestCheck shard report s = .next (s.checkShard h report).2.2 := by
  have hnone : (s.nvs.cur.dir.any fun x => decide (x.checked < h.checked) && !s.shardBusy x.id) = false := by
    rw [List.any_eq_false]
    intro x hx
    simp [Nat.not_lt.mpr (hold x hx)]
  simp only [execNvsDigestCheck, hs, hready, hidle, hnone, Bool.not_true, Bool.or_self, Bool.false_eq_true, if_false]

theorem execNvsCheckpoint_due (hi : s.inhibited = false) (hrec : 65536 ≤ s.nvs.records.length) :
    execNvsCheckpoint s = .next (s.modNvs Nvs.checkpoint) :=
  congrArg Host.Outcome.next (if_neg (by simp [hi, Nat.not_lt.mpr hrec]))

end Sys2Proof.Machine.State

namespace Sys2Proof.Machine

/-- Settles O25: what each command of the upkeep does under its conditions, and what a relocation keeps. -/
theorem nvsUpkeep : Obligations.NvsUpkeep := by
  unfold Obligations.NvsUpkeep
  refine ⟨fun s block u hb hi hr hu => ?_,
    fun s channel p q rest hch hw hfirst hlow hgap hfree hmapped =>
      (State.execNvsWearLevel_levels hch hw hfirst rfl hlow hgap hfree hmapped :),
    fun s block q hw hreads hfree hmapped => State.execNvsReadDisturbRelocate_due hw hreads hfree hmapped,
    fun s block report hready hmapped hr => State.execNvsScrub_sound hready hmapped hr,
    fun s shard report h hs hready hidle hold => State.execNvsDigestCheck_oldest hs hready hidle hold,
    fun s hi hrec => State.execNvsCheckpoint_due hi hrec,
    fun s p q retire => ⟨(s.relocate_keeps p q retire).1, (State.relocate_stores s p q retire).1⟩⟩
  have hexec := State.execNandOperationFail_retires hb hi hr
  obtain rfl : u = s.retireBlock block := hu
  obtain ⟨hdir, hret, hmem⟩ := s.retireBlock_keeps block
  obtain ⟨hdir', hret', hmem'⟩ := (s.retireBlock block).rescue_keeps block (s.nvs.cur.map.any fun e => e.2 == block)
    (s.nvs.freeBlock (block / nvBlocks))
  refine ⟨hexec.trans ?_, _, hexec, ?_, ?_, (State.showWear_stores _).1.trans (hmem'.trans hmem)⟩
  · cases s.nvs.freeBlock (block / nvBlocks) <;> rfl
  · simp [Nvs.isRetired, hret', hret]
  · simp [hdir', hdir]

end Sys2Proof.Machine
end

