-- ==== Sys2Proof/Proofs/StoreCommands.lean ====
section
/-! What the commands of the weight store do to the directory and to T1 (O24). -/

namespace Sys2Proof.Machine.State

variable {s : State} {c : NvCmd} {h : Shard} {r : NvsReport}

/-! ### The work of each opcode -/

/-- LOAD that reads its whole shard stores it at the target (R254). -/
theorem nvWork_load (hop : c.op = 2) (hs : s.shard? c.shard = some h) (hr : r.uncorrectable = none)
    (hl : s.nvs.firstLost h.base h.length = none) : s.nvWork c r = (((s.nvRead r).nvFetch h.base h.length).2.t1Put (c.addr - Store.t1.base)
      (s.shardBytes h)).nvDecide c (if s.digestOk h then 0 else 5) h.length := by
  have hbytes : (s.nvRead r).shardBytes h = s.shardBytes h := shardBytes_congr (nvRead_nvs_of_none hr s) h
  have hfetch : ((s.nvRead r).nvFetch h.base h.length).1 = none := by rw [nvFetch_fst, nvRead_nvs_of_none hr, hl]
  simp only [nvWork, hop, shard?_congr (nvRead_cur s r), hs, loadShard, hfetch, nvFetch_shardBytes, nvFetch_digestOk, hbytes,
    digestOk_congr hbytes]

theorem nvWork_write {g : Nat} (hop : c.op = 1) (hrun : c.run = some g) : s.nvWork c r = (s.nvRead r).writeShard c g r := by
  simp [nvWork, hop, hrun]

/-- RECV commits once a round has ended with every chunk held, and does nothing before (R253). -/
theorem nvWork_recv {g : Nat} (hop : c.op = 6) (hrun : c.run = some g) : s.nvWork c r = if c.missing.isEmpty && c.rounds != 0 then
      ((s.nvRead r).commitShard c g r.sourceFailed).2.nvDecide c ((s.nvRead r).commitShard c g r.sourceFailed).1
        (if ((s.nvRead r).commitShard c g r.sourceFailed).1 = 3 then 0 else c.length)
    else s.nvRead r := by
  simp only [nvWork, hop, hrun]

theorem nvWork_delete (hop : c.op = 4) (hs : s.shard? c.shard = some h) :
    s.nvWork c r = ((s.nvRead r).deleteShard h).nvDecide c 0 0 := by
  simp only [nvWork, hop, shard?_congr (nvRead_cur s r), hs]

/-- The report of a check whose units the command's own report has counted. -/
def countedReport (r : NvsReport) : NvsReport := { r with corrected := 0, uncorrectable := none, beats := [] }

/-- KEEP streams its shard once (R252). -/
theorem nvWork_keep (hop : c.op = 5) (hrounds : c.rounds = 0) (hs : s.shard? c.shard = some h) :
    s.nvWork c r = (s.nvRead r).keepStream c h := by
  simp only [nvWork, hop, shard?_congr (nvRead_cur s r), hs, hrounds, if_true]

/-! ### Committing a shard (R248) -/

/-- The state once a command's shard stands in the directory, from its commit record on. -/
def committed (s : State) (c : NvCmd) (g : Nat) : State :=
  s.modNvs fun v => { v with checks := v.checks + 1 }.journal (.commit { c.entry g with checked := v.checks + 1 })

/-- A commit either enters the shard with status 0, or gives its run back with another status. -/
theorem commitShard_cases (s : State) (c : NvCmd) (g : Nat) (failed : Bool) : s.commitShard c g failed = (0, s.committed c g) ∨
    ∃ st, st ≠ 0 ∧ s.commitShard c g failed = (st, s.returnRun g (groupsOf c.length)) := by
  unfold commitShard
  split_ifs
  · exact .inr ⟨0x0A, by decide, rfl⟩
  · exact .inr ⟨3, by decide, rfl⟩
  · exact .inl rfl
  · exact .inr ⟨5, by decide, rfl⟩

theorem committed_shard? (s : State) (c : NvCmd) (g : Nat) : ((s.committed c g).shard? c.shard).isSome = true := by
  simp [shard?, committed, Nvs.journal, NvImage.apply, NvCmd.entry]

/-- The work of a WRITE or RECV leaves T1 alone. -/
theorem nvWork_mem_of_commits {g : Nat} (hrun : c.run = some g) (hop : c.op = 1 ∨ c.op = 6) : (s.nvWork c r).mem = s.mem := by
  rcases hop with hop | hop
  · rw [nvWork_write hop hrun, writeShard_mem, (nvRead_stores s r).1]
  · rw [nvWork_recv hop hrun]
    split
    · rw [(nvDecide_stores _ _ _ _).1, (commitShard_stores _ _ _ _).1, (nvRead_stores s r).1]
    · exact (nvRead_stores s r).1

/-! ### Deleting a shard -/

theorem deleteShard_dir (s : State) (h : Shard) : (s.deleteShard h).nvs.cur.dir = s.nvs.cur.dir.filter fun x => x.id != h.id := by
  unfold deleteShard
  rw [showWear_nvs, eraseOld_cur]
  rfl

/-- DELETE takes the shard out of the directory and leaves every other (Table 11.3). -/
theorem nvWork_delete_dir (hop : c.op = 4) (hs : s.shard? c.shard = some h) :
    (s.nvWork c r).nvs.cur.dir = s.nvs.cur.dir.filter fun x => x.id != c.shard := by
  rw [nvWork_delete hop hs, nvDecide_cur, deleteShard_dir, nvRead_cur, shard?_id hs]

/-! ### Checking a shard in place (R255, R256) -/

/-- The time of a shard's check stands in its directory entry (R243). -/
def noteCheck (s : State) (id : Nat) : State :=
  s.modNvs fun v =>
    { v with checks := v.checks + 1, cur := { v.cur with dir := v.cur.dir.map fun x => if x.id = id then { x with checked := v.checks + 1 } else x } }

theorem noteCheck_digestOk (s : State) (id : Nat) (h : Shard) : (s.noteCheck id).digestOk h = s.digestOk h := rfl

/-- A check finds what the bytes of the shard say, and marks a shard bad that it finds wrong. -/
theorem checkShard_eq (hr : r.uncorrectable = none) : s.checkShard h r =
    if (s.nvs.firstLost h.base h.length).isNone && s.digestOk h then
      (none, true, ((s.nvRead r).nvFetch h.base h.length).2.noteCheck h.id)
    else (s.nvs.firstLost h.base h.length, false, (((s.nvRead r).nvFetch h.base h.length).2.noteCheck h.id).markBad h.id) := by
  have hfetch : ((s.nvRead r).nvFetch h.base h.length).1 = s.nvs.firstLost h.base h.length := by rw [nvFetch_fst, nvRead_nvs_of_none hr]
  have hok : (((s.nvRead r).nvFetch h.base h.length).2.noteCheck h.id).digestOk h = s.digestOk h := by
    rw [noteCheck_digestOk, nvFetch_digestOk, digestOk_congr (shardBytes_congr (nvRead_nvs_of_none hr s) h)]
  unfold checkShard
  extract_lets got u
  have hu : u = got.2.noteCheck h.id := rfl
  rw [hu, hok, hfetch]

/-- VERIFY of a shard that can be read and matches its digest ends with status 0 (R255). -/
theorem nvWork_verify_sound (hop : c.op = 3) (hs : s.shard? c.shard = some h) (hr : r.uncorrectable = none)
    (hl : s.nvs.firstLost h.base h.length = none) (hd : s.digestOk h = true) : s.nvWork c r =
      ((((s.nvRead r).nvRead (countedReport r)).nvFetch h.base h.length).2.noteCheck h.id).nvDecide c 0 h.length := by
  have hread : (s.nvRead r).nvs = s.nvs := nvRead_nvs_of_none hr s
  have hok : (s.nvRead r).digestOk h = true := (digestOk_congr (shardBytes_congr hread h)).trans hd
  have hcheck := checkShard_eq (s := s.nvRead r) (h := h) (r := countedReport r) rfl
  rw [hread, hl, hok] at hcheck
  have hwork : s.nvWork c r = match ((s.nvRead r).checkShard h (countedReport r)).1 with
      | some u => ((s.nvRead r).checkShard h (countedReport r)).2.2.nvDecide c 9 u
      | none => ((s.nvRead r).checkShard h (countedReport r)).2.2.nvDecide c
          (if ((s.nvRead r).checkShard h (countedReport r)).2.1 then 0 else 5) h.length := by
    simp only [nvWork, hop, shard?_congr (nvRead_cur s r), hs]
    rfl
  rw [hwork, hcheck]
  rfl

/-- A shard marked bad is so in every entry of its identifier. -/
theorem markBad_dir (s : State) (id : Nat) : ∀ x ∈ (s.markBad id).nvs.cur.dir, x.id = id → x.bad = true := by
  intro x hx hid
  simp only [markBad, recordFault_nvs, nvEvt_nvs, count_nvs, modNvs_nvs, List.mem_map] at hx
  obtain ⟨y, -, rfl⟩ := hx
  by_cases hy : y.id = id
  · simp [hy]
  · simp [hy] at hid

/-- A shard marked bad raises the event (R256). -/
theorem markBad_digest (s : State) (id : Nat) : (s.markBad id).flag Reg.NVS_EVT.digest = true := by
  unfold markBad flag
  rw [recordFault_fld_before_units _ _ _ _ (by decide) (by decide) rfl (by decide)]
  exact raise_self _ _ _ (by decide) (by decide) (by decide)

/-! ### Streaming a shard to keepers (R252) -/

@[simp] theorem sendChunk_nvs (s : State) (c : NvCmd) (h : Shard) (k : Nat) : (s.sendChunk c h k).nvs = s.nvs := by
  unfold sendChunk
  -- The lines of a chunk are a long computed list: an opaque name keeps the kernel from evaluating it.
  generalize s.chunkItems c h k = items
  exact foldl_keep State.nvs _ (fun _ _ => sendGroup_nvs _ _ _ _ _ _) items s

@[simp] theorem sendChunks_nvs (s : State) (c : NvCmd) (h : Shard) (ks : List Nat) : (s.sendChunks c h ks).nvs = s.nvs := by
  unfold sendChunks
  induction ks generalizing s with
  | nil => rfl
  | cons k ks ih => rw [List.foldl_cons, ih, sendChunk_nvs]

/-- A sound shard is sent whole, with an end marker, and its command has begun its first round. -/
theorem keepStream_sound (hl : s.nvs.firstLost h.base h.length = none) (hd : s.digestOk h = true) : s.keepStream c h =
    ((((s.nvFetch h.base h.length).2.sendChunks c h (List.range (shardChunks h.length))).sendGroup 6 c.group 0x18
      (markerLine c.shard 0 (shardChunks h.length))).modCmd c.key fun c => { c with rounds := 1 }) := by
  have hok : ((s.nvFetch h.base h.length).2.sendChunks c h (List.range (shardChunks h.length))).digestOk h = true := by
    rw [digestOk_congr (shardBytes_congr (sendChunks_nvs _ _ _ _) h), nvFetch_digestOk, hd]
  simp only [keepStream, nvFetch_fst, hl, hok, if_true]

/-! ### Evicting a patch (R264) -/

/-- A command that has started. -/
def begun (s : State) (c : NvCmd) : State := s.modCmd c.key fun c => { c with started := true }

theorem patchMap_key_lt {p : Nat} (h : p < 256) : Reg.NVS_PATCHMAP.resident.key p < 8 * 0x1402000 := by
  simp only [Field.key, Reg.NVS_PATCHMAP.resident]
  omega

theorem patchSlot_state_key_ge (i : Nat) : 8 * 0x1402000 ≤ Reg.NVS_PATCHSLOT.state.key i := by
  simp only [Field.key, Reg.NVS_PATCHSLOT.state]
  omega

theorem patchSlot_patch_key_ge (i : Nat) : 8 * 0x1402000 ≤ Reg.NVS_PATCHSLOT.patch.key i := by
  simp only [Field.key, Reg.NVS_PATCHSLOT.patch]
  omega

/-- A slot that retires shows so in its own registers only. -/
theorem retireSlot_fld (s : State) (i : Nat) {f : Field} (j : Nat) (hs : f.key j ≠ Reg.NVS_PATCHSLOT.state.key i)
    (hp : f.key j ≠ Reg.NVS_PATCHSLOT.patch.key i) : (s.retireSlot i).fld f j = s.fld f j := by
  unfold retireSlot settleSlot
  split
  · unfold freeSlot
    rw [fld_setFld_ne _ _ _ _ _ _ hp, fld_setFld_ne _ _ _ _ _ _ hs, fld_setFld_ne _ _ _ _ _ _ hs]
  · exact fld_setFld_ne _ _ _ _ _ _ hs

/-- A patch unmapped is not resident. -/
theorem unmapPatch_resident (s : State) (p : Nat) : (s.unmapPatch p).flag Reg.NVS_PATCHMAP.resident p = false := by
  unfold unmapPatch
  rw [flag_setFld_ne _ _ _ _ _ _ (by simp only [Field.key, Reg.NVS_PATCHMAP.resident, Reg.NVS_PATCHMAP.slot]; omega),
    flag_setFld_ne _ _ _ _ _ _ (by simp only [Field.key, Reg.NVS_PATCHMAP.resident, Reg.NVS_PATCHMAP.version]; omega)]
  exact flag_setFld_zero _ _ _

/-- PEVICT of a resident patch unmaps it, and its slot is free once nothing refers to it. -/
theorem nvBegin_pevict (hop : c.op = 8) (hres : c.result = none) (hmap : s.flag Reg.NVS_PATCHMAP.resident c.patch = true) : s.nvBegin c =
    ((((s.begun c).unmapPatch c.patch).retireSlot (s.fld Reg.NVS_PATCHMAP.slot c.patch)).remeasure (s.begun c)).modCmd c.key
      fun c => { c with result := some (0, 0), run := none } := by
  have hloads : c.loads = false := by simp [NvCmd.loads, hop]
  have hmap' : (s.modCmd c.key fun c => { c with started := true }).flag Reg.NVS_PATCHMAP.resident c.patch = true := hmap
  simp only [nvBegin, hop, hres, hmap', nvDecide, noteLoad_of_not_loads hloads]
  rfl

/-- A patch evicted is not resident. -/
theorem nvBegin_pevict_resident (hop : c.op = 8) (hres : c.result = none) (hp : c.patch < 256)
    (hmap : s.flag Reg.NVS_PATCHMAP.resident c.patch = true) : (s.nvBegin c).flag Reg.NVS_PATCHMAP.resident c.patch = false := by
  have hkey := patchMap_key_lt hp
  rw [nvBegin_pevict hop hres hmap, flag_congr ((modCmd_regs _ _ _).trans (remeasure_regs _ _)), flag,
    retireSlot_fld _ _ _ (by have := patchSlot_state_key_ge (s.fld Reg.NVS_PATCHMAP.slot c.patch); omega)
      (by have := patchSlot_patch_key_ge (s.fld Reg.NVS_PATCHMAP.slot c.patch); omega)]
  exact unmapPatch_resident _ _

end Sys2Proof.Machine.State

namespace Sys2Proof.Machine

/-- Settles O24: the work of each opcode, the two ways a commit ends, and the two ways a check ends. -/
theorem nvsCommandEffects : Obligations.NvsCommandEffects := by
  unfold Obligations.NvsCommandEffects
  refine ⟨fun s c h r hop hs hr hl => ?_, fun s c g failed => ⟨?_, ?_, (State.commitShard_stores s c g failed).1⟩,
    fun s c g r hrun hop => State.nvWork_mem_of_commits hrun hop, fun s c h r hop hs => ?_, fun s c h r hop hs hr hl hd => ?_,
    fun s h r hd hr => ?_, fun s c h r hop hrounds hs hr hl hd => ?_, fun s c hop hres hpatch hmap => ?_⟩
  · rw [State.nvWork_load hop hs hr hl]
    refine ⟨?_, fun b hb => ?_, ?_, State.nvDecide_result _ _ _ _⟩
    · rw [State.t1Get, (State.nvDecide_stores _ _ _ _).1]
      exact State.t1Get_t1Put _ _ _
    · rw [(State.nvDecide_stores _ _ _ _).1, State.t1Put_mem]
      exact (get_writeBytes_ne _ _ _ _ hb).trans (by rw [(State.nvFetch_stores _ _ _).1, (State.nvRead_stores _ _).1])
    · simp
  · rcases s.commitShard_cases c g failed with he | ⟨st, hst, he⟩
    · exact fun _ => he ▸ s.committed_shard? c g
    · exact fun h0 => absurd h0 (he ▸ hst)
  · rcases s.commitShard_cases c g failed with he | ⟨st, -, he⟩
    · exact fun h0 => absurd (he ▸ rfl) h0
    · exact fun _ => he ▸ State.returnRun_dir _ _ _
  · have hdir := State.nvWork_delete_dir (r := r) hop hs
    refine ⟨?_, ?_, fun x hx hne => ?_, ?_⟩
    · rw [State.shard?, hdir, List.find?_filter]
      simp
    · rw [State.nvWork_delete hop hs, (State.nvDecide_stores _ _ _ _).1, (State.deleteShard_stores _ _).1, (State.nvRead_stores _ _).1]
    · rw [hdir]
      exact List.mem_filter.mpr ⟨hx, by simpa using hne⟩
    · rw [State.nvWork_delete hop hs]
      exact State.nvDecide_result _ _ _ _
  · rw [State.nvWork_verify_sound hop hs hr hl hd]
    refine ⟨?_, State.nvDecide_result _ _ _ _⟩
    rw [(State.nvDecide_stores _ _ _ _).1]
    exact ((State.nvFetch_stores _ _ _).1.trans (State.nvRead_stores _ _).1).trans (State.nvRead_stores s r).1
  · have hmem := (State.checkShard_stores s h r).1
    rw [State.checkShard_eq hr, hd, Bool.and_false] at hmem ⊢
    exact ⟨rfl, State.markBad_digest _ _, State.markBad_dir _ _, hmem⟩
  · have hread : (s.nvRead r).nvs = s.nvs := State.nvRead_nvs_of_none hr s
    have hok : (s.nvRead r).digestOk h = true := (State.digestOk_congr (State.shardBytes_congr hread h)).trans hd
    have hmem := (State.keepStream_stores (s.nvRead r) c h).1
    rw [State.nvWork_keep hop hrounds hs]
    refine ⟨hmem.trans (State.nvRead_stores s r).1, fun x hx hk => ?_⟩
    rw [State.keepStream_sound (by rw [hread, hl]) hok] at hx
    obtain ⟨y, -, -, rfl⟩ := State.mem_modCmd hx hk
    rfl
  · refine ⟨State.nvBegin_pevict_resident hop hres hpatch hmap, (State.nvBegin_stores s c).1, fun x hx hk => ?_⟩
    rw [State.nvBegin_pevict hop hres hmap] at hx
    obtain ⟨y, -, -, rfl⟩ := State.mem_modCmd hx hk
    rfl

end Sys2Proof.Machine
end

