-- ==== Sys2Proof/Proofs/StorePatches.lean ====
section
/-! The installing of patches at a member: what it shows in registers, what it writes of T1, and what it keeps of the store. -/

namespace Sys2Proof.Machine

/-- A field holds no key that lies before its first. -/
theorem Field.holds_of_after {f : Field} {k : Nat} (h : k < f.key 0) : f.holds k = false := by
  simp [Field.holds, Nat.not_le.mpr h]

namespace State

variable {s : State}

/-! ### The fields that place the patch slots in T1 stay as they are (R262) -/

/-- The fields that place the patch slots in T1. -/
def patchArea : List Field := [Reg.NVS_PATCHCFG.base, Reg.NVS_PATCHCFG.slot_mib]

/-- The fields in which reads of the store show, beside those of a report (R235). -/
def readShown : List Field := [Reg.NVS_ECCCNT.count, Reg.NVS_ECCCNT.sat, Reg.NVS_UCCNT.count, Reg.NVS_UCCNT.sat, Reg.NVS_EVT.uc]

theorem patchArea_shape : ∀ f ∈ patchArea, f.quiet = true ∧ f.stride = 0 ∧ 8 * 0x1400000 ≤ f.key 0 ∧ f.key 0 < 8 * 0x1401000 ∧
    topFault.all (fun g => !f.holds (g.key 0)) = true ∧ ∀ g ∈ readShown, f.holds (g.key 0) = false := by decide

section

variable {f : Field} (hf : f ∈ patchArea)
include hf

/-- A counter that lies before the NVS block leaves the patch area where it is. -/
theorem count_patchArea {g : Field} {j : Nat} (hg : g.offset + g.stride * j < 0x13FFF00) (hlow : g.low < 64) (s : State) (n : Nat) :
    (s.count g n j).fld f = s.fld f := by
  obtain ⟨hquiet, -, hlo, -⟩ := patchArea_shape f hf
  refine count_fld _ _ _ _ hquiet (Field.holds_of_after ?_) (Field.holds_of_after ?_)
  · simp only [Field.key] at hlo ⊢
    omega
  · simp only [Field.key] at hlo ⊢
    omega

theorem countLate_patchArea {tier : Nat} (ht : tier ≤ 3) (s : State) (waits : List (Nat × Nat)) :
    (s.countLate waits tier).fld f = s.fld f := by
  obtain ⟨hquiet, -, hlo, -⟩ := patchArea_shape f hf
  unfold countLate
  split
  · rfl
  · rw [report_fld _ _ _ _ _ _ hquiet, raise_fld _ _ _ hquiet (Field.holds_of_after (lt_of_lt_of_le (by decide) hlo)),
      count_patchArea hf (by simp only [Reg.MEM_LATECNT.count]; omega) (by decide)]

theorem chargeBeats_patchArea (s : State) (beats : List (Nat × List (Nat × Nat))) : (s.chargeBeats beats).fld f = s.fld f := by
  have waits (s : State) (ws : List (Nat × Nat)) : (s.chargeWaits ws).fld f = s.fld f := by
    refine foldl_keep (State.fld · f) _ (fun s w => ?_) ws s
    show State.fld (ite _ _ _) f = _
    split
    · exact count_patchArea hf (by simp only [Reg.MEM_STALLNS.count]; omega) (by decide) s w.2
    · rfl
  have learn (s : State) (ws : List (Nat × Nat)) (tier : Nat) (ht : tier ≤ 3) : (s.learnWait ws tier).fld f = s.fld f := by
    unfold learnWait
    simp only []
    split
    · rfl
    · exact countLate_patchArea hf ht s ws
  refine foldl_keep (State.fld · f) _ (fun s b => ?_) beats s
  show State.fld (ite _ _ _) f = _
  split
  · exact (learn _ _ _ ‹_›).trans (waits _ _)
  · rfl

theorem nvRead_patchArea (s : State) (r : NvsReport) : (s.nvRead r).fld f = s.fld f := by
  obtain ⟨hquiet, -, -, -, -, hread⟩ := patchArea_shape f hf
  have hcount : (s.count Reg.NVS_ECCCNT.count r.corrected).fld f = s.fld f :=
    count_fld _ _ _ _ hquiet (hread Reg.NVS_ECCCNT.count (by decide)) (hread Reg.NVS_ECCCNT.sat (by decide))
  have hcharged := (chargeBeats_patchArea hf _ r.beats).trans hcount
  unfold nvRead
  simp only []
  split
  · exact hcharged
  · exact hcharged

theorem nvFetch_patchArea (s : State) (u n : Nat) : (s.nvFetch u n).2.fld f = s.fld f := by
  obtain ⟨hquiet, hone, -, hlt, htop, hread⟩ := patchArea_shape f hf
  unfold nvFetch
  simp only []
  split
  · rfl
  · unfold nvLost nvEvt
    rw [recordFault_fld_before_units _ _ _ _ hquiet htop hone ⟨hlt.trans (by decide), hlt.trans (by decide)⟩,
      raise_fld _ _ _ hquiet (hread Reg.NVS_EVT.uc (by decide)),
      count_fld _ _ _ _ hquiet (hread Reg.NVS_UCCNT.count (by decide)) (hread Reg.NVS_UCCNT.sat (by decide))]
    rfl

end

/-! ### The steps of an install at a member (R263) -/

/-- The slot of one patch is loading, and what it held is no longer mapped. -/
def prepareSlot (s : State) (x : (Nat × Nat) × Nat) : State :=
  let s := if s.patchState x.2 = 2 then s.unmapPatch (s.fld Reg.NVS_PATCHSLOT.patch x.2) else s
  (s.setFld Reg.NVS_PATCHSLOT.state 1 x.2).setFld Reg.NVS_PATCHSLOT.patch x.1.1 x.2

/-- The slots of an install are loading. -/
def prepareSlots (s : State) (report : NvsReport) (xs : List ((Nat × Nat) × Nat)) : State :=
  (xs.foldl prepareSlot (s.nvRead report)).remeasure s

/-- The patches of an install whose slots lie in the patch area, each with its slot. -/
def installPairs (s : State) (entries : List (Nat × Nat × Nat)) : List ((Nat × Nat) × Nat) :=
  (entries.filter fun e => decide (e.2.2 < s.fld Reg.NVS_PATCHCFG.slots)).map fun e => ((e.1, e.2.1), e.2.2)

/-- Whether every patch of an install went well. -/
def installsAll (s : State) (report : NvsReport) (entries : List (Nat × Nat × Nat)) : Bool :=
  ((s.prepareSlots report (s.installPairs entries)).loadPatches (s.installPairs entries)).1 && (s.installPairs entries).length == entries.length

/-- The patches of an install stand in their slots, or the slots are free. -/
def installHere (s : State) (report : NvsReport) (entries : List (Nat × Nat × Nat)) : State :=
  let t := ((s.prepareSlots report (s.installPairs entries)).loadPatches (s.installPairs entries)).2
  if s.installsAll report entries then t.install (s.installPairs entries) else (s.installPairs entries).foldl (fun s x => s.freeSlot x.2) t

/-- A fresh install of another module is carried out and replied to. -/
theorem execPatchInstallReceive_taken {hd : PacketHead} {v : Seen} {number : Nat} {entries : List (Nat × Nat × Nat)} {report : NvsReport}
    (h : s.Fresh hd v) (hother : hd.source ≠ s.fld Reg.FAB_EPID.ep) (hfull : s.apron = false) (hready : s.flag Reg.NVS_STATUS.ready = true) :
    execPatchInstallReceive hd number entries report s = .next ((((s.taken hd v).installHere report entries).sendEngine 6 hd.source 0x14
      (lineOf [(0, 1, if (s.taken hd v).installsAll report entries then 3 else 4), (4, 4, number)])).answer hd 0x80 0) :=
  congrArg Host.Outcome.next (engineTake_fresh h _ _ (by simp [hother, hfull, hready]))

/-- A reply of an engine shows in no quiet field but the event of a refused packet. -/
theorem sendEngine_fld {f : Field} (hf : f.quiet = true) (hevt : f.holds (Reg.FAB_OPEVT.refused_out.key 0) = false) (s : State)
    (unit dst ptype : Nat) (payload : List Byte) (job i : Nat) : (s.sendEngine unit dst ptype payload job).fld f i = s.fld f i := by
  by_cases hreach : s.engineReach dst false = true
  · exact fld_congr (sendEngine_regs _ _ _ _ _ _ hreach) f i
  · unfold sendEngine refusedOut
    rw [if_neg hreach]
    split
    · exact raise_fld _ _ _ hf hevt
    · rfl

theorem answer_regs (s : State) (hd : PacketHead) (type reason : Nat) : (s.answer hd type reason).regs = s.regs := by
  unfold answer
  split
  · rfl
  · exact sendResponse_regs _ _ _ _ _ _ _ _ _

/-- What a member shows once it has replied to an install is what the install shows. -/
theorem replied_fld {f : Field} (hf : f.quiet = true) (hevt : f.holds (Reg.FAB_OPEVT.refused_out.key 0) = false) (s : State) (hd : PacketHead)
    (payload : List Byte) (i : Nat) : ((s.sendEngine 6 hd.source 0x14 payload).answer hd 0x80 0).fld f i = s.fld f i :=
  (fld_congr (answer_regs _ _ _ _) f i).trans (sendEngine_fld hf hevt _ _ _ _ _ _ _)

/-! ### What an install keeps of the store -/

theorem freeSlot_nvs (s : State) (i : Nat) : (s.freeSlot i).nvs = s.nvs := rfl

theorem retireSlot_nvs (s : State) (i : Nat) : (s.retireSlot i).nvs = s.nvs := by
  unfold retireSlot settleSlot
  split <;> rfl

theorem prepareSlot_stores (s : State) (x : (Nat × Nat) × Nat) : (s.prepareSlot x).mem = s.mem ∧ (s.prepareSlot x).stack = s.stack := by
  simp only [prepareSlot]
  split <;> exact ⟨rfl, rfl⟩

theorem prepareSlots_stores (s : State) (report : NvsReport) (xs : List ((Nat × Nat) × Nat)) :
    (s.prepareSlots report xs).mem = s.mem ∧ (s.prepareSlots report xs).stack = s.stack := by
  obtain ⟨hmem, hstack⟩ := foldl_stores prepareSlot xs (s.nvRead report) prepareSlot_stores
  obtain ⟨hmem', hstack'⟩ := nvRead_stores s report
  exact ⟨hmem.trans hmem', hstack.trans hstack'⟩

theorem prepareSlot_nvs (s : State) (x : (Nat × Nat) × Nat) : (s.prepareSlot x).nvs = s.nvs := by
  simp only [prepareSlot]
  split <;> rfl

theorem prepareSlots_cur (s : State) (report : NvsReport) (xs : List ((Nat × Nat) × Nat)) :
    (s.prepareSlots report xs).nvs.cur = s.nvs.cur := by
  have hfold : (xs.foldl prepareSlot (s.nvRead report)).nvs = (s.nvRead report).nvs := foldl_keep State.nvs _ prepareSlot_nvs xs _
  rw [prepareSlots, remeasure_cur, hfold, nvRead_cur]

theorem loadPatch_cur (s : State) (p v slot : Nat) : (s.loadPatch p v slot).2.nvs.cur = s.nvs.cur := by
  unfold loadPatch
  split
  · rfl
  · simp only []
    split
    · exact nvFetch_cur _ _ _
    · exact (congrArg Nvs.cur (t1Put_nvs _ _ _)).trans (nvFetch_cur _ _ _)

/-- One patch of an install after those before it. -/
def loadNext (x : Bool × State) (y : (Nat × Nat) × Nat) : Bool × State :=
  (x.1 && (x.2.loadPatch y.1.1 y.1.2 y.2).1, (x.2.loadPatch y.1.1 y.1.2 y.2).2)

theorem loadPatches_eq (s : State) (xs : List ((Nat × Nat) × Nat)) : s.loadPatches xs = xs.foldl loadNext (true, s) := rfl

theorem loadPatches_cur (s : State) (xs : List ((Nat × Nat) × Nat)) : (s.loadPatches xs).2.nvs.cur = s.nvs.cur := by
  have fold (x : Bool × State) : (xs.foldl loadNext x).2.nvs.cur = x.2.nvs.cur := by
    induction xs generalizing x with
    | nil => rfl
    | cons y ys ih => exact (ih _).trans (loadPatch_cur _ _ _ _)
  exact fold (true, s)

/-- One patch becomes resident in its slot, and the map names it (R264). -/
def installOne (stamp : Nat) (s : State) (x : (Nat × Nat) × Nat) : State :=
  let u := if s.flag Reg.NVS_PATCHMAP.resident x.1.1 then s.retireSlot (s.fld Reg.NVS_PATCHMAP.slot x.1.1) else s
  let u := ((u.setFld Reg.NVS_PATCHSLOT.state 2 x.2).setFld Reg.NVS_PATCHSLOT.stamp stamp x.2).setFld Reg.NVS_PATCHSLOT.use 0 x.2
  ((u.setFld Reg.NVS_PATCHMAP.slot x.2 x.1.1).setFld Reg.NVS_PATCHMAP.version x.1.2 x.1.1).setFld Reg.NVS_PATCHMAP.resident 1 x.1.1

/-- An install gives its patches one new stamp. -/
theorem install_eq (s : State) (xs : List ((Nat × Nat) × Nat)) : s.install xs =
    (xs.foldl (installOne ((s.nvs.stamp + 1) % 2 ^ 32)) (s.modNvs fun v => { v with stamp := (s.nvs.stamp + 1) % 2 ^ 32 })).remeasure s := rfl

theorem installOne_nvs (stamp : Nat) (s : State) (x : (Nat × Nat) × Nat) : (installOne stamp s x).nvs = s.nvs := by
  simp only [installOne]
  split
  · exact retireSlot_nvs _ _
  · rfl

theorem install_cur (s : State) (xs : List ((Nat × Nat) × Nat)) : (s.install xs).nvs.cur = s.nvs.cur := by
  have hfold := foldl_keep State.nvs _ (installOne_nvs ((s.nvs.stamp + 1) % 2 ^ 32)) xs
    (s.modNvs fun v => { v with stamp := (s.nvs.stamp + 1) % 2 ^ 32 })
  rw [install_eq, remeasure_cur, hfold]
  rfl

/-- An install leaves the directory and the map as they are. -/
theorem installHere_cur (s : State) (report : NvsReport) (entries : List (Nat × Nat × Nat)) :
    (s.installHere report entries).nvs.cur = s.nvs.cur := by
  have hload := (loadPatches_cur (s.prepareSlots report (s.installPairs entries)) (s.installPairs entries)).trans (prepareSlots_cur _ _ _)
  unfold installHere
  simp only []
  split
  · exact (install_cur _ _).trans hload
  · exact (congrArg Nvs.cur (foldl_keep State.nvs _ (fun s (x : (Nat × Nat) × Nat) => freeSlot_nvs s x.2) _ _)).trans hload

/-! ### What an install writes of T1 -/

theorem prepareSlots_patchArea {f : Field} (hf : f ∈ patchArea) (s : State) (report : NvsReport) (xs : List ((Nat × Nat) × Nat)) :
    (s.prepareSlots report xs).fld f = s.fld f := by
  obtain ⟨-, -, -, hlt, -⟩ := patchArea_shape f hf
  have one (s : State) (x : (Nat × Nat) × Nat) : (s.prepareSlot x).fld f = s.fld f := by
    have hunmap (p : Nat) : (s.unmapPatch p).fld f = s.fld f := by
      unfold unmapPatch
      rw [fld_setFld_ne, fld_setFld_ne, fld_setFld_ne]
      all_goals
        simp only [Field.key, Reg.NVS_PATCHMAP.resident, Reg.NVS_PATCHMAP.version, Reg.NVS_PATCHMAP.slot] at hlt ⊢
        omega
    simp only [prepareSlot]
    rw [fld_setFld_ne _ _ _ _ _ _ (by simp only [Field.key, Reg.NVS_PATCHSLOT.patch] at hlt ⊢; omega),
      fld_setFld_ne _ _ _ _ _ _ (by simp only [Field.key, Reg.NVS_PATCHSLOT.state] at hlt ⊢; omega)]
    split
    · exact hunmap _
    · rfl
  exact (foldl_keep (State.fld · f) _ one xs _).trans (nvRead_patchArea hf s report)

/-- The patch slots of `t` lie where those of `s` do, and are as long. -/
def SameArea (s t : State) : Prop := ∀ f ∈ patchArea, t.fld f = s.fld f

theorem SameArea.patchAt {t : State} (h : s.SameArea t) (i : Nat) : t.patchAt i = s.patchAt i := by
  unfold State.patchAt
  rw [h Reg.NVS_PATCHCFG.base (by decide), h Reg.NVS_PATCHCFG.slot_mib (by decide)]

theorem length_shardBytes (s : State) (h : Shard) : (s.shardBytes h).length ≤ h.length := List.length_take_le _ _

/-- Bytes of a patch slot. -/
def slotBytes (s : State) : Nat := s.fld Reg.NVS_PATCHCFG.slot_mib * 2 ^ 20

/-- The T1 offset `b` lies outside a patch slot. -/
def OutsideSlot (s : State) (b i : Nat) : Prop := b < s.patchAt i ∨ s.patchAt i + s.slotBytes ≤ b

theorem SameArea.outside {t : State} (h : s.SameArea t) {b i : Nat} (hb : s.OutsideSlot b i) : t.OutsideSlot b i := by
  unfold OutsideSlot slotBytes at *
  rwa [h.patchAt, h Reg.NVS_PATCHCFG.slot_mib (by decide)]

theorem loadPatch_area (s : State) (p v slot : Nat) : s.SameArea (s.loadPatch p v slot).2 := by
  intro f hf
  unfold loadPatch
  split
  · rfl
  · simp only []
    split
    · exact nvFetch_patchArea hf _ _ _
    · exact (fld_congr (t1Put_regs _ _ _) f 0).trans (nvFetch_patchArea hf _ _ _)

/-- A patch is written into its own slot. -/
theorem loadPatch_outside {p v slot b : Nat} (hb : s.OutsideSlot b slot) :
    Table.get 0 (s.loadPatch p v slot).2.mem.t1 b = Table.get 0 s.mem.t1 b := by
  unfold loadPatch
  split
  · rfl
  · next h _ =>
    have harea : s.SameArea (s.nvFetch h.base h.length).2 := fun f hf => nvFetch_patchArea hf s _ _
    have hmib := harea Reg.NVS_PATCHCFG.slot_mib (by decide)
    simp only []
    split
    · rw [(nvFetch_stores _ _ _).1]
    · next hfit =>
      simp only [Bool.or_eq_true, decide_eq_true_eq, not_or, Nat.not_lt, hmib] at hfit
      rw [t1Put_mem, harea.patchAt]
      refine (get_writeBytes_ne _ _ _ _ ?_).trans (by rw [(nvFetch_stores _ _ _).1])
      exact hb.imp id fun hge => (Nat.add_le_add_left ((length_shardBytes _ h).trans hfit.1.2) _).trans hge

theorem loadPatches_outside {xs : List ((Nat × Nat) × Nat)} {b : Nat} (hb : ∀ x ∈ xs, s.OutsideSlot b x.2) :
    Table.get 0 (s.loadPatches xs).2.mem.t1 b = Table.get 0 s.mem.t1 b := by
  have fold (x : Bool × State) (harea : s.SameArea x.2) : Table.get 0 (xs.foldl loadNext x).2.mem.t1 b = Table.get 0 x.2.mem.t1 b := by
    induction xs generalizing x with
    | nil => rfl
    | cons y ys ih =>
      rw [List.forall_mem_cons] at hb
      exact (ih hb.2 (loadNext x y) fun f hf => (loadPatch_area _ _ _ _ f hf).trans (harea f hf)).trans
        (loadPatch_outside (harea.outside hb.1))
  exact fold (true, s) fun _ _ => rfl

/-- An install writes T1 in the slots it names only. -/
theorem installHere_outside {report : NvsReport} {entries : List (Nat × Nat × Nat)} {b : Nat} (hb : ∀ e ∈ entries, s.OutsideSlot b e.2.2) :
    Table.get 0 (s.installHere report entries).mem.t1 b = Table.get 0 s.mem.t1 b := by
  have hpairs : ∀ x ∈ s.installPairs entries, (s.prepareSlots report (s.installPairs entries)).OutsideSlot b x.2 := by
    intro x hx
    obtain ⟨e, he, rfl⟩ := List.mem_map.mp hx
    have harea : s.SameArea (s.prepareSlots report (s.installPairs entries)) := fun f hf => prepareSlots_patchArea hf s _ _
    exact harea.outside (hb e (List.mem_filter.mp he).1)
  have hload := loadPatches_outside hpairs
  rw [(prepareSlots_stores _ _ _).1] at hload
  unfold installHere
  simp only []
  split
  · rw [(install_stores _ _).1, hload]
  · rw [(foldl_stores _ _ _ fun s (x : (Nat × Nat) × Nat) => freeSlot_stores s x.2).1, hload]

/-! ### The install of one patch -/

section

variable {p ver slot : Nat}

theorem installPairs_single (h : slot < s.fld Reg.NVS_PATCHCFG.slots) : s.installPairs [(p, ver, slot)] = [((p, ver), slot)] := by
  simp [installPairs, h]

/-- A patch that is not in the store leaves its slot free. -/
theorem installHere_absent {report : NvsReport} (h : slot < s.fld Reg.NVS_PATCHCFG.slots) (hnone : s.patchShard p ver = none) :
    (s.installHere report [(p, ver, slot)]).patchState slot = 0 := by
  have hload : (s.prepareSlots report [((p, ver), slot)]).loadPatches [((p, ver), slot)] = (false, s.prepareSlots report [((p, ver), slot)]) := by
    simp only [loadPatches_eq, List.foldl_cons, List.foldl_nil, loadNext, loadPatch,
      patchShard_congr (prepareSlots_cur s report [((p, ver), slot)]), hnone, Bool.and_false]
  simp only [installHere, installsAll, installPairs_single h, hload, Bool.false_and, Bool.false_eq_true, if_false, List.foldl_cons, List.foldl_nil]
  exact (fld_setFld_ne _ _ _ _ _ _ (by simp only [Field.key, Reg.NVS_PATCHSLOT.state, Reg.NVS_PATCHSLOT.patch]; omega)).trans
    (fld_setFld_zero _ _ _)

/-- The shards stand as they did once the slots are loading, where no unit was lost on the way. -/
theorem prepareSlots_data {report : NvsReport} (hr : report.uncorrectable = none) (s : State) (xs : List ((Nat × Nat) × Nat)) (h : Shard) :
    (s.prepareSlots report xs).nvs.firstLost h.base h.length = s.nvs.firstLost h.base h.length ∧
      (s.prepareSlots report xs).digestOk h = s.digestOk h := by
  have hfold : (xs.foldl prepareSlot (s.nvRead report)).nvs = s.nvs :=
    (foldl_keep State.nvs _ prepareSlot_nvs xs _).trans (nvRead_nvs_of_none hr s)
  have hlost : (s.prepareSlots report xs).nvs.firstLost h.base h.length =
    (xs.foldl prepareSlot (s.nvRead report)).nvs.firstLost h.base h.length := rfl
  have hok : (s.prepareSlots report xs).digestOk h = (xs.foldl prepareSlot (s.nvRead report)).digestOk h := rfl
  exact ⟨hlost.trans (by rw [hfold]), hok.trans (digestOk_congr (shardBytes_congr hfold h))⟩

/-- A sound shard that fits its slot loads well. -/
theorem loadPatch_sound {h : Shard} (hs : s.patchShard p ver = some h) (hbad : h.bad = false) (hfit : h.length ≤ s.slotBytes)
    (hl : s.nvs.firstLost h.base h.length = none) (hd : s.digestOk h = true) : (s.loadPatch p ver slot).1 = true := by
  have hmib := nvFetch_patchArea (f := Reg.NVS_PATCHCFG.slot_mib) (by decide) s h.base h.length
  have hfit' : ¬ s.fld Reg.NVS_PATCHCFG.slot_mib * 2 ^ 20 < h.length := Nat.not_lt.mpr hfit
  simp only [loadPatch, hs, hmib, hbad, nvFetch_fst, hl, hfit', nvFetch_digestOk, hd, Option.isSome_none, decide_false, Bool.or_self,
    Bool.false_eq_true, if_false]

/-- A patch installed is resident in its slot, and the map names it. -/
theorem installOne_shown (hslot : slot < 256) (hp : p < 256) (stamp : Nat) (s : State) :
    (installOne stamp s ((p, ver), slot)).patchState slot = 2 ∧
      (installOne stamp s ((p, ver), slot)).flag Reg.NVS_PATCHMAP.resident p = true ∧
      (installOne stamp s ((p, ver), slot)).fld Reg.NVS_PATCHMAP.slot p = slot := by
  simp only [installOne, patchState]
  refine ⟨?_, flag_setFld_one _ _ _ hp (by decide), ?_⟩
  · rw [fld_setFld_ne, fld_setFld_ne, fld_setFld_ne, fld_setFld_ne, fld_setFld_ne, fld_setFld_same _ _ _ _ hslot]
    · rfl
    all_goals
      simp only [Field.key, Reg.NVS_PATCHSLOT.state, Reg.NVS_PATCHSLOT.use, Reg.NVS_PATCHSLOT.stamp, Reg.NVS_PATCHMAP.slot,
        Reg.NVS_PATCHMAP.version, Reg.NVS_PATCHMAP.resident]
      omega
  · rw [fld_setFld_ne, fld_setFld_ne, fld_setFld_same _ _ _ _ hp]
    · exact Nat.mod_eq_of_lt hslot
    all_goals
      simp only [Field.key, Reg.NVS_PATCHMAP.slot, Reg.NVS_PATCHMAP.version, Reg.NVS_PATCHMAP.resident]
      omega

/-- The install of one sound patch that fits its slot makes it resident there. -/
theorem installHere_resident {report : NvsReport} {h : Shard} (hslots : slot < s.fld Reg.NVS_PATCHCFG.slots) (hslot : slot < 256) (hp : p < 256)
    (hs : s.patchShard p ver = some h) (hbad : h.bad = false) (hfit : h.length ≤ s.slotBytes) (hr : report.uncorrectable = none)
    (hl : s.nvs.firstLost h.base h.length = none) (hd : s.digestOk h = true) :
    (s.installHere report [(p, ver, slot)]).patchState slot = 2 ∧
      (s.installHere report [(p, ver, slot)]).flag Reg.NVS_PATCHMAP.resident p = true ∧
      (s.installHere report [(p, ver, slot)]).fld Reg.NVS_PATCHMAP.slot p = slot := by
  obtain ⟨hlost, hok⟩ := prepareSlots_data hr s [((p, ver), slot)] h
  have hmib := prepareSlots_patchArea (f := Reg.NVS_PATCHCFG.slot_mib) (by decide) s report [((p, ver), slot)]
  have hload : ((s.prepareSlots report [((p, ver), slot)]).loadPatches [((p, ver), slot)]).1 = true := by
    simp only [loadPatches_eq, List.foldl_cons, List.foldl_nil, loadNext, Bool.true_and]
    exact loadPatch_sound ((patchShard_congr (prepareSlots_cur _ _ _) _ _).trans hs) hbad (by rwa [slotBytes, hmib]) (hlost.trans hl)
      (hok.trans hd)
  have hall : s.installsAll report [(p, ver, slot)] = true := by simp [installsAll, installPairs_single hslots, hload]
  have hhere : s.installHere report [(p, ver, slot)] =
      ((s.prepareSlots report [((p, ver), slot)]).loadPatches [((p, ver), slot)]).2.install [((p, ver), slot)] := by
    simp only [installHere, hall, if_true, installPairs_single hslots]
  rw [hhere, install_eq, patchState, remeasure_fld, remeasure_flag, remeasure_fld, List.foldl_cons, List.foldl_nil]
  exact installOne_shown hslot hp _ _

end

end State
end Sys2Proof.Machine
end

