-- ==== Sys2Proof/Proofs/StoreKeepers.lean ====
section
/-! Chunks, markers and repairs between keepers, and the installing of patches (O27). -/

namespace Sys2Proof.Machine.State

variable {s : State} {hd : PacketHead} {v : Seen} {c : NvCmd} {shard chunk : Nat}

/-! ### Chunks (R253, R424) -/

/-- A fresh packet of a chunk still missing brings its lines, and with the last of them the chunk. -/
theorem execKeeperChunkReceive_gathers {first : Nat} {bytes : List Byte} {got : Option (List Byte) × State} (h : s.Fresh hd v)
    (hc : s.receiving shard = some c) (hchunk : chunk < shardChunks c.length) (hnew : chunk ∉ c.chunks)
    (hgot : got = (s.taken hd v).gather hd.source 0x17 [shard, chunk] 1024 first bytes) :
    execKeeperChunkReceive hd shard chunk ⟨first, bytes⟩ s =
      .next ((got.1.elim got.2 fun bs => got.2.takeChunk c chunk bs).answer hd 0x80 0) := by
  have hc' : (s.taken hd v).receiving shard = some c := hc
  refine congrArg Host.Outcome.next ((engineTake_fresh h _ _ (by simp [hc])).trans ?_)
  simp only [hc', Nat.not_le.mpr hchunk, List.contains_eq_mem, hnew, decide_false, false_or, Bool.false_eq_true, if_false, ← hgot]
  cases got.1 <;> rfl

/-- A chunk is programmed into its command's run, and is one of those the command holds. -/
def holdChunk (s : State) (c : NvCmd) (chunk : Nat) (bs : List Byte) : State :=
  let s := s.modCmd c.key fun c => { c with chunks := c.chunks ++ [chunk] }
  (c.run.map fun g => s.modNvs fun v => v.programAll (g * 2 ^ 27 + 65536 * chunk) 16 bs).getD s

theorem takeChunk_eq (s : State) (c : NvCmd) (chunk : Nat) (bs : List Byte) : s.takeChunk c chunk bs =
    if c.addr = 0 then s.holdChunk c chunk bs else (s.holdChunk c chunk bs).t1Put (c.addr - Store.t1.base + 65536 * chunk) bs := rfl

theorem holdChunk_mem (s : State) (c : NvCmd) (chunk : Nat) (bs : List Byte) : (s.holdChunk c chunk bs).mem = s.mem := by
  unfold holdChunk
  rw [getD_mem _ _ _ fun g => (modNvs_stores _ _).1, (modCmd_stores _ _ _).1]

theorem holdChunk_cmds (s : State) (c : NvCmd) (chunk : Nat) (bs : List Byte) :
    (s.holdChunk c chunk bs).nvs.cmds = (s.modCmd c.key fun c => { c with chunks := c.chunks ++ [chunk] }).nvs.cmds := by
  unfold holdChunk
  cases c.run with
  | none => rfl
  | some g => exact Nvs.programAll_cmds _ _ _ _

/-- A chunk taken is one of those its command holds. -/
theorem takeChunk_chunks (s : State) (c : NvCmd) (chunk : Nat) (bs : List Byte) :
    ∀ x ∈ (s.takeChunk c chunk bs).nvs.cmds, x.key = c.key → chunk ∈ x.chunks := by
  have hcmds : (s.takeChunk c chunk bs).nvs.cmds = (s.holdChunk c chunk bs).nvs.cmds := by
    rw [takeChunk_eq]
    split
    · rfl
    · rw [t1Put_nvs]
  intro x hx hk
  rw [hcmds, holdChunk_cmds] at hx
  obtain ⟨y, -, -, rfl⟩ := mem_modCmd hx hk
  simp

/-- A chunk of a command without a target leaves memory alone. -/
theorem takeChunk_mem (h : c.addr = 0) (s : State) (chunk : Nat) (bs : List Byte) : (s.takeChunk c chunk bs).mem = s.mem := by
  rw [takeChunk_eq, if_pos h, holdChunk_mem]

/-- A chunk of a command with a target is stored there. -/
theorem takeChunk_target (h : c.addr ≠ 0) (s : State) (chunk : Nat) (bs : List Byte) : (s.takeChunk c chunk bs).mem =
    { s.mem with t1 := writeBytes s.mem.t1 (c.addr - Store.t1.base + 65536 * chunk) bs } := by
  rw [takeChunk_eq, if_neg h, t1Put_mem, holdChunk_mem]

/-! ### Markers (R253) -/

/-- A fresh marker of a RECV in progress ends it, closes a round, or asks for what is missing. -/
theorem execKeeperMarkerReceive_taken {kind sent : Nat} (h : s.Fresh hd v) (hc : s.receiving shard = some c) :
    execKeeperMarkerReceive hd shard kind sent s = .next ((
      if kind ≠ 0 ∨ sent < shardChunks c.length then (s.taken hd v).failRecv c 0x0B
      else if c.missing.isEmpty then (s.taken hd v).modCmd c.key fun c => { c with rounds := c.rounds + 1 }
      else if 3 ≤ c.rounds then (s.taken hd v).failRecv c 0x0B
      else ((s.taken hd v).modCmd c.key fun c => { c with rounds := c.rounds + 1 }).sendRepairs hd.source shard c.missing.length c.missing).answer
        hd 0x80 0) := by
  have hc' : (s.taken hd v).receiving shard = some c := hc
  refine congrArg Host.Outcome.next ((engineTake_fresh h _ _ (by simp [hc])).trans ?_)
  simp only [hc']

/-! ### Repairs (R252) -/

/-- The KEEP in progress of a shard that has begun its first round. -/
def keeping (s : State) (shard : Nat) : Option NvCmd :=
  s.nvs.cmds.find? fun c => c.op == 5 && c.shard == shard && c.rounds != 0 && c.result.isNone

/-- The chunks a repair asks for have been read from the store. -/
def fetchChunks (s : State) (h : Shard) (ks : List Nat) : State := ks.foldl (fun s k => (s.nvFetch (h.base + 65536 * k) 65536).2) s

/-- A keeper answers a fresh repair request with the chunks it can read and an end marker. -/
theorem execRepairRequestReceive_taken {chunks ks : List Nat} {h : Shard} {u : State} (hf : s.Fresh hd v) (hc : s.keeping shard = some c)
    (hs : s.shard? shard = some h) (hks : ks = chunks.filter fun k => decide (k < shardChunks h.length)) (hu : u = (s.taken hd v).fetchChunks h ks) :
    execRepairRequestReceive hd shard chunks s = .next (((u.sendChunks c h (ks.filter fun k =>
      (u.nvs.firstLost (h.base + 65536 * k) 65536).isNone)).sendEngine 6 hd.source 0x18 (markerLine shard 0 (shardChunks h.length))).answer
        hd 0x80 0) := by
  subst hks hu
  unfold keeping at hc
  have hc' : ((s.taken hd v).nvs.cmds.find? fun c => c.op == 5 && c.shard == shard && c.rounds != 0 && c.result.isNone) = some c := hc
  have hs' : (s.taken hd v).shard? shard = some h := hs
  refine congrArg Host.Outcome.next ((engineTake_fresh hf _ _ (by simp [hc])).trans ?_)
  simp only [hc', hs']
  rfl

/-! ### The waits -/

/-- A RECV that fails has its result, whatever becomes of its run. -/
theorem failRecv_result (s : State) (c : NvCmd) (status : Nat) :
    ∀ x ∈ (s.failRecv c status).nvs.cmds, x.key = c.key → x.result = some (status, 65536 * c.chunks.length) := by
  unfold failRecv
  exact nvDecide_result _ _ _ _

theorem execKeepRepairPeriodEnd_keeping {key : Nat}
    (hc : (s.nvs.cmds.find? fun c => c.key == key && c.op == 5 && c.rounds != 0 && c.result.isNone) = some c) :
    execKeepRepairPeriodEnd key s = .next (s.nvDecide c 0 (((s.shard? c.shard).map (·.length)).getD 0)) := by
  simp only [execKeepRepairPeriodEnd, hc]

theorem execRecvIdleTimeout_receiving {key : Nat}
    (hc : (s.nvs.cmds.find? fun c => c.key == key && c.op == 6 && c.started && c.result.isNone) = some c) :
    execRecvIdleTimeout key s = .next (s.failRecv c 0x0B) := by
  simp only [execRecvIdleTimeout, hc]

theorem execPloadReplyTimeout_placed
    (hc : (s.nvs.cmds.find? fun c => c.op == 7 && c.started && c.result.isNone && !c.slots.isEmpty) = some c) :
    execPloadReplyTimeout s = .next (s.failPload c 0x0D).nvSettle := by
  simp only [execPloadReplyTimeout, hc]

theorem execPloadEvictTimeout_waiting
    (hc : (s.nvs.cmds.find? fun c => c.op == 7 && c.started && c.result.isNone && c.slots.isEmpty) = some c) :
    execPloadEvictTimeout s = .next (s.nvDecide c 0x0C 0).nvSettle := by
  simp only [execPloadEvictTimeout, hc]

end Sys2Proof.Machine.State

namespace Sys2Proof.Machine

/-- Settles O27: each packet of a keeper, each wait, and the install of a member. -/
theorem nvsKeepersAndPatches : Obligations.NvsKeepersAndPatches := by
  unfold Obligations.NvsKeepersAndPatches
  refine ⟨fun s hd shard chunk first bytes v c u hf hc hchunk hnew => ⟨fun bs hgot => ?_, fun hgot => ?_⟩,
    fun s c chunk bs => ⟨s.takeChunk_chunks c chunk bs, fun h => State.takeChunk_mem h s chunk bs, fun h => ⟨?_, fun b hb => ?_⟩⟩,
    fun s hd shard kind sent v c hf hc => ?_, fun s c status => s.failRecv_result c status,
    fun s hd shard chunks v c h u ks hf hc hs hks hu => State.execRepairRequestReceive_taken hf hc hs hks hu,
    fun s key c hc => State.execKeepRepairPeriodEnd_keeping hc, fun s key c hc => State.execRecvIdleTimeout_receiving hc,
    fun s hd number entries report v hf hother hfull hready => ?_, fun s c hc => State.execPloadReplyTimeout_placed hc,
    fun s c hc => State.execPloadEvictTimeout_waiting hc⟩
  · exact (State.execKeeperChunkReceive_gathers hf hc hchunk hnew hgot :)
  · exact (State.execKeeperChunkReceive_gathers hf hc hchunk hnew hgot :)
  · rw [State.t1Get, State.takeChunk_target h]
    exact readBytes_writeBytes _ _ _
  · rw [State.takeChunk_target h]
    exact get_writeBytes_ne _ _ _ _ hb
  · have hmark := State.execKeeperMarkerReceive_taken (kind := kind) (sent := sent) hf hc
    refine ⟨fun hend => ?_, fun hk hsent hnone => ?_, fun hk hsent hsome hrounds => ?_, fun hk hsent hsome hrounds => ?_⟩
    · exact hmark.trans (by rw [if_pos hend])
    · exact hmark.trans (by simp [hk, Nat.not_lt.mpr hsent, hnone])
    · exact hmark.trans (by simp [hk, Nat.not_lt.mpr hsent, hsome, hrounds])
    · exact hmark.trans (by simp [hk, Nat.not_lt.mpr hsent, hsome, Nat.not_le.mpr hrounds])
  · refine ⟨_, State.execPatchInstallReceive_taken hf hother hfull hready, ?_, fun b hb => ?_, ?_⟩
    · rw [State.answer_nvs, State.sendEngine_nvs, State.installHere_cur]
      rfl
    · rw [(State.answer_stores _ _ _ _).1, (State.sendEngine_stores _ _ _ _ _ _).1]
      exact State.installHere_outside hb
    · rintro p ver slot rfl hslots hslot hp
      refine ⟨fun hnone => ?_, fun h hs hbad hfit hr hl hd => ?_⟩
      · exact (State.replied_fld (by decide) (by decide) _ _ _ _).trans (State.installHere_absent hslots hnone)
      · obtain ⟨hstate, hres, hmap⟩ := State.installHere_resident (s := s.taken _ v) hslots hslot hp hs hbad hfit hr hl hd
        refine ⟨(State.replied_fld (by decide) (by decide) _ _ _ _).trans hstate, ?_,
          (State.replied_fld (by decide) (by decide) _ _ _ _).trans hmap⟩
        rw [State.flag, State.replied_fld (by decide) (by decide)]
        exact hres

end Sys2Proof.Machine
end

