-- ==== Sys2Proof/Proofs/KvCommands.lean ====
section
/-! The KV commands of the host: FORK, PARK, RESTORE, DROP and RELEASE (O31). -/

namespace Sys2Proof.Machine.State

variable {s u : State} {queue : Nat} {host : List Byte} {cmd : Command}

/-! ### A sequence that is pinned (R285) -/

variable {lg : Nat} {c : HeldCmd} {cd : CopyData}

theorem runOrHold_unpinned (hp : s.kvPinned c.handle = false) : s.runOrHold lg c cd = s.runHeld lg c cd := if_neg (by simp [hp])

/-- A command other than RELEASE is only held. -/
theorem runOrHold_held (hp : s.kvPinned c.handle = true) (hop : c.op ≠ 0x44) :
    s.runOrHold lg c cd = { s with heldCmds := s.heldCmds ++ [c] } := by
  unfold runOrHold
  rw [if_pos hp, if_neg hop]

/-- The state once a RELEASE of a pinned sequence has committed its flag. -/
def releaseFlagged (s : State) (lg : Nat) (c : HeldCmd) : State :=
  (s.decision.flags c.handle (s.kvFlags c.handle + 16 * (1 - bits (s.kvFlags c.handle) 4 4))).commit lg 2 0xFFFFFFFF ((c.taken.map (·.tag)).getD 0)

/-- A RELEASE commits its flag before it is held. -/
theorem runOrHold_release (hp : s.kvPinned c.handle = true) (hop : c.op = 0x44) :
    s.runOrHold lg c cd = { s.releaseFlagged lg c with heldCmds := (s.releaseFlagged lg c).heldCmds ++ [c] } := by
  unfold runOrHold
  rw [if_pos hp, if_pos hop]
  rfl

/-! ### Commands on a sequence (R299, R307) -/

theorem onSequence_missing (hz : firstNonzero cmd.raw ([1, 0xB, 0x11] ++ span 0x20 0x40) = none) (hk : s.kvState cmd.seq = 0) (t : Taken)
    {legal : Bool} (hl : legal = true) (k : State → Nat → State) : s.onSequence queue t cmd legal k = s.endKv t 2 := by
  unfold onSequence
  rw [hz, hl]
  exact if_pos hk

theorem onSequence_elsewhere (hz : firstNonzero cmd.raw ([1, 0xB, 0x11] ++ span 0x20 0x40) = none) (hk : s.kvState cmd.seq ≠ 0)
    (hq : s.servedBy queue (s.kvLedger cmd.seq) = false) (t : Taken) {legal : Bool} (hl : legal = true) (k : State → Nat → State) :
    s.onSequence queue t cmd legal k = s.endKv t 7 := by
  unfold onSequence
  rw [hz, hl]
  exact (if_neg hk).trans (if_pos (by simp [hq]))

/-- The row of a command on a sequence, which finds its entry legal. -/
def IsSequenceRow (queue : Nat) (host : List Byte) (copies : CopyData) (cmd : Command) (row : Nat × Instr) : Prop :=
  row ∈ [(0x42, Instr.restore queue host copies), (0x43, .drop queue host), (0x44, .release queue host)] ∨
    (row = (0x41, .park queue host copies) ∧ 1 ≤ cmd.len ∧ cmd.len ≤ 86400000)

/-- Each of these rows takes the command of its opcode and looks for the sequence first. -/
theorem sequenceRow_takes {copies : CopyData} {row : Nat × Instr} (h : IsSequenceRow queue host copies cmd row) :
    ∃ (legal : Command → Bool) (k : Taken → Command → State → Nat → State), legal cmd = true ∧
      ∀ s, exec row.2 s = .next (s.takeCmd queue host (· == row.1) fun u t c => u.onSequence queue t c (legal c) (k t c)) := by
  simp only [IsSequenceRow, List.mem_cons, List.not_mem_nil, or_false] at h
  rcases h with (rfl | rfl | rfl) | ⟨rfl, hlo, hhi⟩
  · exact ⟨fun _ => true, _, rfl, fun _ => rfl⟩
  · exact ⟨fun _ => true, _, rfl, fun _ => rfl⟩
  · exact ⟨fun _ => true, _, rfl, fun _ => rfl⟩
  · exact ⟨fun c => decide (1 ≤ c.len) && decide (c.len ≤ 86400000), _, by simp [hlo, hhi], fun _ => rfl⟩

/-! ### FORK (R288) -/

/-- What a FORK that has been taken does. -/
def forkTaken (s : State) (queue : Nat) (t : Taken) (cmd : Command) : State :=
  let src := numAt cmd.raw 8 2
  let lg := s.kvLedger src
  if (firstNonzero cmd.raw ([1, 0xB, 0x11] ++ span 0x20 0x40)).isSome || decide (8 ≤ numAt cmd.raw 0xA 1) || !inT1T3 cmd.hist (4 * cmd.len) then
    s.endKv t 1
  else if s.kvState src ≠ 1 then s.endKv t 2
  else if !s.servedBy queue lg then s.endKv t 7
  else if s.kvState cmd.seq ≠ 0 then s.endKv t 2
  else if cmd.len < 1 ∨ s.kvValid src < cmd.len then s.endKv t 1
  else match s.fork lg cmd.seq src cmd.len (numAt cmd.raw 0xA 1) cmd.hist cmd.tag with
    | some u => u.endKv t 0
    | none => s.endKv t 3

theorem execFork_commands (h : s.Commands queue host 0x40 cmd) :
    execFork queue host s = .next ((s.take queue cmd).2.forkTaken queue (s.take queue cmd).1 cmd) :=
  congrArg Host.Outcome.next (takeCmd_commands h _ (fun s t cmd => s.forkTaken queue t cmd) rfl)

/-- A FORK whose source, target and length are legal makes the sequence, unless table blocks are short. -/
theorem forkTaken_legal {t : Taken} (hz : firstNonzero cmd.raw ([1, 0xB, 0x11] ++ span 0x20 0x40) = none) (hf : numAt cmd.raw 0xA 1 < 8)
    (hh : inT1T3 cmd.hist (4 * cmd.len) = true) (hsrc : s.kvState (numAt cmd.raw 8 2) = 1)
    (hq : s.servedBy queue (s.kvLedger (numAt cmd.raw 8 2)) = true) (hnew : s.kvState cmd.seq = 0) (hlo : 1 ≤ cmd.len)
    (hhi : cmd.len ≤ s.kvValid (numAt cmd.raw 8 2)) : s.forkTaken queue t cmd =
      match s.fork (s.kvLedger (numAt cmd.raw 8 2)) cmd.seq (numAt cmd.raw 8 2) cmd.len (numAt cmd.raw 0xA 1) cmd.hist cmd.tag with
      | some u => u.endKv t 0
      | none => s.endKv t 3 := by
  have hlegal : ¬ ((firstNonzero cmd.raw ([1, 0xB, 0x11] ++ span 0x20 0x40)).isSome || decide (8 ≤ numAt cmd.raw 0xA 1) ||
      !inT1T3 cmd.hist (4 * cmd.len)) = true := by rw [hz, hh, decide_eq_false (Nat.not_le.mpr hf)]; decide
  unfold forkTaken
  dsimp only
  rw [if_neg hlegal, if_neg (not_not.mpr hsrc), if_neg (by simp [hq]), if_neg (not_not.mpr hnew), if_neg (by omega)]

/-! ### PARK, RESTORE, DROP and RELEASE (R291, R293, R295, R309) -/

theorem execPark_onSequence (h : s.Commands queue host 0x41 cmd) (hu : u = (s.take queue cmd).2) (hon : u.OnSequence queue cmd)
    (hlo : 1 ≤ cmd.len) (hhi : cmd.len ≤ 86400000) (copies : CopyData) : execPark queue host copies s =
      .next (u.runOrHold (u.kvLedger cmd.seq) ⟨cmd.seq, 0x41, cmd.len, some (s.take queue cmd).1⟩ copies) := by
  subst hu
  exact congrArg Host.Outcome.next ((takeCmd_commands h _ _ rfl).trans (onSequence_meets hon _ _ _ (by simp [hlo, hhi])))

theorem execDrop_onSequence (h : s.Commands queue host 0x43 cmd) (hu : u = (s.take queue cmd).2) (hon : u.OnSequence queue cmd) :
    execDrop queue host s = .next (u.runOrHold (u.kvLedger cmd.seq) ⟨cmd.seq, 0x43, cmd.len, some (s.take queue cmd).1⟩ noCopies) := by
  subst hu
  exact congrArg Host.Outcome.next ((takeCmd_commands h _ _ rfl).trans (onSequence_meets hon _ _ _ rfl))

/-- A RESTORE of a sequence that is not parked completes with status 6; of a parked one it begins, unless its sets are short. -/
theorem execRestore_onSequence (h : s.Commands queue host 0x42 cmd) (hu : u = (s.take queue cmd).2) (hon : u.OnSequence queue cmd)
    (copies : CopyData) : execRestore queue host copies s = .next (if u.kvState cmd.seq ≠ 2 then u.endKv (s.take queue cmd).1 6
      else match u.restore (u.kvLedger cmd.seq) cmd.seq cmd.tag copies (some (s.take queue cmd).1) with
        | some x => x.2
        | none => u.endKv (s.take queue cmd).1 3) := by
  subst hu
  unfold execRestore
  rw [takeCmd_commands h _ _ rfl, onSequence_meets hon _ _ _ rfl]
  cases restore _ _ _ _ _ (some (s.take queue cmd).1) <;> rfl

/-- The sequence is served, and is not a hold sequence. -/
def servedUnheld (s : State) (h : Nat) : Bool :=
  match s.seq? h with
  | some q => !q.hold
  | none => false

/-- A RELEASE of a served sequence that is not a hold sequence completes with status 1; of another it runs or is held. -/
theorem execRelease_onSequence {w : State} (h : s.Commands queue host 0x44 cmd) (hu : u = (s.take queue cmd).2) (hon : u.OnSequence queue cmd)
    (hw : w = u.runOrHold (u.kvLedger cmd.seq) ⟨cmd.seq, 0x44, 0, some (s.take queue cmd).1⟩ noCopies) : execRelease queue host s =
      .next (if u.servedUnheld cmd.seq = true then u.endKv (s.take queue cmd).1 1
        else if w.kvState cmd.seq = 0 then w.forgetRestore cmd.seq else w) := by
  subst hu hw
  exact congrArg Host.Outcome.next ((takeCmd_commands h _ _ rfl).trans (onSequence_meets hon _ _ _ rfl))

theorem servedUnheld_eq_false (h : ∀ q, s.seq? cmd.seq = some q → q.hold = true) : s.servedUnheld cmd.seq = false := by
  unfold servedUnheld
  split
  · next q hq => simp [h q hq]
  · rfl

end Sys2Proof.Machine.State

namespace Sys2Proof.Machine

/-- Settles O31: each command on a sequence of its slice, the hold of a pinned one, and the sequences that turn a command away. -/
theorem kvCommands : Obligations.KvCommands := by
  unfold Obligations.KvCommands
  refine ⟨fun s queue host cmd u h hu hz hf hh hsrc hq hnew hlo hhi => ?_,
    fun s queue host copies cmd u h hu hon hlo hhi => State.execPark_onSequence h hu hon hlo hhi copies,
    fun s queue host copies cmd u h hu hon => ⟨fun hk => ?_, fun hk => ?_⟩, fun s queue host cmd u => State.execDrop_onSequence,
    fun s queue host cmd u h hu hon hold => ⟨_, rfl, ?_⟩, fun s queue host cmd u q h hu hon hs hhold => ?_,
    fun s lg c cd => State.runOrHold_held, fun s lg c cd w hp hop hw => ?_, fun s lg c cd => State.runOrHold_unpinned,
    fun s queue host copies cmd u row hrow h hu hz => ?_⟩
  · subst hu
    exact (State.execFork_commands h).trans (congrArg Host.Outcome.next (State.forkTaken_legal hz hf hh hsrc hq hnew hlo hhi))
  · exact (State.execRestore_onSequence h hu hon copies).trans (congrArg Host.Outcome.next (if_pos hk))
  · exact (State.execRestore_onSequence h hu hon copies).trans (congrArg Host.Outcome.next (if_neg (not_not.mpr hk)))
  · exact (State.execRelease_onSequence h hu hon rfl).trans
      (congrArg Host.Outcome.next (if_neg (by simp [State.servedUnheld_eq_false hold])))
  · exact (State.execRelease_onSequence h hu hon rfl).trans (congrArg Host.Outcome.next (if_pos (by simp [State.servedUnheld, hs, hhold])))
  · subst hw
    exact State.runOrHold_release hp hop
  · obtain ⟨legal, k, hl, hexec⟩ := State.sequenceRow_takes hrow
    have htaken := (hexec s).trans (congrArg Host.Outcome.next (State.takeCmd_commands h _ _ (beq_self_eq_true _)))
    subst hu
    exact ⟨fun hk => htaken.trans (congrArg Host.Outcome.next (State.onSequence_missing hz hk _ hl _)),
      fun hk hq => htaken.trans (congrArg Host.Outcome.next (State.onSequence_elsewhere hz hk hq _ hl _))⟩

end Sys2Proof.Machine
end

