-- ==== Sys2Proof/Proofs/LedgerRecords.lean ====
section
/-! Ledger records at a member, and the timers and replies of the former (O32). -/

namespace Sys2Proof.Machine.State

variable {s u : State} {hd : PacketHead} {v : Seen}

/-! ### A record at a member (R282, R284, R301) -/

section

variable {r : LedgerRecord} {cd : CopyData}

/-- A fresh record of a ledger that is on here is taken, and the descriptors that it makes due follow it. -/
theorem execLedgerRecordReceive_taken (h : s.Fresh hd v) (hon : s.ledgerOn r.ledger = true) (hu : u = (s.taken hd v).takeRecord r cd) :
    execLedgerRecordReceive hd r cd s =
      .next ((u.applyEarlyBatches r.ledger (u.srv r.ledger).early.length).answer hd 0x80 0) := by
  subst hu
  exact congrArg Host.Outcome.next (engineTake_fresh h _ _ hon)

theorem takeRecord_former (h : s.isFormer r.ledger = true) : s.takeRecord r cd = s := if_pos h

variable (hm : s.isFormer r.ledger = false)
include hm

theorem takeRecord_refused (hr : s.refuses r = true) : s.takeRecord r cd = s.ledgerFault r.ledger 0x0601 := by
  unfold takeRecord
  exact (if_neg (by simp [hm])).trans (if_pos hr)

variable (hr : s.refuses r = false)
include hr

/-- A record whose turn it is applies with those it releases, and only the time of the gap changes beside. -/
theorem takeRecord_due (hturn : r.record = s.fld Reg.SEQ_KVSTAT.record r.ledger)
    (hu : u = (s.applyRecord r cd).applyEarly r.ledger s.earlyRecords.length) : ∃ at', s.takeRecord r cd = { u with lastRecordAt := at' } := by
  subst hu
  unfold takeRecord
  simp only [hm, hr, Bool.false_eq_true, if_false, if_pos hturn]
  split
  · exact ⟨_, rfl⟩
  · exact ⟨_, rfl⟩

/-- A record before its turn is kept, and only the time of the gap changes beside. -/
theorem takeRecord_early (hturn : r.record ≠ s.fld Reg.SEQ_KVSTAT.record r.ledger)
    (hl : laterBy 32 r.record (s.fld Reg.SEQ_KVSTAT.record r.ledger) = true) :
    ∃ at', s.takeRecord r cd = { s with earlyRecords := s.earlyRecords ++ [(r, cd)], lastRecordAt := at' } := by
  unfold takeRecord
  simp only [hm, hr, Bool.false_eq_true, if_false, if_neg hturn, if_pos hl]
  split
  · exact ⟨s.lastRecordAt, rfl⟩
  · exact ⟨_, rfl⟩

/-- A record whose turn has passed changes nothing. -/
theorem takeRecord_stale (hl : laterBy 32 r.record (s.fld Reg.SEQ_KVSTAT.record r.ledger) = false)
    (hturn : r.record ≠ s.fld Reg.SEQ_KVSTAT.record r.ledger) : s.takeRecord r cd = s := by
  unfold takeRecord
  simp only [hm, hr, hl, Bool.false_eq_true, if_false, if_neg hturn]

end

/-! ### Timers (R282, R292, R294) -/

variable {ledger handle record position : Nat}

theorem execLedgerGapTimeout_waiting (h : ∃ x ∈ s.lastRecordAt, x.1 = ledger) : execLedgerGapTimeout ledger s =
    .next (ledgerFault { s with lastRecordAt := Table.del s.lastRecordAt ledger } ledger 0x0602) :=
  congrArg Host.Outcome.next (if_pos (by simpa using h))

theorem execParkedTtlVisit_former (h : s.isFormer ledger = true) : execParkedTtlVisit ledger s =
    .next (((List.range 65536).filter fun h => s.kvState h == 2 && s.kvLedger h == ledger).foldl
      (fun s h => if s.kvField h 0x18 8 ≤ s.gscSe then s.expirePark ledger h else s) s) :=
  congrArg Host.Outcome.next (if_neg (by simp [h]))

theorem execRestoreReplyTimeout_restoring {r : Restoring} (h : (s.restoring.find? fun r => r.handle == handle) = some r) :
    execRestoreReplyTimeout handle s = .next (s.copyFailed r.ledger handle (r.positions.headD 0)) := by
  simp only [execRestoreReplyTimeout, h]

/-! ### Replies (R294, R422) -/

/-- What a reply that has been taken does, by its kind. -/
def replyTaken (s : State) (source kind ledger handle record position : Nat) : State :=
  match kind with
  | 1 => if s.restoring.any fun r => r.handle == handle && r.records.contains record && r.positions.contains position then
      s.restoreReply ledger handle source position else s
  | 2 => s.copyFailed ledger handle position
  | 3 => s.ploadReply record source true
  | 4 => s.ploadReply record source false
  | _ => s

/-- A fresh reply about a copy is taken at the former of its ledger. -/
theorem execMemberReplyReceive_copy {kind : Nat} (h : s.Fresh hd v) (hk : kind ≤ 2) (hf : s.isFormer ledger = true) (handle record position : Nat) :
    execMemberReplyReceive hd kind ledger handle record position s =
      .next (((s.taken hd v).replyTaken hd.source kind ledger handle record position).answer hd 0x80 0) :=
  congrArg Host.Outcome.next (engineTake_fresh h _ (fun s => s.replyTaken hd.source kind ledger handle record position) ((if_pos hk).trans hf))

/-- A fresh reply about an install is taken where the weight store is ready. -/
theorem execMemberReplyReceive_install {kind : Nat} (h : s.Fresh hd v) (hk : ¬ kind ≤ 2) (hready : s.flag Reg.NVS_STATUS.ready = true)
    (ledger handle record position : Nat) :
    execMemberReplyReceive hd kind ledger handle record position s =
      .next (((s.taken hd v).replyTaken hd.source kind ledger handle record position).answer hd 0x80 0) :=
  congrArg Host.Outcome.next (engineTake_fresh h _ (fun s => s.replyTaken hd.source kind ledger handle record position)
    ((if_neg hk).trans hready))

/-- A reply to a restore copy that is in progress is counted. -/
theorem replyTaken_restored (h : ∃ r ∈ s.restoring, r.handle = handle ∧ record ∈ r.records ∧ position ∈ r.positions) (source : Nat) :
    s.replyTaken source 1 ledger handle record position = s.restoreReply ledger handle source position :=
  if_pos (by simpa [and_assoc] using h)

end Sys2Proof.Machine.State

namespace Sys2Proof.Machine

/-- Settles O32: the turns a record may have at a member, the two timers and the visit, and the four kinds of reply. -/
theorem ledgerRecords : Obligations.LedgerRecords := by
  unfold Obligations.LedgerRecords
  refine ⟨fun s hd r copies v u => State.execLedgerRecordReceive_taken, fun s r cd => State.takeRecord_refused,
    fun s r cd => State.takeRecord_former, fun s r cd u => State.takeRecord_due, fun s r cd => State.takeRecord_stale,
    fun s r cd => State.takeRecord_early, fun s ledger => State.execLedgerGapTimeout_waiting,
    fun s ledger => State.execParkedTtlVisit_former, fun s handle r => State.execRestoreReplyTimeout_restoring,
    fun s hd ledger handle record position v u h hf hu => ⟨fun hin => ?_, ?_⟩, fun s hd ledger handle record position v u h hready hu => ?_⟩
  · subst hu
    exact (State.execMemberReplyReceive_copy h (by decide) hf handle record position).trans
      (congrArg (fun t : State => Host.Outcome.next (t.answer hd 0x80 0)) (State.replyTaken_restored (s := s.taken hd v) hin hd.source))
  · subst hu
    exact State.execMemberReplyReceive_copy h (by decide) hf handle record position
  · subst hu
    exact ⟨State.execMemberReplyReceive_install h (by decide) hready ledger handle record position,
      State.execMemberReplyReceive_install h (by decide) hready ledger handle record position⟩

end Sys2Proof.Machine
end

