-- ==== Sys2Proof/Proofs/Batches.lean ====
section
/-! Batches: their forming, their descriptors at the members, samples, and end reports (O36). -/

namespace Sys2Proof.Machine.State

variable {s u : State} {hd : PacketHead} {v : Seen} {ledger batch row : Nat}

/-! ### The serving of a ledger -/

@[simp] theorem srv_modSrv_same (s : State) (i : Nat) (f : Serving → Serving) : (s.modSrv i f).srv i = f (s.srv i) := Table.get_set_same _ _ _ _

@[simp] theorem modSrv_fld (s : State) (i : Nat) (f : Serving → Serving) (g : Field) (j : Nat) : (s.modSrv i f).fld g j = s.fld g j := rfl

@[simp] theorem modSrv_isFormer (s : State) (i : Nat) (f : Serving → Serving) (j : Nat) : (s.modSrv i f).isFormer j = s.isFormer j := rfl

theorem modSrv_congr {i : Nat} {f g : Serving → Serving} (h : f (s.srv i) = g (s.srv i)) : s.modSrv i f = s.modSrv i g :=
  congrArg (s.setSrv i) h

/-! ### Forming a batch (R310) -/

/-- The least gap since the last batch was formed has passed, or none was. -/
def gapPassed (s : State) (ledger : Nat) : Bool :=
  match (s.srv ledger).lastFormed with
  | some g => decide (g + s.fld Reg.SEQ_SERVE.min_gap_ns ledger ≤ s.gscSe)
  | none => true

theorem gapPassed_of_le (h : ∀ g, (s.srv ledger).lastFormed = some g → g + s.fld Reg.SEQ_SERVE.min_gap_ns ledger ≤ s.gscSe) :
    s.gapPassed ledger = true := by
  unfold gapPassed
  split
  · next g hg => exact decide_eq_true (h g hg)
  · rfl

/-- The former forms a batch once the gap has passed, while fewer than depth are in flight. -/
theorem execBatchForm_due {copies : CopyData} (hr : s.seRuns = true) (hf : s.isFormer ledger = true)
    (hen : s.flag Reg.SEQ_SERVE.en ledger = true)
    (hgap : ∀ g, (s.srv ledger).lastFormed = some g → g + s.fld Reg.SEQ_SERVE.min_gap_ns ledger ≤ s.gscSe)
    (hdepth : s.fld Reg.SEQ_SERVE.inflight ledger < s.fld Reg.SEQ_SERVE.depth ledger) : execBatchForm ledger copies s =
      .next (match (s.formBatch ledger copies).2 with
        | none => (s.formBatch ledger copies).1
        | some b => ((s.formBatch ledger copies).1.sendBatch b).applyBatch b) := by
  have hdue : ¬ (!s.seRuns || !s.isFormer ledger || !s.flag Reg.SEQ_SERVE.en ledger || !s.gapPassed ledger ||
      decide (s.fld Reg.SEQ_SERVE.depth ledger ≤ s.fld Reg.SEQ_SERVE.inflight ledger)) = true := by
    simp [hr, hf, hen, gapPassed_of_le hgap, hdepth]
  exact congrArg Host.Outcome.next (if_neg hdue)

/-! ### Descriptors at a member (R284, R313, R424) -/

/-- A fresh packet of a descriptor brings its lines, and with the last of them the descriptor. -/
theorem execBatchDescriptorReceive_gathers {lines : BatchLines} {got : Option (List Byte) × State} (h : s.Fresh hd v)
    (hon : s.ledgerOn lines.ledger = true) (hen : s.flag Reg.SEQ_SERVE.en lines.ledger = true) (hm : s.isFormer lines.ledger = false)
    (hgot : got = (s.taken hd v).gather hd.source 0x13 [lines.ledger, lines.batch] lines.total lines.first lines.bytes) :
    execBatchDescriptorReceive hd lines s = .next ((match got.1 with
      | some bs => got.2.descriptorArrives lines.ledger { Batch.ofBytes bs with ledger := lines.ledger, number := lines.batch }
      | none => got.2).answer hd 0x80 0) := by
  have hm' : (s.taken hd v).isFormer lines.ledger = false := hm
  subst hgot
  refine congrArg Host.Outcome.next ((engineTake_fresh h _ _ (by simp [hon, hen])).trans ?_)
  exact congrArg (fun t : State => t.answer hd 0x80 0) (if_neg (by simp [hm']))

/-- What a batch waits for is not in the list of descriptors that came early. -/
theorem recordsApplied_modSrv (b : Batch) {f : Serving → Serving} (h : (f (s.srv b.ledger)).formed = (s.srv b.ledger).formed) :
    (s.modSrv b.ledger f).recordsApplied b = s.recordsApplied b := by
  simp only [recordsApplied, modSrv_isFormer, srv_modSrv_same, h]

variable {b : Batch}

/-- Of one descriptor that waits, it applies when it is next and its records are applied, and waits on otherwise. -/
theorem applyEarlyBatches_one (h : (s.srv b.ledger).early = [b]) : s.applyEarlyBatches b.ledger 1 =
    if b.number = s.fld Reg.SEQ_SERVE.next_batch b.ledger ∧ s.recordsApplied b = true then
      (s.modSrv b.ledger fun v => { v with early := [] }).applyBatch b
    else s := by
  unfold applyEarlyBatches
  rw [h]
  by_cases hdue : b.number = s.fld Reg.SEQ_SERVE.next_batch b.ledger ∧ s.recordsApplied b = true
  · rw [if_pos hdue, List.find?_cons_of_pos (by simpa using hdue)]
    exact congrArg (applyBatch · b) (modSrv_congr (by simp [h]))
  · rw [if_neg hdue, List.find?_cons_of_neg (by simpa using hdue)]
    rfl

/-- The batch is the only one that waits. -/
def awaits (s : State) (b : Batch) : State := s.modSrv b.ledger fun v => { v with early := [b] }

/-- A descriptor that is next or later waits for its turn where no other waits. -/
theorem descriptorArrives_ahead (he : (s.srv b.ledger).early = [])
    (ht : b.number = s.fld Reg.SEQ_SERVE.next_batch b.ledger ∨ laterBy 32 b.number (s.fld Reg.SEQ_SERVE.next_batch b.ledger) = true) :
    s.descriptorArrives b.ledger b =
      if b.number = s.fld Reg.SEQ_SERVE.next_batch b.ledger ∧ s.recordsApplied b = true then
        ((s.awaits b).modSrv b.ledger fun v => { v with early := [] }).applyBatch b
      else s.awaits b := by
  have hjoin : (s.modSrv b.ledger fun v => { v with early := v.early ++ [b] }) = s.awaits b := modSrv_congr (by rw [he]; rfl)
  have hone : ((s.awaits b).srv b.ledger).early = [b] := by simp [awaits]
  have hrec : (s.awaits b).recordsApplied b = s.recordsApplied b := recordsApplied_modSrv b rfl
  unfold descriptorArrives
  rw [if_pos ht]
  dsimp only
  rw [hjoin, hone, List.length_singleton, applyEarlyBatches_one hone, hrec]
  rfl

/-- A descriptor whose turn has passed changes nothing. -/
theorem descriptorArrives_past (hn : b.number ≠ s.fld Reg.SEQ_SERVE.next_batch b.ledger)
    (hl : laterBy 32 b.number (s.fld Reg.SEQ_SERVE.next_batch b.ledger) = false) : s.descriptorArrives b.ledger b = s :=
  if_neg (by simp [hn, hl])

/-! ### Samples (R318, R319, R321) -/

/-- The half of this source's partial for a row that is here. -/
def heldHalf (s : State) (ledger batch row source : Nat) : Option (Nat × Nat × Nat × Nat × Partial) :=
  (s.srv ledger).halves.find? fun x => x.1 == batch && x.2.1 == row && x.2.2.1 == source

/-- The first half of a partial is kept. -/
theorem execSamplerPartialReceive_first {half : PartialHalf} (h : s.Fresh hd v) (hon : s.ledgerOn ledger = true)
    (hin : s.inSampler ledger = true) (hheld : s.heldHalf ledger batch row hd.source = none) :
    execSamplerPartialReceive hd ledger batch row half s = .next (((s.taken hd v).modSrv ledger fun v =>
      { v with halves := v.halves ++ [(batch, row, hd.source, half.half, half.part)] }).answer hd 0x80 0) := by
  have hheld' : (s.taken hd v).heldHalf ledger batch row hd.source = none := hheld
  unfold heldHalf at hheld'
  refine congrArg Host.Outcome.next ((engineTake_fresh h _ _ (by simp [hon, hin])).trans ?_)
  simp only [hheld']

/-- With the other half the partial is whole, and arrives. -/
theorem execSamplerPartialReceive_second {half : PartialHalf} {x : Nat × Nat × Nat × Nat × Partial} (h : s.Fresh hd v)
    (hon : s.ledgerOn ledger = true) (hin : s.inSampler ledger = true) (hheld : s.heldHalf ledger batch row hd.source = some x)
    (hother : x.2.2.2.1 ≠ half.half) : execSamplerPartialReceive hd ledger batch row half s =
      .next ((((s.taken hd v).modSrv ledger fun v => { v with halves := v.halves.filter fun y =>
        !(y.1 == batch && y.2.1 == row && y.2.2.1 == hd.source) }).partialArrives ledger batch row hd.source
          (if half.half = 0 then { half.part with top := half.part.top ++ x.2.2.2.2.top }
            else { x.2.2.2.2 with top := x.2.2.2.2.top ++ half.part.top })).answer hd 0x80 0) := by
  have hheld' : (s.taken hd v).heldHalf ledger batch row hd.source = some x := hheld
  unfold heldHalf at hheld'
  refine congrArg Host.Outcome.next ((engineTake_fresh h _ _ (by simp [hon, hin])).trans ?_)
  simp only [hheld', if_neg hother]

theorem partialArrives_applied {ep : Nat} {part : Partial} (h : ∃ b ∈ (s.srv ledger).applied, b.number = batch) :
    s.partialArrives ledger batch row ep part = s.takePartial ledger batch row ep part := if_pos (by simpa using h)

/-- A complete row of an applied batch gets its result. -/
theorem execSampleResultWrite_complete (hb : ((s.srv ledger).applied.find? fun b => b.number == batch) = some b) (hr : s.seRuns = true)
    (hnone : (s.sample ledger batch 0 row 0).token = none) (hfull : s.sampleFull ledger (s.sample ledger batch 0 row 0) = true) :
    execSampleResultWrite ledger batch row s = .next (s.setSample ledger { s.sample ledger batch 0 row 0 with
      token := some (chosenToken ledger (s.sample ledger batch 0 row 0) (batchSettings b row)) }) := by
  simp only [execSampleResultWrite, hb, hr, hnone, hfull, Bool.not_true, Option.isSome_none, Bool.or_self, Bool.false_eq_true, if_false]

/-! ### End reports (R316, R424) -/

/-- A fresh packet of an end report is taken at the former. -/
theorem execBatchEndReportReceive_taken {head : ReportHead} {proposals : List (Nat × Nat × Nat)} {results : List ResultRow}
    {copies : CopyData} {p : ReportPart} (h : s.Fresh hd v) (hf : s.isFormer ledger = true)
    (hp : p = (((s.srv ledger).reports.find? fun p => p.batch == batch && p.source == hd.source).getD ⟨batch, hd.source, [], []⟩).take
      head.first head.counts.1 proposals results)
    (hu : u = (s.taken hd v).modSrv ledger fun v =>
      { v with reports := v.reports.filter fun p => !(p.batch == batch && p.source == hd.source) }) :
    execBatchEndReportReceive hd ledger batch head proposals results copies s = .next ((
      if (itemsHeld p.proposals 0 head.counts.1).length < head.counts.1 ∨
          (itemsHeld p.results head.counts.1 head.counts.2).length < head.counts.2 then
        u.modSrv ledger fun v => { v with reports := v.reports ++ [p] }
      else u.takeReport ledger batch hd.source head.missing (itemsHeld p.proposals 0 head.counts.1)
        (itemsHeld p.results head.counts.1 head.counts.2) copies).answer hd 0x80 0) := by
  subst hp hu
  exact congrArg Host.Outcome.next (engineTake_fresh h _ _ hf)

end Sys2Proof.Machine.State

namespace Sys2Proof.Machine

/-! ### Proposals (R324) -/

/-- The proposals accepted are those before the first that differs from the token sampled for it. -/
theorem acceptRun_agrees (qs ts : List Nat) : acceptRun qs ts ≤ qs.length ∧ acceptRun qs ts ≤ ts.length ∧
    qs.take (acceptRun qs ts) = ts.take (acceptRun qs ts) ∧
    ∀ q t, qs[acceptRun qs ts]? = some q → ts[acceptRun qs ts]? = some t → q ≠ t := by
  induction qs generalizing ts with
  | nil => simp [acceptRun]
  | cons q qs ih =>
    cases ts with
    | nil => simp [acceptRun]
    | cons t ts =>
      by_cases hqt : q = t
      · simpa [acceptRun, hqt] using ih ts
      · simp [acceptRun, hqt]

/-- Settles O36: the forming, each turn of a descriptor, the halves and the result of a row, the end report, and the run of proposals. -/
theorem batches : Obligations.Batches := by
  unfold Obligations.Batches
  refine ⟨fun s ledger copies => State.execBatchForm_due,
    fun s hd ledger batch first lines bytes v u h hon hen hm hu =>
      State.execBatchDescriptorReceive_gathers (lines := ⟨ledger, batch, lines, first, bytes⟩) h hon hen hm hu,
    fun s b w he hw => ⟨fun hn hrec => ?_, fun hn hrec => ?_, fun hn hl => ?_, fun hn hl => State.descriptorArrives_past hn hl⟩,
    fun s hd ledger batch row half part v u held h hon hin hu hheld => ⟨fun hnone => ?_, fun x hx hother => ?_⟩,
    fun s ledger batch row ep part => State.partialArrives_applied, fun s ledger batch row b => State.execSampleResultWrite_complete,
    fun s hd ledger batch missing counts first proposals results copies v u p =>
      State.execBatchEndReportReceive_taken (head := ⟨missing, counts, first⟩), acceptRun_agrees⟩
  · subst hw
    exact (State.descriptorArrives_ahead he (.inl hn)).trans (if_pos ⟨hn, hrec⟩)
  · subst hw
    exact (State.descriptorArrives_ahead he (.inl hn)).trans (if_neg (by simp [hrec]))
  · subst hw
    exact (State.descriptorArrives_ahead he (.inr hl)).trans (if_neg (by simp [hn]))
  · subst hu
    exact State.execSamplerPartialReceive_first (half := ⟨half, part⟩) h hon hin (hheld.symm.trans hnone)
  · subst hu
    exact State.execSamplerPartialReceive_second (half := ⟨half, part⟩) h hon hin (hheld.symm.trans hx) hother

end Sys2Proof.Machine
end


-- ==== Sys2Proof/Proofs/Doorbells.lean ====
section
/-! Queues of the host: their enabling and disabling, and their doorbells (O28). -/

namespace Sys2Proof.Machine.State

variable {s : State} {queue offset value : Nat}

/-! ### Enabling and disabling (R302, R303) -/

/-- A disabled queue of a legal size is enabled empty while the KV lock is set. -/
theorem execQueueEnable_locked (h : s.takes (0x500008 + 32 * queue)) (hen : s.qEn queue = false) (hlo : 4 ≤ bits value 4 0)
    (hhi : bits value 4 0 ≤ 16) (hlock : s.flag Reg.SEQ_KVLOCK.lock = true) : execQueueEnable queue value s =
      .next ((((((s.setFld Reg.SEQ_QCFG.kind (bits value 25 24) queue).setFld Reg.SEQ_QCFG.slice (bits value 21 20) queue).setFld
        Reg.SEQ_QCFG.log2n (bits value 4 0) queue).setFld Reg.SEQ_QCFG.head 0 queue).setFld Reg.SEQ_QCFG.tail 0 queue).setFld
        Reg.SEQ_QCFG.en 1 queue) := by
  have hfits : ¬ (s.qEn queue = true ∨ bits value 4 0 < 4 ∨ 16 < bits value 4 0) := by simp [hen, hlo, hhi]
  refine congrArg Host.Outcome.next ((hostWrite_takes h _ _).trans ?_)
  rw [if_neg hfits, if_neg (by simp [hlock])]

theorem execQueueDisable_enabled (h : s.takes (0x500008 + 32 * queue)) (hen : s.qEn queue = true) : execQueueDisable queue s =
    .next { s.setFld Reg.SEQ_QCFG.en 0 queue with
      doorbells := s.doorbells.filter fun d => d.1 != queue
      queueDisables := Table.modify 0 s.queueDisables queue (· + 1) } :=
  congrArg Host.Outcome.next ((hostWrite_takes h _ _).trans (if_neg (by simp [hen])))

/-! ### Doorbells (R304, R518) -/

theorem qEn_of_qIs {kind : Nat} (h : s.qIs queue kind = true) : s.qEn queue = true := (Bool.and_eq_true_iff.mp h).1

/-- A doorbell write of a host that reaches the open block has its effect. -/
theorem doorbell_open (hr : s.hostReach = true) (hb : s.blockOpen (blockOf 0x500000) = true) (k : State → State) : s.doorbell k = k s :=
  if_pos (by rw [hr, hb]; rfl)

variable (hr : s.hostReach = true) (hb : s.blockOpen (blockOf 0x500000) = true)
include hr hb

/-- A legal write that moves the tail of a command queue forward stores it, and its order is remembered. -/
theorem execDoorbellTail_forward (hq : s.qIs queue 1 = true) (hl : ringLegal 16 (s.qN queue) value = true)
    (hlo : s.qUsed queue < ringDist (s.qN queue) (s.qHead queue) (ringPos 16 (s.qN queue) value))
    (hhi : ringDist (s.qN queue) (s.qHead queue) (ringPos 16 (s.qN queue) value) ≤ s.qN queue) :
    execDoorbellTail queue 0 value s = .next { s.setTail queue (ringPos 16 (s.qN queue) value) with
      doorbells := s.doorbells ++ [(queue, ringPos 16 (s.qN queue) value)] } := by
  refine congrArg Host.Outcome.next ((if_neg (by simp [hq])).trans ((doorbell_open hr hb _).trans ?_))
  dsimp only
  rw [if_neg (by simp [qEn_of_qIs hq, hl, hlo.le, hhi]), if_neg hlo.ne']

/-- An illegal write at a queue that is not an enabled one of another kind is rejected. -/
theorem execDoorbellTail_rejected (hq : s.qIs queue 1 = true ∨ s.qEn queue = false)
    (hbad : offset ≠ 0 ∨ s.qEn queue = false ∨ ringLegal 16 (s.qN queue) value = false ∨
      ringDist (s.qN queue) (s.qHead queue) (ringPos 16 (s.qN queue) value) < s.qUsed queue ∨
      s.qN queue < ringDist (s.qN queue) (s.qHead queue) (ringPos 16 (s.qN queue) value)) :
    execDoorbellTail queue offset value s = .next (s.srvEvt Reg.SEQ_SRVEVT.bad_db) := by
  have hmine : ¬ ((!s.qIs queue 1 && s.qEn queue) = true) := by
    rcases hq with hq | hq <;> simp [hq]
  exact congrArg Host.Outcome.next ((if_neg hmine).trans ((doorbell_open hr hb _).trans (if_pos (by simpa using hbad))))

/-- A legal write at an enabled queue of another kind stores its head. -/
theorem execDoorbellHead_legal (hen : s.qEn queue = true) (hq : s.qIs queue 1 = false) (hl : ringLegal 16 (s.qN queue) value = true)
    (hd : ringDist (s.qN queue) (s.qHead queue) (ringPos 16 (s.qN queue) value) ≤ s.qUsed queue) :
    execDoorbellHead queue 0 value s = .next (s.setHead queue (ringPos 16 (s.qN queue) value)) :=
  congrArg Host.Outcome.next ((if_neg (by simp [hq])).trans ((doorbell_open hr hb _).trans (if_neg (by simp [hen, hl, hd]))))

theorem execDoorbellHead_rejected (hq : s.qIs queue 1 = false)
    (hbad : offset ≠ 0 ∨ s.qEn queue = false ∨ ringLegal 16 (s.qN queue) value = false ∨
      s.qUsed queue < ringDist (s.qN queue) (s.qHead queue) (ringPos 16 (s.qN queue) value)) :
    execDoorbellHead queue offset value s = .next (s.srvEvt Reg.SEQ_SRVEVT.bad_db) :=
  congrArg Host.Outcome.next ((if_neg (by simp [hq])).trans ((doorbell_open hr hb _).trans (if_pos (by simpa using hbad))))

end Sys2Proof.Machine.State

namespace Sys2Proof.Machine

/-- Settles O28: the two configuration writes, and the legal and the illegal doorbell of each side. -/
theorem queuesAndDoorbells : Obligations.QueuesAndDoorbells := by
  unfold Obligations.QueuesAndDoorbells
  exact ⟨fun s queue value => State.execQueueEnable_locked, fun s queue => State.execQueueDisable_enabled,
    fun s queue value => State.execDoorbellTail_forward, fun s queue offset value => State.execDoorbellTail_rejected,
    fun s queue value => State.execDoorbellHead_legal, fun s queue offset value => State.execDoorbellHead_rejected⟩

end Sys2Proof.Machine
end


-- ==== Sys2Proof/Proofs/Admission.lean ====
section
/-! ADMIT, CANCEL, and the enabling of serving (O35). -/

namespace Sys2Proof.Machine.State

variable {s u : State} {queue token : Nat} {host param p : List Byte} {cmd : Command} {t : Taken}

/-! ### ADMIT (R307, R308, R309) -/

/-- What an ADMIT with a legal entry does once its parameter block `p` has been read. -/
def admitTaken (s : State) (queue : Nat) (t : Taken) (cmd : Command) (p : List Byte) (token : Nat) : State :=
  if !s.servedBy queue cmd.ledger then s.complete t 7 cmd.ledger
  else match s.paramIllegal p cmd.ledger queue with
    | some o => s.complete t 1 o
    | none =>
      if s.kvState cmd.seq ≠ 0 then s.complete t 2 cmd.seq
      else if cmd.src ≠ 0xFFFF ∧ (s.kvState cmd.src ≠ 1 ∨ s.kvLedger cmd.src ≠ cmd.ledger) then s.complete t 1 0x12
      else if cmd.src ≠ 0xFFFF ∧
          (cmd.len < 1 ∨ min (s.kvValid cmd.src) (if bit (numAt p 3 1) 4 then numAt p 4 4 else numAt p 4 4 - 1) < cmd.len) then
        s.complete t 1 0x14
      else if s.streamFree (numAt p 0 2) = 0 then s.complete t 0x0B (numAt p 0 2)
      else s.admitCmd cmd p token t

/-- An ADMIT with an illegal field completes with status 1 and its offset. -/
theorem execAdmitSeq_illegal {o : Nat} (h : s.Commands queue host 2 cmd) (ho : admitIllegal cmd = some o) :
    execAdmitSeq queue host param token s = .next ((s.take queue cmd).2.complete (s.take queue cmd).1 1 o) := by
  refine congrArg Host.Outcome.next ((takeCmd_commands h _ _ rfl).trans ?_)
  rw [ho]

theorem execAdmitSeq_legal (h : s.Commands queue host 2 cmd) (ho : admitIllegal cmd = none) : execAdmitSeq queue host param token s =
    .next (((s.take queue cmd).2.touchT1 cmd.addr 512).admitTaken queue (s.take queue cmd).1 cmd
      ((s.take queue cmd).2.areaGet cmd.addr 512 param) token) := by
  refine congrArg Host.Outcome.next ((takeCmd_commands h _ _ rfl).trans ?_)
  rw [ho]
  rfl

theorem admitTaken_elsewhere (hq : s.servedBy queue cmd.ledger = false) :
    s.admitTaken queue t cmd p token = s.complete t 7 cmd.ledger := if_pos (by simp [hq])

section

variable (hq : s.servedBy queue cmd.ledger = true)
include hq

theorem admitTaken_paramIllegal {o : Nat} (hp : s.paramIllegal p cmd.ledger queue = some o) :
    s.admitTaken queue t cmd p token = s.complete t 1 o := by
  unfold admitTaken
  rw [if_neg (by simp [hq]), hp]

variable (hp : s.paramIllegal p cmd.ledger queue = none)
include hp

theorem admitTaken_inUse (hk : s.kvState cmd.seq ≠ 0) : s.admitTaken queue t cmd p token = s.complete t 2 cmd.seq := by
  unfold admitTaken
  rw [if_neg (by simp [hq]), hp]
  exact if_pos hk

/-- With its handle free and its source, if any, legal, an ADMIT is left with the room in its stream queue. -/
theorem admitTaken_free (hk : s.kvState cmd.seq = 0)
    (hsrc : cmd.src ≠ 0xFFFF → s.kvState cmd.src = 1 ∧ s.kvLedger cmd.src = cmd.ledger ∧ 1 ≤ cmd.len ∧
      cmd.len ≤ min (s.kvValid cmd.src) (if bit (numAt p 3 1) 4 then numAt p 4 4 else numAt p 4 4 - 1)) :
    s.admitTaken queue t cmd p token =
      if s.streamFree (numAt p 0 2) = 0 then s.complete t 0x0B (numAt p 0 2) else s.admitCmd cmd p token t := by
  have hplace : ¬ (cmd.src ≠ 0xFFFF ∧ (s.kvState cmd.src ≠ 1 ∨ s.kvLedger cmd.src ≠ cmd.ledger)) := fun ⟨hs, hbad⟩ =>
    let ⟨hstate, hledger, _⟩ := hsrc hs
    hbad.elim (· hstate) (· hledger)
  have hlength : ¬ (cmd.src ≠ 0xFFFF ∧
      (cmd.len < 1 ∨ min (s.kvValid cmd.src) (if bit (numAt p 3 1) 4 then numAt p 4 4 else numAt p 4 4 - 1) < cmd.len)) :=
    fun ⟨hs, hbad⟩ =>
      let ⟨_, _, hlo, hhi⟩ := hsrc hs
      hbad.elim hlo.not_gt hhi.not_gt
  unfold admitTaken
  rw [if_neg (by simp [hq]), hp]
  dsimp only
  rw [if_neg (not_not.mpr hk), if_neg hplace, if_neg hlength]

end

/-! ### CANCEL (R309, R310, R332) -/

/-- What a CANCEL with a legal entry does. -/
def cancelTaken (s : State) (queue : Nat) (t : Taken) (h : Nat) : State :=
  match s.seq? h with
  | none =>
    if s.kvState h ≠ 0 ∧ !s.servedBy queue (s.kvLedger h) then s.complete t 7 (s.kvLedger h)
    else if s.ended.any fun x => x.1 == h then s.complete t 8 h
    else s.complete t 2 h
  | some q =>
    if !s.servedBy queue q.ledger then s.complete t 7 q.ledger
    else if s.kvPinned h && q.cancel.isSome then { s with heldCmds := s.heldCmds ++ [⟨h, 3, 0, some t⟩] }
    else if s.kvPinned h then
      ((s.decision.flags h (s.kvFlags h + 16 * (1 - bits (s.kvFlags h) 4 4))).commit q.ledger 2 0xFFFFFFFF t.tag).setSeq h
        { q with cancel := some t }
    else ((s.setSeq h { q with cancel := some t }).endSeq h 5 2 0xFFFFFFFF false t.tag).forgetRestore h

theorem execCancel_legal (h : s.Commands queue host 3 cmd) (hz : firstNonzero cmd.raw ([1, 0x11] ++ span 0x20 0x40) = none) :
    execCancel queue host s = .next ((s.take queue cmd).2.cancelTaken queue (s.take queue cmd).1 cmd.seq) := by
  refine congrArg Host.Outcome.next ((takeCmd_commands h _ _ rfl).trans ?_)
  dsimp only
  rw [hz]
  rfl

variable {h : Nat} {q : SeqState}

/-- Of a sequence that is not served, it tells whether it has ended. -/
theorem cancelTaken_unserved (hs : s.seq? h = none) (hk : s.kvState h = 0 ∨ s.servedBy queue (s.kvLedger h) = true) :
    s.cancelTaken queue t h = if s.ended.any fun x => x.1 == h then s.complete t 8 h else s.complete t 2 h := by
  unfold cancelTaken
  rw [hs]
  exact if_neg (by rcases hk with hk | hk <;> simp [hk])

theorem cancelTaken_recordElsewhere (hs : s.seq? h = none) (hk : s.kvState h ≠ 0) (hq : s.servedBy queue (s.kvLedger h) = false) :
    s.cancelTaken queue t h = s.complete t 7 (s.kvLedger h) := by
  unfold cancelTaken
  rw [hs]
  exact if_pos ⟨hk, by simp [hq]⟩

theorem cancelTaken_elsewhere (hs : s.seq? h = some q) (hq : s.servedBy queue q.ledger = false) :
    s.cancelTaken queue t h = s.complete t 7 q.ledger := by
  unfold cancelTaken
  rw [hs]
  exact if_pos (by simp [hq])

variable (hs : s.seq? h = some q) (hq : s.servedBy queue q.ledger = true)
include hs hq

/-- A served sequence of the slice: a second CANCEL waits while it is pinned, a first is kept for the batch's end, and unpinned it ends. -/
theorem cancelTaken_served : s.cancelTaken queue t h =
    if s.kvPinned h && q.cancel.isSome then { s with heldCmds := s.heldCmds ++ [⟨h, 3, 0, some t⟩] }
    else if s.kvPinned h then
      ((s.decision.flags h (s.kvFlags h + 16 * (1 - bits (s.kvFlags h) 4 4))).commit q.ledger 2 0xFFFFFFFF t.tag).setSeq h
        { q with cancel := some t }
    else ((s.setSeq h { q with cancel := some t }).endSeq h 5 2 0xFFFFFFFF false t.tag).forgetRestore h := by
  unfold cancelTaken
  rw [hs]
  exact if_neg (by simp [hq])

theorem cancelTaken_unpinned (hp : s.kvPinned h = false) : s.cancelTaken queue t h =
    ((s.setSeq h { q with cancel := some t }).endSeq h 5 2 0xFFFFFFFF false t.tag).forgetRestore h := by
  rw [cancelTaken_served hs hq, if_neg (by simp [hp]), if_neg (by simp [hp])]

theorem cancelTaken_pinned (hp : s.kvPinned h = true) (hc : q.cancel = none) : s.cancelTaken queue t h =
    ((s.decision.flags h (s.kvFlags h + 16 * (1 - bits (s.kvFlags h) 4 4))).commit q.ledger 2 0xFFFFFFFF t.tag).setSeq h
      { q with cancel := some t } := by
  rw [cancelTaken_served hs hq, if_neg (by simp [hc]), if_pos hp]

theorem cancelTaken_again (hp : s.kvPinned h = true) (hc : q.cancel.isSome = true) :
    s.cancelTaken queue t h = { s with heldCmds := s.heldCmds ++ [⟨h, 3, 0, some t⟩] } := by
  rw [cancelTaken_served hs hq, if_pos (by simp [hp, hc])]

end Sys2Proof.Machine.State

namespace Sys2Proof.Machine.State

/-! ### Enabling of serving (R329) -/

theorem execServeEnable_disabled {s : State} {ledger value : Nat} (hl : ledger < 16) (h : s.takes (0x470100 + 64 * ledger))
    (hen : s.flag Reg.SEQ_SERVE.en ledger = false) (hv : bit value 31 = true) : execServeEnable ledger value s =
      .next ((s.setFld Reg.SEQ_SERVE.job (bits value 15 0) ledger).setFld Reg.SEQ_SERVE.en 1 ledger) :=
  congrArg Host.Outcome.next ((hostWrite_takes h _ _).trans (if_neg (by simp [hl, hen, hv])))

end Sys2Proof.Machine.State

namespace Sys2Proof.Machine

/-- Settles O35: an ADMIT by the tests it meets in order, a CANCEL by where its sequence stands, and the enabling write. -/
theorem admissionAndCancel : Obligations.AdmissionAndCancel := by
  unfold Obligations.AdmissionAndCancel
  refine ⟨fun s queue host param token cmd t p u h ht hp hu => ?_, fun s queue host cmd t u h ht hu hz => ?_,
    fun s ledger value => State.execServeEnable_disabled⟩
  · subst ht hp hu
    have hlegal (hl : admitIllegal cmd = none) {w : State} hw : exec (.admitSeq queue host param token) s = .next w :=
      (State.execAdmitSeq_legal h hl).trans (congrArg Host.Outcome.next hw)
    refine ⟨fun o => State.execAdmitSeq_illegal h, fun hl hq => hlegal hl (State.admitTaken_elsewhere hq), fun hl hq =>
      ⟨fun o hp => hlegal hl (State.admitTaken_paramIllegal hq hp), fun hp hk => hlegal hl (State.admitTaken_inUse hq hp hk),
        fun hp hk hsrc => ⟨fun hfree => ?_, fun hfull => ?_⟩⟩⟩
    · exact hlegal hl ((State.admitTaken_free hq hp hk hsrc).trans (if_neg hfree))
    · exact hlegal hl ((State.admitTaken_free hq hp hk hsrc).trans (if_pos hfull))
  · subst ht hu
    have hlegal {w : State} hw : exec (.cancel queue host) s = .next w :=
      (State.execCancel_legal h hz).trans (congrArg Host.Outcome.next hw)
    exact ⟨fun hs hk => hlegal (State.cancelTaken_unserved hs hk), fun hs hk hq => hlegal (State.cancelTaken_recordElsewhere hs hk hq),
      fun q hs hq => hlegal (State.cancelTaken_elsewhere hs hq), fun q hs hq => ⟨fun hp => hlegal (State.cancelTaken_unpinned hs hq hp),
        fun hp hc => hlegal (State.cancelTaken_pinned hs hq hp hc), fun hp hc => hlegal (State.cancelTaken_again hs hq hp hc)⟩⟩

end Sys2Proof.Machine
end


-- ==== Sys2Proof/Proofs/ClockFrame.lean ====
section
/-! A job that stops leaves the GSC as a reader sees it: what serving, its ledgers, its completions and the weight store's slots change is
nothing that a reading of the clock rests on (R28, R45). -/

namespace Sys2Proof.Machine

/-- The field holds neither FAB_GSC.value nor PWR_RATESTAT.active_mode. -/
def Field.offClock (f : Field) : Bool :=
  f.plain && !f.holds (Reg.FAB_GSC.value.key 0) && !f.holds (Reg.PWR_RATESTAT.active_mode.key 0)

/-- Of a counter, both the count and the sat bit are such fields. -/
def Field.countsOffClock (f : Field) : Bool :=
  f.offClock && ({ f with low := 48, width := 1, access := .w1c, reset := 0 } : Field).offClock

namespace State

/-- The registers that the GSC as a reader sees it depends on: the counter and the mode in force. -/
def clockRegs (r : List (Nat × Nat)) : Nat × Nat :=
  (Table.get Reg.FAB_GSC.value.reset r (Reg.FAB_GSC.value.key 0),
    Table.get Reg.PWR_RATESTAT.active_mode.reset r (Reg.PWR_RATESTAT.active_mode.key 0))

/-- Nothing that the GSC as a reader sees it depends on (R28, R45) differs in `t`. -/
@[simp] abbrev KeepsClock (s t : State) : Prop := clockRegs t.regs = clockRegs s.regs ∧ t.uptime = s.uptime ∧
  t.paceRate = s.paceRate ∧ t.naturalRate = s.naturalRate ∧ t.uncoreRatio = s.uncoreRatio

theorem KeepsClock.gscXdie_eq {s t : State} (h : KeepsClock s t) : t.gscXdie = s.gscXdie := by
  obtain ⟨hregs, hup, hpace, hnat, hratio⟩ := h
  have hgsc : t.gsc = s.gsc := congrArg Prod.fst hregs
  have hmode : t.flag Reg.PWR_RATESTAT.active_mode = s.flag Reg.PWR_RATESTAT.active_mode :=
    congrArg (fun x : Nat × Nat => x.2 != 0) hregs
  simp only [gscXdie, gscSeen, xdieRate, dpaRate, hgsc, hmode, hup, hpace, hnat, hratio]

theorem clockRegs_congr {s t : State} (hgsc : t.fld Reg.FAB_GSC.value = s.fld Reg.FAB_GSC.value)
    (hmode : t.fld Reg.PWR_RATESTAT.active_mode = s.fld Reg.PWR_RATESTAT.active_mode) : clockRegs t.regs = clockRegs s.regs :=
  Prod.ext hgsc hmode

/-- Telling keeps the clock where it keeps the two registers. -/
theorem Tells.keepsClock {s t : State} (h : s.Tells t) (hregs : clockRegs t.regs = clockRegs s.regs) : KeepsClock s t := by
  obtain ⟨x, rfl⟩ := h
  exact ⟨hregs, rfl, rfl, rfl, rfl⟩

/-! ### Combinators -/

@[simp] theorem ite_clock (c : Prop) [Decidable c] (a b : State) :
    clockRegs (if c then a else b).regs = (if c then clockRegs a.regs else clockRegs b.regs) ∧
    (if c then a else b).uptime = (if c then a.uptime else b.uptime) ∧
    (if c then a else b).paceRate = (if c then a.paceRate else b.paceRate) ∧
    (if c then a else b).naturalRate = (if c then a.naturalRate else b.naturalRate) ∧
    (if c then a else b).uncoreRatio = (if c then a.uncoreRatio else b.uncoreRatio) := by
  split <;> exact ⟨rfl, rfl, rfl, rfl, rfl⟩

@[simp] theorem ite_decision (c : Prop) [Decidable c] (a b : Decision) : (if c then a else b).s = if c then a.s else b.s :=
  apply_ite Decision.s c a b

@[simp] theorem foldl_clock {α : Type} (f : State → α → State) (l : List α) (s : State) (hf : ∀ s x, KeepsClock s (f s x)) :
    KeepsClock s (l.foldl f s) := by
  induction l generalizing s with
  | nil => simp
  | cons x l ih => simpa [hf] using ih (f s x)

@[simp] theorem foldl_decision_clock {α : Type} (f : Decision → α → Decision) (l : List α) (d : Decision)
    (hf : ∀ (d : Decision) x, KeepsClock d.s (f d x).s) : KeepsClock d.s (l.foldl f d).s := by
  induction l generalizing d with
  | nil => simp
  | cons x l ih => simpa [hf] using ih (f d x)

/-! ### Registers and reports -/

@[simp] theorem setFld_clock (s : State) (f : Field) (v i : Nat) (hf : f.offClock = true) : KeepsClock s (s.setFld f v i) := by
  simp only [Field.offClock, Bool.and_eq_true, Bool.not_eq_true'] at hf
  obtain ⟨⟨hp, hg⟩, hm⟩ := hf
  by_cases hi : i < f.count
  · have hkey := f.holds_key i hi (by simpa [Field.plain, or_iff_not_imp_left] using hp)
    have hne {k : Nat} (hk : f.holds k = false) : k ≠ f.key i := fun e => by simp [e, hkey] at hk
    exact ⟨clockRegs_congr (fld_setFld_ne _ _ _ _ _ _ (hne hg)) (fld_setFld_ne _ _ _ _ _ _ (hne hm)), rfl, rfl, rfl, rfl⟩
  · exact ⟨by simp [setFld, hi], rfl, rfl, rfl, rfl⟩

@[simp] theorem report_clock (s : State) (p : Suspect) (k c v : Nat) (l : List Nat) : KeepsClock s (s.report p k c v l) :=
  (tells_report s p k c v l).keepsClock
    (clockRegs_congr (report_fld s p k c v l (by decide)) (report_fld s p k c v l (by decide)))

/-- The fields that serving, the weight store's upkeep of its slots, and faults of memory store. -/
@[simp] theorem offClock_fields :
    Reg.MEM_EVT.late.offClock = true ∧ Reg.MEM_EVT.t2_fail.offClock = true ∧ Reg.MEM_EVT.t3_fail.offClock = true ∧
    Reg.MEM_T2MAP.state.offClock = true ∧ Reg.MEM_T3BASE.en.offClock = true ∧ Reg.FAB_OPEVT.refused_out.offClock = true ∧
    Reg.NVS_GEN.refs.offClock = true ∧ Reg.NVS_PATCHMAP.resident.offClock = true ∧ Reg.NVS_PATCHMAP.version.offClock = true ∧
    Reg.NVS_PATCHMAP.slot.offClock = true ∧
    Reg.NVS_PATCHSLOT.state.offClock = true ∧ Reg.NVS_PATCHSLOT.patch.offClock = true ∧ Reg.NVS_PATCHSLOT.refs.offClock = true ∧
    Reg.SEQ_KVEVT.park_fail.offClock = true ∧ Reg.SEQ_KVEVT.reject.offClock = true ∧ Reg.SEQ_KVSTAT.record.offClock = true ∧
    Reg.SEQ_KVSTAT.free_sets.offClock = true ∧ Reg.SEQ_KVSTAT.free_park.offClock = true ∧ Reg.SEQ_KVSTAT.free_tab.offClock = true ∧
    Reg.SEQ_QCFG.tail.offClock = true ∧ Reg.SEQ_SERVE.en.offClock = true ∧ Reg.SEQ_SERVE.inflight.offClock = true ∧
    Reg.SEQ_SRVEVT.cmd_fail.offClock = true ∧ Reg.SEQ_SRVEVT.lost.offClock = true ∧ Reg.SEQ_SRVEVT.nan_end.offClock = true ∧
    Reg.TOP_EVT.sat.offClock = true ∧ Reg.TOP_EVT.fault.offClock = true ∧ Reg.TOP_FAULT.cause.offClock = true ∧
    Reg.TOP_FAULT.slot.offClock = true ∧ Reg.TOP_FAULT.cls.offClock = true ∧ Reg.TOP_FAULT.gsc_lo.offClock = true ∧
    Reg.TOP_FAULT.valid.offClock = true ∧
    Reg.UNIT_FAULT.cause.offClock = true ∧ Reg.UNIT_EVT.fault.offClock = true ∧ Reg.XE_XCFG.en.offClock = true := by decide

@[simp] theorem countsOffClock_fields :
    Reg.MEM_LATECNT.count.countsOffClock = true ∧ Reg.MEM_STALLNS.count.countsOffClock = true ∧
    Reg.SEQ_KVDROPCNT.count.countsOffClock = true ∧ Reg.SEQ_KVPARKCNT.count.countsOffClock = true ∧
    Reg.SEQ_LOSTCNT.count.countsOffClock = true := by decide

@[simp] theorem raise_clock (s : State) (evt mask : Field) (he : evt.offClock = true) : KeepsClock s (s.raise evt mask) := by
  simp [raise, he]
theorem bump_clock (s : State) (f : Field) (n i : Nat) (hf : f.countsOffClock = true) : KeepsClock s (s.bump f n i).1 := by
  obtain ⟨hcount, hsat⟩ := Bool.and_eq_true_iff.mp hf
  unfold bump
  dsimp only
  split
  · simp
  · split
    · exact setFld_clock _ _ _ _ hcount
    · simp [hcount, hsat]
@[simp] theorem count_clock (s : State) (f : Field) (n i : Nat) (hf : f.countsOffClock = true) : KeepsClock s (s.count f n i) := by
  simp [count, countWith, bump_clock s f n i hf]
@[simp] theorem recordFault_clock (s : State) (c : Nat) (p : Suspect) (l : List Nat) : KeepsClock s (s.recordFault c p l) := by
  unfold recordFault
  split <;> simp [latchTop]
@[simp] theorem number_clock (s : State) (p : Packet) : KeepsClock s (s.number p).2 := (tells_number s p).keepsClock rfl
@[simp] theorem stamp_clock (s : State) (p : Packet) : KeepsClock s (s.stamp p).2 := (tells_stamp s p).keepsClock (by simp)
@[simp] theorem route_clock (s : State) (p : Packet) (b : Option Nat) (a : List Nat) : KeepsClock s (s.route p b a).2 :=
  (tells_route s p b a).keepsClock (by simp)
@[simp] theorem free_clock (s : State) : KeepsClock s s.free.2 := (tells_free s).keepsClock rfl

/-! ### Memory -/

@[simp] theorem storeLine_clock (s : State) (stack line : Nat) : KeepsClock s (s.storeLine stack line) := by simp [storeLine]
@[simp] theorem touchLines_clock (s : State) (off n : Nat) (write : Bool) : KeepsClock s (s.touchLines off n write) := by simp [touchLines]
@[simp] theorem t1Put_clock (s : State) (off : Nat) (bs : List Byte) : KeepsClock s (s.t1Put off bs) := by simp [t1Put]
@[simp] theorem t1Zero_clock (s : State) (off n : Nat) : KeepsClock s (s.t1Zero off n) := by simp [t1Zero]
@[simp] theorem t3Put_clock (s : State) (off : Nat) (bs : List Byte) : KeepsClock s (s.t3Put off bs) := by simp [t3Put]
@[simp] theorem areaPut_clock (s : State) (a : Nat) (bs : List Byte) : KeepsClock s (s.areaPut a bs) := by
  unfold areaPut
  split
  · simp
  · split <;> simp
@[simp] theorem countLate_clock (s : State) (waits : List (Nat × Nat)) (tier : Nat) : KeepsClock s (s.countLate waits tier) := by
  simp [countLate]
@[simp] theorem learnWait_clock (s : State) (waits : List (Nat × Nat)) (tier : Nat) : KeepsClock s (s.learnWait waits tier) := by
  simp [learnWait]
@[simp] theorem chargeWaits_clock (s : State) (waits : List (Nat × Nat)) : KeepsClock s (s.chargeWaits waits) := by simp [chargeWaits]
@[simp] theorem chargeBeats_clock (s : State) (beats : List (Nat × List (Nat × Nat))) : KeepsClock s (s.chargeBeats beats) := by
  simp [chargeBeats]

/-! ### Requests and packets -/

@[simp] theorem launchRequest_clock (s : State) (p : Packet) (owner : Owner) (dest : Nat) :
    KeepsClock s (s.launchRequest p owner dest) := by simp [launchRequest, apply_ite Prod.snd]
@[simp] theorem sendRequest_clock (s : State) (p : Packet) (owner : Owner) (dest : Nat) : KeepsClock s (s.sendRequest p owner dest) := by
  simp [sendRequest]
@[simp] theorem sendGroup_clock (s : State) (unit grp ptype : Nat) (payload : List Byte) (job : Nat) :
    KeepsClock s (s.sendGroup unit grp ptype payload job) := by simp [sendGroup, refusedOut]
@[simp] theorem copyRequests_clock (s : State) (ptype a n : Nat) (bs : List Byte) : KeepsClock s (s.copyRequests ptype a n bs) := by
  simp [copyRequests]

/-! ### Copies of parked sets -/

@[simp] theorem closePark_clock (s : State) (a : Nat) (write : Bool) : KeepsClock s (s.closePark a write) := by
  unfold closePark
  split
  · simp [failT3]
  · cases write
    · simp
    · cases s.t2Entry a 64 <;> simp [failT2]
  · simp
@[simp] theorem parkPut_clock (s : State) (a : Nat) (bs : List Byte) : KeepsClock s (s.parkPut a bs) := by
  unfold parkPut
  split <;> simp
@[simp] theorem parkAsk_clock (s : State) (a n : Nat) : KeepsClock s (s.parkAsk a n) := by
  unfold parkAsk
  split
  · exact foldl_clock _ _ _ fun s k => by simp [emit]
  · simp
  · simp
@[simp] theorem parkCopy_clock (s : State) (set slot : Nat) (cd : CopyData) : KeepsClock s (s.parkCopy set slot cd).1 := by
  simp [parkCopy]
@[simp] theorem restoreCopy_clock (s : State) (slot set : Nat) (cd : CopyData) : KeepsClock s (s.restoreCopy slot set cd).1 := by
  simp [restoreCopy, apply_ite Prod.fst]

/-! ### Ledger operations and decisions -/

@[simp] theorem putT1_clock (s : State) (a n v : Nat) : KeepsClock s (s.putT1 a n v) := by simp [putT1]
@[simp] theorem usePark_clock (s : State) (k : Nat) (u : Bool) : KeepsClock s (s.usePark k u) := by simp [usePark]
@[simp] theorem useTab_clock (s : State) (k : Nat) (u : Bool) : KeepsClock s (s.useTab k u) := by simp [useTab]
@[simp] theorem setEntry_clock (s : State) (h i e : Nat) : KeepsClock s (s.setEntry h i e) := by simp [setEntry]
@[simp] theorem setTblk_clock (s : State) (h k b : Nat) : KeepsClock s (s.setTblk h k b) := by simp [setTblk]
@[simp] theorem t1Copy_clock (s : State) (a b n : Nat) (keep : Nat → Bool) : KeepsClock s (s.t1Copy a b n keep) := by simp [t1Copy]
@[simp] theorem t1Drop_clock (s : State) (a n : Nat) (which : Nat → Bool) : KeepsClock s (s.t1Drop a n which) := by simp [t1Drop]
@[simp] theorem applyOp_clock (s : State) (o : LedgerOp) (cd : CopyData) : KeepsClock s (s.applyOp o cd).1 := by
  unfold applyOp
  split <;> simp [zeroSet, copySet, zeroSlots]

@[simp] theorem decision_s (s : State) (cd : CopyData) : (s.decision cd).s = s := rfl

section

variable (d : Decision)

@[simp] theorem op_clock (op handle a b c : Nat) : KeepsClock d.s (d.op op handle a b c).s := by simp [Decision.op]
@[simp] theorem field_clock (h off n v : Nat) : KeepsClock d.s (d.field h off n v).s := by simp [Decision.field]
@[simp] theorem flags_clock (h v : Nat) : KeepsClock d.s (d.flags h v).s := by simp [Decision.flags]
@[simp] theorem showSets_clock (h : Nat) : KeepsClock d.s (d.showSets h).s := by simp [Decision.showSets]
@[simp] theorem entry_clock (lg h i e : Nat) : KeepsClock d.s (d.entry lg h i e).s := by
  unfold Decision.entry
  cases d.s.freeTab lg <;> simp
@[simp] theorem replace_clock (lg h i e : Nat) : KeepsClock d.s (d.replace lg h i e).s := by simp [Decision.replace, Decision.unref]
@[simp] theorem freeBlocks_clock (h : Nat) : KeepsClock d.s (d.freeBlocks h).s := by simp [Decision.freeBlocks]
@[simp] theorem drop_clock (lg h i : Nat) : KeepsClock d.s (d.drop lg h i).s := by simp [Decision.drop]
@[simp] theorem dropFrom_clock (lg h i : Nat) : KeepsClock d.s (d.dropFrom lg h i).s := by simp [Decision.dropFrom]
@[simp] theorem copy_clock (op a b i : Nat) : KeepsClock d.s (d.copy op a b i).s := by simp [Decision.copy]
@[simp] theorem release_clock (lg h : Nat) : KeepsClock d.s (d.release lg h).s := by simp [Decision.release]
@[simp] theorem sendRecords_clock (s : State) (lg cause batch tag fuel : Nat) (ops : List LedgerOp) :
    KeepsClock s (s.sendRecords lg cause batch tag fuel ops) := by
  induction fuel generalizing s ops with
  | zero => simp [sendRecords]
  | succ fuel ih =>
    cases ops with
    | nil => simp [sendRecords]
    | cons op ops => simp [sendRecords, ih]
@[simp] theorem commit_clock (lg cause batch tag : Nat) : KeepsClock d.s (d.commit lg cause batch tag) := by
  simp [Decision.commit, showLedger]

end

/-! ### Completions and held commands -/

@[simp] theorem complete_clock (s : State) (t : Taken) (status detail : Nat) : KeepsClock s (s.complete t status detail) := by
  simp [complete, srvEvt]
@[simp] theorem completeKv_clock (s : State) (t : Option Taken) (status detail : Nat) : KeepsClock s (s.completeKv t status detail) := by
  cases t <;> simp [completeKv]
@[simp] theorem finishKv_clock (s : State) (t : Option Taken) (st : Nat) : KeepsClock s (s.finishKv t st) := by simp [finishKv]
@[simp] theorem dropFailed_clock (s : State) (lg h i : Nat) : KeepsClock s (s.dropFailed lg h i) := by simp [dropFailed]
@[simp] theorem copyFailed_clock (s : State) (lg h i : Nat) : KeepsClock s (s.copyFailed lg h i) := by simp [copyFailed]

theorem park_clock {s : State} {lg h ttl tag : Nat} {cd : CopyData} {x : Bool × State} (hx : s.park lg h ttl tag cd = some x) :
    KeepsClock s x.2 := by
  unfold park at hx
  dsimp only at hx
  split at hx
  · cases hx
  · cases hx
    simp

@[simp] theorem runPark_clock (s : State) (lg : Nat) (c : HeldCmd) (cd : CopyData) : KeepsClock s (s.runPark lg c cd) := by
  unfold runPark
  split
  · simp
  · split
    · next hx => simpa using park_clock hx
    · simp
@[simp] theorem releaseStream_clock (s : State) (q n : Nat) : KeepsClock s (s.releaseStream q n) := by simp [releaseStream]
@[simp] theorem settleSeq_clock (s : State) (h : Nat) (q : SeqState) (cancelStatus : Nat) : KeepsClock s (s.settleSeq h q cancelStatus) := by
  unfold settleSeq
  cases q.cancel <;> cases q.admission <;> simp
@[simp] theorem leaveSeq_clock (s : State) (h : Nat) : KeepsClock s (s.leaveSeq h) := by
  unfold leaveSeq
  split <;> simp
@[simp] theorem runHeld_clock (s : State) (lg : Nat) (c : HeldCmd) (cd : CopyData) : KeepsClock s (s.runHeld lg c cd) := by
  unfold runHeld
  (repeat' split) <;> simp

/-! ### The end of a sequence and of a flight -/

@[simp] theorem streamRecord_clock (s : State) (q handle flags status token pos : Nat) :
    KeepsClock s (s.streamRecord q handle flags status token pos) := by simp [streamRecord, setTail]
@[simp] theorem endSeq_clock (s : State) (h status cause batch : Nat) (finalDone : Bool) (tag : Nat) :
    KeepsClock s (s.endSeq h status cause batch finalDone tag) := by
  unfold endSeq
  split <;> simp [account, srvEvt]
@[simp] theorem closeRange_clock (s : State) (lg h batch first count newValid newLen : Nat) :
    KeepsClock s (s.closeRange lg h batch first count newValid newLen) := by simp [closeRange]
@[simp] theorem modSrv_clock (s : State) (i : Nat) (f : Serving → Serving) : KeepsClock s (s.modSrv i f) := by simp [modSrv, setSrv]
@[simp] theorem modNvs_clock (s : State) (f : Nvs → Nvs) : KeepsClock s (s.modNvs f) := by simp [modNvs]
@[simp] theorem placePload_clock (s : State) (c : NvCmd) : KeepsClock s (s.placePload c) := by
  unfold placePload
  split
  · simp
  · simp [unmapPatch, remeasure, measure5, modCmd]
@[simp] theorem retryPload_clock (s : State) : KeepsClock s s.retryPload := by
  unfold retryPload
  split <;> simp
@[simp] theorem settleSlot_clock (s : State) (i : Nat) : KeepsClock s (s.settleSlot i) := by simp [settleSlot, freeSlot]
@[simp] theorem dropFlight_clock (s : State) (lg : Nat) (f : Flight) : KeepsClock s (s.dropFlight lg f) := by simp [dropFlight]

/-! ### A job that stops -/

@[simp] theorem runHeldOf_clock (s : State) (lg h : Nat) (cd : CopyData) : KeepsClock s (s.runHeldOf lg h cd) := by simp [runHeldOf]
@[simp] theorem closeContext_clock (s : State) (x : Nat) : KeepsClock s (s.closeContext x) := by simp [closeContext]
@[simp] theorem stopServing_clock (s : State) (lg : Nat) : KeepsClock s (s.stopServing lg) := by simp [stopServing, srvEvt]
/-- What a job leaves behind when it stops serving keeps the clock. -/
theorem stopJob_clock (s : State) (j : Nat) : KeepsClock s (s.stopJob j) := by simp [stopJob]

end State
end Sys2Proof.Machine
end


-- ==== Sys2Proof/Proofs/Teardown.lean ====
section
/-! The opening of a region, and the teardown of a job (O44). -/

namespace Sys2Proof.Machine.State

variable {s : State}

/-! ### Regions (R404) -/

section

variable {region value : Nat} (hi : region < 256) (h : s.takes (0x804014 + 32 * region)) (hen : s.flag Reg.FAB_RGN.en region = false)
include hi h hen

/-- Of a region that is not open, the tests of R404 decide. -/
theorem execRegionEnable_closed : execRegionEnable region value s =
    .next (if s.regionRejected region value = true then s.raise Reg.FAB_OPEVT.rgn_reject Reg.FAB_OPEVTMASK.mask
      else { (((s.setFld Reg.FAB_RGN.job (bits value 15 0) region).setFld Reg.FAB_RGN.kind (bits value 17 16) region).setFld Reg.FAB_RGN.rights
        (bits value 27 24) region).setFld Reg.FAB_RGN.en 1 region with queuesIn := Table.set MsgQueue.empty s.queuesIn region MsgQueue.empty }) :=
  congrArg Host.Outcome.next ((hostWrite_takes h _ _).trans (if_neg (by simp [hi, hen])))

end

/-! ### Teardown (R331, R349, R421) -/

section

variable {hd : PacketHead} {job reason number : Nat} {v : Seen} {u w : State}

/-- The teardown of an active job is shown, and its sender is kept. -/
def beginTeardown (s : State) (hd : PacketHead) (job reason number : Nat) : State :=
  { s.showTeardown 1 job reason with tearing := s.tearing ++ [⟨job, hd.source, number, reason⟩] }

/-- A job that is not active is done at once: what serves it stops. -/
def endTeardown (s : State) (job reason : Nat) : State := (s.stopJob job).showTeardown 2 job reason

/-- What a teardown does once the fabric of its job is closed. -/
def teardownJob (s : State) (hd : PacketHead) (job reason number : Nat) : State :=
  match s.job? job with
  | none => (s.endTeardown job reason).sendControl hd.source false 0x21 (teardownLine job reason 1 number s.gscXdie) job
  | some x =>
    if x.fault.isSome then s.beginTeardown hd job reason number else ((s.beginTeardown hd job reason number).markFault job 0x100 true).settle

/-- A fresh teardown raises its event and its fault, closes the fabric of its job, and marks it torn down. -/
theorem execTeardownReceive_fresh (h : s.FreshControl hd v)
    (hu : u = State.recordFault ((s.taken hd v).raise Reg.FAB_OPEVT.teardown Reg.FAB_OPEVTMASK.mask) 0x0505 .module [job, reason, number])
    (hw : w = { u.closeJobFabric job with torn := Table.set false u.torn job true }) :
    execTeardownReceive hd job reason number s = .next (w.teardownJob hd job reason number) := by
  -- The closing of the fabric goes over 2,304 entries: under a name of its own it is not computed when the two sides are compared.
  obtain ⟨close, hclose⟩ : ∃ close, close = closeJobFabric := ⟨_, rfl⟩
  unfold execTeardownReceive
  rw [← hclose] at hw ⊢
  subst hu hw
  exact congrArg Host.Outcome.next (controlTake_fresh h _)

theorem showTeardown_clock (s : State) (state job reason : Nat) : KeepsClock s (s.showTeardown state job reason) := by
  have hfields : Reg.FAB_TDSTAT.state.offClock = true ∧ Reg.FAB_TDSTAT.job.offClock = true ∧ Reg.FAB_TDSTAT.reason.offClock = true := by
    decide
  simp [showTeardown, hfields]

/-- The sender is told with the clock as it reads afterwards, which is as it reads before. -/
theorem endTeardown_gscXdie (s : State) (job reason : Nat) : (s.endTeardown job reason).gscXdie = s.gscXdie :=
  (showTeardown_clock _ _ _ _).gscXdie_eq.trans (stopJob_clock s job).gscXdie_eq

theorem teardownJob_inactive (hj : s.job? job = none) : s.teardownJob hd job reason number =
    (s.endTeardown job reason).sendControl hd.source false 0x21 (teardownLine job reason 1 number (s.endTeardown job reason).gscXdie) job := by
  unfold teardownJob
  rw [hj, endTeardown_gscXdie]

variable {x : Job} (hj : s.job? job = some x)
include hj

theorem teardownJob_healthy (hx : x.fault = none) :
    s.teardownJob hd job reason number = ((s.beginTeardown hd job reason number).markFault job 0x100 true).settle := by
  unfold teardownJob
  rw [hj]
  exact if_neg (by simp [hx])

theorem teardownJob_faulted (hx : x.fault ≠ none) : s.teardownJob hd job reason number = s.beginTeardown hd job reason number := by
  unfold teardownJob
  rw [hj]
  exact if_pos (Option.isSome_iff_ne_none.mpr hx)

end

/-- Once the job is no longer active the teardown is complete, and its sender is told. -/
theorem execTeardownComplete_ended {job : Nat} {t : Teardown} (ht : (s.tearing.find? fun t => t.job == job) = some t)
    (hj : s.job? job = none) : execTeardownComplete job s =
      .next ((State.showTeardown { s with tearing := s.tearing.erase t } 2 job t.reason).sendControl t.source false 0x21
        (teardownLine job t.reason 0 t.number s.gscXdie) job) := by
  unfold execTeardownComplete
  rw [ht]
  exact congrArg Host.Outcome.next (if_neg (by simp [hj]))

end Sys2Proof.Machine.State

namespace Sys2Proof.Machine

/-- Settles O44: the two answers to an opening write, the teardown by whether its job is active and faulted, and its completion. -/
theorem regionsAndTeardown : Obligations.RegionsAndTeardown := by
  unfold Obligations.RegionsAndTeardown
  refine ⟨fun s region value hi h hen hr => ?_, fun s region value hi h hen hr => ?_,
    fun s hd job reason number v u w h hu hw => ⟨fun hj => ⟨_, rfl, ?_⟩, fun x hj => ⟨_, rfl, fun hx => ?_, fun hx => ?_⟩⟩,
    fun s job t => State.execTeardownComplete_ended⟩
  · exact (State.execRegionEnable_closed hi h hen).trans (congrArg Host.Outcome.next (if_neg (by simp [hr])))
  · exact (State.execRegionEnable_closed hi h hen).trans (congrArg Host.Outcome.next (if_pos hr))
  · exact (State.execTeardownReceive_fresh h hu hw).trans (congrArg Host.Outcome.next (State.teardownJob_inactive hj))
  · exact (State.execTeardownReceive_fresh h hu hw).trans (congrArg Host.Outcome.next (State.teardownJob_healthy hj hx))
  · exact (State.execTeardownReceive_fresh h hu hw).trans (congrArg Host.Outcome.next (State.teardownJob_faulted hj hx))

end Sys2Proof.Machine
end


-- ==== Sys2Proof/Proofs/ExpertExchange.lean ====
section
/-! The choices of the expert exchange (chapter 14): a token names different experts, and a block names different slots. -/

namespace Sys2Proof.Machine

/-! ### The hash (R336) -/

/-- The ranks that the hash may ask for all exist: at most `taken.length` of the experts are gone. -/
theorem length_unused_ge (experts : Nat) (taken : List Nat) :
    experts - taken.length ≤ ((List.range experts).filter fun e => !taken.contains e).length := by
  have hcover : List.range experts ⊆ taken ++ (List.range experts).filter fun e => !taken.contains e := by
    intro e he
    by_cases h : e ∈ taken <;> simp [h, List.mem_range.mp he]
  have hle := (List.subperm_of_subset List.nodup_range hcover).length_le
  simp only [List.length_range, List.length_append] at hle
  omega

theorem nthUnused_fresh {experts r : Nat} {taken : List Nat} (hr : r < experts - taken.length) :
    nthUnused experts taken r < experts ∧ nthUnused experts taken r ∉ taken := by
  have hlt := hr.trans_le (length_unused_ge experts taken)
  have hmem := List.getElem_mem hlt
  rw [← List.getD_eq_getElem _ 0 hlt] at hmem
  simpa [nthUnused] using hmem

/-- Choices that a row may have made so far: different experts of the exchange. -/
def AreChoices (experts : Nat) (taken : List Nat) : Prop := taken.Nodup ∧ ∀ e ∈ taken, e < experts

theorem AreChoices.append_nthUnused {experts r : Nat} {taken : List Nat} (h : AreChoices experts taken)
    (hr : r < experts - taken.length) : AreChoices experts (taken ++ [nthUnused experts taken r]) := by
  obtain ⟨hnodup, hbelow⟩ := h
  obtain ⟨hnew, hfresh⟩ := nthUnused_fresh hr
  refine ⟨List.nodup_append_comm.mp (List.nodup_cons.mpr ⟨hfresh, hnodup⟩), fun e he => ?_⟩
  obtain he | he := List.mem_append.mp he
  · exact hbelow e he
  · exact List.mem_singleton.mp he ▸ hnew

theorem chooseFrom_areChoices {experts n : Nat} (x : Nat) {taken : List Nat} (h : AreChoices experts taken)
    (hn : taken.length + n ≤ experts) :
    (chooseFrom experts n x taken).length = taken.length + n ∧ AreChoices experts (chooseFrom experts n x taken) := by
  induction n generalizing x taken with
  | zero => exact ⟨rfl, h⟩
  | succ n ih =>
    have hrank : bits x 63 32 % (experts - taken.length) < experts - taken.length := Nat.mod_lt _ (by omega)
    simpa only [chooseFrom, List.length_append, List.length_singleton, Nat.add_assoc, Nat.add_comm 1 n] using
      ih (splitmix x) (h.append_nthUnused hrank) (by simp only [List.length_append, List.length_singleton]; omega)

theorem routeToken_areChoices (seed token layer : Nat) {experts k : Nat} (hk : k ≤ experts) :
    (routeToken seed token layer experts k).length = k ∧ AreChoices experts (routeToken seed token layer experts k) := by
  have hnone : AreChoices experts [] := ⟨List.nodup_nil, fun _ he => absurd he List.not_mem_nil⟩
  unfold routeToken
  simpa only [List.length_nil, Nat.zero_add] using chooseFrom_areChoices _ hnone (n := k) (by simpa using hk)

/-! ### The places of a block's choices (R337) -/

/-- The counts of earlier choices that the picks of one expert carry, in order. -/
def placesOf (ps : List Pick) (e : Nat) : List Nat := (ps.filter fun p => p.expert == e).map (·.earlier)

theorem placesOf_append_pick (ps : List Pick) (p : Pick) (e : Nat) :
    placesOf (ps ++ [p]) e = placesOf ps e ++ if p.expert = e then [p.earlier] else [] := by
  by_cases h : p.expert = e <;> simp [placesOf, h]

/-- What the fold of `picks` keeps: of every expert chosen `n` times so far, the picks have the places 0 to `n` - 1 in order. -/
def PlacesCount (acc : List Pick × List Nat) : Prop := ∀ e, placesOf acc.1 e = List.range (acc.2.count e)

theorem PlacesCount.pick {acc : List Pick × List Nat} (h : PlacesCount acc) (entry choice expert : Nat) :
    PlacesCount (acc.1 ++ [⟨entry, choice, expert, acc.2.count expert⟩], expert :: acc.2) := by
  intro e
  rw [placesOf_append_pick, h e]
  by_cases he : expert = e
  · subst he
    simp [List.range_succ]
  · simp [he]

/-- The picks of an expert have the places 0, 1, 2, … in order. -/
theorem placesOf_picks (rows : List (List Nat)) (e : Nat) : placesOf (picks rows) e = List.range (placesOf (picks rows) e).length := by
  have hcount : ∃ chosen, PlacesCount (picks rows, chosen) :=
    ⟨_, List.foldlRecOn (motive := PlacesCount) _ _ (fun _ => rfl) fun _ h z _ => h.pick z.1 z.2.1 z.2.2⟩
  obtain ⟨chosen, h⟩ := hcount
  rw [h e, List.length_range]

/-- Picks whose places differ expert by expert differ in expert or place. -/
theorem nodup_expert_place {ps : List Pick} (h : ∀ e, (placesOf ps e).Nodup) : (ps.map fun p => (p.expert, p.earlier)).Nodup := by
  refine List.pairwise_map.mpr (List.pairwise_iff_forall_sublist.mpr fun {p q} hpq heq => ?_)
  obtain ⟨hexpert, hplace⟩ := Prod.mk.inj heq
  have hplaces : List.Sublist [p.earlier, q.earlier] (placesOf ps q.expert) := by
    simpa [placesOf, hexpert] using (hpq.filter fun x => x.expert == q.expert).map (·.earlier)
  simpa [hplace] using (h q.expert).sublist hplaces

/-- Settles O38: the route by the choices that `chooseFrom` keeps, the picks by the places of each expert. -/
theorem exchangeRouting : Obligations.ExchangeRouting := by
  unfold Obligations.ExchangeRouting
  refine ⟨fun seed token layer experts k hk => routeToken_areChoices seed token layer hk, fun rows =>
    ⟨nodup_expert_place fun e => ?_, fun e => ?_⟩⟩
  · rw [placesOf_picks]
    exact List.nodup_range
  · simpa only [placesOf, List.length_map] using placesOf_picks rows e

end Sys2Proof.Machine
end

