-- ==== Sys2Proof/Proofs/EveryCommand.lean ====
section
/-! Every command answers a next state and leaves the queue of those that wait alone (O3): the lemmas of Laws/Queue for the operations, and one
lemma here for each command whose branches they do not settle by themselves. -/

namespace Sys2Proof.Machine.State

/-- The state a command answers keeps the queue when the state its meaning computes does. -/
theorem pending_of_next {a s t : State} (h : (.next a : Host.Outcome State Fault Refusal) = .next t) (ha : a.pending = s.pending) :
    t.pending = s.pending := by
  cases h
  exact ha

/-- Two branches that keep the queue keep it together. -/
theorem ite_keeps_pending {p : List Instr} {c : Prop} [Decidable c] {a b : State} (ha : a.pending = p) (hb : b.pending = p) :
    (if c then a else b).pending = p := by
  split <;> assumption

/-! ### Sequencer rows and completions at a core -/

theorem execRds_pending {core : Nat} {s t : State} (h : execRds core s = .next t) : t.pending = s.pending := by
  refine pending_of_next h (issue_pending _ _ _ _ fun u w t => ?_)
  dsimp only
  split <;> simp

theorem execMovl_pending {core : Nat} {s t : State} (h : execMovl core s = .next t) : t.pending = s.pending :=
  pending_of_next h (issue_pending _ _ _ _ fun _ _ _ => pushMover_pending _ _ _ _)

theorem execMfill_pending {core : Nat} {s t : State} (h : execMfill core s = .next t) : t.pending = s.pending :=
  pending_of_next h (issue_pending _ _ _ _ fun _ _ _ => pushMover_pending _ _ _ _)

theorem execMovd_pending {core : Nat} {s t : State} (h : execMovd core s = .next t) : t.pending = s.pending :=
  pending_of_next h (issue_pending _ _ _ _ fun _ _ _ => pushMover_pending _ _ _ _)

theorem execMrecv_pending {core : Nat} {s t : State} (h : execMrecv core s = .next t) : t.pending = s.pending := by
  refine pending_of_next h (issue_pending _ _ _ _ fun u w t => ?_)
  dsimp only
  split
  · rfl
  · split
    · rfl
    · exact ite_keeps_pending (by simp) (by simp)

theorem execTclaimReturn_pending {core : Nat} {s t : State} (h : execTclaimReturn core s = .next t) : t.pending = s.pending := by
  refine pending_of_next h ?_
  dsimp only
  split
  · split
    · exact (issueNow_pending _ _ _ _ _ fun _ => by simp).trans (by simp)
    · rfl
  · rfl

theorem execCorePartEnd_pending {core : Nat} {s t : State} (h : execCorePartEnd core s = .next t) : t.pending = s.pending := by
  refine pending_of_next h (ite_keeps_pending rfl ?_)
  dsimp only
  split
  · simp
  · exact ite_keeps_pending (by simp) (by simp)

theorem execDpassComplete_pending {core : Nat} {parity : Option DpaParity} {s t : State} (h : execDpassComplete core parity s = .next t) :
    t.pending = s.pending := by
  refine pending_of_next h ?_
  dsimp only
  split
  · rfl
  · refine ite_keeps_pending rfl ?_
    cases (s.chargeDpa core _).bankError core _ _ <;> simp

theorem execMoverBeatComplete_pending {core mover : Nat} {beat : BeatReport} {s t : State} (h : execMoverBeatComplete core mover beat s = .next t) :
    t.pending = s.pending := by
  refine pending_of_next h (ite_keeps_pending rfl ?_)
  dsimp only
  split
  · simp
  · cases beat.uncorrectable <;> simp

theorem execXeRowsTaken_pending {taken : RowsTaken} {s t : State} (h : execXeRowsTaken taken s = .next t) : t.pending = s.pending := by
  refine pending_of_next h ?_
  dsimp only
  split
  · rfl
  · next o _ =>
    have work {u : State} (hu : (if o.op = 0x80 then (s.chargeBeats taken.beats).dispatch taken.core o
        else (s.chargeBeats taken.beats).giveBack taken.core o) = some u) : u.pending = s.pending := by
      split at hu
      · exact (dispatch_pending _ _ _ _ hu).trans (by simp)
      · exact (giveBack_pending _ _ _ _ hu).trans (by simp)
    refine ite_keeps_pending rfl ?_
    split
    · exact (endEngineOp_pending _ _ _ _ _).trans (work ‹_›)
    · simp

theorem execSeOpComplete_pending {core : Nat} {copies : CopyData} {s t : State} (h : execSeOpComplete core copies s = .next t) :
    t.pending = s.pending := by
  refine pending_of_next h ?_
  split
  · rfl
  · refine ite_keeps_pending rfl ?_
    split
    · rfl
    · exact (endEngineOp_pending _ _ _ _ _).trans ((seWork_pending _ _ _ _ _ ‹_›).trans (chargeBeats_pending _ _))

/-! ### The memory system and the weight store -/

theorem execBar4Read_pending {offset bytes : Nat} {report : BankReport} {s t : State} (h : execBar4Read offset bytes report s = .next t) :
    t.pending = s.pending := by
  unfold execBar4Read at h
  extract_lets u got data v got' data' w at h
  have hv : v.pending = s.pending := (t1Read_pending _ _ _).trans (bankFound_pending _ _)
  have hw : w.pending = s.pending := (afterScan_pending _ _ _).trans hv
  clear_value v w
  exact pending_of_next h (ite_keeps_pending rfl (ite_keeps_pending (emit_pending _ _)
    (ite_keeps_pending ((emit_pending _ _).trans hv) ((emit_pending _ _).trans hw))))

theorem execMemLockSet_pending {s t : State} (h : execMemLockSet s = .next t) : t.pending = s.pending :=
  pending_of_next h (hostWrite_pending _ _ _ _ fun _ => rfl)

theorem execT2RecallReceive_pending {hd : PacketHead} {roff length recallEnd : Nat} {s t : State}
    (h : execT2RecallReceive hd roff length recallEnd s = .next t) : t.pending = s.pending := by
  refine pending_of_next h (engineTake_pending _ _ _ _ fun u => ?_)
  dsimp only
  have marked (l : List Nat) := foldl_pending (fun s i => (s.setFld Reg.MEM_T2MAP.state 2 i).setFld Reg.MEM_T2MAP.recall_end recallEnd i) l u
    fun _ _ => rfl
  exact ite_keeps_pending (marked _) ((raise_pending _ _ _).trans (marked _))

theorem execT2ReleaseReceive_pending {hd : PacketHead} {key : Nat} {s t : State} (h : execT2ReleaseReceive hd key s = .next t) :
    t.pending = s.pending :=
  pending_of_next h (engineTake_pending _ _ _ _ fun _ => foldl_pending _ _ _ fun _ _ => rfl)

theorem execLendZeroingComplete_pending {entry : Nat} {s t : State} (h : execLendZeroingComplete entry s = .next t) : t.pending = s.pending :=
  pending_of_next h (ite_keeps_pending rfl ((setFld_pending _ _ _ _).trans (t1Zero_pending _ _ _)))

theorem execNvsCommandComplete_pending {key : Nat} {report : NvsReport} {s t : State} (h : execNvsCommandComplete key report s = .next t) :
    t.pending = s.pending := by
  refine pending_of_next h ?_
  dsimp only
  split
  · rfl
  · next c _ =>
    have hw : (if c.result.isNone then s.nvWork c report else s).pending = s.pending := ite_keeps_pending (nvWork_pending _ _ _) rfl
    refine ite_keeps_pending rfl ?_
    split
    · split
      · exact ite_keeps_pending ((nvSettle_pending _).trans hw) (ite_keeps_pending ((nvRecord_pending _ _ _ _).trans hw) hw)
      · exact hw
    · exact hw

theorem execNandOperationFail_pending {block : Nat} {s t : State} (h : execNandOperationFail block s = .next t) : t.pending = s.pending := by
  refine pending_of_next h (ite_keeps_pending rfl ?_)
  dsimp only
  split <;> simp

theorem execNvsWearLevel_pending {channel : Nat} {s t : State} (h : execNvsWearLevel channel s = .next t) : t.pending = s.pending := by
  unfold execNvsWearLevel at h
  -- The pages of a channel are a long computed list: an opaque name keeps the kernel from evaluating it.
  obtain ⟨pages, hpages⟩ : ∃ p, p = nvChannel channel := ⟨_, rfl⟩
  rw [← hpages] at h
  refine pending_of_next h (ite_keeps_pending rfl ?_)
  split
  · rfl
  · refine ite_keeps_pending rfl ?_
    dsimp only
    split
    · exact ite_keeps_pending (by simp) (by simp)
    · rfl

theorem execKeeperChunkReceive_pending {hd : PacketHead} {shard chunk : Nat} {lines : ItemLines} {s t : State}
    (h : execKeeperChunkReceive hd shard chunk lines s = .next t) : t.pending = s.pending := by
  refine pending_of_next h (engineTake_pending _ _ _ _ fun u => ?_)
  dsimp only
  split
  · rfl
  · refine ite_keeps_pending rfl ?_
    split <;> simp

theorem execKeeperMarkerReceive_pending {hd : PacketHead} {shard kind sent : Nat} {s t : State}
    (h : execKeeperMarkerReceive hd shard kind sent s = .next t) : t.pending = s.pending := by
  refine pending_of_next h (engineTake_pending _ _ _ _ fun u => ?_)
  split <;> simp

theorem foldl_nvFetch_pending (s : State) (base : Nat) (ks : List Nat) :
    (ks.foldl (fun s k => (s.nvFetch (base + 65536 * k) 65536).2) s).pending = s.pending :=
  foldl_pending _ _ _ fun _ _ => nvFetch_pending _ _ _

theorem execRepairRequestReceive_pending {hd : PacketHead} {shard : Nat} {chunks : List Nat} {s t : State}
    (h : execRepairRequestReceive hd shard chunks s = .next t) : t.pending = s.pending := by
  refine pending_of_next h (engineTake_pending _ _ _ _ fun u => ?_)
  split
  · exact (sendEngine_pending _ _ _ _ _ _).trans ((sendChunks_pending _ _ _ _).trans (foldl_nvFetch_pending _ _ _))
  · rfl

theorem execGenSetReady_pending {slot : Nat} {s t : State} (h : execGenSetReady slot s = .next t) : t.pending = s.pending := by
  refine pending_of_next h (hostWrite_pending _ _ _ _ fun u => ?_)
  dsimp only
  cases u.manifest? (u.fld Reg.NVS_GEN.gen slot) <;> simp

/-! ### Queues, sequences and jobs -/

theorem execFork_pending {queue : Nat} {host : List Byte} {s t : State} (h : execFork queue host s = .next t) : t.pending = s.pending := by
  refine pending_of_next h (takeCmd_pending _ _ _ _ _ fun u t cmd => ?_)
  have ended (st : Nat) : (u.endKv t st).pending = u.pending := endKv_pending _ _ _
  refine ite_keeps_pending (ended 1) (ite_keeps_pending (ended 2) (ite_keeps_pending (ended 7) (ite_keeps_pending (ended 2)
    (ite_keeps_pending (ended 1) ?_))))
  split
  · exact (endKv_pending _ _ _).trans (fork_pending _ _ _ _ _ _ _ _ _ ‹_›)
  · exact ended 3

theorem execRestore_pending {queue : Nat} {host : List Byte} {copies : CopyData} {s t : State} (h : execRestore queue host copies s = .next t) :
    t.pending = s.pending := by
  refine pending_of_next h (takeCmd_pending _ _ _ _ _ fun _ _ _ => onSequence_pending _ _ _ _ _ _ fun u lg => ?_)
  refine ite_keeps_pending (endKv_pending _ _ _) ?_
  split
  · exact restore_pending _ _ _ _ _ _ _ ‹_›
  · exact endKv_pending _ _ _

theorem readLaunch_pending (s : State) (b : Nat) : (s.readLaunch b).pending = s.pending := by
  unfold State.readLaunch
  simp

theorem execLaunch_pending {queue : Nat} {host : List Byte} {s t : State} (h : execLaunch queue host s = .next t) : t.pending = s.pending := by
  refine pending_of_next h (takeCmd_pending _ _ _ _ _ fun u t cmd => ?_)
  split
  · simp
  · dsimp only
    split <;> simp [readLaunch_pending]

theorem execAdmitSeq_pending {queue : Nat} {host param : List Byte} {token : Nat} {s t : State}
    (h : execAdmitSeq queue host param token s = .next t) : t.pending = s.pending := by
  refine pending_of_next h (takeCmd_pending _ _ _ _ _ fun u t cmd => ?_)
  split
  · simp
  · dsimp only
    refine ite_keeps_pending (by simp) ?_
    split <;> simp

theorem execCancel_pending {queue : Nat} {host : List Byte} {s t : State} (h : execCancel queue host s = .next t) : t.pending = s.pending := by
  refine pending_of_next h (takeCmd_pending _ _ _ _ _ fun u t cmd => ?_)
  dsimp only
  split
  · simp
  · split <;> simp

theorem execBatchForm_pending {ledger : Nat} {copies : CopyData} {s t : State} (h : execBatchForm ledger copies s = .next t) :
    t.pending = s.pending := by
  refine pending_of_next h (ite_keeps_pending rfl ?_)
  dsimp only
  split <;> simp

theorem execBatchDescriptorReceive_pending {hd : PacketHead} {lines : BatchLines} {s t : State}
    (h : execBatchDescriptorReceive hd lines s = .next t) : t.pending = s.pending := by
  refine pending_of_next h (engineTake_pending _ _ _ _ fun u => ite_keeps_pending rfl ?_)
  dsimp only
  split <;> simp

theorem execSamplerPartialReceive_pending {hd : PacketHead} {ledger batch row : Nat} {half : PartialHalf} {s t : State}
    (h : execSamplerPartialReceive hd ledger batch row half s = .next t) : t.pending = s.pending := by
  refine pending_of_next h (engineTake_pending _ _ _ _ fun u => ?_)
  dsimp only
  split <;> simp

theorem execSwitchSaveComplete_pending {job cdie : Nat} {s t : State} (h : execSwitchSaveComplete job cdie s = .next t) :
    t.pending = s.pending := by
  refine pending_of_next h ?_
  split
  · rfl
  · refine ite_keeps_pending rfl ?_
    dsimp only
    split <;> simp

/-! ### The fabric, the clock and power -/

theorem execDelayResponseReceive_pending {hd : PacketHead} {exchange plane gm t4 : Nat} {corr : Int} {s t : State}
    (h : execDelayResponseReceive hd exchange plane gm t4 corr s = .next t) : t.pending = s.pending := by
  refine pending_of_next h (timingTake_pending _ _ _ fun u => ite_keeps_pending (by simp) ?_)
  dsimp only
  split <;> simp

theorem execGscMedianUpdate_pending {s t : State} (h : execGscMedianUpdate s = .next t) : t.pending = s.pending := by
  refine pending_of_next h (ite_keeps_pending rfl ?_)
  dsimp only
  split <;> simp

theorem execGscLowRead_pending {s t : State} (h : execGscLowRead s = .next t) : t.pending = s.pending :=
  pending_of_next h (hostRead_pending _ _ _ _ fun _ => rfl)

theorem execGscHighRead_pending {s t : State} (h : execGscHighRead s = .next t) : t.pending = s.pending :=
  pending_of_next h (hostRead_pending _ _ _ _ fun _ => rfl)

theorem execFabricResponseReceive_pending {hd : ResponseHead} {data : List Byte} {s t : State}
    (h : execFabricResponseReceive hd data s = .next t) : t.pending = s.pending := by
  refine pending_of_next h (ite_keeps_pending rfl ?_)
  split
  · simp
  · next r _ =>
    dsimp only
    split
    · simp
    · generalize hu : State.modRequest _ _ _ _ = u
      have kept : u.pending = s.pending := by simp [← hu]
      cases hr : u.resend r (hd.plane :: r.unreachable) 0 with
      | none => simp [kept]
      | some v => exact (resend_pending _ _ _ _ _ hr).trans kept
    · simp

theorem execRequestAttemptTimeout_pending {tag seq : Nat} {s t : State} (h : execRequestAttemptTimeout tag seq s = .next t) :
    t.pending = s.pending := by
  refine pending_of_next h ?_
  split
  · rfl
  · next r _ =>
    refine ite_keeps_pending rfl (ite_keeps_pending (by simp) ?_)
    cases hr : s.resend r [] 1 with
    | none => simp
    | some v => simp [resend_pending _ _ _ _ _ hr]

theorem execTeardownReceive_pending {hd : PacketHead} {job reason number : Nat} {s t : State}
    (h : execTeardownReceive hd job reason number s = .next t) : t.pending = s.pending := by
  have hc := closeJobFabric_pending
  unfold execTeardownReceive at h
  -- `closeJobFabric` folds over 2,048 credit entries: an opaque name keeps the kernel from evaluating it.
  obtain ⟨close, hclose⟩ : ∃ f, f = State.closeJobFabric := ⟨_, rfl⟩
  rw [← hclose] at h hc
  refine pending_of_next h (controlTake_pending _ _ _ fun u => ?_)
  extract_lets _ _ w
  have hw : w.pending = u.pending := by simp +zetaDelta [hc]
  clear_value w
  split
  · simp [hw]
  · exact ite_keeps_pending hw ((settle_pending _).trans ((markFault_pending _ _ _ _).trans hw))

theorem execTailwindDecision_pending {s t : State} (h : execTailwindDecision s = .next t) : t.pending = s.pending := by
  refine pending_of_next h (ite_keeps_pending rfl ?_)
  dsimp only
  split
  · simp
  · refine ite_keeps_pending (by simp) (ite_keeps_pending ?_ (by simp))
    split <;> simp

theorem execDiodeSample_pending {temps : List Int} {s t : State} (h : execDiodeSample temps s = .next t) : t.pending = s.pending := by
  refine pending_of_next h ?_
  have shown := foldl_pending (fun s x => s.setFld Reg.PWR_DIODE.temp (unsigned 16 x.1) x.2) (temps.take 72).zipIdx s fun _ _ => rfl
  simpa using shown

theorem execGetPdr_pending {binding ep handle : Nat} {s t : State} (h : execGetPdr binding ep handle s = .next t) : t.pending = s.pending := by
  refine pending_of_next h (pldmCmd_pending _ _ _ _ _ _ fun u => ?_)
  dsimp only
  split <;> rfl

theorem execCounterSatClear_pending {counter : Nat} {s t : State} (h : execCounterSatClear counter s = .next t) : t.pending = s.pending := by
  refine pending_of_next h ?_
  split
  · exact ite_keeps_pending rfl (hostWrite_pending _ _ _ _ fun _ => clearBit_pending _ _ _)
  · rfl

theorem execFraySample_pending {counts : List Nat} {s t : State} (h : execFraySample counts s = .next t) : t.pending = s.pending := by
  refine pending_of_next h (ite_keeps_pending rfl ?_)
  dsimp only
  split
  · exact ite_keeps_pending (by simp) (by simp)
  · simp

/-! ### Start and shutdown -/

theorem execStageRefitComplete_pending {counts : List Nat} {s t : State} (h : execStageRefitComplete counts s = .next t) :
    t.pending = s.pending := by
  refine pending_of_next h (ite_keeps_pending rfl ?_)
  dsimp only
  split <;> simp

theorem execStageCheckComplete_pending {found : List RepairEntry} {s t : State} (h : execStageCheckComplete found s = .next t) :
    t.pending = s.pending := by
  refine pending_of_next h (ite_keeps_pending rfl ?_)
  refine (toStage_pending _ _).trans ((showEntries_pending _).trans ((setFlag_pending _ _ _ _).trans ?_))
  exact (foldl_pending (fun s u => s.setFld Reg.UNIT_STATE.stale 1 u) _ _ fun _ _ => rfl).trans
    ((resetFlds_pending _ _).trans (modPersist_pending _ _))

theorem execStagePublishComplete_pending {s t : State} (h : execStagePublishComplete s = .next t) : t.pending = s.pending := by
  refine pending_of_next h (ite_keeps_pending rfl ?_)
  have published (n : Nat) : (s.publish.setFld Reg.TOP_BLKSTAT.blocks n).pending = s.pending :=
    (setFld_pending _ _ _ _).trans (publish_pending s)
  exact ite_keeps_pending ((dueRestart_pending _).trans (published _)) ((toStage_pending _ _).trans (published _))

theorem execSliceCommitComplete_pending {s t : State} (h : execSliceCommitComplete s = .next t) : t.pending = s.pending := by
  refine pending_of_next h (inPhase_pending _ _ _ fun d => ?_)
  split
  · rfl
  · refine ite_keeps_pending rfl ?_
    simp

/-- Every command but a register write, which may run others, keeps the queue. -/
theorem exec_pending_of_ne_registerWrite {c : Instr} (hc : ∀ offset bytes value, c ≠ .registerWrite offset bytes value) {s t : State}
    (h : exec c s = .next t) : t.pending = s.pending := by
  cases c
  case registerWrite => exact absurd rfl (hc _ _ _)
  -- Sequencer rows.
  case selA | selC | moviA | moviC | add | sub | addi | muli | shli | shri | andi | minu | maxu | addai | mada | movCa | movAc =>
    exact runSimple_pending _ _ _ _ _ _ _ _ h
  case pand | por | pxor | pandn | pnot | pset =>
    unfold exec at h
    exact runPlog_pending _ _ _ _ _ _ h
  case rld | rst | ratomFetchAdd | ratomCompareSwap | rredAddInt32 | rredAddFp32 | rredAddBf16 | rredMaxFp32 | rredMaxBf16 | rmcs | bput
      | bget | msend =>
    exact issueFab_pending _ _ _ _ _ _ h
  case rds => exact execRds_pending h
  case movl => exact execMovl_pending h
  case mfill => exact execMfill_pending h
  case movd => exact execMovd_pending h
  case mrecv => exact execMrecv_pending h
  -- Commands with a meaning of their own.
  case tclaimReturn => exact execTclaimReturn_pending h
  case corePartEnd => exact execCorePartEnd_pending h
  case dpassComplete => exact execDpassComplete_pending h
  case moverBeatComplete => exact execMoverBeatComplete_pending h
  case xeRowsTaken => exact execXeRowsTaken_pending h
  case seOpComplete => exact execSeOpComplete_pending h
  case tilecntHostWrite => exact pending_of_next h (hostWrite_pending _ _ _ _ fun _ => rfl)
  case bar4Read => exact execBar4Read_pending h
  case memLockSet => exact execMemLockSet_pending h
  case t2RecallReceive => exact execT2RecallReceive_pending h
  case t2ReleaseReceive => exact execT2ReleaseReceive_pending h
  case lendZeroingComplete => exact execLendZeroingComplete_pending h
  case nvsCommandComplete => exact execNvsCommandComplete_pending h
  case nandOperationFail => exact execNandOperationFail_pending h
  case nvsWearLevel =>
    unfold exec at h
    exact execNvsWearLevel_pending h
  case keeperChunkReceive =>
    unfold exec at h
    exact execKeeperChunkReceive_pending h
  case keeperMarkerReceive => exact execKeeperMarkerReceive_pending h
  case repairRequestReceive => exact execRepairRequestReceive_pending h
  case genSetReady => exact execGenSetReady_pending h
  case fork => exact execFork_pending h
  case restore =>
    unfold exec at h
    exact execRestore_pending h
  case launch => exact execLaunch_pending h
  case admitSeq => exact execAdmitSeq_pending h
  case cancel => exact execCancel_pending h
  case batchForm => exact execBatchForm_pending h
  case batchDescriptorReceive => exact execBatchDescriptorReceive_pending h
  case samplerPartialReceive => exact execSamplerPartialReceive_pending h
  case switchSaveComplete => exact execSwitchSaveComplete_pending h
  case delayResponseReceive => exact execDelayResponseReceive_pending h
  case gscMedianUpdate => exact execGscMedianUpdate_pending h
  case gscLowRead => exact execGscLowRead_pending h
  case gscHighRead => exact execGscHighRead_pending h
  case fabricResponseReceive => exact execFabricResponseReceive_pending h
  case requestAttemptTimeout => exact execRequestAttemptTimeout_pending h
  case teardownReceive =>
    unfold exec at h
    exact execTeardownReceive_pending h
  case tailwindDecision => exact execTailwindDecision_pending h
  case diodeSample => exact execDiodeSample_pending h
  case getPdr => exact execGetPdr_pending h
  case counterSatClear => exact execCounterSatClear_pending h
  case fraySample => exact execFraySample_pending h
  case stageRefitComplete => exact execStageRefitComplete_pending h
  case stageCheckComplete => exact execStageCheckComplete_pending h
  case stagePublishComplete => exact execStagePublishComplete_pending h
  case sliceCommitComplete => exact execSliceCommitComplete_pending h
  -- Commands that act on what they find: every branch puts operations of Laws/Queue together.
  case rateChangeComplete | unitCtrlApplied | barrierComplete | vrwOpComplete | moverBeatTimeout | nvsDigestCheck | keepRepairPeriodEnd |
      recvIdleTimeout | memberReplyReceive | ploadReplyTimeout | ploadEvictTimeout | restoreReplyTimeout | sampleResultWrite | xeHalfTimeout |
      quantumExpire | switchDrainComplete | switchReadyComplete | jobEntryUpdate | targetAcceptDue | acceptWaitTimeout | teardownComplete |
      bulkComplete | firmwareDataReceive | stageBriloComplete  |
      arbiterTallySend | logFetchComplete | targetStallTimeout | creditReturnReceive =>
    cases h
    (repeat' split) <;> simp
  -- The others put them together at once.
  all_goals
    cases h
    simp

/-! ### Register writes (R13, R511 to R518) -/

/-- `t` has the queue of waiting commands of `s`. A structure, so that the kernel compares two states before it evaluates either. -/
structure SameQueue (s t : State) : Prop where
  pending : t.pending = s.pending

theorem SameQueue.refl (s : State) : s.SameQueue s := ⟨rfl⟩

theorem SameQueue.trans {s t u : State} (h : s.SameQueue t) (k : t.SameQueue u) : s.SameQueue u := ⟨k.pending.trans h.pending⟩

theorem SameQueue.ite {s a b : State} {c : Prop} [Decidable c] (ha : s.SameQueue a) (hb : s.SameQueue b) :
    s.SameQueue (if c then a else b) :=
  ⟨ite_keeps_pending ha.pending hb.pending⟩

theorem sameQueue_setFld (s : State) (f : Field) (v i : Nat) : s.SameQueue (s.setFld f v i) := ⟨rfl⟩

theorem sameQueue_stageSlots (s : State) (g i v : Nat) : s.SameQueue (s.stageSlots g i v) := ⟨stageSlots_pending s g i v⟩

theorem sameQueue_writeCtrl (s : State) (w : UnitWrite) : s.SameQueue (s.writeCtrl w) := ⟨writeCtrl_pending s w⟩

/-- A word may run a command of its own. -/
theorem sameQueue_applied (s : State) (c : Instr) (hc : ∀ offset bytes value, c ≠ .registerWrite offset bytes value) :
    s.SameQueue (s.applied (exec c s)) := by
  cases h : exec c s with
  | next t => exact ⟨exec_pending_of_ne_registerWrite hc h⟩
  | fault r => exact .refl s
  | refused r => exact .refl s

theorem topWord_sameQueue {o v : Nat} {g : Nat → State → State} {s : State} (hg : topWord o = some g) : s.SameQueue (g v s) := by
  unfold topWord at hg
  split_ifs at hg <;> cases hg
  · have cleared : s.SameQueue (if bit v 0 then s.applied (execClearAttempts s) else s) :=
      .ite (sameQueue_applied s .clearAttempts nofun) (.refl s)
    exact .ite (cleared.trans (sameQueue_applied _ .forceApron nofun)) cleared
  · exact .ite (sameQueue_applied s .topModuleReset nofun) (.refl s)
  · exact .ite ⟨beginShutdown_pending _ _⟩ (.refl s)

theorem capWord_sameQueue {o v : Nat} {g : Nat → State → State} {s : State} (hg : Machine.capWord o = some g) : s.SameQueue (g v s) := by
  unfold Machine.capWord at hg
  extract_lets i w at hg
  split_ifs at hg <;> cases hg
  · exact sameQueue_applied s (.groupDefine _ _) nofun
  · exact sameQueue_stageSlots _ _ _ _

theorem pwrWord_sameQueue {o v : Nat} {g : Nat → State → State} {s : State} (hg : pwrWord o = some g) : s.SameQueue (g v s) := by
  unfold pwrWord at hg
  split_ifs at hg <;> cases hg
  · exact ⟨requestRate_pending _ _ _⟩
  · exact .ite ⟨enableTailwind_pending _ _⟩ (.ite (sameQueue_setFld _ _ _ _) (sameQueue_setFld _ _ _ _))
  · exact .ite ⟨startRefit_pending _⟩ (.refl s)

theorem mgtWord_sameQueue {o v : Nat} {g : Nat → State → State} {s : State} (hg : mgtWord o = some g) : s.SameQueue (g v s) := by
  unfold mgtWord at hg
  split_ifs at hg <;> cases hg
  · exact sameQueue_applied s (.logFetch v) nofun
  · have cleared : s.SameQueue (if bit v 30 then s.setFld Reg.MGT_MBCTL.done 0 else s) := .ite (sameQueue_setFld _ _ _ _) (.refl s)
    exact .ite (cleared.trans (sameQueue_applied _ (.mailboxGo _) nofun)) (cleared.trans (sameQueue_setFld _ _ _ _))

theorem seqWord_sameQueue {o v : Nat} {g : Nat → State → State} {s : State} (hg : seqWord o = some g) : s.SameQueue (g v s) := by
  unfold seqWord at hg
  extract_lets i q at hg
  split_ifs at hg <;> cases hg
  · exact .ite (sameQueue_applied s .seqKvlockSet nofun) (.refl s)
  · exact .ite (sameQueue_applied s (.serveEnable i v) nofun) (.ite (sameQueue_setFld _ _ _ _) (sameQueue_setFld _ _ _ _))
  · exact ⟨jobControl_pending _ _ _⟩
  · exact .ite (sameQueue_applied s (.queueEnable q v) nofun) (.ite (sameQueue_applied s (.queueDisable q) nofun)
      (((sameQueue_setFld s _ _ _).trans (sameQueue_setFld _ _ _ _)).trans (sameQueue_setFld _ _ _ _)))

theorem fabWord_sameQueue {o v : Nat} {g : Nat → State → State} {s : State} (hg : fabWord o = some g) : s.SameQueue (g v s) := by
  unfold fabWord at hg
  extract_lets p i at hg
  split_ifs at hg <;> cases hg
  · exact .ite (sameQueue_applied s (.epidValidSet _) nofun) (.ite (sameQueue_applied s .epidValidClear nofun)
      (.ite (sameQueue_setFld _ _ _ _) ⟨rejectFab_pending _⟩))
  · have fenced : s.SameQueue (if bit v 0 = s.flag Reg.FAB_PORTCTL.fence p then s else if bit v 0 then s.applied (execPortFence p s)
        else s.applied (execPortUnfence p s)) :=
      .ite (.refl s) (.ite (sameQueue_applied s (.portFence p) nofun) (sameQueue_applied s (.portUnfence p) nofun))
    exact .ite (fenced.trans (sameQueue_applied _ (.portRetrain p) nofun)) fenced
  · exact .ite (sameQueue_applied s (.fabBulkRingEnable v) nofun) (.ite (.refl s) (sameQueue_setFld _ _ _ _))
  · exact sameQueue_applied s (.fabBqtailWrite v) nofun
  · exact sameQueue_applied s (.fabBcheadWrite v) nofun
  · exact .ite (sameQueue_applied s (.regionEnable i v) nofun) (.ite (.refl s)
      (((sameQueue_setFld s _ _ _).trans (sameQueue_setFld _ _ _ _)).trans (sameQueue_setFld _ _ _ _)))
  · exact sameQueue_applied s (.groupEntryWrite _ _) nofun

theorem xeWord_sameQueue {o v : Nat} {g : Nat → State → State} {s : State} (hg : xeWord o = some g) : s.SameQueue (g v s) := by
  unfold xeWord at hg
  extract_lets x at hg
  split_ifs at hg
  cases hg
  exact .ite (sameQueue_applied s (.xeContextOpen x v) nofun) (.ite (sameQueue_applied s (.xeContextClose x) nofun) (sameQueue_setFld _ _ _ _))

theorem memWord_sameQueue {o v : Nat} {g : Nat → State → State} {s : State} (hg : memWord o = some g) : s.SameQueue (g v s) := by
  unfold memWord at hg
  extract_lets i j at hg
  split_ifs at hg <;> cases hg
  · exact .ite (sameQueue_applied s .memLockSet nofun) (.refl s)
  · exact .ite (sameQueue_applied s .memFlushStart nofun) (.refl s)
  · exact .ite (sameQueue_applied s (.t2mapActivate i _) nofun) (.ite (.refl s) (.ite (sameQueue_setFld _ _ _ _)
      (sameQueue_applied s (.t2mapRelease i) nofun)))
  · have active : s.SameQueue (if bit v 1 then s.applied (execLendActivate j s) else s) :=
      .ite (sameQueue_applied s (.lendActivate j) nofun) (.refl s)
    exact .ite (active.trans (sameQueue_applied _ (.lendRecall j) nofun)) active

theorem nvsWord_sameQueue {o v : Nat} {g : Nat → State → State} {s : State} (hg : nvsWord o = some g) : s.SameQueue (g v s) := by
  unfold nvsWord at hg
  extract_lets i at hg
  split_ifs at hg <;> cases hg
  · exact .ite (sameQueue_applied s .nvsLockSet nofun) (.refl s)
  · exact .ite (sameQueue_applied s (.nvsRingEnable v) nofun) (.ite (.refl s) (sameQueue_setFld _ _ _ _))
  · exact sameQueue_applied s (.nvsCmdtailWrite v) nofun
  · exact sameQueue_applied s (.nvsCplheadWrite v) nofun
  · dsimp only
    have readied := sameQueue_applied s (.genSetReady i) nofun
    split
    · exact sameQueue_applied s (.genSetEmpty i _) nofun
    · exact sameQueue_applied s (.genSetLoading i _) nofun
    · exact .ite (readied.trans ⟨setFlag_pending _ _ _ _⟩) readied
    · exact .ite (.refl s) ⟨rejectGen_pending _⟩
  · exact sameQueue_applied s (.genactWrite _) nofun

theorem unitWrite_sameQueue {o v : Nat} {g : Nat → State → State} {s : State} (hg : unitWrite o = some g) : s.SameQueue (g v s) := by
  unfold unitWrite at hg
  extract_lets slot at hg
  split_ifs at hg <;> cases hg
  · exact sameQueue_writeCtrl _ _
  · exact sameQueue_applied s (.unitEvtClear slot v) nofun

theorem actionWord_sameQueue {o v : Nat} {g : Nat → State → State} {s : State} (hg : actionWord o = some g) : s.SameQueue (g v s) := by
  unfold actionWord at hg
  split at hg
  · exact topWord_sameQueue hg
  · exact capWord_sameQueue hg
  · exact pwrWord_sameQueue hg
  · exact mgtWord_sameQueue hg
  · exact seqWord_sameQueue hg
  · exact fabWord_sameQueue hg
  · exact xeWord_sameQueue hg
  · exact memWord_sameQueue hg
  · exact nvsWord_sameQueue hg
  · exact unitWrite_sameQueue hg
  · cases hg

theorem applyWrite_pending (s : State) (offset bytes v : Nat) : (s.applyWrite offset bytes v).pending = s.pending := by
  unfold State.applyWrite
  refine ite_keeps_pending (ite_keeps_pending rfl rfl) (ite_keeps_pending rfl ?_)
  extract_lets parts u act w
  have hu : u.pending = s.pending := foldl_pending _ _ _ fun _ _ => ite_keeps_pending (latchAccess_pending _ _ _ _ _)
    (ite_keeps_pending rfl (ite_keeps_pending rfl (writeField_pending _ _ _ _ _ _)))
  have hact (t : State) (o : Nat) : (act t o).pending = t.pending := by
    simp only [act]
    split
    · exact (actionWord_sameQueue ‹_›).pending
    · rfl
  have hw : w.pending = s.pending := ite_keeps_pending ((hact _ _).trans hu) hu
  exact (afterWrite_pending _ _).trans ((hact _ _).trans hw)

theorem execRegisterWrite_pending {offset bytes value : Nat} {s t : State} (h : execRegisterWrite offset bytes value s = .next t) :
    t.pending = s.pending := by
  have relabelled (u v : State) : (relabel u v offset bytes).pending = v.pending := ite_keeps_pending rfl rfl
  refine pending_of_next h (ite_keeps_pending rfl (hostWrite_pending _ _ _ _ fun u => ?_))
  exact ite_keeps_pending ((relabelled _ _).trans (applyWrite_pending _ _ _ _)) (latchAccess_pending _ _ _ _ _)

/-! ### Every command -/

theorem exec_pending {c : Instr} {s t : State} (h : exec c s = .next t) : t.pending = s.pending := by
  by_cases hc : ∃ offset bytes value, c = .registerWrite offset bytes value
  · obtain ⟨offset, bytes, value, rfl⟩ := hc
    exact execRegisterWrite_pending h
  · exact exec_pending_of_ne_registerWrite (fun offset bytes value e => hc ⟨offset, bytes, value, e⟩) h

/-- No meaning ends in a fault or a refusal: each builds its next state in every branch. -/
theorem exec_answers (c : Instr) (s : State) : ∃ t, exec c s = .next t := by
  cases c <;> exact ⟨_, rfl⟩


end Sys2Proof.Machine.State

namespace Sys2Proof.Machine

/-- Settles O3: every meaning ends in a next state, built from operations that leave the queue alone. -/
theorem everyCommandAnswers : Obligations.EveryCommandAnswers := by
  unfold Obligations.EveryCommandAnswers
  intro c s
  obtain ⟨t, h⟩ := State.exec_answers c s
  exact ⟨t, h, State.exec_pending h⟩

end Sys2Proof.Machine
end

