-- ==== Sys2Proof/Proofs/Steps.lean ====
section
/-! A step (O1): the command in front acts on the rest of the queue; an empty queue lets a nanosecond pass. -/

namespace Sys2Proof.Machine.State

/-- The slew of a nanosecond changes the record of the timing exchanges only. -/
theorem slewStep_snd (s : State) : ∃ g, s.slewStep.2 = { s with gscSync := g } := by
  unfold slewStep
  dsimp only
  split_ifs <;> exact ⟨_, rfl⟩

/-- The slew of a nanosecond is at most one nanosecond (R389). -/
theorem slewStep_fst_bounds (s : State) : -1 ≤ s.slewStep.1 ∧ s.slewStep.1 ≤ 1 := by
  unfold slewStep
  dsimp only
  split_ifs <;> dsimp only <;> omega

/-- A grandmaster and a module in free-run correct nothing (R391). -/
theorem slewStep_fst_zero {s : State} (h : s.isMaster = true ∨ s.fld Reg.FAB_GSCSTAT.state = 0) : s.slewStep.1 = 0 := by
  unfold slewStep
  rw [if_pos h]

/-- A nanosecond with the main clocks: the time and the GSC move on. -/
theorem tick_clocks {s : State} (hs : s.fld Reg.TOP_STARTSTAT.stage ≠ 0) (hc : s.clocks = true) :
    s.tick = ({ s with uptime := s.uptime + 1 } : State).slewStep.2.setFld Reg.FAB_GSC.value
      (unsigned 64 ((s.gsc : Int) + 1 + ({ s with uptime := s.uptime + 1 } : State).slewStep.1)) := by
  unfold tick
  rw [if_neg hs]
  exact if_pos hc

end Sys2Proof.Machine.State

namespace Sys2Proof.Machine

theorem unsigned_lt (w : Nat) (z : Int) : unsigned w z < 2 ^ w := by
  have hpos : (0 : Int) < (2 ^ w : Nat) := by exact_mod_cast Nat.two_pow_pos w
  have := Int.emod_lt_of_pos z hpos
  have := Int.emod_nonneg z hpos.ne'
  unfold unsigned
  omega

/-- Settles O1: the queue decides what a step does; the nanosecond by the three cases of `tick`. -/
theorem stepRunsTheFront : Obligations.StepRunsTheFront := by
  unfold Obligations.StepRunsTheFront
  refine ⟨fun c s rest h => ?_, fun s h => ?_, fun s h => if_pos h, fun s hs hc => ?_, fun s hs hc => ?_⟩
  · simp only [step, h]
  · simp only [step, h]
  · unfold State.tick
    rw [if_neg hs]
    exact if_neg (by simp [hc])
  · have htick := State.tick_clocks hs hc
    generalize hu : ({ s with uptime := s.uptime + 1 } : State) = u at htick
    have hfld (f : Field) (i : Nat) : u.fld f i = s.fld f i := by rw [← hu]; rfl
    obtain ⟨g, hg⟩ := u.slewStep_snd
    refine ⟨u.slewStep.1, s.tick.regs, g, u.slewStep_fst_bounds.1, u.slewStep_fst_bounds.2, fun h => State.slewStep_fst_zero ?_, ?_, ?_,
      fun f i hk => ?_⟩
    · simpa only [State.isMaster, State.flag, hfld] using h
    · rw [htick, hg, ← hu]
      rfl
    · rw [htick]
      exact (State.fld_setFld_same _ _ _ _ (by decide)).trans (Nat.mod_eq_of_lt (unsigned_lt 64 _))
    · rw [htick, State.fld_setFld_ne _ _ _ _ _ _ hk, hg]
      exact hfld f i

end Sys2Proof.Machine
end

