-- ==== Sys2Proof/Proofs/LinkFlits.lean ====
section
/-! Flits (O46): what is built is read back, and what a port does with the flits it receives. -/

namespace Sys2Proof.Machine

/-! ### Bytes -/

/-- A little-endian value read back is the value cut to its bytes. -/
theorem ofBytes_toBytes (n v : Nat) : ofBytes (toBytes n v) = v % 256 ^ n := by
  induction n generalizing v with
  | zero => rw [Nat.pow_zero, Nat.mod_one]; rfl
  | succ n ih => rw [toBytes, ofBytes, ih, BitVec.toNat_ofNat, Nat.pow_succ' (m := 256), Nat.mod_mul]

/-- Of a run of two-byte fields, field `k`. -/
theorem take_drop_flatMap_toBytes (f : Nat → Nat) (k n i : Nat) (h : k < n) :
    (((List.range' i n).flatMap fun v => toBytes 2 (f v)).drop (2 * k)).take 2 = toBytes 2 (f (i + k)) := by
  induction n generalizing i k with
  | zero => omega
  | succ n ih =>
    rw [List.range'_succ, List.flatMap_cons]
    cases k with
    | zero => rw [Nat.mul_zero, List.drop_zero, List.take_left' (State.length_toBytes 2 _), Nat.add_zero]
    | succ k =>
      rw [show 2 * (k + 1) = (toBytes 2 (f i)).length + 2 * k by rw [State.length_toBytes]; omega, List.drop_length_add_append,
        ih k (i + 1) (by omega), show i + 1 + k = i + (k + 1) by omega]

theorem length_flatMap_toBytes (f : Nat → Nat) (l : List Nat) : (l.flatMap fun v => toBytes 2 (f v)).length = 2 * l.length := by
  induction l with
  | nil => rfl
  | cons a l ih => rw [List.flatMap_cons, List.length_append, State.length_toBytes, ih, List.length_cons]; omega

/-! ### A flit is read back (R395, R396) -/

section

variable (header : Nat) (content : List Byte)

/-- The part of a flit that its check value covers. -/
def flitBody : List Byte := toBytes 4 header ++ (content ++ List.replicate 128 0).take 128

theorem makeFlit_eq : makeFlit header content = flitBody header content ++ toBytes 4 (crc32c (flitBody header content)).toNat := rfl

theorem length_flitBody : (flitBody header content).length = 132 := by
  simp [flitBody, State.length_toBytes]

theorem length_makeFlit : (makeFlit header content).length = 136 := by
  rw [makeFlit_eq, List.length_append, length_flitBody, State.length_toBytes]

theorem take_makeFlit : (makeFlit header content).take 132 = flitBody header content :=
  List.take_left' (length_flitBody header content)

theorem drop_makeFlit : (makeFlit header content).drop 132 = toBytes 4 (crc32c (flitBody header content)).toNat :=
  List.drop_left' (length_flitBody header content)

theorem flitHeader_makeFlit (h : header < 2 ^ 32) : flitHeader (makeFlit header content) = header := by
  rw [flitHeader, makeFlit, List.append_assoc, List.take_left' (State.length_toBytes 4 header), ofBytes_toBytes]
  exact Nat.mod_eq_of_lt h

theorem content_makeFlit : ((makeFlit header content).drop 4).take 128 = (content ++ List.replicate 128 0).take 128 := by
  rw [makeFlit, List.append_assoc, List.drop_left' (State.length_toBytes 4 header), List.take_left' (by simp)]

/-- Of the first bytes of a flit's content, those at an offset. -/
theorem bytes_makeFlit (k n : Nat) (h : k + n ≤ content.length) (hc : content.length ≤ 128) :
    ((makeFlit header content).drop (4 + k)).take n = (content.drop k).take n := by
  calc ((makeFlit header content).drop (4 + k)).take n = ((((makeFlit header content).drop 4).take 128).drop k).take n := by
        rw [List.drop_take, List.take_take, List.drop_drop, Nat.min_eq_left (by omega)]
    _ = ((content ++ List.replicate 128 0).drop k).take n := by
        rw [content_makeFlit, List.drop_take, List.take_take, Nat.min_eq_left (by omega)]
    _ = (content.drop k).take n := by
        rw [List.drop_append_of_le_length (by omega), List.take_append_of_le_length (by rw [List.length_drop]; omega)]

/-- A flit of a kind and channel that are not reserved, with no reserved bit set, is not bad. -/
theorem flitBad_makeFlit (hkind : flitKind (makeFlit header content) ≠ 3) (hvc : flitChannel (makeFlit header content) ≤ 4)
    (hres : bits (flitHeader (makeFlit header content)) 11 0 = 0) : flitBad (makeFlit header content) = false := by
  have hcrc : ofBytes ((makeFlit header content).drop 132) = (crc32c ((makeFlit header content).take 132)).toNat := by
    rw [take_makeFlit, drop_makeFlit, ofBytes_toBytes]
    exact Nat.mod_eq_of_lt (crc32c _).isLt
  simp [flitBad, length_makeFlit, hcrc, hkind, hres, Nat.not_lt.mpr hvc]

end

theorem ofFlag_le (b : Bool) : ofFlag b ≤ 1 := by cases b <;> decide

/-- A data flit is read back (Table 16.13). -/
theorem dataFlit_fields {seq vc : Nat} (sop : Bool) {content : List Byte} (hs : seq < 1024) (hv : vc ≤ 4) (h16 : content.length % 16 = 0)
    (hl : 16 ≤ content.length) (hu : content.length ≤ 128) :
    (dataFlit seq vc sop content).length = 136 ∧ flitBad (dataFlit seq vc sop content) = false ∧ flitKind (dataFlit seq vc sop content) = 0 ∧
      flitSeq (dataFlit seq vc sop content) = seq ∧ flitChannel (dataFlit seq vc sop content) = vc ∧
      flitNack (dataFlit seq vc sop content) = sop ∧ flitContent (dataFlit seq vc sop content) = content := by
  obtain ⟨pad, hpad⟩ : ∃ p, (128 - content.length) / 16 = p := ⟨_, rfl⟩
  have hb := ofFlag_le sop
  have hheader : flitHeader (dataFlit seq vc sop content) = seq * 2 ^ 20 + vc * 2 ^ 17 + ofFlag sop * 2 ^ 16 + pad * 2 ^ 12 := by
    rw [dataFlit, hpad]
    exact flitHeader_makeFlit _ _ (by omega)
  have hkind : flitKind (dataFlit seq vc sop content) = 0 := by rw [flitKind, hheader, bits]; omega
  have hvc : flitChannel (dataFlit seq vc sop content) = vc := by rw [flitChannel, hheader, bits]; omega
  have hpadBits : bits (flitHeader (dataFlit seq vc sop content)) 15 12 % 8 = pad := by rw [hheader, bits]; omega
  refine ⟨length_makeFlit _ _, flitBad_makeFlit _ _ (by rw [← dataFlit, hkind]; decide) (by rw [← dataFlit, hvc]; exact hv) ?_, hkind, ?_, hvc, ?_, ?_⟩
  · rw [← dataFlit, hheader, bits]
    omega
  · rw [flitSeq, hheader, bits]
    omega
  · rw [flitNack, hheader, bit, show (seq * 2 ^ 20 + vc * 2 ^ 17 + ofFlag sop * 2 ^ 16 + pad * 2 ^ 12) / 2 ^ 16 % 2 = ofFlag sop by omega]
    cases sop <;> rfl
  · rw [flitContent, hpadBits, dataFlit, content_makeFlit, List.take_take, List.take_left' (by omega)]

/-- A link-control flit is read back (R398). -/
theorem controlFlit_fields {ack : Nat} (nack : Bool) (freed : List Nat) (ha : ack < 1024) :
    (controlFlit ack nack freed).length = 136 ∧ flitBad (controlFlit ack nack freed) = false ∧ flitKind (controlFlit ack nack freed) = 1 ∧
      flitSeq (controlFlit ack nack freed) = ack ∧ flitNack (controlFlit ack nack freed) = nack ∧
      ∀ v, v < 5 → ofBytes (((controlFlit ack nack freed).drop (4 + 2 * v)).take 2) = freed.getD v 0 % 65536 := by
  have hb := ofFlag_le nack
  have hheader : flitHeader (controlFlit ack nack freed) = 2 ^ 30 + ack * 2 ^ 20 + ofFlag nack * 2 ^ 16 := flitHeader_makeFlit _ _ (by omega)
  have hkind : flitKind (controlFlit ack nack freed) = 1 := by rw [flitKind, hheader, bits]; omega
  refine ⟨length_makeFlit _ _, flitBad_makeFlit _ _ (by rw [← controlFlit, hkind]; decide) ?_ ?_, hkind, ?_, ?_, fun v hv => ?_⟩
  · rw [← controlFlit, flitChannel, hheader, bits]
    omega
  · rw [← controlFlit, hheader, bits]
    omega
  · rw [flitSeq, hheader, bits]
    omega
  · rw [flitNack, hheader, bit, show (2 ^ 30 + ack * 2 ^ 20 + ofFlag nack * 2 ^ 16) / 2 ^ 16 % 2 = ofFlag nack by omega]
    cases nack <;> rfl
  · have hlen := length_flatMap_toBytes (fun v => freed.getD v 0) (List.range 5)
    rw [List.length_range] at hlen
    rw [controlFlit, bytes_makeFlit _ _ _ _ (by omega) (by omega), List.range_eq_range',
      take_drop_flatMap_toBytes (fun v => freed.getD v 0) v 5 0 hv, ofBytes_toBytes, Nat.zero_add]
    rfl

/-! ### What an up port does with a flit (R396 to R398, R417) -/

section

variable {s : State} {port : Nat} {flit : List Byte}

theorem execFlitReceive_next (hup : s.planeUp port = true) (hkind : flitKind flit = 0) (hbad : flitBad flit = false)
    (hseq : flitSeq flit = (s.link port).rxNext) : exec (.flitReceive port flit) s = .next (s.acceptFlit port flit) := by
  simp [exec, execFlitReceive, hup, hkind, hbad, hseq]

/-- A flit that cannot be read, or a data flit out of order, is discarded. -/
theorem execFlitReceive_discard (hup : s.planeUp port = true) (hkind : flitKind flit ≠ 1)
    (h : flitBad flit = true ∨ (flitKind flit ≠ 2 ∧ flitSeq flit ≠ (s.link port).rxNext)) :
    exec (.flitReceive port flit) s = .next (s.discardFlit port) := by
  rcases h with hbad | ⟨hidle, hseq⟩
  · simp [exec, execFlitReceive, hup, hkind, hbad]
  · simp [exec, execFlitReceive, hup, hkind, hidle, hseq]

theorem execFlitReceive_idle (hup : s.planeUp port = true) (hkind : flitKind flit = 2) (hbad : flitBad flit = false) :
    exec (.flitReceive port flit) s = .next s := by
  simp [exec, execFlitReceive, hup, hkind, hbad]

theorem execLinkControlReceive_good (hup : s.planeUp port = true) (hkind : flitKind flit = 1) (hbad : flitBad flit = false) {u v : State}
    (hu : u = s.setLink port ((s.link port).acked (flitSeq flit) ((List.range 5).map fun v => ofBytes ((flit.drop (4 + 2 * v)).take 2))))
    (hv : v = if flitNack flit then u.replay port else u) :
    exec (.linkControlReceive port flit) s = .next (v.pump port ((v.link port).waiting.length + 1)) := by
  subst hv hu
  simp [exec, execLinkControlReceive, hup, hkind, hbad]

theorem execLinkControlReceive_bad (hup : s.planeUp port = true) (hkind : flitKind flit = 1) (hbad : flitBad flit = true) :
    exec (.linkControlReceive port flit) s = .next (s.discardFlit port) := by
  simp [exec, execLinkControlReceive, hup, hkind, hbad]

/-- A data flit whose packets are of no reserved type is accepted, and its buffer is free at once while the ingress buffer has room. -/
theorem acceptFlit_frees {got : List (List Byte) × List Byte} (hgot : got = (s.link port).assemble flit)
    (hp : ∀ p ∈ got.1, reservedPacket p = false) (hack : (s.link port).sinceAck < 63) (hroom : flitChannel flit ≠ 0 ∨ s.ingress.length < 2048) :
    s.acceptFlit port flit = s.setLink port (Link.free { s.link port with
      rxPackets := got.1, rxPart := got.2, rxNext := ((s.link port).rxNext + 1) % 1024, rxStall := false
      sinceAck := (s.link port).sinceAck + 1 } (flitChannel flit) 1) := by
  have hkeep : got.1.filter (fun p => !reservedPacket p) = got.1 := List.filter_eq_self.mpr fun p h => by simp [hp p h]
  have hnone : got.1.filter reservedPacket = [] := List.filter_eq_nil_iff.mpr fun p h => by simp [hp p h]
  have hfull : ¬ (flitChannel flit = 0 ∧ 2048 ≤ s.ingress.length) := by omega
  have hdue : ¬ 64 ≤ (s.link port).sinceAck + 1 := by omega
  simp only [State.acceptFlit, ← hgot, hkeep, hnone, if_neg hfull, Link.free, List.length_nil, if_true, if_neg hdue]

end

/-- Settles O46: flits by their fields, what a port does by the branch its flit takes. -/
theorem linkFlits : Obligations.LinkFlits := by
  unfold Obligations.LinkFlits
  refine ⟨fun seq vc sop content hs hv h16 hl hu => ⟨_, rfl, dataFlit_fields sop hs hv h16 hl hu⟩,
    fun ack nack freed ha => ⟨_, rfl, controlFlit_fields nack freed ha⟩,
    fun s port flit => execFlitReceive_next, fun s port flit => execFlitReceive_discard, fun s port => rfl,
    fun s port flit => execFlitReceive_idle, fun s port flit u hup hkind hbad hu => ⟨fun hn => ?_, fun hn => ?_⟩,
    fun s port flit => execLinkControlReceive_bad, fun s port hup => ?_, fun s port hup hack => ?_, fun s port flit l got hl hgot hp hack hroom => ?_⟩
  · exact execLinkControlReceive_good hup hkind hbad hu (by rw [hn]; rfl)
  · exact execLinkControlReceive_good hup hkind hbad hu (by rw [hn]; rfl)
  · simp [exec, execLinkReplayTimeout, hup]
  · simp [exec, execLinkAckDue, hup, hack]
  · subst hl
    exact acceptFlit_frees hgot hp hack hroom

end Sys2Proof.Machine
end

