-- ==== Sys2Proof/Proofs/FabricResponses.lean ====
section
/-! What a response and a timer do to a request of the tracker (O40). -/

namespace Sys2Proof.Machine

/-! ### Responses (R383, R408, R413) -/

section

variable {s u v : State} {hd : ResponseHead} {data : List Byte} {r : Request}

theorem execFabricResponseReceive_accepted (hvalid : s.flag Reg.FAB_EPID.valid = true) (hr : s.request? hd.tag hd.seq = some r)
    (hu : u = s.takeMark r.packet hd.plane hd.mark)
    (hv : v = { u with heard := Table.set 0 u.heard (seqKey r.packet.dst r.packet.group) (u.uptime + 1) }) (ht : hd.type = 0x82) :
    exec (.fabricResponseReceive hd data) s = .next (v.modRequest hd.tag hd.seq fun y => { y with accepted := true }) := by
  subst hv hu
  simp [exec, execFabricResponseReceive, hvalid, hr, ht]

theorem execFabricResponseReceive_unreachable (hvalid : s.flag Reg.FAB_EPID.valid = true) (hr : s.request? hd.tag hd.seq = some r)
    (hu : u = (s.takeMark r.packet hd.plane hd.mark).modRequest hd.tag hd.seq fun y => { y with unreachable := hd.plane :: r.unreachable })
    (ht : hd.type = 0x85) : exec (.fabricResponseReceive hd data) s =
      .next ((u.resend r (hd.plane :: r.unreachable) 0).getD (u.deadRequest r)) := by
  subst hu
  simp [exec, execFabricResponseReceive, hvalid, hr, ht]

/-- A final response: `w` after a refusal is counted, `x` with the data landed and the answer noted. -/
theorem execFabricResponseReceive_final (hvalid : s.flag Reg.FAB_EPID.valid = true) (hr : s.request? hd.tag hd.seq = some r)
    (hu : u = s.takeMark r.packet hd.plane hd.mark)
    (hv : v = { u with heard := Table.set 0 u.heard (seqKey r.packet.dst r.packet.group) (u.uptime + 1) })
    (ht : hd.type ∈ [0x80, 0x81, 0x83, 0x84]) {w x : State} {r' : Request}
    (hw : w = if hd.type = 0x83 then (v.count Reg.FAB_REFOUTCNT.count 1).raise Reg.FAB_OPEVT.refused_out Reg.FAB_OPEVTMASK.mask else v)
    (hr' : r' = { r with answered := r.answered + 1, failed := r.failed || (hd.type == 0x83 || hd.type == 0x84) })
    (hx : x = State.modRequest (if hd.type = 0x81 then w.landData r data else w) hd.tag hd.seq fun _ => r') :
    exec (.fabricResponseReceive hd data) s = .next (if x.allAnswered r' then
      x.finishRequest r' (if r'.failed = false then 0 else if hd.type = 0x83 then 2 else 3) else x) := by
  subst hx hr' hw hv hu
  simp only [List.mem_cons, List.not_mem_nil, or_false] at ht
  rcases ht with ht | ht | ht | ht <;> simp [exec, execFabricResponseReceive, hvalid, hr, ht]

theorem execFabricResponseReceive_unknown (hvalid : s.flag Reg.FAB_EPID.valid = true) (hr : s.request? hd.tag hd.seq = none)
    (ht : hd.type ≠ 0x85) : exec (.fabricResponseReceive hd data) s = .next s := by
  simp [exec, execFabricResponseReceive, hvalid, hr, ht]

end

/-! ### Timers (R413) -/

section

variable {s : State} {tag seq : Nat} {r : Request}

theorem execRequestAttemptTimeout_silent (hr : s.request? tag seq = some r) (ha : r.accepted = false) (hh : s.heardLately r = false) :
    exec (.requestAttemptTimeout tag seq) s = .next (if s.fld Reg.FAB_RTOCFG.tries ≤ r.attempts then s.deadRequest r
      else ((s.resend r [] 1).map fun t => t.count Reg.FAB_RETRYCNT.count 1).getD
        (s.modRequest tag seq fun y => { y with attempts := y.attempts + 1 })) := by
  simp [exec, execRequestAttemptTimeout, hr, ha, hh]

theorem execRequestAttemptTimeout_accepted (hr : s.request? tag seq = some r) (ha : r.accepted = true) :
    exec (.requestAttemptTimeout tag seq) s = .next s := by
  simp [exec, execRequestAttemptTimeout, hr, ha]

theorem execAcceptWaitTimeout_accepted (hr : s.request? tag seq = some r) (ha : r.accepted = true) :
    exec (.acceptWaitTimeout tag seq) s = .next (s.deadRequest r) := by
  simp [exec, execAcceptWaitTimeout, hr, ha]

end

/-! ### The hold at 1,024 outstanding (R403) -/

@[simp] theorem State.stamp_tracker (s : State) (p : Packet) : (s.stamp p).2.tracker = s.tracker := by unfold State.stamp; split <;> rfl
@[simp] theorem State.stamp_heldRequests (s : State) (p : Packet) : (s.stamp p).2.heldRequests = s.heldRequests := by
  unfold State.stamp; split <;> rfl
@[simp] theorem State.stamp_dst (s : State) (p : Packet) : (s.stamp p).1.dst = p.dst := by unfold State.stamp; split <;> rfl
@[simp] theorem State.stamp_group (s : State) (p : Packet) : (s.stamp p).1.group = p.group := by unfold State.stamp; split <;> rfl

theorem State.sendRequest_held {s : State} {p : Packet} (hg : p.group = false) (hout : 1024 ≤ s.outstanding p.dst) (owner : Owner) (dest : Nat) :
    s.sendRequest p owner dest = { (s.stamp p).2 with heldRequests := s.heldRequests ++ [((s.stamp p).1, owner, dest)] } := by
  have hfull : 1024 ≤ (s.stamp p).2.outstanding p.dst := by simpa [State.outstanding] using hout
  simp [State.sendRequest, hg, hfull]

/-- The oldest request held for the destination goes as one of an engine completes. -/
theorem State.finishRequest_sendsHeld {s : State} {r : Request} {h : Packet × Owner × Nat} (hg : r.packet.group = false) (ho : r.owner = .engine)
    (hh : s.heldRequests.find? (fun x => x.1.dst == r.packet.dst) = some h) (status : Nat) :
    s.finishRequest r status = State.launchRequest { s with
      tracker := s.tracker.filter fun y => !(y.packet.tag == r.packet.tag && y.packet.seq == r.packet.seq)
      heldRequests := s.heldRequests.erase h } h.1 h.2.1 h.2.2 := by
  simp [State.finishRequest, State.sendHeld, hg, ho, hh]

/-- Settles O40: a response by its type, a timer by what the request has seen, and the hold by the destination's count. -/
theorem fabResponses : Obligations.FabResponses := by
  unfold Obligations.FabResponses
  refine ⟨fun s hd data r u v hvalid hr hu hv => ⟨execFabricResponseReceive_accepted hvalid hr hu hv,
      execFabricResponseReceive_unreachable hvalid hr (by rw [hu]), fun w x r' ht => execFabricResponseReceive_final hvalid hr hu hv ht⟩,
    fun s hd data => execFabricResponseReceive_unknown, fun s tag seq r => execRequestAttemptTimeout_silent,
    fun s tag seq r hr ha => ⟨execRequestAttemptTimeout_accepted hr ha, execAcceptWaitTimeout_accepted hr ha⟩,
    fun s p owner dest hg hout => State.sendRequest_held hg hout owner dest,
    fun s r status h hg ho hh => State.finishRequest_sendsHeld hg ho hh status⟩

end Sys2Proof.Machine
end

