-- ==== Sys2Proof/Proofs/TargetRequests.lean ====
section
/-! A request at this target (O42): applied at once, kept for its bank, or refused. -/

namespace Sys2Proof.Machine
namespace State

/-! ### A request that arrives (R377, R405, R414, R415, R417) -/

section

variable {s : State} {ptype group : Nat} {hd : RequestHead} {data : List Byte} {report : BankReport} {v : Seen}

/-- With room in the ingress buffer a request is taken, and an answer it is given at once goes out. -/
theorem target_answers (hclosing : s.closing = false) (hroom : s.ingress.length < 2048) (hvalid : s.flag Reg.FAB_EPID.valid = true)
    {w : TargetWait} (hw : w ≠ .resumes) {a : Answer} {t : State}
    (ht : s.takeRequest ptype group hd data (w == .waits) report = (some a, t)) :
    s.target ptype group hd data w report = t.reply hd a := by
  have hfull : ¬ 2048 ≤ s.ingress.length := by omega
  cases w with
  | resumes => exact absurd rfl hw
  | atOnce => simp [target, hclosing, hfull, hvalid, ht]
  | waits =>
    change s.takeRequest ptype group hd data true report = _ at ht
    simp [target, hclosing, hfull, hvalid, ht]

/-- With room in the ingress buffer a request is taken, and one that has no answer yet leaves only its entry. -/
theorem target_waits (hclosing : s.closing = false) (hroom : s.ingress.length < 2048) (hvalid : s.flag Reg.FAB_EPID.valid = true)
    {w : TargetWait} (hw : w ≠ .resumes) {t : State}
    (ht : s.takeRequest ptype group hd data (w == .waits) report = (none, t)) :
    s.target ptype group hd data w report = t := by
  have hfull : ¬ 2048 ≤ s.ingress.length := by omega
  cases w with
  | resumes => exact absurd rfl hw
  | atOnce => simp [target, hclosing, hfull, hvalid, ht]
  | waits =>
    change s.takeRequest ptype group hd data true report = _ at ht
    simp [target, hclosing, hfull, hvalid, ht]

/-- A first request that passes its tests waits where its bank is not free or an older one goes first. -/
theorem takeRequest_waits (hv : (s.seenOf (requestKey hd group)).take hd.seq = some v) {r : Region} (hr : s.checkRequest ptype hd = .ok r)
    {wait : Bool} (hw : (wait || mustWait s.ingress ptype hd r) = true) {u : State}
    (hu : u = { s with seen := Table.set Seen.empty s.seen (requestKey hd group) v }) :
    s.takeRequest ptype group hd data wait report =
      (none, { u with ingress := s.ingress ++ [(⟨ptype, hd, r, data, false, false⟩ : Ingress)] }) := by
  subst hu
  simp only [takeRequest, hv, hr, hw, if_true]

/-- A first request that passes its tests reaches its bank where nothing holds it up. -/
theorem takeRequest_applies (hv : (s.seenOf (requestKey hd group)).take hd.seq = some v) {r : Region} (hr : s.checkRequest ptype hd = .ok r)
    (hw : mustWait s.ingress ptype hd r = false) {u : State} (hu : u = { s with seen := Table.set Seen.empty s.seen (requestKey hd group) v }) :
    s.takeRequest ptype group hd data false report =
      (some (u.reachBank ptype group hd r data report).1, (u.reachBank ptype group hd r data report).2) := by
  subst hu
  simp only [takeRequest, hv, hr, hw, Bool.or_self, Bool.false_eq_true, if_false]

/-- A first request that fails a test is refused with the reason of the first. -/
theorem takeRequest_refused (hv : (s.seenOf (requestKey hd group)).take hd.seq = some v) {reason : Nat}
    (hr : s.checkRequest ptype hd = .error reason) (wait : Bool) :
    s.takeRequest ptype group hd data wait report = (some ⟨0x83, reason, []⟩, (s.refuseIn hd reason).2) := by
  simp only [takeRequest, hv, hr]
  rfl

/-- A request that waited reaches its bank when it resumes. -/
theorem target_resumes {x : Ingress} (hx : s.waiting? ptype hd = some x) :
    s.target ptype group hd data .resumes report = ((s.settleIngress x).reachBank ptype group hd x.region x.data report).2.reply hd
      ((s.settleIngress x).reachBank ptype group hd x.region x.data report).1 := by
  simp only [target, hx]

end

end State

/-! ### The rows -/

/-- The rows of requests, each with its packet type and the command for its data and for whether its bank is free. -/
def targetRows (hd : RequestHead) (group : Nat) (report : BankReport) : List (Nat × (List Byte → TargetWait → Instr)) :=
  [(1, fun _ w => Instr.targetLoad hd w report), (2, fun d w => .targetStore hd d w report), (3, fun d w => .targetAtomic hd d w report),
    (4, fun d w => .targetReduce hd d w report), (5, fun d w => .targetMulticastStore hd group d w report),
    (8, fun d w => .targetMessage hd d w report)]

/-- Each row is its packet type at this target; a multicast copy is taken under its group, by a member of it. -/
theorem exec_targetRows {s : State} {hd : RequestHead} {group : Nat} {report : BankReport} {row : Nat × (List Byte → TargetWait → Instr)}
    (hrow : row ∈ targetRows hd group report) {data : List Byte} (hload : row.1 = 1 → data = [])
    (hmember : row.1 = 5 → s.flag Reg.FAB_GRP.valid group = true ∧ s.flag Reg.FAB_GRP.member group = true) (w : TargetWait) :
    exec (row.2 data w) s = .next (s.target row.1 (if row.1 = 5 then group + 1 else 0) hd data w report) := by
  simp only [targetRows, List.mem_cons, List.not_mem_nil, or_false] at hrow
  rcases hrow with rfl | rfl | rfl | rfl | rfl | rfl
  case inl => rw [hload rfl]; rfl
  case inr.inr.inr.inr.inl =>
    obtain ⟨hv, hm⟩ := hmember rfl
    exact congrArg Host.Outcome.next (if_pos (by simp [hv, hm]))
  all_goals rfl

/-- A request whose acceptance is due is answered accepted, and its entry says so. -/
theorem execTargetAcceptDue_found {s : State} {hd : RequestHead} {x : Ingress}
    (hx : (s.ingress.find? fun y => y.head == hd && !y.accepted && !y.answered) = some x) :
    exec (.targetAcceptDue hd) s = .next (State.reply
      { s with ingress := s.ingress.map fun y => if y == x then { y with accepted := true } else y } hd ⟨0x82, 0, []⟩) := by
  simp only [exec, execTargetAcceptDue, hx]

/-- A request whose bank stalls is settled and answered poisoned. -/
theorem execTargetStallTimeout_found {s : State} {hd : RequestHead} {x : Ingress}
    (hx : (s.ingress.find? fun y => y.head == hd && !y.answered) = some x) :
    exec (.targetStallTimeout hd) s =
      .next (((s.settleIngress x).raise Reg.FAB_OPEVT.poison_in Reg.FAB_OPEVTMASK.mask).reply hd ⟨0x84, 11, []⟩) := by
  simp only [exec, execTargetStallTimeout, hx]
  rfl

/-- Settles O42: each row is its packet type at this target, where a request applies, waits or is refused. -/
theorem targetRequests : Obligations.TargetRequests := by
  unfold Obligations.TargetRequests
  refine ⟨?_, ?_, fun _ _ _ h => execTargetAcceptDue_found h, fun _ _ _ h => execTargetStallTimeout_found h⟩
  · intro s hd group data report v g u row hrow hg hmember hload hclosing hroom hvalid hv hu
    have hexec w : exec (row.2 data w) s = .next (s.target row.1 g hd data w report) := by
      rw [exec_targetRows hrow hload hmember w, hg]
    refine ⟨fun r hr => ⟨fun hmust => ?_, fun hmust => ?_, ?_⟩, fun reason w hr hw => ?_⟩
    · rw [hexec, State.target_answers hclosing hroom hvalid (by decide) (State.takeRequest_applies hv hr hmust hu)]
    · rw [hexec, State.target_waits hclosing hroom hvalid (by decide) (State.takeRequest_waits hv hr (by simp [hmust]) hu)]
    · rw [hexec, State.target_waits hclosing hroom hvalid (by decide) (State.takeRequest_waits hv hr rfl hu)]
    · rw [hexec, State.target_answers hclosing hroom hvalid hw (State.takeRequest_refused hv hr _)]
  · intro s hd group data report g x row hrow hg hmember hx
    have hexec : exec row.2 s = .next (s.target row.1 g hd data .resumes report) := by
      simp only [List.mem_cons, List.not_mem_nil, or_false] at hrow
      rcases hrow with rfl | rfl | rfl | rfl | rfl | rfl
      case inr.inr.inr.inr.inl =>
        obtain ⟨hv, hm⟩ := hmember rfl
        subst hg
        exact congrArg Host.Outcome.next (if_pos (by simp [hv, hm]))
      case inl =>
        rw [State.target_resumes hx, hg]
        exact congrArg Host.Outcome.next (State.target_resumes (data := []) hx)
      all_goals subst hg; rfl
    rw [hexec, State.target_resumes hx]

end Sys2Proof.Machine
end

