-- ==== Sys2Proof/Proofs/Ports.lean ====
section
/-! The states of a port (O45), and the endpoint identifier and the groups (O47). -/

namespace Sys2Proof.Machine
namespace State

/-! ### What only tells leaves alone -/

theorem Tells.keeps_tracker {s t : State} (h : s.Tells t) : t.tracker = s.tracker := by
  obtain ⟨x, rfl⟩ := h
  rfl

theorem Tells.keeps_mem {s t : State} (h : s.Tells t) : t.mem = s.mem := by
  obtain ⟨x, rfl⟩ := h
  rfl

/-! ### The states of a port (R373 to R376) -/

/-- The part of a change of state that every port has: the new state, the event, and the count of an entry to training. -/
def showPort (s : State) (port st : Nat) : State :=
  let s := (s.setFld Reg.FAB_PORTSTAT.state st port).raise Reg.FAB_EVT.port_change Reg.FAB_EVTMASK.mask
  if st = 1 then s.count Reg.FAB_RETRAINCNT.count 1 port else s

/-- A port that was not up has no packets to hand over: its change of state is only shown. -/
theorem setPort_of_not_up {s : State} {port st : Nat} (hst : s.fld Reg.FAB_PORTSTAT.state port ≠ st) (hup : s.planeUp port = false) :
    s.setPort port st = s.showPort port st := by
  simp [setPort, showPort, hst, hup]

/-- Showing a port's state only tells. -/
theorem tells_showPort (s : State) (port st : Nat) : s.Tells (s.showPort port st) := by
  have hshown := (tells_setFld s Reg.FAB_PORTSTAT.state st port).trans (tells_raise _ Reg.FAB_EVT.port_change Reg.FAB_EVTMASK.mask)
  unfold showPort
  simp only []
  split
  · exact hshown.trans (tells_count _ _ _ _)
  · exact hshown

/-- The training counters are neither a port's state nor the port change event. -/
theorem retrainCount_apart {port : Nat} (hport : port < 16) : ∀ f ∈ [Reg.FAB_PORTSTAT.state, Reg.FAB_EVT.port_change],
    f.quiet = true ∧ f.holds (Reg.FAB_RETRAINCNT.count.key port) = false ∧
      f.holds (({ Reg.FAB_RETRAINCNT.count with low := 48, width := 1, access := .w1c, reset := 0 } : Field).key port) = false := by
  revert port
  decide

/-- The count of an entry to training changes neither the port's state nor the event. -/
theorem showPort_fld (s : State) {port : Nat} (st : Nat) (hport : port < 16) {f : Field}
    (hf : f ∈ [Reg.FAB_PORTSTAT.state, Reg.FAB_EVT.port_change]) (i : Nat) : (s.showPort port st).fld f i =
      ((s.setFld Reg.FAB_PORTSTAT.state st port).raise Reg.FAB_EVT.port_change Reg.FAB_EVTMASK.mask).fld f i := by
  obtain ⟨hquiet, hcount, hsat⟩ := retrainCount_apart hport f hf
  unfold showPort
  simp only []
  split
  · exact count_fld _ _ _ _ hquiet hcount hsat
  · rfl

/-- A port shows the state it goes to. -/
theorem showPort_state (s : State) {port st : Nat} (hport : port < 16) (hst : st < 8) :
    (s.showPort port st).fld Reg.FAB_PORTSTAT.state port = st := by
  rw [showPort_fld s st hport (by simp), raise_fld _ _ _ (by decide) (by decide), fld_setFld_same _ _ _ _ hport]
  exact Nat.mod_eq_of_lt hst

/-- A change of a port's state raises its event. -/
theorem showPort_event (s : State) {port : Nat} (st : Nat) (hport : port < 16) :
    (s.showPort port st).flag Reg.FAB_EVT.port_change = true := by
  rw [flag, showPort_fld s st hport (by simp)]
  exact raise_self _ _ _ (by decide) (by decide) (by decide)

/-- A port's fence bit is no part of its state. -/
theorem fence_state (s : State) (port v : Nat) :
    (s.setFld Reg.FAB_PORTCTL.fence v port).fld Reg.FAB_PORTSTAT.state port = s.fld Reg.FAB_PORTSTAT.state port :=
  fld_setFld_ne _ _ _ _ _ _ (by simp only [Field.key, Reg.FAB_PORTCTL.fence, Reg.FAB_PORTSTAT.state]; omega)

end State

/-- Training ends by the lanes that passed: all 8, the low half, the high half, or too few. -/
theorem trainedState_of_byte {lanes : Nat} (h : lanes < 256) : trainedState lanes =
    if lanes = 0xFF then (3, 0) else if lanes % 16 = 0xF then (2, 0) else if lanes / 16 = 0xF then (2, 1) else (0, 0) := by
  simp only [trainedState, Nat.mod_eq_of_lt h, Nat.mod_eq_of_lt (show lanes / 16 < 16 by omega)]

/-- Settles O45: each row of a port under the state it starts from, and what a change of state shows. -/
theorem portStates : Obligations.PortStates := by
  unfold Obligations.PortStates
  refine ⟨?_, fun _ h => trainedState_of_byte h, ?_, ?_, ?_, ?_⟩
  · intro s port lanes got u hport hst hgot hu
    have hin : ¬ 16 ≤ port := by omega
    subst hgot hu
    exact ⟨fun h => by simp [exec, execPortTrainingComplete, hin, hst, h], fun h => by simp [exec, execPortTrainingComplete, hin, hst, h]⟩
  · intro s port hport hst
    simp [exec, execPortTrainingRetry, Nat.not_le.mpr hport, hst]
  · intro s port hup
    simp [exec, execPortLossOfSignal, hup]
  · intro s port hport ht
    have hin : ¬ 16 ≤ port := by omega
    refine ⟨fun hup => ?_, ?_, fun h => ?_, fun h => ?_⟩
    · simp [exec, execPortRetrain, hin, State.hostWrite_takes ht, hup]
    · simp [exec, execPortFence, hin, State.hostWrite_takes ht]
    · simp [exec, execPortUnfence, hin, State.hostWrite_takes ht, State.fence_state, h]
    · simp [exec, execPortUnfence, hin, State.hostWrite_takes ht, State.fence_state, h]
  · intro s port st hport hlt hst hup
    rw [State.setPort_of_not_up hst hup]
    exact ⟨s.showPort_state hport hlt, s.showPort_event st hport, (s.tells_showPort port st).keeps_tracker, (s.tells_showPort port st).keeps_mem⟩

/-! ### The endpoint identifier and the groups (R377 to R383) -/

namespace State

/-- A group entry as a write of 8 bytes leaves it. -/
def putGroup (s : State) (group value : Nat) : State :=
  ((s.setFld Reg.FAB_GRP.valid (bits value 63 63) group).setFld Reg.FAB_GRP.member (bits value 62 62) group).setFld
    Reg.FAB_GRP.count (bits value 39 32) group

variable (s : State) {group : Nat} (value : Nat)

/-- The three fields of a written group entry read as the bits of the value. -/
theorem putGroup_fields (h : group < 65536) : (s.putGroup group value).fld Reg.FAB_GRP.valid group = bits value 63 63 ∧
    (s.putGroup group value).fld Reg.FAB_GRP.member group = bits value 62 62 ∧
    (s.putGroup group value).fld Reg.FAB_GRP.count group = bits value 39 32 := by
  have hvm : Reg.FAB_GRP.valid.key group ≠ Reg.FAB_GRP.member.key group := by simp [Field.key, Reg.FAB_GRP.valid, Reg.FAB_GRP.member]
  have hvc : Reg.FAB_GRP.valid.key group ≠ Reg.FAB_GRP.count.key group := by simp [Field.key, Reg.FAB_GRP.valid, Reg.FAB_GRP.count]
  have hmc : Reg.FAB_GRP.member.key group ≠ Reg.FAB_GRP.count.key group := by simp [Field.key, Reg.FAB_GRP.member, Reg.FAB_GRP.count]
  refine ⟨?_, ?_, ?_⟩
  · rw [putGroup, fld_setFld_ne _ _ _ _ _ _ hvc, fld_setFld_ne _ _ _ _ _ _ hvm, fld_setFld_same _ _ _ _ h]
    exact Nat.mod_mod _ _
  · rw [putGroup, fld_setFld_ne _ _ _ _ _ _ hmc, fld_setFld_same _ _ _ _ h]
    exact Nat.mod_mod _ _
  · rw [putGroup, fld_setFld_same _ _ _ _ h]
    exact Nat.mod_mod _ _

/-- A write of a group entry changes registers only. -/
theorem tells_putGroup (group : Nat) : s.Tells (s.putGroup group value) :=
  ((tells_setFld s _ _ _).trans (tells_setFld _ _ _ _)).trans (tells_setFld _ _ _ _)

end State

/-- A group entry is written, or the write discarded while an operation to the group is outstanding. -/
theorem execGroupEntryWrite_takes {s : State} {group : Nat} (value : Nat) (h : group < 65536) (ht : s.takes (0x880000 + 8 * group)) :
    exec (.groupEntryWrite group value) s = .next (if s.groupBusy group then s.rejectFab else s.putGroup group value) := by
  simp only [exec, execGroupEntryWrite, Nat.not_le.mpr h, if_false, State.hostWrite_takes ht, State.putGroup]

/-- Settles O47: the tests of the endpoint identifier in their order, and the two ends of a group write. -/
theorem endpointAndGroups : Obligations.EndpointAndGroups := by
  unfold Obligations.EndpointAndGroups
  refine ⟨?_, ?_, ?_, ?_, ?_, ?_⟩
  · intro s ep ht hv hb
    simp only [exec, execEpidValidSet, State.hostWrite_takes ht, hv, hb, Bool.false_eq_true, if_false]
  · intro s ep ht hv hb
    simp only [exec, execEpidValidSet, State.hostWrite_takes ht, hv, hb, Bool.false_eq_true, if_false, if_true]
  · intro s ep ht hb
    simp only [exec, execEpidValidSet, State.hostWrite_takes ht, hb, if_true, State.rejectFab]
  · intro s ht
    refine ⟨fun hj => ?_, fun hj => ?_⟩
    · simp [exec, execEpidValidClear, State.hostWrite_takes ht, hj]
    · simp [exec, execEpidValidClear, State.hostWrite_takes ht, hj, State.rejectFab]
  · intro s group value h ht hbusy
    obtain ⟨hvalid, hmember, hcount⟩ := s.putGroup_fields value h
    have htells := s.tells_putGroup value group
    exact ⟨s.putGroup group value, by rw [execGroupEntryWrite_takes value h ht, hbusy]; rfl, hvalid, hmember, hcount,
      htells.keeps_tracker, htells.keeps_mem⟩
  · intro s group value h ht hbusy
    rw [execGroupEntryWrite_takes value h ht, hbusy]
    rfl

end Sys2Proof.Machine
end

