-- ==== Sys2Proof/Proofs/TargetEffects.lean ====
section
/-! What an accepted request does to T1 and answers (O43). -/

namespace Sys2Proof.Machine

/-! ### Reductions (R407) -/

theorem length_reduceBytes (var n : Nat) : ∀ old new, (reduceBytes var n old new).1.length = n * reduceSize var := by
  induction n with
  | zero => simp [reduceBytes]
  | succ n ih => intro old new; simp only [reduceBytes, List.length_append, State.length_toBytes, ih]; ring

/-- The whole lines of a reduction are whole elements, of 2 or 4 bytes. -/
theorem whole_elements (var lines : Nat) : requestBytes 4 lines / reduceSize var * reduceSize var = requestBytes 4 lines := by
  unfold requestBytes reduceSize
  split <;> split <;> omega

/-- Element `k` of a reduction is the combination of the old and the new element `k`. -/
theorem reduceBytes_element (var n : Nat) : ∀ (old new : List Byte) (k : Nat), k < n →
    ((reduceBytes var n old new).1.drop (reduceSize var * k)).take (reduceSize var) =
      toBytes (reduceSize var) (reduceElement var (ofBytes ((old.drop (reduceSize var * k)).take (reduceSize var)))
        (ofBytes ((new.drop (reduceSize var * k)).take (reduceSize var)))).1 := by
  induction n with
  | zero => intro _ _ k hk; omega
  | succ n ih =>
    intro old new k hk
    cases k with
    | zero => exact List.take_left' (State.length_toBytes _ _)
    | succ k =>
      have hnext := ih (old.drop (reduceSize var)) (new.drop (reduceSize var)) k (by omega)
      simp only [List.drop_drop] at hnext
      simp only [reduceBytes, show reduceSize var * (k + 1) = reduceSize var + reduceSize var * k by ring]
      rw [← hnext, ← List.drop_drop, List.drop_left' (State.length_toBytes _ _)]

/-- Fetch-add adds modulo 2^64; compare-swap stores the swap value where the old value matches. -/
theorem atomicResult_bytes (old x y : Nat) : atomicResult 0 old (toBytes 8 x) = (old + x % 2 ^ 64) % 2 ^ 64 ∧
    (old < 2 ^ 64 → atomicResult 1 old (toBytes 8 old ++ toBytes 8 y) = y % 2 ^ 64) := by
  have htake (v : Nat) (r : List Byte) : (toBytes 8 v ++ r).take 8 = toBytes 8 v := List.take_left' (State.length_toBytes 8 v)
  have hdrop : ((toBytes 8 old ++ toBytes 8 y).drop 8).take 8 = toBytes 8 y := by
    rw [List.drop_left' (State.length_toBytes 8 old), List.take_of_length_le (State.length_toBytes 8 y).le]
  refine ⟨?_, fun hold => ?_⟩
  · have hx : (toBytes 8 x).take 8 = toBytes 8 x := List.take_of_length_le (State.length_toBytes 8 x).le
    simp only [atomicResult, hx, ofBytes_toBytes, if_true]
    norm_num
  · have hmatch : old = ofBytes (toBytes 8 old) := by rw [ofBytes_toBytes, show 256 ^ 8 = 2 ^ 64 by norm_num, Nat.mod_eq_of_lt hold]
    simp only [atomicResult, htake, hdrop, ← hmatch, ofBytes_toBytes, if_true]
    norm_num

namespace State

variable (s : State) (hd : RequestHead) (r : Region) (data : List Byte)

/-! ### The kinds of requests (R406 to R409) -/

/-- A store or a multicast copy puts its payload. -/
theorem applyRequest_store {ptype : Nat} (h : ptype = 2 ∨ ptype = 5) : s.applyRequest ptype hd r data =
    (⟨0x80, 0, []⟩, s.t1Put (r.base + hd.offset)
      ((data ++ List.replicate (requestBytes ptype hd.lines) 0).take (requestBytes ptype hd.lines))) := by
  rcases h with rfl | rfl <;> rfl

/-- A load answers the bytes of its chunks, and touches their lines only. -/
theorem applyRequest_load (hp : s.isPoisoned (r.base + hd.offset) (requestBytes 1 hd.lines) = false) : s.applyRequest 1 hd r data =
    (⟨0x81, 0, s.t1Get (r.base + hd.offset) (requestBytes 1 hd.lines)⟩, (s.t1Read (r.base + hd.offset) (requestBytes 1 hd.lines)).2) := by
  simp [applyRequest, hp, t1Read]

/-- An atomic answers the old value and puts its result. -/
theorem applyRequest_atomic (hp : s.isPoisoned (r.base + hd.offset) 8 = false) : s.applyRequest 3 hd r data =
    (⟨0x81, 0, s.t1Get (r.base + hd.offset) 8⟩, (s.t1Read (r.base + hd.offset) 8).2.t1Put (r.base + hd.offset)
      (toBytes 8 (atomicResult hd.var (s.t1Num (r.base + hd.offset) 8) data))) := by
  simp [applyRequest, hp, t1Read, t1Num, requestBytes]

/-- What a reduction stores: the combination of what stands there and the payload, and how many elements saturated. -/
def reduced (s : State) (hd : RequestHead) (r : Region) (data : List Byte) : List Byte × Nat :=
  let n := requestBytes 4 hd.lines
  reduceBytes hd.var (n / reduceSize hd.var) (s.t1Get (r.base + hd.offset) n) ((data ++ List.replicate n 0).take n)

/-- The saturated elements of a reduction are counted and raise their event. -/
def countSaturated (s : State) (sat : Nat) : State :=
  if sat = 0 then s else (s.count Reg.FAB_REDSATCNT.count sat).raise Reg.FAB_OPEVT.red_sat Reg.FAB_OPEVTMASK.mask

theorem countSaturated_mem (s : State) (sat : Nat) : (s.countSaturated sat).mem = s.mem := by
  unfold countSaturated
  split
  · rfl
  · exact ((tells_count s _ _ _).trans (tells_raise _ _ _)).keeps_mem

/-- A request of the last kind combines; a reduction is one. -/
theorem applyRequest_reduce (hp : s.isPoisoned (r.base + hd.offset) (requestBytes 4 hd.lines) = false) : s.applyRequest 4 hd r data =
    (⟨0x80, 0, []⟩, ((s.t1Read (r.base + hd.offset) (requestBytes 4 hd.lines)).2.t1Put (r.base + hd.offset)
      (s.reduced hd r data).1).countSaturated (s.reduced hd r data).2) := by
  simp only [applyRequest, hp, Bool.false_eq_true, if_false]
  rfl

/-- A request that reads a poisoned chunk is answered poisoned. -/
theorem applyRequest_poisoned {ptype : Nat} (h : ptype = 1 ∨ ptype = 3 ∨ ptype = 4)
    (hp : s.isPoisoned (r.base + hd.offset) (requestBytes ptype hd.lines) = true) : s.applyRequest ptype hd r data =
      (⟨0x84, 10, []⟩, s.raise Reg.FAB_OPEVT.poison_in Reg.FAB_OPEVTMASK.mask) := by
  rcases h with rfl | rfl | rfl <;> simp [applyRequest, hp, poisoned]

/-- A message takes the next slot of its queue, and its core is signalled. -/
theorem applyRequest_message {n : Nat} (hn : n = 64 * hd.lines) : s.applyRequest 8 hd r data = (⟨0x80, 0, []⟩,
    ((s.t1Put (r.base + 256 * (s.queue r.index).next) (((data ++ List.replicate n 0).take n).take n)).enterMessage r (s.queue r.index)
      ⟨r.base + 256 * (s.queue r.index).next, hd.src, hd.unit, hd.lines, s.gscXdie, hd.key⟩).signalRegion r) := by
  subst hn
  rfl

/-- Bytes stored are read back. -/
theorem t1Get_t1Put_of_length (o : Nat) {bs : List Byte} {n : Nat} (h : bs.length = n) : (s.t1Put o bs).t1Get o n = bs :=
  h ▸ s.t1Get_t1Put o bs

/-! ### What stays (R406) -/

/-- The byte stores other than T1 are as they were. -/
def SameOthers (s t : State) : Prop := t.mem.scratch = s.mem.scratch ∧ t.mem.sram = s.mem.sram ∧ t.mem.t3 = s.mem.t3

variable {s} in
theorem sameOthers_of_mem {t : State} (h : t.mem = s.mem) : s.SameOthers t := ⟨by rw [h], by rw [h], by rw [h]⟩

variable {s} in
theorem SameOthers.put {t : State} (h : s.SameOthers t) (o : Nat) (bs : List Byte) : s.SameOthers (t.t1Put o bs) := by
  rw [SameOthers, t1Put_mem]
  exact h

/-- A request that is no message leaves every byte store but T1 as it was. -/
theorem applyRequest_others {ptype : Nat} (h : ptype ≠ 8) : s.SameOthers (s.applyRequest ptype hd r data).2 := by
  have hread (n : Nat) : s.SameOthers (s.t1Read (r.base + hd.offset) n).2 := sameOthers_of_mem (t1Read_mem s _ n)
  unfold applyRequest
  simp only [h, if_false]
  split
  · exact (sameOthers_of_mem rfl).put _ _
  split
  · exact sameOthers_of_mem (tells_raise s _ _).keeps_mem
  split
  · exact hread _
  · exact (hread _).put _ _
  · change s.SameOthers (countSaturated _ _)
    rw [SameOthers, countSaturated_mem]
    exact (hread _).put _ _

end State

/-- Settles O43: each kind of request by what it puts and answers, and the byte stores it leaves. -/
theorem targetEffects : Obligations.TargetEffects := by
  unfold Obligations.TargetEffects
  refine ⟨?_, ?_, ?_, ?_, ?_, ?_, ?_, ?_, fun old x y => atomicResult_bytes old x y⟩
  · intro s ptype hd r data n hptype hn
    have hlen : ((data ++ List.replicate n 0).take n).length = n := by simp
    rw [s.applyRequest_store hd r data hptype, ← hn]
    refine ⟨rfl, ?_, fun b hb => ?_⟩
    · exact s.t1Get_t1Put_of_length _ hlen
    · rw [State.t1Put_mem]
      exact get_writeBytes_ne _ _ _ _ (by rw [hlen]; exact hb)
  · intro s hd r data n hn hp
    subst hn
    rw [s.applyRequest_load hd r data hp]
    exact ⟨rfl, State.t1Read_mem s _ _⟩
  · intro s hd r data hp
    rw [s.applyRequest_atomic hd r data hp]
    exact ⟨rfl, State.t1Get_t1Put _ _ (toBytes 8 _)⟩
  · intro s hd r data n hn hp
    subst hn
    have hlen : (s.reduced hd r data).1.length = requestBytes 4 hd.lines := by
      rw [State.reduced, length_reduceBytes, whole_elements]
    rw [s.applyRequest_reduce hd r data hp]
    refine ⟨rfl, ?_⟩
    rw [State.t1Get, State.countSaturated_mem, ← State.t1Get, State.t1Get_t1Put_of_length _ _ hlen]
    rfl
  · intro var n old new k z hk hz
    subst hz
    exact reduceBytes_element var n old new k hk
  · intro s ptype hd r data hptype hp
    exact s.applyRequest_poisoned hd r data hptype hp
  · intro s hd r data n hn
    exact s.applyRequest_message hd r data hn
  · intro s ptype hd r data hptype
    exact s.applyRequest_others hd r data hptype

end Sys2Proof.Machine
end

