-- ==== Sys2Proof/Proofs/LullReports.lean ====
section
/-! The lull window and the packets of its arbiter (O49). -/

namespace Sys2Proof.Machine

/-- Taking a packet's number does not change who is the arbiter. -/
theorem State.taken_isArbiter (s : State) (hd : PacketHead) (v : Seen) : (s.taken hd v).isArbiter = s.isArbiter := rfl

/-- Settles O49: each row under the arbiter and the window it depends on. -/
theorem lullReports : Obligations.LullReports := by
  unfold Obligations.LullReports
  refine ⟨fun s => rfl, fun s => rfl, ?_, ?_, ?_, ?_, ?_⟩
  · intro s w e hfm harb hnamed
    simp only [State.sendTally, hfm, harb, hnamed, Bool.not_true, Bool.false_eq_true, if_false, if_true]
  · intro s hd cause kind id severity events v hfresh harb
    simp only [exec, execLullReportReceive, State.controlTake_fresh hfresh, State.taken_isArbiter, harb, if_true]
  · intro s hd cause kind id v hfresh
    simp only [exec, execLullNoticeReceive, State.controlTake_fresh hfresh]
  · intro s hd cause kind id window events v hfresh harb
    simp only [exec, execLullTallyReceive, State.controlTake_fresh hfresh, State.taken_isArbiter, harb, Bool.not_true, Bool.false_eq_true,
      if_false]
    rfl
  · intro s w hw
    simp only [exec, execArbiterTallySend, hw]

end Sys2Proof.Machine
end

