-- ==== Sys2Proof/Proofs/PowerInputs.lean ====
section
/-! The inputs, the sag, the laser check, the end of the inhibit and the brown-out (O50). -/

namespace Sys2Proof.Machine
namespace State

/-! ### The inputs (R425, R426) -/

/-- Metering the inputs does not choose between them. -/
theorem meterInputs_active (s : State) (main backup : Nat) :
    (s.meterInputs main backup).fld Reg.PWR_SUPSTAT.active = s.fld Reg.PWR_SUPSTAT.active :=
  s.meterInputs_fld main backup _ 0 (by decide)

/-! ### Write inhibit and hold (R428, R429) -/

/-- Inhibit and hold read as they were last stored. -/
theorem inhibit_hold_set (s : State) : ((s.setFld Reg.PWR_SUPSTAT.inhibit 1).setFld Reg.PWR_SUPSTAT.hold 1).flag Reg.PWR_SUPSTAT.inhibit = true ∧
    ((s.setFld Reg.PWR_SUPSTAT.inhibit 1).setFld Reg.PWR_SUPSTAT.hold 1).flag Reg.PWR_SUPSTAT.hold = true :=
  ⟨(flag_setFld_ne _ _ _ _ _ _ (by decide)).trans (flag_setFld_one _ _ _ (by decide) (by decide)), flag_setFld_one _ _ _ (by decide) (by decide)⟩

theorem inhibit_hold_cleared (s : State) :
    ((s.setFld Reg.PWR_SUPSTAT.inhibit 0).setFld Reg.PWR_SUPSTAT.hold 0).flag Reg.PWR_SUPSTAT.inhibit = false ∧
      ((s.setFld Reg.PWR_SUPSTAT.inhibit 0).setFld Reg.PWR_SUPSTAT.hold 0).flag Reg.PWR_SUPSTAT.hold = false :=
  ⟨(flag_setFld_ne _ _ _ _ _ _ (by decide)).trans (flag_setFld_zero _ _ _), flag_setFld_zero _ _ _⟩

/-! ### The rails (R475, R484) -/

/-- What a unit's change of state leaves alone: all but its busy time and what telling may change. -/
theorem setRun_keeps {β : Type} (g : State → β) (hbusy : ∀ (s : State) b r, g { s with busyNs := b, ranSince := r } = g s)
    (htell : ∀ (s t : State), s.Tells t → g t = g s) (s : State) (slot r : Nat) : g (s.setRun slot r) = g s := by
  unfold setRun
  split
  · rfl
  · exact (htell _ _ (((tells_setFld _ _ _ _).trans (tells_setFld _ _ _ _)).trans (tells_raiseUnit _ _ _ _))).trans (hbusy _ _ _)

/-- The rails, the power-good signal, the clocks and the byte stores. -/
def railState (s : State) : Nat × Nat × Bool × Bool × Memory := (s.coreMv, s.uncoreMv, s.pwrgd, s.clocks, s.mem)

/-- Units that lose power take no rail with them. -/
theorem railState_foldl_setRun (us : List Nat) (s : State) : (us.foldl (fun s u => s.setRun u Run.off) s).railState = s.railState := by
  induction us generalizing s with
  | nil => rfl
  | cons u us ih =>
    have htell (s t : State) (h : s.Tells t) : t.railState = s.railState := by
      obtain ⟨x, rfl⟩ := h
      rfl
    exact (ih _).trans (setRun_keeps railState (fun _ _ _ => rfl) htell s u Run.off)

/-- With the rails off both voltages are 0, nothing is power-good and the clocks stand; the byte stores are as they were. -/
theorem railsOff_rails (s : State) : s.railsOff.coreMv = 0 ∧ s.railsOff.uncoreMv = 0 ∧ s.railsOff.pwrgd = false ∧ s.railsOff.clocks = false ∧
    s.railsOff.mem = s.mem := by
  have h : s.railsOff.railState = (0, 0, false, false, s.mem) := railState_foldl_setRun _ _
  simp only [railState, Prod.mk.injEq] at h
  exact h

end State

/-! ### The rows -/

/-- Settles O50: each row under the voltages that start it. -/
theorem powerInputs : Obligations.PowerInputs := by
  unfold Obligations.PowerInputs
  refine ⟨?_, ?_, ?_, ?_, fun s => rfl, ?_, ?_, State.railsOff_rails⟩
  · intro s main backup u hu
    have hactive : u.fld Reg.PWR_SUPSTAT.active = s.fld Reg.PWR_SUPSTAT.active := hu ▸ s.meterInputs_active main backup
    refine ⟨fun ha hlow hhigh => ?_, fun ha hlow hhigh => ?_, fun ha hhigh => ?_, fun ha => ?_⟩
    · simp [exec, execInputSwitchOver, ← hu, hactive, ha, hlow, hhigh]
    · simp [exec, execInputSwitchOver, ← hu, hactive, ha, hlow, hhigh]
    · simp [exec, execReturnToMain, ← hu, hactive, ha, hhigh]
    · simp [exec, execReturnToMain, ← hu, hactive, ha]
  · intro s mv u w hfree hu hw
    have hset := State.inhibit_hold_set (s.setFld Reg.PWR_INMEAS.mv mv (s.fld Reg.PWR_SUPSTAT.active))
    rw [← hu] at hset
    refine ⟨hset.1, hset.2, ?_⟩
    simp only [exec, execInputBusSag, hfree, Bool.false_eq_true, if_false, ← hu, ← hw]
  · intro s mv u hinh hu
    simp only [exec, execLaserCheck, hinh, Bool.not_true, Bool.false_eq_true, if_false, ← hu]
  · intro s mv u w hinh hmv hu hw
    have hcleared := State.inhibit_hold_cleared (s.setFld Reg.PWR_INMEAS.mv mv (s.fld Reg.PWR_SUPSTAT.active))
    have hhigh : ¬ mv < 47000 := by omega
    rw [← hu] at hcleared
    refine ⟨hcleared.1, hcleared.2, ?_⟩
    simp only [exec, execInhibitClear, hinh, hhigh, Bool.not_true, decide_false, Bool.or_self, Bool.false_eq_true, if_false, ← hu, ← hw]
  · intro s hdue
    simp only [State.writeDue, hdue, if_true]
  · intro s hinh
    simp only [exec, execBrownOut, hinh, Bool.not_true, Bool.false_eq_true, if_false]

end Sys2Proof.Machine
end

