-- ==== Sys2Proof/Proofs/PowerAndHeat.lean ====
section
/-! The lease and the cap, the temperature limits, the fray monitors and the refit (O51). -/

namespace Sys2Proof.Machine
namespace State

variable {f : Field}

/-! ### The governors (R38, R433) -/

/-- The Gust governor changes no quiet field but those that show the pacing. -/
theorem gustGovern_fld (s : State) (i : Nat) (hf : f.quiet = true) (h : rateShown.all (fun g => !f.holds (g.key 0)) = true) :
    s.gustGovern.fld f i = s.fld f i := by
  unfold gustGovern
  split
  · rfl
  · exact showRate_fld _ i hf h

/-- A step of the pacing changes no quiet field but those that show it. -/
theorem paceDown_fld (s : State) (least i : Nat) (hf : f.quiet = true) (h : rateShown.all (fun g => !f.holds (g.key 0)) = true) :
    (s.paceDown least).fld f i = s.fld f i := showRate_fld _ i hf h

/-- The fields in which the effective cap shows. -/
def capShown : List Field := [Reg.PWR_CAP.given_w, Reg.PWR_CAP.received_w, Reg.PWR_CAP.cap_w]

/-- The effective cap changes no quiet field but its own and those that show the pacing. -/
theorem recap_fld (s : State) (i : Nat) (hf : f.quiet = true) (h : rateShown.all (fun g => !f.holds (g.key 0)) = true)
    (hcap : capShown.all (fun g => !f.holds (g.key 0)) = true) : s.recap.fld f i = s.fld f i := by
  have hp := ((quiet_iff f).mp hf).1
  simp only [capShown, List.all_cons, List.all_nil, Bool.and_true, Bool.and_eq_true, Bool.not_eq_true'] at hcap
  obtain ⟨hgiven, hreceived, heffective⟩ := hcap
  unfold recap
  simp only []
  rw [gustGovern_fld _ i hf h, fld_setFld_apart _ _ _ _ _ _ hp heffective, fld_setFld_apart _ _ _ _ _ _ hp hreceived,
    fld_setFld_apart _ _ _ _ _ _ hp hgiven]

/-! ### The lease (R434, R435) -/

/-- A lease in force after its expiry: at most 1,200 W, and the cap follows. -/
def expiredLease (s : State) : State :=
  ((s.setFld Reg.PWR_LEASE.budget_w (min 1200 (s.fld Reg.PWR_LEASE.budget_w))).setFld Reg.PWR_LEASE.state 2).recap

/-- The expiry of a lease: the lease in force, its event and its record. -/
def expireLease (s : State) : State :=
  (s.expiredLease.raise Reg.PWR_EVT.lease_expired Reg.PWR_EVTMASK.mask).recordFault 0x0705 .module [s.expiredLease.fld Reg.PWR_LEASE.seq]

theorem execLeaseExpire_active {s : State} (h : s.fld Reg.PWR_LEASE.state = 1) : exec .leaseExpire s = .next s.expireLease := by
  have hactive : ¬ s.fld Reg.PWR_LEASE.state ≠ 1 := by simp [h]
  simp only [exec, execLeaseExpire, hactive, if_false]
  rfl

/-- Reporting an expiry changes no quiet field that lies before the UNIT block, but the event and the latched fault. -/
theorem expireLease_fld (s : State) (hf : f.quiet = true) (hevt : f.holds (Reg.PWR_EVT.lease_expired.key 0) = false)
    (htop : topFault.all (fun g => !f.holds (g.key 0)) = true) (hone : f.stride = 0)
    (hlt : f.key 0 < Reg.UNIT_FAULT.cause.key 0 ∧ f.key 0 < Reg.UNIT_EVT.fault.key 0) : s.expireLease.fld f = s.expiredLease.fld f := by
  unfold expireLease
  rw [recordFault_fld_before_units _ _ _ _ hf htop hone hlt, raise_fld _ _ _ hf hevt]

theorem expiredLease_state (s : State) : s.expiredLease.fld Reg.PWR_LEASE.state = 2 := by
  unfold expiredLease
  rw [recap_fld _ _ (by decide) (by decide) (by decide), fld_setFld_same _ _ _ _ (by decide)]
  rfl

theorem expiredLease_budget (s : State) : s.expiredLease.fld Reg.PWR_LEASE.budget_w = min 1200 (s.fld Reg.PWR_LEASE.budget_w) := by
  unfold expiredLease
  rw [recap_fld _ _ (by decide) (by decide) (by decide), fld_setFld_apart _ _ _ _ _ _ (by decide) (by decide),
    fld_setFld_same _ _ _ _ (by decide)]
  exact Nat.mod_eq_of_lt (lt_of_le_of_lt (min_le_left _ _) (by decide))

theorem expiredLease_seq (s : State) : s.expiredLease.fld Reg.PWR_LEASE.seq = s.fld Reg.PWR_LEASE.seq := by
  unfold expiredLease
  rw [recap_fld _ _ (by decide) (by decide) (by decide), fld_setFld_apart _ _ _ _ _ _ (by decide) (by decide),
    fld_setFld_apart _ _ _ _ _ _ (by decide) (by decide)]

theorem expireLease_event (s : State) : s.expireLease.flag Reg.PWR_EVT.lease_expired = true := by
  unfold expireLease flag
  rw [recordFault_fld_before_units _ _ _ _ (by decide) (by decide) rfl (by decide)]
  exact raise_self _ _ _ (by decide) (by decide) (by decide)

theorem expireLease_mem (s : State) : s.expireLease.mem = s.mem :=
  ((tells_raise s.expiredLease _ _).trans (tells_recordFault _ _ _ _)).keeps_mem.trans (recap_stores _).1

/-! ### The cap (R433) -/

/-- What the meters show: the two averages and their sum. -/
def meterDraw (s : State) (main backup : Nat) : State :=
  ((s.setFld Reg.PWR_INMEAS.power_w main 0).setFld Reg.PWR_INMEAS.power_w backup 1).setFld Reg.PWR_CAP.draw_w (main + backup)

theorem meterDraw_cap (s : State) (main backup : Nat) : (s.meterDraw main backup).fld Reg.PWR_CAP.cap_w = s.fld Reg.PWR_CAP.cap_w := by
  unfold meterDraw
  rw [fld_setFld_apart _ _ _ _ _ _ (by decide) (by decide), fld_setFld_apart _ _ _ _ _ _ (by decide) (by decide),
    fld_setFld_apart _ _ _ _ _ _ (by decide) (by decide)]

/-! ### The diodes and the thermal state (R442 to R444) -/

/-- The diodes show their readings, in 1/16 °C. -/
def showDiodes (s : State) (temps : List (Int × Nat)) : State := temps.foldl (fun s x => s.setFld Reg.PWR_DIODE.temp (unsigned 16 x.1) x.2) s

theorem tells_showDiodes (temps : List (Int × Nat)) (s : State) : s.Tells (s.showDiodes temps) :=
  Tells.foldl (f := fun s (x : Int × Nat) => s.setFld Reg.PWR_DIODE.temp (unsigned 16 x.1) x.2) (fun s _ => tells_setFld s _ _ _) temps s

/-- The keys of two diodes differ. -/
theorem diode_key_ne {i j : Nat} (h : i ≠ j) : Reg.PWR_DIODE.temp.key i ≠ Reg.PWR_DIODE.temp.key j := by
  simp only [Field.key, Reg.PWR_DIODE.temp]
  omega

/-- Readings of later diodes leave a diode alone. -/
theorem showDiodes_before (temps : List Int) {i n : Nat} (h : i < n) (s : State) :
    (s.showDiodes (temps.zipIdx n)).fld Reg.PWR_DIODE.temp i = s.fld Reg.PWR_DIODE.temp i := by
  induction temps generalizing s n with
  | nil => rfl
  | cons x temps ih => exact (ih (by omega) _).trans (fld_setFld_ne _ _ _ _ _ _ (diode_key_ne (by omega)))

/-- A diode shows its reading. -/
theorem showDiodes_temp (temps : List Int) {k n : Nat} {x : Int} (hx : temps[k]? = some x) (hn : n + k < 72) (s : State) :
    (s.showDiodes (temps.zipIdx n)).fld Reg.PWR_DIODE.temp (n + k) = unsigned 16 x := by
  induction temps generalizing s n k with
  | nil => simp at hx
  | cons y temps ih =>
    cases k with
    | zero =>
      obtain rfl : y = x := by simpa using hx
      refine (showDiodes_before temps (Nat.lt_succ_self n) _).trans ((fld_setFld_same _ _ _ _ hn).trans (Nat.mod_eq_of_lt ?_))
      exact unsigned_lt 16 y
    | succ k =>
      have hnext := ih (n := n + 1) (k := k) (by simpa using hx) (by omega) (s.setFld Reg.PWR_DIODE.temp (unsigned 16 y) n)
      rwa [show n + 1 + k = n + (k + 1) by omega] at hnext

/-- The readings change no field that lies before the diodes. -/
theorem showDiodes_apart (hone : f.stride = 0 ∧ f.count = 1) (hlt : f.key 0 < Reg.PWR_DIODE.temp.key 0) (temps : List (Int × Nat)) (s : State) :
    (s.showDiodes temps).fld f = s.fld f := by
  induction temps generalizing s with
  | nil => rfl
  | cons x temps ih =>
    exact (ih _).trans (fld_setFld_apart _ _ _ _ _ _ (by simp [Field.plain, hone.2]) (Field.holds_of_before hone.1 hlt x.2))

/-- The reports of a thermal state and the pacing that follows it. -/
def showThermal (s : State) (was st : Nat) : State :=
  let s := if was = 0 ∧ st ≠ 0 then s.raise Reg.PWR_EVT.throttle Reg.PWR_EVTMASK.mask else s
  let s := if was = 0 ∧ st = 1 ∧ s.breeze then s.paceDown 50 else s
  let s := if was ≠ 2 ∧ st = 2 then
      (s.raise Reg.PWR_EVT.thermal_hold Reg.PWR_EVTMASK.mask).recordFault 0x0701 .module [s.fld Reg.PWR_THERM.tj_max]
    else s
  if was = st then s else s.showRate

theorem setThermal_shows (s : State) (st : Nat) :
    s.setThermal st = (s.setFld Reg.PWR_THERM.state st).showThermal (s.fld Reg.PWR_THERM.state) st := rfl

/-- A field that no thermal report changes. -/
structure OffThermal (f : Field) : Prop where
  quiet : f.quiet = true
  rate : rateShown.all (fun g => !f.holds (g.key 0)) = true
  throttle : f.holds (Reg.PWR_EVT.throttle.key 0) = false
  hold : f.holds (Reg.PWR_EVT.thermal_hold.key 0) = false
  top : topFault.all (fun g => !f.holds (g.key 0)) = true
  units : ∀ n, f.holds (Reg.UNIT_FAULT.cause.key n) = false ∧ f.holds (Reg.UNIT_EVT.fault.key n) = false

theorem showThermal_fld (h : OffThermal f) (s : State) (was st i : Nat) : (s.showThermal was st).fld f i = s.fld f i := by
  have hthrottle : (if was = 0 ∧ st ≠ 0 then s.raise Reg.PWR_EVT.throttle Reg.PWR_EVTMASK.mask else s).fld f i = s.fld f i := by
    split
    · exact raise_fld _ _ _ h.quiet h.throttle
    · rfl
  have hpace (t : State) : (if was = 0 ∧ st = 1 ∧ t.breeze then t.paceDown 50 else t).fld f i = t.fld f i := by
    split
    · exact paceDown_fld _ _ _ h.quiet h.rate
    · rfl
  have hhold (t : State) : (if was ≠ 2 ∧ st = 2 then (t.raise Reg.PWR_EVT.thermal_hold Reg.PWR_EVTMASK.mask).recordFault 0x0701 .module
      [t.fld Reg.PWR_THERM.tj_max] else t).fld f i = t.fld f i := by
    split
    · rw [recordFault_fld _ _ _ _ h.quiet h.top h.units, raise_fld _ _ _ h.quiet h.hold]
    · rfl
  unfold showThermal
  simp only []
  split
  · rw [hhold, hpace, hthrottle]
  · rw [showRate_fld _ _ h.quiet h.rate, hhold, hpace, hthrottle]

theorem offThermal_state : OffThermal Reg.PWR_THERM.state where
  quiet := by decide
  rate := by decide
  throttle := by decide
  hold := by decide
  top := by decide
  units n := ⟨Field.holds_of_before rfl (by decide) n, Field.holds_of_before rfl (by decide) n⟩

theorem offThermal_diode : OffThermal Reg.PWR_DIODE.temp where
  quiet := by decide
  rate := by decide
  throttle := by decide
  hold := by decide
  top := by decide
  units n := by
    simp only [Field.holds, Field.key, Reg.PWR_DIODE.temp, Reg.UNIT_FAULT.cause, Reg.UNIT_EVT.fault, Bool.and_eq_false_iff]
    constructor <;> right <;> simp <;> omega

end State

/-- The thermal state is 0, 1 or 2. -/
theorem thermalNext_lt (st : Nat) (t : Int) (throttle : Nat) : thermalNext st t throttle < 4 := by
  unfold thermalNext
  split_ifs <;> omega

namespace State

/-- A reading of the diodes: what they show, and the hottest of them. -/
def readDiodes (s : State) (temps : List Int) : State :=
  ((s.showDiodes (temps.take 72).zipIdx).setFld Reg.PWR_THERM.tj_max ((hottest (temps.take 72)).2 / 16).toNat).setFld Reg.PWR_THERM.diode
    (hottest (temps.take 72)).1

/-- A reading shows in three fields: a field that lies before the diodes and is no other of them stays. -/
theorem readDiodes_fld (s : State) (temps : List Int) (hone : f.stride = 0 ∧ f.count = 1) (hlt : f.key 0 < Reg.PWR_DIODE.temp.key 0)
    (hmax : f.holds (Reg.PWR_THERM.tj_max.key 0) = false) (hdiode : f.holds (Reg.PWR_THERM.diode.key 0) = false) :
    (s.readDiodes temps).fld f = s.fld f := by
  have hp : f.plain = true := by simp [Field.plain, hone.2]
  unfold readDiodes
  rw [fld_setFld_apart _ _ _ _ _ _ hp hdiode, fld_setFld_apart _ _ _ _ _ _ hp hmax, showDiodes_apart hone hlt]

theorem readDiodes_temp (s : State) {temps : List Int} {i : Nat} {x : Int} (hi : i < 72) (hx : temps[i]? = some x) :
    (s.readDiodes temps).fld Reg.PWR_DIODE.temp i = unsigned 16 x := by
  have hshown := showDiodes_temp (temps.take 72) (k := i) (n := 0) (by rw [List.getElem?_take_of_lt hi]; exact hx) (by omega) s
  unfold readDiodes
  rw [fld_setFld_apart _ _ _ _ _ _ (by decide) (by decide), fld_setFld_apart _ _ _ _ _ _ (by decide) (by decide)]
  rwa [Nat.zero_add] at hshown

theorem tells_readDiodes (s : State) (temps : List Int) : s.Tells (s.readDiodes temps) :=
  ((tells_showDiodes _ s).trans (tells_setFld _ _ _ _)).trans (tells_setFld _ _ _ _)

/-- The state after a sample: the reading, the thermal state it leads to, and the governor. -/
def sampleDiodes (s : State) (temps : List Int) : State :=
  ((s.readDiodes temps).setThermal
    (thermalNext (s.fld Reg.PWR_THERM.state) (hottest (temps.take 72)).2 (s.fld Reg.PWR_THCFG.throttle_c))).gustGovern

theorem execDiodeSample_next (s : State) (temps : List Int) : exec (.diodeSample temps) s = .next (s.sampleDiodes temps) := by
  have hstate := s.readDiodes_fld temps (f := Reg.PWR_THERM.state) (by decide) (by decide) (by decide) (by decide)
  have hthrottle := s.readDiodes_fld temps (f := Reg.PWR_THCFG.throttle_c) (by decide) (by decide) (by decide) (by decide)
  unfold sampleDiodes
  rw [← hstate, ← hthrottle]
  rfl

theorem sampleDiodes_state (s : State) (temps : List Int) : (s.sampleDiodes temps).fld Reg.PWR_THERM.state =
    thermalNext (s.fld Reg.PWR_THERM.state) (hottest (temps.take 72)).2 (s.fld Reg.PWR_THCFG.throttle_c) := by
  unfold sampleDiodes
  rw [gustGovern_fld _ _ offThermal_state.quiet offThermal_state.rate, setThermal_shows, showThermal_fld offThermal_state,
    fld_setFld_same _ _ _ _ (by decide)]
  exact Nat.mod_eq_of_lt (thermalNext_lt _ _ _)

theorem sampleDiodes_temp (s : State) (temps : List Int) (i : Nat) :
    (s.sampleDiodes temps).fld Reg.PWR_DIODE.temp i = (s.readDiodes temps).fld Reg.PWR_DIODE.temp i := by
  unfold sampleDiodes
  rw [gustGovern_fld _ _ offThermal_diode.quiet offThermal_diode.rate, setThermal_shows, showThermal_fld offThermal_diode,
    fld_setFld_apart _ _ _ _ _ _ (by decide) (by decide)]

theorem sampleDiodes_mem (s : State) (temps : List Int) : (s.sampleDiodes temps).mem = s.mem :=
  (gustGovern_stores _).1.trans ((setThermal_stores _ _).1.trans (s.tells_readDiodes temps).keeps_mem)

end State

/-! ### The refit (R449, R450) -/

/-- The floor lies from 600 mV without drift to 700 mV at 10 %, and the assist level is at most 3. -/
theorem refit_bounds (d : Int) :
    600 ≤ refitFloor d ∧ refitFloor d ≤ 700 ∧ refitAssist d ≤ 3 ∧ (d ≤ 0 → refitFloor d = 600) ∧ (100 ≤ d → refitFloor d = 700) := by
  have hsteps (n : Nat) : ceilDiv n 5 = (n + 4) / 5 := by
    unfold ceilDiv
    rw [if_neg (by decide)]
    split <;> omega
  have hassist : refitAssist d ≤ 3 := by
    unfold refitAssist
    split_ifs <;> omega
  unfold refitFloor
  rw [hsteps]
  exact ⟨by omega, by omega, hassist, fun h => by omega, fun h => by omega⟩

/-- Settles O51: each row under the state it starts from. -/
theorem powerAndHeat : Obligations.PowerAndHeat := by
  unfold Obligations.PowerAndHeat
  refine ⟨?_, ?_, ?_, ?_, ?_, ?_, ?_, ?_, ?_, refit_bounds⟩
  · intro s hs
    have hfld {f : Field} := s.expireLease_fld (f := f)
    exact ⟨s.expireLease, State.execLeaseExpire_active hs,
      (hfld (by decide) (by decide) (by decide) rfl (by decide)).trans s.expiredLease_state,
      (hfld (by decide) (by decide) (by decide) rfl (by decide)).trans s.expiredLease_budget, s.expireLease_event,
      (hfld (by decide) (by decide) (by decide) rfl (by decide)).trans s.expiredLease_seq, s.expireLease_mem⟩
  · intro s main backup u hu
    have hcap : u.fld Reg.PWR_CAP.cap_w = s.fld Reg.PWR_CAP.cap_w := hu ▸ s.meterDraw_cap main backup
    refine ⟨fun habove => ?_, fun hbelow hfree hless => ?_, fun hbelow hlimited => ?_⟩
    · simp only [exec, execCapPacingStep, ← hu, hcap, habove, if_true]
    · simp [exec, execCapPacingStep, ← hu, hcap, Nat.not_lt.mpr hbelow, hfree, Nat.not_le.mpr hless]
    · simp [exec, execCapPacingStep, ← hu, hcap, Nat.not_lt.mpr hbelow, hlimited]
  · intro s temps
    exact ⟨s.sampleDiodes temps, s.execDiodeSample_next temps, s.sampleDiodes_state temps,
      fun i x hi hx => (s.sampleDiodes_temp temps i).trans (s.readDiodes_temp hi hx), s.sampleDiodes_mem temps⟩
  · intro s u hs hu
    simp [exec, execThrottleStep, hs, ← hu]
  · intro s diode htrip
    obtain ⟨hcore, huncore, hpwrgd, hclocks, -⟩ := (State.moduleFault { s with trip := true, thermtrip := true }
      0x0702 .module [diode, s.fld Reg.PWR_THERM.tj_max]).lasersOff.railsOff_rails
    exact ⟨_, by simp only [exec, execThermalTrip, htrip, Bool.false_eq_true, if_false], rfl, hpwrgd, hclocks, hcore, huncore⟩
  · intro s counts u hup hpower hu
    refine ⟨fun d hd => ?_, fun hnone => ?_⟩
    · simp [exec, execFraySample, hup, hpower, hd, ← hu]
    · simp [exec, execFraySample, hup, hpower, hnone, ← hu]
  · intro s hup hpower
    simp [exec, execRefitPeriod, hup, hpower]
  · intro s ht
    simp [exec, execRefitRequest, State.hostWrite_takes ht]
  · intro s counts u hbusy hup hu
    refine ⟨fun d hd => ?_, fun hnone => ?_⟩
    · simp [exec, execRefitComplete, hbusy, hup, hd, ← hu]
    · simp [exec, execRefitComplete, hbusy, hup, hnone, ← hu]

end Sys2Proof.Machine
end

