-- ==== Sys2Proof/Proofs/Tailwind.lean ====
section
/-! Tailwind: reports, decisions, grants and their ends (O52). -/

namespace Sys2Proof.Machine

/-! ### The neediest member (R440) -/

/-- A member is at least as needy as another: less slack, or the same and no higher endpoint. -/
def TwReport.needier (r x : TwReport) : Prop := r.slack < x.slack ∨ (r.slack = x.slack ∧ r.ep ≤ x.ep)

theorem TwReport.needier_refl (r : TwReport) : r.needier r := .inr ⟨rfl, le_rfl⟩

theorem TwReport.needier_trans {r x y : TwReport} (h : r.needier x) (k : x.needier y) : r.needier y := by
  unfold needier at *
  omega

/-- The choice keeps the needier of the member chosen so far and the next. -/
def keepNeedier (b : Option TwReport) (r : TwReport) : Option TwReport :=
  match b with
  | none => some r
  | some x => if r.slack < x.slack ∨ (r.slack = x.slack ∧ r.ep < x.ep) then some r else some x

theorem neediest_eq (rs : List TwReport) (own : Nat) :
    neediest rs own = (rs.filter fun r => r.eligible && decide (r.slack < own)).foldl keepNeedier none := rfl

/-- Of two members the choice keeps one that is at least as needy as both. -/
theorem keepNeedier_some (x r : TwReport) :
    ∃ y, keepNeedier (some x) r = some y ∧ (y = x ∨ y = r) ∧ y.needier x ∧ y.needier r := by
  by_cases h : r.slack < x.slack ∨ (r.slack = x.slack ∧ r.ep < x.ep)
  · exact ⟨r, if_pos h, .inr rfl, by unfold TwReport.needier; omega, r.needier_refl⟩
  · exact ⟨x, if_neg h, .inl rfl, x.needier_refl, by unfold TwReport.needier; omega⟩

/-- Over a list the choice ends with a member that is at least as needy as all. -/
theorem foldl_keepNeedier (l : List TwReport) (b : TwReport) :
    ∃ y, l.foldl keepNeedier (some b) = some y ∧ y ∈ b :: l ∧ ∀ x ∈ b :: l, y.needier x := by
  induction l generalizing b with
  | nil => exact ⟨b, rfl, List.mem_singleton_self b, by simp [TwReport.needier_refl]⟩
  | cons r l ih =>
    obtain ⟨z, hz, hmem, hzb, hzr⟩ := keepNeedier_some b r
    obtain ⟨y, hy, hyl, hall⟩ := ih z
    have hyz : y.needier z := hall z List.mem_cons_self
    refine ⟨y, by rw [List.foldl_cons, hz, hy], ?_, fun x hx => ?_⟩
    · rcases List.mem_cons.mp hyl with rfl | hyl
      · rcases hmem with rfl | rfl <;> simp
      · simp [hyl]
    · simp only [List.mem_cons] at hx
      rcases hx with rfl | rfl | hx
      · exact TwReport.needier_trans hyz hzb
      · exact TwReport.needier_trans hyz hzr
      · exact hall x (List.mem_cons_of_mem _ hx)

/-- The neediest member is an eligible one with less slack, and none of those is needier. -/
theorem neediest_some {rs : List TwReport} {own : Nat} {r : TwReport} (h : neediest rs own = some r) :
    r ∈ rs ∧ r.eligible = true ∧ r.slack < own ∧ ∀ x ∈ rs, x.eligible = true → x.slack < own → r.needier x := by
  rw [neediest_eq] at h
  cases hl : rs.filter fun r => r.eligible && decide (r.slack < own) with
  | nil => simp [hl] at h
  | cons b l =>
    obtain ⟨y, hy, hmem, hall⟩ := foldl_keepNeedier l b
    obtain rfl : y = r := by
      rw [hl] at h
      exact Option.some_inj.mp (hy.symm.trans h)
    rw [← hl] at hmem hall
    obtain ⟨hrs, hcond⟩ := List.mem_filter.mp hmem
    simp only [Bool.and_eq_true, decide_eq_true_eq] at hcond
    exact ⟨hrs, hcond.1, hcond.2, fun x hx he hs => hall x (List.mem_filter.mpr ⟨hx, by simp [he, hs]⟩)⟩

/-- Where there is no neediest member, no eligible one has less slack. -/
theorem neediest_none {rs : List TwReport} {own : Nat} (h : neediest rs own = none) (x : TwReport) (hx : x ∈ rs) (he : x.eligible = true) :
    own ≤ x.slack := by
  by_contra hless
  rw [neediest_eq] at h
  cases hl : rs.filter fun r => r.eligible && decide (r.slack < own) with
  | nil =>
    have hmem : x ∈ rs.filter fun r => r.eligible && decide (r.slack < own) := List.mem_filter.mpr ⟨hx, by simp [he]; omega⟩
    rw [hl] at hmem
    exact absurd hmem (by simp)
  | cons b l =>
    obtain ⟨y, hy, -⟩ := foldl_keepNeedier l b
    rw [hl] at h
    exact absurd (hy.symm.trans h) (by simp)

/-! ### A decision (R440) -/

namespace State

/-- The state after a decision has shown whether every report is there. -/
def showHistory (s : State) (full : Bool) (n : Nat) : State := (s.setFlag Reg.PWR_TWSTAT.history full).setFld Reg.PWR_TWSTAT.reports n

/-- Showing the reports changes none of the fields a decision reads. -/
theorem showHistory_fld (s : State) (full : Bool) (n i : Nat) {f : Field} (hp : f.plain = true)
    (hhistory : f.holds (Reg.PWR_TWSTAT.history.key 0) = false) (hreports : f.holds (Reg.PWR_TWSTAT.reports.key 0) = false) :
    (s.showHistory full n).fld f i = s.fld f i := by
  unfold showHistory setFlag
  rw [fld_setFld_apart _ _ _ _ _ _ hp hreports, fld_setFld_apart _ _ _ _ _ _ hp hhistory]

/-- A donor gives to the neediest member, or nothing where there is none. -/
def giveNeediest (s : State) (rs : List TwReport) (slack expiry : Nat) : State :=
  match neediest rs slack with
  | some r => s.giveGrant r.ep false 1 (s.donation slack) expiry
  | none => s

variable {s u : State} {w : Nat} {rs : List TwReport} {own : TwReport}

/-- A donor with every report gives to the neediest member. -/
theorem execTailwindDecision_donor (hin : s.tailwind = true) (hw : w = s.endedWindow)
    (hrs : rs = if s.twWindow = some w then s.twReports else []) (hown : (rs.find? fun r => r.ep == s.fld Reg.FAB_EPID.ep) = some own)
    (he : own.eligible = true) (hgust : s.breeze = false) (hslack : s.fld Reg.PWR_TWCFG.slack_pct ≤ own.slack)
    (hmany : 1 < s.fld Reg.FAB_GRP.count (s.fld Reg.PWR_TWCFG.grp)) (hfull : s.fld Reg.FAB_GRP.count (s.fld Reg.PWR_TWCFG.grp) ≤ rs.length)
    (hu : u = s.showHistory true rs.length) : exec .tailwindDecision s = .next (u.giveNeediest rs own.slack ((w + 2) * 1000000 + 20000)) := by
  have hep : u.fld Reg.FAB_EPID.ep = s.fld Reg.FAB_EPID.ep := hu ▸ s.showHistory_fld _ _ _ (by decide) (by decide) (by decide)
  have hpct : u.fld Reg.PWR_TWCFG.slack_pct = s.fld Reg.PWR_TWCFG.slack_pct :=
    hu ▸ s.showHistory_fld _ _ _ (by decide) (by decide) (by decide)
  have hmode : u.breeze = false := by
    rw [breeze, flag, hu, s.showHistory_fld _ _ _ (by decide) (by decide) (by decide)]
    exact hgust
  rw [← hep] at hown
  rw [← hpct] at hslack
  simp only [showHistory] at hu
  simp only [exec, execTailwindDecision, hin, Bool.not_true, Bool.false_eq_true, if_false, ← hw, ← hrs, hfull, decide_true, ← hu, hown, he, hmode,
    Nat.not_lt.mpr hslack, Nat.not_le.mpr hmany, decide_false, Bool.or_self, if_true]
  rfl

end State

/-- Settles O52: each row under its conditions, and what the choice of the neediest member is. -/
theorem tailwind : Obligations.Tailwind := by
  unfold Obligations.Tailwind
  refine ⟨?_, ?_, ?_, ?_, ?_, fun _ _ _ h => neediest_some h, fun _ _ h => neediest_none h, ?_, fun _ _ => rfl, fun _ _ => rfl⟩
  · intro s grp ht
    simp only [exec, execTailwindEnable, State.hostWrite_takes ht]
  · intro s grp u hu
    subst hu
    rfl
  · intro s slack u hin hu
    subst hu
    exact ⟨_, rfl, by simp only [exec, execTailwindReportSend, hin, Bool.not_true, Bool.false_eq_true, if_false]⟩
  · intro s hd job slack eligible window v hfresh hin hjob hsrc
    have hin' : (s.taken hd v).tailwind = true := hin
    have hjob' : job = (s.taken hd v).fld Reg.PWR_TWCFG.job := hjob
    have hsrc' : hd.source ≠ (s.taken hd v).fld Reg.FAB_EPID.ep := hsrc
    simp [exec, execTailwindReportReceive, State.controlTake_fresh hfresh, hin', ← hjob', hsrc']
  · intro s w grp rs u own hin hw hgrp hrs hown he hgust hslack hmany hfull hu
    subst hgrp
    have hdecision := State.execTailwindDecision_donor hin hw hrs hown he hgust hslack hmany hfull hu
    exact ⟨fun r hr => by rw [hdecision, State.giveNeediest, hr], fun hr => by rw [hdecision, State.giveNeediest, hr]⟩
  · intro s hd job watts expiry v hfresh hsrc hjob hen hgust
    have hsrc' : ¬ hd.source = (s.taken hd v).fld Reg.FAB_EPID.ep := hsrc
    have hjob' : job = (s.taken hd v).fld Reg.PWR_TWCFG.job := hjob
    have hen' : (s.taken hd v).flag Reg.PWR_TWCFG.en = true := hen
    have hgust' : (s.taken hd v).breeze = false := hgust
    refine ⟨fun hbefore => ?_, fun hafter => ?_⟩
    · have hnow : (s.taken hd v).gsc < expiry := hbefore
      simp [exec, execTailwindGrantReceive, State.controlTake_fresh hfresh, hsrc', ← hjob', hen', hgust', hnow]
      rfl
    · have hnow : ¬ (s.taken hd v).gsc < expiry := Nat.not_lt.mpr hafter
      simp [exec, execTailwindGrantReceive, State.controlTake_fresh hfresh, hsrc', ← hjob', hen', hgust', hnow]

end Sys2Proof.Machine
end

