-- ==== Sys2Proof/Proofs/PldmMessages.lean ====
section
/-! What Brilo answers to MCTP control and to the PLDM messages outside firmware update (O54). -/

namespace Sys2Proof.Machine
namespace State

variable {s : State} {binding : Nat}

/-- A PLDM command on a binding that Brilo answers is answered with its completion code and data. -/
theorem pldmCmd_answers (h : s.answers binding false = true) (ep type cmd : Nat) (k : State → Nat × List Nat × State) :
    s.pldmCmd binding ep type cmd k = (k s).2.2.emit (.message binding ep (pldm type cmd (k s).1 (k s).2.1)) :=
  message_answers h ep _

/-- A PLDM command whose meaning is known is answered with it. -/
theorem pldmCmd_of (h : s.answers binding false = true) (ep type cmd : Nat) {k : State → Nat × List Nat × State} {cc : Nat} {data : List Nat}
    {t : State} (hk : k s = (cc, data, t)) : s.pldmCmd binding ep type cmd k = t.emit (.message binding ep (pldm type cmd cc data)) := by
  rw [pldmCmd_answers h, hk]

end State

/-! ### The base commands (R461) -/

section

variable {s : State} {binding : Nat} (h : s.answers binding false = true) (ep : Nat)
include h

theorem execGetPldmVersion_known {type : Nat} (ht : type ∈ pldmTypes) : exec (.getPldmVersion binding ep type) s =
    .next (s.free.2.emit (.message binding ep (pldm 0 0x03 0 [s.free.1]))) :=
  congrArg Host.Outcome.next (State.pldmCmd_of h ep _ _ (if_pos (by simpa using ht)))

theorem execGetPldmVersion_unknown {type : Nat} (ht : type ∉ pldmTypes) : exec (.getPldmVersion binding ep type) s =
    .next (s.emit (.message binding ep (pldm 0 0x03 0x83))) :=
  congrArg Host.Outcome.next (State.pldmCmd_of h ep _ _ (if_neg (by simpa using ht)))

theorem execGetPldmCommands_known {type : Nat} (ht : type ∈ pldmTypes) : exec (.getPldmCommands binding ep type) s =
    .next (s.emit (.message binding ep (pldm 0 0x05 0 (pldmCommands type)))) :=
  congrArg Host.Outcome.next (State.pldmCmd_of h ep _ _ (if_pos (by simpa using ht)))

theorem execGetPldmCommands_unknown {type : Nat} (ht : type ∉ pldmTypes) : exec (.getPldmCommands binding ep type) s =
    .next (s.emit (.message binding ep (pldm 0 0x05 0x83))) :=
  congrArg Host.Outcome.next (State.pldmCmd_of h ep _ _ (if_neg (by simpa using ht)))

theorem execSetTid_valid {tid : Nat} (hlo : 0 < tid) (hhi : tid < 255) : exec (.setTid binding ep tid) s =
    .next ((s.modBrilo fun b => { b with tid := tid }).emit (.message binding ep (pldm 0 0x01 0))) :=
  congrArg Host.Outcome.next (State.pldmCmd_of h ep _ _ (if_neg (by omega)))

theorem execSetTid_invalid {tid : Nat} (ht : tid = 0 ∨ 255 ≤ tid) : exec (.setTid binding ep tid) s =
    .next (s.emit (.message binding ep (pldm 0 0x01 2))) :=
  congrArg Host.Outcome.next (State.pldmCmd_of h ep _ _ (if_pos ht))

/-! ### The platform commands (R454, R461) -/

variable {sensor : Nat}

theorem execGetSensorReading_enabled (hin : sensor ∈ numericSensors) (hon : Table.get 0 s.brilo.sensorsOff sensor = 0)
    (hp : s.sensorPowered sensor = true) : exec (.getSensorReading binding ep sensor) s =
      .next ((s.sensorValue sensor).2.emit (.message binding ep (pldm 2 0x11 0 [0, (s.sensorValue sensor).1]))) :=
  congrArg Host.Outcome.next (State.pldmCmd_of h ep _ _ (by simp [hin, hon, hp]))

theorem execGetSensorReading_unpowered (hin : sensor ∈ numericSensors) (hon : Table.get 0 s.brilo.sensorsOff sensor = 0)
    (hp : s.sensorPowered sensor = false) : exec (.getSensorReading binding ep sensor) s =
      .next (s.emit (.message binding ep (pldm 2 0x11 0 [2]))) :=
  congrArg Host.Outcome.next (State.pldmCmd_of h ep _ _ (by simp [hin, hon, hp]))

theorem execGetSensorReading_unknown (hin : sensor ∉ numericSensors) : exec (.getSensorReading binding ep sensor) s =
    .next (s.emit (.message binding ep (pldm 2 0x11 0x80))) :=
  congrArg Host.Outcome.next (State.pldmCmd_of h ep _ _ (by simp [hin]))

theorem execSetNumericSensorEnable_known (hin : sensor ∈ numericSensors) {st : Nat} (hst : st ≤ 2) :
    exec (.setNumericSensorEnable binding ep sensor st) s = .next ((s.modBrilo fun b =>
      { b with sensorsOff := Table.set 0 b.sensorsOff sensor st }).emit (.message binding ep (pldm 2 0x10 0))) :=
  congrArg Host.Outcome.next (State.pldmCmd_of h ep _ _ (by simp [hin, Nat.not_lt.mpr hst]))

theorem execSetNumericSensorEnable_range (hin : sensor ∈ numericSensors) {st : Nat} (hst : 2 < st) :
    exec (.setNumericSensorEnable binding ep sensor st) s = .next (s.emit (.message binding ep (pldm 2 0x10 0x81))) :=
  congrArg Host.Outcome.next (State.pldmCmd_of h ep _ _ (by simp [hin, hst]))

theorem execSetNumericSensorEnable_unknown (hin : sensor ∉ numericSensors) (st : Nat) :
    exec (.setNumericSensorEnable binding ep sensor st) s = .next (s.emit (.message binding ep (pldm 2 0x10 0x80))) :=
  congrArg Host.Outcome.next (State.pldmCmd_of h ep _ _ (by simp [hin]))

theorem execGetStateSensorReadings_known (hin : sensor ∈ stateSensors) : exec (.getStateSensorReadings binding ep sensor) s =
    .next (s.emit (.message binding ep (pldm 2 0x21 0 [1, 0, s.sensorState sensor]))) :=
  congrArg Host.Outcome.next (State.pldmCmd_of h ep _ _ (if_pos (by simpa using hin)))

theorem execGetStateSensorReadings_unknown (hin : sensor ∉ stateSensors) : exec (.getStateSensorReadings binding ep sensor) s =
    .next (s.emit (.message binding ep (pldm 2 0x21 0x80))) :=
  congrArg Host.Outcome.next (State.pldmCmd_of h ep _ _ (if_neg (by simpa using hin)))

theorem execGetPdr_found {handle id : Nat} (hid : sensors[max 1 handle - 1]? = some id) : exec (.getPdr binding ep handle) s =
    .next (s.emit (.message binding ep (pldm 2 0x51 0 [if max 1 handle < sensors.length then max 1 handle + 1 else 0, id,
      ofFlag (stateSensors.contains id)]))) :=
  congrArg Host.Outcome.next (State.pldmCmd_of h ep _ _ (by simp only [hid]))

theorem execGetPdr_missing {handle : Nat} (hn : sensors.length < handle) : exec (.getPdr binding ep handle) s =
    .next (s.emit (.message binding ep (pldm 2 0x51 0x82))) :=
  have hnone : sensors[max 1 handle - 1]? = none := List.getElem?_eq_none (by omega)
  congrArg Host.Outcome.next (State.pldmCmd_of h ep _ _ (by simp only [hnone]))

theorem execSetStateEffecterStates_known (value : Nat) : exec (.setStateEffecterStates binding ep 0x200 value) s =
    .next ((if value = 1 ∧ s.pwrgd = true then s.startRefit else s).emit (.message binding ep (pldm 2 0x39 0))) :=
  congrArg Host.Outcome.next (State.pldmCmd_of h ep _ _ (if_neg (by simp)))

theorem execSetStateEffecterStates_unknown {effecter : Nat} (he : effecter ≠ 0x200) (value : Nat) :
    exec (.setStateEffecterStates binding ep effecter value) s = .next (s.emit (.message binding ep (pldm 2 0x39 0x80))) :=
  congrArg Host.Outcome.next (State.pldmCmd_of h ep _ _ (if_pos he))

/-! ### The commands of Table 19.7 (R434, R458) -/

theorem execSetLease_open (hb : binding = 0 ∨ binding = 2) (budget lease : Nat) : exec (.setLease binding ep budget lease) s =
    .next ((s.takeLease budget lease).2.emit (.message binding ep (pldm 63 0x01 0 [(s.takeLease budget lease).1]))) :=
  congrArg Host.Outcome.next (State.pldmCmd_of h ep _ _ (if_pos hb))

theorem execSetLease_elsewhere (hb : binding = 1 ∨ binding = 3) (budget lease : Nat) : exec (.setLease binding ep budget lease) s =
    .next (s.emit (.message binding ep (pldm 63 0x01 5))) :=
  congrArg Host.Outcome.next (State.pldmCmd_of h ep _ _ (if_neg (by omega)))

theorem execGetLogRecords_some {count : Nat} (hlo : 1 ≤ count) (hhi : count ≤ 16) (first : Nat) (bad : List (Nat × List Byte)) :
    exec (.getLogRecords binding ep first count bad) s = .next (s.emit (.message binding ep (pldm 63 0x03 0
      (count :: ((List.range count).flatMap fun k => s.logAnswer bad ((first + k) % 2 ^ 32)))))) :=
  congrArg Host.Outcome.next (State.pldmCmd_of h ep _ _ (if_neg (by omega)))

theorem execGetLogRecords_range {count : Nat} (hc : count = 0 ∨ 16 < count) (first : Nat) (bad : List (Nat × List Byte)) :
    exec (.getLogRecords binding ep first count bad) s = .next (s.emit (.message binding ep (pldm 63 0x03 2))) :=
  congrArg Host.Outcome.next (State.pldmCmd_of h ep _ _ (if_pos hc))

end

/-- Settles O54: each message under its operands, and the completion code of each that lies out of range. -/
theorem pldmMessages : Obligations.PldmMessages := by
  unfold Obligations.PldmMessages
  refine ⟨?_, ?_, ?_, ?_, ?_, ?_, ?_, ?_, ?_, ?_, ?_, ?_, ?_⟩
  · intro s binding ep eid h
    exact congrArg Host.Outcome.next (State.message_answers h ep _)
  · intro s binding ep row hrow h
    simp only [List.mem_cons, List.not_mem_nil, or_false] at hrow
    rcases hrow with rfl | rfl | rfl | rfl | rfl | rfl
    all_goals exact congrArg Host.Outcome.next (State.pldmCmd_of h ep _ _ rfl)
  · intro s binding ep type h ht
    exact ⟨execGetPldmVersion_known h ep ht, execGetPldmCommands_known h ep ht⟩
  · intro s binding ep tid h hlo hhi
    exact execSetTid_valid h ep hlo hhi
  · intro s binding ep sensor h hin
    exact ⟨execGetSensorReading_enabled h ep hin, execGetSensorReading_unpowered h ep hin,
      fun st hst => execSetNumericSensorEnable_known h ep hin hst⟩
  · intro s binding ep sensor h hin
    exact execGetSensorReading_unknown h ep hin
  · intro s binding ep sensor h hin
    exact execGetStateSensorReadings_known h ep hin
  · intro s binding ep handle id h hid
    exact execGetPdr_found h ep hid
  · intro s binding ep receiver enable h
    exact congrArg Host.Outcome.next (State.pldmCmd_of h ep _ _ rfl)
  · intro s binding ep value h
    exact execSetStateEffecterStates_known h ep value
  · intro s binding ep budget lease h hb
    exact execSetLease_open h ep hb budget lease
  · intro s binding ep first count bad h hlo hhi
    exact execGetLogRecords_some h ep hlo hhi first bad
  · intro s binding ep n h
    exact ⟨fun hin st => execSetNumericSensorEnable_unknown h ep hin st, fun hin st hst => execSetNumericSensorEnable_range h ep hin hst,
      fun hin => execGetStateSensorReadings_unknown h ep hin,
      fun ht => ⟨execGetPldmVersion_unknown h ep ht, execGetPldmCommands_unknown h ep ht⟩, fun hn => execGetPdr_missing h ep hn,
      fun hn => execSetTid_invalid h ep hn, fun hn v => execSetStateEffecterStates_unknown h ep hn v,
      fun hn first bad => execGetLogRecords_range h ep hn first bad, fun hb b l => execSetLease_elsewhere h ep hb b l⟩

end Sys2Proof.Machine
end

