-- ==== Sys2Proof/Proofs/PowerOnSelection.lean ====
section
/-! The input the carrier selects at power-on (O57). -/

namespace Sys2Proof.Machine

/-- The selected input and the stage read as the carrier stores them. -/
theorem State.select_fields (t : State) {input : Nat} (h : input < 2) :
    ((t.setFld Reg.PWR_SUPSTAT.active input).setFld Reg.TOP_STARTSTAT.stage 1).fld Reg.PWR_SUPSTAT.active = input ∧
      ((t.setFld Reg.PWR_SUPSTAT.active input).setFld Reg.TOP_STARTSTAT.stage 1).fld Reg.TOP_STARTSTAT.stage = 1 := by
  refine ⟨?_, State.fld_setFld_same _ _ _ _ (by decide)⟩
  rw [State.fld_setFld_ne _ _ _ _ _ _ (by decide), State.fld_setFld_same _ _ _ _ (by decide)]
  exact Nat.mod_eq_of_lt h

/-- With an input at 50 V or above the start begins at stage 1, on P54A where that is one of them. -/
theorem execPowerOnReset_selects (s : State) {main backup : Nat} (found : PowerOn) (h : ¬ (main < 50000 ∧ backup < 50000)) :
    ∃ t, exec (.powerOnReset ⟨main, backup⟩ found) s = .next t ∧ t.fld Reg.PWR_SUPSTAT.active = (if 50000 ≤ main then 0 else 1) ∧
      t.fld Reg.TOP_STARTSTAT.stage = 1 :=
  ⟨_, congrArg Host.Outcome.next (if_neg h), State.select_fields _ (by split <;> decide)⟩

/-- Settles O57: of the two inputs at 50 V or above the first is selected; without one nothing starts. -/
theorem powerOnSelection : Obligations.PowerOnSelection := by
  unfold Obligations.PowerOnSelection
  refine ⟨fun s main backup found hmain => ?_, fun s main backup found hmain hbackup => ?_, fun s main backup found hmain hbackup => ?_⟩
  · have h := execPowerOnReset_selects s (backup := backup) found (fun hlow => absurd hlow.1 (Nat.not_lt.mpr hmain))
    rwa [if_pos hmain] at h
  · have h := execPowerOnReset_selects s found (fun hlow : main < 50000 ∧ backup < 50000 => absurd hlow.2 (Nat.not_lt.mpr hbackup))
    rwa [if_neg (Nat.not_le.mpr hmain)] at h
  · exact congrArg Host.Outcome.next (if_pos ⟨hmain, hbackup⟩)

end Sys2Proof.Machine
end

