-- ==== Sys2Proof/Proofs/ManagementCore.lean ====
section
/-! The management core: its start, a healthy image, the log page, the log fetch and the mailbox (O53). -/

namespace Sys2Proof.Machine
namespace State

/-! ### A healthy image (R465) -/

/-- A trial image that is healthy is committed: it is no longer in trial, and the counter rises to its svn. -/
def commitTrial (s : State) : State :=
  let t := (s.setFld Reg.MGT_STATUS.healthy 1).modPersist fun p => { p with trial := false, trials := 0 }
  let u := { t with counter := max t.counter (min 64 (t.fld Reg.MGT_STATUS.svn)) }
  (u.setFld Reg.MGT_STATUS.trial 0).setFld Reg.MGT_STATUS.counter u.counter

theorem commitTrial_persist (s : State) : s.commitTrial.persist = { s.persist with trial := false, trials := 0 } := rfl

theorem commitTrial_counter (s : State) : s.commitTrial.counter = max s.counter (min 64 (s.fld Reg.MGT_STATUS.svn)) := by
  have hsvn : (s.setFld Reg.MGT_STATUS.healthy 1).fld Reg.MGT_STATUS.svn = s.fld Reg.MGT_STATUS.svn :=
    fld_setFld_apart _ _ _ _ _ _ (by decide) (by decide)
  rw [← hsvn]
  rfl

theorem commitTrial_healthy (s : State) : s.commitTrial.flag Reg.MGT_STATUS.healthy = true := by
  unfold commitTrial
  rw [flag_setFld_ne _ _ _ _ _ _ (by decide), flag_setFld_ne _ _ _ _ _ _ (by decide)]
  exact flag_setFld_one s Reg.MGT_STATUS.healthy 0 (by decide) (by decide)

theorem commitTrial_trial (s : State) : s.commitTrial.flag Reg.MGT_STATUS.trial = false := by
  unfold commitTrial
  rw [flag_setFld_ne _ _ _ _ _ _ (by decide)]
  exact flag_setFld_zero _ _ _

/-- A running image that is not yet known healthy is marked, or committed where it is in trial. -/
theorem execImageHealthy_running {s : State} (hup : s.briloUp = true) (hnew : s.flag Reg.MGT_STATUS.healthy = false)
    (hrun : s.flag Reg.MGT_STATUS.recovery = false) (hfree : s.inhibited = false) : exec .imageHealthy s =
      .next (if s.flag Reg.MGT_STATUS.trial then s.commitTrial else s.setFld Reg.MGT_STATUS.healthy 1) := by
  have htrial : (s.setFld Reg.MGT_STATUS.healthy 1).flag Reg.MGT_STATUS.trial = s.flag Reg.MGT_STATUS.trial :=
    flag_setFld_ne _ _ _ _ _ _ (by decide)
  simp only [exec, execImageHealthy, hup, hnew, hrun, hfree, Bool.not_true, Bool.or_self, Bool.false_eq_true, if_false, htrial]
  cases s.flag Reg.MGT_STATUS.trial <;> rfl

/-! ### The start of the core (R464) -/

/-- What the boot ROM runs, once it has updated the selection record. -/
def bootImage (u : State) : State :=
  let i := u.persist.preferred
  if u.imageValid (u.persist.image i) then u.runImage i
  else if u.imageValid (u.persist.image (1 - i)) then
    ((u.runImage (1 - i)).logRecord 3 2 0 slotXdieA [i]).recordFault 0x0801 (.unit slotXdieA) [i]
  else u.enterRecovery 0x0202

/-- A core that is down in a started module boots, where no write of the selection record has to wait. -/
theorem execManagementCoreStart_boots {s : State} (hdown : s.briloUp = false) (hstage : s.fld Reg.TOP_STARTSTAT.stage ≠ 0)
    (hfree : s.persist.trial = true → s.inhibited = false) :
    exec .managementCoreStart s = .next (s.modPersist Persist.boot).bootImage := by
  have hwait : (s.persist.trial && s.inhibited) = false := by
    cases ht : s.persist.trial with
    | false => rfl
    | true => exact hfree ht
  simp only [exec, execManagementCoreStart, hdown, hwait, beq_false_of_ne hstage, Bool.or_self, Bool.false_eq_true, if_false]
  rfl

end State

/-- Settles O53: each row under the state of the core that it needs. -/
theorem managementCore : Obligations.ManagementCore := by
  unfold Obligations.ManagementCore
  refine ⟨?_, ?_, ?_, ?_, ?_, ?_, ?_, ?_⟩
  · intro s u i hdown hstage hfree hu hi
    rw [State.execManagementCoreStart_boots hdown hstage hfree, ← hu, State.bootImage, ← hi]
    refine ⟨fun hv => ?_, fun hv hw => ?_, fun hv hw => ?_⟩
    · simp only [hv, if_true]
    · simp only [hv, hw, Bool.false_eq_true, if_false, if_true]
    · simp only [hv, hw, Bool.false_eq_true, if_false]
  · intro s hup hnew hrun hfree
    rw [State.execImageHealthy_running hup hnew hrun hfree]
    refine ⟨fun ht => ?_, fun ht => ?_⟩
    · simp only [ht, Bool.false_eq_true, if_false]
    · exact ⟨s.commitTrial, by simp only [ht, if_true], rfl, rfl, rfl, s.commitTrial_counter, s.commitTrial_healthy, s.commitTrial_trial⟩
  · intro s hup ht hnew
    simp [exec, execTrialWatchdogExpire, hup, ht, hnew]
  · intro s hup hfree hbuffer
    simp [exec, execLogPageTimeout, hup, hfree, hbuffer]
  · intro s seq ht
    simp only [exec, execLogFetch, State.hostWrite_takes ht]
  · intro s hup hready
    refine ⟨fun corrupt hnone => ?_, fun r hr => ⟨?_, fun bs => ?_⟩⟩
    · simp only [exec, execLogFetchComplete, hup, hready, hnone, Bool.not_true, Bool.or_self, Bool.false_eq_true, if_false]
    · simp only [exec, execLogFetchComplete, hup, hready, hr, Bool.not_true, Bool.or_self, Bool.false_eq_true, if_false]
    · simp only [exec, execLogFetchComplete, hup, hready, hr, Bool.not_true, Bool.or_self, Bool.false_eq_true, if_false]
  · intro s len ht
    refine ⟨fun hbusy => ?_, fun hbusy => ?_⟩
    · simp only [exec, execMailboxGo, State.hostWrite_takes ht, hbusy, Bool.false_eq_true, if_false]
    · simp only [exec, execMailboxGo, State.hostWrite_takes ht, hbusy, if_true]
  · intro s response hup hbusy
    simp only [exec, execMailboxResponseReady, hup, hbusy, Bool.not_true, Bool.or_self, Bool.false_eq_true, if_false]

end Sys2Proof.Machine
end

