-- ==== Sys2Proof/Proofs/FirmwareUpdate.lean ====
section
/-! A firmware update: its agent, its steps, and what verification leaves (O55). -/

namespace Sys2Proof.Machine
namespace State

variable {s : State} {binding ep : Nat}

/-- A firmware update command whose meaning is known is answered with it. -/
theorem updateCmd_of (h : s.answers binding true = true) (cmd : Nat) {k : State → Nat × List Nat × State} {cc : Nat} {data : List Nat} {t : State}
    (hk : k s = (cc, data, t)) : s.updateCmd binding ep cmd k = t.emit (.message binding ep (pldm 5 cmd cc data)) := by
  rw [updateCmd, message_answers h, hk]

/-- A command of the agent in update mode is carried out. -/
theorem agentCmd_of (h : s.answers binding true = true) (cmd : Nat) {u : Update} (hu : s.brilo.update = some u) (hb : u.binding = binding)
    (ha : u.agent = ep) {k : State → Update → Nat × List Nat × State} {cc : Nat} {data : List Nat} {t : State} (hk : k s u = (cc, data, t)) :
    s.agentCmd binding ep cmd k = t.emit (.message binding ep (pldm 5 cmd cc data)) :=
  updateCmd_of h cmd (by simp only [hu, hb, ha, and_self, if_true, hk])

/-- A command of another agent is answered that it is not in update mode. -/
theorem agentCmd_other (h : s.answers binding true = true) (cmd : Nat) {u : Update} (hu : s.brilo.update = some u)
    (hother : u.binding ≠ binding ∨ u.agent ≠ ep) (k : State → Update → Nat × List Nat × State) :
    s.agentCmd binding ep cmd k = s.emit (.message binding ep (pldm 5 cmd 0x80)) :=
  updateCmd_of h cmd (by
    have hne : ¬ (u.binding = binding ∧ u.agent = ep) := by tauto
    simp only [hu, hne, if_false])

/-! ### Update mode (R466) -/

theorem execRequestUpdate_enters (h : s.answers binding true = true) (hnone : s.brilo.update = none) (htrial : s.flag Reg.MGT_STATUS.trial = false)
    (hown : s.flag Reg.MGT_STATUS.recovery = true ∨ s.fld Reg.MGT_STATUS.image = s.persist.preferred) :
    exec (.requestUpdate binding ep) s = .next ((s.modBrilo fun b =>
      { b with update := some ⟨binding, ep, false, none, 0, [], false⟩ }).emit (.message binding ep (pldm 5 0x10 0))) := by
  refine congrArg Host.Outcome.next (updateCmd_of h _ ?_)
  rcases hown with hown | hown <;> simp [hnone, htrial, hown]

theorem execRequestUpdate_unfit (h : s.answers binding true = true) (hnone : s.brilo.update = none)
    (hunfit : s.flag Reg.MGT_STATUS.trial = true ∨ s.flag Reg.MGT_STATUS.recovery = false ∧ s.fld Reg.MGT_STATUS.image ≠ s.persist.preferred) :
    exec (.requestUpdate binding ep) s = .next (s.emit (.message binding ep (pldm 5 0x10 0x8A))) := by
  refine congrArg Host.Outcome.next (updateCmd_of h _ ?_)
  rcases hunfit with hunfit | ⟨hrun, hother⟩
  · simp [hnone, hunfit]
  · simp [hnone, hrun, hother]

theorem execRequestUpdate_other (h : s.answers binding true = true) {u : Update} (hu : s.brilo.update = some u)
    (hother : u.binding ≠ binding ∨ u.agent ≠ ep) :
    exec (.requestUpdate binding ep) s = .next (s.emit (.message binding ep (pldm 5 0x10 0x81))) :=
  congrArg Host.Outcome.next (updateCmd_of h _ (by rcases hother with hother | hother <;> simp [hu, hother]))

/-! ### The transfer (R463, R466) -/

/-- While the transfer goes on, a part either ends it or asks for the next. -/
theorem execFirmwareDataReceive_part (h : s.answers binding true = true) (hfree : s.inhibited = false) {u : Update} (hu : s.brilo.update = some u)
    (hb : u.binding = binding) (ha : u.agent = ep) (hslot : u.slot ≠ none) (hver : u.verified = false) (hmore : u.data.length < u.length)
    {data : List Byte} {v : Update} (hv : v = { u with data := (u.data ++ data).take u.length }) :
    exec (.firmwareDataReceive binding ep data) s =
      .next (if v.data.length = v.length then s.verifyUpdate v else (s.setUpdate (some v)).askData v) := by
  subst hv
  have hgoes : ¬ (u.binding ≠ binding ∨ u.agent ≠ ep ∨ u.slot.isNone = true ∨ u.verified = true ∨ u.length ≤ u.data.length) := by
    simp [hb, ha, hslot, hver, hmore]
  simp only [exec, execFirmwareDataReceive, h, hfree, hu, hgoes, Bool.not_true, Bool.or_self, Bool.false_eq_true, if_false]

/-- The slot an update wrote holds what it put there, and the other slot what it held. -/
theorem image_setImage (p : Persist) {i : Nat} (hi : i = 0 ∨ i = 1) (im : Image) :
    (p.setImage i im).image i = im ∧ (p.setImage i im).image (1 - i) = p.image (1 - i) := by
  rcases hi with rfl | rfl <;> exact ⟨rfl, rfl⟩

/-- Verification changes the persistence area in the update's slot only: a good image stands there, a bad one leaves none. -/
theorem verifyUpdate_persist (s : State) (u : Update) : (s.verifyUpdate u).persist =
    s.persist.setImage (u.slot.getD 0) (if s.imageValid (parseImage u.data) then parseImage u.data else Image.none) := by
  unfold verifyUpdate
  simp only []
  split <;> rfl

/-! ### The activation (R466) -/

/-- An activation makes the new image preferred and in trial; the core restarts at once, or after a start or shutdown in progress. -/
theorem execActivateFirmware_verified (h : s.answers binding true = true) (hfree : s.inhibited = false) {u : Update}
    (hu : s.brilo.update = some u) (hb : u.binding = binding) (ha : u.agent = ep) (hver : u.verified = true) {t : State}
    (ht : t = (s.modPersist fun p => { p with preferred := u.slot.getD 0, trial := true, trials := 0 }).emit
      (.message binding ep (pldm 5 0x1A 0))) :
    exec (.activateFirmware binding ep) s = .next (if s.starting || s.shuttingDown then
      t.modBrilo fun b => { b with restartDue := true, update := none } else t.coreRestart) := by
  have hready : (s.brilo.update.any fun u => u.binding == binding && u.agent == ep && u.verified) = true := by simp [hu, hb, ha, hver]
  have hcmd : (s.agentCmd binding ep 0x1A fun s u =>
      if !u.verified then (0x84, [], s)
      else (0, [], s.modPersist fun p => { p with preferred := u.slot.getD 0, trial := true, trials := 0 })) = t := by
    rw [ht]
    exact agentCmd_of h _ hu hb ha (by simp [hver])
  simp only [exec, execActivateFirmware, hfree, h, hready, hcmd, Bool.not_true, Bool.or_self, Bool.false_eq_true, if_false]

end State

/-- Settles O55: each command of the agent in update mode, and what others are answered. -/
theorem firmwareUpdate : Obligations.FirmwareUpdate := by
  unfold Obligations.FirmwareUpdate
  refine ⟨?_, ?_, ?_, ?_, ?_⟩
  · intro s binding ep row hrow h
    simp only [List.mem_cons, List.not_mem_nil, or_false] at hrow
    rcases hrow with rfl | rfl | rfl
    all_goals exact congrArg Host.Outcome.next (State.updateCmd_of h _ rfl)
  · intro s binding ep h hnone
    exact ⟨State.execRequestUpdate_enters h hnone, State.execRequestUpdate_unfit h hnone⟩
  · intro s binding ep u h hu hother
    exact ⟨State.execRequestUpdate_other h hu hother, congrArg Host.Outcome.next (State.agentCmd_other h _ hu hother _)⟩
  · intro s binding ep u h hu hb ha
    refine ⟨?_, ?_, ?_, ?_, ?_, ?_⟩
    · exact congrArg Host.Outcome.next (State.agentCmd_of h _ hu hb ha rfl)
    · intro length hfree hpassed hlo hhi
      have hin : ¬ (length = 0 ∨ 1835008 < length) := by omega
      refine ⟨_, rfl, ?_⟩
      simp only [exec, execUpdateComponent, hfree, Bool.false_eq_true, if_false]
      exact congrArg Host.Outcome.next (State.agentCmd_of h _ hu hb ha (by simp [hpassed, hin]))
    · intro data hfree hslot hver hmore
      exact ⟨_, rfl, State.execFirmwareDataReceive_part h hfree hu hb ha hslot hver hmore rfl⟩
    · exact congrArg Host.Outcome.next (State.agentCmd_of h _ hu hb ha rfl)
    · exact congrArg Host.Outcome.next (State.agentCmd_of h _ hu hb ha rfl)
    · intro t hfree hver ht
      rw [State.execActivateFirmware_verified h hfree hu hb ha hver ht]
      refine ⟨fun hstart hshut => ?_, fun hwait => ?_⟩
      · simp only [hstart, hshut, Bool.or_self, Bool.false_eq_true, if_false]
      · rw [if_pos (by simpa using hwait)]
  · intro s u hslot
    have hi : u.slot.getD 0 = 0 ∨ u.slot.getD 0 = 1 := by rcases hslot with hslot | hslot <;> simp [hslot]
    rw [s.verifyUpdate_persist u]
    exact State.image_setImage _ hi _

end Sys2Proof.Machine
end

