-- ==== Sys2Proof/Proofs/SpdmMessages.lean ====
section
/-! What Brilo answers to SPDM: the connection, the chain, measurements and sessions (O56). -/

namespace Sys2Proof.Machine
namespace State

variable {s : State} {binding ep : Nat}

/-! ### Requests in their order (R462, R485) -/

/-- A request is answered as it means, while Brilo is not busy. -/
theorem spdm_of (h : s.answers binding false = true) (hfree : s.brilo.busy = false) {k : State → List Nat × State} {body : List Nat} {t : State}
    (hk : k s = (body, t)) : s.spdm binding ep k = t.emit (.message binding ep body) := by
  rw [spdm, message_answers h]
  simp only [hfree, Bool.false_eq_true, if_false, hk]

/-- While Brilo is busy every request is answered Busy. -/
theorem spdm_busy (h : s.answers binding false = true) (hbusy : s.brilo.busy = true) (k : State → List Nat × State) :
    s.spdm binding ep k = s.emit (.message binding ep (spdmError 3)) := by
  rw [spdm, message_answers h]
  simp only [hbusy, if_true]

/-- A request of a requester that has come far enough is answered as it means. -/
theorem spdmAfter_of (h : s.answers binding false = true) (hfree : s.brilo.busy = false) {n : Nat} (hn : n ≤ s.spdmPhase binding ep)
    {k : State → List Nat × State} {body : List Nat} {t : State} (hk : k s = (body, t)) :
    s.spdmAfter binding ep n k = t.emit (.message binding ep body) :=
  spdm_of h hfree ((if_neg (Nat.not_lt.mpr hn)).trans hk)

/-- A secured request of a requester with a session is answered as it means. -/
theorem secured_of (hb : binding = 1 ∨ binding = 3) (h : s.answers binding false = true) (hfree : s.brilo.busy = false) {x : Session}
    (hx : s.session? binding ep = some x) {k : State → Session → List Nat × State} {body : List Nat} {t : State} (hk : k s x = (body, t)) :
    s.secured binding ep k = t.emit (.message binding ep body) := by
  have hpath : ¬ (binding ≠ 1 ∧ binding ≠ 3) := by omega
  rw [secured, if_neg hpath]
  exact spdm_of h hfree (by simp only [hx, hk])

/-- While Brilo is busy a secured request is answered Busy too. -/
theorem secured_busy (hb : binding = 1 ∨ binding = 3) (h : s.answers binding false = true) (hbusy : s.brilo.busy = true)
    (k : State → Session → List Nat × State) : s.secured binding ep k = s.emit (.message binding ep (spdmError 3)) := by
  have hpath : ¬ (binding ≠ 1 ∧ binding ≠ 3) := by omega
  rw [secured, if_neg hpath]
  exact spdm_busy h hbusy _

/-! ### Measurements and sessions (R462) -/

theorem execGetMeasurements_block (h : s.answers binding false = true) (hfree : s.brilo.busy = false) (hn : 3 ≤ s.spdmPhase binding ep) {i : Nat}
    (hlo : 1 ≤ i) (hhi : i ≤ 5) : exec (.getMeasurements binding ep i) s =
      .next (s.emit (.message binding ep ([5, 0x60] ++ i :: (s.measurement i).map (·.toNat)))) := by
  have hnotnone : ¬ i = 0 := by omega
  have hnotall : ¬ i = 255 := by omega
  exact congrArg Host.Outcome.next (spdmAfter_of h hfree hn (by simp only [hnotnone, hnotall, Nat.not_lt.mpr hhi, if_false]))

theorem execKeyExchange_opens (h : s.answers binding false = true) (hfree : s.brilo.busy = false) (hn : 3 ≤ s.spdmPhase binding ep)
    (hroom : s.brilo.sessions.length < 4) (hnone : s.session? binding ep = none) : exec (.keyExchange binding ep) s = .next ((s.free.2.modBrilo fun b =>
      { b with sessions := b.sessions ++ [(⟨binding, ep, false⟩ : Session)] }).emit (.message binding ep [5, 0x64, s.free.1])) :=
  congrArg Host.Outcome.next (spdmAfter_of h hfree hn (if_neg (by simp [hnone, hroom])))

theorem execKeyExchange_full (h : s.answers binding false = true) (hfree : s.brilo.busy = false) (hn : 3 ≤ s.spdmPhase binding ep)
    (hfull : 4 ≤ s.brilo.sessions.length ∨ s.session? binding ep ≠ none) :
    exec (.keyExchange binding ep) s = .next (s.emit (.message binding ep (spdmError 3))) :=
  congrArg Host.Outcome.next (spdmAfter_of h hfree hn (if_pos (by rwa [Option.isSome_iff_ne_none])))

end State

/-- Settles O56: the requests in their order, the secured ones of a session, and Busy for all of them. -/
theorem spdmMessages : Obligations.SpdmMessages := by
  unfold Obligations.SpdmMessages
  refine ⟨?_, ?_, fun _ _ _ => rfl, ?_⟩
  · intro s binding ep h hfree
    refine ⟨congrArg Host.Outcome.next (State.spdm_of h hfree rfl), fun hn => ?_, fun hn => ?_, fun hn => ⟨?_, fun offset length => ?_, ?_, ?_,
      fun i hlo hhi => ?_, fun hroom hnone => ?_, fun hfull => ?_⟩⟩
    · exact congrArg Host.Outcome.next (State.spdmAfter_of h hfree hn rfl)
    · exact congrArg Host.Outcome.next (State.spdmAfter_of h hfree hn rfl)
    · exact congrArg Host.Outcome.next (State.spdmAfter_of h hfree hn rfl)
    · exact congrArg Host.Outcome.next (State.spdmAfter_of h hfree hn (if_neg (by simp)))
    · exact congrArg Host.Outcome.next (State.spdmAfter_of h hfree hn (if_neg (by simp)))
    · exact congrArg Host.Outcome.next (State.spdmAfter_of h hfree hn (if_pos rfl))
    · exact State.execGetMeasurements_block h hfree hn hlo hhi
    · exact State.execKeyExchange_opens h hfree hn hroom hnone
    · exact State.execKeyExchange_full h hfree hn hfull
  · intro s binding ep x hb h hfree hx
    refine ⟨fun hkeys => ?_, fun hkeys => ⟨?_, ?_⟩⟩
    · exact congrArg Host.Outcome.next (State.secured_of hb h hfree hx (if_neg (by simp [hkeys])))
    · exact congrArg Host.Outcome.next (State.secured_of hb h hfree hx (if_pos hkeys))
    · exact congrArg Host.Outcome.next (State.secured_of hb h hfree hx (if_pos hkeys))
  · intro s binding ep c hc h hbusy
    have hspdm (k : State → List Nat × State) := congrArg (Host.Outcome.next (φ := Fault) (ρ := Refusal)) (State.spdm_busy (ep := ep) h hbusy k)
    rcases hc with hc | ⟨slot, offset, length, rfl⟩ | ⟨i, rfl⟩ | ⟨hb, hc⟩
    · simp only [List.mem_cons, List.not_mem_nil, or_false] at hc
      rcases hc with rfl | rfl | rfl | rfl | rfl | rfl
      all_goals exact hspdm _
    · exact hspdm _
    · exact hspdm _
    · simp only [List.mem_cons, List.not_mem_nil, or_false] at hc
      rcases hc with rfl | rfl | rfl
      all_goals exact congrArg Host.Outcome.next (State.secured_busy hb h hbusy _)

end Sys2Proof.Machine
end
